-- ==== Sys2Proof/Word.lean ====
section
/-!
DEFINITION. The words of the ZB64: bytes and 32-bit register words (R9), nothing else.
-/

namespace Sys2Proof

/-- One byte, as packets, entries and payloads hold it (R9). -/
abbrev Byte := BitVec 8

/-- One register word of BAR0 or of the safety view (R97). -/
abbrev Word := BitVec 32

end Sys2Proof
end

