-- ==== Sys2Proof/Machine/Types.lean ====
section
/-!
DEFINITION. The kinds of things the ZB64 names: sources and packets (R144, R145), frames and their records (R121),
islands, functions and supplies (R15, R50, R62), power states (R72), memory regions (R30, R31). Plain data only.
-/

namespace Sys2Proof

/-- Who sent a command (R145). The stack master is the sender of a forwarded command. -/
inductive Source where
  | ctx (c : Fin 64)
  | sp
  | master
  deriving DecidableEq, Repr

/-- A command packet (R144): the header fields the sender writes, and the bytes after the header.
CONTEXT is `source`, which the ZB64 writes (R145). -/
structure Packet where
  source   : Source
  opcode   : Nat
  flags    : Byte
  plen     : Nat
  tag      : Nat
  target   : Byte
  reserved : List Byte
  params   : List Byte
  deriving DecidableEq, Repr

/-- Frame formats (R192). -/
inductive Format where
  | cc
  | fd
  | xl
  deriving DecidableEq, Repr

/-- A frame's header as FMT, IDENT and AF of R121 hold it. -/
structure Hdr where
  fmt   : Format
  ide   : Bool
  rtr   : Bool
  brs   : Bool
  esi   : Bool
  sec   : Bool
  ident : Nat
  af    : Nat
  deriving DecidableEq, Repr

/-- A frame on a bus: its header, its payload and its frame-start stamp (R213). -/
structure Frame where
  hdr   : Hdr
  len   : Nat
  data  : List Byte
  stamp : Nat
  deriving DecidableEq, Repr

/-- The functions that have a bit in GEN_FUNC_READY (R62). -/
inductive Func where
  | aon | host | cmd | mem | route | time | bank0 | bank1 | bank2 | bank3
  | load | cvu | linka | linkb | adc | mram
  deriving DecidableEq, Repr

/-- The islands fed by a PLL, in the order of the SOURCE column of fault-log class 0x04 (R39). -/
inductive Pll where
  | host | core | route | time | bank (b : Fin 4)
  deriving DecidableEq, Repr

/-- The supplies whose fall is a brown-out (R39 class 0x06, R51). -/
inductive Supply where
  | vdd | vddpcie08 | vddlnk08 | vdda18 | vddpcie18 | vddio33
  deriving DecidableEq, Repr

/-- Power states (R72), coded as SET_POWER_STATE's STATE. -/
inductive PowerState where
  | active | standby | retain | off
  deriving DecidableEq, Repr

/-- Causes of the last reset, RESET_CAUSE of R70. -/
inductive ResetCause where
  | powerOn | brownOut | warm | resume
  deriving DecidableEq, Repr

/-- Firmware slots (R31). -/
inductive Slot where
  | a | b
  deriving DecidableEq, Repr

/-- The memory regions of R30 and R31, as fault-log class 0x01 numbers them. -/
inductive Region where
  | signalTable | payloadPool | filterStore | pduTable | moDescriptors | admissionRecords
  | commandRam | queueStorage | census | filmstrip | statistics
  | slotA | slotB | settingsA | settingsB | security | faultLog | reserve
  deriving DecidableEq, Repr

/-- What a read of one memory word found (R33, R34, R36). -/
inductive Finding where
  | clean
  | corrected
  | uncorrectable
  deriving DecidableEq, Repr

/-- Error codes of R272. -/
inductive ErrCode where
  | none | bit | stuff | form | crc | ack | tdc | cell
  deriving DecidableEq, Repr

/-- Field codes of R272. -/
inductive FieldCode where
  | sofArb | control | data | crc | delimAck | eof | errOvl | interSuspend
  deriving DecidableEq, Repr

/-- The two Talrax ports. -/
inductive Port where
  | a | b
  deriving DecidableEq, Repr

end Sys2Proof
end

