-- ==== Sys2Proof/Machine/TypesHost.lean ====
section
/-!
DEFINITION. State of the supervisor, the fault log, the memory counters, the host ports and the safety port
(chapters *Architecture and clock islands*, *Start-up, readiness and power states*, *Host ports and register map*).
-/

namespace Sys2Proof

/-! ### Replies, events, records -/

/-- A reply packet (R148). `dest` is the source the reply goes back to. -/
structure Reply where
  dest     : Source
  opcode   : Nat
  tag      : Nat
  status   : Nat
  position : Nat
  detail   : Nat
  body     : List Byte
  deriving DecidableEq, Repr

/-- An event as it waits in an EVTQ (R124); LOST is filled in when the entry is written. -/
structure Event where
  code   : Nat
  source : Nat
  stamp  : Nat
  data   : List Byte
  deriving DecidableEq, Repr

/-- A frame or completion record in the layout of R121. -/
structure Rec where
  ty      : Nat
  result  : Nat
  hdr     : Hdr
  channel : Nat
  len     : Nat
  filter  : Nat
  stamp   : Nat
  mo      : Nat
  moValid : Bool
  lost    : Nat
  tag     : Nat
  deriving DecidableEq, Repr

/-- An item in an RXQ: a record, its payload, and the RX ring it is addressed to (R333). -/
structure RxItem where
  ring : Nat
  record : Rec
  data : List Byte
  deriving DecidableEq, Repr

/-! ### Supervisor (AON) -/

/-- Where the device stands between a reset and a running supervisor (R50, R52, R63). -/
inductive Phase where
  /-- A supply has browned out; held until every supply has been good for 1 ms (R52). -/
  | brownedOut
  /-- Out of reset, the supervisor not yet started (R63). -/
  | starting
  /-- The supervisor runs (AON set). -/
  | running
  deriving DecidableEq, Repr

/-- A power-state transition in progress (R79): where it goes, from where, and the command whose reply waits for the commit. -/
structure Transition where
  target  : PowerState
  from_   : PowerState
  command : Option Packet
  deriving DecidableEq, Repr

/-- A PLL that has lost lock, and the readiness bits to set again when it relocks (R17). -/
structure LostPll where
  pll  : Pll
  bits : BitVec 32
  deriving DecidableEq, Repr

/-- The supervisor's state: reset and boot status (R70), readiness (R62), power (R72), wake (R85, R86). -/
structure Aon where
  phase       : Phase
  ready       : BitVec 32
  resetCause  : ResetCause
  bootSlot    : Option Slot
  proof       : Bool
  fallback    : Bool
  stackId     : BitVec 3
  bootResult  : Nat
  power       : PowerState
  transition  : Option Transition
  /-- Readiness bits that RETAIN took away, to come back on the resume (R79). -/
  retained    : BitVec 32
  perstnLow   : Bool
  /-- The supplies of R51 that have risen above their release thresholds, by the codes of fault-log class 0x06 (R50). -/
  supplies    : BitVec 6
  lostPlls    : List LostPll
  refLost     : Bool
  wake        : BitVec 64
  wakeMask    : BitVec 64
  wakeFilter  : Nat
  armedMask   : BitVec 64
  armedFilter : Nat
  deriving DecidableEq, Repr

/-! ### Fault log and memory counters -/

/-- One fault-log entry (R39). `readable` is false for an entry that is torn or uncorrectable and so is skipped (R36, R39). -/
structure FaultEntry where
  seq      : Nat
  cls      : Nat
  acked    : Bool
  source   : Nat
  stamp    : Nat
  info1    : Nat
  info2    : Nat
  readable : Bool
  deriving DecidableEq, Repr

/-- The fault log in MRAM: entries in the order written, at most 2,048, and the next sequence number (R39). -/
structure FaultLog where
  entries : List FaultEntry
  nextSeq : Nat
  deriving DecidableEq, Repr

/-- The counters of R37 for one region. -/
structure MemCounter where
  corrected : Nat
  uncorr    : Nat
  lastAddr  : Nat
  deriving DecidableEq, Repr

/-- The memory and crossing counters of R37: eleven SRAM regions and the MRAM, the retired payload cells, and the
parity drops of the sixteen paths of R23. -/
structure MemCounters where
  regions : Vector MemCounter 12
  retired : Nat
  parity  : Vector Nat 16
  deriving DecidableEq, Repr

/-! ### Host ports -/

/-- A ring of a function (R108): its register block and its indices.
`prod` is the producer index, `cons` the consumer index, `limit` the credit limit of a host-produced ring,
`fetched` the entries already fetched from a host-produced ring. -/
structure Ring where
  baseLo    : Word
  baseHi    : Word
  dataLo    : Word
  dataHi    : Word
  ctrl      : Word
  active    : Bool
  stopping  : Bool
  held      : Bool
  dmaErr    : Bool
  cfgErr    : Nat
  prod      : BitVec 32
  cons      : BitVec 32
  limit     : BitVec 32
  fetched   : BitVec 32
  /-- Descriptors of a TX ring whose intake is complete or that were refused, since the enable (I of R339). -/
  intake    : BitVec 32
  /-- The indices of posted descriptors of a TX ring that an uncorrectable word of the TXQ has dropped (R349). -/
  txLost    : List (BitVec 32)
  /-- Items dropped just before the next entry written (R123, R335). -/
  lost      : Nat
  /-- True while a stop bath was started by a DMA error (event 0x0111 byte 1). -/
  dmaStop   : Bool
  /-- When the last MSI-X message of this ring went out, and whether advances have been gathered since (R128). -/
  lastMsg   : Option Nat
  gathered  : Bool
  /-- Pending TX share (R338); none when it equals the running share. -/
  share     : Nat
  sharePend : Option Nat
  deriving DecidableEq, Repr

/-- The object window of a function (R130 to R132). -/
structure Window where
  mo       : Nat
  timeout  : Nat
  selected : Bool
  locked   : Bool
  torn     : Bool
  deadline : Nat
  deriving DecidableEq, Repr

/-- The BAR0 registers and rings of one PCIe function (R96 to R132). -/
structure Fn where
  timeHi      : Word
  wbLo        : Word
  wbHi        : Word
  control     : Word
  dblDiscards : Nat
  dmaErrors   : Nat
  evtLost     : Nat
  /-- Events dropped just before the next one delivered (R125). -/
  evtLostNext : Nat
  irqCause    : BitVec 8
  /-- Causes whose message has gone: the unmasked causes as they last stood with HOST ready (R129). -/
  irqSent     : BitVec 8
  irqMask     : Word
  irqVector   : Word
  win         : Window
  rings       : Vector Ring 36
  /-- MSI-X table words written by the host, by word number (R96); an unlisted word reads 0. -/
  msix        : List (Nat × Word)
  /-- A function-level reset of this function is under way (R93). -/
  flr         : Bool
  deriving DecidableEq, Repr

/-- The PCIe endpoint (R90, R91): the SR-IOV controls and one register file per function. -/
structure HostPort where
  vfEnable : Bool
  numVfs   : Nat
  fns      : Vector Fn 64
  deriving DecidableEq, Repr

/-- The safety port (R135 to R141): its credits, its waiting replies and its own registers. -/
structure SafetyPort where
  credits  : Nat
  replies  : List Reply
  irqCause : BitVec 5
  irqMask  : Word
  crcErrs  : Nat
  /-- GEN_TIME_HI as the last read of GEN_TIME_LO through this port latched it (R99, R141). -/
  timeHi   : Word
  /-- Force-safe packets that the AON decoder has applied and the command engine has not answered, each with the stamp of
  the force (R143, R512). -/
  decoded  : List (Packet × Nat)
  deriving DecidableEq, Repr

/-- What the device has driven to the outside, oldest first: DMA writes and MSI-X messages (R92, R106, R107, R128),
register-read and safety-port answers with their CRC (R98, R136), frames sent on a bus with their DLC (R193, R213), link frames
(R538) and switch-chain frames (R498). -/
inductive Out where
  | dma (ctx : Nat) (addr : Nat) (bytes : List Byte)
  | msix (ctx : Nat) (vector : Nat)
  | read (ctx : Nat) (words : List Nat)
  | poisoned (ctx : Nat)
  | safety (status : Nat) (data : List Byte) (crc : Word)
  | can (ch : Nat) (hdr : Hdr) (dlc : Nat) (data : List Byte)
  | link (port : Port) (bytes : List Byte)
  | chain (swc : Nat) (bytes : List Byte)
  deriving DecidableEq, Repr

end Sys2Proof
end

