-- ==== Sys2Proof/Machine/TypesCan.lean ====
section
/-!
DEFINITION. State of the channels, message objects, filters and queues
(chapters *Channel protocol engine* to *Queues, credits and flow-control pins*).
-/

namespace Sys2Proof

/-! ### Channels -/

/-- Channel states (R196), in the order of their codes. -/
inductive ChanState where
  | disabled | integrating | running | stopping | busOff | recovering | exception | powerHeld | clockHeld
  deriving DecidableEq, Repr

/-- One phase's bit timing (R237, R243). -/
structure BitTiming where
  brp   : Nat
  tseg1 : Nat
  tseg2 : Nat
  sjw   : Nat
  tdc   : Nat
  tdco  : Nat
  tdcf  : Nat
  deriving DecidableEq, Repr

/-- Transceiver settings, with the defaults substituted for zeros (R233). -/
structure Transceiver where
  stbn   : Nat
  settle : Nat
  fast   : Bool
  pwms   : Nat
  pwml   : Nat
  pwmo   : Nat
  deriving DecidableEq, Repr

/-- A channel's settings that a development changes (R205, R230, R233, R248). -/
structure ChanSettings where
  mode    : Nat
  formats : Nat
  options : Nat
  nominal : Option BitTiming
  fdData  : Option BitTiming
  xlData  : Option BitTiming
  xcvr    : Transceiver
  deriving DecidableEq, Repr

/-- Where the bus of a channel stands, as far as the rules of R203, R205, R206 and R209 tell it apart. -/
inductive BusPhase where
  | idle
  | intermission
  | suspend
  /-- Receiving another node's frame. -/
  | receiving
  /-- Sending a frame of its own; `won` after the arbitration-won instant (R213). -/
  | sending (won : Bool)
  /-- An error or overload frame is on the bus. -/
  | errorFrame
  /-- The channel takes no part in the bus until its next bus integration (R200, R201, R217). -/
  | integration
  deriving DecidableEq, Repr

/-- Why a channel's stop bath runs (R197, R204). -/
inductive StopCause where
  | disable (by_ : Source)
  | power
  deriving DecidableEq, Repr

/-- A held ENABLE_CHANNEL: who issued it and its MODE byte (R179, R231). -/
structure HeldEnable where
  by_  : Source
  mode : Nat
  deriving DecidableEq, Repr

/-- A destination the filter engine has put in a frame's delivery set (R317), with the lowest-numbered entry that named it. -/
inductive Dest where
  | object (mo : Nat) (filter : Nat)
  | ring (ctx : Nat) (ring : Nat) (filter : Nat)
  | route (pdu : Nat)
  deriving DecidableEq, Repr

/-- A frame being received whose header is complete (R320, R332): its header, its delivery set, whether it matched no entry,
and the time from header complete to the decision, in ns. -/
structure RxHeader where
  hdr      : Hdr
  /-- Time-base value at which the packet's first word was written (R343). -/
  first    : Nat
  /-- The packet was rewound in the channel intake queue (R342): nothing of it is delivered. -/
  dropped  : Bool
  stamp    : Nat
  dests    : List Dest
  matched  : List Nat
  decision : Nat
  deriving DecidableEq, Repr

/-- A committed packet of a CHQ (R330, R332): the frame, its channel and its delivery set. -/
structure RxPacket where
  frame : Frame
  dests : List Dest
  deriving DecidableEq, Repr

/-- The counters of GET_CHANNEL_STATUS (R232, R271). -/
structure ChanCounters where
  txOk      : Nat
  rxOk      : Nat
  arbLost   : Nat
  retx      : Nat
  cancels   : Nat
  tooLate   : Nat
  pexCount  : Nat
  fastLost  : Nat
  bitErr    : Nat
  stuffErr  : Nat
  formErr   : Nat
  crcErr    : Nat
  ackErr    : Nat
  esdLost   : Nat
  tdcFail   : Nat
  passives  : Nat
  busOffs   : Nat
  recovs    : Nat
  errEvents : Nat
  alones    : Nat
  deriving DecidableEq, Repr

/-- Filter counters of one channel (R324, R328). -/
structure FilterCounters where
  judged      : Nat
  noMatch     : Nat
  decisionMax : Nat
  deriving DecidableEq, Repr

/-- Counters and errors of a queue (R353). -/
structure QStat where
  hwm       : Nat
  packets   : Nat
  rewinds   : Nat
  overflow  : Nat
  oversize  : Nat
  noring    : Nat
  ringfull  : Nat
  eccCorr   : Nat
  uncorr    : Nat
  fcAsserts : Nat
  deriving DecidableEq, Repr

/-- The row of R254 that an error meets. -/
inductive ErrRow where
  /-- An error detected as receiver or transmitter. -/
  | detected
  /-- A bit error while sending an active error flag or an overload flag. -/
  | flagBit
  /-- A dominant bit as the first bit after an error flag. -/
  | dominantAfterFlag
  /-- A run of dominant bits after an error or overload flag. -/
  | dominantRun
  /-- An acknowledge error while error passive, with no dominant bit during the passive error flag. -/
  | quietAck
  /-- A stuff error in arbitration on a stuff bit sent recessive and monitored dominant. -/
  | recessiveStuff
  deriving DecidableEq, Repr

/-- One channel CHn (chapters 05 to 07). -/
structure Chan where
  state      : ChanState
  /-- Settings in force for the frame under way and the next latch (R205). -/
  cur        : ChanSettings
  /-- Developed settings that take over at the first bit of the next intermission (R205). -/
  next       : Option ChanSettings
  /-- Running mode: the developed mode, or the MODE byte of ENABLE_CHANNEL (R200, R230). -/
  mode       : Nat
  /-- A developed mode that becomes the running mode with `next` (R205). -/
  nextMode   : Option Nat
  bus        : BusPhase
  /-- The channel sent the frame before the intermission, suspend transmission or error frame it is in: it is still a transmitter
  there (R254). -/
  wasTx      : Bool
  /-- The capture cell of RXD: the falling edge last captured (R28, R624). -/
  capture    : Nat
  /-- Source of the enable now waiting for SETTLE, whose reply follows (R207). -/
  settling   : Option Packet
  /-- True while the channel, held by a power state or by a first enable, waits SETTLE before INTEGRATING (R197, R207). -/
  settleWait : Bool
  stop       : Option StopCause
  held       : Option HeldEnable
  /-- The channel was BUS_OFF or RECOVERING when it became POWER_HELD or CLOCK_HELD (R197). -/
  wasBusOff  : Bool
  /-- Reference count at which the SETTLE wait in progress ends (R207). -/
  settleEnd  : Nat
  latched    : Option Nat
  /-- Start of frame of the latched candidate: the instant at which it is or will be driven (R209, R213). -/
  sof        : Nat
  /-- The frame on the bus was ended by an uncorrectable payload cell (R212). -/
  cellBad    : Bool
  /-- The CANCEL_TX commands whose replies wait for the outcome of the latched attempt (R219). -/
  cancelling : List Packet
  /-- The latched frame was cancelled (by CANCEL_TX or by a context's stop bath) (R219, R222). -/
  cancelled  : Bool
  /-- One of the cancels of the latched frame came from a stop bath or a development, which waits for no reply (R222). -/
  bathCancel : Bool
  rx         : Option RxHeader
  tec        : Nat
  recErr     : Nat
  ackRun     : Nat
  alone      : Bool
  auto       : Bool
  freeze     : BitVec 3
  autoDelay  : Nat
  aloneCount : Nat
  /-- Reference count at which the present BUS_OFF wait started (R262, R263). -/
  busOffAt   : Nat
  recovStart : Nat
  progress   : Nat
  /-- An error stretch is open (R268). -/
  stretch    : Bool
  counters   : ChanCounters
  lastSof    : Nat
  lastErrAt  : Nat
  lastErr    : ErrCode
  lastField  : FieldCode
  tdcvFd     : Option Nat
  tdcvXl     : Option Nat
  filters    : FilterCounters
  /-- Channel intake queue: committed packets, cells claimed by a frame under way, counters (R332, R333). -/
  chq        : List RxPacket
  chqClaim   : Nat
  chqStat    : QStat
  deriving DecidableEq, Repr

/-- A record of the filmstrip (R274). -/
structure FilmRecord where
  stamp   : Nat
  channel : Nat
  kind    : Nat
  info    : Nat
  data    : Nat
  deriving DecidableEq, Repr

/-- The filmstrip (R273, R275): records oldest first, the freeze in progress and the causes ignored meanwhile. -/
structure Filmstrip where
  records   : List FilmRecord
  frozen    : Bool
  delivered : Nat
  ignored   : Nat
  deriving DecidableEq, Repr

/-! ### Message objects -/

/-- One buffer of an object (R284): its record, its payload, and for a transmit frame how it completes. -/
structure Buf where
  record : Rec
  data : List Byte
  cmpl : Bool
  /-- TX ring the frame was submitted from; none for a route-fed frame. -/
  ring : Option Nat
  deriving DecidableEq, Repr

/-- A message object (R286). -/
structure Mo where
  en         : Bool
  tx         : Bool
  fmts       : Nat
  ide        : Bool
  rtr        : Bool
  brs        : Bool
  sec        : Bool
  single     : Bool
  feed       : Bool
  ovrEvt     : Bool
  timed      : Bool
  channel    : Nat
  owner      : Nat
  ident      : Nat
  af         : Nat
  maxlen     : Nat
  b          : Nat
  cellBase   : Nat
  front      : Bool
  shadow     : Bool
  full       : Bool
  latched    : Bool
  failed     : Bool
  winLock    : Bool
  cmdLock    : Bool
  errDis     : Bool
  retired    : Bool
  overwrites : Nat
  frames     : Nat
  eccCorr    : Nat
  buf0       : Buf
  buf1       : Buf
  /-- LOST carried by the next committed frame (R289). -/
  lostNext   : Nat
  /-- The pending frame is in the channel's heap (R208); false while a shutter release holds it outside. -/
  inHeap     : Bool
  /-- The pending frame is in the heap as armed for this instant (R369, R370). -/
  armed      : Option Nat
  /-- The armed frame's start of frame was latched by the release notice of its instant (R371, R372). -/
  noticed    : Bool
  /-- The header the latched frame goes out with (R210, R298). -/
  latchedHdr : Option Hdr
  /-- The front frame was found uncorrectable and is dropped when the lock ends (R300). -/
  frontBad   : Bool
  /-- Byte offset, in the front buffer, of the word that was found uncorrectable (R300). -/
  badAt      : Nat
  /-- A CONFIG_MO has developed: the object is bound to its channel (R286, R304). -/
  bound      : Bool
  /-- FREE_MO has developed while its frame is on the bus; the number and cells return when that frame ends (R305). -/
  freeing    : Bool
  /-- The object's last start of frame (R219). -/
  lastSof    : Nat
  deriving DecidableEq, Repr

/-- The payload pool (R278, R279, R283): the context that holds each page, the retired cells, and the words (byte offsets of
R30) that were found uncorrectable, each with whether it has been written since: found so again, its cell is retired (R36). -/
structure Pool where
  pages   : List (Option Nat)
  retired : List Nat
  suspect : List (Nat × Bool)
  deriving DecidableEq, Repr

/-! ### Filters -/

/-- A filter entry (R308). LINK follows from the chain that holds the entry. -/
structure Filter where
  typ     : Nat
  key     : Bool
  cont    : Bool
  fmts    : Nat
  ide     : Nat
  rtr     : Nat
  toMo    : Bool
  toRing  : Bool
  toRoute : Bool
  ring    : Nat
  channel : Nat
  owner   : Nat
  value   : Nat
  mask    : Nat
  mo      : Nat
  pdu     : Nat
  errDis  : Bool
  /-- Its own words were found uncorrectable, so that its chain is broken here (R322). -/
  bad     : Bool
  deriving DecidableEq, Repr

/-- Filter counters of one context on one channel (R324). -/
structure PairCounters where
  matched  : Nat
  disDrop  : Nat
  lastDrop : Nat
  deriving DecidableEq, Repr

/-- The filter store (R307 to R312): entries by number, the HASHED chains by channel and bucket, and the counters by
context and channel. -/
structure FilterStore where
  entries : List (Nat × Filter)
  chains  : List (Nat × List Nat)
  pairs   : List (Nat × PairCounters)
  deriving DecidableEq, Repr

/-! ### Queues -/

/-- Depths of a context's five queues (R337): PLACES for CMDQ and RPLQ, cells for the rest. -/
structure Depths where
  places : Nat
  evt    : Nat
  tx     : Nat
  rx     : Nat
  deriving DecidableEq, Repr

/-- A context's queues (R333, R336, R338): its region, running and pending depths, contents and counters. -/
structure CtxQueues where
  region    : Nat
  depths    : Depths
  pend      : Depths
  cmdq      : List Packet
  rplq      : List Reply
  evtq      : List Event
  rxq       : List RxItem
  cmdStat   : QStat
  rplStat   : QStat
  evtStat   : QStat
  txStat    : QStat
  rxStat    : QStat
  deriving DecidableEq, Repr

/-- A frame a route lane has packed and handed to CORE intake (R330, R445): its object, the first PDU of its group, its
payload and the release instant that a FEED 0x1 stream counts from (R387). -/
structure Routed where
  mo     : Nat
  first  : Nat
  /-- The path of R23 that the packet is on: 2 and 3 are the gateway routes, 7 is from a local input. -/
  path   : Nat
  origin : Nat
  data   : List Byte
  deriving DecidableEq, Repr

/-- A flow-control pin (R347): the queue it follows, its thresholds and its level (true is high, released). -/
structure FcPin where
  qid  : Option Nat
  high : Nat
  low  : Nat
  up   : Bool
  deriving DecidableEq, Repr

/-- The queues that belong to no channel and no context (R333), and the FC pins. -/
structure FixedQueues where
  rtq      : Vector (List Routed) 4
  rtqStat  : Vector QStat 4
  lkqStat  : Vector QStat 2
  spq      : List Packet
  spqStat  : QStat
  sprqStat : QStat
  msq      : List Packet
  msqStat  : QStat
  msrqStat : QStat
  fc       : Vector FcPin 8
  deriving DecidableEq, Repr

end Sys2Proof
end

