-- ==== Sys2Proof/Machine/TypesPlan.lean ====
section
/-!
DEFINITION. State of the time base, the schedules and triggers, the admission engine and its monitors, and the signal
routing engine (chapters *Time base* to *Signal routing and local I/O*).
-/

namespace Sys2Proof

/-! ### Time base -/

/-- A STEP_TIME MODE 0x1 waiting for a PPS_IN edge (R360): the value, and the reference count at which it lapses. -/
structure PpsStep where
  value  : Nat
  lapses : Nat
  deriving DecidableEq, Repr

/-- SET_PPS settings (R385). -/
structure Pps where
  capture : Bool
  event   : Bool
  outEn   : Bool
  width   : Nat
  period  : Nat
  offset  : Nat
  deriving DecidableEq, Repr

/-- The time base (R354 to R362, R375, R376). `clk` is the count of TIME cycles since power-on, which no correction
touches (R359 counts its milliseconds on it). -/
structure TimeBase where
  clk      : Nat
  time     : Nat
  frac     : Nat
  rate     : Int
  baseRate : Int
  /-- Reference count at which a slew ends (R359). -/
  slewEnd  : Option Nat
  aligned  : Bool
  lastPps  : Nat
  lastStep : Nat
  armed    : Option PpsStep
  pps      : Pps
  ppsOut   : Bool
  ppsFall  : Nat
  /-- The time-base value of the last rise of PPS_OUT (R363: none is served twice). -/
  ppsLast  : Option Nat
  deriving DecidableEq, Repr

/-- A shutter schedule (R367, R368, R372). `next` is the next instant to serve; `pointDone` once its arm point has been
served, `framed` when that inserted a frame (R369, R372). -/
structure Schedule where
  first     : Nat
  period    : Nat
  next      : Nat
  pointDone : Bool
  framed    : Bool
  /-- Its single instant has been served, or never will be (R368): TIMED is clear, and the counters stay. -/
  isOver    : Bool
  onTime    : Nat
  displaced : Nat
  empty     : Nat
  overrun   : Nat
  missed    : Nat
  deriving DecidableEq, Repr

/-- A trigger unit's setting (R384). -/
structure TriggerSet where
  source  : Nat
  edge    : Nat
  dest    : Nat
  pin     : Nat
  width   : Nat
  instant : Nat
  period  : Nat
  delay   : Nat
  deriving DecidableEq, Repr

/-- A trigger unit (R377): its setting, the captured edges whose DELAY runs, and its next compare instant. -/
structure Trigger where
  set   : TriggerSet
  edges : List Nat
  next  : Nat
  deriving DecidableEq, Repr

/-! ### Admission -/

/-- A declaration, own or foreign (R391, R392). The header of an own stream is its object's, as developed. -/
structure Decl where
  foreign  : Bool
  ctx      : Nat
  channel  : Nat
  hdr      : Hdr
  feed     : Nat
  mo       : Nat
  crit     : Nat
  period   : Nat
  jitter   : Nat
  deadline : Nat
  minlen   : Nat
  maxlen   : Nat
  deriving DecidableEq, Repr

/-- What the calculator found for a record (R398, R400, R427). -/
structure Figures where
  exposure : Nat
  frame    : Nat
  blocking : Nat
  jitter   : Nat
  deriving DecidableEq, Repr

/-- A release under a deadline timer (R417, R418): its instant, whether its miss has been counted, and whether the channel
has been assured since. -/
structure Release where
  at_     : Nat
  missed  : Bool
  assured : Bool
  deriving DecidableEq, Repr

/-- An admission stream record (R390) with its monitor (R410, R412, R417, R427). -/
structure StreamRec where
  decl        : Decl
  figures     : Figures
  /-- The stop bath of a withdrawn stream runs (R407), and who withdrew it. -/
  stopping    : Bool
  stopBy      : Source
  /-- The live and the staged frame that the object held at the withdrawal are still to complete (R407). -/
  stopLive    : Bool
  stopStaged  : Bool
  /-- A DECLARE_STREAM developed while the stop bath runs (R408). -/
  held        : Option Decl
  /-- The record was found uncorrectable (R36, cause RECORD). -/
  broken      : Bool
  seen        : Bool
  base        : Nat
  live        : Option Release
  staged      : Option Release
  /-- Releases of frames that ended without success and were neither cancelled nor replaced: their timers run on (R417). -/
  failed      : List Release
  misses      : Nat
  overExp     : Nat
  violations  : Nat
  frames      : Nat
  maxResponse : Nat
  lastMiss    : Nat
  deriving DecidableEq, Repr

/-- An admitted route (R400), with the figures of its admission. `inPos` is the position of the device that holds IN. -/
structure RouteRec where
  inRec    : Nat
  outRec   : Nat
  inPos    : Nat
  deadline : Nat
  deriving DecidableEq, Repr

/-- A channel's fault budget and its monitor (R394, R413, R414, R429). -/
structure Monitor where
  e           : Nat
  w           : Nat
  /-- Stamps of the error events, newest first, as far back as a window of W reaches. -/
  stamps      : List Nat
  causes      : BitVec 8
  /-- When each latched cause latched, by its bit. -/
  causeAt     : Vector Nat 8
  undeclared  : Nat
  foreignViol : Nat
  ownViol     : Nat
  overBudget  : Nat
  misses      : Nat
  lastMiss    : Nat
  utilisation : Nat
  deriving DecidableEq, Repr

/-! ### Routing -/

/-- DIR of a PDU descriptor (R431). -/
inductive Dir where
  | inFrame | inLink | inLocal | outFrame | outLink | outLocal
  deriving DecidableEq, Repr

/-- The fields of a PDU descriptor that WRITE_PDU writes (R431). -/
structure PduSet where
  dir        : Dir
  lane       : Nat
  onChange   : Bool
  onArrival  : Bool
  periodic   : Bool
  cvEn       : Bool
  cvOrder    : Bool
  length     : Nat
  offset     : Nat
  fill       : Nat
  cvu        : Nat
  first      : Nat
  count      : Nat
  /-- IN_*: first ROUTE entry. -/
  route      : Nat
  /-- OUT_FRAME: transmit object. -/
  mo         : Nat
  frameCount : Nat
  frameLen   : Nat
  /-- OUT_LINK: IN_LINK PDU and position of the target device. -/
  remotePdu  : Nat
  position   : Nat
  substBase  : Nat
  block      : Nat
  timeout    : Nat
  minGap     : Nat
  cvPos      : Nat
  deriving DecidableEq, Repr

/-- A PDU descriptor with what the ZB64 keeps beside it (R431, R442, R446, R471). -/
structure Pdu where
  set         : PduSet
  errDis      : Bool
  stale       : Bool
  /-- An arrival has unpacked the PDU since its development; its stamp, and the reference count its timeout runs from. -/
  arrived     : Option Nat
  arrivedAt   : Nat
  /-- The PDU timed out and its timeout pass has not run yet (R446). -/
  timedOut    : Bool
  /-- The reference counts at which its timeout pass and its periodic pass fell due (R455). -/
  timeoutDue  : Nat
  noticeDue   : Nat
  /-- The last expiry has not been followed by an arrival yet (event 0x0A02). -/
  expired     : Bool
  lastSend    : Option Nat
  deferredTo  : Option Nat
  /-- A pack notice has been issued and its periodic pass has not run yet; the instant of the last notice (R443). -/
  noticed     : Bool
  noticeAt    : Nat
  arrivals    : Nat
  sends       : Nat
  short       : Nat
  cvFail      : Nat
  timeouts    : Nat
  deferred    : Nat
  noObject    : Nat
  last        : Nat
  deriving DecidableEq, Repr

/-- A signal-table entry (R433). -/
inductive SigBody where
  | source (big signed : Bool) (len start pdu : Nat)
  | sink (big signed sat : Bool) (len start pdu : Nat) (mul : Int) (src shift : Nat) (add : Int)
  | const
  | route (next : Nat) (pdus : List Nat)
  deriving DecidableEq, Repr

/-- A signal-table entry with its VALUE (SOURCE and CONST, 64 bits) and the stamp of the value's last update (R469). -/
structure Sig where
  body   : SigBody
  errDis : Bool
  value  : BitVec 64
  stamp  : Nat
  deriving DecidableEq, Repr

/-- What started an arrival pass that waits for its lane (R440): the PDU, the bytes of the frame payload, LOCAL block or link
PDU, and the reference count at which it was latched. -/
structure Handoff where
  pdu    : Nat
  data   : List Byte
  /-- The path of R23 that the pass is on: 2 and 3 are the gateway routes, 7 is from a local input. -/
  path   : Nat
  clk    : Nat
  /-- The release instant of frames that the pass sends on FEED 0x1 objects (R387). -/
  origin : Nat
  /-- Its place among hand-offs latched at one edge: a frame by its channel, LOCAL by 64 and its block, a link by 512 (R455). -/
  rank   : Nat
  deriving DecidableEq, Repr

/-- A route lane (R341, R455, R471): the arrival passes waiting for it, in the order they are served; the start of its last timed
pass, as a reference count; the packets for whose cells it waits and the pass that ends when it has them (timed or not, and the
reference count of its hand-off); and its counters. -/
structure Lane where
  waiting : List Handoff
  timedAt : Option Nat
  held    : List Routed
  ending  : Option (Bool × Nat)
  /-- The SOURCEs whose VALUE changed in the pass in progress: those whose CHANGED reads 1 (R433, R437). -/
  changed : List Nat
  passes  : Nat
  timed   : Nat
  maxWork : Nat
  last    : Nat
  deriving DecidableEq, Repr

/-- SET_LOCAL_IO settings (R470). -/
structure LocalIoSet where
  invert   : BitVec 32
  ainEn    : BitVec 24
  round    : Nat
  debounce : Vector Nat 32
  deriving DecidableEq, Repr

/-- The input sampler and ADC sequencer (R449, R451). `runs` counts, for each DIN, the consecutive samples that disagree with
the debounced level. -/
structure LocalIo where
  set    : LocalIoSet
  levels : BitVec 32
  runs   : Vector Nat 32
  ain    : Vector Nat 24
  /-- The reference counts of the last sample of the digital inputs and of the start of the analogue round now under way. -/
  dinAt  : Nat
  round  : Option Nat
  deriving DecidableEq, Repr

/-- An open bundle load (R463, R468). `buffer` holds the bytes of a part not yet complete. -/
structure BundleLoad where
  done       : Nat
  buffer     : List Byte
  length     : Nat
  batches    : Nat
  headerSeen : Bool
  /-- Batches completed, and the offset of the batch header last read. -/
  batch      : Nat
  batchAt    : Nat
  inBatch    : Bool
  batchLeft  : Nat
  batchRecs  : Nat
  batchCrc   : Nat
  batchRun   : BitVec 32
  records    : Nat
  /-- A batch is complete and the next block waits for the development of CTX0's latent set. -/
  waiting    : Bool
  deriving DecidableEq, Repr

end Sys2Proof
end

