-- ==== Sys2Proof/Machine/TypesLoad.lean ====
section
/-!
DEFINITION. State of the check-value units and of the load manager (chapters *Check-value units*, *Load manager*).
-/

namespace Sys2Proof

/-! ### Check-value units -/

/-- Parameters of a unit (R472); `route` is MODE 0x2. -/
structure CvuParams where
  route  : Bool
  width  : Nat
  poly   : BitVec 64
  init   : BitVec 64
  xorout : BitVec 64
  refin  : Bool
  refout : Bool
  deriving DecidableEq, Repr

/-- A check-value unit (R472 to R485); `params` none is a free unit. -/
structure Cvu where
  params     : Option CvuParams
  owner      : Nat
  enabled    : Bool
  stopping   : Bool
  stopBy     : Source
  held       : Option Source
  reg        : BitVec 64
  checks     : Nat
  mismatches : Nat
  appends    : Nat
  fed        : Nat
  deriving DecidableEq, Repr

/-! ### Loads -/

/-- The output a load channel is bound to (R491, R492). -/
inductive Output where
  | pwm (ball : Nat) (period : Nat)
  | chain (swc position output : Nat)
  deriving DecidableEq, Repr

/-- A binding (R527). -/
structure Binding where
  out     : Output
  group   : Option Nat
  scale   : Nat
  isrc    : Nat
  diagEn  : Bool
  diagLow : Bool
  diagDin : Nat
  deriving DecidableEq, Repr

/-- A load channel's policy, defaults substituted, durations in ticks (R494, R530). -/
structure LoadPolicy where
  comp       : Bool
  safe       : Nat
  depart     : Nat
  prio       : Nat
  safeDuty   : Nat
  vnom       : Nat
  inrush     : Nat
  extCap     : Nat
  retries    : Nat
  thermLimit : Nat
  backoff    : Nat
  backoffMax : Nat
  heal       : Nat
  thermWin   : Nat
  iMax       : Nat
  iOpen      : Nat
  vuv        : Nat
  deriving DecidableEq, Repr

/-- Load channel states (R522), in the order of their codes. -/
inductive LoadState where
  | unbound | disabled | off | wait | inrush | on | uvHold | backoff | lockedOut | latched | stopping
  deriving DecidableEq, Repr

/-- Who last set a commanded state (R504, R532). -/
inductive Commander where
  | nobody
  | route
  | source (src : Source)
  deriving DecidableEq, Repr

/-- The reports of a chain channel as its last valid response showed them; `cur` is none while no current has been measured
(R501). -/
structure Reports where
  fault : Bool
  temp  : Bool
  open_ : Bool
  uv    : Bool
  cur   : Option Nat
  deriving DecidableEq, Repr

/-- One load channel (R491 to R532). Times are tick numbers. -/
structure Load where
  bind        : Option Binding
  policy      : LoadPolicy
  /-- BIND_LOAD and SET_LOAD_POLICY developed, to take effect at the next tick (R527, R530). -/
  pendBind    : Option (Option Binding)
  pendPolicy  : Option LoadPolicy
  state       : LoadState
  enabled     : Bool
  on          : Bool
  /-- DUTY as written; LOAD_CMD values above 1,000 are taken as 1,000 (R449). -/
  duty        : Nat
  commander   : Commander
  safe        : Bool
  forcer      : Source
  /-- The commanded state at the force (R507, SAFE 2). -/
  snapOn      : Bool
  snapDuty    : Nat
  retries     : Nat
  /-- Back-offs since the last refill (R519). -/
  backoffs    : Nat
  latch       : Bool
  thermals    : List Nat
  waitSince   : Nat
  /-- Tick at which the window, the back-off or the HEAL time in progress ends (R516, R519). -/
  timerEnd    : Nat
  /-- The inrush window was granted by the group (R515) or follows an under-voltage restart (R520). -/
  granted     : Bool
  uvWindow    : Bool
  /-- Ticks of extension given to the window, and the channels whose fault events extend it (R521). -/
  extUsed     : Nat
  extFrom     : List Nat
  /-- The fault event of this channel runs (R521). -/
  faultEvent  : Bool
  reports     : Reports
  /-- Consecutive ticks with the current above I_MAX (R517). -/
  overTicks   : Nat
  openFound   : Bool
  /-- Tick at which V_f was last below VUV (R517). -/
  lowVAt      : Option Nat
  pendReset   : Bool
  /-- The stop bath in progress was started by entry into RETAIN, not by DISABLE_LOAD (R524). -/
  stopRetain  : Bool
  stopBy      : Source
  /-- The stop bath has commanded the output off and ends at this tick's edge or CSN rise (R524). -/
  stopDue     : Bool
  held        : Option Source
  /-- A return from RETAIN or OFF has left the channel in OFF until a command or a route write sets its commanded state on (R77). -/
  parked      : Bool
  /-- The DUTY that the last tick took, or a force that lowered E (R494, R510): E of a period is compensated from it. -/
  taken       : Nat
  /-- E now in force (R514), the level of a PWM ball, and the reference count at which its period started. -/
  eff         : Nat
  ball        : Bool
  periodAt    : Nat
  faults      : Nat
  thermCount  : Nat
  opens       : Nat
  uvRestarts  : Nat
  retriesUsed : Nat
  latches     : Nat
  extensions  : Nat
  chainErr    : Nat
  lastFault   : Nat
  deriving DecidableEq, Repr

/-- The fields of one output of a switch profile (R528); 0xFF is an absent position. -/
structure OutFields where
  onPos    : Nat
  dutyPos  : Nat
  dutyW    : Nat
  faultPos : Nat
  tempPos  : Nat
  openPos  : Nat
  uvPos    : Nat
  curPos   : Nat
  curW     : Nat
  pol      : Nat
  deriving DecidableEq, Repr

/-- A switch-chain profile (R528). -/
structure Profile where
  switches  : Nat
  frameBits : Nat
  outputs   : Nat
  div       : Nat
  mode      : Nat
  base      : Nat
  expMask   : Nat
  expValue  : Nat
  outs      : List OutFields
  deriving DecidableEq, Repr

/-- One switch chain (R498 to R503, R510). -/
structure SwChain where
  profile : Profile
  pend    : Option Profile
  /-- A transfer is in progress (CSN low): the profile it started with, and the reference count of its start. -/
  busy    : Option Profile
  busyAt  : Nat
  /-- A force waits for the end of the transfer in progress to run its extra transfer (R510). -/
  extra   : Bool
  /-- Consecutive invalid responses and DIAG_LOST, by position (R502). -/
  invalid : List Nat
  lost    : List Bool
  deriving DecidableEq, Repr

/-- The load manager: its tick count, its channels and chains, the VBATS filter (R513), and the LOAD_STATE bytes last
arrived (R449). -/
structure LoadMgr where
  /-- Number of the last tick, and the reference count of the next one (R494). -/
  tick     : Nat
  nextTick : Nat
  loads    : Vector Load 96
  chains   : Vector SwChain 8
  vf       : Nat
  /-- VBATS conversions of the millisecond in progress, in mV (R513). -/
  vbats    : List Nat
  vfSettled : Bool
  /-- Reference count at which the millisecond of conversions under way began (R513). -/
  vbatsFrom : Nat
  lastState : List Nat
  deriving DecidableEq, Repr

end Sys2Proof
end

