-- ==== Sys2Proof/Machine/TypesStack.lean ====
section
/-!
DEFINITION. State of the stack and its links, the census, the firmware store, the contact sheets, the contexts and the
command engine (chapters *Command packets, contexts and precedence*, *Stacking and partner discovery*, *Firmware update and
settings store*).
-/

namespace Sys2Proof

/-! ### Links and stack -/

/-- Link states (R561), in the order of their codes. -/
inductive LinkState where
  | disabled | training | up | conflict | stopping
  deriving DecidableEq, Repr

/-- Link frame types (R538), in the order of their codes from 0x01. -/
inductive FrameType where
  | time | route | step | cmd | reply | event | discover | idle
  deriving DecidableEq, Repr

/-- A link frame (R538): type, source and destination positions, INFO and payload. -/
structure LinkFrame where
  typ  : FrameType
  src  : Nat
  dst  : Nat
  info : Nat
  data : List Byte
  /-- The last segment of a reply of this device: the reply leaves the MSRQ with it. It is no bit of the frame. -/
  last : Bool := false
  deriving DecidableEq, Repr

/-- A replayable frame sent and not yet acknowledged (R540): its SEQ and how often it has been replayed. -/
structure Unacked where
  seq     : Nat
  frame   : LinkFrame
  replays : Nat
  /-- Reference count at which it was last sent. -/
  sentAt  : Nat
  deriving DecidableEq, Repr

/-- A link frame as it arrives (R538): its header fields beside the frame, and whether its CRC holds. -/
structure LinkRx where
  frame    : LinkFrame
  seq      : Nat
  ack      : Nat
  ackValid : Bool
  credit   : Nat
  intact   : Bool
  deriving DecidableEq, Repr

/-- What training exchanges and measures of a partner (R536, steps 4 and 5): its position, firmware version, serial number
and MAX_DELAY in nanoseconds, and the wire delay in picoseconds. -/
structure Partner where
  position : Nat
  fwVer    : Nat
  serial   : Nat
  maxDelay : Nat
  wire     : Nat
  deriving DecidableEq, Repr

/-- A Talrax port (R536 to R541, R561, R565). -/
structure Link where
  state      : LinkState
  reason     : Nat
  partner    : Option Nat
  wire       : Nat
  /-- MAX_DELAY of this end, and of the partner as exchanged in training (R562). -/
  maxDelay   : Nat
  peerDelay  : Nat
  offset     : Int
  crcErr     : Nat
  replays    : Nat
  retrains   : Nat
  routedTx   : Nat
  routedRx   : Nat
  routedLost : Nat
  upSince    : Nat
  seqTx      : Nat
  seqRx      : Nat
  unacked    : List Unacked
  queue      : List LinkFrame
  credits    : Nat
  freed      : Nat
  /-- No exchange has been made since the port came UP (R548). -/
  fresh      : Bool
  /-- Reference count at which the port entered CONFLICT or STOPPING (R537, R565). -/
  since      : Nat
  stopBy     : Source
  held       : Option Source
  /-- Hops to a device that this round met through the port and did not enumerate, 0 for none (R543). -/
  wall       : Nat
  deriving DecidableEq, Repr

/-- A device of the stack table (R542, R561). -/
structure Device where
  present  : Bool
  conflict : Bool
  hopsA    : Nat
  hopsB    : Nat
  flags    : Nat
  fwVer    : Nat
  serial   : Nat
  /-- Consecutive discovery rounds without an answer, and whether this round has been answered through LINKA and through LINKB
(R542). -/
  silent   : Nat
  heardA   : Bool
  heardB   : Bool
  deriving DecidableEq, Repr

/-- A command the master has forwarded and not yet seen replied (R554). -/
structure Forwarded where
  packet   : Packet
  position : Nat
  deriving DecidableEq, Repr

/-- The stack as this device sees it (R535, R542 to R549). -/
structure Stack where
  devices   : Vector Device 8
  ring      : Bool
  seq       : Nat
  upstream  : Option Port
  /-- Consecutive exchanges with an offset of at most 1 ns (R548). -/
  good      : Nat
  /-- Reference count of the last completed exchange (R548). -/
  exchanged : Nat
  forwarded : List Forwarded
  /-- Reference count of the last discovery round, and whether it has returned on the other port (R535, R542). -/
  roundAt   : Nat
  returned  : Bool
  /-- Steps applied in the last ms: the port of the first arrival, INFO and the reference count (R550, R556). -/
  steps     : List (Port × Nat × Nat)
  /-- Segments of a command or reply not yet complete, by the position they come from, whichever port they came in by (R539). -/
  partials  : List (Nat × List Byte)
  deriving DecidableEq, Repr

/-- A census entry (R558). -/
structure CensusEntry where
  channel : Nat
  fmt     : Format
  ide     : Bool
  rtr     : Bool
  ident   : Nat
  maxlen  : Nat
  first   : Nat
  last    : Nat
  count   : Nat
  lost    : Bool
  deriving DecidableEq, Repr

/-- A channel's census settings (R564). -/
structure CensusSet where
  record_  : Bool
  new      : Nat
  lost     : Bool
  factor   : Nat
  lostTime : Nat
  deriving DecidableEq, Repr

/-- The identifier census (R557 to R559). -/
structure Census where
  entries   : List (Nat × CensusEntry)
  sets      : Vector CensusSet 64
  fullDrops : Nat
  fullSent  : Bool
  /-- Reference count of the last judgement of lost senders (R559). -/
  judgedAt  : Nat
  deriving DecidableEq, Repr

/-! ### Firmware store (MRAM) -/

/-- An image in a slot, as its header says (R567). `intact` is R57 but for the anti-rollback test: magic, part, signature and
body digest hold and no word of the slot is uncorrectable (R36). `headed` is the header's part of it (R592). -/
structure Image where
  intact      : Bool
  headed      : Bool := true
  fwVer       : Nat
  settingsFmt : Nat
  key         : Nat
  revoke      : BitVec 4
  rollback    : Nat
  length      : Nat
  /-- The header's 256 bytes and the body's, as they were written; none for an image whose bytes no rule gives (log entry 3). -/
  header      : List Byte := []
  body        : List Byte := []
  deriving DecidableEq, Repr

/-- A settings area (R584): the fields of its header, the record bytes that follow, and whether every word of it is correctable. -/
structure Area where
  magic    : Nat
  fmt      : Nat
  state    : Nat
  seq      : Nat
  length   : Nat
  crc      : Nat
  records  : List Byte
  readable : Bool
  deriving DecidableEq, Repr

/-- The security and counter area (R570). -/
structure Security where
  rollbackMin : Nat
  activeSlot  : Slot
  activeArea  : Slot
  revoked     : BitVec 4
  fixedA      : Bool
  fixedB      : Bool
  commitSeq   : Nat
  trial       : Bool
  trialSlot   : Slot
  trialArea   : Slot
  lock        : Bool
  reqApproval : Bool
  motionEn    : Bool
  op          : Nat
  signal      : Nat
  limit       : Int
  lowMv       : Nat
  rejectedVer : Nat
  rejectedWhy : Nat
  keys        : Vector (List Byte) 4
  deriving DecidableEq, Repr

/-- What MRAM holds besides the fault log (R31): it survives every reset. -/
structure Mram where
  slotA : Option Image
  slotB : Option Image
  areaA : Area
  areaB : Area
  sec   : Security
  deriving DecidableEq, Repr

/-- An open update session (R573 to R576). -/
structure Session where
  id       : Nat
  owner    : Source
  image    : Image
  digest   : List Byte
  body     : List Byte
  verified : Bool
  approved : Bool
  /-- Reference count of the owner's last command (R576). -/
  lastAt   : Nat
  deriving DecidableEq, Repr

/-- The running image and the update machinery (R573 to R586). -/
structure Update where
  mram       : Mram
  running    : Option Slot
  session    : Option Session
  opened     : Nat
  halfSp     : Option (List Byte)
  halfCtx0   : Option (List Byte)
  halfMaster : Option (List Byte)
  /-- CONFIRM and MIN_PROOF in seconds, and the reference count at which the confirmation timer runs out (R580). -/
  confirm    : Nat
  minProof   : Nat
  timerEnd   : Option Nat
  timerStart : Nat
  /-- Stamp of the last TRIAL write of an ACTIVATE (R578). -/
  trialAt    : Nat
  /-- The image in proof mode has written its format to the TRIAL area and read it back equal (R581). -/
  fmtWritten : Bool
  /-- A command-engine restart has occurred since the image in proof mode started (R581). -/
  restarted  : Bool
  /-- FMT of the active area that the running image has found unreadable; 0xFFFF for a failed header (R585, R586). -/
  unreadable : Option Nat
  savedModes : List Nat
  fixInstant : Option Nat
  fixes      : Nat
  fallbacks  : Nat
  refusals   : Nat
  deriving DecidableEq, Repr

/-! ### Contact sheets -/

/-- A contact-sheet bank (R184): its holder, its take number, the sheet and when it is released. -/
structure Bank where
  holder  : Option Source
  takes   : Nat
  sheet   : List Byte
  stamp   : Nat
  release : Nat
  /-- A take armed for a future INSTANT (R186). -/
  armed   : Option (Packet × Nat)
  deriving DecidableEq, Repr

/-! ### Latent changes -/

/-- One latent change, on one descriptor, entry or record (R171). -/
inductive Change where
  | chanMode (ch mode formats options : Nat)
  | bitTiming (ch phase : Nat) (t : BitTiming)
  | xcvr (ch : Nat) (x : Transceiver)
  | alloc (mo : Nat) (tx : Bool) (fmts maxlen b cellBase : Nat)
  | config (mo ch flags ident af : Nat)
  | free (mo : Nat)
  | filter (entry : Nat) (f : Filter)
  | clearFilter (entry : Nat)
  | queue (ctx : Nat) (region : Option Nat) (d : Depths) (shares : List Nat)
  | watermark (pin : Nat) (qid : Option Nat) (high low : Nat)
  | shutter (mo first period : Nat)
  | clearShutter (mo : Nat)
  | trigger (unit : Nat) (t : TriggerSet)
  | pps (p : Pps)
  | declare (num : Nat) (d : Decl) (by_ : Source)
  | withdraw (num : Nat) (by_ : Source)
  | budget (ch e w : Nat)
  | route (r : RouteRec)
  | pdu (num : Nat) (p : Option PduSet)
  | signal (num : Nat) (b : Option SigBody) (value : BitVec 64)
  | localIo (l : LocalIoSet)
  | cvu (unit : Nat) (p : Option CvuParams)
  | bind (ld : Nat) (b : Option Binding)
  | profile (swc : Nat) (p : Profile)
  | policy (ld : Nat) (p : LoadPolicy)
  | link (port : Port) (maxDelay : Nat)
  | census (ch : Nat) (record_ : Bool) (new : Nat) (lost : Bool) (factor : Nat) (lostTime : Option Nat)
  deriving DecidableEq, Repr

/-- An armed DEVELOP (R175 to R178): WHEN, INSTANT, its changes, its SEQ, and for WHEN 2 the channels that have not switched
yet, the reference count at which IDLE_LIMIT ends, and the channels past it. -/
structure Armed where
  when_    : Nat
  instant  : Nat
  changes  : List Change
  seq      : Nat
  channels : List Nat
  limitAt  : Nat
  late     : List Nat
  /-- Rank among the armed developments of all contexts, in the order in which they were admitted (R173, R177). -/
  order    : Nat
  deriving DecidableEq, Repr

/-! ### Contexts and command engine -/

/-- Context states (R167), in the order of their codes. -/
inductive CtxState where
  | absent | present | departing | held | quiesced
  deriving DecidableEq, Repr

/-- One entry of a guest's channel map (R163): physical channel and right. -/
structure MapEntry where
  channel : Nat
  right   : Nat
  deriving DecidableEq, Repr

/-- A context (R157 to R178). -/
structure Ctx where
  state    : CtxState
  /-- A departing context keeps its rings (QUIESCE_CONTEXT) (R159, step 7). -/
  keep     : Bool
  crit     : Nat
  rights   : BitVec 16
  quotas   : Vector Nat 6
  loadMask : BitVec 96
  map      : Vector MapEntry 64
  latent   : List Change
  armed    : Option Armed
  seq      : Nat
  /-- Switch instant of the most recent DEVELOP when it was WHEN 1 and has switched (R178). -/
  switched : Option Nat
  deriving DecidableEq, Repr

/-- Why the command engine pauses (R42, R578, R583). -/
inductive Pause where
  | activation
  | fallback
  | restart
  deriving DecidableEq, Repr

/-- The command engine (R42 to R46, R152, R153): the pause in progress, the commands taken whose replies are still to come,
the replies that wait for the end of a restart, and the service rotation: the guest last served, and for each guest the
commands taken ahead of it while it waits. -/
structure Engine where
  pause    : Option Pause
  /-- An ACTIVATE whose reply waits for the replies to the commands taken before it (R44). -/
  activate : Option Packet
  taken    : List Packet
  late     : List Reply
  lastGuest : Nat
  passed   : Vector Nat 64
  deriving DecidableEq, Repr

end Sys2Proof
end

