-- ==== Sys2Proof/Syntax.lean ====
section
/-!
DEFINITION. The commands of the ZB64: one constructor for each row of the opcode table, with what the row's event or
packet carries from outside. A packet row carries the packet as it was taken from its source; the other operands say what
the environment supplies: a register write, a frame on a bus, a link frame, an expired interval, a sampled input.
-/

namespace Sys2Proof

/-- The commands (rows of the opcode table), each with the rule of the row. -/
inductive Instr where
  /-- POWER_ON_RESET (R51): VDDAON or VDDIO18 falls below its threshold and the whole device resets, keeping only MRAM contents. -/
  | powerOnReset (s1 s2 s3 : BitVec 3)
  /-- BROWN_OUT (R52): A supply other than VDDAON and VDDIO18 stays below its falling threshold for 2 µs; the device writes a fault-log entry and takes a brown-out reset. -/
  | brownOut (supply : Supply) (s1 s2 s3 : BitVec 3)
  /-- BROWN_OUT_RESTART (R52): After a brown-out, every supply has stayed above its release threshold for 1 ms and the device restarts. -/
  | brownOutRestart
  /-- WARM_RESET (R605): RSTN rises after being low for at least 10 µs and a warm reset starts, keeping RWS fields and the AON supervisor. -/
  | warmReset (s1 s2 s3 : BitVec 3)
  /-- PCIE_FUNDAMENTAL_RESET (R55): PERSTN goes low in ACTIVE or STANDBY; the HOST island and BAR0 reset, VFs are disabled and CTX0's rings are discarded. -/
  | pcieFundamentalReset
  /-- RESUME_FROM_RETAIN (R80): A PERSTN low pulse of at least 1 µs in RETAIN returns the device to ACTIVE. -/
  | resumeFromRetain
  /-- AON_START (R63): 2 ms after VDDAON and VDDIO18 are good, the supervisor starts and sets AON. -/
  | aonStart
  /-- FUNCTION_READY (R63): A function finishes its start-up and sets its GEN_FUNC_READY bit. -/
  | functionReady (f : Func) (up : BitVec 6)
  /-- MASK_ROM_BOOT (R58): Once MRAM is ready, the mask-ROM code picks a slot, checks it under R57 and loads it, or enters recovery. -/
  | maskRomBoot
  /-- IMAGE_START (R61): The loaded image starts, reads its settings area and sets CMD. -/
  | imageStart
  /-- PLL_LOSS_OF_LOCK (R17): A PLL loses lock; its island's readiness bits clear, affected TXD balls go recessive and a fault-log entry is written. -/
  | pllLossOfLock (pll : Pll) (acked : BitVec 64) (tdcvs : List (Fin 64 × Fin 128))
  /-- PLL_RELOCK (R17): The PLL relocks; the island is restored from retained configuration and its readiness bits are set again. -/
  | pllRelock (pll : Pll)
  /-- REFERENCE_LOSS (R621): No 25 MHz reference edge arrives for 400 ns; CORE, ROUTE, TIME and bank islands stop and AON records the event. -/
  | referenceLoss (acked : BitVec 64) (tdcvs : List (Fin 64 × Fin 128))
  /-- LOCKSTEP_MISMATCH (R46): The two lockstep cores disagree; the command engine restarts from its image and a fault-log entry is written. -/
  | lockstepMismatch (pc : Word) (interrupted : Option Packet)
  /-- COMMAND_PAUSE_END (R43): The starting image takes its first held command, ending a command pause of at most 50 ms. -/
  | commandPauseEnd (slotGood : Bool)
  /-- SCRUB_PASS (R35): The background scrubber reads an SRAM or MRAM word and corrects it if needed. -/
  | scrubPass (region : Region) (addr : Nat) (finding : Finding) (interrupted : Option Packet)
  /-- VF_ENABLE (R91): VF Enable and NumVFs make a guest function present. -/
  | vfEnable (numVfs : Fin 64)
  /-- VF_DISABLE (R159): A guest function stops being present and its context departs, starting its stop bath. -/
  | vfDisable
  /-- CONTEXT_STOP_BATH_END (R159): A context's stop bath ends; DEPARTING clears, event 0x0203 goes to CTX0 and a held arrival proceeds. -/
  | contextStopBathEnd (c : Fin 64)
  /-- VF_FLR (R93): A function-level reset of a VF resets its BAR0, discards its rings and starts its context's stop bath. -/
  | vfFlr (c : Fin 64)
  /-- VF_FLR_END (R157): A VF's function-level reset ends and its context arrives, or its arrival is held until its stop bath ends. -/
  | vfFlrEnd (c : Fin 64)
  /-- PF_FLR (R94): A function-level reset of the PF has the effect of a PCIe fundamental reset. -/
  | pfFlr
  /-- PRODUCER_DOORBELL_WRITE (R115): The host writes a new producer index to the doorbell of a CMD or TX ring; it is accepted within the credit limit or discarded. -/
  | producerDoorbellWrite (c : Fin 64) (k : Fin 36) (value : Word)
  /-- CONSUMER_DOORBELL_WRITE (R116): The host writes a new consumer index to the doorbell of an RPL, EVT or RX ring; it is accepted up to the producer index or discarded. -/
  | consumerDoorbellWrite (c : Fin 64) (k : Fin 36) (value : Word)
  /-- RING_ENABLE (R109): Writing QCFG_CTRL.EN 1 checks the ring, sets its indices to 0 and ACTIVE, or is held during a stop bath or DMA error. -/
  | ringEnable (c : Fin 64) (k : Fin 36) (ctrl : Word)
  /-- RING_DISABLE (R110): Writing QCFG_CTRL.EN 0 starts the ring's stop bath, or cancels a held enable. -/
  | ringDisable (c : Fin 64) (k : Fin 36) (ctrl : Word)
  /-- RING_STOP_BATH_END (R110): A ring's stop bath ends; STOPPING clears, RING_STOPPED is raised, event 0x0111 is sent and any held enable is applied. -/
  | ringStopBathEnd (c : Fin 64) (k : Fin 36)
  /-- DMA_ERR_CLEAR (R113): Writing 1 to QCFG_STATUS.DMA_ERR clears it and enables a ring whose enable was held. -/
  | dmaErrClear (c : Fin 64) (k : Fin 36)
  /-- DMA_READ_ERROR (R112): A DMA read of a ring entry or payload completes in error; DMA_ERR is set, the ring stops and a TX completion with RESULT 0x6 is written. -/
  | dmaReadError (c : Fin 64) (k : Fin 36) (entry : Option (List Byte))
  /-- IRQ_CAUSE_CLEAR (R129): The host writes 1 to IRQ_CAUSE bits to clear them. -/
  | irqCauseClear (c : Fin 64) (value : Word)
  /-- IRQ_MASK_WRITE (R129): The host writes IRQ_MASK, and a set cause that is unmasked signals its MSI-X message. -/
  | irqMaskWrite (c : Fin 64) (value : Word)
  /-- MSIX_HOLDOFF_END (R128): A ring's HOLDOFF interval ends and the advances gathered in it send one message. -/
  | msixHoldoffEnd (c : Fin 64) (k : Fin 36)
  /-- WAKE_STATUS_CLEAR (R86): CTX0 or the safety port writes 1 to GEN_WAKE_STATUS bits; WAKEN is released when all are clear. -/
  | wakeStatusClear (bySafety : Bool) (high : Bool) (value : Word)
  /-- GEN_TIME_LO_READ (R99): A read of GEN_TIME_LO returns time bits [31:0] and latches bits [63:32] into GEN_TIME_HI. -/
  | genTimeLoRead (c : Fin 64)
  /-- CLEAR_ON_READ_COUNTER_READ (R10): A read of an RC counter register returns it and clears it. -/
  | clearOnReadCounterRead (c : Fin 64) (offset count : Nat) (found : Option Nat)
  /-- WIN_SELECT_WRITE (R132): A write to WIN_SELECT selects an object and releases any held window read lock with TORN set. -/
  | winSelectWrite (c : Fin 64) (value : Word)
  /-- WINDOW_LOCK_TAKE (R131): A served window read that includes offset 0x8000 takes the read lock on the selected object. -/
  | windowLockTake (c : Fin 64) (offset count : Nat) (found : Option Nat)
  /-- WINDOW_LOCK_RELEASE (R131): A served window read that includes the WIN_LAST offset releases the read lock. -/
  | windowLockRelease (c : Fin 64) (offset count : Nat) (found : Option Nat)
  /-- WINDOW_LOCK_TIMEOUT (R132): The window lock timeout expires and the lock is released with TORN set. -/
  | windowLockTimeout (c : Fin 64)
  /-- REGISTER_WRITE (R96): A write to a BAR0 register that has no behaviour of its own updates its fields. -/
  | registerWrite (c : Fin 64) (offset : Nat) (words : List Word) (allBytes : Bool)
  /-- SAFETY_REGISTER_READ (R136): A safety-port transaction of TYPE 0x0B reads 1-16 register words from the safety view. -/
  | safetyRegisterRead (typ : Byte) (arg count : Nat) (crc : Option Word)
  /-- SAFETY_REGISTER_WRITE (R141): A safety-port transaction of TYPE 0x02 writes 1-16 register words of the safety view. -/
  | safetyRegisterWrite (arg count : Nat) (words : List Word) (crc : Option Word)
  /-- SAFETY_PACKET_SEND (R139): A safety-port transaction of TYPE 0x3C delivers one command packet under a credit. -/
  | safetyPacketSend (arg count : Nat) (data : List Byte) (crc : Option Word) (parity forceParity : Bool)
  /-- SAFETY_PACKET_RECEIVE (R136): A safety-port transaction of TYPE 0x3D returns one waiting reply packet, or LEN 0. -/
  | safetyPacketReceive (arg count : Nat) (crc : Option Word) (parity : Bool)
  /-- REPLY_RING_WRITE (R105): HOST DMA writes a reply packet from the RPLQ into the RPL ring and advances the producer index. -/
  | replyRingWrite (c : Fin 64) (parity : Bool)
  /-- EVENT_RING_WRITE (R124): HOST DMA writes an event from the EVTQ into the EVT ring. -/
  | eventRingWrite (c : Fin 64) (parity : Bool)
  /-- RX_RING_WRITE (R122): HOST DMA writes a received frame or transmit completion from the RXQ into an RX ring entry and data slot. -/
  | rxRingWrite (c : Fin 64) (parity : Bool)
  /-- DESCRIPTOR_LANDING (R26): A transmit descriptor and its payload land in HOST and are parsed, checked and passed to CORE intake. -/
  | descriptorLanding (c : Fin 64) (k : Fin 16) (entry : List Byte) (payload : List Byte) (parity : Bool)
  /-- ROUTED_FRAME_INTAKE (R445): A packed route frame reaches CORE intake and enters its FEED 1 object, or is dropped in NO_OBJECT. -/
  | routedFrameIntake (lane : Fin 4) (parity : Bool)
  /-- CANDIDATE_LATCH (R209): A channel engine latches the top of its heap as its candidate, passing over armed entries not yet due. -/
  | candidateLatch (ch : Fin 64) (stamp : Nat) (parity : Bool)
  /-- ARBITRATION_LOST (R213): The channel sends recessive and samples dominant in arbitration and receives the frame on. -/
  | arbitrationLost (ch : Fin 64)
  /-- ARBITRATION_WON (R213): The channel reaches the last arbitration bit still transmitting, the cancellation point of no return. -/
  | arbitrationWon (ch : Fin 64)
  /-- HEADER_COMPLETE (R320): A frame's header is complete and is handed to the filter engine for its decision. -/
  | headerComplete (ch : Fin 64) (hdr : Hdr) (edges : List (Nat × Nat)) (decision : Fin 3001) (parity : Bool)
  /-- FRAME_RECEIVED (R213): A frame reaches receive valid; its CHQ packet commits, and census and monitors see it. -/
  | frameReceived (ch : Fin 64) (len : Fin 2049) (data : List Byte) (parity : Bool)
  /-- DISTRIBUTOR_COPY (R334): The CORE distributor takes a committed CHQ packet and writes a copy to each object and RXQ of its delivery set. -/
  | distributorCopy (ch : Fin 64) (parity : Bool)
  /-- TRANSMIT_SUCCESS (R295): An own frame reaches the seventh end-of-frame bit; the live frame completes and a staged frame becomes live. -/
  | transmitSuccess (ch : Fin 64) (acked : Bool) (tdcv : Option (Fin 128))
  /-- BUS_ERROR_DETECTED (R268): The channel detects a bus error; counters change, an error flag is sent where signalling applies, and one error event is counted. -/
  | busErrorDetected (ch : Fin 64) (code : ErrCode) (field : FieldCode) (ed : Bool) (row : ErrRow) (acked : Bool) (bytes : Fin 2049) (tdcv : Option (Fin 128)) (edges : List (Nat × Nat))
  /-- ATTEMPT_FAILED (R214): An own attempt fails at the eighth error-delimiter bit; the object competes again, or completes if single-shot or cancelled. -/
  | attemptFailed (ch : Fin 64) (tdcv : Option (Fin 128))
  /-- PROTOCOL_EXCEPTION (R197): With PEX on, a frame of a format that is not enabled puts the channel into EXCEPTION. -/
  | protocolException (ch : Fin 64) (edges : List (Nat × Nat))
  /-- BUS_INTEGRATION_COMPLETE (R197): 11 consecutive recessive nominal bits move an INTEGRATING or EXCEPTION channel to RUNNING. -/
  | busIntegrationComplete (ch : Fin 64)
  /-- BUS_IDLE (R206): A channel reaches bus idle after intermission with no start of frame, switching any WHEN 2 development. -/
  | busIdle (ch : Fin 64)
  /-- IDLE_LIMIT_EXPIRY (R176): A channel has not reached bus idle within IDLE_LIMIT; its changes switch after its next frame and event 0x0302 is sent. -/
  | idleLimitExpiry (c : Fin 64) (ch : Fin 64)
  /-- STBN_SETTLE_END (R207): The SETTLE time after an enable ends and the channel enters INTEGRATING, writing the enable reply. -/
  | stbnSettleEnd (ch : Fin 64)
  /-- CHANNEL_STOP_BATH_END (R203): A channel's stop bath ends after its frame and intermission; it becomes DISABLED or POWER_HELD and any held enable is applied. -/
  | channelStopBathEnd (ch : Fin 64)
  /-- AUTO_DELAY_EXPIRY (R262): AUTO_DELAY ms after bus-off with AUTO 1, the channel enters RECOVERING. -/
  | autoDelayExpiry (ch : Fin 64)
  /-- RECOVERY_COMPLETE (R261): The 128th run of 11 recessive bits completes; counters reset and the channel becomes RUNNING and error active. -/
  | recoveryComplete (ch : Fin 64)
  /-- WAKE_DETECTED (R85): An armed channel's RXD stays low for the filter time; its wake bit is set and WAKEN is driven low. -/
  | wakeDetected (ch : Fin 64)
  /-- POWER_TRANSITION_COMPLETE (R79): A power-state transition finishes after its stop baths and the SET_POWER_STATE reply is written. -/
  | powerTransitionComplete
  /-- DEVELOP_SWITCH (R175): An armed DEVELOP reaches its INSTANT and the generation switches, with event 0x0301. -/
  | developSwitch (instant : Nat)
  /-- CONTACT_SHEET_CAPTURE (R186): A future INSTANT is reached and every island freezes its counters into the snapshot bank, then the take replies. -/
  | contactSheetCapture (bank : Fin 2)
  /-- SHEET_BANK_RELEASE (R184): 200 ms pass after a take's reply or the holder's last read and the snapshot bank is released. -/
  | sheetBankRelease (bank : Fin 2)
  /-- SLEW_END (R359): A slew's DURATION ends, the base rate returns and event 0x0805 is sent. -/
  | slewEnd
  /-- PPS_IN_CAPTURE (R375): A rising PPS_IN edge is captured, updates LAST_PPS, and may send event 0x0803 and apply an armed step. -/
  | ppsInCapture
  /-- PPS_STEP_LAPSE (R360): An armed PPS step sees no PPS_IN edge within 2 s and lapses with event 0x0801 reason 0x3. -/
  | ppsStepLapse
  /-- PPS_OUT_RISE (R376): The time base reaches V mod PERIOD = OFFSET and PPS_OUT rises. -/
  | ppsOutRise
  /-- PPS_OUT_FALL (R376): WIDTH ms after its rise, PPS_OUT falls. -/
  | ppsOutFall
  /-- TRIGIO_EDGE (R364): A selected edge on a TRIGIO ball is captured for the trigger unit that uses it. -/
  | trigioEdge (ball : Fin 8) (rising : Bool)
  /-- TRIGGER_FIRE (R377): A trigger unit fires at E + DELAY or at a compare instant, pulsing its pin, freezing the filmstrip or sending event 0x0804. -/
  | triggerFire (unit : Fin 8)
  /-- TRIGGER_PULSE_END (R377): WIDTH µs after the latest firing, the trigger's TRIGIO pulse falls. -/
  | triggerPulseEnd (unit : Fin 8)
  /-- SHUTTER_ARM_POINT (R369): At T − 2,000 ns, a pending frame held outside the heap is inserted as armed for T, and the instant is classified. -/
  | shutterArmPoint (mo : Fin 16384)
  /-- RELEASE_NOTICE (R371): At T − 100 ns, TIME sends the channel a release notice, and a channel waiting on the armed top latches it. -/
  | releaseNotice (mo : Fin 16384) (parity : Bool)
  /-- SHUTTER_INSTANT (R370): At T, an armed entry becomes ordinary; a single-instant schedule ends with event 0x0802. -/
  | shutterInstant (mo : Fin 16384)
  /-- DEADLINE_TIMER_EXPIRY (R417): A frame has not reached transmit success DEADLINE after its release; a miss is counted with event 0x0902. -/
  | deadlineTimerExpiry (record : Fin 32768)
  /-- STREAM_STOP_BATH_END (R407): The last frame of a withdrawn stream completes; the record is freed and a held declaration becomes active. -/
  | streamStopBathEnd (record : Fin 32768)
  /-- ARRIVAL_PASS (R440): A lane runs an arrival pass for a PDU from a frame, LOCAL block or link: check, unpack, walk the route list and send. -/
  | arrivalPass (lane : Fin 4) (parity : Bool)
  /-- PDU_TIMEOUT (R446): An IN_* PDU has no arrival for TIMEOUT µs; it goes STALE, TIMEOUTS counts, event 0x0A01 is sent and a timeout pass is started. -/
  | pduTimeout (pdu : Fin 32768)
  /-- TIMEOUT_PASS (R446): A lane substitutes CONST values into the stale PDU's SOURCEs and walks its route list. -/
  | timeoutPass (pdu : Fin 32768)
  /-- PERIODIC_PACK_NOTICE (R443): TIME issues a PERIODIC group's pack notice ahead of its schedule instant. -/
  | periodicPackNotice (pdu : Fin 32768)
  /-- PERIODIC_PASS (R440): A lane packs a PERIODIC frame group and hands it to CORE intake. -/
  | periodicPass (pdu : Fin 32768)
  /-- DEFERRED_PASS (R442): At the last send plus MIN_GAP, a lane packs the deferred group with the values then current. -/
  | deferredPass (pdu : Fin 32768)
  /-- DIN_SAMPLE (R451): Every 1 ms the inputs are sampled and debounced, and the DIN block arrives when a debounced bit changes. -/
  | dinSample (levels : BitVec 32)
  /-- AIN_ROUND_END (R451): The last conversion of an AIN round ends and the AIN block arrives. -/
  | ainRoundEnd (codes : List Nat) (vbats : Bool)
  /-- VBATS_FILTER_UPDATE (R513): Every 1 ms V_f is recomputed from the VBATS conversions and the SUPPLY block arrives. -/
  | vbatsFilterUpdate (samples : List Nat)
  /-- LOAD_TICK (R494): Every 250 µs the load manager takes commands, judges reports, applies outcomes and grants, sets PWM and starts chain transfers. -/
  | loadTick (samples : List Nat)
  /-- INRUSH_WINDOW_END (R516): An inrush window's length expires and the channel enters ON. -/
  | inrushWindowEnd (ld : Fin 96)
  /-- BACKOFF_END (R519): A back-off expires and the channel goes to WAIT, INRUSH or OFF by its target. -/
  | backoffEnd (ld : Fin 96)
  /-- HEAL_REACHED (R519): HEAL seconds continuously in ON refill the retry counter. -/
  | healReached (ld : Fin 96)
  /-- LOAD_STOP_BATH_END (R524): A load channel's stop bath ends at the tick edge or chain CSN rise, in DISABLED or OFF, and any held enable is applied. -/
  | loadStopBathEnd (ld : Fin 96)
  /-- PWM_PERIOD_START (R496): A PWM period starts, reading E and driving the ball high for H µs. -/
  | pwmPeriodStart (ld : Fin 96)
  /-- PWM_HIGH_END (R495): The high time H of a PWM period ends and the ball goes low. -/
  | pwmHighEnd (ld : Fin 96)
  /-- CHAIN_TRANSFER_END (R501): A switch-chain transfer ends and its response frames are checked and read as diagnostics. -/
  | chainTransferEnd (swc : Fin 8) (response : List Byte)
  /-- CVU_STOP_BATH_END (R478): A running FEED_CVU completes, the unit becomes disabled, and any held enable is applied. -/
  | cvuStopBathEnd (unit : Fin 32)
  /-- CENSUS_LOST_JUDGEMENT (R559): Every 1 ms the census judges lost senders, sets LOST and sends event 0x0D11. -/
  | censusLostJudgement
  /-- LINK_UP (R536): A port completes training, enumerates its partner, sets its readiness bit and becomes UP. -/
  | linkUp (port : Port) (partner : Partner)
  /-- LINK_DOWN (R537): Sync loss, a fourth replay failure or 100 µs of silence takes a port out of UP, with event 0x0D01. -/
  | linkDown (port : Port) (reason : Nat)
  /-- LINK_CONFLICT_RETRY (R537): A port in CONFLICT tries training again every 100 ms. -/
  | linkConflictRetry (port : Port)
  /-- LINK_STOP_BATH_END (R565): A disabled link has sent its queued frames and received their acknowledgements; it becomes DISABLED. -/
  | linkStopBathEnd (port : Port)
  /-- TIME_FRAME_RECEIVED (R545): A TIME link frame arrives, carrying t1 and t4 of a time exchange. -/
  | timeFrameReceived (port : Port) (f : LinkRx)
  /-- TIME_EXCHANGE (R545): Every 250 µs a follower exchanges TIME frames upstream, computes delay and offset and steers its counter. -/
  | timeExchange (t1 t2 t3 t4 : Nat)
  /-- ALIGNMENT_TIMEOUT (R548): No exchange completes for 2 ms and the follower clears ALIGNED. -/
  | alignmentTimeout
  /-- ROUTE_FRAME_RECEIVED (R452): A ROUTE link frame arrives and starts an arrival pass of its IN_LINK PDU, or is relayed. -/
  | routeFrameReceived (port : Port) (f : LinkRx) (parity : Bool) (valid : Nat)
  /-- STEP_FRAME_RECEIVED (R550): A STEP frame arrives and the master's time step is applied on the follower. -/
  | stepFrameReceived (port : Port) (f : LinkRx)
  /-- CMD_FRAME_RECEIVED (R554): A CMD segment arrives; a complete forwarded command enters the MSQ, or is relayed. -/
  | cmdFrameReceived (port : Port) (f : LinkRx)
  /-- REPLY_FRAME_RECEIVED (R554): A REPLY segment arrives; a complete reply is written by the master to the source ring or port. -/
  | replyFrameReceived (port : Port) (f : LinkRx)
  /-- EVENT_FRAME_RECEIVED (R555): An EVENT frame from a follower arrives and is delivered to the master's CTX0. -/
  | eventFrameReceived (port : Port) (f : LinkRx)
  /-- DISCOVER_FRAME_RECEIVED (R542): A DISCOVER frame arrives; a follower answers and passes it on, the master enters answers in its stack table. -/
  | discoverFrameReceived (port : Port) (f : LinkRx)
  /-- IDLE_FRAME_RECEIVED (R538): An IDLE frame arrives carrying credit and acknowledgement only. -/
  | idleFrameReceived (port : Port) (f : LinkRx)
  /-- REPLAY_TIMEOUT (R540): A replayable frame is not acknowledged within 10 µs and is sent again. -/
  | replayTimeout (port : Port)
  /-- DISCOVER_ROUND (R542): Every 100 ms the master sends DISCOVER on each UP port. -/
  | discoverRound
  /-- PROOF_MODE_START (R580): After an activation pause the new image starts in proof mode, reads its settings area and starts its confirmation timer. -/
  | proofModeStart
  /-- FIX (R582): The proof image meets every fix condition and writes the fix steps, becoming fixed with event 0x0E05. -/
  | fix (selfTests : Bool)
  /-- CONFIRM_TIMER_EXPIRY (R583): The confirmation timer runs out and the device falls back to the fixed image. -/
  | confirmTimerExpiry
  /-- SESSION_IDLE_TIMEOUT (R576): 10 s pass without a command from the session owner and the session ends with event 0x0E01. -/
  | sessionIdleTimeout
  /-- IDENTIFY (R190): Returns identity, revision, firmware version, SELF and serial number. -/
  | identify (p : Packet)
  /-- TAKE_CONTACT_SHEET (R184): Freezes every counter and status into a snapshot bank, now or at INSTANT, and may acknowledge fault-log entries. -/
  | takeContactSheet (p : Packet)
  /-- GET_READINESS (R89): Returns GEN_FUNC_READY, GEN_BOOT_STATUS, the power state and a stamp. -/
  | getReadiness (p : Packet)
  /-- SET_POWER_STATE (R79): Starts a transition to ACTIVE, STANDBY, RETAIN or OFF. -/
  | setPowerState (p : Packet)
  /-- SET_WAKE (R88): Chooses the channels and filter time for wake detection. -/
  | setWake (p : Packet)
  /-- CLEAR_COUNTERS (R191): Zeroes the live counters of the selected classes at one instant. -/
  | clearCounters (p : Packet)
  /-- READ_FAULT_LOG (R40): Returns up to 7 fault-log entries from FROM. -/
  | readFaultLog (p : Packet)
  /-- READ_CONTACT_SHEET (R188): Returns up to 224 bytes of a held contact sheet. -/
  | readContactSheet (p : Packet)
  /-- GET_CONTEXT (R167): Returns a context's state, criticality, rights, quotas, load mask and channel map. -/
  | getContext (p : Packet)
  /-- SET_CONTEXT_QUOTA (R168): Sets one resource quota of a context. -/
  | setContextQuota (p : Packet)
  /-- SET_CONTEXT_CHANNELS (R169): Sets a guest's virtual channel map and rights. -/
  | setContextChannels (p : Packet)
  /-- SET_CONTEXT_RIGHTS (R170): Sets a guest's rights, criticality and load mask. -/
  | setContextRights (p : Packet)
  /-- QUIESCE_CONTEXT (R161): Makes a present guest context depart through its stop bath, keeping its rings. -/
  | quiesceContext (p : Packet)
  /-- DEVELOP (R175): Runs admission on the latent set and develops it now, arms it for an instant, or for bus idle. -/
  | develop (p : Packet)
  /-- DISCARD_LATENT (R172): Discards the context's latent set. -/
  | discardLatent (p : Packet)
  /-- GET_LATENT (R172): Returns the count of latent changes and the armed development. -/
  | getLatent (p : Packet)
  /-- CANCEL_DEVELOP (R178): Disarms an armed development before INSTANT, or replies OK_TOO_LATE. -/
  | cancelDevelop (p : Packet)
  /-- SET_CHANNEL_MODE (R230): Stages a channel's mode, formats and options. -/
  | setChannelMode (p : Packet)
  /-- SET_BIT_TIMING (R252): Stages one phase's bit timing and returns its clocks, sample point and rate. -/
  | setBitTiming (p : Packet)
  /-- ENABLE_CHANNEL (R207): Enables a channel, or holds the enable during its stop bath. -/
  | enableChannel (p : Packet)
  /-- DISABLE_CHANNEL (R203): Starts a channel's stop bath, or cancels a held enable. -/
  | disableChannel (p : Packet)
  /-- CANCEL_TX (R219): Withdraws one pending frame of a transmit object, with the outcome set by where it stands. -/
  | cancelTx (p : Packet)
  /-- RECOVER_BUS_OFF (R276): Starts bus-off recovery or sets recovery policy, ALONE_COUNT and freeze causes. -/
  | recoverBusOff (p : Packet)
  /-- GET_CHANNEL_STATUS (R232): Returns a channel's state, counters and error statistics. -/
  | getChannelStatus (p : Packet)
  /-- SET_TRANSCEIVER (R233): Stages STBN policy, settling time and fast-mode switching. -/
  | setTransceiver (p : Packet)
  /-- ALLOC_MO (R303): Reserves a message object number and cells, created at development. -/
  | allocMo (p : Packet)
  /-- CONFIG_MO (R304): Stages a message object's channel, flags, identifier and acceptance field. -/
  | configMo (p : Packet)
  /-- FREE_MO (R305): Stages the freeing of a message object. -/
  | freeMo (p : Packet)
  /-- READ_MO (R306): Reads a descriptor, front record and payload under one read lock. -/
  | readMo (p : Packet) (found : Option Nat)
  /-- WRITE_FILTER (R326): Stages a new or rewritten filter entry, reserving its place. -/
  | writeFilter (p : Packet)
  /-- CLEAR_FILTER (R327): Stages the freeing of a range of the context's filter entries. -/
  | clearFilter (p : Packet)
  /-- READ_FILTER (R308): Returns a running filter entry. -/
  | readFilter (p : Packet)
  /-- GET_FILTER_STATS (R328): Returns a channel's filter counters for a context. -/
  | getFilterStats (p : Packet)
  /-- CONFIG_QUEUE (R351): Stages a context's queue region, depths and TX shares. -/
  | configQueue (p : Packet)
  /-- SET_WATERMARK (R352): Stages which queue an FC pin follows and its thresholds. -/
  | setWatermark (p : Packet)
  /-- GET_QUEUE_STATUS (R353): Returns a queue's depth, fill, credits and counters. -/
  | getQueueStatus (p : Packet)
  /-- GET_TIME (R380): Returns the time base, rates, flags and optionally one shutter schedule. -/
  | getTime (p : Packet)
  /-- ADJUST_RATE (R359): Sets the base rate or starts a slew. -/
  | adjustRate (p : Packet)
  /-- STEP_TIME (R360): Steps the time base now, arms a PPS step, or cancels one. -/
  | stepTime (p : Packet)
  /-- SET_SHUTTER (R383): Stages a shutter schedule for a transmit object. -/
  | setShutter (p : Packet)
  /-- CLEAR_SHUTTER (R374): Stages the end of an object's shutter schedule. -/
  | clearShutter (p : Packet)
  /-- SET_TRIGGER (R384): Stages a trigger unit's source and destinations. -/
  | setTrigger (p : Packet)
  /-- SET_PPS (R385): Stages PPS_IN capture and PPS_OUT generation. -/
  | setPps (p : Packet)
  /-- DECLARE_STREAM (R423): Stages an own stream and returns an advisory exposure. -/
  | declareStream (p : Packet)
  /-- WITHDRAW_STREAM (R407): Stages the withdrawal of an own or foreign record. -/
  | withdrawStream (p : Packet)
  /-- DECLARE_FOREIGN (R424): Stages a foreign stream declaration and returns an advisory bound. -/
  | declareForeign (p : Packet)
  /-- SET_FAULT_BUDGET (R425): Stages a channel's fault budget E in W. -/
  | setFaultBudget (p : Packet)
  /-- ADMIT_ROUTE (R400): Stages the admission of a route from a foreign record to an own stream with an end-to-end deadline. -/
  | admitRoute (p : Packet)
  /-- GET_EXPOSURE (R427): Returns a record's exposure, figures and monitor counters. -/
  | getExposure (p : Packet)
  /-- ACK_UNASSURED (R415): Clears each latched cause whose condition has ended; event 0x0903 when the channel is assured again. -/
  | ackUnassured (p : Packet)
  /-- GET_MONITORS (R429): Returns a channel's monitor state and counters. -/
  | getMonitors (p : Packet)
  /-- WRITE_PDU (R466): Stages a PDU descriptor. -/
  | writePdu (p : Packet)
  /-- WRITE_SIGNAL (R467): Stages SOURCE, SINK or CONST signal-table entries. -/
  | writeSignal (p : Packet)
  /-- WRITE_ROUTE (R467): Stages ROUTE signal-table entries. -/
  | writeRoute (p : Packet)
  /-- LOAD_BUNDLE_BLOCK (R463): Takes a block of an Ozqua bundle, staging its records batch by batch. -/
  | loadBundleBlock (p : Packet)
  /-- READ_SIGNAL (R469): Returns a signal-table entry and its value. -/
  | readSignal (p : Packet)
  /-- SET_LOCAL_IO (R470): Stages DIN inversion and debounce, AIN enables and the round time. -/
  | setLocalIo (p : Packet)
  /-- GET_ROUTE_STATS (R471): Returns a lane's or PDU's routing counters. -/
  | getRouteStats (p : Packet)
  /-- CONFIG_CVU (R487): Stages, reserves or frees a check-value unit's parameters and mode. -/
  | configCvu (p : Packet)
  /-- FEED_CVU (R488): Feeds bytes to a FEED-mode unit and returns REG and RESULT. -/
  | feedCvu (p : Packet)
  /-- READ_CVU (R489): Returns a unit's parameters, REG, RESULT and counters. -/
  | readCvu (p : Packet)
  /-- WRITE_CVU_VALUE (R490): Sets a unit's REG at one ROUTE edge. -/
  | writeCvuValue (p : Packet)
  /-- ENABLE_CVU (R478): Enables a FEED-mode unit and sets REG to INIT, or holds the enable. -/
  | enableCvu (p : Packet)
  /-- DISABLE_CVU (R478): Starts a FEED-mode unit's stop bath. -/
  | disableCvu (p : Packet)
  /-- BIND_LOAD (R527): Stages the binding of a load channel to a PWM ball or chain output. -/
  | bindLoad (p : Packet)
  /-- SET_SWITCH_PROFILE (R528): Stages a switch chain's profile. -/
  | setSwitchProfile (p : Packet)
  /-- SET_LOAD (R529): Sets a load channel's commanded state for the next tick. -/
  | setLoad (p : Packet)
  /-- SET_LOAD_POLICY (R530): Stages a load channel's compensation, safe state, inrush and fault policy. -/
  | setLoadPolicy (p : Packet)
  /-- FORCE_SAFE (R510): Forces or releases the safe state of the named load channels at once. -/
  | forceSafe (p : Packet)
  /-- GET_LOAD_STATUS (R532): Returns a load channel's state, duty, current and counters. -/
  | getLoadStatus (p : Packet)
  /-- RESET_LOAD_LATCH (R523): Clears the thermal latch and history and refills retries at the next tick. -/
  | resetLoadLatch (p : Packet)
  /-- ENABLE_LOAD (R523): Enables a bound load channel into OFF, or holds the enable. -/
  | enableLoad (p : Packet)
  /-- DISABLE_LOAD (R524): Starts a load channel's stop bath ending in DISABLED. -/
  | disableLoad (p : Packet)
  /-- GET_STACK (R561): Returns the stack table or a link record. -/
  | getStack (p : Packet)
  /-- CONFIG_LINK (R562): Stages a port's MAX_DELAY. -/
  | configLink (p : Packet)
  /-- GET_CENSUS (R563): Returns up to 7 census entries. -/
  | getCensus (p : Packet)
  /-- CLEAR_CENSUS (R559): Frees census entries, zeroes FULL_DROPS and re-arms event 0x0D13. -/
  | clearCensus (p : Packet)
  /-- SET_CENSUS_EVENTS (R564): Stages a channel's census recording and event settings. -/
  | setCensusEvents (p : Packet)
  /-- ENABLE_LINK (R565): Starts training on a port, or holds the enable. -/
  | enableLink (p : Packet)
  /-- DISABLE_LINK (R565): Starts a link's stop bath. -/
  | disableLink (p : Packet)
  /-- OPEN_SESSION (R573): Stores a header half; PART 1 checks guards and header and opens an update session. -/
  | openSession (p : Packet)
  /-- WRITE_IMAGE_BLOCK (R575): Writes body bytes in order into the staging slot and checks the digest at the last byte. -/
  | writeImageBlock (p : Packet)
  /-- CLOSE_SESSION (R576): Ends the update session. -/
  | closeSession (p : Packet)
  /-- ACTIVATE (R578): Checks guards, writes TRIAL, ends the session and starts the activation pause. -/
  | activate (p : Packet)
  /-- APPROVE (R591): The safety port approves the open session by its digest. -/
  | approve (p : Packet)
  /-- VETO (R591): The safety port ends a session, or rejects the image in proof mode. -/
  | veto (p : Packet)
  /-- REJECT_IMAGE (R583): Rejects the image in proof mode and starts a fallback, or replies OK_TOO_LATE. -/
  | rejectImage (p : Packet)
  /-- GET_UPDATE_STATUS (R592): Returns session, slot, guard and image status. -/
  | getUpdateStatus (p : Packet)
  /-- SET_OWNER_LOCK (R593): Sets LOCK, REQUIRE_APPROVAL, the motion guard or LOW_MV. -/
  | setOwnerLock (p : Packet)
  /-- CLEAR_OWNER_LOCK (R593): Clears LOCK, REQUIRE_APPROVAL or MOTION_EN. -/
  | clearOwnerLock (p : Packet)
  /-- GET_SECURITY (R594): Returns guards, limits, ROLLBACK_MIN and key status. -/
  | getSecurity (p : Packet)
  /-- PERSTN_RELEASE (R63): PERSTN rises and the HOST island leaves reset and starts link training, setting HOST within 20 ms and answering configuration requests within 100 ms. -/
  | perstnRelease
  /-- COMMAND_ENTRY_FETCHED (R95): The DMA read of a posted CMD ring entry completes and the command packet lands in the context's CMDQ, fetched but not yet started. -/
  | commandEntryFetched (c : Fin 64) (entry : List Byte) (parity : Bool)
  /-- UNDEFINED_OPCODE_COMMAND (R156): The command engine takes a packet whose opcode the index does not list and refuses it with BAD_OPCODE. -/
  | undefinedOpcodeCommand (p : Packet)
  /-- OVERLOAD_FRAME_SEEN (R274): A channel sees an overload frame from another node, answers it as ISO 11898-1 requires and writes a filmstrip record of kind 0x05. -/
  | overloadFrameSeen (ch : Fin 64)
  /-- RECESSIVE_SEQUENCE_COUNTED (R261): During bus-off recovery, a run of 11 consecutive recessive nominal bits completes and RECOV_PROGRESS counts one occurrence. -/
  | recessiveSequenceCounted (ch : Fin 64)
  /-- FAST_FRAME_LOST (R201): In SAFELIGHT with FAST 1, a received XL frame reaches the end of its arbitration phase; it is counted in FAST_LOST, rewound, and the channel waits for bus integration. -/
  | fastFrameLost (ch : Fin 64) (edges : List (Nat × Nat))
  /-- FILMSTRIP_DRAIN_END (R275): After the last frozen record has been delivered, event 0x0406 is sent, the filmstrip is empty and recording resumes. -/
  | filmstripDrainEnd
  /-- LINK_TRAINING_FAILED (R537): A training port fails the identity or delay step, or meets a same-letter, duplicate or mismatched partner, and enters CONFLICT with its reason. -/
  | linkTrainingFailed (port : Port) (reason : Nat)
  deriving DecidableEq, Repr

end Sys2Proof
end

