-- ==== Sys2Proof/WellFormed.lean ====
section
/-!
DEFINITION. Well-formed commands: what the wires and fields that carry a command bound, where the operands' types do not bound
it already (R121, R136, R144, R192, R536, R538).
-/

namespace Sys2Proof

/-- The fields of a command packet fit their places (R144). Whether they agree with each other is the command's own check. -/
def Packet.wf (p : Packet) : Bool :=
  decide (p.opcode < 65536) && decide (p.plen < 256) && decide (p.tag < 65536) && p.reserved.length == 8
    && decide (p.params.length ≤ 240)

/-- A frame header fits the bits of its format: of an XL frame the priority identifier, VCID and SDT (R121, R192, R309). -/
def Hdr.wf (h : Hdr) : Bool :=
  decide (h.af < 2 ^ 32) && match h.fmt with
    | .xl => !h.ide && h.ident &&& 0xFFFF07FF == h.ident
    | _ => decide (h.ident < if h.ide then 2 ^ 29 else 2 ^ 11)

/-- A link frame's fields fit its header and its payload (R538, R539). -/
def LinkRx.wf (f : LinkRx) : Bool :=
  decide (f.frame.src < 8) && decide (f.frame.dst < 8) && decide (f.frame.info < 2 ^ 64) && decide (f.frame.data.length < 65536)
    && decide (f.seq < 256) && decide (f.ack < 256) && decide (f.credit < 256)

/-- What training measures of a partner fits the fields that carry it (R536, R561). -/
def Partner.wf (q : Partner) : Bool :=
  decide (q.position < 8) && decide (q.fwVer < 2 ^ 32) && decide (q.serial < 2 ^ 64) && decide (q.maxDelay < 65536)
    && decide (q.wire < 2 ^ 32)

/-- A value of the 64-bit time base (R354). -/
def stampOk (v : Nat) : Bool := decide (v < 2 ^ 64)

/-- Edges of a ball: a rise and the fall after it, as time-base values (R364, R624). -/
def edgesOk (l : List (Nat × Nat)) : Bool := l.all fun e => stampOk e.1 && stampOk e.2

/-- The place of an uncorrectable word in a buffer of at most 2,080 bytes (R280, R300). -/
def foundOk (f : Option Nat) : Bool := f.all fun n => decide (n < 2112)

/-- `count` words at an aligned offset of BAR0, which is 64 KiB (R96). -/
def offsetOk (offset count : Nat) : Bool := offset % 4 == 0 && decide (offset + 4 * count ≤ 65536)

/-- ARG and COUNT of a safety-port request (R136). -/
def requestOk (arg count : Nat) : Bool := decide (arg < 65536) && decide (count < 256)

/-- The command could reach the ZB64 over the wires and fields that carry it. -/
def Instr.wf (i : Instr) : Bool :=
  match i with
  | .powerOnReset _ _ _ => true
  | .brownOut _ _ _ _ => true
  | .brownOutRestart => true
  | .warmReset _ _ _ => true
  | .pcieFundamentalReset => true
  | .resumeFromRetain => true
  | .aonStart => true
  | .functionReady _ _ => true
  | .maskRomBoot => true
  | .imageStart => true
  | .pllLossOfLock _ _ _ => true
  | .pllRelock _ => true
  | .referenceLoss _ _ => true
  | .lockstepMismatch _ interrupted => interrupted.all Packet.wf
  | .commandPauseEnd _ => true
  | .scrubPass _ addr _ interrupted => decide (addr < 2 ^ 24) && interrupted.all Packet.wf
  | .vfEnable _ => true
  | .vfDisable => true
  | .contextStopBathEnd _ => true
  | .vfFlr _ => true
  | .vfFlrEnd _ => true
  | .pfFlr => true
  | .producerDoorbellWrite _ _ _ => true
  | .consumerDoorbellWrite _ _ _ => true
  | .ringEnable _ _ _ => true
  | .ringDisable _ _ _ => true
  | .ringStopBathEnd _ _ => true
  | .dmaErrClear _ _ => true
  | .dmaReadError _ _ entry => entry.all fun e => decide (e.length ≤ 256)
  | .irqCauseClear _ _ => true
  | .irqMaskWrite _ _ => true
  | .msixHoldoffEnd _ _ => true
  | .wakeStatusClear _ _ _ => true
  | .genTimeLoRead _ => true
  | .clearOnReadCounterRead _ offset count found => offsetOk offset count && foundOk found
  | .winSelectWrite _ _ => true
  | .windowLockTake _ offset count found => offsetOk offset count && foundOk found
  | .windowLockRelease _ offset count found => offsetOk offset count && foundOk found
  | .windowLockTimeout _ => true
  | .registerWrite _ offset words _ => offsetOk offset words.length
  | .safetyRegisterRead typ arg count _ => requestOk arg count && !(typ == 0x02 || typ == 0x3C || typ == 0x3D)
  | .safetyRegisterWrite arg count _ _ => requestOk arg count
  | .safetyPacketSend arg count data _ _ _ => requestOk arg count && decide (data.length ≤ 65535)
  | .safetyPacketReceive arg count _ _ => requestOk arg count
  | .replyRingWrite _ _ => true
  | .eventRingWrite _ _ => true
  | .rxRingWrite _ _ => true
  | .descriptorLanding _ _ entry payload _ => entry.length == 32 && decide (payload.length ≤ 2048)
  | .routedFrameIntake _ _ => true
  | .candidateLatch _ stamp _ => stampOk stamp
  | .arbitrationLost _ => true
  | .arbitrationWon _ => true
  | .headerComplete _ hdr edges _ _ => hdr.wf && edgesOk edges
  | .frameReceived _ len data _ => data.length == len.val
  | .distributorCopy _ _ => true
  | .transmitSuccess _ _ _ => true
  | .busErrorDetected _ _ _ _ _ _ _ _ edges => edgesOk edges
  | .attemptFailed _ _ => true
  | .protocolException _ edges => edgesOk edges
  | .busIntegrationComplete _ => true
  | .busIdle _ => true
  | .idleLimitExpiry _ _ => true
  | .stbnSettleEnd _ => true
  | .channelStopBathEnd _ => true
  | .autoDelayExpiry _ => true
  | .recoveryComplete _ => true
  | .wakeDetected _ => true
  | .powerTransitionComplete => true
  | .developSwitch instant => stampOk instant
  | .contactSheetCapture _ => true
  | .sheetBankRelease _ => true
  | .slewEnd => true
  | .ppsInCapture => true
  | .ppsStepLapse => true
  | .ppsOutRise => true
  | .ppsOutFall => true
  | .trigioEdge _ _ => true
  | .triggerFire _ => true
  | .triggerPulseEnd _ => true
  | .shutterArmPoint _ => true
  | .releaseNotice _ _ => true
  | .shutterInstant _ => true
  | .deadlineTimerExpiry _ => true
  | .streamStopBathEnd _ => true
  | .arrivalPass _ _ => true
  | .pduTimeout _ => true
  | .timeoutPass _ => true
  | .periodicPackNotice _ => true
  | .periodicPass _ => true
  | .deferredPass _ => true
  | .dinSample _ => true
  | .ainRoundEnd codes _ => codes.all fun v => decide (v < 4096)
  | .vbatsFilterUpdate samples => samples.all fun v => decide (v < 4096)
  | .loadTick samples => samples.all fun v => decide (v < 4096)
  | .inrushWindowEnd _ => true
  | .backoffEnd _ => true
  | .healReached _ => true
  | .loadStopBathEnd _ => true
  | .pwmPeriodStart _ => true
  | .pwmHighEnd _ => true
  | .chainTransferEnd _ _ => true
  | .cvuStopBathEnd _ => true
  | .censusLostJudgement => true
  | .linkUp _ partner => partner.wf
  | .linkDown _ reason => decide (reason < 8)
  | .linkConflictRetry _ => true
  | .linkStopBathEnd _ => true
  | .timeFrameReceived _ f => f.wf
  | .timeExchange t1 t2 t3 t4 => stampOk t1 && stampOk t2 && stampOk t3 && stampOk t4
  | .alignmentTimeout => true
  | .routeFrameReceived _ f _ valid => f.wf && stampOk valid
  | .stepFrameReceived _ f => f.wf
  | .cmdFrameReceived _ f => f.wf
  | .replyFrameReceived _ f => f.wf
  | .eventFrameReceived _ f => f.wf
  | .discoverFrameReceived _ f => f.wf
  | .idleFrameReceived _ f => f.wf
  | .replayTimeout _ => true
  | .discoverRound => true
  | .proofModeStart => true
  | .fix _ => true
  | .confirmTimerExpiry => true
  | .sessionIdleTimeout => true
  | .identify p => p.wf
  | .takeContactSheet p => p.wf
  | .getReadiness p => p.wf
  | .setPowerState p => p.wf
  | .setWake p => p.wf
  | .clearCounters p => p.wf
  | .readFaultLog p => p.wf
  | .readContactSheet p => p.wf
  | .getContext p => p.wf
  | .setContextQuota p => p.wf
  | .setContextChannels p => p.wf
  | .setContextRights p => p.wf
  | .quiesceContext p => p.wf
  | .develop p => p.wf
  | .discardLatent p => p.wf
  | .getLatent p => p.wf
  | .cancelDevelop p => p.wf
  | .setChannelMode p => p.wf
  | .setBitTiming p => p.wf
  | .enableChannel p => p.wf
  | .disableChannel p => p.wf
  | .cancelTx p => p.wf
  | .recoverBusOff p => p.wf
  | .getChannelStatus p => p.wf
  | .setTransceiver p => p.wf
  | .allocMo p => p.wf
  | .configMo p => p.wf
  | .freeMo p => p.wf
  | .readMo p found => p.wf && foundOk found
  | .writeFilter p => p.wf
  | .clearFilter p => p.wf
  | .readFilter p => p.wf
  | .getFilterStats p => p.wf
  | .configQueue p => p.wf
  | .setWatermark p => p.wf
  | .getQueueStatus p => p.wf
  | .getTime p => p.wf
  | .adjustRate p => p.wf
  | .stepTime p => p.wf
  | .setShutter p => p.wf
  | .clearShutter p => p.wf
  | .setTrigger p => p.wf
  | .setPps p => p.wf
  | .declareStream p => p.wf
  | .withdrawStream p => p.wf
  | .declareForeign p => p.wf
  | .setFaultBudget p => p.wf
  | .admitRoute p => p.wf
  | .getExposure p => p.wf
  | .ackUnassured p => p.wf
  | .getMonitors p => p.wf
  | .writePdu p => p.wf
  | .writeSignal p => p.wf
  | .writeRoute p => p.wf
  | .loadBundleBlock p => p.wf
  | .readSignal p => p.wf
  | .setLocalIo p => p.wf
  | .getRouteStats p => p.wf
  | .configCvu p => p.wf
  | .feedCvu p => p.wf
  | .readCvu p => p.wf
  | .writeCvuValue p => p.wf
  | .enableCvu p => p.wf
  | .disableCvu p => p.wf
  | .bindLoad p => p.wf
  | .setSwitchProfile p => p.wf
  | .setLoad p => p.wf
  | .setLoadPolicy p => p.wf
  | .forceSafe p => p.wf
  | .getLoadStatus p => p.wf
  | .resetLoadLatch p => p.wf
  | .enableLoad p => p.wf
  | .disableLoad p => p.wf
  | .getStack p => p.wf
  | .configLink p => p.wf
  | .getCensus p => p.wf
  | .clearCensus p => p.wf
  | .setCensusEvents p => p.wf
  | .enableLink p => p.wf
  | .disableLink p => p.wf
  | .openSession p => p.wf
  | .writeImageBlock p => p.wf
  | .closeSession p => p.wf
  | .activate p => p.wf
  | .approve p => p.wf
  | .veto p => p.wf
  | .rejectImage p => p.wf
  | .getUpdateStatus p => p.wf
  | .setOwnerLock p => p.wf
  | .clearOwnerLock p => p.wf
  | .getSecurity p => p.wf
  | .perstnRelease => true
  | .commandEntryFetched _ entry _ => entry.length == 256
  | .undefinedOpcodeCommand p => p.wf
  | .overloadFrameSeen _ => true
  | .recessiveSequenceCounted _ => true
  | .fastFrameLost _ edges => edgesOk edges
  | .filmstripDrainEnd => true
  | .linkTrainingFailed _ reason => decide (reason < 8)

end Sys2Proof
end

