-- ==== Sys2Proof/Config.lean ====
section
/-!
DEFINITION. What the spec leaves to the part or leaves open: values fixed at manufacture and free values. None has a body,
so nothing can be proved of the value of any.
-/

namespace Sys2Proof.Config

/-- Device serial number, set at manufacture (R190; log entry 3). -/
opaque serial : BitVec 64

/-- Ranhaune's key in KEY0: X, then Y, most significant byte first (R570, R571; log entry 3). -/
opaque key0 : BitVec 512

/-- Whether the image with a firmware version reads a settings format besides its own (R585; log entry 3). -/
opaque readsFormat : Nat → Nat → Bool

/-- The voltage at the VBATS ball in µV that a code of the converter stands for after the factory trim (R513, R610; log entry 3). -/
opaque vbatsTrim : Nat → Nat

/-- A value that the spec leaves open in a place of 32 bits, by the draw of the free counter (log entry 4). -/
opaque freeWord : Nat → BitVec 32

/-- Record bytes of a settings area as an image writes them, by the draw of the free counter: no rule gives them (R584; log entry 3). -/
opaque settingsRecords : Nat → List (BitVec 8)

/-- A figure that another device of the stack holds, by the draw of the free counter, a position, a record or PDU number, and the
figure (log entry 41). About the inbound record of a route at that position: 0 whether it is a foreign record, 1 its bound to
receive valid, 2 the least such time, 3 its jitter, 4 its period, 5 the hops to it where the stack table gives none, 16 + h the
link load and 24 + h the MAX_DELAY of hop h of its path (R401, R552). About a foreign record of this device that another device's
route may have as IN: 8 whether there is such a route, 9 its OUT, 10 the largest bound that keeps its deadline, 11 the
criticality and 12 the channel of its OUT (R401). About an IN_LINK PDU of this device: 13 whether an OUT_LINK PDU of another
device names it (R452). -/
opaque remoteFigure : Nat → Nat → Nat → Nat → Nat

/-- Whether another device of the stack holds a developed IN_LINK PDU of a number and a length, by the draw of the free
counter, the position, the number and the length (R452; log entry 41). -/
opaque remotePdu : Nat → Nat → Nat → Nat → Bool

/-- Blocks of 10.56 ns that the passes of other devices of the stack send through a link, by the draw of the free counter and
the link: 0 and 1 the outgoing directions of LINKA and LINKB, and 2 more for each link that lies before (R551; log entry 41). -/
opaque remoteLoad : Nat → Nat → Nat

end Sys2Proof.Config
end

