-- ==== Sys2Proof/Machine/Bits.lean ====
section
/-!
DEFINITION. Byte strings, fields and tables: little-endian numbers (R9), bit fields, saturating counters, the CRC-32 of
R137, fixed tables (Vector) and numbered sparse tables (lists of number and entry, numbers strictly rising).
-/

namespace Sys2Proof

/-! ### Bytes -/

/-- `n` bytes of the value `v`, least significant first (R9). -/
def le : Nat → Nat → List Byte
  | 0, _ => []
  | n + 1, v => BitVec.ofNat 8 v :: le n (v / 256)

/-- The number a little-endian byte string spells (R9). -/
def leVal : List Byte → Nat
  | [] => 0
  | b :: bs => b.toNat + 256 * leVal bs

/-- The number a byte string spells, most significant byte first (R568). -/
def beVal (l : List Byte) : Nat := leVal l.reverse

/-- `n` zero bytes. -/
def zeros (n : Nat) : List Byte := List.replicate n 0

/-- Byte `i` as a number; 0 past the end. -/
def byteAt (l : List Byte) (i : Nat) : Nat := (l.getD i 0).toNat

/-- The little-endian field of `n` bytes at offset `i`. -/
def fieldAt (l : List Byte) (i n : Nat) : Nat := leVal ((l.drop i).take n)

/-- The list cut or zero-padded to `n` bytes. -/
def padTo (n : Nat) (l : List Byte) : List Byte := l.take n ++ zeros (n - l.length)

/-- True when `n` bytes at offset `i` are all 0 (reserved fields, R12). -/
def zeroAt (l : List Byte) (i n : Nat) : Bool := ((l.drop i).take n).all (· == 0)

/-- Bit `i` of a number. -/
def bitOf (v i : Nat) : Bool := v.testBit i

/-- `n` bits of a number from bit `lo`. -/
def bitsOf (v lo n : Nat) : Nat := v / 2 ^ lo % 2 ^ n

/-- A Bool as a field of weight `w`. -/
def flag (b : Bool) (w : Nat) : Nat := if b then w else 0

/-- The signed number that the low `n` bits of `v` spell in two's complement. -/
def signedOf (n v : Nat) : Int :=
  let u := v % 2 ^ n
  if u < 2 ^ (n - 1) then (u : Int) else (u : Int) - (2 ^ n : Nat)

/-- The low `n` bits of the two's complement of `v`. -/
def unsignedOf (n : Nat) (v : Int) : Nat := (v % ((2 ^ n : Nat) : Int)).toNat

/-- A count up by `k` that stops at the largest `w`-bit value. -/
def satAdd (w n k : Nat) : Nat := min (n + k) (2 ^ w - 1)

/-- A 32-bit saturating counter counts one. -/
def inc32 (n : Nat) : Nat := satAdd 32 n 1

/-- A 16-bit saturating counter counts one. -/
def inc16 (n : Nat) : Nat := satAdd 16 n 1

/-- Division rounding up. -/
def ceilDiv (a b : Nat) : Nat := (a + b - 1) / b

/-! ### CRC-32 of R137 -/

/-- `k` shifts of the reflected CRC-32 register. -/
def crc32Shift : Nat → BitVec 32 → BitVec 32
  | 0, r => r
  | k + 1, r =>
    let t := r >>> 1
    crc32Shift k (if r.getLsbD 0 then t ^^^ 0xEDB88320#32 else t)

/-- The register after one byte. -/
def crc32Byte (r : BitVec 32) (b : Byte) : BitVec 32 := crc32Shift 8 (r ^^^ b.setWidth 32)

/-- The register after a byte string, from the register `r`. -/
def crc32From (r : BitVec 32) : List Byte → BitVec 32
  | [] => r
  | b :: bs => crc32From (crc32Byte r b) bs

/-- CRC-32 of R137: polynomial 0x04C11DB7 reflected, initial value and final XOR all ones. -/
def crc32 (l : List Byte) : Nat := (crc32From 0xFFFFFFFF#32 l ^^^ 0xFFFFFFFF#32).toNat

/-! ### Fixed tables -/

/-- Entry `i` of a fixed table; `d` outside it. -/
def tget {α : Type} {n : Nat} (v : Vector α n) (i : Nat) (d : α) : α := v[i]?.getD d

/-- A fixed table with entry `i` changed by `f`; unchanged for a number outside it. -/
def tmod {α : Type} {n : Nat} (v : Vector α n) (i : Nat) (f : α → α) : Vector α n :=
  if h : i < n then v.set i (f v[i]) else v

/-- A fixed table by number. -/
def vgen {α : Type} (n : Nat) (f : Nat → α) : Vector α n := ⟨((List.range n).map f).toArray, by simp⟩

/-- Every entry of a fixed table changed by `f`. -/
def vmap {α β : Type} {n : Nat} (v : Vector α n) (f : α → β) : Vector β n := ⟨(v.toList.map f).toArray, by simp⟩

/-! ### Sparse tables -/

/-- The entry of a sparse table under number `k`. -/
def mget {α : Type} : List (Nat × α) → Nat → Option α
  | [], _ => none
  | (j, a) :: l, k => if j = k then some a else mget l k

/-- The sparse table with entry `k` set, its numbers still strictly rising. -/
def mset {α : Type} : List (Nat × α) → Nat → α → List (Nat × α)
  | [], k, v => [(k, v)]
  | (j, a) :: l, k, v =>
    if k < j then (k, v) :: (j, a) :: l
    else if k = j then (k, v) :: l
    else (j, a) :: mset l k v

/-- The sparse table without entry `k`. -/
def mdel {α : Type} : List (Nat × α) → Nat → List (Nat × α)
  | [], _ => []
  | (j, a) :: l, k => if j = k then l else (j, a) :: mdel l k

/-- The sparse table with entry `k`, where it has one, changed by `f`. -/
def mmod {α : Type} (l : List (Nat × α)) (k : Nat) (f : α → α) : List (Nat × α) :=
  match mget l k with
  | some a => mset l k (f a)
  | none => l

/-- The numbers of a sparse table rise strictly: its one canonical form. -/
def rising {α : Type} : List (Nat × α) → Bool
  | [] => true
  | [_] => true
  | (j, _) :: (k, b) :: l => decide (j < k) && rising ((k, b) :: l)

/-! ### Small list tools -/

/-- Element `i` of a list changed by `f`. -/
def lmod {α : Type} (l : List α) (i : Nat) (f : α → α) : List α :=
  match l, i with
  | [], _ => []
  | a :: t, 0 => f a :: t
  | a :: t, n + 1 => a :: lmod t n f

/-- The list without the first element that satisfies `p`. -/
def dropFirst {α : Type} (p : α → Bool) : List α → List α
  | [] => []
  | a :: t => if p a then t else a :: dropFirst p t

/-- An element put before the first element that it does not come after. -/
def insertBy {α : Type} (before : α → α → Bool) (a : α) : List α → List α
  | [] => [a]
  | b :: t => if before a b then a :: b :: t else b :: insertBy before a t

/-- A list sorted; elements of equal rank keep their order. -/
def sortBy {α : Type} (before : α → α → Bool) (l : List α) : List α := l.foldr (insertBy before) []

/-- The smallest number below `n` that satisfies `p`. -/
def firstBelow (n : Nat) (p : Nat → Bool) : Option Nat := (List.range n).find? p

/-- Sum of a list of numbers. -/
def total (l : List Nat) : Nat := l.foldl (· + ·) 0

/-- A fold over the numbers 0 to n - 1, carrying a state. -/
def forRange {σ : Type} (n : Nat) (f : Nat → σ → σ) (s : σ) : σ := (List.range n).foldl (fun s i => f i s) s

/-- The fold of a state through a list. -/
def forEach {α σ : Type} (l : List α) (f : α → σ → σ) (s : σ) : σ := l.foldl (fun s a => f a s) s

end Sys2Proof
end

