-- ==== Sys2Proof/Machine/ResetValues.lean ====
section
/-!
DEFINITION. The state right after a power-on reset, part by part (R71 and the reset values of the chapters).
Values the spec does not give are named in the assumption log (entries 1 and 2).
-/

namespace Sys2Proof

/-! ### Supervisor, fault log, memory counters -/

/-- The AON supervisor right after a power-on reset: nothing started, ACTIVE (R62, R70, R72, R83). -/
def aonReset : Aon :=
  { phase := .starting, ready := 0, resetCause := .powerOn, bootSlot := none, proof := false, fallback := false,
    stackId := 0, bootResult := 0, power := .active, transition := none,
    retained := 0, perstnLow := true, supplies := 0, lostPlls := [], refLost := false, wake := 0, wakeMask := 0, wakeFilter := 5,
    armedMask := 0, armedFilter := 5 }

/-- An empty fault log, as shipped (R39; log entry 2). -/
def faultLogReset : FaultLog := { entries := [], nextSeq := 1 }

/-- The counters of one region after a reset: none counted, last address none (R37). -/
def memCounterReset : MemCounter := { corrected := 0, uncorr := 0, lastAddr := 0xFFFFFF }

/-- The counters of R37 and R23 after a reset. -/
def memCountersReset : MemCounters :=
  { regions := Vector.replicate 12 memCounterReset, retired := 0, parity := Vector.replicate 16 0 }

/-! ### Host ports -/

/-- A ring after a reset of the HOST island: every register 0 (R95, R108). -/
def ringReset : Ring :=
  { baseLo := 0, baseHi := 0, dataLo := 0, dataHi := 0, ctrl := 0, active := false, stopping := false, held := false,
    dmaErr := false, cfgErr := 0, prod := 0, cons := 0, limit := 0, fetched := 0, intake := 0, txLost := [], lost := 0,
    dmaStop := false, lastMsg := none, gathered := false, share := 0, sharePend := none }

/-- A function's registers after a reset (R99, R101, R129, R130). -/
def fnReset : Fn :=
  { timeHi := 0, wbLo := 0, wbHi := 0, control := 0, dblDiscards := 0, dmaErrors := 0, evtLost := 0, evtLostNext := 0,
    irqCause := 0, irqSent := 0, irqMask := 0xFF, irqVector := 0,
    win := { mo := 0, timeout := 100, selected := false, locked := false, torn := false, deadline := 0 },
    rings := Vector.replicate 36 ringReset, msix := [], flr := false }

/-- The endpoint after a reset: virtual functions disabled (R71). -/
def hostReset : HostPort := { vfEnable := false, numVfs := 0, fns := Vector.replicate 64 fnReset }

/-- The safety port after a reset: 8 credits, mask 0 (R141). -/
def safetyReset : SafetyPort := { credits := 8, replies := [], irqCause := 0, irqMask := 0, crcErrs := 0, timeHi := 0, decoded := [] }

/-! ### Channels -/

/-- Transceiver settings with every default (R233). -/
def xcvrReset : Transceiver := { stbn := 0, settle := 40, fast := false, pwms := 3, pwml := 9, pwmo := 0 }

/-- A channel's settings after a reset: mode and formats 0, options off, no bit timing (R230, R233, R248). -/
def settingsReset : ChanSettings :=
  { mode := 0, formats := 1, options := 0, nominal := none, fdData := none, xlData := none, xcvr := xcvrReset }

/-- All channel counters 0. -/
def chanCountersReset : ChanCounters :=
  { txOk := 0, rxOk := 0, arbLost := 0, retx := 0, cancels := 0, tooLate := 0, pexCount := 0, fastLost := 0,
    bitErr := 0, stuffErr := 0, formErr := 0, crcErr := 0, ackErr := 0, esdLost := 0, tdcFail := 0, passives := 0,
    busOffs := 0, recovs := 0, errEvents := 0, alones := 0 }

/-- All queue counters 0. -/
def qstatReset : QStat :=
  { hwm := 0, packets := 0, rewinds := 0, overflow := 0, oversize := 0, noring := 0, ringfull := 0, eccCorr := 0,
    uncorr := 0, fcAsserts := 0 }

/-- A channel after a reset: DISABLED, recovery policy of R262 and R266 (R71). -/
def chanReset : Chan :=
  { state := .disabled, cur := settingsReset, next := none, mode := 0, nextMode := none, bus := .idle, wasTx := false, capture := 0, settling := none,
    settleWait := false, stop := none, held := none, wasBusOff := false, settleEnd := 0, latched := none, sof := 0, cellBad := false,
    cancelling := [], cancelled := false, bathCancel := false, rx := none, tec := 0, recErr := 0, ackRun := 0, alone := false,
    auto := true, freeze := 0, autoDelay := 0, aloneCount := 16, busOffAt := 0, recovStart := 0, progress := 0,
    stretch := false, counters := chanCountersReset, lastSof := 0, lastErrAt := 0, lastErr := .none,
    lastField := .sofArb, tdcvFd := none, tdcvXl := none,
    filters := { judged := 0, noMatch := 0, decisionMax := 0 }, chq := [], chqClaim := 0, chqStat := qstatReset }

/-- The filmstrip after a reset: empty, recording (R71). -/
def filmReset : Filmstrip := { records := [], frozen := false, delivered := 0, ignored := 0 }

/-- The number of pages of the payload pool: 114,688 cells in pages of 128 (R278, R279). -/
def poolPages : Nat := 896

/-- The payload pool after a reset: every page CTX0's, as its quota of R166 says (R279). -/
def poolReset : Pool := { pages := List.replicate poolPages (some 0), retired := [], suspect := [] }

/-- The filter store after a reset: empty (R71). -/
def filterReset : FilterStore := { entries := [], chains := [], pairs := [] }

/-! ### Queues -/

/-- Depths of a guest without a region: no queue (R336, R337). -/
def depthsNone : Depths := { places := 0, evt := 0, tx := 0, rx := 0 }

/-- Minimum depths (R337). -/
def depthsMin : Depths := { places := 2, evt := 8, tx := 0, rx := 0 }

/-- A context's queues with the depths `d`, all empty. -/
def ctxQueuesReset (d : Depths) : CtxQueues :=
  { region := 0, depths := d, pend := d, cmdq := [], rplq := [], evtq := [], rxq := [],
    cmdStat := qstatReset, rplStat := qstatReset, evtStat := qstatReset, txStat := qstatReset, rxStat := qstatReset }

/-- The fixed queues after a reset: empty; the FC pins follow nothing and are high (R71, R347). -/
def fixedReset : FixedQueues :=
  { rtq := Vector.replicate 4 [], rtqStat := Vector.replicate 4 qstatReset,
    lkqStat := Vector.replicate 2 qstatReset,
    spq := [], spqStat := qstatReset, sprqStat := qstatReset, msq := [], msqStat := qstatReset, msrqStat := qstatReset, fc := Vector.replicate 8 { qid := none, high := 0, low := 0, up := true } }

/-! ### Time base, triggers -/

/-- The time base after a reset: at 0, nominal rate, not aligned, PPS_OUT low (R71, R362, R385). -/
def timeReset : TimeBase :=
  { clk := 0, time := 0, frac := 0, rate := 0, baseRate := 0, slewEnd := none, aligned := false, lastPps := 0,
    lastStep := 0, armed := none,
    pps := { capture := false, event := false, outEn := false, width := 100, period := 1000000000, offset := 0 },
    ppsOut := false, ppsFall := 0, ppsLast := none }

/-- A trigger unit after a reset: off (R71, R384). -/
def triggerReset : Trigger :=
  { set := { source := 0, edge := 0, dest := 0, pin := 0, width := 0, instant := 0, period := 0, delay := 0 },
    edges := [], next := 0 }

/-! ### Admission -/

/-- A channel's monitor after a reset: E 1 in W 100,000 µs, nothing latched (R394, R429). -/
def monitorReset : Monitor :=
  { e := 1, w := 100000, stamps := [], causes := 0, causeAt := Vector.replicate 8 0, undeclared := 0, foreignViol := 0, ownViol := 0,
    overBudget := 0, misses := 0, lastMiss := 0, utilisation := 0 }

/-! ### Routing, check values, loads -/

/-- A lane after a reset. -/
def laneReset : Lane := { waiting := [], timedAt := none, held := [], ending := none, changed := [], passes := 0, timed := 0, maxWork := 0, last := 0 }

/-- Local inputs after a reset: no inversion, DEBOUNCE 3, no AIN, ROUND 1,000 µs (R451, R470). -/
def localIoReset : LocalIo :=
  { set := { invert := 0, ainEn := 0, round := 1000, debounce := Vector.replicate 32 3 },
    levels := 0, runs := Vector.replicate 32 0, ain := Vector.replicate 24 0, dinAt := 0, round := none }

/-- A check-value unit after a reset: free, running value 0 (R71). -/
def cvuReset : Cvu :=
  { params := none, owner := 0, enabled := false, stopping := false, stopBy := .ctx 0, held := none, reg := 0,
    checks := 0, mismatches := 0, appends := 0, fed := 0 }

/-- A load channel's policy after a reset (R530). -/
def policyReset : LoadPolicy :=
  { comp := false, safe := 0, depart := 0, prio := 0, safeDuty := 0, vnom := 13200, inrush := 80, extCap := 200,
    retries := 3, thermLimit := 2, backoff := 400, backoffMax := 6400, heal := 40000, thermWin := 240000, iMax := 0,
    iOpen := 0, vuv := 6000 }

/-- A load channel after a reset: UNBOUND and off (R71, R522). -/
def loadReset : Load :=
  { bind := none, policy := policyReset, pendBind := none, pendPolicy := none, state := .unbound, enabled := false,
    on := false, duty := 0, commander := .nobody, safe := false, forcer := .sp, snapOn := false, snapDuty := 0,
    retries := 3, backoffs := 0, latch := false, thermals := [], waitSince := 0, timerEnd := 0,
    granted := false, uvWindow := false, extUsed := 0, extFrom := [], faultEvent := false,
    reports := { fault := false, temp := false, open_ := false, uv := false, cur := none },
    overTicks := 0, openFound := false, lowVAt := none, pendReset := false, stopRetain := false,
    stopBy := .ctx 0, stopDue := false, held := none, parked := false, taken := 0, eff := 0, ball := false, periodAt := 0, faults := 0,
    thermCount := 0, opens := 0, uvRestarts := 0, retriesUsed := 0, latches := 0, extensions := 0, chainErr := 0,
    lastFault := 0 }

/-- A switch chain's profile after a reset: SWITCHES 0 (R528). -/
def profileReset : Profile :=
  { switches := 0, frameBits := 8, outputs := 1, div := 8, mode := 0, base := 0, expMask := 0, expValue := 0,
    outs := [] }

/-- A switch chain after a reset: stopped, SWCn_CSN high (R71). -/
def chainReset : SwChain :=
  { profile := profileReset, pend := none, busy := none, busyAt := 0, extra := false, invalid := List.replicate 8 0,
    lost := List.replicate 8 false }

/-- The load manager after a reset. -/
def loadMgrReset : LoadMgr :=
  { tick := 0, nextTick := 0, loads := Vector.replicate 96 loadReset, chains := Vector.replicate 8 chainReset, vf := 0, vbats := [],
    vfSettled := false, vbatsFrom := 0, lastState := List.replicate 96 0 }

/-! ### Links, stack, census -/

/-- A Talrax port after a reset: disabled until TIME starts its training (R71, R561, R562). -/
def linkReset : Link :=
  { state := .disabled, reason := 0, partner := none, wire := 0, maxDelay := 60, peerDelay := 60, offset := 0,
    crcErr := 0, replays := 0, retrains := 0, routedTx := 0, routedRx := 0, routedLost := 0, upSince := 0, seqTx := 0,
    seqRx := 0, unacked := [], queue := [], credits := 0, freed := 0, fresh := false, since := 0,
    stopBy := .ctx 0, held := none, wall := 0 }

/-- A place of the stack table not yet heard of (R542). -/
def deviceReset : Device :=
  { present := false, conflict := false, hopsA := 0xFF, hopsB := 0xFF, flags := 0, fwVer := 0, serial := 0, silent := 0,
    heardA := false, heardB := false }

/-- The stack after a reset (R542, R548). -/
def stackReset : Stack :=
  { devices := Vector.replicate 8 deviceReset, ring := false, seq := 0, upstream := none, good := 0, exchanged := 0,
    forwarded := [], roundAt := 0, returned := false, steps := [], partials := [] }

/-- A channel's census settings after a reset (R564). -/
def censusSetReset : CensusSet := { record_ := true, new := 0, lost := false, factor := 3, lostTime := 0 }

/-- The census after a reset: empty (R71). -/
def censusReset : Census :=
  { entries := [], sets := Vector.replicate 64 censusSetReset, fullDrops := 0, fullSent := false, judgedAt := 0 }

/-! ### Contexts -/

/-- Quotas of CTX0 at reset (R166). -/
def quotasCtx0 : Vector Nat 6 := ⟨#[16384, 114688, 65536, 32768, 32, 4096], rfl⟩

/-- A guest's settings after a reset: no map, no rights, no quota, absent (R157, R158, R166). -/
def guestReset : Ctx :=
  { state := .absent, keep := false, crit := 0, rights := 0, quotas := Vector.replicate 6 0, loadMask := 0,
    map := Vector.replicate 64 { channel := 0, right := 0 }, latent := [], armed := none, seq := 0, switched := none }

/-- CTX0: present, every right, criticality 3 (R165). -/
def ctx0Reset : Ctx :=
  { guestReset with state := .present, crit := 3, rights := 0x003F, quotas := quotasCtx0 }

/-- A contact-sheet bank that nobody holds (R184). -/
def bankReset : Bank := { holder := none, takes := 0, sheet := [], stamp := 0, release := 0, armed := none }

/-- The command engine after a reset: no pause, nothing taken (R42, R152). -/
def engineReset : Engine := { pause := none, activate := none, taken := [], late := [], lastGuest := 0, passed := Vector.replicate 64 0 }

end Sys2Proof
end

