-- ==== Sys2Proof/Machine/State.lean ====
section
/-!
DEFINITION. The state of the ZB64 as plain data, the outcomes that are not a next state, and the state right after a
power-on reset.
-/

namespace Sys2Proof

/-- The bytes of KEY0 as they stand in the area, most significant first (R570). -/
def key0Bytes : List Byte := (le 64 Config.key0.toNat).reverse

/-- MAGIC of a settings area: bytes 0x5A 0x53 0x45 0x54 (R584). -/
def settingsMagic : Nat := 0x5445535A

/-- MRAM as shipped: Shukener 3.2.0 in slot A, fixed once, slot B empty, no guard set (R571; log entry 2). -/
def mramShipped : Mram :=
  { slotA := some { intact := true, fwVer := 0x030200, settingsFmt := 3, key := 0, revoke := 0, rollback := 0, length := 4 },
    slotB := none,
    areaA := { magic := settingsMagic, fmt := 3, state := 2, seq := 0, length := 0, crc := 0, records := [], readable := true },
    areaB := { magic := 0, fmt := 0, state := 0, seq := 0, length := 0, crc := 0, records := [], readable := true },
    sec := { rollbackMin := 0, activeSlot := .a, activeArea := .a, revoked := 0, fixedA := true, fixedB := false,
             commitSeq := 0, trial := false, trialSlot := .a, trialArea := .a, lock := false, reqApproval := false,
             motionEn := false, op := 0, signal := 0, limit := 0, lowMv := 11800, rejectedVer := 0, rejectedWhy := 0,
             keys := ⟨#[key0Bytes, zeros 64, zeros 64, zeros 64], rfl⟩ } }

/-- The update machinery after a reset, over the MRAM contents that survive it (R51, R54). -/
def updateReset (m : Mram) : Update :=
  { mram := m, running := none, session := none, opened := 0, halfSp := none, halfCtx0 := none, halfMaster := none,
    confirm := 0, minProof := 0, timerEnd := none, timerStart := 0, trialAt := 0, fmtWritten := false, restarted := false,
    unreadable := none, savedModes := [], fixInstant := none, fixes := 0, fallbacks := 0, refusals := 0 }

namespace Machine

/-- The state of one ZB64 (spec chapters 01 to 17) and the queue of the commands that wait to act on it. -/
structure State where
  /-- The commands that wait, first in, first out. -/
  pending   : List Instr
  /-- Supervisor: readiness, boot status, power state, wake status. -/
  aon       : Aon
  /-- The fault log in MRAM. -/
  log       : FaultLog
  /-- Memory and crossing counters. -/
  mem       : MemCounters
  /-- The PCIe endpoint: BAR0 registers, rings and windows of every function. -/
  host      : HostPort
  /-- The safety port. -/
  sp        : SafetyPort
  /-- The command engine. -/
  engine    : Engine
  /-- Contexts CTX0 to CTX63. -/
  ctxs      : Vector Ctx 64
  /-- The five queues of each context. -/
  cqs       : Vector CtxQueues 64
  /-- The queues that belong to no context, and the flow-control pins. -/
  fq        : FixedQueues
  /-- The time base. -/
  time      : TimeBase
  /-- Shutter schedules by transmit object. -/
  schedules : List (Nat × Schedule)
  /-- Trigger units. -/
  triggers  : Vector Trigger 8
  /-- TRIGIO pulses driven now: the reference count at which each falls. -/
  pulses    : Vector (Option Nat) 8
  /-- Channels CH0 to CH63. -/
  chans     : Vector Chan 64
  film      : Filmstrip
  /-- Message objects by number. -/
  mos       : List (Nat × Mo)
  pool      : Pool
  filters   : FilterStore
  /-- Admission stream records by number. -/
  records   : List (Nat × StreamRec)
  /-- Admitted routes by the number of their OUT record. -/
  routes    : List (Nat × RouteRec)
  monitors  : Vector Monitor 64
  /-- PDU descriptors by number. -/
  pdus      : List (Nat × Pdu)
  /-- Signal-table entries by number. -/
  sigs      : List (Nat × Sig)
  lanes     : Vector Lane 4
  localIo   : LocalIo
  bundle    : Option BundleLoad
  cvus      : Vector Cvu 32
  load      : LoadMgr
  linkA     : Link
  linkB     : Link
  stack     : Stack
  census    : Census
  update    : Update
  banks     : Vector Bank 2
  /-- The model's own counter of free values drawn (log entry 4). -/
  free      : Nat
  /-- What the device has put on its outputs, oldest first. -/
  out       : List Out
  deriving DecidableEq, Repr

/-- Why a command stops with a fault. No command of the ZB64 stops the machine (R47): no meaning raises one. -/
inductive Fault where
  /-- Raised by no meaning; the type needs a name. Safe. -/
  | none_
  deriving DecidableEq, Repr

/-- Why a command is refused by the model. -/
inductive Refusal where
  /-- Raised by the dispatch for a command whose meaning is not written yet. Safe. -/
  | notModelled (mnemonic : String)
  deriving DecidableEq, Repr

/-- Everything but MRAM contents and the fault log, right after a reset, over the MRAM contents `m` and the log `l`. -/
def resetOver (m : Mram) (l : FaultLog) : State :=
  { pending := [], aon := aonReset, log := l, mem := memCountersReset, host := hostReset, sp := safetyReset,
    engine := engineReset,
    ctxs := (Vector.replicate 64 guestReset).set 0 ctx0Reset,
    cqs := (Vector.replicate 64 (ctxQueuesReset depthsNone)).set 0 (ctxQueuesReset depthsMin),
    fq := fixedReset, time := timeReset, schedules := [], triggers := Vector.replicate 8 triggerReset,
    pulses := Vector.replicate 8 none, chans := Vector.replicate 64 chanReset, film := filmReset, mos := [],
    pool := poolReset, filters := filterReset, records := [], routes := [],
    monitors := Vector.replicate 64 monitorReset, pdus := [], sigs := [], lanes := Vector.replicate 4 laneReset,
    localIo := localIoReset, bundle := none, cvus := Vector.replicate 32 cvuReset, load := loadMgrReset,
    linkA := linkReset, linkB := linkReset, stack := stackReset, census := censusReset, update := updateReset m,
    banks := Vector.replicate 2 bankReset, free := 0, out := [] }

/-- The ZB64 right after a power-on reset, as shipped (R51, R71). -/
def State.reset : State := resetOver mramShipped faultLogReset

end Machine

end Sys2Proof
end

