-- ==== Sys2Proof/Machine/Ops.lean ====
section
/-!
DEFINITION. The named operations every family uses: reading and changing one item of the state, outputs, interrupts,
events, the fault log, readiness, write-back and ring advances (chapters 01 to 03, R124 to R129, R347).
-/

namespace Sys2Proof.Machine

/-! ### Items of the state -/

/-- Channel `c`. -/
def State.chan (s : State) (c : Nat) : Chan := tget s.chans c chanReset

/-- Channel `c` changed by `f`. -/
def State.modChan (s : State) (c : Nat) (f : Chan → Chan) : State := { s with chans := tmod s.chans c f }

/-- Context `c`. -/
def State.ctx (s : State) (c : Nat) : Ctx := tget s.ctxs c guestReset

/-- Context `c` changed by `f`. -/
def State.modCtx (s : State) (c : Nat) (f : Ctx → Ctx) : State := { s with ctxs := tmod s.ctxs c f }

/-- The queues of context `c`. -/
def State.cq (s : State) (c : Nat) : CtxQueues := tget s.cqs c (ctxQueuesReset depthsNone)

/-- The queues of context `c` changed by `f`. -/
def State.modCq (s : State) (c : Nat) (f : CtxQueues → CtxQueues) : State := { s with cqs := tmod s.cqs c f }

/-- The BAR0 registers and rings of function `c`. -/
def State.fn (s : State) (c : Nat) : Fn := tget s.host.fns c fnReset

/-- Function `c` changed by `f`. -/
def State.modFn (s : State) (c : Nat) (f : Fn → Fn) : State :=
  { s with host := { s.host with fns := tmod s.host.fns c f } }

/-- Ring `k` of function `c` (R104). -/
def State.ring (s : State) (c k : Nat) : Ring := tget (s.fn c).rings k ringReset

/-- Ring `k` of function `c` changed by `f`. -/
def State.modRing (s : State) (c k : Nat) (f : Ring → Ring) : State :=
  s.modFn c fun n => { n with rings := tmod n.rings k f }

/-- Message object `m`, where it is allocated. -/
def State.mo? (s : State) (m : Nat) : Option Mo := mget s.mos m

/-- Message object `m`, where it is allocated, changed by `f`. -/
def State.modMo (s : State) (m : Nat) (f : Mo → Mo) : State := { s with mos := mmod s.mos m f }

/-- Load channel `n`. -/
def State.ld (s : State) (n : Nat) : Load := tget s.load.loads n loadReset

/-- Load channel `n` changed by `f`. -/
def State.modLd (s : State) (n : Nat) (f : Load → Load) : State :=
  { s with load := { s.load with loads := tmod s.load.loads n f } }

/-- Switch chain `n`. -/
def State.swc (s : State) (n : Nat) : SwChain := tget s.load.chains n chainReset

/-- Switch chain `n` changed by `f`. -/
def State.modSwc (s : State) (n : Nat) (f : SwChain → SwChain) : State :=
  { s with load := { s.load with chains := tmod s.load.chains n f } }

/-- Check-value unit `n`. -/
def State.cvu (s : State) (n : Nat) : Cvu := tget s.cvus n cvuReset

/-- Check-value unit `n` changed by `f`. -/
def State.modCvu (s : State) (n : Nat) (f : Cvu → Cvu) : State := { s with cvus := tmod s.cvus n f }

/-- The admission monitor of channel `c`. -/
def State.mon (s : State) (c : Nat) : Monitor := tget s.monitors c monitorReset

/-- The admission monitor of channel `c` changed by `f`. -/
def State.modMon (s : State) (c : Nat) (f : Monitor → Monitor) : State := { s with monitors := tmod s.monitors c f }

/-- Lane `n` of the routing engine. -/
def State.lane (s : State) (n : Nat) : Lane := tget s.lanes n laneReset

/-- Lane `n` changed by `f`. -/
def State.modLane (s : State) (n : Nat) (f : Lane → Lane) : State := { s with lanes := tmod s.lanes n f }

/-- The link of a port. -/
def State.link (s : State) : Port → Link
  | .a => s.linkA
  | .b => s.linkB

/-- The link of a port changed by `f`. -/
def State.modLink (s : State) (p : Port) (f : Link → Link) : State :=
  match p with
  | .a => { s with linkA := f s.linkA }
  | .b => { s with linkB := f s.linkB }

/-- Trigger unit `n`. -/
def State.trigger (s : State) (n : Nat) : Trigger := tget s.triggers n triggerReset

/-- Trigger unit `n` changed by `f`. -/
def State.modTrigger (s : State) (n : Nat) (f : Trigger → Trigger) : State := { s with triggers := tmod s.triggers n f }

/-- The contact-sheet bank `n` (R184). -/
def State.bank (s : State) (n : Nat) : Bank := tget s.banks n bankReset

/-- The contact-sheet bank `n` changed by `f`. -/
def State.modBank (s : State) (n : Nat) (f : Bank → Bank) : State := { s with banks := tmod s.banks n f }

/-- The time base (R354). -/
def State.now (s : State) : Nat := s.time.time

/-- This device's stack position (R56). -/
def State.pos (s : State) : Nat := s.aon.stackId.toNat

/-- True for the stack master (R56). -/
def State.isMaster (s : State) : Bool := s.aon.stackId == 0

/-- The `k`-th value that the spec leaves open, counted from the present draw (log entry 4). -/
def freeAt (s : State) (k : Nat) : Nat := (Config.freeWord (s.free + k)).toNat

/-- `n` draws have been used. -/
def drawn (n : Nat) (s : State) : State := { s with free := s.free + n }

/-- Something put on the device's outputs. -/
def State.emit (s : State) (o : Out) : State := { s with out := s.out ++ [o] }

/-- The value that stamps a happening now: the time base, with 0 stamped as 1 (R356, R357). -/
def stampNow (s : State) : Nat := if s.now = 0 then 1 else s.now

/-! ### Link frames (R538 to R541) -/

/-- TYPE codes of R538. -/
def frameCode : FrameType → Nat
  | .time => 1 | .route => 2 | .step => 3 | .cmd => 4 | .reply => 5 | .event => 6 | .discover => 7 | .idle => 8

/-- Priorities of R538: the smallest number goes first. -/
def framePriority : FrameType → Nat
  | .time => 1 | .route => 2 | .step => 3 | .cmd => 3 | .reply => 3 | .event => 3 | .discover => 3 | .idle => 4

/-- Frames that are replayed (R538). -/
def frameReplayed : FrameType → Bool
  | .step => true | .cmd => true | .reply => true | .event => true | .discover => true
  | .time => false | .route => false | .idle => false

/-- Cells a frame needs in the partner's intake queue (R541). -/
def frameCells (f : LinkFrame) : Nat :=
  match f.typ with
  | .route => 1 + ceilDiv f.data.length 64
  | _ => 1

/-- The bytes of a link frame (R538), its trailer's CRC over header and payload blocks. -/
def frameBytes (f : LinkFrame) (seq ack credit : Nat) : List Byte :=
  let body := [BitVec.ofNat 8 (frameCode f.typ), 1] ++ le 2 f.data.length ++
    [BitVec.ofNat 8 (f.src % 8 + 8 * (f.dst % 8)), BitVec.ofNat 8 seq, BitVec.ofNat 8 ack, BitVec.ofNat 8 credit] ++
    le 8 f.info ++ padTo (8 * ceilDiv f.data.length 8) f.data
  body ++ le 4 (crc32 body) ++ zeros 4

/-- The sequence number after `n`: 1 to 255, so that 0 marks a frame that is not replayed (R538; log entry 40). -/
def nextLinkSeq (n : Nat) : Nat := if n ≥ 255 then 1 else n + 1

/-- The waiting frame that goes next: the first queued of the highest priority (R539). -/
def nextFrame (q : List LinkFrame) : Option LinkFrame :=
  [1, 2, 3, 4].findSome? fun p => q.find? fun f => framePriority f.typ == p

/-- One frame leaves the port: its SEQ when it is replayable, the acknowledgement and the freed cells (R538, R540). -/
def putFrame (p : Port) (f : LinkFrame) (s : State) : State :=
  let l := s.link p
  let seq := if frameReplayed f.typ then nextLinkSeq l.seqTx else 0
  let s := s.modLink p fun l => { l with
    queue := dropFirst (· == f) l.queue
    credits := l.credits - frameCells f
    freed := l.freed - min l.freed 255
    seqTx := if frameReplayed f.typ then seq else l.seqTx
    unacked := if frameReplayed f.typ then l.unacked ++ [{ seq := seq, frame := f, replays := 0, sentAt := s.time.clk }] else l.unacked
    routedTx := match f.typ with | .route => inc32 l.routedTx | _ => l.routedTx }
  s.emit (.link p (frameBytes f seq l.seqRx (min l.freed 255)))

/-- A port that sends: UP, or in its stop bath (R561, R565). -/
def linkSends (l : Link) : Bool :=
  match l.state with
  | .up => true
  | .stopping => true
  | _ => false

/-- The readiness bit of a port (R62). -/
def portBit : Port → Nat
  | .a => 12 | .b => 13

/-- The links run: the device is ACTIVE and their island is ready. In STANDBY they idle with their state unchanged (R15, R73). -/
def linksRun (s : State) : Bool := s.aon.power == .active && s.aon.ready.getLsbD 5

/-- The port sends what waits, in the order of R539, while it holds credits for the next frame (R541). -/
def pumpLink (p : Port) : Nat → State → State
  | 0, s => s
  | n + 1, s =>
    let l := s.link p
    if !linkSends l || !linksRun s then s
    else match nextFrame l.queue with
      | none => s
      | some f => if frameCells f ≤ l.credits then pumpLink p n (putFrame p f s) else s

/-- A frame is queued on a port and sent as soon as the port may (R539, R541). A port that is not UP takes none. -/
def sendFrame (p : Port) (f : LinkFrame) (s : State) : State :=
  if (s.link p).state == .up then
    pumpLink p ((s.link p).queue.length + 1) (s.modLink p fun l => { l with queue := l.queue ++ [f] })
  else s

/-! ### Lost clocks (R17) -/

/-- A PLL has lost lock and has not relocked. -/
def pllLost (s : State) (p : Pll) : Bool := s.aon.lostPlls.any fun l => l.pll == p

/-! ### Readiness bits (R62) -/

/-- The bit of a function in GEN_FUNC_READY (R62). -/
def funcBit : Func → Nat
  | .aon => 0 | .host => 1 | .cmd => 2 | .mem => 3 | .route => 4 | .time => 5 | .bank0 => 6 | .bank1 => 7
  | .bank2 => 8 | .bank3 => 9 | .load => 10 | .cvu => 11 | .linka => 12 | .linkb => 13 | .adc => 14 | .mram => 15

/-- Readiness of the function with bit `n` (R62). -/
def State.isReady (s : State) (n : Nat) : Bool := s.aon.ready.getLsbD n

/-- The readiness bit of the bank that channel `ch` lies in (R15). -/
def bankBit (ch : Nat) : Nat := 6 + ch / 16

/-! ### Interrupt causes (R127 to R129, R140) -/

/-- An MSI-X message of function `c` on vector `v` (R127). -/
def sendMsix (c v : Nat) (s : State) : State := s.emit (.msix c v)

/-- Causes of function `c` that signal: set and not masked (R129). -/
def irqSignals (n : Fn) : BitVec 8 := n.irqCause &&& ~~~ (n.irqMask.setWidth 8)

/-- One message when a cause begins to signal. A function whose HOST island is not ready sends it when HOST is ready
again (R129). -/
def settleIrq (c : Nat) (s : State) : State :=
  let n := s.fn c
  if !s.isReady 1 then s
  else
    let s' := s.modFn c fun n => { n with irqSent := irqSignals n }
    if irqSignals n &&& ~~~ n.irqSent = 0 then s' else sendMsix c (n.irqVector.toNat % 32) s'

/-- A function-level cause is set (R129). -/
def raiseIrq (c bit : Nat) (s : State) : State :=
  settleIrq c (s.modFn c fun n => { n with irqCause := n.irqCause ||| (1#8 <<< bit) })

/-- A cause bit of SAFE_IRQ_CAUSE is set (R141). -/
def raiseSafe (bit : Nat) (s : State) : State :=
  { s with sp := { s.sp with irqCause := s.sp.irqCause ||| (1#5 <<< bit) } }

/-- SQ_IRQN is low while an unmasked cause is set (R140). -/
def sqIrqLow (s : State) : Bool := (s.sp.irqCause &&& ~~~ (s.sp.irqMask.setWidth 5)) != 0

/-- WAKEN is low while a wake bit is set (R86, R602). -/
def wakenLow (s : State) : Bool := s.aon.wake != 0

/-! ### Events (R124, R125, R335) -/

/-- A context that the ZB64 still writes to: present or departing (R157, R159). -/
def reachable (s : State) (c : Nat) : Bool :=
  match (s.ctx c).state with
  | .present => true
  | .departing => true
  | _ => false

/-- The fill of a context's event queue: one cell an event (R330). -/
def evtFill (s : State) (c : Nat) : Nat := (s.cq c).evtq.length

/-- An event enters the event queue of context `c`: dropped and counted in NORING while the EVT ring is not ACTIVE (R335),
dropped and counted as lost when the queue is full (R125). An event dropped in NORING counts in no other counter (log entry 71). -/
def pushEvent (c : Nat) (e : Event) (s : State) : State :=
  if !reachable s c then s
  else if !(s.ring c 2).active then
    s.modCq c fun q => { q with evtStat := { q.evtStat with noring := inc32 q.evtStat.noring } }
  else if evtFill s c ≥ (s.cq c).depths.evt then
    let s := s.modCq c fun q => { q with evtStat := { q.evtStat with overflow := inc32 q.evtStat.overflow } }
    let s := s.modFn c fun n => { n with evtLost := inc16 n.evtLost, evtLostNext := inc16 n.evtLostNext }
    raiseIrq c 4 s
  else
    s.modCq c fun q => { q with
      evtq := q.evtq ++ [e]
      evtStat := { q.evtStat with packets := inc32 q.evtStat.packets, hwm := max q.evtStat.hwm (q.evtq.length + 1) } }

/-- The 32 bytes of an event entry (R124). -/
def eventBytes (e : Event) (lost : Nat) : List Byte :=
  le 2 e.code ++ le 1 e.source ++ zeros 1 ++ le 2 lost ++ zeros 2 ++ le 8 e.stamp ++ padTo 16 e.data

/-- Events that every follower sends to the master's CTX0 (R555). -/
def alwaysUpstream (code : Nat) : Bool := 0x0D01 ≤ code && code ≤ 0x0D04

/-- A follower's event for its own CTX0 that goes to the master's CTX0 instead (R555). -/
def goesUpstream (c code : Nat) (s : State) : Bool :=
  c == 0 && !s.isMaster && (!s.isReady 1 || alwaysUpstream code)

/-- The event `code` with the bytes `data` goes to context `c`, raised by this device now (R124); a follower's CTX0 event
goes up the stack where R555 says so, instead of to its own CTX0 while its HOST bit is 0. -/
def raiseEvent (c code : Nat) (data : List Byte) (s : State) : State :=
  let e : Event := { code := code, source := s.pos, stamp := stampNow s, data := padTo 16 data }
  if goesUpstream c code s then
    let s' := match s.stack.upstream with
      | some p =>
        sendFrame p { typ := .event, src := s.pos, dst := 0, info := 0, data := eventBytes { e with source := s.pos + 0x80 } 0 } s
      | none => s
    if s.isReady 1 then pushEvent c e s' else s'
  else pushEvent c e s

/-- The events of one code to each of several contexts. -/
def raiseEvents (cs : List Nat) (code : Nat) (data : List Byte) (s : State) : State :=
  forEach cs (fun c s => raiseEvent c code data s) s

/-- The contexts to inform of what concerns `owner`: CTX0 and, where it is another, the owner. -/
def withOwner (owner : Nat) : List Nat := if owner = 0 then [0] else [0, owner]

/-- The context number a command source acts as when an event goes back to it: a context itself, else CTX0. -/
def ctxOf : Source → Nat
  | .ctx c => c.val
  | _ => 0

/-! ### Fault log (R38, R39) -/

/-- A class that drives FAULTN (R38). -/
def clsAsserts (cls : Nat) : Bool := 1 ≤ cls && cls ≤ 6

/-- FAULTN is low before AON is set, and while an unacknowledged entry of an asserting class is held (R38, R71). -/
def faultnLow (s : State) : Bool :=
  !s.isReady 0 || s.log.entries.any fun e => e.readable && !e.acked && clsAsserts e.cls

/-- The sequence number after `n`: it wraps to 1 (R39). -/
def nextSeqOf (n : Nat) : Nat := if n ≥ 0xFFFFFFFF then 1 else n + 1

/-- The number of entries the fault log holds (R39). -/
def faultLogSize : Nat := 2048

/-- FAULTN has just been asserted: the causes FAULT of CTX0 and of the safety port (R129, R141). -/
def signalFault (s : State) : State := raiseSafe 2 (raiseIrq 0 5 s)

/-- A fault-log entry is written in turn; the oldest is overwritten when the log is full (R39). -/
def logFault (cls source info1 info2 : Nat) (s : State) : State :=
  let e : FaultEntry :=
    { seq := s.log.nextSeq, cls := cls, acked := false, source := source,
      stamp := if s.isReady 5 then stampNow s else 0, info1 := info1, info2 := info2, readable := true }
  let kept := s.log.entries.drop (s.log.entries.length + 1 - faultLogSize)
  let s' := { s with log := { entries := kept ++ [e], nextSeq := nextSeqOf s.log.nextSeq } }
  if !faultnLow s && faultnLow s' then signalFault s' else s'

/-! ### Readiness changes (R67) -/

/-- Contexts that are present (R167). -/
def presentCtxs (s : State) : List Nat := (List.range 64).filter fun c => (s.ctx c).state == .present

/-- A readiness event goes to a context that has an event ring; a follower's for its CTX0 may go up the stack (R67, R555). -/
def hearsReadiness (s : State) (c : Nat) : Bool := (s.ring c 2).active || goesUpstream c 0x0101 s

/-- GEN_FUNC_READY takes the value `v`; a change is told to every present context with an event ring and to the safety port
(R67). -/
def setReady (v : BitVec 32) (s : State) : State :=
  let old := s.aon.ready
  if v = old then s
  else
    let s := { s with aon := { s.aon with ready := v } }
    let tell := fun c s => if hearsReadiness s c then raiseEvent c 0x0101 (le 4 v.toNat ++ le 4 old.toNat) s else s
    let s := forEach (presentCtxs s) (fun c s => tell c (raiseIrq c 0 s)) s
    raiseSafe 1 s

/-- Readiness bits set. -/
def readyOn (bits : BitVec 32) (s : State) : State := setReady (s.aon.ready ||| bits) s

/-- Readiness bits cleared. -/
def readyOff (bits : BitVec 32) (s : State) : State := setReady (s.aon.ready &&& ~~~ bits) s

/-- The register with one bit. -/
def oneBit (n : Nat) : BitVec 32 := 1#32 <<< n

/-! ### Ring advances (R106, R107, R128) -/

/-- The host address of the write-back area of function `c` (R101). -/
def wbAddr (n : Fn) : Nat := n.wbHi.toNat * 2 ^ 32 + n.wbLo.toNat / 256 * 256

/-- WB_EN of CTX_CONTROL (R102). -/
def wbEnabled (n : Fn) : Bool := n.control.getLsbD 0

/-- QCFG_CTRL fields (R108). -/
def ringIrqEn (r : Ring) : Bool := r.ctrl.getLsbD 11
def ringVector (r : Ring) : Nat := bitsOf r.ctrl.toNat 6 5
def ringSizeCode (r : Ring) : Nat := bitsOf r.ctrl.toNat 2 4
def ringSize (r : Ring) : Nat := 64 * 2 ^ (ringSizeCode r)
def ringSlotCode (r : Ring) : Nat := bitsOf r.ctrl.toNat 12 3
def ringSlotBytes (r : Ring) : Nat := 64 * 2 ^ (ringSlotCode r)
def ringCmplRing (r : Ring) : Nat := bitsOf r.ctrl.toNat 16 4
def ringCmplEn (r : Ring) : Bool := r.ctrl.getLsbD 20
def ringHoldoff (r : Ring) : Nat := bitsOf r.ctrl.toNat 24 8
def ringBase (r : Ring) : Nat := r.baseHi.toNat * 2 ^ 32 + r.baseLo.toNat / 64 * 64
def ringDataBase (r : Ring) : Nat := r.dataHi.toNat * 2 ^ 32 + r.dataLo.toNat / 64 * 64

/-- A host-produced ring: CMD and the TX rings (R104). -/
def hostProduced (k : Nat) : Bool := k == 0 || (4 ≤ k && k ≤ 19)

/-- The ring's MSI-X message for an advance, or its gathering within HOLDOFF (R128). -/
def ringMessage (c k : Nat) (s : State) : State :=
  let r := s.ring c k
  if !(ringIrqEn r) then s
  else
    let open_ := match r.lastMsg with
      | none => true
      | some t => t + (ringHoldoff r) * 1000 ≤ s.time.clk
    if open_ then
      sendMsix c (ringVector r) (s.modRing c k fun r => { r with lastMsg := some s.time.clk, gathered := false })
    else s.modRing c k fun r => { r with gathered := true }

/-- The write-back word of ring `k` takes the index `v` (R106). -/
def writeBack (c k : Nat) (v : BitVec 32) (s : State) : State :=
  if wbEnabled (s.fn c) then s.emit (.dma c (wbAddr (s.fn c) + 4 * k) (le 4 v.toNat)) else s

/-- An index advances: the write-back word, then the message (R106, R107). -/
def ringAdvance (c k : Nat) (v : BitVec 32) (s : State) : State := ringMessage c k (writeBack c k v s)

/-- The limit of a host-produced ring grows to `v` (R339); an unchanged limit is no advance. -/
def setLimit (c k : Nat) (v : BitVec 32) (s : State) : State :=
  if (s.ring c k).limit = v then s
  else ringAdvance c k v (s.modRing c k fun r => { r with limit := v })

/-- A frame-packet word with a parity error on a path of R23: the packet is dropped and counted (R21). -/
def parityDrop (path : Nat) (s : State) : State :=
  { s with mem := { s.mem with parity := tmod s.mem.parity path inc32 } }

/-- Entry slot of a free-running index (R104). -/
def slotOf (r : Ring) (i : BitVec 32) : Nat := i.toNat % (ringSize r)

/-! ### Settings that an image in proof mode cannot read (R586) -/

/-- FMT of the active area that the image in proof mode cannot read, 0xFFFF for a failed header; none while R586 does not hold. -/
def settingsRefused (s : State) : Option Nat := if s.aon.proof then s.update.unreadable else none

end Sys2Proof.Machine
end

