-- ==== Sys2Proof/Machine/QueueOps.lean ====
section
/-!
DEFINITION. Queues by QID: depth, fill, credits and counters (R330, R333, R337, R353), and the flow-control pins
(R347, R348).
-/

namespace Sys2Proof.Machine

/-! ### Cells (R330) -/

/-- Cells of a packet with `len` payload bytes: a header cell and its payload cells (R330). -/
def packetCells (len : Nat) : Nat := 1 + ceilDiv len 64

/-- Cells of an RXQ item (R330): a completion has one; a received frame has its LENGTH, which is its DLC for a remote frame
(R194). -/
def rxItemCells (i : RxItem) : Nat := if i.record.ty = 2 then 1 else packetCells i.record.len

/-- Cells of the committed packets of a channel intake queue (R330). -/
def chqCells (l : List RxPacket) : Nat := total (l.map fun p => packetCells p.frame.len)

/-! ### Queue identifiers (R333) -/

/-- The kinds of queue of R333. -/
inductive QKind where
  | chq | rtq | lkq | spq | sprq | msq | msrq | cmdq | rplq | evtq | txq | rxq
  deriving DecidableEq, Repr

/-- The queue a QID names: its kind and its channel, lane, port or context (R333). -/
def qidOf (q : Nat) : Option (QKind × Nat) :=
  let n := q % 256
  match q / 256 with
  | 0x01 => if n < 64 then some (.chq, n) else none
  | 0x02 => if n < 4 then some (.rtq, n) else none
  | 0x03 => if n < 2 then some (.lkq, n) else none
  | 0x04 => if n = 0 then some (.spq, 0) else if n = 1 then some (.sprq, 0) else none
  | 0x05 => if n = 0 then some (.msq, 0) else if n = 1 then some (.msrq, 0) else none
  | 0x10 => if n < 64 then some (.cmdq, n) else none
  | 0x11 => if n < 64 then some (.rplq, n) else none
  | 0x12 => if n < 64 then some (.evtq, n) else none
  | 0x13 => if n < 64 then some (.txq, n) else none
  | 0x14 => if n < 64 then some (.rxq, n) else none
  | _ => none

/-- Every QID of R333, in rising order. -/
def allQids : List Nat :=
  (List.range 64).map (0x0100 + ·) ++ (List.range 4).map (0x0200 + ·) ++ [0x0300, 0x0301, 0x0400, 0x0401, 0x0500, 0x0501]
    ++ (List.range 64).map (0x1000 + ·) ++ (List.range 64).map (0x1100 + ·) ++ (List.range 64).map (0x1200 + ·)
    ++ (List.range 64).map (0x1300 + ·) ++ (List.range 64).map (0x1400 + ·)

/-- Running depth in cells (R333, R337). -/
def qDepth (s : State) : QKind × Nat → Nat
  | (.chq, _) => 36
  | (.rtq, _) => 96
  | (.lkq, _) => 128
  | (.spq, _) => 32
  | (.sprq, _) => 32
  | (.msq, _) => 32
  | (.msrq, _) => 32
  | (.cmdq, c) => 4 * (s.cq c).depths.places
  | (.rplq, c) => 4 * (s.cq c).depths.places
  | (.evtq, c) => (s.cq c).depths.evt
  | (.txq, c) => (s.cq c).depths.tx
  | (.rxq, c) => (s.cq c).depths.rx

/-- Depth that a development has set and a ring enable will apply (R338). -/
def qPending (s : State) : QKind × Nat → Nat
  | (.cmdq, c) => 4 * (s.cq c).pend.places
  | (.rplq, c) => 4 * (s.cq c).pend.places
  | (.evtq, c) => (s.cq c).pend.evt
  | (.txq, c) => (s.cq c).pend.tx
  | (.rxq, c) => (s.cq c).pend.rx
  | q => qDepth s q

/-- Descriptors of a context posted and not yet taken in, which hold the cells of its TXQ (R333, R339). -/
def txqFill (s : State) (c : Nat) : Nat :=
  total ((List.range 16).map fun k => let r := s.ring c (4 + k); 
    if r.active || r.stopping then (r.prod - r.intake).toNat - r.txLost.length else 0)

/-- Replies to the master whose segments still wait for the link: each holds its four cells of the MSRQ until the last has gone
(R330, R333). -/
def masterReplies (s : State) : Nat :=
  let waits := fun (l : Link) => (l.queue.filter fun f => f.last && f.src == s.pos && f.typ == .reply).length
  waits s.linkA + waits s.linkB

/-- Cells claimed, committed or not (R353 FILL). The frame of a link is taken from its LKQ in the step in which it has come, so
between steps an LKQ is empty. -/
def qFill (s : State) : QKind × Nat → Nat
  | (.chq, n) => chqCells (s.chan n).chq + (s.chan n).chqClaim
  | (.rtq, n) => total ((tget s.fq.rtq n []).map fun r => packetCells r.data.length)
  | (.lkq, _) => 0
  | (.spq, _) => 4 * s.fq.spq.length
  | (.sprq, _) => 4 * s.sp.replies.length
  | (.msq, _) => 4 * s.fq.msq.length
  | (.msrq, _) => 4 * masterReplies s
  | (.cmdq, c) => 4 * (s.cq c).cmdq.length
  | (.rplq, c) => 4 * (s.cq c).rplq.length
  | (.evtq, c) => evtFill s c
  | (.txq, c) => txqFill s c
  | (.rxq, c) => total ((s.cq c).rxq.map rxItemCells)

/-- Queues whose producer is credited (R333, R353 FLAGS [1]). -/
def qCredited : QKind → Bool
  | .lkq => true | .spq => true | .sprq => true | .msq => true | .msrq => true | .cmdq => true | .rplq => true
  | .txq => true | .chq => false | .rtq => false | .evtq => false | .rxq => false

/-- Counters of a queue (R353). -/
def qStat (s : State) : QKind × Nat → QStat
  | (.chq, n) => (s.chan n).chqStat
  | (.rtq, n) => tget s.fq.rtqStat n qstatReset
  | (.lkq, n) => tget s.fq.lkqStat n qstatReset
  | (.spq, _) => s.fq.spqStat
  | (.sprq, _) => s.fq.sprqStat
  | (.msq, _) => s.fq.msqStat
  | (.msrq, _) => s.fq.msrqStat
  | (.cmdq, c) => (s.cq c).cmdStat
  | (.rplq, c) => (s.cq c).rplStat
  | (.evtq, c) => (s.cq c).evtStat
  | (.txq, c) => (s.cq c).txStat
  | (.rxq, c) => (s.cq c).rxStat

/-- Counters of a queue changed by `f`. -/
def modStat (q : QKind × Nat) (f : QStat → QStat) (s : State) : State :=
  match q with
  | (.chq, n) => s.modChan n fun c => { c with chqStat := f c.chqStat }
  | (.rtq, n) => { s with fq := { s.fq with rtqStat := tmod s.fq.rtqStat n f } }
  | (.lkq, n) => { s with fq := { s.fq with lkqStat := tmod s.fq.lkqStat n f } }
  | (.spq, _) => { s with fq := { s.fq with spqStat := f s.fq.spqStat } }
  | (.sprq, _) => { s with fq := { s.fq with sprqStat := f s.fq.sprqStat } }
  | (.msq, _) => { s with fq := { s.fq with msqStat := f s.fq.msqStat } }
  | (.msrq, _) => { s with fq := { s.fq with msrqStat := f s.fq.msrqStat } }
  | (.cmdq, c) => s.modCq c fun x => { x with cmdStat := f x.cmdStat }
  | (.rplq, c) => s.modCq c fun x => { x with rplStat := f x.rplStat }
  | (.evtq, c) => s.modCq c fun x => { x with evtStat := f x.evtStat }
  | (.txq, c) => s.modCq c fun x => { x with txStat := f x.txStat }
  | (.rxq, c) => s.modCq c fun x => { x with rxStat := f x.rxStat }

/-! ### Flow-control pins (R347, R348) -/

/-- The event of a pin's change (R347). -/
def fcEvent (pin : Nat) (up : Bool) (fill : Nat) (s : State) : State :=
  raiseEvent 0 0x0701 ([BitVec.ofNat 8 pin, BitVec.ofNat 8 (flag up 1)] ++ le 2 fill) s

/-- One pin meets the fill `f` of queue `q`, if it follows that queue. A fill rises by one cell an edge (R345), so the first edge
at or past HIGH has the fill HIGH; it falls by one cell an edge too, or to `f` at once where `atOnce` says so (R342, R347). -/
def fcMeet (q : QKind × Nat) (f : Nat) (atOnce : Bool) (pin : Nat) (s : State) : State :=
  let p := tget s.fq.fc pin { qid := none, high := 0, low := 0, up := true }
  if p.qid.bind qidOf != some q then s
  else
    let put := fun up => { s with fq := { s.fq with fc := tmod s.fq.fc pin fun p => { p with up := up } } }
    if p.up && f ≥ p.high then
      fcEvent pin false p.high (modStat q (fun t => { t with fcAsserts := inc32 t.fcAsserts }) (put false))
    else if !p.up && f ≤ p.low then fcEvent pin true (if atOnce then f else p.low) (put true)
    else s

/-- The pins that follow queue `q` meet the fill `f`, while the queue manager runs (R62, R73). -/
def fcAt (q : QKind × Nat) (f : Nat) (atOnce : Bool) (s : State) : State :=
  if s.isReady 3 then forRange 8 (fcMeet q f atOnce) s else s

/-- A packet has committed in a queue: it is counted, and HWM and the pins follow the fill after the edge (R346, R347, R353). -/
def countPacket (q : QKind × Nat) (s : State) : State :=
  fcAt q (qFill s q) false (modStat q (fun t => { t with packets := inc32 t.packets, hwm := max t.hwm (qFill s q) }) s)

/-- HWM and the pins follow the fill after the edge (R346, R347). -/
def countHwm (q : QKind × Nat) (s : State) : State :=
  fcAt q (qFill s q) false (modStat q (fun t => { t with hwm := max t.hwm (qFill s q) }) s)

/-- Places the CMD ring holds at most, while both its rings run (R339). -/
def cmdPlaces (s : State) (c : Nat) : Nat :=
  if (s.ring c 0).active && (s.ring c 1).active then
    min (s.cq c).depths.places (min (ringSize (s.ring c 0)) (ringSize (s.ring c 1)))
  else 0

/-- Descriptors TX ring `k` may have under way: its share, at most its ring size (R339). -/
def txPlaces (s : State) (c k : Nat) : Nat :=
  let r := s.ring c (4 + k)
  if r.active then min r.share (ringSize r) else 0

/-- Credits not yet granted of a credited queue, in cells; free cells of another (R353 CREDITS). The credits of the safety
port and of the stack master are granted as soon as they are free (R139, R333). -/
def qCredits (s : State) (q : QKind × Nat) : Nat :=
  match q with
  | (.lkq, 0) => s.linkA.freed
  | (.lkq, _) => s.linkB.freed
  | (.spq, _) => 0
  | (.sprq, _) => 0
  | (.msq, _) => 0
  | (.msrq, _) => 0
  | (.cmdq, c) => qDepth s q - 4 * cmdPlaces s c
  | (.rplq, c) => qDepth s q - 4 * cmdPlaces s c
  | (.txq, c) => qDepth s q - total ((List.range 16).map (txPlaces s c))
  | _ => qDepth s q - qFill s q

/-! ### Full queues (R335, R341 to R344) -/

/-- Event 0x0703: a packet larger than its queue (R342, R343). -/
def oversizeEvent (qid producer number claimed first : Nat) (s : State) : State :=
  raiseEvent 0 0x0703 (le 2 qid ++ le 1 producer ++ le 1 number ++ le 4 claimed ++ le 8 first) s

/-- A packet of `cells` cells offered to a queue whose producer is not credited: true when it fits (R342, R344). -/
def fits (s : State) (q : QKind × Nat) (cells : Nat) : Bool := qFill s q + cells ≤ qDepth s q

/-- The queue has been full at the edge at which a packet is rewound: HWM and the pins have met its depth, and the pins meet
the fill that the rewind leaves at once (R342, R346, R347). -/
def metFull (q : QKind × Nat) (s : State) : State :=
  let s := modStat q (fun t => { t with hwm := max t.hwm (qDepth s q) }) (fcAt q (qDepth s q) false s)
  fcAt q (qFill s q) true s

/-- A packet that does not fit claims cells until the queue is full, is rewound and counted: OVERFLOW beside other packets, else
OVERSIZE with its event, which gives the time `first` at which its first word was written (R341 to R343). -/
def dropPacket (q : QKind × Nat) (qid producer number first : Nat) (s : State) : State :=
  let s := metFull q s
  if qFill s q > 0 then modStat q (fun t => { t with overflow := inc32 t.overflow }) s
  else oversizeEvent qid producer number (qDepth s q) first
    (modStat q (fun t => { t with oversize := inc32 t.oversize }) s)

/-- An item for RX ring `k` was dropped: the next entry written there says so (R123, R335). -/
def ringLost (c k : Nat) (s : State) : State := s.modRing c (20 + k) fun r => { r with lost := inc16 r.lost }

/-- An item enters the RXQ of context `c`, or is dropped and counted (R335, R342). -/
def pushRx (c : Nat) (i : RxItem) (s : State) : State :=
  if (s.cq c).depths.rx = 0 then
    ringLost c i.ring (modStat (.rxq, c) (fun t => { t with noring := inc32 t.noring }) s)
  else if fits s (.rxq, c) (rxItemCells i) then
    countPacket (.rxq, c) (s.modCq c fun q => { q with rxq := q.rxq ++ [i] })
  else ringLost c i.ring (dropPacket (.rxq, c) (0x1400 + c) 4 0 (stampNow s) s)

/-! ### Flow-control pins after a command (R347, R348) -/

/-- One pin follows its queue's fill (R347). -/
def fcPin (pin : Nat) (s : State) : State :=
  match (tget s.fq.fc pin { qid := none, high := 0, low := 0, up := true }).qid.bind qidOf with
  | none => s
  | some q => fcMeet q (qFill s q) false pin s

/-- Every pin follows its queue while the queue manager runs (R62, R73); twice, because the event of a change is itself a
packet in CTX0's event queue. -/
def fcSettle (s : State) : State := if s.isReady 3 then forRange 8 fcPin (forRange 8 fcPin s) else s

/-- Every pin is driven high: on entry into RETAIN or OFF (R348) and after a reset (R71). -/
def fcRelease (s : State) : State :=
  { s with fq := { s.fq with fc := vmap s.fq.fc fun p => { p with up := true } } }

/-- The outcome of a command: the next state, with the flow-control pins brought up to the fills of its queues (R347). -/
def next (s : State) : Host.Outcome State Fault Refusal := .next (fcSettle s)

end Sys2Proof.Machine
end

