-- ==== Sys2Proof/Machine/CmdCore.lean ====
section
/-!
DEFINITION. The command engine: packets and replies as bytes (R144, R148), who may do what (R142, R156, R163, R165), the
order of service (R152, R153), the order of the checks (R151) and the replies (R149, R150).
-/

namespace Sys2Proof.Machine

/-! ### Status codes (R150) -/

def stOk : Nat := 0x00
def stDeferred : Nat := 0x01
def stTooLate : Nat := 0x02
def stBusy : Nat := 0x10
def stNotReady : Nat := 0x11
def stState : Nat := 0x12
def stAdmission : Nat := 0x13
def stOpcode : Nat := 0x20
def stParam : Nat := 0x21
def stRights : Nat := 0x22
def stResource : Nat := 0x23
def stIntegrity : Nat := 0x30
def stSettings : Nat := 0x31

/-- DETAIL of an OK reply to a staged command (R150, R171). -/
def stagedDetail : Nat := 0x800000

/-! ### Sources and rights -/

/-- CONTEXT as the ZB64 writes it (R145). -/
def sourceCode : Source → Nat
  | .ctx c => c.val
  | .sp => 0x40
  | .master => 0x41

/-- The context whose rights a source uses: a forwarded command has those of CTX0 (R147); the safety port has none. -/
def actsAs : Source → Option Nat
  | .ctx c => some c.val
  | .sp => none
  | .master => some 0

/-- A guest context's number (R157). -/
def guestOf : Source → Option Nat
  | .ctx c => if c.val = 0 then none else some c.val
  | _ => none

/-- The owner of a physical channel: the guest whose map gives it right 3, else CTX0 (R163). -/
def chanOwner (s : State) (ch : Nat) : Nat :=
  match (List.range 64).find? fun c => c != 0 && (s.ctx c).map.toList.any fun e => e.right == 3 && e.channel == ch with
  | some c => c
  | none => 0

/-- The right of context `c` on a physical channel (R163). -/
def chanRight (s : State) (c ch : Nat) : Nat :=
  if c = 0 then (if chanOwner s ch = 0 then 3 else 2)
  else (s.ctx c).map.toList.foldl (fun r e => if e.channel == ch then max r e.right else r) 0

/-- The physical channel a channel field names for a context, none when it is unmapped (R162). -/
def physChan (s : State) (c v : Nat) : Option Nat :=
  if v ≥ 64 then none
  else if c = 0 then some v
  else
    let e := tget (s.ctx c).map v { channel := 0, right := 0 }
    if e.right = 0 then none else some e.channel

/-- The physical channel a channel field of a command names (R162). -/
def srcChan (s : State) (src : Source) (v : Nat) : Option Nat := physChan s ((guestOf src).getD 0) v

/-- The channel number shown to context `c` for a physical channel (R162): the lowest virtual channel that maps it, and 0 where none
does (log entry 72). -/
def virtChan (s : State) (c ch : Nat) : Nat :=
  if c = 0 then ch
  else
    match (List.range 64).find? fun v => let e := tget (s.ctx c).map v { channel := 0, right := 0 }
        e.right != 0 && e.channel == ch with
    | some v => v
    | none => 0

/-- Right `n` of the rights table (R165). -/
def hasRight (s : State) (c n : Nat) : Bool := c = 0 || (s.ctx c).rights.getLsbD n

/-- A source rule of the opcode index: none when the source may, else the missing right (R156). -/
abbrev SourceRule := Packet → State → Option Nat

/-- "All". -/
def fromAll : SourceRule := fun _ _ => none

/-- "CTX0". -/
def fromCtx0 : SourceRule := fun p _ => if actsAs p.source = some 0 then none else some 0xFF

/-- "CTX0, SP". -/
def fromCtx0Sp : SourceRule := fun p _ => if guestOf p.source = none then none else some 0xFF

/-- "SP". -/
def fromSp : SourceRule := fun p _ => if p.source = .sp then none else some 0xFF

/-- "Own": any context; the safety port is not among them (R142). -/
def fromOwn : SourceRule := fun p _ => if p.source = .sp then some 0xFF else none

/-- "Own; guests need right n". -/
def fromOwnRight (n : Nat) : SourceRule := fun p s =>
  match p.source with
  | .sp => some 0xFF
  | src => match guestOf src with
    | some g => if hasRight s g n then none else some n
    | none => none

/-- "All; guests need right n" and "CTX0, SP; guests need right n". -/
def fromAllRight (n : Nat) : SourceRule := fun p s =>
  match guestOf p.source with
  | some g => if hasRight s g n then none else some n
  | none => none

/-- "Channel owner", of the channel named in parameter byte `off` (R156, R163). An unmapped channel is left to the
parameter checks (R151, R162). -/
def fromOwner (off : Nat) : SourceRule := fun p s =>
  match actsAs p.source with
  | none => some 0xFF
  | some c => match srcChan s p.source (byteAt p.params off % 64) with
    | some ch => if chanRight s c ch = 3 then none else some 0xFF
    | none => none

/-- "All with any right on the channel" (R156). -/
def fromAnyRight (off : Nat) : SourceRule := fun p s =>
  match guestOf p.source with
  | none => none
  | some c => match srcChan s p.source (byteAt p.params off % 64) with
    | some ch => if chanRight s c ch ≥ 1 then none else some 0xFF
    | none => none

/-! ### Packets and replies as bytes -/

/-- A packet from the bytes of a CMD entry or of a forwarded command (R144, R105). -/
def packetOf (src : Source) (b : List Byte) : Packet :=
  { source := src, opcode := fieldAt b 0 2, flags := b.getD 2 0, plen := byteAt b 3, tag := fieldAt b 4 2,
    target := b.getD 7 0, reserved := (b.drop 8).take 8, params := padTo (4 * min (byteAt b 3) 60) (b.drop 16) }

/-- The bytes of a packet (R144). -/
def packetBytes (p : Packet) : List Byte :=
  le 2 p.opcode ++ [p.flags, BitVec.ofNat 8 p.plen] ++ le 2 p.tag ++ [BitVec.ofNat 8 (sourceCode p.source), p.target]
    ++ padTo 8 p.reserved ++ p.params

/-- The bytes of a reply (R148). -/
def replyBytes (r : Reply) : List Byte :=
  le 2 r.opcode ++ le 1 (ceilDiv r.body.length 4) ++ le 1 (sourceCode r.dest) ++ le 2 r.tag ++ le 1 r.status
    ++ le 1 r.position ++ le 4 r.detail ++ zeros 4 ++ padTo (4 * ceilDiv r.body.length 4) r.body

/-! ### Replies -/

/-- A byte string cut into segments of 64 bytes (R539). -/
def segments : Nat → List Byte → List (List Byte)
  | 0, _ => []
  | n + 1, b => if b.length ≤ 64 then [b] else b.take 64 :: segments n (b.drop 64)

/-- The segments of a reply, the last of them marked: with it the reply leaves the MSRQ (R333). -/
def lastMarked : List (List Byte) → List (List Byte × Bool)
  | [] => []
  | [d] => [(d, true)]
  | d :: rest => (d, false) :: lastMarked rest

/-- Segment `i` of a whole of 64-byte segments; INFO is where it starts (R538, R539; log entry 44). -/
def segmentFrame (t : FrameType) (src dst : Nat) (d : List Byte) (i : Nat) (last : Bool) : LinkFrame :=
  { typ := t, src := src, dst := dst, info := 64 * i, data := d, last := last }

/-- How long a contact-sheet bank is held after the reply to its take, or after its holder's last read, in ns of the reference
(R184). -/
def sheetHold : Nat := 200000000

/-- The 200 ms of a contact-sheet bank count from the reply to the take, whenever that is written (R184): `r` is such a reply of
this device. -/
def noteSheetReply (r : Reply) (s : State) : State :=
  if r.opcode = 0x0102 && r.status = stOk && r.position = s.pos then
    s.modBank (if r.dest = .sp then 0 else 1) fun b =>
      if b.holder = some r.dest then { b with release := s.time.clk + sheetHold } else b
  else s

/-- A reply leaves the command engine: into the RPLQ, to the safety port, or as REPLY segments to the master (R148, R554). -/
def deliverReply (r : Reply) (s : State) : State :=
  let s := noteSheetReply r s
  match r.dest with
  | .ctx c =>
    let s := s.modCq c.val fun q => { q with rplq := q.rplq ++ [r] }
    countPacket (.rplq, c.val) s
  | .sp =>
    let s := { s with sp := { s.sp with replies := s.sp.replies ++ [r] } }
    countPacket (.sprq, 0) (raiseSafe 0 s)
  | .master =>
    let fill := qFill s (.msrq, 0) + 4
    let s := modStat (.msrq, 0) (fun t => { t with packets := inc32 t.packets, hwm := max t.hwm fill }) (fcAt (.msrq, 0) fill false s)
    match s.stack.upstream with
    | some p => forEach (lastMarked (segments 5 (replyBytes r))).zipIdx
        (fun d s => sendFrame p (segmentFrame .reply s.pos 0 d.1.1 d.2 d.1.2) s) s
    | none => s

/-- The reply to a packet, with its status, detail and result bytes (R148 to R150). While the engine restarts it waits
for the end of the pause (R45); before the reply to an ACTIVATE every other reply still goes (R44). -/
def sendReplyFrom (pos : Nat) (p : Packet) (status detail : Nat) (body : List Byte) (s : State) : State :=
  let r : Reply :=
    { dest := p.source, opcode := p.opcode, tag := p.tag, status := status, position := pos, detail := detail, body := body }
  if s.engine.pause.isSome && s.engine.activate.isNone then { s with engine := { s.engine with late := s.engine.late ++ [r] } }
  else deliverReply r s

/-- A reply as from this device. -/
def sendReply (p : Packet) (status detail : Nat) (body : List Byte) (s : State) : State := sendReplyFrom s.pos p status detail body s

/-- A TAKE_CONTACT_SHEET with a future INSTANT: R44 does not wait for it. -/
def isTake (p : Packet) : Bool := p.opcode == 0x0102 && fieldAt p.params 0 8 != 0

/-- The reply to an ACTIVATE goes as soon as every command taken before it has replied (R44, R578). -/
def settleActivate (s : State) : State :=
  match s.engine.activate with
  | none => s
  | some p =>
    if s.engine.taken.any fun q => q != p && !isTake q then s
    else
      let s := if s.engine.taken.contains p then sendReply p stOk 0 (le 8 s.update.trialAt) s else s
      { s with engine := { s.engine with activate := none, taken := dropFirst (· == p) s.engine.taken } }

/-- The reply, as from position `pos`, to a command taken earlier (R152). A command whose context has lost its rings is no
longer among those taken, and its reply is discarded (R95). -/
def replyTakenFrom (pos : Nat) (p : Packet) (status detail : Nat) (body : List Byte) (s : State) : State :=
  if s.engine.taken.contains p then
    settleActivate
      (sendReplyFrom pos p status detail body { s with engine := { s.engine with taken := dropFirst (· == p) s.engine.taken } })
  else s

/-- The reply to a command taken earlier, as from this device. -/
def replyTaken (p : Packet) (status detail : Nat) (body : List Byte) (s : State) : State := replyTakenFrom s.pos p status detail body s

/-! ### Service order (R152, R153) -/

/-- Commands waiting from a source. -/
def waitingOf (s : State) : Source → List Packet
  | .ctx c => (s.cq c.val).cmdq
  | .sp => s.fq.spq
  | .master => s.fq.msq

/-- A source has a command taken that has not replied (R152). -/
def sourceBusy (s : State) (src : Source) : Bool := s.engine.taken.any fun p => p.source == src

/-- A source with a command that may be taken now. -/
def sourceWaits (s : State) (src : Source) : Bool := !(waitingOf s src).isEmpty && !sourceBusy s src

/-- The guest numbers 1 to 63 in rotation, starting after the last one served (R153). -/
def rotation (last : Nat) : List (Fin 64) :=
  let g := (List.finRange 64).filter fun c => c.val != 0
  g.filter (fun c => last < c.val) ++ g.filter (fun c => c.val ≤ last)

/-- The guest to serve: one that 16 commands have passed, else the highest criticality in rotation (R153). -/
def nextGuest (s : State) : Option (Fin 64) :=
  let waits := (rotation s.engine.lastGuest).filter fun c => sourceWaits s (.ctx c)
  [3, 2, 1, 0].findSome? fun k => waits.find? fun c => (s.ctx c.val).crit == k

/-- The guest that must be served now because 16 commands from sources ahead of it have passed it (R153): of several, in rotation
among those of the lowest criticality, behind which none of the others counts one more. -/
def overdueGuest (s : State) : Option (Fin 64) :=
  let due := (rotation s.engine.lastGuest).filter fun c => tget s.engine.passed c.val 0 ≥ 16 && sourceWaits s (.ctx c)
  [0, 1, 2, 3].findSome? fun k => due.find? fun c => (s.ctx c.val).crit == k

/-- The source whose command the free engine takes next (R153). -/
def nextSource (s : State) : Option Source :=
  match overdueGuest s with
  | some g => some (.ctx g)
  | none =>
    if sourceWaits s .sp then some .sp
    else if sourceWaits s .master then some .master
    else if sourceWaits s (.ctx 0) then some (.ctx 0)
    else (nextGuest s).map .ctx

/-- A source ranks ahead of guest `g` (R153). -/
def ranksAhead (s : State) (src : Source) (g : Nat) : Bool :=
  match guestOf src with
  | none => true
  | some c => (s.ctx g).crit < (s.ctx c).crit

/-- The bookkeeping of R153 when a command of `src` is taken. -/
def noteTaken (src : Source) (s : State) : State :=
  let last := (guestOf src).getD s.engine.lastGuest
  let passed := forRange 64 (fun g v =>
    if guestOf src = some g then tmod v g fun _ => 0
    else if (s.cq g).cmdq.isEmpty then tmod v g fun _ => 0
    else if g != 0 && ranksAhead s src g then tmod v g (· + 1) else v) s.engine.passed
  { s with engine := { s.engine with lastGuest := last, passed := passed } }

/-- The head of a source's queue leaves it. -/
def popSource (src : Source) (s : State) : State :=
  match src with
  | .ctx c => s.modCq c.val fun q => { q with cmdq := q.cmdq.tail }
  | .sp => { s with fq := { s.fq with spq := s.fq.spq.tail } }
  | .master => { s with fq := { s.fq with msq := s.fq.msq.tail } }

/-- A packet joins its source's queue (R42, R333). -/
def enqueue (p : Packet) (s : State) : State :=
  match p.source with
  | .ctx c => countPacket (.cmdq, c.val) (s.modCq c.val fun q => { q with cmdq := q.cmdq ++ [p] })
  | .sp => countPacket (.spq, 0) { s with fq := { s.fq with spq := s.fq.spq ++ [p] } }
  | .master => countPacket (.msq, 0) { s with fq := { s.fq with msq := s.fq.msq ++ [p] } }

/-- The queue of a source (R333). -/
def sourceQueue : Source → QKind × Nat
  | .ctx c => (.cmdq, c.val)
  | .sp => (.spq, 0)
  | .master => (.msq, 0)

/-- A packet joins its source's queue and is taken from it at once: the queue has counted and met it (R333, R346, R353). -/
def passQueue (src : Source) (s : State) : State :=
  let q := sourceQueue src
  let f := qFill s q + 4
  fcAt q f false (modStat q (fun t => { t with packets := inc32 t.packets, hwm := max t.hwm f }) s)

/-- A source that can send commands now: a present context, the safety port while AON is set, the master (R157, R135). -/
def sourceLive (s : State) (src : Source) : Bool :=
  s.isReady 0 && match src with
    | .ctx c => (s.ctx c.val).state == .present
    | _ => true

/-! ### Checks (R151) -/

/-- What a handler answers: a refusal, a reply with the new state, a new state whose reply follows later, or a new state whose
reply has gone. -/
inductive Verdict where
  | refuse (status detail : Nat)
  | reply (s : State) (status detail : Nat) (body : List Byte)
  | wait (s : State)
  | done (s : State)

/-- A refusal when the condition holds, else what follows. -/
def refuseIf (bad : Bool) (status detail : Nat) (v : Verdict) : Verdict := if bad then .refuse status detail else v

/-- BAD_PARAM naming the packet's byte of parameter offset `off`, when the condition holds (R150). -/
def badParam (bad : Bool) (off : Nat) (v : Verdict) : Verdict := refuseIf bad stParam (16 + off) v

/-- OK with result bytes. -/
def okBody (s : State) (body : List Byte) : Verdict := .reply s stOk 0 body

/-- OK without result bytes. -/
def okDone (s : State) : Verdict := .reply s stOk 0 []

/-- One row of the opcode index with its packet's shape and needs (R65, R146, R156). -/
structure CmdSpec where
  opcode   : Nat
  plen     : Nat → Bool
  right    : SourceRule
  needs    : Packet → State → List Nat
  readOnly : Bool

/-- The first invalid header field's offset (R12, R144, R146). -/
def headerFault (c : CmdSpec) (p : Packet) : Option Nat :=
  if p.flags.toNat ≥ 2 then some 2
  else if p.plen > 60 || !c.plen p.plen || p.params.length != 4 * p.plen then some 3
  else if p.target.toNat ≥ 8 || (p.flags == 0 && p.target != 0) then some 7
  else if p.reserved.any (· != 0) then some 8
  else none

/-- REMOTE of a packet; on the target device a forwarded command is local (R147). -/
def isRemote (p : Packet) : Bool := p.flags.getLsbD 0 && p.source != .master

/-- The source check of R147. -/
def remoteSource (p : Packet) : Bool := !isRemote p || guestOf p.source == none

/-- The target checks of R147: none passes. -/
def remoteTarget (s : State) (p : Packet) : Option Nat :=
  if !isRemote p then none
  else if !s.isMaster then some 0x000700
  else if p.target.toNat = s.pos then none
  else if (tget s.stack.devices p.target.toNat deviceReset).present then none
  else some (0x000600 + p.target.toNat)

/-- A command that the master forwards rather than executes (R147). -/
def isForwarded (s : State) (p : Packet) : Bool := isRemote p && p.target.toNat != s.pos

/-- The lowest-numbered function of a list that is not ready (R65). -/
def missing (s : State) (needs : List Nat) : Option Nat := (List.range 16).find? fun b => needs.contains b && !s.isReady b

/-- While CMD is 0 the hardware answers NOT_READY with detail 2 (R66), but for what the mask ROM accepts in recovery (R60). -/
def hardwareAnswers (s : State) (c : CmdSpec) (p : Packet) : Bool :=
  !s.isReady 2 && !(s.aon.bootResult == 2 && c.opcode / 256 == 0x0E && (p.source == .sp || p.source == .ctx 0))

/-- Commands an image that cannot read its settings still takes (R586). -/
def settingsAllow (c : CmdSpec) : Bool :=
  c.readOnly || c.opcode == 0x0E07 || c.opcode == 0x0E06 || c.opcode == 0x0C05

/-- The safety port's fixed rights (R142). -/
def safetyMay (c : CmdSpec) : Bool :=
  c.readOnly || c.opcode / 256 == 0x0E || [0x0104, 0x0105, 0x0C05, 0x0F01, 0x0F02].contains c.opcode

/-- The needs that are judged: in recovery the mask ROM stands in for CMD (R60, R65). -/
def judgedNeeds (s : State) (needs : List Nat) : List Nat := if s.isReady 2 then needs else needs.filter (· != 2)

/-- The port towards a stack position: fewer hops first, LINKA when equal (R535, R545). -/
def portTo (s : State) (pos : Nat) : Option Port :=
  let d := tget s.stack.devices pos deviceReset
  let a := if s.linkA.state == .up && d.hopsA != 0xFF then some d.hopsA else none
  let b := if s.linkB.state == .up && d.hopsB != 0xFF then some d.hopsB else none
  match a, b with
  | some x, some y => if x ≤ y then some .a else some .b
  | some _, none => some .a
  | none, some _ => some .b
  | none, none => none

/-- The master sends a command on to its target and waits for the reply (R147, R554). -/
def forward (p : Packet) (s : State) : State :=
  let s := { s with
    stack := { s.stack with forwarded := s.stack.forwarded ++ [{ packet := p, position := p.target.toNat }] }
    engine := { s.engine with taken := s.engine.taken ++ [p] } }
  match portTo s p.target.toNat with
  | some port => forEach (segments 5 (packetBytes p)).zipIdx
      (fun d s => sendFrame port (segmentFrame .cmd s.pos p.target.toNat d.1 d.2 false) s) s
  | none => s

/-- Opcodes that the index gives to the safety port alone (R156). -/
def spOnly : List Nat := [0x0E05, 0x0E06, 0x0F02]

/-- The source rights of a command that is forwarded, as far as the master judges them (R147, R151): what the index fixes for the
source itself. A right on a resource is judged by the device that holds the resource (DEDUCED, log entry 51). -/
def forwardRight (c : CmdSpec) (p : Packet) : Option Nat := if spOnly.contains c.opcode && p.source != .sp then some 0xFF else none

/-- The checks of R151 in order, then the handler. -/
def judge (c : CmdSpec) (h : Packet → State → Verdict) (p : Packet) (s : State) : Verdict :=
  if hardwareAnswers s c p then .refuse stNotReady 2
  else match headerFault c p with
    | some off => .refuse stParam off
    | none =>
      if !remoteSource p then .refuse stRights 0xFF
      else if p.source == .sp && !safetyMay c then .refuse stRights 0xFF
      else if isForwarded s p then
        match forwardRight c p with
        | some d => .refuse stRights d
        | none => match remoteTarget s p with
          | some d => .refuse stState d
          | none => .wait (forward p s)
      else match c.right p s with
        | some d => .refuse stRights d
        | none => match remoteTarget s p with
          | some d => .refuse stState d
          | none => match missing s (judgedNeeds s (c.needs p s)) with
            | some b => .refuse stNotReady b
            | none => match settingsRefused s with
              | some fmt => if settingsAllow c then h p s else .refuse stSettings (fmt % 0x10000)
              | none => h p s

/-- The result bytes of LOAD_BUNDLE_BLOCK (R468) for the load as it stands, with a STATE and FAIL_AT. -/
def bundleBytes (b : Option BundleLoad) (state failAt : Nat) : List Byte :=
  match b with
  | some b => le 4 (b.done + b.buffer.length) ++ le 4 b.records ++ le 1 state ++ zeros 1 ++ le 2 (b.batch - flag b.waiting 1) ++ le 4 failAt
  | none => zeros 8 ++ le 1 state ++ zeros 3 ++ le 4 failAt

/-- The result bytes of a refusal: only LOAD_BUNDLE_BLOCK returns some (R149, R468). -/
def refusalBody (p : Packet) (s : State) : List Byte :=
  if p.opcode = 0x0A04 then bundleBytes s.bundle (match s.bundle with | some b => flag b.waiting 1 | none => 3) 0xFFFFFFFF else []

/-- OPEN_SESSION and ACTIVATE refused are counted (R592). -/
def noteRefusal (p : Packet) (s : State) : State :=
  if p.opcode = 0x0E01 || p.opcode = 0x0E04 then { s with update := { s.update with refusals := inc32 s.update.refusals } } else s

/-- A command of a session's owner has been taken: its 10 s start again (R576). -/
def touchSession (src : Source) (s : State) : State :=
  { s with update := { s.update with session := s.update.session.map fun x =>
      if x.owner = src then { x with lastAt := s.time.clk } else x } }

/-- A command of a source is taken (R153, R576). -/
def takeFrom (src : Source) (s : State) : State := touchSession src (noteTaken src s)

/-- A verdict becomes a state: the reply is written, or the command stays taken (R152). -/
def conclude (p : Packet) (s : State) : Verdict → State
  | .refuse status detail => noteRefusal p (sendReply p status detail (refusalBody p s) s)
  | .reply s' status detail body => sendReply p status detail body s'
  | .wait s' => settleActivate (if s'.engine.taken.contains p then s' else
      { s' with engine := { s'.engine with taken := s'.engine.taken ++ [p] } })
  | .done s' => s'

/-- The packet stands at the head of its source's queue. -/
def atHead (s : State) (p : Packet) : Bool := (waitingOf s p.source).head? == some p

/-- A command packet is taken and executed (R42, R151 to R153). During a command pause, behind another command of its source, and
while its source is not next, it waits in its queue. A packet that waits is taken at the head of its queue, when its source is
next; one that need not wait passes through its queue all the same, which counts it (R333, R353). -/
def runCommand (c : CmdSpec) (h : Packet → State → Verdict) (q : Packet) (s : State) : State :=
  let p := { q with opcode := c.opcode }
  if !sourceLive s p.source then s
  else if (waitingOf s p.source).contains p then
    if s.engine.pause.isSome || nextSource s != some p.source || !atHead s p then s
    else let s' := takeFrom p.source (popSource p.source s); conclude p s' (judge c h p s')
  else if s.engine.pause.isSome || !(waitingOf s p.source).isEmpty || nextSource (enqueue p s) != some p.source then enqueue p s
  else let s' := takeFrom p.source (passQueue p.source s); conclude p s' (judge c h p s')

/-- A fixed parameter length (R146). -/
def plenIs (n : Nat) : Nat → Bool := fun k => k == n

/-- Needs that depend on nothing (R65). -/
def needsOf (l : List Nat) : Packet → State → List Nat := fun _ _ => l

end Sys2Proof.Machine
end

