-- ==== Sys2Proof/Machine/TimeOps.lean ====
section
/-!
DEFINITION. The counter of the time base and the reference count (R354, R355), and the moment at which a timed command
occurs: its due instant (log entry 5).
-/

namespace Sys2Proof.Machine

/-- The time base counts: TIME is ready and the power state does not freeze it (R71, R73). -/
def timeRuns (s : State) : Bool :=
  s.isReady 5 && match s.aon.power with
    | .active => true
    | .standby => true
    | _ => false

/-- `n` TIME cycles of the counter of R354 at once: `acc` gathers 2^32 + RATE a cycle. -/
def countCycles (n : Nat) (t : TimeBase) : TimeBase :=
  let acc := (t.frac : Int) + n * ((2 ^ 32 : Nat) + t.rate)
  { t with time := (t.time + (acc / (2 ^ 32 : Nat)).toNat) % 2 ^ 64, frac := (acc % (2 ^ 32 : Nat)).toNat }

/-- `n` cycles of the reference pass; the time base counts them while it runs. -/
def passCycles (n : Nat) (s : State) : State :=
  let t := if timeRuns s then countCycles n s.time else s.time
  { s with time := { t with clk := s.time.clk + n } }

/-- The reference count reaches `c`; a count already passed changes nothing (log entry 5). -/
def reachClk (c : Nat) (s : State) : State := if s.time.clk < c then passCycles (c - s.time.clk) s else s

/-- TIME cycles until the time base reads at least `v` at the rate in force (R354). -/
def cyclesTo (t : TimeBase) (v : Nat) : Nat :=
  if v ≤ t.time then 0
  else
    let gap : Int := ((v - t.time) * 2 ^ 32 : Nat) - t.frac
    let per : Int := (2 ^ 32 : Nat) + t.rate
    ((gap + per - 1) / per).toNat

/-- The time base reaches the value `v`; a value already passed changes nothing (log entry 5). -/
def reachTime (v : Nat) (s : State) : State :=
  if timeRuns s then passCycles (cyclesTo s.time v) s else s

/-- Nanoseconds of the reference in a millisecond and in a microsecond. -/
def msNs : Nat := 1000000
def usNs : Nat := 1000

/-- The first grid instant FIRST + k × PERIOD at or after `v`; none for a single instant before `v` (R367, R368). -/
def gridFrom (first period v : Nat) : Option Nat :=
  if v ≤ first then some first
  else if period = 0 then none
  else some (first + ceilDiv (v - first) period * period)

/-- Instants of a grid in the half-open interval [a, b) (R363, R372). -/
def gridCount (first period a b : Nat) : Nat :=
  if b ≤ a then 0
  else if period = 0 then (if a ≤ first && first < b then 1 else 0)
  else
    let upto := fun v => if v ≤ first then 0 else ceilDiv (v - first) period
    upto b - upto a

end Sys2Proof.Machine
end

