-- ==== Sys2Proof/Machine/Monitors.lean ====
section
/-!
DEFINITION. The arbitration sequence (R208) and the admission engine's monitors: foreign declarations, own rates, fault
budgets, latched causes, deadlines (R410 to R420, R76).
-/

namespace Sys2Proof.Machine

/-! ### Arbitration sequence (R208) -/

/-- `n` bits of a number, most significant first; a recessive bit is true. -/
def bitsDown : Nat → Nat → List Bool
  | 0, _ => []
  | n + 1, v => v.testBit n :: bitsDown n v

/-- The bits a frame sends from the first identifier bit to the bit after FDF (R208). -/
def arbSeq (h : Hdr) : List Bool :=
  match h.fmt with
  | .cc =>
    if h.ide then bitsDown 11 (h.ident / 2 ^ 18) ++ [true, true] ++ bitsDown 18 h.ident ++ [h.rtr, false, false]
    else bitsDown 11 h.ident ++ [h.rtr, false, false, false]
  | .fd =>
    if h.ide then bitsDown 11 (h.ident / 2 ^ 18) ++ [true, true] ++ bitsDown 18 h.ident ++ [false, true, false]
    else bitsDown 11 h.ident ++ [false, false, true, false]
  | .xl => bitsDown 11 h.ident ++ [false, false, true, true]

/-- Dominant before recessive, compared bit by bit (R208). -/
def seqBefore : List Bool → List Bool → Bool
  | [], [] => false
  | [], _ :: _ => true
  | _ :: _, [] => false
  | a :: l, b :: m => if a = b then seqBefore l m else !a

/-! ### Records of a channel -/

/-- Record `n`, where it exists, changed by `f`. -/
def modRec (n : Nat) (f : StreamRec → StreamRec) (s : State) : State := { s with records := mmod s.records n f }

/-- The records on a channel (R390). -/
def recordsOn (s : State) (ch : Nat) : List (Nat × StreamRec) := s.records.filter fun r => r.2.decl.channel == ch

/-- The channel holds an admitted own stream (R411, R414). -/
def hasOwnStream (s : State) (ch : Nat) : Bool := (recordsOn s ch).any fun r => !r.2.decl.foreign && !r.2.stopping

/-- The own stream of a transmit object whose monitors run (R391, R407). -/
def streamOf (s : State) (mo : Nat) : Option (Nat × StreamRec) :=
  s.records.find? fun r => !r.2.decl.foreign && r.2.decl.mo == mo && !r.2.stopping

/-- The monitors of a channel run in every state but DISABLED and POWER_HELD (R76, R419). -/
def monitorsRun (s : State) (ch : Nat) : Bool :=
  match (s.chan ch).state with
  | .disabled => false
  | .powerHeld => false
  | _ => true

/-- No cause is latched on the channel (R388). -/
def assured (s : State) (ch : Nat) : Bool := (s.mon ch).causes == 0

/-! ### Causes (R414, R420) -/

/-- Contexts that hear of a channel's admission: CTX0 and the channel owner (R420). -/
def admissionCtxs (s : State) (ch : Nat) : List Nat := withOwner (chanOwner s ch)

/-- A cause latches: every bound on the channel is unassured from now on, and event 0x0901 tells (R414, R420). -/
def latchCause (ch bit : Nat) (record stamp : Nat) (s : State) : State :=
  if (s.mon ch).causes.getLsbD bit then s
  else
    let s := s.modMon ch fun m => { m with causes := m.causes ||| (1#8 <<< bit), causeAt := tmod m.causeAt bit fun _ => stamp }
    let unsure := fun (r : Option Release) => r.map fun x => { x with assured := false }
    let s := { s with records := s.records.map fun r =>
      if r.2.decl.channel == ch then (r.1, { r.2 with live := unsure r.2.live, staged := unsure r.2.staged }) else r }
    forEach (admissionCtxs s ch) (fun c s => raiseEvent c 0x0901
      (le 1 (virtChan s c ch) ++ le 1 bit ++ le 1 (s.mon ch).causes.toNat ++ zeros 1 ++ le 4 record ++ le 8 stamp) s) s

/-- "No record concerned" in event 0x0901 (R420). -/
def noRecord : Nat := 0xFFFFFFFF

/-- The running mode breaks or keeps the promise (R414 bit 5). -/
def modeBreaks (s : State) (ch : Nat) : Bool :=
  hasOwnStream s ch && (s.chan ch).mode != 0 && (s.chan ch).mode != 4 && monitorsRun s ch

/-- Cause MODE is judged after a change of the running mode or of the streams (R414). -/
def judgeMode (ch : Nat) (s : State) : State :=
  if modeBreaks s ch then latchCause ch 5 noRecord (stampNow s) s else s

/-- Error events of the channel in the last W (R413, R429). -/
def inWindow (s : State) (ch : Nat) (t : Nat) : Nat :=
  let m := s.mon ch
  (m.stamps.filter fun x => t < x + m.w * 1000).length

/-- The condition of a cause continues (R414). -/
def causeActive (s : State) (ch bit : Nat) : Bool :=
  match bit with
  | 1 => (s.mon ch).e < inWindow s ch s.now
  | 2 => (s.chan ch).alone
  | 3 => match (s.chan ch).state with
    | .busOff => true
    | .recovering => true
    | .powerHeld => (s.chan ch).wasBusOff
    | .clockHeld => (s.chan ch).wasBusOff
    | _ => false
  | 4 => (recordsOn s ch).any fun r => r.2.broken
  | 5 => (s.chan ch).mode != 0 && (s.chan ch).mode != 4
  | _ => false

/-- Causes whose condition continues, as a mask (R429 ACTIVE). -/
def activeCauses (s : State) (ch : Nat) : Nat := total ((List.range 7).map fun b => flag (causeActive s ch b) (2 ^ b))

/-! ### Error events (R268, R269, R413) -/

/-- An error event of the channel is counted against its fault budget (R413); it enters over budget unless a window of W
already held more than E (R414, R429). The stamps of the last events are kept whatever their age: E is at most 255, and a
development may make W longer. -/
def budgetEvent (ch : Nat) (s : State) : State :=
  let t := stampNow s
  let m := s.mon ch
  let overload := m.e = 0 || match m.stamps[m.e - 1]? with
    | some x => t < x + m.w * 1000
    | none => false
  let s := s.modMon ch fun m => { m with stamps := t :: m.stamps.take 65534 }
  if overload then
    let fresh := (m.stamps.filter fun x => t < x + m.w * 1000).length ≤ m.e
    let s := if fresh then s.modMon ch fun m => { m with overBudget := inc32 m.overBudget } else s
    latchCause ch 1 noRecord t s
  else s

/-! ### Foreign frames (R410, R411) -/

/-- The interarrival test of R410: passed or not, and the base after it. -/
def rateTest (r : StreamRec) (stamp : Nat) : Bool × Nat :=
  (!(r.seen && stamp + r.decl.jitter < r.base), max r.base stamp + r.decl.period)

/-- A foreign frame is judged against the declarations of its channel (R410, R411). -/
def judgeForeign (ch : Nat) (h : Hdr) (len stamp : Nat) (s : State) : State :=
  if !monitorsRun s ch then s
  else match (recordsOn s ch).find? fun r => r.2.decl.foreign && arbSeq r.2.decl.hdr == arbSeq h with
    | some (n, r) =>
      let t := rateTest r stamp
      let d := r.decl.hdr
      let fits := d.fmt == h.fmt && d.ide == h.ide && d.rtr == h.rtr && d.brs == h.brs && len ≤ r.decl.maxlen
      let s := modRec n (fun r => { r with seen := true, base := t.2, frames := inc32 r.frames }) s
      if t.1 && fits then s
      else
        let s := modRec n (fun r => { r with violations := inc32 r.violations }) s
        let s := s.modMon ch fun m => { m with foreignViol := inc32 m.foreignViol }
        latchCause ch 0 n stamp s
    | none =>
      if hasOwnStream s ch then
        latchCause ch 0 noRecord stamp (s.modMon ch fun m => { m with undeclared := inc32 m.undeclared })
      else s

/-- The object has a stream, one whose stop bath runs included (R407, R411). -/
def hasStream (s : State) (mo : Nat) : Bool := s.records.any fun r => !r.2.decl.foreign && r.2.decl.mo == mo

/-- A frame sent from an object without a stream, on a channel that holds admitted streams (R411). -/
def judgeUndeclaredOwn (ch mo stamp : Nat) (s : State) : State :=
  if monitorsRun s ch && hasOwnStream s ch && !hasStream s mo then
    latchCause ch 0 noRecord stamp (s.modMon ch fun m => { m with undeclared := inc32 m.undeclared })
  else s

/-! ### Own releases and deadlines (R412, R417, R418) -/

/-- A frame of object `mo` is released at `at_`: the rate is tested, and its deadline timer starts (R412, R417). -/
def releaseOwn (mo at_ : Nat) (staged : Bool) (s : State) : State :=
  match streamOf s mo with
  | none => s
  | some (n, r) =>
    let ch := r.decl.channel
    if !monitorsRun s ch then s
    else
      let t := rateTest r at_
      let rel : Release := { at_ := at_, missed := false, assured := assured s ch }
      let s := modRec n (fun r => { r with seen := true, base := t.2 }) s
      let s := modRec n (fun r => if staged then { r with staged := some rel } else { r with live := some rel }) s
      if t.1 || r.decl.feed == 2 then s
      else
        let s := modRec n (fun r => { r with violations := inc32 r.violations }) s
        let s := s.modMon ch fun m => { m with ownViol := inc32 m.ownViol }
        latchCause ch 6 n at_ s

/-- The live frame's release of object `mo` is forgotten: it was cancelled or replaced (R417). -/
def dropLive (mo : Nat) (s : State) : State :=
  match streamOf s mo with
  | none => s
  | some (n, _) => modRec n (fun r => { r with live := none }) s

/-- The live frame of object `mo` has ended without success, neither cancelled nor replaced: its timer runs on to a miss (R417). -/
def failRelease (mo : Nat) (s : State) : State :=
  match streamOf s mo with
  | none => s
  | some (n, _) => modRec n (fun r => { r with
      live := none, failed := r.failed ++ (r.live.toList.filter fun x => !x.missed) }) s

/-- The release of a staged frame that ends without success, neither cancelled nor replaced: its timer runs on (R417). -/
def failStaged (mo : Nat) (s : State) : State :=
  match streamOf s mo with
  | none => s
  | some (n, _) => modRec n (fun r => { r with
      staged := none, failed := r.failed ++ (r.staged.toList.filter fun x => !x.missed) }) s

/-- The staged frame of object `mo` has become live, and so has its release. -/
def promoteRelease (mo : Nat) (s : State) : State :=
  match streamOf s mo with
  | none => s
  | some (n, _) => modRec n (fun r => { r with live := r.staged, staged := none }) s

/-- The staged frame of object `mo` is discarded, and so is its release. -/
def dropStaged (mo : Nat) (s : State) : State :=
  match streamOf s mo with
  | none => s
  | some (n, _) => modRec n (fun r => { r with staged := none }) s

/-- The withdrawn stream of an object, while its stop bath runs, changed by `f` (R407). -/
def bathMod (mo : Nat) (f : StreamRec → StreamRec) (s : State) : State :=
  { s with records := s.records.map fun r =>
      if !r.2.decl.foreign && r.2.stopping && r.2.decl.mo == mo then (r.1, f r.2) else r }

/-- Contexts that hear of a stream: CTX0, the channel owner and the stream's context (R420). -/
def streamCtxs (s : State) (d : Decl) : List Nat :=
  let l := admissionCtxs s d.channel
  if l.contains d.ctx then l else l ++ [d.ctx]

/-- Transmit success of a frame of object `mo` (R417, R418). -/
def succeedOwn (mo : Nat) (s : State) : State :=
  match streamOf s mo with
  | none => s
  | some (n, r) =>
    let s := modRec n (fun r => { r with frames := inc32 r.frames }) s
    match r.live with
    | none => s
    | some rel =>
      let response := s.now - rel.at_
      let s := modRec n (fun r => { r with live := none, maxResponse := max r.maxResponse (min response 0xFFFFFFFF) }) s
      if rel.assured && assured s r.decl.channel && r.figures.exposure < response then
        let s := modRec n (fun r => { r with overExp := inc32 r.overExp }) s
        forEach (streamCtxs s r.decl) (fun c s => raiseEvent c 0x0904
          (le 2 n ++ le 1 (virtChan s c r.decl.channel) ++ zeros 1 ++ le 4 response ++ le 8 rel.at_) s) s
      else s

/-- The oldest release whose timer runs: not yet missed (R417). -/
def timerOf (r : StreamRec) : Option Release :=
  (r.failed ++ r.live.toList ++ r.staged.toList).find? fun x => !x.missed

/-- The deadline timer of record `n` expires: one miss (R417, R419). -/
def deadlineMiss (n : Nat) (s : State) : State :=
  match mget s.records n with
  | none => s
  | some r =>
    if r.decl.foreign || r.stopping || !monitorsRun s r.decl.channel then s
    else match timerOf r with
      | none => s
      | some rel =>
        let s := reachTime (rel.at_ + r.decl.deadline) s
        let t := rel.at_ + r.decl.deadline
        let mark := fun (x : Option Release) => x.map fun y => if y.at_ == rel.at_ then { y with missed := true } else y
        let s := modRec n (fun r => { r with
          misses := inc32 r.misses, lastMiss := t, live := mark r.live, staged := mark r.staged
          failed := r.failed.filter fun y => y.at_ != rel.at_ }) s
        let s := s.modMon r.decl.channel fun m => { m with misses := inc32 m.misses, lastMiss := t }
        forEach (streamCtxs s r.decl) (fun c s => raiseEvent c 0x0902
          (le 2 n ++ le 1 (virtChan s c r.decl.channel) ++ le 1 (flag (!assured s r.decl.channel) 1) ++ zeros 4 ++ le 8 rel.at_) s) s

/-- A release that a power state held: a deadline that passed meanwhile is no miss, and the interval is not judged against the
exposure (R76, R417, R418). -/
def heldRelease (deadline : Nat) (s : State) (x : Release) : Release :=
  { x with assured := false, missed := x.missed || x.at_ + deadline ≤ s.now }

/-- The periods of a channel's records restart when the channel restarts after a power state (R76). -/
def restartPeriods (ch : Nat) (s : State) : State :=
  { s with records := s.records.map fun r =>
      if r.2.decl.channel == ch then (r.1, { r.2 with
        seen := false, base := 0, live := r.2.live.map (heldRelease r.2.decl.deadline s)
        staged := r.2.staged.map (heldRelease r.2.decl.deadline s)
        failed := r.2.failed.filter fun x => !(heldRelease r.2.decl.deadline s x).missed }) else r }

/-- DEADLINE_TIMER_EXPIRY (R417). -/
def execDeadlineTimerExpiry (record : Fin 32768) (s : State) : Host.Outcome State Fault Refusal :=
  next (deadlineMiss record.val s)

end Sys2Proof.Machine
end

