-- ==== Sys2Proof/Machine/ErrorConf.lean ====
section
/-!
DEFINITION. Channel states and their events (R196 to R198), the filmstrip (R273 to R275), the error counters and states
(R254 to R258) and the ALONE condition (R265 to R267).
-/

namespace Sys2Proof.Machine

/-! ### Codes -/

/-- Codes of R196. -/
def chanCode : ChanState → Nat
  | .disabled => 0 | .integrating => 1 | .running => 2 | .stopping => 3 | .busOff => 4 | .recovering => 5
  | .exception => 6 | .powerHeld => 7 | .clockHeld => 8

/-- Error codes of R272. -/
def errNum : ErrCode → Nat
  | .none => 0 | .bit => 1 | .stuff => 2 | .form => 3 | .crc => 4 | .ack => 5 | .tdc => 6 | .cell => 7

/-- Field codes of R272. -/
def fieldNum : FieldCode → Nat
  | .sofArb => 0 | .control => 1 | .data => 2 | .crc => 3 | .delimAck => 4 | .eof => 5 | .errOvl => 6 | .interSuspend => 7

/-- Format codes of R121. -/
def fmtCode : Format → Nat
  | .cc => 0 | .fd => 1 | .xl => 2

/-- FMT of R121. -/
def fmtByte (h : Hdr) : Nat :=
  fmtCode h.fmt + flag h.ide 4 + flag h.rtr 8 + flag h.brs 16 + flag h.esi 32 + flag h.sec 64

/-- ERR_STATE as the counters give it (R257). -/
def errState (c : Chan) : Nat := if c.tec > 255 then 2 else if c.tec > 127 || c.recErr > 127 then 1 else 0

/-- TEC as it is read: 255 while bus-off (R255). -/
def tecRead (c : Chan) : Nat := min c.tec 255

/-! ### Filmstrip (R273 to R275) -/

/-- The number of records the filmstrip holds (R273). -/
def filmSize : Nat := 16384

/-- Channel states that the filmstrip records (R273). -/
def filmRecords : ChanState → Bool
  | .integrating => true | .running => true | .stopping => true | .busOff => true | .recovering => true
  | .exception => true | .disabled => false | .powerHeld => false | .clockHeld => false

/-- A record joins the filmstrip; the oldest is overwritten when it is full; nothing is recorded during a drain (R273, R275). -/
def filmPut (r : FilmRecord) (s : State) : State :=
  if s.film.frozen then s
  else { s with film := { s.film with records := s.film.records.drop (s.film.records.length + 1 - filmSize) ++ [r] } }

/-- A record of a recording channel (R273, R274). -/
def filmRecord (ch kind info data stamp : Nat) (s : State) : State :=
  if filmRecords (s.chan ch).state then
    filmPut { stamp := stamp, channel := ch, kind := kind, info := info, data := data } s
  else s

/-- The bytes of a filmstrip record (R274). -/
def filmBytes (r : FilmRecord) : List Byte :=
  le 8 r.stamp ++ le 1 r.channel ++ le 1 r.kind ++ le 2 r.info ++ le 4 r.data

/-- INFO of the frame kinds (R274). -/
def filmFrameInfo (h : Hdr) (len : Nat) : Nat := fmtCode h.fmt + flag h.ide 4 + flag h.rtr 8 + 16 * len

/-- A freeze cause: recording stops and the drain begins; a cause during a drain is only counted (R275). -/
def filmFreeze (cause chan : Nat) (s : State) : State :=
  if s.film.frozen then { s with film := { s.film with ignored := s.film.ignored + 1 } }
  else
    let s := { s with film := { s.film with frozen := true, delivered := 0, ignored := 0 } }
    raiseEvent 0 0x0405 (le 1 cause ++ le 1 chan ++ zeros 2 ++ le 4 s.film.records.length) s

/-- One frozen record is delivered to CTX0, oldest first (R275). -/
def filmDrainOne (s : State) : State :=
  if !s.film.frozen then s
  else match s.film.records with
    | [] => s
    | r :: rest =>
      let t := raiseEvent 0 0x0410 (filmBytes r) { s with film := { s.film with records := rest } }
      let taken := evtFill s 0 < evtFill t 0 || (goesUpstream 0 0x0410 s && s.stack.upstream.isSome)
      { t with film := { t.film with delivered := t.film.delivered + flag taken 1 } }

/-- Every frozen record is delivered. -/
def filmDrainAll : Nat → State → State
  | 0, s => s
  | n + 1, s => filmDrainAll n (filmDrainOne s)

/-- FILMSTRIP_DRAIN_END (R275): the records still frozen are delivered, event 0x0406 follows, recording resumes. -/
def execFilmstripDrainEnd (s : State) : Host.Outcome State Fault Refusal :=
  if !s.film.frozen then next s
  else
    let s := filmDrainAll s.film.records.length s
    let s := raiseEvent 0 0x0406 (le 4 s.film.delivered ++ le 4 s.film.ignored) s
    next { s with film := { records := [], frozen := false, delivered := 0, ignored := 0 } }

/-! ### Channel events and states -/

/-- The contexts that R198 names: CTX0, which holds a right on every channel, and each guest with any right on this one. -/
def chanCtxs (s : State) (ch : Nat) : List Nat := (List.range 64).filter fun c => c == 0 || chanRight s c ch ≥ 1

/-- An event about a channel, its number translated for each context (R162, R198). -/
def chanEvent (ch code : Nat) (rest : List Byte) (s : State) : State :=
  forEach (chanCtxs s ch) (fun c s => raiseEvent c code (le 1 (virtChan s c ch) ++ rest) s) s

/-- ALONE changes: event 0x0403 and its record (R266, R267, R274). -/
def setAlone (ch : Nat) (v : Bool) (s : State) : State :=
  let c := s.chan ch
  if c.alone = v then s
  else
    let s := filmRecord ch 8 (flag v 1) c.ackRun (stampNow s) s
    let s := s.modChan ch fun c => { c with alone := v }
    chanEvent ch 0x0403 (le 1 (flag v 1) ++ zeros 2 ++ le 4 c.ackRun) s

/-- The channel enters a state: event 0x0401 and its record; a transition to DISABLED clears ALONE (R197, R198, R267, R274). The
channel is DISABLED by then, so this clearing writes no record of kind 0x08 (DESIGN CHOICE, log entry 55). -/
def enterState (ch : Nat) (new : ChanState) (s : State) : State :=
  let old := (s.chan ch).state
  if old = new then s
  else
    let s' := s.modChan ch fun c => { c with state := new }
    let r : FilmRecord :=
      { stamp := stampNow s, channel := ch, kind := 6, info := chanCode new + 16 * chanCode old, data := 0 }
    let s' := if filmRecords old || filmRecords new then filmPut r s' else s'
    let s' := chanEvent ch 0x0401 (le 1 (chanCode new) ++ le 1 (chanCode old) ++ le 1 (s.chan ch).mode) s'
    if new = .disabled then setAlone ch false s' else s'

/-! ### Error counters and states (R254 to R258) -/

/-- A mode in which the error counters move (R200, R254). -/
def countsErrors (mode : Nat) : Bool := mode == 0 || mode == 3 || mode == 4

/-- The counters change by `f`; a change of ERR_STATE is told and recorded (R257, R258, R271, R274, R275). -/
def changeCounters (ch : Nat) (f : Chan → Chan) (s : State) : State :=
  let before := errState (s.chan ch)
  let s := s.modChan ch f
  let c := s.chan ch
  let after := errState c
  if before = after then s
  else
    let s := if after = 1 then s.modChan ch fun c => { c with counters := { c.counters with passives := inc32 c.counters.passives } } else s
    let s := filmRecord ch 7 (after + 4 * before) (tecRead c + 256 * c.recErr) (stampNow s) s
    let s := chanEvent ch 0x0402 (le 1 after ++ le 1 before ++ zeros 1 ++ le 1 (tecRead c) ++ le 1 c.recErr) s
    if after = 1 && c.freeze.getLsbD 2 then filmFreeze 3 ch s else s

/-- TEC rises by `n`. -/
def addTec (n : Nat) (c : Chan) : Chan := { c with tec := c.tec + n }

/-- REC rises by `n`, stopping at 255 (R255). -/
def addRec (n : Nat) (c : Chan) : Chan := { c with recErr := min (c.recErr + n) 255 }

/-- The decrement of a successful transmission (R254). -/
def tecSuccess (c : Chan) : Chan := { c with tec := c.tec - 1 }

/-- The decrement of a successful reception (R254). -/
def recSuccess (c : Chan) : Chan :=
  { c with recErr := if c.recErr > 127 then 127 else c.recErr - 1 }

/-! ### Acknowledge run and ALONE (R265, R266) -/

/-- An acknowledge slot of an own frame is sampled recessive (R265, R266, R275). -/
def ackMissed (ch : Nat) (s : State) : State :=
  let s := s.modChan ch fun c => { c with ackRun := c.ackRun + 1 }
  let c := s.chan ch
  if c.ackRun ≥ c.aloneCount && !c.alone then
    let s := s.modChan ch fun c => { c with counters := { c.counters with alones := inc32 c.counters.alones } }
    let s := setAlone ch true s
    let s := latchCause ch 2 noRecord (stampNow s) s
    if c.freeze.getLsbD 1 then filmFreeze 2 ch s else s
  else s

/-- An acknowledge slot of an own frame is sampled dominant (R265, R267). -/
def ackSeen (ch : Nat) (s : State) : State :=
  setAlone ch false (s.modChan ch fun c => { c with ackRun := 0 })

end Sys2Proof.Machine
end

