-- ==== Sys2Proof/Machine/MsgMem.lean ====
section
/-!
DEFINITION. Message objects (R284 to R301): buffers, the priority heap, receive commits under the read lock, transmit
commits and completions, placement in the payload pool (R278 to R283).
-/

namespace Sys2Proof.Machine

/-! ### Buffers and descriptors -/

/-- A frame record of all zeros, as a new object's buffers hold (R286). -/
def recZero : Rec :=
  { ty := 0, result := 0, hdr := { fmt := .cc, ide := false, rtr := false, brs := false, esi := false, sec := false, ident := 0, af := 0 },
    channel := 0, len := 0, filter := 0, stamp := 0, mo := 0, moValid := false, lost := 0, tag := 0 }

/-- The completion record of a descriptor that was not accepted: no frame was formed, so FMT, CHANNEL, IDENT and AF are open
(R112, R120, R284; log entry 4). -/
def openFrame (s : State) (r : Rec) : Rec :=
  let v := freeAt s 0
  let fmt := match v % 4 with | 0 => Format.cc | 1 => Format.fd | _ => Format.xl
  { r with
    hdr := { fmt := fmt, ide := bitOf v 2, rtr := bitOf v 3, brs := bitOf v 4, esi := bitOf v 5, sec := bitOf v 6,
             ident := freeAt s 1, af := freeAt s 2 }
    channel := freeAt s 3 % 64 }

/-- An empty buffer. -/
def bufZero : Buf := { record := recZero, data := [], cmpl := false, ring := none }

/-- An object as its development creates it: every field at the Reset column of R286. -/
def moNew (owner : Nat) (tx : Bool) (fmts maxlen b base : Nat) : Mo :=
  { en := false, tx := tx, fmts := fmts, ide := false, rtr := false, brs := false, sec := false, single := false,
    feed := false, ovrEvt := false, timed := false, channel := 0, owner := owner, ident := 0, af := 0, maxlen := maxlen,
    b := b, cellBase := base, front := false, shadow := false, full := false, latched := false, failed := false,
    winLock := false, cmdLock := false, errDis := false, retired := false, overwrites := 0, frames := 0, eccCorr := 0,
    buf0 := bufZero, buf1 := bufZero, lostNext := 0, inHeap := false, armed := none, noticed := false,
    latchedHdr := none, frontBad := false, badAt := 0, bound := false, freeing := false, lastSof := 0 }

/-- An object as its development creates it in a run that may hold cells retired since their reservation: it is RETIRED and
disabled from the start (R283, R286; log entry 50). -/
def moBorn (retired : List Nat) (o : Mo) : Mo :=
  if retired.any fun c => o.cellBase ≤ c && c < o.cellBase + 2 * o.b then { o with retired := true, errDis := true } else o

/-- The front buffer: what the window shows, the live buffer of a transmit object (R286). -/
def frontOf (o : Mo) : Buf := if o.front then o.buf1 else o.buf0

/-- The other buffer. -/
def backOf (o : Mo) : Buf := if o.front then o.buf0 else o.buf1

/-- The front buffer changed by `f`. -/
def modFront (f : Buf → Buf) (o : Mo) : Mo := if o.front then { o with buf1 := f o.buf1 } else { o with buf0 := f o.buf0 }

/-- The back buffer replaced. -/
def putBack (b : Buf) (o : Mo) : Mo := if o.front then { o with buf0 := b } else { o with buf1 := b }

/-- The format of a transmit object: its one FMTS bit (R286). -/
def moFormat (o : Mo) : Format := if o.fmts.testBit 2 then .xl else if o.fmts.testBit 1 then .fd else .cc

/-- The header a transmit object sends (R286). -/
def moHdr (o : Mo) : Hdr :=
  { fmt := moFormat o, ide := o.ide, rtr := o.rtr, brs := o.brs, esi := false, sec := o.sec, ident := o.ident, af := o.af }

/-- The bytes of a frame record (R121), its CHANNEL written as `ch`. -/
def recBytes (r : Rec) (ch lost : Nat) : List Byte :=
  le 1 (r.ty + 16 * r.result) ++ le 1 (fmtByte r.hdr) ++ le 1 ch ++ zeros 1 ++ le 4 r.hdr.ident ++ le 4 r.hdr.af
    ++ le 2 r.len ++ le 2 r.filter ++ le 8 r.stamp ++ le 2 (r.mo + flag r.moValid 0x8000) ++ le 2 lost ++ le 4 r.tag

/-- The 32 bytes of a descriptor (R286), its CHANNEL written as `ch`. -/
def descBytes (o : Mo) (ch : Nat) : List Byte :=
  le 4 (1 + flag o.en 2 + flag o.tx 4 + 8 * o.fmts + flag o.ide 0x40 + flag o.rtr 0x80 + flag o.brs 0x100
      + flag o.sec 0x200 + flag o.single 0x400 + flag o.feed 0x800 + flag o.ovrEvt 0x1000 + flag o.timed 0x2000
      + ch * 2 ^ 16 + o.owner * 2 ^ 22)
    ++ le 4 o.ident ++ le 4 o.af ++ le 4 (o.maxlen + o.b * 2 ^ 16)
    ++ le 4 (o.cellBase + flag o.front (2 ^ 17) + flag o.shadow (2 ^ 18) + flag o.full (2 ^ 19) + flag o.latched (2 ^ 20)
      + flag o.failed (2 ^ 21) + flag o.winLock (2 ^ 22) + flag o.cmdLock (2 ^ 23) + flag o.errDis (2 ^ 24)
      + flag o.retired (2 ^ 25))
    ++ le 4 o.overwrites ++ le 4 o.frames ++ le 4 o.eccCorr

/-- The LENGTHs that the FD DLCs 9 to 15 stand for, in order (R193). -/
def fdLengths : List Nat := [12, 16, 20, 24, 32, 48, 64]

/-- Payload lengths of a format (R120). -/
def lenOk (f : Format) (n : Nat) : Bool :=
  match f with
  | .cc => n ≤ 8
  | .fd => n ≤ 8 || fdLengths.contains n
  | .xl => 1 ≤ n && n ≤ 2048

/-- The DLC that a frame of a payload length is sent with (R193). -/
def dlcOf (f : Format) (n : Nat) : Nat :=
  match f with
  | .cc => n
  | .fd => if n ≤ 8 then n else 9 + fdLengths.findIdx (· == n)
  | .xl => n - 1

/-! ### The priority heap (R208) -/

/-- Object `a` stands before object `b` in the heap: by arbitration sequence, then by number (R208). -/
def heapBefore (a b : Nat × Mo) : Bool :=
  let x := arbSeq (moHdr a.2)
  let y := arbSeq (moHdr b.2)
  seqBefore x y || (x == y && a.1 < b.1)

/-- The objects in a channel's heap. -/
def heapOf (s : State) (ch : Nat) : List (Nat × Mo) :=
  s.mos.filter fun m => m.2.tx && m.2.channel == ch && m.2.full && m.2.inHeap

/-- The first of a list in heap order. -/
def heapFirst (l : List (Nat × Mo)) : Option (Nat × Mo) :=
  l.foldl (fun best m => match best with
    | none => some m
    | some b => if heapBefore m b then some m else some b) none

/-- The top of a channel's heap (R208). -/
def heapTop (s : State) (ch : Nat) : Option (Nat × Mo) := heapFirst (heapOf s ch)

/-! ### Read lock (R290, R291) -/

/-- A holder of the read lock remains. -/
def locked (o : Mo) : Bool := o.winLock || o.cmdLock

/-- The read lock of an object ends: a waiting shadow swaps to the front (R291); a front found uncorrectable is dropped (R300). -/
def lockEnds (o : Mo) : Mo :=
  if o.shadow then { o with front := !o.front, shadow := false, full := true, frontBad := false, lostNext := 0 }
  else if o.frontBad then { o with full := false, frontBad := false }
  else o

/-- The window of the object's owner gives the lock up (R290, R291). -/
def dropWinLock (o : Mo) : Mo :=
  if !o.winLock then o
  else
    let o := { o with winLock := false }
    if locked o || o.tx then o else lockEnds o

/-- The window lock of function `c` is released; TORN as given (R131, R132, R291). -/
def releaseWindow (c : Nat) (torn : Bool) (s : State) : State :=
  let w := (s.fn c).win
  if !w.locked then s
  else (s.modMo w.mo dropWinLock).modFn c fun n => { n with win := { n.win with locked := false, torn := n.win.torn || torn } }

/-- A development or a disable ends the read lock of object `mo` with TORN set (R292). -/
def endLockTorn (mo : Nat) (s : State) : State :=
  match s.mo? mo with
  | none => s
  | some o => if (s.fn o.owner).win.locked && (s.fn o.owner).win.mo == mo then releaseWindow o.owner true s else s

/-! ### Places in the payload pool (R30, R36, R280) -/

/-- First byte of the payload pool in the map of R30. -/
def poolBase : Nat := 0x400000

/-- Byte offset of a buffer of an object: the one at the back, or at the front (R280). -/
def bufferAt (o : Mo) (back : Bool) : Nat := poolBase + 64 * (o.cellBase + if o.front != back then o.b else 0)

/-- The back buffer of an object is written with a frame of `len` bytes: what was found uncorrectable there has been written
again (R36). -/
def noteWritten (o : Mo) (len : Nat) (s : State) : State :=
  let at_ := bufferAt o true
  { s with pool := { s.pool with
      suspect := s.pool.suspect.map fun w => if at_ ≤ w.1 && w.1 < at_ + 32 + len then (w.1, true) else w } }

/-! ### Receive objects (R288, R289) -/

/-- Event 0x0501 of a shadow overwrite (R289). The rule names no recipient: it goes to the object's owner alone (DESIGN CHOICE, log
entry 53). -/
def overwriteEvent (mo : Nat) (o : Mo) (s : State) : State :=
  raiseEvent o.owner 0x0501 (le 2 mo ++ zeros 2 ++ le 4 o.overwrites) s

/-- A committed frame goes into an enabled receive object: an old shadow is overwritten, then FRONT swaps or SHADOW is set
(R288, R289). -/
def commitReceive (mo : Nat) (r : Rec) (data : List Byte) (s : State) : State :=
  match s.mo? mo with
  | none => s
  | some o =>
    let overload := o.shadow
    let o := if overload then { o with shadow := false, overwrites := inc32 o.overwrites, lostNext := inc16 o.lostNext } else o
    let s := noteWritten o data.length (if overload && o.ovrEvt then overwriteEvent mo o s else s)
    let o := putBack { record := { r with lost := o.lostNext }, data := data, cmpl := false, ring := none } o
    let o := { o with frames := inc32 o.frames }
    let o := if locked o then { o with shadow := true }
      else { o with front := !o.front, full := true, shadow := false, lostNext := 0 }
    { s with mos := mset s.mos mo o }

/-! ### Completions (R121, R294, R295) -/

/-- A transmit completion of a frame that TX ring `ring` of context `owner` submitted (R121). `always` is "whatever CMPL
says"; CMPL_EN of the ring decides (R120, R220, R294). -/
def completeTx (owner : Nat) (ring : Option Nat) (cmpl always : Bool) (r : Rec) (s : State) : State :=
  match ring with
  | none => s
  | some k =>
    let t := s.ring owner (4 + k)
    if ringCmplEn t && (cmpl || always) then
      pushRx owner { ring := ringCmplRing t, record := { r with ty := 2, filter := 0, lost := 0 }, data := [] } s
    else s

/-! ### Life of a transmit frame (R294 to R298) -/

/-- The live frame's record takes its RESULT (R284). -/
def setResult (r : Nat) (o : Mo) : Mo := modFront (fun b => { b with record := { b.record with result := r } }) o

/-- The live frame of object `mo` completes with RESULT `result`. Only a success depends on CMPL (R119, R220, R294). A frame
that is cancelled or replaced takes its deadline timer with it; the timer of one that has failed for good, which `failRelease`
has put aside before, runs on (R417). -/
def completeLive (mo result : Nat) (s : State) : State :=
  match s.mo? mo with
  | none => s
  | some o =>
    let o := setResult result o
    let b := frontOf o
    let s := { s with mos := mset s.mos mo o }
    let s := if result = 0 then s else dropLive mo s
    completeTx o.owner b.ring b.cmpl (result != 0) b.record (bathMod mo (fun r => { r with stopLive := false }) s)

/-- The staged frame of object `mo`, if any, completes with RESULT `result` and is gone. -/
def discardStagedAs (mo result : Nat) (s : State) : State :=
  match s.mo? mo with
  | none => s
  | some o =>
    if !o.tx || !o.shadow then s
    else
      let b := backOf o
      let s := s.modMo mo fun o => { o with shadow := false }
      completeTx o.owner b.ring b.cmpl true { b.record with result := result }
        (bathMod mo (fun r => { r with stopStaged := false }) (if result = 5 then failStaged mo s else dropStaged mo s))

/-- The staged frame of object `mo`, if any, completes with RESULT 0x1 and is gone (R294, R296). -/
def discardStaged (mo : Nat) (s : State) : State := discardStagedAs mo 1 s

/-- The live frame is over: a staged frame becomes live, outside the heap for a TIMED object, else the object is idle (R295);
an object that FREE_MO has freed meanwhile is released (R305). -/
def endLive (mo : Nat) (s : State) : State :=
  match s.mo? mo with
  | none => s
  | some o =>
    if o.shadow then
      promoteRelease mo (bathMod mo (fun r => { r with stopLive := r.stopStaged, stopStaged := false }) <| s.modMo mo fun o => { o with
        front := !o.front, shadow := false, failed := false, inHeap := !o.timed, armed := none, noticed := false,
        latched := false, latchedHdr := none })
    else if o.freeing then { s with mos := mdel s.mos mo }
    else s.modMo mo fun o => { o with
      full := false, failed := false, inHeap := false, armed := none, noticed := false, latched := false,
      latchedHdr := none }

/-- RESULT of a frame that is withdrawn unsent: 0x2 once an attempt has failed, else 0x1 (R220, R294). -/
def withdrawnResult (o : Mo) : Nat := if o.failed then 2 else 1

/-- The cancels of the latched frame of a channel: the CANCEL_TX commands that wait, and one that waits for no reply (R219,
R222, R232). -/
def cancelsOf (c : Chan) : Nat := c.cancelling.length + flag c.bathCancel 1

/-- The channel counts a cancel (R232). -/
def countCancel (ch : Nat) (late : Bool) (s : State) : State :=
  s.modChan ch fun c => { c with counters :=
    if late then { c.counters with tooLate := inc32 c.counters.tooLate }
    else { c.counters with cancels := inc32 c.counters.cancels } }

/-- A pending frame that is not latched is withdrawn (R219, R220). -/
def withdrawPending (mo : Nat) (s : State) : State :=
  match s.mo? mo with
  | none => s
  | some o => endLive mo (completeLive mo (withdrawnResult o) (countCancel o.channel false s))

/-- The object is withdrawn as CANCEL_TX does, without a reply: its staged frame at once, its live frame at once or when the
latched attempt ends (R219, R222, R296, R298). A receive object has nothing to withdraw: its frames stay. -/
def cancelObject (mo : Nat) (s : State) : State :=
  let s := discardStaged mo s
  match s.mo? mo with
  | none => s
  | some o =>
    if !o.tx || !o.full then s
    else if o.latched then s.modChan o.channel fun c => { c with cancelled := true, bathCancel := true }
    else withdrawPending mo s

/-- An entry is armed for an instant to come; at its instant it became ordinary (R370). -/
def armedNow (s : State) (o : Mo) : Bool := o.armed.any fun t => s.now < t

/-- The frame `b` is committed to transmit object `mo` (R294). `at_` is the release instant of a stream fed by host
descriptors or by the routing engine (R387). -/
def txCommit (mo : Nat) (b : Buf) (at_ : Nat) (s : State) : State :=
  match s.mo? mo with
  | none => s
  | some o =>
    let fed := match streamOf s mo with
      | some (_, r) => r.decl.feed != 2
      | none => false
    let s := noteWritten o b.data.length s
    if !o.full then
      let s := s.modMo mo fun o => { putBack b o with
        front := !o.front, full := true, failed := false, inHeap := !o.timed, armed := none, noticed := false }
      if fed then releaseOwn mo at_ false s else s
    else if !o.latched then
      let old := frontOf (setResult (withdrawnResult o) o)
      let s := { s with mos := mset s.mos mo (setResult (withdrawnResult o) o) }
      let s := if armedNow s o then s else dropLive mo s
      let s := completeTx o.owner old.ring old.cmpl true old.record (bathMod mo (fun r => { r with stopLive := false }) s)
      let s := s.modMo mo fun o => { putBack b o with
        front := !o.front, failed := false, overwrites := inc32 o.overwrites }
      if fed then releaseOwn mo at_ false s else s
    else
      let overload := o.shadow
      let s := discardStaged mo s
      let s := s.modMo mo fun o => { putBack b o with
        shadow := true, overwrites := if overload then inc32 o.overwrites else o.overwrites }
      if fed then releaseOwn mo at_ true s else s

/-! ### Stamps of frames that have started (R213, R284) -/

/-- The latched frame of a channel has driven its start of frame. -/
def sofDriven (s : State) (ch : Nat) : Bool := (s.chan ch).latched.isSome && (s.chan ch).sof ≤ s.now

/-- The latched frame's start of frame is entered in its record, its object and its channel (R219, R232, R284). -/
def noteStart (ch : Nat) (s : State) : State :=
  let c := s.chan ch
  match c.latched with
  | none => s
  | some mo =>
    if c.sof ≤ s.now then
      let s := s.modMo mo fun o =>
        { modFront (fun b => { b with record := { b.record with stamp := c.sof } }) o with lastSof := c.sof }
      s.modChan ch fun c => { c with lastSof := c.sof }
    else s

/-- LAST_SOF of a channel as it is read (R232). -/
def lastSofOf (s : State) (ch : Nat) : Nat := if sofDriven s ch then (s.chan ch).sof else (s.chan ch).lastSof

/-- The object as it is read: a latched frame that has started shows its start of frame (R284). -/
def shownMo (s : State) (mo : Nat) (o : Mo) : Mo :=
  if o.latched && (s.chan o.channel).latched == some mo && sofDriven s o.channel then
    { modFront (fun b => { b with record := { b.record with stamp := (s.chan o.channel).sof } }) o with
      lastSof := (s.chan o.channel).sof }
  else o

/-! ### Placement in the payload pool (R279 to R283) -/

/-- Cells per buffer of a payload of `maxlen` bytes (R280). -/
def bufCells (maxlen : Nat) : Nat := ceilDiv (32 + maxlen) 64

/-- The cells of an object: first cell and count (R280). -/
def moCells (o : Mo) : Nat × Nat := (o.cellBase, 2 * o.b)

/-- Two runs of cells share a cell. -/
def runsMeet (a b : Nat × Nat) : Bool := a.1 < b.1 + b.2 && b.1 < a.1 + a.2

/-- Cells in a page (R278). -/
def pageCells : Nat := 128

/-- A run is free of objects and of retired cells (R281, R283). -/
def runFree (used : List (Nat × Nat)) (retired : List Nat) (r : Nat × Nat) : Bool :=
  !(used.any (runsMeet r)) && !(retired.any fun c => r.1 ≤ c && c < r.1 + r.2)

/-- The pages of a context, in ascending number (R279). -/
def pagesOf (p : Pool) (c : Nat) : List Nat := (List.range poolPages).filter fun n => p.pages.getD n none == some c

/-- The lowest free run of `n` cells in the lowest page that has one (R281). -/
def placeRun (p : Pool) (c n : Nat) (used : List (Nat × Nat)) : Option Nat :=
  (pagesOf p c).findSome? fun page =>
    let near := used.filter (runsMeet (page * pageCells, pageCells))
    ((List.range (pageCells + 1 - n)).map (page * pageCells + ·)).find? fun b => runFree near p.retired (b, n)

/-- Retired cells of a context's pages that no object holds: they count in its use (R283). -/
def retiredUse (p : Pool) (c : Nat) (used : List (Nat × Nat)) : Nat :=
  (p.retired.filter fun x => p.pages.getD (x / pageCells) none == some c && !(used.any (runsMeet (x, 1)))).length

end Sys2Proof.Machine
end

