-- ==== Sys2Proof/Machine/FilterOps.lean ====
section
/-!
DEFINITION. The filter engine (R307 to R319): keys, buckets, matching, evaluation per context, the delivery set.
-/

namespace Sys2Proof.Machine

/-! ### Entries -/

/-- Codes of TYPE (R308). -/
def typExact : Nat := 1
def typMask : Nat := 2
def typRange : Nat := 3
def typHashed : Nat := 4

/-- The format bit of FMTS (R286, R308). -/
def fmtBit (f : Format) : Nat := fmtCode f

/-- The bits that the IDENT layouts of the formats in FMTS use (R311). An IDE that is 1 or either admits extended identifiers. -/
def identBits (fmts ide : Nat) : Nat :=
  let cf := fmts % 4 != 0
  (if fmts.testBit 2 then 0xFFFF07FF else 0) ||| (if cf then (if ide = 0 then 0x7FF else 0x1FFFFFFF) else 0)

/-- BUCKET of a key (R312). -/
def bucketOf (k key e : Nat) : Nat :=
  let f := bitsOf k 0 7 ^^^ bitsOf k 7 7 ^^^ bitsOf k 14 7 ^^^ bitsOf k 21 7 ^^^ bitsOf k 28 4
  f ^^^ (0x40 * key) ^^^ (0x20 * e)

/-- E of a HASHED entry (R312). -/
def entryE (f : Filter) : Nat := if f.fmts % 4 != 0 then f.ide % 2 else 0

/-- The bucket of a HASHED entry (R312). -/
def entryBucket (f : Filter) : Nat := bucketOf f.value (flag f.key 1) (entryE f)

/-- The number of the chain that holds a HASHED entry: its channel and bucket (R312). -/
def chainNo (ch bucket : Nat) : Nat := ch * 128 + bucket

/-- The entry matches the frame received on channel `ch` (R310). -/
def entryMatches (f : Filter) (ch : Nat) (h : Hdr) : Bool :=
  let key := if f.key then h.af else h.ident
  !f.errDis && f.channel == ch && f.fmts.testBit (fmtBit h.fmt)
    && (h.fmt == .xl || f.ide == 2 || f.ide == flag h.ide 1)
    && (h.fmt != .cc || f.rtr == 2 || f.rtr == flag h.rtr 1)
    && (if f.typ = typMask then key &&& f.mask == f.value
        else if f.typ = typRange then f.value ≤ key && key ≤ f.mask
        else key == f.value)

/-! ### Chains -/

/-- The entry joins the end of its chain; one already there keeps its place (R312). -/
def linkEntry (n : Nat) (f : Filter) (st : FilterStore) : FilterStore :=
  if f.typ != typHashed then st
  else
    let k := chainNo f.channel (entryBucket f)
    let l := (mget st.chains k).getD []
    if l.contains n then st else { st with chains := mset st.chains k (l ++ [n]) }

/-- The entry leaves its chain. -/
def unlinkEntry (n : Nat) (f : Filter) (st : FilterStore) : FilterStore :=
  if f.typ != typHashed then st
  else
    let k := chainNo f.channel (entryBucket f)
    match ((mget st.chains k).getD []).filter (· != n) with
    | [] => { st with chains := mdel st.chains k }
    | l => { st with chains := mset st.chains k l }

/-- Entry `n` is removed from the store (R327). -/
def removeEntry (n : Nat) (st : FilterStore) : FilterStore :=
  match mget st.entries n with
  | none => st
  | some f => let st := unlinkEntry n f st; { st with entries := mdel st.entries n }

/-- The place of an entry: its chain, or the scan list of its channel (R313). -/
def samePlace (a b : Filter) : Bool :=
  a.channel == b.channel && (if a.typ = typHashed then b.typ == typHashed && entryBucket a == entryBucket b else b.typ != typHashed)

/-- Entries of a chain are linked again, up to one whose own words are bad (R322). -/
def relink : List Nat → List (Nat × Filter) → List (Nat × Filter)
  | [], es => es
  | m :: l, es => match mget es m with
    | some f => if f.bad then es else relink l (mset es m { f with errDis := false })
    | none => relink l es

/-- The entries after entry `n` in its chain. -/
def laterInChain (n : Nat) (f : Filter) (st : FilterStore) : List Nat :=
  if f.typ != typHashed then []
  else (((mget st.chains (chainNo f.channel (entryBucket f))).getD []).dropWhile (· != n)).drop 1

/-- Entry `n` is written (R326); a rewrite within one place keeps it. A rewrite of a disabled entry relinks the chain it is in
from it onward; where it leaves for another chain, the one it leaves (R322; log entry 65). -/
def writeEntry (n : Nat) (f : Filter) (st : FilterStore) : FilterStore :=
  match mget st.entries n with
  | none => linkEntry n f { st with entries := mset st.entries n f }
  | some old =>
    let es := mset st.entries n f
    let es := if old.errDis then relink (laterInChain n old st) es else es
    if samePlace old f then { st with entries := es }
    else linkEntry n f { unlinkEntry n old st with entries := es }

/-- LINK of a HASHED entry: the next entry of its chain, or its own number at the end (R308). -/
def linkOf (st : FilterStore) (n : Nat) (f : Filter) : Nat :=
  let l := (mget st.chains (chainNo f.channel (entryBucket f))).getD []
  ((l.dropWhile (· != n)).drop 1).headD n

/-- The scanned entries of a channel, every context (R313). -/
def scanOn (st : FilterStore) (ch : Nat) : List (Nat × Filter) :=
  st.entries.filter fun e => e.2.channel == ch && e.2.typ != typHashed

/-- The HASHED entries of a channel, every context. -/
def hashOn (st : FilterStore) (ch : Nat) : List (Nat × Filter) :=
  st.entries.filter fun e => e.2.channel == ch && e.2.typ == typHashed

/-! ### Evaluation (R315 to R318) -/

/-- The entries of one chain, as stored. -/
def chainEntries (st : FilterStore) (ch bucket : Nat) : List (Nat × Filter) :=
  ((mget st.chains (chainNo ch bucket)).getD []).filterMap fun n => (mget st.entries n).map fun f => (n, f)

/-- The candidates of context `x`, in the order in which they are tried (R315). -/
def candidates (st : FilterStore) (ch : Nat) (h : Hdr) (x : Nat) : List (Nat × Filter) :=
  let e := if h.fmt != .xl && h.ide then 1 else 0
  let byIdent := (chainEntries st ch (bucketOf h.ident 0 e)).filter fun c => !c.2.key
  let byAf := if h.fmt = .xl then (chainEntries st ch (bucketOf h.af 1 0)).filter fun c => c.2.key else []
  (byIdent ++ byAf ++ scanOn st ch).filter fun c => c.2.owner == x

/-- The matching entries of a candidate list, up to the first without CONTINUE (R315). -/
def takeMatches (ch : Nat) (h : Hdr) : List (Nat × Filter) → List (Nat × Filter)
  | [] => []
  | c :: l => if entryMatches c.2 ch h then (if c.2.cont then c :: takeMatches ch h l else [c]) else takeMatches ch h l

/-- Contexts that own an entry on a channel (R315). -/
def contextsOn (st : FilterStore) (ch : Nat) : List Nat :=
  (List.range 64).filter fun x => st.entries.any fun e => e.2.channel == ch && e.2.owner == x

/-- A destination joins the delivery set once, with the lowest-numbered entry that named it (R317). -/
def addDest (l : List Dest) (d : Dest) : List Dest :=
  match d with
  | .object m f =>
    if l.any fun x => match x with | .object m' _ => m' == m | _ => false then
      l.map fun x => match x with | .object m' f' => if m' = m then .object m' (min f f') else x | y => y
    else l ++ [d]
  | .ring c k f =>
    if l.any fun x => match x with | .ring c' k' _ => c' == c && k' == k | _ => false then
      l.map fun x => match x with | .ring c' k' f' => if c' = c ∧ k' = k then .ring c' k' (min f f') else x | y => y
    else l ++ [d]
  | .route p => if l.any fun x => match x with | .route p' => p' == p | _ => false then l else l ++ [d]

/-- The deliveries of one matching entry (R317). -/
def entryDests (n : Nat) (f : Filter) : List Dest :=
  (if f.toMo then [Dest.object f.mo n] else []) ++ (if f.toRing then [Dest.ring f.owner f.ring n] else [])
    ++ (if f.toRoute then [Dest.route f.pdu] else [])

/-- The verdict on a frame: its delivery set and the contexts with a match (R315 to R318). -/
def filterFrame (st : FilterStore) (ch : Nat) (h : Hdr) : List Dest × List Nat :=
  let per := (contextsOn st ch).map fun x => (x, takeMatches ch h (candidates st ch h x))
  let hits := per.filter fun p => !p.2.isEmpty
  ((hits.flatMap fun p => p.2.flatMap fun e => entryDests e.1 e.2).foldl addDest [], hits.map (·.1))

/-! ### Counters (R324) -/

/-- Key of the counters of context `x` on channel `ch`. -/
def pairNo (x ch : Nat) : Nat := x * 64 + ch

/-- Counters of a pair (R324); LAST_DROP_ENTRY is 0xFFFF when there is none. -/
def pairOf (st : FilterStore) (x ch : Nat) : PairCounters :=
  (mget st.pairs (pairNo x ch)).getD { matched := 0, disDrop := 0, lastDrop := 0xFFFF }

/-- Counters of a pair changed by `f`. -/
def modPair (x ch : Nat) (f : PairCounters → PairCounters) (s : State) : State :=
  { s with filters := { s.filters with pairs := mset s.filters.pairs (pairNo x ch) (f (pairOf s.filters x ch)) } }

/-- A frame was delivered by entry `f` to an object that is not enabled (R288, R324). -/
def disabledDrop (x ch f : Nat) (s : State) : State :=
  modPair x ch (fun c => { c with disDrop := inc32 c.disDrop, lastDrop := f }) s

end Sys2Proof.Machine
end

