-- ==== Sys2Proof/Machine/Latent.lean ====
section
/-!
DEFINITION. Latent changes (R171, R172): the item a change writes, what the configuration becomes when it is written down,
the staged view against which latent commands are checked, and the use of quotas (R166).
-/

namespace Sys2Proof.Machine

/-! ### Channel settings -/

/-- A frame, an error frame or an overload frame is under way on the channel (R205). -/
def frameUnderWay (now : Nat) (c : Chan) : Bool :=
  (c.latched.isSome && c.sof ≤ now) ||
  match c.bus with
  | .receiving => true
  | .sending _ => true
  | .errorFrame => true
  | _ => false

/-- A channel that is RUNNING or STOPPING follows its bus; in every other state no frame is under way (R196). -/
def onBus (c : Chan) : Bool := c.state == .running || c.state == .stopping

/-- The developed settings of a channel (R205). -/
def devSettings (c : Chan) : ChanSettings := c.next.getD c.cur

/-- The developed settings change by `f`: at once, or at the next intermission when a frame is under way (R205). -/
def modDeveloped (now : Nat) (f : ChanSettings → ChanSettings) (mode : Option Nat) (c : Chan) : Chan :=
  if onBus c && frameUnderWay now c then
    { c with next := some (f (devSettings c)), nextMode := match mode with | some m => some m | none => c.nextMode }
  else { c with cur := f (devSettings c), next := none, mode := mode.getD c.mode, nextMode := none }

/-- A phase's bit timing set (R252). -/
def setPhase (phase : Nat) (t : BitTiming) (x : ChanSettings) : ChanSettings :=
  match phase with
  | 0 => { x with nominal := some t }
  | 1 => { x with fdData := some t }
  | _ => { x with xlData := some t }

/-! ### Items (R171, R172) -/

/-- The descriptor, entry or record that a change writes: kind and number (R171). -/
def itemOf : Change → Nat × Nat
  | .chanMode ch _ _ _ => (0x01, ch)
  | .bitTiming ch ph _ => (0x02, ch * 4 + ph)
  | .xcvr ch _ => (0x03, ch)
  | .alloc mo _ _ _ _ _ => (0x04, mo)
  | .config mo _ _ _ _ => (0x04, mo)
  | .free mo => (0x04, mo)
  | .filter n _ => (0x05, n)
  | .clearFilter n => (0x05, n)
  | .queue c _ _ _ => (0x06, c)
  | .watermark p _ _ _ => (0x07, p)
  | .shutter mo _ _ => (0x08, mo)
  | .clearShutter mo => (0x08, mo)
  | .trigger u _ => (0x09, u)
  | .pps _ => (0x0A, 0)
  | .declare n _ _ => (0x0B, n)
  | .withdraw n _ => (0x0B, n)
  | .budget ch _ _ => (0x0C, ch)
  | .route r => (0x0D, r.outRec)
  | .pdu n _ => (0x0E, n)
  | .signal n _ _ => (0x0F, n)
  | .localIo _ => (0x10, 0)
  | .cvu u _ => (0x11, u)
  | .bind l _ => (0x12, l)
  | .profile c _ => (0x13, c)
  | .policy l _ => (0x14, l)
  | .link p _ => (0x15, match p with | .a => 0 | .b => 1)
  | .census ch _ _ _ _ _ => (0x16, ch)

/-- An allocation stays beside the changes that follow it on its object (R303 to R305). -/
def isAlloc : Change → Bool
  | .alloc _ _ _ _ _ _ => true
  | _ => false

/-- A clear that comes after a write of its entry or unit: the write holds the number, place and quota until the development, which
frees them (R327, R487). -/
def clearsWrite : Change → Change → Bool
  | .clearFilter _, .filter _ _ => true
  | .cvu _ none, .cvu _ (some _) => true
  | _, _ => false

/-- The change `d` is superseded by a later change `c` (R172). -/
def supersedes (c d : Change) : Bool := itemOf c == itemOf d && !isAlloc d && !clearsWrite c d

/-- The changes of a set counted by the items they write (R171, R172; log entry 75). -/
def itemCount (l : List Change) : Nat := ((l.map itemOf).eraseDups).length

/-- Changes not yet in force: those armed and not yet switched, then the latent set (R171, R177). -/
def waitingChanges (x : Ctx) : List Change :=
  (match x.armed with | some a => a.changes | none => []) ++ x.latent

/-! ### The configuration a change writes -/

/-- Cells of the context queue pool (R333). -/
def poolCells : Nat := 5120

/-- The region of a context: what its setting says for a guest, the rest of the pool for CTX0 (R336). -/
def regionOf (s : State) (c : Nat) : Nat :=
  if c = 0 then poolCells - total ((List.range 64).map fun g => if g = 0 then 0 else (s.cq g).region) else (s.cq c).region

/-- The queues of a context as CONFIG_QUEUE develops them (R337, R338, R351). -/
def configQueues (c region : Nat) (d : Depths) (q : CtxQueues) : CtxQueues :=
  if c != 0 && region = 0 then { q with region := 0, depths := depthsNone, pend := depthsNone }
  else if c != 0 && q.region = 0 then { q with region := region, depths := depthsMin, pend := d }
  else { q with region := if c = 0 then 0 else region, pend := d }

/-- A record with the declaration `d` and an empty monitor (R390). -/
def recNew (d : Decl) : StreamRec :=
  { decl := d, figures := { exposure := 0, frame := 0, blocking := 0, jitter := d.jitter }, stopping := false,
    stopBy := .ctx 0, stopLive := false, stopStaged := false, held := none, broken := false, seen := false, base := 0,
    live := none, staged := none, failed := [], misses := 0, overExp := 0, violations := 0, frames := 0, maxResponse := 0, lastMiss := 0 }

/-- The object of a stream holds frames that a withdrawal has to wait for (R407). -/
def objectBusy (s : State) (mo : Nat) : Bool :=
  match s.mo? mo with
  | some o => o.full
  | none => false

/-- A withdrawal: a foreign record and an idle stream are freed, a busy stream starts its stop bath (R407). -/
def withdrawRec (n : Nat) (by_ : Source) (s : State) : State :=
  match mget s.records n with
  | none => s
  | some r =>
    if r.decl.foreign || !objectBusy s r.decl.mo then { s with records := mdel s.records n }
    else modRec n (fun r => { r with
      stopping := true, stopBy := by_, stopLive := true, live := none, staged := none, failed := [],
      stopStaged := match s.mo? r.decl.mo with | some o => o.shadow | none => false }) s

/-- A schedule with every counter 0 (R367). -/
def scheduleNew (first period : Nat) : Schedule :=
  { first := first, period := period, next := first, pointDone := false, framed := false, isOver := false, onTime := 0, displaced := 0, empty := 0, overrun := 0, missed := 0 }

/-- A PDU as its development leaves it: STALE when inbound, nothing sent, nothing counted (R431, R447). -/
def pduNew (p : PduSet) : Pdu :=
  let inbound := match p.dir with | .inFrame => true | .inLink => true | .inLocal => true | _ => false
  { set := p, errDis := false, stale := inbound, arrived := none, arrivedAt := 0, timedOut := false, timeoutDue := 0, noticeDue := 0, expired := false,
    lastSend := none, deferredTo := none, noticed := false, noticeAt := 0, arrivals := 0, sends := 0, short := 0, cvFail := 0,
    timeouts := 0, deferred := 0, noObject := 0, last := 0 }

/-- A PDU written again keeps its counters (R471). -/
def pduAgain (p : PduSet) (o : Pdu) : Pdu :=
  { pduNew p with
    arrivals := o.arrivals, sends := o.sends, short := o.short, cvFail := o.cvFail, timeouts := o.timeouts,
    deferred := o.deferred, noObject := o.noObject, last := o.last }

/-- A unit as CONFIG_CVU develops it (R477, R485, R487): REG at the new INIT, a freed unit at 0, a newly allocated FEED unit
disabled, the counters unchanged. -/
def configCvu (x : Nat) (p : Option CvuParams) (c : Cvu) : Cvu :=
  match p with
  | none => { c with params := none, owner := 0, enabled := false, stopping := false, held := none, reg := 0 }
  | some q => { c with
      params := some q, owner := x, reg := q.init
      enabled := c.enabled && !q.route && c.params.isSome
      stopping := c.stopping && !q.route }

/-- An event of a unit's stop bath (R180). -/
def cvuEvent (code u : Nat) (src : Source) (s : State) : State := raiseEvent (ctxOf src) code (le 1 3 ++ zeros 1 ++ le 2 u) s

/-- CONFIG_CVU develops (R487). A stop bath that it ends, and a held enable that it cancels with it, are told of (R180); `by_`
hears of them where the context that issued them is departing. -/
def endCvuBath (x u : Nat) (p : Option CvuParams) (by_ : Option Source) (s : State) : State :=
  let c := s.cvu u
  let s := s.modCvu u (configCvu x p)
  if !c.stopping || (s.cvu u).stopping then s
  else
    let s := match c.held with
      | some h => cvuEvent 0x0BF2 u (by_.getD h) (s.modCvu u fun c => { c with held := none })
      | none => s
    cvuEvent 0x0BF0 u (by_.getD c.stopBy) s

/-- CONFIG_CVU develops for context `x`. -/
def developCvu (x u : Nat) (p : Option CvuParams) (s : State) : State := endCvuBath x u p none s

/-- CONFIG_MO FLAGS as bits of the descriptor (R304). EN 1 rewrites no descriptor whose object holds a retired cell, whenever
that cell was retired (R283, R301). -/
def configMo (ch flags ident af : Nat) (o : Mo) : Mo :=
  if (bitOf flags 0 && o.retired) || o.freeing then o
  else { o with
    en := bitOf flags 0, ide := bitOf flags 1, rtr := bitOf flags 2, brs := bitOf flags 3, sec := bitOf flags 4,
    single := bitOf flags 5, feed := bitOf flags 6, ovrEvt := bitOf flags 7, channel := ch, ident := ident, af := af, bound := true,
    errDis := !bitOf flags 0 && o.errDis }

/-- The stamp of an entry at its development: its VALUE is set there, where it has one (R447, R469). -/
def sigStamp (s : State) : SigBody → Nat
  | .source _ _ _ _ _ => stampNow s
  | .const => stampNow s
  | _ => 0

/-- The mode in which an enabled channel runs: SAFELIGHT while the image in proof mode finds its settings unreadable (R586). -/
def safelitMode (s : State) (mode : Nat) : Nat := if (settingsRefused s).isSome then 1 else mode

/-- The configuration with one change of context `x` written down, and nothing else done (R171, R173). -/
def writeDown (x : Nat) (s : State) : Change → State
  | .chanMode ch mode formats options =>
    s.modChan ch (modDeveloped s.now (fun t => { t with mode := mode, formats := formats, options := options }) (some (safelitMode s mode)))
  | .bitTiming ch ph t => s.modChan ch (modDeveloped s.now (setPhase ph t) none)
  | .xcvr ch t => s.modChan ch (modDeveloped s.now (fun y => { y with xcvr := t }) none)
  | .alloc mo tx fmts maxlen b base => { s with mos := mset s.mos mo (moBorn s.pool.retired (moNew x tx fmts maxlen b base)) }
  | .config mo ch flags ident af => s.modMo mo (configMo ch flags ident af)
  | .free mo => { s with mos := mdel s.mos mo }
  | .filter n f => { s with filters := writeEntry n f s.filters }
  | .clearFilter n => if (mget s.filters.entries n).any fun e => e.owner == x then { s with filters := removeEntry n s.filters } else s
  | .queue c region d shares =>
    let s := s.modCq c fun q => configQueues c (region.getD q.region) d q
    if c != 0 && region = some 0 then
      forRange 16 (fun k s => s.modRing c (4 + k) fun r => { r with share := 0, sharePend := none }) s
    else forRange 16 (fun k s => s.modRing c (4 + k) fun r =>
      { r with sharePend := if shares.getD k 0 = r.share then none else some (shares.getD k 0) }) s
  | .watermark p qid high low =>
    { s with fq := { s.fq with fc := tmod s.fq.fc p fun f => { f with qid := qid, high := high, low := low } } }
  | .shutter mo first period =>
    { s.modMo mo (fun o => { o with timed := true }) with schedules := mset s.schedules mo (scheduleNew first period) }
  | .clearShutter mo => { s.modMo mo (fun o => { o with timed := false }) with schedules := mdel s.schedules mo }
  | .trigger u t => s.modTrigger u fun g => { g with set := t }
  | .pps p => { s with time := { s.time with pps := p } }
  | .declare n d _ =>
    match mget s.records n with
    | none => { s with records := mset s.records n (recNew d) }
    | some r =>
      if r.stopping then modRec n (fun r => { r with held := some d }) s
      else modRec n (fun r => { r with decl := d, broken := false }) s
  | .withdraw n by_ => withdrawRec n by_ s
  | .budget ch e w => s.modMon ch fun m => { m with e := e, w := w }
  | .route r =>
    if r.deadline = 0 then
      (if (mget s.routes r.outRec).any fun q => q.inRec == r.inRec && q.inPos == r.inPos then { s with routes := mdel s.routes r.outRec } else s)
    else { s with routes := mset s.routes r.outRec r }
  | .pdu n p =>
    match p with
    | none => { s with pdus := mdel s.pdus n }
    | some p => { s with pdus := mset s.pdus n (match mget s.pdus n with
        | some o => pduAgain p o
        | none => pduNew p) }
  | .signal n b v =>
    match b with
    | none => { s with sigs := mdel s.sigs n }
    | some b => { s with sigs := mset s.sigs n { body := b, errDis := false, value := v, stamp := sigStamp s b } }
  | .localIo l => { s with localIo := { s.localIo with
      set := l, round := if l.ainEn = 0 then none else some (s.localIo.round.getD s.time.clk) } }
  | .cvu u p => s.modCvu u (configCvu x p)
  | .bind l b => s.modLd l fun y => { y with pendBind := some b }
  | .profile c p => s.modSwc c fun y => { y with pend := some p }
  | .policy l p => s.modLd l fun y => { y with pendPolicy := some p }
  | .link p d => s.modLink p fun l => { l with maxDelay := d }
  | .census ch r new lost factor lt =>
    { s with census := { s.census with sets := tmod s.census.sets ch fun c =>
        { c with record_ := r, new := new, lost := lost, factor := factor, lostTime := lt.getD c.lostTime } } }

/-- A list of changes of one context written down in order. -/
def writeAll (x : Nat) (l : List Change) (s : State) : State := l.foldl (writeDown x) s

/-- The running state combined with a context's own latent set (R171, R404); its armed changes are no part of it (R177, R178). -/
def stagedView (s : State) (x : Nat) : State := writeAll x (s.ctx x).latent s

/-- The schedule of an object that still has instants to serve (R368, R443). -/
def scheduleOf (s : State) (mo : Nat) : Option Schedule := (mget s.schedules mo).filter fun x => !x.isOver

/-! ### Use of quotas (R166) -/

/-- Changes that wait, of every context, each with its context. -/
def allWaiting (s : State) : List (Nat × Change) :=
  (List.range 64).flatMap fun x => (waitingChanges (s.ctx x)).map fun c => (x, c)

/-- Objects of a context, running and reserved (R281, R282). -/
def objectUse (s : State) (x : Nat) : Nat :=
  (s.mos.filter fun m => m.2.owner == x).length + ((waitingChanges (s.ctx x)).filter isAlloc).length

/-- Cell runs in use: every object's, and every reserved allocation's (R281). -/
def usedRuns (s : State) : List (Nat × Nat) :=
  s.mos.map (fun m => moCells m.2) ++ (allWaiting s).filterMap fun c =>
    match c.2 with
    | .alloc _ _ _ _ b base => some (base, 2 * b)
    | _ => none

/-- Payload cells of a context in use or reserved, retired ones included (R282, R283). -/
def cellUse (s : State) (x : Nat) : Nat :=
  total (s.mos.map fun m => if m.2.owner = x then 2 * m.2.b else 0)
    + total ((waitingChanges (s.ctx x)).map fun c => match c with | .alloc _ _ _ _ b _ => 2 * b | _ => 0)
    + retiredUse s.pool x (usedRuns s)

/-- Filter entries of a context: running ones, and new ones its waiting changes write (R307, R313). -/
def filterUse (s : State) (x : Nat) : Nat :=
  (s.filters.entries.filter fun e => e.2.owner == x).length
    + (((waitingChanges (s.ctx x)).filterMap fun c => match c with
        | .filter n _ => if (mget s.filters.entries n).isSome then none else some n
        | _ => none).eraseDups).length

/-- The context a record counts against (R390). -/
def recordOwner (s : State) (d : Decl) : Nat := if d.foreign then chanOwner s d.channel else d.ctx

/-- Stream records of a context, running and new (R390). -/
def recordUse (s : State) (x : Nat) : Nat :=
  (s.records.filter fun r => recordOwner s r.2.decl == x).length
    + (((waitingChanges (s.ctx x)).filterMap fun c => match c with
        | .declare n _ _ => if (mget s.records n).isSome then none else some n
        | _ => none).eraseDups).length

/-- Check-value units of a context, running and new (R472). -/
def cvuUse (s : State) (x : Nat) : Nat :=
  (s.cvus.toList.filter fun u => u.params.isSome && u.owner == x).length
    + (((waitingChanges (s.ctx x)).filterMap fun c => match c with
        | .cvu u (some _) => if (s.cvu u).params.isSome then none else some u
        | _ => none).eraseDups).length

/-- Latent changes of a context, armed ones included (R166). -/
def latentUse (s : State) (x : Nat) : Nat :=
  let c := s.ctx x
  itemCount (match c.armed with | some a => a.changes | none => []) + itemCount c.latent

/-- The present use of a resource by a context (R166, R167). -/
def useOf (s : State) (x code : Nat) : Nat :=
  match code with
  | 1 => objectUse s x
  | 2 => cellUse s x
  | 3 => filterUse s x
  | 4 => recordUse s x
  | 5 => cvuUse s x
  | _ => latentUse s x

/-- The quota of a context for a resource code 0x01 to 0x06 (R166). -/
def quotaOf (s : State) (x code : Nat) : Nat := tget (s.ctx x).quotas (code - 1) 0

/-- Device totals (R166). -/
def deviceTotal (code : Nat) : Nat :=
  match code with
  | 1 => 16384
  | 2 => 114688
  | 3 => 65536
  | 4 => 32768
  | 5 => 32
  | _ => 16384

/-! ### Staging -/

/-- The latent set with the changes `l` joined: each supersedes what it rewrites (R172). -/
def joinLatent (old l : List Change) : List Change :=
  l.foldl (fun acc c => acc.filter (fun d => !supersedes c d) ++ [c]) old

/-- The context whose latent set a command's changes join (R147, R171). -/
def stageCtx (p : Packet) : Nat := (actsAs p.source).getD 0

/-- The changes join the source's latent set, or NO_RESOURCE (R166): code 0x06 for the quota, 0x07 for the device.
CTX0 stages nothing while a bundle load is open (R464); the load itself passes `inLoad`. -/
def stage (p : Packet) (l : List Change) (s : State) (body : List Byte) : Verdict :=
  let x := stageCtx p
  let s' := s.modCtx x fun c => { c with latent := joinLatent c.latent l }
  if latentUse s' x > quotaOf s x 6 then .refuse stResource 6
  else if total ((List.range 64).map (latentUse s')) > deviceTotal 6 then .refuse stResource 7
  else .reply s' stOk stagedDetail body

/-- A latent command of CTX0 while a bundle load is open (R464, R465). -/
def bundleOpen (s : State) (p : Packet) (v : Verdict) : Verdict :=
  if stageCtx p = 0 && s.bundle.isSome then .refuse stState 0x0A0A00 else v

end Sys2Proof.Machine
end

