-- ==== Sys2Proof/Machine/Census.lean ====
section
/-!
DEFINITION. The identifier census (R557 to R559) and its commands (R563, R564).
-/

namespace Sys2Proof.Machine

/-- Entries the census holds (R558). -/
def censusSize : Nat := 8192

/-- The frame header a census entry stands for. -/
def censusHdr (e : CensusEntry) : Hdr :=
  { fmt := e.fmt, ide := e.ide, rtr := e.rtr, brs := false, esi := false, sec := false, ident := e.ident, af := 0 }

/-- The foreign declaration with an entry's arbitration sequence (R558 DECLARED). -/
def censusDecl (s : State) (e : CensusEntry) : Option Decl :=
  ((recordsOn s e.channel).find? fun r => r.2.decl.foreign && arbSeq r.2.decl.hdr == arbSeq (censusHdr e)).map (·.2.decl)

/-- FLAGS of an entry (R558). -/
def censusFlags (s : State) (e : CensusEntry) : Nat :=
  fmtCode e.fmt + flag e.ide 4 + flag e.rtr 8 + flag (censusDecl s e).isSome 16 + flag e.lost 32

/-- The 32 bytes of an entry, its CHANNEL written as `ch` (R558). -/
def censusBytes (s : State) (e : CensusEntry) (ch : Nat) : List Byte :=
  le 1 ch ++ le 1 (censusFlags s e) ++ le 2 e.maxlen ++ le 4 e.ident ++ le 8 e.first ++ le 8 e.last ++ le 4 e.count ++ zeros 4

/-- Contexts that hear of the census of a channel (R566). -/
def censusCtxs (s : State) (ch : Nat) : List Nat :=
  (List.range 64).filter fun c => c == 0 || (hasRight s c 4 && chanRight s c ch ≥ 1)

/-- A census event about an entry (R566). -/
def censusEvent (code n : Nat) (e : CensusEntry) (rest : List Byte) (s : State) : State :=
  forEach (censusCtxs s e.channel) (fun c s => raiseEvent c code
    (le 1 (virtChan s c e.channel) ++ le 1 (censusFlags s e) ++ le 2 n ++ le 4 e.ident ++ rest) s) s

/-- The census settings of a channel (R564). -/
def censusSet (s : State) (ch : Nat) : CensusSet := tget s.census.sets ch censusSetReset

/-- The entry takes its place in the census. -/
def putCensus (n : Nat) (e : CensusEntry) (s : State) : State :=
  { s with census := { s.census with entries := mset s.census.entries n e } }

/-- A valid frame from another node reaches the census (R557, R559). -/
def censusFrame (ch : Nat) (h : Hdr) (len stamp : Nat) (s : State) : State :=
  match s.census.entries.find? fun e => e.2.channel == ch && e.2.fmt == h.fmt && e.2.ide == h.ide && e.2.rtr == h.rtr
      && e.2.ident == h.ident with
  | some (n, e) =>
    let e' := { e with last := stamp, count := inc32 e.count, maxlen := max e.maxlen len, lost := false }
    let s := putCensus n e' s
    if e.lost then censusEvent 0x0D12 n e' (le 8 e.last) s else s
  | none =>
    if !(censusSet s ch).record_ then s
    else match firstBelow censusSize fun n => (mget s.census.entries n).isNone with
      | some n =>
        let e : CensusEntry :=
          { channel := ch, fmt := h.fmt, ide := h.ide, rtr := h.rtr, ident := h.ident, maxlen := len, first := stamp,
            last := stamp, count := 1, lost := false }
        let s := putCensus n e s
        let new := (censusSet s ch).new
        if new = 2 || (new = 1 && (censusDecl s e).isNone) then censusEvent 0x0D10 n e [] s else s
      | none =>
        let s := { s with census := { s.census with fullDrops := inc16 s.census.fullDrops } }
        if s.census.fullSent then s
        else
          let s := { s with census := { s.census with fullSent := true } }
          forEach (censusCtxs s ch) (fun c s => raiseEvent c 0x0D13
            (le 1 (virtChan s c ch) ++ zeros 3 ++ le 4 h.ident) s) s

/-- How long an entry may stay silent before it is lost, in ns; none when it is not judged (R559). -/
def censusLimit (s : State) (e : CensusEntry) : Option Nat :=
  let t := censusSet s e.channel
  if !t.lost then none
  else match censusDecl s e with
    | some d => some (t.factor * d.period + d.jitter)
    | none => if t.lostTime = 0 then none else some (t.lostTime * msNs)

/-- One entry is judged (R559). -/
def judgeLost (n : Nat) (s : State) : State :=
  match mget s.census.entries n with
  | none => s
  | some e =>
    match censusLimit s e with
    | none => s
    | some l =>
      if e.lost || s.now < e.last + l then s
      else
        let e' := { e with lost := true }
        censusEvent 0x0D11 n e' (le 8 e.last) (putCensus n e' s)

/-- CENSUS_LOST_JUDGEMENT (R559): every entry is judged, at every whole millisecond of the reference count. DESIGN CHOICE: the spec
gives the judgements no phase (log entry 62). -/
def execCensusLostJudgement (s : State) : Host.Outcome State Fault Refusal :=
  let s := reachClk ((s.census.judgedAt / msNs + 1) * msNs) s
  let s := { s with census := { s.census with judgedAt := s.time.clk } }
  next (forEach (s.census.entries.map (·.1)) judgeLost s)

/-! ### Commands -/

/-- The physical channels a source may read in the census (R165, R563). -/
def censusReadable (s : State) (src : Source) (ch : Nat) : Bool :=
  match guestOf src with
  | none => true
  | some g => chanRight s g ch ≥ 1

/-- GET_CENSUS (R563). -/
def getCensus (p : Packet) (s : State) : Verdict :=
  let v := byteAt p.params 0
  let start := fieldAt p.params 2 2
  let ch := if v = 0xFF then none else srcChan s p.source v
  badParam (v ≠ 0xFF && (v ≥ 64 || ch.isNone)) 0 <|
  badParam (!zeroAt p.params 1 1) 1 <|
    let all := s.census.entries.filter fun e => match ch with
      | some c => e.2.channel == c
      | none => censusReadable s p.source e.2.channel
    let from_ := all.filter fun e => start ≤ e.1
    let shown := from_.take 7
    let nx := match (from_.drop 7).head? with | some e => e.1 | none => 0xFFFF
    let g := (guestOf p.source).getD 0
    okBody s (le 1 shown.length ++ zeros 1 ++ le 2 nx ++ le 2 all.length ++ le 2 s.census.fullDrops ++ le 8 (stampNow s)
      ++ padTo 224 (shown.flatMap fun e => censusBytes s e.2 (virtChan s g e.2.channel)))

/-- GET_CENSUS: its row of the opcode index. -/
def specGetCensus : CmdSpec :=
  { opcode := 0x0D03, plen := plenIs 1, right := fromAllRight 4, needs := needsOf [2, 5], readOnly := true }

/-- GET_CENSUS (R563). -/
def execGetCensus (p : Packet) (s : State) : Host.Outcome State Fault Refusal :=
  next (runCommand specGetCensus getCensus p s)

/-- CLEAR_CENSUS (R559, R563). -/
def clearCensus (p : Packet) (s : State) : Verdict :=
  let v := byteAt p.params 0
  badParam (v ≠ 0xFF && v ≥ 64) 0 <|
  badParam (!zeroAt p.params 1 3) 1 <|
    okDone { s with census := { s.census with
      entries := s.census.entries.filter fun e => v ≠ 0xFF && e.2.channel != v, fullDrops := 0, fullSent := false } }

/-- CLEAR_CENSUS: its row of the opcode index. -/
def specClearCensus : CmdSpec :=
  { opcode := 0x0D04, plen := plenIs 1, right := fromCtx0, needs := needsOf [2, 5], readOnly := false }

/-- CLEAR_CENSUS. -/
def execClearCensus (p : Packet) (s : State) : Host.Outcome State Fault Refusal :=
  next (runCommand specClearCensus clearCensus p s)

/-- SET_CENSUS_EVENTS (R564), in its PLEN 1 and PLEN 2 forms. -/
def setCensusEvents (p : Packet) (s : State) : Verdict :=
  let ch := byteAt p.params 0
  let f := byteAt p.params 1
  let factor := byteAt p.params 2
  let lt := if p.plen = 2 then some (fieldAt p.params 4 2) else none
  badParam (ch ≥ 64) 0 <|
  badParam (f ≥ 16 || bitsOf f 1 2 = 3) 1 <|
  badParam (!zeroAt p.params 3 1) 3 <|
  badParam (!zeroAt p.params 6 2) 6 <|
  bundleOpen s p <|
    stage p [.census ch (bitOf f 0) (bitsOf f 1 2) (bitOf f 3) (if factor = 0 then 3 else factor) lt] s []

/-- SET_CENSUS_EVENTS: its row of the opcode index. -/
def specSetCensusEvents : CmdSpec :=
  { opcode := 0x0D05, plen := fun n => n == 1 || n == 2, right := fromCtx0, needs := needsOf [2, 5], readOnly := false }

/-- SET_CENSUS_EVENTS (R564). -/
def execSetCensusEvents (p : Packet) (s : State) : Host.Outcome State Fault Refusal :=
  next (runCommand specSetCensusEvents setCensusEvents p s)

end Sys2Proof.Machine
end

