-- ==== Sys2Proof/Machine/Channel.lean ====
section
/-!
DEFINITION. Channel operations (R196 to R222, R259 to R263): settings and STBN, the latch and the end of an attempt,
reception, stop baths and held enables, power and clock holds.
-/

namespace Sys2Proof.Machine

/-! ### Settings, mode and STBN -/

/-- The device is in ACTIVE (R72). -/
def inActive (s : State) : Bool := s.aon.power == .active

/-- The STBN level of a channel (R223). -/
def stbnHigh (s : State) (ch : Nat) : Bool :=
  let c := s.chan ch
  inActive s && (c.settleWait || c.state != .powerHeld) &&
    match c.cur.xcvr.stbn with
    | 0 => c.settleWait || c.state != .disabled
    | 1 => true
    | _ => false

/-- A mode in which transmit objects are latched (R200). -/
def sendsFrames (mode : Nat) : Bool := mode == 0 || mode == 3 || mode == 4

/-- A loopback mode (R200). -/
def loopMode (mode : Nat) : Bool := mode == 3 || mode == 4

/-- Settings that waited for the frame to end take over (R205). -/
def takeSettings (ch : Nat) (s : State) : State :=
  let c := s.chan ch
  match c.next with
  | none => s
  | some n =>
    judgeMode ch (s.modChan ch fun c => { c with cur := n, next := none, mode := c.nextMode.getD c.mode, nextMode := none })

/-- The capture cell takes RXD's edges, each the pair of a rise and the fall after it, oldest first: a fall less than 20 ns after
the rise is not captured (R28, R624). -/
def captureEdges (edges : List (Nat × Nat)) (c : Chan) : Chan :=
  { c with capture := edges.foldl (fun t e => if e.1 + 20 ≤ e.2 then e.2 else t) c.capture }

/-- The captured value that a bank engine claims as a frame-start stamp: never 0 (R28, R357). -/
def claimStamp (c : Chan) : Nat := if c.capture = 0 then 1 else c.capture

/-- A channel past its IDLE_LIMIT has seen its next frame end: its changes switch when this intermission ends (R176).
`late` holds the channel's number until then and 64 more from now on. A frame on the bus when IDLE_LIMIT expires is its next frame,
and bus idle met first switches as late too (log entry 74). -/
def markLate (ch : Nat) (s : State) : State :=
  { s with ctxs := vmap s.ctxs fun x =>
    { x with armed := x.armed.map fun a => { a with late := a.late.map fun c => if c = ch then ch + 64 else c } } }

/-- The bus of the channel enters intermission, or suspend transmission after it (R205, R257, R268). -/
def enterIntermission (ch : Nat) (phase : BusPhase) (s : State) : State :=
  takeSettings ch (markLate ch (s.modChan ch fun c => { c with bus := phase, stretch := false }))

/-- An error frame or overload frame has ended with its intermission when the channel latches a candidate or meets the next frame
(R205, R209, R268). -/
def endErrorFrame (ch : Nat) (s : State) : State :=
  if (s.chan ch).bus == .errorFrame then enterIntermission ch .intermission s else s

/-- A bus phase with no frame, error frame or overload frame on it: a stop bath that starts here ends at once (R203; log entry 77 for
suspend transmission and bus integration). -/
def quiet (c : Chan) : Bool :=
  match c.bus with
  | .idle => true
  | .intermission => true
  | .suspend => true
  | .integration => true
  | _ => false

/-- The channel's own frame is on the bus. -/
def sendingNow (c : Chan) : Bool := match c.bus with | .sending _ => true | _ => false

/-- The channel's own frame is on the bus and has won arbitration (R213). -/
def wonNow (c : Chan) : Bool := match c.bus with | .sending w => w | _ => false

/-! ### Candidate latch (R209, R210, R370) -/

/-- The heap entry the engine would latch now (R209, R370). -/
def candidate (s : State) (ch : Nat) : Option (Nat × Mo) :=
  let due := fun (m : Nat × Mo) => match m.2.armed with | some t => decide (t ≤ s.now) | none => true
  match (s.chan ch).bus with
  | .idle => match heapTop s ch with
    | some m => if due m then some m else none
    | none => none
  | .intermission => heapFirst ((heapOf s ch).filter due)
  | .errorFrame => heapFirst ((heapOf s ch).filter due)
  | .suspend => heapFirst ((heapOf s ch).filter due)
  | _ => none

/-- Object `mo` becomes the channel's latched candidate; its start of frame follows at `sof` (R209, R210). -/
def latch (ch mo sof : Nat) (s : State) : State :=
  let s := s.modMo mo fun o => { o with latched := true, latchedHdr := some (moHdr o) }
  s.modChan ch fun c => { c with latched := some mo, sof := sof, cancelled := false, bathCancel := false, cancelling := [], cellBad := false }

/-- The latched frame drives its start of frame (R206, R213). A channel whose mode sends no frame drives none (R200). -/
def driveSof (ch : Nat) (s : State) : State :=
  if (s.chan ch).latched.isNone || sendingNow (s.chan ch) || !sendsFrames (s.chan ch).mode then s
  else
    let s := noteStart ch (reachTime (s.chan ch).sof s)
    s.modChan ch fun c => { c with bus := .sending false, wasTx := false }

/-! ### End of an attempt (R214, R215, R219, R295) -/

/-- Result bytes of CANCEL_TX. -/
def cancelBody (outcome result stamp : Nat) : List Byte := le 1 outcome ++ le 1 result ++ zeros 2 ++ le 8 stamp

/-- The replies to the CANCEL_TX commands that wait on the latched frame (R219). -/
def answerCancels (ch status outcome result stamp : Nat) (s : State) : State :=
  let l := (s.chan ch).cancelling
  forEach l (fun p s => replyTaken p status 0 (cancelBody outcome result stamp) s) (s.modChan ch fun c => { c with cancelling := [] })

/-- The channel no longer holds a latched candidate. -/
def clearLatch (ch : Nat) (s : State) : State :=
  s.modChan ch fun c => { c with latched := none, cancelled := false, bathCancel := false, cancelling := [], cellBad := false }

/-- The object is no longer latched and competes again (R214). -/
def unlatch (mo : Nat) (s : State) : State := s.modMo mo fun o => { o with latched := false, latchedHdr := none, noticed := false }

/-- Every cancel of the latched frame has OUTCOME 0x01 (R219, R232). -/
def countCancels (ch : Nat) (s : State) : State := forRange (cancelsOf (s.chan ch)) (fun _ s => countCancel ch false s) s

/-- The latched frame lost arbitration or was released unsent (R219, R295). One with an uncorrectable cell completes with
RESULT 0x5 all the same (R36, R212). -/
def endUnsent (ch : Nat) (s : State) : State :=
  match (s.chan ch).latched with
  | none => s
  | some mo =>
    match s.mo? mo with
    | none => clearLatch ch s
    | some o =>
      let bad := (s.chan ch).cellBad
      let r := if bad then 5 else withdrawnResult o
      if (s.chan ch).cancelled then
        let s := endLive mo (completeLive mo r (countCancels ch s))
        clearLatch ch (answerCancels ch stOk 1 r 0 s)
      else if bad || o.shadow then clearLatch ch (endLive mo (completeLive mo r (if bad then failRelease mo s else s)))
      else clearLatch ch (unlatch mo s)

/-- The latched frame's attempt failed (R214, R215, R219, R295); RESULT 0x5 when an uncorrectable cell ended it (R212). -/
def endFailed (ch : Nat) (s : State) : State :=
  match (s.chan ch).latched with
  | none => s
  | some mo =>
    let s := noteStart ch s
    match s.mo? mo with
    | none => clearLatch ch s
    | some o =>
      let c := s.chan ch
      let r := if c.cellBad then 5 else 2
      if c.cancelled then
        let s := if wonNow c then s else countCancels ch s
        let s := endLive mo (completeLive mo r s)
        clearLatch ch (answerCancels ch stOk 1 r 0 s)
      else if c.cellBad || o.single || o.shadow then
        clearLatch ch (endLive mo (completeLive mo r (if c.cellBad || o.single then failRelease mo s else s)))
      else
        let s := s.modChan ch fun c => { c with counters := { c.counters with retx := inc32 c.counters.retx } }
        clearLatch ch (unlatch mo (s.modMo mo fun o => { o with failed := true }))

/-- The latched frame was sent with success (R213, R295). -/
def endSent (ch : Nat) (s : State) : State :=
  match (s.chan ch).latched with
  | none => s
  | some mo =>
    let s := s.modMo mo fun o => { o with frames := inc32 o.frames }
    let s := succeedOwn mo (completeLive mo 0 s)
    clearLatch ch (endLive mo s)

/-- The record of the channel's own frame on the bus, as the filmstrip has it (R274). -/
def filmOwn (ch kind : Nat) (s : State) : State :=
  match (s.chan ch).latched with
  | none => s
  | some mo => match s.mo? mo with
    | none => s
    | some o =>
      let h := o.latchedHdr.getD (moHdr o)
      filmRecord ch kind (filmFrameInfo h (frontOf o).record.len) h.ident (s.chan ch).sof s

/-- The channel's own frame on the bus loses arbitration: it is counted and recorded, and its object stays pending (R213, R214,
R219, R274). -/
def loseFrame (ch : Nat) (s : State) : State :=
  let s := s.modChan ch fun c => { c with counters := { c.counters with arbLost := inc32 c.counters.arbLost }, bus := .receiving }
  endUnsent ch (filmOwn ch 3 s)

/-- The latched frame, wherever it stands, ends at this edge without completing: not started it stays queued, started it has lost
arbitration, and won it is a failed attempt (R18). -/
def endAtEdge (ch : Nat) (s : State) : State :=
  let s := if sofDriven s ch then driveSof ch s else s
  if wonNow (s.chan ch) then endFailed ch s
  else if sendingNow (s.chan ch) then loseFrame ch s
  else endUnsent ch s

/-! ### Reception (R332) -/

/-- The frame being received is rewound: its cells are freed and REWINDS counts it (R332). -/
def rewindRx (ch : Nat) (s : State) : State :=
  match (s.chan ch).rx with
  | none => s
  | some r =>
    let s := s.modChan ch fun c => { c with rx := none, chqClaim := 0 }
    if r.dropped then s
    else fcAt (.chq, ch) (qFill s (.chq, ch)) true (modStat (.chq, ch) (fun t => { t with rewinds := inc32 t.rewinds }) s)

/-- The channel takes no further part in what is on the bus: its latched frame ends at this edge, its reception is rewound. The
error stretch goes on to the next completed bus integration where that is what the channel waits for (R268). -/
def leaveBus (ch : Nat) (phase : BusPhase) (s : State) : State :=
  let s := rewindRx ch (endAtEdge ch s)
  takeSettings ch (s.modChan ch fun c => { c with bus := phase, wasTx := false, stretch := phase == .integration && c.stretch })

/-! ### Stop bath events (R180) -/

/-- An event of a channel's stop bath, 0x04F0 to 0x04F2, to a command source's context (R180). -/
def chanBathEvent (ch code : Nat) (c : Nat) (s : State) : State :=
  raiseEvent c code (le 1 1 ++ zeros 1 ++ le 2 (virtChan s c ch)) s

/-- The context to tell of a stop bath that no command started: the owner, or CTX0 while the owner departs (R180). -/
def bathOwner (s : State) (owner : Nat) : Nat := if (s.ctx owner).state == .departing || (s.ctx owner).state == .held then 0 else owner

/-! ### Enabling (R199, R207) -/

/-- SETTLE of the channel in ns of the reference (R233). -/
def settleNs (c : Chan) : Nat := c.cur.xcvr.settle * usNs

/-- The SETTLE wait of an enable, or of a return from POWER_HELD, begins (R207). -/
def startSettle (ch : Nat) (p : Option Packet) (s : State) : State :=
  s.modChan ch fun c => { c with settleWait := true, settling := p, settleEnd := s.time.clk + settleNs c }

/-- An enable is applied to a DISABLED channel: mode, counters, STBN, SETTLE (R199, R207, R265). -/
def applyEnable (ch mode : Nat) (p : Option Packet) (s : State) : State :=
  let d := devSettings (s.chan ch)
  let m := if mode = 0xFF then d.mode else mode
  let s := if s.update.savedModes.isEmpty then s
    else { s with update := { s.update with savedModes := lmod s.update.savedModes ch fun _ => m } }
  let s := s.modChan ch fun c =>
    { c with cur := d, next := none, nextMode := none, mode := safelitMode s m,
             ackRun := 0, bus := .idle, wasTx := false, stretch := false, wasBusOff := false }
  startSettle ch p (changeCounters ch (fun c => { c with tec := 0, recErr := 0 }) s)

/-- Result bytes of ENABLE_CHANNEL. -/
def enableBody (state stamp : Nat) : List Byte := le 1 state ++ zeros 3 ++ le 8 stamp

/-- The enable whose SETTLE wait runs is answered (R207). -/
def answerEnable (ch state stamp : Nat) (s : State) : State :=
  match (s.chan ch).settling with
  | none => s
  | some p => replyTaken p stOk 0 (enableBody state stamp) (s.modChan ch fun c => { c with settling := none })

/-- The channel enters INTEGRATING (R197). -/
def enterIntegrating (ch : Nat) (s : State) : State :=
  let s := s.modChan ch fun c => { c with settleWait := false, bus := .integration }
  judgeMode ch (enterState ch .integrating s)

/-! ### Bus-off (R259 to R263, R270) -/

/-- The channel waits in BUS_OFF from now on (R262, R263). -/
def enterBusOffState (ch : Nat) (s : State) : State :=
  enterState ch .busOff (s.modChan ch fun c => { c with busOffAt := s.time.clk, progress := 0, settleWait := false })

/-! ### Stop bath (R197, R203, R204) -/

/-- What a power-state entry does to a channel that waits for SETTLE (R207). -/
def holdSettling (ch : Nat) (s : State) : State :=
  let s := s.modChan ch fun c => { c with settleWait := false, wasBusOff := false }
  answerEnable ch 7 0 (enterState ch .powerHeld s)

/-- A power-state entry is under way or done (R84). -/
def powerBlocks (s : State) : Bool :=
  !(inActive s) || match s.aon.transition with
    | some t => t.target != .active
    | none => false

/-- The channel's stop bath ends (R180, R197, R203): DISABLED or POWER_HELD, event 0x04F0, and a held enable is applied. -/
def endStop (ch : Nat) (s : State) : State :=
  let c := s.chan ch
  let off := c.state == .busOff || c.state == .recovering
  let s := endUnsent ch s
  let s := rewindRx ch s
  let s := s.modChan ch fun c => { c with stop := none, held := none }
  match c.stop with
  | some .power =>
    let s := enterState ch .powerHeld (s.modChan ch fun c => { c with wasBusOff := off })
    let o := bathOwner s (chanOwner s ch)
    chanBathEvent ch 0x04F0 o s
  | some (.disable by_) =>
    let s := enterState ch .disabled s
    let s := chanBathEvent ch 0x04F0 (ctxOf by_) s
    match c.held with
    | none => s
    | some h =>
      let s := applyEnable ch h.mode none s
      let s := chanBathEvent ch 0x04F1 (ctxOf h.by_) s
      if powerBlocks s then holdSettling ch s else s
  | none => s

/-- The channel leaves its bus for good at once: no stop bath runs (R197). -/
def leaveAtOnce (ch : Nat) (new : ChanState) (s : State) : State :=
  let off := (s.chan ch).state == .busOff || (s.chan ch).state == .recovering
  let s := leaveBus ch .idle s
  enterState ch new (s.modChan ch fun c => { c with wasBusOff := off && new != .disabled, settleWait := false })

/-- A RUNNING channel starts its stop bath; with the bus quiet it ends at once (R203). -/
def startStop (ch : Nat) (cause : StopCause) (s : State) : State :=
  let s := enterState ch .stopping (s.modChan ch fun c => { c with stop := some cause, held := none })
  let s := if sofDriven s ch then driveSof ch s else endUnsent ch s
  if quiet (s.chan ch) then endStop ch s else s

/-- Entry into STANDBY, RETAIN or OFF reaches the channel (R75, R197, R207). -/
def powerEnterChan (ch : Nat) (s : State) : State :=
  match (s.chan ch).state with
  | .running => startStop ch .power s
  | .integrating => leaveAtOnce ch .powerHeld s
  | .exception => leaveAtOnce ch .powerHeld s
  | .busOff => leaveAtOnce ch .powerHeld s
  | .recovering => leaveAtOnce ch .powerHeld s
  | .disabled => if (s.chan ch).settleWait then holdSettling ch s else s
  | .powerHeld => s.modChan ch fun c => { c with settleWait := false }
  | _ => s

/-- Return to ACTIVE reaches the channel (R197, R76, R263). -/
def powerLeaveChan (ch : Nat) (s : State) : State :=
  let c := s.chan ch
  if c.state != .powerHeld then s
  else
    let s := restartPeriods ch s
    if c.wasBusOff then enterBusOffState ch s
    else if c.cur.xcvr.stbn = 2 then enterIntegrating ch s
    else startSettle ch none s

/-- The header of the frame on the bus, own or received, as far as the channel knows it. -/
def frameHeader (c : Chan) (s : State) : Option Hdr :=
  if sendingNow c then (c.latched.bind s.mo?).map fun o => o.latchedHdr.getD (moHdr o) else c.rx.map (·.hdr)

/-- TDCF of the data phase whose loop delay the own frame on the bus measures, in LOOP_INT too; none when it measures none (R243,
R244; log entry 78). -/
def measuredTdcf (c : Chan) (s : State) : Option Nat :=
  let mode1 := fun (t : Option BitTiming) => t.bind fun x => if x.tdc = 1 then some x.tdcf else none
  if !wonNow c then none
  else match frameHeader c s with
    | some h => match h.fmt with
      | .cc => none
      | .fd => if h.brs then mode1 c.cur.fdData else none
      | .xl => mode1 c.cur.xlData
    | none => none

/-- A measured TDCV is one that the frame can have: an edge earlier than TDCF is ignored (R244). -/
def tdcvOf (c : Chan) (s : State) (v : Option (Fin 128)) : Option Nat :=
  match measuredTdcf c s, v with
  | some f, some x => if f ≤ x.val then some x.val else none
  | _, _ => none

/-- The TDCV measured in the own frame on the bus is kept for its format (R244, R271). -/
def noteTdcv (ch : Nat) (v : Option (Fin 128)) (s : State) : State :=
  match tdcvOf (s.chan ch) s v with
  | none => s
  | some x => match frameHeader (s.chan ch) s with
    | none => s
    | some h => match h.fmt with
      | .cc => s
      | .fd => s.modChan ch fun c => { c with tdcvFd := some x }
      | .xl => s.modChan ch fun c => { c with tdcvXl := some x }

/-- The bank stops with its PLL (R17, R18, R197); `acked` says whether a frame on the bus had its acknowledge slot sampled dominant
before, an own one (R265, R267) or one received (R254), and `tdcv` what an own frame had measured (R244). A stop bath in progress ends at that edge (log entry 77). -/
def clockHoldChan (acked : Bool) (tdcv : Option (Fin 128)) (ch : Nat) (s : State) : State :=
  let c := s.chan ch
  if c.state == .disabled || c.state == .clockHeld then s
  else
    let off := c.state == .busOff || c.state == .recovering || (c.state == .powerHeld && c.wasBusOff)
    let s := noteTdcv ch tdcv s
    let s := if !acked || c.stretch then s
      else if wonNow c then ackSeen ch s
      else if c.rx.isSome && !sendingNow c && countsErrors c.mode then changeCounters ch recSuccess s
      else s
    let s := leaveBus ch .idle s
    let s := enterState ch .clockHeld (s.modChan ch fun c => { c with wasBusOff := off, settleWait := false })
    if c.stop.isSome then endStop ch s else s

/-- The bank's PLL has relocked (R17, R197, R263). -/
def clockReleaseChan (ch : Nat) (s : State) : State :=
  let c := s.chan ch
  if c.state != .clockHeld then s
  else if c.wasBusOff then enterBusOffState ch s
  else enterIntegrating ch s

/-- TEC has exceeded 255 (R259, R260, R270, R264, R275). -/
def goBusOff (ch : Nat) (s : State) : State :=
  let stopping := (s.chan ch).stop.isSome
  let s := rewindRx ch (endFailed ch s)
  let s := takeSettings ch (s.modChan ch fun c => { c with
    bus := .idle, stretch := false, counters := { c.counters with busOffs := inc32 c.counters.busOffs } })
  let s := enterBusOffState ch s
  let s := latchCause ch 3 noRecord (stampNow s) s
  let s := if (s.chan ch).freeze.getLsbD 0 then filmFreeze 1 ch s else s
  if stopping then endStop ch s else s

/-- After a change of the counters: BUS_OFF once TEC exceeds 255 (R257, R259). -/
def judgeBusOff (ch : Nat) (s : State) : State :=
  if (s.chan ch).tec > 255 && onBus (s.chan ch) then goBusOff ch s else s

end Sys2Proof.Machine
end

