-- ==== Sys2Proof/Machine/ChannelEvents.lean ====
section
/-!
DEFINITION. What happens on a channel's bus (chapters *Channel protocol engine*, *Error confinement and recovery*): latch,
arbitration, reception, distribution, success, errors, bus integration, recovery.
-/

namespace Sys2Proof.Machine

/-! ### Latch and arbitration (R209, R213) -/

/-- The candidate is latched; its start of frame follows at `stamp` (R209, R357). An edge in the past is the present one. With a
parity error on its way to the bank the candidate is dropped and counted, and competes again (R21). -/
def latchCandidate (ch stamp : Nat) (parity : Bool) (s : State) : State :=
  let c := s.chan ch
  if c.state != .running || c.latched.isSome || (candidate s ch).isNone then s
  else
    let s := endErrorFrame ch s
    if !sendsFrames (s.chan ch).mode then s
    else match candidate s ch with
      | some (mo, _) => if parity then parityDrop 5 s else latch ch mo (max 1 (max stamp s.now)) s
      | none => s

/-- CANDIDATE_LATCH (R21, R209, R210). -/
def execCandidateLatch (ch : Fin 64) (stamp : Nat) (parity : Bool) (s : State) : Host.Outcome State Fault Refusal :=
  next (latchCandidate ch.val stamp parity s)

/-- The channel loses arbitration and receives the frame on (R213, R214, R219). -/
def loseArbitration (ch : Nat) (s : State) : State :=
  let c := s.chan ch
  if !onBus c || c.latched.isNone || wonNow c || !sendsFrames c.mode then s else loseFrame ch (driveSof ch s)

/-- The channel wins arbitration: a cancel that waits has come too late (R213, R219). -/
def winArbitration (ch : Nat) (s : State) : State :=
  let c := s.chan ch
  if !onBus c || c.latched.isNone || wonNow c || !sendsFrames c.mode then s
  else
    let s := (driveSof ch s).modChan ch fun c => { c with bus := .sending true }
    let s := forEach (s.chan ch).cancelling (fun _ s => countCancel ch true s) s
    answerCancels ch stTooLate 2 0xF (s.chan ch).sof s

/-! ### Reception (R320, R332, R334) -/

/-- The channel's own frame reaches its own receiver: loopback, after arbitration is won (R200). -/
def ownReception (c : Chan) : Bool := loopMode c.mode && wonNow c

/-- Another node's frame can be under way: the channel listens and sends nothing (R200). -/
def foreignReception (c : Chan) : Bool :=
  c.mode != 3 && c.latched.isNone && match c.bus with
    | .sending _ => false
    | .integration => false
    | _ => true

/-- An XL frame of a SAFELIGHT channel with FAST 1 is never delivered (R201). -/
def fastHidden (c : Chan) (h : Hdr) : Bool := c.mode == 1 && c.cur.xcvr.fast && h.fmt == .xl

/-- One cell of the packet under reception is claimed (R332, R341). -/
def claimCell (ch : Nat) (s : State) : State :=
  countHwm (.chq, ch) (s.modChan ch fun c => { c with chqClaim := c.chqClaim + 1 })

/-- Cells of the packet under reception are claimed one at a time; one that finds the queue full rewinds the packet (R341, R342). -/
def claimCells (ch first : Nat) : Nat → State → State × Bool
  | 0, s => (s, false)
  | n + 1, s =>
    if fits s (.chq, ch) 1 then claimCells ch first n (claimCell ch s)
    else (dropPacket (.chq, ch) (0x0100 + ch) 1 ch first (s.modChan ch fun c => { c with chqClaim := 0 }), true)

/-- The payload cells of the frame under reception are written as its bytes arrive: `bytes` of them have come when the frame ends
(R332; log entry 54). -/
def claimPayload (ch bytes : Nat) (s : State) : State :=
  match (s.chan ch).rx with
  | none => s
  | some r =>
    if r.dropped then s
    else
      let v := claimCells ch r.first (ceilDiv bytes 64) s
      if v.2 then v.1.modChan ch fun c => { c with rx := some { r with dropped := true } } else v.1

/-- A header is complete: the delivery set is decided by the filters then in force (R315, R320, R321). -/
def takeHeader (ch : Nat) (h : Hdr) (stamp decision : Nat) (s : State) : State :=
  let v := filterFrame s.filters ch h
  let first := stampNow s
  let (s, dropped) := claimCells ch first 1 s
  s.modChan ch fun c => { c with
    rx := some { hdr := h, first := first, dropped := dropped, stamp := stamp, dests := v.1, matched := v.2, decision := decision }
    filters := { c.filters with decisionMax := max c.filters.decisionMax decision } }

/-- The header that an own frame shows its own receiver: ESI recessive in an FD frame while error passive (R192). -/
def ownHeader (c : Chan) (o : Mo) : Hdr :=
  let h := o.latchedHdr.getD (moHdr o)
  { h with esi := h.fmt == .fd && errState c == 1 }

/-- Another node starts a frame: the capture cell's value is its frame-start stamp (R28, R213, R232). -/
def foreignStart (ch : Nat) (edges : List (Nat × Nat)) (s : State) : State :=
  let s := s.modChan ch (captureEdges edges)
  let stamp := claimStamp (s.chan ch)
  (reachTime stamp s).modChan ch fun c => { c with bus := .receiving, wasTx := false, lastSof := stamp }

/-- A frame's header is complete on the channel (R320); `edges` are those of RXD since the frame before (R624). -/
def headerDone (ch : Nat) (h : Hdr) (edges : List (Nat × Nat)) (decision : Nat) (s : State) : State :=
  let c := s.chan ch
  if !onBus c || c.rx.isSome then s
  else if ownReception c then
    match c.latched.bind s.mo? with
    | some o => takeHeader ch (ownHeader c o) c.sof decision s
    | none => s
  else
    let s := endErrorFrame ch s
    if !foreignReception (s.chan ch) then s
    else
      let s := foreignStart ch edges s
      let c := s.chan ch
      if fastHidden c h || !c.cur.formats.testBit (fmtCode h.fmt) then s
      else takeHeader ch h (claimStamp c) decision s

/-- The stamp of the frame under reception was dropped on its way from TIME to the bank (R21, R23): the frame goes on, and what its
record shows as STAMP is open (log entry 4). -/
def dropStamp (ch : Nat) (s : State) : State :=
  if (s.chan ch).rx.isNone then s
  else
    let t := 1 + freeAt s 0 % (2 ^ 64 - 1)
    parityDrop 12 ((drawn 1 s).modChan ch fun c => { c with rx := c.rx.map fun r => { r with stamp := t } })

/-- A hand-off joins those that wait: behind every one latched before it, and among those of its own edge by its rank (R455). -/
def latchHandoff (h : Handoff) : List Handoff → List Handoff
  | [] => [h]
  | x :: l => if x.clk = h.clk && h.rank < x.rank then h :: x :: l else x :: latchHandoff h l

/-- A route hand-off to the lane of an inbound PDU, on a path of R23 (R317, R440). A PDU that does not exist takes nothing. -/
def handOff (n : Nat) (data : List Byte) (path origin rank : Nat) (s : State) : State :=
  match mget s.pdus n with
  | none => s
  | some p => s.modLane p.set.lane fun l => { l with
      waiting := latchHandoff { pdu := n, data := data, path := path, clk := s.time.clk, origin := origin, rank := rank } l.waiting }

/-- The PDUs of a delivery set, in ascending number. -/
def routePdus (l : List Dest) : List Nat :=
  sortBy (fun a b => a ≤ b) (l.filterMap fun d => match d with | .route p => some p | _ => none)

/-- A destination outside the routing engine: it holds CHQ cells (R334). -/
def isCopy : Dest → Bool
  | .route _ => false
  | _ => true

/-- The packet of a valid frame commits: hand-offs at once, a CHQ entry while copies are to be made (R331, R332, R334). -/
def commitPacket (ch : Nat) (f : Frame) (s : State) : State :=
  let s := claimPayload ch f.len s
  match (s.chan ch).rx with
  | none => s
  | some r =>
    let s := s.modChan ch fun c => { c with rx := none, chqClaim := 0 }
    if r.dropped then s
    else
      let s := forEach (routePdus r.dests) (fun p s => handOff p f.data 2 (stampNow s) ch s) s
      let s := countPacket (.chq, ch) (s.modChan ch fun c => { c with chq := c.chq ++ [{ frame := f, dests := r.dests }] })
      if r.dests.any isCopy then s else s.modChan ch fun c => { c with chq := c.chq.dropLast }

/-- The counters of a valid frame's judgement (R318, R324, R328). -/
def countJudged (ch : Nat) (r : RxHeader) (s : State) : State :=
  let s := s.modChan ch fun c => { c with filters := { c.filters with
    judged := inc32 c.filters.judged, noMatch := if r.matched.isEmpty then inc32 c.filters.noMatch else c.filters.noMatch } }
  forEach r.matched (fun x s => modPair x ch (fun c => { c with matched := inc32 c.matched }) s) s

/-- LENGTH of a received frame: a CC frame has at most 8, and a remote frame has its DLC up to 8 (R120, R192, R194). -/
def rxLen (h : Hdr) (len : Nat) : Nat :=
  match h.fmt with
  | .cc => min len 8
  | _ => len

/-- Payload bytes that a frame with a given LENGTH carries: a remote frame has none (R194). -/
def payloadLen (h : Hdr) (len : Nat) : Nat := if h.fmt == .cc && h.rtr then 0 else len

/-- What a valid frame of another node does besides its delivery (R232, R254, R274, R410, R557). -/
def foreignValid (ch : Nat) (h : Hdr) (len stamp : Nat) (s : State) : State :=
  let s := s.modChan ch fun c => { c with counters := { c.counters with rxOk := inc32 c.counters.rxOk } }
  let s := if countsErrors (s.chan ch).mode then changeCounters ch recSuccess s else s
  let s := filmRecord ch 1 (filmFrameInfo h len) h.ident stamp s
  judgeForeign ch h (payloadLen h len) stamp (censusFrame ch h (payloadLen h len) stamp s)

/-- A frame reaches receive valid (R213). -/
def frameValid (ch len : Nat) (data : List Byte) (parity : Bool) (s : State) : State :=
  let c := s.chan ch
  match c.rx with
  | none => s
  | some r =>
    let own := ownReception c
    let b := ((c.latched.bind s.mo?).map frontOf).getD bufZero
    let len := if own then b.record.len else rxLen r.hdr len
    let f : Frame := { hdr := r.hdr, len := len, data := padTo (payloadLen r.hdr len) (if own then b.data else data), stamp := r.stamp }
    if !onBus c || !(own || c.bus == .receiving) || !lenOk r.hdr.fmt len then s
    else
      let s := if own then s else foreignValid ch r.hdr len r.stamp s
      let s := countJudged ch r s
      let s := if parity then parityDrop 0 ((claimPayload ch len s).modChan ch fun c => { c with rx := none, chqClaim := 0 })
        else commitPacket ch f s
      if own then s else (enterIntermission ch .intermission s).modChan ch fun c => { c with wasTx := false }

/-- FRAME_RECEIVED (R213). -/
def execFrameReceived (ch : Fin 64) (len : Fin 2049) (data : List Byte) (parity : Bool) (s : State) :
    Host.Outcome State Fault Refusal :=
  next (frameValid ch.val len.val data parity s)

/-- The record of a received frame (R121). -/
def rxRecord (ch : Nat) (f : Frame) (filter : Nat) : Rec :=
  { ty := 1, result := 0, hdr := f.hdr, channel := ch, len := f.len, filter := filter, stamp := f.stamp, mo := 0,
    moValid := false, lost := 0, tag := 0 }

/-- The payload bytes that an object holds after a frame: those behind the LENGTH of a remote frame are open (R194; log
entry 4). -/
def objectData (s : State) (f : Frame) : List Byte × State :=
  if f.data.length < f.len then ((le 4 (freeAt s 0) ++ le 4 (freeAt s 1)).take f.len, drawn 2 s) else (f.data, s)

/-- A copy into a receive object; an object that is not enabled drops it (R288). -/
def copyToObject (ch : Nat) (f : Frame) (mo filter : Nat) (s : State) : State :=
  let x := ((mget s.filters.entries filter).map (·.owner)).getD 0
  match s.mo? mo with
  | none => disabledDrop x ch filter s
  | some o =>
    if o.en && !o.tx && !o.errDis then
      let d := objectData s f
      commitReceive mo { rxRecord ch f filter with mo := mo, moValid := true } d.1 d.2
    else disabledDrop o.owner ch filter s

/-- The ring copies of a delivery set in ascending context number, then ring (R334). -/
def ringCopies (l : List Dest) : List (Nat × Nat × Nat) :=
  sortBy (fun a b => a.1 * 16 + a.2.1 ≤ b.1 * 16 + b.2.1)
    (l.filterMap fun d => match d with | .ring c k f => some (c, k, f) | _ => none)

/-- The distributor takes a committed packet: object copies first, then RXQ copies in ascending context number (R334). -/
def distribute (ch : Nat) (s : State) : State :=
  match (s.chan ch).chq with
  | [] => s
  | p :: rest =>
    let s := forEach p.dests (fun d s => match d with
      | .object m f => copyToObject ch p.frame m f s
      | _ => s) s
    let s := forEach (ringCopies p.dests) (fun d s =>
      pushRx d.1 { ring := d.2.1, record := rxRecord ch p.frame d.2.2, data := p.frame.data } s) s
    s.modChan ch fun c => { c with chq := rest }

/-- The committed packet at the head of a channel intake queue is dropped on its way to CORE (R21). -/
def dropCopy (ch : Nat) (s : State) : State :=
  if (s.chan ch).chq.isEmpty then s else parityDrop 0 (s.modChan ch fun c => { c with chq := c.chq.drop 1 })

/-- DISTRIBUTOR_COPY (R21, R334). -/
def execDistributorCopy (ch : Fin 64) (parity : Bool) (s : State) : Host.Outcome State Fault Refusal :=
  next (if !s.isReady 3 then s else if parity then dropCopy ch.val s else distribute ch.val s)

/-! ### End of an own frame (R213, R295) -/

/-- The phase after a frame the channel sent: an error-passive channel observes suspend transmission (R257). -/
def afterSent (ch : Nat) (s : State) : BusPhase := if errState (s.chan ch) = 1 then .suspend else .intermission

/-- The bus after a frame of the channel's own: it is still a transmitter until the next frame or bus idle (R254, R257). -/
def ownEnds (ch : Nat) (s : State) : State :=
  (enterIntermission ch (afterSent ch s) (rewindRx ch s)).modChan ch fun c => { c with wasTx := true }

/-- The frame that the channel sends goes out on its TXD, but not in LOOP_INT (R193, R200). -/
def emitFrame (ch : Nat) (s : State) : State :=
  match (s.chan ch).latched.bind s.mo? with
  | none => s
  | some o =>
    let h := ownHeader (s.chan ch) o
    let b := frontOf o
    if (s.chan ch).mode == 3 then s else s.emit (.can ch h (dlcOf h.fmt b.record.len) (b.data.take (payloadLen h b.record.len)))

/-- The channel's own frame reaches transmit success (R213). A frame that is not acknowledged succeeds in LOOP_EXT only, and
in LOOP_INT the channel acknowledges itself (R200); one that measures its loop delay has measured it (R244, R245). TEC falls with
an acknowledge received (R254). -/
def sendSuccess (ch : Nat) (acked : Bool) (tdcv : Option (Fin 128)) (s : State) : State :=
  let c := s.chan ch
  if !onBus c || !wonNow c || (!acked && c.mode = 0) || ((measuredTdcf c s).isSome && (tdcvOf c s tdcv).isNone) then s
  else match c.latched with
    | none => s
    | some mo =>
      let s := emitFrame ch (noteStart ch (noteTdcv ch tdcv s))
      let s := s.modChan ch fun c => { c with counters := { c.counters with txOk := inc32 c.counters.txOk } }
      let s := if acked || c.mode != 4 then changeCounters ch tecSuccess (ackSeen ch s) else s
      let s := filmOwn ch 2 s
      let s := judgeUndeclaredOwn ch mo c.sof s
      let s := endSent ch s
      ownEnds ch s

/-- TRANSMIT_SUCCESS (R213, R295). -/
def execTransmitSuccess (ch : Fin 64) (acked : Bool) (tdcv : Option (Fin 128)) (s : State) :
    Host.Outcome State Fault Refusal :=
  next (sendSuccess ch.val acked tdcv s)

/-- The attempt of the channel's own frame fails (R213, R214). -/
def failAttempt (ch : Nat) (tdcv : Option (Fin 128)) (s : State) : State :=
  let c := s.chan ch
  if !onBus c || !sendingNow c || !c.stretch then s
  else ownEnds ch (endFailed ch (noteTdcv ch tdcv s))

/-- ATTEMPT_FAILED (R214). -/
def execAttemptFailed (ch : Fin 64) (tdcv : Option (Fin 128)) (s : State) : Host.Outcome State Fault Refusal :=
  next (failAttempt ch.val tdcv s)

/-! ### Errors (R254, R268, R271, R272) -/

/-- The change of the counters for an error that meets `row`, as transmitter or as receiver (R254). -/
def rowChange (row : ErrRow) (tx : Bool) : Chan → Chan :=
  match row with
  | .detected => if tx then addTec 8 else addRec 1
  | .flagBit => if tx then addTec 8 else addRec 8
  | .dominantAfterFlag => if tx then id else addRec 8
  | .dominantRun => if tx then addTec 8 else addRec 8
  | .quietAck => id
  | .recessiveStuff => id

/-- The channel is the transmitter of the frame on the bus, or of the frame before what follows it (R254). -/
def asTransmitter (c : Chan) : Bool := sendingNow c || (c.wasTx && match c.bus with
  | .intermission => true
  | .suspend => true
  | .errorFrame => true
  | _ => false)

/-- The channel sends or has sent an error flag or overload flag of the frame it is in. -/
def flagNow (c : Chan) : Bool := c.bus == .errorFrame || (sendingNow c && c.stretch)

/-- The row can hold for this error (R254, R256): the two exceptions are of a transmitter, each of its own error; the rows about a
flag need one, and none was sent where error signalling is disabled. -/
def rowFits (row : ErrRow) (code : ErrCode) (field : FieldCode) (ed : Bool) (c : Chan) : Bool :=
  match row with
  | .detected => code != .none
  | .quietAck => !ed && sendingNow c && code == .ack && errState c == 1
  | .recessiveStuff => !ed && sendingNow c && code == .stuff && field == .sofArb
  | .flagBit => !ed && code == .bit && flagNow c && field == .errOvl
  | .dominantAfterFlag => !ed && flagNow c && field == .errOvl
  | .dominantRun => !ed && flagNow c && field == .errOvl

/-- The class counter of an error (R271). An error in a data phase with error signalling disabled also counts the frame. -/
def countError (code : ErrCode) (ed : Bool) (k : ChanCounters) : ChanCounters :=
  let k := match code with
    | .bit => { k with bitErr := inc32 k.bitErr }
    | .stuff => { k with stuffErr := inc32 k.stuffErr }
    | .form => { k with formErr := inc32 k.formErr }
    | .crc => { k with crcErr := inc32 k.crcErr }
    | .ack => { k with ackErr := inc32 k.ackErr }
    | .tdc => { k with tdcFail := inc32 k.tdcFail }
    | .cell => k
    | .none => k
  if ed then { k with esdLost := inc32 k.esdLost } else k

/-- An error event is counted once a stretch, except in LOOP_INT (R268, R269). -/
def errorEvent (ch : Nat) (s : State) : State :=
  if (s.chan ch).stretch then s
  else
    let s := s.modChan ch fun c => { c with stretch := true }
    if (s.chan ch).mode == 3 then s
    else budgetEvent ch (s.modChan ch fun c => { c with counters := { c.counters with errEvents := inc32 c.counters.errEvents } })

/-- Error signalling is disabled in the data phase of the frame on the bus: XL, with FAST 1 or XL_ESD 1 (R6, R192, R230). -/
def signallingOff (c : Chan) (s : State) : Bool :=
  match frameHeader c s with
  | some h => h.fmt == .xl && (c.cur.xcvr.fast || c.cur.options.testBit 1)
  | none => false

/-- The fields of R272 that a data phase can hold. -/
def dataPhaseField (field : FieldCode) : Bool := field == .control || field == .data || field == .crc

/-- The error may lie in a data phase with error signalling disabled (R6, R192, R217): of the frame whose header is known, or of a
foreign XL frame whose header is not yet complete. -/
def mayBeUnsignalled (field : FieldCode) (c : Chan) (s : State) : Bool :=
  dataPhaseField field &&
    if (frameHeader c s).isSome then signallingOff c s && (wonNow c || c.rx.isSome)
    else c.bus == .receiving && c.cur.formats.testBit 2 && (c.cur.xcvr.fast || c.cur.options.testBit 1) && !(c.mode == 1 && c.cur.xcvr.fast)

/-- The error lies in a data phase with error signalling disabled: data and CRC of such a frame do (R6, R217). -/
def mustBeUnsignalled (field : FieldCode) (c : Chan) (s : State) : Bool :=
  (field == .data || field == .crc) && signallingOff c s && (wonNow c || c.rx.isSome)

/-- The error can occur where the channel stands (R200, R212, R217, R244, R245): an acknowledge, cell or TDC error in its own
frame only; signalling is disabled in a data phase where R6 and R192 disable it, and there always. -/
def errorFits (code : ErrCode) (field : FieldCode) (ed : Bool) (row : ErrRow) (c : Chan) (s : State) : Bool :=
  onBus c && c.bus != .integration && rowFits row code field ed c
    && (code != .ack || (sendingNow c && c.mode != 4))
    && (code != .cell || sendingNow c)
    && (code != .tdc || (measuredTdcf c s).isSome)
    && (!ed || mayBeUnsignalled field c s)
    && (ed || !mustBeUnsignalled field c s)

/-- The own frame's acknowledge slot was sampled dominant before this error (R265, R267): `acked` says so in the acknowledge field,
and an end of frame is reached without it in LOOP_EXT only. -/
def ackBefore (c : Chan) (code : ErrCode) (field : FieldCode) (acked : Bool) : Bool :=
  wonNow c && !c.stretch &&
    ((field == .eof && (acked || c.mode != 4)) || (field == .delimAck && code != .ack && acked))

/-- The receiver has received up to the acknowledge slot and sent its acknowledge before this error (R254). -/
def receivedBefore (c : Chan) (code : ErrCode) (field : FieldCode) (acked : Bool) : Bool :=
  !asTransmitter c && c.rx.isSome && !c.stretch && code != .crc && countsErrors c.mode
    && (field == .eof || (field == .delimAck && acked))

/-- An error of a class is counted and recorded: its statistics, its error event, the counters and its record, in this order: the
record of an ERR_STATE change comes before the error's own, whose DATA holds the counters after the change (DESIGN CHOICE, log
entry 55; R254, R268, R271, R274). -/
def recordError (ch : Nat) (code : ErrCode) (field : FieldCode) (ed : Bool) (row : ErrRow) (tx : Bool) (s : State) : State :=
  let s := s.modChan ch fun c => { c with
    counters := countError code ed c.counters, lastErrAt := stampNow s, lastErr := code, lastField := field
    cellBad := c.cellBad || code == .cell }
  let s := errorEvent ch s
  let s := if countsErrors (s.chan ch).mode then changeCounters ch (rowChange row tx) s else s
  filmRecord ch 4 (errNum code + 16 * fieldNum field + flag ed 256)
    (tecRead (s.chan ch) + 256 * (s.chan ch).recErr) (stampNow s) s

/-- The channel detects a bus error (R254, R256, R268, R271); `acked` as `ackBefore` has it, `bytes` of the frame under reception
have arrived, `tdcv` was measured in the own frame. A dominant bit or run after a flag that is no error of a class moves the
counters alone. -/
def busError (ch : Nat) (code : ErrCode) (field : FieldCode) (ed : Bool) (row : ErrRow) (acked : Bool) (bytes : Nat)
    (tdcv : Option (Fin 128)) (s : State) : State :=
  let c := s.chan ch
  let tx := asTransmitter c
  if code == .none then
    judgeBusOff ch (if countsErrors c.mode then changeCounters ch (rowChange row tx) s else s)
  else
    let s := if code == .tdc then s else noteTdcv ch tdcv s
    let s := if ackBefore c code field acked then ackSeen ch s else s
    let s := if receivedBefore c code field acked then changeCounters ch recSuccess s else s
    let s := recordError ch code field ed row tx s
    let s := if code == .ack then ackMissed ch s else s
    let s := rewindRx ch (claimPayload ch bytes s)
    let s := if ed || !countsErrors c.mode then leaveBus ch .integration s
      else if sendingNow c then s
      else s.modChan ch fun c => { c with bus := .errorFrame }
    judgeBusOff ch s

/-- An error or an error flag on a channel that waits for bus integration counts as an error event and no more (R196, R200, R201,
R269). -/
def watchedError (ch : Nat) (s : State) : State :=
  match (s.chan ch).state with
  | .integrating => errorEvent ch s
  | .exception => errorEvent ch s
  | _ => if onBus (s.chan ch) && (s.chan ch).bus == .integration then errorEvent ch s else s

/-- An own frame must have driven its start of frame before an error can strike it. -/
def driveForError (ch : Nat) (field : FieldCode) (s : State) : State :=
  if field != .errOvl && field != .interSuspend && onBus (s.chan ch) && (s.chan ch).latched.isSome then driveSof ch s else s

/-- The frame that an error strikes has started: an error or overload frame before it has ended, and another node's frame has the
stamp of its start (R213, R232, R268). An error in the error or overload frame starts nothing. -/
def startForError (ch : Nat) (field : FieldCode) (edges : List (Nat × Nat)) (s : State) : State :=
  if field == .errOvl || !onBus (s.chan ch) then s
  else
    let s := endErrorFrame ch s
    let c := s.chan ch
    if edges.isEmpty || !foreignReception c || c.bus == .receiving then s else foreignStart ch edges s

/-- A bus error on the channel (R254, R268, R269). -/
def errorSeen (ch : Nat) (code : ErrCode) (field : FieldCode) (ed : Bool) (row : ErrRow) (acked : Bool) (bytes : Nat)
    (tdcv : Option (Fin 128)) (edges : List (Nat × Nat)) (s : State) : State :=
  let t := startForError ch field edges (driveForError ch field s)
  if errorFits code field ed row (t.chan ch) t then busError ch code field ed row acked bytes tdcv t
  else watchedError ch s

/-- OVERLOAD_FRAME_SEEN (R274): a record of kind 0x05; the overload frame occupies the bus until the next intermission. -/
def execOverloadFrameSeen (ch : Fin 64) (s : State) : Host.Outcome State Fault Refusal :=
  let c := s.chan ch.val
  if !onBus c || c.mode == 3 || sendingNow c then next s
  else
    let s := endErrorFrame ch.val (filmRecord ch.val 5 0 0 (stampNow s) s)
    next (s.modChan ch.val fun c => if quiet c && c.bus != .integration then { c with bus := .errorFrame } else c)

/-- An XL frame on a SAFELIGHT channel with FAST 1 is lost at the end of its arbitration phase: counted, rewound, nothing
delivered, and the channel waits for bus integration (R201, R332). -/
def fastLost (ch : Nat) (edges : List (Nat × Nat)) (s : State) : State :=
  let s := endErrorFrame ch s
  let c := s.chan ch
  if !onBus c || c.bus == .integration || c.mode != 1 || !c.cur.xcvr.fast then s
  else
    let s := if edges.isEmpty then s else foreignStart ch edges s
    let s := s.modChan ch fun c => { c with counters := { c.counters with fastLost := inc32 c.counters.fastLost } }
    let s := if (s.chan ch).rx.isSome then s else modStat (.chq, ch) (fun t => { t with rewinds := inc32 t.rewinds }) s
    leaveBus ch .integration s

/-! ### Protocol exception and bus integration (R192, R197) -/

/-- A protocol exception: with PEX enabled the channel waits for bus integration (R197, R230 OPTIONS [0]). -/
def protocolException (ch : Nat) (edges : List (Nat × Nat)) (s : State) : State :=
  let s := endErrorFrame ch s
  let c := s.chan ch
  if c.state != .running || c.bus == .integration || !c.cur.options.testBit 0 || c.mode == 3 || sendingNow c then s
  else
    let s := if edges.isEmpty then s else foreignStart ch edges s
    let s := s.modChan ch fun c => { c with counters := { c.counters with pexCount := inc32 c.counters.pexCount } }
    enterState ch .exception (leaveBus ch .integration s)

/-- Bus integration completes: 11 consecutive recessive nominal bits (R197). -/
def integrate (ch : Nat) (s : State) : State :=
  let c := s.chan ch
  let ready := fun s => takeSettings ch (s.modChan ch fun c => { c with bus := .idle, stretch := false })
  match c.state with
  | .integrating => enterState ch .running (ready s)
  | .exception => enterState ch .running (ready s)
  | _ => if onBus c && c.bus == .integration then ready s else s

/-- BUS_INTEGRATION_COMPLETE (R197). -/
def execBusIntegrationComplete (ch : Fin 64) (s : State) : Host.Outcome State Fault Refusal := next (integrate ch.val s)

/-! ### Stop bath and settling (R203, R207) -/

/-- The frame, error frame or overload frame on the bus has ended with its intermission (R203). A reception that was cut off
without an error is rewound. -/
def stopEnds (ch : Nat) (s : State) : State :=
  let c := s.chan ch
  if c.state != .stopping then s
  else match c.bus with
    | .sending _ => s
    | .receiving => s
    | _ => endStop ch (enterIntermission ch .idle s)

/-! ### Recovery (R261 to R264) -/

/-- The recovery sequence starts (R261, R262). -/
def startRecovery (ch : Nat) (s : State) : State :=
  if (s.chan ch).state != .busOff then s
  else
    let s := s.modChan ch fun c => { c with recovStart := stampNow s, progress := 0 }
    enterState ch .recovering s

/-- AUTO_DELAY_EXPIRY (R262). -/
def execAutoDelayExpiry (ch : Fin 64) (s : State) : Host.Outcome State Fault Refusal :=
  let c := s.chan ch.val
  if c.state != .busOff || !c.auto then next s
  else next (startRecovery ch.val (reachClk (c.busOffAt + c.autoDelay * msNs) s))

/-- RECESSIVE_SEQUENCE_COUNTED (R261): one more occurrence of 11 recessive bits; the 128th is RECOVERY_COMPLETE's. -/
def execRecessiveSequenceCounted (ch : Fin 64) (s : State) : Host.Outcome State Fault Refusal :=
  let c := s.chan ch.val
  if c.state != .recovering || c.progress ≥ 127 then next s
  else next (s.modChan ch.val fun c => { c with progress := c.progress + 1 })

/-- The 128th occurrence completes (R261). -/
def recoveryDone (ch : Nat) (s : State) : State :=
  let s := changeCounters ch (fun c => { c with tec := 0, recErr := 0 }) s
  let s := s.modChan ch fun c => { c with
    progress := 0, bus := .idle, stretch := false, counters := { c.counters with recovs := inc32 c.counters.recovs } }
  judgeMode ch (enterState ch .running s)

/-- RECOVERY_COMPLETE (R261). -/
def execRecoveryComplete (ch : Fin 64) (s : State) : Host.Outcome State Fault Refusal :=
  let c := s.chan ch.val
  if c.state != .recovering || c.progress < 127 then next s else next (recoveryDone ch.val s)

end Sys2Proof.Machine
end

