-- ==== Sys2Proof/Machine/Admission.lean ====
section
/-!
DEFINITION. The exposure calculator (R394 to R404): frame times, the response-time calculation, routes end to end, the
failure that a refusal reports. Bus times are formed exactly in bank clocks of 6.25 ns and rounded up to ns (R396).
-/

namespace Sys2Proof.Machine

/-! ### Bit and frame times (R235, R395, R396) -/

/-- A bit and its sample point in bank clocks (R235). -/
structure BitClocks where
  bit    : Nat
  sample : Nat

/-- The bit of a phase (R235). -/
def bitClocks (t : BitTiming) : BitClocks := { bit := t.brp * (1 + t.tseg1 + t.tseg2), sample := t.brp * (1 + t.tseg1) }

/-- Bank clocks in ns, rounded up (R396). -/
def clocksNs (k : Nat) : Nat := ceilDiv (25 * k) 4

/-- Bus time of a frame in bank clocks (R395); without `dyn` no dynamic stuff bit is counted (Cmin of R396). -/
def busClocks (h : Hdr) (s : Nat) (n d : Nat) (dyn : Bool) : Nat :=
  let st := fun k => if dyn then k else 0
  match h.fmt with
  | .cc => if h.ide then (67 + 8 * s + st ((53 + 8 * s) / 4)) * n else (47 + 8 * s + st ((33 + 8 * s) / 4)) * n
  | .fd =>
    let a := if h.ide then 36 else 17
    let f := if s ≤ 16 then 27 else 32
    (a - 1 + st ((a - 2) / 4)) * n + (n + d) + (5 + 8 * s + st ((a + 4 + 8 * s) / 4 - (a - 2) / 4) + f) * d + 12 * n
  | .xl => (17 + st 4) * n + (n + d) + (116 + 8 * s + (108 + 8 * s) / 10) * d + 14 * n

/-! ### Items -/

/-- A record as the calculator takes it: own or foreign, with its bus times in ns. `gone` is a withdrawn stream whose stop bath
runs: it interferes and blocks, and is not checked (R407). -/
structure Item where
  num      : Nat
  own      : Bool
  gone     : Bool
  ch       : Nat
  seq      : List Bool
  mo       : Nat
  crit     : Nat
  checked  : Bool
  deadline : Nat
  feed     : Nat
  period   : Nat
  jitter   : Nat
  intake   : Nat
  c        : Nat
  cs       : Nat
  cv       : Nat
  cvMin    : Nat

/-- Channel `ch`'s developed bit timing of a frame: nominal and data phase (R235, R250); an FD frame with BRS 0 keeps the
nominal bit. -/
def timingOf (v : State) (ch : Nat) (h : Hdr) : Option (BitClocks × BitClocks) :=
  let t := devSettings (v.chan ch)
  let dat := match h.fmt with
    | .cc => t.nominal
    | .fd => if h.brs then t.fdData else t.nominal
    | .xl => t.xlData
  match t.nominal, dat with
  | some n, some d => some (bitClocks n, bitClocks d)
  | _, _ => none

/-- The period of a stream in the calculation: the schedule's for FEED 2, a single instant counting 2^40 ns (R391). -/
def feedPeriod (v : State) (d : Decl) : Nat :=
  if d.feed != 2 then d.period
  else match scheduleOf v d.mo with
    | some x => if x.period = 0 then 2 ^ 40 else x.period
    | none => 2 ^ 40

/-- A figure about the inbound record of a route, as the device that holds it has it (R401, R552; log entry 41). -/
def inFigure (v : State) (r : RouteRec) (k : Nat) : Nat := Config.remoteFigure v.free r.inPos r.inRec k

/-- The hops to the device of a route's IN, over the longer path of a ring (a chain has one), and the port at which that path ends here: open
where the stack table has none (R535, R552). -/
def hopsOf (v : State) (r : RouteRec) : Nat × Option Port :=
  let d := tget v.stack.devices r.inPos deviceReset
  match d.hopsA != 0xFF, d.hopsB != 0xFF with
  | true, true => if (d.hopsA < d.hopsB) == v.stack.ring then (d.hopsB, some .b) else (d.hopsA, some .a)
  | true, false => (d.hopsA, some .a)
  | false, true => (d.hopsB, some .b)
  | false, false => (inFigure v r 5 % 8, none)

/-- MAX_DELAY of the last hop of a path: the smaller of its two ends, of which this device is one; open for the links beyond
(R552). -/
def hopDelay (v : State) (r : RouteRec) (port : Option Port) (h : Nat) : Nat :=
  match h, port with
  | 0, some p => min (v.link p).maxDelay (v.link p).peerDelay
  | _, _ => inFigure v r (24 + h)

/-- One hop of a path in hundredths of a ns: 174.48 ns, K_h in blocks of 10.56 ns, at most 1,150 ns of them, and w_h (R551, R552). -/
def hopTerm (v : State) (r : RouteRec) (port : Option Port) (h : Nat) : Nat :=
  17448 + 1056 * (inFigure v r (16 + h) % 109) + 100 * hopDelay v r port h

/-- The link term of a route whose IN lies on another device: 1,162 ns and its hops, rounded up to ns (R401, R552). -/
def linkTerm (v : State) (r : RouteRec) : Nat :=
  if r.inPos = v.pos then 0
  else
    let p := hopsOf v r
    ceilDiv (116200 + total ((List.range p.1).map (hopTerm v r p.2))) 100

/-- The intake term D of a stream (R387). -/
def intakeOf (v : State) (n : Nat) (d : Decl) : Nat :=
  match d.feed with
  | 0 => 681
  | 1 => 1500 + match mget v.routes n with
    | some r => linkTerm v r
    | none => 0
  | _ => 0

/-- Channel and header of a declaration in the configuration `v`: an own stream has its object's (R391). -/
def declFrame (v : State) (d : Decl) : Nat × Hdr :=
  if d.foreign then (d.channel, d.hdr)
  else match v.mo? d.mo with
    | some o => (o.channel, moHdr o)
    | none => (d.channel, d.hdr)

/-- Largest and smallest payload of a declaration (R391, R392); a remote frame has none (R395). -/
def declLens (v : State) (d : Decl) (h : Hdr) : Nat × Nat :=
  if h.rtr then (0, 0)
  else if d.foreign then (d.maxlen, d.minlen)
  else match v.mo? d.mo with
    | some o => (o.maxlen, o.maxlen)
    | none => (d.maxlen, d.maxlen)

/-- The item of a declaration; none when a bit timing it needs is not developed (R421). -/
def declItem (v : State) (n : Nat) (d : Decl) (gone : Bool) : Option Item :=
  let (ch, h) := declFrame v d
  let (smax, smin) := declLens v d h
  match timingOf v ch h with
  | none => none
  | some (nom, dat) =>
    let k := busClocks h smax nom.bit dat.bit true
    some { num := n, own := !d.foreign, gone := gone, ch := ch, seq := arbSeq h, mo := if d.foreign then 0 else d.mo + 1,
           crit := if d.foreign then 3 else d.crit, checked := if d.foreign then d.deadline != 0 else d.crit ≥ 1,
           deadline := d.deadline, feed := d.feed, period := feedPeriod v d, jitter := d.jitter,
           intake := if d.foreign then 0 else intakeOf v n d, c := clocksNs k,
           cs := clocksNs (k - 4 * nom.bit + nom.sample), cv := clocksNs (k - 5 * nom.bit + nom.sample),
           cvMin := clocksNs (busClocks h smin nom.bit dat.bit false) - 5 * clocksNs nom.bit + clocksNs nom.sample }

/-- The declarations a record stands for: itself, and the held one beside it while its stop bath runs (R407, R408). -/
def recDecls (r : StreamRec) : List (Decl × Bool) :=
  (r.decl, r.stopping) :: match r.held with
    | some d => [(d, false)]
    | none => []

/-- The declarations of a configuration, with their record numbers. -/
def allDecls (v : State) : List (Nat × Decl × Bool) :=
  v.records.flatMap fun r => (recDecls r.2).map fun d => (r.1, d)

/-- The declarations on a channel. -/
def declsOn (v : State) (ch : Nat) : List (Nat × Decl × Bool) := (allDecls v).filter fun d => (declFrame v d.2.1).1 == ch

/-- Item `a` stands before item `b` on their channel: by arbitration sequence, own streams then by MO number (R208, R398). -/
def itemBefore (a b : Item) : Bool := seqBefore a.seq b.seq || (a.seq == b.seq && a.mo ≤ b.mo)

/-- Two items that neither stands before the other: a stream in its stop bath and its held declaration (R398, R408). -/
def itemTied (a b : Item) : Bool := a.seq == b.seq && a.mo == b.mo

/-! ### The calculation (R397, R398) -/

/-- A busy period is at most 1 s (R398). -/
def busyLimit : Nat := 1000000000

/-- Candidacy jitter (R398). -/
def candJitter (x : Item) : Nat := x.jitter + x.intake

/-- C, with the wait of R370 for a shutter-fed stream (R398). -/
def waitTime (x : Item) : Nat := if x.feed = 2 then x.c + 2000 else x.c

/-- Arrivals of a list of items before `t`, by what each occupies (R398). -/
def arrivals (l : List Item) (t : Nat) : Nat := total (l.map fun x => ceilDiv (t + candJitter x) x.period * waitTime x)

/-- A fixed point of `f` reached from below, at most 1 s; none beyond it (R398). -/
def fixedPoint (f : Nat → Nat) : Nat → Nat → Option Nat
  | 0, _ => none
  | n + 1, t =>
    let t' := f t
    if t' > busyLimit then none else if t' = t then some t else fixedPoint f n t'

/-- The budget terms of a channel: E, W in ns, 31 × n and M in ns (R394, R396, R398). -/
structure Budget where
  e   : Nat
  w   : Nat
  c31 : Nat
  m   : Nat

/-- The response of item `i` with final term `fin`, of the items before it and after it (R398): the value and the blocking. -/
def responseOf (g : Budget) (hp : List Item) (i : Item) (lp : List Item) (fin : Nat) : Option (Nat × Nat) :=
  let b := (lp.map (·.c)).foldl max 0
  let hep := hp ++ [i]
  let ce := g.c31 + (hep.map (·.c)).foldl max 0
  let err := fun x => g.e * ceilDiv x g.w * ce
  match fixedPoint (fun t => b + err t + arrivals hep t) (busyLimit + 1) (b + total (hep.map waitTime)) with
  | none => none
  | some t =>
    let one := fun q =>
      (fixedPoint (fun w => b + q * i.c + err (w + g.m + fin) + arrivals hp w) (busyLimit + 1)
        (b + q * i.c + total (hp.map waitTime))).map fun w => candJitter i + w + g.m + fin - q * i.period
    ((List.range (ceilDiv (t + candJitter i) i.period)).foldl (fun r q => match r, one q with
      | some r, some x => some (max r x)
      | _, _ => none) (some 0)).map fun r => (r, b)

/-- What the calculator found for one item (R398, R399); `inbound` is the bound to receive valid of a foreign record. -/
structure Found where
  item     : Item
  exposure : Nat
  blocking : Nat
  inbound  : Nat

/-- A failing item (R403, R422); `record` none for a whole channel. -/
structure Failure where
  crit    : Nat
  ch      : Nat
  record  : Option Nat
  reason  : Nat
  foreign : Bool

/-- Every item of a sorted channel, each with those before it and every other one (R398). -/
def channelFound (g : Budget) : List Item → List Item → Option (List Found)
  | _, [] => some []
  | before, i :: after =>
    let hp := before.filter fun x => !itemTied x i
    let lp := before.filter (itemTied · i) ++ after
    match responseOf g hp i lp i.cs, (if i.own then some (0, 0) else responseOf g hp i lp i.cv),
        channelFound g (before ++ [i]) after with
    | some (r, b), some (v, _), some l => some ({ item := i, exposure := r, blocking := b, inbound := v } :: l)
    | _, _, _ => none

/-- The sum of R397 as a fraction. -/
def utilSum (g : Budget) (l : List Item) : Nat × Nat :=
  let f := l.foldl (fun a x => (a.1 * x.period + x.c * a.2, a.2 * x.period)) (0, 1)
  (f.1 * g.w + g.e * (g.c31 + (l.map (·.c)).foldl max 0) * f.2, f.2 * g.w)

/-- The result of one channel or of several. -/
structure Analysis where
  found  : List Found
  utils  : List (Nat × Nat)
  fails  : List Failure
  routes : List (Nat × Nat × Nat × Nat × Nat)

/-- Nothing found. -/
def analysisNone : Analysis := { found := [], utils := [], fails := [], routes := [] }

/-- The budget terms of a channel in the configuration `v` (R394, R396). -/
def budgetOf (v : State) (ch : Nat) : Budget :=
  let n := ((devSettings (v.chan ch)).nominal.map bitClocks).getD { bit := 0, sample := 0 }
  { e := (v.mon ch).e, w := (v.mon ch).w * 1000, c31 := clocksNs (31 * n.bit), m := clocksNs (2 * n.bit - n.sample) }

/-- The checks of one channel over its items (R397, R402, R403). -/
def channelAnalysis (v : State) (ch : Nat) (l : List Item) : Analysis :=
  let g := budgetOf v ch
  let u := utilSum g l
  let util := [(ch, u.1 * 1000000 / u.2)]
  if u.1 ≥ u.2 then { analysisNone with utils := util, fails := [{ crit := 3, ch := ch, record := none, reason := 3, foreign := false }] }
  else match channelFound g [] (sortBy itemBefore l) with
    | none => { analysisNone with utils := util, fails := [{ crit := 3, ch := ch, record := none, reason := 5, foreign := false }] }
    | some f =>
      { analysisNone with
        found := f, utils := util
        fails := (f.filter fun x => !x.item.gone && x.item.checked && x.item.deadline < x.exposure).map fun x =>
          { crit := x.item.crit, ch := ch, record := some x.item.num, reason := 2, foreign := !x.item.own } }

/-- Two results together. -/
def joinAnalysis (a b : Analysis) : Analysis :=
  { found := a.found ++ b.found, utils := a.utils ++ b.utils, fails := a.fails ++ b.fails, routes := a.routes ++ b.routes }

/-! ### Routes end to end (R400, R402) -/

/-- The record `n` as found, its stop bath aside. -/
def foundOf (a : Analysis) (n : Nat) : Option Found := a.found.find? fun f => f.item.num == n && !f.item.gone

/-- R_in, R_in,min, jitter and period of a route's IN (R400): from this device's calculation, or from the other device. -/
def inboundOf (v : State) (a : Analysis) (r : RouteRec) : Option (Nat × Nat × Nat × Nat) :=
  if r.inPos = v.pos then (foundOf a r.inRec).map fun f => (f.inbound, f.item.cvMin, f.item.jitter, f.item.period)
  else
    let g := inFigure v r
    some (g 1, g 2, g 3, g 4)

/-- The figures of one route: END_TO_END, INBOUND, ROUTE, OUTBOUND, and its failures (R400, R426). -/
def routeFigures (v : State) (a : Analysis) (r : RouteRec) : Option ((Nat × Nat × Nat × Nat) × List Failure) :=
  match inboundOf v a r, foundOf a r.outRec with
  | some (rin, _, _, tin), some o =>
    let term := 1500 + linkTerm v r
    let direct := o.item.feed = 1
    let e2e := if direct then rin + o.exposure else rin + term + o.item.period + o.exposure
    let bad := fun reason => ({ crit := o.item.crit, ch := o.item.ch, record := some r.outRec, reason := reason, foreign := false } : Failure)
    some ((e2e, rin, term, e2e - rin - term),
      (if direct && o.item.period > tin then [bad 6] else []) ++ (if e2e > r.deadline then [bad 4] else []))
  | _, _ => none

/-- Another device of the stack is present. -/
def othersPresent (v : State) : Bool :=
  (List.range 8).any fun d => d != v.pos && (tget v.stack.devices d deviceReset).present

/-- Another device has registered a route whose IN is a foreign record of this one: no row of the table tells of a registration, so
that it is open at each use (R401, R409, R427; log entry 41). -/
def registeredHere (v : State) (n : Nat) : Bool :=
  othersPresent v && ((mget v.records n).any fun r => r.decl.foreign) && Config.remoteFigure v.free v.pos n 8 != 0

/-- A route of another device, with a record of this one as its IN, misses its end-to-end deadline (R401): what that device
has registered is open (log entry 41). -/
def registeredFail (v : State) (f : Found) : Option Failure :=
  let g := Config.remoteFigure v.free v.pos f.item.num
  if !f.item.own && othersPresent v && g 8 != 0 && g 10 < f.inbound then
    some { crit := g 11 % 4, ch := g 12 % 64, record := some (g 9 % 32768), reason := 4, foreign := false }
  else none

/-- The jitter that a route gives its OUT (R400). -/
def routeJitter (v : State) (a : Analysis) (r : RouteRec) : Option (Nat × Nat) :=
  (inboundOf v a r).map fun x => (r.outRec, x.2.2.1 + x.1 - x.2.1)

/-- The channels a set of touched channels reaches over routes, after one more route (R402). -/
def closeOver (ends : List (Nat × Nat)) (l : List Nat) : List Nat :=
  ends.foldl (fun l e => if l.contains e.1 || l.contains e.2 then (l ++ [e.1, e.2]).eraseDups else l) l

/-- The touched channels closed over the routes that join channels (R402). -/
def closure (ends : List (Nat × Nat)) (l : List Nat) : List Nat := ends.foldl (fun l _ => closeOver ends l) l

/-- The channels that a route joins: IN's, where it is on this device, and OUT's. -/
def routeEnds (v : State) (r : RouteRec) : List (Nat × Nat) :=
  match mget v.records r.outRec with
  | none => []
  | some o =>
    let oc := (declFrame v o.decl).1
    if r.inPos != v.pos then [(oc, oc)]
    else match mget v.records r.inRec with
      | some i => [((declFrame v i.decl).1, oc)]
      | none => []

/-- The items of the touched channels; none when one has no developed bit timing (R421). -/
def itemsOf (v : State) (chans : List Nat) : Option (List Item) :=
  ((allDecls v).filter fun d => chans.contains (declFrame v d.2.1).1).foldl (fun l d =>
    match l, declItem v d.1 d.2.1 d.2.2 with
    | some l, some i => some (l ++ [i])
    | _, _ => none) (some [])

/-- The rounds of R400: every channel with the jitters of the round before, then the routes, until no jitter changes or
something fails. -/
def rounds (v : State) (chans : List Nat) (items : List Item) (routes : List RouteRec) : Nat → List (Nat × Nat) → Analysis
  | 0, _ => analysisNone
  | n + 1, jo =>
    let items' := items.map fun i =>
      { i with jitter := if i.gone then i.jitter else max i.jitter ((jo.lookup i.num).getD 0) }
    let a := chans.foldl (fun a ch => joinAnalysis a (channelAnalysis v ch (items'.filter (·.ch == ch)))) analysisNone
    let figs := routes.filterMap fun r => (routeFigures v a r).map fun f => (r, f)
    let a := { a with
      routes := figs.map (fun f => (f.1.outRec, f.2.1))
      fails := a.fails ++ figs.flatMap (fun f => f.2.2) ++ a.found.filterMap (registeredFail v) }
    let jo' := routes.filterMap (routeJitter v a)
    if !a.fails.isEmpty || jo' == jo then a else rounds v chans items routes n jo'

/-- The calculation over the touched channels of a configuration; none when a bit timing is missing (R402). -/
def analyse (v : State) (touched : List Nat) : Option Analysis :=
  let routes := v.routes.map (·.2)
  let chans := sortBy (fun a b => a ≤ b) (closure (routes.flatMap (routeEnds v)) touched)
  match itemsOf v chans with
  | none => none
  | some items => some (rounds v chans items routes (busyLimit + 1) [])

/-! ### What a refusal reports (R403, R422) -/

/-- Failure `a` is reported rather than `b` (R403). -/
def worse (a b : Failure) : Bool :=
  let ra := match a.record with | some n => n + 1 | none => 0
  let rb := match b.record with | some n => n + 1 | none => 0
  a.crit > b.crit || (a.crit == b.crit && (a.ch < b.ch || (a.ch == b.ch && ra < rb)))

/-- The failure that is reported (R403). -/
def worstOf (l : List Failure) : Option Failure :=
  l.foldl (fun w f => match w with
    | none => some f
    | some g => if worse f g then some f else some g) none

/-- DETAIL of NOT_ADMISSIBLE to context `x` (R162, R422); `changed` are the records that the development changes. -/
def failDetail (s : State) (x : Nat) (changed : List Nat) (f : Failure) : Nat :=
  match f.record with
  | none => f.reason * 0x10000 + virtChan s x f.ch
  | some n => (if f.reason = 2 && changed.contains n then 1 else f.reason) * 0x10000 + flag f.foreign 0x8000 + n

/-! ### Touched channels (R402) -/

/-- The channels of a record in a configuration. -/
def recChans (v : State) (n : Nat) : List Nat :=
  match mget v.records n with
  | some r => (recDecls r).map fun d => (declFrame v d.1).1
  | none => []

/-- The channels of the streams of an object. -/
def moChans (v : State) (mo : Nat) : List Nat :=
  ((allDecls v).filter fun d => !d.2.1.foreign && d.2.1.mo == mo).map fun d => (declFrame v d.2.1).1

/-- Channels of the records of routes that cross a link: of their outbound records here, and of the inbound ones that another device's
routes name (R401, R553). -/
def crossChans (v : State) : List Nat :=
  (v.routes.flatMap fun r => if r.2.inPos = v.pos then [] else recChans v r.2.outRec)
    ++ v.records.flatMap fun r => if registeredHere v r.1 then recChans v r.1 else []

/-- The channels that one change touches, judged before (`s`) and after (`v`) it (R402). -/
def touchedBy (s v : State) (c : Change) : List Nat :=
  let link := crossChans s ++ crossChans v
  let recs := fun n => recChans s n ++ recChans v n
  let mos := fun m => moChans s m ++ moChans v m
  match c with
  | .bitTiming ch _ _ => [ch]
  | .budget ch _ _ => [ch]
  | .declare n _ _ => recs n
  | .withdraw n _ => recs n
  | .route r => recs r.outRec ++ (if r.inPos = s.pos then recs r.inRec else [])
  | .alloc m _ _ _ _ _ => mos m
  | .config m _ _ _ _ => mos m
  | .shutter m _ _ => mos m
  | .clearShutter m => mos m
  | .link _ _ => link
  | _ => []

/-- The records that a set of changes declares or withdraws. -/
def changedRecs (l : List Change) : List Nat :=
  l.filterMap fun c => match c with
    | .declare n _ _ => some n
    | .withdraw n _ => some n
    | _ => none

/-! ### Figures in force -/

/-- The header and period of own streams follow their objects and schedules (R391). -/
def syncStreams (s : State) : State :=
  { s with records := s.records.map fun r =>
      if r.2.decl.foreign || r.2.stopping then r
      else
        let f := declFrame s r.2.decl
        let d := { r.2.decl with channel := f.1, hdr := f.2, period := if r.2.decl.feed = 2 then feedPeriod s r.2.decl else r.2.decl.period }
        (r.1, { r.2 with decl := d }) }

/-- The figures of the touched channels after a development (R427, R429). -/
def refigure (touched : List Nat) (s : State) : State :=
  let s := syncStreams s
  match analyse s touched with
  | none => s
  | some a =>
    let s := forEach a.found (fun f s => modRec f.item.num (fun r =>
      if r.stopping != f.item.gone then r
      else { r with figures :=
        { exposure := f.exposure, frame := f.item.c, blocking := f.blocking, jitter := f.item.jitter } }) s) s
    forEach a.utils (fun u s => s.modMon u.1 fun m => { m with utilisation := u.2 }) s

end Sys2Proof.Machine
end

