-- ==== Sys2Proof/Machine/RouteCheck.lean ====
section
/-!
DEFINITION. The routing tables: places of signals in a PDU (R434, R435), frame groups (R432), route lists (R433), pass costs
and lane loads (R454, R456), pack leads (R443), and the checks of every DEVELOP (R465).
-/

namespace Sys2Proof.Machine

/-! ### Signals in a PDU (R433 to R436) -/

/-- No signal-table entry (R430). -/
def sigNone : Nat := 0x3FFFF

/-- Bit positions of a big-endian signal from its most significant bit on (R435). -/
def bigWalk : Nat → Nat → List Nat
  | 0, _ => []
  | n + 1, p => p :: bigWalk n (if p % 8 = 0 then p + 15 else p - 1)

/-- PDU bit positions of a signal, value bit 0 first (R435). -/
def sigBits (big : Bool) (len start : Nat) : List Nat :=
  if big then (bigWalk len start).reverse else (List.range len).map (start + ·)

/-- The positions of a SOURCE or SINK; none for another kind. -/
def bodyBits : SigBody → List Nat
  | .source big _ len start _ => sigBits big len start
  | .sink big _ _ len start _ _ _ _ _ => sigBits big len start
  | _ => []

/-- Bit `b` of a byte string (R434). -/
def pduBit (data : List Byte) (b : Nat) : Bool := (data.getD (b / 8) 0).getLsbD (b % 8)

/-- The number spelled by the bits at the positions, first position least significant. -/
def gatherBits (data : List Byte) (l : List Nat) : Nat := l.foldr (fun b v => 2 * v + flag (pduBit data b) 1) 0

/-- The bytes with the bits of `v` written at the positions. -/
def scatterBits (data : List Byte) (v : Nat) : List Nat → List Byte
  | [] => data
  | b :: l =>
    let m : Byte := 1#8 <<< (b % 8)
    scatterBits (lmod data (b / 8) fun x => if v % 2 = 1 then x ||| m else x &&& ~~~m) (v / 2) l

/-! ### PDUs -/

/-- Inbound directions (R431). -/
def dirIn : Dir → Bool
  | .inFrame => true | .inLink => true | .inLocal => true
  | .outFrame => false | .outLink => false | .outLocal => false

/-- The entries of a PDU, in order (R431). -/
def pduEntries (p : PduSet) : List Nat := (List.range p.count).map (p.first + ·)

/-- Bytes of a PDU's check-value field: ⌈W ÷ 8⌉ (R448). -/
def cvBytes (v : State) (p : PduSet) : Nat :=
  match (v.cvu p.cvu).params with
  | some c => ceilDiv c.width 8
  | none => 0

/-- PDU bits of the check-value field; none without one. -/
def cvBits (v : State) (p : PduSet) : List Nat :=
  if p.cvEn then (List.range (8 * cvBytes v p)).map (8 * p.cvPos + ·) else []

/-- A PDU of the configuration. -/
def pduOf (v : State) (n : Nat) : Option Pdu := mget v.pdus n

/-- The entry of the signal table, by its fields. -/
def sigBody (v : State) (e : Nat) : Option SigBody := (mget v.sigs e).map fun g => g.body

/-- The first PDU of the frame group that PDU `n` belongs to (R432). -/
def groupHead (v : State) (n : Nat) : Option Nat :=
  ((List.range 16).map (n - ·)).find? fun f => match pduOf v f with
    | some p => p.set.dir == .outFrame && p.set.frameCount ≥ 1 && n < f + p.set.frameCount
    | none => false

/-- The members of the group with first PDU `f` (R432). -/
def groupMembers (v : State) (f : Nat) : List Nat :=
  match pduOf v f with
  | some p => (List.range (max 1 p.set.frameCount)).map (f + ·)
  | none => []

/-- What sends together with outbound PDU `n`: its group, or the PDU alone (R441). -/
def sendHead (v : State) (n : Nat) : Nat :=
  match pduOf v n with
  | some p => if p.set.dir == .outFrame then (groupHead v n).getD n else n
  | none => n

/-- The PDUs packed with head `f`. -/
def sendMembers (v : State) (f : Nat) : List Nat :=
  match pduOf v f with
  | some p => if p.set.dir == .outFrame then groupMembers v f else [f]
  | none => []

/-! ### Route lists (R433) -/

/-- The ROUTE entries of a list from entry `e`, at most `fuel`; the list ends before an entry that is not ROUTE or is disabled
(R460). -/
def routeEntries (v : State) : Nat → Nat → List (List Nat)
  | 0, _ => []
  | n + 1, e =>
    match mget v.sigs e with
    | some g => match g.body with
      | .route nx pdus => if g.errDis then [] else pdus :: routeEntries v n nx
      | _ => []
    | none => []

/-- The route list of an inbound PDU; at most 64 entries (R433). -/
def routeList (v : State) (p : PduSet) : List (List Nat) := if p.route = sigNone then [] else routeEntries v 64 p.route

/-- Every ROUTE entry number of a list, none when it is broken, looping or longer than 64 (R433, R465). -/
def routeChain (v : State) : Nat → Nat → Option (List Nat)
  | 0, e => if e = sigNone then some [] else none
  | n + 1, e =>
    if e = sigNone then some []
    else match mget v.sigs e with
      | some g => match g.body with
        | .route nx _ => (routeChain v n nx).map (e :: ·)
        | _ => none
      | none => none

/-- The heads that a list names, each once, in the order in which they are first named (R441). -/
def listHeads (v : State) (l : List (List Nat)) : List Nat := ((l.flatMap id).map (sendHead v)).eraseDups

/-! ### Costs and loads (R454, R456) -/

/-- U(p) (R454). -/
def pduCost (p : PduSet) : Nat :=
  16 + 3 * p.count + ceilDiv p.length 8 + if p.cvEn then ceilDiv p.length 8 + 8 else 0

/-- Cost of packing everything under a head (R454). -/
def packCost (v : State) (f : Nat) : Nat :=
  total ((sendMembers v f).map fun n => match pduOf v n with | some p => 4 + pduCost p.set | none => 0)

/-- Cost of an arrival or timeout pass of PDU `p` (R454). -/
def arrivalCost (v : State) (p : PduSet) : Nat :=
  let l := routeList v p
  24 + pduCost p + 2 * l.length + total ((listHeads v l).map (packCost v))

/-- Cost of a periodic or deferred pass (R454). -/
def timedCost (v : State) (f : Nat) : Nat := 24 + packCost v f

/-- PDUs on a lane. -/
def lanePdus (v : State) (l : Nat) : List (Nat × Pdu) := v.pdus.filter fun p => p.2.set.lane == l

/-- What a pass counts for: an arrival pass of an inbound PDU, and the timed passes that a PDU can start. -/
structure PassCost where
  arrival : State → PduSet → Nat
  timed   : State → Nat → PduSet → Nat

/-- Costs on lane `l` of the distinct inbound frame PDUs that a list of filters names (R456). -/
def filterCosts (k : PassCost) (v : State) (l : Nat) (fs : List (Nat × Filter)) : List Nat :=
  (((fs.filter fun f => f.2.toRoute).map fun f => f.2.pdu).eraseDups).filterMap fun n => match pduOf v n with
    | some p => if p.set.dir == .inFrame && p.set.lane == l then some (k.arrival v p.set) else none
    | none => none

/-- R(c,L) (R456). -/
def channelLoad (k : PassCost) (v : State) (ch l : Nat) : Nat :=
  let h := hashOn v.filters ch
  total (filterCosts k v l (scanOn v.filters ch))
    + (filterCosts k v l (h.filter fun f => !f.2.key)).foldl max 0 + (filterCosts k v l (h.filter fun f => f.2.key)).foldl max 0

/-- A timed pass that PDU `n` can start: its cost (R440, R456). -/
def timedOf (v : State) (n : Nat) (p : PduSet) : Nat :=
  if dirIn p.dir then (if p.timeout = 0 then 0 else arrivalCost v p)
  else match p.dir with
    | .outFrame => if p.frameCount ≥ 1 && (p.periodic || p.minGap != 0) then timedCost v n else 0
    | .outLink => if p.minGap != 0 then timedCost v n else 0
    | _ => 0

/-- The sum of R456 over lane `l`. -/
def loadSum (k : PassCost) (v : State) (l : Nat) : Nat :=
  let ps := lanePdus v l
  total ((List.range 64).map fun ch => channelLoad k v ch l)
    + total (ps.map fun p => match p.2.set.dir with
        | .inLocal => k.arrival v p.2.set
        | .inLink => k.arrival v p.2.set
        | _ => 0)
    + 2 * (ps.map fun p => k.timed v p.1 p.2.set).foldl max 0

/-- B_L (R456). -/
def laneLoad (v : State) (l : Nat) : Nat := loadSum { arrival := arrivalCost, timed := timedOf } v l

/-! ### Link loads (R551) -/

/-- Serialisation time of a PDU of `len` bytes, in blocks of 10.56 ns (R551). -/
def serBlocks (len : Nat) : Nat := ceilDiv (3 + ceilDiv len 8) 2

/-- An OUT_LINK PDU for a position crosses link `j` of those that lead on from a port, counted from 0, on either path of a ring
(R551). -/
def leavesBy (v : State) (port : Port) (j position : Nat) : Bool :=
  let d := tget v.stack.devices position deviceReset
  let hops := match port with | .a => d.hopsA | .b => d.hopsB
  position != v.pos && (v.stack.ring || portTo v position == some port) && hops != 0xFF && j < hops

/-- Blocks that sending head `f` puts on link `j` from a port. -/
def headBlocks (port : Port) (j : Nat) (v : State) (f : Nat) : Nat :=
  match pduOf v f with
  | some p => if p.set.dir == .outLink && leavesBy v port j p.set.position then serBlocks p.set.length else 0
  | none => 0

/-- Blocks that an arrival or timeout pass of an inbound PDU puts on link `j` from a port. -/
def arrivalBlocks (port : Port) (j : Nat) (v : State) (p : PduSet) : Nat :=
  total ((listHeads v (routeList v p)).map (headBlocks port j v))

/-- Blocks of the timed passes that a PDU can start. -/
def timedBlocks (port : Port) (j : Nat) (v : State) (n : Nat) (p : PduSet) : Nat :=
  if dirIn p.dir then (if p.timeout = 0 then 0 else arrivalBlocks port j v p)
  else if p.minGap != 0 then headBlocks port j v n else 0

/-- Blocks that this device's passes put on link `j` from a port (R551). -/
def portBlocks (v : State) (port : Port) (j : Nat) : Nat :=
  total ((List.range 4).map (loadSum { arrival := arrivalBlocks port j, timed := timedBlocks port j } v))

/-- Index of a port. -/
def portIdx : Port → Nat
  | .a => 0 | .b => 1

/-- K_h of link `j` from a port in the outgoing direction, in blocks of 10.56 ns: this device's, and what others put there (R551; log
entry 41). -/
def farBlocks (v : State) (port : Port) (j : Nat) : Nat :=
  portBlocks v port j + if othersPresent v then Config.remoteLoad v.free (portIdx port + 2 * j) else 0

/-- K_h of a port's own outgoing direction (R551). -/
def linkBlocks (v : State) (port : Port) : Nat := farBlocks v port 0

/-- The most blocks that stay within 1,150 ns. -/
def blocksMax : Nat := 108

/-- The links that can be crossed from here: a port and how many links lie before. -/
def farLinks : List (Port × Nat) := (List.range 7).flatMap fun j => [(Port.a, j), (Port.b, j)]

/-- The configuration `v` raises a link load above 1,150 ns, on a port or on a link beyond it (R551). -/
def linkOverload (s v : State) : Bool :=
  farLinks.any fun h => portBlocks s h.1 h.2 < portBlocks v h.1 h.2 && farBlocks v h.1 h.2 > blocksMax

/-- The configuration `v` changes a link load (R551, R553). -/
def linkLoadMoves (s v : State) : Bool := farLinks.any fun h => portBlocks s h.1 h.2 != portBlocks v h.1 h.2

/-- A change that can put another load on a link (R551). -/
def mayLoad : Change → Bool
  | .pdu _ _ => true
  | .signal _ _ _ => true
  | .filter _ _ => true
  | .clearFilter _ => true
  | _ => false

/-- The channels that the changes `l` touch between the configurations `s` and `v`, those of the routes across the links among them
where a link load moves (R402, R553). -/
def touchedIn (s v : State) (l : List Change) : List Nat :=
  (l.flatMap (touchedBy s v) ++ if l.any mayLoad && linkLoadMoves s v then crossChans s ++ crossChans v else []).eraseDups

/-- The PERIODIC groups of a lane, by ascending first PDU (R443). -/
def periodicGroups (v : State) (l : Nat) : List (Nat × Pdu) :=
  (lanePdus v l).filter fun p => p.2.set.dir == .outFrame && p.2.set.frameCount ≥ 1 && p.2.set.periodic

/-- LEAD_L; 0 for a lane without a PERIODIC group (R443). -/
def laneLead (v : State) (l : Nat) : Nat :=
  match (periodicGroups v l).length with
  | 0 => 0
  | n => 3500 + 1150 * n

/-- When the pack notice of a PERIODIC group falls, before an instant of its schedule (R443). -/
def noticeAhead (v : State) (l f : Nat) : Nat :=
  laneLead v l - 1150 * ((periodicGroups v l).takeWhile fun g => g.1 != f).length

/-! ### LOCAL blocks (R449) -/

/-- Size of an input block. -/
def inBlock (b : Nat) : Option Nat :=
  match b with
  | 0 => some 4
  | 1 => some 48
  | 2 => some 4
  | 3 => some 96
  | 4 => some 192
  | _ => none

/-- Size of a block for a direction; none for a block it has not. -/
def blockSize (d : Dir) (b : Nat) : Option Nat :=
  match d with
  | .inLocal => inBlock b
  | .outLocal => if b = 0x80 then some 192 else none
  | _ => none

/-! ### The checks of R465 -/

/-- No two positions of a list coincide. -/
def distinctBits (l : List Nat) : Bool := l.length == l.eraseDups.length

/-- 0x0A_0100. -/
def badEntries (v : State) (n : Nat) (p : PduSet) : Bool :=
  decide (p.first + p.count > sigNone) || (pduEntries p).any fun e => match sigBody v e with
    | some (.source _ _ _ _ q) => !(dirIn p.dir && q == n)
    | some (.sink _ _ _ _ _ q _ _ _ _) => dirIn p.dir || q != n
    | _ => true

/-- The bodies of a PDU's entries. -/
def pduBodies (v : State) (p : PduSet) : List SigBody := (pduEntries p).filterMap fun e => sigBody v e

/-- 0x0A_0200: R436. -/
def badPlaces (v : State) (p : PduSet) : Bool :=
  let l := (pduBodies v p).map bodyBits
  let cv := cvBits v p
  (l.any fun b => b.any fun x => x ≥ 8 * p.length || cv.contains x) || (!dirIn p.dir && !distinctBits (l.flatMap id))

/-- A frame group has what R432, R443, R445 and R458 ask. -/
def badGroup (v : State) (n : Nat) (p : PduSet) : Bool :=
  match p.dir with
  | .outFrame =>
    if p.frameCount = 0 then
      p.periodic || p.minGap != 0 || p.frameLen != 0 || (groupHead v n).isNone
    else
      let ms := (groupMembers v n).map (pduOf v)
      ms.any (fun m => match m with
        | some q => q.set.dir != .outFrame || q.set.mo != p.mo || q.set.offset + q.set.length > p.frameLen
        | none => true)
      || (groupMembers v n).tail.any (fun m => match pduOf v m with | some q => q.set.frameCount != 0 | none => true)
      || (p.periodic && (scheduleOf v p.mo).isNone)
      || (match v.mo? p.mo with
          | some o => !o.tx || o.owner != 0 || !o.bound || !o.feed || !lenOk (moFormat o) p.frameLen || p.frameLen > o.maxlen
          | none => true)
      || (p.minGap != 0 && (allDecls v).any fun d => !d.2.1.foreign && d.2.1.mo == p.mo && d.2.1.feed == 1)
  | _ => false

/-- 0x0A_0400: R453 for the PDUs that a route list names. -/
def badLanes (v : State) (p : PduSet) : Bool :=
  dirIn p.dir && (listHeads v (routeList v p)).any fun f => (sendMembers v f).any fun n => match pduOf v n with
    | some q => q.set.lane != p.lane
    | none => false

/-- R453 within a frame group. -/
def badGroupLane (v : State) (n : Nat) (p : PduSet) : Bool :=
  p.dir == .outFrame && (sendMembers v (sendHead v n)).any fun m => match pduOf v m with
    | some q => q.set.lane != p.lane
    | none => false

/-- 0x0A_0600: R443. -/
def badLead (v : State) (l : Nat) : Bool :=
  (periodicGroups v l).any fun g => match scheduleOf v g.2.set.mo with
    | some x => x.period != 0 && x.period < laneLead v l
    | none => false

/-- 0x0A_0B00: R452. The target is another device of the stack. -/
def badLink (v : State) (p : PduSet) : Bool :=
  p.dir == .outLink && (p.position == v.pos || !(tget v.stack.devices p.position deviceReset).present
    || !Config.remotePdu v.free p.position p.remotePdu p.length)

/-- 0x0A_0C00 for a signal-table entry. -/
def badSig (v : State) : SigBody → Bool
  | .sink _ _ _ _ _ _ _ src _ _ => src != sigNone && match sigBody v src with
    | some (.source _ _ _ _ _) => false
    | some .const => false
    | _ => true
  | .route nx pdus => (nx != sigNone && match sigBody v nx with
      | some (.route _ _) => false
      | _ => true)
    || pdus.any fun n => match pduOf v n with
      | some q => dirIn q.set.dir
      | none => true
  | _ => false

/-- 0x0A_0C00 for a PDU. -/
def badPduRefs (v : State) (p : PduSet) : Bool :=
  (dirIn p.dir && (routeChain v 64 p.route).isNone)
  || (dirIn p.dir && p.substBase != sigNone && (List.range p.count).any fun k =>
      match sigBody v (p.substBase + k) with
      | some .const => false
      | _ => true)
  || (match p.dir with
      | .inLocal => match blockSize .inLocal p.block with | some z => p.offset + p.length > z | none => true
      | .outLocal => match blockSize .outLocal p.block with | some z => p.offset + p.length > z | none => true
      | _ => false)

/-- 0x0A_0C00 for a filter. -/
def badFilterPdu (v : State) (f : Filter) : Bool :=
  f.toRoute && match pduOf v f.pdu with
    | some q => q.set.dir != .inFrame
    | none => true

/-- 0x0A_0D00. -/
def badCvu (v : State) (p : PduSet) : Bool :=
  p.cvEn && ((v.cvu p.cvu).params.isNone || (v.cvu p.cvu).owner != 0 || p.cvPos + cvBytes v p > p.length)

/-- The lowest OUT record of an admitted route whose object a group on the lane feeds (R465). -/
def laneRoute (v : State) (l : Nat) : Option Nat :=
  (v.routes.find? fun r => match mget v.records r.1 with
    | some o => v.pdus.any fun p => p.2.set.dir == .outFrame && p.2.set.lane == l && p.2.set.mo == o.decl.mo
    | none => false).map (·.1)

/-- An overloaded lane that carries no admitted route (R465). -/
def plainOverload (v : State) : Bool := (List.range 4).any fun l => laneLoad v l > 920 && (laneRoute v l).isNone

/-- The overloads of lanes that carry an admitted route, each naming its OUT, as failures of that record (R403, R465). -/
def routedOverloads (v : State) : List Failure :=
  (List.range 4).filterMap fun l =>
    if laneLoad v l > 920 then (laneRoute v l).map fun o => match mget v.records o with
      | some r => { crit := r.decl.crit, ch := (declFrame v r.decl).1, record := some o, reason := 7, foreign := false }
      | none => { crit := 0, ch := 0, record := some o, reason := 7, foreign := false }
    else none

/-- 0x0B_0400: the PDUs of a ROUTE unit share one lane, and no PDU names a unit outside ROUTE mode (R480). -/
def badCvuLane (v : State) (p : PduSet) : Bool :=
  p.cvEn && (!(match (v.cvu p.cvu).params with | some c => c.route | none => false)
    || v.pdus.any fun q => q.2.set.cvEn && q.2.set.cvu == p.cvu && q.2.set.lane != p.lane)

/-- The first failing detail of R465, in the order of its table, then that of R480. -/
def routeFault (v : State) : Option Nat :=
  let ps := v.pdus
  let anyP := fun (f : Nat → PduSet → Bool) => ps.any fun p => f p.1 p.2.set
  if anyP (badEntries v) then some 0x0A0100
  else if anyP (fun _ p => badPlaces v p) then some 0x0A0200
  else if anyP (badGroup v) then some 0x0A0300
  else if anyP (fun n p => badLanes v p || badGroupLane v n p) then some 0x0A0400
  else if plainOverload v then some 0x0A0500
  else if (List.range 4).any (badLead v) then some 0x0A0600
  else if anyP (fun _ p => badLink v p) then some 0x0A0B00
  else if v.sigs.any (fun g => badSig v g.2.body) || anyP (fun _ p => badPduRefs v p)
    || v.filters.entries.any (fun f => badFilterPdu v f.2) then some 0x0A0C00
  else if anyP (fun _ p => badCvu v p) then some 0x0A0D00
  else if anyP (fun _ p => badCvuLane v p) then some 0x0B0400
  else none

/-- A change removes or resizes an IN_LINK PDU that another device's OUT_LINK PDU names (R452): which ones do is open (log entry
41). -/
def linkTargetLost (v : State) (s : State) : Change → Bool
  | .pdu n p => othersPresent s && Config.remoteFigure s.free s.pos n 13 != 0 && match pduOf s n with
      | some q => q.set.dir == .inLink && !(p.any fun p => p.dir == .inLink && p.length == q.set.length)
          && !((pduOf v n).any fun p => p.set.dir == .inLink && p.set.length == q.set.length)
      | none => false
  | _ => false

end Sys2Proof.Machine
end

