-- ==== Sys2Proof/Machine/ConfigCheck.lean ====
section
/-!
DEFINITION. Checks that a configuration must pass, shared by the commands that stage it and by DEVELOP: bit timing (R225,
R239), the settings an enable needs (R229), queue depths, shares and regions (R337, R338, R340, R350).
-/

namespace Sys2Proof.Machine

/-! ### Bit timing -/

/-- Bank clocks of an XL data bit below which the rate exceeds 8 Mbit/s (R225). -/
def fastClocks : Nat := 20

/-- The data-phase bit is no longer than a nominal bit that exists (R239). -/
def dataFits (nom dat : Option BitTiming) : Bool :=
  match dat, nom with
  | none, _ => true
  | some _, none => false
  | some d, some n => (bitClocks d).bit ≤ (bitClocks n).bit

/-- The first failing detail of a channel's settings: R239, then R225. -/
def timingFault (t : ChanSettings) : Option Nat :=
  if !dataFits t.nominal t.fdData || !dataFits t.nominal t.xlData then some 0x040600
  else match t.xlData with
    | some x => if (bitClocks x).bit < fastClocks && !t.xcvr.fast then some 0x040200 else none
    | none => none

/-- Every format in FORMATS has a bit timing for each phase it uses (R229, R248). -/
def timingsReady (t : ChanSettings) : Bool :=
  t.nominal.isSome && (!t.formats.testBit 1 || t.fdData.isSome) && (!t.formats.testBit 2 || t.xlData.isSome)

/-! ### Held enables (R181) -/

/-- A held enable of the object's channel, in a mode that sends, counts on this transmit object (R181). -/
def heldNeedsMo (s : State) (o : Mo) : Bool :=
  o.tx && o.en && o.bound && match (s.chan o.channel).held with
    | some h => sendsFrames (if h.mode = 0xFF then (devSettings (s.chan o.channel)).mode else h.mode)
    | none => false

/-- An object that a held enable counts on is gone, moved or disabled in the configuration `v` (R181). -/
def heldLosesMo (s v : State) : Change → Bool
  | .free mo => (s.mo? mo).any (heldNeedsMo s)
  | .config mo _ _ _ _ => (s.mo? mo).any fun o => heldNeedsMo s o && !((v.mo? mo).any fun w => w.en && w.channel == o.channel)
  | _ => false

/-- The configuration `v`, which the changes `l` make of `s`, fails the checks of an enable that is held: a channel's (R229), a
check-value unit's (R478) or a load's (R523). -/
def heldFault (s v : State) (l : List Change) : Bool :=
  ((List.range 64).any fun ch => (s.chan ch).held.isSome && !timingsReady (devSettings (v.chan ch)))
    || l.any (heldLosesMo s v)
    || ((List.range 32).any fun u => (s.cvu u).held.isSome && !((v.cvu u).params.any fun c => !c.route))
    || (List.range 96).any fun n => (s.ld n).held.isSome && ((v.ld n).pendBind.getD (v.ld n).bind).isNone

/-! ### Stream records (R390, R392) -/

/-- Two declarations that one channel cannot hold together: one is foreign, and they share their arbitration sequence (R392). -/
def seqClash (v : State) (a b : Nat × Decl × Bool) : Bool :=
  a.1 != b.1 && (a.2.1.foreign || b.2.1.foreign) && arbSeq (declFrame v a.2.1).2 == arbSeq (declFrame v b.2.1).2

/-- The first failing detail of the records of a channel: more than 4,096 of them, or a pair that clashes (R390, R392). -/
def recordsFault (v : State) (ch : Nat) : Option Nat :=
  let l := declsOn v ch
  if (l.map (·.1)).eraseDups.length > 4096 then some 0x090300
  else if l.any fun a => l.any (seqClash v a) then some 0x090400
  else none

/-! ### Queues -/

/-- Cells that a context's queues count (R338): each the larger of its running and pending depths. -/
def countedCells (v : State) (x : Nat) : Nat :=
  let q := v.cq x
  8 * max q.depths.places q.pend.places + max q.depths.evt q.pend.evt + max q.depths.tx q.pend.tx
    + max q.depths.rx q.pend.rx

/-- A TX ring's share when its pending one has applied. -/
def nextShare (v : State) (x k : Nat) : Nat := let r := v.ring x (4 + k); r.sharePend.getD r.share

/-- R340 fails. -/
def sharesFault (v : State) (x : Nat) : Bool :=
  let q := v.cq x
  let sum := fun (f : Nat → Nat) => total ((List.range 16).map f)
  if q.depths.tx = q.pend.tx then sum (fun k => max (v.ring x (4 + k)).share (nextShare v x k)) > q.depths.tx
  else sum (fun k => (v.ring x (4 + k)).share) > q.depths.tx || sum (nextShare v x) > q.pend.tx

/-- A pin whose HIGH lies above a queue's depth to come (R350). -/
def pinFault (v : State) (x : Nat) : Bool :=
  v.fq.fc.toList.any fun p => match p.qid.bind qidOf with
    | some q => (match q.1 with
        | .cmdq => true
        | .rplq => true
        | .evtq => true
        | .txq => true
        | .rxq => true
        | _ => false) && q.2 == x && p.high > qPending v q
    | none => false

/-- The first failing detail of the queues of context `x` (R350). -/
def queueFault (v : State) (x : Nat) : Option Nat :=
  let guests := total ((List.range 64).map fun g => if g = 0 then 0 else (v.cq g).region)
  if x != 0 && (guests > poolCells || countedCells v 0 > poolCells - guests) then some 0x070100
  else if countedCells v x > regionOf v x then some 0x070200
  else if sharesFault v x then some 0x070300
  else if pinFault v x then some 0x070400
  else none

/-! ### Loads (R503) -/

/-- The binding, the policy and the profile that the next tick will put in force (R503, R527, R530). -/
def loadPlan (v : State) (n : Nat) : Option (Profile × Nat × Nat × Binding × LoadPolicy) :=
  let l := v.ld n
  match l.pendBind.getD l.bind with
  | some b => match b.out with
    | .chain c p o => some ((v.swc c).pend.getD (v.swc c).profile, p, o, b, l.pendPolicy.getD l.policy)
    | _ => none
  | none => none

/-- A chain binding that its profile does not serve: position, output, or the CUR field it takes its current from. -/
def bindBad (f : Profile) (p o : Nat) (b : Binding) : Bool :=
  p ≥ f.switches || o ≥ f.outputs || (b.isrc == 1 && match f.outs[o]? with
    | some x => x.curPos == 0xFF
    | none => true)

/-- 0x0C_0500 and 0x0C_0600 (R503). -/
def loadFault (v : State) : Option Nat :=
  let plans := (List.range 96).filterMap (loadPlan v)
  if plans.any fun x => bindBad x.1 x.2.1 x.2.2.1 x.2.2.2.1 then some 0x0C0500
  else if plans.any fun x => x.2.2.2.2.comp && match x.1.outs[x.2.2.1]? with
    | some y => y.dutyW == 0
    | none => false then some 0x0C0600
  else none

/-- Changes that R503 judges. -/
def loadTouched (l : List Change) : Bool :=
  l.any fun c => match c with
    | .bind _ _ => true
    | .profile _ _ => true
    | .policy _ _ => true
    | _ => false

/-! ### Streams (R181, R391) -/

/-- The object of a stream agrees with its FEED (R391). -/
def feedFits (v : State) (mo feed : Nat) (o : Mo) : Bool :=
  match feed with
  | 0 => !o.feed
  | 1 => o.feed
  | _ => (scheduleOf v mo).isSome

/-- The declarations that wait for the stop bath of the stream they follow, developed or not (R179, R181). -/
def heldDecls (s : State) : List Decl :=
  s.records.filterMap (fun r => r.2.held) ++ (allWaiting s).filterMap fun c => match c.2 with
    | .declare n d _ => if (mget s.records n).any fun r => r.stopping then some d else none
    | _ => none

/-- The own declarations that stand after a development: those whose stream does not end (R391). -/
def standing (v : State) : List (Nat × Decl) :=
  (allDecls v).filterMap fun d => if d.2.1.foreign || d.2.2 then none else some (d.1, d.2.1)

/-- The objects whose stream or whose FEED a change decides (R391). -/
def streamMo : Change → Option Nat
  | .declare _ d _ => if d.foreign then none else some d.mo
  | .config mo _ _ _ _ => some mo
  | .shutter mo _ _ => some mo
  | .clearShutter mo => some mo
  | .alloc mo _ _ _ _ _ => some mo
  | _ => none

/-- The refusal of a development that leaves an object with two streams, or a stream without an object whose FEED agrees (R391,
R421). -/
def streamFault (v : State) (mo : Nat) : Option Nat :=
  let l := (standing v).filter fun d => d.2.mo == mo
  if l.any fun d => !((v.mo? mo).any fun o => o.tx && o.owner == d.2.ctx && feedFits v mo d.2.feed o) then some 0x090100
  else if l.length > 1 then some 0x090200
  else none

end Sys2Proof.Machine
end

