-- ==== Sys2Proof/Machine/Develop.lean ====
section
/-!
DEFINITION. Developments (R171 to R178): what each change does when it switches, the switch of a set, WHEN 0, 1 and 2, and
the commands and events of group 0x03. HEADER_COMPLETE and BUS_IDLE stand here because they switch WHEN 2 sets.
-/

namespace Sys2Proof.Machine

/-! ### Shutter schedules at a switch (R368, R374) -/

/-- Event 0x0802 about a schedule, to CTX0 and the object's owner (R386). -/
def scheduleEvent (mo reason missed : Nat) (s : State) : State :=
  let owner := match s.mo? mo with | some o => o.owner | none => 0
  raiseEvents (withOwner owner) 0x0802 (le 2 mo ++ le 1 reason ++ zeros 1 ++ le 4 missed) s

/-- The object is no longer TIMED: its armed entry becomes ordinary, a frame held outside the heap enters it (R374). -/
def clearTimed (mo : Nat) (s : State) : State :=
  s.modMo mo fun o => { o with timed := false, armed := none, noticed := false, inHeap := o.inHeap || o.full }

/-- A schedule ends. -/
def endSchedule (mo : Nat) (s : State) : State := clearTimed mo { s with schedules := mdel s.schedules mo }

/-- A single instant is served, or never will be: the schedule is over, TIMED clears and event 0x0802 tells. Its counters stay
to be read (R368, R372; log entry 64). -/
def finishSchedule (mo reason missed : Nat) (s : State) : State :=
  scheduleEvent mo reason missed
    (clearTimed mo { s with schedules := mmod s.schedules mo fun x => { x with isOver := true, missed := satAdd 32 x.missed missed } })

/-- The first instant of a grid at least 10 µs after now (R368). -/
def firstServed (s : State) (first period : Nat) : Option Nat := gridFrom first period (s.now + 10000)

/-- A schedule takes its first instant at least 10 µs from now; a single instant already past is never served (R368, R373). -/
def startSchedule (mo : Nat) (s : State) : State :=
  match scheduleOf s mo with
  | none => s
  | some x => match firstServed s x.first x.period with
    | some t => { s with schedules := mset s.schedules mo { x with next := t, pointDone := false, framed := false } }
    | none => finishSchedule mo 2 1 s

/-- The schedule of object `mo` develops: the instants of its grid that it starts too late for count as MISSED (R368, R372). -/
def developSchedule (mo : Nat) (s : State) : State :=
  let s := startSchedule mo s
  { s with schedules := mmod s.schedules mo fun x =>
      if x.isOver then x else { x with missed := satAdd 32 x.missed (gridCount x.first x.period 0 x.next) } }

/-- The schedules of a channel that has left POWER_HELD serve their earliest instants at least 10 µs from now (R373). -/
def restartSchedules (ch : Nat) (s : State) : State :=
  forEach (s.schedules.map (·.1)) (fun mo s => match s.mo? mo with
    | some o => if o.channel = ch then startSchedule mo s else s
    | none => s) s

/-! ### Streams at a switch (R180, R407, R408) -/

/-- An event of a stream's stop bath (R180). -/
def streamBathEvent (code n : Nat) (src : Source) (s : State) : State :=
  raiseEvent (ctxOf src) code (le 1 5 ++ zeros 1 ++ le 2 n) s

/-- A withdrawal develops (R407): a held declaration is cancelled, a stream that holds no frame ends at once. -/
def developWithdraw (n : Nat) (by_ : Source) (s : State) : State :=
  match mget s.records n with
  | none => s
  | some r =>
    if r.stopping then
      if r.held.isSome then streamBathEvent 0x09F2 n by_ (modRec n (fun r => { r with held := none }) s) else s
    else
      let s := withdrawRec n by_ s
      if r.decl.foreign || (mget s.records n).isSome then s else streamBathEvent 0x09F0 n by_ s

/-! ### One change (R173, R174) -/

/-- FREE_MO develops (R305): cancelled, its lock torn, its schedule ended; released now, or for a transmit object with a frame
on the bus when that frame ends. -/
def developFree (mo : Nat) (s : State) : State :=
  let s := endLockTorn mo (cancelObject mo s)
  let s := { s with schedules := mdel s.schedules mo }
  match s.mo? mo with
  | none => s
  | some o => if o.tx && o.full then s.modMo mo fun o => { o with freeing := true, en := false } else { s with mos := mdel s.mos mo }

/-- A watermark develops: the pin is evaluated once, released between LOW and HIGH (R348). -/
def developPin (pin : Nat) (s : State) : State :=
  match tget (vmap s.fq.fc some) pin none with
  | none => s
  | some p =>
    let f := match p.qid.bind qidOf with | some q => qFill s q | none => 0
    let up := p.qid.isNone || f < p.high
    if up = p.up then s
    else
      let s := { s with fq := { s.fq with fc := tmod s.fq.fc pin fun p => { p with up := up } } }
      let s := match p.qid.bind qidOf with
        | some q => if up then s else modStat q (fun t => { t with fcAsserts := inc32 t.fcAsserts }) s
        | none => s
      fcEvent pin up f s

/-- A trigger unit develops: captured edges are dropped, its compare grid starts, a pulse no unit drives any more ends
(R377, R378). -/
def developTrigger (unit : Nat) (s : State) : State :=
  let g := (s.trigger unit).set
  let s := s.modTrigger unit fun x => { x with
    edges := [], next := if g.source = 0x20 then (firstServed s g.instant g.period).getD 0 else 0 }
  let driven := fun b => s.triggers.toList.any fun t => t.set.dest.testBit 0 && t.set.pin == b
  { s with pulses := vgen 8 fun b => if driven b then tget s.pulses b none else none }

/-- A latched candidate that has not started is released unsent when the mode now in force sends no frame (R200). -/
def releaseBarred (ch : Nat) (s : State) : State :=
  let c := s.chan ch
  if c.latched.isSome && !sendingNow c && !sofDriven s ch && !sendsFrames c.mode then endUnsent ch s else s

/-- One change of context `x` switches (R174): what it writes, and what that does to what runs. -/
def applyOne (x : Nat) (s : State) (c : Change) : State :=
  match c with
  | .chanMode ch _ _ _ => judgeMode ch (releaseBarred ch (writeDown x s c))
  | .config mo _ flags _ _ =>
    if bitOf flags 0 then writeDown x s c else endLockTorn mo (writeDown x (cancelObject mo s) c)
  | .free mo => developFree mo s
  | .watermark pin _ _ _ => developPin pin (writeDown x s c)
  | .shutter mo _ _ => developSchedule mo (writeDown x s c)
  | .clearShutter mo => if (mget s.schedules mo).isSome then endSchedule mo s else s
  | .trigger u _ => developTrigger u (writeDown x s c)
  | .pps p =>
    let s := writeDown x s c
    if p.outEn then s else { s with time := { s.time with ppsOut := false } }
  | .declare n d _ => judgeMode d.channel (writeDown x s (.declare n d (.ctx 0)))
  | .withdraw n by_ => developWithdraw n by_ s
  | .cvu u p => developCvu x u p s
  | _ => writeDown x s c

/-- The substitute of SOURCE number `e` of an inbound PDU, as stored (R446, R447). -/
def substituteOf (s : State) (p : PduSet) (e : Nat) : Option (BitVec 64) :=
  if p.substBase = sigNone then none
  else match mget s.sigs (p.substBase + (e - p.first)) with
    | some g => if g.errDis then some 0 else some g.value
    | none => some 0

/-- SOURCEs of a set take their substitutes, or 0 (R447). -/
def settleSources (l : List Change) (s : State) : State :=
  forEach l (fun c s => match c with
    | .signal e (some (.source _ _ _ _ n)) _ =>
      let v := match pduOf s n with | some p => (substituteOf s p.set e).getD 0 | none => 0
      { s with sigs := mmod s.sigs e fun g => { g with value := v } }
    | _ => s) s

/-- A set of changes of context `x` switches in one step (R174, R402). -/
def applyAll (x : Nat) (l : List Change) (s : State) : State :=
  let before := s
  let s := settleSources l (l.foldl (applyOne x) s)
  let touched := touchedIn before s l
  if touched.isEmpty then s else refigure touched s

/-! ### The checks of DEVELOP (R65, R173, R181, R465) -/

/-- Functions that a change needs beside CMD (R65). -/
def changeNeeds : Change → List Nat
  | .chanMode ch _ _ _ => [3, bankBit ch]
  | .bitTiming ch _ _ => [3, bankBit ch]
  | .xcvr ch _ => [3, bankBit ch]
  | .filter _ _ => [4]
  | .clearFilter _ => [4]
  | .shutter _ _ _ => [5]
  | .clearShutter _ => [5]
  | .trigger _ _ => [5]
  | .pps _ => [5]
  | .pdu _ _ => [3, 4]
  | .signal _ _ _ => [3, 4]
  | .localIo _ => [3, 4]
  | .cvu _ _ => [11]
  | .bind _ _ => [10]
  | .profile _ _ => [10]
  | .policy _ p => if p.comp then [10, 14] else [10]
  | .link q _ => [5, portBit q]
  | .census _ _ _ _ _ _ => [5]
  | _ => [3]

/-- Contexts with an armed development, in the order in which they were admitted (R173). -/
def armedOrder (s : State) : List (Nat × Armed) :=
  sortBy (fun a b => a.2.order ≤ b.2.order) ((List.range 64).filterMap fun x => (s.ctx x).armed.map fun a => (x, a))

/-- The configuration after every armed development, and then the latent set of context `x` (R173). -/
def developView (s : State) (x : Nat) : State :=
  writeAll x (s.ctx x).latent ((armedOrder s).foldl (fun v a => writeAll a.1 a.2.changes v) s)

/-- Every change that the view of a development holds beyond the running state. -/
def developChanges (s : State) (x : Nat) : List Change :=
  (armedOrder s).flatMap (fun a => a.2.changes) ++ (s.ctx x).latent

/-- Channels whose settings a set changes. -/
def timedChannels (l : List Change) : List Nat :=
  (l.filterMap fun c => match c with
    | .chanMode ch _ _ _ => some ch
    | .bitTiming ch _ _ => some ch
    | .xcvr ch _ => some ch
    | _ => none).eraseDups

/-- The first of the checks that are made in order and give none when each passes. -/
def firstFault (l : List (Option Nat)) : Option Nat := l.findSome? id

/-- The first state check that the development of the changes `l`, which touch the channels `touched`, fails (R173, R181, R390,
R392, R421, R452, R465). The rules give no order among the tables: timing, held enables, queues, routing, link, loads, records. -/
def developFault (s v : State) (l : List Change) (touched : List Nat) (a : Option Analysis) : Option Nat :=
  firstFault [
    (timedChannels l).findSome? fun ch => timingFault (devSettings (v.chan ch)),
    if heldFault s v l then some 0x000300 else none,
    (l.filterMap fun c => match c with | .queue x _ _ _ => some x | _ => none).findSome? (queueFault v),
    routeFault v,
    if l.any (linkTargetLost v s) then some 0x0A0B00 else none,
    if l.any mayLoad && linkOverload s v then some 0x0D0300 else none,
    if loadTouched l then loadFault v else none,
    touched.findSome? (recordsFault v),
    (l.filterMap streamMo).findSome? (streamFault v),
    if a.isNone then some 0x090900 else none]

/-- The checks of R173 in the order of R151: none, or a status and detail. A failing lane overload is ranked with the failures of
the calculation (R403, R465). -/
def developCheck (s : State) (x : Nat) : Option (Nat × Nat) :=
  let v := developView s x
  let l := developChanges s x
  let touched := touchedIn s v l
  let a := if touched.isEmpty then some analysisNone else analyse v touched
  match developFault s v l touched a with
  | some d => some (stState, d)
  | none => (worstOf ((a.map (·.fails)).getD [] ++ routedOverloads v)).map fun f =>
      (stAdmission, failDetail s x (changedRecs (s.ctx x).latent) f)

/-! ### Switching (R174 to R176) -/

/-- Events 0x0301 and 0x0302 to the context whose development it is (R178). -/
def developEvent (code x b1 seq : Nat) (s : State) : State :=
  raiseEvent x code (le 1 x ++ le 1 b1 ++ zeros 2 ++ le 4 seq) s

/-- CTX0's development lets an open bundle load go on (R463). -/
def bundleGoes (x : Nat) (s : State) : State :=
  if x = 0 then { s with bundle := s.bundle.map fun b => { b with waiting := false } } else s

/-- An armed development of context `x` with WHEN 1 switches (R175, R178). -/
def switchArmed (x : Nat) (s : State) : State :=
  match (s.ctx x).armed with
  | none => s
  | some a =>
    let s := s.modCtx x fun c => { c with armed := none, switched := some a.instant }
    developEvent 0x0301 x 1 a.seq (bundleGoes x (applyAll x a.changes s))

/-- Every WHEN 1 development whose INSTANT the time base has reached switches, in the order of admission (R173, R177). -/
def switchDue (s : State) : State :=
  forEach ((armedOrder s).filter fun a => a.2.when_ == 1 && a.2.instant ≤ s.now) (fun a s => switchArmed a.1 s) s

/-- DEVELOP_SWITCH (R175): the time base reaches INSTANT. -/
def execDevelopSwitch (instant : Nat) (s : State) : Host.Outcome State Fault Refusal :=
  if (armedOrder s).any fun a => a.2.when_ == 1 && a.2.instant == instant then next (switchDue (reachTime instant s))
  else next s

/-- The channel of a set's object: the one that its CONFIG_MO gives it in the same set, else the one it is bound to. -/
def setMoChan (s : State) (l : List Change) (mo : Nat) : Option Nat :=
  match l.findSome? fun c => match c with
    | .config m ch _ _ _ => if m = mo then some ch else none
    | _ => none with
  | some ch => some ch
  | none => (s.mo? mo).bind fun o => if o.bound then some o.channel else none

/-- The channel of an entry that a set clears: that of the write before the clear in the same set, else the running entry's. -/
def setFilterChan (s : State) (l : List Change) (n : Nat) : Option Nat :=
  match l.findSome? fun c => match c with
    | .filter m f => if m = n then some f.channel else none
    | _ => none with
  | some ch => some ch
  | none => (mget s.filters.entries n).map (·.channel)

/-- The channel that a change of the set `l` is tied to: what it removes is looked up as it runs (R175). -/
def changeChan (s : State) (l : List Change) : Change → Option Nat
  | .chanMode ch _ _ _ => some ch
  | .bitTiming ch _ _ => some ch
  | .xcvr ch _ => some ch
  | .config _ ch _ _ _ => some ch
  | .free mo => (s.mo? mo).bind fun o => if o.bound then some o.channel else none
  | .filter _ f => some f.channel
  | .clearFilter n => setFilterChan s l n
  | .shutter mo _ _ => setMoChan s l mo
  | .clearShutter mo => setMoChan s l mo
  | .declare _ d _ => some d.channel
  | .withdraw n _ => (mget s.records n).map (·.decl.channel)
  | .budget ch _ _ => some ch
  | .census ch _ _ _ _ _ => some ch
  | _ => none

/-- The channel is at bus idle, or has no bus traffic to wait for. Bus idle ends at the next start of frame, its own among them
(R206). -/
def busIdleNow (s : State) (ch : Nat) : Bool := !onBus (s.chan ch) || ((s.chan ch).bus == .idle && !sofDriven s ch)

/-- The last channel of a WHEN 2 development has switched (R175). -/
def finishWhen2 (x : Nat) (s : State) : State :=
  match (s.ctx x).armed with
  | none => s
  | some a =>
    if a.when_ != 2 || !a.channels.isEmpty then s
    else developEvent 0x0301 x 2 a.seq (bundleGoes x (s.modCtx x fun c => { c with armed := none }))

/-- The changes of a WHEN 2 development for channel `ch` switch; `forced` after IDLE_LIMIT (R175, R176). With its last channel all
that is left switches, whatever has become of what it was tied to. -/
def switchChan (x ch : Nat) (forced : Bool) (s : State) : State :=
  match (s.ctx x).armed with
  | none => s
  | some a =>
    if a.when_ != 2 || !a.channels.contains ch then s
    else
      let left := a.channels.filter (· != ch)
      let now := fun c => left.isEmpty || changeChan s a.changes c == some ch
      let s := s.modCtx x fun c => { c with armed := some { a with
        changes := a.changes.filter fun c => !now c, channels := left, late := a.late.filter fun n => n % 64 != ch } }
      let s := applyAll x (a.changes.filter now) s
      let s := if forced then developEvent 0x0302 x (virtChan s x ch) a.seq s else s
      finishWhen2 x s

/-- Every WHEN 2 development switches its changes for a channel at bus idle (R175). -/
def switchIdle (ch : Nat) (s : State) : State := forEach (armedOrder s) (fun a s => switchChan a.1 ch false s) s

/-- The intermission after the next frame of a channel past IDLE_LIMIT ends (R176). -/
def switchLate (ch : Nat) (s : State) : State :=
  forEach ((armedOrder s).filter fun a => a.2.late.contains (ch + 64)) (fun a s => switchChan a.1 ch true s) s

/-- BUS_IDLE (R206): bus idle begins. -/
def execBusIdle (ch : Fin 64) (s : State) : Host.Outcome State Fault Refusal :=
  let c := s.chan ch.val
  if !onBus c then next s
  else match c.bus with
    | .sending _ => next s
    | .receiving => next s
    | .integration => next s
    | _ =>
      let s := (enterIntermission ch.val .idle s).modChan ch.val fun c => { c with wasTx := false }
      next (switchIdle ch.val (switchLate ch.val s))

/-- IDLE_LIMIT_EXPIRY (R176): the channel's changes switch after its next frame. -/
def execIdleLimitExpiry (c ch : Fin 64) (s : State) : Host.Outcome State Fault Refusal :=
  match (s.ctx c.val).armed with
  | none => next s
  | some a =>
    if a.when_ != 2 || !a.channels.contains ch.val then next s
    else
      let s := reachClk a.limitAt s
      if busIdleNow s ch.val then next (switchChan c.val ch.val false s)
      else if a.late.any fun n => n % 64 == ch.val then next s
      else next (s.modCtx c.val fun x => { x with armed := x.armed.map fun a => { a with late := a.late ++ [ch.val] } })

/-- A frame starts on the channel, which ends the intermission that a late channel waits for (R176). -/
def frameStarts (ch : Nat) (s : State) : State := if sendingNow (s.chan ch) then s else switchLate ch (endErrorFrame ch s)

/-- HEADER_COMPLETE (R320); `parity`: the claimed stamp was dropped on its crossing (R21). -/
def execHeaderComplete (ch : Fin 64) (hdr : Hdr) (edges : List (Nat × Nat)) (decision : Fin 3001) (parity : Bool) (s : State) :
    Host.Outcome State Fault Refusal :=
  let s := headerDone ch.val hdr edges decision.val (frameStarts ch.val s)
  next (if parity then dropStamp ch.val s else s)

/-- ARBITRATION_LOST (R213). -/
def execArbitrationLost (ch : Fin 64) (s : State) : Host.Outcome State Fault Refusal :=
  next (loseArbitration ch.val (frameStarts ch.val s))

/-- ARBITRATION_WON (R213). -/
def execArbitrationWon (ch : Fin 64) (s : State) : Host.Outcome State Fault Refusal :=
  next (winArbitration ch.val (frameStarts ch.val s))

/-- BUS_ERROR_DETECTED (R268). -/
def execBusErrorDetected (ch : Fin 64) (code : ErrCode) (field : FieldCode) (ed : Bool) (row : ErrRow) (acked : Bool)
    (bytes : Fin 2049) (tdcv : Option (Fin 128)) (edges : List (Nat × Nat)) (s : State) : Host.Outcome State Fault Refusal :=
  let s := if field == .errOvl || field == .interSuspend then s else frameStarts ch.val s
  next (errorSeen ch.val code field ed row acked bytes.val tdcv edges s)

/-- FAST_FRAME_LOST (R201). -/
def execFastFrameLost (ch : Fin 64) (edges : List (Nat × Nat)) (s : State) : Host.Outcome State Fault Refusal :=
  next (fastLost ch.val edges (frameStarts ch.val s))

/-- PROTOCOL_EXCEPTION (R197). -/
def execProtocolException (ch : Fin 64) (edges : List (Nat × Nat)) (s : State) : Host.Outcome State Fault Refusal :=
  next (protocolException ch.val edges (frameStarts ch.val s))

/-- CHANNEL_STOP_BATH_END (R203): with it ends the intermission that a late channel waits for (R176). -/
def execChannelStopBathEnd (ch : Fin 64) (s : State) : Host.Outcome State Fault Refusal :=
  next (switchLate ch.val (stopEnds ch.val s))

/-- STBN_SETTLE_END (R207): the channel enters INTEGRATING and the enable is answered. A channel that a power state had held
serves its schedules again from here (R373); with an entry into a power state under way it stays held (R197). -/
def execStbnSettleEnd (ch : Fin 64) (s : State) : Host.Outcome State Fault Refusal :=
  let c := s.chan ch.val
  if !c.settleWait || !s.isReady (bankBit ch.val) || powerBlocks s then next s
  else
    let s := reachClk c.settleEnd s
    let s := enterIntegrating ch.val s
    let s := answerEnable ch.val 1 (stampNow s) s
    next (if c.state == .powerHeld then restartSchedules ch.val s else s)

/-! ### Commands of group 0x03 -/

/-- The latent set of context `x` is developed or armed (R175). -/
def developNow (x when_ limit instant : Nat) (s : State) : State × Nat × Nat :=
  let l := (s.ctx x).latent
  let seq := ((s.ctx x).seq + 1) % 2 ^ 32
  let order := 1 + ((armedOrder s).map fun a => a.2.order).foldl max 0
  let s := s.modCtx x fun c => { c with latent := [], seq := seq, switched := none }
  let armed := fun (changes : List Change) (chans : List Nat) =>
    ({ when_ := when_, instant := instant, changes := changes, seq := seq, channels := chans,
       limitAt := s.time.clk + limit * msNs, late := [], order := order } : Armed)
  match when_ with
  | 0 => (bundleGoes x (applyAll x l s), stampNow s, seq)
  | 1 => (s.modCtx x fun c => { c with armed := some (armed l []) }, instant, seq)
  | _ =>
    let tied := changeChan s l
    let chans := (l.filterMap tied).eraseDups
    let s' := s.modCtx x fun c => { c with armed := some (armed (l.filter fun c => (tied c).isSome) chans) }
    let s' := applyAll x (l.filter fun c => (tied c).isNone) s'
    let s' := forEach chans (fun ch s => if busIdleNow s ch then switchChan x ch false s else s) s'
    (finishWhen2 x s', stampNow s, seq)

/-- The time in ns that the checks of a development take: open within the bound of R405 (log entry 4). -/
def checkTime (s : State) (x : Nat) : Nat :=
  let v := developView s x
  let touched := touchedIn s v (developChanges s x)
  if touched.isEmpty then 0
  else freeAt s 0 % (2000000 + 25000 * (touched.flatMap fun ch => declsOn v ch).length + 1)

/-- The checks of a development at `instant` end later than 10 µs before it (R406). -/
def checkedLate (s : State) (x instant : Nat) : Bool := instant < s.now + checkTime s x + 10000

/-- DEVELOP (R173, R175, R177, R406). -/
def develop (p : Packet) (s : State) : Verdict :=
  let x := stageCtx p
  let when_ := byteAt p.params 0
  let limit := byteAt p.params 1
  let instant := fieldAt p.params 4 8
  badParam (when_ > 2) 0 <|
  badParam (when_ ≠ 2 && limit ≠ 0) 1 <|
  badParam (!zeroAt p.params 2 2) 2 <|
  badParam (if when_ = 1 then instant < s.now + 50000 || s.now + 2 ^ 40 < instant else instant ≠ 0) 4 <|
  refuseIf (s.ctx x).armed.isSome stState 0x000100 <|
    match developCheck s x with
    | some (st, d) =>
      if st = stAdmission && when_ = 1 && checkedLate s x instant then .reply (drawn 1 s) stState 0x090700 []
      else .refuse st d
    | none =>
      if when_ = 1 && checkedLate s x instant then .reply (drawn 1 s) stState 0x090700 []
      else
        let count := itemCount (s.ctx x).latent
        let r := developNow x when_ (if limit = 0 then 10 else limit) instant (drawn 1 s)
        okBody r.1 (le 4 count ++ le 8 r.2.1 ++ le 4 r.2.2)

/-- Functions that a DEVELOP needs (R65). -/
def developNeeds (p : Packet) (s : State) : List Nat := 2 :: ((s.ctx (stageCtx p)).latent.flatMap changeNeeds).eraseDups

/-- DEVELOP: its row of the opcode index. -/
def specDevelop : CmdSpec :=
  { opcode := 0x0301, plen := plenIs 3, right := fromOwn, needs := developNeeds, readOnly := false }

/-- DEVELOP (R175). -/
def execDevelop (p : Packet) (s : State) : Host.Outcome State Fault Refusal := next (runCommand specDevelop develop p s)

/-- The declarations among a context's staged changes that an enable held for a stop bath: dropped, they are cancelled with event
0x09F2, which goes to CTX0 while the context departs (R180, R408). -/
def cancelHeldDecls (x : Nat) (l : List Change) (s : State) : State :=
  forEach (l.filterMap fun c => match c with
    | .declare n _ by_ => if (mget s.records n).any fun r => r.stopping then some (n, by_) else none
    | _ => none) (fun n s => streamBathEvent 0x09F2 n.1 (if (s.ctx x).state == .departing then .ctx 0 else n.2) s) s

/-- The latent set of a context is discarded, and an open bundle load with it (R172, R464). -/
def dropLatent (x : Nat) (s : State) : State :=
  let s := cancelHeldDecls x (s.ctx x).latent (s.modCtx x fun c => { c with latent := [] })
  if x = 0 then { s with bundle := none } else s

/-- DISCARD_LATENT. -/
def discardLatent (p : Packet) (s : State) : Verdict :=
  let x := stageCtx p
  okBody (dropLatent x s) (le 4 (itemCount (s.ctx x).latent))

/-- DISCARD_LATENT: its row of the opcode index. -/
def specDiscardLatent : CmdSpec :=
  { opcode := 0x0302, plen := plenIs 0, right := fromOwn, needs := needsOf [2], readOnly := false }

/-- DISCARD_LATENT (R172). -/
def execDiscardLatent (p : Packet) (s : State) : Host.Outcome State Fault Refusal :=
  next (runCommand specDiscardLatent discardLatent p s)

/-- A guest may name only itself in parameter byte 0 (R156). -/
def fromSelf : SourceRule := fun p _ =>
  match guestOf p.source with
  | none => none
  | some g => if byteAt p.params 0 % 64 = g then none else some 0xFF

/-- GET_LATENT (R178). -/
def getLatent (p : Packet) (s : State) : Verdict :=
  let x := byteAt p.params 0
  badParam (x ≥ 64) 0 <|
  badParam (!zeroAt p.params 1 3) 1 <|
    let c := s.ctx x
    let a := match c.armed with
      | some a => le 1 1 ++ zeros 3 ++ le 8 a.instant ++ le 4 a.seq
      | none => zeros 16
    okBody s (le 4 (itemCount c.latent) ++ a)

/-- GET_LATENT: its row of the opcode index. -/
def specGetLatent : CmdSpec :=
  { opcode := 0x0303, plen := plenIs 1, right := fromSelf, needs := needsOf [2], readOnly := true }

/-- GET_LATENT (R172). -/
def execGetLatent (p : Packet) (s : State) : Host.Outcome State Fault Refusal := next (runCommand specGetLatent getLatent p s)

/-- CANCEL_DEVELOP (R178). -/
def cancelDevelop (p : Packet) (s : State) : Verdict :=
  let x := stageCtx p
  let c := s.ctx x
  match c.armed with
  | some a =>
    refuseIf (a.when_ = 2) stState 0x000200 <|
      if a.instant ≤ s.now then .reply s stTooLate 0 (le 8 a.instant)
      else okBody (s.modCtx x fun c => { c with armed := none, latent := joinLatent a.changes c.latent }) (zeros 8)
  | none => match c.switched with
    | some t => .reply s stTooLate 0 (le 8 t)
    | none => .refuse stState 0x000500

/-- CANCEL_DEVELOP: its row of the opcode index. -/
def specCancelDevelop : CmdSpec :=
  { opcode := 0x0304, plen := plenIs 0, right := fromOwn, needs := needsOf [2], readOnly := false }

/-- CANCEL_DEVELOP (R178). -/
def execCancelDevelop (p : Packet) (s : State) : Host.Outcome State Fault Refusal :=
  next (runCommand specCancelDevelop cancelDevelop p s)

/-- STREAM_STOP_BATH_END (R407, R408): the last frame of a withdrawn stream has completed; a held declaration becomes active. -/
def execStreamStopBathEnd (record : Fin 32768) (s : State) : Host.Outcome State Fault Refusal :=
  match mget s.records record.val with
  | none => next s
  | some r =>
    if !r.stopping || r.stopLive || r.stopStaged then next s
    else
      let s1 := streamBathEvent 0x09F0 record.val r.stopBy s
      let ch := r.decl.channel
      match r.held with
      | none => next (refigure [ch] { s1 with records := mdel s1.records record.val })
      | some d =>
        let s2 := { s1 with records := mset s1.records record.val (recNew d) }
        next (judgeMode ch (streamBathEvent 0x09F1 record.val (.ctx ⟨d.ctx % 64, Nat.mod_lt _ (by decide)⟩) (refigure [ch, d.channel] s2)))

end Sys2Proof.Machine
end

