-- ==== Sys2Proof/Machine/ChannelCmds.lean ====
section
/-!
DEFINITION. The commands of group 0x04 (R230 to R233, R252, R276): settings, enable and disable, CANCEL_TX, recovery, status.
-/

namespace Sys2Proof.Machine

/-- The physical channel that parameter byte `off` names, or BAD_PARAM there (R162). -/
def withChan (p : Packet) (s : State) (off : Nat) (k : Nat → Verdict) : Verdict :=
  let v := byteAt p.params off
  match if v ≥ 64 then none else srcChan s p.source v with
  | none => .refuse stParam (16 + off)
  | some ch => k ch

/-- Functions of group 0x04: CMD, MEM and the bank of the channel in parameter byte 0 (R65). -/
def chanNeeds (p : Packet) (s : State) : List Nat :=
  match srcChan s p.source (byteAt p.params 0 % 64) with
  | some ch => [2, 3, bankBit ch]
  | none => [2, 3]

/-- The configuration that a latent command is checked against: the running state with the sender's changes (R171). -/
def stagedFor (p : Packet) (s : State) : State := stagedView s (stageCtx p)

/-- A held enable of the channel would fail its checks under these settings (R181). -/
def heldFails (s : State) (ch : Nat) (t : ChanSettings) : Bool := (s.chan ch).held.isSome && !timingsReady t

/-! ### SET_CHANNEL_MODE (R229, R230, R249) -/

/-- Formats that a bound object or a filter entry uses on the channel. -/
def formatsUsed (v : State) (ch : Nat) : Nat :=
  (v.mos.foldl (fun a m => if m.2.bound && m.2.channel == ch then a ||| m.2.fmts else a) 0)
    ||| v.filters.entries.foldl (fun a f => if f.2.channel == ch then a ||| f.2.fmts else a) 0

/-- SET_CHANNEL_MODE. -/
def setChannelMode (p : Packet) (s : State) : Verdict :=
  let mode := byteAt p.params 1
  let formats := byteAt p.params 2
  let options := byteAt p.params 3
  withChan p s 0 fun ch =>
  badParam (mode > 4) 1 <|
  badParam (formats ≥ 8 || formats % 2 = 0) 2 <|
  badParam (options ≥ 8) 3 <|
  badParam (!zeroAt p.params 4 4) 4 <|
  bundleOpen s p <|
    let v := stagedFor p s
    let t := devSettings (v.chan ch)
    let t' := { t with mode := mode, formats := formats, options := options }
    let used := formatsUsed v ch
    refuseIf ((List.range 3).any fun b => t.formats.testBit b && !formats.testBit b && used.testBit b) stState 0x040500 <|
    refuseIf ((s.chan ch).state != .disabled &&
      ((formats.testBit 1 && t.fdData.isNone) || (formats.testBit 2 && t.xlData.isNone))) stState 0x040700 <|
    refuseIf (heldFails s ch t') stState 0x000300 <|
      stage p [.chanMode ch mode formats options] s []

/-- SET_CHANNEL_MODE: its row of the opcode index. -/
def specSetChannelMode : CmdSpec :=
  { opcode := 0x0401, plen := plenIs 2, right := fromOwner 0, needs := chanNeeds, readOnly := false }

/-- SET_CHANNEL_MODE (R230). -/
def execSetChannelMode (p : Packet) (s : State) : Host.Outcome State Fault Refusal :=
  next (runCommand specSetChannelMode setChannelMode p s)

/-! ### SET_BIT_TIMING (R237, R238, R252, R253) -/

/-- Ranges of a phase: TSEG1, TSEG2, SJW, and the least and largest bank clocks of a bit (R237). -/
structure PhaseRange where
  t1lo : Nat
  t1hi : Nat
  t2hi : Nat
  sjwhi : Nat
  qlo  : Nat
  qhi  : Nat
  clo  : Nat

/-- The ranges of R237. -/
def phaseRange : Nat → PhaseRange
  | 0 => { t1lo := 2, t1hi := 256, t2hi := 128, sjwhi := 128, qlo := 8, qhi := 385, clo := 160 }
  | 1 => { t1lo := 1, t1hi := 64, t2hi := 32, sjwhi := 32, qlo := 4, qhi := 97, clo := 20 }
  | _ => { t1lo := 1, t1hi := 64, t2hi := 32, sjwhi := 32, qlo := 4, qhi := 97, clo := 8 }

/-- SET_BIT_TIMING. -/
def setBitTiming (p : Packet) (s : State) : Verdict :=
  let ph := byteAt p.params 1
  let r := phaseRange ph
  let t : BitTiming :=
    { brp := byteAt p.params 2, tseg1 := fieldAt p.params 4 2, tseg2 := byteAt p.params 6, sjw := byteAt p.params 7,
      tdc := byteAt p.params 8, tdco := byteAt p.params 9, tdcf := byteAt p.params 10 }
  let q := 1 + t.tseg1 + t.tseg2
  let k := bitClocks t
  withChan p s 0 fun ch =>
  badParam (ph > 2) 1 <|
  badParam (t.brp < 1 || t.brp > 32) 2 <|
  badParam (!zeroAt p.params 3 1) 3 <|
  badParam (t.tseg1 < r.t1lo || t.tseg1 > r.t1hi || q < r.qlo || q > r.qhi || k.bit < r.clo || k.bit > 3200) 4 <|
  badParam (t.tseg2 < 2 || t.tseg2 > r.t2hi) 6 <|
  badParam (t.sjw < 1 || t.sjw > r.sjwhi || t.sjw > t.tseg1 || t.sjw > t.tseg2) 7 <|
  badParam (t.tdc > 2 || (ph = 0 && t.tdc ≠ 0)) 8 <|
  badParam (t.tdco > 127 || (t.tdc = 0 && t.tdco ≠ 0)) 9 <|
  badParam (t.tdcf > 127 || (t.tdc ≠ 1 && t.tdcf ≠ 0)) 10 <|
  badParam (!zeroAt p.params 11 1) 11 <|
  bundleOpen s p <|
    match timingFault (setPhase ph t (devSettings ((stagedFor p s).chan ch))) with
    | some d => .refuse stState d
    | none => stage p [.bitTiming ch ph t] s (le 2 k.bit ++ le 2 k.sample ++ le 4 (160000000 / k.bit))

/-- SET_BIT_TIMING: its row of the opcode index. -/
def specSetBitTiming : CmdSpec :=
  { opcode := 0x0402, plen := plenIs 3, right := fromOwner 0, needs := chanNeeds, readOnly := false }

/-- SET_BIT_TIMING (R252). -/
def execSetBitTiming (p : Packet) (s : State) : Host.Outcome State Fault Refusal :=
  next (runCommand specSetBitTiming setBitTiming p s)

/-! ### SET_TRANSCEIVER (R225, R233) -/

/-- SET_TRANSCEIVER. -/
def setTransceiver (p : Packet) (s : State) : Verdict :=
  let dflt := fun (v d : Nat) => if v = 0 then d else v
  let x : Transceiver :=
    { stbn := byteAt p.params 1, settle := dflt (byteAt p.params 2) 40, fast := bitOf (byteAt p.params 3) 0,
      pwms := dflt (byteAt p.params 4) 3, pwml := dflt (byteAt p.params 5) 9, pwmo := byteAt p.params 6 }
  withChan p s 0 fun ch =>
  badParam (x.stbn > 2) 1 <|
  badParam (byteAt p.params 3 ≥ 2) 3 <|
  badParam (x.pwms > 62 || x.pwms ≥ x.pwml || x.pwms + x.pwml > 63) 4 <|
  badParam (x.pwml < 2 || x.pwml > 62) 5 <|
  badParam (x.pwmo > 63) 6 <|
  badParam (!zeroAt p.params 7 1) 7 <|
  bundleOpen s p <|
    match timingFault { devSettings ((stagedFor p s).chan ch) with xcvr := x } with
    | some d => .refuse stState d
    | none => stage p [.xcvr ch x] s []

/-- SET_TRANSCEIVER: its row of the opcode index. -/
def specSetTransceiver : CmdSpec :=
  { opcode := 0x0408, plen := plenIs 2, right := fromOwner 0, needs := chanNeeds, readOnly := false }

/-- SET_TRANSCEIVER (R233). -/
def execSetTransceiver (p : Packet) (s : State) : Host.Outcome State Fault Refusal :=
  next (runCommand specSetTransceiver setTransceiver p s)

/-! ### ENABLE_CHANNEL and DISABLE_CHANNEL (R179 to R181, R203, R207) -/

/-- ENABLE_CHANNEL. On a channel already enabled it changes nothing, ACK_RUN among it (R181, R265), and so it is answered at once
during the SETTLE wait of an enable, with STATE 0x0 and STAMP 0 (DESIGN CHOICE, log entry 56). -/
def enableChannel (p : Packet) (s : State) : Verdict :=
  let mode := byteAt p.params 1
  withChan p s 0 fun ch =>
  badParam (mode > 4 && mode ≠ 0xFF) 1 <|
  badParam (!zeroAt p.params 2 2) 2 <|
  refuseIf (powerBlocks s) stState 0x040300 <|
  refuseIf (!timingsReady (devSettings (s.chan ch))) stState 0x040100 <|
    let c := s.chan ch
    if c.stop.isSome then
      .reply (s.modChan ch fun c => { c with held := some { by_ := p.source, mode := mode } }) stDeferred 1 []
    else if c.state = .disabled && !c.settleWait then .wait (applyEnable ch mode (some p) s)
    else okBody s (enableBody (chanCode c.state) 0)

/-- Functions that ENABLE_CHANNEL needs: ROUTE too (R65). -/
def enableNeeds (p : Packet) (s : State) : List Nat := 4 :: chanNeeds p s

/-- ENABLE_CHANNEL: its row of the opcode index. -/
def specEnableChannel : CmdSpec :=
  { opcode := 0x0403, plen := plenIs 1, right := fromOwner 0, needs := enableNeeds, readOnly := false }

/-- ENABLE_CHANNEL (R207). -/
def execEnableChannel (p : Packet) (s : State) : Host.Outcome State Fault Refusal :=
  next (runCommand specEnableChannel enableChannel p s)

/-- A disable of the channel by `by_` (R179, R181, R197, R204). During the SETTLE wait of an enable it ends the wait, and that enable
is answered OK with STATE 0x0 and STAMP 0 (DESIGN CHOICE, log entry 56). -/
def disableNow (ch : Nat) (by_ : Source) (s : State) : State :=
  let c := s.chan ch
  if c.stop.isSome then
    let s := s.modChan ch fun c => { c with stop := match c.stop with | some .power => some (.disable by_) | x => x }
    if c.held.isNone then s
    else chanBathEvent ch 0x04F2 (ctxOf by_) (s.modChan ch fun c => { c with held := none })
  else match c.state with
    | .running => startStop ch (.disable by_) s
    | .disabled => if c.settleWait then answerEnable ch 0 0 (s.modChan ch fun c => { c with settleWait := false }) else s
    | .clockHeld => s
    | .stopping => s
    | .powerHeld => restartSchedules ch
        (enterState ch .disabled (s.modChan ch fun c => { c with settleWait := false, wasBusOff := false }))
    | _ => leaveAtOnce ch .disabled s

/-- DISABLE_CHANNEL. -/
def disableChannel (p : Packet) (s : State) : Verdict :=
  withChan p s 0 fun ch =>
  badParam (!zeroAt p.params 1 3) 1 <|
    okDone (disableNow ch p.source s)

/-- Functions that DISABLE_CHANNEL needs: CMD and MEM alone in POWER_HELD (R65). -/
def disableNeeds (p : Packet) (s : State) : List Nat :=
  match srcChan s p.source (byteAt p.params 0 % 64) with
  | some ch => if (s.chan ch).state = .powerHeld then [2, 3] else [2, 3, bankBit ch]
  | none => [2, 3]

/-- DISABLE_CHANNEL: its row of the opcode index. -/
def specDisableChannel : CmdSpec :=
  { opcode := 0x0404, plen := plenIs 1, right := fromOwner 0, needs := disableNeeds, readOnly := false }

/-- DISABLE_CHANNEL (R203). -/
def execDisableChannel (p : Packet) (s : State) : Host.Outcome State Fault Refusal :=
  next (runCommand specDisableChannel disableChannel p s)

/-! ### CANCEL_TX (R219 to R221, R296) -/

/-- The object that a 14-bit field names. -/
def moField (p : Packet) (off : Nat) : Nat := fieldAt p.params off 2 % 0x4000

/-- A source rule for an object of the sender's own, named at parameter offset 0 (R156). -/
def fromMoOwner : SourceRule := fun p s =>
  match actsAs p.source with
  | none => some 0xFF
  | some c => match s.mo? (moField p 0) with
    | some o => if o.owner = c then none else some 0xFF
    | none => none

/-- CANCEL_TX. -/
def cancelTx (p : Packet) (s : State) : Verdict :=
  let mo := moField p 0
  badParam (fieldAt p.params 0 2 ≥ 0x4000) 0 <|
  badParam (!zeroAt p.params 2 2) 2 <|
    match s.mo? mo with
    | none => .refuse stState 0x040400
    | some o =>
      refuseIf (!o.tx) stState 0x040400 <|
        if !o.full then .reply s stTooLate 0 (cancelBody 3 0xF o.lastSof)
        else
          let s := discardStaged mo s
          if !o.latched then .reply (withdrawPending mo s) stOk 0 (cancelBody 0 (withdrawnResult o) 0)
          else
            let s := s.modChan o.channel fun c => { c with cancelled := true }
            if wonNow (s.chan o.channel) then
              .reply (countCancel o.channel true s) stTooLate 0 (cancelBody 2 0xF (s.chan o.channel).sof)
            else .wait (s.modChan o.channel fun c => { c with cancelling := c.cancelling ++ [p] })

/-- Functions that CANCEL_TX needs: the bank of the object's channel (R65). -/
def cancelNeeds (p : Packet) (s : State) : List Nat :=
  match s.mo? (moField p 0) with
  | some o => if o.bound then [2, 3, bankBit o.channel] else [2, 3]
  | none => [2, 3]

/-- CANCEL_TX: its row of the opcode index. -/
def specCancelTx : CmdSpec :=
  { opcode := 0x0405, plen := plenIs 1, right := fromMoOwner, needs := cancelNeeds, readOnly := false }

/-- CANCEL_TX (R219). -/
def execCancelTx (p : Packet) (s : State) : Host.Outcome State Fault Refusal := next (runCommand specCancelTx cancelTx p s)

/-! ### RECOVER_BUS_OFF (R262, R264, R276, R277) -/

/-- Occurrences counted in the recovery in progress; 0 with none in progress (R271). -/
def progressOf (c : Chan) : Nat := if c.state == .recovering then c.progress else 0

/-- Result bytes of RECOVER_BUS_OFF (R276). -/
def recoverBody (c : Chan) (stamp : Nat) : List Byte := le 1 (chanCode c.state) ++ le 1 (progressOf c) ++ zeros 2 ++ le 8 stamp

/-- RECOVER_BUS_OFF. -/
def recoverBusOff (p : Packet) (s : State) : Verdict :=
  let action := byteAt p.params 1
  let policy := byteAt p.params 2
  let count := byteAt p.params 3
  let delay := fieldAt p.params 4 2
  withChan p s 0 fun ch =>
  badParam (action > 1) 1 <|
  badParam (policy ≥ 16 || (action = 0 && policy ≠ 0)) 2 <|
  badParam (action = 0 && count ≠ 0) 3 <|
  badParam (action = 0 && delay ≠ 0) 4 <|
  badParam (!zeroAt p.params 6 2) 6 <|
    let c := s.chan ch
    if action = 1 then
      let s := s.modChan ch fun c => { c with
        auto := bitOf policy 0, freeze := BitVec.ofNat 3 (policy / 2), aloneCount := if count = 0 then 16 else count
        autoDelay := delay, busOffAt := if c.state = .busOff then s.time.clk else c.busOffAt }
      okBody s (recoverBody (s.chan ch) 0)
    else
      refuseIf (c.state = .powerHeld || c.state = .clockHeld) stState 0x040900 <|
      refuseIf (c.state ≠ .busOff && c.state ≠ .recovering) stState 0x040800 <|
        let s := startRecovery ch s
        okBody s (recoverBody (s.chan ch) (s.chan ch).recovStart)

/-- The channel owner; the freeze causes are for CTX0 and the master alone (R277). -/
def fromRecover : SourceRule := fun p s =>
  match fromOwner 0 p s with
  | some d => some d
  | none => if byteAt p.params 2 / 2 % 8 ≠ 0 && (guestOf p.source).isSome then some 0xFF else none

/-- RECOVER_BUS_OFF: its row of the opcode index. -/
def specRecoverBusOff : CmdSpec :=
  { opcode := 0x0406, plen := plenIs 2, right := fromRecover, needs := chanNeeds, readOnly := false }

/-- RECOVER_BUS_OFF (R276). -/
def execRecoverBusOff (p : Packet) (s : State) : Host.Outcome State Fault Refusal :=
  next (runCommand specRecoverBusOff recoverBusOff p s)

/-! ### GET_CHANNEL_STATUS (R232, R271) -/

/-- The counters of R232 and R271 as they stand in the record. -/
def statusCounters (k : ChanCounters) : List Byte :=
  le 4 k.txOk ++ le 4 k.rxOk ++ le 4 k.arbLost ++ le 4 k.retx ++ le 4 k.cancels ++ le 4 k.tooLate ++ le 4 k.pexCount
    ++ le 4 k.fastLost

/-- The error counters of R271. -/
def errorCounters (k : ChanCounters) : List Byte :=
  le 4 k.bitErr ++ le 4 k.stuffErr ++ le 4 k.formErr ++ le 4 k.crcErr ++ le 4 k.ackErr ++ le 4 k.esdLost ++ le 4 k.tdcFail
    ++ le 4 k.passives ++ le 4 k.busOffs ++ le 4 k.recovs ++ le 4 k.errEvents ++ le 4 k.alones

/-- POLICY of RECOVER_BUS_OFF as it is read (R271). -/
def policyByte (c : Chan) : Nat := flag c.auto 1 + 2 * c.freeze.toNat

/-- The 128 bytes of a channel's record (R232, R271). -/
def chanRecord (s : State) (ch : Nat) : List Byte :=
  let c := s.chan ch
  let sending := sendingNow c || sofDriven s ch
  let flags := flag c.latched.isSome 1 + flag sending 2 + flag (c.bus == .receiving) 4 + flag c.held.isSome 8
    + flag (stbnHigh s ch) 16 + flag c.cur.xcvr.fast 32 + flag c.alone 64
  le 1 (chanCode c.state) ++ le 1 c.mode ++ le 1 c.cur.formats ++ le 1 c.cur.options ++ le 1 flags ++ le 1 (errState c)
    ++ le 1 (tecRead c) ++ zeros 1 ++ le 2 c.recErr
    ++ le 2 (match c.latched with | some m => 0x8000 + m | none => 0)
    ++ statusCounters c.counters ++ le 4 (heapOf s ch).length ++ le 8 (lastSofOf s ch)
    ++ errorCounters c.counters ++ le 4 c.ackRun ++ le 8 c.lastErrAt ++ le 1 (errNum c.lastErr + 16 * fieldNum c.lastField)
    ++ zeros 1 ++ le 1 (progressOf c) ++ le 1 (policyByte c) ++ le 2 c.autoDelay ++ le 1 c.aloneCount ++ zeros 1
    ++ le 1 (c.tdcvFd.getD 0xFF) ++ le 1 (c.tdcvXl.getD 0xFF) ++ zeros 2

/-- GET_CHANNEL_STATUS. -/
def getChannelStatus (p : Packet) (s : State) : Verdict :=
  withChan p s 0 fun ch =>
  badParam (!zeroAt p.params 1 3) 1 <|
    okBody s (chanRecord s ch)

/-- GET_CHANNEL_STATUS: its row of the opcode index. -/
def specGetChannelStatus : CmdSpec :=
  { opcode := 0x0407, plen := plenIs 1, right := fromAnyRight 0, needs := chanNeeds, readOnly := true }

/-- GET_CHANNEL_STATUS (R232). -/
def execGetChannelStatus (p : Packet) (s : State) : Host.Outcome State Fault Refusal :=
  next (runCommand specGetChannelStatus getChannelStatus p s)

end Sys2Proof.Machine
end

