-- ==== Sys2Proof/Machine/MemErrors.lean ====
section
/-!
DEFINITION. Uncorrectable words of the payload pool, whatever read finds them, and what every memory finding does (R36, R37,
R39, R283, R299 to R301).
-/

namespace Sys2Proof.Machine

/-! ### Regions and findings (R30, R31, R36, R37) -/

/-- SOURCE of fault-log class 0x01 (R39). -/
def regionCode : Region → Nat
  | .signalTable => 0 | .payloadPool => 1 | .filterStore => 2 | .pduTable => 3 | .moDescriptors => 4
  | .admissionRecords => 5 | .commandRam => 6 | .queueStorage => 7 | .census => 8 | .filmstrip => 9 | .statistics => 10
  | .slotA => 0x10 | .slotB => 0x11 | .settingsA => 0x12 | .settingsB => 0x13 | .security => 0x14 | .faultLog => 0x15
  | .reserve => 0x16

/-- The counters of R37 that a region counts in. -/
def regionIndex (r : Region) : Nat := min (regionCode r) 11

/-- The counters of a region changed by `f`. -/
def modCounter (r : Region) (f : MemCounter → MemCounter) (s : State) : State :=
  { s with mem := { s.mem with regions := tmod s.mem.regions (regionIndex r) f } }

/-- The event of R36 for an item whose event the spec gives no code: code and data are free values (log entry 4). -/
def memoryEvent (cs : List Nat) (s : State) : State :=
  let code := freeAt s 0 % 65536
  let data := [1, 2, 3, 4].flatMap fun k => le 4 (freeAt s k)
  raiseEvents cs code data (drawn 5 s)

/-! ### The payload pool (R36, R283, R299, R300) -/

/-- The object that holds a cell. -/
def cellOwner (s : State) (cell : Nat) : Option (Nat × Mo) :=
  s.mos.find? fun m => m.2.cellBase ≤ cell && cell < m.2.cellBase + 2 * m.2.b

/-- The object is disabled with ERR_DIS, and what it has under way is cancelled (R36, R301). -/
def disableObject (mo : Nat) (retire : Bool) (s : State) : State :=
  cancelObject mo (s.modMo mo fun o => { o with errDis := true, en := false, retired := o.retired || retire })

/-- Event 0x0502 (R301). -/
def objectEvent (mo : Nat) (o : Mo) (why cell : Nat) (s : State) : State :=
  raiseEvents (withOwner o.owner) 0x0502 (le 2 mo ++ le 1 why ++ zeros 1 ++ le 4 cell) s

/-- The contexts that hear of a cell that no object holds: CTX0 and the one whose page it lies in (R36, R279). -/
def cellHolder (s : State) (cell : Nat) : List Nat :=
  match s.pool.pages.getD (cell / pageCells) none with
  | some c => withOwner c
  | none => [0]

/-- A cell is retired and, where an object holds it, the object with it; a free cell is told of by the event of R36 (R36,
R283). -/
def retireCell (cell : Nat) (s : State) : State :=
  let new := !s.pool.retired.contains cell
  let s := { s with
    pool := { s.pool with
      retired := if new then s.pool.retired ++ [cell] else s.pool.retired
      suspect := s.pool.suspect.filter fun w => (w.1 - poolBase) / 64 != cell }
    mem := { s.mem with retired := if new then min 114688 (s.mem.retired + 1) else s.mem.retired } }
  match cellOwner s cell with
  | some (mo, o) => objectEvent mo o 2 cell (disableObject mo true s)
  | none => memoryEvent (cellHolder s cell) s

/-- The front frame of a receive object is dropped: at once, or when the read lock ends (R36, R300). -/
def dropFront (off : Nat) (o : Mo) : Mo :=
  let o := { o with frontBad := true, badAt := off }
  if locked o then o else lockEnds o

/-- The frame that a word of object `mo`'s buffer belongs to is dropped (R36, R212, R300): `off` is the word's offset in the
buffer, `front` whether that is the front buffer. -/
def dropFrame (mo off : Nat) (front : Bool) (s : State) : State :=
  match s.mo? mo with
  | none => s
  | some o =>
    let b := if front then frontOf o else backOf o
    let used := off < 32 + b.record.len && (if front then o.full else o.shadow)
    if !used then s
    else if !o.tx then s.modMo mo fun o => if front then dropFront off o else { o with shadow := false }
    else if !front then discardStagedAs mo 5 s
    else if o.latched then s.modChan o.channel fun c => { c with cellBad := true }
    else endLive mo (completeLive mo 5 (failRelease mo s))

/-- The frame that the word at offset `word` of the map belongs to is dropped (R36). -/
def dropWord (word : Nat) (s : State) : State :=
  match cellOwner s ((word - poolBase) / 64) with
  | none => s
  | some (mo, o) =>
    let front := bufferAt o false ≤ word && word < bufferAt o false + 64 * o.b
    dropFrame mo (word - bufferAt o (!front)) front s

/-- The contexts that hear of a word of the payload pool: CTX0 and the owner of the object that holds its cell (R36). -/
def wordOwners (s : State) (word : Nat) : List Nat :=
  match cellOwner s ((word - poolBase) / 64) with
  | some (_, o) => withOwner o.owner
  | none => cellHolder s ((word - poolBase) / 64)

/-- An uncorrectable word of the payload pool: its frame is dropped, and a word found so again after a write retires its cell
(R36, R283, R300). -/
def badPoolWord (word : Nat) (s : State) : State :=
  if s.pool.suspect.contains (word, true) then retireCell ((word - poolBase) / 64) (dropWord word s)
  else
    let s := { s with pool := { s.pool with suspect := (s.pool.suspect.filter fun w => w.1 != word) ++ [(word, false)] } }
    memoryEvent (wordOwners s word) (dropWord word s)

/-- What every uncorrectable finding does besides the action of its region: it is counted with its word address, and a
fault-log entry is written (R36, R37, R39). -/
def noteFinding (r : Region) (word : Nat) (act : State → State) (s : State) : State :=
  let s := modCounter r (fun c => { c with uncorr := inc32 c.uncorr, lastAddr := word }) s
  logFault 1 (regionCode r) word 0 (act s)

/-! ### Reads of an object's front buffer (R300) -/

/-- A word of the front buffer of object `mo`, at byte offset `off` of the buffer, was found uncorrectable by a read of it. -/
def foundInFront (mo off : Nat) (s : State) : State :=
  match s.mo? mo with
  | none => s
  | some o => let word := bufferAt o false + off / 8 * 8; noteFinding .payloadPool word (badPoolWord word) s

/-- Byte offset, in the front buffer, of the uncorrectable word that a read of bytes `lo` to `hi` of it meets: the one it finds
itself, or one found before while the read lock held the frame (R300). -/
def badInRead (o : Mo) (found : Option Nat) (lo hi : Nat) : Option Nat :=
  let meets := fun at_ => lo < hi && at_ < hi && lo < at_ + 8
  match found with
  | some x => if meets (x / 8 * 8) then some (x / 8 * 8) else if o.frontBad && meets o.badAt then some o.badAt else none
  | none => if o.frontBad && meets o.badAt then some o.badAt else none

/-- That word was found by this read, not before it. -/
def foundNow (o : Mo) (x : Nat) : Bool := !(o.frontBad && o.badAt == x)

end Sys2Proof.Machine
end

