-- ==== Sys2Proof/Machine/MoCmds.lean ====
section
/-!
DEFINITION. The message-object commands (R302 to R306): ALLOC_MO, CONFIG_MO, FREE_MO, READ_MO.
-/

namespace Sys2Proof.Machine

/-! ### ALLOC_MO (R280 to R285, R303) -/

/-- MAXLEN of a receive object: the widest format in FMTS (R285). -/
def rxMaxlen (fmts : Nat) : Nat := if fmts.testBit 2 then 2048 else if fmts.testBit 1 then 64 else 8

/-- MAXLEN of a transmit object is in the range of its one format (R285). -/
def txMaxlenOk (fmts maxlen : Nat) : Bool :=
  if fmts.testBit 2 then 1 ≤ maxlen && maxlen ≤ 2048 else if fmts.testBit 1 then maxlen ≤ 64 else maxlen ≤ 8

/-- FMTS of a new object: CC among those of a receive object, one format for a transmit object (R303). -/
def fmtsOk (tx : Bool) (fmts : Nat) : Bool :=
  if tx then fmts == 1 || fmts == 2 || fmts == 4 else fmts < 8 && fmts % 2 == 1

/-- An object number that is allocated, or reserved in a latent set (R281). -/
def moTaken (s : State) (n : Nat) : Bool :=
  (s.mo? n).isSome || (allWaiting s).any fun c => match c.2 with
    | .alloc m _ _ _ _ _ => m == n
    | _ => false

/-- The number that ALLOC_MO takes: the one requested, or the lowest free one. -/
def moPick (s : State) (any_ : Bool) (n : Nat) : Option Nat :=
  if any_ then firstBelow 16384 fun m => !moTaken s m else some n

/-- ALLOC_MO. -/
def allocMo (p : Packet) (s : State) : Verdict :=
  let w := fieldAt p.params 0 2
  let any_ := bitOf w 15
  let tx := byteAt p.params 2 == 1
  let fmts := byteAt p.params 3
  let len := fieldAt p.params 4 2
  let maxlen := if tx then len else rxMaxlen fmts
  let b := bufCells maxlen
  let x := stageCtx p
  badParam (bitOf w 14 || (any_ && w % 0x4000 != 0)) 0 <|
  badParam (byteAt p.params 2 > 1) 2 <|
  badParam (!fmtsOk tx fmts) 3 <|
  badParam (if tx then !txMaxlenOk fmts len else len != 0) 4 <|
  badParam (!zeroAt p.params 6 2) 6 <|
  bundleOpen s p <|
  refuseIf (!any_ && moTaken s (w % 0x4000)) stState 0x050200 <|
  refuseIf (objectUse s x + 1 > quotaOf s x 1) stResource 1 <|
  refuseIf (cellUse s x + 2 * b > quotaOf s x 2) stResource 2 <|
    match moPick s any_ (w % 0x4000), placeRun s.pool x (2 * b) (usedRuns s) with
    | some mo, some base => stage p [.alloc mo tx fmts maxlen b base] s (le 2 mo ++ le 1 b ++ zeros 1 ++ le 4 base)
    | none, _ => .refuse stResource 1
    | _, none => .refuse stResource 0x102

/-- ALLOC_MO: its row of the opcode index. -/
def specAllocMo : CmdSpec :=
  { opcode := 0x0501, plen := plenIs 2, right := fromOwn, needs := needsOf [2, 3], readOnly := false }

/-- ALLOC_MO (R303). -/
def execAllocMo (p : Packet) (s : State) : Host.Outcome State Fault Refusal := next (runCommand specAllocMo allocMo p s)

/-! ### CONFIG_MO (R286, R297, R302, R304) -/

/-- A flag of CONFIG_MO that the object's direction or format reserves (R286, R304). -/
def flagsReserved (o : Mo) (flags : Nat) : Bool :=
  let f := moFormat o
  (bitOf flags 1 && !(o.tx && f != .xl)) || (bitOf flags 2 && !(o.tx && f == .cc)) || (bitOf flags 3 && !(o.tx && f == .fd))
    || (bitOf flags 4 && !(o.tx && f == .xl)) || (bitOf flags 5 && !o.tx) || (bitOf flags 6 && !o.tx) || (bitOf flags 7 && o.tx)

/-- Identifier bits an object may use (R121, R286). -/
def moIdentBits (o : Mo) (flags : Nat) : Nat := if o.tx then identBits o.fmts (flag (bitOf flags 1) 1) else 0

/-- A filter entry or PDU descriptor names object `mo`: running, or in the configuration `v` (R302). -/
def moNamedIn (v : State) (mo : Nat) : Bool :=
  (v.filters.entries.any fun e => e.2.toMo && e.2.mo == mo)
    || v.pdus.any fun q => match q.2.set.dir with
      | .outFrame => q.2.set.mo == mo
      | _ => false

/-- A waiting change gives object `mo` a filter entry or a PDU descriptor that names it, or a stream. -/
def changeNames (mo : Nat) : Change → Bool
  | .filter _ f => f.toMo && f.mo == mo
  | .pdu _ p => p.any fun p => p.dir == .outFrame && p.mo == mo
  | _ => false

/-- A waiting change gives object `mo` a stream. -/
def changeStreams (mo : Nat) : Change → Bool
  | .declare _ d _ => !d.foreign && d.mo == mo
  | _ => false

/-- Object `mo` is named by a filter entry or PDU descriptor, running or latent, armed ones included (R302). -/
def moNamed (s v : State) (mo : Nat) : Bool :=
  moNamedIn s mo || moNamedIn v mo || (allWaiting s).any fun c => changeNames mo c.2

/-- An own stream, active, held, being withdrawn, latent or armed, names object `mo` (R391, R409). -/
def moStreamed (s v : State) (mo : Nat) : Bool :=
  ([s, v].any fun w => (allDecls w).any fun d => !d.2.1.foreign && d.2.1.mo == mo) || (allWaiting s).any fun c => changeStreams mo c.2

/-- The state checks of CONFIG_MO, in the order of R302, then R409 and R181. -/
def configMoFault (s v : State) (x mo ch flags : Nat) (o : Mo) : Option Nat :=
  let move := o.bound && o.channel != ch
  if chanRight s x ch < (if o.tx then 2 else 1) then some 0x050300
  else if move && o.tx && (match s.mo? mo with | some r => r.full | none => false) then some 0x050400
  else if move && moNamed s v mo then some 0x050500
  else if bitOf flags 0 && o.retired then some 0x050600
  else if o.channel != ch && moStreamed s v mo then some 0x090600
  else if (move || !bitOf flags 0) && heldNeedsMo s o then some 0x000300
  else if (heldDecls s).any fun d => !d.foreign && d.mo == mo && !feedFits v mo d.feed { o with feed := bitOf flags 6 } then some 0x000300
  else none

/-- CONFIG_MO. -/
def configMoCmd (p : Packet) (s : State) : Verdict :=
  let mo := moField p 0
  let cb := byteAt p.params 2
  let flags := byteAt p.params 3
  let ident := fieldAt p.params 4 4
  let af := fieldAt p.params 8 4
  let x := stageCtx p
  let v := stagedFor p s
  let bad := fun (f : Mo → Bool) => match v.mo? mo with
    | some o => f o
    | none => false
  badParam (fieldAt p.params 0 2 ≥ 0x4000) 0 <|
  withChan p s 2 fun ch =>
  badParam (cb ≥ 64) 2 <|
  badParam (bad fun o => flagsReserved o flags) 3 <|
  badParam (bad fun o => ident &&& moIdentBits o flags != ident) 4 <|
  badParam (bad fun o => af != 0 && !(o.tx && moFormat o == .xl)) 8 <|
  bundleOpen s p <|
    match v.mo? mo with
    | none => .refuse stState 0x050700
    | some o =>
      if o.owner ≠ x || o.freeing then .refuse stState 0x050700
      else match configMoFault s v x mo ch flags o with
        | some d => .refuse stState d
        | none => stage p [.config mo ch flags ident af] s []

/-- CONFIG_MO with FEED 1 is CTX0's alone (R297). -/
def fromConfigMo : SourceRule := fun p s =>
  if (guestOf p.source).isSome && bitOf (byteAt p.params 3) 6 then some 0xFF else fromMoOwner p s

/-- CONFIG_MO: its row of the opcode index. -/
def specConfigMo : CmdSpec :=
  { opcode := 0x0502, plen := plenIs 3, right := fromConfigMo, needs := needsOf [2, 3], readOnly := false }

/-- CONFIG_MO (R304). -/
def execConfigMo (p : Packet) (s : State) : Host.Outcome State Fault Refusal :=
  next (runCommand specConfigMo configMoCmd p s)

/-! ### FREE_MO (R302, R305) -/

/-- FREE_MO. -/
def freeMo (p : Packet) (s : State) : Verdict :=
  let mo := moField p 0
  let v := stagedFor p s
  badParam (fieldAt p.params 0 2 ≥ 0x4000) 0 <|
  badParam (!zeroAt p.params 2 2) 2 <|
  bundleOpen s p <|
    match v.mo? mo with
    | none => .refuse stState 0x050700
    | some o =>
      refuseIf (o.owner ≠ stageCtx p || o.freeing) stState 0x050700 <|
      refuseIf (moNamed s v mo) stState 0x050500 <|
      refuseIf (moStreamed s v mo) stState 0x090600 <|
      refuseIf (heldNeedsMo s o) stState 0x000300 <|
        stage p [.free mo] s []

/-- FREE_MO: its row of the opcode index. -/
def specFreeMo : CmdSpec :=
  { opcode := 0x0503, plen := plenIs 1, right := fromMoOwner, needs := needsOf [2, 3], readOnly := false }

/-- FREE_MO (R305). -/
def execFreeMo (p : Packet) (s : State) : Host.Outcome State Fault Refusal := next (runCommand specFreeMo freeMo p s)

/-! ### READ_MO (R290, R300, R306) -/

/-- Own objects for a guest, any object for the others (R156). -/
def fromReadMo : SourceRule := fun p s => if (guestOf p.source).isSome then fromMoOwner p s else none

/-- Payload bytes that READ_MO returns from OFFSET on (R306). -/
def readMoCount (o : Mo) (off : Nat) : Nat := if o.full then min 172 ((frontOf o).record.len - off) else 0

/-- The bytes that READ_MO returns of an object, its read lock held (R306). -/
def readMoBody (s : State) (g mo off : Nat) (o : Mo) : List Byte :=
  let o := { shownMo s mo o with cmdLock := true }
  let b := frontOf o
  let n := readMoCount o off
  descBytes o (virtChan s g o.channel) ++ recBytes b.record (virtChan s g b.record.channel) b.record.lost
    ++ le 2 off ++ le 2 n ++ padTo 172 ((b.data.drop off).take n)

/-- READ_MO gives its read lock up: with no other holder a receive object's lock ends (R291, R300). -/
def endReadMo (mo : Nat) (s : State) : State := s.modMo mo fun o =>
  let o := { o with cmdLock := false }
  if locked o || o.tx then o else lockEnds o

/-- The uncorrectable word of an object's front frame that READ_MO meets: in the record, or among the payload bytes it returns
(R300). `found` is the byte offset in the buffer of a word that this very read finds. -/
def readMoBad (o : Mo) (off : Nat) (found : Option Nat) : Option Nat :=
  if !o.full then none
  else match badInRead o found 0 32 with
    | some x => some x
    | none => badInRead o found (32 + off) (32 + off + readMoCount o off)

/-- What READ_MO leaves behind: a word that it finds itself has the action of R36, under its own read lock (R290, R300). -/
def readMoLeaves (mo : Nat) (o : Mo) (bad : Option Nat) (s : State) : State :=
  let s := s.modMo mo fun o => { o with cmdLock := true }
  endReadMo mo <| match bad with
    | some x => if foundNow o x then foundInFront mo x s else s
    | none => s

/-- READ_MO: under its read lock; INTEGRITY with the offset of an uncorrectable word of a receive object that it meets (R290,
R300, R306). -/
def readMo (found : Option Nat) (p : Packet) (s : State) : Verdict :=
  let mo := moField p 0
  let off := fieldAt p.params 2 2
  badParam (fieldAt p.params 0 2 ≥ 0x4000) 0 <|
  badParam (off % 4 ≠ 0 || off > 2044) 2 <|
  badParam (!zeroAt p.params 4 4) 4 <|
    match s.mo? mo with
    | none => .refuse stState 0x050700
    | some o =>
      let bad := readMoBad o off found
      let s' := readMoLeaves mo o bad s
      match bad with
      | some x =>
        if o.tx then okBody s' (readMoBody s ((guestOf p.source).getD 0) mo off o) else .reply s' stIntegrity x []
      | none => okBody s' (readMoBody s ((guestOf p.source).getD 0) mo off o)

/-- READ_MO: its row of the opcode index. -/
def specReadMo : CmdSpec :=
  { opcode := 0x0504, plen := plenIs 2, right := fromReadMo, needs := needsOf [2, 3], readOnly := true }

/-- READ_MO (R300, R306): `found` is the byte offset in the front buffer of a word that this read finds uncorrectable. -/
def execReadMo (p : Packet) (found : Option Nat) (s : State) : Host.Outcome State Fault Refusal :=
  next (runCommand specReadMo (readMo found) p s)

end Sys2Proof.Machine
end

