-- ==== Sys2Proof/Machine/FilterCmds.lean ====
section
/-!
DEFINITION. The filter commands (R323 to R328): WRITE_FILTER, CLEAR_FILTER, READ_FILTER, GET_FILTER_STATS.
-/

namespace Sys2Proof.Machine

/-! ### Places (R313) -/

/-- Entries that hold a place, running or reserved in any latent set: a latent rewrite holds its new place (R313, R326). -/
def placedEntries (s : State) : List (Nat × Filter) :=
  (allWaiting s).foldl (fun l c => match c.2 with
    | .filter n f => mset l n f
    | _ => l) s.filters.entries

/-- Two HASHED entries of one context with the same key (R314). -/
def sameKey (a b : Filter) : Bool :=
  a.typ == typHashed && b.typ == typHashed && a.owner == b.owner && a.channel == b.channel && a.key == b.key
    && a.fmts == b.fmts && a.ide == b.ide && a.value == b.value

/-! ### WRITE_FILTER (R308 to R314, R323, R326) -/

/-- The entry that the four words of WRITE_FILTER spell, on physical channel `ch` for context `x` (R308). -/
def filterOf (w0 value mask w3 ch x : Nat) : Filter :=
  { typ := bitsOf w0 1 3, key := bitOf w0 4, cont := bitOf w0 5, fmts := bitsOf w0 6 3, ide := bitsOf w0 9 2,
    rtr := bitsOf w0 11 2, toMo := bitOf w0 13, toRing := bitOf w0 14, toRoute := bitOf w0 15, ring := bitsOf w0 16 4,
    channel := ch, owner := x, value := value, mask := mask, mo := w3 % 0x4000, pdu := bitsOf w3 16 15, errDis := false, bad := false }

/-- DW0 is refused (R308, R309, R311, R323). -/
def badWord0 (w0 : Nat) (f : Filter) : Bool :=
  bitOf w0 0 || w0 / 2 ^ 26 != 0 || f.typ < 1 || f.typ > 4 || f.fmts == 0 || f.ide == 3 || f.rtr == 3
    || (f.key && f.fmts != 4) || (!f.toRing && f.ring != 0) || !(f.toMo || f.toRing || f.toRoute)
    || (f.typ == typHashed && f.fmts % 4 != 0 && (f.ide == 2 || (!f.key && f.fmts.testBit 2 && f.ide != 0)))

/-- VALUE is refused (R311). -/
def badValue (f : Filter) : Bool :=
  if f.typ = typMask then f.value &&& f.mask != f.value
  else if f.typ = typRange then f.mask < f.value
  else !f.key && f.value &&& identBits f.fmts f.ide != f.value

/-- DW3 is refused (R308). -/
def badWord3 (w3 : Nat) (f : Filter) : Bool :=
  bitOf w3 14 || bitOf w3 15 || bitOf w3 31 || (!f.toMo && f.mo != 0) || (!f.toRoute && f.pdu != 0)

/-- Largest payload of the formats of an entry (R323). -/
def fmtsPayload (fmts : Nat) : Nat := if fmts.testBit 2 then 2048 else if fmts.testBit 1 then 64 else 8

/-- The object of a TO_MO entry does not fit it (R323). -/
def moMisfits (v : State) (f : Filter) : Bool :=
  match v.mo? f.mo with
  | some o => o.tx || o.owner != f.owner || !o.bound || o.channel != f.channel || f.fmts &&& o.fmts != f.fmts
  | none => true

/-- The RX ring of a TO_RING entry is ACTIVE and its slots are too small (R323). -/
def slotMisfits (s : State) (f : Filter) : Bool :=
  let r := s.ring f.owner (20 + f.ring)
  r.active && ringSlotBytes r < fmtsPayload f.fmts

/-- The first failing state check of WRITE_FILTER (R323, R325). Places are counted over every waiting set (R313); a pair of equal
keys is one that the context's own running, armed and latent entries would make (R314). -/
def writeFilterFault (s v : State) (n : Nat) (f : Filter) : Option Nat :=
  let others := (placedEntries s).filter fun e => e.1 != n
  let crowd := (others.filter fun e => samePlace e.2 f).length
  let own := (writeAll f.owner (waitingChanges (s.ctx f.owner)) s).filters.entries.filter fun e => e.1 != n
  if chanRight s f.owner f.channel < 1 then some 0x060400
  else if f.fmts &&& (devSettings (v.chan f.channel)).formats != f.fmts then some 0x060500
  else if f.toMo && moMisfits v f then some 0x060600
  else if badFilterPdu v f then some 0x060800
  else if f.toRing && slotMisfits s f then some 0x060700
  else if f.typ != typHashed && crowd ≥ 1024 then some 0x060100
  else if f.typ = typHashed && crowd ≥ 8 then some 0x060200
  else if own.any fun e => sameKey e.2 f then some 0x060300
  else none

/-- Result bytes of WRITE_FILTER (R326). -/
def writeFilterBody (s : State) (n : Nat) (f : Filter) : List Byte :=
  let crowd := ((placedEntries s).filter fun e => e.1 != n && samePlace e.2 f).length + 1
  le 2 n ++ (if f.typ = typHashed then le 1 (entryBucket f) ++ le 1 crowd else le 1 0xFF ++ le 1 (ceilDiv crowd 4)) ++ zeros 4

/-- WRITE_FILTER. -/
def writeFilter (p : Packet) (s : State) : Verdict :=
  let e := fieldAt p.params 0 2
  let any_ := byteAt p.params 2 == 1
  let w0 := fieldAt p.params 4 4
  let w3 := fieldAt p.params 16 4
  let x := stageCtx p
  let ch := srcChan s p.source (bitsOf w0 20 6)
  let f := filterOf w0 (fieldAt p.params 8 4) (fieldAt p.params 12 4) w3 (ch.getD 0) x
  let placed := placedEntries s
  badParam (any_ && e ≠ 0) 0 <|
  badParam (byteAt p.params 2 > 1) 2 <|
  badParam (!zeroAt p.params 3 1) 3 <|
  badParam (badWord0 w0 f || ch.isNone) 4 <|
  badParam (badValue f) 8 <|
  badParam ((f.typ = typExact || f.typ = typHashed) && f.mask ≠ 0) 12 <|
  badParam (badWord3 w3 f) 16 <|
  bundleOpen s p <|
    let pick := if any_ then firstBelow 65536 (fun n => (mget placed n).isNone) else some e
    let held := pick.bind (mget placed)
    refuseIf (held.any fun o => o.owner != x) stState 0x060900 <|
      match writeFilterFault s (stagedFor p s) (pick.getD 0x10000) f, pick with
      | some d, _ => .refuse stState d
      | none, none => .refuse stResource 3
      | none, some n =>
        refuseIf (held.isNone && filterUse s x + 1 > quotaOf s x 3) stResource 3 <|
          stage p [.filter n f] s (writeFilterBody s n f)

/-- TO_ROUTE is CTX0's alone, and a running entry is its owner's (R323, R325). -/
def fromWriteFilter : SourceRule := fun p s =>
  match actsAs p.source with
  | none => some 0xFF
  | some x =>
    if x ≠ 0 && bitOf (fieldAt p.params 4 4) 15 then some 0xFF
    else if byteAt p.params 2 % 2 = 0 && (match mget s.filters.entries (fieldAt p.params 0 2) with
        | some f => f.owner != x
        | none => false) then some 0xFF
    else none

/-- WRITE_FILTER: its row of the opcode index. -/
def specWriteFilter : CmdSpec :=
  { opcode := 0x0601, plen := plenIs 5, right := fromWriteFilter, needs := needsOf [2, 4], readOnly := false }

/-- WRITE_FILTER (R326). -/
def execWriteFilter (p : Packet) (s : State) : Host.Outcome State Fault Refusal :=
  next (runCommand specWriteFilter writeFilter p s)

/-! ### CLEAR_FILTER (R327) -/

/-- Entry `n` lies in the range of CLEAR_FILTER. -/
def inRange (p : Packet) (n : Nat) : Bool :=
  fieldAt p.params 0 2 ≤ n && n < fieldAt p.params 0 2 + fieldAt p.params 2 2

/-- CLEAR_FILTER. -/
def clearFilter (p : Packet) (s : State) : Verdict :=
  let first := fieldAt p.params 0 2
  let count := fieldAt p.params 2 2
  let x := stageCtx p
  let mine := ((placedEntries s).filter fun e => inRange p e.1 && e.2.owner == x).map (·.1)
  badParam (count < 1 || count > 4096 || first + count > 0x10000) 2 <|
  bundleOpen s p <|
  refuseIf mine.isEmpty stState 0x060A00 <|
    stage p (mine.map .clearFilter) s (le 2 mine.length ++ zeros 2)

/-- No entry of another context lies in the range (R327). -/
def fromClearFilter : SourceRule := fun p s =>
  match actsAs p.source with
  | none => some 0xFF
  | some x => if s.filters.entries.any fun e => inRange p e.1 && e.2.owner != x then some 0xFF else none

/-- CLEAR_FILTER: its row of the opcode index. -/
def specClearFilter : CmdSpec :=
  { opcode := 0x0602, plen := plenIs 1, right := fromClearFilter, needs := needsOf [2, 4], readOnly := false }

/-- CLEAR_FILTER (R327). -/
def execClearFilter (p : Packet) (s : State) : Host.Outcome State Fault Refusal :=
  next (runCommand specClearFilter clearFilter p s)

/-! ### READ_FILTER and GET_FILTER_STATS (R308, R324, R328) -/

/-- The 16 bytes of a running entry, its CHANNEL written as `ch` (R308). -/
def filterBytes (st : FilterStore) (n : Nat) (f : Filter) (ch : Nat) : List Byte :=
  le 4 (1 + 2 * f.typ + flag f.key 0x10 + flag f.cont 0x20 + f.fmts * 2 ^ 6 + f.ide * 2 ^ 9 + f.rtr * 2 ^ 11
      + flag f.toMo 0x2000 + flag f.toRing 0x4000 + flag f.toRoute 0x8000 + f.ring * 2 ^ 16 + ch * 2 ^ 20 + f.owner * 2 ^ 26)
    ++ le 4 f.value ++ le 4 (if f.typ = typHashed then linkOf st n f else f.mask)
    ++ le 4 (f.mo + flag f.errDis 0x4000 + f.pdu * 2 ^ 16)

/-- READ_FILTER. -/
def readFilter (p : Packet) (s : State) : Verdict :=
  let n := fieldAt p.params 0 2
  badParam (!zeroAt p.params 2 2) 2 <|
    match mget s.filters.entries n with
    | none => .refuse stState 0x060A00
    | some f => okBody s (filterBytes s.filters n f (virtChan s ((guestOf p.source).getD 0) f.channel))

/-- Own entries for a guest, any entry for the others (R156, R325). -/
def fromReadFilter : SourceRule := fun p s =>
  match guestOf p.source with
  | none => none
  | some g => match mget s.filters.entries (fieldAt p.params 0 2) with
    | some f => if f.owner = g then none else some 0xFF
    | none => none

/-- READ_FILTER: its row of the opcode index. -/
def specReadFilter : CmdSpec :=
  { opcode := 0x0603, plen := plenIs 1, right := fromReadFilter, needs := needsOf [2, 4], readOnly := true }

/-- READ_FILTER (R308). -/
def execReadFilter (p : Packet) (s : State) : Host.Outcome State Fault Refusal :=
  next (runCommand specReadFilter readFilter p s)

/-- GET_FILTER_STATS. -/
def getFilterStats (p : Packet) (s : State) : Verdict :=
  let x := byteAt p.params 1
  withChan p s 0 fun ch =>
  badParam (x ≥ 64) 1 <|
  badParam (!zeroAt p.params 2 2) 2 <|
    let c := (s.chan ch).filters
    let k := pairOf s.filters x ch
    let mine := s.filters.entries.filter fun e => e.2.channel == ch && e.2.owner == x
    okBody s (le 4 c.judged ++ le 4 c.noMatch ++ le 4 k.matched ++ le 4 k.disDrop ++ le 2 k.lastDrop
      ++ le 2 ((placedEntries s).filter fun e => e.2.channel == ch && e.2.typ != typHashed).length
      ++ le 2 (hashOn s.filters ch).length ++ le 2 mine.length ++ le 4 c.decisionMax ++ le 8 (stampNow s) ++ zeros 12)

/-- A guest may name only itself in parameter byte 1 (R328). -/
def fromStatsSelf : SourceRule := fun p _ =>
  match guestOf p.source with
  | none => none
  | some g => if byteAt p.params 1 % 64 = g then none else some 0xFF

/-- GET_FILTER_STATS: its row of the opcode index. -/
def specGetFilterStats : CmdSpec :=
  { opcode := 0x0604, plen := plenIs 1, right := fromStatsSelf, needs := needsOf [2, 4], readOnly := true }

/-- GET_FILTER_STATS (R328). -/
def execGetFilterStats (p : Packet) (s : State) : Host.Outcome State Fault Refusal :=
  next (runCommand specGetFilterStats getFilterStats p s)

end Sys2Proof.Machine
end

