-- ==== Sys2Proof/Machine/QueueCmds.lean ====
section
/-!
DEFINITION. The queue commands (R350 to R353): CONFIG_QUEUE, SET_WATERMARK, GET_QUEUE_STATUS.
-/

namespace Sys2Proof.Machine

/-! ### CONFIG_QUEUE (R336 to R340, R351) -/

/-- The value is one of the range, or 0. -/
def zeroOr (lo hi n : Nat) : Bool := n == 0 || (lo ≤ n && n ≤ hi)

/-- Share `k` of CONFIG_QUEUE. -/
def shareField (p : Packet) (k : Nat) : Nat := fieldAt p.params (16 + 2 * k) 2

/-- CTX0 takes a guest's region away (R351). -/
def removesRegion (p : Packet) : Bool :=
  (guestOf p.source).isNone && byteAt p.params 0 != 0 && fieldAt p.params 2 2 == 0

/-- The first parameter byte of CONFIG_QUEUE that is refused (R337, R351). -/
def configQueueBad (p : Packet) : Option Nat :=
  let gone := removesRegion p
  let f := fun (off n lo hi : Nat) (zero : Bool) =>
    let v := fieldAt p.params off n
    if gone then v != 0 else !((zero && v == 0) || (lo ≤ v && v ≤ hi))
  if byteAt p.params 0 ≥ 64 then some 0
  else if f 1 1 2 64 false then some 1
  else if ((guestOf p.source).isSome || byteAt p.params 0 = 0) && fieldAt p.params 2 2 ≠ 0 then some 2
  else if !zeroOr 24 5120 (fieldAt p.params 2 2) then some 2
  else if f 4 2 8 4096 false then some 4
  else if f 6 2 1 4096 true then some 6
  else if f 8 2 33 4096 true then some 8
  else if !zeroAt p.params 10 6 then some 10
  else (firstBelow 16 fun k => f (16 + 2 * k) 2 1 4096 true).map fun k => 16 + 2 * k

/-- CONFIG_QUEUE. -/
def configQueue (p : Packet) (s : State) : Verdict :=
  let x := byteAt p.params 0
  let d : Depths :=
    { places := byteAt p.params 1, evt := fieldAt p.params 4 2, tx := fieldAt p.params 6 2, rx := fieldAt p.params 8 2 }
  match configQueueBad p with
  | some off => .refuse stParam (16 + off)
  | none =>
    bundleOpen s p <|
      let v := stagedFor p s
      let region := if (guestOf p.source).isSome then none else some (fieldAt p.params 2 2)
      let c := Change.queue x region d ((List.range 16).map (shareField p))
      let v := writeDown (stageCtx p) v c
      match queueFault v x with
      | some e => .refuse stState e
      | none =>
        refuseIf (removesRegion p && (s.ctx x).state != .absent) stState 0x070600 <|
          stage p [c] s (le 2 (regionOf v x) ++ le 2 (regionOf v x - countedCells v x))

/-- A guest may name only itself (R351). -/
def fromConfigQueue : SourceRule := fun p s =>
  match fromOwn p s with
  | some d => some d
  | none => fromSelf p s

/-- CONFIG_QUEUE: its row of the opcode index. -/
def specConfigQueue : CmdSpec :=
  { opcode := 0x0701, plen := plenIs 12, right := fromConfigQueue, needs := needsOf [2, 3], readOnly := false }

/-- CONFIG_QUEUE (R351). -/
def execConfigQueue (p : Packet) (s : State) : Host.Outcome State Fault Refusal :=
  next (runCommand specConfigQueue configQueue p s)

/-! ### SET_WATERMARK (R347, R352) -/

/-- SET_WATERMARK. -/
def setWatermark (p : Packet) (s : State) : Verdict :=
  let pin := byteAt p.params 0
  let qid := fieldAt p.params 2 2
  let high := fieldAt p.params 4 2
  let low := fieldAt p.params 6 2
  let none_ := qid == 0xFFFF
  badParam (pin ≥ 8) 0 <|
  badParam (!zeroAt p.params 1 1) 1 <|
  badParam (!none_ && (qidOf qid).isNone) 2 <|
  badParam (if none_ then high ≠ 0 else high = 0) 4 <|
  badParam (if none_ then low ≠ 0 else low ≥ high) 6 <|
  bundleOpen s p <|
  refuseIf (match qidOf qid with | some q => qDepth s q == 0 || qDepth s q < high | none => false) stState 0x070500 <|
    stage p [.watermark pin (if none_ then none else some qid) high low] s []

/-- SET_WATERMARK: its row of the opcode index. -/
def specSetWatermark : CmdSpec :=
  { opcode := 0x0702, plen := plenIs 2, right := fromCtx0, needs := needsOf [2, 3], readOnly := false }

/-- SET_WATERMARK (R352). -/
def execSetWatermark (p : Packet) (s : State) : Host.Outcome State Fault Refusal :=
  next (runCommand specSetWatermark setWatermark p s)

/-! ### GET_QUEUE_STATUS (R353) -/

/-- The lowest-numbered pin that follows a queue. -/
def pinOf (s : State) (qid : Nat) : Option Nat :=
  firstBelow 8 fun k => match tget (vmap s.fq.fc some) k none with
    | some p => p.qid == some qid
    | none => false

/-- The 64 bytes of a queue's record (R353). -/
def queueRecord (s : State) (qid : Nat) (q : QKind × Nat) : List Byte :=
  let t := qStat s q
  let pin := pinOf s qid
  let low := match pin with
    | some k => !(match tget (vmap s.fq.fc some) k none with | some p => p.up | none => true)
    | none => false
  le 2 qid
    ++ le 1 (flag (qDepth s q != 0) 1 + flag (qCredited q.1) 2 + flag pin.isSome 4 + flag low 8 + flag (qPending s q != qDepth s q) 16)
    ++ le 1 (match pin with | some k => k | none => 0x80)
    ++ le 2 (qDepth s q) ++ le 2 (qPending s q) ++ le 2 (qFill s q) ++ le 2 (qCredits s q) ++ le 2 t.hwm ++ zeros 2
    ++ le 4 t.packets ++ le 4 t.rewinds ++ le 4 t.overflow ++ le 4 t.oversize ++ le 4 t.noring ++ le 4 t.ringfull
    ++ le 4 t.eccCorr ++ le 4 t.uncorr ++ le 4 t.fcAsserts ++ zeros 4 ++ le 8 (stampNow s)

/-- GET_QUEUE_STATUS. -/
def getQueueStatus (p : Packet) (s : State) : Verdict :=
  let qid := fieldAt p.params 0 2
  match qidOf qid with
  | none => .refuse stParam 16
  | some q => badParam (!zeroAt p.params 2 2) 2 <| okBody s (queueRecord s qid q)

/-- A guest may name only its own queues (R353). -/
def fromOwnQueue : SourceRule := fun p _ =>
  match guestOf p.source with
  | none => none
  | some g =>
    let qid := fieldAt p.params 0 2
    if 0x10 ≤ qid / 256 && qid / 256 ≤ 0x14 && qid % 256 = g then none else some 0xFF

/-- GET_QUEUE_STATUS: its row of the opcode index. -/
def specGetQueueStatus : CmdSpec :=
  { opcode := 0x0703, plen := plenIs 1, right := fromOwnQueue, needs := needsOf [2, 3], readOnly := true }

/-- GET_QUEUE_STATUS (R353). -/
def execGetQueueStatus (p : Packet) (s : State) : Host.Outcome State Fault Refusal :=
  next (runCommand specGetQueueStatus getQueueStatus p s)

end Sys2Proof.Machine
end

