-- ==== Sys2Proof/Machine/TimeCmds.lean ====
section
/-!
DEFINITION. The time base's commands and happenings but for steps (chapter *Time base, stamps and shutter release*): rates and
slews, shutter release, the trigger fabric, PPS_OUT.
-/

namespace Sys2Proof.Machine

/-! ### Rates (R359, R381) -/

/-- ADJUST_RATE. -/
def adjustRate (p : Packet) (s : State) : Verdict :=
  let rate := signedOf 32 (fieldAt p.params 0 4)
  let ms := fieldAt p.params 4 4
  badParam (rate < -2147483 || rate > 2147483) 0 <|
  badParam (ms > 3600000) 4 <|
  refuseIf (!s.isMaster) stState 0x080100 <|
    let t := if ms = 0 then { s.time with rate := rate, baseRate := rate, slewEnd := none }
      else { s.time with rate := rate, slewEnd := some (s.time.clk + ms * msNs) }
    okBody { s with time := t } (le 8 (stampNow s) ++ le 4 (unsignedOf 32 s.time.rate))

/-- ADJUST_RATE: its row of the opcode index. -/
def specAdjustRate : CmdSpec :=
  { opcode := 0x0802, plen := plenIs 2, right := fromCtx0, needs := needsOf [2, 5], readOnly := false }

/-- ADJUST_RATE (R359). -/
def execAdjustRate (p : Packet) (s : State) : Host.Outcome State Fault Refusal :=
  next (runCommand specAdjustRate adjustRate p s)

/-- SLEW_END (R359): the base rate returns and event 0x0805 is sent. -/
def execSlewEnd (s : State) : Host.Outcome State Fault Refusal :=
  match s.time.slewEnd with
  | none => next s
  | some t =>
    let s := reachClk t s
    let s := { s with time := { s.time with rate := s.time.baseRate, slewEnd := none } }
    next (raiseEvent 0 0x0805 (le 4 (unsignedOf 32 s.time.baseRate)) s)

/-! ### GET_TIME (R380) -/

/-- The next instant of a schedule: of one that a power state holds, the earliest that is not yet past (R373, R380). -/
def nextInstant (s : State) (x : Schedule) (held : Bool) : Nat :=
  if held && !x.isOver then (gridFrom x.first x.period (max x.next s.now)).getD x.next else x.next

/-- Bytes 40 to 87 of GET_TIME: the schedule of object `mo`, zeros where it has none. -/
def scheduleBytes (s : State) (mo : Nat) : List Byte :=
  match mget s.schedules mo with
  | none => zeros 48
  | some x =>
    let armed := match s.mo? mo with | some o => armedNow s o | none => false
    let held := match s.mo? mo with | some o => (s.chan o.channel).state == .powerHeld | none => false
    le 2 (mo + flag armed 0x4000 + 0x8000) ++ zeros 6 ++ le 8 (nextInstant s x held) ++ le 8 x.period ++ le 4 x.onTime ++ le 4 x.displaced
      ++ le 4 x.empty ++ le 4 x.overrun ++ le 4 x.missed ++ zeros 4

/-- Milliseconds of the reference left in a slew; a part of one counts whole. -/
def slewLeft (t : TimeBase) : Nat :=
  match t.slewEnd with
  | some e => ceilDiv (e - t.clk) msNs
  | none => 0

/-- The flags of GET_TIME. -/
def timeFlags (s : State) : Nat :=
  flag s.time.aligned 1 + flag s.time.armed.isSome 2 + flag s.time.slewEnd.isSome 4 + flag (!s.isMaster) 8
    + flag s.time.pps.capture 16

/-- GET_TIME. -/
def getTime (p : Packet) (s : State) : Verdict :=
  let w := fieldAt p.params 0 2
  let sel := bitOf w 15
  badParam (bitOf w 14 || (!sel && w ≠ 0)) 0 <|
  badParam (!zeroAt p.params 2 2) 2 <|
    okBody s (le 8 s.now ++ le 4 (unsignedOf 32 s.time.rate) ++ le 4 (unsignedOf 32 s.time.baseRate) ++ le 4 (slewLeft s.time)
      ++ le 1 (timeFlags s) ++ zeros 3 ++ le 8 s.time.lastPps ++ le 8 s.time.lastStep
      ++ (if sel then scheduleBytes s (w % 0x4000) else zeros 48))

/-- A guest may select only its own objects (R380). -/
def fromGetTime : SourceRule := fun p s =>
  match guestOf p.source with
  | none => none
  | some g =>
    let w := fieldAt p.params 0 2
    if !bitOf w 15 then none
    else match s.mo? (w % 0x4000) with
      | some o => if o.owner = g then none else some 0xFF
      | none => some 0xFF

/-- GET_TIME: its row of the opcode index. -/
def specGetTime : CmdSpec :=
  { opcode := 0x0801, plen := plenIs 1, right := fromGetTime, needs := needsOf [2, 5], readOnly := true }

/-- GET_TIME (R380). -/
def execGetTime (p : Packet) (s : State) : Host.Outcome State Fault Refusal := next (runCommand specGetTime getTime p s)

/-! ### SET_SHUTTER and CLEAR_SHUTTER (R367, R374, R379, R383) -/

/-- The largest PERIOD: 2^40 - 1 ns (R367). -/
def periodMax : Nat := 2 ^ 40 - 1

/-- Objects with a schedule, running or in any latent set (R379). -/
def scheduledMos (s : State) : List Nat :=
  ((s.schedules.filter fun x => !x.2.isOver).map (·.1) ++ (allWaiting s).filterMap fun c => match c.2 with
    | .shutter m _ _ => some m
    | _ => none).eraseDups

/-- An allocated transmit object of the context in the configuration `v`. -/
def ownTxMo (v : State) (x mo : Nat) : Option Mo := (v.mo? mo).filter fun o => o.tx && o.owner == x

/-- The schedule capacity of R367 is reached for object `mo` on channel `ch`. -/
def shutterFull (s v : State) (mo ch : Nat) : Bool :=
  let l := scheduledMos s
  !l.contains mo && (l.length ≥ 4096 || (l.filter fun m => match v.mo? m with
    | some o => o.channel == ch
    | none => match s.mo? m with
      | some o => o.channel == ch
      | none => false).length ≥ 256)

/-- SET_SHUTTER. -/
def setShutter (p : Packet) (s : State) : Verdict :=
  let mo := moField p 0
  let first := fieldAt p.params 4 8
  let period := fieldAt p.params 12 8
  let v := stagedFor p s
  badParam (fieldAt p.params 0 2 ≥ 0x4000) 0 <|
  badParam (!zeroAt p.params 2 2) 2 <|
  badParam (period ≠ 0 && (period < 50000 || period > periodMax)) 12 <|
  bundleOpen s p <|
    match ownTxMo v (stageCtx p) mo with
    | none => .refuse stState 0x080700
    | some o =>
      refuseIf (first < s.now + 50000) stState 0x080500 <|
      refuseIf (shutterFull s v mo o.channel) stState 0x080400 <|
        stage p [.shutter mo first period] s []

/-- SET_SHUTTER: its row of the opcode index. -/
def specSetShutter : CmdSpec :=
  { opcode := 0x0804, plen := plenIs 5, right := fromOwnRight 1, needs := needsOf [2, 5], readOnly := false }

/-- SET_SHUTTER (R383). -/
def execSetShutter (p : Packet) (s : State) : Host.Outcome State Fault Refusal :=
  next (runCommand specSetShutter setShutter p s)

/-- CLEAR_SHUTTER. Without a schedule, running or latent, it changes nothing (R379). -/
def clearShutter (p : Packet) (s : State) : Verdict :=
  let mo := moField p 0
  let v := stagedFor p s
  badParam (fieldAt p.params 0 2 ≥ 0x4000) 0 <|
  badParam (!zeroAt p.params 2 2) 2 <|
  bundleOpen s p <|
    match ownTxMo v (stageCtx p) mo with
    | none => .refuse stState 0x080700
    | some _ =>
      if (scheduleOf v mo).isNone then okDone s else stage p [.clearShutter mo] s []

/-- CLEAR_SHUTTER: its row of the opcode index. -/
def specClearShutter : CmdSpec :=
  { opcode := 0x0805, plen := plenIs 1, right := fromOwn, needs := needsOf [2, 5], readOnly := false }

/-- CLEAR_SHUTTER (R374, R383). -/
def execClearShutter (p : Packet) (s : State) : Host.Outcome State Fault Refusal :=
  next (runCommand specClearShutter clearShutter p s)

/-! ### SET_TRIGGER and SET_PPS (R379, R384, R385) -/

/-- SOURCE codes of R384. -/
def pinSource (n : Nat) : Bool := (1 ≤ n && n ≤ 8) || n == 0x10
def compareSource : Nat := 0x20

/-- A developed unit drives the TRIGIO ball (R378). -/
def ballDriven (t : TriggerSet) (ball : Nat) : Bool := t.dest.testBit 0 && t.pin == ball

/-- Ball `pin` is driven by another unit of the configuration, or is another unit's source (R379). -/
def pinTaken (v : State) (unit pin : Nat) : Bool :=
  (List.range 8).any fun u => u != unit && let t := (v.trigger u).set
    (ballDriven t pin || t.source == pin + 1)

/-- SET_TRIGGER. -/
def setTrigger (p : Packet) (s : State) : Verdict :=
  let unit := byteAt p.params 0
  let source := byteAt p.params 1
  let edge := byteAt p.params 2
  let dest := byteAt p.params 3
  let pin := byteAt p.params 4
  let width := fieldAt p.params 6 2
  let instant := fieldAt p.params 8 8
  let period := fieldAt p.params 16 8
  let delay := fieldAt p.params 24 4
  let pinned := pinSource source
  let compare := source == compareSource
  badParam (unit ≥ 8) 0 <|
  badParam (!(source = 0 || pinned || compare)) 1 <|
  badParam (if pinned then edge = 0 || edge > 3 else edge ≠ 0) 2 <|
  badParam (dest ≥ 8 || (if source = 0 then dest ≠ 0 else dest = 0)) 3 <|
  badParam (pin ≥ 8 || (!dest.testBit 0 && pin ≠ 0)) 4 <|
  badParam (!zeroAt p.params 5 1) 5 <|
  badParam (!compare && instant ≠ 0) 8 <|
  badParam (period ≠ 0 && (!compare || period < 1000 || period > periodMax)) 16 <|
  badParam (delay ≠ 0 && (!pinned || delay < 50 || delay > 1000000000)) 24 <|
  badParam (!zeroAt p.params 28 4) 28 <|
  bundleOpen s p <|
  refuseIf (dest.testBit 0 && pinTaken (stagedFor p s) unit pin) stState 0x080600 <|
  refuseIf (compare && instant < s.now + 50000) stState 0x080500 <|
    let t : TriggerSet :=
      { source := source, edge := edge, dest := dest, pin := pin, width := (if width = 0 then 10 else width),
        instant := instant, period := period, delay := (if pinned && delay = 0 then 50 else delay) }
    stage p [.trigger unit t] s []

/-- SET_TRIGGER: its row of the opcode index. -/
def specSetTrigger : CmdSpec :=
  { opcode := 0x0806, plen := plenIs 8, right := fromCtx0, needs := needsOf [2, 5], readOnly := false }

/-- SET_TRIGGER (R384). -/
def execSetTrigger (p : Packet) (s : State) : Host.Outcome State Fault Refusal :=
  next (runCommand specSetTrigger setTrigger p s)

/-- SET_PPS. -/
def setPps (p : Packet) (s : State) : Verdict :=
  let inc := byteAt p.params 0
  let outc := byteAt p.params 1
  let width := if fieldAt p.params 2 2 = 0 then 100 else fieldAt p.params 2 2
  let raw := fieldAt p.params 8 8
  let period := if raw = 0 then 1000000000 else raw
  let offset := fieldAt p.params 16 8
  badParam (inc ≥ 4) 0 <|
  badParam (outc ≥ 2) 1 <|
  badParam (width > 999 || width * msNs ≥ period) 2 <|
  badParam (!zeroAt p.params 4 4) 4 <|
  badParam (period < 1000000 || period > periodMax) 8 <|
  badParam (offset ≥ period) 16 <|
  bundleOpen s p <|
    let t : Pps :=
      { capture := bitOf inc 0, event := bitOf inc 1, outEn := bitOf outc 0, width := width, period := period, offset := offset }
    stage p [.pps t] s []

/-- SET_PPS: its row of the opcode index. -/
def specSetPps : CmdSpec :=
  { opcode := 0x0807, plen := plenIs 6, right := fromCtx0, needs := needsOf [2, 5], readOnly := false }

/-- SET_PPS (R385). -/
def execSetPps (p : Packet) (s : State) : Host.Outcome State Fault Refusal := next (runCommand specSetPps setPps p s)

/-! ### Shutter release (R369 to R373) -/

/-- The schedule of object `mo` changed by `f`. -/
def modSchedule (mo : Nat) (f : Schedule → Schedule) (s : State) : State := { s with schedules := mmod s.schedules mo f }

/-- The schedule of an object whose channel is not POWER_HELD (R373). -/
def liveSchedule (s : State) (mo : Nat) : Option (Schedule × Mo) :=
  match scheduleOf s mo, s.mo? mo with
  | some x, some o => if (s.chan o.channel).state == .powerHeld then none else some (x, o)
  | _, _ => none

/-- The arm point of the next instant, at the present edge (R369, R372). The frame of a stream fed at shutter instants is
released for that instant (R387). -/
def armPoint (mo : Nat) (s : State) : State :=
  match liveSchedule s mo with
  | none => s
  | some (x, o) =>
    if x.pointDone then s
    else if !o.full then modSchedule mo (fun x => { x with pointDone := true, framed := false, empty := inc32 x.empty }) s
    else if o.inHeap then modSchedule mo (fun x => { x with pointDone := true, framed := false, overrun := inc32 x.overrun }) s
    else
      let s := modSchedule mo (fun x => { x with pointDone := true, framed := true }) s
      let s := s.modMo mo fun o => { o with inHeap := true, armed := some x.next, noticed := false }
      match streamOf s mo with
      | some (_, r) => if r.decl.feed = 2 then releaseOwn mo x.next false s else s
      | none => s

/-- SHUTTER_ARM_POINT (R369). -/
def execShutterArmPoint (mo : Fin 16384) (s : State) : Host.Outcome State Fault Refusal :=
  match liveSchedule s mo.val with
  | none => next s
  | some (x, _) => next (armPoint mo.val (reachTime (x.next - 2000) s))

/-- The release notice of instant `t` on a channel: the armed heap top it waits for is latched (R371). -/
def releaseNotice (ch t : Nat) (s : State) : State :=
  let c := s.chan ch
  if c.state != .running || !sendsFrames c.mode || c.latched.isSome || c.bus != .idle then s
  else match heapTop s ch with
    | some (m, o) => if o.armed = some t then latch ch m t (s.modMo m fun o => { o with noticed := true }) else s
    | none => s

/-- RELEASE_NOTICE (R371), at 100 ns before the object's next instant; with a parity error on its way to the bank it is dropped and
counted (R21, R23). -/
def execReleaseNotice (mo : Fin 16384) (parity : Bool) (s : State) : Host.Outcome State Fault Refusal :=
  match liveSchedule s mo.val with
  | none => next s
  | some (x, o) =>
    let s := armPoint mo.val (reachTime (x.next - 100) s)
    next (if parity then parityDrop 13 s else releaseNotice o.channel x.next s)

/-- The frame's start of frame was placed at the instant by its release notice (R372). -/
def onTimeNow (s : State) (mo : Nat) (o : Mo) (t : Nat) : Bool :=
  o.latched && o.noticed && (s.chan o.channel).latched == some mo && (s.chan o.channel).sof == t

/-- The instant of a schedule is over: counted, and the next one is taken. Every entry whose instant has come is ordinary from
here (R368, R370, R372). -/
def instantEnds (mo : Nat) (s : State) : State :=
  match scheduleOf s mo, s.mo? mo with
  | some x, some o =>
    let on := onTimeNow s mo o x.next
    let s := if on then driveSof o.channel s else s
    let s := s.modMo mo fun o => if armedNow s o then o else { o with armed := none }
    let s := modSchedule mo (fun x =>
      let x := if !x.framed then x else if on then { x with onTime := inc32 x.onTime } else { x with displaced := inc32 x.displaced }
      { x with next := x.next + x.period, pointDone := false, framed := false }) s
    if x.period = 0 then finishSchedule mo 1 0 s else s
  | _, _ => s

/-- SHUTTER_INSTANT (R370): an armed entry becomes ordinary. -/
def execShutterInstant (mo : Fin 16384) (s : State) : Host.Outcome State Fault Refusal :=
  match liveSchedule s mo.val with
  | none => next s
  | some (x, _) => next (instantEnds mo.val (reachTime x.next (armPoint mo.val s)))

/-- One schedule after a forward step (R363): the first instant jumped over is served now, later ones are missed, and an
arm point passed is served. -/
def stepSchedule (mo : Nat) (s : State) : State :=
  match liveSchedule s mo with
  | none => s
  | some (x, _) =>
    if s.now + 2000 < x.next then s
    else if s.now < x.next then armPoint mo s
    else
      let s := instantEnds mo (armPoint mo s)
      match scheduleOf s mo with
      | none => s
      | some y =>
        let missed := gridCount y.first y.period y.next s.now
        let s := modSchedule mo (fun y => { y with
          missed := satAdd 32 y.missed missed, next := (gridFrom y.first y.period (max y.next s.now)).getD y.next }) s
        let s := if missed = 0 then s else scheduleEvent mo 3 missed s
        let at_ := ((mget s.schedules mo).map (·.next)).getD 0
        let s := if at_ = s.now then instantEnds mo (armPoint mo s) else s
        if s.now + 2000 < ((mget s.schedules mo).map (·.next)).getD 0 then s else armPoint mo s

/-! ### Triggers (R364, R377, R378) -/

/-- A TRIGIO ball is an output while a developed unit drives it (R378). -/
def ballOut (s : State) (ball : Nat) : Bool := s.triggers.toList.any fun t => ballDriven t.set ball

/-- A captured edge reaches every unit with that source and polarity (R364, R377). -/
def captureEdge (source edge stamp : Nat) (s : State) : State :=
  { s with triggers := vmap s.triggers fun t =>
      if t.set.source == source && t.set.edge &&& edge != 0 then { t with edges := t.edges ++ [stamp] } else t }

/-- TRIGIO_EDGE (R364): the cell takes every edge at its ball, one that a unit drives among them. -/
def execTrigioEdge (ball : Fin 8) (rising : Bool) (s : State) : Host.Outcome State Fault Refusal :=
  if !timeRuns s then next s
  else next (captureEdge (ball.val + 1) (if rising then 1 else 2) (stampNow s) s)

/-- A unit fires now for the edge or instant `at_` (R275, R377). -/
def fireTrigger (unit at_ : Nat) (s : State) : State :=
  let t := (s.trigger unit).set
  let s := if t.dest.testBit 0 then
      { s with pulses := tmod s.pulses t.pin fun _ => some (s.time.clk + t.width * usNs) } else s
  let s := if t.dest.testBit 1 then filmFreeze 4 0xFF s else s
  if t.dest.testBit 2 then raiseEvent 0 0x0804 (le 1 unit ++ le 1 t.source ++ zeros 6 ++ le 8 at_) s else s

/-- TRIGGER_FIRE (R377): the oldest captured edge after its DELAY, or the next compare instant. -/
def execTriggerFire (unit : Fin 8) (s : State) : Host.Outcome State Fault Refusal :=
  let u := s.trigger unit.val
  if u.set.source = compareSource then
    if u.next = 0 || !timeRuns s then next s
    else
      let s := fireTrigger unit.val u.next (reachTime u.next s)
      next (s.modTrigger unit.val fun x => { x with next := if u.set.period = 0 then 0 else u.next + u.set.period })
  else match u.edges with
    | [] => next s
    | e :: rest =>
      let s := reachTime (e + u.set.delay) s
      next (fireTrigger unit.val e (s.modTrigger unit.val fun x => { x with edges := rest }))

/-- TRIGGER_PULSE_END (R377): the pulse on the unit's ball falls. -/
def execTriggerPulseEnd (unit : Fin 8) (s : State) : Host.Outcome State Fault Refusal :=
  let t := (s.trigger unit.val).set
  if !t.dest.testBit 0 then next s
  else match tget s.pulses t.pin none with
    | none => next s
    | some e =>
      let s := reachClk e s
      next { s with pulses := tmod s.pulses t.pin fun _ => none }

/-- A compare unit after a forward step (R363): it fires once at the step edge. -/
def stepTrigger (unit : Nat) (s : State) : State :=
  let u := s.trigger unit
  if u.set.source != compareSource || u.next = 0 || s.now < u.next then s
  else
    let s := fireTrigger unit u.next s
    s.modTrigger unit fun x => { x with next := (gridFrom (u.next + u.set.period) u.set.period (s.now + 1)).getD 0 }

/-! ### PPS_OUT (R376) -/

/-- The first time-base value at or after `v` at which PPS_OUT rises. -/
def ppsRiseAt (p : Pps) (v : Nat) : Nat := if v ≤ p.offset then p.offset else p.offset + ceilDiv (v - p.offset) p.period * p.period

/-- The next time-base value at which PPS_OUT rises: after the rise served last, so that a backward step serves none twice (R363,
R376). -/
def nextPpsRise (t : TimeBase) : Nat :=
  ppsRiseAt t.pps (max t.time (match t.ppsLast with | some v => v + 1 | none => 0))

/-- PPS_OUT rises at `t` (R376). -/
def risePps (t : Nat) (s : State) : State :=
  { s with time := { s.time with ppsOut := true, ppsFall := t + s.time.pps.width * msNs, ppsLast := some t } }

/-- A rise due at the time base's value is served at the step edge (R363). -/
def servePps (s : State) : State :=
  if s.time.pps.outEn && !s.time.ppsOut && nextPpsRise s.time = s.now then risePps s.now s else s

/-- PPS_OUT_RISE (R376). -/
def execPpsOutRise (s : State) : Host.Outcome State Fault Refusal :=
  if !s.time.pps.outEn || s.time.ppsOut || !timeRuns s then next s
  else
    let t := nextPpsRise s.time
    next (risePps t (reachTime t s))

/-- PPS_OUT_FALL (R376). -/
def execPpsOutFall (s : State) : Host.Outcome State Fault Refusal :=
  if !s.time.ppsOut then next s
  else
    let s := reachTime s.time.ppsFall s
    next { s with time := { s.time with ppsOut := false } }

end Sys2Proof.Machine
end

