-- ==== Sys2Proof/Machine/AdmissionCmds.lean ====
section
/-!
DEFINITION. The admission commands (R415, R421 to R429).
-/

namespace Sys2Proof.Machine

/-! ### Record numbers (R390, R423) -/

/-- Records that exist, running or in any latent set: number, owner and whether foreign. -/
def recordClaims (s : State) : List (Nat × Nat × Bool) :=
  s.records.map (fun r => (r.1, recordOwner s r.2.decl, r.2.decl.foreign)) ++ (allWaiting s).filterMap fun c => match c.2 with
    | .declare n d _ => some (n, c.1, d.foreign)
    | _ => none

/-- The record that a declaration names: the one requested, or the lowest free one. -/
def recordPick (s : State) (w : Nat) : Option Nat :=
  if bitOf w 15 then
    let l := recordClaims s
    firstBelow 32768 fun n => !(l.any fun r => r.1 == n)
  else some w

/-- A record field whose context is another's (R422): the source rule of the commands that name a record at offset 0. -/
def recordForeign (p : Packet) (s : State) (x : Nat) : Bool :=
  let w := fieldAt p.params 0 2
  !bitOf w 15 && (recordClaims s).any fun r => r.1 == w && r.2.1 != x

/-- PERIOD is outside its range (R423). -/
def periodBad (n : Nat) : Bool := n < 10000 || n > 4000000000

/-! ### Declarations (R391 to R393, R404, R421, R423, R424) -/

/-- The first state check that a declaration fails, beside those of its own kind (R390, R392, R421). -/
def declareFault (v : State) (n : Nat) (d : Decl) : Option Nat :=
  let others := (declsOn v d.channel).filter fun o => o.1 != n
  if (declItem v n d false).isNone then some 0x090900
  else if others.any fun o => (o.2.1.foreign || d.foreign) && arbSeq (declFrame v o.2.1).2 == arbSeq d.hdr then some 0x090400
  else if others.length ≥ 4096 then some 0x090300
  else none

/-- The advisory figures of a declaration in the configuration `v` that holds it: FITS, EXPOSURE, FRAME, BLOCKING; the
exposure and blocking are open where the calculation gives none (R404; log entry 4). -/
def advisory (s v : State) (n : Nat) (d : Decl) : List Byte :=
  let c := ((declItem v n d false).map (·.c)).getD 0
  match (analyse v [d.channel]).bind fun a => foundOf a n with
  | some f =>
    le 1 (flag (d.deadline = 0 || f.exposure ≤ d.deadline) 1) ++ zeros 1 ++ le 4 f.exposure ++ le 4 c ++ le 4 f.blocking
  | none => le 1 0 ++ zeros 1 ++ le 4 (freeAt s 0) ++ le 4 c ++ le 4 (freeAt s 1)

/-- A declaration that passes its own checks is staged; one of a stream whose stop bath runs is held (R404, R408). `pick` is none
where no record is free, which is judged after the state (R151). -/
def declare (p : Packet) (s : State) (pick : Option Nat) (d : Decl) : Verdict :=
  let x := stageCtx p
  let v := stagedFor p s
  match declareFault v (pick.getD 0x8000) d, pick with
  | some e, _ => .refuse stState e
  | none, none => .refuse stResource 4
  | none, some n =>
    let new := !(recordClaims s).any fun r => r.1 == n
    refuseIf (new && recordUse s x + 1 > quotaOf s x 4) stResource 4 <|
      let body := le 2 n ++ advisory s (writeDown x v (.declare n d p.source)) n d
      let bath := match mget s.records n with | some r => r.stopping | none => false
      match stage p [.declare n d p.source] (drawn 2 s) body with
      | .reply t st de b => if bath then .reply t stDeferred 5 b else .reply t st de b
      | w => w

/-- The record, where there is one, is of the other kind, running or latent. -/
def kindClash (s : State) (pick : Option Nat) (foreign : Bool) : Bool :=
  pick.any fun n => (recordClaims s).any fun r => r.1 == n && r.2.2 != foreign

/-- DECLARE_STREAM. -/
def declareStream (p : Packet) (s : State) : Verdict :=
  let w := fieldAt p.params 0 2
  let crit := byteAt p.params 2
  let feed := byteAt p.params 3
  let mo := fieldAt p.params 4 2
  let period := fieldAt p.params 8 4
  let jitter := fieldAt p.params 12 4
  let deadline := fieldAt p.params 16 4
  let x := stageCtx p
  let v := stagedFor p s
  badParam (bitOf w 15 && w % 0x8000 ≠ 0) 0 <|
  badParam (crit > 3) 2 <|
  badParam (feed > 2) 3 <|
  badParam (mo ≥ 0x4000) 4 <|
  badParam (!zeroAt p.params 6 2) 6 <|
  badParam (if feed = 2 then period ≠ 0 else periodBad period) 8 <|
  badParam (if feed = 2 then jitter ≠ 0 else jitter ≥ period) 12 <|
  badParam (deadline = 0) 16 <|
  badParam (!zeroAt p.params 20 4) 20 <|
  bundleOpen s p <|
    let pick := recordPick s w
    match ownTxMo v x mo with
    | none => .refuse stState (if kindClash s pick false then 0x090A00 else 0x090100)
    | some o =>
      refuseIf (kindClash s pick false) stState 0x090A00 <|
      refuseIf (!feedFits v mo feed o) stState 0x090100 <|
      refuseIf ((allDecls v).any fun d => !d.2.1.foreign && d.2.1.mo == mo && some d.1 != pick) stState 0x090200 <|
      refuseIf (crit > (s.ctx x).crit) stState 0x090500 <|
        let d : Decl :=
          { foreign := false, ctx := x, channel := o.channel, hdr := moHdr o, feed := feed, mo := mo, crit := crit,
            period := period, jitter := jitter, deadline := deadline, minlen := o.maxlen, maxlen := o.maxlen }
        declare p s pick { d with period := if feed = 2 then feedPeriod v d else period }

/-- Right 0 for guests, a record of the sender's own, and Send on the object's channel (R163, R165, R422). -/
def fromDeclareStream : SourceRule := fun p s =>
  match fromOwnRight 0 p s with
  | some d => some d
  | none =>
    let x := stageCtx p
    if recordForeign p s x then some 0xFF
    else match ownTxMo (stagedFor p s) x (fieldAt p.params 4 2) with
      | some o => if o.bound && chanRight s x o.channel < 2 then some 0xFF else none
      | none => none

/-- DECLARE_STREAM: its row of the opcode index. -/
def specDeclareStream : CmdSpec :=
  { opcode := 0x0901, plen := plenIs 6, right := fromDeclareStream, needs := needsOf [2, 3], readOnly := false }

/-- DECLARE_STREAM (R423). -/
def execDeclareStream (p : Packet) (s : State) : Host.Outcome State Fault Refusal :=
  next (runCommand specDeclareStream declareStream p s)

/-- FMT of DECLARE_FOREIGN is refused: a format or a header bit that it does not carry (R121, R424). -/
def foreignFmtBad (b : Nat) : Bool :=
  let f := b % 4
  f == 3 || b ≥ 32 || (bitOf b 2 && f == 2) || (bitOf b 3 && f != 0) || (bitOf b 4 && f != 1)

/-- The header of a foreign declaration (R424). -/
def foreignHdr (b ident : Nat) : Hdr :=
  { fmt := if b % 4 = 0 then .cc else if b % 4 = 1 then .fd else .xl, ide := bitOf b 2, rtr := bitOf b 3, brs := bitOf b 4,
    esi := false, sec := false, ident := ident, af := 0 }

/-- DECLARE_FOREIGN. -/
def declareForeign (p : Packet) (s : State) : Verdict :=
  let w := fieldAt p.params 0 2
  let fb := byteAt p.params 3
  let ident := fieldAt p.params 4 4
  let maxlen := fieldAt p.params 8 2
  let minlen := fieldAt p.params 10 2
  let period := fieldAt p.params 12 4
  let jitter := fieldAt p.params 16 4
  let h := foreignHdr fb ident
  badParam (bitOf w 15 && w % 0x8000 ≠ 0) 0 <|
  withChan p s 2 fun ch =>
  badParam (foreignFmtBad fb) 3 <|
  badParam (ident &&& identBits (2 ^ (fb % 4)) (flag h.ide 1) ≠ ident) 4 <|
  badParam (!lenOk h.fmt maxlen) 8 <|
  badParam (!lenOk h.fmt minlen || minlen > maxlen) 10 <|
  badParam (periodBad period) 12 <|
  badParam (jitter ≥ period) 16 <|
  bundleOpen s p <|
    let pick := recordPick s w
    refuseIf (kindClash s pick true) stState 0x090A00 <|
        declare p s pick
          { foreign := true, ctx := stageCtx p, channel := ch, hdr := h, feed := 0, mo := 0, crit := 0, period := period,
            jitter := jitter, deadline := fieldAt p.params 20 4, minlen := minlen, maxlen := maxlen }

/-- The channel owner, on a record of its own (R422, R424). -/
def fromDeclareForeign : SourceRule := fun p s =>
  match fromOwner 2 p s with
  | some d => some d
  | none => if recordForeign p s (stageCtx p) then some 0xFF else none

/-- DECLARE_FOREIGN: its row of the opcode index. -/
def specDeclareForeign : CmdSpec :=
  { opcode := 0x0903, plen := plenIs 6, right := fromDeclareForeign, needs := needsOf [2, 3], readOnly := false }

/-- DECLARE_FOREIGN (R424). -/
def execDeclareForeign (p : Packet) (s : State) : Host.Outcome State Fault Refusal :=
  next (runCommand specDeclareForeign declareForeign p s)

/-! ### WITHDRAW_STREAM (R407 to R409) -/

/-- A route of a configuration names record `n` of this device. -/
def routeNames (v : State) (n : Nat) : Bool := v.routes.any fun r => r.2.outRec == n || (r.2.inRec == n && r.2.inPos == v.pos)

/-- A route that is latent or armed, of any context, names record `n` of this device (R409). -/
def routeWaits (s : State) (n : Nat) : Bool :=
  (allWaiting s).any fun c => match c.2 with
    | .route r => r.deadline != 0 && (r.outRec == n || (r.inRec == n && r.inPos == s.pos))
    | _ => false

/-- The change declares record `n`. -/
def declares (n : Nat) : Change → Bool
  | .declare m _ _ => m == n
  | _ => false

/-- A declaration of record `n` by context `x` waits, latent or armed. -/
def stagedDecl (s : State) (x n : Nat) : Bool := (waitingChanges (s.ctx x)).any (declares n)

/-- The waiting declaration of record `n` leaves context `x`'s latent set and its armed development. -/
def dropDecl (x n : Nat) (s : State) : State :=
  s.modCtx x fun c => { c with
    latent := c.latent.filter fun c => !declares n c
    armed := c.armed.map fun a => { a with changes := a.changes.filter fun c => !declares n c } }

/-- WITHDRAW_STREAM. While the stop bath runs it cancels a held declaration, or changes nothing (R179, R181, R408). -/
def withdrawStream (p : Packet) (s : State) : Verdict :=
  let n := fieldAt p.params 0 2
  let x := stageCtx p
  let v := stagedFor p s
  badParam (n ≥ 0x8000) 0 <|
  badParam (!zeroAt p.params 2 2) 2 <|
  bundleOpen s p <|
  refuseIf ((mget s.records n).isNone && (mget v.records n).isNone) stState 0x090B00 <|
  refuseIf (routeNames s n || routeNames v n || routeWaits s n || registeredHere s n) stState 0x090600 <|
    match mget s.records n with
    | some r =>
      if !r.stopping then stage p [.withdraw n p.source] s []
      else if r.held.isSome || stagedDecl s x n then
        okDone (streamBathEvent 0x09F2 n p.source (dropDecl x n (modRec n (fun r => { r with held := none }) s)))
      else okDone s
    | none => stage p [.withdraw n p.source] s []

/-- A record of the sender's own (R422). -/
def fromWithdraw : SourceRule := fun p s =>
  match actsAs p.source with
  | none => some 0xFF
  | some x => if recordForeign p s x then some 0xFF else none

/-- WITHDRAW_STREAM: its row of the opcode index. -/
def specWithdrawStream : CmdSpec :=
  { opcode := 0x0902, plen := plenIs 1, right := fromWithdraw, needs := needsOf [2, 3], readOnly := false }

/-- WITHDRAW_STREAM (R407). -/
def execWithdrawStream (p : Packet) (s : State) : Host.Outcome State Fault Refusal :=
  next (runCommand specWithdrawStream withdrawStream p s)

/-! ### SET_FAULT_BUDGET (R394, R425) -/

/-- SET_FAULT_BUDGET. -/
def setFaultBudget (p : Packet) (s : State) : Verdict :=
  let e := fieldAt p.params 2 2
  let w := fieldAt p.params 4 4
  withChan p s 0 fun ch =>
  badParam (!zeroAt p.params 1 1) 1 <|
  badParam (e > 255) 2 <|
  badParam (w < 1000 || w > 3600000000) 4 <|
  bundleOpen s p <|
    stage p [.budget ch e w] s []

/-- SET_FAULT_BUDGET: its row of the opcode index. -/
def specSetFaultBudget : CmdSpec :=
  { opcode := 0x0904, plen := plenIs 2, right := fromOwner 0, needs := needsOf [2, 3], readOnly := false }

/-- SET_FAULT_BUDGET (R425). -/
def execSetFaultBudget (p : Packet) (s : State) : Host.Outcome State Fault Refusal :=
  next (runCommand specSetFaultBudget setFaultBudget p s)

/-! ### ADMIT_ROUTE (R400, R401, R426) -/

/-- IN names a foreign record: of this device, or of the device that holds it (R400, R401; log entry 41). -/
def inForeign (v : State) (inRec inPos : Nat) : Bool :=
  if inPos = v.pos then match mget v.records inRec with
    | some r => r.decl.foreign
    | none => false
  else (tget v.stack.devices inPos deviceReset).present && Config.remoteFigure v.free inPos inRec 0 != 0

/-- OUT names an own stream that a route may feed (R400). -/
def outOwn (v : State) (n : Nat) : Bool :=
  match mget v.records n with
  | some r => let d := r.held.getD r.decl; !d.foreign && (!r.stopping || r.held.isSome) && d.feed != 0
  | none => false

/-- The channel of a route's OUT. -/
def outChan (v : State) (n : Nat) : List Nat := recChans v n

/-- ADMIT_ROUTE. DEADLINE 0 withdraws: it names a route's own IN and OUT, or records that a route may have (R421, R426). -/
def admitRoute (p : Packet) (s : State) : Verdict :=
  let i := fieldAt p.params 0 2
  let o := fieldAt p.params 2 2
  let pos := byteAt p.params 4
  let r : RouteRec := { inRec := i, outRec := o, inPos := pos, deadline := fieldAt p.params 8 4 }
  let v := stagedFor p s
  badParam (i ≥ 0x8000) 0 <|
  badParam (o ≥ 0x8000) 2 <|
  badParam (pos ≥ 8) 4 <|
  badParam (!zeroAt p.params 5 3) 5 <|
  bundleOpen s p <|
    let same := match mget v.routes o with
      | some q => q.inRec == i && q.inPos == pos
      | none => false
    let judged := !inForeign v i pos || !outOwn v o
    refuseIf (if r.deadline = 0 then !same && (judged || (mget v.routes o).isSome) else judged || (mget v.routes o).isSome) stState 0x090800 <|
      let free := (List.range 4).flatMap fun k => le 4 (freeAt s k)
      let w := writeDown (stageCtx p) v (.route (if r.deadline = 0 then { r with deadline := 0xFFFFFFFF } else r))
      let body := match (analyse w (outChan w o)).bind fun a => a.routes.lookup o with
        | some f => le 4 f.1 ++ le 4 f.2.1 ++ le 4 f.2.2.1 ++ le 4 f.2.2.2
        | none => free
      stage p [.route r] (drawn 4 s) body

/-- ADMIT_ROUTE: its row of the opcode index. -/
def specAdmitRoute : CmdSpec :=
  { opcode := 0x0905, plen := plenIs 3, right := fromCtx0, needs := needsOf [2, 3], readOnly := false }

/-- ADMIT_ROUTE (R400). -/
def execAdmitRoute (p : Packet) (s : State) : Host.Outcome State Fault Refusal :=
  next (runCommand specAdmitRoute admitRoute p s)

/-! ### GET_EXPOSURE (R427) -/

/-- The 64 bytes of a record (R427). -/
def exposureBytes (s : State) (g n : Nat) (r : StreamRec) (fig : Figures) (developed : Bool) : List Byte :=
  let d := r.decl
  le 2 (n + flag d.foreign 0x8000) ++ le 1 (virtChan s g d.channel)
    ++ le 1 (flag developed 1 + flag (assured s d.channel) 2 + flag r.stopping 4 + flag (routeNames s n || registeredHere s n) 8 + 16 * d.crit + 64 * d.feed)
    ++ le 4 d.hdr.ident ++ le 4 fig.exposure ++ le 4 d.deadline ++ le 4 (min d.period 0xFFFFFFFF) ++ le 4 fig.jitter
    ++ le 4 fig.frame ++ le 4 fig.blocking ++ le 4 r.misses ++ le 4 r.overExp ++ le 4 r.violations ++ le 4 r.frames
    ++ le 4 r.maxResponse ++ zeros 4 ++ le 8 r.lastMiss

/-- The figures of a record that has not developed: advisory, as R404 has them, open where the calculation gives none. -/
def latentFigures (s v : State) (n : Nat) (d : Decl) : Figures :=
  let c := ((declItem v n d false).map (·.c)).getD 0
  match (analyse v [d.channel]).bind fun a => foundOf a n with
  | some f => { exposure := f.exposure, frame := c, blocking := f.blocking, jitter := f.item.jitter }
  | none => { exposure := freeAt s 0, frame := c, blocking := freeAt s 1, jitter := d.jitter }

/-- The configuration with the waiting changes of the context that declares record `n`, whichever that is (R421). -/
def declView (s : State) (n : Nat) : State :=
  match (allWaiting s).find? fun c => declares n c.2 with
  | some c => writeAll c.1 (waitingChanges (s.ctx c.1)) s
  | none => s

/-- GET_EXPOSURE. -/
def getExposure (p : Packet) (s : State) : Verdict :=
  let n := fieldAt p.params 0 2
  let g := (guestOf p.source).getD 0
  badParam (n ≥ 0x8000) 0 <|
  badParam (!zeroAt p.params 2 2) 2 <|
    match mget s.records n with
    | some r => okBody s (exposureBytes s g n r r.figures true)
    | none =>
      let v := declView s n
      match mget v.records n with
      | some r => okBody (drawn 2 s) (exposureBytes s g n r (latentFigures s v n r.decl) false)
      | none => .refuse stState 0x090B00

/-- Own records for a guest, any record for the others (R422). -/
def fromGetExposure : SourceRule := fun p s =>
  match guestOf p.source with
  | some g => if recordForeign p s g then some 0xFF else none
  | none => none

/-- GET_EXPOSURE: its row of the opcode index. -/
def specGetExposure : CmdSpec :=
  { opcode := 0x0906, plen := plenIs 1, right := fromGetExposure, needs := needsOf [2, 3], readOnly := true }

/-- GET_EXPOSURE (R427). -/
def execGetExposure (p : Packet) (s : State) : Host.Outcome State Fault Refusal :=
  next (runCommand specGetExposure getExposure p s)

/-! ### ACK_UNASSURED and GET_MONITORS (R415, R428, R429) -/

/-- The causes of a channel whose condition has ended are cleared; event 0x0903 when none is left (R415). -/
def ackCauses (ch : Nat) (s : State) : State :=
  let keep := (s.mon ch).causes &&& BitVec.ofNat 8 (activeCauses s ch)
  let fresh := keep == 0 && (s.mon ch).causes != 0
  let s := s.modMon ch fun m => { m with causes := keep }
  if fresh then forEach (admissionCtxs s ch) (fun c s => raiseEvent c 0x0903 (le 1 (virtChan s c ch)) s) s else s

/-- ACK_UNASSURED. -/
def ackUnassured (p : Packet) (s : State) : Verdict :=
  withChan p s 0 fun ch =>
  badParam (!zeroAt p.params 1 3) 1 <|
    let s := ackCauses ch s
    okBody s (le 1 (s.mon ch).causes.toNat ++ zeros 3 ++ le 8 (stampNow s))

/-- ACK_UNASSURED: its row of the opcode index. -/
def specAckUnassured : CmdSpec :=
  { opcode := 0x0907, plen := plenIs 1, right := fromOwner 0, needs := needsOf [2, 3], readOnly := false }

/-- ACK_UNASSURED (R415). -/
def execAckUnassured (p : Packet) (s : State) : Host.Outcome State Fault Refusal :=
  next (runCommand specAckUnassured ackUnassured p s)

/-- Stamp of the earliest latched cause; 0 if none (R429). -/
def firstCause (m : Monitor) : Nat :=
  let l := (List.range 8).filterMap fun b => if m.causes.getLsbD b then some (tget m.causeAt b 0) else none
  match l with
  | [] => 0
  | a :: t => t.foldl min a

/-- The 64 bytes of a channel's monitor (R429), its number written as `shown`. -/
def monitorRecord (s : State) (ch shown : Nat) : List Byte :=
  let m := s.mon ch
  let l := recordsOn s ch
  le 1 shown ++ le 1 (if l.isEmpty then 0 else if m.causes == 0 then 1 else 2) ++ le 1 m.causes.toNat ++ le 1 (activeCauses s ch)
    ++ le 2 (l.filter fun r => !r.2.decl.foreign).length ++ le 2 (l.filter fun r => r.2.decl.foreign).length
    ++ le 2 m.e ++ le 2 (inWindow s ch s.now) ++ le 4 m.w ++ le 4 m.undeclared ++ le 4 m.foreignViol ++ le 4 m.ownViol
    ++ le 4 m.overBudget ++ le 4 m.misses ++ le 4 m.utilisation ++ zeros 8 ++ le 8 (firstCause m) ++ le 8 m.lastMiss

/-- GET_MONITORS. -/
def getMonitors (p : Packet) (s : State) : Verdict :=
  withChan p s 0 fun ch =>
  badParam (!zeroAt p.params 1 3) 1 <|
    okBody s (monitorRecord s ch (virtChan s ((guestOf p.source).getD 0) ch))

/-- GET_MONITORS: its row of the opcode index. -/
def specGetMonitors : CmdSpec :=
  { opcode := 0x0908, plen := plenIs 1, right := fromAnyRight 0, needs := needsOf [2, 3], readOnly := true }

/-- GET_MONITORS (R429). -/
def execGetMonitors (p : Packet) (s : State) : Host.Outcome State Fault Refusal :=
  next (runCommand specGetMonitors getMonitors p s)

end Sys2Proof.Machine
end

