-- ==== Sys2Proof/Machine/CvuOps.lean ====
section
/-!
DEFINITION. The check-value units (chapter *Check-value units*): the algorithm of R474, feeding (R476 to R478), and the
check and the append that the route lanes use (R481, R482).
-/

namespace Sys2Proof.Machine

/-! ### The algorithm (R474, R475) -/

/-- reflect(x, n): bits n - 1 to 0 of `x` reversed. -/
def reflect (n v : Nat) : Nat := (List.range n).foldl (fun a i => 2 * a + flag (bitOf v i) 1) 0

/-- One bit of the inner loop: `top` is bit W - 1 of the register XOR the bit fed. -/
def cvuBit (p : CvuParams) (r : BitVec 64) (bit : Bool) : BitVec 64 :=
  let top := r.getLsbD (p.width - 1) != bit
  let t := (r <<< 1) &&& BitVec.ofNat 64 (2 ^ p.width - 1)
  if top then t ^^^ p.poly else t

/-- One byte of the outer loop, most significant bit of the fed byte first. -/
def cvuByte (p : CvuParams) (r : BitVec 64) (b : Byte) : BitVec 64 :=
  let v := if p.refin then reflect 8 b.toNat else b.toNat
  [7, 6, 5, 4, 3, 2, 1, 0].foldl (fun r i => cvuBit p r (bitOf v i)) r

/-- The register after a byte string. -/
def cvuFeed (p : CvuParams) (r : BitVec 64) (l : List Byte) : BitVec 64 := l.foldl (cvuByte p) r

/-- RESULT for a register value (R475). -/
def cvuResult (p : CvuParams) (r : BitVec 64) : BitVec 64 :=
  (if p.refout then BitVec.ofNat 64 (reflect p.width r.toNat) else r) ^^^ p.xorout

/-! ### Snooping (R448, R481, R482) -/

/-- The check-value field of a PDU, read in the order that CV_ORDER gives (R448, R481). -/
def cvField (v : State) (p : PduSet) (data : List Byte) : Nat :=
  let f := (data.drop p.cvPos).take (cvBytes v p)
  if p.cvOrder then beVal f else leVal f

/-- The covered bytes of a PDU: those outside the field, in ascending order (R448). -/
def cvCovered (v : State) (p : PduSet) (data : List Byte) : List Byte :=
  data.take p.cvPos ++ data.drop (p.cvPos + cvBytes v p)

/-- A PDU computation of a ROUTE unit: REG holds the final register (R479). -/
def cvuRun (u : Nat) (c : CvuParams) (l : List Byte) (s : State) : State :=
  s.modCvu u fun x => { x with reg := cvuFeed c c.init l }

/-- The check of an arrival pass: whether the field matches, and the unit's counters (R481, R483). -/
def cvCheck (p : PduSet) (data : List Byte) (s : State) : Bool × State :=
  if !p.cvEn then (true, s)
  else match (s.cvu p.cvu).params with
    | none => (true, s)
    | some c =>
      let s := cvuRun p.cvu c (cvCovered s p data) s
      let ok := (cvuResult c (s.cvu p.cvu).reg).toNat == cvField s p data
      (ok, s.modCvu p.cvu fun x => { x with
        checks := inc32 x.checks, mismatches := if ok then x.mismatches else inc32 x.mismatches })

/-- The bytes of a check-value field (R448). -/
def cvFieldBytes (big : Bool) (n : Nat) (r : BitVec 64) : List Byte := if big then (le n r.toNat).reverse else le n r.toNat

/-- The append of an outbound PDU: RESULT written into its field (R482). -/
def cvAppend (p : PduSet) (data : List Byte) (s : State) : List Byte × State :=
  if !p.cvEn then (data, s)
  else match (s.cvu p.cvu).params with
    | none => (data, s)
    | some c =>
      let n := cvBytes s p
      let s := cvuRun p.cvu c (cvCovered s p data) s
      let f := cvFieldBytes p.cvOrder n (cvuResult c (s.cvu p.cvu).reg)
      (data.take p.cvPos ++ f ++ data.drop (p.cvPos + n), s.modCvu p.cvu fun x => { x with appends := inc32 x.appends })

/-! ### Enable and stop bath (R478, R179, R180) -/

/-- A unit enabled: REG at INIT (R478). -/
def cvuEnable (u : Nat) (s : State) : State :=
  s.modCvu u fun x => { x with enabled := true, reg := match x.params with | some c => c.init | none => 0 }

/-- CVU_STOP_BATH_END (R180, R478): the unit is disabled and REG keeps its value; a held enable is applied. -/
def execCvuStopBathEnd (unit : Fin 32) (s : State) : Host.Outcome State Fault Refusal :=
  let u := unit.val
  let c := s.cvu u
  if !c.stopping then next s
  else
    let s := cvuEvent 0x0BF0 u c.stopBy (s.modCvu u fun x => { x with stopping := false, enabled := false, held := none })
    match c.held with
    | none => next s
    | some src => next (cvuEvent 0x0BF1 u src (cvuEnable u s))

/-! ### The unit's record (R489) -/

/-- STATE (R489). -/
def cvuState (c : Cvu) : Nat :=
  match c.params with
  | none => 0
  | some p =>
    if p.route then 5
    else if c.stopping then (if c.held.isSome then 4 else 3)
    else if c.enabled then 2 else 1

/-- Developed PDUs that name a unit (R448). -/
def pdusOfCvu (s : State) (u : Nat) : List (Nat × Pdu) := s.pdus.filter fun p => p.2.set.cvEn && p.2.set.cvu == u

/-- The 72 bytes of a unit's record: the READ_CVU result, contact-sheet section 0x0B01 (R485, R489). -/
def cvuRecord (s : State) (u : Nat) : List Byte :=
  let c := s.cvu u
  match c.params with
  | none => le 1 u ++ zeros 63 ++ le 8 (stampNow s)
  | some p =>
    let l := pdusOfCvu s u
    let lane := match l.head? with | some q => 4 + 8 * q.2.set.lane | none => 0
    le 1 u ++ le 1 (cvuState c) ++ le 1 c.owner ++ le 1 (if p.route then 2 else 1) ++ le 1 p.width
      ++ le 1 (flag p.refin 1 + flag p.refout 2 + lane) ++ le 2 l.length
      ++ le 8 p.poly.toNat ++ le 8 p.init.toNat ++ le 8 p.xorout.toNat ++ le 8 c.reg.toNat
      ++ le 8 (cvuResult p c.reg).toNat ++ le 4 c.checks ++ le 4 c.mismatches ++ le 4 c.appends ++ le 4 c.fed
      ++ le 8 (stampNow s)

end Sys2Proof.Machine
end

