-- ==== Sys2Proof/Machine/CvuCmds.lean ====
section
/-!
DEFINITION. The check-value unit commands (R486 to R490).
-/

namespace Sys2Proof.Machine

/-! ### Units and their owners -/

/-- The unit field and whether its reserved bits are set. -/
def unitOf (p : Packet) : Nat := byteAt p.params 0 % 32

/-- Units claimed by a context, running or in any latent set (R487). -/
def unitClaims (s : State) : List (Nat × Nat) :=
  ((List.range 32).filterMap fun u => if (s.cvu u).params.isSome then some (u, (s.cvu u).owner) else none)
    ++ (allWaiting s).filterMap fun c => match c.2 with
      | .cvu u (some _) => some (u, c.1)
      | _ => none

/-- "Own": a unit that another context owns is refused (R486). -/
def fromUnitOwner : SourceRule := fun p s =>
  match actsAs p.source with
  | none => some 0xFF
  | some x => let c := s.cvu (unitOf p); if c.params.isSome && c.owner != x then some 0xFF else none

/-- READ_CVU: CTX0 and the safety port read any unit (R486). -/
def fromUnitReader : SourceRule := fun p s =>
  match guestOf p.source with
  | none => none
  | some x => let c := s.cvu (unitOf p); if c.params.isSome && c.owner != x then some 0xFF else none

/-- CONFIG_CVU: guests need right 2, and only CTX0 sets ROUTE mode (R479). -/
def fromCvuConfig : SourceRule := fun p s =>
  match fromOwnRight 2 p s with
  | some d => some d
  | none => if (guestOf p.source).isSome && byteAt p.params 1 = 2 then some 0xFF else none

/-- A PDU names the unit, running or latent (R486). -/
def unitNamed (s : State) (u : Nat) : Bool :=
  !(pdusOfCvu s u).isEmpty || (allWaiting s).any fun c => match c.2 with
    | .pdu _ (some p) => p.cvEn && p.cvu == u
    | _ => false

/-! ### CONFIG_CVU -/

/-- CONFIG_CVU after its parameter checks: the unit is reserved or changed in the latent set (R487). -/
def configUnit (p : Packet) (s : State) (u mode : Nat) (prm : CvuParams) : Verdict :=
  let x := stageCtx p
  let v := stagedFor p s
  let claims := unitClaims s
  let new := !(claims.any fun c => c.1 == u)
  let body := le 1 u ++ zeros 3
  refuseIf (claims.any fun c => c.1 == u && c.2 != x) stState 0x0B0300 <|
  refuseIf (mode = 0 && new) stState 0x0B0300 <|
  refuseIf (unitNamed s u && (mode = 0 || (mode = 1 && (match (v.cvu u).params with | some c => c.route | none => false))))
    stState 0x0B0100 <|
  refuseIf ((s.cvu u).held.isSome && mode ≠ 1) stState 0x000300 <|
  refuseIf (new && cvuUse s x + 1 > quotaOf s x 5) stResource 5 <|
    stage p [.cvu u (if mode = 0 then none else some prm)] s body

/-- CONFIG_CVU. The parameters of a freed unit are not judged. -/
def configCvuCmd (p : Packet) (s : State) : Verdict :=
  let b := p.params
  let unit := byteAt b 0
  let any := bitOf unit 7
  let mode := byteAt b 1
  let w := byteAt b 2
  let flags := byteAt b 3
  let overload := fun v => decide (v ≥ 2 ^ w)
  let prm : CvuParams :=
    { route := mode == 2, width := w, poly := BitVec.ofNat 64 (fieldAt b 8 8), init := BitVec.ofNat 64 (fieldAt b 16 8),
      xorout := BitVec.ofNat 64 (fieldAt b 24 8), refin := bitOf flags 0, refout := bitOf flags 1 }
  badParam (bitsOf unit 5 2 ≠ 0 || (any && unit % 32 ≠ 0)) 0 <|
  badParam (mode > 2) 1 <|
  badParam (if mode = 0 then w ≠ 0 else w < 3 || w > 64) 2 <|
  badParam (flags ≥ 4) 3 <|
  badParam (!zeroAt b 4 4) 4 <|
  badParam (mode ≠ 0 && (fieldAt b 8 8 % 2 = 0 || overload (fieldAt b 8 8))) 8 <|
  badParam (mode ≠ 0 && overload (fieldAt b 16 8)) 16 <|
  badParam (mode ≠ 0 && overload (fieldAt b 24 8)) 24 <|
  bundleOpen s p <|
    if any then
      match firstBelow 32 fun u => !((unitClaims s).any fun c => c.1 == u) with
      | some u => configUnit p s u mode prm
      | none => refuseIf (mode = 0) stState 0x0B0300 (.refuse stResource 5)
    else configUnit p s (unit % 32) mode prm

/-- CONFIG_CVU: its row of the opcode index. -/
def specConfigCvu : CmdSpec :=
  { opcode := 0x0B01, plen := plenIs 8, right := fromCvuConfig, needs := needsOf [2, 11], readOnly := false }

/-- CONFIG_CVU (R487). -/
def execConfigCvu (p : Packet) (s : State) : Host.Outcome State Fault Refusal := next (runCommand specConfigCvu configCvuCmd p s)

/-! ### FEED_CVU -/

/-- The bytes of one list of elements in the order in which they enter the unit (R476). -/
def feedOrder (size : Nat) (swap : Bool) : Nat → List Byte → List Byte
  | 0, _ => []
  | n + 1, l => (if swap then (l.take size).reverse else l.take size) ++ feedOrder size swap n (l.drop size)

/-- A unit that takes bytes and values by command: allocated, in FEED mode, enabled (R478, R486). -/
def withFeedUnit (s : State) (u : Nat) (k : CvuParams → Verdict) : Verdict :=
  let c := s.cvu u
  match c.params with
  | none => .refuse stState 0x0B0300
  | some q => if q.route || !c.enabled || c.stopping then .refuse stState 0x0B0200 else k q

/-- FEED_CVU. -/
def feedCvu (p : Packet) (s : State) : Verdict :=
  let b := p.params
  let ctrl := byteAt b 1
  let len := fieldAt b 2 2
  let size := 2 ^ (ctrl % 4)
  let u := unitOf p
  badParam (byteAt b 0 ≥ 32) 0 <|
  badParam (ctrl % 4 = 3 || ctrl ≥ 16) 1 <|
  badParam (len = 0 || len > 224 || len % size ≠ 0 || p.plen ≠ 2 + ceilDiv len 4) 2 <|
  badParam (!zeroAt b 4 4) 4 <|
    withFeedUnit s u fun q =>
      let data := feedOrder size (bitOf ctrl 2) len ((b.drop 8).take len)
      let r := cvuFeed q (if bitOf ctrl 3 then q.init else (s.cvu u).reg) data
      okBody (s.modCvu u fun c => { c with reg := r, fed := satAdd 32 c.fed len })
        (le 8 r.toNat ++ le 8 (cvuResult q r).toNat)

/-- FEED_CVU: its row of the opcode index. -/
def specFeedCvu : CmdSpec :=
  { opcode := 0x0B02, plen := fun n => 3 ≤ n && n ≤ 58, right := fromUnitOwner, needs := needsOf [2, 11], readOnly := false }

/-- FEED_CVU (R488). -/
def execFeedCvu (p : Packet) (s : State) : Host.Outcome State Fault Refusal := next (runCommand specFeedCvu feedCvu p s)

/-! ### READ_CVU, WRITE_CVU_VALUE -/

/-- READ_CVU. -/
def readCvu (p : Packet) (s : State) : Verdict :=
  badParam (byteAt p.params 0 ≥ 32) 0 <|
  badParam (!zeroAt p.params 1 3) 1 <|
    okBody s (cvuRecord s (unitOf p))

/-- READ_CVU: its row of the opcode index. -/
def specReadCvu : CmdSpec :=
  { opcode := 0x0B03, plen := plenIs 1, right := fromUnitReader, needs := needsOf [2, 11], readOnly := true }

/-- READ_CVU (R489). -/
def execReadCvu (p : Packet) (s : State) : Host.Outcome State Fault Refusal := next (runCommand specReadCvu readCvu p s)

/-- WRITE_CVU_VALUE. The width is that of the unit as it runs, so a unit that is not one to write is refused first only where
its parameters set no width. -/
def writeCvuValue (p : Packet) (s : State) : Verdict :=
  let b := p.params
  let u := unitOf p
  let v := fieldAt b 8 8
  badParam (byteAt b 0 ≥ 32) 0 <|
  badParam (!zeroAt b 1 7) 1 <|
  badParam (match (s.cvu u).params with | some q => v ≥ 2 ^ q.width | none => false) 8 <|
    withFeedUnit s u fun _ => okDone (s.modCvu u fun c => { c with reg := BitVec.ofNat 64 v })

/-- WRITE_CVU_VALUE: its row of the opcode index. -/
def specWriteCvuValue : CmdSpec :=
  { opcode := 0x0B04, plen := plenIs 4, right := fromUnitOwner, needs := needsOf [2, 11], readOnly := false }

/-- WRITE_CVU_VALUE (R490). -/
def execWriteCvuValue (p : Packet) (s : State) : Host.Outcome State Fault Refusal :=
  next (runCommand specWriteCvuValue writeCvuValue p s)

/-! ### ENABLE_CVU, DISABLE_CVU (R478, R179 to R181) -/

/-- A unit in FEED mode, named in parameter byte 0. -/
def withUnit (p : Packet) (s : State) (k : Nat → Verdict) : Verdict :=
  badParam (byteAt p.params 0 ≥ 32) 0 <|
  badParam (!zeroAt p.params 1 3) 1 <|
    match (s.cvu (unitOf p)).params with
    | none => .refuse stState 0x0B0300
    | some q => if q.route then .refuse stState 0x0B0200 else k (unitOf p)

/-- ENABLE_CVU. -/
def enableCvu (p : Packet) (s : State) : Verdict :=
  withUnit p s fun u =>
    let c := s.cvu u
    if c.stopping then .reply (s.modCvu u fun c => { c with held := some p.source }) stDeferred 3 []
    else okDone (if c.enabled then s else cvuEnable u s)

/-- ENABLE_CVU: its row of the opcode index. -/
def specEnableCvu : CmdSpec :=
  { opcode := 0x0B05, plen := plenIs 1, right := fromUnitOwner, needs := needsOf [2, 11], readOnly := false }

/-- ENABLE_CVU (R478). -/
def execEnableCvu (p : Packet) (s : State) : Host.Outcome State Fault Refusal := next (runCommand specEnableCvu enableCvu p s)

/-- DISABLE_CVU. -/
def disableCvu (p : Packet) (s : State) : Verdict :=
  withUnit p s fun u =>
    let c := s.cvu u
    if c.stopping then
      okDone (if c.held.isSome then cvuEvent 0x0BF2 u p.source (s.modCvu u fun c => { c with held := none }) else s)
    else okDone (if c.enabled then s.modCvu u fun c => { c with stopping := true, stopBy := p.source } else s)

/-- DISABLE_CVU: its row of the opcode index. -/
def specDisableCvu : CmdSpec :=
  { opcode := 0x0B06, plen := plenIs 1, right := fromUnitOwner, needs := needsOf [2, 11], readOnly := false }

/-- DISABLE_CVU (R478). -/
def execDisableCvu (p : Packet) (s : State) : Host.Outcome State Fault Refusal := next (runCommand specDisableCvu disableCvu p s)

end Sys2Proof.Machine
end

