-- ==== Sys2Proof/Machine/LoadOps.lean ====
section
/-!
DEFINITION. Load channels: target and effective duty (R504, R507, R514), diagnostics (R497, R501), state changes (R522, R523),
switch-chain transfers (R498 to R502, R510) and forces (R509, R510).
-/

namespace Sys2Proof.Machine

/-! ### Codes and blocks (R508, R522) -/

/-- Nanoseconds of a load tick (R494). -/
def tickNs : Nat := 250000

/-- Number of load channels (R491). -/
def loadCount : Nat := 96

/-- State codes (R522). -/
def loadCode : LoadState → Nat
  | .unbound => 0 | .disabled => 1 | .off => 2 | .wait => 3 | .inrush => 4 | .on => 5 | .uvHold => 6 | .backoff => 7
  | .lockedOut => 8 | .latched => 9 | .stopping => 10

/-- The output is on in INRUSH, ON and UV_HOLD (R522). -/
def outOn : LoadState → Bool
  | .inrush => true
  | .on => true
  | .uvHold => true
  | _ => false

/-- The LOAD_STATE byte of a channel; an unbound channel reads 0 (R508). -/
def loadByte (l : Load) : Nat :=
  if l.bind.isNone then 0
  else flag (outOn l.state) 1 + flag (l.state == .backoff || l.state == .lockedOut) 2 + flag l.latch 4 + flag l.openFound 8
    + flag (l.state == .inrush) 16 + flag l.safe 32

/-- Contexts that hear of a load: CTX0, and those whose load mask holds it (R533). -/
def loadCtxs (s : State) (n : Nat) : List Nat := (List.range 64).filter fun c => c == 0 || (s.ctx c).loadMask.getLsbD n

/-- A block of LOCAL arrives: one arrival pass for each IN_LOCAL PDU on it, in ascending number (R440, R455). -/
def localArrival (block : Nat) (data : List Byte) (s : State) : State :=
  if !s.isReady 4 then s
  else forEach (s.pdus.filter fun p => p.2.set.dir == .inLocal && p.2.set.block == block)
    (fun p s => handOff p.1 data 7 (stampNow s) (64 + block) s) s

/-! ### Target and effective duty (R507, R514) -/

/-- The commanded DUTY: values above 1,000 count as 1,000 (R449, R504). -/
def cmdDuty (l : Load) : Nat := min l.duty 1000

/-- The target: ON and DUTY (R507). -/
def targetOf (l : Load) : Bool × Nat :=
  if !l.safe then (l.on, cmdDuty l)
  else match l.policy.safe with
    | 0 => (false, 0)
    | 1 => (true, l.policy.safeDuty)
    | _ => (l.snapOn, l.snapDuty)

/-- A target that is on: ON 1 and DUTY above 0 (R507). Entry into RETAIN or OFF commands the load off, and it stays off after the
return until its commanded state is set on (R77). -/
def targetOn (l : Load) : Bool := !l.parked && (targetOf l).1 && (targetOf l).2 != 0

/-- E for a DUTY, in 0.1 %: compensated for the supply where the policy has it (R514). -/
def compensated (s : State) (l : Load) (d : Nat) : Nat :=
  if l.policy.comp then
    let v := max s.load.vf 1000
    min 1000 ((d * l.policy.vnom ^ 2 + v * v / 2) / (v * v))
  else d

/-- The effective duty E of the load's target (R507, R514). -/
def effOf (s : State) (l : Load) : Nat := compensated s l (targetOf l).2

/-- H in µs (R495). -/
def highUs (e period : Nat) : Nat := (e * period + 500) / 1000

/-! ### Diagnostics (R497, R501, R502) -/

/-- The channel's chain position, where it is bound to a chain. -/
def chainPlace (l : Load) : Option (Nat × Nat × Nat) :=
  match l.bind with
  | some b => match b.out with
    | .chain c p o => some (c, p, o)
    | _ => none
  | none => none

/-- DIAG_LOST of the channel's position (R502). -/
def diagLost (s : State) (l : Load) : Bool :=
  match chainPlace l with
  | some (c, p, _) => (s.swc c).lost.getD p false
  | none => false

/-- The chain reports that may be judged: those of a position whose diagnostics are not lost (R502). -/
def chainReports (s : State) (l : Load) : Option Reports :=
  if (chainPlace l).isSome && !diagLost s l then some l.reports else none

/-- The DIAG_DIN report, judged on the debounced level before inversion (R497). -/
def diagPin (s : State) (l : Load) : Bool :=
  match l.bind with
  | some b => b.diagEn && (s.localIo.levels.getLsbD b.diagDin != b.diagLow)
  | none => false

/-- The current of the channel, none while it has no current input that is measured (R497, R501, R502). -/
def loadCurrent (s : State) (l : Load) : Option Nat :=
  match l.bind with
  | none => none
  | some b =>
    if b.isrc = 1 then (chainReports s l).bind fun r => r.cur
    else if 0x10 ≤ b.isrc && b.isrc ≤ 0x27 && s.localIo.set.ainEn.getLsbD (b.isrc - 0x10) then
      some (tget s.localIo.ain (b.isrc - 0x10) 0 * b.scale / 16)
    else none

/-- The current as LOAD_CURRENT and the status show it (R449, R532). -/
def shownCurrent (s : State) (l : Load) : Nat := min ((loadCurrent s l).getD 0) 0xFFFF

/-- FAULT or DIAG_DIN (R517). -/
def showsOver (s : State) (l : Load) : Bool := diagPin s l || ((chainReports s l).map fun r => r.fault).getD false

/-- TEMP (R517). -/
def showsTemp (s : State) (l : Load) : Bool := ((chainReports s l).map fun r => r.temp).getD false

/-- UV (R517). -/
def showsUv (s : State) (l : Load) : Bool := ((chainReports s l).map fun r => r.uv).getD false

/-- A current above I_MAX (R517). -/
def overMax (s : State) (l : Load) : Bool :=
  l.policy.iMax != 0 && match loadCurrent s l with | some c => decide (c > l.policy.iMax) | none => false

/-- OPEN, or a current below I_OPEN (R517). -/
def showsOpen (s : State) (l : Load) : Bool :=
  ((chainReports s l).map fun r => r.open_).getD false
  || (l.policy.iOpen != 0 && match loadCurrent s l with | some c => decide (c < l.policy.iOpen) | none => false)

/-- The channel's diagnostics show a fault (R521). -/
def showsFault (s : State) (l : Load) : Bool := showsOver s l || showsTemp s l || overMax s l

/-! ### State changes (R496, R522, R523) -/

/-- The output turns on: E is taken, and a PWM ball starts its first period (R496, R514). -/
def turnOn (n : Nat) (s : State) : State :=
  let e := effOf s (s.ld n)
  s.modLd n fun l => { l with
    eff := e, periodAt := s.time.clk
    ball := match l.bind with
      | some b => match b.out with
        | .pwm _ period => decide (highUs e period > 0)
        | _ => false
      | none => false }

/-- The output of a channel is on: by its state, or in a stop bath whose tick has not come (R522, R524). -/
def outputOn (l : Load) : Bool := outOn l.state || (l.state == .stopping && l.eff != 0)

/-- The output turns off: the ball goes low at once (R496). -/
def turnOff (n : Nat) (s : State) : State := s.modLd n fun l => { l with eff := 0, ball := false }

/-- A channel changes state: its output follows, and event 0x0C01 is sent (R522, R523, R533). STOPPING leaves the output to
the next tick (R524). -/
def setLoad (n : Nat) (new : LoadState) (s : State) : State :=
  let old := (s.ld n).state
  if old = new then s
  else
    let s := s.modLd n fun l => { l with state := new }
    let s :=
      if outOn new then (if outOn old then s else turnOn n s)
      else if new = .stopping then s
      else turnOff n s
    raiseEvents (loadCtxs s n) 0x0C01 (le 1 n ++ le 1 (loadCode new) ++ le 1 (loadCode old) ++ le 1 (loadByte (s.ld n))) s

/-- An inrush window starts: granted by the group, without a group, or after an under-voltage restart (R515, R516, R520). -/
def startWindow (n : Nat) (granted uv : Bool) (s : State) : State :=
  setLoad n .inrush (s.modLd n fun l => { l with
    granted := granted, uvWindow := uv, extUsed := 0, extFrom := [], timerEnd := s.load.tick + l.policy.inrush })

/-- The target has turned on (R515, R523). -/
def goOn (n : Nat) (s : State) : State :=
  match (s.ld n).bind.bind fun b => b.group with
  | none => startWindow n false false s
  | some _ => setLoad n .wait (s.modLd n fun l => { l with waitSince := s.load.tick })

/-! ### Stop baths (R179, R180, R524) -/

/-- An event of a load's stop bath (R180). -/
def loadBathEvent (code n : Nat) (src : Source) (s : State) : State := raiseEvent (ctxOf src) code (le 1 2 ++ zeros 1 ++ le 2 n) s

/-- A stop bath starts: a window that the channel held ends (R524). -/
def startLoadBath (n : Nat) (retain : Bool) (by_ : Source) (s : State) : State :=
  setLoad n .stopping (s.modLd n fun l => { l with
    stopRetain := retain, stopBy := by_, stopDue := false, granted := false, enabled := retain && l.enabled,
    eff := if outOn l.state then l.eff else 0 })

/-- A stop bath ends in OFF or DISABLED, and a held enable is applied (R179, R180, R524). -/
def endLoadBath (n : Nat) (s : State) : State :=
  let l := s.ld n
  if l.state != .stopping then s
  else
    let s := setLoad n (if l.stopRetain then .off else .disabled)
      (s.modLd n fun l => { l with stopRetain := false, stopDue := false, held := none })
    let s := loadBathEvent 0x0CF0 n l.stopBy s
    match l.held with
    | none => s
    | some src => loadBathEvent 0x0CF1 n src (setLoad n .off (s.modLd n fun l => { l with enabled := true }))

/-! ### Switch chains (R498 to R502) -/

/-- A field of width `w` at position `p` of a frame set to `v` (R500). -/
def putField (f p w v : Nat) : Nat := f - bitsOf f p w * 2 ^ p + v % 2 ^ w * 2 ^ p

/-- The load bound to an output of a chain. -/
def loadAt (s : State) (c p o : Nat) : Option Nat :=
  (List.range loadCount).find? fun n => chainPlace (s.ld n) == some (c, p, o)

/-- One outgoing frame (R500). The DUTY field of an enabled channel holds its E whether or not its output is on (log entry 66). -/
def chainFrame (s : State) (c : Nat) (f : Profile) (p : Nat) : Nat :=
  (List.range f.outputs).foldl (fun v o =>
    let x := f.outs.getD o { onPos := 0, dutyPos := 0xFF, dutyW := 0, faultPos := 0xFF, tempPos := 0xFF, openPos := 0xFF, uvPos := 0xFF, curPos := 0xFF, curW := 0, pol := 0 }
    let l := (loadAt s c p o).map s.ld
    let on := match l with | some l => outputOn l | none => false
    let e := match l with | some l => l.eff | none => 0
    let v := putField v x.onPos 1 (flag on 1)
    if x.dutyW = 0 || x.dutyPos = 0xFF then v
    else putField v x.dutyPos x.dutyW ((e * (2 ^ x.dutyW - 1) + 500) / 1000)) (f.base % 2 ^ f.frameBits)

/-- The bits of a frame in the order in which they are on the wire: highest first, or bit 0 first with LSB_FIRST (R498). -/
def frameOrder (f : Profile) : List Nat := if bitOf f.mode 3 then List.range f.frameBits else (List.range f.frameBits).reverse

/-- Bits packed eight to a byte, the first in bit 7 (log entry 42). -/
def packBits : Nat → List Bool → List Byte
  | 0, _ => []
  | n + 1, l =>
    if l.isEmpty then []
    else BitVec.ofNat 8 ((List.range 8).foldl (fun v i => 2 * v + flag (l.getD i false) 1) 0) :: packBits n (l.drop 8)

/-- The wire bits of a transfer: position SWITCHES - 1 first (R498). -/
def transferBits (s : State) (c : Nat) (f : Profile) : List Bool :=
  ((List.range f.switches).reverse).flatMap fun p => (frameOrder f).map fun b => bitOf (chainFrame s c f p) b

/-- T_x in ns, rounded up (R499). -/
def transferNs (f : Profile) : Nat := ceilDiv ((f.switches * f.frameBits + 4) * f.div * 25) 2

/-- A transfer starts on an idle chain (R498); at a tick it carries the off command of the stop baths (R524). -/
def startTransfer (c : Nat) (atTick : Bool) (s : State) : State :=
  let x := s.swc c
  if x.profile.switches = 0 || x.busy.isSome then s
  else
    let bits := transferBits s c x.profile
    let s := s.modSwc c fun x => { x with busy := some x.profile, busyAt := s.time.clk, extra := false }
    let s := s.emit (.chain c (packBits bits.length bits))
    if !atTick then s
    else forRange loadCount (fun n s => match chainPlace (s.ld n) with
      | some (k, _, _) => if k = c && (s.ld n).state = .stopping then s.modLd n fun l => { l with stopDue := true } else s
      | none => s) s

/-- The extra transfer of a force: now, or at the end of the transfer in progress (R510). -/
def extraTransfer (c : Nat) (s : State) : State :=
  if (s.swc c).busy.isSome then s.modSwc c fun x => { x with extra := true } else startTransfer c false s

/-- The response frame of position `p`, from the bits in the order in which they arrived (R498). -/
def responseFrame (f : Profile) (bits : List Bool) (p : Nat) : Nat :=
  let l := (bits.drop ((f.switches - 1 - p) * f.frameBits)).take f.frameBits
  ((frameOrder f).zip l).foldl (fun v b => v + flag b.2 (2 ^ b.1)) 0

/-- A report bit of a response; an absent field reports nothing (R500, R501). -/
def reportBit (frame pos : Nat) (low : Bool) : Bool := pos != 0xFF && (bitOf frame pos != low)

/-- The reports of one output (R501). -/
def readReports (x : OutFields) (frame scale : Nat) : Reports :=
  { fault := reportBit frame x.faultPos (bitOf x.pol 0), temp := reportBit frame x.tempPos (bitOf x.pol 1)
    open_ := reportBit frame x.openPos (bitOf x.pol 2), uv := reportBit frame x.uvPos (bitOf x.pol 3)
    cur := if x.curPos = 0xFF then none else some (bitsOf frame x.curPos x.curW * scale / 16) }

/-- Event 0x0C05 (R502, R533). -/
def chainEvent (c p : Nat) (lost : Bool) (s : State) : State :=
  raiseEvent 0 0x0C05 (le 1 c ++ le 1 p ++ le 1 (flag lost 1)) s

/-- The channels bound at a position of a chain, changed by `f` of the output they are bound to. -/
def modPosition (c p : Nat) (f : Nat → Load → Load) (s : State) : State :=
  { s with load := { s.load with loads := vmap s.load.loads fun l => match chainPlace l with
      | some (k, q, o) => if k = c && q = p then f o l else l
      | none => l } }

/-- The response of one position (R501, R502). -/
def takeResponse (c : Nat) (f : Profile) (bits : List Bool) (p : Nat) (s : State) : State :=
  let frame := responseFrame f bits p
  if frame &&& f.expMask = f.expValue then
    let was := (s.swc c).lost.getD p false
    let s := s.modSwc c fun x => { x with invalid := lmod x.invalid p fun _ => 0, lost := lmod x.lost p fun _ => false }
    let s := modPosition c p (fun o l => match f.outs[o]?, l.bind with
      | some x, some b => { l with reports := readReports x frame b.scale }
      | _, _ => l) s
    if was then chainEvent c p false s else s
  else
    let s := modPosition c p (fun _ l => { l with chainErr := inc32 l.chainErr }) s
    let s := s.modSwc c fun x => { x with invalid := lmod x.invalid p (· + 1) }
    let x := s.swc c
    if x.invalid.getD p 0 ≥ 4 && !x.lost.getD p false then
      chainEvent c p true (s.modSwc c fun x => { x with lost := lmod x.lost p fun _ => true })
    else s

/-- The channels of a chain whose stop bath ends at this CSN rise (R524). -/
def endChainBaths (c : Nat) (s : State) : State :=
  forRange loadCount (fun n s => match chainPlace (s.ld n) with
    | some (k, _, _) => if k = c && (s.ld n).stopDue then endLoadBath n s else s
    | none => s) s

/-- CHAIN_TRANSFER_END (R498, R501, R502): CSN rises; `response` holds the bits in the order in which they arrived, packed as
the frames sent are (log entry 42). A waiting extra transfer starts (R510). -/
def execChainTransferEnd (swc : Fin 8) (response : List Byte) (s : State) : Host.Outcome State Fault Refusal :=
  let c := swc.val
  match (s.swc c).busy with
  | none => next s
  | some f =>
    let s := reachClk ((s.swc c).busyAt + transferNs f) s
    let bits := response.flatMap fun b => ((List.range 8).reverse).map fun i => bitOf b.toNat i
    let s := forRange f.switches (takeResponse c f bits) s
    let s := endChainBaths c (s.modSwc c fun x => { x with busy := none })
    next (if (s.swc c).extra then startTransfer c false s else s)

/-! ### Forces (R509, R510) -/

/-- A force from CTX0 on a channel that the safety port has forced changes nothing (R509). -/
def forceIgnored (sender : Source) (l : Load) : Bool := l.safe && l.forcer == .sp && sender != .sp

/-- A force reaches one bound channel (R509, R510). -/
def forceOne (n : Nat) (sender : Source) (s : State) : State :=
  let l := s.ld n
  if forceIgnored sender l then s
  else
  let s := s.modLd n fun l => { l with
    safe := true
    forcer := if l.safe && l.forcer == .sp then .sp else sender
    snapOn := if l.safe then l.snapOn else l.on
    snapDuty := if l.safe then l.snapDuty else cmdDuty l }
  let l' := s.ld n
  if !targetOn l' then
    if outOn l.state || l.state == .wait then setLoad n .off s
    else if l.state == .stopping then turnOff n s else s
  else
    let e := effOf s l'
    if outOn l.state && e < l'.eff then
      s.modLd n fun l => { l with
        eff := e, taken := (targetOf l').2
        ball := match l.bind with
          | some b => match b.out with
            | .pwm _ period => l.ball && decide (s.time.clk < l.periodAt + highUs e period * usNs)
            | _ => false
          | none => false }
    else s

/-- A release reaches one bound channel (R509). -/
def releaseOne (n : Nat) (sender : Source) (s : State) : State :=
  s.modLd n fun l => if sender == .sp || l.forcer == sender then { l with safe := false } else l

/-- FORCE_SAFE acts on the bound channels of MASK, at once (R509, R510), and event 0x0C04 is sent. -/
def applyForce (action mask : Nat) (sender : Source) (s : State) : State :=
  let named := (List.range loadCount).filter fun n => mask.testBit n && (s.ld n).bind.isSome
  let forced := named.filter fun n => !forceIgnored sender (s.ld n)
  let s := forEach named (fun n s => if action = 1 then forceOne n sender s else releaseOne n sender s) s
  let chains := (forced.filterMap fun n => (chainPlace (s.ld n)).map fun p => p.1).eraseDups
  let s := if action = 1 then forEach chains extraTransfer s else s
  raiseEvent 0 0x0C04 (le 1 action ++ le 1 (sourceCode sender) ++ zeros 2 ++ le 12 mask) s

/-- SAFE of every channel, as FORCE_SAFE returns it (R531). -/
def safeMap (s : State) : List Byte := le 12 (total ((List.range loadCount).map fun n => flag (s.ld n).safe (2 ^ n)))

/-! ### Commanders (R504, R506) -/

/-- An entry into RETAIN or OFF is under way. -/
def sleepEntry (s : State) : Bool :=
  match s.aon.transition with
  | some t => t.target == .retain || t.target == .off
  | none => false

/-- A channel's commanded state is set by a commander (R504); set on, it ends what a return from RETAIN left (R77). -/
def command (n : Nat) (on : Bool) (duty : Nat) (by_ : Commander) (s : State) : State :=
  s.modLd n fun l => { l with on := on, duty := duty, commander := by_, parked := l.parked && (!on || sleepEntry s) }

/-- The loads that context `c` last commanded, when it departs, its load mask not asked (R159, R506; log entry 76). -/
def departLoads (c : Nat) (s : State) : State :=
  forRange loadCount (fun n s =>
    let l := s.ld n
    match l.commander with
    | .source k =>
      if k != .ctx ⟨c % 64, Nat.mod_lt _ (by decide)⟩ then s
      else
        let s := match l.policy.depart, l.policy.safe with
          | 0, _ => s.modLd n fun l => { l with on := false }
          | 1, _ => s
          | _, 0 => s.modLd n fun l => { l with on := false }
          | _, 1 => s.modLd n fun l => { l with on := true, duty := l.policy.safeDuty }
          | _, _ => s
        s.modLd n fun l => { l with commander := .nobody }
    | _ => s) s

/-- Entry into RETAIN: every commanded state is off, and every enabled channel runs its stop bath (R77, R504, R523, R524). -/
def retainLoads (s : State) : State :=
  forRange loadCount (fun n s =>
    let s := s.modLd n fun l => { l with on := false, parked := l.bind.isSome && l.enabled }
    let l := s.ld n
    if l.bind.isSome && l.enabled && l.state != .stopping && l.state != .disabled then startLoadBath n true (.ctx 0) s else s) s

/-- A load's stop bath runs. -/
def loadBathRuns (s : State) : Bool := s.load.loads.toList.any fun l => l.state == .stopping

end Sys2Proof.Machine
end

