-- ==== Sys2Proof/Machine/LoadTick.lean ====
section
/-!
DEFINITION. The load tick (R494, R515 to R525), the filtered battery voltage (R513) and the PWM periods (R495, R496).
-/

namespace Sys2Proof.Machine

/-! ### Step 1: what was latched since the previous tick (R493, R494) -/

/-- A stop bath that the binding of a channel ends, and the enable it held, are told of (R180). -/
def bindEndsBath (n : Nat) (s : State) : State :=
  let l := s.ld n
  if l.state != .stopping then s
  else
    let s := match l.held with
      | some h => loadBathEvent 0x0CF2 n h s
      | none => s
    loadBathEvent 0x0CF0 n l.stopBy s

/-- BIND_LOAD takes effect (R491, R493, R527). -/
def bindNow (n : Nat) (b : Option Binding) (s : State) : State :=
  let s := turnOff n (bindEndsBath n s)
  let s := s.modLd n fun l => { l with
    bind := b, pendBind := none, enabled := false, on := false, duty := 1000, commander := .nobody
    retries := l.policy.retries, backoffs := 0, latch := false, thermals := [], extFrom := [], faultEvent := false
    reports := loadReset.reports, overTicks := 0, openFound := false, pendReset := false
    stopDue := false, stopRetain := false, held := none, parked := false }
  setLoad n (if b.isSome then .disabled else .unbound) s

/-- RESET_LOAD_LATCH acts (R518, R523). -/
def resetNow (n : Nat) (s : State) : State :=
  let s := s.modLd n fun l => { l with
    pendReset := false, latch := false, thermals := [], retries := l.policy.retries, backoffs := 0 }
  match (s.ld n).state with
  | .lockedOut => setLoad n .off s
  | .latched => setLoad n .off s
  | _ => s

/-- A stop bath whose off command this tick's edge carries out: a PWM channel's, or that of a stopped chain (R524). -/
def tickBath (n : Nat) (s : State) : State :=
  let l := s.ld n
  if l.state != .stopping then s
  else match chainPlace l with
    | none => endLoadBath n s
    | some (c, _, _) => if (s.swc c).profile.switches = 0 then endLoadBath n s else turnOff n s

/-- What one channel takes at the tick: policy, binding, the end of a stop bath, the latch reset, the enable (R494). -/
def takeLatched (n : Nat) (s : State) : State :=
  let s := match (s.ld n).pendPolicy with
    | some p => s.modLd n fun l => { l with policy := p, pendPolicy := none }
    | none => s
  let s := match (s.ld n).pendBind with
    | some b => bindNow n b s
    | none => s
  let s := tickBath n s
  let s := if (s.ld n).pendReset then resetNow n s else s
  let s := if (s.ld n).enabled && (s.ld n).state = .disabled then setLoad n .off s else s
  s.modLd n fun l => { l with
    taken := (targetOf l).2, lowVAt := if s.load.vf < l.policy.vuv then some s.load.tick else l.lowVAt }

/-- A developed profile takes effect (R503). -/
def takeProfile (c : Nat) (s : State) : State :=
  s.modSwc c fun x => match x.pend with
    | some p => { x with profile := p, pend := none }
    | none => x

/-! ### Step 2: reports (R517, R521) -/

/-- What the reports of a channel were judged to be: overcurrent, thermal, under-voltage restart. -/
structure Judged where
  load  : Nat
  overload  : Bool
  therm : Bool
  uv    : Bool

/-- A fault was judged, not an under-voltage restart. -/
def judgedFault (j : Judged) : Bool := (j.overload || j.therm) && !j.uv

/-- V_f is below VUV, or was within the last 2 ms (R517). -/
def lowSupply (tick : Nat) (l : Load) : Bool :=
  match l.lowVAt with
  | some k => decide (tick - k ≤ 8)
  | none => false

/-- The open judgement of a channel in ON (R517). -/
def judgeOpen (n : Nat) (s : State) : State :=
  let l := s.ld n
  let now := showsOpen s l
  if l.state != .on || diagLost s l || now == l.openFound then s
  else
    let s := s.modLd n fun l => { l with openFound := now, opens := if now then inc32 l.opens else l.opens }
    raiseEvents (loadCtxs s n) 0x0C03 (le 1 n ++ le 1 (flag now 1)) s

/-- The reports of one channel are judged and counted, and its fault event begins or ends (R517, R518, R520, R521). -/
def judgeReports (n : Nat) (s : State) : State × Judged :=
  let l := s.ld n
  let tick := s.load.tick
  let judged := l.state == .inrush || l.state == .on
  let high := l.state == .on && overMax s l
  let overTicks := if high then l.overTicks + 1 else 0
  let lowVAt := if s.load.vf < l.policy.vuv then some tick else l.lowVAt
  let low := lowSupply tick { l with lowVAt := lowVAt }
  let overload := judged && (showsOver s l || decide (overTicks ≥ 2))
  let therm := judged && showsTemp s l
  let uv := judged && (((overload || therm) && low) || (!(overload || therm) && showsUv s l))
  let fault := (overload || therm) && !uv
  let recent := l.thermals.filter fun t => tick - t ≤ l.policy.thermWin
  let s := s.modLd n fun l => { l with
    overTicks := overTicks, lowVAt := lowVAt
    faultEvent := fault || (l.faultEvent && showsFault s l)
    thermals := if fault && therm then tick :: recent else recent
    faults := if fault && overload then inc32 l.faults else l.faults
    thermCount := if fault && therm then inc32 l.thermCount else l.thermCount
    uvRestarts := if uv then inc32 l.uvRestarts else l.uvRestarts
    lastFault := if fault then stampNow s else l.lastFault }
  (judgeOpen n s, { load := n, overload := overload, therm := therm, uv := uv })

/-- Every bound channel's reports, in ascending number. -/
def judgeAll (bound : List Nat) (s : State) : State × List Judged :=
  bound.foldl (fun a n => let r := judgeReports n a.1; (r.1, a.2 ++ [r.2])) (s, [])

/-- The group of a channel. -/
def groupOf (l : Load) : Option Nat := l.bind.bind fun b => b.group

/-- The windows of `n`'s group neighbours that a fault event extends (R521): the tick that the running events have lasted since
the tick before, and the events that begin now. -/
def extendWindow (js : List Judged) (n : Nat) (s : State) : State :=
  let l := s.ld n
  if l.state != .inrush || (groupOf l).isNone then s
  else
    let begun := (js.filter fun j => judgedFault j && j.load != n && groupOf (s.ld j.load) == groupOf l).map fun j => j.load
    let used := min l.policy.extCap (l.extUsed + l.extFrom.length)
    let kept := l.extFrom.filter fun x => (s.ld x).faultEvent && !begun.contains x
    s.modLd n fun l => { l with
      extUsed := used, timerEnd := l.timerEnd + (used - l.extUsed), extFrom := kept ++ begun
      extensions := satAdd 32 l.extensions begun.length }

/-- The window waits for the end of a neighbour's fault event (R521, R525). -/
def windowHeld (l : Load) : Bool := !l.extFrom.isEmpty && decide (l.extUsed < l.policy.extCap)

/-! ### Step 3: outcomes (R518 to R520, R523, R525) -/

/-- Event 0x0C02, one for each class judged (R533). -/
def reportEvents (n : Nat) (j : Judged) (s : State) : State :=
  let send := fun (cls : Nat) (s : State) => raiseEvents (loadCtxs s n) 0x0C02
    (le 1 n ++ le 1 cls ++ le 1 (s.ld n).retries ++ zeros 1 ++ le 2 (shownCurrent s (s.ld n))) s
  if j.uv then send 3 s
  else
    let s := if j.overload then send 1 s else s
    if j.therm then send 2 s else s

/-- The length of the k-th back-off since the last refill (R519). -/
def backoffTicks (p : LoadPolicy) (k : Nat) : Nat := min (p.backoff * 2 ^ (k - 1)) p.backoffMax

/-- The outcome of a judged report (R518 to R520, R523). A target that is off wins (R525). -/
def reportOutcome (n : Nat) (j : Judged) (s : State) : State :=
  let l := s.ld n
  let hot := !j.uv && j.therm && l.thermals.length ≥ l.policy.thermLimit
  let s := if hot then s.modLd n fun l => { l with latch := true, latches := inc32 l.latches } else s
  if !targetOn l then setLoad n .off (reportEvents n j s)
  else if j.uv then setLoad n .uvHold (reportEvents n j s)
  else if hot then setLoad n .latched (reportEvents n j s)
  else if l.retries > 0 then
    let s := s.modLd n fun l => { l with
      retries := l.retries - 1, retriesUsed := inc32 l.retriesUsed, backoffs := l.backoffs + 1
      timerEnd := s.load.tick + backoffTicks l.policy (l.backoffs + 1) }
    setLoad n .backoff (reportEvents n j s)
  else setLoad n .lockedOut (reportEvents n j s)

/-- The condition that ends UV_HOLD (R520). -/
def uvCleared (s : State) (l : Load) : Bool :=
  !showsOver s l && !showsTemp s l && !showsUv s l && !overMax s l && decide (s.load.vf ≥ l.policy.vuv)

/-- Timers, window ends and the target of a channel with no report judged (R516, R519, R520, R523). -/
def timersAndTarget (n : Nat) (s : State) : State :=
  let l := s.ld n
  let tick := s.load.tick
  let want := targetOn l
  match l.state with
  | .off => if want && !l.latch then goOn n s else s
  | .wait => if want then s else setLoad n .off s
  | .inrush =>
    if !want then setLoad n .off s
    else if tick ≥ l.timerEnd && !windowHeld l then
      setLoad n .on (s.modLd n fun l => { l with timerEnd := tick + l.policy.heal })
    else s
  | .on =>
    if !want then setLoad n .off s
    else if tick = l.timerEnd then
      s.modLd n fun l => { l with retries := l.policy.retries, backoffs := 0 }
    else s
  | .uvHold =>
    if !want then setLoad n .off s
    else if uvCleared s l then startWindow n false true s else s
  | .backoff => if tick < l.timerEnd then s else if want then goOn n s else setLoad n .off s
  | _ => s

/-- One channel's step 3. -/
def loadOutcome (j : Judged) (s : State) : State :=
  if j.overload || j.therm || j.uv then reportOutcome j.load j s else timersAndTarget j.load s

/-- A channel goes before another in the order of R515. -/
def grantBefore (a b : Nat × Load) : Bool :=
  if a.2.safe != b.2.safe then a.2.safe
  else if a.2.policy.prio != b.2.policy.prio then a.2.policy.prio > b.2.policy.prio
  else if a.2.waitSince != b.2.waitSince then a.2.waitSince < b.2.waitSince
  else a.1 < b.1

/-- The grant of one group: the first WAIT channel, when no channel of the group holds a granted window (R515). -/
def grantGroup (g : Nat) (s : State) : State :=
  let members := ((List.range loadCount).map fun n => (n, s.ld n)).filter fun l => groupOf l.2 == some g
  if members.any fun l => l.2.state == .inrush && l.2.granted then s
  else match sortBy grantBefore (members.filter fun l => l.2.state == .wait) with
    | l :: _ => startWindow l.1 true false s
    | [] => s

/-! ### Step 4 and the tick (R494) -/

/-- E of the enabled chain channels (R500, R514). -/
def chainDuties (s : State) : State :=
  forRange loadCount (fun n s =>
    let l := s.ld n
    if (chainPlace l).isSome && l.enabled && l.state != .stopping then s.modLd n fun l => { l with eff := effOf s l } else s) s

/-- LOAD_STATE arrives when a byte has changed, LOAD_CURRENT at every tick (R449). -/
def loadArrivals (s : State) : State :=
  let bytes := (List.range loadCount).map fun n => loadByte (s.ld n)
  let s := if bytes = s.load.lastState then s
    else localArrival 3 (bytes.map (BitVec.ofNat 8)) { s with load := { s.load with lastState := bytes } }
  localArrival 4 ((List.range loadCount).flatMap fun n => le 2 (shownCurrent s (s.ld n))) s

/-- The work of a tick, in the order of R494. -/
def tickWork (s : State) : State :=
  let s := forRange 8 takeProfile (forRange loadCount takeLatched s)
  let bound := (List.range loadCount).filter fun n => (s.ld n).bind.isSome
  let r := judgeAll bound s
  let s := forEach bound (extendWindow r.2) r.1
  let s := forEach r.2 loadOutcome s
  let s := forRange 16 grantGroup s
  loadArrivals (forRange 8 (fun c s => startTransfer c true s) (chainDuties s))

/-- The next load tick occurs (R494). -/
def loadTick (s : State) : State :=
  let due := s.load.nextTick
  let s := reachClk due s
  tickWork { s with load := { s.load with tick := s.load.tick + 1, nextTick := due + tickNs } }

/-- One tick after another, until one leaves `done` true or `k` have occurred. -/
def ticksUntil (done : State → Bool) : Nat → State → State
  | 0, s => s
  | k + 1, s => if done s then s else ticksUntil done k (loadTick s)

/-- Before the first whole millisecond of conversions, V_f is the mean of those made so far (R513). -/
def meanVbats (l : List Nat) (old : Nat) : Nat := if l.isEmpty then old else total l / l.length

/-- LOAD is set: the first tick falls now (R63, R494). -/
def restartTicks (s : State) : State := { s with load := { s.load with nextTick := s.time.clk } }

/-- ADC is set, after its first conversion, whose value is open (log entry 4): V_f starts anew from it (R513). -/
def restartMean (s : State) : State :=
  let v := freeAt s 0 % 65536
  drawn 1 { s with load := { s.load with vbats := [v], vf := v, vfSettled := false, vbatsFrom := s.time.clk } }

/-- A VBATS code in mV of the battery: the ball's voltage after factory trim, by the divider of 10 (R610). -/
def vbatsMv (code : Nat) : Nat := 10 * Config.vbatsTrim code / 1000

/-- VBATS conversions come in (R513). -/
def takeVbats (samples : List Nat) (s : State) : State :=
  let l := s.load.vbats ++ samples.map vbatsMv
  { s with load := { s.load with
      vbats := l, vf := if s.load.vfSettled then s.load.vf else meanVbats l s.load.vf } }

/-- LOAD_TICK (R494): the next tick; `samples` are the VBATS conversions made since the last command that brought some. -/
def execLoadTick (samples : List Nat) (s : State) : Host.Outcome State Fault Refusal :=
  let s := if s.isReady 14 then takeVbats samples s else s
  if s.isReady 10 then next (loadTick s) else next s

/-- VBATS_FILTER_UPDATE (R513): a millisecond of conversions ends, `samples` among them, and the SUPPLY block arrives. -/
def execVbatsFilterUpdate (samples : List Nat) (s : State) : Host.Outcome State Fault Refusal :=
  let l := s.load.vbats ++ samples.map vbatsMv
  if !s.isReady 14 || l.length < 10 then next s
  else
    let vf := meanVbats (l.drop (l.length - 10)) s.load.vf
    let due := s.load.vbatsFrom + msNs
    let s := reachClk due s
    let s := { s with load := { s.load with vf := vf, vbats := [], vfSettled := true, vbatsFrom := due } }
    next (localArrival 2 (le 2 vf ++ zeros 2) s)

/-! ### Rows that name a tick (R516, R519, R524) -/

/-- The ticks up to the one at which channel `n` leaves its state: as many as its timer has left, at least one, and those by
which a window can still be extended (R494, R516, R519, R521). -/
def timerTick (n : Nat) (s : State) : State :=
  let l := s.ld n
  ticksUntil (fun t => (t.ld n).state != l.state) (max 1 (l.timerEnd - s.load.tick) + l.policy.extCap) s

/-- INRUSH_WINDOW_END (R516): the tick at which the channel's window ends. -/
def execInrushWindowEnd (ld : Fin 96) (s : State) : Host.Outcome State Fault Refusal :=
  if s.isReady 10 && (s.ld ld.val).state = .inrush then next (timerTick ld.val s) else next s

/-- BACKOFF_END (R519): the tick at which the channel's back-off ends. -/
def execBackoffEnd (ld : Fin 96) (s : State) : Host.Outcome State Fault Refusal :=
  if s.isReady 10 && (s.ld ld.val).state = .backoff then next (timerTick ld.val s) else next s

/-- HEAL_REACHED (R519): the tick at which the channel has been in ON for HEAL seconds. -/
def execHealReached (ld : Fin 96) (s : State) : Host.Outcome State Fault Refusal :=
  if s.isReady 10 && (s.ld ld.val).state = .on && s.load.tick < (s.ld ld.val).timerEnd then
    next (ticksUntil (fun t => (t.ld ld.val).state != .on) ((s.ld ld.val).timerEnd - s.load.tick) s)
  else next s

/-- LOAD_STOP_BATH_END (R524): at the tick's edge for a PWM channel, at the CSN rise of that tick's transfer for a chain. -/
def execLoadStopBathEnd (ld : Fin 96) (s : State) : Host.Outcome State Fault Refusal :=
  let n := ld.val
  if !s.isReady 10 || (s.ld n).state != .stopping then next s
  else
    let s := if (s.ld n).stopDue then s else loadTick s
    if !(s.ld n).stopDue then next s
    else match chainPlace (s.ld n) with
      | some (c, _, _) => match (s.swc c).busy with
        | some f => next (endLoadBath n (reachClk ((s.swc c).busyAt + transferNs f) s))
        | none => next (endLoadBath n s)
      | none => next (endLoadBath n s)

/-! ### PWM periods (R495, R496) -/

/-- The PWM PERIOD of a channel, in ns. -/
def pwmPeriod (l : Load) : Option Nat :=
  match l.bind with
  | some b => match b.out with
    | .pwm _ period => some period
    | _ => none
  | none => none

/-- A PWM channel whose output is driven: on, or in a stop bath whose tick has not come (R496, R524). -/
def pwmRuns (l : Load) : Bool := outputOn l

/-- PWM_PERIOD_START (R496, R514): the next period starts with the E in force. -/
def execPwmPeriodStart (ld : Fin 96) (s : State) : Host.Outcome State Fault Refusal :=
  let n := ld.val
  let l := s.ld n
  match pwmPeriod l with
  | none => next s
  | some period =>
    if !pwmRuns l then next s
    else
      let due := l.periodAt + period * usNs
      let s := reachClk due s
      let e := if outOn l.state then compensated s l l.taken else l.eff
      next (s.modLd n fun l => { l with eff := e, periodAt := due, ball := decide (highUs e period > 0) })

/-- PWM_HIGH_END (R495): the ball goes low after H, unless H is the whole period. -/
def execPwmHighEnd (ld : Fin 96) (s : State) : Host.Outcome State Fault Refusal :=
  let n := ld.val
  let l := s.ld n
  match pwmPeriod l with
  | none => next s
  | some period =>
    if !l.ball || highUs l.eff period ≥ period then next s
    else next ((reachClk (l.periodAt + highUs l.eff period * usNs) s).modLd n fun l => { l with ball := false })

end Sys2Proof.Machine
end

