-- ==== Sys2Proof/Machine/Routing.lean ====
section
/-!
DEFINITION. The passes of the routing engine (R434 to R448, R452, R454, R460), LOCAL inputs (R449, R451) and the intake of
routed frames (R445).
-/

namespace Sys2Proof.Machine

/-! ### Values (R437, R438, R460) -/

/-- A PDU changed by `f`, where it exists. -/
def modPdu (n : Nat) (f : Pdu → Pdu) (s : State) : State := { s with pdus := mmod s.pdus n f }

/-- VALUE of a signal of `len` bits read from a PDU (R437). -/
def extendValue (signed : Bool) (len v : Nat) : BitVec 64 :=
  if signed then BitVec.ofInt 64 (signedOf len v) else BitVec.ofNat 64 v

/-- VALUE as a SINK reads it: a disabled SOURCE gives its substitute or 0, a disabled CONST gives 0 (R460). -/
def readValue (s : State) (e : Nat) : BitVec 64 :=
  match mget s.sigs e with
  | none => 0
  | some g =>
    if !g.errDis then g.value
    else match g.body with
      | .source _ _ _ _ p => match pduOf s p with
        | some d => (substituteOf s d.set e).getD 0
        | none => 0
      | _ => 0

/-- The v of R438: unsigned for an unsigned SRC of 64 bits, else signed. -/
def srcValue (s : State) (src : Nat) : Int :=
  if src = sigNone then 0
  else
    let v := readValue s src
    match sigBody s src with
    | some (.source _ signed len _ _) => if !signed && len = 64 then (v.toNat : Int) else v.toInt
    | _ => v.toInt

/-- y of R438 for a SINK, as the L bits that are written. -/
def sinkValue (s : State) (signed sat : Bool) (len : Nat) (mul : Int) (src shift : Nat) (add : Int) : Nat :=
  let y := Int.fdiv (srcValue s src * mul) ((2 ^ shift : Nat) : Int) + add
  let low : Int := if signed then -((2 ^ (len - 1) : Nat) : Int) else 0
  let high : Int := if signed then ((2 ^ (len - 1) : Nat) : Int) - 1 else ((2 ^ len : Nat) : Int) - 1
  unsignedOf len (if sat then max low (min y high) else y)

/-! ### Packing (R439, R482) -/

/-- The SINKs of an outbound PDU written into its bytes; a disabled SINK writes nothing (R439, R460). -/
def packSinks (s : State) (p : PduSet) (data : List Byte) : List Byte :=
  (pduEntries p).foldl (fun d e => match mget s.sigs e with
    | some g => match g.body with
      | .sink big signed sat len start _ mul src shift add =>
        if g.errDis then d else scatterBits d (sinkValue s signed sat len mul src shift add) (sigBits big len start)
      | _ => d
    | none => d) data

/-- The bytes of one outbound frame or link PDU: FILL, SINKs, check value (R439, R482). -/
def packPdu (p : PduSet) (s : State) : List Byte × State :=
  cvAppend p (packSinks s p (List.replicate p.length (BitVec.ofNat 8 p.fill))) s

/-- Bytes placed in a payload from byte `off`. -/
def placeBytes (data : List Byte) (off : Nat) (l : List Byte) : List Byte := data.take off ++ l ++ data.drop (off + l.length)

/-- A PDU has been packed: SENDS and LAST (R471). -/
def countSend (n : Nat) (s : State) : State := modPdu n (fun p => { p with sends := inc32 p.sends, last := stampNow s }) s

/-- Head `f` has sent now (R442). -/
def noteSend (f : Nat) (s : State) : State := modPdu f (fun p => { p with lastSend := some s.time.clk, deferredTo := none }) s

/-- The payload of a frame group (R439). -/
def packGroup (f : Nat) (h : PduSet) (s : State) : List Byte × State :=
  (groupMembers s f).foldl (fun a n => match pduOf a.2 n with
    | some p => let r := packPdu p.set a.2; (placeBytes a.1 p.set.offset r.1, countSend n r.2)
    | none => a) (List.replicate h.frameLen (BitVec.ofNat 8 h.fill), s)

/-- A packed frame takes its cells in its lane's queue to CORE intake (R330, R445). -/
def enterRouted (lane : Nat) (r : Routed) (s : State) : State :=
  countPacket (.rtq, lane) { s with fq := { s.fq with rtq := tmod s.fq.rtq lane fun l => l ++ [r] } }

/-- A lane reserves the whole of a packet's cells, and waits while they are not free; it drops nothing (R341). -/
def pushRouted (lane : Nat) (r : Routed) (s : State) : State :=
  if (s.lane lane).held.isEmpty && fits s (.rtq, lane) (packetCells r.data.length) then enterRouted lane r s
  else s.modLane lane fun l => { l with held := l.held ++ [r] }

/-! ### Lanes (R341, R455, R471) -/

/-- A pass of lane `l` has ended; `from_` is the reference count of its hand-off, for MAX_WORK (R471). -/
def endPass (l : Nat) (timed : Bool) (from_ : Nat) (s : State) : State :=
  s.modLane l fun x => { x with
    passes := inc32 x.passes, timed := if timed then inc32 x.timed else x.timed
    maxWork := max x.maxWork (min (s.time.clk - from_) 0xFFFFFFFF), last := stampNow s, changed := [] }

/-- The pass of a lane is over, unless it waits for cells of its queue: then it ends when it has them (R341). -/
def finishPass (l : Nat) (timed : Bool) (from_ : Nat) (s : State) : State :=
  if (s.lane l).held.isEmpty then endPass l timed from_ s else s.modLane l fun x => { x with ending := some (timed, from_) }

/-- The packets a lane waits with take the cells that have become free; with the last of them its pass ends (R341). -/
def resumeLane (l : Nat) : List Routed → State → State
  | [], s =>
    match (s.lane l).ending with
    | some (timed, from_) => endPass l timed from_ (s.modLane l fun x => { x with held := [], ending := none })
    | none => s.modLane l fun x => { x with held := [] }
  | r :: rest, s =>
    if fits s (.rtq, l) (packetCells r.data.length) then resumeLane l rest (enterRouted l r s)
    else s.modLane l fun x => { x with held := r :: rest }

/-- Cells of a lane's queue have become free (R341). -/
def cellsFreed (l : Nat) (s : State) : State := if (s.lane l).held.isEmpty then s else resumeLane l (s.lane l).held s

/-- The timed passes that PDU `n` has due by now: the reference count at which each fell due, 0 for a periodic one and 1 for the
others, and the PDU (R440, R455). -/
def timedDue (s : State) (n : Nat) (p : Pdu) : List (Nat × Nat × Nat) :=
  (if p.noticed then [(p.noticeDue, 0, n)] else []) ++ (if p.timedOut then [(p.timeoutDue, 1, n)] else [])
    ++ (match p.deferredTo with | some t => if t ≤ s.time.clk then [(t, 1, n)] else [] | none => [])

/-- The timed pass that lane `l` serves next: the first that fell due, periodic passes first at one instant (R455). DESIGN CHOICE:
of two equal in both the one of the lower PDU number (log entry 61). -/
def nextTimed (s : State) (l : Nat) : Option (Nat × Nat × Nat) :=
  (sortBy (fun a b => a.1 < b.1 || (a.1 == b.1 && (a.2.1 < b.2.1 || (a.2.1 == b.2.1 && a.2.2 ≤ b.2.2))))
    (s.pdus.flatMap fun e => if e.2.set.lane = l then timedDue s e.1 e.2 else [])).head?

/-- The 575 ns since the lane's last timed pass have run at reference count `t` (R455). -/
def spacingRun (s : State) (l t : Nat) : Bool :=
  match (s.lane l).timedAt with
  | some a => a + 575 ≤ t
  | none => true

/-- The lane serves the waiting arrival pass `h` now: no timed pass that fell due before its hand-off may start (R455). -/
def arrivalNext (s : State) (l : Nat) (h : Handoff) : Bool :=
  match nextTimed s l with
  | some (due, _, _) => h.clk ≤ due || !spacingRun s l s.time.clk
  | none => true

/-- The timed pass of PDU `n` that fell due at `due` is the lane's next pass: it is the next timed one, no arrival pass was handed
off before it, and the spacing has run or the lane is idle (R341, R455). -/
def timedNext (s : State) (l due n : Nat) : Bool :=
  (s.lane l).held.isEmpty
    && (match nextTimed s l with | some (d, _, m) => d == due && m == n | none => false)
    && !((s.lane l).waiting.any fun h => h.clk ≤ due)
    && ((s.lane l).waiting.isEmpty || spacingRun s l s.time.clk)

/-- A timed pass starts, 575 ns after the lane's last timed pass at the earliest (R455). -/
def startTimed (l : Nat) (s : State) : State :=
  let s := match (s.lane l).timedAt with
    | some t => reachClk (t + 575) s
    | none => s
  s.modLane l fun x => { x with timedAt := some s.time.clk }

/-- A timed pass runs `act`; for MAX_WORK it was handed off when it fell due (R455, R471). -/
def timedPass (l due : Nat) (act : State → State) (s : State) : State := finishPass l true due (act (startTimed l s))

/-! ### Sending (R439, R441, R450) -/

/-- The part of a load command that a PDU of block 0x80 covers: the bits of LDn that its SINKs write (R450). -/
def loadBits (v : State) (p : PduSet) (n : Nat) : List Nat :=
  ((pduBodies v p).flatMap bodyBits).filterMap fun b =>
    let k := 8 * p.offset + b
    if k / 16 = n then some (k % 16) else none

/-- An OUT_LOCAL PDU writes the covered bits of the command registers at one edge (R449, R450, R504). They are ignored while the
settings are unreadable (R586). -/
def packLocal (p : PduSet) (s : State) : State :=
  let old := (List.range loadCount).flatMap fun n => le 2 (let l := s.ld n; l.duty % 1024 + flag l.on 0x8000)
  let data := placeBytes old p.offset (packSinks s p ((old.drop p.offset).take p.length))
  forRange loadCount (fun n s =>
    if (settingsRefused s).isNone && (s.ld n).bind.isSome && (loadBits s p n).any (fun b => b ≤ 9 || b == 15) then
      let w := fieldAt data (2 * n) 2
      command n (bitOf w 15) (w % 1024) .route s
    else s) s

/-- A head is packed and sent; nothing is when one of its PDUs is disabled (R439, R441, R450, R452, R460). -/
def packHead (f path origin : Nat) (s : State) : State :=
  match pduOf s f with
  | none => s
  | some h =>
    if (sendMembers s f).any fun n => match pduOf s n with | some p => p.errDis | none => true then s
    else match h.set.dir with
      | .outFrame =>
        let r := packGroup f h.set s
        pushRouted h.set.lane { mo := h.set.mo, first := f, path := path, origin := origin, data := r.1 } (noteSend f r.2)
      | .outLink =>
        let r := packPdu h.set s
        let s := noteSend f (countSend f r.2)
        match portTo s h.set.position with
        | some port => sendFrame port
            { typ := .route, src := s.pos, dst := h.set.position, info := h.set.remotePdu, data := r.1 } s
        | none => s
      | .outLocal => countSend f (packLocal h.set s)
      | _ => s

/-! ### Send rules (R441, R442) -/

/-- A rule has fired for head `f`: it is packed, or deferred to the end of MIN_GAP (R442). -/
def fireHead (f path origin : Nat) (s : State) : State :=
  match pduOf s f with
  | none => s
  | some h =>
    if h.deferredTo.isSome then s
    else match h.lastSend with
      | none => packHead f path origin s
      | some t =>
        let due := t + h.set.minGap * usNs
        if s.time.clk < due then modPdu f (fun p => { p with deferred := inc32 p.deferred, deferredTo := some due }) s
        else packHead f path origin s

/-- A named outbound PDU's rules fire: ON_ARRIVAL on an arrival pass, ON_CHANGE when a SINK's SRC has CHANGED (R441). -/
def ruleFires (s : State) (arrival : Bool) (changed : List Nat) (n : Nat) : Bool :=
  match pduOf s n with
  | none => false
  | some p => !dirIn p.set.dir && ((arrival && p.set.onArrival) || (p.set.onChange && (pduBodies s p.set).any fun b => match b with
      | .sink _ _ _ _ _ _ _ src _ _ => changed.contains src
      | _ => false))

/-- The route list is walked: each head of which a named PDU fires is sent once (R440, R441). -/
def walkList (p : PduSet) (arrival : Bool) (changed : List Nat) (path origin : Nat) (s : State) : State :=
  let l := routeList s p
  let firing := (listHeads s l).filter fun f =>
    (l.flatMap id).any fun n => sendHead s n == f && ruleFires s arrival changed n
  forEach firing (fun f s => fireHead f path origin s) s

/-! ### Arrival passes (R440, R446, R448) -/

/-- A SOURCE takes the value `v`; whether it has CHANGED (R437, R446). -/
def setSource (e : Nat) (v : BitVec 64) (a : State × List Nat) : State × List Nat :=
  match mget a.1.sigs e with
  | none => a
  | some g =>
    let s := { a.1 with sigs := mset a.1.sigs e { g with value := v, stamp := stampNow a.1 } }
    (s, if g.value = v then a.2 else a.2 ++ [e])

/-- Every SOURCE of a PDU is unpacked; the entries that have CHANGED (R437). -/
def unpack (p : PduSet) (data : List Byte) (s : State) : State × List Nat :=
  (pduEntries p).foldl (fun a e => match sigBody a.1 e with
    | some (.source big signed len start _) =>
      setSource e (extendValue signed len (gatherBits data (sigBits big len start))) a
    | _ => a) (s, [])

/-- The timeout restarts, STALE clears, and event 0x0A02 follows a timeout (R440, R446). -/
def noteArrival (n : Nat) (s : State) : State :=
  match pduOf s n with
  | none => s
  | some p =>
    let t := stampNow s
    let s := modPdu n (fun p => { p with stale := false, arrived := some t, arrivedAt := s.time.clk, expired := false }) s
    if p.expired then raiseEvent 0 0x0A02 (le 2 n ++ zeros 6 ++ le 8 t) s else s

/-- The steps of an arrival pass of PDU `n` (R440, R460, R481). -/
def arrive (n : Nat) (h : Handoff) (p : Pdu) (s : State) : State :=
  let s := modPdu n (fun p => { p with arrivals := inc32 p.arrivals, last := stampNow s }) s
  let short := modPdu n (fun p => { p with short := inc32 p.short }) s
  if p.errDis then short
  else if p.set.dir == .inFrame && p.set.offset + p.set.length > h.data.length then short
  else
    let data := padTo p.set.length (h.data.drop p.set.offset)
    let r := cvCheck p.set data s
    if !r.1 then modPdu n (fun p => { p with cvFail := inc32 p.cvFail }) r.2
    else
      let u := unpack p.set data r.2
      walkList p.set true u.2 h.path h.origin ((noteArrival n u.1).modLane p.set.lane fun l => { l with changed := u.2 })

/-- A hand-off reaches its lane over no crossing when it comes from a local input (R23). -/
def handCrosses (h : Handoff) : Bool := h.path != 7

/-- The outbound PDUs that an inbound PDU's route list names are all load commands, so that its frames are on the path from a bus
signal to a load output (R23, R450). -/
def loadsOnly (s : State) (n : Nat) : Bool :=
  match pduOf s n with
  | none => false
  | some p =>
    let l := (routeList s p.set).flatMap id
    !l.isEmpty && l.all fun m => match pduOf s m with
      | some q => q.set.dir == .outLocal
      | none => false

/-- The path of R23 against which a hand-off dropped on its crossing counts: 6 for a frame that feeds loads alone. -/
def handPath (s : State) (h : Handoff) : Nat := if h.path = 2 && loadsOnly s h.pdu then 6 else h.path

/-- ARRIVAL_PASS (R440, R455): the lane runs the pass handed off first, unless it waits (R341) or a timed pass is next. A parity
error on the way to ROUTE drops the packet (R21). A PDU that a development has removed or turned outbound in the meantime takes
nothing (R459). -/
def execArrivalPass (lane : Fin 4) (parity : Bool) (s : State) : Host.Outcome State Fault Refusal :=
  match (s.lane lane.val).waiting with
  | [] => next s
  | h :: rest =>
    if !s.isReady 4 || !(s.lane lane.val).held.isEmpty || !arrivalNext s lane.val h then next s
    else
    let s := s.modLane lane.val fun l => { l with waiting := rest }
    if parity && handCrosses h then next (parityDrop (handPath s h) s)
    else match pduOf s h.pdu with
      | none => next s
      | some p => next (finishPass lane.val false h.clk (if dirIn p.set.dir then arrive h.pdu h p s else s))

/-! ### Timed passes (R442, R443, R446) -/

/-- PDU_TIMEOUT (R446): no arrival for TIMEOUT µs. -/
def execPduTimeout (pdu : Fin 32768) (s : State) : Host.Outcome State Fault Refusal :=
  let n := pdu.val
  match pduOf s n with
  | none => next s
  | some p => match p.arrived with
    | none => next s
    | some t =>
      if !s.isReady 4 || !dirIn p.set.dir || p.set.timeout = 0 || p.expired then next s
      else
        let s := reachClk (p.arrivedAt + p.set.timeout * usNs) s
        let s := modPdu n (fun p => { p with
          stale := true, expired := true, timedOut := true, timeoutDue := s.time.clk, timeouts := inc32 p.timeouts }) s
        next (raiseEvent 0 0x0A01 (le 2 n ++ zeros 6 ++ le 8 t) s)

/-- The SOURCEs of a PDU take their substitutes, where it has any (R446). -/
def substitute (p : PduSet) (s : State) : State × List Nat :=
  (pduEntries p).foldl (fun a e => match sigBody a.1 e, substituteOf a.1 p e with
    | some (.source _ _ _ _ _), some v => setSource e v a
    | _, _ => a) (s, [])

/-- TIMEOUT_PASS (R446, R455). -/
def execTimeoutPass (pdu : Fin 32768) (s : State) : Host.Outcome State Fault Refusal :=
  let n := pdu.val
  match pduOf s n with
  | none => next s
  | some p =>
    if !s.isReady 4 || !p.timedOut || !timedNext s p.set.lane p.timeoutDue n then next s
    else next (timedPass p.set.lane p.timeoutDue (fun u =>
      let r := substitute p.set u
      walkList p.set false r.2 2 (stampNow u) r.1) (modPdu n (fun p => { p with timedOut := false }) s))

/-- PERIODIC_PACK_NOTICE (R443): at T - LEAD_L + 1,150 ns × j, for the next instant T of the group's schedule. -/
def execPeriodicPackNotice (pdu : Fin 32768) (s : State) : Host.Outcome State Fault Refusal :=
  let n := pdu.val
  match pduOf s n with
  | none => next s
  | some p =>
    if !s.isReady 4 || p.set.dir != .outFrame || p.set.frameCount = 0 || !p.set.periodic then next s
    else match scheduleOf s p.set.mo with
      | none => next s
      | some x =>
        if p.noticeAt = x.next && p.noticeAt != 0 then next s
        else
          let s := reachTime (x.next - noticeAhead s p.set.lane n) s
          next (modPdu n (fun p => { p with noticed := true, noticeDue := s.time.clk, noticeAt := x.next }) s)

/-- PERIODIC_PASS (R441, R455): the notice's pass packs the group, unless MIN_GAP defers it. -/
def execPeriodicPass (pdu : Fin 32768) (s : State) : Host.Outcome State Fault Refusal :=
  let n := pdu.val
  match pduOf s n with
  | none => next s
  | some p =>
    if !s.isReady 4 || !p.noticed || !timedNext s p.set.lane p.noticeDue n then next s
    else next (timedPass p.set.lane p.noticeDue (fun u => fireHead n 2 (stampNow u) u)
      (modPdu n (fun p => { p with noticed := false }) s))

/-- DEFERRED_PASS (R442, R455): at the last send plus MIN_GAP, with the values then current. -/
def execDeferredPass (pdu : Fin 32768) (s : State) : Host.Outcome State Fault Refusal :=
  let n := pdu.val
  match pduOf s n with
  | none => next s
  | some p => match p.deferredTo with
    | none => next s
    | some t =>
      let s := reachClk t s
      if !s.isReady 4 || !timedNext s p.set.lane t n then next s
      else next (timedPass p.set.lane t (fun u => fireHead n 2 (stampNow u) u)
        (modPdu n (fun p => { p with deferredTo := none }) s))

/-! ### Routed frames at CORE intake (R294, R444, R445) -/

/-- The record of a routed frame: the header of its object, no tag, no completion (R121, R445). -/
def routedRec (o : Mo) (mo len : Nat) : Rec :=
  { recZero with ty := 2, hdr := moHdr o, channel := o.channel, len := len, mo := mo, moValid := true }

/-- A routed frame enters its object, or is dropped and counted in NO_OBJECT (R294, R445). -/
def intakeRouted (r : Routed) (s : State) : State :=
  match s.mo? r.mo with
  | none => modPdu r.first (fun p => { p with noObject := inc32 p.noObject }) s
  | some o =>
    if o.tx && o.en && !o.errDis && o.owner = 0 && o.bound && o.feed && r.data.length ≤ o.maxlen then
      txCommit r.mo { record := routedRec o r.mo r.data.length, data := r.data, cmpl := false, ring := none } r.origin s
    else modPdu r.first (fun p => { p with noObject := inc32 p.noObject }) s

/-- ROUTED_FRAME_INTAKE (R445): the head of a lane's queue. A parity error drops the packet (R21). A lane that waits goes on with
the cells that this frees (R341). -/
def execRoutedFrameIntake (lane : Fin 4) (parity : Bool) (s : State) : Host.Outcome State Fault Refusal :=
  match tget s.fq.rtq lane.val [] with
  | [] => next s
  | r :: rest =>
    if !s.isReady 3 then next s
    else
    let s := cellsFreed lane.val { s with fq := { s.fq with rtq := tmod s.fq.rtq lane.val fun _ => rest } }
    if parity then next (parityDrop r.path s) else next (intakeRouted r s)

/-! ### LOCAL inputs (R449, R451) -/

/-- One debounced input after a sample: a new level when DEBOUNCE_n consecutive samples agree on it (R451). -/
def debounceOne (levels : BitVec 32) (n : Nat) (x : LocalIo) : LocalIo :=
  if levels.getLsbD n = x.levels.getLsbD n then { x with runs := tmod x.runs n fun _ => 0 }
  else
    let run := tget x.runs n 0 + 1
    if run ≥ tget x.set.debounce n 3 then
      { x with levels := x.levels ^^^ (1#32 <<< n), runs := tmod x.runs n fun _ => 0 }
    else { x with runs := tmod x.runs n fun _ => run }

/-- The next sample instant: a multiple of 1 ms of the reference count (R451). DESIGN CHOICE: the spec gives the samples no
phase (log entry 62). -/
def nextSample (s : State) : Nat := (s.localIo.dinAt / msNs + 1) * msNs

/-- A sample of the digital inputs: each is debounced, and the DIN block arrives when a debounced bit changes (R449, R451). -/
def takeLevels (levels : BitVec 32) (s : State) : State :=
  let x := forRange 32 (debounceOne levels) { s.localIo with dinAt := s.time.clk }
  let t := { s with localIo := x }
  if x.levels = s.localIo.levels then t else localArrival 0 (le 4 (x.levels ^^^ x.set.invert).toNat) t

/-- DIN_SAMPLE (R449, R451): the inputs are sampled every 1 ms. -/
def execDinSample (levels : BitVec 32) (s : State) : Host.Outcome State Fault Refusal :=
  if s.isReady 4 then next (takeLevels levels (reachClk (nextSample s) s)) else next s

/-- The enabled analogue inputs, in ascending number (R451). -/
def ainEnabled (s : State) : List Nat := (List.range 24).filter fun n => s.localIo.set.ainEn.getLsbD n

/-- AIN_ROUND_END (R449, R451): the codes of the enabled inputs, in ascending number, and the AIN block. The round ends 1 µs after
its start for each of them, and 1 µs later when a VBATS conversion fell due in it (`vbats`); the next starts ROUND after it. -/
def execAinRoundEnd (codes : List Nat) (vbats : Bool) (s : State) : Host.Outcome State Fault Refusal :=
  let en := ainEnabled s
  match s.localIo.round with
  | none => next s
  | some t =>
    if !s.isReady 4 || !s.isReady 14 || en.isEmpty then next s
    else
      let code := fun n => match en.findIdx? (· == n) with
        | some i => codes.getD i 0 % 4096
        | none => 0
      let s := reachClk (t + (en.length + flag vbats 1) * usNs) s
      let s := { s with localIo := { s.localIo with ain := vgen 24 code, round := some (t + s.localIo.set.round * usNs) } }
      next (localArrival 1 ((List.range 24).flatMap fun n => le 2 (code n)) s)

end Sys2Proof.Machine
end

