-- ==== Sys2Proof/Machine/LoadCmds.lean ====
section
/-!
DEFINITION. The load commands (R504, R505, R509, R526 to R532).
-/

namespace Sys2Proof.Machine

/-! ### Shared checks -/

/-- The load field of a packet. -/
def loadField (p : Packet) : Nat := byteAt p.params 0

/-- A load field in range with its reserved bytes 0, then the command. -/
def withLoad (p : Packet) (k : Nat → Verdict) : Verdict :=
  badParam (loadField p ≥ loadCount) 0 <| badParam (!zeroAt p.params 1 3) 1 <| k (loadField p)

/-- ON or DUTY bits of a load that a developed SINK covers (R450, R505). -/
def routeBound (s : State) (n : Nat) : Bool :=
  s.pdus.any fun p => p.2.set.dir == .outLocal && (loadBits s p.2.set n).any fun b => b ≤ 9 || b == 15

/-- The binding that the running state will have at the next tick. -/
def nextBind (l : Load) : Option Binding := l.pendBind.getD l.bind

/-! ### BIND_LOAD (R527) -/

/-- The output that BIND_LOAD names. -/
def bindOut (kind out period : Nat) : Output :=
  if kind = 1 then .pwm (out % 64) period else .chain (bitsOf out 0 3) (bitsOf out 3 3) (bitsOf out 6 2)

/-- The same output, whatever its PERIOD (R491). -/
def sameOut (a b : Output) : Bool :=
  match a, b with
  | .pwm x _, .pwm y _ => x == y
  | .chain x y z, .chain u v w => x == u && y == v && z == w
  | _, _ => false

/-- The output is bound to another channel, running or latent (R491, R526). -/
def outTaken (s : State) (n : Nat) (o : Output) : Bool :=
  let holds := fun (b : Option Binding) => match b with | some b => sameOut b.out o | none => false
  ((List.range loadCount).any fun k => k != n && (holds (s.ld k).bind || holds (nextBind (s.ld k))))
  || (allWaiting s).any fun c => match c.2 with
    | .bind k b => k != n && holds b
    | _ => false

/-- BIND_LOAD. -/
def bindLoad (p : Packet) (s : State) : Verdict :=
  let b := p.params
  let n := loadField p
  let kind := byteAt b 1
  let out := byteAt b 2
  let group := byteAt b 3
  let period := fieldAt b 4 2
  let isrc := byteAt b 8
  let diag := byteAt b 9
  let o := bindOut kind out period
  badParam (n ≥ loadCount) 0 <|
  badParam (kind > 2) 1 <|
  badParam ((kind = 0 && out ≠ 0) || (kind = 1 && out > 47)) 2 <|
  badParam (bitsOf group 4 3 ≠ 0) 3 <|
  badParam (if kind = 1 then period < 40 || period > 20000 else period ≠ 0) 4 <|
  badParam (!(isrc = 0 || (kind = 2 && isrc = 1) || (kind = 1 && 0x10 ≤ isrc && isrc ≤ 0x27))) 8 <|
  badParam (if kind = 1 then bitOf diag 5 else diag ≠ 0) 9 <|
  badParam (!zeroAt b 10 2) 10 <|
  bundleOpen s p <|
  refuseIf (kind ≠ 0 && outTaken s n o) stState 0x0C0300 <|
  refuseIf ((s.ld n).enabled || (s.ld n).state == .stopping) stState 0x0C0400 <|
    let x : Binding :=
      { out := o, group := if bitOf group 7 then none else some (group % 16), scale := fieldAt b 6 2, isrc := isrc,
        diagEn := bitOf diag 7, diagLow := bitOf diag 6, diagDin := diag % 32 }
    stage p [.bind n (if kind = 0 then none else some x)] s []

/-- BIND_LOAD: its row of the opcode index. -/
def specBindLoad : CmdSpec :=
  { opcode := 0x0C01, plen := plenIs 3, right := fromCtx0, needs := needsOf [2, 10], readOnly := false }

/-- BIND_LOAD (R527). -/
def execBindLoad (p : Packet) (s : State) : Host.Outcome State Fault Refusal := next (runCommand specBindLoad bindLoad p s)

/-! ### SET_SWITCH_PROFILE (R499, R528) -/

/-- The ten bytes of one output. -/
def outFields (b : List Byte) : OutFields :=
  { onPos := byteAt b 0, dutyPos := byteAt b 1, dutyW := byteAt b 2, faultPos := byteAt b 3, tempPos := byteAt b 4
    openPos := byteAt b 5, uvPos := byteAt b 6, curPos := byteAt b 7, curW := byteAt b 8, pol := byteAt b 9 }

/-- A field that is present reaches bit FRAME_BITS or beyond. -/
def fieldOver (bits pos w : Nat) : Bool := pos != 0xFF && w != 0 && decide (pos + w > bits)

/-- Frame bits that the ON and DUTY fields of an output write: each with its byte of the output. -/
def driveBits (x : OutFields) : List (Nat × Nat) :=
  (x.onPos, 0) :: (if x.dutyPos = 0xFF then [] else (List.range x.dutyW).map fun k => (x.dutyPos + k, 1))

/-- The byte of an output's ten at which its first invalid field lies; `used` are the bits of the fields before it. -/
def outFault (bits : Nat) (used : List Nat) (x : OutFields) : Option Nat :=
  let l := driveBits x
  if x.onPos = 0xFF || x.onPos ≥ bits || used.contains x.onPos then some 0
  else if fieldOver bits x.dutyPos x.dutyW || (l.tail.any fun b => used.contains b.1 || b.1 == x.onPos) then some 1
  else if x.dutyW > 10 then some 2
  else if fieldOver bits x.faultPos 1 then some 3
  else if fieldOver bits x.tempPos 1 then some 4
  else if fieldOver bits x.openPos 1 then some 5
  else if fieldOver bits x.uvPos 1 then some 6
  else if fieldOver bits x.curPos x.curW then some 7
  else if x.curW > 16 then some 8
  else if x.pol ≥ 16 then some 9
  else none

/-- The offset of the first invalid byte among OUT0 to OUT3; outputs beyond OUTPUTS are all 0 (R528). -/
def outsFault (bits outputs : Nat) (b : List Byte) : Option Nat :=
  (List.range 4).findSome? fun k =>
    let raw := (b.drop (20 + 10 * k)).take 10
    if k < outputs then
      let before := (List.range k).flatMap fun j => (driveBits (outFields ((b.drop (20 + 10 * j)).take 10))).map (·.1)
      (outFault bits before (outFields raw)).map fun i => 20 + 10 * k + i
    else (raw.findIdx? (· != 0)).map fun i => 20 + 10 * k + i

/-- SET_SWITCH_PROFILE. -/
def setSwitchProfile (p : Packet) (s : State) : Verdict :=
  let b := p.params
  let chain := byteAt b 0
  let switches := byteAt b 1
  let bits := byteAt b 2
  let outputs := byteAt b 3
  let div := byteAt b 4
  let mode := byteAt b 5
  let overload := fun v => decide (v ≥ 2 ^ bits)
  badParam (chain ≥ 8) 0 <|
  badParam (switches > 8) 1 <|
  badParam (bits < 8 || bits > 32) 2 <|
  badParam (outputs < 1 || outputs > 4) 3 <|
  badParam (div < 8 || div > 80 || (switches * bits + 4) * div > 16000) 4 <|
  badParam (mode ≥ 16) 5 <|
  badParam (!zeroAt b 6 2) 6 <|
  badParam (overload (fieldAt b 8 4)) 8 <|
  badParam (overload (fieldAt b 12 4)) 12 <|
  badParam (overload (fieldAt b 16 4)) 16 <|
    match outsFault bits outputs b with
    | some off => .refuse stParam (16 + off)
    | none => bundleOpen s p <|
      let f : Profile :=
        { switches := switches, frameBits := bits, outputs := outputs, div := div, mode := mode, base := fieldAt b 8 4
          expMask := fieldAt b 12 4, expValue := fieldAt b 16 4
          outs := (List.range outputs).map fun k => outFields ((b.drop (20 + 10 * k)).take 10) }
      stage p [.profile chain f] s []

/-- SET_SWITCH_PROFILE: its row of the opcode index. -/
def specSetSwitchProfile : CmdSpec :=
  { opcode := 0x0C02, plen := plenIs 15, right := fromCtx0, needs := needsOf [2, 10], readOnly := false }

/-- SET_SWITCH_PROFILE (R528). -/
def execSetSwitchProfile (p : Packet) (s : State) : Host.Outcome State Fault Refusal :=
  next (runCommand specSetSwitchProfile setSwitchProfile p s)

/-! ### SET_LOAD (R504, R505, R529) -/

/-- CTX0, or a guest with right 3 and the load in its mask (R504, R526). -/
def fromLoadRight : SourceRule := fun p s =>
  match fromOwnRight 3 p s with
  | some d => some d
  | none => match guestOf p.source with
    | some g => if (s.ctx g).loadMask.getLsbD (loadField p % 128) then none else some 3
    | none => none

/-- SET_LOAD. -/
def setLoadCmd (p : Packet) (s : State) : Verdict :=
  let b := p.params
  let n := loadField p
  badParam (n ≥ loadCount) 0 <|
  badParam (byteAt b 1 > 1) 1 <|
  badParam (fieldAt b 2 2 > 1000) 2 <|
  badParam (!zeroAt b 4 4) 4 <|
  refuseIf (s.ld n).bind.isNone stState 0x0C0100 <|
  refuseIf (routeBound s n) stState 0x0C0200 <|
    let s := command n (bitOf (byteAt b 1) 0) (fieldAt b 2 2) (.source p.source) s
    okBody s (le 1 (loadCode (s.ld n).state) ++ le 1 (loadByte (s.ld n)) ++ zeros 2 ++ le 8 (stampNow s))

/-- SET_LOAD: its row of the opcode index. -/
def specSetLoad : CmdSpec :=
  { opcode := 0x0C03, plen := plenIs 2, right := fromLoadRight, needs := needsOf [2, 10], readOnly := false }

/-- SET_LOAD (R529). -/
def execSetLoad (p : Packet) (s : State) : Host.Outcome State Fault Refusal := next (runCommand specSetLoad setLoadCmd p s)

/-! ### SET_LOAD_POLICY (R530) -/

/-- A field whose 0 selects a default. -/
def defaulted (v d : Nat) : Nat := if v = 0 then d else v

/-- A value outside a range. -/
def outside (v lo hi : Nat) : Bool := decide (v < lo) || decide (v > hi)

/-- Ticks in a number of ms, and in a number of s (R494). -/
def msTicks (n : Nat) : Nat := 4 * n
def sTicks (n : Nat) : Nat := 4000 * n

/-- SET_LOAD_POLICY. -/
def setLoadPolicy (p : Packet) (s : State) : Verdict :=
  let b := p.params
  let n := loadField p
  let ctrl := byteAt b 1
  let safe := bitsOf ctrl 1 2
  let depart := bitsOf ctrl 3 2
  let duty := fieldAt b 2 2
  let vnom := defaulted (fieldAt b 4 2) 13200
  let inrush := defaulted (fieldAt b 6 2) 20
  let cap := defaulted (fieldAt b 8 2) 50
  let limit := defaulted (byteAt b 11) 2
  let backoff := defaulted (fieldAt b 12 2) 100
  let backoffMax := defaulted (fieldAt b 14 2) 1600
  let heal := defaulted (fieldAt b 16 2) 10
  let win := defaulted (fieldAt b 18 2) 60
  let iMax := fieldAt b 20 2
  let iOpen := fieldAt b 22 2
  let vuv := defaulted (fieldAt b 24 2) 6000
  badParam (n ≥ loadCount) 0 <|
  badParam (bitOf ctrl 7 || safe = 3 || depart = 3) 1 <|
  badParam (if safe = 1 then outside duty 1 1000 else duty ≠ 0) 2 <|
  badParam (outside vnom 6000 16000) 4 <|
  badParam (outside inrush 1 5000) 6 <|
  badParam (outside cap 1 1000) 8 <|
  badParam (byteAt b 10 > 15) 10 <|
  badParam (outside limit 1 15) 11 <|
  badParam (outside backoff 10 10000) 12 <|
  badParam (backoffMax > 60000 || backoffMax < backoff) 14 <|
  badParam (outside heal 1 3600) 16 <|
  badParam (outside win 1 3600) 18 <|
  badParam (iMax ≠ 0 && iOpen ≠ 0 && iOpen ≥ iMax) 22 <|
  badParam (outside vuv 3000 9000) 24 <|
  badParam (!zeroAt b 26 2) 26 <|
  bundleOpen s p <|
    let x : LoadPolicy :=
      { comp := bitOf ctrl 0, safe := safe, depart := depart, prio := bitsOf ctrl 5 2, safeDuty := duty, vnom := vnom
        inrush := msTicks inrush, extCap := msTicks cap, retries := byteAt b 10, thermLimit := limit
        backoff := msTicks backoff, backoffMax := msTicks backoffMax, heal := sTicks heal, thermWin := sTicks win
        iMax := iMax, iOpen := iOpen, vuv := vuv }
    stage p [.policy n x] s []

/-- Compensation needs the ADC (R65). -/
def policyNeeds (p : Packet) (_ : State) : List Nat := if bitOf (byteAt p.params 1) 0 then [2, 10, 14] else [2, 10]

/-- SET_LOAD_POLICY: its row of the opcode index. -/
def specSetLoadPolicy : CmdSpec :=
  { opcode := 0x0C04, plen := plenIs 7, right := fromCtx0, needs := policyNeeds, readOnly := false }

/-- SET_LOAD_POLICY (R530). -/
def execSetLoadPolicy (p : Packet) (s : State) : Host.Outcome State Fault Refusal :=
  next (runCommand specSetLoadPolicy setLoadPolicy p s)

/-! ### FORCE_SAFE (R509 to R512, R531) -/

/-- The force that the AON decoder applied for this packet, with its stamp (R143, R512). -/
def decodedForce (s : State) (p : Packet) : Option Nat := (s.sp.decoded.find? fun d => d.1 == p).map (·.2)

/-- The force of the packet is answered: of equal packets the one that came first (R512). -/
def answerDecoded (p : Packet) (s : State) : State :=
  { s with sp := { s.sp with decoded := dropFirst (fun d => d.1 == p) s.sp.decoded } }

/-- FORCE_SAFE. A safety-port packet that the AON decoder has applied is only answered. -/
def forceSafe (p : Packet) (s : State) : Verdict :=
  let b := p.params
  let action := byteAt b 0
  badParam (action < 1 || action > 2) 0 <|
  badParam (!zeroAt b 1 3) 1 <|
    match decodedForce s p with
    | some t => okBody (answerDecoded p s) (le 8 t ++ safeMap s)
    | none =>
      let s := applyForce action (fieldAt b 4 12) p.source s
      okBody s (le 8 (stampNow s) ++ safeMap s)

/-- FORCE_SAFE: its row of the opcode index. -/
def specForceSafe : CmdSpec :=
  { opcode := 0x0C05, plen := plenIs 4, right := fromCtx0Sp, needs := needsOf [2, 10], readOnly := false }

/-- Decoded forces whose packets no longer wait have been answered. -/
def pruneDecoded (s : State) : State :=
  { s with sp := { s.sp with decoded := s.sp.decoded.filter fun d => s.fq.spq.contains d.1 } }

/-- FORCE_SAFE (R531). -/
def execForceSafe (p : Packet) (s : State) : Host.Outcome State Fault Refusal :=
  next (pruneDecoded (runCommand specForceSafe forceSafe p s))

/-! ### GET_LOAD_STATUS (R532) -/

/-- COMMANDER (R532). -/
def commanderCode : Commander → Nat
  | .nobody => 0xFF
  | .route => 0x80
  | .source c => sourceCode c

/-- The 64 bytes of a load's record: the GET_LOAD_STATUS result, contact-sheet section 0x0C01 (R532). -/
def loadRecord (s : State) (n : Nat) : List Byte :=
  let l := s.ld n
  le 1 n ++ le 1 (loadCode l.state) ++ le 1 (loadByte l)
    ++ le 1 (flag l.enabled 1 + flag (routeBound s n) 2 + flag (diagLost s l) 4 + flag l.on 8
        + flag (l.state == .inrush && l.uvWindow) 16 + flag (l.safe && l.forcer == .sp) 32)
    ++ le 2 (cmdDuty l) ++ le 2 (if outputOn l then l.eff else 0) ++ le 2 (shownCurrent s l) ++ le 1 l.retries ++ le 1 (commanderCode l.commander)
    ++ zeros 4 ++ le 4 l.faults ++ le 4 l.thermCount ++ le 4 l.opens ++ le 4 l.uvRestarts ++ le 4 l.retriesUsed
    ++ le 4 l.latches ++ le 4 l.extensions ++ le 4 l.chainErr ++ le 8 l.lastFault ++ le 8 (stampNow s)

/-- GET_LOAD_STATUS. -/
def getLoadStatus (p : Packet) (s : State) : Verdict := withLoad p fun n => okBody s (loadRecord s n)

/-- GET_LOAD_STATUS: its row of the opcode index. -/
def specGetLoadStatus : CmdSpec :=
  { opcode := 0x0C06, plen := plenIs 1, right := fromAll, needs := needsOf [2, 10], readOnly := true }

/-- GET_LOAD_STATUS (R532). -/
def execGetLoadStatus (p : Packet) (s : State) : Host.Outcome State Fault Refusal :=
  next (runCommand specGetLoadStatus getLoadStatus p s)

/-! ### RESET_LOAD_LATCH, ENABLE_LOAD, DISABLE_LOAD (R518, R523, R524) -/

/-- RESET_LOAD_LATCH acts at the next tick. -/
def resetLoadLatch (p : Packet) (s : State) : Verdict :=
  withLoad p fun n =>
  refuseIf (s.ld n).bind.isNone stState 0x0C0100 <|
    okDone (s.modLd n fun l => { l with pendReset := true })

/-- RESET_LOAD_LATCH: its row of the opcode index. -/
def specResetLoadLatch : CmdSpec :=
  { opcode := 0x0C07, plen := plenIs 1, right := fromCtx0, needs := needsOf [2, 10], readOnly := false }

/-- RESET_LOAD_LATCH (R518). -/
def execResetLoadLatch (p : Packet) (s : State) : Host.Outcome State Fault Refusal :=
  next (runCommand specResetLoadLatch resetLoadLatch p s)

/-- ENABLE_LOAD: OFF at the next tick; held while the stop bath runs (R179, R523). -/
def enableLoad (p : Packet) (s : State) : Verdict :=
  withLoad p fun n =>
  refuseIf (s.ld n).bind.isNone stState 0x0C0100 <|
    if (s.ld n).state = .stopping then .reply (s.modLd n fun l => { l with held := some p.source }) stDeferred 2 []
    else okDone (s.modLd n fun l => { l with enabled := true })

/-- ENABLE_LOAD: its row of the opcode index. -/
def specEnableLoad : CmdSpec :=
  { opcode := 0x0C08, plen := plenIs 1, right := fromCtx0, needs := needsOf [2, 10], readOnly := false }

/-- ENABLE_LOAD (R523). -/
def execEnableLoad (p : Packet) (s : State) : Host.Outcome State Fault Refusal := next (runCommand specEnableLoad enableLoad p s)

/-- DISABLE_LOAD: a stop bath, at once (R523, R524). -/
def disableLoad (p : Packet) (s : State) : Verdict :=
  withLoad p fun n =>
    let l := s.ld n
    match l.state with
    | .unbound => okDone s
    | .disabled => okDone (s.modLd n fun l => { l with enabled := false })
    | .stopping =>
      okDone (if l.held.isSome then loadBathEvent 0x0CF2 n p.source (s.modLd n fun l => { l with held := none }) else s)
    | _ => okDone (startLoadBath n false p.source s)

/-- DISABLE_LOAD: its row of the opcode index. -/
def specDisableLoad : CmdSpec :=
  { opcode := 0x0C09, plen := plenIs 1, right := fromCtx0, needs := needsOf [2, 10], readOnly := false }

/-- DISABLE_LOAD (R524). -/
def execDisableLoad (p : Packet) (s : State) : Host.Outcome State Fault Refusal := next (runCommand specDisableLoad disableLoad p s)

end Sys2Proof.Machine
end

