-- ==== Sys2Proof/Machine/RouteCmds.lean ====
section
/-!
DEFINITION. The routing commands (R430 to R433, R462 to R471): tables, bundles, signals, local I/O and statistics.
-/

namespace Sys2Proof.Machine

/-! ### PDU descriptors (R431, R466) -/

/-- The DIR that a code names. -/
def dirOf : Nat → Option Dir
  | 1 => some .inFrame | 2 => some .inLink | 3 => some .inLocal
  | 4 => some .outFrame | 5 => some .outLink | 6 => some .outLocal
  | _ => none

/-- The code of a DIR. -/
def dirCode : Dir → Nat
  | .inFrame => 1 | .inLink => 2 | .inLocal => 3 | .outFrame => 4 | .outLink => 5 | .outLocal => 6

/-- Word `i` of a 32-byte descriptor at parameter offset 4. -/
def descWord (b : List Byte) (i : Nat) : Nat := fieldAt b (4 + 4 * i) 4

/-- The bits that WRITE_PDU may set in word `i` for a DIR; every other bit is reserved there or read-only (R431, R466). -/
def pduMask (d : Dir) : Nat → Nat
  | 0 =>
    let out := if dirIn d then 0 else 0x300
    let per := match d with | .outFrame => 0x400 | _ => 0
    let cv := match d with | .inLocal => 0 | .outLocal => 0 | _ => 0x800
    0x0FFF103E + out + per + cv
  | 1 =>
    let off := match d with | .inLink => 0 | .outLink => 0 | _ => 0x7FF
    let fill := match d with | .outFrame => 0xFF0000 | .outLink => 0xFF0000 | _ => 0
    0x1F000000 + off + fill
  | 2 => 0x07FFFFFF
  | 3 => match d with
    | .outFrame => 0x7FFFFFFF
    | .outLink => 0x0007FFFF - 0x8000
    | .outLocal => 0
    | _ => 0x3FFFF
  | 4 => match d with
    | .inLocal => 0x3FFFFFF
    | .outLocal => 0x3FC0000
    | .inFrame => 0x3FFFF
    | .inLink => 0x3FFFF
    | _ => 0
  | 5 => match d with
    | .outFrame => 0xFFFF
    | .outLink => 0xFFFF
    | .outLocal => 0
    | _ => 0xFFFFFF
  | 6 => 0x7FF
  | _ => 0

/-- The descriptor that the words give (R431). -/
def pduFrom (d : Dir) (w : Nat → Nat) : PduSet :=
  let inb := dirIn d
  let frame := d == .outFrame
  let link := d == .outLink
  let only := fun (c : Bool) v => if c then v else 0
  { dir := d, lane := bitsOf (w 0) 4 2, onChange := bitOf (w 0) 8, onArrival := bitOf (w 0) 9, periodic := bitOf (w 0) 10
    cvEn := bitOf (w 0) 11, cvOrder := bitOf (w 0) 12, length := bitsOf (w 0) 16 12, offset := bitsOf (w 1) 0 11
    fill := bitsOf (w 1) 16 8, cvu := bitsOf (w 1) 24 5, first := bitsOf (w 2) 0 18, count := bitsOf (w 2) 18 9
    route := if inb then bitsOf (w 3) 0 18 else sigNone, mo := only frame (bitsOf (w 3) 0 14)
    frameCount := only frame (bitsOf (w 3) 14 5), frameLen := only frame (bitsOf (w 3) 19 12)
    remotePdu := only link (bitsOf (w 3) 0 15), position := only link (bitsOf (w 3) 16 3)
    substBase := if inb then bitsOf (w 4) 0 18 else sigNone, block := bitsOf (w 4) 18 8
    timeout := only inb (bitsOf (w 5) 0 24), minGap := only (frame || link) (bitsOf (w 5) 0 16), cvPos := bitsOf (w 6) 0 11 }

/-- The first word of a descriptor that is invalid (R431). -/
def pduFault (d : Dir) (w : Nat → Nat) : Option Nat :=
  let p := pduFrom d w
  (List.range 8).find? fun i =>
    w i != w i &&& pduMask d i
    || (i == 0 && (p.length < 1 || p.length > 2048)) || (i == 2 && p.count > 256)
    || (i == 3 && (p.frameCount > 16 || p.frameLen > 2048))

/-- The bits that WRITE_PDU may set in word `i` when DIR 0x0 frees the descriptor: every field limited to some DIR values is reserved
there (R431). -/
def freeMask : Nat → Nat
  | 0 => 0x0FFF103E
  | 1 => 0x1F0007FF
  | 2 => 0x07FFFFFF
  | 6 => 0x7FF
  | _ => 0

/-- The first word of a freeing descriptor that is invalid (R431). A free descriptor has LENGTH 0. -/
def freeFault (w : Nat → Nat) : Option Nat :=
  (List.range 8).find? fun i =>
    w i != w i &&& freeMask i || (i == 0 && bitsOf (w 0) 16 12 > 2048) || (i == 2 && bitsOf (w 2) 18 9 > 256)

/-- WRITE_PDU. DIR 0x0 frees the descriptor. -/
def writePdu (p : Packet) (s : State) : Verdict :=
  let b := p.params
  let n := fieldAt b 0 2
  let w := descWord b
  let code := bitsOf (w 0) 1 3
  let dir := dirOf code
  badParam (n ≥ 0x8000) 0 <|
  badParam (!zeroAt b 2 2) 2 <|
  badParam (bitOf (w 0) 0 || code = 7) 4 <|
    match (match dir with | none => freeFault w | some d => pduFault d w) with
    | some i => .refuse stParam (16 + 4 + 4 * i)
    | none => bundleOpen s p <| stage p [.pdu n (dir.map fun d => pduFrom d w)] s []

/-- WRITE_PDU: its row of the opcode index. -/
def specWritePdu : CmdSpec :=
  { opcode := 0x0A01, plen := plenIs 9, right := fromCtx0, needs := needsOf [2, 3, 4], readOnly := false }

/-- WRITE_PDU (R466). -/
def execWritePdu (p : Packet) (s : State) : Host.Outcome State Fault Refusal := next (runCommand specWritePdu writePdu p s)

/-! ### Signal-table entries (R433, R467) -/

/-- Word `i` of entry `k` of the packet. -/
def entryWord (b : List Byte) (k i : Nat) : Nat := fieldAt b (8 + 16 * k + 4 * i) 4

/-- The bits that may be set in word `i` of an entry of a KIND (R433). -/
def sigMask : Nat → Nat → Nat
  | 0, 0 => 0x0FFFFF7E
  | 0, 1 => 0xFFFF7FFF
  | 0, _ => 0xFFFFFFFF
  | 1, 0 => 0x0FFFFF3E
  | 1, 1 => 0x7FFF
  | 1, _ => 0
  | 2, 0 => 0x0FFFFF7E
  | 2, 1 => 0xFFFF7FFF
  | 2, 2 => 0xFFFFFF
  | 2, _ => 0xFFFFFFFF
  | 3, 0 => 0xE
  | 3, 1 => 0
  | 3, _ => 0xFFFFFFFF
  | _, 0 => 0x03FFFF7E
  | _, _ => 0x7FFF7FFF

/-- PDU_A to PDU_F of a ROUTE entry. -/
def routePdusOf (w : Nat → Nat) : List Nat := (List.range 6).map fun j => bitsOf (w (1 + j / 2)) (16 * (j % 2)) 15

/-- The entry that the words give: none frees it (R433). -/
def sigFrom (kind : Nat) (w : Nat → Nat) : Option SigBody :=
  let big := bitOf (w 0) 4
  let signed := bitOf (w 0) 5
  let len := bitsOf (w 0) 8 6 + 1
  let start := bitsOf (w 0) 14 14
  let pdu := bitsOf (w 1) 0 15
  match kind with
  | 0 => none
  | 1 => some (.source big signed len start pdu)
  | 2 => some (.sink big signed (bitOf (w 0) 6) len start pdu (signedOf 16 (bitsOf (w 1) 16 16)) (bitsOf (w 2) 0 18)
      (bitsOf (w 2) 18 6) (signedOf 32 (w 3)))
  | 3 => some .const
  | _ => some (.route (bitsOf (w 0) 8 18) ((routePdusOf w).take (bitsOf (w 0) 4 3)))

/-- The VALUE of a CONST as written (R433). -/
def constValue (kind : Nat) (w : Nat → Nat) : BitVec 64 := if kind = 3 then BitVec.ofNat 64 (w 2 + w 3 * 2 ^ 32) else 0

/-- The word of an entry that is invalid for the KINDs of the command (R433, R467). -/
def sigFault (kinds : List Nat) (w : Nat → Nat) : Option Nat :=
  let kind := bitsOf (w 0) 1 3
  let npdu := bitsOf (w 0) 4 3
  (List.range 4).find? fun i =>
    (i == 0 && (!kinds.contains kind || (kind == 4 && (npdu < 1 || npdu > 6))))
    || w i != w i &&& sigMask kind i
    || (kind == 4 && i > 0 && [2 * i - 2, 2 * i - 1].any fun j => j ≥ npdu && (routePdusOf w).getD j 0 != 0)

/-- WRITE_SIGNAL and WRITE_ROUTE. -/
def writeEntries (kinds : List Nat) (p : Packet) (s : State) : Verdict :=
  let b := p.params
  let first := fieldAt b 0 4
  let count := byteAt b 4
  badParam (first > 0x3FFFF || first + count > sigNone) 0 <|
  badParam (count < 1 || count > 14 || p.plen ≠ 2 + 4 * count) 4 <|
  badParam (!zeroAt b 5 3) 5 <|
    match (List.range count).findSome? fun k => (sigFault kinds (entryWord b k)).map fun i => 8 + 16 * k + 4 * i with
    | some off => .refuse stParam (16 + off)
    | none => bundleOpen s p <|
      stage p ((List.range count).map fun k =>
        let kind := bitsOf (entryWord b k 0) 1 3
        .signal (first + k) (sigFrom kind (entryWord b k)) (constValue kind (entryWord b k))) s []

/-- PLEN 2 + 4 × COUNT, COUNT 1 to 14 (R467). -/
def entriesPlen (n : Nat) : Bool := 6 ≤ n && n ≤ 58 && n % 4 == 2

/-- WRITE_SIGNAL. -/
def writeSignal : Packet → State → Verdict := writeEntries [0, 1, 2, 3]

/-- WRITE_SIGNAL: its row of the opcode index. -/
def specWriteSignal : CmdSpec :=
  { opcode := 0x0A02, plen := entriesPlen, right := fromCtx0, needs := needsOf [2, 3, 4], readOnly := false }

/-- WRITE_SIGNAL (R467). -/
def execWriteSignal (p : Packet) (s : State) : Host.Outcome State Fault Refusal :=
  next (runCommand specWriteSignal writeSignal p s)

/-- WRITE_ROUTE. -/
def writeRoute : Packet → State → Verdict := writeEntries [0, 4]

/-- WRITE_ROUTE: its row of the opcode index. -/
def specWriteRoute : CmdSpec :=
  { opcode := 0x0A03, plen := entriesPlen, right := fromCtx0, needs := needsOf [2, 3, 4], readOnly := false }

/-- WRITE_ROUTE (R467). -/
def execWriteRoute (p : Packet) (s : State) : Host.Outcome State Fault Refusal := next (runCommand specWriteRoute writeRoute p s)

/-! ### READ_SIGNAL (R469) -/

/-- A SOURCE's CHANGED: its VALUE changed in a pass in progress (R433, R437). -/
def sigChanged (s : State) (e : Nat) : Bool := (List.range 4).any fun l => (s.lane l).changed.contains e

/-- An entry as READ_SIGNAL shows it, with its CHANGED (R433). -/
def sigBytes (changed : Bool) (g : Sig) : List Byte :=
  let dis := flag g.errDis 0x80
  match g.body with
  | .source big signed len start pdu =>
    le 4 (0x3 + flag big 0x10 + flag signed 0x20 + dis + (len - 1) * 2 ^ 8 + start * 2 ^ 14 + flag changed 0x10000000) ++ le 4 pdu ++ le 8 g.value.toNat
  | .sink big signed sat len start pdu mul src shift add =>
    le 4 (0x5 + flag big 0x10 + flag signed 0x20 + flag sat 0x40 + dis + (len - 1) * 2 ^ 8 + start * 2 ^ 14)
      ++ le 4 (pdu + unsignedOf 16 mul * 2 ^ 16) ++ le 4 (src + shift * 2 ^ 18) ++ le 4 (unsignedOf 32 add)
  | .const => le 4 (0x7 + dis) ++ zeros 4 ++ le 8 g.value.toNat
  | .route nx pdus =>
    le 4 (0x9 + pdus.length * 2 ^ 4 + dis + nx * 2 ^ 8) ++ (List.range 6).flatMap fun j => le 2 (pdus.getD j 0)

/-- The entry whose VALUE a read of the entry returns: a SINK's SRC, else the entry itself. -/
def readSource (e : Nat) (g : Sig) : Nat :=
  match g.body with
  | .sink _ _ _ _ _ _ _ src _ _ => src
  | _ => e

/-- VALUE as READ_SIGNAL returns it; a disabled CONST reads 0 (R460, R469). -/
def shownValue (s : State) (g : Sig) : BitVec 64 :=
  match g.body with
  | .sink _ signed sat len _ _ mul src shift add => extendValue signed len (sinkValue s signed sat len mul src shift add)
  | .route _ _ => 0
  | .const => if g.errDis then 0 else g.value
  | .source _ _ _ _ _ => g.value

/-- READ_SIGNAL. A free entry reads all zero (R430). -/
def readSignal (p : Packet) (s : State) : Verdict :=
  let e := fieldAt p.params 0 4
  badParam (e > 0x3FFFF) 0 <|
    match mget s.sigs e with
    | none => okBody s (zeros 36)
    | some g =>
      let src := readSource e g
      let stamp := match mget s.sigs src with | some x => x.stamp | none => 0
      let stale := match sigBody s src with
        | some (.source _ _ _ _ n) => match pduOf s n with | some d => d.stale | none => false
        | _ => false
      okBody s (sigBytes (sigChanged s src) g ++ le 8 (shownValue s g).toNat ++ le 8 stamp ++ le 1 (flag stale 1 + flag g.errDis 2) ++ zeros 3)

/-- READ_SIGNAL: its row of the opcode index. -/
def specReadSignal : CmdSpec :=
  { opcode := 0x0A05, plen := plenIs 1, right := fromAll, needs := needsOf [2, 3, 4], readOnly := true }

/-- READ_SIGNAL (R469). -/
def execReadSignal (p : Packet) (s : State) : Host.Outcome State Fault Refusal := next (runCommand specReadSignal readSignal p s)

/-! ### SET_LOCAL_IO (R470) -/

/-- SET_LOCAL_IO. -/
def setLocalIo (p : Packet) (s : State) : Verdict :=
  let b := p.params
  let round := fieldAt b 8 2
  badParam (fieldAt b 4 4 ≥ 2 ^ 24) 4 <|
  badParam (1 ≤ round && round ≤ 99) 8 <|
  badParam (!zeroAt b 10 2) 10 <|
  bundleOpen s p <|
    let x : LocalIoSet :=
      { invert := BitVec.ofNat 32 (fieldAt b 0 4), ainEn := BitVec.ofNat 24 (fieldAt b 4 4), round := defaulted round 1000
        debounce := vgen 32 fun n => defaulted (byteAt b (12 + n)) 3 }
    stage p [.localIo x] s []

/-- SET_LOCAL_IO: its row of the opcode index. -/
def specSetLocalIo : CmdSpec :=
  { opcode := 0x0A06, plen := plenIs 11, right := fromCtx0, needs := needsOf [2, 3, 4], readOnly := false }

/-- SET_LOCAL_IO (R470). -/
def execSetLocalIo (p : Packet) (s : State) : Host.Outcome State Fault Refusal := next (runCommand specSetLocalIo setLocalIo p s)

/-! ### GET_ROUTE_STATS (R471) -/

/-- A lane's record (R471). -/
def laneRecord (s : State) (l : Nat) : List Byte :=
  let x := s.lane l
  le 2 l ++ zeros 2 ++ le 4 x.passes ++ le 4 x.timed ++ le 4 (laneLoad s l) ++ le 4 (laneLead s l) ++ le 4 x.maxWork
    ++ zeros 8 ++ le 8 x.last ++ le 8 (stampNow s)

/-- A PDU's record; a free descriptor reads 0 (R471). -/
def pduRecord (s : State) (n : Nat) : List Byte :=
  match pduOf s n with
  | none => le 2 n ++ zeros 38 ++ le 8 (stampNow s)
  | some p =>
    le 2 n ++ le 1 (1 + flag p.stale 2 + flag p.errDis 4) ++ zeros 1 ++ le 4 p.arrivals ++ le 4 p.sends ++ le 4 p.short
      ++ le 4 p.cvFail ++ le 4 p.timeouts ++ le 4 p.deferred ++ le 4 p.noObject ++ le 8 p.last ++ le 8 (stampNow s)

/-- GET_ROUTE_STATS. -/
def getRouteStats (p : Packet) (s : State) : Verdict :=
  let kind := byteAt p.params 0
  let n := fieldAt p.params 2 2
  badParam (kind > 1) 0 <|
  badParam (!zeroAt p.params 1 1) 1 <|
  badParam (if kind = 0 then n > 3 else n > 0x7FFF) 2 <|
    okBody s (if kind = 0 then laneRecord s n else pduRecord s n)

/-- GET_ROUTE_STATS: its row of the opcode index. -/
def specGetRouteStats : CmdSpec :=
  { opcode := 0x0A07, plen := plenIs 1, right := fromCtx0Sp, needs := needsOf [2, 3, 4], readOnly := true }

/-- GET_ROUTE_STATS (R471). -/
def execGetRouteStats (p : Packet) (s : State) : Host.Outcome State Fault Refusal :=
  next (runCommand specGetRouteStats getRouteStats p s)

/-! ### Ozqua bundles (R462 to R464, R468) -/

/-- The latent commands that a record may carry, each with its row and its handler (R462). -/
def bundleRow : Nat → Option (CmdSpec × (Packet → State → Verdict))
  | 0x0401 => some (specSetChannelMode, setChannelMode)
  | 0x0402 => some (specSetBitTiming, setBitTiming)
  | 0x0408 => some (specSetTransceiver, setTransceiver)
  | 0x0501 => some (specAllocMo, allocMo)
  | 0x0502 => some (specConfigMo, configMoCmd)
  | 0x0601 => some (specWriteFilter, writeFilter)
  | 0x0804 => some (specSetShutter, setShutter)
  | 0x0901 => some (specDeclareStream, declareStream)
  | 0x0903 => some (specDeclareForeign, declareForeign)
  | 0x0904 => some (specSetFaultBudget, setFaultBudget)
  | 0x0905 => some (specAdmitRoute, admitRoute)
  | 0x0A01 => some (specWritePdu, writePdu)
  | 0x0A02 => some (specWriteSignal, writeSignal)
  | 0x0A03 => some (specWriteRoute, writeRoute)
  | 0x0A06 => some (specSetLocalIo, setLocalIo)
  | 0x0B01 => some (specConfigCvu, configCvuCmd)
  | 0x0C01 => some (specBindLoad, bindLoad)
  | 0x0C02 => some (specSetSwitchProfile, setSwitchProfile)
  | 0x0C04 => some (specSetLoadPolicy, setLoadPolicy)
  | _ => none

/-- A BAD_PARAM offset of a packet counted from the first byte of the record that holds its parameters at byte 4 (R464). -/
def recordDetail (status detail : Nat) : Nat :=
  if status = stParam then (if detail ≥ 16 then detail - 12 else if detail = 3 then 2 else detail) else detail

/-- The record `r` is taken as CTX0's latent command, with the load set aside (R463): the new state, or the status of the
failure, which is never OK (R150), and its detail. -/
def takeRecord (p : Packet) (r : List Byte) (s : State) : Except (Nat × Nat) State :=
  match bundleRow (fieldAt r 0 2) with
  | none => .error (stParam, 0)
  | some (c, h) =>
    let q : Packet :=
      { source := p.source, opcode := c.opcode, flags := 0, plen := byteAt r 2, tag := p.tag, target := 0
        reserved := zeros 8, params := r.drop 4 }
    if byteAt r 3 != 0 then .error (stParam, 3)
    else if q.plen > 60 || !c.plen q.plen then .error (stParam, 2)
    else match c.right q s with
      | some d => .error (stRights, d)
      | none => match missing s (c.needs q s) with
        | some b => .error (stNotReady, b)
        | none => match h q { s with bundle := none } with
          | .reply t _ _ _ => .ok { t with bundle := s.bundle }
          | .refuse st d => .error (max 1 st, recordDetail st d)
          | .wait t => .ok { t with bundle := s.bundle }
          | .done t => .ok { t with bundle := s.bundle }

/-- The file header of a bundle for this device (R462). -/
def headerGood (s : State) (b : List Byte) : Bool :=
  fieldAt b 0 4 == leVal [0x4F, 0x5A, 0x51, 0x42] && fieldAt b 4 2 == 1 && fieldAt b 6 2 == 0x2064 && byteAt b 8 == s.pos
    && zeroAt b 9 3 && fieldAt b 12 4 % 4 == 0 && fieldAt b 28 4 == crc32 (b.take 28)

/-- How a part of a bundle ended: loaded and more to come, complete, or failed with a status, a detail and an offset. -/
inductive Loaded where
  | more (s : State)
  | done (s : State)
  | fail (b : BundleLoad) (status detail at_ : Nat)

/-- The load changed by `f`. -/
def modBundle (f : BundleLoad → BundleLoad) (s : State) : State := { s with bundle := s.bundle.map f }

/-- A batch whose last byte has arrived (R463). -/
def endBatch (b : BundleLoad) (s : State) : Loaded :=
  if b.records != b.batchRecs || (b.batchRun ^^^ 0xFFFFFFFF#32).toNat != b.batchCrc then .fail b stIntegrity 0 b.batchAt
  else
    let s := modBundle (fun b => { b with batch := b.batch + 1, inBatch := false, waiting := true }) s
    if b.batch + 1 < b.batches then .done s
    else if b.done = b.length then .done s
    else .fail b stIntegrity 0 b.batchAt

/-- The bundle's own lengths agree once no batch is left (R463). -/
def finishHeader (b : BundleLoad) (s : State) : Loaded :=
  if b.batches = 0 then (if b.done = b.length then .done s else .fail b stIntegrity 0 0) else .more s

/-- One part is taken from the bytes that wait: the file header, a batch header or a record (R463). -/
def takePart (p : Packet) (b : BundleLoad) (n : Nat) (s : State) : Loaded :=
  let part := b.buffer.take n
  let at_ := b.done
  let b1 := { b with buffer := b.buffer.drop n, done := b.done + n }
  if !b.headerSeen then
    if !headerGood s part then .fail b stIntegrity 0 at_
    else
      let b2 := { b1 with headerSeen := true, length := fieldAt part 12 4, batches := fieldAt part 16 4 }
      finishHeader b2 { s with bundle := some b2 }
  else if !b.inBatch then
    if fieldAt part 0 4 != b.batch || fieldAt part 8 4 % 4 != 0 then .fail b stIntegrity 0 at_
    else
      let b2 := { b1 with inBatch := true, batchAt := at_, batchRecs := fieldAt part 4 4, batchLeft := fieldAt part 8 4
                          batchCrc := fieldAt part 12 4, batchRun := 0xFFFFFFFF#32, records := 0 }
      if b2.batchLeft = 0 then endBatch b2 { s with bundle := some b2 } else .more { s with bundle := some b2 }
  else
    match takeRecord p part s with
    | .error e => .fail b e.1 e.2 at_
    | .ok t =>
      let b2 := { b1 with records := b.records + 1, batchLeft := b.batchLeft - n, batchRun := crc32From b.batchRun part }
      if b2.batchLeft = 0 then endBatch b2 { t with bundle := some b2 } else .more { t with bundle := some b2 }

/-- Bytes of the next part; none until they are known or have arrived. A record longer than its batch fails the batch. -/
def nextPart (b : BundleLoad) : Option (Except Nat Nat) :=
  let have_ := b.buffer.length
  if !b.headerSeen then (if have_ ≥ 32 then some (.ok 32) else none)
  else if !b.inBatch then (if have_ ≥ 16 then some (.ok 16) else none)
  else if have_ < 4 then none
  else
    let n := 4 + 4 * byteAt b.buffer 2
    if n > b.batchLeft then some (.error b.batchAt) else if have_ ≥ n then some (.ok n) else none

/-- The waiting bytes are taken part by part, up to the end of a batch (R463). -/
def takeParts (p : Packet) : Nat → State → Loaded
  | 0, s => .more s
  | n + 1, s =>
    match s.bundle with
    | none => .more s
    | some b => match nextPart b with
      | none => .more s
      | some (.error at_) => .fail b stIntegrity 0 at_
      | some (.ok k) => match takePart p b k s with
        | .more t => takeParts p n t
        | x => x

/-- The load has ended by a failure or ABORT: CTX0's latent set goes (R464). -/
def endLoad (status detail at_ : Nat) (b : BundleLoad) (s : State) : Verdict :=
  .reply (dropLatent 0 s) status detail (bundleBytes (some { b with waiting := false, batch := b.batch - flag b.waiting 1 }) 3 at_)

/-- A load that is open, and nothing loaded. -/
def bundleNew : BundleLoad :=
  { done := 0, buffer := [], length := 0, batches := 0, headerSeen := false, batch := 0, batchAt := 0, inBatch := false
    batchLeft := 0, batchRecs := 0, batchCrc := 0, batchRun := 0xFFFFFFFF#32, records := 0, waiting := false }

/-- The OK reply to a block taken in the state `s`: DETAIL bit 23 where the block has staged changes (R150, R171). -/
def loadReply (s t : State) (body : List Byte) : Verdict :=
  .reply t stOk (if (t.ctx 0).latent = (s.ctx 0).latent then 0 else stagedDetail) body

/-- A block of an open load: the reply after its bytes have been taken (R463, R464, R468). Bytes after the end of a batch are discarded
and not counted in DONE (R637). -/
def loadBlock (p : Packet) (data : List Byte) (b : BundleLoad) (s : State) : Verdict :=
  match takeParts p (data.length + 2) { s with bundle := some { b with buffer := b.buffer ++ data } } with
  | .fail x status detail at_ => endLoad status detail at_ x s
  | .more t => loadReply s t (bundleBytes t.bundle 0 0xFFFFFFFF)
  | .done t => match t.bundle with
    | none => loadReply s t (bundleBytes none 2 0xFFFFFFFF)
    | some x =>
      let y := { x with buffer := [] }
      if x.batch < x.batches then loadReply s { t with bundle := some y } (bundleBytes (some y) 1 0xFFFFFFFF)
      else loadReply s { t with bundle := none } (bundleBytes (some y) 2 0xFFFFFFFF)

/-- LOAD_BUNDLE_BLOCK. -/
def loadBundleBlock (p : Packet) (s : State) : Verdict :=
  let b := p.params
  let off := fieldAt b 0 4
  let len := fieldAt b 4 2
  let abort := bitOf (byteAt b 6) 0
  let data := (b.drop 8).take len
  badParam (if abort then len ≠ 0 || p.plen ≠ 2 else len < 4 || len > 224 || len % 4 ≠ 0 || p.plen ≠ 2 + len / 4) 4 <|
  badParam (byteAt b 6 > 1) 6 <|
  badParam (!zeroAt b 7 1) 7 <|
    match s.bundle with
    | some l =>
      if abort then endLoad stOk 0 0xFFFFFFFF l s
      else refuseIf (off = 0) stState 0x0A0700 <|
        refuseIf l.waiting stState 0x0A0900 <|
        refuseIf (off ≠ l.done + l.buffer.length) stState 0x0A0800 <| loadBlock p data l s
    | none =>
      refuseIf (abort || off ≠ 0) stState 0x0A0800 <|
      refuseIf (!(s.ctx 0).latent.isEmpty || (s.ctx 0).armed.isSome) stState 0x0A0700 <| loadBlock p data bundleNew s

/-- PLEN 2 + LEN ÷ 4 (R468). -/
def bundlePlen (n : Nat) : Bool := 2 ≤ n && n ≤ 58

/-- LOAD_BUNDLE_BLOCK: its row of the opcode index. -/
def specLoadBundleBlock : CmdSpec :=
  { opcode := 0x0A04, plen := bundlePlen, right := fromCtx0, needs := needsOf [2, 3, 4], readOnly := false }

/-- LOAD_BUNDLE_BLOCK (R463, R468). -/
def execLoadBundleBlock (p : Packet) (s : State) : Host.Outcome State Fault Refusal :=
  next (runCommand specLoadBundleBlock loadBundleBlock p s)

end Sys2Proof.Machine
end

