-- ==== Sys2Proof/Machine/HostRegs.lean ====
section
/-!
DEFINITION. BAR0 as it is read (R96 to R101, R108, R129, R130), the object window (R130 to R134), and the boot and readiness
registers (R62, R70, R99).
-/

namespace Sys2Proof.Machine

/-! ### Functions of the endpoint (R91, R103) -/

/-- The function of context `c` is present: the PF, or a VF that VF Enable and NumVFs name (R91). -/
def fnPresent (s : State) (c : Nat) : Bool := c == 0 || (s.host.vfEnable && c ≤ s.host.numVfs)

/-- BAR0 of a function can be reached: HOST is ready, the function is present and no function-level reset of it is under way
(R62, R91, R93). -/
def barOpen (s : State) (c : Nat) : Bool := s.isReady 1 && fnPresent s c && !(s.fn c).flr

/-- Writes to the QCFG_ and DBL_ ranges are taken: the context is neither departing, nor quiesced, nor held (R103). -/
def ringsOpen (s : State) (c : Nat) : Bool := barOpen s c && (s.ctx c).state == .present

/-! ### Identification, boot and readiness (R70, R99) -/

/-- The code of a slot in BOOT_SLOT (R70). -/
def slotCode : Option Slot → Nat
  | some .a => 0
  | some .b => 1
  | none => 3

/-- RESET_CAUSE (R70). -/
def causeCode : ResetCause → Nat
  | .powerOn => 0 | .brownOut => 1 | .warm => 2 | .resume => 3

/-- GEN_BOOT_STATUS (R70). -/
def bootStatus (s : State) : Nat :=
  causeCode s.aon.resetCause + 16 * slotCode s.aon.bootSlot + flag s.aon.proof 0x40 + flag s.aon.fallback 0x80
    + 0x100 * s.pos + 0x1000 * s.aon.bootResult

/-- STATE of SET_POWER_STATE (R79). -/
def powerCode : PowerState → Nat
  | .active => 0 | .standby => 1 | .retain => 2 | .off => 3

/-- The image in a slot (R31). -/
def imageOf (m : Mram) : Slot → Option Image
  | .a => m.slotA
  | .b => m.slotB

/-- The running image (R58). -/
def runningImage (s : State) : Option Image := s.update.running.bind (imageOf s.update.mram)

/-- IMAGE_STATE of GEN_FW_VER (R99). -/
def imageState (s : State) : Nat :=
  if s.aon.bootResult = 2 then 3
  else if s.update.running.isNone then 0
  else if s.aon.proof then 2 else 1

/-! ### PCIe identity (R90) -/

/-- What a function presents in PCIe configuration space (R90). The link's negotiated rate and width, ASPM and the programmed
payload and read-request sizes belong to the PCIe port, which has no command here. -/
structure PcieIdentity where
  vendor        : Nat
  device        : Nat
  revision      : Nat
  classCode     : Nat
  maxPayload    : Nat
  maxRead       : Nat
  bar0Bytes     : Nat
  totalVfs      : Nat
  firstVfOffset : Nat
  vfStride      : Nat
  vfDevice      : Nat
  msixVectors   : Nat
  flr           : Bool
  deriving DecidableEq, Repr

/-- Vendor ID (R90). -/
def vendorId : Nat := 0x1D5A

/-- Device ID of the function of context `c`: the physical function or a virtual one (R90, R91). -/
def deviceId (c : Nat) : Nat := if c = 0 then 0x2064 else 0x2065

/-- Revision ID (R90). -/
def revisionId : Nat := 0xB0

/-- The identities and capabilities of the function of context `c` (R90); the SR-IOV values are those of the physical
function. The configuration space itself is left out (log entry 69). -/
def pcieIdentity (c : Nat) : PcieIdentity :=
  { vendor := vendorId, device := deviceId c, revision := revisionId, classCode := 0x0C0900, maxPayload := 256, maxRead := 512,
    bar0Bytes := 0x10000, totalVfs := 63, firstVfOffset := 1, vfStride := 1, vfDevice := deviceId 1, msixVectors := 32,
    flr := true }

/-- GEN_ID: the vendor, and the part identifier, the same in the physical and the virtual functions (R90, R99). -/
def genId : Nat := vendorId + 0x10000 * deviceId 0

/-- GEN_REV: the silicon revision and the version of the BAR0 map (R90, R99). -/
def genRev : Nat := revisionId + 0x10000 * 1

/-- GEN_FW_VER (R99). -/
def genFwVer (s : State) : Nat :=
  (match runningImage s with | some i => i.fwVer % 0x1000000 | none => 0) + 0x1000000 * imageState s

/-- GEN_SELF of a function (R99). -/
def genSelf (s : State) (c : Nat) : Nat := c + 0x40 * s.pos + flag s.isMaster 0x200

/-- The GEN_ registers as a function reads them (R99). -/
def genRead (s : State) (c off : Nat) : Nat :=
  match off with
  | 0x00 => genId
  | 0x04 => genRev
  | 0x08 => genFwVer s
  | 0x0C => genSelf s c
  | 0x10 => s.aon.ready.toNat
  | 0x14 => bootStatus s
  | 0x18 => if c = 0 then s.aon.wake.toNat % 2 ^ 32 else 0
  | 0x1C => if c = 0 then s.aon.wake.toNat / 2 ^ 32 else 0
  | 0x20 => s.now % 2 ^ 32
  | 0x24 => (s.fn c).timeHi.toNat
  | 0x28 => if c = 0 then flag (faultnLow s) 1 else 0
  | _ => 0

/-- Bits [63:32] of the time base, as a read of GEN_TIME_LO latches them (R99). -/
def timeHiNow (s : State) : Word := BitVec.ofNat 32 (s.now / 2 ^ 32)

/-! ### The object window (R130 to R132) -/

/-- The object that a window selects, when its function's context owns it and it is enabled (R130). -/
def winObject (s : State) (c : Nat) : Option Mo :=
  let n := (s.fn c).win.mo
  match s.mo? n with
  | some o => if o.owner = c && o.en then some (shownMo s n o) else none
  | none => none

/-- ERR of WIN_STATUS (R130): what the object selected is. DEDUCED from its reset value 0x0: until WIN_SELECT has been written
since the function's reset nothing is selected, and ERR reads 0x0 (log entry 57). -/
def winErr (s : State) (c : Nat) : Nat :=
  if !(s.fn c).win.selected then 0
  else match s.mo? (s.fn c).win.mo with
    | none => 2
    | some o => if o.owner ≠ c then 1 else if o.en then 0 else 3

/-- VALID of WIN_STATUS (R130). -/
def winValid (s : State) (c : Nat) : Bool :=
  match winObject s c with
  | some o => o.full
  | none => false

/-- The payload length of the frame a window shows (R130). -/
def winLen (s : State) (c : Nat) : Nat :=
  match winObject s c with
  | some o => if o.full then (frontOf o).record.len else 0
  | none => 0

/-- WIN_LAST (R130). -/
def winLast (s : State) (c : Nat) : Nat := 0x1C + 4 * ceilDiv (winLen s c) 4

/-- WIN_STATUS (R130). -/
def winStatus (s : State) (c : Nat) : Nat :=
  let w := (s.fn c).win
  flag (winValid s c) 1 + flag w.locked 2 + flag w.torn 4 + 16 * winErr s c + 0x100 * winLen s c

/-- The image of the front buffer from offset 0x8000 on, up to WIN_LAST (R130, R284). -/
def winBytes (s : State) (c : Nat) : List Byte :=
  match winObject s c with
  | some o =>
    if o.full then
      let b := frontOf o
      padTo (winLast s c + 4) (recBytes b.record (virtChan s c b.record.channel) b.record.lost ++ b.data.take (winLen s c))
    else []
  | none => []

/-- `count` words of the window from byte `rel` on; what lies beyond WIN_LAST reads 0 (R132). -/
def winWords (s : State) (c rel count : Nat) : List Nat :=
  (List.range count).map fun i => fieldAt (padTo (rel + 4 * count) (winBytes s c)) (rel + 4 * i) 4

/-! ### The other blocks of BAR0 -/

/-- QCFG_STATUS (R108). -/
def qcfgStatus (r : Ring) : Nat :=
  flag r.active 1 + flag r.stopping 2 + flag r.held 4 + flag r.dmaErr 8 + 16 * r.cfgErr

/-- A register of ring block `k` (R108). -/
def qcfgRead (r : Ring) (k off : Nat) : Nat :=
  match off with
  | 0x00 => r.baseLo.toNat
  | 0x04 => r.baseHi.toNat
  | 0x08 => r.dataLo.toNat
  | 0x0C => r.dataHi.toNat
  | 0x10 => r.ctrl.toNat
  | 0x14 => qcfgStatus r
  | 0x18 => if hostProduced k then r.limit.toNat else r.prod.toNat
  | _ => 0

/-- CTX_STATUS (R101): the write-back area is in use while WB_EN is 1. -/
def ctxStatus (s : State) (c : Nat) : Nat :=
  c + flag ((s.ctx c).state == .departing || (s.ctx c).state == .held) 0x40 + flag (wbEnabled (s.fn c)) 0x80

/-- The CTX_, IRQ_ and WIN_ registers of a function (R101, R129, R130). -/
def blockRead (s : State) (c off : Nat) : Nat :=
  let n := s.fn c
  match off with
  | 0x100 => ctxStatus s c
  | 0x104 => n.wbLo.toNat
  | 0x108 => n.wbHi.toNat
  | 0x10C => n.control.toNat
  | 0x110 => n.dblDiscards
  | 0x114 => n.dmaErrors
  | 0x118 => n.evtLost
  | 0x200 => n.irqCause.toNat
  | 0x204 => n.irqMask.toNat
  | 0x208 => n.irqVector.toNat
  | 0x4000 => n.win.mo
  | 0x4004 => winStatus s c
  | 0x4008 => winLast s c
  | 0x400C => n.win.timeout
  | _ => 0

/-- The word of BAR0 at offset `off` of function `c` as it stands (R96). Doorbells read 0 (R114); an offset the map does not
name reads 0. -/
def barRead (s : State) (c off : Nat) : Nat :=
  if off % 4 ≠ 0 then 0
  else if off < 0x100 then genRead s c off
  else if 0x1000 ≤ off && off < 0x1480 then qcfgRead (s.ring c ((off - 0x1000) / 32)) ((off - 0x1000) / 32) (off % 32)
  else if 0xE000 ≤ off && off < 0xE200 then ((mget (s.fn c).msix ((off - 0xE000) / 4)).getD 0).toNat
  else blockRead s c off

end Sys2Proof.Machine
end

