-- ==== Sys2Proof/Machine/HostRings.lean ====
section
/-!
DEFINITION. Rings: enable, disable, stop bath, DMA errors, doorbells and credits (R102, R103, R108 to R118, R338, R339).
-/

namespace Sys2Proof.Machine

/-! ### Kinds of ring (R104) -/

/-- A TX ring. -/
def isTxRing (k : Nat) : Bool := 4 ≤ k && k ≤ 19

/-- An RX ring. -/
def isRxRing (k : Nat) : Bool := 20 ≤ k && k ≤ 35

/-- A ring that is enabled or in its stop bath. -/
def ringUp (r : Ring) : Bool := r.active || r.stopping

/-- ACTIVE, STOPPING or HELD (R108 CFG_ERR 0x5). -/
def ringBusy (r : Ring) : Bool := r.active || r.stopping || r.held

/-- The bits of QCFG_CTRL that a field holds (R108); the others are reserved and read 0 (R11). -/
def ctrlMask : Word := 0xFF1F7FFD

/-- EN, IRQ_EN and HOLDOFF, which may be written on a running ring (R108). -/
def ctrlLive : Word := 0xFF000801

/-! ### Checks of an enable (R108, R109) -/

/-- Largest payload that a filter, running or written and still to develop, delivers to RX ring `k` of context `c`; transmit
completions carry none (R108, R323). -/
def slotNeed (s : State) (c k : Nat) : Nat :=
  (s.filters.entries ++ (allWaiting s).filterMap fun w => match w.2 with
    | .filter n f => some (n, f)
    | _ => none).foldl (fun n e =>
    if e.2.owner = c && e.2.toRing && e.2.ring = k then max n (fmtsPayload e.2.fmts) else n) 0

/-- The lowest failing code of the CFG_ERR table for an enable of ring `k` (R108, R109); 0 when every check passes.
CMPL_RING is judged where CMPL_EN makes it name a ring. -/
def enableFault (s : State) (c k : Nat) : Nat :=
  let r := s.ring c k
  if ringSizeCode r > 10 then 1
  else if isRxRing k && ringSlotCode r > 5 then 2
  else if isRxRing k && ringSlotBytes r < slotNeed s c (k - 20) then 3
  else if isTxRing k && ringCmplEn r && !(s.ring c (20 + ringCmplRing r)).active then 4
  else if k = 3 then 6
  else if !wbEnabled (s.fn c) then 7
  else if !s.isReady 3 then 8
  else 0

/-- A ring enable or write is refused: CFG_ERR, the cause RING_CFG and event 0x0112 (R109, R126). -/
def refuseRing (c k err : Nat) (s : State) : State :=
  let s := s.modRing c k fun r => { r with cfgErr := err }
  raiseEvent c 0x0112 (le 1 k ++ le 1 err) (raiseIrq c 2 s)

/-! ### Pending depths and shares (R338) -/

/-- A pending share applies. -/
def applyShare (c k : Nat) (s : State) : State :=
  s.modRing c (4 + k) fun r => { r with share := r.sharePend.getD r.share, sharePend := none }

/-- Every ring of a range is at rest. -/
def ringsRest (s : State) (c : Nat) (l : List Nat) : Bool := l.all fun k => !ringUp (s.ring c k)

/-- The pending depth and share that an enable of ring `k` applies (R338): every pending TX share with a TXQ depth change, else
the ring's own. -/
def applyDepths (c k : Nat) (s : State) : State :=
  let modDepth := fun f (s : State) => s.modCq c fun q => { q with depths := f q.pend q.depths }
  if k = 0 || k = 1 then
    if ringsRest s c [0, 1] then modDepth (fun p d => { d with places := p.places }) s else s
  else if k = 2 then modDepth (fun p d => { d with evt := p.evt }) s
  else if isTxRing k then
    let q := s.cq c
    if q.depths.tx = q.pend.tx then applyShare c (k - 4) s
    else if ringsRest s c ((List.range 16).map (4 + ·)) then
      forRange 16 (applyShare c) (modDepth (fun p d => { d with tx := p.tx }) s)
    else s
  else if ringsRest s c ((List.range 16).map (20 + ·)) then modDepth (fun p d => { d with rx := p.rx }) s
  else s

/-! ### Credits (R118, R339) -/

/-- K of R339: places of the command queue still in use. -/
def placesUsed (s : State) (c : Fin 64) : Nat :=
  let cmd := s.ring c.val 0
  let rpl := s.ring c.val 1
  (cmd.prod - cmd.fetched).toNat + (s.cq c.val).cmdq.length + (s.engine.taken.filter fun p => p.source == .ctx c).length
    + (s.engine.late.filter fun r => r.dest == .ctx c).length + (s.cq c.val).rplq.length + (rpl.prod - rpl.cons).toNat

/-- The CMD limit at the edge at which both rings are ACTIVE again: P + min(PLACES, sizes) − K (R339). -/
def cmdLimitAt (s : State) (c : Fin 64) : BitVec 32 :=
  (s.ring c.val 0).prod + BitVec.ofNat 32 (cmdPlaces s c.val) - BitVec.ofNat 32 (placesUsed s c)

/-- The limit of TX ring `k` (R339). -/
def txLimitAt (s : State) (c k : Nat) : BitVec 32 := (s.ring c k).intake + BitVec.ofNat 32 (txPlaces s c (k - 4))

/-! ### Enable, disable, stop bath (R109 to R113) -/

/-- Every index of the ring is 0 and the ring is ACTIVE (R109). -/
def ringStarts (r : Ring) : Ring :=
  { r with
    active := true, stopping := false, held := false, ctrl := r.ctrl ||| 1, prod := 0, cons := 0, limit := 0, fetched := 0,
    intake := 0, txLost := [], dmaStop := false }

/-- EN reads back 0 (R109). -/
def enLow (r : Ring) : Ring := { r with ctrl := r.ctrl &&& ~~~1#32, held := false }

/-- The CMD ring's limit where an enable makes both rings run (R339). -/
def startCredit (c : Fin 64) (k : Nat) (s : State) : State :=
  if !((s.ring c.val 0).active && (s.ring c.val 1).active) then s
  else if k = 0 then s.modRing c.val 0 fun r => { r with limit := cmdLimitAt s c }
  else if k = 1 then setLimit c.val 0 (cmdLimitAt s c) s
  else s

/-- An enable of ring `k`: the checks, then the ring runs and its initial index is written back (R109). -/
def enableRing (c : Fin 64) (k : Nat) (s : State) : State :=
  let err := enableFault s c.val k
  if err ≠ 0 then refuseRing c.val k err (s.modRing c.val k enLow)
  else
    let s := (applyDepths c.val k s).modRing c.val k ringStarts
    let s := if isTxRing k then s.modRing c.val k fun r => { r with limit := txLimitAt s c.val k } else s
    let s := if k = 1 then writeBack c.val 1 0 s else s
    let s := startCredit c k s
    if k = 1 then s else writeBack c.val k (s.ring c.val k).limit s

/-- Replies still queued for an RPL ring that stops are dropped; R353 gives the RPLQ no counter of lost packets (R110). -/
def dropReplies (c : Nat) (s : State) : State :=
  fcAt (.rplq, c) 0 true (s.modCq c fun q => { q with rplq := [] })

/-- Events still queued for an EVT ring that stops are dropped and counted as lost (R110, R125, R335). -/
def dropEvents (c : Nat) (s : State) : State :=
  let n := (s.cq c).evtq.length
  if n = 0 then s
  else
    let s := s.modCq c fun q => { q with evtq := [], evtStat := { q.evtStat with noring := satAdd 32 q.evtStat.noring n } }
    let s := s.modFn c fun f => { f with evtLost := satAdd 16 f.evtLost n, evtLostNext := satAdd 16 f.evtLostNext n }
    raiseIrq c 4 (fcAt (.evtq, c) 0 true s)

/-- Items still queued for RX ring `k` (0 to 15) are dropped, and counted in NORING and in the ring's LOST (R110, R335). -/
def dropItems (c k : Nat) (s : State) : State :=
  let n := ((s.cq c).rxq.filter fun i => i.ring == k).length
  if n = 0 then s
  else
    let s := s.modCq c fun q => { q with
      rxq := q.rxq.filter fun i => i.ring != k
      rxStat := { q.rxStat with noring := satAdd 32 q.rxStat.noring n } }
    let s := fcAt (.rxq, c) (qFill s (.rxq, c)) true s
    s.modRing c (20 + k) fun r => { r with lost := satAdd 16 r.lost n }

/-- Items still queued for a ZB64-produced ring that stops are dropped and counted as lost (R110, R335). -/
def dropQueued (c k : Nat) (s : State) : State :=
  if k = 1 then dropReplies c s
  else if k = 2 then dropEvents c s
  else if isRxRing k then dropItems c (k - 20) s
  else s

/-- An ACTIVE ring's stop bath starts (R110). -/
def stopRing (c k : Nat) (dma : Bool) (s : State) : State :=
  dropQueued c k (s.modRing c k fun r => { r with
    active := false, stopping := true, ctrl := r.ctrl &&& ~~~1#32, dmaStop := dma })

/-- EN written 1 on a ring that may be enabled, is stopping or carries DMA_ERR (R109, R111, R113). -/
def writeEnable (c : Fin 64) (k : Nat) (s : State) : State :=
  let r := s.ring c.val k
  if r.active || r.held then s
  else if r.stopping || r.dmaErr then s.modRing c.val k fun r => { r with held := true, ctrl := r.ctrl ||| 1 }
  else enableRing c k s

/-- EN written 0 (R110, R111, R113). -/
def writeDisable (c k : Nat) (s : State) : State :=
  let r := s.ring c k
  if r.held then s.modRing c k enLow
  else if r.active then stopRing c k false s
  else s.modRing c k enLow

/-- A write of QCFG_CTRL: refused whole when it changes a field that a running ring holds fast, else taken with its EN
(R108, R109). -/
def writeCtrl (c : Fin 64) (k : Nat) (v : Word) (s : State) : State :=
  let r := s.ring c.val k
  if ringBusy r && (v ^^^ r.ctrl) &&& ctrlMask &&& ~~~ctrlLive != 0 then refuseRing c.val k 5 s
  else
    let en := r.ctrl &&& 1
    let s := s.modRing c.val k fun r => { r with ctrl := (v &&& ctrlMask &&& ~~~1#32) ||| en }
    if v.getLsbD 0 then writeEnable c k s else writeDisable c.val k s

/-- RING_ENABLE: QCFG_CTRL is written with EN 1 (R103, R109, R111, R113). -/
def execRingEnable (c : Fin 64) (k : Fin 36) (ctrl : Word) (s : State) : Host.Outcome State Fault Refusal :=
  if !ringsOpen s c || !ctrl.getLsbD 0 then next s else next (writeCtrl c k.val ctrl s)

/-- RING_DISABLE: QCFG_CTRL is written with EN 0 (R103, R110, R111, R113). -/
def execRingDisable (c : Fin 64) (k : Fin 36) (ctrl : Word) (s : State) : Host.Outcome State Fault Refusal :=
  if !ringsOpen s c || ctrl.getLsbD 0 then next s else next (writeCtrl c k.val ctrl s)

/-- What the stop bath of a ring waits for: on the CMD ring, the commands fetched and their replies (R110). -/
def bathDone (s : State) (c : Fin 64) (k : Nat) : Bool :=
  if k = 0 then
    (s.cq c.val).cmdq.isEmpty && !(sourceBusy s (.ctx c)) && !(s.engine.late.any fun r => r.dest == .ctx c)
      && ((s.cq c.val).rplq.isEmpty || !(s.ring c.val 1).active)
  else true

/-- RING_STOP_BATH_END (R110, R111, R113). A held enable runs only while the context is present: a quiesced or departing
context's rings get no credit (R103, R157, R159). -/
def execRingStopBathEnd (c : Fin 64) (k : Fin 36) (s : State) : Host.Outcome State Fault Refusal :=
  let r := s.ring c k
  let ended := fun s => if r.held && !r.dmaErr && (s.ctx c.val).state == .present then
      enableRing c k.val (s.modRing c k fun r => { r with held := false }) else s
  if !s.isReady 1 || !r.stopping || !bathDone s c k.val then next s
  else
    let s := raiseIrq c.val 7 (s.modRing c k fun r => { r with stopping := false, dmaStop := false })
    let s := raiseEvent c.val 0x0111 (le 1 k.val ++ le 1 (flag r.dmaStop 1)) s
    next (ended s)

/-- A write of 1 to QCFG_STATUS.DMA_ERR (R113). -/
def clearDmaErr (c : Fin 64) (k : Nat) (s : State) : State :=
  let r := s.ring c.val k
  if !r.dmaErr then s
  else
    let s := s.modRing c.val k fun r => { r with dmaErr := false }
    if r.held && !r.stopping then enableRing c k (s.modRing c.val k fun r => { r with held := false }) else s

/-- DMA_ERR_CLEAR (R113). -/
def execDmaErrClear (c : Fin 64) (k : Fin 36) (s : State) : Host.Outcome State Fault Refusal :=
  if !ringsOpen s c then next s else next (clearDmaErr c k.val s)

/-- The completion with RESULT 0x6 that a DMA read error of a TX ring writes (R112): the descriptor's values where the
descriptor was read. -/
def dmaErrorRecord (s : State) (entry : Option (List Byte)) : Rec :=
  match entry with
  | some e => openFrame s { recZero with
      ty := 2, result := 6, mo := fieldAt e 0 2 % 0x4000, moValid := true, len := fieldAt e 2 2 % 0x1000, tag := fieldAt e 4 4 }
  | none => { recZero with ty := 2, result := 6 }

/-- DMA_READ_ERROR: `entry` is the descriptor when only its payload could not be read (R112). DEDUCED from R111: an enable that was
held when the error struck a stopping ring is dropped, as by EN written 0 (log entry 58). -/
def execDmaReadError (c : Fin 64) (k : Fin 36) (entry : Option (List Byte)) (s : State) :
    Host.Outcome State Fault Refusal :=
  let r := s.ring c k
  if !s.isReady 1 || !hostProduced k.val || !ringUp r || r.prod == r.fetched then next s
  else
    let s := s.modFn c.val fun n => { n with dmaErrors := inc16 n.dmaErrors }
    let s := raiseIrq c.val 3 (s.modRing c k fun r =>
      { r with dmaErr := true, held := false, fetched := r.fetched + 1, intake := r.intake + 1 })
    let s := if r.active then stopRing c.val k.val true s else s.modRing c k fun r => { r with dmaStop := true }
    next (if isTxRing k.val then completeTx c.val (some (k.val - 4)) false true (dmaErrorRecord s entry) (drawn 4 s) else s)

/-! ### Doorbells (R114 to R117) -/

/-- A doorbell write is discarded (R117, R126). -/
def discardDoorbell (c k : Nat) (v from_ bound : Word) (s : State) : State :=
  let s := raiseIrq c 1 (s.modFn c fun n => { n with dblDiscards := inc16 n.dblDiscards })
  raiseEvent c 0x0110 (le 1 k ++ zeros 3 ++ le 4 v.toNat ++ le 4 from_.toNat ++ le 4 bound.toNat) s

/-- A write of doorbell `k` (R114 to R117). Each RPL entry the host consumes is a credit of the CMD ring again (R339). -/
def doorbell (c k : Nat) (v : Word) (s : State) : State :=
  let r := s.ring c k
  if hostProduced k then
    if r.active && (v - r.prod) ≤ (r.limit - r.prod) then
      let s := s.modRing c k fun r => { r with prod := v }
      if isTxRing k then countHwm (.txq, c) s else s
    else discardDoorbell c k v r.prod r.limit s
  else if r.active && (v - r.cons) ≤ (r.prod - r.cons) then
    let s := s.modRing c k fun r => { r with cons := v }
    if k = 1 && (s.ring c 0).active then setLimit c 0 ((s.ring c 0).limit + (v - r.cons)) s else s
  else discardDoorbell c k v r.cons r.prod s

/-- PRODUCER_DOORBELL_WRITE: the doorbell of a host-produced ring (R103, R115). DESIGN CHOICE: a write discarded by R103 is not
one that R117 discards, so it counts nowhere and raises nothing (log entry 59). -/
def execProducerDoorbellWrite (c : Fin 64) (k : Fin 36) (value : Word) (s : State) : Host.Outcome State Fault Refusal :=
  if !ringsOpen s c || !hostProduced k.val then next s else next (doorbell c.val k.val value s)

/-- CONSUMER_DOORBELL_WRITE: the doorbell of a ZB64-produced ring, and that of the reserved position, which is never ACTIVE
(R103, R116, R117). -/
def execConsumerDoorbellWrite (c : Fin 64) (k : Fin 36) (value : Word) (s : State) : Host.Outcome State Fault Refusal :=
  if !ringsOpen s c || hostProduced k.val then next s else next (doorbell c.val k.val value s)

/-- MSIX_HOLDOFF_END: the advances gathered in HOLDOFF send one message (R128). -/
def execMsixHoldoffEnd (c : Fin 64) (k : Fin 36) (s : State) : Host.Outcome State Fault Refusal :=
  let r := s.ring c k
  match r.gathered, r.lastMsg with
  | true, some t =>
    if !s.isReady 1 then next s
    else
      let s := reachClk (t + ringHoldoff r * usNs) s
      let s := s.modRing c k fun r => { r with lastMsg := some s.time.clk, gathered := false }
      next (if ringIrqEn r then sendMsix c.val (ringVector r) s else s)
  | _, _ => next s

end Sys2Proof.Machine
end

