-- ==== Sys2Proof/Machine/HostCmds.lean ====
section
/-!
DEFINITION. Register writes and reads with effects of their own, the object window and its read lock (R86, R96 to R102,
R129 to R133).
-/

namespace Sys2Proof.Machine

/-! ### Single registers -/

/-- Causes are cleared by writing 1 (R129). -/
def clearIrq (c : Nat) (v : Word) (s : State) : State :=
  settleIrq c (s.modFn c fun n => { n with irqCause := n.irqCause &&& ~~~ (v.setWidth 8) })

/-- IRQ_CAUSE_CLEAR (R129). -/
def execIrqCauseClear (c : Fin 64) (value : Word) (s : State) : Host.Outcome State Fault Refusal :=
  if !barOpen s c then next s else next (clearIrq c.val value s)

/-- IRQ_MASK is written; a set cause that is unmasked signals (R129). -/
def writeIrqMask (c : Nat) (v : Word) (s : State) : State :=
  settleIrq c (s.modFn c fun n => { n with irqMask := v &&& 0xFF })

/-- IRQ_MASK_WRITE (R129). -/
def execIrqMaskWrite (c : Fin 64) (value : Word) (s : State) : Host.Outcome State Fault Refusal :=
  if !barOpen s c then next s else next (writeIrqMask c.val value s)

/-- Wake bits are cleared by writing 1 (R86, R100). -/
def clearWake (high : Bool) (v : Word) (s : State) : State :=
  let bits : BitVec 64 := if high then v.setWidth 64 <<< 32 else v.setWidth 64
  { s with aon := { s.aon with wake := s.aon.wake &&& ~~~bits } }

/-- WAKE_STATUS_CLEAR: from CTX0 through BAR0, or from the safety port (R86, R99, R141). -/
def execWakeStatusClear (bySafety high : Bool) (value : Word) (s : State) : Host.Outcome State Fault Refusal :=
  if (if bySafety then s.isReady 0 else barOpen s 0) then next (clearWake high value s) else next s

/-- GEN_TIME_LO_READ (R99). -/
def execGenTimeLoRead (c : Fin 64) (s : State) : Host.Outcome State Fault Refusal :=
  if !barOpen s c then next s
  else next ((s.modFn c.val fun n => { n with timeHi := timeHiNow s }).emit (.read c.val [barRead s c.val 0x20]))

/-- An RC counter is cleared by its read (R10, R101). -/
def clearCounter (c off : Nat) (s : State) : State :=
  s.modFn c fun n => { n with
    dblDiscards := if off = 0x110 then 0 else n.dblDiscards
    dmaErrors := if off = 0x114 then 0 else n.dmaErrors
    evtLost := if off = 0x118 then 0 else n.evtLost }

/-- What a read of the register at `off` does: GEN_TIME_LO latches GEN_TIME_HI, an RC counter clears (R99, R101). -/
def readEffect (c off : Nat) (s : State) : State :=
  if off = 0x20 then s.modFn c fun n => { n with timeHi := timeHiNow s } else clearCounter c off s

/-- `count` words of BAR0 from `off` on, read in turn: each word as it stands, then its effect (R97, R99, R101). -/
def barWords (c : Nat) : Nat → Nat → State → List Nat × State
  | 0, _, s => ([], s)
  | n + 1, off, s =>
    let r := barWords c n (off + 4) (readEffect c off s)
    (barRead s c off :: r.1, r.2)

/-- A read outside the window data that the ZB64 accepts: one aligned DWORD, or two aligned on 8 bytes (R97; in
the MSI-X structures, which R97 leaves out, the model's choice: log entry 70). -/
def regReadOk (offset count : Nat) : Bool :=
  (count == 1 && offset % 4 == 0) || (count == 2 && offset % 8 == 0)

/-! ### The object window -/

/-- WIN_SELECT is written: a lock held ends with TORN set (R132). -/
def writeSelect (c : Nat) (v : Word) (s : State) : State :=
  (releaseWindow c true s).modFn c fun n => { n with win := { n.win with mo := v.toNat % 0x4000, selected := true } }

/-- WIN_SELECT_WRITE (R130, R132). -/
def execWinSelectWrite (c : Fin 64) (value : Word) (s : State) : Host.Outcome State Fault Refusal :=
  if !barOpen s c then next s else next (writeSelect c.val value s)

/-- A read of the window data that the ZB64 accepts (R98). -/
def winReadOk (offset count : Nat) : Bool :=
  offset % 4 == 0 && 0x8000 ≤ offset && offset + 4 * count ≤ 0x8820 && 1 ≤ count && count ≤ 16
    && offset / 64 == (offset + 4 * count - 1) / 64

/-- The read covers the word at byte `at_` of the window data. -/
def covers (offset count at_ : Nat) : Bool := offset ≤ 0x8000 + at_ && 0x8000 + at_ < offset + 4 * count

/-- The uncorrectable word of the front buffer that a window read meets, at its byte offset in the buffer: one that this read
finds (`found`), or one found before while the lock held the frame (R300). -/
def winBad (s : State) (c offset count : Nat) (found : Option Nat) : Option Nat :=
  match winObject s c with
  | some o => if o.full then badInRead o found (offset - 0x8000) (min (offset - 0x8000 + 4 * count) (winLast s c + 4)) else none
  | none => none

/-- The answer to a window read: poisoned where it meets an uncorrectable word (R300). -/
def winAnswer (s : State) (c offset count : Nat) (found : Option Nat) : Out :=
  if (winBad s c offset count found).isSome then .poisoned c else .read c (winWords s c (offset - 0x8000) count)

/-- A word that this read found is reported like every finding (R36, R37, R300). -/
def winFinding (c offset count : Nat) (found : Option Nat) (s : State) : State :=
  match winBad s c offset count found, s.mo? (s.fn c).win.mo with
  | some x, some o => if foundNow o x then foundInFront (s.fn c).win.mo x s else s
  | _, _ => s

/-- The window of function `c` takes the read lock of its object (R131); a lock already held goes on. -/
def takeLock (c : Nat) (s : State) : State :=
  let w := (s.fn c).win
  if w.locked then s
  else (s.modMo w.mo fun o => { o with winLock := true }).modFn c fun n => { n with
    win := { n.win with locked := true, deadline := s.time.clk + n.win.timeout * usNs } }

/-- A served read of the window data: the first word clears TORN and takes the lock, the last word releases it (R130 to R132,
R300). `found` is the byte offset in the front buffer of a word that this read finds uncorrectable. -/
def windowRead (c offset count : Nat) (found : Option Nat) (s : State) : State :=
  let first := covers offset count 0
  let s := if first then s.modFn c fun n => { n with win := { n.win with torn := false } } else s
  let out := winAnswer s c offset count found
  let last := covers offset count (winLast s c)
  if !winValid s c then (if last then releaseWindow c false s else s).emit out
  else
    let s := winFinding c offset count found (if first then takeLock c s else s)
    (if last then releaseWindow c false s else s).emit out

/-- A read of BAR0 that the host makes: of the window data, or of one or two registers (R97 to R99, R101, R131, R132). A read that
the ZB64 does not accept has no answer and changes nothing (log entry 70). -/
def hostRead (c offset count : Nat) (found : Option Nat) (s : State) : State :=
  if 0x8000 ≤ offset && offset < 0x8820 then
    if winReadOk offset count then windowRead c offset count found s else s
  else if regReadOk offset count then
    let r := barWords c count offset s
    r.2.emit (.read c r.1)
  else s

/-- CLEAR_ON_READ_COUNTER_READ: a read of BAR0, and in it CTX_DBL_DISCARDS, CTX_DMA_ERRORS and CTX_EVT_LOST clear (R10, R97,
R98, R101). The table has no row for the other reads of BAR0; this one makes them. -/
def execClearOnReadCounterRead (c : Fin 64) (offset count : Nat) (found : Option Nat) (s : State) :
    Host.Outcome State Fault Refusal :=
  if barOpen s c then next (hostRead c.val offset count found s) else next s

/-- WINDOW_LOCK_TAKE: a served read that covers offset 0x8000 (R98, R131, R133). -/
def execWindowLockTake (c : Fin 64) (offset count : Nat) (found : Option Nat) (s : State) : Host.Outcome State Fault Refusal :=
  if !barOpen s c || !winReadOk offset count || !covers offset count 0 then next s
  else next (windowRead c.val offset count found s)

/-- WINDOW_LOCK_RELEASE: a served read that covers the offset of WIN_LAST and not 0x8000 (R98, R131, R291). -/
def execWindowLockRelease (c : Fin 64) (offset count : Nat) (found : Option Nat) (s : State) : Host.Outcome State Fault Refusal :=
  if !barOpen s c || !winReadOk offset count || covers offset count 0 || !covers offset count (winLast s c) then next s
  else next (windowRead c.val offset count found s)

/-- WINDOW_LOCK_TIMEOUT (R132). -/
def execWindowLockTimeout (c : Fin 64) (s : State) : Host.Outcome State Fault Refusal :=
  let w := (s.fn c).win
  if !w.locked then next s else next (releaseWindow c.val true (reachClk w.deadline s))

/-! ### Register writes (R96, R97) -/

/-- A write into a ring block (R108, R109, R113). -/
def writeQcfg (c : Fin 64) (k off : Nat) (v : Word) (s : State) : State :=
  if off = 0x10 then writeCtrl c k v s
  else if off = 0x14 then (if v.getLsbD 3 then clearDmaErr c k s else s)
  else if off ≥ 0x10 then s
  else if ringBusy (s.ring c.val k) then refuseRing c.val k 5 s
  else s.modRing c.val k fun r => { r with
    baseLo := if off = 0x00 then v &&& ~~~0x3F#32 else r.baseLo
    baseHi := if off = 0x04 then v else r.baseHi
    dataLo := if off = 0x08 then v &&& ~~~0x3F#32 else r.dataLo
    dataHi := if off = 0x0C then v else r.dataHi }

/-- A write of a CTX_, IRQ_ or WIN_ register (R101, R102, R129, R130). Read-only registers take nothing. -/
def writeBlock (c : Fin 64) (off : Nat) (v : Word) (s : State) : State :=
  match off with
  | 0x018 => if c.val = 0 then clearWake false v s else s
  | 0x01C => if c.val = 0 then clearWake true v s else s
  | 0x104 => if wbEnabled (s.fn c.val) then s else s.modFn c.val fun n => { n with wbLo := v &&& ~~~0xFF#32 }
  | 0x108 => if wbEnabled (s.fn c.val) then s else s.modFn c.val fun n => { n with wbHi := v }
  | 0x10C => s.modFn c.val fun n => { n with control := v &&& 1 }
  | 0x200 => clearIrq c.val v s
  | 0x204 => writeIrqMask c.val v s
  | 0x208 => s.modFn c.val fun n => { n with irqVector := v &&& 0x1F }
  | 0x4000 => writeSelect c.val v s
  | 0x400C => s.modFn c.val fun n => { n with
      win := { n.win with timeout := if v.toNat % 0x10000 = 0 then 100 else v.toNat % 0x10000 } }
  | _ => s

/-- One word is written to BAR0 (R96, R98, R103). An offset the map does not name takes nothing. -/
def writeWord (c : Fin 64) (off : Nat) (v : Word) (s : State) : State :=
  if 0x1000 ≤ off && off < 0x1480 then
    if ringsOpen s c.val then writeQcfg c ((off - 0x1000) / 32) (off % 32) v s else s
  else if 0x2000 ≤ off && off < 0x2090 then
    if ringsOpen s c.val then doorbell c.val ((off - 0x2000) / 4) v s else s
  else if 0xE000 ≤ off && off < 0xE200 then
    s.modFn c.val fun n => { n with
      msix := if v = 0 then mdel n.msix ((off - 0xE000) / 4) else mset n.msix ((off - 0xE000) / 4) v }
  else writeBlock c off v s

/-- A write of one aligned word or of two aligned on 8 bytes (R97; in the MSI-X structures the model's choice: log entry 70). -/
def writeOk (offset : Nat) (words : List Word) (allBytes : Bool) : Bool :=
  allBytes && ((words.length == 1 && offset % 4 == 0) || (words.length == 2 && offset % 8 == 0))

/-- REGISTER_WRITE (R96 to R98, R101 to R103, R108, R129, R130). -/
def execRegisterWrite (c : Fin 64) (offset : Nat) (words : List Word) (allBytes : Bool) (s : State) :
    Host.Outcome State Fault Refusal :=
  if !barOpen s c || !writeOk offset words allBytes then next s
  else next (forRange words.length (fun i s => writeWord c (offset + 4 * i) (words.getD i 0) s) s)

end Sys2Proof.Machine
end

