-- ==== Sys2Proof/Machine/HostDma.lean ====
section
/-!
DEFINITION. HOST DMA: entries written to the reply, event and receive rings, command entries and transmit descriptors
fetched (R66, R104 to R107, R119 to R125, R335).
-/

namespace Sys2Proof.Machine

/-- HOST DMA serves the context's rings: HOST is ready, CORE has its clock (R17), and the context is present or departing (R157, R159). -/
def dmaOpen (s : State) (c : Nat) : Bool := s.isReady 1 && !pllLost s .core && reachable s c

/-- A free entry is left in a ZB64-produced ring (R123). -/
def ringHasRoom (r : Ring) : Bool := (r.prod - r.cons).toNat < ringSize r

/-- An entry of `n` bytes goes into the next slot of ring `k`, and the producer index advances (R106, R107). -/
def putEntry (c k n : Nat) (bytes : List Byte) (s : State) : State :=
  let r := s.ring c k
  let s := s.emit (.dma c (ringBase r + n * slotOf r r.prod) (padTo n bytes))
  let s := s.modRing c k fun r => { r with prod := r.prod + 1 }
  ringAdvance c k (r.prod + 1) s

/-! ### Replies and events -/

/-- The oldest reply of the RPLQ goes to the RPL ring (R105, R118). -/
def putReply (c : Nat) (s : State) : State :=
  match (s.cq c).rplq with
  | r :: rest =>
    if (s.ring c 1).active && ringHasRoom (s.ring c 1) then
      putEntry c 1 256 (replyBytes r) (s.modCq c fun q => { q with rplq := rest })
    else s
  | [] => s

/-- The oldest reply of the RPLQ would go to the RPL ring now. -/
def replyGoes (s : State) (c : Nat) : Bool :=
  !(s.cq c).rplq.isEmpty && (s.ring c 1).active && ringHasRoom (s.ring c 1)

/-- That reply has a parity error on its way to HOST: it is dropped and counted (R21, R23). -/
def loseReply (c : Nat) (s : State) : State :=
  if replyGoes s c then parityDrop 8 (s.modCq c fun q => { q with rplq := q.rplq.drop 1 }) else s

/-- REPLY_RING_WRITE (R21, R105). -/
def execReplyRingWrite (c : Fin 64) (parity : Bool) (s : State) : Host.Outcome State Fault Refusal :=
  if dmaOpen s c then next (if parity then loseReply c.val s else putReply c.val s) else next s

/-- The oldest event of the EVTQ goes to the EVT ring with the count of events lost before it (R124, R125). -/
def putEvent (c : Nat) (s : State) : State :=
  match (s.cq c).evtq with
  | e :: rest =>
    if (s.ring c 2).active && ringHasRoom (s.ring c 2) then
      let bytes := eventBytes e (s.fn c).evtLostNext
      let s := s.modCq c fun q => { q with evtq := rest }
      putEntry c 2 32 bytes (s.modFn c fun n => { n with evtLostNext := 0 })
    else s
  | [] => s

/-- The oldest event of the EVTQ would go to the EVT ring now. -/
def eventGoes (s : State) (c : Nat) : Bool :=
  !(s.cq c).evtq.isEmpty && (s.ring c 2).active && ringHasRoom (s.ring c 2)

/-- That event has a parity error on its way to HOST: it is dropped and counted (R21, R23). -/
def loseEvent (c : Nat) (s : State) : State :=
  if eventGoes s c then parityDrop 14 (s.modCq c fun q => { q with evtq := q.evtq.drop 1 }) else s

/-- EVENT_RING_WRITE (R21, R124, R125). -/
def execEventRingWrite (c : Fin 64) (parity : Bool) (s : State) : Host.Outcome State Fault Refusal :=
  if dmaOpen s c then next (if parity then loseEvent c.val s else putEvent c.val s) else next s

/-! ### Receive rings -/

/-- The CHANNEL of an entry: the context's number for the channel, and 0 in the completion of a descriptor that was never read (R112,
R162). -/
def recChannel (s : State) (c : Nat) (r : Rec) : Nat := if r.ty == 2 && !r.moValid then 0 else virtChan s c r.channel

/-- The oldest item of the RXQ goes to its RX ring: the payload to the data slot, then the entry; or it is dropped, in NORING
when the ring is not ACTIVE and in RINGFULL when it has no free entry (R121 to R123, R335). -/
def putRx (c : Nat) (s : State) : State :=
  match (s.cq c).rxq with
  | i :: rest =>
    let s := s.modCq c fun q => { q with rxq := rest }
    let r := s.ring c (20 + i.ring)
    if !r.active then ringLost c i.ring (modStat (.rxq, c) (fun t => { t with noring := inc32 t.noring }) s)
    else if !ringHasRoom r then ringLost c i.ring (modStat (.rxq, c) (fun t => { t with ringfull := inc32 t.ringfull }) s)
    else
      let s := if i.data.isEmpty then s
        else s.emit (.dma c (ringDataBase r + slotOf r r.prod * ringSlotBytes r) i.data)
      let s := s.modRing c (20 + i.ring) fun r => { r with lost := 0 }
      putEntry c (20 + i.ring) 32 (recBytes i.record (recChannel s c i.record) r.lost) s
  | [] => s

/-- The item at the head of an RXQ names a ring that is not active: it is dropped, whatever HOST does (R55, R335). -/
def rxHeadless (s : State) (c : Nat) : Bool :=
  !pllLost s .core && reachable s c && match (s.cq c).rxq with
    | i :: _ => !(s.ring c (20 + i.ring)).active
    | [] => false

/-- The item at the head of the RXQ would cross to HOST now: its ring runs and has an entry free. -/
def rxGoes (s : State) (c : Nat) : Bool :=
  match (s.cq c).rxq with
  | i :: _ => (s.ring c (20 + i.ring)).active && ringHasRoom (s.ring c (20 + i.ring))
  | [] => false

/-- That item has a parity error on its way to HOST: it is dropped and counted (R21, R23). -/
def loseRx (c : Nat) (s : State) : State :=
  match (s.cq c).rxq with
  | i :: _ => parityDrop 1 (ringLost c i.ring (s.modCq c fun q => { q with rxq := q.rxq.drop 1 }))
  | [] => s

/-- RX_RING_WRITE (R21, R121 to R123, R335). -/
def execRxRingWrite (c : Fin 64) (parity : Bool) (s : State) : Host.Outcome State Fault Refusal :=
  if dmaOpen s c.val || rxHeadless s c.val then next (if parity && rxGoes s c.val then loseRx c.val s else putRx c.val s)
  else next s

/-! ### Transmit descriptors (R119, R120) -/

/-- A TX ring entry (R119). -/
structure Descriptor where
  mo     : Nat
  len    : Nat
  inline_ : Bool
  cmpl   : Bool
  tag    : Nat
  data   : List Byte

/-- The descriptor in an entry of 32 bytes (R119). -/
def descriptorOf (e : List Byte) : Descriptor :=
  let ctrl := fieldAt e 2 2
  { mo := fieldAt e 0 2 % 0x4000, len := bitsOf ctrl 0 12, inline_ := bitOf ctrl 12, cmpl := bitOf ctrl 13, tag := fieldAt e 4 4,
    data := padTo 24 (e.drop 8) }

/-- RESULT of a descriptor that is refused; none when it is accepted (R120, R297). -/
def descriptorFault (s : State) (c : Nat) (d : Descriptor) : Option Nat :=
  match s.mo? d.mo with
  | none => some 3
  | some o =>
    if o.owner ≠ c || !o.tx || !o.en || o.feed then some 3
    else if !lenOk (moFormat o) d.len || d.len > o.maxlen || (d.inline_ && d.len > 24) then some 4
    else none

/-- The record of a frame that a descriptor submits (R284). -/
def submitRecord (o : Mo) (d : Descriptor) : Rec :=
  { ty := 2, result := 0, hdr := moHdr o, channel := o.channel, len := d.len, filter := 0, stamp := 0, mo := d.mo, moValid := true,
    lost := 0, tag := d.tag }

/-- The completion of a refused descriptor (R120, R121). -/
def refusedRecord (s : State) (d : Descriptor) (result : Nat) : Rec :=
  openFrame s { recZero with ty := 2, result := result, len := d.len, mo := d.mo, moValid := true, tag := d.tag }

/-- One descriptor of TX ring `k` is taken in: committed to its object, or refused with its completion (R119, R120, R294). -/
def takeDescriptor (c k : Nat) (d : Descriptor) (payload : List Byte) (s : State) : State :=
  match descriptorFault s c d with
  | some result => completeTx c (some k) d.cmpl true (refusedRecord s d result) (drawn 4 s)
  | none => match s.mo? d.mo with
    | none => s
    | some o =>
      let data := padTo d.len (if d.inline_ then d.data else payload)
      txCommit d.mo { record := submitRecord o d, data := data, cmpl := d.cmpl, ring := some k } (stampNow s) s

/-- Posted descriptors that the TXQ has dropped are passed over at the head of TX ring `k` (R349); as with a parity drop, their
places return (log entry 63). -/
def skipLost (c k : Nat) : Nat → State → State
  | 0, s => s
  | n + 1, s =>
    let r := s.ring c (4 + k)
    if r.txLost.contains r.fetched then
      skipLost c k n (s.modRing c (4 + k) fun r => { r with
        fetched := r.fetched + 1, intake := r.intake + 1, txLost := r.txLost.filter (· != r.fetched) })
    else s

/-- DESCRIPTOR_LANDING: the next posted descriptor of TX ring `k` and its payload; with a parity error on the way to CORE the
descriptor is dropped and counted (R21, R26, R119, R120, R339). -/
def execDescriptorLanding (c : Fin 64) (k : Fin 16) (entry payload : List Byte) (parity : Bool) (s : State) :
    Host.Outcome State Fault Refusal :=
  let s := skipLost c k (s.ring c (4 + k.val)).txLost.length s
  let r := s.ring c (4 + k.val)
  if !s.isReady 1 || !s.isReady 3 || (s.ctx c).state != .present || !r.active || r.prod == r.fetched then next s
  else
    let s := countPacket (.txq, c.val) s
    let s := s.modRing c (4 + k.val) fun r => { r with fetched := r.fetched + 1, intake := r.intake + 1 }
    let s := if parity then parityDrop 4 s else takeDescriptor c.val k.val (descriptorOf entry) payload s
    next (if (s.ring c (4 + k.val)).active then setLimit c.val (4 + k.val) (txLimitAt s c.val (4 + k.val)) s else s)

/-! ### Command entries (R66, R105) -/

/-- A command that the mask ROM takes in recovery (R60). -/
def romTakes (s : State) (p : Packet) : Bool :=
  s.aon.bootResult == 2 && p.opcode / 256 == 0x0E && (p.source == .sp || p.source == .ctx 0)

/-- The hardware's answer to a command while CMD is 0 (R66). -/
def hardwareReply (p : Packet) (s : State) : State := deliverReply
  { dest := p.source, opcode := p.opcode, tag := p.tag, status := stNotReady, position := s.pos, detail := 2,
    body := refusalBody p s } s

/-- A packet arrives from its port: into its queue, or answered in hardware while CMD is 0 (R42, R60, R66). -/
def arrivePacket (p : Packet) (s : State) : State :=
  if s.isReady 2 || romTakes s p then enqueue p s else hardwareReply p s

/-- COMMAND_ENTRY_FETCHED: the next posted entry of the CMD ring (R95, R105, R110); with a parity error on the way to CORE it is
dropped and counted (R21, R23). -/
def execCommandEntryFetched (c : Fin 64) (entry : List Byte) (parity : Bool) (s : State) : Host.Outcome State Fault Refusal :=
  let r := s.ring c 0
  if !s.isReady 1 || (s.ctx c).state != .present || !r.active || r.prod == r.fetched then next s
  else
    let s := s.modRing c 0 fun r => { r with fetched := r.fetched + 1, cons := r.cons + 1 }
    next (if parity then parityDrop 8 s else arrivePacket (packetOf (.ctx c) (padTo 256 entry)) s)

/-! ### Opcodes that the index does not list (R156) -/

/-- The opcodes of the index (R156). -/
def definedOpcodes : List Nat :=
  (List.range 8).map (0x0101 + ·) ++ (List.range 5).map (0x0201 + ·) ++ (List.range 4).map (0x0301 + ·)
    ++ (List.range 8).map (0x0401 + ·) ++ (List.range 4).map (0x0501 + ·) ++ (List.range 4).map (0x0601 + ·)
    ++ (List.range 3).map (0x0701 + ·) ++ (List.range 7).map (0x0801 + ·) ++ (List.range 8).map (0x0901 + ·)
    ++ (List.range 7).map (0x0A01 + ·) ++ (List.range 6).map (0x0B01 + ·) ++ (List.range 9).map (0x0C01 + ·)
    ++ (List.range 7).map (0x0D01 + ·) ++ (List.range 8).map (0x0E01 + ·) ++ (List.range 3).map (0x0F01 + ·)

/-- The verdict on an opcode that is not defined: BAD_OPCODE before every other check, but for the hardware's answer while CMD
is 0 (R66, R151, R156). -/
def badOpcode (p : Packet) (s : State) : Verdict :=
  if !s.isReady 2 && !romTakes s p then .refuse stNotReady 2 else .refuse stOpcode 0

/-- UNDEFINED_OPCODE_COMMAND: taken in turn like any command, and refused (R151 to R153, R156). -/
def execUndefinedOpcodeCommand (p : Packet) (s : State) : Host.Outcome State Fault Refusal :=
  if !sourceLive s p.source || definedOpcodes.contains p.opcode then next s
  else if (waitingOf s p.source).contains p then
    if s.engine.pause.isSome || nextSource s != some p.source || !atHead s p then next s
    else let s := takeFrom p.source (popSource p.source s); next (conclude p s (badOpcode p s))
  else if s.engine.pause.isSome || !(waitingOf s p.source).isEmpty || nextSource (enqueue p s) != some p.source then
    next (enqueue p s)
  else let s := takeFrom p.source (passQueue p.source s); next (conclude p s (badOpcode p s))

end Sys2Proof.Machine
end

