-- ==== Sys2Proof/Machine/Contexts.lean ====
section
/-!
DEFINITION. Arrival and departure of guest contexts (R91, R93, R95, R157 to R161) and the commands of group 0x02.
-/

namespace Sys2Proof.Machine

/-! ### Rings and registers of a function that is reset (R93, R95) -/

/-- A ring disabled with every index 0; the TX share developed for it stays in force (R55, R338). -/
def ringDiscarded (r : Ring) : Ring := { ringReset with share := r.share, sharePend := r.sharePend, lost := r.lost }

/-- The rings of context `c` are discarded: what was queued for them is dropped, commands fetched are discarded without a
reply, and the reply of a command in execution will be discarded (R95, R110, R335). -/
def discardRings (c : Fin 64) (s : State) : State :=
  let s := forRange 16 (fun k s => dropQueued c.val (20 + k) s) s
  let s := s.modFn c.val fun n => { n with rings := vmap n.rings ringDiscarded }
  let s := s.modCq c.val fun q => { q with
    cmdq := [], rplq := [], evtq := [], evtStat := { q.evtStat with noring := satAdd 32 q.evtStat.noring q.evtq.length } }
  settleActivate { s with engine := { s.engine with
      taken := s.engine.taken.filter fun p => p.source != .ctx c
      late := s.engine.late.filter fun r => r.dest != .ctx c } }

/-- The BAR0 registers of a function return to their reset values and its rings are discarded; a window lock that it struck
(`torn`) ended with TORN set (R93, R95, R132). -/
def resetFn (c : Fin 64) (torn : Bool) (s : State) : State :=
  let s := discardRings c (releaseWindow c.val true s)
  s.modFn c.val fun n => { fnReset with rings := n.rings, flr := n.flr, win := { fnReset.win with torn := torn } }

/-! ### Departure (R159) -/

/-- Every stream and foreign declaration of context `c`, and the admitted routes that name one, are withdrawn (R159 step 4,
R420). -/
def withdrawAll (c : Nat) (s : State) : State :=
  let own := (s.records.filter fun r => r.2.decl.ctx == c).map (·.1)
  let named := s.routes.filter fun r => (r.2.inPos == s.pos && own.contains r.2.inRec) || own.contains r.2.outRec
  let s := forEach named (fun r s => raiseEvent 0 0x0905
    (le 2 r.2.inRec ++ le 2 r.2.outRec ++ le 1 c ++ le 1 r.2.inPos) { s with routes := mdel s.routes r.1 }) s
  forEach own (fun n s => developWithdraw n (.ctx 0) s) s

/-- Every pending transmit object of context `c` is cancelled (R159 step 3). -/
def cancelAll (c : Nat) (s : State) : State :=
  forEach (s.mos.map (·.1)) (fun mo s => match s.mo? mo with
    | some o => if o.owner = c && o.tx then cancelObject mo s else s
    | none => s) s

/-- The stop bath of context `c` starts; with `keep` its rings survive (R159). -/
def startDeparture (c : Fin 64) (keep : Bool) (s : State) : State :=
  let s := s.modCtx c.val fun x => { x with state := .departing, keep := keep }
  let s := raiseEvent 0 0x0202 (le 1 c.val) s
  let s := if keep then s.modCq c.val fun q => { q with cmdq := [] } else discardRings c s
  let s := releaseWindow c.val true s
  let s := cancelHeldDecls c.val (match (s.ctx c.val).armed with | some a => a.changes | none => []) s
  let s := dropLatent c.val (s.modCtx c.val fun x => { x with armed := none })
  departLoads c.val (withdrawAll c.val (cancelAll c.val s))

/-- An object of the context has a frame on the bus, which its cancellation waits for (R159 step 3, R219). -/
def departureWaits (s : State) (c : Nat) : Bool := s.mos.any fun m => m.2.owner == c && m.2.latched

/-- Filters, objects, queues and check-value units of context `c` are released, and the records whose last frame has gone
(R159 step 6). -/
def releaseAll (c : Nat) (s : State) : State :=
  let s := releaseWindow c true s
  let s := forEach (s.filters.entries.filter fun e => e.2.owner == c) (fun e s => { s with filters := removeEntry e.1 s.filters }) s
  let s := forEach (s.records.filter fun r => r.2.decl.ctx == c) (fun r s =>
    streamBathEvent 0x09F0 r.1 (.ctx 0) { s with records := mdel s.records r.1 }) s
  let s := forEach (s.mos.filter fun m => m.2.owner == c) (fun m s =>
    { s with mos := mdel s.mos m.1, schedules := mdel s.schedules m.1 }) s
  let s := forRange 32 (fun u s => if (s.cvu u).params.isSome && (s.cvu u).owner = c then endCvuBath c u none (some (.ctx 0)) s else s) s
  (forRange 16 (dropItems c) s).modCq c fun q => { q with cmdq := [] }

/-- What is queued for the surviving rings of a quiesced context is written, event 0x0203 last (R159 step 7). -/
def lastWrites (c : Fin 64) (s : State) : State :=
  let s := raiseEvent c.val 0x0203 (le 1 c.val) s
  let s := forRange (s.cq c.val).rplq.length (fun _ s => putReply c.val s) s
  let s := forRange (s.cq c.val).evtq.length (fun _ s => putEvent c.val s) s
  discardTaken c (s.modCq c.val fun q => { q with rplq := [], evtq := [] })
where
  /-- A command that has not replied by the end of the bath has nowhere to reply. -/
  discardTaken (c : Fin 64) (s : State) : State :=
    { s with engine := { s.engine with taken := s.engine.taken.filter fun p => p.source != .ctx c } }

/-- Context `c` arrives with the settings last made for it and no resource (R157). -/
def arriveCtx (c : Nat) (s : State) : State :=
  let s := s.modCtx c fun x => { x with state := .present, keep := false, latent := [], armed := none, seq := 0, switched := none }
  raiseEvent 0 0x0201 (le 1 c) s

/-- CONTEXT_STOP_BATH_END (R157, R159, R160). -/
def execContextStopBathEnd (c : Fin 64) (s : State) : Host.Outcome State Fault Refusal :=
  let x := s.ctx c
  let held := x.state == .held
  if !(held || x.state == .departing) || departureWaits s c then next s
  else
    let s := releaseAll c.val s
    let s := if x.keep then lastWrites c s else s
    let s := raiseEvent 0 0x0203 (le 1 c.val) s
    let s := s.modCtx c.val fun y => { y with state := if x.keep then .quiesced else .absent, keep := false }
    next (if held then arriveCtx c.val s else s)

/-! ### Functions that come and go (R91, R93, R157, R160) -/

/-- The function of guest `c` is gone: its registers are reset and its context departs (R91, R159). -/
def fnGone (c : Fin 64) (s : State) : State :=
  let torn := (s.fn c).win.locked
  let s := match (s.ctx c.val).state with
    | .present => startDeparture c false s
    | .departing => s.modCtx c.val fun x => { x with keep := false }
    | .held => s.modCtx c.val fun x => { x with state := .departing, keep := false }
    | .quiesced => s.modCtx c.val fun x => { x with state := .absent }
    | .absent => s
  resetFn c torn (s.modFn c.val fun n => { n with flr := false })

/-- The function of guest `c` has become present: its context arrives, or its arrival is held (R157, R160). -/
def fnCame (c : Nat) (s : State) : State :=
  match (s.ctx c).state with
  | .absent => arriveCtx c s
  | .departing => s.modCtx c fun x => { x with state := .held }
  | _ => s

/-- VF Enable and NumVFs take new values: functions come and go (R91). -/
def setVfs (enable : Bool) (n : Nat) (s : State) : State :=
  let was := fnPresent s
  let s := { s with host := { s.host with vfEnable := enable, numVfs := n } }
  forEach (List.finRange 64) (fun c s =>
    if c.val = 0 then s
    else if was c && !fnPresent s c then fnGone c s
    else if !was c && fnPresent s c then fnCame c s
    else s) s

/-- VF_ENABLE (R91, R157). -/
def execVfEnable (numVfs : Fin 64) (s : State) : Host.Outcome State Fault Refusal :=
  if s.isReady 1 then next (setVfs true numVfs.val s) else next s

/-- VF_DISABLE (R91, R159). -/
def execVfDisable (s : State) : Host.Outcome State Fault Refusal :=
  if s.isReady 1 then next (setVfs false s.host.numVfs s) else next s

/-- VF_FLR: the registers are reset, the rings discarded and the stop bath starts (R93). -/
def execVfFlr (c : Fin 64) (s : State) : Host.Outcome State Fault Refusal :=
  if c.val = 0 || !s.isReady 1 || !fnPresent s c then next s
  else
    let torn := (s.fn c).win.locked
    let s := match (s.ctx c).state with
      | .present => startDeparture c false s
      | .departing => s.modCtx c.val fun x => { x with keep := false }
      | .held => s.modCtx c.val fun x => { x with state := .departing, keep := false }
      | _ => s
    next (resetFn c torn (s.modFn c.val fun n => { n with flr := true }))

/-- VF_FLR_END: the context arrives, or its arrival is held (R157, R160). -/
def execVfFlrEnd (c : Fin 64) (s : State) : Host.Outcome State Fault Refusal :=
  if !(s.fn c).flr then next s
  else
    let s := s.modFn c.val fun n => { n with flr := false }
    match (s.ctx c).state with
    | .quiesced => next (arriveCtx c.val s)
    | _ => next (fnCame c.val s)

/-! ### GET_CONTEXT (R167) -/

/-- STATE of GET_CONTEXT (R167). -/
def ctxCode : CtxState → Nat
  | .absent => 0 | .present => 1 | .departing => 2 | .held => 3 | .quiesced => 4

/-- The channel map as GET_CONTEXT shows it; CTX0 addresses physical channels, with the rights of R163. -/
def mapBytes (s : State) (c : Nat) : List Byte :=
  if c = 0 then (List.range 64).flatMap fun v => le 1 (v + 64 * chanRight s 0 v)
  else (s.ctx c).map.toList.flatMap fun e => le 1 (e.channel % 64 + 64 * (e.right % 4))

/-- The load mask of a context; CTX0 may set every load (R156). -/
def maskBytes (s : State) (c : Nat) : List Byte := le 12 (if c = 0 then 2 ^ 96 - 1 else (s.ctx c).loadMask.toNat)

/-- The result of GET_CONTEXT, also the record of contact-sheet section 0x0201 (R167, R189). -/
def contextRecord (s : State) (c : Nat) : List Byte :=
  let x := s.ctx c
  le 1 (ctxCode x.state) ++ le 1 x.crit ++ le 2 x.rights.toNat
    ++ ([1, 2, 3, 4, 5, 6].flatMap fun k => le 4 (quotaOf s c k) ++ le 4 (useOf s c k))
    ++ maskBytes s c ++ mapBytes s c

/-- The context that parameter byte 0 names, with three reserved bytes after it (R167). -/
def withCtx (p : Packet) (k : Nat → Verdict) : Verdict :=
  let x := byteAt p.params 0
  badParam (x ≥ 64) 0 <| badParam (!zeroAt p.params 1 3) 1 <| k x

/-- GET_CONTEXT. -/
def getContext (p : Packet) (s : State) : Verdict := withCtx p fun x => okBody s (contextRecord s x)

/-- GET_CONTEXT: its row of the opcode index. -/
def specGetContext : CmdSpec :=
  { opcode := 0x0201, plen := plenIs 1, right := fromSelf, needs := needsOf [2, 1, 3], readOnly := true }

/-- GET_CONTEXT (R167). -/
def execGetContext (p : Packet) (s : State) : Host.Outcome State Fault Refusal :=
  next (runCommand specGetContext getContext p s)

/-! ### SET_CONTEXT_QUOTA (R166, R168, R279) -/

/-- Pages of context `c` that hold no cell of an object, running or reserved, highest first (R279). -/
def sparePages (s : State) (c : Nat) : List Nat :=
  let used := usedRuns s
  ((pagesOf s.pool c).filter fun n => !(used.any (runsMeet (n * pageCells, pageCells)))).reverse

/-- Pages that no context holds, lowest first (R279). -/
def freePages (s : State) : List Nat := (List.range poolPages).filter fun n => s.pool.pages.getD n none == none

/-- The listed pages change hands. -/
def givePages (l : List Nat) (dest : Option Nat) (s : State) : State :=
  { s with pool := { s.pool with pages := forEach l (fun n v => lmod v n fun _ => dest) s.pool.pages } }

/-- A quota of payload cells is held as whole pages (R279). -/
def movePages (c q : Nat) (s : State) : State :=
  let have_ := (pagesOf s.pool c).length
  if q ≥ have_ then givePages ((freePages s).take (q - have_)) (some c) s
  else givePages ((sparePages s c).take (have_ - q)) none s

/-- Fewer spare pages than a reduction needs (R279). -/
def pagesShort (s : State) (c q : Nat) : Bool :=
  let have_ := (pagesOf s.pool c).length
  q < have_ && (sparePages s c).length < have_ - q

/-- The quotas of all contexts would exceed the device's total (R166). -/
def quotaOver (s : State) (c code q : Nat) : Bool :=
  total ((List.range 64).map fun x => if x = c then q else quotaOf s x code) > deviceTotal code

/-- SET_CONTEXT_QUOTA. -/
def setContextQuota (p : Packet) (s : State) : Verdict :=
  let c := byteAt p.params 0
  let code := byteAt p.params 1
  let q := fieldAt p.params 4 4
  badParam (c ≥ 64) 0 <|
  badParam (code = 0 || code > 6) 1 <|
  badParam (!zeroAt p.params 2 2) 2 <|
  badParam (q > (if code = 6 then 4096 else deviceTotal code) || (code = 2 && q % pageCells ≠ 0)) 4 <|
  refuseIf (q < useOf s c code) stState 0x020600 <|
  refuseIf (code = 2 && pagesShort s c (q / pageCells)) stState 0x050100 <|
  refuseIf (quotaOver s c code q) stResource code <|
    let s := s.modCtx c fun x => { x with quotas := tmod x.quotas (code - 1) fun _ => q }
    okDone (if code = 2 then movePages c (q / pageCells) s else s)

/-- SET_CONTEXT_QUOTA: its row of the opcode index. -/
def specSetContextQuota : CmdSpec :=
  { opcode := 0x0202, plen := plenIs 2, right := fromCtx0, needs := needsOf [2, 1, 3], readOnly := false }

/-- SET_CONTEXT_QUOTA (R168). -/
def execSetContextQuota (p : Packet) (s : State) : Host.Outcome State Fault Refusal :=
  next (runCommand specSetContextQuota setContextQuota p s)

/-! ### SET_CONTEXT_CHANNELS (R162 to R164, R169) -/

/-- The map in 64 bytes. -/
def mapOf (b : List Byte) : Vector MapEntry 64 :=
  vgen 64 fun v => { channel := byteAt b v % 64, right := byteAt b v / 64 }

/-- The right that what a context has on a channel uses (R163, R164). -/
def rightUsed (s : State) (c ch : Nat) : Nat :=
  let objs := s.mos.foldl (fun r m =>
    if m.2.owner = c && m.2.bound && m.2.channel = ch then max r (if m.2.tx then 2 else 1) else r) 0
  let fils := if s.filters.entries.any fun e => e.2.owner == c && e.2.channel == ch then 1 else 0
  let recs := s.records.foldl (fun r x =>
    if x.2.decl.ctx = c && x.2.decl.channel = ch then max r (if x.2.decl.foreign then 3 else 2) else r) 0
  max objs (max fils recs)

/-- The first failing case of R164 for the state with the new map. -/
def mapFault (s v : State) (c : Nat) : Option Nat :=
  let chans := List.range 64
  let owns := fun (t : State) (g ch : Nat) => (t.ctx g).map.toList.any fun e => e.right == 3 && e.channel == ch
  if chans.any fun ch => owns v c ch && (List.range 64).any fun g => g != 0 && g != c && owns v g ch then some 0x020300
  else if chans.any fun ch => chanRight v c ch < rightUsed s c ch then some 0x020400
  else if chans.any fun ch => chanOwner s ch != chanOwner v ch && (s.chan ch).state != .disabled then some 0x020500
  else none

/-- A guest's number in parameter byte 0 (R169, R170). -/
def badGuest (p : Packet) : Bool := byteAt p.params 0 = 0 || byteAt p.params 0 ≥ 64

/-- SET_CONTEXT_CHANNELS. -/
def setContextChannels (p : Packet) (s : State) : Verdict :=
  let c := byteAt p.params 0
  badParam (badGuest p) 0 <|
  badParam (!zeroAt p.params 1 3) 1 <|
    let v := s.modCtx c fun x => { x with map := mapOf (p.params.drop 4) }
    refuseIf ((heldDecls s).any fun d => d.ctx == c && chanRight v c d.channel < (if d.foreign then 3 else 2)) stState 0x000300 <|
    match mapFault s v c with
    | some d => .refuse stState d
    | none => okDone v

/-- SET_CONTEXT_CHANNELS: its row of the opcode index. -/
def specSetContextChannels : CmdSpec :=
  { opcode := 0x0203, plen := plenIs 17, right := fromCtx0, needs := needsOf [2, 1, 3], readOnly := false }

/-- SET_CONTEXT_CHANNELS (R164, R169). -/
def execSetContextChannels (p : Packet) (s : State) : Host.Outcome State Fault Refusal :=
  next (runCommand specSetContextChannels setContextChannels p s)

/-! ### SET_CONTEXT_RIGHTS (R165, R170) -/

/-- Rights of R165 that a context's resources use: streams, shutter schedules, check-value units. -/
def rightsUsed (s : State) (c : Nat) : List Nat :=
  (if s.records.any fun r => !r.2.decl.foreign && r.2.decl.ctx == c then [0] else [])
    ++ (if s.schedules.any fun x => !x.2.isOver && (match s.mo? x.1 with | some o => o.owner == c | none => false) then [1] else [])
    ++ (if s.cvus.toList.any fun u => u.params.isSome && u.owner == c then [2] else [])

/-- An admitted stream of the context has a criticality above `crit` (R170). -/
def critUsed (s : State) (c crit : Nat) : Bool :=
  s.records.any fun r => !r.2.decl.foreign && r.2.decl.ctx == c && r.2.decl.crit > crit

/-- A held DECLARE_STREAM of the context would lose its criticality or the right it was taken under (R181). -/
def heldNeedsRights (s : State) (c crit rights : Nat) : Bool :=
  (heldDecls s).any fun d => d.ctx == c && !d.foreign && (d.crit > crit || (c != 0 && !rights.testBit 0))

/-- SET_CONTEXT_RIGHTS. -/
def setContextRights (p : Packet) (s : State) : Verdict :=
  let c := byteAt p.params 0
  let crit := byteAt p.params 1
  let rights := fieldAt p.params 2 2
  badParam (badGuest p) 0 <|
  badParam (crit > 3) 1 <|
  badParam (rights ≥ 64) 2 <|
  refuseIf (heldNeedsRights s c crit rights) stState 0x000300 <|
  refuseIf ((rightsUsed s c).any fun n => !rights.testBit n) stState 0x020700 <|
  refuseIf (critUsed s c crit) stState 0x020800 <|
    okDone (s.modCtx c fun x => { x with
      crit := crit, rights := BitVec.ofNat 16 rights, loadMask := BitVec.ofNat 96 (fieldAt p.params 4 12) })

/-- SET_CONTEXT_RIGHTS: its row of the opcode index. -/
def specSetContextRights : CmdSpec :=
  { opcode := 0x0204, plen := plenIs 4, right := fromCtx0, needs := needsOf [2, 1, 3], readOnly := false }

/-- SET_CONTEXT_RIGHTS (R170). -/
def execSetContextRights (p : Packet) (s : State) : Host.Outcome State Fault Refusal :=
  next (runCommand specSetContextRights setContextRights p s)

/-! ### QUIESCE_CONTEXT (R159, R161) -/

/-- QUIESCE_CONTEXT. -/
def quiesceContext (p : Packet) (s : State) : Verdict :=
  withCtx p fun x =>
    refuseIf (x = 0) stState 0x020100 <|
    refuseIf ((s.ctx x).state != .present) stState 0x020200 <|
      okDone (startDeparture ⟨x % 64, Nat.mod_lt _ (by decide)⟩ true s)

/-- QUIESCE_CONTEXT: its row of the opcode index. -/
def specQuiesceContext : CmdSpec :=
  { opcode := 0x0205, plen := plenIs 1, right := fromCtx0, needs := needsOf [2, 1, 3], readOnly := false }

/-- QUIESCE_CONTEXT (R161). -/
def execQuiesceContext (p : Packet) (s : State) : Host.Outcome State Fault Refusal :=
  next (runCommand specQuiesceContext quiesceContext p s)

end Sys2Proof.Machine
end

