-- ==== Sys2Proof/Machine/LinkOps.lean ====
section
/-!
DEFINITION. Talrax links and the stack table: entering and leaving UP, lost devices and lost targets, the upstream port, relays
and the intake of link frames (R534 to R549, R553 to R556).
-/

namespace Sys2Proof.Machine

/-- The port that is not `p`. -/
def otherPort : Port → Port
  | .a => .b | .b => .a

/-- PORT as commands and events write it (R561). -/
def portNumber : Port → Nat
  | .a => 1 | .b => 2

/-- STATE codes of a link record (R561). -/
def linkCode : LinkState → Nat
  | .disabled => 0 | .training => 1 | .up => 2 | .conflict => 3 | .stopping => 4

/-- A device of the stack table. -/
def devOf (s : State) (d : Nat) : Device := tget s.stack.devices d deviceReset

/-- A device of the stack table changed by `f`. -/
def modDev (d : Nat) (f : Device → Device) (s : State) : State :=
  { s with stack := { s.stack with devices := tmod s.stack.devices d f } }

/-- Hops to a device through a port; 0xFF when it is not reached that way (R561). -/
def hopsBy (d : Device) : Port → Nat
  | .a => d.hopsA | .b => d.hopsB

/-- The hops to a device through a port become `n`. -/
def setHops (p : Port) (n : Nat) (d : Device) : Device :=
  match p with
  | .a => { d with hopsA := n }
  | .b => { d with hopsB := n }

/-- The ZB64 ends its update session, with event 0x0E01 naming the reason (R576, R595). -/
def endSession (reason : Nat) (s : State) : State :=
  match s.update.session with
  | none => s
  | some x =>
    raiseEvent 0 0x0E01 (le 1 reason ++ le 1 (sourceCode x.owner) ++ zeros 2 ++ le 4 x.id)
      { s with update := { s.update with session := none } }

/-! ### The stack table (R535, R542, R544) -/

/-- Present devices, this one among them (R561). -/
def deviceCount (s : State) : Nat := ((List.range 8).filter fun d => d == s.pos || (devOf s d).present).length

/-- TOPOLOGY (R561). -/
def topologyCode (s : State) : Nat := if s.stack.ring then 2 else 1

/-- The routes that cross a link are figured again (R553). -/
def refigureCross (s : State) : State := if (crossChans s).isEmpty then s else refigure (crossChans s) s

/-- A stack table that is not the one of `before` moves the routes across the links (R553). -/
def tableMoved (before s : State) : State := if s.stack.seq = before.stack.seq then s else refigureCross s

/-- The topology has become a ring or a chain: event 0x0D03, and every route across a link is figured again (R544, R553). -/
def setRing (ring : Bool) (s : State) : State :=
  if s.stack.ring = ring then s
  else
    let s := { s with stack := { s.stack with ring := ring, seq := (s.stack.seq + 1) % 2 ^ 32 } }
    refigureCross (raiseEvent 0 0x0D03 (le 1 (topologyCode s) ++ le 1 (deviceCount s)) s)

/-- Result bytes of a forwarded command that is answered without its target: LOAD_BUNDLE_BLOCK has some with every status (R468). -/
def lostBody (p : Packet) : List Byte := if p.opcode = 0x0A04 then bundleBytes none 3 0xFFFFFFFF else []

/-- The path to device `d` is lost: commands sent on to it are answered by the master (R554). -/
def targetLost (d : Nat) (s : State) : State :=
  let lost := s.stack.forwarded.filter fun f => f.position == d
  let s := { s with stack := { s.stack with forwarded := s.stack.forwarded.filter fun f => f.position != d } }
  forEach lost (fun f s => replyTaken f.packet stState 0x0D0400 (lostBody f.packet) s) s

/-- Device `d` has left the stack: event 0x0D02, outstanding commands answered, what had come of a command or reply dropped, and a
session of a lost master ends (R542, R544, R554, R576). -/
def deviceLeft (d : Nat) (s : State) : State :=
  let s := modDev d (fun _ => deviceReset) s
  let s := { s with stack := { s.stack with seq := (s.stack.seq + 1) % 2 ^ 32, partials := mdel s.stack.partials d } }
  let s := raiseEvent 0 0x0D02 (le 1 d ++ zeros 1 ++ [0xFF, 0xFF]) s
  let s := targetLost d s
  if d = 0 && (s.update.session.any fun x => x.owner == .master) then endSession 4 s else s

/-- Device `d` stands in the table as `new`; SEQ counts the change (R561). -/
def tableEntry (d : Nat) (new : Device) (s : State) : State :=
  let old := devOf s d
  let s := modDev d (fun _ => new) s
  if { new with silent := old.silent, heardA := old.heardA, heardB := old.heardB } = old then s
  else { s with stack := { s.stack with seq := (s.stack.seq + 1) % 2 ^ 32 } }

/-- Event 0x0D02 of a device that was not present before and is now (R544). -/
def joined0D02 (d : Nat) (old new : Device) (s : State) : State :=
  if old.present || !new.present then s
  else raiseEvent 0 0x0D02 (le 1 d ++ le 1 1 ++ le 1 new.hopsA ++ le 1 new.hopsB) s

/-- Device `d` stands in the table as `new`; an entry that is new joins with event 0x0D02 (R542, R544). -/
def enterDevice (d : Nat) (new : Device) (s : State) : State := joined0D02 d (devOf s d) new (tableEntry d new s)

/-! ### Upstream port (R545, R549) -/

/-- Hops to the master through a port that is UP. -/
def masterHops (s : State) (p : Port) : Option Nat :=
  let h := hopsBy (devOf s 0) p
  if (s.link p).state == .up && h != 0xFF then some h else none

/-- The upstream port of a follower: fewer hops to the master, LINKA when equal (R545). -/
def upstreamOf (s : State) : Option Port :=
  if s.isMaster then none
  else match masterHops s .a, masterHops s .b with
    | some x, some y => if x ≤ y then some .a else some .b
    | some _, none => some .a
    | none, some _ => some .b
    | none, none => none

/-- The upstream port is chosen again. -/
def chooseUpstream (s : State) : State := { s with stack := { s.stack with upstream := upstreamOf s } }

/-- The upstream port after a port has gone down: a change to the other port makes no step (R549). -/
def changeUpstream (s : State) : State :=
  let s' := chooseUpstream s
  match s'.stack.upstream with
  | some p => if s.stack.upstream = s'.stack.upstream then s' else s'.modLink p fun l => { l with fresh := false }
  | none => s'

/-! ### Entering and leaving UP (R536, R537, R561, R566) -/

/-- Devices reached through a port are reached that way no longer (R542). -/
def clearPaths (p : Port) (s : State) : State :=
  let any := (List.range 8).any fun d => d != s.pos && hopsBy (devOf s d) p != 0xFF
  let s := forRange 8 (fun d s => modDev d (setHops p 0xFF) s) s
  if any then { s with stack := { s.stack with seq := (s.stack.seq + 1) % 2 ^ 32 } } else s

/-- Event 0x0D01 of a port whose state was `old`. -/
def linkEvent (p : Port) (old : LinkState) (s : State) : State :=
  let l := s.link p
  raiseEvent 0 0x0D01 (le 1 (portNumber p) ++ le 1 (linkCode l.state) ++ le 1 (linkCode old) ++ le 1 l.reason) s

/-- A port takes a state and a reason, with event 0x0D01. From UP its paths go first, and the upstream port changes, so that the
event takes the way that is left (R549, R555). -/
def setLink (p : Port) (st : LinkState) (reason : Nat) (s : State) : State :=
  let old := (s.link p).state
  if old = st then s.modLink p fun l => { l with reason := reason }
  else
    let s := s.modLink p fun l => { l with state := st, reason := reason, since := s.time.clk }
    linkEvent p old (if old = .up then changeUpstream (clearPaths p s) else s)

/-- Present devices to which no path is left are lost (R542). -/
def losePaths (s : State) : State :=
  let gone := (List.range 8).filter fun d => d != s.pos && (devOf s d).present && (devOf s d).hopsA == 0xFF && (devOf s d).hopsB == 0xFF
  forEach gone deviceLeft s

/-- A port is UP no longer: its readiness bit clears, and the stack is judged without it (R537, R542, R549, R553). -/
def leaveUp (p : Port) (s : State) : State :=
  refigureCross (setRing false (losePaths (readyOff (oneBit (portBit p)) s)))

/-- Frames that were sent and not acknowledged, or still waited, and may go the other way round a ring (R556). -/
def resendable (l : Link) : List LinkFrame :=
  l.unacked.map (·.frame) ++ l.queue.filter fun f => frameReplayed f.typ

/-- ROUTE frames that wait on a port. -/
def waitingRoutes (l : Link) : Nat := (l.queue.filter fun f => f.typ == .route).length

/-- A replayable frame that is sent again the other way round: a STEP is under way there already (R550), and a discovery question or
answer tells of the very path that it takes, so the next round repeats it (R542; log entry 37). -/
def goesRound (f : LinkFrame) : Bool := f.typ != .step && !(f.typ == .discover && f.info % 256 < 2)

/-- The other port is UP and leads to the frame's destination. -/
def otherWay (p : Port) (f : LinkFrame) (s : State) : Bool :=
  (s.link (otherPort p)).state == .up && hopsBy (devOf s f.dst) (otherPort p) != 0xFF

/-- What waited on a port that has gone down: ROUTE frames are lost and counted, replayable frames go the other way round
a ring (R556, R561). -/
def redirect (p : Port) (s : State) : State :=
  let fs := (resendable (s.link p)).filter goesRound
  let s := s.modLink p fun l => { l with
    routedLost := satAdd 32 l.routedLost (waitingRoutes l), queue := [], unacked := [] }
  forEach fs (fun f s => if otherWay p f s then sendFrame (otherPort p) f s else s) s

/-- The port leaves UP and trains again (R537). -/
def linkDown (p : Port) (reason : Nat) (s : State) : State :=
  redirect p (leaveUp p (setLink p .training reason (s.modLink p fun l => { l with retrains := inc32 l.retrains, partner := none })))

/-- The port enters CONFLICT; from UP it goes down as it does in R537 (R534, R537, R543, R556). -/
def enterConflict (p : Port) (reason : Nat) (s : State) : State :=
  let up := (s.link p).state == .up
  let s := setLink p .conflict reason s
  if up then redirect p (leaveUp p s) else s

/-- FLAGS of this device's own entry of the stack table (R561). -/
def ownFlags (s : State) : Nat := flag s.time.aligned 1 + flag (s.isReady 1) 2 + flag s.aon.proof 4

/-- A DISCOVER of the master: INFO [7:0] 0 asks, 1 answers, 2 copies the table; [15:8] hops from the master. A question carries the
master's serial number (log entry 44). -/
def askFrame (hops serial : Nat) : LinkFrame := { typ := .discover, src := 0, dst := 0, info := 256 * hops, data := le 8 serial }

/-- The question of this master to its neighbours. -/
def firstAsk : LinkFrame := askFrame 1 Config.serial.toNat

/-- A device has answered through port `p` in this round (R542). -/
def heardBy (p : Port) (d : Device) : Device :=
  match p with
  | .a => { d with heardA := true, silent := 0 }
  | .b => { d with heardB := true, silent := 0 }

/-- Training is done: the port is UP with its 128 credits, its partner enters the stack table and the upstream port is chosen before
event 0x0D01 goes (R555), the readiness bit rises, and the master asks for answers; the rounds count from the first port to come UP
(R536, R541, R542, R548). -/
def enterUp (p : Port) (q : Partner) (s : State) : State :=
  let old := (s.link p).state
  let s := s.modLink p fun l => { l with
    state := .up, reason := 0, since := s.time.clk
    partner := some q.position, wire := q.wire, peerDelay := q.maxDelay, offset := 0, upSince := stampNow s, seqTx := 0, seqRx := 0,
    unacked := [], queue := [], credits := 128, freed := 0, fresh := true, wall := 0 }
  let dev := devOf s q.position
  let new := heardBy p (setHops p 1 { dev with present := true, conflict := false, fwVer := q.fwVer, serial := q.serial })
  let s := linkEvent p old (chooseUpstream (tableEntry q.position new s))
  let s := refigureCross (readyOn (oneBit (portBit p)) (joined0D02 q.position dev new s))
  if !s.isMaster then s
  else
    let s := if (s.link (otherPort p)).state == .up then s else { s with stack := { s.stack with roundAt := s.time.clk } }
    sendFrame p firstAsk s

/-! ### Intake of link frames (R539 to R541) -/

/-- Frames acknowledged by `ack`: those sent up to the one with that number (R540). -/
def ackUpTo (ack : Nat) (l : List Unacked) : List Unacked :=
  if l.any fun u => u.seq == ack then (l.dropWhile fun u => u.seq != ack).drop 1 else l

/-- The acknowledgement and the credits that a good frame carries; frames that waited for credits go (R540, R541). -/
def takeLinkHeader (p : Port) (f : LinkRx) (s : State) : State :=
  let s := s.modLink p fun l => { l with
    unacked := if f.ackValid then ackUpTo f.ack l.unacked else l.unacked, credits := l.credits + f.credit }
  pumpLink p ((s.link p).queue.length) s

/-- The cells of a frame taken from the LKQ are owed to the partner (R333, R541); the queue and its pins have met them (R346,
R347). -/
def takeCells (p : Port) (f : LinkFrame) (s : State) : State :=
  let q := (QKind.lkq, portIdx p)
  let s := s.modLink p fun l => { l with freed := l.freed + frameCells f }
  fcAt q 0 false (fcAt q (frameCells f) false
    (modStat q (fun t => { t with packets := inc32 t.packets, hwm := max t.hwm (frameCells f) }) s))

/-- A ROUTE frame of more cells than the LKQ has: it claims them all and is rewound, with OVERSIZE and event 0x0703; the cells that
its sender spent on it are free again (R342, R343, R541). Its first word was written at the model's own instant, since no row gives
the start of a link frame (log entry 54). -/
def oversizeFrame (p : Port) (f : LinkFrame) (s : State) : State :=
  let s := s.modLink p fun l => { l with freed := l.freed + frameCells f, routedLost := inc32 l.routedLost }
  dropPacket (.lkq, portIdx p) (0x0300 + portIdx p) 3 (portNumber p) (stampNow s) s

/-- A port that owes credits or an acknowledgement and has sent nothing returns them in an IDLE frame (R538). -/
def settleDebt (p : Port) (s : State) : State :=
  if (s.link p).freed = 0 then s else sendFrame p { typ := .idle, src := s.pos, dst := 0, info := 0, data := [] } s

/-- A link frame of type `t` arrives: dropped and counted when its CRC fails, dropped when it is larger than the LKQ (R342), a
repetition, out of order, or has a parity error on its way (R21), else handled (R538 to R541). An IDLE or TIME frame is not
answered by an IDLE frame. -/
def takeFrameFrom (p : Port) (t : FrameType) (parity : Bool) (f : LinkRx) (h : LinkFrame → State → State) (s : State) : State :=
  let frame := { f.frame with typ := t, last := false }
  if !linkSends (s.link p) || !linksRun s then s
  else if !f.intact then
    let s := s.modLink p fun l => { l with crcErr := inc32 l.crcErr, routedLost := if t == .route then inc32 l.routedLost else l.routedLost }
    if frameCells frame > 128 then dropPacket (.lkq, portIdx p) (0x0300 + portIdx p) 3 (portNumber p) (stampNow s) s else s
  else
    let s := takeLinkHeader p f s
    let s :=
      if frameCells frame > 128 then oversizeFrame p frame s
      else
        let s := takeCells p frame s
        if parity then parityDrop 3 s
        else if !frameReplayed t then h frame s
        else if f.seq = nextLinkSeq (s.link p).seqRx then h frame (s.modLink p fun l => { l with seqRx := f.seq })
        else s
    if t == .idle || t == .time then s else settleDebt p s

/-- A link frame of type `t` arrives whole on every crossing. -/
def takeFrame (p : Port) (t : FrameType) (f : LinkRx) (h : LinkFrame → State → State) (s : State) : State :=
  takeFrameFrom p t false f h s

/-- A frame for another device is relayed: on through the other port, or the way that is left (R452, R554). -/
def relay (p : Port) (f : LinkFrame) (s : State) : State :=
  let out := if (s.link (otherPort p)).state == .up then some (otherPort p) else portTo s f.dst
  match out with
  | some q => sendFrame q f s
  | none => s

/-- The bytes come from a position so far, of a command or reply not yet complete (R539). -/
def joined (s : State) (src : Nat) : List Byte := (mget s.stack.partials src).getD []

/-- The frame is the next segment of what comes from its position, or the first of another: not one sent again that is here already
(R539, R556; log entry 44). -/
def nextSegment (s : State) (f : LinkFrame) : Bool := f.info = 0 || f.info == (joined s f.src).length

/-- The bytes so far with the frame's. -/
def withSegment (s : State) (f : LinkFrame) : List Byte := (if f.info = 0 then [] else joined s f.src) ++ f.data

/-- The bytes are a whole command or reply: its header and the words whose number the header gives (R145, R148). -/
def wholePacket (f : LinkFrame) (b : List Byte) : Bool :=
  16 ≤ b.length && 16 + 4 * byteAt b (if f.typ == .reply then 2 else 3) ≤ b.length

/-- A segment arrives, by whichever port: what it completes is handed on, else it is kept (R539). -/
def joinSegment (f : LinkFrame) (h : List Byte → State → State) (s : State) : State :=
  if !nextSegment s f then s
  else
    let b := withSegment s f
    if wholePacket f b then h b { s with stack := { s.stack with partials := mdel s.stack.partials f.src } }
    else { s with stack := { s.stack with partials := mset s.stack.partials f.src b } }

end Sys2Proof.Machine
end

