-- ==== Sys2Proof/Machine/LinkEvents.lean ====
section
/-!
DEFINITION. What happens on the Talrax links: training and its end (R534 to R537), link frames (R538 to R545, R552 to R556) and
discovery (R542 to R544). Steps and time exchanges stand in StepOps.
-/

namespace Sys2Proof.Machine

/-! ### Training and the state of a port (R534 to R537, R565) -/

/-- LINK_UP: identity and delay are judged, then the port is UP (R536, R543). -/
def execLinkUp (port : Port) (partner : Partner) (s : State) : Host.Outcome State Fault Refusal :=
  let l := s.link port
  if l.state != .training || !linksRun s then next s
  else if partner.position ≥ 8 || partner.position = s.pos
      || ((devOf s partner.position).present && (devOf s partner.position).serial != partner.serial) then next (enterConflict port 3 s)
  else if partner.wire > 1000 * min l.maxDelay partner.maxDelay then next (enterConflict port 5 s)
  else next (enterUp port partner s)

/-- LINK_TRAINING_FAILED (R534, R536, R537, R543): a port without a partner goes on training with reason 0x1. -/
def execLinkTrainingFailed (port : Port) (reason : Nat) (s : State) : Host.Outcome State Fault Refusal :=
  if (s.link port).state != .training || !linksRun s then next s
  else if 2 ≤ reason && reason ≤ 5 then next (enterConflict port reason s)
  else if reason = 1 then next (setLink port .training 1 s)
  else next s

/-- LINK_CONFLICT_RETRY (R537): 100 ms after the port entered CONFLICT. -/
def execLinkConflictRetry (port : Port) (s : State) : Host.Outcome State Fault Refusal :=
  let l := s.link port
  if l.state != .conflict || !linksRun s then next s else next (setLink port .training l.reason (reachClk (l.since + 100 * msNs) s))

/-- LINK_DOWN (R537): sync loss or 100 µs of silence is reason 0x1, a fourth replay failure reason 0x6. -/
def execLinkDown (port : Port) (reason : Nat) (s : State) : Host.Outcome State Fault Refusal :=
  let l := s.link port
  if l.state != .up || !linksRun s then next s
  else if reason = 1 || (reason = 6 && l.unacked.any fun u => u.replays ≥ 4) then next (linkDown port reason s)
  else next s

/-- An event of a link's stop bath (R180). -/
def linkBathEvent (code : Nat) (p : Port) (src : Source) (s : State) : State :=
  raiseEvent (ctxOf src) code (le 1 4 ++ zeros 1 ++ le 2 (portNumber p)) s

/-- LINK_STOP_BATH_END (R565): what waited has gone and is acknowledged, or 1 ms has passed, and goes the other way round a ring
(R556); a held enable is applied. -/
def execLinkStopBathEnd (port : Port) (s : State) : Host.Outcome State Fault Refusal :=
  let l := s.link port
  if l.state != .stopping then next s
  else
    let s := if l.queue.isEmpty && l.unacked.isEmpty then s else reachClk (l.since + msNs) s
    let s := (redirect port s).modLink port fun l => { l with partner := none, held := none }
    let s := linkBathEvent 0x0DF0 port l.stopBy (setLink port .disabled 7 s)
    match l.held with
    | none => next s
    | some src => next (linkBathEvent 0x0DF1 port src (setLink port .training 0 s))

/-- The unacknowledged frame whose 10 µs end first, the one sent first among several. -/
def firstDue : List Unacked → Option Unacked
  | [] => none
  | u :: rest => match firstDue rest with
    | some v => if v.sentAt < u.sentAt then some v else some u
    | none => some u

/-- REPLAY_TIMEOUT (R537, R540): the oldest frame that is not acknowledged 10 µs after it was sent goes again; after its fourth
replay the port goes down. -/
def execReplayTimeout (port : Port) (s : State) : Host.Outcome State Fault Refusal :=
  let l := s.link port
  match firstDue l.unacked with
  | none => next s
  | some u =>
    if !linkSends l || !linksRun s || (u.replays < 4 && l.credits < frameCells u.frame) then next s
    else
      let s := reachClk (u.sentAt + 10 * usNs) s
      if u.replays ≥ 4 then
        next (if l.state == .up then linkDown port 6 s
          else s.modLink port fun l => { l with unacked := l.unacked.filter fun x => x != u })
      else
        let s := s.modLink port fun l => { l with
          replays := inc32 l.replays, credits := l.credits - frameCells u.frame, freed := l.freed - min l.freed 255,
          unacked := l.unacked.map fun x => if x = u then { u with replays := u.replays + 1, sentAt := s.time.clk } else x }
        next (s.emit (.link port (frameBytes u.frame u.seq l.seqRx (min l.freed 255))))

/-! ### Frames (R538, R545, R452, R554, R555) -/

/-- TIME_FRAME_RECEIVED: a TIME frame from a follower is answered with one, whose INFO returns t1 and t4 in a coding that the
spec does not give (R545; log entry 4). -/
def execTimeFrameReceived (port : Port) (f : LinkRx) (s : State) : Host.Outcome State Fault Refusal :=
  next (takeFrame port .time f (fun _ s =>
    if s.stack.upstream = some port then s
    else sendFrame port
      { typ := .time, src := s.pos, dst := f.frame.src, info := freeAt s 0 + 2 ^ 32 * freeAt s 1, data := [] } (drawn 2 s)) s)

/-- A routed PDU has reached its device: an arrival pass of IN_LINK PDU REMOTE_PDU, whose release counts from `valid` (R387,
R452). -/
def takeRoute (valid : Nat) (f : LinkFrame) (s : State) : State :=
  let n := f.info % 2 ^ 15
  match pduOf s n with
  | some p => if p.set.dir == .inLink then handOff n f.data 3 (max 1 (min valid s.now)) 512 s else s
  | none => s

/-- A ROUTE frame for another device that finds no way on is lost (R556). -/
def relayRoute (p : Port) (f : LinkFrame) (s : State) : State :=
  if (s.link (otherPort p)).state == .up || (portTo s f.dst).isSome then relay p f s
  else s.modLink (otherPort p) fun l => { l with routedLost := inc32 l.routedLost }

/-- ROUTE_FRAME_RECEIVED (R21, R452, R538, R552). `valid` is the receive valid of the inbound frame on the sending device, from which
a FEED 0x1 release counts (R387); the frame of R538 carries no field for it. -/
def execRouteFrameReceived (port : Port) (f : LinkRx) (parity : Bool) (valid : Nat) (s : State) : Host.Outcome State Fault Refusal :=
  next (takeFrameFrom port .route parity f (fun r s =>
    let s := s.modLink port fun l => { l with routedRx := inc32 l.routedRx }
    if r.dst = s.pos then takeRoute valid r s else relayRoute port r s) s)

/-- CMD_FRAME_RECEIVED (R145, R554): a whole command for this follower comes into the MSQ. -/
def execCmdFrameReceived (port : Port) (f : LinkRx) (s : State) : Host.Outcome State Fault Refusal :=
  next (takeFrame port .cmd f (fun r s =>
    if r.dst != s.pos then relay port r s
    else if s.isMaster then s
    else joinSegment r (fun b s => arrivePacket (packetOf .master b) s) s) s)

/-- A whole reply has come back to the master: it goes to the source of the oldest command sent to that device (R147, R554). -/
def takeReply (src : Nat) (b : List Byte) (s : State) : State :=
  match s.stack.forwarded.find? fun f => f.position == src with
  | none => s
  | some f =>
    let s := { s with stack := { s.stack with forwarded := dropFirst (· == f) s.stack.forwarded } }
    replyTakenFrom (byteAt b 7 % 8) f.packet (byteAt b 6) (fieldAt b 8 3) ((b.drop 16).take (4 * byteAt b 2)) s

/-- REPLY_FRAME_RECEIVED (R554). -/
def execReplyFrameReceived (port : Port) (f : LinkRx) (s : State) : Host.Outcome State Fault Refusal :=
  next (takeFrame port .reply f (fun r s =>
    if r.dst != s.pos then relay port r s
    else if s.isMaster then joinSegment r (takeReply r.src) s
    else s) s)

/-- The event in an EVENT frame; its LOST field is the master's to fill in (R124, R555). -/
def eventOf (b : List Byte) : Event :=
  { code := fieldAt b 0 2, source := byteAt b 2, stamp := fieldAt b 8 8, data := padTo 16 (b.drop 16) }

/-- EVENT_FRAME_RECEIVED (R555). -/
def execEventFrameReceived (port : Port) (f : LinkRx) (s : State) : Host.Outcome State Fault Refusal :=
  next (takeFrame port .event f (fun r s =>
    if r.dst != s.pos then relay port r s
    else if s.isMaster then pushEvent 0 (eventOf r.data) s
    else s) s)

/-- IDLE_FRAME_RECEIVED (R538). -/
def execIdleFrameReceived (port : Port) (f : LinkRx) (s : State) : Host.Outcome State Fault Refusal :=
  next (takeFrame port .idle f (fun _ s => s) s)

/-! ### The stack table as bytes (R542, R561) -/

/-- This device's own entry. -/
def ownDevice (s : State) : Device :=
  { deviceReset with present := true, hopsA := 0, hopsB := 0, flags := ownFlags s, fwVer := genFwVer s, serial := Config.serial.toNat }

/-- An entry of the stack table as this device shows it. -/
def shownDevice (s : State) (d : Nat) : Device := if d = s.pos then ownDevice s else devOf s d

/-- The 16 bytes of an entry (R561). -/
def deviceBytes (d : Device) : List Byte :=
  le 1 (if d.conflict then 2 else flag d.present 1) ++ le 1 d.hopsA ++ le 1 d.hopsB ++ le 1 d.flags ++ le 4 d.fwVer ++ le 8 d.serial

/-- An entry from its 16 bytes. -/
def deviceOf (b : List Byte) : Device :=
  { deviceReset with
    present := byteAt b 0 == 1, conflict := byteAt b 0 == 2, hopsA := byteAt b 1, hopsB := byteAt b 2, flags := byteAt b 3,
    fwVer := fieldAt b 4 4, serial := fieldAt b 8 8 }

/-! ### Discovery (R535, R542 to R544) -/

/-- The answer of a follower `hops` away: its entry, PART and the revision (R190, R536; log entry 44). -/
def answerFrame (hops : Nat) (s : State) : LinkFrame :=
  { typ := .discover, src := s.pos, dst := 0, info := 1 + 256 * hops, data := deviceBytes (ownDevice s) ++ le 2 0x2064 ++ le 1 0xB0 }

/-- Two entries of the master's copy of the table, from position `d` on; INFO [16] is 1 for a ring (log entry 44). -/
def copyFrame (dest d : Nat) (s : State) : LinkFrame :=
  { typ := .discover, src := 0, dst := dest, info := 2 + 256 * d + 65536 * flag s.stack.ring 1,
    data := deviceBytes (shownDevice s d) ++ deviceBytes (shownDevice s (d + 1)) }

/-- The master sends its table to every follower (R542). -/
def sendTable (s : State) : State :=
  forRange 8 (fun dest s => if dest = s.pos || !(devOf s dest).present then s else
    match portTo s dest with
    | some p => forEach [0, 2, 4, 6] (fun d s => sendFrame p (copyFrame dest d s) s) s
    | none => s) s

/-- A question of the master reaches a follower: it learns its way to the master, answers, and passes the question on (R542,
R545). A question of another device strapped 0 is not taken, and the port to such a neighbour enters CONFLICT (R543). -/
def takeAsk (p : Port) (f : LinkFrame) (s : State) : State :=
  let hops := f.info / 256 % 256
  let serial := fieldAt f.data 0 8
  let m := devOf s 0
  if m.present && m.serial != serial then (if hops = 1 then enterConflict p 3 s else s)
  else
    let s := enterDevice 0 (setHops p hops { m with present := true, serial := serial }) s
    let s := sendFrame p (answerFrame hops s) (chooseUpstream s)
    sendFrame (otherPort p) (askFrame (hops + 1) serial) s

/-- An answer reaches the master: a device that repeats a position, or is another part or revision, is not enumerated, nor is one
beyond it, and the port to such a neighbour of the master enters CONFLICT; its neighbours learn of it with the table (R542, R543). -/
def takeAnswer (p : Port) (f : LinkFrame) (s : State) : State :=
  let hops := f.info / 256 % 256
  let d := deviceOf f.data
  let old := devOf s f.src
  let wall := (s.link p).wall
  let alien := fieldAt f.data 16 2 != 0x2064 || byteAt f.data 18 != 0xB0
  let twice := f.src = s.pos || (old.present && old.serial != d.serial)
  if wall ≠ 0 && wall < hops then s
  else if alien || twice then
    let t := s.modLink p fun l => { l with wall := hops }
    let t := if twice then t else enterDevice f.src { old with conflict := true } t
    let t := if hops = 1 then enterConflict p (if twice then 3 else 4) t else t
    if t.stack.seq = s.stack.seq then t else sendTable t
  else
    let new := heardBy p (setHops p hops { old with
      present := true, conflict := false, flags := d.flags, fwVer := d.fwVer, serial := d.serial })
    let t := enterDevice f.src new s
    if t.stack.seq = s.stack.seq then t else sendTable (tableMoved s t)

/-- Places along the stack, in steps from LINKA towards LINKB: the master stands at 0 (R534, R535). -/
def placeOf (d : Device) : Int := if d.hopsB != 0xFF then d.hopsB else -d.hopsA

/-- The master's entry `d` as this follower sees it: hops are counted from here (R561; log entry 44). -/
def seenFrom (ring : Bool) (size : Nat) (own d : Device) : Device :=
  let x := placeOf d - placeOf own
  let n : Int := size
  if !d.present then { d with hopsA := 0xFF, hopsB := 0xFF }
  else if ring then { d with hopsA := ((-x) % n).toNat, hopsB := (x % n).toNat }
  else if x > 0 then { d with hopsA := 0xFF, hopsB := x.toNat }
  else { d with hopsA := (-x).toNat, hopsB := 0xFF }

/-- A port is UP to a neighbour that the master's entry `new` does not enumerate: the entry is another device's, which has that
neighbour's position, or says that the neighbour is another part or revision (R543). -/
def wrongNeighbour (d : Nat) (new : Device) (s : State) (p : Port) : Option Nat :=
  let old := devOf s d
  if (s.link p).state != .up || (s.link p).partner != some d then none
  else if new.conflict then some 4
  else if new.present && hopsBy old p == 1 && old.serial != new.serial then some 3
  else none

/-- The ports to such neighbours enter CONFLICT (R543). -/
def refuseNeighbour (d : Nat) (new : Device) (s : State) : State :=
  forEach [Port.a, .b] (fun p t => match wrongNeighbour d new s p with
    | some reason => enterConflict p reason t
    | none => t) s

/-- An entry of the master's table reaches a follower. A device the master has lost is lost here (R542, R544). -/
def takeEntry (ring : Bool) (size d : Nat) (own new : Device) (s : State) : State :=
  if d = s.pos || d ≥ 8 then s
  else
    let s := refuseNeighbour d new s
    let old := devOf s d
    let seen := seenFrom ring size own new
    if old.present && !seen.present then deviceLeft d s
    else enterDevice d { seen with silent := old.silent, heardA := old.heardA, heardB := old.heardB } s

/-- A copy of the master's table, by port `p`: this follower's own hops are those of its way to the master, the other way round. On a
chain that way is the one by which the copy came, and the other port has none (R549, R561). -/
def takeCopy (p : Port) (f : LinkFrame) (s : State) : State :=
  let d := f.info / 256 % 256
  let ring := f.info / 65536 % 2 = 1
  let t := if ring then s else tableEntry 0 (setHops (otherPort p) 0xFF (devOf s 0)) s
  let m := devOf t 0
  let own := { deviceReset with hopsA := m.hopsB, hopsB := m.hopsA }
  let size := m.hopsA + m.hopsB
  let round := ring && m.hopsA != 0xFF && m.hopsB != 0xFF
  let t := takeEntry round size d own (deviceOf (f.data.take 16)) t
  let t := takeEntry round size (d + 1) own (deviceOf (f.data.drop 16)) t
  setRing ring (tableMoved s (changeUpstream t))

/-- DISCOVER_FRAME_RECEIVED (R535, R542 to R544). -/
def execDiscoverFrameReceived (port : Port) (f : LinkRx) (s : State) : Host.Outcome State Fault Refusal :=
  next (takeFrame port .discover f (fun r s =>
    match r.info % 256 with
    | 0 =>
      if s.isMaster then setRing true { s with stack := { s.stack with returned := true } } else takeAsk port r s
    | 1 => if s.isMaster then takeAnswer port r s else if r.dst = s.pos then s else relay port r s
    | _ => if r.dst != s.pos then relay port r s else if s.stack.upstream.isSome then takeCopy port r s else s) s)

/-- A device at the start of a round: one that has been silent in three rounds is lost, and one that has answered through one port only
is not reached through the other any longer (R542, R561). -/
def judgeSilent (d : Nat) (s : State) : State :=
  let x := devOf s d
  if d = s.pos || !x.present then s
  else if x.heardA || x.heardB then
    tableEntry d { x with
      heardA := false, heardB := false, silent := 0
      hopsA := if x.heardA then x.hopsA else 0xFF, hopsB := if x.heardB then x.hopsB else 0xFF } s
  else if x.silent ≥ 2 then deviceLeft d s
  else modDev d (fun x => { x with silent := x.silent + 1 }) s

/-- A new round has met no device that it does not enumerate (R543). -/
def clearWalls (s : State) : State := forEach [Port.a, .b] (fun p s => s.modLink p fun l => { l with wall := 0 }) s

/-- The end of a round: silence is judged, and the ring is broken where the question has not come back (R542). -/
def endRound (s : State) : State := setRing (s.stack.ring && s.stack.returned) (tableMoved s (forRange 8 judgeSilent s))

/-- The start of a round: no question has come back yet, and nothing is known of what lies beyond a link (R542, R543). -/
def startRound (s : State) : State :=
  clearWalls { s with stack := { s.stack with roundAt := s.time.clk, returned := false } }

/-- DISCOVER_ROUND (R535, R542): 100 ms after the last one, on the master. -/
def execDiscoverRound (s : State) : Host.Outcome State Fault Refusal :=
  if !s.isMaster || !linksRun s || !(s.linkA.state == .up || s.linkB.state == .up) then next s
  else
    let s := reachClk (s.stack.roundAt + 100 * msNs) s
    let s := startRound (endRound s)
    next (sendTable (sendFrame .b firstAsk (sendFrame .a firstAsk s)))

end Sys2Proof.Machine
end

