-- ==== Sys2Proof/Machine/LinkCmds.lean ====
section
/-!
DEFINITION. The link commands of group 0x0D (R560 to R562, R565).
-/

namespace Sys2Proof.Machine

/-- The port that a PORT byte names (R561). -/
def portOf (n : Nat) : Option Port :=
  match n with
  | 1 => some .a
  | 2 => some .b
  | _ => none

/-- The functions that a command on the named link needs (R65). ENABLE_LINK starts the training that sets the link's bit and does not
ask for it (log entry 36). -/
def linkNeeds (port : Nat) : List Nat :=
  match portOf port with
  | some q => [2, 5, portBit q]
  | none => [2, 5]

/-- The functions that DISABLE_LINK needs: of a port in its stop bath, whose held enable it cancels (R179), or in training (R556), it
does not ask that the link be ready (log entry 36). -/
def disableLinkNeeds (port : Nat) (s : State) : List Nat :=
  match portOf port with
  | some q => match (s.link q).state with
    | .stopping => [2, 5]
    | .training => [2, 5]
    | _ => linkNeeds port
  | none => [2, 5]

/-! ### GET_STACK (R561) -/

/-- The stack table, 144 bytes. -/
def stackTable (s : State) : List Byte :=
  le 1 (deviceCount s) ++ le 1 (topologyCode s) ++ le 1 s.pos ++ zeros 1 ++ le 4 s.stack.seq ++ le 8 (stampNow s)
    ++ (List.range 8).flatMap fun d => deviceBytes (shownDevice s d)

/-- K_h of a port in nanoseconds, rounded up (R551). -/
def linkLoadNs (s : State) (p : Port) : Nat := ceilDiv (linkBlocks s p * 1056) 100

/-- The record of a link, 64 bytes; also its record of contact-sheet section 0x0D01. -/
def linkRecord (s : State) (p : Port) : List Byte :=
  let l := s.link p
  le 1 (portNumber p) ++ le 1 (linkCode l.state) ++ le 1 l.reason ++
    le 1 (match l.partner with | some q => q + 0x80 | none => 0) ++
    le 1 (flag (s.stack.upstream == some p) 1 + flag s.time.aligned 2) ++ zeros 3 ++
    le 4 l.wire ++ le 2 (if l.partner.isSome then min l.maxDelay l.peerDelay else l.maxDelay) ++ zeros 2 ++
    le 4 (if s.isMaster then 0 else unsignedOf 32 l.offset) ++
    le 4 l.crcErr ++ le 4 l.replays ++ le 4 l.retrains ++ le 4 l.routedTx ++ le 4 l.routedRx ++ le 4 l.routedLost ++
    le 4 (linkLoadNs s p) ++ le 8 l.upSince ++ le 8 (stampNow s)

/-- GET_STACK. A record draws a free value for what other devices load the link with (log entry 41). -/
def getStack (p : Packet) (s : State) : Verdict :=
  let what := byteAt p.params 0
  badParam (what > 2) 0 <|
  badParam (!zeroAt p.params 1 3) 1 <|
    match portOf what with
    | some q => okBody (drawn 1 s) (linkRecord s q)
    | none => okBody s (stackTable s)

/-- GET_STACK: its row of the opcode index. -/
def specGetStack : CmdSpec :=
  { opcode := 0x0D01, plen := plenIs 1, right := fromAll, needs := fun p _ => linkNeeds (byteAt p.params 0), readOnly := true }

/-- GET_STACK (R561). -/
def execGetStack (p : Packet) (s : State) : Host.Outcome State Fault Refusal := next (runCommand specGetStack getStack p s)

/-! ### CONFIG_LINK (R562) -/

/-- CONFIG_LINK. -/
def configLink (p : Packet) (s : State) : Verdict :=
  match portOf (byteAt p.params 0) with
  | none => .refuse stParam 16
  | some q =>
    let d := if fieldAt p.params 2 2 = 0 then 60 else fieldAt p.params 2 2
    let l := s.link q
    badParam (!zeroAt p.params 1 1) 1 <|
    badParam (d < 10 || d > 500) 2 <|
    bundleOpen s p <|
    refuseIf (l.state == .up && d * 1000 < l.wire) stState 0x0D0500 <|
      stage p [.link q d] s []

/-- CONFIG_LINK: its row of the opcode index. -/
def specConfigLink : CmdSpec :=
  { opcode := 0x0D02, plen := plenIs 1, right := fromCtx0, needs := fun p _ => linkNeeds (byteAt p.params 0), readOnly := false }

/-- CONFIG_LINK (R562). -/
def execConfigLink (p : Packet) (s : State) : Host.Outcome State Fault Refusal :=
  next (runCommand specConfigLink configLink p s)

/-! ### ENABLE_LINK and DISABLE_LINK (R565) -/

/-- The port that parameter byte 0 names, with the reserved bytes checked. -/
def withPort (p : Packet) (h : Port → Verdict) : Verdict :=
  match portOf (byteAt p.params 0) with
  | none => .refuse stParam 16
  | some q => badParam (!zeroAt p.params 1 3) 1 (h q)

/-- ENABLE_LINK (R84, R179, R181, R560). -/
def enableLink (p : Packet) (s : State) : Verdict :=
  withPort p fun q =>
    match (s.link q).state with
    | .stopping => refuseIf (powerBlocks s) stState 0x0D0100 <|
        .reply (s.modLink q fun l => { l with held := some p.source }) stDeferred 4 []
    | .disabled => refuseIf (powerBlocks s) stState 0x0D0100 <| okDone (setLink q .training 0 s)
    | _ => okDone s

/-- ENABLE_LINK: its row of the opcode index. -/
def specEnableLink : CmdSpec :=
  { opcode := 0x0D06, plen := plenIs 1, right := fromCtx0, needs := needsOf [2, 5], readOnly := false }

/-- ENABLE_LINK (R565). -/
def execEnableLink (p : Packet) (s : State) : Host.Outcome State Fault Refusal :=
  next (runCommand specEnableLink enableLink p s)

/-- A device is reached through this port and not through the other. -/
def leadsAlone (s : State) (q : Port) (d : Nat) : Bool :=
  hopsBy (devOf s d) q != 0xFF && !((s.link (otherPort q)).state == .up && hopsBy (devOf s d) (otherPort q) != 0xFF)

/-- A route between other devices and this one's IN, or from one device to another through this one, would have no other path: what
only those devices know, drawn when it is asked (R401, R560; log entry 41). -/
def othersRoute (s : State) (q : Port) : Bool :=
  ((List.range 8).any fun d => d != s.pos && (devOf s d).present && leadsAlone s q d) && freeAt s 0 % 2 = 1

/-- An admitted route crosses this port's link and would have no other path (R560). -/
def onlyPath (s : State) (q : Port) : Bool :=
  (s.link q).state == .up
    && ((s.routes.any fun r => r.2.inPos != s.pos && leadsAlone s q r.2.inPos) || othersRoute s q)

/-- The stop bath of a port starts: it takes no new frame (R565). -/
def startLinkBath (q : Port) (by_ : Source) (s : State) : State :=
  let up := (s.link q).state == .up
  let s := setLink q .stopping 7 (s.modLink q fun l => { l with stopBy := by_ })
  if up then leaveUp q s else s

/-- DISABLE_LINK (R179, R181, R560). -/
def disableLink (p : Packet) (s : State) : Verdict :=
  withPort p fun q =>
    let l := s.link q
    match l.state with
    | .disabled => okDone s
    | .stopping =>
      okDone (if l.held.isSome then linkBathEvent 0x0DF2 q p.source (s.modLink q fun l => { l with held := none }) else s)
    | _ => refuseIf (onlyPath s q) stState 0x0D0200 <| okDone (startLinkBath q p.source (drawn 1 s))

/-- DISABLE_LINK: its row of the opcode index. -/
def specDisableLink : CmdSpec :=
  { opcode := 0x0D07, plen := plenIs 1, right := fromCtx0, needs := fun p s => disableLinkNeeds (byteAt p.params 0) s, readOnly := false }

/-- DISABLE_LINK (R565). -/
def execDisableLink (p : Packet) (s : State) : Host.Outcome State Fault Refusal :=
  next (runCommand specDisableLink disableLink p s)

end Sys2Proof.Machine
end

