-- ==== Sys2Proof/Machine/Crypto.lean ====
section
/-!
DEFINITION. The digest and the signature of an image (R568): SHA-256 of FIPS 180-4 and ECDSA over P-256 of FIPS 186-5.
-/

namespace Sys2Proof.Machine

/-! ### SHA-256 -/

/-- The largest number below 2 to the power of the first count that, added to `r`, has a `k`th power of at most `n`: one bit at a time,
from the highest. -/
def rootFrom (k n : Nat) : Nat → Nat → Nat
  | 0, r => r
  | i + 1, r => rootFrom k n i (if (r + 2 ^ i) ^ k ≤ n then r + 2 ^ i else r)

/-- The first 32 bits of the fractional part of the `k`th root of `p`, for a root below 32 (FIPS 180-4). -/
def rootWord (k p : Nat) : BitVec 32 := BitVec.ofNat 32 (rootFrom k (p * 2 ^ (32 * k)) 37 0)

/-- The primes below 312, of which there are 64: no number from 2 to 17 divides one but itself. -/
def shaPrimes : List Nat :=
  ((List.range 310).map (· + 2)).filter fun n => (List.range 16).all fun d => n == d + 2 || n % (d + 2) != 0

/-- The round constants of SHA-256: from the cube roots of the first 64 primes. -/
def shaK : List (BitVec 32) := shaPrimes.map (rootWord 3)

/-- The hash value of SHA-256 under computation, words a to h. -/
structure ShaState where
  a : BitVec 32
  b : BitVec 32
  c : BitVec 32
  d : BitVec 32
  e : BitVec 32
  f : BitVec 32
  g : BitVec 32
  h : BitVec 32
  deriving DecidableEq, Repr

/-- Word `i` of the initial hash value of SHA-256: from the square roots of the first 8 primes. -/
def shaStart (i : Nat) : BitVec 32 := rootWord 2 (shaPrimes.getD i 0)

/-- The initial hash value of SHA-256. -/
def shaInit : ShaState :=
  ⟨shaStart 0, shaStart 1, shaStart 2, shaStart 3, shaStart 4, shaStart 5, shaStart 6, shaStart 7⟩

/-- One round with the constant `k` and the schedule word `w`. -/
def shaRound (x : ShaState) (k w : BitVec 32) : ShaState :=
  let s1 := x.e.rotateRight 6 ^^^ x.e.rotateRight 11 ^^^ x.e.rotateRight 25
  let ch := (x.e &&& x.f) ^^^ (~~~x.e &&& x.g)
  let t1 := x.h + s1 + ch + k + w
  let s0 := x.a.rotateRight 2 ^^^ x.a.rotateRight 13 ^^^ x.a.rotateRight 22
  let maj := (x.a &&& x.b) ^^^ (x.a &&& x.c) ^^^ (x.b &&& x.c)
  { a := t1 + s0 + maj, b := x.a, c := x.b, d := x.c, e := x.d + t1, f := x.e, g := x.f, h := x.g }

/-- The rounds of a block: the window holds the next sixteen words of its schedule. -/
def shaRounds : List (BitVec 32) → List (BitVec 32) → ShaState → ShaState
  | [], _, x => x
  | k :: ks, win, x =>
    let w := fun i => win.getD i 0
    let s0 := (w 1).rotateRight 7 ^^^ (w 1).rotateRight 18 ^^^ (w 1 >>> 3)
    let s1 := (w 14).rotateRight 17 ^^^ (w 14).rotateRight 19 ^^^ (w 14 >>> 10)
    shaRounds ks (win.drop 1 ++ [w 0 + s0 + w 9 + s1]) (shaRound x k (w 0))

/-- A block of 64 bytes joins the hash value. -/
def shaBlock (x : ShaState) (b : List Byte) : ShaState :=
  let y := shaRounds shaK ((List.range 16).map fun i => BitVec.ofNat 32 (beVal ((b.drop (4 * i)).take 4))) x
  { a := x.a + y.a, b := x.b + y.b, c := x.c + y.c, d := x.d + y.d, e := x.e + y.e, f := x.f + y.f, g := x.g + y.g, h := x.h + y.h }

/-- The blocks of a padded message. -/
def shaBlocks : Nat → ShaState → List Byte → ShaState
  | 0, x, _ => x
  | n + 1, x, m => shaBlocks n (shaBlock x (m.take 64)) (m.drop 64)

/-- Bytes of a number, most significant first. -/
def beBytes (n v : Nat) : List Byte := (le n v).reverse

/-- SHA-256 of a message. -/
def sha256 (m : List Byte) : List Byte :=
  let pad := 63 - (m.length + 8) % 64
  let p := m ++ [0x80] ++ zeros pad ++ beBytes 8 (8 * m.length)
  let x := shaBlocks (p.length / 64) shaInit p
  [x.a, x.b, x.c, x.d, x.e, x.f, x.g, x.h].flatMap fun w => beBytes 4 w.toNat

/-! ### ECDSA over P-256 -/

/-- The prime of the field. -/
def p256P : Nat := 2 ^ 256 - 2 ^ 224 + 2 ^ 192 + 2 ^ 96 - 1

/-- The order of the base point. -/
def p256N : Nat := 0xFFFFFFFF00000000FFFFFFFFFFFFFFFFBCE6FAADA7179E84F3B9CAC2FC632551

/-- The base point. -/
def p256G : Nat × Nat :=
  (0x6B17D1F2E12C4247F8BCE6E563A440F277037D812DEB33A0F4A13945D898C296,
   0x4FE342E2FE1A7F9B8EE7EB4A7C0F9E162BCE33576B315ECECBB6406837BF51F5)

/-- `b` to the power `e` modulo `m`, over `n` bits of `e`. -/
def powMod (m : Nat) : Nat → Nat → Nat → Nat
  | 0, _, _ => 1
  | n + 1, b, e => (if e % 2 = 1 then b else 1) * powMod m n (b * b % m) (e / 2) % m

/-- The inverse modulo a prime of 256 bits. -/
def invMod (m a : Nat) : Nat := powMod m 256 (a % m) (m - 2)

/-- The sum of two points of the curve; none is the point at infinity. -/
def pointAdd (x y : Option (Nat × Nat)) : Option (Nat × Nat) :=
  match x, y with
  | none, y => y
  | x, none => x
  | some (x1, y1), some (x2, y2) =>
    let p := p256P
    if x1 = x2 && (y1 + y2) % p = 0 then none
    else
      let l := if x1 = x2 then (3 * x1 * x1 + (p - 3)) * invMod p (2 * y1) % p
        else (y2 + (p - y1)) * invMod p (x2 + (p - x1)) % p
      let x3 := (l * l + (p - x1) + (p - x2)) % p
      some (x3, (l * (x1 + (p - x3)) + (p - y1)) % p)

/-- A multiple of a point, over `n` bits of the factor. -/
def pointMul : Nat → Nat → Option (Nat × Nat) → Option (Nat × Nat)
  | 0, _, _ => none
  | n + 1, k, q => pointAdd (if k % 2 = 1 then q else none) (pointMul n (k / 2) (pointAdd q q))

/-- The signature `sig` (r, then s) of the message verifies under the public point `key` (X, then Y) (R568). -/
def verifySig (key msg sig : List Byte) : Bool :=
  let n := p256N
  let r := beVal (sig.take 32)
  let s := beVal ((sig.drop 32).take 32)
  let w := invMod n s
  let e := beVal (sha256 msg)
  let q := some (beVal (key.take 32), beVal ((key.drop 32).take 32))
  0 < r && r < n && 0 < s && s < n &&
    match pointAdd (pointMul 256 (e * w % n) (some p256G)) (pointMul 256 (r * w % n) q) with
    | some (x, _) => x % n == r
    | none => false

end Sys2Proof.Machine
end

