-- ==== Sys2Proof/Machine/UpdateOps.lean ====
section
/-!
DEFINITION. Image headers, the security and counter area, guards, proof mode, fixes and fallbacks (R567 to R586).
-/

namespace Sys2Proof.Machine

/-! ### Slots, areas and the security area (R570 to R572) -/

/-- The slot, or area, that is not `x`. -/
def otherSlot : Slot → Slot
  | .a => .b | .b => .a

/-- The contents of MRAM changed by `f`. -/
def modMram (f : Mram → Mram) (s : State) : State := { s with update := { s.update with mram := f s.update.mram } }

/-- The security and counter area changed by `f`. -/
def modSec (f : Security → Security) (s : State) : State := modMram (fun m => { m with sec := f m.sec }) s

/-- The security and counter area (R570). -/
def secOf (s : State) : Security := s.update.mram.sec

/-- A slot of MRAM takes an image, or none for a header of zeros. -/
def putImage (x : Slot) (i : Option Image) (m : Mram) : Mram :=
  match x with
  | .a => { m with slotA := i }
  | .b => { m with slotB := i }

/-- A settings area (R584). -/
def areaOf (m : Mram) : Slot → Area
  | .a => m.areaA
  | .b => m.areaB

/-- A settings area changed by `f`. -/
def modArea (x : Slot) (f : Area → Area) (m : Mram) : Mram :=
  match x with
  | .a => { m with areaA := f m.areaA }
  | .b => { m with areaB := f m.areaB }

/-- FIXED_ONCE of a slot (R570). -/
def fixedOnce (x : Security) : Slot → Bool
  | .a => x.fixedA
  | .b => x.fixedB

/-- FIXED_ONCE of a slot written. -/
def setFixedOnce (slot : Slot) (v : Bool) (x : Security) : Security :=
  match slot with
  | .a => { x with fixedA := v }
  | .b => { x with fixedB := v }

/-- TRIAL is valid while VALID is 1 and SLOT differs from ACTIVE_SLOT (R572). -/
def trialValid (x : Security) : Bool := x.trial && x.trialSlot != x.activeSlot

/-- The staging slot (R573). -/
def stagingSlot (s : State) : Slot := otherSlot (secOf s).activeSlot

/-- COMMIT_SEQ raised by 1: 16 bits (R570). -/
def nextCommit (x : Security) : Security := { x with commitSeq := (x.commitSeq + 1) % 65536 }

/-- The slot passes R57: `good` is what the boot code finds of its words; the anti-rollback counter must reach ROLLBACK_MIN. -/
def slotPasses (s : State) (x : Slot) (good : Bool) : Bool :=
  match imageOf s.update.mram x with
  | some i => good && i.intact && (secOf s).rollbackMin ≤ i.rollback
  | none => false

/-- The firmware version that the image of a slot has; 0 without one. -/
def imageVer (s : State) (x : Slot) : Nat :=
  match imageOf s.update.mram x with
  | some i => i.fwVer % 0x1000000
  | none => 0

/-- The firmware version in a slot; 0 without a valid header (R592). -/
def slotVer (s : State) (x : Slot) : Nat :=
  match imageOf s.update.mram x with
  | some i => if i.headed then i.fwVer % 0x1000000 else 0
  | none => 0

/-! ### Image headers (R567 to R569) -/

/-- The image that a header of 256 bytes describes. -/
def headerImage (h : List Byte) : Image :=
  { intact := true, fwVer := fieldAt h 8 4, settingsFmt := fieldAt h 12 2, key := byteAt h 14 % 4,
    revoke := BitVec.ofNat 4 (byteAt h 15), rollback := fieldAt h 16 4, length := fieldAt h 20 4, header := h }

/-- DIGEST of a header. -/
def headerDigest (h : List Byte) : List Byte := (h.drop 32).take 32

/-- MAGIC, PART and HDR_FMT. -/
def headerKnown (h : List Byte) : Bool := h.take 4 == [0x5A, 0x42, 0x46, 0x57] && fieldAt h 4 2 == 0x2064 && fieldAt h 6 2 == 1

/-- Reserved bytes are 0 and LENGTH is in range. -/
def headerClean (h : List Byte) : Bool :=
  let len := fieldAt h 20 4
  byteAt h 11 == 0 && byteAt h 14 < 4 && byteAt h 15 < 16 && zeroAt h 24 8 && zeroAt h 64 128
    && 4 ≤ len && len ≤ 524032 && len % 4 == 0

/-- A key slot (R570). -/
def keyOf (x : Security) (n : Nat) : List Byte := tget x.keys n (zeros 64)

/-- A key slot holds a key. -/
def keyPresent (x : Security) (n : Nat) : Bool := (keyOf x n).any (· != 0)

/-- The first detail of R569 that a header fails; the digest is judged at the last body byte. -/
def headerFailure (x : Security) (h : List Byte) : Option Nat :=
  let i := headerImage h
  if !headerKnown h then some 0x0E0001
  else if !headerClean h then some 0x0E0002
  else if !keyPresent x i.key || x.revoked.getLsbD i.key || i.revoke.getLsbD i.key then some 0x0E0003
  else if !verifySig (keyOf x i.key) (h.take 192) ((h.drop 192).take 64) then some 0x0E0004
  else if i.rollback < x.rollbackMin then some 0x0E0005
  else none

/-! ### Guards (R577) -/

/-- The rule of OP holds of a signal's value: the vehicle is stationary. -/
def ruleHolds (op : Nat) (v limit : Int) : Bool :=
  match op with
  | 1 => v ≤ limit
  | 2 => v = limit
  | 3 => v.natAbs ≤ limit
  | _ => false

/-- The motion guard refuses (R577); it is not applied in recovery. -/
def motionRefuses (s : State) : Bool :=
  let g := secOf s
  g.motionEn && s.aon.bootResult != 2 && match sigBody s g.signal with
    | some (.source _ _ _ _ n) =>
      !ruleHolds g.op (readValue s g.signal).toInt g.limit || match pduOf s n with
        | some p => p.stale
        | none => true
    | _ => true

/-- The battery guard refuses (R577). -/
def batteryRefuses (s : State) : Bool := !s.isReady 14 || s.load.vf < (secOf s).lowMv

/-- The first guard that refuses at PART 1 of OPEN_SESSION. -/
def guardFailure (s : State) : Option Nat :=
  if motionRefuses s then some 0x0E0100
  else if batteryRefuses s then some 0x0E0200
  else if (secOf s).lock then some 0x0E0300
  else none

/-! ### Proof mode (R580, R585, R586) -/

/-- MAGIC, STATE 0x02, LENGTH and CRC of a settings area hold and each of its words is correctable (R584, R585). -/
def areaGood (a : Area) : Bool :=
  a.readable && a.magic == settingsMagic && a.state == 2 && decide (a.length ≤ 262112) && a.crc == crc32 (a.records.take a.length)

/-- The active area as an image finds it: none when it reads it, else the FMT found, 0xFFFF for a failed header (R585, R586). -/
def areaUnreadable (s : State) (i : Image) : Option Nat :=
  let a := areaOf s.update.mram (secOf s).activeArea
  if !areaGood a then some 0xFFFF
  else if a.fmt = i.settingsFmt || Config.readsFormat i.fwVer a.fmt then none
  else some a.fmt

/-- What the image of a slot finds of the active area: an image reads no other (R585). -/
def readSettings (x : Slot) (s : State) : Option Nat := (imageOf s.update.mram x).bind (areaUnreadable s)

/-- An area that an image writes in its own format, tentative; its records are given by no rule (R581, R584; log entry 3). -/
def ownArea (i : Image) (s : State) : Area :=
  let r := (Config.settingsRecords s.free).take 262112
  { magic := settingsMagic, fmt := i.settingsFmt, state := 1, seq := (secOf s).commitSeq, length := r.length, crc := crc32 r, records := r,
    readable := true }

/-- An enabled channel (R196), one that waits SETTLE after its enable among them (R207). -/
def chanEnabled (c : Chan) : Bool := c.state != .disabled || c.settleWait

/-- The mode that a channel runs in, or will when the development or the enable that waits takes effect (R205, R231). -/
def recordedMode (c : Chan) : Nat :=
  match c.held with
  | some h => if h.mode = 0xFF then (devSettings c).mode else h.mode
  | none => c.nextMode.getD c.mode

/-- The running mode of a channel becomes `m`, as a development would make it (R205). -/
def runMode (ch m : Nat) (s : State) : State := judgeMode ch (s.modChan ch (modDeveloped s.now id (some m)))

/-- Every enabled channel runs in SAFELIGHT, and its mode is recorded (R586). -/
def enterSafelight (s : State) : State :=
  let modes := (List.range 64).map fun ch => recordedMode (s.chan ch)
  let s := { s with update := { s.update with savedModes := modes } }
  forRange 64 (fun ch s => if chanEnabled (s.chan ch) then runMode ch 1 s else s) s

/-- Every channel returns to its recorded mode (R586). -/
def leaveSafelight (s : State) : State :=
  let modes := s.update.savedModes
  let s := { s with update := { s.update with unreadable := none, savedModes := [] } }
  if modes.isEmpty then s
  else forRange 64 (fun ch s =>
    let c := s.chan ch
    if c.nextMode.getD c.mode = modes.getD ch 0 then s else runMode ch (modes.getD ch 0) s) s

/-- An image that starts out of recovery ends it: CMD is set (R60, R61, R70). -/
def endRecovery (s : State) : State :=
  if s.aon.bootResult = 2 then readyOn (oneBit 2) { s with aon := { s.aon with bootResult := 1 } } else s

/-- The staged image has been loaded and starts in proof mode: it reads the active settings area, and writes its own format to
the TRIAL area when it can (R580, R581, R585, R586). -/
def startProof (s : State) : State :=
  let x := secOf s
  match imageOf s.update.mram x.trialSlot with
  | none => s
  | some i =>
    let found := areaUnreadable s i
    let fmt := match found with
      | some f => f
      | none => (areaOf s.update.mram x.activeArea).fmt
    let s := { s with
      aon := { s.aon with proof := true, bootSlot := some x.trialSlot }
      update := { s.update with
        running := some x.trialSlot, unreadable := found, fmtWritten := found.isNone, restarted := false, fixInstant := none } }
    let s := if found.isNone then drawn 1 (modMram (modArea x.trialArea fun _ => ownArea i s) s) else enterSafelight s
    let s := endRecovery s
    raiseEvent 0 0x0E04 (le 1 (flag found.isSome 1) ++ zeros 1 ++ le 2 fmt ++ le 4 (i.fwVer % 0x1000000) ++ le 2 s.update.confirm) s

/-- A pause for an activation has lost its old image: its last reply has gone (R43, R578). -/
def activationDue (s : State) : Bool := s.engine.pause == some .activation && s.engine.activate.isNone

/-- PROOF_MODE_START (R580): the boot code has loaded the staged slot and found it good (R57). -/
def execProofModeStart (s : State) : Host.Outcome State Fault Refusal :=
  if activationDue s && !s.aon.proof && trialValid (secOf s) && slotPasses s (secOf s).trialSlot true then next (startProof s)
  else next s

/-! ### Fixes (R581, R582) -/

/-- Seconds of the reference in nanoseconds. -/
def secNs : Nat := 1000000000

/-- The steps of a fix, in order; the second is the fix instant (R582). -/
def fixImage (s : State) : State :=
  let x := secOf s
  match imageOf s.update.mram x.trialSlot with
  | none => s
  | some i =>
    let old := x.activeArea
    let s := modMram (modArea x.trialArea fun a => { a with state := 2 }) s
    let s := modSec (fun x => nextCommit (setFixedOnce x.trialSlot true { x with
      activeSlot := x.trialSlot, activeArea := x.trialArea, rollbackMin := max x.rollbackMin i.rollback,
      revoked := x.revoked ||| i.revoke })) s
    let s := { s with update := { s.update with fixInstant := some (stampNow s), fixes := inc32 s.update.fixes, timerEnd := none } }
    let s := modSec (fun x => { x with trial := false }) s
    let s := modMram (modArea old fun a => { a with state := 3 }) s
    let s := { s with aon := { s.aon with proof := false } }
    raiseEvent 0 0x0E05 (zeros 4 ++ le 4 (i.fwVer % 0x1000000) ++ le 4 (secOf s).rollbackMin) s

/-- FIX (R581, R582): MIN_PROOF after the timer's start at the earliest, when the self-tests of the lockstep pair, of command-engine RAM
and of the MRAM controller pass, as `selfTests` says. When the timer runs out at that edge, the fallback wins (R587). -/
def execFix (selfTests : Bool) (s : State) : Host.Outcome State Fault Refusal :=
  match s.update.timerEnd with
  | none => next s
  | some t =>
    if !selfTests || !s.aon.proof || s.engine.pause.isSome || s.update.unreadable.isSome || !s.update.fmtWritten || s.update.restarted then next s
    else
      let s := reachClk (s.update.timerStart + s.update.minProof * secNs) s
      next (if t ≤ s.time.clk then s else fixImage s)

/-! ### Fallbacks (R579, R583) -/

/-- REJECTED takes the version of an image and a reason (R570). -/
def recordRejected (ver reason : Nat) (s : State) : State := modSec (fun x => { x with rejectedVer := ver, rejectedWhy := reason }) s

/-- A fallback begins: the trial area is discarded, TRIAL becomes invalid, REJECTED is recorded, and the fixed slot is loaded
during a command pause (R583). -/
def startFallback (reason : Nat) (s : State) : State :=
  let x := secOf s
  let s := modMram (modArea x.trialArea fun a => { a with state := 3 }) s
  let s := recordRejected (imageVer s x.trialSlot) reason (modSec (fun x => { x with trial := false }) s)
  { s with
    update := { s.update with timerEnd := none, fallbacks := inc32 s.update.fallbacks }
    engine := { s.engine with pause := some .fallback } }

/-- CONFIRM_TIMER_EXPIRY (R583): the fixed image takes over. -/
def execConfirmTimerExpiry (s : State) : Host.Outcome State Fault Refusal :=
  match s.update.timerEnd with
  | none => next s
  | some t => if !s.aon.proof then next s else next (startFallback 1 (reachClk t s))

/-- The fixed slot fails R57, as after a recovery: no slot passes, and the device is in recovery (R58, R60). -/
def enterRecovery (s : State) : State :=
  let s := { s with
    aon := { s.aon with proof := false, bootSlot := none, bootResult := 2 }
    update := { s.update with running := none, fmtWritten := false, restarted := false } }
  leaveSafelight (readyOff (oneBit 2) s)

/-- The fixed image runs again, its settings as it left them: it reads the active area anew (R579, R583, R585, R586). -/
def startFixed (s : State) : State :=
  let x := secOf s
  if !(slotPasses s x.activeSlot true && fixedOnce x x.activeSlot) then enterRecovery s
  else
    let s := { s with
      aon := { s.aon with proof := false, bootSlot := some x.activeSlot }
      update := { s.update with running := some x.activeSlot, fmtWritten := false, restarted := false } }
    let s := leaveSafelight s
    { s with update := { s.update with unreadable := readSettings x.activeSlot s } }

/-- Event 0x0E06 about the image last rejected (R595). -/
def fallbackEvent (s : State) : State :=
  raiseEvent 0 0x0E06 (le 1 (secOf s).rejectedWhy ++ zeros 3 ++ le 4 (secOf s).rejectedVer) s

/-- The staged slot has failed R57 in the pause: the fixed image is loaded again (R579). -/
def refuseStaged (s : State) : State :=
  let x := secOf s
  let s := recordRejected (imageVer s x.trialSlot) 4 (modSec (fun x => { x with trial := false }) s)
  fallbackEvent (startFixed { s with update := { s.update with fallbacks := inc32 s.update.fallbacks } })

/-! ### The end of a command pause (R43, R45, R46, R578, R580, R583) -/

/-- The replies that waited for the end of the pause go (R45). -/
def deliverLate (s : State) : State :=
  let l := s.engine.late
  forEach l deliverReply { s with engine := { s.engine with pause := none, late := [] } }

/-- The confirmation timer starts at the end of the pause (R580). -/
def startTimer (s : State) : State :=
  { s with update := { s.update with timerStart := s.time.clk, timerEnd := some (s.time.clk + s.update.confirm * secNs) } }

/-- COMMAND_PAUSE_END: the image that was starting takes commands again. `slotGood` is what the boot code finds of the words of
a staged slot that has not started yet. -/
def execCommandPauseEnd (slotGood : Bool) (s : State) : Host.Outcome State Fault Refusal :=
  match s.engine.pause with
  | none => next s
  | some .activation =>
    if s.engine.activate.isSome then next s
    else
      let s := if s.aon.proof then s
        else if trialValid (secOf s) && slotPasses s (secOf s).trialSlot slotGood then startProof s
        else refuseStaged s
      next (deliverLate (if s.aon.proof then startTimer s else s))
  | some .fallback => next (deliverLate (fallbackEvent (startFixed s)))
  | some .restart => next (deliverLate s)

end Sys2Proof.Machine
end

