-- ==== Sys2Proof/Machine/UpdateCmds.lean ====
section
/-!
DEFINITION. The commands of groups 0x0E and 0x0F (R573 to R578, R583, R587 to R594), and the idle end of a session (R576).
-/

namespace Sys2Proof.Machine

/-- A session changed by `f`. -/
def modSession (f : Session → Session) (s : State) : State :=
  { s with update := { s.update with session := s.update.session.map f } }

/-- A refusal that also changes the state: counted for OPEN_SESSION and ACTIVATE (R592). -/
def refuseWith (p : Packet) (s : State) (status detail : Nat) : Verdict := .reply (noteRefusal p s) status detail []

/-! ### OPEN_SESSION (R573, R574, R589) -/

/-- The half of a header that a source has sent (R573). -/
def halfOf (s : State) : Source → Option (List Byte)
  | .sp => s.update.halfSp
  | .master => s.update.halfMaster
  | .ctx _ => s.update.halfCtx0

/-- The header buffer of a source. -/
def setHalf (src : Source) (h : Option (List Byte)) (s : State) : State :=
  match src with
  | .sp => { s with update := { s.update with halfSp := h } }
  | .master => { s with update := { s.update with halfMaster := h } }
  | .ctx _ => { s with update := { s.update with halfCtx0 := h } }

/-- SLOT as commands write it. -/
def slotNumber : Slot → Nat
  | .a => 0 | .b => 1

/-- PART 1 has passed: FIXED_ONCE of the staging slot is cleared, its header is overwritten, and the session is open (R574). -/
def openNow (src : Source) (h : List Byte) (s : State) : State :=
  let slot := stagingSlot s
  let s := modSec (fun x => nextCommit (setFixedOnce slot false x)) s
  let s := modMram (putImage slot none) s
  let id := (s.update.opened + 1) % 2 ^ 32
  { s with update := { s.update with
      opened := id
      session := some { id := id, owner := src, image := headerImage h, digest := headerDigest h, body := [], verified := false,
                        approved := false, lastAt := s.time.clk } } }

/-- PART 1, with the source's half `a` (R573, R577). -/
def openPart1 (p : Packet) (s : State) : Verdict :=
  let t := setHalf p.source none s
  match s.update.session with
  | some x => refuseWith p t stBusy (sourceCode x.owner)
  | none =>
    match halfOf s p.source with
    | none => refuseWith p t stState 0x0E0700
    | some a =>
      if s.aon.proof then refuseWith p t stState 0x0E0400
      else match guardFailure s with
        | some d => refuseWith p t stState d
        | none =>
          let h := a ++ padTo 128 (p.params.drop 8)
          match headerFailure (secOf s) h with
          | some d => refuseWith p t stIntegrity d
          | none =>
            let slot := stagingSlot s
            let s' := openNow p.source h t
            okBody s' (le 4 s'.update.opened ++ le 1 (slotNumber slot) ++ zeros 3 ++ le 4 (headerImage h).length ++ zeros 4)

/-- OPEN_SESSION. -/
def openSession (p : Packet) (s : State) : Verdict :=
  let part := byteAt p.params 0
  badParam (part > 1) 0 <|
  badParam (!zeroAt p.params 1 7) 1 <|
    if part = 0 then okDone (setHalf p.source (some (padTo 128 (p.params.drop 8))) s) else openPart1 p s

/-- OPEN_SESSION: its row of the opcode index. -/
def specOpenSession : CmdSpec :=
  { opcode := 0x0E01, plen := plenIs 34, right := fromCtx0Sp, needs := needsOf [2, 15], readOnly := false }

/-- OPEN_SESSION (R589). -/
def execOpenSession (p : Packet) (s : State) : Host.Outcome State Fault Refusal :=
  next (runCommand specOpenSession openSession p s)

/-! ### WRITE_IMAGE_BLOCK (R575, R590) -/

/-- "Session owner": a guest never owns a session; without a session the state check refuses (R156, R578). -/
def fromSession : SourceRule := fun p s =>
  match s.update.session with
  | some x => if x.owner = p.source then none else some 0xFF
  | none => if guestOf p.source = none then none else some 0xFF

/-- SESSION of GET_UPDATE_STATUS (R592). -/
def sessionCode (s : State) : Nat :=
  match s.update.session with
  | some x => if x.verified then 3 else 2
  | none => if s.update.halfSp.isSome || s.update.halfCtx0.isSome || s.update.halfMaster.isSome then 1 else 0

/-- The open session that a SESSION_ID at parameter offset 0 names. -/
def withSession (p : Packet) (s : State) (h : Session → Verdict) : Verdict :=
  match s.update.session with
  | some x => if x.id = fieldAt p.params 0 4 then h x else .refuse stState 0x0E0A00
  | none => .refuse stState 0x0E0A00

/-- The last body byte has come: the digest decides (R575). -/
def completeBody (x : Session) (s : State) : Verdict :=
  if sha256 x.body != x.digest then .reply (endSession 5 s) stIntegrity 0x0E0006 []
  else
    let s := modMram (putImage (stagingSlot s) (some { x.image with body := x.body })) (modSession (fun x => { x with verified := true }) s)
    let s := raiseEvent 0 0x0E02 (zeros 1 ++ le 1 (sourceCode x.owner) ++ zeros 2 ++ le 4 x.id ++ le 4 x.image.fwVer) s
    okBody s (le 4 x.body.length ++ le 1 (sessionCode s) ++ zeros 3)

/-- WRITE_IMAGE_BLOCK. -/
def writeImageBlock (p : Packet) (s : State) : Verdict :=
  let off := fieldAt p.params 4 4
  let len := fieldAt p.params 8 2
  badParam (len < 4 || len > 224 || len % 4 ≠ 0 || p.plen ≠ 3 + len / 4) 8 <|
  badParam (!zeroAt p.params 10 2) 10 <|
    withSession p s fun x =>
      refuseIf (off ≠ x.body.length || off + len > x.image.length) stState 0x0E0800 <|
        let x := { x with body := x.body ++ (p.params.drop 12).take len }
        let s := modSession (fun _ => x) s
        if x.body.length = x.image.length then completeBody x s
        else okBody s (le 4 x.body.length ++ le 1 (sessionCode s) ++ zeros 3)

/-- WRITE_IMAGE_BLOCK: its row of the opcode index. -/
def specWriteImageBlock : CmdSpec :=
  { opcode := 0x0E02, plen := fun n => 4 ≤ n && n ≤ 59, right := fromSession, needs := needsOf [2, 15], readOnly := false }

/-- WRITE_IMAGE_BLOCK (R590). -/
def execWriteImageBlock (p : Packet) (s : State) : Host.Outcome State Fault Refusal :=
  next (runCommand specWriteImageBlock writeImageBlock p s)

/-! ### CLOSE_SESSION, ACTIVATE, APPROVE, VETO, REJECT_IMAGE (R576 to R578, R583, R587, R591) -/

/-- CLOSE_SESSION. -/
def closeSession (p : Packet) (s : State) : Verdict := withSession p s fun _ => okDone (endSession 1 s)

/-- CLOSE_SESSION: its row of the opcode index. -/
def specCloseSession : CmdSpec :=
  { opcode := 0x0E03, plen := plenIs 1, right := fromSession, needs := needsOf [2, 15], readOnly := false }

/-- CLOSE_SESSION (R591). -/
def execCloseSession (p : Packet) (s : State) : Host.Outcome State Fault Refusal :=
  next (runCommand specCloseSession closeSession p s)

/-- The activation is decided: TRIAL is written, the session ends, and the engine takes no more commands (R578). -/
def activateNow (p : Packet) (confirm minProof : Nat) (s : State) : State :=
  let s := modSec (fun x => { x with trial := true, trialSlot := otherSlot x.activeSlot, trialArea := otherSlot x.activeArea }) s
  let s := endSession 6 s
  { s with
    update := { s.update with confirm := confirm, minProof := minProof, trialAt := stampNow s, fixInstant := none }
    engine := { s.engine with pause := some .activation, activate := some p } }

/-- ACTIVATE. -/
def activate (p : Packet) (s : State) : Verdict :=
  let confirm := if fieldAt p.params 4 2 = 0 then 120 else fieldAt p.params 4 2
  let minProof := if fieldAt p.params 6 2 = 0 then 5 else fieldAt p.params 6 2
  badParam (confirm < 10 || confirm > 3600) 4 <|
  badParam (minProof ≥ confirm) 6 <|
    match s.update.session with
    | none => .refuse stState 0x0E0500
    | some x =>
      refuseIf (!x.verified) stState 0x0E0500 <|
      refuseIf (x.id ≠ fieldAt p.params 0 4) stState 0x0E0A00 <|
        match guardFailure s with
        | some d => .refuse stState d
        | none =>
          refuseIf ((secOf s).reqApproval && p.source != .sp && !x.approved) stState 0x0E0600 <|
            .wait (activateNow p confirm minProof s)

/-- ACTIVATE: its row of the opcode index. -/
def specActivate : CmdSpec :=
  { opcode := 0x0E04, plen := plenIs 2, right := fromSession, needs := needsOf [2, 15], readOnly := false }

/-- ACTIVATE (R578, R591). -/
def execActivate (p : Packet) (s : State) : Host.Outcome State Fault Refusal := next (runCommand specActivate activate p s)

/-- APPROVE. -/
def approve (p : Packet) (s : State) : Verdict :=
  match s.update.session with
  | some x =>
    refuseIf (x.id ≠ fieldAt p.params 0 4 || x.digest.take 8 != (p.params.drop 4).take 8) stState 0x0E0900 <|
      okDone (modSession (fun x => { x with approved := true }) s)
  | none => .refuse stState 0x0E0900

/-- APPROVE: its row of the opcode index. -/
def specApprove : CmdSpec :=
  { opcode := 0x0E05, plen := plenIs 3, right := fromSp, needs := needsOf [2, 15], readOnly := false }

/-- APPROVE (R577, R591). -/
def execApprove (p : Packet) (s : State) : Host.Outcome State Fault Refusal := next (runCommand specApprove approve p s)

/-- VETO: of a session, or of the image in proof mode, also by the number of the session it came from (R587). -/
def veto (p : Packet) (s : State) : Verdict :=
  let id := fieldAt p.params 0 4
  if id = 0xFFFFFFFF || (s.aon.proof && s.update.session.isNone && id = s.update.opened) then
    refuseIf (!s.aon.proof) stState 0x0E0900 <|
      .done (startFallback 3 (deliverReply
        { dest := p.source, opcode := p.opcode, tag := p.tag, status := stOk, position := s.pos, detail := 0, body := [] } s))
  else withSession p s fun _ => okDone (endSession 2 s)

/-- VETO: its row of the opcode index. -/
def specVeto : CmdSpec :=
  { opcode := 0x0E06, plen := plenIs 1, right := fromSp, needs := needsOf [2, 15], readOnly := false }

/-- VETO (R591). -/
def execVeto (p : Packet) (s : State) : Host.Outcome State Fault Refusal := next (runCommand specVeto veto p s)

/-- REJECT_IMAGE: too late once the fix has begun (R587). -/
def rejectImage (p : Packet) (s : State) : Verdict :=
  if s.aon.proof then
    .done (startFallback (if p.source = .sp then 3 else 2) (deliverReply
      { dest := p.source, opcode := p.opcode, tag := p.tag, status := stOk, position := s.pos, detail := 0,
        body := le 8 (stampNow s) } s))
  else match s.update.fixInstant with
    | some t => .reply s stTooLate 0 (le 8 t)
    | none => .refuse stState 0x0E0900

/-- REJECT_IMAGE: its row of the opcode index. -/
def specRejectImage : CmdSpec :=
  { opcode := 0x0E07, plen := plenIs 0, right := fromCtx0Sp, needs := needsOf [2, 15], readOnly := false }

/-- REJECT_IMAGE (R583, R591). -/
def execRejectImage (p : Packet) (s : State) : Host.Outcome State Fault Refusal :=
  next (runCommand specRejectImage rejectImage p s)

/-- SESSION_IDLE_TIMEOUT (R576): 10 s without a command from the owner. -/
def execSessionIdleTimeout (s : State) : Host.Outcome State Fault Refusal :=
  match s.update.session with
  | some x => next (endSession 3 (reachClk (x.lastAt + 10 * secNs) s))
  | none => next s

/-! ### GET_UPDATE_STATUS (R592) -/

/-- SLOT_A or SLOT_B of the status. -/
def slotWord (s : State) (x : Slot) : Nat :=
  slotVer s x + flag (fixedOnce (secOf s) x) 0x1000000 + flag ((secOf s).activeSlot == x) 0x2000000

/-- Whole seconds left of the confirmation timer. -/
def confirmLeft (s : State) : Nat :=
  match s.update.timerEnd with
  | some t => if s.aon.proof then ceilDiv (t - s.time.clk) secNs else 0
  | none => 0

/-- FLAGS of the status. -/
def updateFlags (s : State) : Nat :=
  let x := secOf s
  flag (s.update.session.any (·.approved)) 1 + flag x.lock 2 + flag x.reqApproval 4 + flag x.motionEn 8
    + flag (motionRefuses s) 16 + flag (batteryRefuses s) 32 + flag s.update.unreadable.isSome 64

/-- The update status, 64 bytes; also the record of contact-sheet section 0x0E01. -/
def updateRecord (s : State) : List Byte :=
  let u := s.update
  let x := u.session
  le 1 (sessionCode s) ++ le 1 (match x with | some x => sourceCode x.owner | none => 0xFF) ++ le 1 (imageState s) ++
    le 1 (updateFlags s) ++
    le 4 (match x with | some x => x.body.length | none => 0) ++ le 4 (match x with | some x => x.image.length | none => 0) ++
    le 4 (slotWord s .a) ++ le 4 (slotWord s .b) ++ le 4 (secOf s).rollbackMin ++ le 2 (confirmLeft s) ++
    le 2 (areaOf u.mram (secOf s).activeArea).fmt ++ le 4 (match x with | some x => x.id | none => 0) ++
    le 4 u.fixes ++ le 4 u.fallbacks ++ le 4 u.refusals ++ le 2 s.load.vf ++ zeros 10 ++ le 8 (stampNow s)

/-- GET_UPDATE_STATUS: its row of the opcode index. -/
def specGetUpdateStatus : CmdSpec :=
  { opcode := 0x0E08, plen := plenIs 0, right := fromAll, needs := needsOf [2, 15], readOnly := true }

/-- GET_UPDATE_STATUS (R592). -/
def execGetUpdateStatus (p : Packet) (s : State) : Host.Outcome State Fault Refusal :=
  next (runCommand specGetUpdateStatus (fun _ s => okBody s (updateRecord s)) p s)

/-! ### Owner lock and security (R588, R593, R594) -/

/-- FLAGS of GET_SECURITY. -/
def securityFlags (s : State) : Nat := let x := secOf s; flag x.lock 1 + flag x.reqApproval 2 + flag x.motionEn 4

/-- The reply to a change of the guards. -/
def guardReply (s : State) : Verdict := okBody s (le 1 (securityFlags s) ++ zeros 3 ++ le 8 (stampNow s))

/-- "SP, CTX0"; CTX0 may not set REQUIRE_APPROVAL (R593). -/
def fromLock : SourceRule := fun p _ =>
  match actsAs p.source with
  | none => none
  | some 0 => if byteAt p.params 0 = 2 then some 0xFF else none
  | some _ => some 0xFF

/-- A field that a form of SET_OWNER_LOCK does not use is written 0. -/
def unusedIn (used : Bool) (v : Nat) : Bool := !used && v != 0

/-- SET_OWNER_LOCK. -/
def setOwnerLock (p : Packet) (s : State) : Verdict :=
  let action := byteAt p.params 0
  let op := byteAt p.params 1
  let raw := fieldAt p.params 2 2
  let low := if raw = 0 then 11800 else raw
  let signal := fieldAt p.params 4 4
  let limit := fieldAt p.params 8 4
  let motion := action == 3
  let ctx0 := p.source != .sp
  badParam (action = 0 || action > 4) 0 <|
  badParam (unusedIn motion op || (motion && (op = 0 || op > 3))) 1 <|
  badParam (unusedIn (action == 4) raw || (action = 4 && (low < 9000 || low > 14000))) 2 <|
  badParam (unusedIn motion signal || signal ≥ 0x40000) 4 <|
  badParam (unusedIn motion limit) 8 <|
  badParam (!zeroAt p.params 12 4) 12 <|
  refuseIf (ctx0 && action = 4 && low < (secOf s).lowMv) stState 0x0F0100 <|
  refuseIf (ctx0 && motion && (secOf s).motionEn) stState 0x0F0200 <|
    guardReply (modSec (fun x => match action with
      | 1 => { x with lock := true }
      | 2 => { x with reqApproval := true }
      | 3 => { x with motionEn := true, op := op, signal := signal, limit := signedOf 32 limit }
      | _ => { x with lowMv := low }) s)

/-- SET_OWNER_LOCK: its row of the opcode index. -/
def specSetOwnerLock : CmdSpec :=
  { opcode := 0x0F01, plen := plenIs 4, right := fromLock, needs := needsOf [2, 15], readOnly := false }

/-- SET_OWNER_LOCK (R593). -/
def execSetOwnerLock (p : Packet) (s : State) : Host.Outcome State Fault Refusal :=
  next (runCommand specSetOwnerLock setOwnerLock p s)

/-- CLEAR_OWNER_LOCK. -/
def clearOwnerLock (p : Packet) (s : State) : Verdict :=
  let action := byteAt p.params 0
  badParam (action = 0 || action > 3) 0 <|
  badParam (!zeroAt p.params 1 3) 1 <|
    guardReply (modSec (fun x => match action with
      | 1 => { x with lock := false }
      | 2 => { x with reqApproval := false }
      | _ => { x with motionEn := false }) s)

/-- CLEAR_OWNER_LOCK: its row of the opcode index. -/
def specClearOwnerLock : CmdSpec :=
  { opcode := 0x0F02, plen := plenIs 1, right := fromSp, needs := needsOf [2, 15], readOnly := false }

/-- CLEAR_OWNER_LOCK (R593). -/
def execClearOwnerLock (p : Packet) (s : State) : Host.Outcome State Fault Refusal :=
  next (runCommand specClearOwnerLock clearOwnerLock p s)

/-- KEY_ID of a key slot. -/
def keyId (x : Security) (n : Nat) : List Byte := if keyPresent x n then (sha256 (keyOf x n)).take 8 else zeros 8

/-- GET_SECURITY. -/
def getSecurity (_ : Packet) (s : State) : Verdict :=
  let x := secOf s
  let keys := total ((List.range 4).map fun n => flag (keyPresent x n) (2 ^ n))
  okBody s (le 1 (securityFlags s) ++ le 1 x.op ++ le 2 x.lowMv ++ le 4 x.signal ++ le 4 (unsignedOf 32 x.limit) ++
    le 4 x.rollbackMin ++ le 1 (keys + 16 * x.revoked.toNat) ++ zeros 7 ++ (List.range 4).flatMap (keyId x) ++ le 8 (stampNow s))

/-- GET_SECURITY: its row of the opcode index. -/
def specGetSecurity : CmdSpec :=
  { opcode := 0x0F03, plen := plenIs 0, right := fromAll, needs := needsOf [2, 15], readOnly := true }

/-- GET_SECURITY (R594). -/
def execGetSecurity (p : Packet) (s : State) : Host.Outcome State Fault Refusal :=
  next (runCommand specGetSecurity getSecurity p s)

end Sys2Proof.Machine
end

