-- ==== Sys2Proof/Machine/ContactSheet.lean ====
section
/-!
DEFINITION. The fault log as it is read and acknowledged (R38 to R40, R187), and the contact sheet (R184 to R189). The layouts of
sections 0x0101 to 0x0103, which the spec gives by register and counter only, are the model's (log entry 45).
-/

namespace Sys2Proof.Machine

/-! ### The fault log (R38 to R40, R187) -/

/-- Sequence numbers run from 1 to 2^32 - 1 (R39). -/
def seqCount : Nat := 0xFFFFFFFF

/-- How far a sequence number lies behind the newest, wrapping (R39, R187). -/
def seqAge (newest seq : Nat) : Nat := (newest + seqCount - seq) % seqCount

/-- The newest entry held; 0 for an empty log. -/
def newestSeq (s : State) : Nat := (s.log.entries.getLast?.map (·.seq)).getD 0

/-- The oldest entry held; 0 for an empty log. -/
def oldestSeq (s : State) : Nat := (s.log.entries.head?.map (·.seq)).getD 0

/-- The newest acknowledged entry; 0 for none. -/
def ackedSeq (s : State) : Nat := ((s.log.entries.reverse.find? (·.acked)).map (·.seq)).getD 0

/-- Every entry held up to and including a sequence number is acknowledged; 0xFFFF_FFFF takes every entry (R187). -/
def acknowledge (ack : Nat) (s : State) : State :=
  let newest := newestSeq s
  let covered := fun (e : FaultEntry) => ack == seqCount || seqAge newest ack ≤ seqAge newest e.seq
  let l := s.log.entries.map fun e => if covered e then { e with acked := true } else e
  if ack = 0 then s else { s with log := { s.log with entries := l } }

/-- The 32 bytes of an entry (R39): CHECK is computed with ACKED taken as 0. -/
def faultBytes (e : FaultEntry) : List Byte :=
  let body := fun acked => le 4 e.seq ++ le 1 e.cls ++ le 1 (flag (clsAsserts e.cls) 1 + flag acked 2) ++ le 1 e.source ++
    zeros 1 ++ le 8 e.stamp ++ le 4 e.info1 ++ le 4 e.info2 ++ zeros 4
  body e.acked ++ le 4 (crc32 (body false))

/-- Entries from a sequence number on; 0 or an older number reads from the oldest. A number that lies ahead of the newest, by
less than half the range, has no entry yet (R40). -/
def logFrom (s : State) (start : Nat) : List FaultEntry :=
  let newest := newestSeq s
  let l := s.log.entries.filter (·.readable)
  if start = 0 then l
  else if seqAge newest start ≥ 2 ^ 31 then []
  else l.filter fun e => seqAge newest e.seq ≤ seqAge newest start

/-- READ_FAULT_LOG. -/
def readFaultLog (p : Packet) (s : State) : Verdict :=
  let l := logFrom s (fieldAt p.params 0 4)
  let cont := ((l.drop 7).head?.map (·.seq)).getD 0
  okBody s (le 1 (min l.length 7) ++ zeros 3 ++ le 4 (oldestSeq s) ++ le 4 (newestSeq s) ++ le 4 cont
    ++ padTo 224 ((l.take 7).flatMap faultBytes))

/-- READ_FAULT_LOG: its row of the opcode index. -/
def specReadFaultLog : CmdSpec :=
  { opcode := 0x0107, plen := plenIs 1, right := fromCtx0Sp, needs := needsOf [2], readOnly := true }

/-- READ_FAULT_LOG (R40). -/
def execReadFaultLog (p : Packet) (s : State) : Host.Outcome State Fault Refusal :=
  next (runCommand specReadFaultLog readFaultLog p s)

/-! ### Sections of a sheet (R189) -/

/-- A section: its code and its records, all of one length. -/
structure Section where
  code    : Nat
  len     : Nat
  records : List (List Byte)

/-- GET_READINESS (R89): the readiness, boot status, power state and stamp. -/
def readinessBytes (s : State) : List Byte :=
  le 4 s.aon.ready.toNat ++ le 4 (bootStatus s) ++ le 1 (powerCode s.aon.power) ++ zeros 3 ++ le 8 (stampNow s)

/-- Section 0x0101. -/
def readinessSection (s : State) : Section :=
  { code := 0x0101, len := 28, records := [readinessBytes s ++ le 8 s.aon.wake.toNat] }

/-- Section 0x0102: the counters of R37 in their order. Retired cells belong to the payload pool. -/
def memorySection (s : State) : Section :=
  { code := 0x0102, len := 16, records := (List.range 12).map fun r =>
      let c := tget s.mem.regions r memCounterReset
      le 4 c.corrected ++ le 4 c.uncorr ++ le 4 c.lastAddr ++ le 4 (if r = 1 then s.mem.retired else 0) }

/-- Section 0x0103. -/
def paritySection (s : State) : Section :=
  { code := 0x0103, len := 4, records := (List.range 16).map fun n => le 4 (tget s.mem.parity n 0) }

/-- Queues that exist or are to exist. -/
def liveQids (s : State) : List (Nat × (QKind × Nat)) :=
  allQids.filterMap fun q => match qidOf q with
    | some k => if qDepth s k != 0 || qPending s k != 0 then some (q, k) else none
    | none => none

/-- Section 0x0701 over the queues that pass. -/
def queueSection (s : State) (keep : QKind × Nat → Bool) : Section :=
  { code := 0x0701, len := 64, records := ((liveQids s).filter fun q => keep q.2).map fun q => queueRecord s q.1 q.2 }

/-- The whole sheet of CTX0, the safety port and the stack master. -/
def fullSections (s : State) : List Section :=
  [readinessSection s, memorySection s, paritySection s,
   { code := 0x0201, len := 128, records := (List.range 64).map (contextRecord s) },
   { code := 0x0401, len := 128, records := (List.range 64).map (chanRecord s) },
   queueSection s fun _ => true,
   { code := 0x0901, len := 64, records := (List.range 64).map fun c => monitorRecord s c c },
   { code := 0x0A01, len := 48, records := (List.range 4).map (laneRecord s) ++ s.pdus.map fun p => pduRecord s p.1 },
   { code := 0x0B01, len := 72, records := (List.range 32).map (cvuRecord s) },
   { code := 0x0C01, len := 64, records := (List.range 96).map (loadRecord s) },
   { code := 0x0D01, len := 64, records := [linkRecord s .a, linkRecord s .b] },
   { code := 0x0E01, len := 64, records := [updateRecord s] }]

/-- A queue of context `c`. -/
def ownQueue (c : Nat) : QKind × Nat → Bool
  | (.cmdq, n) => n == c
  | (.rplq, n) => n == c
  | (.evtq, n) => n == c
  | (.txq, n) => n == c
  | (.rxq, n) => n == c
  | _ => false

/-- One record per virtual channel of a guest; an unmapped one reads 0. -/
def mappedRecords (s : State) (c len : Nat) (rec_ : Nat → Nat → List Byte) : List (List Byte) :=
  (List.range 64).map fun v => match physChan s c v with
    | some ch => rec_ ch v
    | none => zeros len

/-- The sheet of a guest (R189). -/
def guestSections (s : State) (c : Nat) : List Section :=
  [readinessSection s,
   { code := 0x0201, len := 128, records := [contextRecord s c] },
   { code := 0x0401, len := 128, records := mappedRecords s c 128 fun ch _ => chanRecord s ch },
   queueSection s (ownQueue c),
   { code := 0x0901, len := 64, records := mappedRecords s c 64 fun ch v => monitorRecord s ch v }]

/-- The directory entries, the first section standing at `at_` (R189). -/
def directory (at_ : Nat) : List Section → List Byte
  | [] => []
  | x :: l =>
    le 2 x.code ++ le 2 x.records.length ++ le 4 x.len ++ le 4 at_ ++ zeros 4 ++ directory (at_ + x.len * x.records.length) l

/-- The sheet that a party takes now (R189). -/
def sheetOf (s : State) (src : Source) : List Byte :=
  let l := match guestOf src with
    | some c => guestSections s c
    | none => fullSections s
  let dir := directory (32 + 16 * l.length) l
  let body := dir ++ l.flatMap fun x => x.records.flatMap id
  le 4 (32 + body.length) ++ le 8 (stampNow s) ++ le 1 s.pos ++ le 1 (sourceCode src) ++ le 2 l.length ++ zeros 16 ++ body

/-! ### TAKE_CONTACT_SHEET (R184 to R187) -/

/-- The bank of a party (R184). -/
def bankOf : Source → Nat
  | .sp => 0
  | _ => 1

/-- The capture: the bank holds the sheet of its holder at the present edge (R185). Other devices' part of a link load is a
free value (log entry 41). -/
def captureSheet (n : Nat) (src : Source) (s : State) : State :=
  let b := sheetOf s src
  (drawn 1 s).modBank n fun x => { x with
    takes := (x.takes + 1) % 2 ^ 15, sheet := b, stamp := stampNow s, armed := none, release := s.time.clk + sheetHold }

/-- The result of a take. -/
def takeBody (n : Nat) (s : State) : List Byte :=
  let b := s.bank n
  le 2 (n + 2 * b.takes) ++ zeros 2 ++ le 4 b.sheet.length ++ le 8 b.stamp ++ le 4 (newestSeq s) ++ le 4 (ackedSeq s)

/-- TAKE_CONTACT_SHEET. -/
def takeContactSheet (p : Packet) (s : State) : Verdict :=
  let instant := fieldAt p.params 0 8
  let n := bankOf p.source
  badParam (instant ≠ 0 && (instant < s.now + 100 * usNs || s.now + secNs < instant)) 0 <|
    match (s.bank n).holder with
    | some h => refuseIf (h != p.source) stBusy (sourceCode h) (take n instant)
    | none => take n instant
where
  /-- The bank is the source's: captured at once, or armed (R186). -/
  take (n instant : Nat) : Verdict :=
    let s := acknowledge (fieldAt p.params 8 4) (s.modBank n fun b => { b with holder := some p.source })
    if instant = 0 then
      let s := captureSheet n p.source s
      okBody s (takeBody n s)
    else .wait (s.modBank n fun b => { b with armed := some (p, instant) })

/-- "All; guests need right 5", and ACK_SEQ only from CTX0 and the safety port (R187): DETAIL 0xFF for a guest that holds right 5 is
the model's choice (DESIGN CHOICE, log entry 52). -/
def fromTake : SourceRule := fun p s =>
  match guestOf p.source with
  | none => none
  | some g => if !hasRight s g 5 then some 5 else if fieldAt p.params 8 4 != 0 then some 0xFF else none

/-- TAKE_CONTACT_SHEET: its row of the opcode index. -/
def specTakeContactSheet : CmdSpec :=
  { opcode := 0x0102, plen := plenIs 3, right := fromTake, needs := needsOf [2], readOnly := true }

/-- TAKE_CONTACT_SHEET (R184). -/
def execTakeContactSheet (p : Packet) (s : State) : Host.Outcome State Fault Refusal :=
  next (runCommand specTakeContactSheet takeContactSheet p s)

/-- An armed take is captured at the present edge and answered (R44, R186). -/
def captureArmed (n : Nat) (s : State) : State :=
  match (s.bank n).armed with
  | none => s
  | some (p, _) =>
    let s := captureSheet n p.source s
    replyTaken p stOk 0 (takeBody n s) s

/-- CONTACT_SHEET_CAPTURE (R185, R186): the time base reaches INSTANT. -/
def execContactSheetCapture (bank : Fin 2) (s : State) : Host.Outcome State Fault Refusal :=
  match (s.bank bank.val).armed with
  | none => next s
  | some (_, t) => next (captureArmed bank.val (reachTime t s))

/-- Armed takes whose INSTANT a forward step has reached or jumped over (R363). -/
def captureDue (s : State) : State :=
  forEach [0, 1] (fun n s => match (s.bank n).armed with
    | some (_, t) => if t ≤ s.now then captureArmed n s else s
    | none => s) s

/-! ### READ_CONTACT_SHEET and the release of a bank (R184, R188) -/

/-- READ_CONTACT_SHEET. -/
def readContactSheet (p : Packet) (s : State) : Verdict :=
  let id := fieldAt p.params 0 2
  let off := fieldAt p.params 4 4
  let n := id % 2
  let b := s.bank n
  badParam (!zeroAt p.params 2 2) 2 <|
  badParam (off % 4 ≠ 0) 4 <|
  refuseIf (b.holder != some p.source || b.armed.isSome || b.sheet.isEmpty || b.takes ≠ id / 2) stState 0x000400 <|
  badParam (off ≥ b.sheet.length) 4 <|
    let d := (b.sheet.drop off).take 224
    let last := off + d.length = b.sheet.length
    let s := s.modBank n fun b =>
      if last then { b with holder := none, sheet := [] } else { b with release := s.time.clk + sheetHold }
    okBody s (le 4 off ++ le 2 d.length ++ zeros 2 ++ padTo 224 d)

/-- READ_CONTACT_SHEET: its row of the opcode index. The holder is a state check (R188). -/
def specReadContactSheet : CmdSpec :=
  { opcode := 0x0108, plen := plenIs 2, right := fromAll, needs := needsOf [2], readOnly := true }

/-- READ_CONTACT_SHEET (R188). -/
def execReadContactSheet (p : Packet) (s : State) : Host.Outcome State Fault Refusal :=
  next (runCommand specReadContactSheet readContactSheet p s)

/-- The reply to the bank's take waits for the end of a command pause (R44, R45, R184). -/
def sheetReplyWaits (s : State) (b : Bank) : Bool := s.engine.late.any fun r => r.opcode == 0x0102 && some r.dest == b.holder

/-- SHEET_BANK_RELEASE (R184): 200 ms after the reply to the take or the last read. -/
def execSheetBankRelease (bank : Fin 2) (s : State) : Host.Outcome State Fault Refusal :=
  let b := s.bank bank.val
  if b.holder.isNone || b.armed.isSome || sheetReplyWaits s b then next s
  else next ((reachClk b.release s).modBank bank.val fun b => { b with holder := none, sheet := [] })

end Sys2Proof.Machine
end

