-- ==== Sys2Proof/Machine/StepOps.lean ====
section
/-!
DEFINITION. Steps of the time base (R360 to R363, R375, R550) and time transfer to a follower (R545, R548).
-/

namespace Sys2Proof.Machine

/-! ### A step takes effect (R358, R360, R363) -/

/-- What a forward step has reached or jumped over is served at the step edge, once (R363). -/
def serveForward (s : State) : State :=
  let s := captureDue (switchDue s)
  let s := forEach (s.schedules.map (·.1)) stepSchedule s
  let s := forRange 8 stepTrigger s
  servePps (if s.time.ppsOut && s.time.ppsFall ≤ s.now then { s with time := { s.time with ppsOut := false } } else s)

/-- Event 0x0801 (R386). -/
def stepEvent (reason before : Nat) (s : State) : State := raiseEvent 0 0x0801 (le 1 reason ++ zeros 7 ++ le 8 before) s

/-- Entries armed for an instant that the time base has reached are ordinary from here: a backward step arms none again (R363,
R370). -/
def settleArmed (s : State) : State :=
  { s with mos := s.mos.map fun m => if m.2.armed.isSome && !armedNow s m.2 then (m.1, { m.2 with armed := none }) else m }

/-- The counter takes the value `v` at this edge. What the value before the step has reached is served at that edge too, once
(R360, R363). -/
def stepTo (v reason : Nat) (s : State) : State :=
  let before := s.now
  let s := settleArmed (serveForward s)
  let s := stepEvent reason before { s with time := { s.time with time := v, lastStep := v } }
  if before < v then serveForward s else servePps s

/-- The result of a step lies in range (R361). -/
def stepFits (v : Int) : Bool := 1 ≤ v && v < (2 ^ 63 : Nat)

/-- A STEP frame with a signed OFFSET in INFO (R538, R550). -/
def stepFrame (s : State) (offset : Int) : LinkFrame :=
  { typ := .step, src := s.pos, dst := 0, info := unsignedOf 64 offset, data := [] }

/-- A step of STEP_TIME on the master: ALIGNED is set and the step goes out on every path (R358, R550). -/
def masterStep (v reason : Nat) (s : State) : State :=
  let f := stepFrame s ((v : Int) - s.now)
  let s := stepTo v reason { s with time := { s.time with aligned := true } }
  sendFrame .b f (sendFrame .a f s)

/-! ### STEP_TIME (R360, R379, R382) -/

/-- STEP_TIME. -/
def stepTime (p : Packet) (s : State) : Verdict :=
  let mode := byteAt p.params 0
  let raw := fieldAt p.params 8 8
  let after : Int := s.now + signedOf 64 raw
  badParam (mode > 2) 0 <|
  badParam (!zeroAt p.params 1 7) 1 <|
  badParam (mode = 2 && raw ≠ 0) 8 <|
  refuseIf (!s.isMaster) stState 0x080100 <|
  refuseIf ((mode = 1 && !s.time.pps.capture) || (mode = 2 && s.time.armed.isNone)) stState 0x080200 <|
    match mode with
    | 0 => refuseIf (!stepFits after) stState 0x080300 <|
        okBody (masterStep after.toNat 1 s) (le 8 after.toNat ++ le 8 s.now)
    | 1 => okBody { s with time := { s.time with armed := some { value := raw, lapses := s.time.clk + 2 * secNs } } } (zeros 16)
    | _ => okBody { s with time := { s.time with armed := none } } (zeros 16)

/-- STEP_TIME: its row of the opcode index. -/
def specStepTime : CmdSpec :=
  { opcode := 0x0803, plen := plenIs 4, right := fromCtx0, needs := needsOf [2, 5], readOnly := false }

/-- STEP_TIME (R382). -/
def execStepTime (p : Packet) (s : State) : Host.Outcome State Fault Refusal := next (runCommand specStepTime stepTime p s)

/-! ### PPS_IN (R360, R361, R375) -/

/-- An armed step ends without being applied. -/
def endArmed (reason : Nat) (s : State) : State := stepEvent reason 0 { s with time := { s.time with armed := none } }

/-- The armed step is applied at the first TIME edge after the capture of `e`, so that the captured edge reads VALUE (R360). -/
def applyArmed (e : Nat) (a : PpsStep) (s : State) : State :=
  let s := passCycles 1 s
  let v := a.value + (s.now - e)
  if stepFits v then masterStep v 2 { s with time := { s.time with armed := none } } else endArmed 4 s

/-- PPS_IN_CAPTURE (R375): a rising edge on PPS_IN. -/
def execPpsInCapture (s : State) : Host.Outcome State Fault Refusal :=
  if !s.time.pps.capture || !timeRuns s then next s
  else
    let e := stampNow s
    let s := { s with time := { s.time with lastPps := e } }
    let s := if s.time.pps.event then raiseEvent 0 0x0803 (le 8 e) s else s
    let s := captureEdge 0x10 1 e s
    match s.time.armed with
    | none => next s
    | some a => next (if a.lapses ≤ s.time.clk then endArmed 3 s else applyArmed e a s)

/-- PPS_STEP_LAPSE (R360): 2 s without an edge. -/
def execPpsStepLapse (s : State) : Host.Outcome State Fault Refusal :=
  match s.time.armed with
  | none => next s
  | some a => next (endArmed 3 (reachClk a.lapses s))

/-! ### Steps on a follower (R550, R556) -/

/-- The STEP has come by the other port already: within 1 ms, a bound that no rule gives (R550, R556; log entry 37). -/
def stepTaken (p : Port) (f : LinkFrame) (s : State) : Bool :=
  s.stack.steps.any fun x => x.1 != p && x.2.1 == f.info && s.time.clk ≤ x.2.2 + msNs

/-- The step is noted as applied at its arrival by port `p`. -/
def noteStep (p : Port) (f : LinkFrame) (s : State) : State :=
  { s with stack := { s.stack with
      steps := (p, f.info, s.time.clk) :: s.stack.steps.filter fun x => s.time.clk ≤ x.2.2 + msNs } }

/-- A STEP frame reaches this device: the master's own comes to its end; a follower passes it on and applies it once, at its first
arrival. -/
def takeStep (p : Port) (f : LinkFrame) (s : State) : State :=
  if s.isMaster then s
  else
    let s := sendFrame (otherPort p) f s
    if stepTaken p f s then s
    else
      let s := noteStep p f s
      if timeRuns s then stepTo ((s.now : Int) + signedOf 64 f.info).toNat 1 s else s

/-- STEP_FRAME_RECEIVED (R550). -/
def execStepFrameReceived (port : Port) (f : LinkRx) (s : State) : Host.Outcome State Fault Refusal :=
  next (takeFrame port .step f (takeStep port) s)

/-! ### Time transfer (R545, R548) -/

/-- ALIGNED of a follower changes, with event 0x0D04 (R548, R566). -/
def setAligned (v : Bool) (s : State) : State :=
  if s.time.aligned = v then s
  else
    let port := match s.stack.upstream with | some p => portNumber p | none => 0
    let off := match s.stack.upstream with | some p => (s.link p).offset | none => 0
    raiseEvent 0 0x0D04 (le 1 (flag v 1) ++ le 1 port ++ zeros 2 ++ le 4 (unsignedOf 32 off))
      { s with time := { s.time with aligned := v } }

/-- The servo's range: 1,000 ppm in units of 2^-32 (R545). -/
def servoMax : Nat := 4294967

/-- The greatest change of rate for an offset in ps: what takes it away by the next exchange, 250 µs on, in units of 2^-32 (R545). -/
def steerMost (off : Int) : Nat := ceilDiv (off.natAbs * 2 ^ 32) 250000000

/-- The servo steers the counter against the offset, so that it goes to zero: by a change of rate that the spec does not give, never
more than takes the offset away by the next exchange, within the servo's range (R354, R545; log entry 4). -/
def steer (off : Int) (s : State) : State :=
  let change : Nat := if off = 0 then 0 else 1 + freeAt s 0 % steerMost off
  let r : Int := if off > 0 then s.time.rate - change else s.time.rate + change
  drawn 1 { s with time := { s.time with rate := max (-(servoMax : Int)) (min servoMax r) } }

/-- One-way delay and offset from the four stamps, in picoseconds (R545). -/
def exchangeOffset (t1 t2 t3 t4 : Nat) : Int :=
  let delay := (((t4 : Int) - t1) - ((t3 : Int) - t2)) / 2
  (t2 : Int) - (t1 + delay)

/-- The ALIGNED flag after an exchange (R548). -/
def judgeOffset (off : Int) (s : State) : State :=
  let good := if off.natAbs ≤ 1000 then s.stack.good + 1 else 0
  let s := { s with stack := { s.stack with good := good, exchanged := s.time.clk } }
  if off.natAbs > 4000 then setAligned false s else if good ≥ 16 then setAligned true s else s

/-- TIME_EXCHANGE (R545, R548): 250 µs after the last one. The stamps are in picoseconds; t1 and t4 are the partner's. The first
exchange after a port comes UP steps the counter by -offset, in whole nanoseconds (log entry 46). -/
def execTimeExchange (t1 t2 t3 t4 : Nat) (s : State) : Host.Outcome State Fault Refusal :=
  match s.stack.upstream with
  | none => next s
  | some p =>
    if !linksRun s || (s.link p).state != .up then next s
    else
      let fresh := (s.link p).fresh
      let s := if fresh then s else reachClk (s.stack.exchanged + 250 * usNs) s
      let off := exchangeOffset t1 t2 t3 t4
      let s := s.modLink p fun l => { l with offset := off, fresh := false }
      let s := if fresh then stepTo ((s.now : Int) + (500 - off) / 1000).toNat 1 s else s
      let s := steer off (judgeOffset off s)
      next (sendFrame p { typ := .time, src := s.pos, dst := 0, info := 0, data := [] } s)

/-- ALIGNMENT_TIMEOUT (R548): no exchange for 2 ms. -/
def execAlignmentTimeout (s : State) : Host.Outcome State Fault Refusal :=
  if s.isMaster || !s.time.aligned then next s
  else
    let s := reachClk (s.stack.exchanged + 2 * msNs) s
    next (setAligned false { s with stack := { s.stack with good := 0 } })

end Sys2Proof.Machine
end

