-- ==== Sys2Proof/Machine/Power.lean ====
section
/-!
DEFINITION. Power states and their transitions (R72 to R84), wake detection (R85 to R88), and the commands SET_POWER_STATE and
SET_WAKE.
-/

namespace Sys2Proof.Machine

/-! ### What each power state keeps (R73) -/

/-- Readiness bits that may be set in a power state (R73). -/
def powerBits : PowerState → BitVec 32
  | .active => 0xFFFF
  | .standby => 0xCC3F
  | .retain => 0x8001
  | .off => 0

/-- Readiness bits of the two links. -/
def linkBits : BitVec 32 := oneBit 12 ||| oneBit 13

/-- Readiness bits of the four banks (R15). -/
def bankBits : BitVec 32 := 0x3C0

/-- Bits that may rise again when their island is back: a link's bit only while its port is UP (R62). -/
def restorable (s : State) (bits : BitVec 32) : BitVec 32 :=
  let drop := fun p (v : BitVec 32) => if (s.link p).state == .up then v else v &&& ~~~ (oneBit (portBit p))
  drop .b (drop .a bits)

/-- The PLLs that a power state switches off (R73, R79). -/
def pllOff (w : PowerState) (p : Pll) : Bool :=
  match w, p with
  | .active, _ => false
  | .standby, .bank _ => true
  | .standby, _ => false
  | _, _ => true

/-- A power state is entered: the bits it does not keep are remembered and cleared, those of PLLs that it switches off with
them (R17, R73). -/
def enterPower (w : PowerState) (s : State) : State :=
  let gone := s.aon.lostPlls.filter fun l => pllOff w l.pll
  let bits := gone.foldl (fun v l => v ||| l.bits) (s.aon.ready &&& ~~~ (powerBits w))
  let s := { s with aon := { s.aon with
    power := w, transition := none, retained := s.aon.retained ||| bits
    lostPlls := s.aon.lostPlls.filter fun l => !pllOff w l.pll } }
  setReady (s.aon.ready &&& powerBits w) s

/-! ### Entry into RETAIN and OFF (R73, R77, R79) -/

/-- A port is switched off: what was UP is UP no longer, and it will train again (R73, R537, R565). -/
def linkOff (p : Port) (s : State) : State :=
  match (s.link p).state with
  | .up => leaveUp p (setLink p .training 1 (s.modLink p fun l => { l with
      routedLost := satAdd 32 l.routedLost (waitingRoutes l), queue := [], unacked := [], partner := none }))
  | .conflict => setLink p .training (s.link p).reason s
  | .stopping =>
    let by_ := (s.link p).stopBy
    linkBathEvent 0x0DF0 p by_ (setLink p .disabled 7 (s.modLink p fun l => { l with
      routedLost := satAdd 32 l.routedLost (waitingRoutes l), queue := [], unacked := [], partner := none, held := none }))
  | _ => s

/-- At the commit every enabled channel is in OFF, its commanded state off (R77, R504). -/
def parkLoad (n : Nat) (s : State) : State :=
  let s := s.modLd n fun l => { l with on := false, parked := l.bind.isSome && l.enabled }
  let l := s.ld n
  if l.parked && l.state != .disabled && l.state != .unbound then setLoad n .off s else s

/-- A final frame on every chain with a profile, then every PWM ball low and every SWCn_CSN high (R77). -/
def parkLoads (s : State) : State :=
  let s := forRange loadCount parkLoad s
  let s := forRange 8 (fun c s =>
    let s := startTransfer c false (s.modSwc c fun x => { x with busy := none })
    s.modSwc c fun x => { x with busy := none, extra := false }) s
  forRange loadCount (fun n s => s.modLd n fun l => { l with eff := 0, ball := false }) s

/-- The replies that CTX0 still waits for are written before HOST stops (R79). -/
def flushReplies (s : State) : State :=
  if dmaOpen s 0 then forRange (s.cq 0).rplq.length (fun _ s => putReply 0 s) s else s

/-- The reply to a SET_POWER_STATE at the commit of the entry (R79). -/
def replyPower (t : Transition) (s : State) : State :=
  match t.command with
  | some p => replyTaken p stOk 0 (le 1 (powerCode t.target) ++ zeros 3 ++ le 8 (stampNow s)) s
  | none => s

/-- The entry into RETAIN or OFF is committed (R73, R77, R79, R348). -/
def commitSleep (t : Transition) (s : State) : State :=
  let s := flushReplies (replyPower t (linkOff .b (linkOff .a (parkLoads s))))
  let s := { s with time := { s.time with ppsOut := false } }
  let s := fcRelease (enterPower t.target s)
  if t.target == .off then { s with aon := { s.aon with armedMask := 0 } } else s

/-! ### Return to ACTIVE (R76 to R79, R85) -/

/-- A channel when the device is ACTIVE again: one that a power state held restarts, with its schedules; so does one whose bank
PLL had lost lock and is back (R17, R76, R197, R373). -/
def resumeChan (ch : Nat) (s : State) : State :=
  let held := (s.chan ch).state == .powerHeld
  let s := powerLeaveChan ch s
  let s := if s.isReady (bankBit ch) then clockReleaseChan ch s else s
  if held && (s.chan ch).state != .powerHeld then restartSchedules ch s else s

/-- The return to ACTIVE is committed (R77 to R80, R85). -/
def commitActive (t : Transition) (s : State) : State :=
  let retain := t.from_ == .retain
  let back := if retain then s.aon.retained &&& ~~~ (linkBits ||| oneBit 1) else restorable s s.aon.retained
  let s := { s with aon := { s.aon with power := .active, transition := none, retained := 0, armedMask := 0 } }
  let s := if retain then { s with
      aon := { s.aon with resetCause := .resume }
      stack := { s.stack with good := 0 }
      load := { s.load with nextTick := s.time.clk } }
    else s
  let s := if !retain then s
    else if s.isMaster then { s with time := { s.time with aligned := false } } else setAligned false s
  let s := forRange 64 resumeChan (readyOn back (if retain && back.getLsbD 14 then restartMean s else s))
  let s := forEach [Port.a, Port.b] (fun p s => pumpLink p (s.link p).queue.length s) s
  replyPower t s

/-- POWER_TRANSITION_COMPLETE (R75 to R80): after every stop bath that the transition runs. -/
def execPowerTransitionComplete (s : State) : Host.Outcome State Fault Refusal :=
  match s.aon.transition with
  | none => next s
  | some t =>
    let channels := s.chans.toList.any fun c => c.state == .stopping
    match t.target with
    | .active => next (commitActive t s)
    | .standby => if channels then next s else next (replyPower t (enterPower .standby s))
    | _ => if channels || loadBathRuns s then next s else next (commitSleep t s)

/-! ### SET_POWER_STATE (R79 to R84) -/

/-- A power state by its code (R79). -/
def powerOf (n : Nat) : PowerState :=
  match n with
  | 0 => .active | 1 => .standby | 2 => .retain | _ => .off

/-- A transition starts: wake detectors are armed, and the stop baths run (R75, R77, R85). -/
def startTransition (w : PowerState) (command : Option Packet) (s : State) : State :=
  let s := { s with aon := { s.aon with transition := some { target := w, from_ := s.aon.power, command := command } } }
  match w with
  | .active => s
  | .standby => forRange 64 powerEnterChan (arm s)
  | .retain => retainLoads (forRange 64 powerEnterChan (arm s))
  | .off => retainLoads (forRange 64 powerEnterChan s)
where
  /-- The detectors of the chosen channels are armed with the filter last set (R85, R88). -/
  arm (s : State) : State := { s with aon := { s.aon with armedMask := s.aon.wakeMask, armedFilter := s.aon.wakeFilter } }

/-- An enable that is held for a stop bath would fail after the transition (R84, R181). -/
def enableHeld (s : State) : Bool :=
  s.chans.toList.any (fun c => c.held.isSome) || s.linkA.held.isSome || s.linkB.held.isSome

/-- SET_POWER_STATE. -/
def setPowerState (p : Packet) (s : State) : Verdict :=
  let n := byteAt p.params 0
  badParam (n > 3) 0 <|
  badParam (!zeroAt p.params 1 3) 1 <|
  refuseIf (n ≠ 0 && n ≠ powerCode s.aon.power && enableHeld s) stState 0x000300 <|
  refuseIf s.aon.transition.isSome stState 0x010100 <|
    if n = powerCode s.aon.power then okBody s (le 1 n ++ zeros 3 ++ le 8 (stampNow s))
    else
      refuseIf (n ≠ 0 && s.update.session.isSome) stState 0x010200 <|
      refuseIf (n ≠ 0 && s.aon.proof) stState 0x010300 <|
        .wait (startTransition (powerOf n) (some p) s)

/-- SET_POWER_STATE: its row of the opcode index (R65, R81). -/
def specSetPowerState : CmdSpec :=
  { opcode := 0x0104, plen := plenIs 1, right := fromCtx0Sp, needs := needsOf [2, 3, 4, 5], readOnly := false }

/-- The safety port's well-formed command to return from RETAIN, which the AON hardware decodes (R65, R80). -/
def isResume (p : Packet) : Bool :=
  p.source == .sp && p.opcode == 0x0104 && (headerFault specSetPowerState p).isNone && zeroAt p.params 0 4

/-- The AON hardware acts on the safety port's return from RETAIN: it starts, or another return is in progress (R80, R81). -/
def resumeBySp (p : Packet) (s : State) : State :=
  if s.aon.transition.isSome then
    deliverReply { dest := .sp, opcode := p.opcode, tag := p.tag, status := stState, position := s.pos, detail := 0x010100, body := [] } s
  else startTransition .active (some p) { s with engine := { s.engine with taken := s.engine.taken ++ [p] } }

/-- SET_POWER_STATE (R79 to R84). -/
def execSetPowerState (p : Packet) (s : State) : Host.Outcome State Fault Refusal :=
  let q := { p with opcode := 0x0104 }
  if s.aon.power == .retain && isResume q then next (resumeBySp q s)
  else next (runCommand specSetPowerState setPowerState p s)

/-- RESUME_FROM_RETAIN (R80): a low pulse on PERSTN of at least 1 µs. -/
def execResumeFromRetain (s : State) : Host.Outcome State Fault Refusal :=
  if s.aon.power == .retain && s.aon.transition.isNone then next (startTransition .active none s) else next s

/-! ### Wake (R85 to R88) -/

/-- Wake detectors are armed: from the start of an entry into STANDBY or RETAIN until the device is back in ACTIVE (R85). -/
def wakeArmed (s : State) : Bool :=
  let sleeps := fun (w : PowerState) => w == .standby || w == .retain
  sleeps s.aon.power || s.aon.transition.any fun t => sleeps t.target

/-- WAKE_DETECTED (R85 to R87): RXD of an armed channel has stayed low for the filter time. -/
def execWakeDetected (ch : Fin 64) (s : State) : Host.Outcome State Fault Refusal :=
  if !wakeArmed s || !s.aon.armedMask.getLsbD ch.val || s.aon.wake.getLsbD ch.val then next s
  else
    let s := { s with aon := { s.aon with wake := s.aon.wake ||| (1#64 <<< ch.val) } }
    next (raiseSafe 3 (raiseIrq 0 6 s))

/-- SET_WAKE. -/
def setWake (p : Packet) (s : State) : Verdict :=
  let f := byteAt p.params 8
  badParam (f > 63) 8 <|
  badParam (!zeroAt p.params 9 3) 9 <|
    okDone { s with aon := { s.aon with
      wakeMask := BitVec.ofNat 64 (fieldAt p.params 0 8), wakeFilter := if f = 0 then 5 else f } }

/-- SET_WAKE: its row of the opcode index. -/
def specSetWake : CmdSpec :=
  { opcode := 0x0105, plen := plenIs 3, right := fromCtx0Sp, needs := needsOf [2], readOnly := false }

/-- SET_WAKE (R88). -/
def execSetWake (p : Packet) (s : State) : Host.Outcome State Fault Refusal :=
  next (runCommand specSetWake setWake p s)

end Sys2Proof.Machine
end

