-- ==== Sys2Proof/Machine/Resets.lean ====
section
/-!
DEFINITION. Resets (R50 to R56, R93 to R95), start-up and readiness (R58 to R64, R71), and loss and return of the clocks (R15 to
R18, R621).
-/

namespace Sys2Proof.Machine

/-! ### Resets of the whole device (R50 to R56, R605, R608) -/

/-- The straps as three AON edges sampled them, each by its majority (R56, R608). -/
def majority (a b c : BitVec 3) : BitVec 3 := (a &&& b) ||| (a &&& c) ||| (b &&& c)

/-- The fault log as its writer finds it after a reset: it continues from the newest readable entry (R39). -/
def resumeLog (l : FaultLog) : FaultLog :=
  let kept := (l.entries.reverse.dropWhile fun e => !e.readable).reverse
  { entries := kept, nextSeq := match kept.getLast? with | some e => nextSeqOf e.seq | none => 1 }

/-- The device right after a reset of R13: everything at its reset value but MRAM contents, the fault log, the pin PERSTN and
what the model itself keeps (R51, R71). An update session ends first, and its event goes out where a link takes it on (R576; log
entry 79). -/
def afterReset (cause : ResetCause) (phase : Phase) (straps : BitVec 3) (s : State) : State :=
  let e := endSession 4 s
  let r := resetOver s.update.mram (resumeLog s.log)
  { r with
    pending := s.pending, free := s.free, out := e.out
    aon := { r.aon with resetCause := cause, phase := phase, stackId := straps, perstnLow := s.aon.perstnLow } }

/-- What a reset other than a power-on reset keeps besides: session numbers are counted from the last power-on (R574). -/
def keepOpened (s r : State) : State := { r with update := { r.update with opened := s.update.opened } }

/-- POWER_ON_RESET (R51). -/
def execPowerOnReset (s1 s2 s3 : BitVec 3) (s : State) : Host.Outcome State Fault Refusal :=
  next (afterReset .powerOn .starting (majority s1 s2 s3) s)

/-- SOURCE of fault-log class 0x06 (R39). -/
def supplyCode : Supply → Nat
  | .vdd => 0 | .vddpcie08 => 1 | .vddlnk08 => 2 | .vdda18 => 3 | .vddpcie18 => 4 | .vddio33 => 5

/-- BROWN_OUT (R51, R52): logged, and the device is held in reset. In OFF the supplies may be removed (R73, R79). -/
def execBrownOut (supply : Supply) (s1 s2 s3 : BitVec 3) (s : State) : Host.Outcome State Fault Refusal :=
  if s.aon.power == .off then
    next { s with aon := { s.aon with supplies := s.aon.supplies &&& ~~~ (1#6 <<< supplyCode supply) } }
  else next (keepOpened s (afterReset .brownOut .brownedOut (majority s1 s2 s3) (logFault 6 (supplyCode supply) 0 0 s)))

/-- BROWN_OUT_RESTART (R52): every supply has been good for 1 ms. -/
def execBrownOutRestart (s : State) : Host.Outcome State Fault Refusal :=
  match s.aon.phase with
  | .brownedOut => next (passCycles msNs { s with aon := { s.aon with phase := .starting, supplies := BitVec.allOnes 6 } })
  | _ => next s

/-- The reset entry of the fault log (R39). -/
def logReset (s : State) : State := logFault 7 (causeCode s.aon.resetCause) 0 0 s

/-- WARM_RESET (R51, R605): the supervisor runs on and the counters of R37 are kept; from OFF the device starts as from cold
(R79). A browned-out device is held in reset whatever RSTN does (R50, R52). -/
def execWarmReset (s1 s2 s3 : BitVec 3) (s : State) : Host.Outcome State Fault Refusal :=
  match s.aon.phase with
  | .brownedOut => next s
  | _ =>
    let runs := s.isReady 0
    let r := keepOpened s (afterReset .warm (if runs then .running else .starting) (majority s1 s2 s3) s)
    let r := { r with mem := s.mem, aon := { r.aon with supplies := s.aon.supplies } }
    next (if runs then logReset { r with aon := { r.aon with ready := oneBit 0 } } else r)

/-! ### Start-up (R61 to R64, R67) -/

/-- AON_START (R39, R63): the supervisor runs, and the reset entry is written. -/
def execAonStart (s : State) : Host.Outcome State Fault Refusal :=
  match s.aon.phase with
  | .starting => next (logReset (readyOn (oneBit 0) { s with aon := { s.aon with phase := .running } }))
  | _ => next s

/-- The PLL that feeds a function's island; none for those that the AON oscillator runs (R15). -/
def islandOf : Func → Option Pll
  | .host => some .host
  | .cmd => some .core
  | .mem => some .core
  | .route => some .route
  | .load => some .route
  | .cvu => some .route
  | .adc => some .route
  | .time => some .time
  | .linka => some .time
  | .linkb => some .time
  | .bank0 => some (.bank 0)
  | .bank1 => some (.bank 1)
  | .bank2 => some (.bank 2)
  | .bank3 => some (.bank 3)
  | .aon => none
  | .mram => none

/-- The supplies that an island needs, by their codes (R50). AON's own are those whose loss is the power-on reset. -/
def islandSupplies : Pll → BitVec 6
  | .host => 0b010011
  | .core => 0b000001
  | .route => 0b101001
  | .time => 0b001101
  | .bank _ => 0b101001

/-- Every supply of the island is above its release threshold (R50). -/
def islandPowered (s : State) (p : Pll) : Bool := s.aon.supplies &&& islandSupplies p == islandSupplies p

/-- A function can finish its start-up: what must be ready before it is (R63), the power state keeps it (R73), its island's
supplies are up (R50) and its PLL is locked (R17). AON, CMD and the links have rows of their own. -/
def mayBecomeReady (s : State) (f : Func) : Bool :=
  let before := match f with
    | .host => !s.aon.perstnLow
    | .mem => true
    | .route => true
    | .time => true
    | .mram => true
    | .load => s.isReady 4
    | .cvu => s.isReady 4
    | .adc => s.isReady 4
    | .bank0 => s.isReady 3
    | .bank1 => s.isReady 3
    | .bank2 => s.isReady 3
    | .bank3 => s.isReady 3
    | .aon => false
    | .cmd => false
    | .linka => false
    | .linkb => false
  s.isReady 0 && before && (powerBits s.aon.power).getLsbD (funcBit f)
    && !(islandOf f).any (fun p => pllLost s p || !islandPowered s p)

/-- Causes that could not signal while HOST was not ready signal now (R129). -/
def settleAll (s : State) : State := forRange 64 settleIrq s

/-- What a function starts with (R71, R494, R513, R536). -/
def startFunction (f : Func) (s : State) : State :=
  match f with
  | .host => settleAll s
  | .time => forEach [Port.a, Port.b] (fun p s => if (s.link p).state == .disabled then setLink p .training 0 s else s) s
  | .load => restartTicks s
  | .adc => restartMean s
  | _ => s

/-- Supplies have risen above their release thresholds (R50). -/
def supplyUp (up : BitVec 6) (s : State) : State := { s with aon := { s.aon with supplies := s.aon.supplies ||| up } }

/-- FUNCTION_READY (R50, R63, R67); `up` holds the supplies that stand above their release thresholds, by their codes. -/
def execFunctionReady (f : Func) (up : BitVec 6) (s : State) : Host.Outcome State Fault Refusal :=
  let s := supplyUp up s
  if s.isReady (funcBit f) || !mayBecomeReady s f then next s
  else next (startFunction f (readyOn (oneBit (funcBit f)) s))

/-- PERSTN_RELEASE (R64, R606): PERSTN goes high; the link trains and HOST becomes ready by its own row. -/
def execPerstnRelease (s : State) : Host.Outcome State Fault Refusal :=
  next { s with aon := { s.aon with perstnLow := false } }

/-! ### Boot (R57 to R61, R572) -/

/-- The first slot of R58 that passes R57 and has been fixed once. -/
def bootChoice (s : State) : Option Slot :=
  let x := secOf s
  [x.activeSlot, otherSlot x.activeSlot].find? fun k => slotPasses s k true && fixedOnce x k

/-- A reset has ended proof mode: the image on trial is recorded as rejected, with a reason the spec does not give (R58, R59,
R572; log entry 4). -/
def endTrial (s : State) : State :=
  let x := secOf s
  let why := freeAt s 0 % 256
  drawn 1 (recordRejected (imageVer s x.trialSlot) why (modSec (fun x => { x with trial := false }) s))

/-- MASK_ROM_BOOT (R57 to R60): a slot is chosen and loaded, or the device enters recovery. -/
def execMaskRomBoot (s : State) : Host.Outcome State Fault Refusal :=
  if !s.isReady 15 || s.aon.power != .active || pllLost s .core || !islandPowered s .core || s.aon.bootResult != 0 || s.aon.bootSlot.isSome then next s
  else
    let trial := trialValid (secOf s)
    let s := if trial then endTrial s else s
    match bootChoice s with
    | some k =>
      next { s with aon := { s.aon with bootSlot := some k, fallback := trial || k != (secOf s).activeSlot } }
    | none => next { s with aon := { s.aon with bootResult := 2, fallback := trial } }

/-- IMAGE_START (R61, R70, R585): the loaded image runs as Shukener, reads its settings area and sets CMD. -/
def execImageStart (s : State) : Host.Outcome State Fault Refusal :=
  match s.aon.bootSlot with
  | some k =>
    if !s.isReady 15 || s.aon.power != .active || pllLost s .core || !islandPowered s .core || s.aon.bootResult != 0 then next s
    else
      let s := { s with aon := { s.aon with bootResult := 1 }, update := { s.update with running := some k, unreadable := readSettings k s } }
      next (readyOn (oneBit 2) s)
  | none => next s

/-! ### Resets of the HOST island and of the PF (R55, R94, R95) -/

/-- The PCIe function's side of R55: virtual functions go, BAR0 returns to its reset values, CTX0's rings are discarded and a
session of CTX0 ends (R576). -/
def hostGone (s : State) : State :=
  let s := resetFn 0 (s.fn 0).win.locked (setVfs false 0 s)
  match s.update.session with
  | some x => if x.owner == .ctx 0 then endSession 4 s else s
  | none => s

/-- PCIE_FUNDAMENTAL_RESET (R51, R55, R95): PERSTN goes low. In RETAIN and OFF nothing is reset. -/
def execPcieFundamentalReset (s : State) : Host.Outcome State Fault Refusal :=
  match s.aon.power with
  | .retain => next s
  | .off => next s
  | _ => next (hostGone (readyOff (oneBit 1) { s with aon := { s.aon with
      perstnLow := true
      lostPlls := s.aon.lostPlls.map fun l => { l with bits := l.bits &&& ~~~ (oneBit 1) } } }))

/-- PF_FLR (R94): the effect of R55. -/
def execPfFlr (s : State) : Host.Outcome State Fault Refusal := if s.isReady 1 then next (hostGone s) else next s

/-! ### Clocks (R15 to R18, R621) -/

/-- Readiness bits that an island carries (R15). -/
def islandBits : Pll → BitVec 32
  | .host => oneBit 1
  | .core => oneBit 2 ||| oneBit 3
  | .route => oneBit 4 ||| oneBit 10 ||| oneBit 11 ||| oneBit 14
  | .time => oneBit 5 ||| linkBits
  | .bank b => oneBit (6 + b.val)

/-- SOURCE of fault-log class 0x04 (R39). -/
def islandCode : Pll → Nat
  | .host => 1 | .core => 2 | .route => 3 | .time => 4 | .bank b => 5 + b.val

/-- The channels of a bank (R15). -/
def bankChans (b : Nat) : List Nat := (List.range 16).map (16 * b + ·)

/-- A bank's channel loses its clock (R18); its schedules go on where a power state had held them (R373). -/
def loseClock (acked : BitVec 64) (tdcvs : List (Fin 64 × Fin 128)) (ch : Nat) (s : State) : State :=
  let held := (s.chan ch).state == .powerHeld
  let s := clockHoldChan (acked.getLsbD ch) ((tdcvs.find? fun x => x.1.val == ch).map fun x => x.2) ch s
  if held then restartSchedules ch s else s

/-- An island stops: its bits clear, and a bank's channels are held (R17, R18). -/
def stopIsland (acked : BitVec 64) (tdcvs : List (Fin 64 × Fin 128)) (p : Pll) (s : State) : State :=
  if pllLost s p || pllOff s.aon.power p then s
  else
    let s := { s with aon := { s.aon with
      lostPlls := s.aon.lostPlls ++ [{ pll := p, bits := s.aon.ready &&& islandBits p }] } }
    let s := readyOff (islandBits p) s
    match p with
    | .bank b => forEach (bankChans b.val) (loseClock acked tdcvs) s
    | _ => s

/-- PLL_LOSS_OF_LOCK (R17, R18, R38, R39); `acked` holds the channels whose own frame on the bus has had its acknowledge slot sampled
dominant (R265, R267). -/
def execPllLossOfLock (pll : Pll) (acked : BitVec 64) (tdcvs : List (Fin 64 × Fin 128)) (s : State) : Host.Outcome State Fault Refusal :=
  if !s.isReady 0 || pllLost s pll || pllOff s.aon.power pll then next s
  else next (logFault 4 (islandCode pll) 0 0 (stopIsland acked tdcvs pll s))

/-- A bank's channel when its PLL is back: it integrates again, or is held by a power-state entry under way (R17, R197). -/
def relockChan (ch : Nat) (s : State) : State :=
  let s := clockReleaseChan ch s
  if powerBlocks s then powerEnterChan ch s else s

/-- What starts anew when LOAD and ADC are set again among `bits` (R494, R513). -/
def restartRoute (bits : BitVec 32) (s : State) : State :=
  let s := if bits.getLsbD 10 && s.isReady 10 then restartTicks s else s
  if bits.getLsbD 14 && s.isReady 14 then restartMean s else s

/-- PLL_RELOCK (R17): the island goes on from its retained configuration. -/
def execPllRelock (pll : Pll) (s : State) : Host.Outcome State Fault Refusal :=
  match s.aon.lostPlls.find? fun l => l.pll == pll with
  | none => next s
  | some l =>
    let s := { s with aon := { s.aon with
      lostPlls := s.aon.lostPlls.filter fun l => l.pll != pll, refLost := s.aon.refLost && pll == .host
      retained := s.aon.retained ||| (l.bits &&& ~~~ (powerBits s.aon.power)) } }
    let s := readyOn (restorable s l.bits &&& powerBits s.aon.power) s
    match pll with
    | .bank b => next (forEach (bankChans b.val) relockChan s)
    | .host => next (settleAll s)
    | .route => next (restartRoute l.bits s)
    | _ => next s

/-- REFERENCE_LOSS (R17, R18, R621): CORE, ROUTE, TIME and the banks stop together; AON records the event. `acked` as in
PLL_LOSS_OF_LOCK. -/
def execReferenceLoss (acked : BitVec 64) (tdcvs : List (Fin 64 × Fin 128)) (s : State) : Host.Outcome State Fault Refusal :=
  if !s.isReady 0 || s.aon.refLost || pllOff s.aon.power .core then next s
  else
    let s := { s with aon := { s.aon with refLost := true } }
    let s := forEach [Pll.core, .route, .time, .bank 0, .bank 1, .bank 2, .bank 3] (stopIsland acked tdcvs) s
    next (logFault 5 0 0 0 s)

end Sys2Proof.Machine
end

