-- ==== Sys2Proof/Machine/Scrub.lean ====
section
/-!
DEFINITION. Memory errors found by the scrubber (R30 to R37, R283, R299 to R301, R322, R349, R414, R460) and restarts of the
command engine (R42, R45, R46).
-/

namespace Sys2Proof.Machine

/-! ### Restart of the command engine (R42, R45, R46) -/

/-- The answer to a command that a restart has interrupted (R45): INTEGRITY, for it has had no effect; but a force of the safety
port that the AON decoder has applied has had its effect, and keeps its status (R143). -/
def answerInterrupted (p : Packet) (s : State) : State :=
  if p.opcode = 0x0C05 && p.source = .sp && (decodedForce s p).isSome then
    pruneDecoded (conclude p s (judge specForceSafe forceSafe p s))
  else sendReply p stIntegrity 0 (refusalBody p s) s

/-- The command that a restart has interrupted has no effect: it leaves its queue and is answered after the restart (R45). -/
def interruptOne (p : Packet) (s : State) : State :=
  if !sourceLive s p.source || sourceBusy s p.source then s
  else if (waitingOf s p.source).contains p then
    if nextSource s == some p.source && atHead s p then answerInterrupted p (popSource p.source (noteTaken p.source s)) else s
  else answerInterrupted p s

/-- The command engine restarts from the image it was running, with a fault-log entry of class 0x03 (R39, R42, R46). A pause
in progress goes on, with no command to interrupt. -/
def restartEngine (cause : Nat) (interrupted : Option Packet) (s : State) : State :=
  let s := logFault 3 cause (slotCode s.update.running) (flag s.aon.proof 1) s
  let s := if s.aon.proof then { s with update := { s.update with restarted := true } } else s
  if s.engine.pause.isSome then s
  else
    let s := { s with engine := { s.engine with pause := some .restart } }
    match interrupted with
    | some p => interruptOne p s
    | none => s

/-- LOCKSTEP_MISMATCH (R39, R46). -/
def execLockstepMismatch (pc : Word) (interrupted : Option Packet) (s : State) : Host.Outcome State Fault Refusal :=
  if !s.isReady 2 then next s
  else next (restartEngine 1 interrupted (logFault 2 0 pc.toNat (slotCode s.update.running) s))

/-! ### Regions (R30, R31) -/

/-- Offset and size of a region. -/
def regionSpan : Region → Nat × Nat
  | .signalTable => (0x000000, 0x400000)
  | .payloadPool => (poolBase, 0x700000)
  | .filterStore => (0xB00000, 0x100000)
  | .pduTable => (0xC00000, 0x100000)
  | .moDescriptors => (0xD00000, 0x80000)
  | .admissionRecords => (0xD80000, 0x80000)
  | .commandRam => (0xE00000, 0xC0000)
  | .queueStorage => (0xEC0000, 0x80000)
  | .census => (0xF40000, 0x40000)
  | .filmstrip => (0xF80000, 0x40000)
  | .statistics => (0xFC0000, 0x40000)
  | .slotA => (0x000000, 0x80000)
  | .slotB => (0x080000, 0x80000)
  | .settingsA => (0x100000, 0x40000)
  | .settingsB => (0x140000, 0x40000)
  | .security => (0x180000, 0x10000)
  | .faultLog => (0x190000, 0x10000)
  | .reserve => (0x1A0000, 0x60000)

/-- The readiness bit of the owner that scrubs a region (R15, R30, R35): ROUTE, MEM or MRAM. -/
def regionOwner : Region → Nat
  | .signalTable => 4
  | .filterStore => 4
  | .pduTable => 4
  | .census => 4
  | .payloadPool => 3
  | .moDescriptors => 3
  | .admissionRecords => 3
  | .commandRam => 3
  | .queueStorage => 3
  | .filmstrip => 3
  | .statistics => 3
  | .slotA => 15
  | .slotB => 15
  | .settingsA => 15
  | .settingsB => 15
  | .security => 15
  | .faultLog => 15
  | .reserve => 15

/-! ### Queue storage (R349) -/

/-- A queue for a word whose place in the queue storage the spec does not give (log entry 4). -/
def drawQueue (s : State) : Option (QKind × Nat) := qidOf (allQids.getD (freeAt s 0 % allQids.length) 0)

/-- The list without its element number `i`. -/
def dropAt {α : Type} (l : List α) (i : Nat) : List α := l.take i ++ l.drop (i + 1)

/-- A context's command or reply place is free again (R339). -/
def returnPlace (c : Nat) (s : State) : State :=
  if (s.ring c 0).active && (s.ring c 1).active then setLimit c 0 (cmdLimitAt s ⟨c % 64, Nat.mod_lt _ (by decide)⟩) s else s

/-- A credit of the safety port is returned (R139). -/
def returnCredit (s : State) : State := { s with sp := { s.sp with credits := min 8 (s.sp.credits + 1) } }

/-- Descriptors of context `c` in its TXQ: the TX ring and the index of each (R333, R349). -/
def txPosted (s : State) (c : Nat) : List (Nat × BitVec 32) :=
  (List.range 16).flatMap fun k =>
    let r := s.ring c (4 + k)
    if r.active then
      ((List.range (r.prod - r.fetched).toNat).map fun i => (k, r.fetched + BitVec.ofNat 32 i)).filter fun x => !r.txLost.contains x.2
    else []

/-- A port's waiting frames without those of reply number `i` to the master. -/
def withoutReply (pos : Nat) : Nat → List LinkFrame → List LinkFrame
  | _, [] => []
  | i, f :: l =>
    if f.typ == .reply && f.src == pos then
      if i = 0 then (if f.last then l else withoutReply pos 0 l)
      else f :: withoutReply pos (if f.last then i - 1 else i) l
    else f :: withoutReply pos i l

/-- Reply number `i` of the MSRQ is dropped: those that wait on LINKA come first. -/
def dropMasterReply (i : Nat) (s : State) : State :=
  let a := (s.linkA.queue.filter fun f => f.last && f.src == s.pos && f.typ == .reply).length
  if i < a then s.modLink .a fun l => { l with queue := withoutReply s.pos i l.queue }
  else s.modLink .b fun l => { l with queue := withoutReply s.pos (i - a) l.queue }

/-- Packets in a queue that an uncorrectable word may belong to; a packet under reception is the last of its CHQ. -/
def packetsIn (s : State) : QKind × Nat → Nat
  | (.chq, n) => (s.chan n).chq.length + flag ((s.chan n).chqClaim != 0) 1
  | (.rtq, n) => (tget s.fq.rtq n []).length
  | (.lkq, _) => 0
  | (.spq, _) => s.fq.spq.length
  | (.sprq, _) => s.sp.replies.length
  | (.msq, _) => s.fq.msq.length
  | (.msrq, _) => masterReplies s
  | (.cmdq, c) => (s.cq c).cmdq.length
  | (.rplq, c) => (s.cq c).rplq.length
  | (.evtq, c) => (s.cq c).evtq.length
  | (.txq, c) => (txPosted s c).length
  | (.rxq, c) => (s.cq c).rxq.length

/-- Packet number `i` of a queue is dropped, and what it held is free again. -/
def dropPacketAt (q : QKind × Nat) (i : Nat) (s : State) : State :=
  match q with
  | (.chq, n) =>
    if i < (s.chan n).chq.length then s.modChan n fun c => { c with chq := dropAt c.chq i }
    else s.modChan n fun c => { c with rx := c.rx.map fun r => { r with dropped := true }, chqClaim := 0 }
  | (.rtq, n) => cellsFreed n { s with fq := { s.fq with rtq := tmod s.fq.rtq n fun l => dropAt l i } }
  | (.spq, _) => returnCredit { s with fq := { s.fq with spq := dropAt s.fq.spq i } }
  | (.sprq, _) => returnCredit { s with sp := { s.sp with replies := dropAt s.sp.replies i } }
  | (.msq, _) => { s with fq := { s.fq with msq := dropAt s.fq.msq i } }
  | (.cmdq, c) => returnPlace c (s.modCq c fun x => { x with cmdq := dropAt x.cmdq i })
  | (.rplq, c) => returnPlace c (s.modCq c fun x => { x with rplq := dropAt x.rplq i })
  | (.evtq, c) => s.modCq c fun x => { x with evtq := dropAt x.evtq i }
  | (.rxq, c) =>
    let ring := ((s.cq c).rxq[i]?.map fun x => x.ring).getD 0
    ringLost c ring (s.modCq c fun x => { x with rxq := dropAt x.rxq i })
  | (.msrq, _) => dropMasterReply i s
  | (.txq, c) => match (txPosted s c)[i]? with
    | some (k, n) => s.modRing c (4 + k) fun r => { r with txLost := r.txLost ++ [n] }
    | none => s
  | (.lkq, _) => s

/-- The contexts to inform of a packet of a queue. -/
def queueOwners : QKind × Nat → List Nat
  | (.cmdq, c) => withOwner c
  | (.rplq, c) => withOwner c
  | (.evtq, c) => withOwner c
  | (.txq, c) => withOwner c
  | (.rxq, c) => withOwner c
  | _ => [0]

/-- An uncorrectable word of the queue storage: the packet that holds it, if any, is dropped and counted (R36, R349). -/
def badQueueWord (s : State) : State :=
  match drawQueue s with
  | none => memoryEvent [0] (drawn 2 s)
  | some q =>
    let n := packetsIn s q
    let i := freeAt s 1 % (n + 1)
    let s := drawn 2 s
    if i ≥ n then memoryEvent [0] s
    else memoryEvent (queueOwners q) (modStat q (fun t => { t with uncorr := inc32 t.uncorr })
      (let s := dropPacketAt q i s; fcAt q (qFill s q) true s))

/-- A corrected word of the payload pool counts in its object, up to 0xFF (R286, R299). -/
def goodPoolWord (word : Nat) (s : State) : State :=
  match cellOwner s ((word - poolBase) / 64) with
  | some (mo, _) => s.modMo mo fun o => { o with eccCorr := min 0xFF (o.eccCorr + 1) }
  | none => s

/-! ### Tables (R36, R301, R322, R414, R460) -/

/-- Event 0x0A03 (R460, R461). -/
def tableEvent (kind n : Nat) (s : State) : State := raiseEvent 0 0x0A03 (le 1 kind ++ zeros 3 ++ le 4 n) s

/-- A signal-table entry is disabled (R36, R460). -/
def badSignal (n : Nat) (s : State) : State :=
  if (mget s.sigs n).isNone then memoryEvent [0] s
  else tableEvent 2 n { s with sigs := mmod s.sigs n fun g => { g with errDis := true } }

/-- A PDU descriptor is disabled (R36, R460). -/
def badPdu (n : Nat) (s : State) : State :=
  if (mget s.pdus n).isNone then memoryEvent [0] s
  else tableEvent 1 n { s with pdus := mmod s.pdus n fun p => { p with errDis := true } }

/-- A filter entry is disabled, with event 0x0601 (R322). -/
def disableFilter (why n : Nat) (s : State) : State :=
  match mget s.filters.entries n with
  | none => s
  | some f =>
    raiseEvents (withOwner f.owner) 0x0601 (le 2 n ++ le 1 why)
      { s with filters := { s.filters with entries := mmod s.filters.entries n fun f => { f with errDis := true } } }

/-- An uncorrectable filter entry: it is disabled, and of a HASHED chain every later entry (R36, R322). -/
def badFilter (n : Nat) (s : State) : State :=
  match mget s.filters.entries n with
  | none => memoryEvent [0] s
  | some f =>
    let later := laterInChain n f s.filters
    let s := disableFilter 1 n s
    let s := { s with filters := { s.filters with entries := mmod s.filters.entries n fun f => { f with bad := true } } }
    forEach later (fun m s => match mget s.filters.entries m with
      | some g => if g.errDis then s else disableFilter 2 m s
      | none => s) s

/-- An object descriptor is disabled (R36, R301). -/
def badDescriptor (mo : Nat) (s : State) : State :=
  match s.mo? mo with
  | none => memoryEvent [0] s
  | some o => objectEvent mo o 1 0 (disableObject mo false s)

/-- An admission record is lost: cause RECORD latches on its channel, and CTX0 and the context that the record counts against hear
of it, whether or not the cause was latched before (R36, R414). -/
def badRecord (n : Nat) (s : State) : State :=
  match mget s.records n with
  | none => memoryEvent [0] s
  | some r =>
    memoryEvent (withOwner (recordOwner s r.decl))
      (latchCause r.decl.channel 4 n (stampNow s) (modRec n (fun r => { r with broken := true }) s))

/-! ### Entries that are zeroed (R36) -/

/-- A record of the filmstrip, at a place that the spec does not give, reads as zeros (log entry 4). -/
def badFilm (s : State) : State :=
  let i := freeAt s 0 % filmSize
  let zero : FilmRecord := { stamp := 0, channel := 0, kind := 0, info := 0, data := 0 }
  memoryEvent [0] (drawn 1 { s with film := { s.film with records := lmod s.film.records i fun _ => zero } })

/-- A census entry is zeroed: its place is free. -/
def badCensus (n : Nat) (s : State) : State :=
  memoryEvent [0] { s with census := { s.census with entries := mdel s.census.entries n } }

/-- An entry of the statistics, which the spec does not lay out, is zeroed: a channel's counters, a context's filter counters
on a channel, a stream's or a lane's (R30, R36; log entry 4). -/
def badStatistics (s : State) : State :=
  let kind := freeAt s 0 % 4
  let n := freeAt s 1
  let pair := (s.filters.pairs[n % (s.filters.pairs.length + 1)]?.map fun p => p.1).getD 4096
  let stream := (s.records[n % (s.records.length + 1)]?.map fun r => r.1).getD 32768
  let owners := match kind with
    | 1 => if pair < 4096 then withOwner (pair / 64) else [0]
    | 2 => withOwner (((mget s.records stream).map fun r => r.decl.ctx).getD 0)
    | _ => [0]
  let s := drawn 2 s
  memoryEvent owners <| match kind with
    | 0 => s.modChan (n % 64) fun c => { c with counters := chanCountersReset, filters := chanReset.filters }
    | 1 => { s with filters := { s.filters with
        pairs := mdel s.filters.pairs pair } }
    | 2 => modRec stream
        (fun r => { r with misses := 0, overExp := 0, violations := 0, frames := 0, maxResponse := 0, lastMiss := 0 }) s
    | _ => s.modLane (n % 4) fun l => { l with passes := 0, timed := 0, maxWork := 0, last := 0 }

/-! ### MRAM (R36, R570) -/

/-- A word of the security area: COMMIT holds the counters, which read as their highest values (R36, R570). -/
def badSecurity (off : Nat) (s : State) : State :=
  if off / 8 = 0 then modSec (fun x => { x with rollbackMin := 0xFFFFFFFF, commitSeq := 0xFFFF }) s else s

/-- Entry `n` of the fault log is skipped from now on (R36, R39). Which place of the region holds an entry is the model's choice:
that of number SEQ lies at (SEQ - 1) modulo 2,048 (DESIGN CHOICE, log entry 50). -/
def badLogEntry (n : Nat) (s : State) : State :=
  { s with log := { s.log with entries := s.log.entries.map fun e =>
      if (e.seq - 1) % faultLogSize = n then { e with readable := false } else e } }

/-- A word of MRAM: slot, settings area, security area, fault log (R36). -/
def badMram (r : Region) (off : Nat) (s : State) : State :=
  let spoil := fun (i : Option Image) => i.map fun x => { x with intact := false, headed := x.headed && decide (256 ≤ off) }
  memoryEvent [0] <| match r with
    | .slotA => modMram (fun m => { m with slotA := spoil m.slotA }) s
    | .slotB => modMram (fun m => { m with slotB := spoil m.slotB }) s
    | .settingsA => modMram (modArea .a fun a => { a with readable := false }) s
    | .settingsB => modMram (modArea .b fun a => { a with readable := false }) s
    | .security => badSecurity off s
    | .faultLog => badLogEntry (off / 32) s
    | _ => s

/-! ### SCRUB_PASS (R33 to R37) -/

/-- The action of R36 for the word at offset `word` of the map. -/
def badWord (r : Region) (word : Nat) (interrupted : Option Packet) (s : State) : State :=
  let off := word - (regionSpan r).1
  match r with
  | .signalTable => badSignal (off / 16) s
  | .payloadPool => badPoolWord word s
  | .filterStore => badFilter (off / 16) s
  | .pduTable => badPdu (off / 32) s
  | .moDescriptors => badDescriptor (off / 32) s
  | .admissionRecords => badRecord (off / 16) s
  | .commandRam => memoryEvent [0] (if s.isReady 2 then restartEngine 2 interrupted s else s)
  | .queueStorage => badQueueWord s
  | .census => badCensus (off / 32) s
  | .filmstrip => badFilm s
  | .statistics => badStatistics s
  | .slotA => badMram .slotA off s
  | .slotB => badMram .slotB off s
  | .settingsA => badMram .settingsA off s
  | .settingsB => badMram .settingsB off s
  | .security => badMram .security off s
  | .faultLog => badMram .faultLog off s
  | .reserve => badMram .reserve off s

/-- A corrected word: counted in its region, and in the object or queue that holds it (R33, R34, R299, R349). -/
def goodWord (r : Region) (word : Nat) (s : State) : State :=
  let s := modCounter r (fun c => { c with corrected := inc32 c.corrected }) s
  match r with
  | .payloadPool => goodPoolWord word s
  | .queueStorage => match drawQueue s with
    | some q => modStat q (fun t => { t with eccCorr := inc32 t.eccCorr }) (drawn 1 s)
    | none => drawn 1 s
  | _ => s

/-- SCRUB_PASS: the word of `region` that holds the byte at offset `addr` has been read (R33 to R37). -/
def execScrubPass (region : Region) (addr : Nat) (finding : Finding) (interrupted : Option Packet) (s : State) :
    Host.Outcome State Fault Refusal :=
  let span := regionSpan region
  let word := addr / 8 * 8
  if !s.isReady (regionOwner region) || addr < span.1 || span.1 + span.2 ≤ addr then next s
  else match finding with
    | .clean => next s
    | .corrected => next (goodWord region word s)
    | .uncorrectable =>
      next (noteFinding region word (badWord region word interrupted) s)

end Sys2Proof.Machine
end

