-- ==== Sys2Proof/Machine/SystemCmds.lean ====
section
/-!
DEFINITION. The remaining commands of group 0x01: IDENTIFY, GET_READINESS and CLEAR_COUNTERS (R89, R190, R191).
-/

namespace Sys2Proof.Machine

/-! ### IDENTIFY (R190) -/

/-- GEN_SELF of the requesting function; a forwarded command is CTX0's, the safety port has none (R147, R190). -/
def selfOf (s : State) (src : Source) : Nat :=
  match actsAs src with
  | some c => genSelf s c
  | none => 0

/-- IDENTIFY. -/
def identify (p : Packet) (s : State) : Verdict :=
  let fmt := match runningImage s with | some i => i.settingsFmt | none => 0
  okBody s (le 4 genId ++ le 4 genRev ++ le 4 (genFwVer s) ++ le 4 (selfOf s p.source) ++ le 8 Config.serial.toNat ++ le 2 fmt
    ++ zeros 2)

/-- IDENTIFY: its row of the opcode index. -/
def specIdentify : CmdSpec :=
  { opcode := 0x0101, plen := plenIs 0, right := fromAll, needs := needsOf [2], readOnly := true }

/-- IDENTIFY (R190). -/
def execIdentify (p : Packet) (s : State) : Host.Outcome State Fault Refusal := next (runCommand specIdentify identify p s)

/-! ### GET_READINESS (R89) -/

/-- GET_READINESS. -/
def getReadiness (_ : Packet) (s : State) : Verdict := okBody s (readinessBytes s)

/-- GET_READINESS: its row of the opcode index. -/
def specGetReadiness : CmdSpec :=
  { opcode := 0x0103, plen := plenIs 0, right := fromAll, needs := needsOf [2], readOnly := true }

/-- GET_READINESS (R89). -/
def execGetReadiness (p : Packet) (s : State) : Host.Outcome State Fault Refusal :=
  next (runCommand specGetReadiness getReadiness p s)

/-! ### CLEAR_COUNTERS (R191) -/

/-- Every queue's counters changed by `f`, which sees the queue's fill. -/
def clearQueues (f : Nat → QStat → QStat) (s : State) : State :=
  forEach (allQids.filterMap qidOf) (fun q s => modStat q (f (qFill s q)) s) s

/-- Class 0: memory and crossing counters (R37), with ECC counters of objects (R287) and queues (R353) and the counters of the
links (R561). -/
def clearMemory (s : State) : State :=
  let link := fun (l : Link) => { l with crcErr := 0, replays := 0, retrains := 0, routedTx := 0, routedRx := 0, routedLost := 0 }
  let s := { s with
    mem := memCountersReset, linkA := link s.linkA, linkB := link s.linkB
    mos := s.mos.map fun m => (m.1, { m.2 with eccCorr := 0 }) }
  clearQueues (fun _ t => { t with eccCorr := 0, uncorr := 0 }) s

/-- Class 1: channel and error statistics (R232, R265, R271), schedules (R372). -/
def clearChannels (s : State) : State :=
  { s with
    chans := vmap s.chans fun c => { c with counters := chanCountersReset, ackRun := 0 }
    schedules := s.schedules.map fun x =>
      (x.1, { x.2 with onTime := 0, displaced := 0, empty := 0, overrun := 0, missed := 0 }) }

/-- Class 2: queue counters (R353), with those of objects (R287) and filters (R324). HWM starts again at the fill. -/
def clearQueueCounters (s : State) : State :=
  let s := { s with
    mos := s.mos.map fun m => (m.1, { m.2 with overwrites := 0, frames := 0 })
    chans := vmap s.chans fun c => { c with filters := chanReset.filters }
    filters := { s.filters with pairs := s.filters.pairs.map fun x => (x.1, { x.2 with matched := 0, disDrop := 0 }) } }
  clearQueues (fun fill t => { t with
    hwm := fill, packets := 0, rewinds := 0, overflow := 0, oversize := 0, noring := 0, ringfull := 0, fcAsserts := 0 }) s

/-- Class 3: admission monitors and deadline misses (R427, R429). -/
def clearMonitors (s : State) : State :=
  { s with
    monitors := vmap s.monitors fun m =>
      { m with undeclared := 0, foreignViol := 0, ownViol := 0, overBudget := 0, misses := 0 }
    records := s.records.map fun r =>
      (r.1, { r.2 with misses := 0, overExp := 0, violations := 0, frames := 0, maxResponse := 0 }) }

/-- Class 4: route, PDU and check-value counters (R471, R485). -/
def clearRoutes (s : State) : State :=
  { s with
    lanes := vmap s.lanes fun l => { l with passes := 0, timed := 0, maxWork := 0 }
    pdus := s.pdus.map fun p =>
      (p.1, { p.2 with arrivals := 0, sends := 0, short := 0, cvFail := 0, timeouts := 0, deferred := 0, noObject := 0 })
    cvus := vmap s.cvus fun u => { u with checks := 0, mismatches := 0, appends := 0, fed := 0 } }

/-- Class 5: load counters (R532). -/
def clearLoads (s : State) : State :=
  { s with load := { s.load with loads := vmap s.load.loads fun l =>
      { l with faults := 0, thermCount := 0, opens := 0, uvRestarts := 0, retriesUsed := 0, latches := 0, extensions := 0,
               chainErr := 0 } } }

/-- The classes of MASK are cleared. -/
def clearClasses (mask : Nat) (s : State) : State :=
  let on := fun (b : Nat) (f : State → State) (s : State) => if mask.testBit b then f s else s
  on 5 clearLoads (on 4 clearRoutes (on 3 clearMonitors (on 2 clearQueueCounters (on 1 clearChannels (on 0 clearMemory s)))))

/-- CLEAR_COUNTERS. -/
def clearCounters (p : Packet) (s : State) : Verdict :=
  let mask := fieldAt p.params 0 4
  badParam (mask ≥ 64) 0 <| okBody (clearClasses mask s) (le 8 (stampNow s))

/-- CLEAR_COUNTERS: its row of the opcode index. -/
def specClearCounters : CmdSpec :=
  { opcode := 0x0106, plen := plenIs 1, right := fromCtx0, needs := needsOf [2], readOnly := false }

/-- CLEAR_COUNTERS (R191). -/
def execClearCounters (p : Packet) (s : State) : Host.Outcome State Fault Refusal :=
  next (runCommand specClearCounters clearCounters p s)

end Sys2Proof.Machine
end

