-- ==== Sys2Proof/Machine/SafetyCmds.lean ====
section
/-!
DEFINITION. The safety port: its four transactions, its register view, its credits and the AON decoder of force-safe packets
(R66, R68, R80, R135 to R143).
-/

namespace Sys2Proof.Machine

/-! ### Requests and answers (R136 to R139) -/

/-- The answer of a transaction: status, answer data, and the answer CRC over both (R136, R137). -/
def answerSafety (status : Nat) (data : List Byte) (s : State) : State :=
  s.emit (.safety status data (BitVec.ofNat 32 (crc32 (le 1 status ++ data))))

/-- TYPE of the four transactions (R136). -/
def typeRead : Nat := 0x0B
@[inherit_doc typeRead] def typeWrite : Nat := 0x02
@[inherit_doc typeRead] def typeSend : Nat := 0x3C
@[inherit_doc typeRead] def typeReceive : Nat := 0x3D

/-- The bytes of a request that its CRC covers: TYPE, ARG, COUNT and the request data (R136). -/
def requestBytes (typ arg count : Nat) (data : List Byte) : List Byte := le 1 typ ++ le 2 arg ++ le 1 count ++ data

/-- A request whose CRC has failed: executed in nothing, counted and signalled (R138). -/
def failCrc (s : State) : State :=
  answerSafety 1 [] (raiseSafe 4 { s with sp := { s.sp with crcErrs := inc16 s.sp.crcErrs } })

/-- The port answers while the supervisor runs (R62). A transaction is judged by the request CRC over its bytes, then by TYPE,
ARG and COUNT, then it acts (R136 to R138); one that ended before its CRC was complete (`crc` absent) is discarded without a
count (R138). A transaction answered with a status other than 0x00 has no answer data (log entry 73). -/
def transact (bytes : List Byte) (crc : Option Word) (valid : Bool) (act : State → State) (s : State) : State :=
  if !s.isReady 0 then s
  else match crc with
    | none => s
    | some v =>
      if v.toNat ≠ crc32 bytes then failCrc s
      else if !valid then answerSafety 2 [] s
      else act s

/-! ### The register view (R141) -/

/-- End of the register view. -/
def viewEnd : Nat := 0x50

/-- ARG and COUNT of a register transaction lie in the view (R136, R141). DESIGN CHOICE: the offsets 0x2C to 0x3C, which the view
does not name, lie in it, read 0 and take nothing, as R96 has it for BAR0 (log entry 60). -/
def viewSpan (arg count : Nat) : Bool := 1 ≤ count && count ≤ 16 && arg % 4 == 0 && arg + 4 * count ≤ viewEnd

/-- SAFE_STATUS (R141). -/
def safeStatus (s : State) : Nat :=
  flag (!s.sp.replies.isEmpty) 1 + flag (secOf s).lock 2 + flag s.update.session.isSome 4 + 16 * s.sp.credits

/-- A register of the view as it stands (R99, R141). -/
def viewRead (s : State) (off : Nat) : Nat :=
  match off with
  | 0x24 => s.sp.timeHi.toNat
  | 0x40 => safeStatus s
  | 0x44 => s.sp.irqCause.toNat
  | 0x48 => s.sp.irqMask.toNat
  | 0x4C => s.sp.crcErrs
  | _ => if off ≤ 0x28 then genRead s 0 off else 0

/-- What reading a register of the view does: GEN_TIME_LO latches GEN_TIME_HI of this view, SAFE_CRC_ERRS clears (R99, R141). -/
def viewEffect (off : Nat) (s : State) : State :=
  match off with
  | 0x20 => { s with sp := { s.sp with timeHi := timeHiNow s } }
  | 0x4C => { s with sp := { s.sp with crcErrs := 0 } }
  | _ => s

/-- `count` words from `off` on, read in turn. -/
def viewWords : Nat → Nat → State → List Byte × State
  | 0, _, s => ([], s)
  | n + 1, off, s =>
    let r := viewWords n (off + 4) (viewEffect off s)
    (le 4 (viewRead s off) ++ r.1, r.2)

/-- SAFETY_REGISTER_READ (R136, R141). A request whose TYPE is none of the four has the length of this one and is answered with
status 0x02 (R136). -/
def execSafetyRegisterRead (typ : Byte) (arg count : Nat) (crc : Option Word) (s : State) : Host.Outcome State Fault Refusal :=
  next (transact (requestBytes typ.toNat arg count []) crc (typ.toNat == typeRead && viewSpan arg count)
    (fun s => let r := viewWords count arg s; answerSafety 0 r.1 r.2) s)

/-- A word of the view is written: GEN_WAKE_STATUS and SAFE_IRQ_CAUSE by writing 1, SAFE_IRQ_MASK (R86, R141). -/
def viewWrite (off : Nat) (v : Word) (s : State) : State :=
  match off with
  | 0x18 => clearWake false v s
  | 0x1C => clearWake true v s
  | 0x44 => { s with sp := { s.sp with irqCause := s.sp.irqCause &&& ~~~ (v.setWidth 5) } }
  | 0x48 => { s with sp := { s.sp with irqMask := v &&& 0x1F } }
  | _ => s

/-- Words written in turn from `off` on. -/
def viewWriteAll : List Word → Nat → State → State
  | [], _, s => s
  | v :: l, off, s => viewWriteAll l (off + 4) (viewWrite off v s)

/-- SAFETY_REGISTER_WRITE (R136, R141). -/
def execSafetyRegisterWrite (arg count : Nat) (words : List Word) (crc : Option Word) (s : State) :
    Host.Outcome State Fault Refusal :=
  let bytes := requestBytes typeWrite arg count (words.flatMap fun w => le 4 w.toNat)
  next (transact bytes crc (viewSpan arg count && words.length == count)
    (fun s => answerSafety 0 [] (viewWriteAll words arg s)) s)

/-! ### Packets (R66, R68, R80, R139, R143) -/

/-- A force-safe packet that the AON decoder acts on: well formed, and for this device (R68, R143). -/
def isForce (p : Packet) : Bool :=
  p.opcode == 0x0C05 && (headerFault specForceSafe p).isNone && p.flags == 0 && (byteAt p.params 0 == 1 || byteAt p.params 0 == 2)
    && zeroAt p.params 1 3

/-- The AON decoder: a force acts as soon as LOAD is set, ahead of the command engine, which answers it later with the stamp of
the force (R68, R143, R512). -/
def decodeForce (p : Packet) (s : State) : State :=
  if !isForce p || !s.isReady 10 then s
  else
    let s := applyForce (byteAt p.params 0) (fieldAt p.params 4 12) .sp s
    if s.isReady 2 then { s with sp := { s.sp with decoded := s.sp.decoded ++ [(p, stampNow s)] } } else s

/-- A packet of the safety port comes in under a credit (R66, R80, R139, R143). With a parity error on the way to ROUTE the force
is dropped, with one on the way to CORE the packet; each is counted on its path (R21, R23). The credit of a dropped packet does not
return (log entry 73). -/
def intakeSafety (p : Packet) (parity forceParity : Bool) (s : State) : State :=
  let s := { s with sp := { s.sp with credits := s.sp.credits - 1 } }
  if s.aon.power == .retain && isResume p then resumeBySp p s
  else
    let t := if isForce p && forceParity then parityDrop 10 s else decodeForce p s
    if parity then parityDrop 9 (forgetForce s t) else arrivePacket p t
where
  /-- The command engine never sees the packet, so the force's stamp waits for no reply. -/
  forgetForce (s t : State) : State := { t with sp := { t.sp with decoded := s.sp.decoded } }

/-- The command packet in the request data of a packet send of `arg` bytes (R136, R144). -/
def safetyPacket (arg : Nat) (data : List Byte) : Packet :=
  { packetOf .sp (padTo 256 data) with params := padTo (arg - 16) (data.drop 16) }

/-- SAFETY_PACKET_SEND (R136, R138, R139). -/
def execSafetyPacketSend (arg count : Nat) (data : List Byte) (crc : Option Word) (parity forceParity : Bool) (s : State) :
    Host.Outcome State Fault Refusal :=
  let valid := 16 ≤ arg && arg ≤ 256 && arg % 4 == 0 && count == 0 && data.length == arg
  next (transact (requestBytes typeSend arg count data) crc valid (fun s =>
    if s.sp.credits = 0 then answerSafety 3 [] s
    else answerSafety 0 [] (intakeSafety (safetyPacket arg data) parity forceParity s)) s)

/-- The oldest reply is handed over, and its credit returns (R136, R139). -/
def takeSafetyReply (s : State) : State :=
  match s.sp.replies with
  | [] => answerSafety 0 (zeros 4) s
  | r :: rest =>
    let b := replyBytes r
    answerSafety 0 (le 2 b.length ++ zeros 2 ++ b) (returnCredit { s with sp := { s.sp with replies := rest } })

/-- The oldest reply was dropped on its way from CORE to AON (R21, R23): the packet's credit does not return (log entry 73). -/
def loseSafetyReply (s : State) : State :=
  if s.sp.replies.isEmpty then s else parityDrop 9 { s with sp := { s.sp with replies := s.sp.replies.drop 1 } }

/-- SAFETY_PACKET_RECEIVE (R136, R139, R148); `parity`: the reply that was the oldest was dropped on its crossing. -/
def execSafetyPacketReceive (arg count : Nat) (crc : Option Word) (parity : Bool) (s : State) : Host.Outcome State Fault Refusal :=
  next (transact (requestBytes typeReceive arg count []) crc (arg == 0 && count == 0)
    (fun s => takeSafetyReply (if parity then loseSafetyReply s else s)) s)

end Sys2Proof.Machine
end

