-- ==== Sys2Proof/Machine/Dispatch.lean ====
section
/-!
DEFINITION. The dispatch: one arm for each command, each a direct call of its meaning.
-/

namespace Sys2Proof.Machine

def exec (i : Instr) (s : State) : Host.Outcome State Fault Refusal :=
  match i with
  | .powerOnReset s1 s2 s3 => Sys2Proof.Machine.execPowerOnReset s1 s2 s3 s
  | .brownOut supply s1 s2 s3 => Sys2Proof.Machine.execBrownOut supply s1 s2 s3 s
  | .brownOutRestart => Sys2Proof.Machine.execBrownOutRestart s
  | .warmReset s1 s2 s3 => Sys2Proof.Machine.execWarmReset s1 s2 s3 s
  | .pcieFundamentalReset => Sys2Proof.Machine.execPcieFundamentalReset s
  | .resumeFromRetain => Sys2Proof.Machine.execResumeFromRetain s
  | .aonStart => Sys2Proof.Machine.execAonStart s
  | .functionReady f up => Sys2Proof.Machine.execFunctionReady f up s
  | .maskRomBoot => Sys2Proof.Machine.execMaskRomBoot s
  | .imageStart => Sys2Proof.Machine.execImageStart s
  | .pllLossOfLock pll acked tdcvs => Sys2Proof.Machine.execPllLossOfLock pll acked tdcvs s
  | .pllRelock pll => Sys2Proof.Machine.execPllRelock pll s
  | .referenceLoss acked tdcvs => Sys2Proof.Machine.execReferenceLoss acked tdcvs s
  | .lockstepMismatch pc interrupted => Sys2Proof.Machine.execLockstepMismatch pc interrupted s
  | .commandPauseEnd slotGood => Sys2Proof.Machine.execCommandPauseEnd slotGood s
  | .scrubPass region addr finding interrupted => Sys2Proof.Machine.execScrubPass region addr finding interrupted s
  | .vfEnable numVfs => Sys2Proof.Machine.execVfEnable numVfs s
  | .vfDisable => Sys2Proof.Machine.execVfDisable s
  | .contextStopBathEnd c => Sys2Proof.Machine.execContextStopBathEnd c s
  | .vfFlr c => Sys2Proof.Machine.execVfFlr c s
  | .vfFlrEnd c => Sys2Proof.Machine.execVfFlrEnd c s
  | .pfFlr => Sys2Proof.Machine.execPfFlr s
  | .producerDoorbellWrite c k value => Sys2Proof.Machine.execProducerDoorbellWrite c k value s
  | .consumerDoorbellWrite c k value => Sys2Proof.Machine.execConsumerDoorbellWrite c k value s
  | .ringEnable c k ctrl => Sys2Proof.Machine.execRingEnable c k ctrl s
  | .ringDisable c k ctrl => Sys2Proof.Machine.execRingDisable c k ctrl s
  | .ringStopBathEnd c k => Sys2Proof.Machine.execRingStopBathEnd c k s
  | .dmaErrClear c k => Sys2Proof.Machine.execDmaErrClear c k s
  | .dmaReadError c k entry => Sys2Proof.Machine.execDmaReadError c k entry s
  | .irqCauseClear c value => Sys2Proof.Machine.execIrqCauseClear c value s
  | .irqMaskWrite c value => Sys2Proof.Machine.execIrqMaskWrite c value s
  | .msixHoldoffEnd c k => Sys2Proof.Machine.execMsixHoldoffEnd c k s
  | .wakeStatusClear bySafety high value => Sys2Proof.Machine.execWakeStatusClear bySafety high value s
  | .genTimeLoRead c => Sys2Proof.Machine.execGenTimeLoRead c s
  | .clearOnReadCounterRead c offset count found => Sys2Proof.Machine.execClearOnReadCounterRead c offset count found s
  | .winSelectWrite c value => Sys2Proof.Machine.execWinSelectWrite c value s
  | .windowLockTake c offset count found => Sys2Proof.Machine.execWindowLockTake c offset count found s
  | .windowLockRelease c offset count found => Sys2Proof.Machine.execWindowLockRelease c offset count found s
  | .windowLockTimeout c => Sys2Proof.Machine.execWindowLockTimeout c s
  | .registerWrite c offset words allBytes => Sys2Proof.Machine.execRegisterWrite c offset words allBytes s
  | .safetyRegisterRead typ arg count crc => Sys2Proof.Machine.execSafetyRegisterRead typ arg count crc s
  | .safetyRegisterWrite arg count words crc => Sys2Proof.Machine.execSafetyRegisterWrite arg count words crc s
  | .safetyPacketSend arg count data crc parity forceParity => Sys2Proof.Machine.execSafetyPacketSend arg count data crc parity forceParity s
  | .safetyPacketReceive arg count crc parity => Sys2Proof.Machine.execSafetyPacketReceive arg count crc parity s
  | .replyRingWrite c parity => Sys2Proof.Machine.execReplyRingWrite c parity s
  | .eventRingWrite c parity => Sys2Proof.Machine.execEventRingWrite c parity s
  | .rxRingWrite c parity => Sys2Proof.Machine.execRxRingWrite c parity s
  | .descriptorLanding c k entry payload parity => Sys2Proof.Machine.execDescriptorLanding c k entry payload parity s
  | .routedFrameIntake lane parity => Sys2Proof.Machine.execRoutedFrameIntake lane parity s
  | .candidateLatch ch stamp parity => Sys2Proof.Machine.execCandidateLatch ch stamp parity s
  | .arbitrationLost ch => Sys2Proof.Machine.execArbitrationLost ch s
  | .arbitrationWon ch => Sys2Proof.Machine.execArbitrationWon ch s
  | .headerComplete ch hdr edges decision parity => Sys2Proof.Machine.execHeaderComplete ch hdr edges decision parity s
  | .frameReceived ch len data parity => Sys2Proof.Machine.execFrameReceived ch len data parity s
  | .distributorCopy ch parity => Sys2Proof.Machine.execDistributorCopy ch parity s
  | .transmitSuccess ch acked tdcv => Sys2Proof.Machine.execTransmitSuccess ch acked tdcv s
  | .busErrorDetected ch code field ed row acked bytes tdcv edges => Sys2Proof.Machine.execBusErrorDetected ch code field ed row acked bytes tdcv edges s
  | .attemptFailed ch tdcv => Sys2Proof.Machine.execAttemptFailed ch tdcv s
  | .protocolException ch edges => Sys2Proof.Machine.execProtocolException ch edges s
  | .busIntegrationComplete ch => Sys2Proof.Machine.execBusIntegrationComplete ch s
  | .busIdle ch => Sys2Proof.Machine.execBusIdle ch s
  | .idleLimitExpiry c ch => Sys2Proof.Machine.execIdleLimitExpiry c ch s
  | .stbnSettleEnd ch => Sys2Proof.Machine.execStbnSettleEnd ch s
  | .channelStopBathEnd ch => Sys2Proof.Machine.execChannelStopBathEnd ch s
  | .autoDelayExpiry ch => Sys2Proof.Machine.execAutoDelayExpiry ch s
  | .recoveryComplete ch => Sys2Proof.Machine.execRecoveryComplete ch s
  | .wakeDetected ch => Sys2Proof.Machine.execWakeDetected ch s
  | .powerTransitionComplete => Sys2Proof.Machine.execPowerTransitionComplete s
  | .developSwitch instant => Sys2Proof.Machine.execDevelopSwitch instant s
  | .contactSheetCapture bank => Sys2Proof.Machine.execContactSheetCapture bank s
  | .sheetBankRelease bank => Sys2Proof.Machine.execSheetBankRelease bank s
  | .slewEnd => Sys2Proof.Machine.execSlewEnd s
  | .ppsInCapture => Sys2Proof.Machine.execPpsInCapture s
  | .ppsStepLapse => Sys2Proof.Machine.execPpsStepLapse s
  | .ppsOutRise => Sys2Proof.Machine.execPpsOutRise s
  | .ppsOutFall => Sys2Proof.Machine.execPpsOutFall s
  | .trigioEdge ball rising => Sys2Proof.Machine.execTrigioEdge ball rising s
  | .triggerFire unit => Sys2Proof.Machine.execTriggerFire unit s
  | .triggerPulseEnd unit => Sys2Proof.Machine.execTriggerPulseEnd unit s
  | .shutterArmPoint mo => Sys2Proof.Machine.execShutterArmPoint mo s
  | .releaseNotice mo parity => Sys2Proof.Machine.execReleaseNotice mo parity s
  | .shutterInstant mo => Sys2Proof.Machine.execShutterInstant mo s
  | .deadlineTimerExpiry record => Sys2Proof.Machine.execDeadlineTimerExpiry record s
  | .streamStopBathEnd record => Sys2Proof.Machine.execStreamStopBathEnd record s
  | .arrivalPass lane parity => Sys2Proof.Machine.execArrivalPass lane parity s
  | .pduTimeout pdu => Sys2Proof.Machine.execPduTimeout pdu s
  | .timeoutPass pdu => Sys2Proof.Machine.execTimeoutPass pdu s
  | .periodicPackNotice pdu => Sys2Proof.Machine.execPeriodicPackNotice pdu s
  | .periodicPass pdu => Sys2Proof.Machine.execPeriodicPass pdu s
  | .deferredPass pdu => Sys2Proof.Machine.execDeferredPass pdu s
  | .dinSample levels => Sys2Proof.Machine.execDinSample levels s
  | .ainRoundEnd codes vbats => Sys2Proof.Machine.execAinRoundEnd codes vbats s
  | .vbatsFilterUpdate samples => Sys2Proof.Machine.execVbatsFilterUpdate samples s
  | .loadTick samples => Sys2Proof.Machine.execLoadTick samples s
  | .inrushWindowEnd ld => Sys2Proof.Machine.execInrushWindowEnd ld s
  | .backoffEnd ld => Sys2Proof.Machine.execBackoffEnd ld s
  | .healReached ld => Sys2Proof.Machine.execHealReached ld s
  | .loadStopBathEnd ld => Sys2Proof.Machine.execLoadStopBathEnd ld s
  | .pwmPeriodStart ld => Sys2Proof.Machine.execPwmPeriodStart ld s
  | .pwmHighEnd ld => Sys2Proof.Machine.execPwmHighEnd ld s
  | .chainTransferEnd swc response => Sys2Proof.Machine.execChainTransferEnd swc response s
  | .cvuStopBathEnd unit => Sys2Proof.Machine.execCvuStopBathEnd unit s
  | .censusLostJudgement => Sys2Proof.Machine.execCensusLostJudgement s
  | .linkUp port partner => Sys2Proof.Machine.execLinkUp port partner s
  | .linkDown port reason => Sys2Proof.Machine.execLinkDown port reason s
  | .linkConflictRetry port => Sys2Proof.Machine.execLinkConflictRetry port s
  | .linkStopBathEnd port => Sys2Proof.Machine.execLinkStopBathEnd port s
  | .timeFrameReceived port f => Sys2Proof.Machine.execTimeFrameReceived port f s
  | .timeExchange t1 t2 t3 t4 => Sys2Proof.Machine.execTimeExchange t1 t2 t3 t4 s
  | .alignmentTimeout => Sys2Proof.Machine.execAlignmentTimeout s
  | .routeFrameReceived port f parity valid => Sys2Proof.Machine.execRouteFrameReceived port f parity valid s
  | .stepFrameReceived port f => Sys2Proof.Machine.execStepFrameReceived port f s
  | .cmdFrameReceived port f => Sys2Proof.Machine.execCmdFrameReceived port f s
  | .replyFrameReceived port f => Sys2Proof.Machine.execReplyFrameReceived port f s
  | .eventFrameReceived port f => Sys2Proof.Machine.execEventFrameReceived port f s
  | .discoverFrameReceived port f => Sys2Proof.Machine.execDiscoverFrameReceived port f s
  | .idleFrameReceived port f => Sys2Proof.Machine.execIdleFrameReceived port f s
  | .replayTimeout port => Sys2Proof.Machine.execReplayTimeout port s
  | .discoverRound => Sys2Proof.Machine.execDiscoverRound s
  | .proofModeStart => Sys2Proof.Machine.execProofModeStart s
  | .fix selfTests => Sys2Proof.Machine.execFix selfTests s
  | .confirmTimerExpiry => Sys2Proof.Machine.execConfirmTimerExpiry s
  | .sessionIdleTimeout => Sys2Proof.Machine.execSessionIdleTimeout s
  | .identify p => Sys2Proof.Machine.execIdentify p s
  | .takeContactSheet p => Sys2Proof.Machine.execTakeContactSheet p s
  | .getReadiness p => Sys2Proof.Machine.execGetReadiness p s
  | .setPowerState p => Sys2Proof.Machine.execSetPowerState p s
  | .setWake p => Sys2Proof.Machine.execSetWake p s
  | .clearCounters p => Sys2Proof.Machine.execClearCounters p s
  | .readFaultLog p => Sys2Proof.Machine.execReadFaultLog p s
  | .readContactSheet p => Sys2Proof.Machine.execReadContactSheet p s
  | .getContext p => Sys2Proof.Machine.execGetContext p s
  | .setContextQuota p => Sys2Proof.Machine.execSetContextQuota p s
  | .setContextChannels p => Sys2Proof.Machine.execSetContextChannels p s
  | .setContextRights p => Sys2Proof.Machine.execSetContextRights p s
  | .quiesceContext p => Sys2Proof.Machine.execQuiesceContext p s
  | .develop p => Sys2Proof.Machine.execDevelop p s
  | .discardLatent p => Sys2Proof.Machine.execDiscardLatent p s
  | .getLatent p => Sys2Proof.Machine.execGetLatent p s
  | .cancelDevelop p => Sys2Proof.Machine.execCancelDevelop p s
  | .setChannelMode p => Sys2Proof.Machine.execSetChannelMode p s
  | .setBitTiming p => Sys2Proof.Machine.execSetBitTiming p s
  | .enableChannel p => Sys2Proof.Machine.execEnableChannel p s
  | .disableChannel p => Sys2Proof.Machine.execDisableChannel p s
  | .cancelTx p => Sys2Proof.Machine.execCancelTx p s
  | .recoverBusOff p => Sys2Proof.Machine.execRecoverBusOff p s
  | .getChannelStatus p => Sys2Proof.Machine.execGetChannelStatus p s
  | .setTransceiver p => Sys2Proof.Machine.execSetTransceiver p s
  | .allocMo p => Sys2Proof.Machine.execAllocMo p s
  | .configMo p => Sys2Proof.Machine.execConfigMo p s
  | .freeMo p => Sys2Proof.Machine.execFreeMo p s
  | .readMo p found => Sys2Proof.Machine.execReadMo p found s
  | .writeFilter p => Sys2Proof.Machine.execWriteFilter p s
  | .clearFilter p => Sys2Proof.Machine.execClearFilter p s
  | .readFilter p => Sys2Proof.Machine.execReadFilter p s
  | .getFilterStats p => Sys2Proof.Machine.execGetFilterStats p s
  | .configQueue p => Sys2Proof.Machine.execConfigQueue p s
  | .setWatermark p => Sys2Proof.Machine.execSetWatermark p s
  | .getQueueStatus p => Sys2Proof.Machine.execGetQueueStatus p s
  | .getTime p => Sys2Proof.Machine.execGetTime p s
  | .adjustRate p => Sys2Proof.Machine.execAdjustRate p s
  | .stepTime p => Sys2Proof.Machine.execStepTime p s
  | .setShutter p => Sys2Proof.Machine.execSetShutter p s
  | .clearShutter p => Sys2Proof.Machine.execClearShutter p s
  | .setTrigger p => Sys2Proof.Machine.execSetTrigger p s
  | .setPps p => Sys2Proof.Machine.execSetPps p s
  | .declareStream p => Sys2Proof.Machine.execDeclareStream p s
  | .withdrawStream p => Sys2Proof.Machine.execWithdrawStream p s
  | .declareForeign p => Sys2Proof.Machine.execDeclareForeign p s
  | .setFaultBudget p => Sys2Proof.Machine.execSetFaultBudget p s
  | .admitRoute p => Sys2Proof.Machine.execAdmitRoute p s
  | .getExposure p => Sys2Proof.Machine.execGetExposure p s
  | .ackUnassured p => Sys2Proof.Machine.execAckUnassured p s
  | .getMonitors p => Sys2Proof.Machine.execGetMonitors p s
  | .writePdu p => Sys2Proof.Machine.execWritePdu p s
  | .writeSignal p => Sys2Proof.Machine.execWriteSignal p s
  | .writeRoute p => Sys2Proof.Machine.execWriteRoute p s
  | .loadBundleBlock p => Sys2Proof.Machine.execLoadBundleBlock p s
  | .readSignal p => Sys2Proof.Machine.execReadSignal p s
  | .setLocalIo p => Sys2Proof.Machine.execSetLocalIo p s
  | .getRouteStats p => Sys2Proof.Machine.execGetRouteStats p s
  | .configCvu p => Sys2Proof.Machine.execConfigCvu p s
  | .feedCvu p => Sys2Proof.Machine.execFeedCvu p s
  | .readCvu p => Sys2Proof.Machine.execReadCvu p s
  | .writeCvuValue p => Sys2Proof.Machine.execWriteCvuValue p s
  | .enableCvu p => Sys2Proof.Machine.execEnableCvu p s
  | .disableCvu p => Sys2Proof.Machine.execDisableCvu p s
  | .bindLoad p => Sys2Proof.Machine.execBindLoad p s
  | .setSwitchProfile p => Sys2Proof.Machine.execSetSwitchProfile p s
  | .setLoad p => Sys2Proof.Machine.execSetLoad p s
  | .setLoadPolicy p => Sys2Proof.Machine.execSetLoadPolicy p s
  | .forceSafe p => Sys2Proof.Machine.execForceSafe p s
  | .getLoadStatus p => Sys2Proof.Machine.execGetLoadStatus p s
  | .resetLoadLatch p => Sys2Proof.Machine.execResetLoadLatch p s
  | .enableLoad p => Sys2Proof.Machine.execEnableLoad p s
  | .disableLoad p => Sys2Proof.Machine.execDisableLoad p s
  | .getStack p => Sys2Proof.Machine.execGetStack p s
  | .configLink p => Sys2Proof.Machine.execConfigLink p s
  | .getCensus p => Sys2Proof.Machine.execGetCensus p s
  | .clearCensus p => Sys2Proof.Machine.execClearCensus p s
  | .setCensusEvents p => Sys2Proof.Machine.execSetCensusEvents p s
  | .enableLink p => Sys2Proof.Machine.execEnableLink p s
  | .disableLink p => Sys2Proof.Machine.execDisableLink p s
  | .openSession p => Sys2Proof.Machine.execOpenSession p s
  | .writeImageBlock p => Sys2Proof.Machine.execWriteImageBlock p s
  | .closeSession p => Sys2Proof.Machine.execCloseSession p s
  | .activate p => Sys2Proof.Machine.execActivate p s
  | .approve p => Sys2Proof.Machine.execApprove p s
  | .veto p => Sys2Proof.Machine.execVeto p s
  | .rejectImage p => Sys2Proof.Machine.execRejectImage p s
  | .getUpdateStatus p => Sys2Proof.Machine.execGetUpdateStatus p s
  | .setOwnerLock p => Sys2Proof.Machine.execSetOwnerLock p s
  | .clearOwnerLock p => Sys2Proof.Machine.execClearOwnerLock p s
  | .getSecurity p => Sys2Proof.Machine.execGetSecurity p s
  | .perstnRelease => Sys2Proof.Machine.execPerstnRelease s
  | .commandEntryFetched c entry parity => Sys2Proof.Machine.execCommandEntryFetched c entry parity s
  | .undefinedOpcodeCommand p => Sys2Proof.Machine.execUndefinedOpcodeCommand p s
  | .overloadFrameSeen ch => Sys2Proof.Machine.execOverloadFrameSeen ch s
  | .recessiveSequenceCounted ch => Sys2Proof.Machine.execRecessiveSequenceCounted ch s
  | .fastFrameLost ch edges => Sys2Proof.Machine.execFastFrameLost ch edges s
  | .filmstripDrainEnd => Sys2Proof.Machine.execFilmstripDrainEnd s
  | .linkTrainingFailed port reason => Sys2Proof.Machine.execLinkTrainingFailed port reason s

end Sys2Proof.Machine
end

