-- ==== Sys2Proof/Machine/Tick.lean ====
section
/-!
DEFINITION. What happens while no command waits: a cycle of the reference passes and the filmstrip drains (R275, R354; log
entry 5).
-/

namespace Sys2Proof.Machine

/-- One TIME cycle without a command: the counter advances and one frozen filmstrip record goes. -/
def idle (s : State) : Host.Outcome State Fault Refusal := next (filmDrainOne (passCycles 1 s))

end Sys2Proof.Machine
end

