-- ==== Sys2Proof/Machine/Step.lean ====
section
/-!
DEFINITION. One step of the ZB64: the command at the front of the queue acts, or the block idles.
-/

namespace Sys2Proof.Machine

/-- The command at the front of the queue acts on the state whose queue is the rest; with no command waiting, a cycle of the
reference passes. -/
def step (s : State) : Host.Outcome State Fault Refusal :=
  match s.pending with
  | [] => idle s
  | c :: rest => exec c { s with pending := rest }

/-- The state with the command that a word spells in front of its queue; unchanged where the word spells none. -/
def State.withFetchWord (s : State) (nbits w : Nat) : State :=
  match decodeTableWord nbits w with
  | some c => { s with pending := c :: s.pending }
  | none => s

end Sys2Proof.Machine
end

