-- ==== Sys2Proof/Safety.lean ====
section
/-!
DEFINITION. What a safe ZB64 keeps: the fault log's bound and the run of its sequence numbers (R39), and the canonical form of
its numbered tables.
-/

namespace Sys2Proof.Machine

/-- Each number of a list is followed by the next sequence number (R39). -/
def seqRuns : List Nat → Prop
  | a :: b :: l => b = nextSeqOf a ∧ seqRuns (b :: l)
  | _ => True

/-- The fault log holds at most 2,048 entries; their numbers and then the number of the next entry follow each other without
a gap, and the next number is never 0 and fits 32 bits (R39). -/
def LogSound (s : State) : Prop :=
  s.log.entries.length ≤ faultLogSize ∧ 1 ≤ s.log.nextSeq ∧ s.log.nextSeq ≤ 0xFFFFFFFF
    ∧ seqRuns (s.log.entries.map (·.seq) ++ [s.log.nextSeq])

/-- The numbered tables of the state are in their one canonical form: the numbers of their entries rise strictly, so that no
number has two entries (message objects R286, schedules R367, streams R390, routes R400, PDUs and signals R430). -/
structure TablesRising (s : State) : Prop where
  mos : rising s.mos = true
  schedules : rising s.schedules = true
  records : rising s.records = true
  routes : rising s.routes = true
  pdus : rising s.pdus = true
  sigs : rising s.sigs = true

/-- `s` is `a` but for what the device tells others and the counts of that telling: the queues and rings of contexts, interrupts,
the safety port, replies of the engine, the fault log, link frames, pins, queue statistics, the release of a contact-sheet bank (R184)
and the model's free counter. -/
structure Tells (a s : State) : Prop where
  pending : s.pending = a.pending
  aon : s.aon = a.aon
  ctxs : s.ctxs = a.ctxs
  time : s.time = a.time
  schedules : s.schedules = a.schedules
  triggers : s.triggers = a.triggers
  pulses : s.pulses = a.pulses
  chans : ∀ n, { s.chan n with chqStat := (a.chan n).chqStat } = a.chan n
  film : s.film = a.film
  mos : s.mos = a.mos
  pool : s.pool = a.pool
  filters : s.filters = a.filters
  records : s.records = a.records
  routes : s.routes = a.routes
  monitors : s.monitors = a.monitors
  pdus : s.pdus = a.pdus
  sigs : s.sigs = a.sigs
  lanes : s.lanes = a.lanes
  localIo : s.localIo = a.localIo
  bundle : s.bundle = a.bundle
  cvus : s.cvus = a.cvus
  load : s.load = a.load
  mem : s.mem = a.mem
  stack : s.stack = a.stack
  census : s.census = a.census
  update : s.update = a.update
  banks : ∀ n, { s.bank n with release := (a.bank n).release } = a.bank n

/-- Every function is in its state after reset (R71); what AON, MRAM and the memory counters hold is said apart. -/
structure AtReset (s : State) : Prop where
  host : s.host = State.reset.host
  sp : s.sp = State.reset.sp
  engine : s.engine = State.reset.engine
  ctxs : s.ctxs = State.reset.ctxs
  cqs : s.cqs = State.reset.cqs
  fq : s.fq = State.reset.fq
  time : s.time = State.reset.time
  schedules : s.schedules = State.reset.schedules
  triggers : s.triggers = State.reset.triggers
  pulses : s.pulses = State.reset.pulses
  chans : s.chans = State.reset.chans
  film : s.film = State.reset.film
  mos : s.mos = State.reset.mos
  pool : s.pool = State.reset.pool
  filters : s.filters = State.reset.filters
  records : s.records = State.reset.records
  routes : s.routes = State.reset.routes
  monitors : s.monitors = State.reset.monitors
  pdus : s.pdus = State.reset.pdus
  sigs : s.sigs = State.reset.sigs
  lanes : s.lanes = State.reset.lanes
  localIo : s.localIo = State.reset.localIo
  bundle : s.bundle = State.reset.bundle
  cvus : s.cvus = State.reset.cvus
  load : s.load = State.reset.load
  linkA : s.linkA = State.reset.linkA
  linkB : s.linkB = State.reset.linkB
  stack : s.stack = State.reset.stack
  census : s.census = State.reset.census
  banks : s.banks = State.reset.banks

/-- The state in which the packet has joined its source's queue and been taken from it: its queue has counted and met it (R152, R153,
R333, R346, R576). -/
def taken (p : Packet) (s : State) : State := takeFrom p.source (passQueue p.source s)

/-- The packet `p` of row `c` arrives and passes every check of R151: its source is live, has no command waiting and is the next
that the engine serves, the engine runs the image, the header is good, the command is for this device, its source may send
it, and every function it needs is ready (R65, R66, R142, R147, R152, R156, R586). -/
structure Accepts (c : CmdSpec) (p : Packet) (s : State) : Prop where
  live : sourceLive s p.source = true
  fresh : waitingOf s p.source = []
  running : s.engine.pause = none
  first : nextSource (enqueue { p with opcode := c.opcode } s) = some p.source
  cmd : s.isReady 2 = true
  header : headerFault c { p with opcode := c.opcode } = none
  local_ : isRemote p = false
  safety : p.source = .sp → safetyMay c = true
  right : c.right { p with opcode := c.opcode } (taken p s) = none
  needs : missing s (c.needs { p with opcode := c.opcode } (taken p s)) = none
  settings : settingsRefused s = none

/-- The changes `l` of the latent command `p` join its context's latent set within the limits of R166, no bundle load holding CTX0's
changes up (R464); `t` is the state that results. -/
structure Stages (p : Packet) (l : List Change) (body : List Byte) (s t : State) : Prop where
  free : stageCtx p ≠ 0 ∨ s.bundle = none
  joins : stage p l (taken p s) body = .reply t 0x00 0x800000 body

/-- The state once the packet of row `c` has its reply: status, detail and result bytes (R148 to R150). -/
def answered (c : CmdSpec) (p : Packet) (status detail : Nat) (body : List Byte) (s : State) : State :=
  fcSettle (sendReply { p with opcode := c.opcode } status detail body s)

/-- The CRC-32 that ends a safety-port transaction of these bytes (R136, R137). -/
def crcOf (bytes : List Byte) : Option Word := some (BitVec.ofNat 32 (crc32 bytes))

/-- The safety port's answer: status, data and the CRC-32 over both (R136, R137). -/
def spAnswer (status : Nat) (data : List Byte) : Out := .safety status data (BitVec.ofNat 32 (crc32 (le 1 status ++ data)))

end Sys2Proof.Machine
end

