-- ==== Sys2Proof/Certificates/Slice0/Obligations.lean ====
section
/-!
DEFINITION. The statements about the ZB64 that the provers prove.
-/

open Sys2Proof Sys2Proof.Machine

/-- A step runs the command at the front of the queue; with none waiting a cycle of TIME passes (the model's choice, log entry
5). R42, R153, R275, R354. The model's own choice: log entry 5. -/
def Obligations.StepRunsTheFrontCommand : Prop :=
  (∀ (s : State) (c : Instr) (rest : List Instr), s.pending = c :: rest → step s = exec c { s with pending := rest })
  ∧ (∀ s : State, s.pending = [] → step s = .next (fcSettle (filmDrainOne (passCycles 1 s))))

/-- Every command ends in a next state, and none changes the commands that wait. R42, R152. -/
def Obligations.EveryCommandLeavesTheQueue : Prop :=
  ∀ (c : Instr) (s : State), ∃ t, exec c s = .next t ∧ t.pending = s.pending

/-- Every step keeps the fault log: 2,048 entries at most, sequence numbers run on and wrap to 1. R39. -/
def Obligations.EveryStepKeepsTheFaultLogSound : Prop :=
  ∀ s t : State, LogSound s → step s = .next t → LogSound t

/-- Every step keeps the numbered tables canonical: no object, schedule, stream, route, PDU or signal has two entries. R278,
R286, R367, R390, R400, R430, R431, R433. -/
def Obligations.EveryStepKeepsTheTablesCanonical : Prop :=
  ∀ s t : State, TablesRising s → step s = .next t → TablesRising t

/-- The state after reset has a sound fault log and canonical tables. R39, R71. -/
def Obligations.ResetIsSoundAndCanonical : Prop :=
  LogSound State.reset ∧ TablesRising State.reset

/-- The stack position is sampled at a power-on, brown-out or warm reset and held until the next; 0 makes the master. R56, R608. -/
def Obligations.StrapsAreSampledOnlyAtResets : Prop :=
  (∀ (c : Instr) (s t : State), exec c s = .next t →
      (∀ a b d, c ≠ .powerOnReset a b d) → (∀ x a b d, c ≠ .brownOut x a b d) → (∀ a b d, c ≠ .warmReset a b d) →
      t.aon.stackId = s.aon.stackId)
  ∧ (∀ (s : State) (a b d : BitVec 3), ∃ t, exec (.powerOnReset a b d) s = .next t ∧ t.aon.stackId = (a &&& b) ||| (a &&& d) ||| (b &&& d))
  ∧ (∀ (s : State) (x : Supply) (a b d : BitVec 3), s.aon.power ≠ .off →
      ∃ t, exec (.brownOut x a b d) s = .next t ∧ t.aon.stackId = (a &&& b) ||| (a &&& d) ||| (b &&& d))
  ∧ (∀ (s : State) (a b d : BitVec 3), s.aon.phase ≠ .brownedOut →
      ∃ t, exec (.warmReset a b d) s = .next t ∧ t.aon.stackId = (a &&& b) ||| (a &&& d) ||| (b &&& d))
  ∧ (∀ s : State, s.isMaster = true ↔ s.aon.stackId = 0)

/-- What the spec gives for reset: nothing ready, ACTIVE, all functions in their initial state. R62, R70, R71, R354, R522, R536. -/
def Obligations.ResetValuesOfTheSpec : Prop :=
  State.reset.aon.ready = 0 ∧ State.reset.aon.resetCause = .powerOn ∧ State.reset.aon.bootSlot = none ∧ State.reset.aon.bootResult = 0
  ∧ State.reset.aon.proof = false ∧ State.reset.aon.fallback = false ∧ State.reset.aon.power = .active ∧ State.reset.aon.wake = 0
  ∧ State.reset.time.time = 0 ∧ State.reset.time.rate = 0
  ∧ State.reset.mos = [] ∧ State.reset.filters.entries = [] ∧ State.reset.pdus = [] ∧ State.reset.sigs = [] ∧ State.reset.routes = []
  ∧ State.reset.schedules = [] ∧ State.reset.records = []
  ∧ (∀ n, (State.reset.chan n).state = .disabled)
  ∧ (State.reset.ctx 0).state = .present ∧ (∀ n, n ≠ 0 → (State.reset.ctx n).state ≠ .present)
  ∧ (∀ n, (State.reset.cvu n).enabled = false ∧ (State.reset.cvu n).reg = 0)
  ∧ (∀ n, (State.reset.ld n).state = .unbound ∧ (State.reset.ld n).bind = none ∧ (State.reset.ld n).on = false)
  ∧ State.reset.film.records = [] ∧ State.reset.census.entries = []
  ∧ State.reset.linkA.state = .disabled ∧ State.reset.linkB.state = .disabled
  ∧ (∀ s : State, s.linkA.state = .disabled → s.linkB.state = .disabled →
      (startFunction .time s).linkA.state = .training ∧ (startFunction .time s).linkB.state = .training)

/-- A reply carries the command's opcode and tag, the status, the position and the detail, to the source that sent it. R148,
R149, R150. -/
def Obligations.RepliesGoToTheirSource : Prop :=
  ∀ (p : Packet) (st de : Nat) (b : List Byte) (s : State), s.engine.pause = none →
    (∀ c : Fin 64, p.source = .ctx c →
      ((sendReply p st de b s).cq c.val).rplq = (s.cq c.val).rplq
        ++ [{ dest := .ctx c, opcode := p.opcode, tag := p.tag, status := st, position := s.pos, detail := de, body := b }])
    ∧ (p.source = .sp →
      (sendReply p st de b s).sp.replies = s.sp.replies
        ++ [{ dest := .sp, opcode := p.opcode, tag := p.tag, status := st, position := s.pos, detail := de, body := b }])
    ∧ Tells s (sendReply p st de b s)

/-- An event joins the queue of a context with an ACTIVE event ring; it is counted in NORING without one, as lost when full.
R124, R125, R335. -/
def Obligations.EventsReachAnActiveRing : Prop :=
  ∀ (c code : Nat) (d : List Byte) (s : State), c < 64 → s.isMaster = true → reachable s c = true →
    Tells s (raiseEvent c code d s)
    ∧ ((s.ring c 2).active = true → (s.cq c).evtq.length < (s.cq c).depths.evt →
        ((raiseEvent c code d s).cq c).evtq = (s.cq c).evtq
          ++ [{ code := code, source := 0, stamp := if s.time.time = 0 then 1 else s.time.time, data := padTo 16 d }])
    ∧ ((s.ring c 2).active = false →
        raiseEvent c code d s = s.modCq c fun q => { q with evtStat := { q.evtStat with noring := inc32 q.evtStat.noring } })
    ∧ ((s.ring c 2).active = true → (s.cq c).depths.evt ≤ (s.cq c).evtq.length →
        ((raiseEvent c code d s).cq c).evtq = (s.cq c).evtq
        ∧ ((raiseEvent c code d s).cq c).evtStat.overflow = inc32 (s.cq c).evtStat.overflow
        ∧ ((raiseEvent c code d s).fn c).evtLostNext = inc16 (s.fn c).evtLostNext)

/-- A power-on, brown-out or warm reset returns every function to its reset state and keeps MRAM contents. R51, R52, R39, R70,
R71, R83. -/
def Obligations.ResetsOfTheWholeDevice : Prop :=
  (∀ (s : State) (a b d : BitVec 3), ∃ t, exec (.powerOnReset a b d) s = .next t ∧ AtReset t ∧ t.update.mram = s.update.mram
      ∧ t.log = resumeLog s.log ∧ t.aon.ready = 0 ∧ t.aon.power = .active ∧ t.aon.resetCause = .powerOn)
  ∧ (∀ (s : State) (x : Supply) (a b d : BitVec 3), s.aon.power ≠ .off →
      ∃ t, exec (.brownOut x a b d) s = .next t ∧ AtReset t ∧ t.update.mram = s.update.mram
        ∧ t.aon.ready = 0 ∧ t.aon.power = .active ∧ t.aon.resetCause = .brownOut
        ∧ ∃ e, t.log.entries.getLast? = some e ∧ e.cls = 6 ∧ e.source = supplyCode x ∧ e.seq = s.log.nextSeq)
  ∧ (∀ (s : State) (a b d : BitVec 3), s.aon.phase ≠ .brownedOut →
      ∃ t, exec (.warmReset a b d) s = .next t ∧ AtReset t ∧ t.update.mram = s.update.mram ∧ t.mem = s.mem
        ∧ t.aon.power = .active ∧ t.aon.resetCause = .warm
        ∧ (s.isReady 0 = true → t.aon.ready = oneBit 0 ∧ ∃ e, t.log.entries.getLast? = some e ∧ e.cls = 7 ∧ e.source = 2)
        ∧ (s.isReady 0 = false → t.aon.ready = 0 ∧ t.log = resumeLog s.log))

/-- Restart after a brown-out, supervisor start, a function's readiness, slot choice and image start have their effects. R52,
R61, R62, R63, R67, R39, R58, R606. The model's own choice: log entry 4, log entry 13, log entry 13. -/
def Obligations.StartUpCommandsComplete : Prop :=
  (∀ s : State, s.aon.phase = .brownedOut →
      exec .brownOutRestart s = .next (fcSettle (passCycles 1000000 { s with aon := { s.aon with phase := .starting, supplies := BitVec.allOnes 6 } })))
  ∧ (∀ s : State, s.aon.phase = .starting →
      exec .aonStart s = .next (fcSettle (logFault 7 (causeCode (setReady (s.aon.ready ||| 1) { s with aon := { s.aon with phase := .running } }).aon.resetCause) 0 0
        (setReady (s.aon.ready ||| 1) { s with aon := { s.aon with phase := .running } }))))
  ∧ (∀ (s : State) (f : Func) (up : BitVec 6), s.isReady (funcBit f) = false → mayBecomeReady (supplyUp up s) f = true →
      exec (.functionReady f up) s = .next (fcSettle (startFunction f (setReady (s.aon.ready ||| oneBit (funcBit f)) (supplyUp up s)))))
  ∧ (∀ s : State, s.isReady 15 = true → s.aon.power = .active → pllLost s .core = false → islandPowered s .core = true →
      s.aon.bootResult = 0 → s.aon.bootSlot = none →
      let trial := trialValid (secOf s)
      let t := if trial then endTrial s else s
      (∀ k, bootChoice t = some k → exec .maskRomBoot s =
        .next (fcSettle { t with aon := { t.aon with bootSlot := some k, fallback := trial || k != (secOf t).activeSlot } }))
      ∧ (bootChoice t = none → exec .maskRomBoot s = .next (fcSettle { t with aon := { t.aon with bootResult := 2, fallback := trial } })))
  ∧ (∀ (s : State) (k : Slot), s.aon.bootSlot = some k → s.isReady 15 = true → s.aon.power = .active → pllLost s .core = false →
      islandPowered s .core = true → s.aon.bootResult = 0 → exec .imageStart s = .next (fcSettle (setReady (s.aon.ready ||| 4)
        { s with aon := { s.aon with bootResult := 1 }, update := { s.update with running := some k, unreadable := readSettings k s } })))
  ∧ (∀ s : State, exec .perstnRelease s = .next (fcSettle { s with aon := { s.aon with perstnLow := false } }))

/-- PERSTN resets the HOST island in ACTIVE and STANDBY and nothing in RETAIN; a PF reset does the same; PERSTN resumes RETAIN.
R51, R55, R80, R93, R94. The model's own choice: log entry 12, log entry 14. -/
def Obligations.HostResetsComplete : Prop :=
  (∀ s : State, s.aon.power = .active ∨ s.aon.power = .standby →
      exec .pcieFundamentalReset s = .next (fcSettle (hostGone (setReady ((s.aon.ready) &&& ~~~ (oneBit 1)) { s with aon := { s.aon with
        perstnLow := true
        lostPlls := s.aon.lostPlls.map fun l => { l with bits := l.bits &&& ~~~ (oneBit 1) } } }))))
  ∧ (∀ s : State, s.aon.power = .retain ∨ s.aon.power = .off → exec .pcieFundamentalReset s = .next (fcSettle s))
  ∧ (∀ s : State, s.isReady 1 = true → exec .pfFlr s = .next (fcSettle (hostGone s)))
  ∧ (∀ s : State, s.aon.power = .retain → s.aon.transition = none →
      exec .resumeFromRetain s = .next (fcSettle { s with aon := { s.aon with
        transition := some { target := .active, from_ := .retain, command := none } } }))

/-- Loss of lock stops an island and is logged; relock restores it; a lost reference stops CORE, ROUTE, TIME and the banks. R15,
R17, R18, R39, R621. The model's own choice: log entry 10. -/
def Obligations.ClockLossesComplete : Prop :=
  (∀ (s : State) (p : Pll) (acked : BitVec 64) (m : List (Fin 64 × Fin 128)), s.isReady 0 = true → pllLost s p = false → pllOff s.aon.power p = false →
      exec (.pllLossOfLock p acked m) s = .next (fcSettle (logFault 4 (islandCode p) 0 0 (stopIsland acked m p s)))
      ∧ ((∀ b, p ≠ .bank b) → stopIsland acked m p s = setReady (s.aon.ready &&& ~~~ (islandBits p)) { s with aon := { s.aon with
          lostPlls := s.aon.lostPlls ++ [{ pll := p, bits := s.aon.ready &&& islandBits p }] } }))
  ∧ (∀ (s : State) (p : Pll) (l : LostPll), s.aon.lostPlls.find? (fun x => x.pll == p) = some l →
      let u := { s with aon := { s.aon with
        lostPlls := s.aon.lostPlls.filter (fun x => x.pll != p), refLost := s.aon.refLost && p == .host
        retained := s.aon.retained ||| (l.bits &&& ~~~ (powerBits s.aon.power)) } }
      let t := setReady (s.aon.ready ||| (restorable u l.bits &&& powerBits s.aon.power)) u
      exec (.pllRelock p) s = .next (fcSettle (match p with
        | .bank b => forEach (bankChans b.val) relockChan t
        | .host => forRange 64 settleIrq t
        | .route => restartRoute l.bits t
        | _ => t)))
  ∧ (∀ (s : State) (acked : BitVec 64) (m : List (Fin 64 × Fin 128)), s.isReady 0 = true → s.aon.refLost = false → s.aon.power = .active →
      exec (.referenceLoss acked m) s = .next (fcSettle (logFault 5 0 0 0 (forEach [Pll.core, .route, .time, .bank 0, .bank 1, .bank 2, .bank 3] (stopIsland acked m)
        { s with aon := { s.aon with refLost := true } }))))

/-- A lockstep mismatch is logged with its program counter and restarts the engine; the restart's pause ends with the held
replies. R39, R42, R43, R45, R46. -/
def Obligations.EngineRestartsComplete : Prop :=
  (∀ (s : State) (pc : Word) (i : Option Packet), s.isReady 2 = true →
      exec (.lockstepMismatch pc i) s = .next (fcSettle (restartEngine 1 i (logFault 2 0 pc.toNat (slotCode s.update.running) s))))
  ∧ (∀ s : State, s.engine.pause = none → s.aon.proof = false →
      restartEngine 1 none s = { logFault 3 1 (slotCode s.update.running) 0 s with
        engine := { (logFault 3 1 (slotCode s.update.running) 0 s).engine with pause := some .restart } })
  ∧ (∀ (s : State) (g : Bool), s.engine.pause = some .restart →
      exec (.commandPauseEnd g) s = .next (fcSettle (forEach s.engine.late deliverReply
        { s with engine := { s.engine with pause := none, late := [] } })))

/-- SET_POWER_STATE starts a transition or answers for the present state; SET_WAKE, a wake and a transition's end act. R72, R73,
R79, R80, R81, R85, R86, R88. -/
def Obligations.PowerCommandsComplete : Prop :=
  (∀ (p : Packet) (s : State), Accepts specSetPowerState p s → zeroAt p.params 1 3 = true → byteAt p.params 0 = powerCode s.aon.power →
      s.aon.power ≠ .retain → s.aon.transition = none →
      exec (.setPowerState p) s = .next (answered specSetPowerState p stOk 0
        (le 1 (powerCode s.aon.power) ++ zeros 3 ++ le 8 (stampNow s)) (taken p s)))
  ∧ (∀ (p : Packet) (s : State), Accepts specSetPowerState p s → zeroAt p.params 1 3 = true → byteAt p.params 0 ≤ 3 →
      byteAt p.params 0 ≠ powerCode s.aon.power → s.aon.power ≠ .retain → s.aon.transition = none → enableHeld (taken p s) = false →
      s.update.session = none → s.aon.proof = false →
      exec (.setPowerState p) s = .next (fcSettle (conclude { p with opcode := 0x0104 } (taken p s)
        (.wait (startTransition (powerOf (byteAt p.params 0)) (some { p with opcode := 0x0104 }) (taken p s))))))
  ∧ (∀ (p : Packet) (s : State), Accepts specSetWake p s → byteAt p.params 8 ≤ 63 → zeroAt p.params 9 3 = true →
      exec (.setWake p) s = .next (answered specSetWake p stOk 0 [] { taken p s with aon := { s.aon with
        wakeMask := BitVec.ofNat 64 (fieldAt p.params 0 8)
        wakeFilter := if byteAt p.params 8 = 0 then 5 else byteAt p.params 8 } }))
  ∧ (∀ (c : Fin 64) (s : State), wakeArmed s = true → s.aon.armedMask.getLsbD c.val = true → s.aon.wake.getLsbD c.val = false →
      exec (.wakeDetected c) s = .next (fcSettle (raiseSafe 3 (raiseIrq 0 6
        { s with aon := { s.aon with wake := s.aon.wake ||| (1#64 <<< c.val) } }))))
  ∧ (∀ (s : State) (t : Transition), s.aon.transition = some t → t.target = .standby → (s.chans.toList.any fun c => c.state == .stopping) = false →
      exec .powerTransitionComplete s = .next (fcSettle (replyPower t (enterPower .standby s))))
  ∧ (∀ (s : State) (t : Transition), s.aon.transition = some t → t.target = .retain ∨ t.target = .off →
      (s.chans.toList.any fun c => c.state == .stopping) = false → (s.load.loads.toList.any fun l => l.state == .stopping) = false →
      exec .powerTransitionComplete s = .next (fcSettle (commitSleep t s)))
  ∧ (∀ (s : State) (t : Transition), s.aon.transition = some t → t.target = .active →
      exec .powerTransitionComplete s = .next (fcSettle (commitActive t s)))
  ∧ (∀ (p : Packet) (s : State), s.aon.power = .retain → s.aon.transition = none → p.source = .sp → zeroAt p.params 0 4 = true →
      let q := { p with opcode := 0x0104 }
      headerFault specSetPowerState q = none →
      exec (.setPowerState p) s = .next (fcSettle (startTransition .active (some q) { s with engine := { s.engine with taken := s.engine.taken ++ [q] } })))

/-- A doorbell is accepted exactly while the index it writes is within the credit; else it is discarded, counted and told. R115,
R116, R117. -/
def Obligations.DoorbellsFollowCredit : Prop :=
  ∀ (c : Fin 64) (k : Fin 36) (v : Word) (s : State), ringsOpen s c.val = true →
    (hostProduced k.val = true → (s.ring c.val k.val).active = true →
      v - (s.ring c.val k.val).prod ≤ (s.ring c.val k.val).limit - (s.ring c.val k.val).prod →
      ∃ t, exec (.producerDoorbellWrite c k v) s = .next t
        ∧ (t.ring c.val k.val).prod = v ∧ (t.fn c.val).dblDiscards = (s.fn c.val).dblDiscards)
    ∧ (hostProduced k.val = false → (s.ring c.val k.val).active = true →
      v - (s.ring c.val k.val).cons ≤ (s.ring c.val k.val).prod - (s.ring c.val k.val).cons →
      ∃ t, exec (.consumerDoorbellWrite c k v) s = .next t
        ∧ (t.ring c.val k.val).cons = v ∧ (t.fn c.val).dblDiscards = (s.fn c.val).dblDiscards)
    ∧ (hostProduced k.val = true →
      ((s.ring c.val k.val).active = false ∨ ¬ v - (s.ring c.val k.val).prod ≤ (s.ring c.val k.val).limit - (s.ring c.val k.val).prod) →
      ∃ t, exec (.producerDoorbellWrite c k v) s = .next t
        ∧ t = fcSettle (raiseEvent c.val 0x0110 (le 1 k.val ++ zeros 3 ++ le 4 v.toNat ++ le 4 (s.ring c.val k.val).prod.toNat
            ++ le 4 (s.ring c.val k.val).limit.toNat)
          (raiseIrq c.val 1 (s.modFn c.val fun n => { n with dblDiscards := inc16 n.dblDiscards })))
        ∧ (∀ j, t.ring c.val j = s.ring c.val j) ∧ (t.fn c.val).dblDiscards = inc16 (s.fn c.val).dblDiscards)
    ∧ (hostProduced k.val = false →
      ((s.ring c.val k.val).active = false ∨ ¬ v - (s.ring c.val k.val).cons ≤ (s.ring c.val k.val).prod - (s.ring c.val k.val).cons) →
      ∃ t, exec (.consumerDoorbellWrite c k v) s = .next t
        ∧ t = fcSettle (raiseEvent c.val 0x0110 (le 1 k.val ++ zeros 3 ++ le 4 v.toNat ++ le 4 (s.ring c.val k.val).cons.toNat
            ++ le 4 (s.ring c.val k.val).prod.toNat)
          (raiseIrq c.val 1 (s.modFn c.val fun n => { n with dblDiscards := inc16 n.dblDiscards })))
        ∧ (∀ j, t.ring c.val j = s.ring c.val j) ∧ (t.fn c.val).dblDiscards = inc16 (s.fn c.val).dblDiscards)

/-- A ring's enable, disable, stop bath, DMA error and its clearing have their effects. R103, R109, R110, R111, R112, R113. The
model's own choice: log entry 58, log entry 15. -/
def Obligations.RingCommandsComplete : Prop :=
  (∀ (c : Fin 64) (k : Fin 36) (v : Word) (s : State), ringsOpen s c.val = true → v.getLsbD 0 = true →
      (ringBusy (s.ring c.val k.val) = false ∨ (v ^^^ (s.ring c.val k.val).ctrl) &&& ctrlMask &&& ~~~ctrlLive = 0) →
      let t := s.modRing c.val k.val fun r => { r with ctrl := (v &&& ctrlMask &&& ~~~1#32) ||| ((s.ring c.val k.val).ctrl &&& 1) }
      ((s.ring c.val k.val).active = true ∨ (s.ring c.val k.val).held = true → exec (.ringEnable c k v) s = .next (fcSettle t))
      ∧ ((s.ring c.val k.val).active = false → (s.ring c.val k.val).held = false →
          (s.ring c.val k.val).stopping = true ∨ (s.ring c.val k.val).dmaErr = true →
          exec (.ringEnable c k v) s = .next (fcSettle (t.modRing c.val k.val fun r => { r with held := true, ctrl := r.ctrl ||| 1 })))
      ∧ (ringBusy (s.ring c.val k.val) = false → (s.ring c.val k.val).dmaErr = false →
          exec (.ringEnable c k v) s = .next (fcSettle (enableRing c k.val t))))
  ∧ (∀ (c : Fin 64) (k : Fin 36) (v : Word) (s : State), ringsOpen s c.val = true → ringBusy (s.ring c.val k.val) = true →
      (v ^^^ (s.ring c.val k.val).ctrl) &&& ctrlMask &&& ~~~ctrlLive ≠ 0 →
      exec (if v.getLsbD 0 then .ringEnable c k v else .ringDisable c k v) s = .next (fcSettle (raiseEvent c.val 0x0112 (le 1 k.val ++ le 1 5)
        (raiseIrq c.val 2 (s.modRing c.val k.val fun r => { r with cfgErr := 5 })))))
  ∧ (∀ (c : Fin 64) (k : Nat) (s : State), enableFault s c.val k ≠ 0 →
      enableRing c k s = raiseEvent c.val 0x0112 (le 1 k ++ le 1 (enableFault s c.val k))
        (raiseIrq c.val 2 ((s.modRing c.val k enLow).modRing c.val k fun r => { r with cfgErr := enableFault s c.val k })))
  ∧ (∀ (c : Fin 64) (k : Fin 36) (v : Word) (s : State), ringsOpen s c.val = true → v.getLsbD 0 = false →
      (ringBusy (s.ring c.val k.val) = false ∨ (v ^^^ (s.ring c.val k.val).ctrl) &&& ctrlMask &&& ~~~ctrlLive = 0) →
      let t := s.modRing c.val k.val fun r => { r with ctrl := (v &&& ctrlMask &&& ~~~1#32) ||| ((s.ring c.val k.val).ctrl &&& 1) }
      exec (.ringDisable c k v) s = .next (fcSettle (if (s.ring c.val k.val).held = false ∧ (s.ring c.val k.val).active = true
        then stopRing c.val k.val false t else t.modRing c.val k.val enLow)))
  ∧ (∀ (c : Fin 64) (k : Fin 36) (s : State), s.isReady 1 = true → (s.ring c.val k.val).stopping = true → bathDone s c k.val = true →
      let t := raiseEvent c.val 0x0111 (le 1 k.val ++ le 1 (flag (s.ring c.val k.val).dmaStop 1))
        (raiseIrq c.val 7 (s.modRing c.val k.val fun r => { r with stopping := false, dmaStop := false }))
      exec (.ringStopBathEnd c k) s = .next (fcSettle
        (if (s.ring c.val k.val).held = true ∧ (s.ring c.val k.val).dmaErr = false ∧ (t.ctx c.val).state = .present
          then enableRing c k.val (t.modRing c.val k.val fun r => { r with held := false }) else t)))
  ∧ (∀ (c : Fin 64) (k : Fin 36) (e : Option (List Byte)) (s : State), s.isReady 1 = true → hostProduced k.val = true → ringUp (s.ring c.val k.val) = true →
      (s.ring c.val k.val).prod ≠ (s.ring c.val k.val).fetched →
      let u := raiseIrq c.val 3 ((s.modFn c.val fun n => { n with dmaErrors := inc16 n.dmaErrors }).modRing c.val k.val fun r =>
        { r with dmaErr := true, held := false, fetched := r.fetched + 1, intake := r.intake + 1 })
      let t := if (s.ring c.val k.val).active then stopRing c.val k.val true u else u.modRing c.val k.val fun r => { r with dmaStop := true }
      exec (.dmaReadError c k e) s = .next (fcSettle
        (if isTxRing k.val then completeTx c.val (some (k.val - 4)) false true (dmaErrorRecord t e) (drawn 4 t) else t)))
  ∧ (∀ (c : Fin 64) (k : Fin 36) (s : State), ringsOpen s c.val = true → (s.ring c.val k.val).dmaErr = true →
      let t := s.modRing c.val k.val fun r => { r with dmaErr := false }
      exec (.dmaErrClear c k) s = .next (fcSettle (if (s.ring c.val k.val).held = true ∧ (s.ring c.val k.val).stopping = false
        then enableRing c k.val (t.modRing c.val k.val fun r => { r with held := false }) else t)))

/-- The register accesses with effects of their own: causes, mask, wake bits, time latch, clear-on-read counters, words. R10,
R86, R97, R99, R101, R128, R129, R141. -/
def Obligations.RegisterAccessesComplete : Prop :=
  (∀ (c : Fin 64) (v : Word) (s : State), barOpen s c.val = true →
      exec (.irqCauseClear c v) s = .next (fcSettle (settleIrq c.val (s.modFn c.val fun n => { n with irqCause := n.irqCause &&& ~~~ (v.setWidth 8) })))
      ∧ exec (.irqMaskWrite c v) s = .next (fcSettle (settleIrq c.val (s.modFn c.val fun n => { n with irqMask := v &&& 0xFF })))
      ∧ exec (.genTimeLoRead c) s = .next (fcSettle ((s.modFn c.val fun n => { n with timeHi := BitVec.ofNat 32 (s.time.time / 2 ^ 32) }).emit
          (.read c.val [s.time.time % 2 ^ 32])))
      ∧ exec (.clearOnReadCounterRead c 0x110 1 none) s = .next (fcSettle ((s.emit (.read c.val [(s.fn c.val).dblDiscards])).modFn c.val
          fun n => { n with dblDiscards := 0 }))
      ∧ exec (.clearOnReadCounterRead c 0x114 1 none) s = .next (fcSettle ((s.emit (.read c.val [(s.fn c.val).dmaErrors])).modFn c.val
          fun n => { n with dmaErrors := 0 }))
      ∧ exec (.clearOnReadCounterRead c 0x118 1 none) s = .next (fcSettle ((s.emit (.read c.val [(s.fn c.val).evtLost])).modFn c.val
          fun n => { n with evtLost := 0 })))
  ∧ (∀ (c : Fin 64) (off n : Nat) (found : Option Nat) (s : State), barOpen s c.val = true →
      ((0x8000 ≤ off → off < 0x8820 → winReadOk off n = true →
          exec (.clearOnReadCounterRead c off n found) s = .next (fcSettle (windowRead c.val off n found s)))
      ∧ (off < 0x8000 ∨ 0x8820 ≤ off → regReadOk off n = true →
          exec (.clearOnReadCounterRead c off n found) s = .next (fcSettle ((barWords c.val n off s).2.emit (.read c.val (barWords c.val n off s).1)))))
      ∧ barWords c.val 1 off s = ([barRead s c.val off], readEffect c.val off s)
      ∧ (barWords c.val 2 off s).1 = [barRead s c.val off, barRead (readEffect c.val off s) c.val (off + 4)])
  ∧ (∀ (c : Fin 64) (off : Nat) (w : List Word) (b : Bool) (s : State), barOpen s c.val = true → writeOk off w b = true →
      exec (.registerWrite c off w b) s = .next (fcSettle (forRange w.length (fun i s => writeWord c (off + 4 * i) (w.getD i 0) s) s)))
  ∧ (∀ (sp high : Bool) (v : Word) (s : State), (if sp then s.isReady 0 else barOpen s 0) = true →
      exec (.wakeStatusClear sp high v) s = .next (fcSettle { s with aon := { s.aon with
        wake := s.aon.wake &&& ~~~(if high then v.setWidth 64 <<< 32 else v.setWidth 64) } }))
  ∧ (∀ (c : Fin 64) (k : Fin 36) (s : State) (t : Nat), (s.ring c.val k.val).gathered = true → (s.ring c.val k.val).lastMsg = some t →
      s.isReady 1 = true → ringIrqEn ((reachClk (t + ringHoldoff (s.ring c.val k.val) * 1000) s).ring c.val k.val) = true →
      exec (.msixHoldoffEnd c k) s = .next (fcSettle (sendMsix c.val (ringVector (s.ring c.val k.val))
        ((reachClk (t + ringHoldoff (s.ring c.val k.val) * 1000) s).modRing c.val k.val fun r =>
          { r with lastMsg := some (reachClk (t + ringHoldoff (s.ring c.val k.val) * 1000) s).time.clk, gathered := false }))))

/-- WIN_SELECT, the reads that take and release the window's lock, and its timeout have their effects. R98, R130, R131, R132,
R133. The model's own choice: log entry 17, log entry 26. -/
def Obligations.WindowCommandsComplete : Prop :=
  (∀ (c : Fin 64) (v : Word) (s : State), barOpen s c.val = true →
      exec (.winSelectWrite c v) s = .next (fcSettle ((releaseWindow c.val true s).modFn c.val fun n =>
        { n with win := { n.win with mo := v.toNat % 0x4000, selected := true } })))
  ∧ (∀ (c : Fin 64) (off n : Nat) (found : Option Nat) (s : State), barOpen s c.val = true → winReadOk off n = true → covers off n 0 = true →
      let u := s.modFn c.val fun n => { n with win := { n.win with torn := false } }
      let w := winFinding c.val off n found (takeLock c.val u)
      (winValid u c.val = false → exec (.windowLockTake c off n found) s = .next (fcSettle
          ((if covers off n (winLast u c.val) then releaseWindow c.val false u else u).emit (winAnswer u c.val off n found))))
      ∧ (winValid u c.val = true → exec (.windowLockTake c off n found) s = .next (fcSettle
          ((if covers off n (winLast u c.val) then releaseWindow c.val false w else w).emit (winAnswer u c.val off n found))))
      ∧ (winValid u c.val = true → covers off n (winLast u c.val) = false → (s.fn c.val).win.locked = false → found = none →
          winBad u c.val off n none = none →
          ∃ t, exec (.windowLockTake c off n found) s = .next t ∧ (t.fn c.val).win.locked = true ∧ (t.fn c.val).win.torn = false
            ∧ (∀ o, s.mo? (s.fn c.val).win.mo = some o → ∃ o', t.mo? (s.fn c.val).win.mo = some o' ∧ o'.winLock = true)))
  ∧ (∀ (c : Fin 64) (off n : Nat) (found : Option Nat) (s : State), barOpen s c.val = true → winReadOk off n = true → covers off n 0 = false →
      covers off n (winLast s c.val) = true →
      exec (.windowLockRelease c off n found) s = .next (fcSettle ((releaseWindow c.val false
        (if winValid s c.val then winFinding c.val off n found s else s)).emit (winAnswer s c.val off n found))))
  ∧ (∀ (c : Fin 64) (s : State), (s.fn c.val).win.locked = true →
      exec (.windowLockTimeout c) s = .next (fcSettle (releaseWindow c.val true (reachClk (s.fn c.val).win.deadline s))))

/-- Replies, events and received frames reach their rings; command entries and descriptors come in; unlisted opcodes are refused.
R66, R95, R105, R119, R120, R121, R122, R124, R125, R156, R335. The model's own choice: log entry 18, log entry 63. -/
def Obligations.RingTrafficCompletes : Prop :=
  (∀ (c : Fin 64) (parity : Bool) (s : State) (r : Reply) (l : List Reply), dmaOpen s c.val = true → (s.cq c.val).rplq = r :: l →
      (s.ring c.val 1).active = true → ringHasRoom (s.ring c.val 1) = true →
      exec (.replyRingWrite c parity) s = .next (fcSettle (if parity then parityDrop 8 (s.modCq c.val fun q => { q with rplq := l })
        else putEntry c.val 1 256 (replyBytes r) (s.modCq c.val fun q => { q with rplq := l }))))
  ∧ (∀ (c : Fin 64) (parity : Bool) (s : State) (e : Event) (l : List Event), dmaOpen s c.val = true → (s.cq c.val).evtq = e :: l →
      (s.ring c.val 2).active = true → ringHasRoom (s.ring c.val 2) = true →
      exec (.eventRingWrite c parity) s = .next (fcSettle (if parity then parityDrop 14 (s.modCq c.val fun q => { q with evtq := l })
        else putEntry c.val 2 32 (eventBytes e (s.fn c.val).evtLostNext)
          ((s.modCq c.val fun q => { q with evtq := l }).modFn c.val fun n => { n with evtLostNext := 0 }))))
  ∧ (∀ (c : Fin 64) (parity : Bool) (s : State) (i : RxItem) (l : List RxItem), (s.cq c.val).rxq = i :: l →
      let u := s.modCq c.val fun q => { q with rxq := l }
      let r := s.ring c.val (20 + i.ring)
      let d := if i.data = [] then u else u.emit (.dma c.val (ringDataBase r + slotOf r r.prod * ringSlotBytes r) i.data)
      let z := d.modRing c.val (20 + i.ring) fun r => { r with lost := 0 }
      (dmaOpen s c.val = true → r.active = true → ringHasRoom r = true →
          exec (.rxRingWrite c parity) s = .next (fcSettle (if parity then parityDrop 1 (ringLost c.val i.ring u)
            else putEntry c.val (20 + i.ring) 32 (recBytes i.record (virtChan z c.val i.record.channel) r.lost) z)))
      ∧ (dmaOpen s c.val = true → r.active = true → ringHasRoom r = false →
          exec (.rxRingWrite c parity) s = .next (fcSettle (ringLost c.val i.ring
            (modStat (.rxq, c.val) (fun t => { t with ringfull := inc32 t.ringfull }) u))))
      ∧ (reachable s c.val = true → pllLost s .core = false → r.active = false →
          exec (.rxRingWrite c parity) s = .next (fcSettle (ringLost c.val i.ring
            (modStat (.rxq, c.val) (fun t => { t with noring := inc32 t.noring }) u)))))
  ∧ (∀ (c : Fin 64) (b : List Byte) (parity : Bool) (s : State), s.isReady 1 = true → (s.ctx c.val).state = .present → (s.ring c.val 0).active = true →
      (s.ring c.val 0).prod ≠ (s.ring c.val 0).fetched →
      let u := s.modRing c.val 0 fun r => { r with fetched := r.fetched + 1, cons := r.cons + 1 }
      exec (.commandEntryFetched c b parity) s = .next (fcSettle (if parity then parityDrop 8 u
        else if s.isReady 2 then enqueue (packetOf (.ctx c) (padTo 256 b)) u else arrivePacket (packetOf (.ctx c) (padTo 256 b)) u)))
  ∧ (∀ (c : Fin 64) (k : Fin 16) (b d : List Byte) (parity : Bool) (s : State), s.isReady 1 = true → s.isReady 3 = true →
      (s.ctx c.val).state = .present → (s.ring c.val (4 + k.val)).active = true →
      let w := skipLost c.val k.val (s.ring c.val (4 + k.val)).txLost.length s
      (w.ring c.val (4 + k.val)).prod ≠ (w.ring c.val (4 + k.val)).fetched →
      let u := (countPacket (.txq, c.val) w).modRing c.val (4 + k.val) fun r => { r with fetched := r.fetched + 1, intake := r.intake + 1 }
      let t := if parity then parityDrop 4 u else takeDescriptor c.val k.val (descriptorOf b) d u
      exec (.descriptorLanding c k b d parity) s = .next (fcSettle
        (if (t.ring c.val (4 + k.val)).active then setLimit c.val (4 + k.val) (txLimitAt t c.val (4 + k.val)) t else t)))
  ∧ (∀ (p : Packet) (s : State), sourceLive s p.source = true → s.isReady 2 = true → p.opcode ∉ definedOpcodes → waitingOf s p.source = [] →
      s.engine.pause = none → nextSource (enqueue p s) = some p.source →
      exec (.undefinedOpcodeCommand p) s = .next (fcSettle (conclude p (taken p s) (.refuse 0x20 0))))

/-- The four transactions of the safety port, a failed CRC, a bad TYPE, ARG or COUNT and a send without credit have their
answers. R136, R137, R138, R139, R141. The model's own choice: log entry 73. -/
def Obligations.SafetyPortCommandsComplete : Prop :=
  (∀ (a n : Nat) (s : State), s.isReady 0 = true → viewSpan a n = true →
      exec (.safetyRegisterRead 0x0B a n (crcOf (requestBytes 0x0B a n []))) s = .next (fcSettle ((viewWords n a s).2.emit (spAnswer 0 (viewWords n a s).1))))
  ∧ (∀ (a n : Nat) (w : List Word) (s : State), s.isReady 0 = true → viewSpan a n = true → w.length = n →
      exec (.safetyRegisterWrite a n w (crcOf (requestBytes 0x02 a n (w.flatMap fun v => le 4 v.toNat)))) s =
        .next (fcSettle ((viewWriteAll w a s).emit (spAnswer 0 []))))
  ∧ (∀ (a : Nat) (d : List Byte) (parity force : Bool) (s : State), s.isReady 0 = true → 16 ≤ a → a ≤ 256 → a % 4 = 0 → d.length = a →
      0 < s.sp.credits →
      exec (.safetyPacketSend a 0 d (crcOf (requestBytes 0x3C a 0 d)) parity force) s = .next (fcSettle
        ((intakeSafety (safetyPacket a d) parity force s).emit (spAnswer 0 []))))
  ∧ (∀ (s : State) (r : Reply) (l : List Reply), s.isReady 0 = true → s.sp.replies = r :: l →
      exec (.safetyPacketReceive 0 0 (crcOf (requestBytes 0x3D 0 0 [])) false) s = .next (fcSettle ((returnCredit { s with sp := { s.sp with replies := l } }).emit
        (spAnswer 0 (le 2 (replyBytes r).length ++ zeros 2 ++ replyBytes r)))))
  ∧ (∀ (s : State) (r : Reply) (l : List Reply), s.isReady 0 = true → s.sp.replies = r :: l →
      exec (.safetyPacketReceive 0 0 (crcOf (requestBytes 0x3D 0 0 [])) true) s =
        .next (fcSettle (takeSafetyReply (parityDrop 9 { s with sp := { s.sp with replies := l } }))))
  ∧ (∀ (parity : Bool) (s : State), s.isReady 0 = true → s.sp.replies = [] →
      exec (.safetyPacketReceive 0 0 (crcOf (requestBytes 0x3D 0 0 [])) parity) s = .next (fcSettle (s.emit (spAnswer 0 (zeros 4)))))
  ∧ (∀ (typ : Byte) (a n : Nat) (w : List Word) (d : List Byte) (parity force : Bool) (v : Word) (s : State), s.isReady 0 = true →
      let t := (raiseSafe 4 { s with sp := { s.sp with crcErrs := inc16 s.sp.crcErrs } }).emit (spAnswer 1 [])
      (v.toNat ≠ crc32 (requestBytes typ.toNat a n []) → exec (.safetyRegisterRead typ a n (some v)) s = .next (fcSettle t))
      ∧ (v.toNat ≠ crc32 (requestBytes 0x02 a n (w.flatMap fun v => le 4 v.toNat)) →
          exec (.safetyRegisterWrite a n w (some v)) s = .next (fcSettle t))
      ∧ (v.toNat ≠ crc32 (requestBytes 0x3C a n d) → exec (.safetyPacketSend a n d (some v) parity force) s = .next (fcSettle t))
      ∧ (v.toNat ≠ crc32 (requestBytes 0x3D a n []) → exec (.safetyPacketReceive a n (some v) parity) s = .next (fcSettle t)))
  ∧ (∀ (typ : Byte) (a n : Nat) (w : List Word) (d : List Byte) (parity force : Bool) (s : State), s.isReady 0 = true →
      let t := s.emit (spAnswer 2 [])
      (typ ≠ 0x0B ∨ viewSpan a n = false →
          exec (.safetyRegisterRead typ a n (crcOf (requestBytes typ.toNat a n []))) s = .next (fcSettle t))
      ∧ (viewSpan a n = false ∨ w.length ≠ n →
          exec (.safetyRegisterWrite a n w (crcOf (requestBytes 0x02 a n (w.flatMap fun v => le 4 v.toNat)))) s = .next (fcSettle t))
      ∧ (¬ (16 ≤ a ∧ a ≤ 256 ∧ a % 4 = 0 ∧ n = 0 ∧ d.length = a) →
          exec (.safetyPacketSend a n d (crcOf (requestBytes 0x3C a n d)) parity force) s = .next (fcSettle t))
      ∧ (a ≠ 0 ∨ n ≠ 0 → exec (.safetyPacketReceive a n (crcOf (requestBytes 0x3D a n [])) parity) s = .next (fcSettle t)))
  ∧ (∀ (a : Nat) (d : List Byte) (parity force : Bool) (s : State), s.isReady 0 = true → 16 ≤ a → a ≤ 256 → a % 4 = 0 → d.length = a →
      s.sp.credits = 0 →
      exec (.safetyPacketSend a 0 d (crcOf (requestBytes 0x3C a 0 d)) parity force) s = .next (fcSettle (s.emit (spAnswer 3 []))))

/-- Guest functions come and go, are reset and quiesced, and a context's stop bath ends. R91, R93, R157, R159, R160, R161. -/
def Obligations.ContextEventsComplete : Prop :=
  (∀ (n : Fin 64) (s : State), s.isReady 1 = true → exec (.vfEnable n) s = .next (fcSettle (setVfs true n.val s)))
  ∧ (∀ s : State, s.isReady 1 = true → exec .vfDisable s = .next (fcSettle (setVfs false s.host.numVfs s)))
  ∧ (∀ (c : Fin 64) (s : State), c.val ≠ 0 → s.isReady 1 = true → fnPresent s c = true →
      let u := match (s.ctx c).state with
        | .present => startDeparture c false s
        | .departing => s.modCtx c.val fun x => { x with keep := false }
        | .held => s.modCtx c.val fun x => { x with state := .departing, keep := false }
        | _ => s
      exec (.vfFlr c) s = .next (fcSettle (resetFn c (s.fn c).win.locked (u.modFn c.val fun n => { n with flr := true }))))
  ∧ (∀ (c : Fin 64) (s : State), (s.fn c).flr = true → (s.ctx c).state = .departing →
      exec (.vfFlrEnd c) s = .next (fcSettle ((s.modFn c.val fun n => { n with flr := false }).modCtx c.val fun x => { x with state := .held })))
  ∧ (∀ (c : Fin 64) (s : State), (s.fn c).flr = true → (s.ctx c).state = .absent ∨ (s.ctx c).state = .quiesced →
      exec (.vfFlrEnd c) s = .next (fcSettle (raiseEvent 0 0x0201 (le 1 c.val)
        ((s.modFn c.val fun n => { n with flr := false }).modCtx c.val fun x =>
          { x with state := .present, keep := false, latent := [], armed := none, seq := 0, switched := none }))))
  ∧ (∀ (p : Packet) (s : State), Accepts specQuiesceContext p s → byteAt p.params 0 < 64 → byteAt p.params 0 ≠ 0 → zeroAt p.params 1 3 = true →
      (s.ctx (byteAt p.params 0)).state = .present →
      ∃ c : Fin 64, c.val = byteAt p.params 0 ∧ exec (.quiesceContext p) s =
        .next (answered specQuiesceContext p stOk 0 [] (startDeparture c true (taken p s))))
  ∧ (∀ (c : Fin 64) (s : State), (s.ctx c).state = .departing ∨ (s.ctx c).state = .held → departureWaits s c = false →
      let u := if (s.ctx c).keep then lastWrites c (releaseAll c.val s) else releaseAll c.val s
      let t := (raiseEvent 0 0x0203 (le 1 c.val) u).modCtx c.val fun y =>
        { y with state := if (s.ctx c).keep then .quiesced else .absent, keep := false }
      exec (.contextStopBathEnd c) s = .next (fcSettle (if (s.ctx c).state = .held then
        raiseEvent 0 0x0201 (le 1 c.val) (t.modCtx c.val fun x =>
          { x with state := .present, keep := false, latent := [], armed := none, seq := 0, switched := none }) else t)))

/-- A context's quota, channel map and rights are set as the command gives them, and GET_CONTEXT shows them. R162, R164, R165,
R166, R167, R168, R169, R170, R279. -/
def Obligations.ContextSettingsComplete : Prop :=
  (∀ (p : Packet) (s : State), Accepts specGetContext p s → byteAt p.params 0 < 64 → zeroAt p.params 1 3 = true →
      exec (.getContext p) s = .next (answered specGetContext p stOk 0 (contextRecord (taken p s) (byteAt p.params 0))
        (taken p s)))
  ∧ (∀ (p : Packet) (s : State), Accepts specSetContextQuota p s → byteAt p.params 0 < 64 → 1 ≤ byteAt p.params 1 → byteAt p.params 1 ≤ 6 →
      zeroAt p.params 2 2 = true →
      (byteAt p.params 1 = 2 → fieldAt p.params 4 4 % 128 = 0
        ∧ pagesShort (taken p s) (byteAt p.params 0) (fieldAt p.params 4 4 / 128) = false) →
      fieldAt p.params 4 4 ≤ (if byteAt p.params 1 = 6 then 4096 else deviceTotal (byteAt p.params 1)) →
      useOf (taken p s) (byteAt p.params 0) (byteAt p.params 1) ≤ fieldAt p.params 4 4 →
      quotaOver (taken p s) (byteAt p.params 0) (byteAt p.params 1) (fieldAt p.params 4 4) = false →
      let u := (taken p s).modCtx (byteAt p.params 0) fun x => { x with
        quotas := tmod x.quotas (byteAt p.params 1 - 1) fun _ => fieldAt p.params 4 4 }
      exec (.setContextQuota p) s = .next (answered specSetContextQuota p stOk 0 []
        (if byteAt p.params 1 = 2 then movePages (byteAt p.params 0) (fieldAt p.params 4 4 / 128) u else u)))
  ∧ (∀ (p : Packet) (s : State), Accepts specSetContextChannels p s → badGuest p = false → zeroAt p.params 1 3 = true →
      ((heldDecls (taken p s)).any fun d => d.ctx == byteAt p.params 0 && chanRight ((taken p s).modCtx (byteAt p.params 0) fun x =>
        { x with map := mapOf (p.params.drop 4) }) (byteAt p.params 0) d.channel < (if d.foreign then 3 else 2)) = false →
      mapFault (taken p s) ((taken p s).modCtx (byteAt p.params 0) fun x => { x with map := mapOf (p.params.drop 4) })
        (byteAt p.params 0) = none →
      exec (.setContextChannels p) s = .next (answered specSetContextChannels p stOk 0 [] ((taken p s).modCtx (byteAt p.params 0)
        fun x => { x with map := mapOf (p.params.drop 4) })))
  ∧ (∀ (p : Packet) (s : State), Accepts specSetContextRights p s → badGuest p = false → byteAt p.params 1 ≤ 3 → fieldAt p.params 2 2 < 64 →
      ((rightsUsed (taken p s) (byteAt p.params 0)).any fun n => !(fieldAt p.params 2 2).testBit n) = false → critUsed (taken p s) (byteAt p.params 0) (byteAt p.params 1) = false →
      heldNeedsRights (taken p s) (byteAt p.params 0) (byteAt p.params 1) (fieldAt p.params 2 2) = false →
      exec (.setContextRights p) s = .next (answered specSetContextRights p stOk 0 [] ((taken p s).modCtx (byteAt p.params 0)
        fun x => { x with crit := byteAt p.params 1, rights := BitVec.ofNat 16 (fieldAt p.params 2 2)
                          loadMask := BitVec.ofNat 96 (fieldAt p.params 4 12) })))

/-- IDENTIFY, GET_READINESS and CLEAR_COUNTERS answer as the spec lays their results out. R89, R99, R190, R191. -/
def Obligations.SystemReadsAndClearsComplete : Prop :=
  (∀ (p : Packet) (s : State), Accepts specIdentify p s →
      exec (.identify p) s = .next (answered specIdentify p stOk 0
        (le 4 0x20641D5A ++ le 4 0x000100B0 ++ le 4 (genFwVer (taken p s)) ++ le 4 (selfOf (taken p s) p.source) ++ le 8 Config.serial.toNat
          ++ le 2 (match runningImage (taken p s) with | some i => i.settingsFmt | none => 0) ++ zeros 2) (taken p s)))
  ∧ (∀ (p : Packet) (s : State), Accepts specGetReadiness p s →
      exec (.getReadiness p) s = .next (answered specGetReadiness p stOk 0
        (le 4 s.aon.ready.toNat ++ le 4 (bootStatus (taken p s)) ++ le 1 (powerCode s.aon.power) ++ zeros 3 ++ le 8 (stampNow (taken p s))) (taken p s)))
  ∧ (∀ (p : Packet) (s : State), Accepts specClearCounters p s → fieldAt p.params 0 4 < 64 →
      exec (.clearCounters p) s = .next (answered specClearCounters p stOk 0 (le 8 (stampNow (taken p s))) (clearClasses (fieldAt p.params 0 4) (taken p s))))

/-- READ_CONTACT_SHEET with an ID that is not held, or from a party that does not hold it, is refused with 0x12 and 0x000400.
R188. -/
def Obligations.LostSheetIdsAreRefused : Prop :=
  ∀ (p : Packet) (s : State), Accepts specReadContactSheet p s → zeroAt p.params 2 2 = true → fieldAt p.params 4 4 % 4 = 0 →
    ((s.bank (fieldAt p.params 0 2 % 2)).holder ≠ some p.source ∨ (s.bank (fieldAt p.params 0 2 % 2)).takes ≠ fieldAt p.params 0 2 / 2) →
    exec (.readContactSheet p) s = .next (answered specReadContactSheet p 0x12 0x000400 [] (taken p s))

/-- The fault log is read in pages of seven; contact sheets are taken, captured at their instant, read in blocks and released.
R40, R184, R185, R186, R187, R188. The model's own choice: log entry 23, log entry 24. -/
def Obligations.FaultLogAndSheetsComplete : Prop :=
  (∀ (p : Packet) (s : State), Accepts specReadFaultLog p s →
      let l := logFrom (taken p s) (fieldAt p.params 0 4)
      exec (.readFaultLog p) s = .next (answered specReadFaultLog p 0 0 (le 1 (min l.length 7) ++ zeros 3 ++ le 4 (oldestSeq (taken p s))
        ++ le 4 (newestSeq (taken p s)) ++ le 4 (((l.drop 7).head?.map (·.seq)).getD 0) ++ padTo 224 ((l.take 7).flatMap faultBytes))
        (taken p s)))
  ∧ (∀ (p : Packet) (s : State), Accepts specTakeContactSheet p s → fieldAt p.params 0 8 = 0 →
      (∀ h, (s.bank (bankOf p.source)).holder = some h → h = p.source) →
      let t := captureSheet (bankOf p.source) p.source (acknowledge (fieldAt p.params 8 4)
        ((taken p s).modBank (bankOf p.source) fun b => { b with holder := some p.source }))
      exec (.takeContactSheet p) s = .next (answered specTakeContactSheet p 0 0 (takeBody (bankOf p.source) t) t))
  ∧ (∀ (p : Packet) (s : State), Accepts specTakeContactSheet p s → s.now + 100000 ≤ fieldAt p.params 0 8 →
      fieldAt p.params 0 8 ≤ s.now + 1000000000 → (∀ h, (s.bank (bankOf p.source)).holder = some h → h = p.source) →
      let q : Packet := { p with opcode := 0x0102 }
      exec (.takeContactSheet p) s = .next (fcSettle (conclude q (taken p s)
        (.wait ((acknowledge (fieldAt p.params 8 4) ((taken p s).modBank (bankOf p.source) fun b =>
          { b with holder := some p.source })).modBank (bankOf p.source) fun b => { b with armed := some (q, fieldAt p.params 0 8) })))))
  ∧ (∀ (n : Fin 2) (q : Packet) (t : Nat) (s : State), (s.bank n.val).armed = some (q, t) →
      exec (.contactSheetCapture n) s = .next (fcSettle (captureArmed n.val (reachTime t s))))
  ∧ (∀ (p : Packet) (s : State), Accepts specReadContactSheet p s → zeroAt p.params 2 2 = true → fieldAt p.params 4 4 % 4 = 0 →
      let n := fieldAt p.params 0 2 % 2
      let off := fieldAt p.params 4 4
      (s.bank n).holder = some p.source → (s.bank n).armed = none → (s.bank n).takes = fieldAt p.params 0 2 / 2 →
      off < (s.bank n).sheet.length →
      let d := ((s.bank n).sheet.drop off).take 224
      exec (.readContactSheet p) s = .next (answered specReadContactSheet p 0 0 (le 4 off ++ le 2 d.length ++ zeros 2 ++ padTo 224 d)
        ((taken p s).modBank n fun b =>
          if off + d.length = (s.bank n).sheet.length then { b with holder := none, sheet := [] }
          else { b with release := s.time.clk + 200000000 })))
  ∧ (∀ (n : Fin 2) (s : State), (s.bank n.val).holder.isSome = true → (s.bank n.val).armed = none →
      (∀ r ∈ s.engine.late, r.opcode = 0x0102 → some r.dest ≠ (s.bank n.val).holder) →
      exec (.sheetBankRelease n) s = .next (fcSettle ((reachClk (s.bank n.val).release s).modBank n.val fun b =>
        { b with holder := none, sheet := [] })))

/-- A corrected word is counted; an uncorrectable one is counted, its address kept, its region's action taken and an entry
written. R33, R34, R36, R37, R39, R299, R349, R460. -/
def Obligations.ScrubPassesComplete : Prop :=
  (∀ (r : Region) (a : Nat) (q : Option Packet) (s : State), s.isReady (regionOwner r) = true →
      (regionSpan r).1 ≤ a → a < (regionSpan r).1 + (regionSpan r).2 →
      let good := modCounter r (fun c => { c with corrected := inc32 c.corrected }) s
      exec (.scrubPass r a .clean q) s = .next (fcSettle s)
      ∧ (r ≠ .payloadPool → r ≠ .queueStorage → exec (.scrubPass r a .corrected q) s = .next (fcSettle good))
      ∧ (r = .payloadPool → exec (.scrubPass r a .corrected q) s = .next (fcSettle (match cellOwner s ((a / 8 * 8 - poolBase) / 64) with
          | some (mo, _) => good.modMo mo fun o => { o with eccCorr := min 0xFF (o.eccCorr + 1) }
          | none => good)))
      ∧ (r = .queueStorage → ∃ t, exec (.scrubPass r a .corrected q) s = .next t ∧ t.log = s.log ∧ t.mem = good.mem)
      ∧ exec (.scrubPass r a .uncorrectable q) s = .next (fcSettle (logFault 1 (regionCode r) (a / 8 * 8) 0
          (badWord r (a / 8 * 8) q (modCounter r (fun c => { c with uncorr := inc32 c.uncorr, lastAddr := a / 8 * 8 }) s)))))
  ∧ (∀ (w : Nat) (q : Option Packet) (s : State), (mget s.sigs (w / 16)).isSome = true →
      badWord .signalTable w q s = raiseEvent 0 0x0A03 (le 1 2 ++ zeros 3 ++ le 4 (w / 16))
        { s with sigs := mmod s.sigs (w / 16) fun g => { g with errDis := true } })
  ∧ (∀ (n : Nat) (q : Option Packet) (s : State), (mget s.pdus n).isSome = true →
      badWord .pduTable (0xC00000 + 32 * n) q s = raiseEvent 0 0x0A03 (le 1 1 ++ zeros 3 ++ le 4 n)
        { s with pdus := mmod s.pdus n fun d => { d with errDis := true } })
  ∧ (∀ (n : Nat) (o : Mo) (q : Option Packet) (s : State), s.mo? n = some o →
      badWord .moDescriptors (0xD00000 + 32 * n) q s = raiseEvents (withOwner o.owner) 0x0502 (le 2 n ++ le 1 1 ++ zeros 1 ++ le 4 0)
        (cancelObject n (s.modMo n fun o => { o with errDis := true, en := false })))

/-- A latent command joins its changes to its context's latent set, superseding earlier ones on the same item, and does nothing
else. R166, R171, R172, R303, R327, R487. The model's own choice: log entry 75. -/
def Obligations.StagingJoinsTheLatentSet : Prop :=
  (∀ (p : Packet) (l : List Change) (s : State) (body : List Byte),
      let x := stageCtx p
      let t := s.modCtx x fun c => { c with latent := joinLatent c.latent l }
      latentUse t x ≤ quotaOf s x 6 → total ((List.range 64).map (latentUse t)) ≤ 16384 → stage p l s body = .reply t 0x00 0x800000 body)
  ∧ (∀ (old : List Change) (c : Change), ∃ rest, joinLatent old [c] = rest ++ [c] ∧ rest.Sublist old
      ∧ (∀ d ∈ rest, itemOf d = itemOf c → isAlloc d = true ∨ clearsWrite c d = true)
      ∧ (∀ d ∈ old, itemOf d ≠ itemOf c ∨ isAlloc d = true ∨ clearsWrite c d = true → d ∈ rest))
  ∧ (∀ (old l k : List Change), joinLatent (joinLatent old l) k = joinLatent old (l ++ k))

/-- DEVELOP develops or arms the latent set, or refuses it whole; it is discarded, read and cancelled as the spec says. R151,
R172, R173, R175, R177, R178, R403, R406. The model's own choice: log entry 4. -/
def Obligations.DevelopmentsComplete : Prop :=
  (∀ (p : Packet) (s : State), Accepts specDevelop p s → zeroAt p.params 2 2 = true →
      let u := taken p s
      let x := stageCtx p
      let w := byteAt p.params 0
      let i := fieldAt p.params 4 8
      let lim := if byteAt p.params 1 = 0 then 10 else byteAt p.params 1
      w ≤ 2 → (w = 2 ∨ byteAt p.params 1 = 0) → (if w = 1 then s.now + 50000 ≤ i ∧ i ≤ s.now + 2 ^ 40 else i = 0) →
      let late := answered specDevelop p 0x12 0x090700 [] (drawn 1 u)
      ((u.ctx x).armed = none → developCheck u x = none →
        exec (.develop p) s = .next (if w = 1 ∧ checkedLate u x i = true then late else answered specDevelop p 0 0
          (le 4 (itemCount (u.ctx x).latent) ++ le 8 (developNow x w lim i (drawn 1 u)).2.1 ++ le 4 (developNow x w lim i (drawn 1 u)).2.2)
          (developNow x w lim i (drawn 1 u)).1))
      ∧ (∀ st de, (u.ctx x).armed = none → developCheck u x = some (st, de) →
          exec (.develop p) s = .next (if st = 0x13 ∧ w = 1 ∧ checkedLate u x i = true then late else answered specDevelop p st de [] u))
      ∧ ((u.ctx x).armed.isSome = true → exec (.develop p) s = .next (answered specDevelop p 0x12 0x000100 [] u)))
  ∧ (∀ (p : Packet) (s : State), Accepts specDiscardLatent p s →
      exec (.discardLatent p) s = .next (answered specDiscardLatent p 0 0 (le 4 (itemCount (s.ctx (stageCtx p)).latent))
        (dropLatent (stageCtx p) (taken p s))))
  ∧ (∀ (p : Packet) (s : State), Accepts specGetLatent p s → byteAt p.params 0 < 64 → zeroAt p.params 1 3 = true →
      exec (.getLatent p) s = .next (answered specGetLatent p 0 0 (le 4 (itemCount (s.ctx (byteAt p.params 0)).latent) ++
        (match (s.ctx (byteAt p.params 0)).armed with
          | some a => le 1 1 ++ zeros 3 ++ le 8 a.instant ++ le 4 a.seq
          | none => zeros 16)) (taken p s)))
  ∧ (∀ (p : Packet) (s : State), Accepts specCancelDevelop p s →
      (∀ a, (s.ctx (stageCtx p)).armed = some a → a.when_ ≠ 2 → s.now < a.instant →
        exec (.cancelDevelop p) s = .next (answered specCancelDevelop p 0 0 (zeros 8)
          ((taken p s).modCtx (stageCtx p) fun c => { c with armed := none, latent := joinLatent a.changes c.latent })))
      ∧ (∀ a, (s.ctx (stageCtx p)).armed = some a → a.when_ ≠ 2 → a.instant ≤ s.now →
        exec (.cancelDevelop p) s = .next (answered specCancelDevelop p 0x02 0 (le 8 a.instant) (taken p s)))
      ∧ (∀ a, (s.ctx (stageCtx p)).armed = some a → a.when_ = 2 →
        exec (.cancelDevelop p) s = .next (answered specCancelDevelop p 0x12 0x000200 [] (taken p s)))
      ∧ (∀ t, (s.ctx (stageCtx p)).armed = none → (s.ctx (stageCtx p)).switched = some t →
        exec (.cancelDevelop p) s = .next (answered specCancelDevelop p 0x02 0 (le 8 t) (taken p s)))
      ∧ ((s.ctx (stageCtx p)).armed = none → (s.ctx (stageCtx p)).switched = none →
        exec (.cancelDevelop p) s = .next (answered specCancelDevelop p 0x12 0x000500 [] (taken p s))))
  ∧ (∀ (i : Nat) (s : State), ((armedOrder s).any fun a => a.2.when_ == 1 && a.2.instant == i) = true →
      exec (.developSwitch i) s = .next (fcSettle (switchDue (reachTime i s))))

/-- Mode, bit timing and transceiver settings within their ranges join the latent set; GET_CHANNEL_STATUS answers the record.
R230, R233, R237, R238, R249, R252, R171, R232. -/
def Obligations.ChannelSettingsAreStaged : Prop :=
  (∀ (p : Packet) (s t : State) (ch : Nat), Accepts specSetChannelMode p s →
      let u := taken p s
      let m := byteAt p.params 1
      let f := byteAt p.params 2
      let o := byteAt p.params 3
      let d := devSettings ((stagedFor p u).chan ch)
      byteAt p.params 0 < 64 → srcChan u p.source (byteAt p.params 0) = some ch → m ≤ 4 → f < 8 → f % 2 = 1 → o < 8 → zeroAt p.params 4 4 = true →
      (∀ k < 3, d.formats.testBit k = true → f.testBit k = false → (formatsUsed (stagedFor p u) ch).testBit k = false) →
      ((s.chan ch).state = .disabled ∨ ((f.testBit 1 = true → d.fdData.isSome = true) ∧ (f.testBit 2 = true → d.xlData.isSome = true))) →
      ((s.chan ch).held = none ∨ timingsReady { d with mode := m, formats := f, options := o } = true) →
      Stages p [.chanMode ch m f o] [] s t →
      exec (.setChannelMode p) s = .next (answered specSetChannelMode p 0 0x800000 [] t))
  ∧ (∀ (p : Packet) (s t : State) (ch : Nat), Accepts specSetBitTiming p s →
      let u := taken p s
      let ph := byteAt p.params 1
      let r := phaseRange ph
      let x : BitTiming := { brp := byteAt p.params 2, tseg1 := fieldAt p.params 4 2, tseg2 := byteAt p.params 6, sjw := byteAt p.params 7,
                             tdc := byteAt p.params 8, tdco := byteAt p.params 9, tdcf := byteAt p.params 10 }
      byteAt p.params 0 < 64 → srcChan u p.source (byteAt p.params 0) = some ch → ph ≤ 2 → 1 ≤ x.brp → x.brp ≤ 32 → zeroAt p.params 3 1 = true →
      r.t1lo ≤ x.tseg1 → x.tseg1 ≤ r.t1hi → r.qlo ≤ 1 + x.tseg1 + x.tseg2 → 1 + x.tseg1 + x.tseg2 ≤ r.qhi → r.clo ≤ (bitClocks x).bit →
      (bitClocks x).bit ≤ 3200 → 2 ≤ x.tseg2 → x.tseg2 ≤ r.t2hi → 1 ≤ x.sjw → x.sjw ≤ r.sjwhi → x.sjw ≤ x.tseg1 → x.sjw ≤ x.tseg2 →
      x.tdc ≤ 2 → (ph = 0 → x.tdc = 0) → x.tdco ≤ 127 → (x.tdc = 0 → x.tdco = 0) → x.tdcf ≤ 127 → (x.tdc ≠ 1 → x.tdcf = 0) →
      zeroAt p.params 11 1 = true →
      timingFault (setPhase ph x (devSettings ((stagedFor p u).chan ch))) = none →
      let b := le 2 (bitClocks x).bit ++ le 2 (bitClocks x).sample ++ le 4 (160000000 / (bitClocks x).bit)
      Stages p [.bitTiming ch ph x] b s t →
      exec (.setBitTiming p) s = .next (answered specSetBitTiming p 0 0x800000 b t))
  ∧ (∀ (p : Packet) (s t : State) (ch : Nat), Accepts specSetTransceiver p s →
      let u := taken p s
      let x : Transceiver := { stbn := byteAt p.params 1, settle := if byteAt p.params 2 = 0 then 40 else byteAt p.params 2,
                               fast := bitOf (byteAt p.params 3) 0, pwms := if byteAt p.params 4 = 0 then 3 else byteAt p.params 4,
                               pwml := if byteAt p.params 5 = 0 then 9 else byteAt p.params 5, pwmo := byteAt p.params 6 }
      byteAt p.params 0 < 64 → srcChan u p.source (byteAt p.params 0) = some ch → x.stbn ≤ 2 → byteAt p.params 3 < 2 → x.pwms < x.pwml →
      x.pwms ≤ 62 → x.pwms + x.pwml ≤ 63 → 2 ≤ x.pwml → x.pwml ≤ 62 → x.pwmo ≤ 63 → zeroAt p.params 7 1 = true →
      timingFault { devSettings ((stagedFor p u).chan ch) with xcvr := x } = none →
      Stages p [.xcvr ch x] [] s t →
      exec (.setTransceiver p) s = .next (answered specSetTransceiver p 0 0x800000 [] t))
  ∧ (∀ (p : Packet) (s : State) (ch : Nat), Accepts specGetChannelStatus p s → byteAt p.params 0 < 64 →
      srcChan (taken p s) p.source (byteAt p.params 0) = some ch → zeroAt p.params 1 3 = true →
      exec (.getChannelStatus p) s = .next (answered specGetChannelStatus p 0 0 (chanRecord (taken p s) ch) (taken p s)))

/-- Channels are enabled, disabled, recovered and cancelled, and integrate, settle, stop and recover as the spec says. R197,
R199, R203, R207, R179, R181, R219, R261, R262, R276, R65. The model's own choice: log entry 56, log entry 56. -/
def Obligations.ChannelControlCompletes : Prop :=
  (∀ (p : Packet) (s : State) (ch : Nat), Accepts specEnableChannel p s → byteAt p.params 0 < 64 →
      srcChan s p.source (byteAt p.params 0) = some ch → (byteAt p.params 1 ≤ 4 ∨ byteAt p.params 1 = 0xFF) → zeroAt p.params 2 2 = true →
      let u := taken p s
      let c := u.chan ch
      let q : Packet := { p with opcode := 0x0403 }
      powerBlocks u = false → timingsReady (devSettings c) = true →
      (c.stop = none → c.state = .disabled → c.settleWait = false →
        exec (.enableChannel p) s = .next (fcSettle (conclude q u (.wait (applyEnable ch (byteAt p.params 1) (some q) u)))))
      ∧ (c.stop = none → c.state ≠ .disabled ∨ c.settleWait = true →
        exec (.enableChannel p) s = .next (answered specEnableChannel p 0 0 (le 1 (chanCode c.state) ++ zeros 3 ++ le 8 0) u))
      ∧ (c.stop.isSome = true → exec (.enableChannel p) s = .next (answered specEnableChannel p 0x01 1 []
          (u.modChan ch fun c => { c with held := some { by_ := p.source, mode := byteAt p.params 1 } }))))
  ∧ (∀ (p : Packet) (s : State) (ch : Nat), Accepts specDisableChannel p s → byteAt p.params 0 < 64 →
      srcChan s p.source (byteAt p.params 0) = some ch → zeroAt p.params 1 3 = true →
      let u := taken p s
      let c := u.chan ch
      exec (.disableChannel p) s = .next (answered specDisableChannel p 0 0 [] (disableNow ch p.source u))
      ∧ (c.stop = none → c.state = .running → disableNow ch p.source u = startStop ch (.disable p.source) u)
      ∧ (c.stop = none → c.state = .disabled → c.settleWait = false → disableNow ch p.source u = u)
      ∧ (c.stop = none → c.state = .disabled → c.settleWait = true →
          disableNow ch p.source u = answerEnable ch 0 0 (u.modChan ch fun c => { c with settleWait := false }))
      ∧ (c.stop = none → c.state = .integrating ∨ c.state = .exception ∨ c.state = .busOff ∨ c.state = .recovering →
          disableNow ch p.source u = leaveAtOnce ch .disabled u)
      ∧ (c.stop = none → c.state = .powerHeld → disableNow ch p.source u = restartSchedules ch
          (enterState ch .disabled (u.modChan ch fun c => { c with settleWait := false, wasBusOff := false })))
      ∧ (c.stop.isSome = true → c.held = none → disableNow ch p.source u = u.modChan ch fun c =>
          { c with stop := match c.stop with | some .power => some (.disable p.source) | x => x }))
  ∧ (∀ (p : Packet) (s : State) (o : Mo), Accepts specCancelTx p s → fieldAt p.params 0 2 < 0x4000 → zeroAt p.params 2 2 = true →
      s.mo? (fieldAt p.params 0 2) = some o → o.tx = true →
      let u := taken p s
      (o.full = false → exec (.cancelTx p) s = .next (answered specCancelTx p 0x02 0 (cancelBody 3 0xF o.lastSof) u))
      ∧ (o.full = true → o.latched = false → exec (.cancelTx p) s = .next (answered specCancelTx p 0 0 (cancelBody 0 (withdrawnResult o) 0)
          (withdrawPending (fieldAt p.params 0 2) (discardStaged (fieldAt p.params 0 2) u))))
      ∧ (o.full = true → o.latched = true →
          let w := (discardStaged (fieldAt p.params 0 2) u).modChan o.channel fun c => { c with cancelled := true }
          let q : Packet := { p with opcode := 0x0405 }
          (wonNow (w.chan o.channel) = true → exec (.cancelTx p) s = .next (answered specCancelTx p 0x02 0
            (cancelBody 2 0xF (w.chan o.channel).sof) (countCancel o.channel true w)))
          ∧ (wonNow (w.chan o.channel) = false → exec (.cancelTx p) s = .next (fcSettle (conclude q u
            (.wait (w.modChan o.channel fun c => { c with cancelling := c.cancelling ++ [q] })))))))
  ∧ (∀ (p : Packet) (s : State) (ch : Nat), Accepts specRecoverBusOff p s → byteAt p.params 0 < 64 →
      srcChan s p.source (byteAt p.params 0) = some ch → byteAt p.params 1 = 0 → byteAt p.params 2 = 0 → byteAt p.params 3 = 0 →
      fieldAt p.params 4 2 = 0 → zeroAt p.params 6 2 = true →
      (((taken p s).chan ch).state = .busOff ∨ ((taken p s).chan ch).state = .recovering) →
      let t := startRecovery ch (taken p s)
      exec (.recoverBusOff p) s = .next (answered specRecoverBusOff p 0 0 (recoverBody (t.chan ch) (t.chan ch).recovStart) t))
  ∧ (∀ (p : Packet) (s : State) (ch : Nat), Accepts specRecoverBusOff p s → byteAt p.params 0 < 64 →
      srcChan s p.source (byteAt p.params 0) = some ch → byteAt p.params 1 = 1 → byteAt p.params 2 < 16 → zeroAt p.params 6 2 = true →
      let t := (taken p s).modChan ch fun c => { c with
        auto := bitOf (byteAt p.params 2) 0, freeze := BitVec.ofNat 3 (byteAt p.params 2 / 2)
        aloneCount := if byteAt p.params 3 = 0 then 16 else byteAt p.params 3, autoDelay := fieldAt p.params 4 2
        busOffAt := if c.state = .busOff then (taken p s).time.clk else c.busOffAt }
      exec (.recoverBusOff p) s = .next (answered specRecoverBusOff p 0 0 (recoverBody (t.chan ch) 0) t))
  ∧ (∀ (ch : Fin 64) (s : State), (s.chan ch.val).settleWait = true → s.isReady (bankBit ch.val) = true → powerBlocks s = false →
      let t := enterIntegrating ch.val (reachClk (s.chan ch.val).settleEnd s)
      let u := answerEnable ch.val 1 (stampNow t) t
      exec (.stbnSettleEnd ch) s = .next (fcSettle (if (s.chan ch.val).state = .powerHeld then restartSchedules ch.val u else u)))
  ∧ (∀ (ch : Fin 64) (s : State), ((s.chan ch.val).state = .integrating ∨ (s.chan ch.val).state = .exception) →
      exec (.busIntegrationComplete ch) s = .next (fcSettle (enterState ch.val .running (takeSettings ch.val
        (s.modChan ch.val fun c => { c with bus := .idle, stretch := false })))))
  ∧ (∀ (ch : Fin 64) (s : State), (s.chan ch.val).state = .stopping → quiet (s.chan ch.val) = true →
      exec (.channelStopBathEnd ch) s = .next (fcSettle (switchLate ch.val (endStop ch.val (enterIntermission ch.val .idle s)))))
  ∧ (∀ (ch : Fin 64) (s : State), (s.chan ch.val).state = .busOff → (s.chan ch.val).auto = true →
      exec (.autoDelayExpiry ch) s = .next (fcSettle (startRecovery ch.val
        (reachClk ((s.chan ch.val).busOffAt + (s.chan ch.val).autoDelay * 1000000) s))))
  ∧ (∀ (ch : Fin 64) (s : State), (s.chan ch.val).state = .recovering → (s.chan ch.val).progress < 127 →
      exec (.recessiveSequenceCounted ch) s = .next (fcSettle (s.modChan ch.val fun c => { c with progress := c.progress + 1 })))
  ∧ (∀ (ch : Fin 64) (s : State), (s.chan ch.val).state = .recovering → 127 ≤ (s.chan ch.val).progress →
      exec (.recoveryComplete ch) s = .next (fcSettle (recoveryDone ch.val s)))

/-- Candidates are latched, win or lose, succeed or fail; frames are received, distributed and taken in; a quiet bus goes idle.
R206, R209, R213, R214, R219, R175, R176, R320, R332, R334, R445, R21. The model's own choice: log entries 27, 28, 54, 67. -/
def Obligations.FramesOnTheBusComplete : Prop :=
  (∀ (ch : Fin 64) (stamp : Nat) (parity : Bool) (s : State) (mo : Nat) (o : Mo), (s.chan ch.val).state = .running → (s.chan ch.val).latched = none →
      (candidate s ch.val).isSome = true →
      let u := endErrorFrame ch.val s
      sendsFrames (u.chan ch.val).mode = true → candidate u ch.val = some (mo, o) →
      exec (.candidateLatch ch stamp parity) s = .next (fcSettle (if parity then parityDrop 5 u else latch ch.val mo (max 1 (max stamp u.now)) u)))
  ∧ (∀ (ch : Fin 64) (s : State),
      let u := frameStarts ch.val s
      onBus (u.chan ch.val) = true → (u.chan ch.val).latched.isSome = true → wonNow (u.chan ch.val) = false → sendsFrames (u.chan ch.val).mode = true →
      let d := driveSof ch.val u
      let lost := d.modChan ch.val fun c => { c with counters := { c.counters with arbLost := inc32 c.counters.arbLost }, bus := .receiving }
      let won := d.modChan ch.val fun c => { c with bus := .sending true }
      let told := forEach (won.chan ch.val).cancelling (fun _ s => countCancel ch.val true s) won
      exec (.arbitrationLost ch) s = .next (fcSettle (endUnsent ch.val (filmOwn ch.val 3 lost)))
      ∧ exec (.arbitrationWon ch) s = .next (fcSettle (answerCancels ch.val 0x02 2 0xF (told.chan ch.val).sof told)))
  ∧ (∀ (ch : Fin 64) (h : Hdr) (edges : List (Nat × Nat)) (dec : Fin 3001) (parity : Bool) (s : State), sendingNow (s.chan ch.val) = false →
      let x := headerDone ch.val h edges dec.val (switchLate ch.val (endErrorFrame ch.val s))
      exec (.headerComplete ch h edges dec parity) s = .next (fcSettle (if parity then dropStamp ch.val x else x)))
  ∧ (∀ (ch : Fin 64) (h : Hdr) (edges : List (Nat × Nat)) (dec : Nat) (s : State), onBus (s.chan ch.val) = true → (s.chan ch.val).rx = none →
      (∀ m o, ownReception (s.chan ch.val) = true → (s.chan ch.val).latched = some m → s.mo? m = some o →
        headerDone ch.val h edges dec s = takeHeader ch.val (ownHeader (s.chan ch.val) o) (s.chan ch.val).sof dec s)
      ∧ (ownReception (s.chan ch.val) = false → foreignReception ((endErrorFrame ch.val s).chan ch.val) = true →
        let u := endErrorFrame ch.val s
        let stamp := claimStamp (captureEdges edges (u.chan ch.val))
        let w := (reachTime stamp (u.modChan ch.val (captureEdges edges))).modChan ch.val fun c =>
          { c with bus := .receiving, wasTx := false, lastSof := stamp }
        headerDone ch.val h edges dec s =
          if fastHidden (w.chan ch.val) h = true ∨ (w.chan ch.val).cur.formats.testBit (fmtCode h.fmt) = false then w
          else takeHeader ch.val h (claimStamp (w.chan ch.val)) dec w))
  ∧ (∀ (ch : Fin 64) (len : Fin 2049) (data : List Byte) (parity : Bool) (r : RxHeader) (s : State), onBus (s.chan ch.val) = true →
      (s.chan ch.val).rx = some r → ownReception (s.chan ch.val) = false → (s.chan ch.val).bus = .receiving →
      lenOk r.hdr.fmt (rxLen r.hdr len.val) = true →
      let l := rxLen r.hdr len.val
      let f : Frame := { hdr := r.hdr, len := l, data := padTo (payloadLen r.hdr l) data, stamp := r.stamp }
      let t := countJudged ch.val r (foreignValid ch.val r.hdr l r.stamp s)
      exec (.frameReceived ch len data parity) s = .next (fcSettle ((enterIntermission ch.val .intermission
        (if parity then parityDrop 0 ((claimPayload ch.val l t).modChan ch.val fun c => { c with rx := none, chqClaim := 0 })
          else commitPacket ch.val f t)).modChan ch.val fun c => { c with wasTx := false })))
  ∧ (∀ (ch : Fin 64) (len : Fin 2049) (data : List Byte) (parity : Bool) (r : RxHeader) (m : Nat) (o : Mo) (s : State), onBus (s.chan ch.val) = true →
      (s.chan ch.val).rx = some r → ownReception (s.chan ch.val) = true → (s.chan ch.val).latched = some m → s.mo? m = some o →
      lenOk r.hdr.fmt (frontOf o).record.len = true →
      let l := (frontOf o).record.len
      let f : Frame := { hdr := r.hdr, len := l, data := padTo (payloadLen r.hdr l) (frontOf o).data, stamp := r.stamp }
      let t := countJudged ch.val r s
      exec (.frameReceived ch len data parity) s = .next (fcSettle
        (if parity then parityDrop 0 ((claimPayload ch.val l t).modChan ch.val fun c => { c with rx := none, chqClaim := 0 })
          else commitPacket ch.val f t)))
  ∧ (∀ (ch : Fin 64) (k : RxPacket) (rest : List RxPacket) (parity : Bool) (s : State), (s.chan ch.val).chq = k :: rest → s.isReady 3 = true →
      exec (.distributorCopy ch parity) s = .next (fcSettle (if parity then parityDrop 0 (s.modChan ch.val fun c => { c with chq := rest })
        else (forEach (ringCopies k.dests)
          (fun d s => pushRx d.1 { ring := d.2.1, record := rxRecord ch.val k.frame d.2.2, data := k.frame.data } s)
          (forEach k.dests (fun d s => match d with | .object m f => copyToObject ch.val k.frame m f s | _ => s) s)).modChan ch.val
        fun c => { c with chq := rest })))
  ∧ (∀ (ch : Fin 64) (acked : Bool) (tdcv : Option (Fin 128)) (mo : Nat) (s : State), onBus (s.chan ch.val) = true → wonNow (s.chan ch.val) = true →
      (s.chan ch.val).latched = some mo → (acked = true ∨ (s.chan ch.val).mode ≠ 0) →
      ((measuredTdcf (s.chan ch.val) s).isSome = true → (tdcvOf (s.chan ch.val) s tdcv).isSome = true) →
      let a := (emitFrame ch.val (noteStart ch.val (noteTdcv ch.val tdcv s))).modChan ch.val fun c =>
        { c with counters := { c.counters with txOk := inc32 c.counters.txOk } }
      let b := if acked = true ∨ (a.chan ch.val).mode ≠ 4 then changeCounters ch.val tecSuccess (ackSeen ch.val a) else a
      exec (.transmitSuccess ch acked tdcv) s = .next (fcSettle (ownEnds ch.val (endSent ch.val
        (judgeUndeclaredOwn ch.val mo (s.chan ch.val).sof (filmOwn ch.val 2 b))))))
  ∧ (∀ (ch : Fin 64) (tdcv : Option (Fin 128)) (s : State), onBus (s.chan ch.val) = true → sendingNow (s.chan ch.val) = true →
      (s.chan ch.val).stretch = true →
      exec (.attemptFailed ch tdcv) s = .next (fcSettle (ownEnds ch.val (endFailed ch.val (noteTdcv ch.val tdcv s)))))
  ∧ (∀ (ch : Nat) (e : State), ownEnds ch e = (enterIntermission ch (afterSent ch e) (rewindRx ch e)).modChan ch fun c => { c with wasTx := true })
  ∧ (∀ (n : Fin 4) (r : Routed) (rest : List Routed) (parity : Bool) (s : State), tget s.fq.rtq n.val [] = r :: rest → s.isReady 3 = true →
      let t := cellsFreed n.val { s with fq := { s.fq with rtq := tmod s.fq.rtq n.val fun _ => rest } }
      exec (.routedFrameIntake n parity) s = .next (fcSettle (if parity then parityDrop r.path t else intakeRouted r t)))
  ∧ (∀ (ch : Fin 64) (s : State), onBus (s.chan ch.val) = true → (∀ won, (s.chan ch.val).bus ≠ .sending won) → (s.chan ch.val).bus ≠ .receiving →
      (s.chan ch.val).bus ≠ .integration →
      exec (.busIdle ch) s = .next (fcSettle (switchIdle ch.val (switchLate ch.val
        ((enterIntermission ch.val .idle s).modChan ch.val fun c => { c with wasTx := false })))))
  ∧ (∀ (c ch : Fin 64) (a : Armed) (s : State), (s.ctx c.val).armed = some a → a.when_ = 2 → a.channels.contains ch.val = true →
      let u := reachClk a.limitAt s
      (busIdleNow u ch.val = true → exec (.idleLimitExpiry c ch) s = .next (fcSettle (switchChan c.val ch.val false u)))
      ∧ (busIdleNow u ch.val = false → (a.late.any fun n => n % 64 == ch.val) = false →
        exec (.idleLimitExpiry c ch) s = .next (fcSettle (u.modCtx c.val fun x =>
          { x with armed := x.armed.map fun a => { a with late := a.late ++ [ch.val] } }))))

/-- A bus error is counted by class, moves TEC and REC by the table's row, opens one error event, and a filmstrip drain ends.
R254, R255, R256, R268, R269, R271, R197, R201, R273, R275. -/
def Obligations.BusErrorsFollowTheTable : Prop :=
  (∀ (ch : Fin 64) (code : ErrCode) (field : FieldCode) (ed : Bool) (row : ErrRow) (acked : Bool) (bytes : Fin 2049) (tdcv : Option (Fin 128))
      (edges : List (Nat × Nat)) (s : State),
      let u := if field = .errOvl ∨ field = .interSuspend then s else frameStarts ch.val s
      let d := startForError ch.val field edges (driveForError ch.val field u)
      let c := d.chan ch.val
      let t := fcSettle (busError ch.val code field ed row acked bytes.val tdcv d)
      (errorFits code field ed row c d = true → exec (.busErrorDetected ch code field ed row acked bytes tdcv edges) s = .next t)
      ∧ (errorFits code field ed row c d = true → c.held = none →
          (countsErrors c.mode = true → code = .none ∨ receivedBefore c code field acked = false →
              (t.chan ch.val).tec = (rowChange row (asTransmitter c) c).tec ∧ (t.chan ch.val).recErr = (rowChange row (asTransmitter c) c).recErr)
          ∧ (countsErrors c.mode = true → code ≠ .none → receivedBefore c code field acked = true →
              (t.chan ch.val).tec = c.tec ∧ (t.chan ch.val).recErr = (rowChange row false (recSuccess c)).recErr)
          ∧ (countsErrors c.mode = false → (t.chan ch.val).tec = c.tec ∧ (t.chan ch.val).recErr = c.recErr)
          ∧ (code ≠ .none → (t.chan ch.val).counters.errEvents = (if c.stretch || c.mode == 3 then c.counters.errEvents else inc32 c.counters.errEvents)
              ∧ (t.chan ch.val).lastErr = code ∧ (t.chan ch.val).lastField = field)
          ∧ (code = .crc → (t.chan ch.val).counters.crcErr = inc32 c.counters.crcErr)
          ∧ (code = .stuff → (t.chan ch.val).counters.stuffErr = inc32 c.counters.stuffErr)
          ∧ (code = .bit → (t.chan ch.val).counters.bitErr = inc32 c.counters.bitErr)
          ∧ (code = .form → (t.chan ch.val).counters.formErr = inc32 c.counters.formErr)
          ∧ (code = .ack → (t.chan ch.val).counters.ackErr = inc32 c.counters.ackErr)
          ∧ (code = .tdc → (t.chan ch.val).counters.tdcFail = inc32 c.counters.tdcFail))
      ∧ ((u.chan ch.val).state = .running → c.mode = 4 → (u.chan ch.val).bus ≠ .integration → code = .ack →
          exec (.busErrorDetected ch code field ed row acked bytes tdcv edges) s = .next (fcSettle u))
      ∧ ((u.chan ch.val).state = .integrating ∨ (u.chan ch.val).state = .exception →
          exec (.busErrorDetected ch code field ed row acked bytes tdcv edges) s = .next (fcSettle (errorEvent ch.val u))))
  ∧ (∀ (tx : Bool) (c : Chan),
      (rowChange .detected tx c).tec = (if tx then c.tec + 8 else c.tec) ∧ (rowChange .detected tx c).recErr = (if tx then c.recErr else min 255 (c.recErr + 1))
      ∧ (∀ row, row = .flagBit ∨ row = .dominantRun →
          (rowChange row tx c).tec = (if tx then c.tec + 8 else c.tec) ∧ (rowChange row tx c).recErr = (if tx then c.recErr else min 255 (c.recErr + 8)))
      ∧ (rowChange .dominantAfterFlag tx c).tec = c.tec
      ∧ (rowChange .dominantAfterFlag tx c).recErr = (if tx then c.recErr else min 255 (c.recErr + 8))
      ∧ rowChange .quietAck tx c = c ∧ rowChange .recessiveStuff tx c = c
      ∧ (tecSuccess c).tec = c.tec - 1 ∧ (tecSuccess c).recErr = c.recErr
      ∧ (recSuccess c).tec = c.tec ∧ (recSuccess c).recErr = (if c.recErr > 127 then 127 else c.recErr - 1))
  ∧ (∀ (c : Chan) (n : Nat), (addRec n c).recErr ≤ 255 ∧ (addRec n c).tec = c.tec ∧ (addTec n c).tec = c.tec + n ∧ (addTec n c).recErr = c.recErr)
  ∧ (∀ (ch : Fin 64) (s : State), onBus (s.chan ch.val) = true → (s.chan ch.val).mode ≠ 3 → sendingNow (s.chan ch.val) = false →
      exec (.overloadFrameSeen ch) s = .next (fcSettle ((endErrorFrame ch.val (filmRecord ch.val 5 0 0 (stampNow s) s)).modChan ch.val fun c =>
        if quiet c && c.bus != .integration then { c with bus := .errorFrame } else c)))
  ∧ (∀ (ch : Fin 64) (edges : List (Nat × Nat)) (s : State),
      let u := endErrorFrame ch.val (frameStarts ch.val s)
      onBus (u.chan ch.val) = true → (u.chan ch.val).bus ≠ .integration → (u.chan ch.val).mode = 1 → (u.chan ch.val).cur.xcvr.fast = true →
      let x := (if edges = [] then u else foreignStart ch.val edges u).modChan ch.val fun c =>
        { c with counters := { c.counters with fastLost := inc32 c.counters.fastLost } }
      exec (.fastFrameLost ch edges) s = .next (fcSettle (leaveBus ch.val .integration
        (if (x.chan ch.val).rx = none then modStat (.chq, ch.val) (fun t => { t with rewinds := inc32 t.rewinds }) x else x))))
  ∧ (∀ (ch : Fin 64) (edges : List (Nat × Nat)) (s : State),
      let u := endErrorFrame ch.val (frameStarts ch.val s)
      (u.chan ch.val).state = .running → (u.chan ch.val).bus ≠ .integration → (u.chan ch.val).cur.options.testBit 0 = true →
      (u.chan ch.val).mode ≠ 3 → sendingNow (u.chan ch.val) = false →
      exec (.protocolException ch edges) s = .next (fcSettle (enterState ch.val .exception (leaveBus ch.val .integration
        ((if edges = [] then u else foreignStart ch.val edges u).modChan ch.val fun c =>
          { c with counters := { c.counters with pexCount := inc32 c.counters.pexCount } })))))
  ∧ (∀ s : State, s.film.frozen = true →
      let d := filmDrainAll s.film.records.length s
      exec .filmstripDrainEnd s = .next (fcSettle { raiseEvent 0 0x0406 (le 4 d.film.delivered ++ le 4 d.film.ignored) d with
        film := { records := [], frozen := false, delivered := 0, ignored := 0 } }))

/-- Objects are allocated, configured and freed through the latent set, and READ_MO answers descriptor, record and payload. R281,
R282, R285, R297, R302, R303, R304, R305, R306, R300. -/
def Obligations.MessageObjectsComplete : Prop :=
  (∀ (p : Packet) (s t : State) (mo base : Nat), Accepts specAllocMo p s →
      let u := taken p s
      let w := fieldAt p.params 0 2
      let tx := byteAt p.params 2 == 1
      let f := byteAt p.params 3
      let len := fieldAt p.params 4 2
      let max := if tx then len else rxMaxlen f
      let x := stageCtx p
      (bitOf w 14 || (bitOf w 15 && w % 0x4000 != 0)) = false → byteAt p.params 2 ≤ 1 → fmtsOk tx f = true →
      (if tx then txMaxlenOk f len = true else len = 0) → zeroAt p.params 6 2 = true → (bitOf w 15 = true ∨ moTaken u (w % 0x4000) = false) →
      objectUse u x + 1 ≤ quotaOf u x 1 → cellUse u x + 2 * bufCells max ≤ quotaOf u x 2 → moPick u (bitOf w 15) (w % 0x4000) = some mo →
      placeRun u.pool x (2 * bufCells max) (usedRuns u) = some base →
      let b := le 2 mo ++ le 1 (bufCells max) ++ zeros 1 ++ le 4 base
      Stages p [.alloc mo tx f max (bufCells max) base] b s t →
      exec (.allocMo p) s = .next (answered specAllocMo p 0 0x800000 b t))
  ∧ (∀ (p : Packet) (s t : State) (ch : Nat) (o : Mo), Accepts specConfigMo p s →
      let u := taken p s
      let mo := fieldAt p.params 0 2
      let flags := byteAt p.params 3
      let ident := fieldAt p.params 4 4
      let af := fieldAt p.params 8 4
      mo < 0x4000 → byteAt p.params 2 < 64 → srcChan s p.source (byteAt p.params 2) = some ch → (stagedFor p u).mo? mo = some o →
      flagsReserved o flags = false → ident &&& moIdentBits o flags = ident → (af = 0 ∨ (o.tx = true ∧ moFormat o = .xl)) →
      o.owner = stageCtx p → o.freeing = false → configMoFault u (stagedFor p u) (stageCtx p) mo ch flags o = none →
      Stages p [.config mo ch flags ident af] [] s t →
      exec (.configMo p) s = .next (answered specConfigMo p 0 0x800000 [] t))
  ∧ (∀ (p : Packet) (s t : State) (o : Mo), Accepts specFreeMo p s →
      let u := taken p s
      let mo := fieldAt p.params 0 2
      mo < 0x4000 → zeroAt p.params 2 2 = true → (stagedFor p u).mo? mo = some o → o.owner = stageCtx p → o.freeing = false →
      moNamed u (stagedFor p u) mo = false → moStreamed u (stagedFor p u) mo = false →
      heldNeedsMo u o = false → Stages p [.free mo] [] s t →
      exec (.freeMo p) s = .next (answered specFreeMo p 0 0x800000 [] t))
  ∧ (∀ (p : Packet) (found : Option Nat) (s : State) (o : Mo), Accepts specReadMo p s →
      let u := taken p s
      let mo := fieldAt p.params 0 2
      let off := fieldAt p.params 2 2
      mo < 0x4000 → off % 4 = 0 → off ≤ 2044 → zeroAt p.params 4 4 = true → s.mo? mo = some o →
      let bad := readMoBad o off found
      let t := readMoLeaves mo o bad u
      (bad = none ∨ o.tx = true → exec (.readMo p found) s = .next (answered specReadMo p 0 0 (readMoBody u ((guestOf p.source).getD 0) mo off o) t))
      ∧ (∀ x, bad = some x → o.tx = false → exec (.readMo p found) s = .next (answered specReadMo p 0x30 x [] t)))

/-- Filter entries are written, cleared, read and counted; queues and watermarks are configured and read. R308, R313, R323, R324,
R326, R327, R328, R337, R351, R352, R353. -/
def Obligations.FiltersAndQueuesComplete : Prop :=
  (∀ (p : Packet) (s t : State) (ch n : Nat), Accepts specWriteFilter p s →
      let u := taken p s
      let e := fieldAt p.params 0 2
      let any_ := byteAt p.params 2 == 1
      let w0 := fieldAt p.params 4 4
      let w3 := fieldAt p.params 16 4
      let f := filterOf w0 (fieldAt p.params 8 4) (fieldAt p.params 12 4) w3 ch (stageCtx p)
      srcChan s p.source (bitsOf w0 20 6) = some ch → (any_ = true → e = 0) → byteAt p.params 2 ≤ 1 → zeroAt p.params 3 1 = true →
      badWord0 w0 f = false → badValue f = false → (f.typ = typExact ∨ f.typ = typHashed → f.mask = 0) → badWord3 w3 f = false →
      (if any_ then firstBelow 65536 (fun n => (mget (placedEntries u) n).isNone) else some e) = some n →
      (∀ o, mget (placedEntries u) n = some o → o.owner = stageCtx p) → writeFilterFault u (stagedFor p u) n f = none →
      (mget (placedEntries u) n = none → filterUse u (stageCtx p) + 1 ≤ quotaOf u (stageCtx p) 3) →
      Stages p [.filter n f] (writeFilterBody u n f) s t →
      exec (.writeFilter p) s = .next (answered specWriteFilter p 0 0x800000 (writeFilterBody u n f) t))
  ∧ (∀ (p : Packet) (s t : State), Accepts specClearFilter p s →
      let u := taken p s
      let mine := ((placedEntries u).filter fun e => inRange p e.1 && e.2.owner == stageCtx p).map (·.1)
      1 ≤ fieldAt p.params 2 2 → fieldAt p.params 2 2 ≤ 4096 → fieldAt p.params 0 2 + fieldAt p.params 2 2 ≤ 0x10000 → mine ≠ [] →
      Stages p (mine.map .clearFilter) (le 2 mine.length ++ zeros 2) s t →
      exec (.clearFilter p) s = .next (answered specClearFilter p 0 0x800000 (le 2 mine.length ++ zeros 2) t))
  ∧ (∀ (p : Packet) (s : State) (f : Filter), Accepts specReadFilter p s → zeroAt p.params 2 2 = true →
      mget s.filters.entries (fieldAt p.params 0 2) = some f →
      exec (.readFilter p) s = .next (answered specReadFilter p 0 0
        (filterBytes s.filters (fieldAt p.params 0 2) f (virtChan s ((guestOf p.source).getD 0) f.channel)) (taken p s)))
  ∧ (∀ (p : Packet) (s : State) (ch : Nat), Accepts specGetFilterStats p s → byteAt p.params 0 < 64 → byteAt p.params 1 < 64 →
      srcChan s p.source (byteAt p.params 0) = some ch → zeroAt p.params 2 2 = true →
      let x := byteAt p.params 1
      let u := taken p s
      let c := (u.chan ch).filters
      let k := pairOf s.filters x ch
      let used := ((placedEntries u).filter fun e => e.2.channel == ch && e.2.typ != typHashed).length
      let mine := (s.filters.entries.filter fun e => e.2.channel == ch && e.2.owner == x).length
      exec (.getFilterStats p) s = .next (answered specGetFilterStats p 0 0 (le 4 c.judged ++ le 4 c.noMatch ++ le 4 k.matched ++ le 4 k.disDrop
        ++ le 2 k.lastDrop ++ le 2 used ++ le 2 (hashOn s.filters ch).length ++ le 2 mine ++ le 4 c.decisionMax ++ le 8 (stampNow s) ++ zeros 12)
        (taken p s)))
  ∧ (∀ (p : Packet) (s t : State), Accepts specConfigQueue p s → configQueueBad p = none →
      let u := taken p s
      let x := byteAt p.params 0
      let d : Depths := { places := byteAt p.params 1, evt := fieldAt p.params 4 2, tx := fieldAt p.params 6 2, rx := fieldAt p.params 8 2 }
      let region := if (guestOf p.source).isSome then none else some (fieldAt p.params 2 2)
      let c := Change.queue x region d ((List.range 16).map (shareField p))
      let v := writeDown (stageCtx p) (stagedFor p u) c
      let b := le 2 (regionOf v x) ++ le 2 (regionOf v x - countedCells v x)
      queueFault v x = none → (removesRegion p = true → (s.ctx x).state = .absent) → Stages p [c] b s t →
      exec (.configQueue p) s = .next (answered specConfigQueue p 0 0x800000 b t))
  ∧ (∀ (p : Packet) (s t : State) (q : QKind × Nat), Accepts specSetWatermark p s → byteAt p.params 0 < 8 → zeroAt p.params 1 1 = true →
      fieldAt p.params 2 2 ≠ 0xFFFF → qidOf (fieldAt p.params 2 2) = some q → fieldAt p.params 6 2 < fieldAt p.params 4 2 →
      fieldAt p.params 4 2 ≤ qDepth (taken p s) q → qDepth (taken p s) q ≠ 0 →
      Stages p [.watermark (byteAt p.params 0) (some (fieldAt p.params 2 2)) (fieldAt p.params 4 2) (fieldAt p.params 6 2)] [] s t →
      exec (.setWatermark p) s = .next (answered specSetWatermark p 0 0x800000 [] t))
  ∧ (∀ (p : Packet) (s t : State), Accepts specSetWatermark p s → byteAt p.params 0 < 8 → zeroAt p.params 1 1 = true →
      fieldAt p.params 2 2 = 0xFFFF → fieldAt p.params 4 2 = 0 → fieldAt p.params 6 2 = 0 →
      Stages p [.watermark (byteAt p.params 0) none 0 0] [] s t →
      exec (.setWatermark p) s = .next (answered specSetWatermark p 0 0x800000 [] t))
  ∧ (∀ (p : Packet) (s : State) (q : QKind × Nat), Accepts specGetQueueStatus p s → qidOf (fieldAt p.params 0 2) = some q → zeroAt p.params 2 2 = true →
      exec (.getQueueStatus p) s = .next (answered specGetQueueStatus p 0 0 (queueRecord (taken p s) (fieldAt p.params 0 2) q) (taken p s)))

/-- What one context's filter entries deliver does not depend on another context's entries. R316. -/
def Obligations.ContextsJudgeFramesApart : Prop :=
  ∀ (st : FilterStore) (ch : Nat) (h : Hdr),
    (∀ x : Nat, takeMatches ch h (candidates { st with entries := st.entries.map fun e =>
        (e.1, if e.2.owner = x then e.2 else { e.2 with errDis := true }) } ch h x) = takeMatches ch h (candidates st ch h x))
    ∧ (∀ m : Nat, (∃ f, Dest.object m f ∈ (filterFrame st ch h).1) ↔
        ∃ x < 64, ∃ e ∈ takeMatches ch h (candidates st ch h x), e.2.toMo = true ∧ e.2.mo = m)
    ∧ (∀ c k : Nat, (∃ f, Dest.ring c k f ∈ (filterFrame st ch h).1) ↔
        c < 64 ∧ ∃ e ∈ takeMatches ch h (candidates st ch h c), e.2.toRing = true ∧ e.2.ring = k)
    ∧ (∀ d : Nat, Dest.route d ∈ (filterFrame st ch h).1 ↔
        ∃ x < 64, ∃ e ∈ takeMatches ch h (candidates st ch h x), e.2.toRoute = true ∧ e.2.pdu = d)
    ∧ (∀ x : Nat, x ∈ (filterFrame st ch h).2 ↔ x < 64 ∧ takeMatches ch h (candidates st ch h x) ≠ [])

/-- A TIME cycle advances the time base as the spec's loop does, and n cycles at once are n single cycles. R354. -/
def Obligations.TheTimeBaseCounts : Prop :=
  (∀ t : TimeBase, t.frac < 2 ^ 32 → -2147483 ≤ t.rate → t.rate ≤ 2147483 →
      let acc := (t.frac + 2 ^ 32 + t.rate : Int).toNat
      countCycles 1 t = { t with time := (t.time + acc / 2 ^ 32) % 2 ^ 64, frac := acc % 2 ^ 32 }
      ∧ acc / 2 ^ 32 ≤ 2 ∧ acc % 2 ^ 32 < 2 ^ 32
      ∧ ∀ n : Nat, t.time < 2 ^ 64 → countCycles n t = Nat.repeat (countCycles 1) n t)
  ∧ State.reset.time.time = 0 ∧ State.reset.time.frac = 0 ∧ State.reset.time.rate = 0
  ∧ (∀ (n : Nat) (s : State), s.isReady 5 = false → (passCycles n s).time = { s.time with clk := s.time.clk + n })

/-- Time is read, rates and steps are applied, PPS edges are captured and driven. R359, R360, R361, R375, R376, R380, R381, R382. -/
def Obligations.TimeCommandsComplete : Prop :=
  (∀ (p : Packet) (s : State), Accepts specGetTime p s → bitOf (fieldAt p.params 0 2) 14 = false →
      (bitOf (fieldAt p.params 0 2) 15 = true ∨ fieldAt p.params 0 2 = 0) → zeroAt p.params 2 2 = true →
      let u := taken p s
      exec (.getTime p) s = .next (answered specGetTime p 0 0 (le 8 s.now ++ le 4 (unsignedOf 32 s.time.rate) ++ le 4 (unsignedOf 32 s.time.baseRate)
        ++ le 4 (slewLeft s.time) ++ le 1 (timeFlags u) ++ zeros 3 ++ le 8 s.time.lastPps ++ le 8 s.time.lastStep
        ++ (if bitOf (fieldAt p.params 0 2) 15 then scheduleBytes u (fieldAt p.params 0 2 % 0x4000) else zeros 48)) u))
  ∧ (∀ (p : Packet) (s : State), Accepts specAdjustRate p s →
      let u := taken p s
      let r := signedOf 32 (fieldAt p.params 0 4)
      let ms := fieldAt p.params 4 4
      (-2147483 ≤ r) → r ≤ 2147483 → ms ≤ 3600000 → s.isMaster = true →
      exec (.adjustRate p) s = .next (answered specAdjustRate p 0 0 (le 8 (stampNow s) ++ le 4 (unsignedOf 32 s.time.rate))
        { u with time := if ms = 0 then { s.time with rate := r, baseRate := r, slewEnd := none }
                         else { s.time with rate := r, slewEnd := some (s.time.clk + ms * 1000000) } }))
  ∧ (∀ (p : Packet) (s : State), Accepts specStepTime p s → zeroAt p.params 1 7 = true → s.isMaster = true →
      let u := taken p s
      let raw := fieldAt p.params 8 8
      let v := (s.now : Int) + signedOf 64 raw
      (byteAt p.params 0 = 0 → 1 ≤ v → v < 2 ^ 63 →
        exec (.stepTime p) s = .next (answered specStepTime p 0 0 (le 8 v.toNat ++ le 8 s.now) (masterStep v.toNat 1 u)))
      ∧ (byteAt p.params 0 = 1 → s.time.pps.capture = true → exec (.stepTime p) s = .next (answered specStepTime p 0 0 (zeros 16)
          { u with time := { s.time with armed := some { value := raw, lapses := s.time.clk + 2000000000 } } }))
      ∧ (byteAt p.params 0 = 2 → raw = 0 → s.time.armed.isSome = true →
        exec (.stepTime p) s = .next (answered specStepTime p 0 0 (zeros 16) { u with time := { s.time with armed := none } })))
  ∧ (∀ (e : Nat) (s : State), s.time.slewEnd = some e →
      let t := reachClk e s
      exec .slewEnd s = .next (fcSettle (raiseEvent 0 0x0805 (le 4 (unsignedOf 32 t.time.baseRate))
        { t with time := { t.time with rate := t.time.baseRate, slewEnd := none } })))
  ∧ (∀ s : State, s.time.pps.capture = true → timeRuns s = true →
      let a := { s with time := { s.time with lastPps := stampNow s } }
      let b := captureEdge 0x10 1 (stampNow s) (if s.time.pps.event then raiseEvent 0 0x0803 (le 8 (stampNow s)) a else a)
      (s.time.armed = none → exec .ppsInCapture s = .next (fcSettle b))
      ∧ (∀ x, s.time.armed = some x → s.time.clk < x.lapses → exec .ppsInCapture s = .next (fcSettle (applyArmed (stampNow s) x b)))
      ∧ (∀ x, s.time.armed = some x → x.lapses ≤ s.time.clk → exec .ppsInCapture s = .next (fcSettle (endArmed 3 b))))
  ∧ (∀ (x : PpsStep) (s : State), s.time.armed = some x → exec .ppsStepLapse s = .next (fcSettle (endArmed 3 (reachClk x.lapses s))))
  ∧ (∀ s : State, s.time.pps.outEn = true → s.time.ppsOut = false → timeRuns s = true →
      let v := nextPpsRise s.time
      let t := reachTime v s
      exec .ppsOutRise s = .next (fcSettle { t with time := { t.time with ppsOut := true, ppsFall := v + t.time.pps.width * 1000000, ppsLast := some v } }))
  ∧ (∀ s : State, s.time.ppsOut = true →
      let t := reachTime s.time.ppsFall s
      exec .ppsOutFall s = .next (fcSettle { t with time := { t.time with ppsOut := false } }))
  ∧ (∀ (p : Pps) (v : Nat), p.offset < p.period → v ≤ ppsRiseAt p v ∧ ppsRiseAt p v % p.period = p.offset
      ∧ ∀ w, v ≤ w → w % p.period = p.offset → ppsRiseAt p v ≤ w)
  ∧ (∀ b : TimeBase, (b.ppsLast = none → nextPpsRise b = ppsRiseAt b.pps b.time)
      ∧ ∀ v, b.ppsLast = some v → nextPpsRise b = ppsRiseAt b.pps (max b.time (v + 1)))

/-- Schedules, triggers and PPS are staged; arm points, notices, instants and firings are served. R364, R367, R368, R369, R370,
R371, R374, R377, R378, R383, R384, R385. The model's own choice: log entry 30. -/
def Obligations.ShuttersAndTriggersComplete : Prop :=
  (∀ (p : Packet) (s t : State) (o : Mo), Accepts specSetShutter p s →
      let u := taken p s
      let mo := fieldAt p.params 0 2
      let first := fieldAt p.params 4 8
      let period := fieldAt p.params 12 8
      mo < 0x4000 → zeroAt p.params 2 2 = true → (period = 0 ∨ (50000 ≤ period ∧ period ≤ 2 ^ 40 - 1)) →
      ownTxMo (stagedFor p u) (stageCtx p) mo = some o → s.now + 50000 ≤ first → shutterFull u (stagedFor p u) mo o.channel = false →
      Stages p [.shutter mo first period] [] s t → exec (.setShutter p) s = .next (answered specSetShutter p 0 0x800000 [] t))
  ∧ (∀ (p : Packet) (s t : State) (o : Mo), Accepts specClearShutter p s →
      let u := taken p s
      let mo := fieldAt p.params 0 2
      mo < 0x4000 → zeroAt p.params 2 2 = true → ownTxMo (stagedFor p u) (stageCtx p) mo = some o → Stages p [.clearShutter mo] [] s t →
      exec (.clearShutter p) s = .next (if (scheduleOf (stagedFor p u) mo).isNone then answered specClearShutter p 0 0 [] u
        else answered specClearShutter p 0 0x800000 [] t))
  ∧ (∀ (p : Packet) (s t : State), Accepts specSetTrigger p s →
      let u := taken p s
      let x : TriggerSet := { source := byteAt p.params 1, edge := byteAt p.params 2, dest := byteAt p.params 3, pin := byteAt p.params 4
                              width := if fieldAt p.params 6 2 = 0 then 10 else fieldAt p.params 6 2, instant := fieldAt p.params 8 8
                              period := fieldAt p.params 16 8
                              delay := if pinSource (byteAt p.params 1) && fieldAt p.params 24 4 = 0 then 50 else fieldAt p.params 24 4 }
      let d := fieldAt p.params 24 4
      byteAt p.params 0 < 8 → x.dest < 8 → (x.dest = 0 ↔ x.source = 0) → x.pin < 8 → (x.dest.testBit 0 = true ∨ x.pin = 0) → zeroAt p.params 5 1 = true → zeroAt p.params 28 4 = true →
      ((pinSource x.source = true ∧ 1 ≤ x.edge ∧ x.edge ≤ 3 ∧ x.instant = 0 ∧ x.period = 0 ∧ (d = 0 ∨ (50 ≤ d ∧ d ≤ 1000000000)))
        ∨ (x.source = 0x20 ∧ x.edge = 0 ∧ d = 0 ∧ (x.period = 0 ∨ (1000 ≤ x.period ∧ x.period ≤ 2 ^ 40 - 1)) ∧ s.now + 50000 ≤ x.instant)
        ∨ (x.source = 0 ∧ x.edge = 0 ∧ x.instant = 0 ∧ x.period = 0 ∧ d = 0)) →
      (x.dest.testBit 0 = true → pinTaken (stagedFor p u) (byteAt p.params 0) x.pin = false) →
      Stages p [.trigger (byteAt p.params 0) x] [] s t → exec (.setTrigger p) s = .next (answered specSetTrigger p 0 0x800000 [] t))
  ∧ (∀ (p : Packet) (s t : State), Accepts specSetPps p s →
      let w := if fieldAt p.params 2 2 = 0 then 100 else fieldAt p.params 2 2
      let per := if fieldAt p.params 8 8 = 0 then 1000000000 else fieldAt p.params 8 8
      byteAt p.params 0 < 4 → byteAt p.params 1 < 2 → w ≤ 999 → w * 1000000 < per → zeroAt p.params 4 4 = true → 1000000 ≤ per →
      per ≤ 2 ^ 40 - 1 → fieldAt p.params 16 8 < per →
      Stages p [.pps { capture := bitOf (byteAt p.params 0) 0, event := bitOf (byteAt p.params 0) 1, outEn := bitOf (byteAt p.params 1) 0
                       width := w, period := per, offset := fieldAt p.params 16 8 }] [] s t →
      exec (.setPps p) s = .next (answered specSetPps p 0 0x800000 [] t))
  ∧ (∀ (mo : Fin 16384) (x : Schedule) (o : Mo) (s : State), liveSchedule s mo.val = some (x, o) →
      exec (.shutterArmPoint mo) s = .next (fcSettle (armPoint mo.val (reachTime (x.next - 2000) s)))
      ∧ exec (.releaseNotice mo false) s = .next (fcSettle (releaseNotice o.channel x.next (armPoint mo.val (reachTime (x.next - 100) s))))
      ∧ exec (.releaseNotice mo true) s = .next (fcSettle (parityDrop 13 (armPoint mo.val (reachTime (x.next - 100) s))))
      ∧ exec (.shutterInstant mo) s = .next (fcSettle (instantEnds mo.val (reachTime x.next (armPoint mo.val s))))
      ∧ (x.pointDone = false → o.full = false → armPoint mo.val s
          = modSchedule mo.val (fun x => { x with pointDone := true, framed := false, empty := inc32 x.empty }) s)
      ∧ (x.pointDone = false → o.full = true → o.inHeap = true → armPoint mo.val s
          = modSchedule mo.val (fun x => { x with pointDone := true, framed := false, overrun := inc32 x.overrun }) s)
      ∧ (x.pointDone = false → o.full = true → o.inHeap = false → streamOf s mo.val = none → ∃ t, armPoint mo.val s = t
          ∧ t = (modSchedule mo.val (fun x => { x with pointDone := true, framed := true }) s).modMo mo.val fun o =>
              { o with inHeap := true, armed := some x.next, noticed := false }))
  ∧ (∀ (b : Fin 8) (r : Bool) (s : State), timeRuns s = true →
      exec (.trigioEdge b r) s = .next (fcSettle (captureEdge (b.val + 1) (if r then 1 else 2) (stampNow s) s)))
  ∧ (∀ (n : Fin 8) (s : State), (s.trigger n.val).set.source = 0x20 → (s.trigger n.val).next ≠ 0 → timeRuns s = true →
      let v := (s.trigger n.val).next
      let p := (s.trigger n.val).set.period
      exec (.triggerFire n) s = .next (fcSettle ((fireTrigger n.val v (reachTime v s)).modTrigger n.val fun x =>
        { x with next := if p = 0 then 0 else v + p })))
  ∧ (∀ (n : Fin 8) (e : Nat) (l : List Nat) (s : State), (s.trigger n.val).set.source ≠ 0x20 → (s.trigger n.val).edges = e :: l →
      exec (.triggerFire n) s = .next (fcSettle (fireTrigger n.val e ((reachTime (e + (s.trigger n.val).set.delay) s).modTrigger n.val fun x =>
        { x with edges := l }))))
  ∧ (∀ (n : Fin 8) (e : Nat) (s : State), (s.trigger n.val).set.dest.testBit 0 = true → tget s.pulses (s.trigger n.val).set.pin none = some e →
      let t := reachClk e s
      exec (.triggerPulseEnd n) s = .next (fcSettle { t with pulses := tmod t.pulses (s.trigger n.val).set.pin fun _ => none }))

/-- Streams, foreign declarations, withdrawals, fault budgets and routes that pass their checks are staged. R390, R391, R392,
R393, R394, R400, R404, R407, R408, R424, R425, R426. The model's own choice: log entry 4, log entries 22, 31, 41. -/
def Obligations.DeclarationsAreStaged : Prop :=
  (∀ (p : Packet) (s t : State) (n : Nat) (o : Mo), Accepts specDeclareStream p s →
      let u := taken p s
      let v := stagedFor p u
      let x := stageCtx p
      let w := fieldAt p.params 0 2
      let crit := byteAt p.params 2
      let feed := byteAt p.params 3
      let mo := fieldAt p.params 4 2
      let period := fieldAt p.params 8 4
      let jitter := fieldAt p.params 12 4
      let deadline := fieldAt p.params 16 4
      let d₀ : Decl := { foreign := false, ctx := x, channel := o.channel, hdr := moHdr o, feed := feed, mo := mo, crit := crit, period := period
                         jitter := jitter, deadline := deadline, minlen := o.maxlen, maxlen := o.maxlen }
      let d := { d₀ with period := if feed = 2 then feedPeriod v d₀ else period }
      let body := le 2 n ++ advisory u (writeDown x v (.declare n d p.source)) n d
      (bitOf w 15 = false ∨ w % 0x8000 = 0) → crit ≤ 3 → feed ≤ 2 → mo < 0x4000 → zeroAt p.params 6 2 = true →
      (if feed = 2 then period = 0 ∧ jitter = 0 else periodBad period = false ∧ jitter < period) → deadline ≠ 0 → zeroAt p.params 20 4 = true →
      recordPick u w = some n → ownTxMo v x mo = some o → kindClash u (some n) false = false → feedFits v mo feed o = true →
      ((allDecls v).any fun d => !d.2.1.foreign && d.2.1.mo == mo && d.1 != n) = false → crit ≤ (u.ctx x).crit → declareFault v n d = none →
      (((recordClaims u).any fun r => r.1 == n) = false → recordUse u x + 1 ≤ quotaOf u x 4) →
      (x ≠ 0 ∨ s.bundle = none) → stage p [.declare n d p.source] (drawn 2 u) body = .reply t 0x00 0x800000 body →
      exec (.declareStream p) s = .next (match mget u.records n with
        | some r => if r.stopping then answered specDeclareStream p 0x01 5 body t else answered specDeclareStream p 0 0x800000 body t
        | none => answered specDeclareStream p 0 0x800000 body t))
  ∧ (∀ (p : Packet) (s t : State) (n ch : Nat), Accepts specDeclareForeign p s →
      let u := taken p s
      let v := stagedFor p u
      let x := stageCtx p
      let w := fieldAt p.params 0 2
      let fb := byteAt p.params 3
      let h := foreignHdr fb (fieldAt p.params 4 4)
      let d : Decl := { foreign := true, ctx := x, channel := ch, hdr := h, feed := 0, mo := 0, crit := 0, period := fieldAt p.params 12 4
                        jitter := fieldAt p.params 16 4, deadline := fieldAt p.params 20 4, minlen := fieldAt p.params 10 2
                        maxlen := fieldAt p.params 8 2 }
      let body := le 2 n ++ advisory u (writeDown x v (.declare n d p.source)) n d
      (bitOf w 15 = false ∨ w % 0x8000 = 0) → byteAt p.params 2 < 64 → srcChan s p.source (byteAt p.params 2) = some ch → foreignFmtBad fb = false →
      fieldAt p.params 4 4 &&& identBits (2 ^ (fb % 4)) (flag h.ide 1) = fieldAt p.params 4 4 → lenOk h.fmt d.maxlen = true → lenOk h.fmt d.minlen = true →
      d.minlen ≤ d.maxlen → periodBad d.period = false → d.jitter < d.period →
      recordPick u w = some n → kindClash u (some n) true = false → declareFault v n d = none →
      (((recordClaims u).any fun r => r.1 == n) = false → recordUse u x + 1 ≤ quotaOf u x 4) →
      (x ≠ 0 ∨ s.bundle = none) → stage p [.declare n d p.source] (drawn 2 u) body = .reply t 0x00 0x800000 body →
      exec (.declareForeign p) s = .next (match mget u.records n with
        | some r => if r.stopping then answered specDeclareForeign p 0x01 5 body t else answered specDeclareForeign p 0 0x800000 body t
        | none => answered specDeclareForeign p 0 0x800000 body t))
  ∧ (∀ (p : Packet) (s t : State), Accepts specWithdrawStream p s →
      let u := taken p s
      let n := fieldAt p.params 0 2
      let v := stagedFor p u
      n < 0x8000 → zeroAt p.params 2 2 = true → (mget u.records n ≠ none ∨ mget v.records n ≠ none) → routeNames u n = false → routeNames v n = false → routeWaits u n = false → registeredHere u n = false →
      ((∀ r, mget u.records n = some r → r.stopping = false) → Stages p [.withdraw n p.source] [] s t →
        exec (.withdrawStream p) s = .next (answered specWithdrawStream p 0 0x800000 [] t))
      ∧ (∀ r, mget u.records n = some r → r.stopping = true → (stageCtx p ≠ 0 ∨ s.bundle = none) →
        exec (.withdrawStream p) s = .next (answered specWithdrawStream p 0 0 []
          (if r.held.isSome || stagedDecl u (stageCtx p) n then
            streamBathEvent 0x09F2 n p.source (dropDecl (stageCtx p) n (modRec n (fun r => { r with held := none }) u)) else u))))
  ∧ (∀ (p : Packet) (s t : State) (ch : Nat), Accepts specSetFaultBudget p s → byteAt p.params 0 < 64 → srcChan s p.source (byteAt p.params 0) = some ch →
      zeroAt p.params 1 1 = true → fieldAt p.params 2 2 ≤ 255 → 1000 ≤ fieldAt p.params 4 4 → fieldAt p.params 4 4 ≤ 3600000000 →
      Stages p [.budget ch (fieldAt p.params 2 2) (fieldAt p.params 4 4)] [] s t →
      exec (.setFaultBudget p) s = .next (answered specSetFaultBudget p 0 0x800000 [] t))
  ∧ (∀ (p : Packet) (s t : State), Accepts specAdmitRoute p s →
      let u := taken p s
      let v := stagedFor p u
      let o := fieldAt p.params 2 2
      let r : RouteRec := { inRec := fieldAt p.params 0 2, outRec := o, inPos := byteAt p.params 4, deadline := fieldAt p.params 8 4 }
      let open_ := (List.range 4).flatMap fun k => le 4 (freeAt u k)
      let body := if r.deadline = 0 then open_ else
        match (analyse (writeDown (stageCtx p) v (.route r)) (outChan (writeDown (stageCtx p) v (.route r)) o)).bind fun a => a.routes.lookup o with
        | some f => le 4 f.1 ++ le 4 f.2.1 ++ le 4 f.2.2.1 ++ le 4 f.2.2.2
        | none => open_
      r.inRec < 0x8000 → o < 0x8000 → r.inPos < 8 → zeroAt p.params 5 3 = true →
      (if r.deadline = 0 then (∃ q, mget v.routes o = some q ∧ q.inRec = r.inRec ∧ q.inPos = r.inPos) ∨ (inForeign v r.inRec r.inPos = true ∧ outOwn v o = true)
       else inForeign v r.inRec r.inPos = true ∧ outOwn v o = true ∧ mget v.routes o = none) →
      (stageCtx p ≠ 0 ∨ s.bundle = none) → stage p [.route r] (drawn 4 u) body = .reply t 0x00 0x800000 body →
      exec (.admitRoute p) s = .next (answered specAdmitRoute p 0 0x800000 body t))

/-- Exposures and monitors are read, causes acknowledged, deadlines missed and streams' stop baths end. R407, R408, R415, R417,
R419, R427, R428, R429. The model's own choice: log entry 31. -/
def Obligations.AdmissionMonitorsComplete : Prop :=
  (∀ (p : Packet) (s : State) (r : StreamRec), Accepts specGetExposure p s → fieldAt p.params 0 2 < 0x8000 → zeroAt p.params 2 2 = true →
      let u := taken p s
      let n := fieldAt p.params 0 2
      let g := (guestOf p.source).getD 0
      (mget u.records n = some r →
        exec (.getExposure p) s = .next (answered specGetExposure p 0 0 (exposureBytes u g n r r.figures true) u))
      ∧ (mget u.records n = none → mget (declView u n).records n = some r →
        exec (.getExposure p) s = .next (answered specGetExposure p 0 0
          (exposureBytes u g n r (latentFigures u (declView u n) n r.decl) false) (drawn 2 u))))
  ∧ (∀ (p : Packet) (s : State) (ch : Nat), Accepts specAckUnassured p s → byteAt p.params 0 < 64 → srcChan s p.source (byteAt p.params 0) = some ch →
      zeroAt p.params 1 3 = true →
      let u := taken p s
      let t := ackCauses ch u
      exec (.ackUnassured p) s = .next (answered specAckUnassured p 0 0 (le 1 (t.mon ch).causes.toNat ++ zeros 3 ++ le 8 (stampNow t)) t)
      ∧ (ch < 64 → ∀ b, b < 8 → ((t.mon ch).causes.getLsbD b = true ↔ (u.mon ch).causes.getLsbD b = true ∧ causeActive u ch b = true)))
  ∧ (∀ (p : Packet) (s : State) (ch : Nat), Accepts specGetMonitors p s → byteAt p.params 0 < 64 → srcChan s p.source (byteAt p.params 0) = some ch →
      zeroAt p.params 1 3 = true →
      let u := taken p s
      exec (.getMonitors p) s = .next (answered specGetMonitors p 0 0 (monitorRecord u ch (virtChan u ((guestOf p.source).getD 0) ch)) u))
  ∧ (∀ (n : Fin 32768) (s : State) (r : StreamRec) (x : Release), mget s.records n.val = some r → r.decl.foreign = false → r.stopping = false →
      monitorsRun s r.decl.channel = true → timerOf r = some x →
      let at_ := x.at_ + r.decl.deadline
      let mark := fun (y : Option Release) => y.map fun z => if z.at_ == x.at_ then { z with missed := true } else z
      let t := modRec n.val (fun r => { r with misses := inc32 r.misses, lastMiss := at_, live := mark r.live, staged := mark r.staged, failed := r.failed.filter fun y => y.at_ != x.at_ }) (reachTime at_ s)
      let t := t.modMon r.decl.channel fun m => { m with misses := inc32 m.misses, lastMiss := at_ }
      exec (.deadlineTimerExpiry n) s = .next (fcSettle (forEach (streamCtxs t r.decl) (fun c t => raiseEvent c 0x0902
        (le 2 n.val ++ le 1 (virtChan t c r.decl.channel) ++ le 1 (flag (!assured t r.decl.channel) 1) ++ zeros 4 ++ le 8 x.at_) t) t)))
  ∧ (∀ (n : Fin 32768) (s : State) (r : StreamRec), mget s.records n.val = some r → r.stopping = true → r.stopLive = false → r.stopStaged = false →
      let t := streamBathEvent 0x09F0 n.val r.stopBy s
      (r.held = none → exec (.streamStopBathEnd n) s = .next (fcSettle (refigure [r.decl.channel] { t with records := mdel t.records n.val })))
      ∧ (∀ d, r.held = some d → d.ctx < 64 → exec (.streamStopBathEnd n) s = .next (fcSettle (judgeMode r.decl.channel
          (streamBathEvent 0x09F1 n.val (.ctx (Fin.ofNat 64 d.ctx))
            (refigure [r.decl.channel, d.channel] { t with records := mset t.records n.val (recNew d) }))))))

/-- The exposure loops find the least fixed point within a second; the heap order is strict; the budget is over at the E+1st
event. R208, R394, R398, R413. -/
def Obligations.TheCalculatorSolvesR398 : Prop :=
  (∀ (f : Nat → Nat) (t : Nat), (∀ a b, a ≤ b → f a ≤ f b) → t ≤ f t →
      (∀ r, fixedPoint f (busyLimit + 1) t = some r ↔ (f r = r ∧ t ≤ r ∧ r ≤ 1000000000 ∧ ∀ x, t ≤ x → f x = x → r ≤ x)))
  ∧ (∀ a b c : List Bool, a.length = b.length → b.length = c.length →
      seqBefore (false :: a) (true :: b) = true ∧ seqBefore a a = false ∧ (seqBefore a b = true → seqBefore b c = true → seqBefore a c = true)
      ∧ (a ≠ b → seqBefore a b = !seqBefore b a))
  ∧ (∀ (g : Budget) (hp lp : List Item) (i : Item) (fin r b : Nat), (∀ x ∈ hp ++ [i], 0 < x.period ∧ 0 < x.c) →
      let hep := hp ++ [i]
      let err := fun x => g.e * ceilDiv x g.w * (g.c31 + (hep.map (·.c)).foldl max 0)
      let busy := fun t => b + err t + total (hep.map fun k => ceilDiv (t + (k.jitter + k.intake)) k.period * waitTime k)
      let wait := fun q w => b + q * i.c + err (w + g.m + fin) + total (hp.map fun j => ceilDiv (w + (j.jitter + j.intake)) j.period * waitTime j)
      let least := fun (f : Nat → Nat) (a x : Nat) => f x = x ∧ a ≤ x ∧ x ≤ 1000000000 ∧ ∀ y, a ≤ y → f y = y → x ≤ y
      (responseOf g hp i lp fin = some (r, b) ↔
        b = (lp.map (·.c)).foldl max 0
        ∧ ∃ (t : Nat) (w : Nat → Nat), least busy (b + total (hep.map waitTime)) t
          ∧ let n := ceilDiv (t + (i.jitter + i.intake)) i.period
            (∀ q, q < n → least (wait q) (b + q * i.c + total (hp.map waitTime)) (w q)
              ∧ i.jitter + i.intake + w q + g.m + fin - q * i.period ≤ r)
            ∧ (r = 0 ∨ ∃ q, q < n ∧ r = i.jitter + i.intake + w q + g.m + fin - q * i.period)))
  ∧ (∀ (ch : Nat) (s : State), ch < 64 →
      let m := s.mon ch
      (((budgetEvent ch s).mon ch).causes.getLsbD 1 = true ↔
        (m.causes.getLsbD 1 = true ∨ m.e = 0 ∨ ∃ x, m.stamps[m.e - 1]? = some x ∧ stampNow s < x + m.w * 1000))
      ∧ ((budgetEvent ch s).mon ch).stamps.head? = some (stampNow s))

/-- PDUs, signals, routes and local I/O are staged; entries and statistics are read. R430, R431, R433, R466, R467, R469, R470,
R471. -/
def Obligations.RoutingTablesComplete : Prop :=
  (∀ (p : Packet) (s t : State), Accepts specWritePdu p s →
      let n := fieldAt p.params 0 2
      let w := descWord p.params
      let code := bitsOf (w 0) 1 3
      n < 0x8000 → zeroAt p.params 2 2 = true → bitOf (w 0) 0 = false →
      (code = 0 → freeFault w = none → Stages p [.pdu n none] [] s t → exec (.writePdu p) s = .next (answered specWritePdu p 0 0x800000 [] t))
      ∧ (∀ d, dirOf code = some d → pduFault d w = none → Stages p [.pdu n (some (pduFrom d w))] [] s t →
        exec (.writePdu p) s = .next (answered specWritePdu p 0 0x800000 [] t)))
  ∧ (∀ (p : Packet) (s t : State),
      let b := p.params
      let first := fieldAt b 0 4
      let count := byteAt b 4
      let l := (List.range count).map fun k =>
        let kind := bitsOf (entryWord b k 0) 1 3
        Change.signal (first + k) (sigFrom kind (entryWord b k)) (constValue kind (entryWord b k))
      first ≤ 0x3FFFF → first + count ≤ 0x3FFFF → 1 ≤ count → count ≤ 14 → p.plen = 2 + 4 * count → zeroAt b 5 3 = true →
      (Accepts specWriteSignal p s → (∀ k, k < count → sigFault [0, 1, 2, 3] (entryWord b k) = none) → Stages p l [] s t →
        exec (.writeSignal p) s = .next (answered specWriteSignal p 0 0x800000 [] t))
      ∧ (Accepts specWriteRoute p s → (∀ k, k < count → sigFault [0, 4] (entryWord b k) = none) → Stages p l [] s t →
        exec (.writeRoute p) s = .next (answered specWriteRoute p 0 0x800000 [] t)))
  ∧ (∀ (p : Packet) (s : State), Accepts specReadSignal p s → fieldAt p.params 0 4 ≤ 0x3FFFF →
      let u := taken p s
      let e := fieldAt p.params 0 4
      (mget u.sigs e = none → exec (.readSignal p) s = .next (answered specReadSignal p 0 0 (zeros 36) u))
      ∧ (∀ g, mget u.sigs e = some g →
        let src := readSource e g
        let stamp := ((mget u.sigs src).map (·.stamp)).getD 0
        let stale := match sigBody u src with
          | some (.source _ _ _ _ n) => ((pduOf u n).map (·.stale)).getD false
          | _ => false
        exec (.readSignal p) s = .next (answered specReadSignal p 0 0
          (sigBytes (sigChanged u src) g ++ le 8 (shownValue u g).toNat ++ le 8 stamp ++ le 1 (flag stale 1 + flag g.errDis 2) ++ zeros 3) u)))
  ∧ (∀ (p : Packet) (s t : State), Accepts specSetLocalIo p s →
      let b := p.params
      let round := fieldAt b 8 2
      fieldAt b 4 4 < 2 ^ 24 → (round = 0 ∨ 100 ≤ round) → zeroAt b 10 2 = true →
      Stages p [.localIo { invert := BitVec.ofNat 32 (fieldAt b 0 4), ainEn := BitVec.ofNat 24 (fieldAt b 4 4)
                           round := if round = 0 then 1000 else round
                           debounce := vgen 32 fun n => if byteAt b (12 + n) = 0 then 3 else byteAt b (12 + n) }] [] s t →
      exec (.setLocalIo p) s = .next (answered specSetLocalIo p 0 0x800000 [] t))
  ∧ (∀ (p : Packet) (s : State), Accepts specGetRouteStats p s → zeroAt p.params 1 1 = true →
      let u := taken p s
      let n := fieldAt p.params 2 2
      (byteAt p.params 0 = 0 → n ≤ 3 → exec (.getRouteStats p) s = .next (answered specGetRouteStats p 0 0 (laneRecord u n) u))
      ∧ (byteAt p.params 0 = 1 → n ≤ 0x7FFF → exec (.getRouteStats p) s = .next (answered specGetRouteStats p 0 0 (pduRecord u n) u)))

/-- A bundle block in order is loaded part by part, and ABORT ends the load. R462, R463, R464, R468. The model's own choice: log
entry 43. -/
def Obligations.BundleBlocksComplete : Prop :=
  (∀ (p : Packet) (s : State), Accepts specLoadBundleBlock p s →
      let b := p.params
      let u := taken p s
      let off := fieldAt b 0 4
      let len := fieldAt b 4 2
      let data := (b.drop 8).take len
      zeroAt b 7 1 = true →
      (byteAt b 6 = 0 → 4 ≤ len → len ≤ 224 → len % 4 = 0 → p.plen = 2 + len / 4 →
        (∀ l, u.bundle = some l → off ≠ 0 → l.waiting = false → off = l.done + l.buffer.length →
          ∃ t st d body, loadBlock { p with opcode := 0x0A04 } data l u = .reply t st d body
            ∧ exec (.loadBundleBlock p) s = .next (answered specLoadBundleBlock p st d body t))
        ∧ (u.bundle = none → off = 0 → (u.ctx 0).latent = [] → (u.ctx 0).armed = none →
          ∃ t st d body, loadBlock { p with opcode := 0x0A04 } data bundleNew u = .reply t st d body
            ∧ exec (.loadBundleBlock p) s = .next (answered specLoadBundleBlock p st d body t)))
      ∧ (∀ l, byteAt b 6 = 1 → len = 0 → p.plen = 2 → u.bundle = some l →
        exec (.loadBundleBlock p) s = .next (answered specLoadBundleBlock p 0 0 
          (bundleBytes (some { l with waiting := false, batch := l.batch - flag l.waiting 1 }) 3 0xFFFFFFFF)
          (dropLatent 0 u))))
  ∧ (∀ (p : Packet) (data : List Byte) (l : BundleLoad) (u t : State) (st d : Nat) (body : List Byte),
      loadBlock p data l u = .reply t st d body →
        body.length = 16 ∧ (st ≠ 0 → t.bundle = none ∧ (t.ctx 0).latent = [] ∧ byteAt body 8 = 3) ∧ (st = 0 → byteAt body 8 ≤ 2))

/-- Lanes run arrival and timed passes, PDUs time out, notices fall due, inputs are sampled. R21, R341, R440, R441, R442, R443,
R446, R449, R451, R455, R459. The model's own choice: log entries 5, 32, 61, 62. -/
def Obligations.RoutePassesComplete : Prop :=
  (∀ (lane : Fin 4) (parity : Bool) (h : Handoff) (l : List Handoff) (s : State), (s.lane lane.val).waiting = h :: l →
      (s.lane lane.val).held = [] → arrivalNext s lane.val h = true → s.isReady 4 = true →
      let u := s.modLane lane.val fun x => { x with waiting := l }
      (parity = true → h.path ≠ 7 →
        exec (.arrivalPass lane parity) s = .next (fcSettle { u with mem := { u.mem with parity := tmod u.mem.parity (handPath u h) inc32 } }))
      ∧ (parity = false ∨ h.path = 7 → (pduOf u h.pdu = none → exec (.arrivalPass lane parity) s = .next (fcSettle u))
        ∧ (∀ p, pduOf u h.pdu = some p → exec (.arrivalPass lane parity) s = .next (fcSettle (finishPass lane.val false h.clk
            (if dirIn p.set.dir then arrive h.pdu h p u else u))))))
  ∧ (∀ (n : Fin 32768) (p : Pdu) (t : Nat) (s : State), pduOf s n.val = some p → p.arrived = some t → dirIn p.set.dir = true →
      p.set.timeout ≠ 0 → p.expired = false → s.isReady 4 = true →
      let u := reachClk (p.arrivedAt + p.set.timeout * usNs) s
      exec (.pduTimeout n) s = .next (fcSettle (raiseEvent 0 0x0A01 (le 2 n.val ++ zeros 6 ++ le 8 t)
        (modPdu n.val (fun p => { p with stale := true, expired := true, timedOut := true, timeoutDue := u.time.clk, timeouts := inc32 p.timeouts }) u))))
  ∧ (∀ (n : Fin 32768) (p : Pdu) (s : State), pduOf s n.val = some p → p.timedOut = true → timedNext s p.set.lane p.timeoutDue n.val = true → s.isReady 4 = true →
      let u := startTimed p.set.lane (modPdu n.val (fun p => { p with timedOut := false }) s)
      let r := substitute p.set u
      exec (.timeoutPass n) s = .next (fcSettle (finishPass p.set.lane true p.timeoutDue (walkList p.set false r.2 2 (stampNow u) r.1))))
  ∧ (∀ (n : Fin 32768) (p : Pdu) (x : Schedule) (s : State), pduOf s n.val = some p → p.set.dir = .outFrame → p.set.frameCount ≠ 0 →
      p.set.periodic = true → scheduleOf s p.set.mo = some x → (p.noticeAt = 0 ∨ p.noticeAt ≠ x.next) → s.isReady 4 = true →
      let u := reachTime (x.next - noticeAhead s p.set.lane n.val) s
      exec (.periodicPackNotice n) s = .next (fcSettle (modPdu n.val (fun p => { p with noticed := true, noticeDue := u.time.clk, noticeAt := x.next }) u)))
  ∧ (∀ (n : Fin 32768) (p : Pdu) (s : State), pduOf s n.val = some p → p.noticed = true → timedNext s p.set.lane p.noticeDue n.val = true → s.isReady 4 = true →
      let u := startTimed p.set.lane (modPdu n.val (fun p => { p with noticed := false }) s)
      exec (.periodicPass n) s = .next (fcSettle (finishPass p.set.lane true p.noticeDue (fireHead n.val 2 (stampNow u) u))))
  ∧ (∀ (n : Fin 32768) (p : Pdu) (t : Nat) (s : State), pduOf s n.val = some p → p.deferredTo = some t → timedNext (reachClk t s) p.set.lane t n.val = true → (reachClk t s).isReady 4 = true →
      let u := startTimed p.set.lane (modPdu n.val (fun p => { p with deferredTo := none }) (reachClk t s))
      exec (.deferredPass n) s = .next (fcSettle (finishPass p.set.lane true t (fireHead n.val 2 (stampNow u) u))))
  ∧ (∀ (n : Fin 4) (r : Routed) (s : State), fits s (.rtq, n.val) (packetCells r.data.length) = false →
      let t := pushRouted n.val r s
      t.fq = s.fq ∧ (t.lane n.val).held = (s.lane n.val).held ++ [r]
      ∧ ∀ (timed : Bool) (k : Nat), ((finishPass n.val timed k t).lane n.val).ending = some (timed, k)
        ∧ ((finishPass n.val timed k t).lane n.val).passes = (s.lane n.val).passes)
  ∧ (∀ (levels : BitVec 32) (s : State),
      (s.isReady 4 = true → exec (.dinSample levels) s = .next (fcSettle (takeLevels levels (reachClk ((s.localIo.dinAt / msNs + 1) * msNs) s))))
      ∧ (let x := forRange 32 (debounceOne levels) { s.localIo with dinAt := s.time.clk }
         takeLevels levels s = if x.levels = s.localIo.levels then { s with localIo := x }
           else localArrival 0 (le 4 (x.levels ^^^ x.set.invert).toNat) { s with localIo := x }))
  ∧ (∀ (codes : List Nat) (vbats : Bool) (s : State) (t : Nat), s.isReady 4 = true → s.isReady 14 = true → s.localIo.set.ainEn ≠ 0 →
      s.localIo.round = some t →
      let en := (List.range 24).filter fun n => s.localIo.set.ainEn.getLsbD n
      let code := fun n => match en.findIdx? (· == n) with
        | some i => codes.getD i 0 % 4096
        | none => 0
      let r := reachClk (t + (en.length + flag vbats 1) * usNs) s
      let u := { r with localIo := { r.localIo with ain := vgen 24 code, round := some (t + r.localIo.set.round * usNs) } }
      exec (.ainRoundEnd codes vbats) s = .next (fcSettle (localArrival 1 ((List.range 24).flatMap fun n => le 2 (code n)) u)))

/-- The bits of a signal lie where its ORDER puts them, and packing writes exactly those bits, which unpacking reads back. R435. -/
def Obligations.SignalsPackAndUnpack : Prop :=
  (∀ len start i : Nat, i < len → (sigBits false len start)[i]? = some (start + i))
  ∧ (∀ len start : Nat, 0 < len → (sigBits true len start)[len - 1]? = some start)
  ∧ (∀ len start i p : Nat, i + 1 < len → (sigBits true len start)[i + 1]? = some p →
      (sigBits true len start)[i]? = some (if p % 8 = 0 then p + 15 else p - 1))
  ∧ (∀ (big : Bool) (len start v : Nat) (data : List Byte), (∀ b ∈ sigBits big len start, b < 8 * data.length) →
      let l := sigBits big len start
      l.length = len ∧ gatherBits (scatterBits data v l) l = v % 2 ^ len ∧ (scatterBits data v l).length = data.length
      ∧ ∀ b, b ∉ l → pduBit (scatterBits data v l) b = pduBit data b)

/-- Units are configured, fed, read, written, enabled and stopped. R472, R473, R477, R478, R479, R485, R486, R487, R488, R489,
R490. The model's own choice: log entry 33. -/
def Obligations.CheckValueUnitsComplete : Prop :=
  (∀ (p : Packet) (s t : State) (u mode : Nat), Accepts specConfigCvu p s →
      let z := taken p s
      let b := p.params
      let w := byteAt b 2
      let prm : CvuParams :=
        { route := mode == 2, width := w, poly := BitVec.ofNat 64 (fieldAt b 8 8), init := BitVec.ofNat 64 (fieldAt b 16 8)
          xorout := BitVec.ofNat 64 (fieldAt b 24 8), refin := bitOf (byteAt b 3) 0, refout := bitOf (byteAt b 3) 1 }
      let any := bitOf (byteAt b 0) 7
      let claims := unitClaims z
      let new := !(claims.any fun c => c.1 == u)
      mode = byteAt b 1 → mode ≤ 2 → bitsOf (byteAt b 0) 5 2 = 0 → (any = true → byteAt b 0 % 32 = 0) →
      (if mode = 0 then w = 0 else 3 ≤ w ∧ w ≤ 64 ∧ fieldAt b 8 8 % 2 = 1 ∧ fieldAt b 8 8 < 2 ^ w ∧ fieldAt b 16 8 < 2 ^ w ∧ fieldAt b 24 8 < 2 ^ w) →
      byteAt b 3 < 4 → zeroAt b 4 4 = true →
      (if any then firstBelow 32 (fun u => !(claims.any fun c => c.1 == u)) = some u else u = byteAt b 0 % 32) →
      (claims.any fun c => c.1 == u && c.2 != stageCtx p) = false → (mode = 0 → new = false) →
      (unitNamed z u = true → mode ≠ 0 ∧ (mode = 1 → ∀ c, ((stagedFor p z).cvu u).params = some c → c.route = false)) →
      ((z.cvu u).held ≠ none → mode = 1) → (new = true → cvuUse z (stageCtx p) + 1 ≤ quotaOf z (stageCtx p) 5) →
      Stages p [.cvu u (if mode = 0 then none else some prm)] (le 1 u ++ zeros 3) s t →
      exec (.configCvu p) s = .next (answered specConfigCvu p 0 0x800000 (le 1 u ++ zeros 3) t))
  ∧ (∀ (p : Packet) (s : State) (q : CvuParams), Accepts specFeedCvu p s →
      let z := taken p s
      let b := p.params
      let u := byteAt b 0
      let ctrl := byteAt b 1
      let len := fieldAt b 2 2
      let size := 2 ^ (ctrl % 4)
      u < 32 → ctrl < 16 → ctrl % 4 ≠ 3 → 1 ≤ len → len ≤ 224 → len % size = 0 → p.plen = 2 + (len + 3) / 4 → zeroAt b 4 4 = true →
      (z.cvu u).params = some q → q.route = false → (z.cvu u).enabled = true → (z.cvu u).stopping = false →
      let r := cvuFeed q (if bitOf ctrl 3 then q.init else (z.cvu u).reg) (feedOrder size (bitOf ctrl 2) len ((b.drop 8).take len))
      exec (.feedCvu p) s = .next (answered specFeedCvu p 0 0 (le 8 r.toNat ++ le 8 (cvuResult q r).toNat)
        (z.modCvu u fun c => { c with reg := r, fed := satAdd 32 c.fed len })))
  ∧ (∀ (p : Packet) (s : State), Accepts specReadCvu p s → byteAt p.params 0 < 32 → zeroAt p.params 1 3 = true →
      exec (.readCvu p) s = .next (answered specReadCvu p 0 0 (cvuRecord (taken p s) (byteAt p.params 0)) (taken p s)))
  ∧ (∀ (p : Packet) (s : State) (q : CvuParams), Accepts specWriteCvuValue p s →
      let z := taken p s
      let u := byteAt p.params 0
      let v := fieldAt p.params 8 8
      u < 32 → zeroAt p.params 1 7 = true → (z.cvu u).params = some q → v < 2 ^ q.width → q.route = false → (z.cvu u).enabled = true →
      (z.cvu u).stopping = false →
      exec (.writeCvuValue p) s = .next (answered specWriteCvuValue p 0 0 [] (z.modCvu u fun c => { c with reg := BitVec.ofNat 64 v })))
  ∧ (∀ (p : Packet) (s : State) (q : CvuParams),
      let z := taken p s
      let u := byteAt p.params 0
      let c := z.cvu u
      u < 32 → zeroAt p.params 1 3 = true → c.params = some q → q.route = false →
      (Accepts specEnableCvu p s → exec (.enableCvu p) s = .next (
        if c.stopping then answered specEnableCvu p 0x01 3 [] (z.modCvu u fun c => { c with held := some p.source })
        else answered specEnableCvu p 0 0 [] (if c.enabled then z else z.modCvu u fun c => { c with enabled := true, reg := q.init })))
      ∧ (Accepts specDisableCvu p s → exec (.disableCvu p) s = .next (answered specDisableCvu p 0 0 []
        (if c.stopping then (if c.held.isSome then cvuEvent 0x0BF2 u p.source (z.modCvu u fun c => { c with held := none }) else z)
         else if c.enabled then z.modCvu u fun c => { c with stopping := true, stopBy := p.source } else z))))
  ∧ (∀ (u : Fin 32) (s : State), (s.cvu u.val).stopping = true →
      let c := s.cvu u.val
      let t := cvuEvent 0x0BF0 u.val c.stopBy (s.modCvu u.val fun x => { x with stopping := false, enabled := false, held := none })
      (c.held = none → exec (.cvuStopBathEnd u) s = .next (fcSettle t))
      ∧ (∀ src, c.held = some src → exec (.cvuStopBathEnd u) s = .next (fcSettle (cvuEvent 0x0BF1 u.val src (cvuEnable u.val t)))))

/-- The register stays within W bits, a computation may be split and resumed, and check values are linear in the data. R474,
R475, R481, R482. -/
def Obligations.CheckValuesFollowR474 : Prop :=
  (∀ (q : CvuParams) (r₁ r₂ : BitVec 64) (l : List Byte), 3 ≤ q.width → q.width ≤ 64 → q.poly.toNat < 2 ^ q.width → r₁.toNat < 2 ^ q.width →
      r₂.toNat < 2 ^ q.width →
      (cvuFeed q r₁ l).toNat < 2 ^ q.width
      ∧ (∀ m, cvuFeed q (cvuFeed q r₁ l) m = cvuFeed q r₁ (l ++ m))
      ∧ (∀ m : List Byte, m.length = l.length →
        cvuFeed q (r₁ ^^^ r₂) (List.zipWith (· ^^^ ·) l m) = cvuFeed q r₁ l ^^^ cvuFeed q r₂ m))
  ∧ (∀ (p : PduSet) (q : CvuParams) (data : List Byte) (s : State), p.cvEn = true → p.cvu < 32 → (s.cvu p.cvu).params = some q →
      q.width ≤ 64 → q.poly.toNat < 2 ^ q.width → q.init.toNat < 2 ^ q.width → q.xorout.toNat < 2 ^ q.width →
      p.cvPos + cvBytes s p ≤ data.length →
      let r := cvuResult q (cvuFeed q q.init (cvCovered s p data))
      ((cvCheck p data s).1 = true ↔ cvField s p data = r.toNat)
      ∧ ((cvAppend p data s).1.length = data.length ∧ cvCovered s p (cvAppend p data s).1 = cvCovered s p data
        ∧ cvField s p (cvAppend p data s).1 = r.toNat))

/-- Loads are bound, profiled, commanded, forced, read, reset, enabled and disabled. R504, R509, R512, R523, R524, R526, R527,
R528, R529, R530, R531, R532. The model's own choice: log entry 66, log entry 35. -/
def Obligations.LoadCommandsComplete : Prop :=
  (∀ (p : Packet) (s t : State), Accepts specBindLoad p s →
      let u := taken p s
      let b := p.params
      let n := byteAt b 0
      let kind := byteAt b 1
      let isrc := byteAt b 8
      let o := bindOut kind (byteAt b 2) (fieldAt b 4 2)
      let x : Binding :=
        { out := o, group := if bitOf (byteAt b 3) 7 then none else some (byteAt b 3 % 16), scale := fieldAt b 6 2, isrc := isrc
          diagEn := bitOf (byteAt b 9) 7, diagLow := bitOf (byteAt b 9) 6, diagDin := byteAt b 9 % 32 }
      n < 96 → kind ≤ 2 → (kind = 0 → byteAt b 2 = 0) → (kind = 1 → byteAt b 2 ≤ 47) → bitsOf (byteAt b 3) 4 3 = 0 →
      (if kind = 1 then 40 ≤ fieldAt b 4 2 ∧ fieldAt b 4 2 ≤ 20000 else fieldAt b 4 2 = 0) →
      (isrc = 0 ∨ (kind = 2 ∧ isrc = 1) ∨ (kind = 1 ∧ 0x10 ≤ isrc ∧ isrc ≤ 0x27)) →
      (if kind = 1 then bitOf (byteAt b 9) 5 = false else byteAt b 9 = 0) → zeroAt b 10 2 = true → (kind ≠ 0 → outTaken u n o = false) →
      (u.ld n).enabled = false → (u.ld n).state ≠ .stopping →
      Stages p [.bind n (if kind = 0 then none else some x)] [] s t →
      exec (.bindLoad p) s = .next (answered specBindLoad p 0 0x800000 [] t))
  ∧ (∀ (p : Packet) (s t : State), Accepts specSetSwitchProfile p s →
      let b := p.params
      let bits := byteAt b 2
      let f : Profile :=
        { switches := byteAt b 1, frameBits := bits, outputs := byteAt b 3, div := byteAt b 4, mode := byteAt b 5, base := fieldAt b 8 4
          expMask := fieldAt b 12 4, expValue := fieldAt b 16 4
          outs := (List.range (byteAt b 3)).map fun k => outFields ((b.drop (20 + 10 * k)).take 10) }
      byteAt b 0 < 8 → byteAt b 1 ≤ 8 → 8 ≤ bits → bits ≤ 32 → 1 ≤ byteAt b 3 → byteAt b 3 ≤ 4 → 8 ≤ byteAt b 4 → byteAt b 4 ≤ 80 →
      (byteAt b 1 * bits + 4) * byteAt b 4 ≤ 16000 → byteAt b 5 < 16 → zeroAt b 6 2 = true → f.base < 2 ^ bits → f.expMask < 2 ^ bits →
      f.expValue < 2 ^ bits → outsFault bits (byteAt b 3) b = none → Stages p [.profile (byteAt b 0) f] [] s t →
      exec (.setSwitchProfile p) s = .next (answered specSetSwitchProfile p 0 0x800000 [] t))
  ∧ (∀ (p : Packet) (s : State), Accepts specSetLoad p s →
      let u := taken p s
      let b := p.params
      let n := byteAt b 0
      n < 96 → byteAt b 1 ≤ 1 → fieldAt b 2 2 ≤ 1000 → zeroAt b 4 4 = true → (u.ld n).bind ≠ none → routeBound u n = false →
      let t := u.modLd n fun l => { l with on := bitOf (byteAt b 1) 0, duty := fieldAt b 2 2, commander := .source p.source, parked := l.parked && (!bitOf (byteAt b 1) 0 || sleepEntry u) }
      exec (.setLoad p) s = .next (answered specSetLoad p 0 0
        (le 1 (loadCode (t.ld n).state) ++ le 1 (loadByte (t.ld n)) ++ zeros 2 ++ le 8 (stampNow t)) t))
  ∧ (∀ (p : Packet) (s t : State), Accepts specSetLoadPolicy p s →
      let b := p.params
      let n := byteAt b 0
      let ctrl := byteAt b 1
      let def_ := fun (o w d : Nat) => if fieldAt b o w = 0 then d else fieldAt b o w
      let x : LoadPolicy :=
        { comp := bitOf ctrl 0, safe := bitsOf ctrl 1 2, depart := bitsOf ctrl 3 2, prio := bitsOf ctrl 5 2, safeDuty := fieldAt b 2 2
          vnom := def_ 4 2 13200, inrush := 4 * def_ 6 2 20, extCap := 4 * def_ 8 2 50, retries := byteAt b 10, thermLimit := def_ 11 1 2
          backoff := 4 * def_ 12 2 100, backoffMax := 4 * def_ 14 2 1600, heal := 4000 * def_ 16 2 10, thermWin := 4000 * def_ 18 2 60
          iMax := fieldAt b 20 2, iOpen := fieldAt b 22 2, vuv := def_ 24 2 6000 }
      n < 96 → bitOf ctrl 7 = false → x.safe ≠ 3 → x.depart ≠ 3 → (if x.safe = 1 then 1 ≤ x.safeDuty ∧ x.safeDuty ≤ 1000 else x.safeDuty = 0) →
      6000 ≤ x.vnom → x.vnom ≤ 16000 → def_ 6 2 20 ≤ 5000 → def_ 8 2 50 ≤ 1000 → x.retries ≤ 15 → x.thermLimit ≤ 15 → 10 ≤ def_ 12 2 100 →
      def_ 12 2 100 ≤ 10000 → def_ 12 2 100 ≤ def_ 14 2 1600 → def_ 14 2 1600 ≤ 60000 → def_ 16 2 10 ≤ 3600 → def_ 18 2 60 ≤ 3600 →
      (x.iMax = 0 ∨ x.iOpen = 0 ∨ x.iOpen < x.iMax) → 3000 ≤ x.vuv → x.vuv ≤ 9000 → zeroAt b 26 2 = true → Stages p [.policy n x] [] s t →
      exec (.setLoadPolicy p) s = .next (answered specSetLoadPolicy p 0 0x800000 [] t))
  ∧ (∀ (p : Packet) (s : State), Accepts specForceSafe p s → (byteAt p.params 0 = 1 ∨ byteAt p.params 0 = 2) → zeroAt p.params 1 3 = true →
      let u := taken p s
      let q := { p with opcode := 0x0C05 }
      (decodedForce u q = none →
        let t := applyForce (byteAt p.params 0) (fieldAt p.params 4 12) p.source u
        exec (.forceSafe p) s = .next (fcSettle (pruneDecoded (sendReply q 0 0 (le 8 (stampNow t) ++ safeMap t) t))))
      ∧ (∀ v, decodedForce u q = some v →
        exec (.forceSafe p) s = .next (fcSettle (pruneDecoded (sendReply q 0 0 (le 8 v ++ safeMap u) u)))))
  ∧ (∀ (p : Packet) (s : State),
      let u := taken p s
      let n := byteAt p.params 0
      let l := u.ld n
      n < 96 → zeroAt p.params 1 3 = true →
      (Accepts specGetLoadStatus p s → exec (.getLoadStatus p) s = .next (answered specGetLoadStatus p 0 0 (loadRecord u n) u))
      ∧ (Accepts specResetLoadLatch p s → l.bind ≠ none →
        exec (.resetLoadLatch p) s = .next (answered specResetLoadLatch p 0 0 [] (u.modLd n fun l => { l with pendReset := true })))
      ∧ (Accepts specEnableLoad p s → l.bind ≠ none →
        exec (.enableLoad p) s = .next (if l.state = .stopping then answered specEnableLoad p 0x01 2 [] (u.modLd n fun l => { l with held := some p.source })
          else answered specEnableLoad p 0 0 [] (u.modLd n fun l => { l with enabled := true })))
      ∧ (Accepts specDisableLoad p s →
        exec (.disableLoad p) s = .next (answered specDisableLoad p 0 0 [] (
          if l.state = .unbound then u
          else if l.state = .disabled then u.modLd n fun l => { l with enabled := false }
          else if l.state = .stopping then
            (if l.held.isSome then loadBathEvent 0x0CF2 n p.source (u.modLd n fun l => { l with held := none }) else u)
          else startLoadBath n false p.source u))))

/-- Ticks, windows, back-offs, PWM periods, chain transfers and the battery filter run. R494, R495, R496, R498, R502, R513, R514,
R516, R519, R524. The model's own choice: log entry 5. -/
def Obligations.LoadEventsComplete : Prop :=
  (∀ (v : List Nat) (s : State), s.isReady 10 = true →
      let u := if s.isReady 14 then takeVbats v s else s
      let d := u.load.nextTick
      let t := reachClk d u
      exec (.loadTick v) s = .next (fcSettle (tickWork { t with load := { t.load with tick := t.load.tick + 1, nextTick := d + tickNs } })))
  ∧ (∀ (v : List Nat) (s : State), s.isReady 14 = true →
      let l := s.load.vbats ++ v.map vbatsMv
      10 ≤ l.length →
      let vf := total (l.drop (l.length - 10)) / 10
      let t := reachClk (s.load.vbatsFrom + msNs) s
      exec (.vbatsFilterUpdate v) s = .next (fcSettle (localArrival 2 (le 2 vf ++ zeros 2)
        { t with load := { t.load with vf := vf, vbats := [], vfSettled := true, vbatsFrom := s.load.vbatsFrom + msNs } })))
  ∧ (∀ (n : Fin 96) (s : State), s.isReady 10 = true →
      let l := s.ld n.val
      let left := ticksUntil fun t => (t.ld n.val).state != l.state
      let k := l.timerEnd - s.load.tick
      (l.state = .inrush → exec (.inrushWindowEnd n) s = .next (fcSettle (left (max 1 k + l.policy.extCap) s)))
      ∧ (l.state = .backoff → exec (.backoffEnd n) s = .next (fcSettle (left (max 1 k + l.policy.extCap) s)))
      ∧ (l.state = .on → s.load.tick < l.timerEnd → exec (.healReached n) s = .next (fcSettle (left k s))))
  ∧ (∀ (done : State → Bool) (k : Nat) (s : State), ticksUntil done 0 s = s
      ∧ ticksUntil done (k + 1) s = if done s then s else ticksUntil done k (loadTick s))
  ∧ (∀ (n : Fin 96) (s : State), s.isReady 10 = true → (s.ld n.val).state = .stopping →
      let t := if (s.ld n.val).stopDue then s else loadTick s
      exec (.loadStopBathEnd n) s = .next (fcSettle (
        if (t.ld n.val).stopDue = false then t
        else endLoadBath n.val (match (chainPlace (t.ld n.val)).bind fun p => (t.swc p.1).busy.map fun f => (p.1, f) with
          | some x => reachClk ((t.swc x.1).busyAt + transferNs x.2) t
          | none => t))))
  ∧ (∀ (n : Fin 96) (period : Nat) (s : State), pwmPeriod (s.ld n.val) = some period →
      let l := s.ld n.val
      let due := l.periodAt + period * 1000
      let t := reachClk due s
      let e := if outOn l.state then compensated t l l.taken else l.eff
      (pwmRuns l = true → exec (.pwmPeriodStart n) s = .next (fcSettle
        (t.modLd n.val fun l => { l with eff := e, periodAt := due, ball := decide (0 < (e * period + 500) / 1000) })))
      ∧ (l.ball = true → (l.eff * period + 500) / 1000 < period → exec (.pwmHighEnd n) s = .next (fcSettle
        ((reachClk (l.periodAt + (l.eff * period + 500) / 1000 * 1000) s).modLd n.val fun l => { l with ball := false }))))
  ∧ (∀ (c : Fin 8) (response : List Byte) (f : Profile) (s : State), (s.swc c.val).busy = some f →
      let bits := response.flatMap fun b => ((List.range 8).reverse).map fun i => bitOf b.toNat i
      let t := forRange f.switches (takeResponse c.val f bits) (reachClk ((s.swc c.val).busyAt + transferNs f) s)
      let t := endChainBaths c.val (t.modSwc c.val fun x => { x with busy := none })
      exec (.chainTransferEnd c response) s = .next (fcSettle (if (t.swc c.val).extra then startTransfer c.val false t else t)))

/-- Whatever command runs, a load whose thermal latch is set is never on, waiting or backing off. R518, R522, R523, R525. -/
def Obligations.LatchedLoadsStayOff : Prop :=
  ∀ s t : State, (∀ n : Nat, n < 96 → (s.ld n).latch = true → (s.ld n).state ∈ [.unbound, .disabled, .off, .latched, .stopping]) →
    step s = .next t →
    ∀ n : Nat, n < 96 → (t.ld n).latch = true → (t.ld n).state ∈ [.unbound, .disabled, .off, .latched, .stopping]

/-- A chain frame holds each output's ON bit and scaled DUTY at their places and BASE elsewhere; a response is read field by
field. R500, R501. -/
def Obligations.ChainFramesCarryOnAndDuty : Prop :=
  (∀ (s : State) (c q : Nat) (f : Profile) (k : Nat) (x : OutFields), f.outs.length = f.outputs → f.outs[k]? = some x →
      (∀ y ∈ f.outs, y.onPos < f.frameBits ∧ y.dutyW ≤ 10 ∧ (y.dutyPos ≠ 0xFF → y.dutyPos + y.dutyW ≤ f.frameBits)) →
      (f.outs.flatMap fun y => (driveBits y).map (·.1)).Nodup →
      (∀ n, n < 96 → (s.ld n).eff ≤ 1000) →
      let load := (loadAt s c q k).map s.ld
      let on := load.any fun l => outputOn l
      let e := (load.map (·.eff)).getD 0
      bitOf (chainFrame s c f q) x.onPos = on
      ∧ (x.dutyW ≠ 0 → x.dutyPos ≠ 0xFF → bitsOf (chainFrame s c f q) x.dutyPos x.dutyW = (e * (2 ^ x.dutyW - 1) + 500) / 1000)
      ∧ (∀ b, b < f.frameBits → b ∉ (f.outs.flatMap fun y => (driveBits y).map (·.1)) → bitOf (chainFrame s c f q) b = bitOf f.base b))
  ∧ (∀ (x : OutFields) (frame scale : Nat),
      (readReports x frame scale).fault = (x.faultPos != 0xFF && (bitOf frame x.faultPos != bitOf x.pol 0))
      ∧ (readReports x frame scale).temp = (x.tempPos != 0xFF && (bitOf frame x.tempPos != bitOf x.pol 1))
      ∧ (readReports x frame scale).open_ = (x.openPos != 0xFF && (bitOf frame x.openPos != bitOf x.pol 2))
      ∧ (readReports x frame scale).uv = (x.uvPos != 0xFF && (bitOf frame x.uvPos != bitOf x.pol 3))
      ∧ (readReports x frame scale).cur = if x.curPos = 0xFF then none else some (bitsOf frame x.curPos x.curW * scale / 16))

/-- Stack and census are read, links configured, enabled and disabled, the census cleared and set. R558, R559, R560, R561, R562,
R563, R564, R565. The model's own choice: log entry 41. -/
def Obligations.LinkCommandsComplete : Prop :=
  (∀ (p : Packet) (s : State), Accepts specGetStack p s → zeroAt p.params 1 3 = true →
      let u := taken p s
      (byteAt p.params 0 = 0 → exec (.getStack p) s = .next (answered specGetStack p 0 0 (stackTable u) u))
      ∧ (∀ q, portOf (byteAt p.params 0) = some q → exec (.getStack p) s = .next (answered specGetStack p 0 0 (linkRecord u q) (drawn 1 u))))
  ∧ (∀ (p : Packet) (s t : State) (q : Port), Accepts specConfigLink p s → portOf (byteAt p.params 0) = some q →
      let u := taken p s
      let d := if fieldAt p.params 2 2 = 0 then 60 else fieldAt p.params 2 2
      zeroAt p.params 1 1 = true → 10 ≤ d → d ≤ 500 → ((u.link q).state = .up → (u.link q).wire ≤ d * 1000) → Stages p [.link q d] [] s t →
      exec (.configLink p) s = .next (answered specConfigLink p 0 0x800000 [] t))
  ∧ (∀ (p : Packet) (s : State), Accepts specGetCensus p s → zeroAt p.params 1 1 = true →
      let u := taken p s
      let v := byteAt p.params 0
      let start := fieldAt p.params 2 2
      let answer := fun (all : List (Nat × CensusEntry)) =>
        let from_ := all.filter fun e => start ≤ e.1
        le 1 (min 7 from_.length) ++ zeros 1 ++ le 2 ((from_[7]?.map (·.1)).getD 0xFFFF) ++ le 2 all.length ++ le 2 u.census.fullDrops ++ le 8 (stampNow u)
          ++ padTo 224 ((from_.take 7).flatMap fun e => censusBytes u e.2 (virtChan u ((guestOf p.source).getD 0) e.2.channel))
      (∀ ch, v < 64 → srcChan u p.source v = some ch → exec (.getCensus p) s = .next (answered specGetCensus p 0 0
        (answer (u.census.entries.filter fun e => e.2.channel == ch)) u))
      ∧ (v = 0xFF → exec (.getCensus p) s = .next (answered specGetCensus p 0 0
        (answer (u.census.entries.filter fun e => censusReadable u p.source e.2.channel)) u)))
  ∧ (∀ (p : Packet) (s : State), Accepts specClearCensus p s → zeroAt p.params 1 3 = true → (byteAt p.params 0 < 64 ∨ byteAt p.params 0 = 0xFF) →
      let u := taken p s
      exec (.clearCensus p) s = .next (answered specClearCensus p 0 0 [] { u with census := { u.census with
        entries := if byteAt p.params 0 = 0xFF then [] else u.census.entries.filter fun e => e.2.channel != byteAt p.params 0
        fullDrops := 0, fullSent := false } }))
  ∧ (∀ (p : Packet) (s t : State), Accepts specSetCensusEvents p s →
      let f := byteAt p.params 1
      byteAt p.params 0 < 64 → f < 16 → bitsOf f 1 2 ≠ 3 → zeroAt p.params 3 1 = true → zeroAt p.params 6 2 = true →
      Stages p [.census (byteAt p.params 0) (bitOf f 0) (bitsOf f 1 2) (bitOf f 3) (if byteAt p.params 2 = 0 then 3 else byteAt p.params 2)
        (if p.plen = 2 then some (fieldAt p.params 4 2) else none)] [] s t →
      exec (.setCensusEvents p) s = .next (answered specSetCensusEvents p 0 0x800000 [] t))
  ∧ (∀ (p : Packet) (s : State) (q : Port), portOf (byteAt p.params 0) = some q → zeroAt p.params 1 3 = true →
      let u := taken p s
      let l := u.link q
      (Accepts specEnableLink p s → ((l.state = .disabled ∨ l.state = .stopping) → powerBlocks u = false) →
        exec (.enableLink p) s = .next (
          if l.state = .stopping then answered specEnableLink p 0x01 4 [] (u.modLink q fun l => { l with held := some p.source })
          else answered specEnableLink p 0 0 [] (if l.state = .disabled then setLink q .training 0 u else u)))
      ∧ (Accepts specDisableLink p s → (l.state ≠ .disabled → l.state ≠ .stopping → onlyPath u q = false) →
        exec (.disableLink p) s = .next (answered specDisableLink p 0 0 [] (
          if l.state = .disabled then u
          else if l.state = .stopping then
            (if l.held.isSome then linkBathEvent 0x0DF2 q p.source (u.modLink q fun l => { l with held := none }) else u)
          else startLinkBath q p.source (drawn 1 u)))))

/-- Ports train, go up and down, conflict and stop; rounds, exchanges and census judgements run. R534, R536, R537, R542, R543,
R545, R548, R556, R559, R561, R565. The model's own choice: log entry 46, log entry 4, log entry 62, log entry 36. -/
def Obligations.LinkPortsComplete : Prop :=
  (∀ (q : Port) (x : Partner) (s : State), (s.link q).state = .training → linksRun s = true →
      let known := devOf s x.position
      ((x.position ≥ 8 ∨ x.position = s.pos ∨ (known.present = true ∧ known.serial ≠ x.serial)) →
        exec (.linkUp q x) s = .next (fcSettle (enterConflict q 3 s)))
      ∧ (x.position < 8 → x.position ≠ s.pos → (known.present = true → known.serial = x.serial) →
        exec (.linkUp q x) s = .next (fcSettle (
          if x.wire > 1000 * min (s.link q).maxDelay x.maxDelay then enterConflict q 5 s else enterUp q x s)))
      ∧ (∀ r, 2 ≤ r → r ≤ 5 → exec (.linkTrainingFailed q r) s = .next (fcSettle (enterConflict q r s)))
      ∧ exec (.linkTrainingFailed q 1) s = .next (fcSettle (s.modLink q fun l => { l with reason := 1 })))
  ∧ (∀ (q : Port) (s : State), (s.link q).state = .conflict → linksRun s = true →
      exec (.linkConflictRetry q) s = .next (fcSettle (setLink q .training (s.link q).reason (reachClk ((s.link q).since + 100 * msNs) s))))
  ∧ (∀ (q : Port) (r : Nat) (s : State), (s.link q).state = .up → linksRun s = true →
      (r = 1 ∨ (r = 6 ∧ ∃ u ∈ (s.link q).unacked, 4 ≤ u.replays)) → exec (.linkDown q r) s = .next (fcSettle (linkDown q r s)))
  ∧ (∀ (q : Port) (s : State), (s.link q).state = .stopping →
      let l := s.link q
      let t := if l.queue = [] ∧ l.unacked = [] then s else reachClk (l.since + msNs) s
      let t := (redirect q t).modLink q fun l => { l with partner := none, held := none }
      let t := linkBathEvent 0x0DF0 q l.stopBy (setLink q .disabled 7 t)
      (l.held = none → exec (.linkStopBathEnd q) s = .next (fcSettle t))
      ∧ (∀ src, l.held = some src → exec (.linkStopBathEnd q) s = .next (fcSettle (linkBathEvent 0x0DF1 q src (setLink q .training 0 t)))))
  ∧ (∀ (s : State), s.isMaster = true → linksRun s = true → (s.linkA.state = .up ∨ s.linkB.state = .up) →
      let t := reachClk (s.stack.roundAt + 100 * msNs) s
      exec .discoverRound s = .next (fcSettle (sendTable (sendFrame .b firstAsk (sendFrame .a firstAsk (startRound (endRound t))))))
      ∧ endRound t = setRing (t.stack.ring && t.stack.returned) (tableMoved t (forRange 8 judgeSilent t))
      ∧ startRound t = clearWalls { t with stack := { t.stack with roundAt := t.time.clk, returned := false } })
  ∧ (∀ (t1 t2 t3 t4 : Nat) (q : Port) (s : State), s.stack.upstream = some q → linksRun s = true → (s.link q).state = .up →
      let fresh := (s.link q).fresh
      let off := exchangeOffset t1 t2 t3 t4
      let t := if fresh then s else reachClk (s.stack.exchanged + 250 * usNs) s
      let t := t.modLink q fun l => { l with offset := off, fresh := false }
      let t := if fresh then stepTo ((t.now : Int) + (500 - off) / 1000).toNat 1 t else t
      exec (.timeExchange t1 t2 t3 t4) s = .next (fcSettle (sendFrame q { typ := .time, src := (steer off (judgeOffset off t)).pos, dst := 0, info := 0, data := [] }
        (steer off (judgeOffset off t)))))
  ∧ (∀ s : State, s.isMaster = false → s.time.aligned = true →
      let t := reachClk (s.stack.exchanged + 2 * msNs) s
      exec .alignmentTimeout s = .next (fcSettle (setAligned false { t with stack := { t.stack with good := 0 } })))
  ∧ (∀ s : State,
      let t := reachClk ((s.census.judgedAt / msNs + 1) * msNs) s
      let t := { t with census := { t.census with judgedAt := t.time.clk } }
      exec .censusLostJudgement s = .next (fcSettle (forEach (t.census.entries.map (·.1)) judgeLost t)))

/-- Every type of link frame that arrives intact is handled on the device it is for, or relayed. R21, R342, R343, R452, R538,
R539, R542, R545, R550, R552, R554, R555. The model's own choice: log entry 4, log entry 44, log entries 36, 37, 40. -/
def Obligations.LinkFramesComplete : Prop :=
  ∀ (q : Port) (f : LinkRx) (s : State), linkSends (s.link q) = true → linksRun s = true → f.intact = true →
    let fr := fun (t : FrameType) => ({ f.frame with typ := t, last := false } : LinkFrame)
    let w := takeLinkHeader q f s
    let u := fun (t : FrameType) => takeCells q (fr t) w
    let v := fun (t : FrameType) => (u t).modLink q fun l => { l with seqRx := f.seq }
    let here := f.frame.dst
    (exec (.timeFrameReceived q f) s = .next (fcSettle (if (u .time).stack.upstream = some q then u .time
        else sendFrame q { typ := .time, src := (u .time).pos, dst := f.frame.src, info := freeAt (u .time) 0 + 2 ^ 32 * freeAt (u .time) 1, data := [] }
          (drawn 2 (u .time)))))
    ∧ exec (.idleFrameReceived q f) s = .next (fcSettle (u .idle))
    ∧ (∀ (parity : Bool) (valid : Nat),
        exec (.routeFrameReceived q f parity valid) s = .next (fcSettle (settleDebt q (
          if 128 < 1 + (f.frame.data.length + 63) / 64 then oversizeFrame q (fr .route) w
          else if parity then { u .route with mem := { (u .route).mem with parity := tmod (u .route).mem.parity 3 inc32 } }
          else
            let x := (u .route).modLink q fun l => { l with routedRx := inc32 l.routedRx }
            if here = x.pos then takeRoute valid (fr .route) x else relayRoute q (fr .route) x))))
    ∧ (∀ t, f.seq ≠ nextLinkSeq ((u t).link q).seqRx →
        ∀ i ∈ [(FrameType.step, Instr.stepFrameReceived q f), (.cmd, .cmdFrameReceived q f), (.reply, .replyFrameReceived q f), (.event, .eventFrameReceived q f),
          (.discover, .discoverFrameReceived q f)], i.1 = t → exec i.2 s = .next (fcSettle (settleDebt q (u t))))
    ∧ (f.seq = nextLinkSeq ((u .step).link q).seqRx →
        exec (.stepFrameReceived q f) s = .next (fcSettle (settleDebt q (takeStep q (fr .step) (v .step)))))
    ∧ (f.seq = nextLinkSeq ((u .cmd).link q).seqRx →
        exec (.cmdFrameReceived q f) s = .next (fcSettle (settleDebt q (
          if here ≠ (v .cmd).pos then relay q (fr .cmd) (v .cmd) else if (v .cmd).isMaster then v .cmd
          else joinSegment (fr .cmd) (fun b s => arrivePacket (packetOf .master b) s) (v .cmd)))))
    ∧ (f.seq = nextLinkSeq ((u .reply).link q).seqRx →
        exec (.replyFrameReceived q f) s = .next (fcSettle (settleDebt q (
          if here ≠ (v .reply).pos then relay q (fr .reply) (v .reply)
          else if (v .reply).isMaster then joinSegment (fr .reply) (takeReply f.frame.src) (v .reply) else v .reply))))
    ∧ (f.seq = nextLinkSeq ((u .event).link q).seqRx →
        exec (.eventFrameReceived q f) s = .next (fcSettle (settleDebt q (
          if here ≠ (v .event).pos then relay q (fr .event) (v .event)
          else if (v .event).isMaster then pushEvent 0 (eventOf f.frame.data) (v .event) else v .event))))
    ∧ (f.seq = nextLinkSeq ((u .discover).link q).seqRx →
        let x := v .discover
        let k := f.frame.info % 256
        exec (.discoverFrameReceived q f) s = .next (fcSettle (settleDebt q (
          if k = 0 then (if x.isMaster then setRing true { x with stack := { x.stack with returned := true } } else takeAsk q (fr .discover) x)
          else if k = 1 then (if x.isMaster then takeAnswer q (fr .discover) x else if here = x.pos then x else relay q (fr .discover) x)
          else if here ≠ x.pos then relay q (fr .discover) x
          else if x.stack.upstream.isSome then takeCopy q (fr .discover) x else x))))

/-- A damaged frame is dropped and counted; an unacknowledged replayable frame is sent again after 10 us; ROUTE and TIME never
are. R540. -/
def Obligations.LinkErrorsAndReplays : Prop :=
  (∀ (q : Port) (f : LinkRx) (s : State), linkSends (s.link q) = true → linksRun s = true → f.intact = false →
      let bad := s.modLink q fun l => { l with crcErr := inc32 l.crcErr }
      (∀ i ∈ [Instr.timeFrameReceived q f, .stepFrameReceived q f, .cmdFrameReceived q f, .replyFrameReceived q f, .eventFrameReceived q f,
          .discoverFrameReceived q f, .idleFrameReceived q f], exec i s = .next (fcSettle bad))
      ∧ (∀ (parity : Bool) (valid : Nat),
          let lost := s.modLink q fun l => { l with crcErr := inc32 l.crcErr, routedLost := inc32 l.routedLost }
          exec (.routeFrameReceived q f parity valid) s = .next (fcSettle (if 128 < 1 + (f.frame.data.length + 63) / 64
            then dropPacket (.lkq, portIdx q) (0x0300 + portIdx q) 3 (portNumber q) (stampNow lost) lost else lost))))
  ∧ (∀ (q : Port) (s : State) (u : Unacked), firstDue (s.link q).unacked = some u → linkSends (s.link q) = true → linksRun s = true →
      let t := reachClk (u.sentAt + 10000) s
      (u.replays < 4 → frameCells u.frame ≤ (s.link q).credits → exec (.replayTimeout q) s = .next (fcSettle ((t.modLink q fun x => { x with
          replays := inc32 x.replays, credits := x.credits - frameCells u.frame, freed := x.freed - min x.freed 255
          unacked := x.unacked.map fun y => if y = u then { u with replays := u.replays + 1, sentAt := t.time.clk } else y }).emit
            (.link q (frameBytes u.frame u.seq (s.link q).seqRx (min (s.link q).freed 255))))))
      ∧ (4 ≤ u.replays → exec (.replayTimeout q) s = .next (fcSettle (
          if (s.link q).state = .up then linkDown q 6 t else t.modLink q fun x => { x with unacked := x.unacked.filter fun y => y != u }))))
  ∧ (∀ (q : Port) (f : LinkFrame) (r : LinkRx) (s : State), (∀ u ∈ (s.link q).unacked, frameReplayed u.frame.typ = true) →
      (∀ u ∈ ((sendFrame q f s).link q).unacked, frameReplayed u.frame.typ = true)
      ∧ (∀ u ∈ ((takeLinkHeader q r s).link q).unacked, frameReplayed u.frame.typ = true))

/-- Sessions open, take their image and close; images are approved, activated, vetoed and rejected; status, locks and security
are answered. R573, R574, R575, R577, R578, R587, R589, R590, R591, R592, R593, R594. The model's own choice: log entry 38. -/
def Obligations.UpdateCommandsComplete : Prop :=
  (∀ (p : Packet) (s : State), Accepts specOpenSession p s → zeroAt p.params 1 7 = true →
      let u := taken p s
      let half := padTo 128 (p.params.drop 8)
      (byteAt p.params 0 = 0 → exec (.openSession p) s = .next (answered specOpenSession p 0 0 [] (setHalf p.source (some half) u)))
      ∧ (∀ a, byteAt p.params 0 = 1 → u.update.session = none → halfOf u p.source = some a → u.aon.proof = false → guardFailure u = none →
          headerFailure (secOf u) (a ++ half) = none →
          let t := openNow p.source (a ++ half) (setHalf p.source none u)
          exec (.openSession p) s = .next (answered specOpenSession p 0 0
            (le 4 t.update.opened ++ le 1 (slotNumber (stagingSlot u)) ++ zeros 3 ++ le 4 (headerImage (a ++ half)).length ++ zeros 4) t)
          ∧ fixedOnce (secOf t) (stagingSlot u) = false ∧ imageOf t.update.mram (stagingSlot u) = none
          ∧ t.update.session.map (·.owner) = some p.source))
  ∧ (∀ (p : Packet) (s : State) (x : Session), Accepts specWriteImageBlock p s →
      let u := taken p s
      let len := fieldAt p.params 8 2
      u.update.session = some x → x.id = fieldAt p.params 0 4 → 4 ≤ len → len ≤ 224 → len % 4 = 0 → p.plen = 3 + len / 4 → zeroAt p.params 10 2 = true →
      fieldAt p.params 4 4 = x.body.length → x.body.length + len ≤ x.image.length →
      let y := { x with body := x.body ++ (p.params.drop 12).take len }
      let t := modSession (fun _ => y) u
      let v := modMram (putImage (stagingSlot u) (some x.image)) (modSession (fun z => { z with verified := true }) t)
      (y.body.length ≠ x.image.length → exec (.writeImageBlock p) s = .next (answered specWriteImageBlock p 0 0
        (le 4 y.body.length ++ le 1 (sessionCode t) ++ zeros 3) t))
      ∧ (y.body.length = x.image.length → sha256 y.body = x.digest → exec (.writeImageBlock p) s = .next (answered specWriteImageBlock p 0 0
          (le 4 y.body.length ++ le 1 3 ++ zeros 3)
          (raiseEvent 0 0x0E02 (zeros 1 ++ le 1 (sourceCode x.owner) ++ zeros 2 ++ le 4 x.id ++ le 4 x.image.fwVer) v)))
      ∧ (y.body.length = x.image.length → sha256 y.body ≠ x.digest → exec (.writeImageBlock p) s = .next (answered specWriteImageBlock p 0x30 0x0E0006 []
          (endSession 5 t))))
  ∧ (∀ (p : Packet) (s : State) (x : Session),
      let u := taken p s
      u.update.session = some x → x.id = fieldAt p.params 0 4 →
      (Accepts specCloseSession p s → exec (.closeSession p) s = .next (answered specCloseSession p 0 0 [] (endSession 1 u)))
      ∧ (Accepts specVeto p s → x.id ≠ 0xFFFFFFFF → exec (.veto p) s = .next (answered specVeto p 0 0 [] (endSession 2 u)))
      ∧ (Accepts specApprove p s → x.digest.take 8 = (p.params.drop 4).take 8 →
          exec (.approve p) s = .next (answered specApprove p 0 0 [] (modSession (fun z => { z with approved := true }) u)))
      ∧ (Accepts specActivate p s →
          let confirm := if fieldAt p.params 4 2 = 0 then 120 else fieldAt p.params 4 2
          let minProof := if fieldAt p.params 6 2 = 0 then 5 else fieldAt p.params 6 2
          let q := { p with opcode := 0x0E04 }
          let t := activateNow q confirm minProof u
          10 ≤ confirm → confirm ≤ 3600 → minProof < confirm → x.verified = true → guardFailure u = none →
          ((secOf u).reqApproval = false ∨ p.source = .sp ∨ x.approved = true) →
          exec (.activate p) s = .next (fcSettle (conclude q u (.wait t)))
          ∧ secOf t = { secOf u with trial := true, trialSlot := otherSlot (secOf u).activeSlot, trialArea := otherSlot (secOf u).activeArea }
          ∧ t.update.session = none ∧ t.engine.pause = some .activation))
  ∧ (∀ (p : Packet) (s : State),
      let u := taken p s
      let told := fun op body => deliverReply { dest := p.source, opcode := op, tag := p.tag, status := 0, position := u.pos, detail := 0, body := body } u
      (Accepts specVeto p s → (fieldAt p.params 0 4 = 0xFFFFFFFF ∨ (u.update.session = none ∧ fieldAt p.params 0 4 = u.update.opened)) → u.aon.proof = true →
        exec (.veto p) s = .next (fcSettle (startFallback 3 (told 0x0E06 []))))
      ∧ (Accepts specRejectImage p s → u.aon.proof = true →
          exec (.rejectImage p) s = .next (fcSettle (startFallback (if p.source = .sp then 3 else 2) (told 0x0E07 (le 8 (stampNow u))))))
      ∧ (∀ t, Accepts specRejectImage p s → u.aon.proof = false → u.update.fixInstant = some t →
          exec (.rejectImage p) s = .next (answered specRejectImage p 0x02 0 (le 8 t) u)))
  ∧ (∀ (p : Packet) (s : State),
      let u := taken p s
      let x := secOf u
      (Accepts specGetUpdateStatus p s → exec (.getUpdateStatus p) s = .next (answered specGetUpdateStatus p 0 0 (updateRecord u) u))
      ∧ (Accepts specGetSecurity p s → exec (.getSecurity p) s = .next (answered specGetSecurity p 0 0
          (le 1 (securityFlags u) ++ le 1 x.op ++ le 2 x.lowMv ++ le 4 x.signal ++ le 4 (unsignedOf 32 x.limit) ++ le 4 x.rollbackMin
            ++ le 1 (total ((List.range 4).map fun n => flag (keyPresent x n) (2 ^ n)) + 16 * x.revoked.toNat) ++ zeros 7
            ++ (List.range 4).flatMap (keyId x) ++ le 8 (stampNow u)) u)))
  ∧ (∀ (p : Packet) (s : State),
      let u := taken p s
      let op := byteAt p.params 1
      let raw := fieldAt p.params 2 2
      let signal := fieldAt p.params 4 4
      let limit := fieldAt p.params 8 4
      let told := fun t : State => le 1 (securityFlags t) ++ zeros 3 ++ le 8 (stampNow t)
      (Accepts specSetOwnerLock p s → zeroAt p.params 12 4 = true →
        (byteAt p.params 0 = 1 → op = 0 → raw = 0 → signal = 0 → limit = 0 →
          let t := modSec (fun x => { x with lock := true }) u
          exec (.setOwnerLock p) s = .next (answered specSetOwnerLock p 0 0 (told t) t))
        ∧ (byteAt p.params 0 = 2 → op = 0 → raw = 0 → signal = 0 → limit = 0 →
          let t := modSec (fun x => { x with reqApproval := true }) u
          exec (.setOwnerLock p) s = .next (answered specSetOwnerLock p 0 0 (told t) t))
        ∧ (byteAt p.params 0 = 3 → 1 ≤ op → op ≤ 3 → raw = 0 → signal < 0x40000 → (p.source = .sp ∨ (secOf u).motionEn = false) →
          let t := modSec (fun x => { x with motionEn := true, op := op, signal := signal, limit := signedOf 32 limit }) u
          exec (.setOwnerLock p) s = .next (answered specSetOwnerLock p 0 0 (told t) t))
        ∧ (byteAt p.params 0 = 4 → op = 0 → signal = 0 → limit = 0 →
          let low := if raw = 0 then 11800 else raw
          let t := modSec (fun x => { x with lowMv := low }) u
          9000 ≤ low → low ≤ 14000 → (p.source = .sp ∨ (secOf u).lowMv ≤ low) →
          exec (.setOwnerLock p) s = .next (answered specSetOwnerLock p 0 0 (told t) t)))
      ∧ (Accepts specClearOwnerLock p s → 1 ≤ byteAt p.params 0 → byteAt p.params 0 ≤ 3 → zeroAt p.params 1 3 = true →
          let t := modSec (fun x => if byteAt p.params 0 = 1 then { x with lock := false }
            else if byteAt p.params 0 = 2 then { x with reqApproval := false } else { x with motionEn := false }) u
          exec (.clearOwnerLock p) s = .next (answered specClearOwnerLock p 0 0 (told t) t)))

/-- Proof mode starts, the image fixes, the confirmation timer and a session's idle time run out. R576, R580, R581, R582, R583,
R587, R595. The model's own choice: log entry 3, log entry 5. -/
def Obligations.ProofModeComplete : Prop :=
  (∀ (s : State) (i : Image), activationDue s = true → s.aon.proof = false → trialValid (secOf s) = true →
      slotPasses s (secOf s).trialSlot true = true → imageOf s.update.mram (secOf s).trialSlot = some i →
      exec .proofModeStart s = .next (fcSettle (startProof s))
      ∧ (∀ r : State, (r.aon.bootResult = 2 → endRecovery r = readyOn (oneBit 2) { r with aon := { r.aon with bootResult := 1 } })
          ∧ (r.aon.bootResult ≠ 2 → endRecovery r = r))
      ∧ (areaUnreadable s i = none → startProof s = raiseEvent 0 0x0E04
          (le 1 0 ++ zeros 1 ++ le 2 (areaOf s.update.mram (secOf s).activeArea).fmt ++ le 4 (i.fwVer % 0x1000000) ++ le 2 s.update.confirm)
          (endRecovery (drawn 1 { s with
            aon := { s.aon with proof := true, bootSlot := some (secOf s).trialSlot }
            update := { s.update with
              running := some (secOf s).trialSlot, unreadable := none, fmtWritten := true, restarted := false, fixInstant := none
              mram := modArea (secOf s).trialArea (fun _ => ownArea i s) s.update.mram } })))
      ∧ (ownArea i s).fmt = i.settingsFmt ∧ (ownArea i s).state = 1 ∧ (ownArea i s).seq = (secOf s).commitSeq ∧ (ownArea i s).magic = settingsMagic
      ∧ (ownArea i s).length = (ownArea i s).records.length ∧ (ownArea i s).crc = crc32 (ownArea i s).records)
  ∧ (∀ (s : State) (e : Nat), s.update.timerEnd = some e → s.aon.proof = true → s.engine.pause = none → s.update.unreadable = none →
      s.update.fmtWritten = true → s.update.restarted = false →
      let t := reachClk (s.update.timerStart + s.update.minProof * secNs) s
      exec (.fix true) s = .next (fcSettle (if e ≤ t.time.clk then t else fixImage t)))
  ∧ (∀ s : State, exec (.fix false) s = .next (fcSettle s))
  ∧ (∀ (s : State) (e : Nat), s.update.timerEnd = some e → s.aon.proof = true →
      exec .confirmTimerExpiry s = .next (fcSettle (startFallback 1 (reachClk e s))))
  ∧ (∀ (s : State) (x : Session), s.update.session = some x →
      exec .sessionIdleTimeout s = .next (fcSettle (endSession 3 (reachClk (x.lastAt + 10 * secNs) s))))

/-- A fix makes the trial slot and area active, raises ROLLBACK_MIN, revokes keys, discards the old area and leaves proof mode.
R581, R582, R595. -/
def Obligations.FixFollowsTheStepsOfR582 : Prop :=
  (∀ (s : State) (e : Nat) (i : Image), s.update.timerEnd = some e → s.aon.proof = true → s.engine.pause = none → s.update.unreadable = none →
      s.update.fmtWritten = true → s.update.restarted = false → (secOf s).trialArea ≠ (secOf s).activeArea →
      imageOf s.update.mram (secOf s).trialSlot = some i →
      let t := reachClk (s.update.timerStart + s.update.minProof * secNs) s
      t.time.clk < e →
      let x := secOf s
      ∃ v, exec (.fix true) s = .next v
        ∧ { secOf v with fixedA := x.fixedA, fixedB := x.fixedB } = { x with
              activeSlot := x.trialSlot, activeArea := x.trialArea, rollbackMin := max x.rollbackMin i.rollback, revoked := x.revoked ||| i.revoke
              commitSeq := (x.commitSeq + 1) % 65536, trial := false }
        ∧ fixedOnce (secOf v) x.trialSlot = true ∧ fixedOnce (secOf v) (otherSlot x.trialSlot) = fixedOnce x (otherSlot x.trialSlot)
        ∧ areaOf v.update.mram x.trialArea = { areaOf s.update.mram x.trialArea with state := 2 }
        ∧ areaOf v.update.mram x.activeArea = { areaOf s.update.mram x.activeArea with state := 3 }
        ∧ v.update.mram.slotA = s.update.mram.slotA ∧ v.update.mram.slotB = s.update.mram.slotB
        ∧ v.aon = { t.aon with proof := false } ∧ (t.aon.bootResult ≠ 2 → v.update.running.isSome = true → imageState v = 1)
        ∧ v.update.fixInstant = some (stampNow t) ∧ v.update.timerEnd = none ∧ v.update.fixes = min (t.update.fixes + 1) 0xFFFFFFFF
        ∧ v.update.fallbacks = t.update.fallbacks ∧ v.update.session = t.update.session
        ∧ Tells { t with aon := v.aon, update := v.update } v)
  ∧ (∀ x : Security, trialValid { x with activeSlot := x.trialSlot } = false)

/-- A fallback discards the trial area, records the rejected image with its reason and loads the fixed slot with its settings
untouched. R583, R585, R586, R587, R591, R595. The model's own choice: log entry 38. -/
def Obligations.FallbackFollowsTheStepsOfR583 : Prop :=
  (∀ (p : Packet) (s : State) (e : Nat), s.aon.proof = true → (secOf s).trialArea ≠ (secOf s).activeArea →
      let x := secOf s
      let fell := fun (i : Instr) (reason : Nat) => ∃ v, exec i s = .next v
        ∧ areaOf v.update.mram x.trialArea = { areaOf s.update.mram x.trialArea with state := 3 }
        ∧ areaOf v.update.mram x.activeArea = areaOf s.update.mram x.activeArea
        ∧ v.update.mram.slotA = s.update.mram.slotA ∧ v.update.mram.slotB = s.update.mram.slotB
        ∧ secOf v = { x with trial := false, rejectedVer := imageVer s x.trialSlot, rejectedWhy := reason }
        ∧ v.update.timerEnd = none ∧ v.update.fallbacks = min (s.update.fallbacks + 1) 0xFFFFFFFF ∧ v.engine.pause = some .fallback
        ∧ v.aon = s.aon ∧ v.mos = s.mos ∧ v.routes = s.routes ∧ v.cvus = s.cvus
      (s.update.timerEnd = some e → fell .confirmTimerExpiry 1)
      ∧ (Accepts specRejectImage p s → fell (.rejectImage p) (if p.source = .sp then 3 else 2))
      ∧ (Accepts specVeto p s → (fieldAt p.params 0 4 = 0xFFFFFFFF ∨ (s.update.session = none ∧ fieldAt p.params 0 4 = s.update.opened)) → fell (.veto p) 3))
  ∧ (∀ (g : Bool) (s : State), s.engine.pause = some .fallback →
      (slotPasses s (secOf s).activeSlot true && fixedOnce (secOf s) (secOf s).activeSlot) = false →
      exec (.commandPauseEnd g) s = .next (fcSettle (deliverLate (fallbackEvent (enterRecovery s)))))
  ∧ (∀ (g : Bool) (s : State), s.engine.pause = some .fallback → slotPasses s (secOf s).activeSlot true = true →
      fixedOnce (secOf s) (secOf s).activeSlot = true → ∃ v, exec (.commandPauseEnd g) s = .next v
      ∧ v.update.running = some (secOf s).activeSlot ∧ v.aon = { s.aon with proof := false, bootSlot := some (secOf s).activeSlot }
      ∧ v.update.mram = s.update.mram ∧ v.update.unreadable = readSettings (secOf s).activeSlot s ∧ v.update.savedModes = [] ∧ v.engine.pause = none
      ∧ ∀ ch, ch < 64 → s.update.savedModes ≠ [] → (s.chan ch).state ≠ .disabled →
          (v.chan ch).nextMode.getD (v.chan ch).mode = s.update.savedModes.getD ch 0)
end

