-- ==== Sys2Proof/Laws/Tables.lean ====
section
/-!
SUPPORT. What the operations of the numbered tables keep and read: the numbers rise, and an entry reads as it was set.
-/

namespace Sys2Proof

theorem rising_cons {α : Type} {j : Nat} {x : α} {l : List (Nat × α)} :
    rising ((j, x) :: l) = true ↔ (∀ p ∈ l.head?, j < p.1) ∧ rising l = true := by
  cases l with
  | nil => simp [rising]
  | cons b l => simp [rising]

theorem rising_mset {α : Type} {l : List (Nat × α)} {k : Nat} {v : α} (h : rising l = true) : rising (mset l k v) = true := by
  induction l with
  | nil => rfl
  | cons p l ih =>
    obtain ⟨j, x⟩ := p
    rw [rising_cons] at h
    unfold mset
    split
    · rw [rising_cons, rising_cons]
      exact ⟨by simpa, h⟩
    · split
      · subst_vars; rw [rising_cons]; exact h
      · rw [rising_cons]
        refine ⟨?_, ih h.2⟩
        intro p hp
        cases l with
        | nil => simp [mset] at hp; subst hp; dsimp only; omega
        | cons q l =>
          obtain ⟨i, y⟩ := q
          have hq := h.1 (i, y) rfl
          unfold mset at hp
          split at hp
          · simp at hp; subst hp; dsimp only; omega
          · split at hp <;> simp at hp <;> subst hp <;> dsimp only at * <;> omega

theorem rising_tail {α : Type} {p : Nat × α} {l : List (Nat × α)} (h : rising (p :: l) = true) : rising l = true := by
  cases l with
  | nil => rfl
  | cons q l => simp only [rising, Bool.and_eq_true] at h; exact h.2

theorem rising_head_lt {α : Type} {j : Nat} {x : α} {l : List (Nat × α)} (h : rising ((j, x) :: l) = true) :
    ∀ p ∈ l, j < p.1 := by
  induction l generalizing j x with
  | nil => intro p hp; cases hp
  | cons q l ih =>
    obtain ⟨i, y⟩ := q
    have hq := (rising_cons.1 h).1 (i, y) rfl
    intro p hp
    cases hp with
    | head => exact hq
    | tail _ hp => exact Nat.lt_trans hq (ih (rising_cons.1 h).2 p hp)

theorem mem_mdel {α : Type} {l : List (Nat × α)} {k : Nat} {p : Nat × α} (h : p ∈ mdel l k) : p ∈ l := by
  induction l with
  | nil => exact h
  | cons q l ih =>
    unfold mdel at h
    split at h
    · exact .tail _ h
    · cases h with
      | head => exact .head _
      | tail _ h => exact .tail _ (ih h)

theorem rising_mdel {α : Type} {l : List (Nat × α)} {k : Nat} (h : rising l = true) : rising (mdel l k) = true := by
  induction l with
  | nil => rfl
  | cons p l ih =>
    unfold mdel
    split
    · exact rising_tail h
    · rw [rising_cons]
      exact ⟨fun q hq => rising_head_lt h q (mem_mdel (List.mem_of_mem_head? hq)), ih (rising_tail h)⟩

theorem rising_mmod {α : Type} {l : List (Nat × α)} {k : Nat} {f : α → α} (h : rising l = true) : rising (mmod l k f) = true := by
  unfold mmod
  split
  · exact rising_mset h
  · exact h

theorem rising_map {α β : Type} {l : List (Nat × α)} {f : Nat × α → Nat × β} (hf : ∀ p, (f p).1 = p.1) (h : rising l = true) :
    rising (l.map f) = true := by
  induction l with
  | nil => rfl
  | cons p l ih =>
    rw [List.map_cons]
    have e : f p = (p.1, (f p).2) := Prod.ext (hf p) rfl
    rw [e, rising_cons]
    refine ⟨?_, ih (rising_tail h)⟩
    intro q hq
    rw [List.head?_map] at hq
    cases l with
    | nil => simp at hq
    | cons r l =>
      simp at hq
      subst hq
      have := (rising_cons (j := p.1) (x := p.2)).1 h
      rw [hf]
      exact this.1 r rfl

theorem tget_tmod_self {α : Type} {n i : Nat} {v : Vector α n} (f : α → α) (d : α) (h : i < n) : tget (tmod v i f) i d = f (tget v i d) := by
  simp [tget, tmod, h]

theorem tget_tmod_ne {α : Type} {n i j : Nat} {v : Vector α n} (f : α → α) (d : α) (h : i ≠ j) : tget (tmod v i f) j d = tget v j d := by
  unfold tget tmod
  split
  · rw [Vector.getElem?_set_ne _ h]
  · rfl

@[simp] theorem mget_mset_self {α : Type} (l : List (Nat × α)) (k : Nat) (v : α) : mget (mset l k v) k = some v := by
  induction l with
  | nil => simp [mset, mget]
  | cons p l ih =>
    obtain ⟨j, x⟩ := p
    unfold mset
    split
    · simp [mget]
    · split
      · simp [mget]
      · rename_i h
        simp only [mget, if_neg (Ne.symm h)]
        exact ih

theorem mget_mset_ne {α : Type} (l : List (Nat × α)) (k m : Nat) (v : α) (h : k ≠ m) : mget (mset l k v) m = mget l m := by
  induction l with
  | nil => simp [mset, mget, h]
  | cons p l ih =>
    obtain ⟨j, x⟩ := p
    unfold mset
    split
    · simp [mget, h]
    · split
      · subst_vars; simp [mget, h]
      · simp only [mget, ih]

theorem mget_mdel_ne {α : Type} (l : List (Nat × α)) (k m : Nat) (h : k ≠ m) : mget (mdel l k) m = mget l m := by
  induction l with
  | nil => rfl
  | cons p l ih =>
    obtain ⟨j, x⟩ := p
    unfold mdel
    split
    · subst_vars; simp [mget, h]
    · simp only [mget, ih]

theorem mget_above {α : Type} {l : List (Nat × α)} {k : Nat} (h : ∀ p ∈ l, k < p.1) : mget l k = none := by
  induction l with
  | nil => rfl
  | cons p l ih =>
    have hp := h p (.head _)
    simp only [mget]
    rw [if_neg (by omega)]
    exact ih fun q hq => h q (.tail _ hq)

theorem mget_mdel_self {α : Type} (l : List (Nat × α)) (k : Nat) (h : rising l = true) : mget (mdel l k) k = none := by
  induction l with
  | nil => rfl
  | cons p l ih =>
    obtain ⟨j, x⟩ := p
    unfold mdel
    split
    · subst_vars; exact mget_above (rising_head_lt h)
    · rename_i hj
      simp only [mget, if_neg hj]
      exact ih (rising_tail h)

theorem mget_mmod_self {α : Type} (l : List (Nat × α)) (k : Nat) (f : α → α) : mget (mmod l k f) k = (mget l k).map f := by
  unfold mmod
  cases e : mget l k with
  | none => simpa using e
  | some a => simp

theorem mget_mmod_ne {α : Type} (l : List (Nat × α)) (k m : Nat) (f : α → α) (h : k ≠ m) : mget (mmod l k f) m = mget l m := by
  unfold mmod
  split
  · exact mget_mset_ne _ _ _ _ h
  · rfl

end Sys2Proof
end

