-- ==== Sys2Proof/Laws/State.lean ====
section
/-!
SUPPORT. Every field after every named update of the state: what it leaves alone reads as before, and what it writes reads
as written.
-/

namespace Sys2Proof.Machine

/-! ### Fields that an update leaves alone -/

@[simp] theorem State.modChan_pending (s : State) (c : Nat) (f : Chan → Chan) : (s.modChan c f).pending = s.pending := rfl
@[simp] theorem State.modChan_aon (s : State) (c : Nat) (f : Chan → Chan) : (s.modChan c f).aon = s.aon := rfl
@[simp] theorem State.modChan_log (s : State) (c : Nat) (f : Chan → Chan) : (s.modChan c f).log = s.log := rfl
@[simp] theorem State.modChan_mem (s : State) (c : Nat) (f : Chan → Chan) : (s.modChan c f).mem = s.mem := rfl
@[simp] theorem State.modChan_host (s : State) (c : Nat) (f : Chan → Chan) : (s.modChan c f).host = s.host := rfl
@[simp] theorem State.modChan_sp (s : State) (c : Nat) (f : Chan → Chan) : (s.modChan c f).sp = s.sp := rfl
@[simp] theorem State.modChan_engine (s : State) (c : Nat) (f : Chan → Chan) : (s.modChan c f).engine = s.engine := rfl
@[simp] theorem State.modChan_ctxs (s : State) (c : Nat) (f : Chan → Chan) : (s.modChan c f).ctxs = s.ctxs := rfl
@[simp] theorem State.modChan_cqs (s : State) (c : Nat) (f : Chan → Chan) : (s.modChan c f).cqs = s.cqs := rfl
@[simp] theorem State.modChan_fq (s : State) (c : Nat) (f : Chan → Chan) : (s.modChan c f).fq = s.fq := rfl
@[simp] theorem State.modChan_time (s : State) (c : Nat) (f : Chan → Chan) : (s.modChan c f).time = s.time := rfl
@[simp] theorem State.modChan_schedules (s : State) (c : Nat) (f : Chan → Chan) : (s.modChan c f).schedules = s.schedules := rfl
@[simp] theorem State.modChan_triggers (s : State) (c : Nat) (f : Chan → Chan) : (s.modChan c f).triggers = s.triggers := rfl
@[simp] theorem State.modChan_pulses (s : State) (c : Nat) (f : Chan → Chan) : (s.modChan c f).pulses = s.pulses := rfl
@[simp] theorem State.modChan_film (s : State) (c : Nat) (f : Chan → Chan) : (s.modChan c f).film = s.film := rfl
@[simp] theorem State.modChan_mos (s : State) (c : Nat) (f : Chan → Chan) : (s.modChan c f).mos = s.mos := rfl
@[simp] theorem State.modChan_pool (s : State) (c : Nat) (f : Chan → Chan) : (s.modChan c f).pool = s.pool := rfl
@[simp] theorem State.modChan_filters (s : State) (c : Nat) (f : Chan → Chan) : (s.modChan c f).filters = s.filters := rfl
@[simp] theorem State.modChan_records (s : State) (c : Nat) (f : Chan → Chan) : (s.modChan c f).records = s.records := rfl
@[simp] theorem State.modChan_routes (s : State) (c : Nat) (f : Chan → Chan) : (s.modChan c f).routes = s.routes := rfl
@[simp] theorem State.modChan_monitors (s : State) (c : Nat) (f : Chan → Chan) : (s.modChan c f).monitors = s.monitors := rfl
@[simp] theorem State.modChan_pdus (s : State) (c : Nat) (f : Chan → Chan) : (s.modChan c f).pdus = s.pdus := rfl
@[simp] theorem State.modChan_sigs (s : State) (c : Nat) (f : Chan → Chan) : (s.modChan c f).sigs = s.sigs := rfl
@[simp] theorem State.modChan_lanes (s : State) (c : Nat) (f : Chan → Chan) : (s.modChan c f).lanes = s.lanes := rfl
@[simp] theorem State.modChan_localIo (s : State) (c : Nat) (f : Chan → Chan) : (s.modChan c f).localIo = s.localIo := rfl
@[simp] theorem State.modChan_bundle (s : State) (c : Nat) (f : Chan → Chan) : (s.modChan c f).bundle = s.bundle := rfl
@[simp] theorem State.modChan_cvus (s : State) (c : Nat) (f : Chan → Chan) : (s.modChan c f).cvus = s.cvus := rfl
@[simp] theorem State.modChan_load (s : State) (c : Nat) (f : Chan → Chan) : (s.modChan c f).load = s.load := rfl
@[simp] theorem State.modChan_linkA (s : State) (c : Nat) (f : Chan → Chan) : (s.modChan c f).linkA = s.linkA := rfl
@[simp] theorem State.modChan_linkB (s : State) (c : Nat) (f : Chan → Chan) : (s.modChan c f).linkB = s.linkB := rfl
@[simp] theorem State.modChan_stack (s : State) (c : Nat) (f : Chan → Chan) : (s.modChan c f).stack = s.stack := rfl
@[simp] theorem State.modChan_census (s : State) (c : Nat) (f : Chan → Chan) : (s.modChan c f).census = s.census := rfl
@[simp] theorem State.modChan_update (s : State) (c : Nat) (f : Chan → Chan) : (s.modChan c f).update = s.update := rfl
@[simp] theorem State.modChan_banks (s : State) (c : Nat) (f : Chan → Chan) : (s.modChan c f).banks = s.banks := rfl
@[simp] theorem State.modChan_free (s : State) (c : Nat) (f : Chan → Chan) : (s.modChan c f).free = s.free := rfl
@[simp] theorem State.modChan_out (s : State) (c : Nat) (f : Chan → Chan) : (s.modChan c f).out = s.out := rfl

@[simp] theorem State.modCtx_pending (s : State) (c : Nat) (f : Ctx → Ctx) : (s.modCtx c f).pending = s.pending := rfl
@[simp] theorem State.modCtx_aon (s : State) (c : Nat) (f : Ctx → Ctx) : (s.modCtx c f).aon = s.aon := rfl
@[simp] theorem State.modCtx_log (s : State) (c : Nat) (f : Ctx → Ctx) : (s.modCtx c f).log = s.log := rfl
@[simp] theorem State.modCtx_mem (s : State) (c : Nat) (f : Ctx → Ctx) : (s.modCtx c f).mem = s.mem := rfl
@[simp] theorem State.modCtx_host (s : State) (c : Nat) (f : Ctx → Ctx) : (s.modCtx c f).host = s.host := rfl
@[simp] theorem State.modCtx_sp (s : State) (c : Nat) (f : Ctx → Ctx) : (s.modCtx c f).sp = s.sp := rfl
@[simp] theorem State.modCtx_engine (s : State) (c : Nat) (f : Ctx → Ctx) : (s.modCtx c f).engine = s.engine := rfl
@[simp] theorem State.modCtx_cqs (s : State) (c : Nat) (f : Ctx → Ctx) : (s.modCtx c f).cqs = s.cqs := rfl
@[simp] theorem State.modCtx_fq (s : State) (c : Nat) (f : Ctx → Ctx) : (s.modCtx c f).fq = s.fq := rfl
@[simp] theorem State.modCtx_time (s : State) (c : Nat) (f : Ctx → Ctx) : (s.modCtx c f).time = s.time := rfl
@[simp] theorem State.modCtx_schedules (s : State) (c : Nat) (f : Ctx → Ctx) : (s.modCtx c f).schedules = s.schedules := rfl
@[simp] theorem State.modCtx_triggers (s : State) (c : Nat) (f : Ctx → Ctx) : (s.modCtx c f).triggers = s.triggers := rfl
@[simp] theorem State.modCtx_pulses (s : State) (c : Nat) (f : Ctx → Ctx) : (s.modCtx c f).pulses = s.pulses := rfl
@[simp] theorem State.modCtx_chans (s : State) (c : Nat) (f : Ctx → Ctx) : (s.modCtx c f).chans = s.chans := rfl
@[simp] theorem State.modCtx_film (s : State) (c : Nat) (f : Ctx → Ctx) : (s.modCtx c f).film = s.film := rfl
@[simp] theorem State.modCtx_mos (s : State) (c : Nat) (f : Ctx → Ctx) : (s.modCtx c f).mos = s.mos := rfl
@[simp] theorem State.modCtx_pool (s : State) (c : Nat) (f : Ctx → Ctx) : (s.modCtx c f).pool = s.pool := rfl
@[simp] theorem State.modCtx_filters (s : State) (c : Nat) (f : Ctx → Ctx) : (s.modCtx c f).filters = s.filters := rfl
@[simp] theorem State.modCtx_records (s : State) (c : Nat) (f : Ctx → Ctx) : (s.modCtx c f).records = s.records := rfl
@[simp] theorem State.modCtx_routes (s : State) (c : Nat) (f : Ctx → Ctx) : (s.modCtx c f).routes = s.routes := rfl
@[simp] theorem State.modCtx_monitors (s : State) (c : Nat) (f : Ctx → Ctx) : (s.modCtx c f).monitors = s.monitors := rfl
@[simp] theorem State.modCtx_pdus (s : State) (c : Nat) (f : Ctx → Ctx) : (s.modCtx c f).pdus = s.pdus := rfl
@[simp] theorem State.modCtx_sigs (s : State) (c : Nat) (f : Ctx → Ctx) : (s.modCtx c f).sigs = s.sigs := rfl
@[simp] theorem State.modCtx_lanes (s : State) (c : Nat) (f : Ctx → Ctx) : (s.modCtx c f).lanes = s.lanes := rfl
@[simp] theorem State.modCtx_localIo (s : State) (c : Nat) (f : Ctx → Ctx) : (s.modCtx c f).localIo = s.localIo := rfl
@[simp] theorem State.modCtx_bundle (s : State) (c : Nat) (f : Ctx → Ctx) : (s.modCtx c f).bundle = s.bundle := rfl
@[simp] theorem State.modCtx_cvus (s : State) (c : Nat) (f : Ctx → Ctx) : (s.modCtx c f).cvus = s.cvus := rfl
@[simp] theorem State.modCtx_load (s : State) (c : Nat) (f : Ctx → Ctx) : (s.modCtx c f).load = s.load := rfl
@[simp] theorem State.modCtx_linkA (s : State) (c : Nat) (f : Ctx → Ctx) : (s.modCtx c f).linkA = s.linkA := rfl
@[simp] theorem State.modCtx_linkB (s : State) (c : Nat) (f : Ctx → Ctx) : (s.modCtx c f).linkB = s.linkB := rfl
@[simp] theorem State.modCtx_stack (s : State) (c : Nat) (f : Ctx → Ctx) : (s.modCtx c f).stack = s.stack := rfl
@[simp] theorem State.modCtx_census (s : State) (c : Nat) (f : Ctx → Ctx) : (s.modCtx c f).census = s.census := rfl
@[simp] theorem State.modCtx_update (s : State) (c : Nat) (f : Ctx → Ctx) : (s.modCtx c f).update = s.update := rfl
@[simp] theorem State.modCtx_banks (s : State) (c : Nat) (f : Ctx → Ctx) : (s.modCtx c f).banks = s.banks := rfl
@[simp] theorem State.modCtx_free (s : State) (c : Nat) (f : Ctx → Ctx) : (s.modCtx c f).free = s.free := rfl
@[simp] theorem State.modCtx_out (s : State) (c : Nat) (f : Ctx → Ctx) : (s.modCtx c f).out = s.out := rfl

@[simp] theorem State.modCq_pending (s : State) (c : Nat) (f : CtxQueues → CtxQueues) : (s.modCq c f).pending = s.pending := rfl
@[simp] theorem State.modCq_aon (s : State) (c : Nat) (f : CtxQueues → CtxQueues) : (s.modCq c f).aon = s.aon := rfl
@[simp] theorem State.modCq_log (s : State) (c : Nat) (f : CtxQueues → CtxQueues) : (s.modCq c f).log = s.log := rfl
@[simp] theorem State.modCq_mem (s : State) (c : Nat) (f : CtxQueues → CtxQueues) : (s.modCq c f).mem = s.mem := rfl
@[simp] theorem State.modCq_host (s : State) (c : Nat) (f : CtxQueues → CtxQueues) : (s.modCq c f).host = s.host := rfl
@[simp] theorem State.modCq_sp (s : State) (c : Nat) (f : CtxQueues → CtxQueues) : (s.modCq c f).sp = s.sp := rfl
@[simp] theorem State.modCq_engine (s : State) (c : Nat) (f : CtxQueues → CtxQueues) : (s.modCq c f).engine = s.engine := rfl
@[simp] theorem State.modCq_ctxs (s : State) (c : Nat) (f : CtxQueues → CtxQueues) : (s.modCq c f).ctxs = s.ctxs := rfl
@[simp] theorem State.modCq_fq (s : State) (c : Nat) (f : CtxQueues → CtxQueues) : (s.modCq c f).fq = s.fq := rfl
@[simp] theorem State.modCq_time (s : State) (c : Nat) (f : CtxQueues → CtxQueues) : (s.modCq c f).time = s.time := rfl
@[simp] theorem State.modCq_schedules (s : State) (c : Nat) (f : CtxQueues → CtxQueues) : (s.modCq c f).schedules = s.schedules := rfl
@[simp] theorem State.modCq_triggers (s : State) (c : Nat) (f : CtxQueues → CtxQueues) : (s.modCq c f).triggers = s.triggers := rfl
@[simp] theorem State.modCq_pulses (s : State) (c : Nat) (f : CtxQueues → CtxQueues) : (s.modCq c f).pulses = s.pulses := rfl
@[simp] theorem State.modCq_chans (s : State) (c : Nat) (f : CtxQueues → CtxQueues) : (s.modCq c f).chans = s.chans := rfl
@[simp] theorem State.modCq_film (s : State) (c : Nat) (f : CtxQueues → CtxQueues) : (s.modCq c f).film = s.film := rfl
@[simp] theorem State.modCq_mos (s : State) (c : Nat) (f : CtxQueues → CtxQueues) : (s.modCq c f).mos = s.mos := rfl
@[simp] theorem State.modCq_pool (s : State) (c : Nat) (f : CtxQueues → CtxQueues) : (s.modCq c f).pool = s.pool := rfl
@[simp] theorem State.modCq_filters (s : State) (c : Nat) (f : CtxQueues → CtxQueues) : (s.modCq c f).filters = s.filters := rfl
@[simp] theorem State.modCq_records (s : State) (c : Nat) (f : CtxQueues → CtxQueues) : (s.modCq c f).records = s.records := rfl
@[simp] theorem State.modCq_routes (s : State) (c : Nat) (f : CtxQueues → CtxQueues) : (s.modCq c f).routes = s.routes := rfl
@[simp] theorem State.modCq_monitors (s : State) (c : Nat) (f : CtxQueues → CtxQueues) : (s.modCq c f).monitors = s.monitors := rfl
@[simp] theorem State.modCq_pdus (s : State) (c : Nat) (f : CtxQueues → CtxQueues) : (s.modCq c f).pdus = s.pdus := rfl
@[simp] theorem State.modCq_sigs (s : State) (c : Nat) (f : CtxQueues → CtxQueues) : (s.modCq c f).sigs = s.sigs := rfl
@[simp] theorem State.modCq_lanes (s : State) (c : Nat) (f : CtxQueues → CtxQueues) : (s.modCq c f).lanes = s.lanes := rfl
@[simp] theorem State.modCq_localIo (s : State) (c : Nat) (f : CtxQueues → CtxQueues) : (s.modCq c f).localIo = s.localIo := rfl
@[simp] theorem State.modCq_bundle (s : State) (c : Nat) (f : CtxQueues → CtxQueues) : (s.modCq c f).bundle = s.bundle := rfl
@[simp] theorem State.modCq_cvus (s : State) (c : Nat) (f : CtxQueues → CtxQueues) : (s.modCq c f).cvus = s.cvus := rfl
@[simp] theorem State.modCq_load (s : State) (c : Nat) (f : CtxQueues → CtxQueues) : (s.modCq c f).load = s.load := rfl
@[simp] theorem State.modCq_linkA (s : State) (c : Nat) (f : CtxQueues → CtxQueues) : (s.modCq c f).linkA = s.linkA := rfl
@[simp] theorem State.modCq_linkB (s : State) (c : Nat) (f : CtxQueues → CtxQueues) : (s.modCq c f).linkB = s.linkB := rfl
@[simp] theorem State.modCq_stack (s : State) (c : Nat) (f : CtxQueues → CtxQueues) : (s.modCq c f).stack = s.stack := rfl
@[simp] theorem State.modCq_census (s : State) (c : Nat) (f : CtxQueues → CtxQueues) : (s.modCq c f).census = s.census := rfl
@[simp] theorem State.modCq_update (s : State) (c : Nat) (f : CtxQueues → CtxQueues) : (s.modCq c f).update = s.update := rfl
@[simp] theorem State.modCq_banks (s : State) (c : Nat) (f : CtxQueues → CtxQueues) : (s.modCq c f).banks = s.banks := rfl
@[simp] theorem State.modCq_free (s : State) (c : Nat) (f : CtxQueues → CtxQueues) : (s.modCq c f).free = s.free := rfl
@[simp] theorem State.modCq_out (s : State) (c : Nat) (f : CtxQueues → CtxQueues) : (s.modCq c f).out = s.out := rfl

@[simp] theorem State.modFn_pending (s : State) (c : Nat) (f : Fn → Fn) : (s.modFn c f).pending = s.pending := rfl
@[simp] theorem State.modFn_aon (s : State) (c : Nat) (f : Fn → Fn) : (s.modFn c f).aon = s.aon := rfl
@[simp] theorem State.modFn_log (s : State) (c : Nat) (f : Fn → Fn) : (s.modFn c f).log = s.log := rfl
@[simp] theorem State.modFn_mem (s : State) (c : Nat) (f : Fn → Fn) : (s.modFn c f).mem = s.mem := rfl
@[simp] theorem State.modFn_sp (s : State) (c : Nat) (f : Fn → Fn) : (s.modFn c f).sp = s.sp := rfl
@[simp] theorem State.modFn_engine (s : State) (c : Nat) (f : Fn → Fn) : (s.modFn c f).engine = s.engine := rfl
@[simp] theorem State.modFn_ctxs (s : State) (c : Nat) (f : Fn → Fn) : (s.modFn c f).ctxs = s.ctxs := rfl
@[simp] theorem State.modFn_cqs (s : State) (c : Nat) (f : Fn → Fn) : (s.modFn c f).cqs = s.cqs := rfl
@[simp] theorem State.modFn_fq (s : State) (c : Nat) (f : Fn → Fn) : (s.modFn c f).fq = s.fq := rfl
@[simp] theorem State.modFn_time (s : State) (c : Nat) (f : Fn → Fn) : (s.modFn c f).time = s.time := rfl
@[simp] theorem State.modFn_schedules (s : State) (c : Nat) (f : Fn → Fn) : (s.modFn c f).schedules = s.schedules := rfl
@[simp] theorem State.modFn_triggers (s : State) (c : Nat) (f : Fn → Fn) : (s.modFn c f).triggers = s.triggers := rfl
@[simp] theorem State.modFn_pulses (s : State) (c : Nat) (f : Fn → Fn) : (s.modFn c f).pulses = s.pulses := rfl
@[simp] theorem State.modFn_chans (s : State) (c : Nat) (f : Fn → Fn) : (s.modFn c f).chans = s.chans := rfl
@[simp] theorem State.modFn_film (s : State) (c : Nat) (f : Fn → Fn) : (s.modFn c f).film = s.film := rfl
@[simp] theorem State.modFn_mos (s : State) (c : Nat) (f : Fn → Fn) : (s.modFn c f).mos = s.mos := rfl
@[simp] theorem State.modFn_pool (s : State) (c : Nat) (f : Fn → Fn) : (s.modFn c f).pool = s.pool := rfl
@[simp] theorem State.modFn_filters (s : State) (c : Nat) (f : Fn → Fn) : (s.modFn c f).filters = s.filters := rfl
@[simp] theorem State.modFn_records (s : State) (c : Nat) (f : Fn → Fn) : (s.modFn c f).records = s.records := rfl
@[simp] theorem State.modFn_routes (s : State) (c : Nat) (f : Fn → Fn) : (s.modFn c f).routes = s.routes := rfl
@[simp] theorem State.modFn_monitors (s : State) (c : Nat) (f : Fn → Fn) : (s.modFn c f).monitors = s.monitors := rfl
@[simp] theorem State.modFn_pdus (s : State) (c : Nat) (f : Fn → Fn) : (s.modFn c f).pdus = s.pdus := rfl
@[simp] theorem State.modFn_sigs (s : State) (c : Nat) (f : Fn → Fn) : (s.modFn c f).sigs = s.sigs := rfl
@[simp] theorem State.modFn_lanes (s : State) (c : Nat) (f : Fn → Fn) : (s.modFn c f).lanes = s.lanes := rfl
@[simp] theorem State.modFn_localIo (s : State) (c : Nat) (f : Fn → Fn) : (s.modFn c f).localIo = s.localIo := rfl
@[simp] theorem State.modFn_bundle (s : State) (c : Nat) (f : Fn → Fn) : (s.modFn c f).bundle = s.bundle := rfl
@[simp] theorem State.modFn_cvus (s : State) (c : Nat) (f : Fn → Fn) : (s.modFn c f).cvus = s.cvus := rfl
@[simp] theorem State.modFn_load (s : State) (c : Nat) (f : Fn → Fn) : (s.modFn c f).load = s.load := rfl
@[simp] theorem State.modFn_linkA (s : State) (c : Nat) (f : Fn → Fn) : (s.modFn c f).linkA = s.linkA := rfl
@[simp] theorem State.modFn_linkB (s : State) (c : Nat) (f : Fn → Fn) : (s.modFn c f).linkB = s.linkB := rfl
@[simp] theorem State.modFn_stack (s : State) (c : Nat) (f : Fn → Fn) : (s.modFn c f).stack = s.stack := rfl
@[simp] theorem State.modFn_census (s : State) (c : Nat) (f : Fn → Fn) : (s.modFn c f).census = s.census := rfl
@[simp] theorem State.modFn_update (s : State) (c : Nat) (f : Fn → Fn) : (s.modFn c f).update = s.update := rfl
@[simp] theorem State.modFn_banks (s : State) (c : Nat) (f : Fn → Fn) : (s.modFn c f).banks = s.banks := rfl
@[simp] theorem State.modFn_free (s : State) (c : Nat) (f : Fn → Fn) : (s.modFn c f).free = s.free := rfl
@[simp] theorem State.modFn_out (s : State) (c : Nat) (f : Fn → Fn) : (s.modFn c f).out = s.out := rfl

@[simp] theorem State.modRing_pending (s : State) (c k : Nat) (f : Ring → Ring) : (s.modRing c k f).pending = s.pending := rfl
@[simp] theorem State.modRing_aon (s : State) (c k : Nat) (f : Ring → Ring) : (s.modRing c k f).aon = s.aon := rfl
@[simp] theorem State.modRing_log (s : State) (c k : Nat) (f : Ring → Ring) : (s.modRing c k f).log = s.log := rfl
@[simp] theorem State.modRing_mem (s : State) (c k : Nat) (f : Ring → Ring) : (s.modRing c k f).mem = s.mem := rfl
@[simp] theorem State.modRing_sp (s : State) (c k : Nat) (f : Ring → Ring) : (s.modRing c k f).sp = s.sp := rfl
@[simp] theorem State.modRing_engine (s : State) (c k : Nat) (f : Ring → Ring) : (s.modRing c k f).engine = s.engine := rfl
@[simp] theorem State.modRing_ctxs (s : State) (c k : Nat) (f : Ring → Ring) : (s.modRing c k f).ctxs = s.ctxs := rfl
@[simp] theorem State.modRing_cqs (s : State) (c k : Nat) (f : Ring → Ring) : (s.modRing c k f).cqs = s.cqs := rfl
@[simp] theorem State.modRing_fq (s : State) (c k : Nat) (f : Ring → Ring) : (s.modRing c k f).fq = s.fq := rfl
@[simp] theorem State.modRing_time (s : State) (c k : Nat) (f : Ring → Ring) : (s.modRing c k f).time = s.time := rfl
@[simp] theorem State.modRing_schedules (s : State) (c k : Nat) (f : Ring → Ring) : (s.modRing c k f).schedules = s.schedules := rfl
@[simp] theorem State.modRing_triggers (s : State) (c k : Nat) (f : Ring → Ring) : (s.modRing c k f).triggers = s.triggers := rfl
@[simp] theorem State.modRing_pulses (s : State) (c k : Nat) (f : Ring → Ring) : (s.modRing c k f).pulses = s.pulses := rfl
@[simp] theorem State.modRing_chans (s : State) (c k : Nat) (f : Ring → Ring) : (s.modRing c k f).chans = s.chans := rfl
@[simp] theorem State.modRing_film (s : State) (c k : Nat) (f : Ring → Ring) : (s.modRing c k f).film = s.film := rfl
@[simp] theorem State.modRing_mos (s : State) (c k : Nat) (f : Ring → Ring) : (s.modRing c k f).mos = s.mos := rfl
@[simp] theorem State.modRing_pool (s : State) (c k : Nat) (f : Ring → Ring) : (s.modRing c k f).pool = s.pool := rfl
@[simp] theorem State.modRing_filters (s : State) (c k : Nat) (f : Ring → Ring) : (s.modRing c k f).filters = s.filters := rfl
@[simp] theorem State.modRing_records (s : State) (c k : Nat) (f : Ring → Ring) : (s.modRing c k f).records = s.records := rfl
@[simp] theorem State.modRing_routes (s : State) (c k : Nat) (f : Ring → Ring) : (s.modRing c k f).routes = s.routes := rfl
@[simp] theorem State.modRing_monitors (s : State) (c k : Nat) (f : Ring → Ring) : (s.modRing c k f).monitors = s.monitors := rfl
@[simp] theorem State.modRing_pdus (s : State) (c k : Nat) (f : Ring → Ring) : (s.modRing c k f).pdus = s.pdus := rfl
@[simp] theorem State.modRing_sigs (s : State) (c k : Nat) (f : Ring → Ring) : (s.modRing c k f).sigs = s.sigs := rfl
@[simp] theorem State.modRing_lanes (s : State) (c k : Nat) (f : Ring → Ring) : (s.modRing c k f).lanes = s.lanes := rfl
@[simp] theorem State.modRing_localIo (s : State) (c k : Nat) (f : Ring → Ring) : (s.modRing c k f).localIo = s.localIo := rfl
@[simp] theorem State.modRing_bundle (s : State) (c k : Nat) (f : Ring → Ring) : (s.modRing c k f).bundle = s.bundle := rfl
@[simp] theorem State.modRing_cvus (s : State) (c k : Nat) (f : Ring → Ring) : (s.modRing c k f).cvus = s.cvus := rfl
@[simp] theorem State.modRing_load (s : State) (c k : Nat) (f : Ring → Ring) : (s.modRing c k f).load = s.load := rfl
@[simp] theorem State.modRing_linkA (s : State) (c k : Nat) (f : Ring → Ring) : (s.modRing c k f).linkA = s.linkA := rfl
@[simp] theorem State.modRing_linkB (s : State) (c k : Nat) (f : Ring → Ring) : (s.modRing c k f).linkB = s.linkB := rfl
@[simp] theorem State.modRing_stack (s : State) (c k : Nat) (f : Ring → Ring) : (s.modRing c k f).stack = s.stack := rfl
@[simp] theorem State.modRing_census (s : State) (c k : Nat) (f : Ring → Ring) : (s.modRing c k f).census = s.census := rfl
@[simp] theorem State.modRing_update (s : State) (c k : Nat) (f : Ring → Ring) : (s.modRing c k f).update = s.update := rfl
@[simp] theorem State.modRing_banks (s : State) (c k : Nat) (f : Ring → Ring) : (s.modRing c k f).banks = s.banks := rfl
@[simp] theorem State.modRing_free (s : State) (c k : Nat) (f : Ring → Ring) : (s.modRing c k f).free = s.free := rfl
@[simp] theorem State.modRing_out (s : State) (c k : Nat) (f : Ring → Ring) : (s.modRing c k f).out = s.out := rfl

@[simp] theorem State.modMo_pending (s : State) (m : Nat) (f : Mo → Mo) : (s.modMo m f).pending = s.pending := rfl
@[simp] theorem State.modMo_aon (s : State) (m : Nat) (f : Mo → Mo) : (s.modMo m f).aon = s.aon := rfl
@[simp] theorem State.modMo_log (s : State) (m : Nat) (f : Mo → Mo) : (s.modMo m f).log = s.log := rfl
@[simp] theorem State.modMo_mem (s : State) (m : Nat) (f : Mo → Mo) : (s.modMo m f).mem = s.mem := rfl
@[simp] theorem State.modMo_host (s : State) (m : Nat) (f : Mo → Mo) : (s.modMo m f).host = s.host := rfl
@[simp] theorem State.modMo_sp (s : State) (m : Nat) (f : Mo → Mo) : (s.modMo m f).sp = s.sp := rfl
@[simp] theorem State.modMo_engine (s : State) (m : Nat) (f : Mo → Mo) : (s.modMo m f).engine = s.engine := rfl
@[simp] theorem State.modMo_ctxs (s : State) (m : Nat) (f : Mo → Mo) : (s.modMo m f).ctxs = s.ctxs := rfl
@[simp] theorem State.modMo_cqs (s : State) (m : Nat) (f : Mo → Mo) : (s.modMo m f).cqs = s.cqs := rfl
@[simp] theorem State.modMo_fq (s : State) (m : Nat) (f : Mo → Mo) : (s.modMo m f).fq = s.fq := rfl
@[simp] theorem State.modMo_time (s : State) (m : Nat) (f : Mo → Mo) : (s.modMo m f).time = s.time := rfl
@[simp] theorem State.modMo_schedules (s : State) (m : Nat) (f : Mo → Mo) : (s.modMo m f).schedules = s.schedules := rfl
@[simp] theorem State.modMo_triggers (s : State) (m : Nat) (f : Mo → Mo) : (s.modMo m f).triggers = s.triggers := rfl
@[simp] theorem State.modMo_pulses (s : State) (m : Nat) (f : Mo → Mo) : (s.modMo m f).pulses = s.pulses := rfl
@[simp] theorem State.modMo_chans (s : State) (m : Nat) (f : Mo → Mo) : (s.modMo m f).chans = s.chans := rfl
@[simp] theorem State.modMo_film (s : State) (m : Nat) (f : Mo → Mo) : (s.modMo m f).film = s.film := rfl
@[simp] theorem State.modMo_pool (s : State) (m : Nat) (f : Mo → Mo) : (s.modMo m f).pool = s.pool := rfl
@[simp] theorem State.modMo_filters (s : State) (m : Nat) (f : Mo → Mo) : (s.modMo m f).filters = s.filters := rfl
@[simp] theorem State.modMo_records (s : State) (m : Nat) (f : Mo → Mo) : (s.modMo m f).records = s.records := rfl
@[simp] theorem State.modMo_routes (s : State) (m : Nat) (f : Mo → Mo) : (s.modMo m f).routes = s.routes := rfl
@[simp] theorem State.modMo_monitors (s : State) (m : Nat) (f : Mo → Mo) : (s.modMo m f).monitors = s.monitors := rfl
@[simp] theorem State.modMo_pdus (s : State) (m : Nat) (f : Mo → Mo) : (s.modMo m f).pdus = s.pdus := rfl
@[simp] theorem State.modMo_sigs (s : State) (m : Nat) (f : Mo → Mo) : (s.modMo m f).sigs = s.sigs := rfl
@[simp] theorem State.modMo_lanes (s : State) (m : Nat) (f : Mo → Mo) : (s.modMo m f).lanes = s.lanes := rfl
@[simp] theorem State.modMo_localIo (s : State) (m : Nat) (f : Mo → Mo) : (s.modMo m f).localIo = s.localIo := rfl
@[simp] theorem State.modMo_bundle (s : State) (m : Nat) (f : Mo → Mo) : (s.modMo m f).bundle = s.bundle := rfl
@[simp] theorem State.modMo_cvus (s : State) (m : Nat) (f : Mo → Mo) : (s.modMo m f).cvus = s.cvus := rfl
@[simp] theorem State.modMo_load (s : State) (m : Nat) (f : Mo → Mo) : (s.modMo m f).load = s.load := rfl
@[simp] theorem State.modMo_linkA (s : State) (m : Nat) (f : Mo → Mo) : (s.modMo m f).linkA = s.linkA := rfl
@[simp] theorem State.modMo_linkB (s : State) (m : Nat) (f : Mo → Mo) : (s.modMo m f).linkB = s.linkB := rfl
@[simp] theorem State.modMo_stack (s : State) (m : Nat) (f : Mo → Mo) : (s.modMo m f).stack = s.stack := rfl
@[simp] theorem State.modMo_census (s : State) (m : Nat) (f : Mo → Mo) : (s.modMo m f).census = s.census := rfl
@[simp] theorem State.modMo_update (s : State) (m : Nat) (f : Mo → Mo) : (s.modMo m f).update = s.update := rfl
@[simp] theorem State.modMo_banks (s : State) (m : Nat) (f : Mo → Mo) : (s.modMo m f).banks = s.banks := rfl
@[simp] theorem State.modMo_free (s : State) (m : Nat) (f : Mo → Mo) : (s.modMo m f).free = s.free := rfl
@[simp] theorem State.modMo_out (s : State) (m : Nat) (f : Mo → Mo) : (s.modMo m f).out = s.out := rfl

@[simp] theorem State.modLd_pending (s : State) (n : Nat) (f : Load → Load) : (s.modLd n f).pending = s.pending := rfl
@[simp] theorem State.modLd_aon (s : State) (n : Nat) (f : Load → Load) : (s.modLd n f).aon = s.aon := rfl
@[simp] theorem State.modLd_log (s : State) (n : Nat) (f : Load → Load) : (s.modLd n f).log = s.log := rfl
@[simp] theorem State.modLd_mem (s : State) (n : Nat) (f : Load → Load) : (s.modLd n f).mem = s.mem := rfl
@[simp] theorem State.modLd_host (s : State) (n : Nat) (f : Load → Load) : (s.modLd n f).host = s.host := rfl
@[simp] theorem State.modLd_sp (s : State) (n : Nat) (f : Load → Load) : (s.modLd n f).sp = s.sp := rfl
@[simp] theorem State.modLd_engine (s : State) (n : Nat) (f : Load → Load) : (s.modLd n f).engine = s.engine := rfl
@[simp] theorem State.modLd_ctxs (s : State) (n : Nat) (f : Load → Load) : (s.modLd n f).ctxs = s.ctxs := rfl
@[simp] theorem State.modLd_cqs (s : State) (n : Nat) (f : Load → Load) : (s.modLd n f).cqs = s.cqs := rfl
@[simp] theorem State.modLd_fq (s : State) (n : Nat) (f : Load → Load) : (s.modLd n f).fq = s.fq := rfl
@[simp] theorem State.modLd_time (s : State) (n : Nat) (f : Load → Load) : (s.modLd n f).time = s.time := rfl
@[simp] theorem State.modLd_schedules (s : State) (n : Nat) (f : Load → Load) : (s.modLd n f).schedules = s.schedules := rfl
@[simp] theorem State.modLd_triggers (s : State) (n : Nat) (f : Load → Load) : (s.modLd n f).triggers = s.triggers := rfl
@[simp] theorem State.modLd_pulses (s : State) (n : Nat) (f : Load → Load) : (s.modLd n f).pulses = s.pulses := rfl
@[simp] theorem State.modLd_chans (s : State) (n : Nat) (f : Load → Load) : (s.modLd n f).chans = s.chans := rfl
@[simp] theorem State.modLd_film (s : State) (n : Nat) (f : Load → Load) : (s.modLd n f).film = s.film := rfl
@[simp] theorem State.modLd_mos (s : State) (n : Nat) (f : Load → Load) : (s.modLd n f).mos = s.mos := rfl
@[simp] theorem State.modLd_pool (s : State) (n : Nat) (f : Load → Load) : (s.modLd n f).pool = s.pool := rfl
@[simp] theorem State.modLd_filters (s : State) (n : Nat) (f : Load → Load) : (s.modLd n f).filters = s.filters := rfl
@[simp] theorem State.modLd_records (s : State) (n : Nat) (f : Load → Load) : (s.modLd n f).records = s.records := rfl
@[simp] theorem State.modLd_routes (s : State) (n : Nat) (f : Load → Load) : (s.modLd n f).routes = s.routes := rfl
@[simp] theorem State.modLd_monitors (s : State) (n : Nat) (f : Load → Load) : (s.modLd n f).monitors = s.monitors := rfl
@[simp] theorem State.modLd_pdus (s : State) (n : Nat) (f : Load → Load) : (s.modLd n f).pdus = s.pdus := rfl
@[simp] theorem State.modLd_sigs (s : State) (n : Nat) (f : Load → Load) : (s.modLd n f).sigs = s.sigs := rfl
@[simp] theorem State.modLd_lanes (s : State) (n : Nat) (f : Load → Load) : (s.modLd n f).lanes = s.lanes := rfl
@[simp] theorem State.modLd_localIo (s : State) (n : Nat) (f : Load → Load) : (s.modLd n f).localIo = s.localIo := rfl
@[simp] theorem State.modLd_bundle (s : State) (n : Nat) (f : Load → Load) : (s.modLd n f).bundle = s.bundle := rfl
@[simp] theorem State.modLd_cvus (s : State) (n : Nat) (f : Load → Load) : (s.modLd n f).cvus = s.cvus := rfl
@[simp] theorem State.modLd_linkA (s : State) (n : Nat) (f : Load → Load) : (s.modLd n f).linkA = s.linkA := rfl
@[simp] theorem State.modLd_linkB (s : State) (n : Nat) (f : Load → Load) : (s.modLd n f).linkB = s.linkB := rfl
@[simp] theorem State.modLd_stack (s : State) (n : Nat) (f : Load → Load) : (s.modLd n f).stack = s.stack := rfl
@[simp] theorem State.modLd_census (s : State) (n : Nat) (f : Load → Load) : (s.modLd n f).census = s.census := rfl
@[simp] theorem State.modLd_update (s : State) (n : Nat) (f : Load → Load) : (s.modLd n f).update = s.update := rfl
@[simp] theorem State.modLd_banks (s : State) (n : Nat) (f : Load → Load) : (s.modLd n f).banks = s.banks := rfl
@[simp] theorem State.modLd_free (s : State) (n : Nat) (f : Load → Load) : (s.modLd n f).free = s.free := rfl
@[simp] theorem State.modLd_out (s : State) (n : Nat) (f : Load → Load) : (s.modLd n f).out = s.out := rfl

@[simp] theorem State.modSwc_pending (s : State) (n : Nat) (f : SwChain → SwChain) : (s.modSwc n f).pending = s.pending := rfl
@[simp] theorem State.modSwc_aon (s : State) (n : Nat) (f : SwChain → SwChain) : (s.modSwc n f).aon = s.aon := rfl
@[simp] theorem State.modSwc_log (s : State) (n : Nat) (f : SwChain → SwChain) : (s.modSwc n f).log = s.log := rfl
@[simp] theorem State.modSwc_mem (s : State) (n : Nat) (f : SwChain → SwChain) : (s.modSwc n f).mem = s.mem := rfl
@[simp] theorem State.modSwc_host (s : State) (n : Nat) (f : SwChain → SwChain) : (s.modSwc n f).host = s.host := rfl
@[simp] theorem State.modSwc_sp (s : State) (n : Nat) (f : SwChain → SwChain) : (s.modSwc n f).sp = s.sp := rfl
@[simp] theorem State.modSwc_engine (s : State) (n : Nat) (f : SwChain → SwChain) : (s.modSwc n f).engine = s.engine := rfl
@[simp] theorem State.modSwc_ctxs (s : State) (n : Nat) (f : SwChain → SwChain) : (s.modSwc n f).ctxs = s.ctxs := rfl
@[simp] theorem State.modSwc_cqs (s : State) (n : Nat) (f : SwChain → SwChain) : (s.modSwc n f).cqs = s.cqs := rfl
@[simp] theorem State.modSwc_fq (s : State) (n : Nat) (f : SwChain → SwChain) : (s.modSwc n f).fq = s.fq := rfl
@[simp] theorem State.modSwc_time (s : State) (n : Nat) (f : SwChain → SwChain) : (s.modSwc n f).time = s.time := rfl
@[simp] theorem State.modSwc_schedules (s : State) (n : Nat) (f : SwChain → SwChain) : (s.modSwc n f).schedules = s.schedules := rfl
@[simp] theorem State.modSwc_triggers (s : State) (n : Nat) (f : SwChain → SwChain) : (s.modSwc n f).triggers = s.triggers := rfl
@[simp] theorem State.modSwc_pulses (s : State) (n : Nat) (f : SwChain → SwChain) : (s.modSwc n f).pulses = s.pulses := rfl
@[simp] theorem State.modSwc_chans (s : State) (n : Nat) (f : SwChain → SwChain) : (s.modSwc n f).chans = s.chans := rfl
@[simp] theorem State.modSwc_film (s : State) (n : Nat) (f : SwChain → SwChain) : (s.modSwc n f).film = s.film := rfl
@[simp] theorem State.modSwc_mos (s : State) (n : Nat) (f : SwChain → SwChain) : (s.modSwc n f).mos = s.mos := rfl
@[simp] theorem State.modSwc_pool (s : State) (n : Nat) (f : SwChain → SwChain) : (s.modSwc n f).pool = s.pool := rfl
@[simp] theorem State.modSwc_filters (s : State) (n : Nat) (f : SwChain → SwChain) : (s.modSwc n f).filters = s.filters := rfl
@[simp] theorem State.modSwc_records (s : State) (n : Nat) (f : SwChain → SwChain) : (s.modSwc n f).records = s.records := rfl
@[simp] theorem State.modSwc_routes (s : State) (n : Nat) (f : SwChain → SwChain) : (s.modSwc n f).routes = s.routes := rfl
@[simp] theorem State.modSwc_monitors (s : State) (n : Nat) (f : SwChain → SwChain) : (s.modSwc n f).monitors = s.monitors := rfl
@[simp] theorem State.modSwc_pdus (s : State) (n : Nat) (f : SwChain → SwChain) : (s.modSwc n f).pdus = s.pdus := rfl
@[simp] theorem State.modSwc_sigs (s : State) (n : Nat) (f : SwChain → SwChain) : (s.modSwc n f).sigs = s.sigs := rfl
@[simp] theorem State.modSwc_lanes (s : State) (n : Nat) (f : SwChain → SwChain) : (s.modSwc n f).lanes = s.lanes := rfl
@[simp] theorem State.modSwc_localIo (s : State) (n : Nat) (f : SwChain → SwChain) : (s.modSwc n f).localIo = s.localIo := rfl
@[simp] theorem State.modSwc_bundle (s : State) (n : Nat) (f : SwChain → SwChain) : (s.modSwc n f).bundle = s.bundle := rfl
@[simp] theorem State.modSwc_cvus (s : State) (n : Nat) (f : SwChain → SwChain) : (s.modSwc n f).cvus = s.cvus := rfl
@[simp] theorem State.modSwc_linkA (s : State) (n : Nat) (f : SwChain → SwChain) : (s.modSwc n f).linkA = s.linkA := rfl
@[simp] theorem State.modSwc_linkB (s : State) (n : Nat) (f : SwChain → SwChain) : (s.modSwc n f).linkB = s.linkB := rfl
@[simp] theorem State.modSwc_stack (s : State) (n : Nat) (f : SwChain → SwChain) : (s.modSwc n f).stack = s.stack := rfl
@[simp] theorem State.modSwc_census (s : State) (n : Nat) (f : SwChain → SwChain) : (s.modSwc n f).census = s.census := rfl
@[simp] theorem State.modSwc_update (s : State) (n : Nat) (f : SwChain → SwChain) : (s.modSwc n f).update = s.update := rfl
@[simp] theorem State.modSwc_banks (s : State) (n : Nat) (f : SwChain → SwChain) : (s.modSwc n f).banks = s.banks := rfl
@[simp] theorem State.modSwc_free (s : State) (n : Nat) (f : SwChain → SwChain) : (s.modSwc n f).free = s.free := rfl
@[simp] theorem State.modSwc_out (s : State) (n : Nat) (f : SwChain → SwChain) : (s.modSwc n f).out = s.out := rfl

@[simp] theorem State.modCvu_pending (s : State) (n : Nat) (f : Cvu → Cvu) : (s.modCvu n f).pending = s.pending := rfl
@[simp] theorem State.modCvu_aon (s : State) (n : Nat) (f : Cvu → Cvu) : (s.modCvu n f).aon = s.aon := rfl
@[simp] theorem State.modCvu_log (s : State) (n : Nat) (f : Cvu → Cvu) : (s.modCvu n f).log = s.log := rfl
@[simp] theorem State.modCvu_mem (s : State) (n : Nat) (f : Cvu → Cvu) : (s.modCvu n f).mem = s.mem := rfl
@[simp] theorem State.modCvu_host (s : State) (n : Nat) (f : Cvu → Cvu) : (s.modCvu n f).host = s.host := rfl
@[simp] theorem State.modCvu_sp (s : State) (n : Nat) (f : Cvu → Cvu) : (s.modCvu n f).sp = s.sp := rfl
@[simp] theorem State.modCvu_engine (s : State) (n : Nat) (f : Cvu → Cvu) : (s.modCvu n f).engine = s.engine := rfl
@[simp] theorem State.modCvu_ctxs (s : State) (n : Nat) (f : Cvu → Cvu) : (s.modCvu n f).ctxs = s.ctxs := rfl
@[simp] theorem State.modCvu_cqs (s : State) (n : Nat) (f : Cvu → Cvu) : (s.modCvu n f).cqs = s.cqs := rfl
@[simp] theorem State.modCvu_fq (s : State) (n : Nat) (f : Cvu → Cvu) : (s.modCvu n f).fq = s.fq := rfl
@[simp] theorem State.modCvu_time (s : State) (n : Nat) (f : Cvu → Cvu) : (s.modCvu n f).time = s.time := rfl
@[simp] theorem State.modCvu_schedules (s : State) (n : Nat) (f : Cvu → Cvu) : (s.modCvu n f).schedules = s.schedules := rfl
@[simp] theorem State.modCvu_triggers (s : State) (n : Nat) (f : Cvu → Cvu) : (s.modCvu n f).triggers = s.triggers := rfl
@[simp] theorem State.modCvu_pulses (s : State) (n : Nat) (f : Cvu → Cvu) : (s.modCvu n f).pulses = s.pulses := rfl
@[simp] theorem State.modCvu_chans (s : State) (n : Nat) (f : Cvu → Cvu) : (s.modCvu n f).chans = s.chans := rfl
@[simp] theorem State.modCvu_film (s : State) (n : Nat) (f : Cvu → Cvu) : (s.modCvu n f).film = s.film := rfl
@[simp] theorem State.modCvu_mos (s : State) (n : Nat) (f : Cvu → Cvu) : (s.modCvu n f).mos = s.mos := rfl
@[simp] theorem State.modCvu_pool (s : State) (n : Nat) (f : Cvu → Cvu) : (s.modCvu n f).pool = s.pool := rfl
@[simp] theorem State.modCvu_filters (s : State) (n : Nat) (f : Cvu → Cvu) : (s.modCvu n f).filters = s.filters := rfl
@[simp] theorem State.modCvu_records (s : State) (n : Nat) (f : Cvu → Cvu) : (s.modCvu n f).records = s.records := rfl
@[simp] theorem State.modCvu_routes (s : State) (n : Nat) (f : Cvu → Cvu) : (s.modCvu n f).routes = s.routes := rfl
@[simp] theorem State.modCvu_monitors (s : State) (n : Nat) (f : Cvu → Cvu) : (s.modCvu n f).monitors = s.monitors := rfl
@[simp] theorem State.modCvu_pdus (s : State) (n : Nat) (f : Cvu → Cvu) : (s.modCvu n f).pdus = s.pdus := rfl
@[simp] theorem State.modCvu_sigs (s : State) (n : Nat) (f : Cvu → Cvu) : (s.modCvu n f).sigs = s.sigs := rfl
@[simp] theorem State.modCvu_lanes (s : State) (n : Nat) (f : Cvu → Cvu) : (s.modCvu n f).lanes = s.lanes := rfl
@[simp] theorem State.modCvu_localIo (s : State) (n : Nat) (f : Cvu → Cvu) : (s.modCvu n f).localIo = s.localIo := rfl
@[simp] theorem State.modCvu_bundle (s : State) (n : Nat) (f : Cvu → Cvu) : (s.modCvu n f).bundle = s.bundle := rfl
@[simp] theorem State.modCvu_load (s : State) (n : Nat) (f : Cvu → Cvu) : (s.modCvu n f).load = s.load := rfl
@[simp] theorem State.modCvu_linkA (s : State) (n : Nat) (f : Cvu → Cvu) : (s.modCvu n f).linkA = s.linkA := rfl
@[simp] theorem State.modCvu_linkB (s : State) (n : Nat) (f : Cvu → Cvu) : (s.modCvu n f).linkB = s.linkB := rfl
@[simp] theorem State.modCvu_stack (s : State) (n : Nat) (f : Cvu → Cvu) : (s.modCvu n f).stack = s.stack := rfl
@[simp] theorem State.modCvu_census (s : State) (n : Nat) (f : Cvu → Cvu) : (s.modCvu n f).census = s.census := rfl
@[simp] theorem State.modCvu_update (s : State) (n : Nat) (f : Cvu → Cvu) : (s.modCvu n f).update = s.update := rfl
@[simp] theorem State.modCvu_banks (s : State) (n : Nat) (f : Cvu → Cvu) : (s.modCvu n f).banks = s.banks := rfl
@[simp] theorem State.modCvu_free (s : State) (n : Nat) (f : Cvu → Cvu) : (s.modCvu n f).free = s.free := rfl
@[simp] theorem State.modCvu_out (s : State) (n : Nat) (f : Cvu → Cvu) : (s.modCvu n f).out = s.out := rfl

@[simp] theorem State.modMon_pending (s : State) (c : Nat) (f : Monitor → Monitor) : (s.modMon c f).pending = s.pending := rfl
@[simp] theorem State.modMon_aon (s : State) (c : Nat) (f : Monitor → Monitor) : (s.modMon c f).aon = s.aon := rfl
@[simp] theorem State.modMon_log (s : State) (c : Nat) (f : Monitor → Monitor) : (s.modMon c f).log = s.log := rfl
@[simp] theorem State.modMon_mem (s : State) (c : Nat) (f : Monitor → Monitor) : (s.modMon c f).mem = s.mem := rfl
@[simp] theorem State.modMon_host (s : State) (c : Nat) (f : Monitor → Monitor) : (s.modMon c f).host = s.host := rfl
@[simp] theorem State.modMon_sp (s : State) (c : Nat) (f : Monitor → Monitor) : (s.modMon c f).sp = s.sp := rfl
@[simp] theorem State.modMon_engine (s : State) (c : Nat) (f : Monitor → Monitor) : (s.modMon c f).engine = s.engine := rfl
@[simp] theorem State.modMon_ctxs (s : State) (c : Nat) (f : Monitor → Monitor) : (s.modMon c f).ctxs = s.ctxs := rfl
@[simp] theorem State.modMon_cqs (s : State) (c : Nat) (f : Monitor → Monitor) : (s.modMon c f).cqs = s.cqs := rfl
@[simp] theorem State.modMon_fq (s : State) (c : Nat) (f : Monitor → Monitor) : (s.modMon c f).fq = s.fq := rfl
@[simp] theorem State.modMon_time (s : State) (c : Nat) (f : Monitor → Monitor) : (s.modMon c f).time = s.time := rfl
@[simp] theorem State.modMon_schedules (s : State) (c : Nat) (f : Monitor → Monitor) : (s.modMon c f).schedules = s.schedules := rfl
@[simp] theorem State.modMon_triggers (s : State) (c : Nat) (f : Monitor → Monitor) : (s.modMon c f).triggers = s.triggers := rfl
@[simp] theorem State.modMon_pulses (s : State) (c : Nat) (f : Monitor → Monitor) : (s.modMon c f).pulses = s.pulses := rfl
@[simp] theorem State.modMon_chans (s : State) (c : Nat) (f : Monitor → Monitor) : (s.modMon c f).chans = s.chans := rfl
@[simp] theorem State.modMon_film (s : State) (c : Nat) (f : Monitor → Monitor) : (s.modMon c f).film = s.film := rfl
@[simp] theorem State.modMon_mos (s : State) (c : Nat) (f : Monitor → Monitor) : (s.modMon c f).mos = s.mos := rfl
@[simp] theorem State.modMon_pool (s : State) (c : Nat) (f : Monitor → Monitor) : (s.modMon c f).pool = s.pool := rfl
@[simp] theorem State.modMon_filters (s : State) (c : Nat) (f : Monitor → Monitor) : (s.modMon c f).filters = s.filters := rfl
@[simp] theorem State.modMon_records (s : State) (c : Nat) (f : Monitor → Monitor) : (s.modMon c f).records = s.records := rfl
@[simp] theorem State.modMon_routes (s : State) (c : Nat) (f : Monitor → Monitor) : (s.modMon c f).routes = s.routes := rfl
@[simp] theorem State.modMon_pdus (s : State) (c : Nat) (f : Monitor → Monitor) : (s.modMon c f).pdus = s.pdus := rfl
@[simp] theorem State.modMon_sigs (s : State) (c : Nat) (f : Monitor → Monitor) : (s.modMon c f).sigs = s.sigs := rfl
@[simp] theorem State.modMon_lanes (s : State) (c : Nat) (f : Monitor → Monitor) : (s.modMon c f).lanes = s.lanes := rfl
@[simp] theorem State.modMon_localIo (s : State) (c : Nat) (f : Monitor → Monitor) : (s.modMon c f).localIo = s.localIo := rfl
@[simp] theorem State.modMon_bundle (s : State) (c : Nat) (f : Monitor → Monitor) : (s.modMon c f).bundle = s.bundle := rfl
@[simp] theorem State.modMon_cvus (s : State) (c : Nat) (f : Monitor → Monitor) : (s.modMon c f).cvus = s.cvus := rfl
@[simp] theorem State.modMon_load (s : State) (c : Nat) (f : Monitor → Monitor) : (s.modMon c f).load = s.load := rfl
@[simp] theorem State.modMon_linkA (s : State) (c : Nat) (f : Monitor → Monitor) : (s.modMon c f).linkA = s.linkA := rfl
@[simp] theorem State.modMon_linkB (s : State) (c : Nat) (f : Monitor → Monitor) : (s.modMon c f).linkB = s.linkB := rfl
@[simp] theorem State.modMon_stack (s : State) (c : Nat) (f : Monitor → Monitor) : (s.modMon c f).stack = s.stack := rfl
@[simp] theorem State.modMon_census (s : State) (c : Nat) (f : Monitor → Monitor) : (s.modMon c f).census = s.census := rfl
@[simp] theorem State.modMon_update (s : State) (c : Nat) (f : Monitor → Monitor) : (s.modMon c f).update = s.update := rfl
@[simp] theorem State.modMon_banks (s : State) (c : Nat) (f : Monitor → Monitor) : (s.modMon c f).banks = s.banks := rfl
@[simp] theorem State.modMon_free (s : State) (c : Nat) (f : Monitor → Monitor) : (s.modMon c f).free = s.free := rfl
@[simp] theorem State.modMon_out (s : State) (c : Nat) (f : Monitor → Monitor) : (s.modMon c f).out = s.out := rfl

@[simp] theorem State.modLane_pending (s : State) (n : Nat) (f : Lane → Lane) : (s.modLane n f).pending = s.pending := rfl
@[simp] theorem State.modLane_aon (s : State) (n : Nat) (f : Lane → Lane) : (s.modLane n f).aon = s.aon := rfl
@[simp] theorem State.modLane_log (s : State) (n : Nat) (f : Lane → Lane) : (s.modLane n f).log = s.log := rfl
@[simp] theorem State.modLane_mem (s : State) (n : Nat) (f : Lane → Lane) : (s.modLane n f).mem = s.mem := rfl
@[simp] theorem State.modLane_host (s : State) (n : Nat) (f : Lane → Lane) : (s.modLane n f).host = s.host := rfl
@[simp] theorem State.modLane_sp (s : State) (n : Nat) (f : Lane → Lane) : (s.modLane n f).sp = s.sp := rfl
@[simp] theorem State.modLane_engine (s : State) (n : Nat) (f : Lane → Lane) : (s.modLane n f).engine = s.engine := rfl
@[simp] theorem State.modLane_ctxs (s : State) (n : Nat) (f : Lane → Lane) : (s.modLane n f).ctxs = s.ctxs := rfl
@[simp] theorem State.modLane_cqs (s : State) (n : Nat) (f : Lane → Lane) : (s.modLane n f).cqs = s.cqs := rfl
@[simp] theorem State.modLane_fq (s : State) (n : Nat) (f : Lane → Lane) : (s.modLane n f).fq = s.fq := rfl
@[simp] theorem State.modLane_time (s : State) (n : Nat) (f : Lane → Lane) : (s.modLane n f).time = s.time := rfl
@[simp] theorem State.modLane_schedules (s : State) (n : Nat) (f : Lane → Lane) : (s.modLane n f).schedules = s.schedules := rfl
@[simp] theorem State.modLane_triggers (s : State) (n : Nat) (f : Lane → Lane) : (s.modLane n f).triggers = s.triggers := rfl
@[simp] theorem State.modLane_pulses (s : State) (n : Nat) (f : Lane → Lane) : (s.modLane n f).pulses = s.pulses := rfl
@[simp] theorem State.modLane_chans (s : State) (n : Nat) (f : Lane → Lane) : (s.modLane n f).chans = s.chans := rfl
@[simp] theorem State.modLane_film (s : State) (n : Nat) (f : Lane → Lane) : (s.modLane n f).film = s.film := rfl
@[simp] theorem State.modLane_mos (s : State) (n : Nat) (f : Lane → Lane) : (s.modLane n f).mos = s.mos := rfl
@[simp] theorem State.modLane_pool (s : State) (n : Nat) (f : Lane → Lane) : (s.modLane n f).pool = s.pool := rfl
@[simp] theorem State.modLane_filters (s : State) (n : Nat) (f : Lane → Lane) : (s.modLane n f).filters = s.filters := rfl
@[simp] theorem State.modLane_records (s : State) (n : Nat) (f : Lane → Lane) : (s.modLane n f).records = s.records := rfl
@[simp] theorem State.modLane_routes (s : State) (n : Nat) (f : Lane → Lane) : (s.modLane n f).routes = s.routes := rfl
@[simp] theorem State.modLane_monitors (s : State) (n : Nat) (f : Lane → Lane) : (s.modLane n f).monitors = s.monitors := rfl
@[simp] theorem State.modLane_pdus (s : State) (n : Nat) (f : Lane → Lane) : (s.modLane n f).pdus = s.pdus := rfl
@[simp] theorem State.modLane_sigs (s : State) (n : Nat) (f : Lane → Lane) : (s.modLane n f).sigs = s.sigs := rfl
@[simp] theorem State.modLane_localIo (s : State) (n : Nat) (f : Lane → Lane) : (s.modLane n f).localIo = s.localIo := rfl
@[simp] theorem State.modLane_bundle (s : State) (n : Nat) (f : Lane → Lane) : (s.modLane n f).bundle = s.bundle := rfl
@[simp] theorem State.modLane_cvus (s : State) (n : Nat) (f : Lane → Lane) : (s.modLane n f).cvus = s.cvus := rfl
@[simp] theorem State.modLane_load (s : State) (n : Nat) (f : Lane → Lane) : (s.modLane n f).load = s.load := rfl
@[simp] theorem State.modLane_linkA (s : State) (n : Nat) (f : Lane → Lane) : (s.modLane n f).linkA = s.linkA := rfl
@[simp] theorem State.modLane_linkB (s : State) (n : Nat) (f : Lane → Lane) : (s.modLane n f).linkB = s.linkB := rfl
@[simp] theorem State.modLane_stack (s : State) (n : Nat) (f : Lane → Lane) : (s.modLane n f).stack = s.stack := rfl
@[simp] theorem State.modLane_census (s : State) (n : Nat) (f : Lane → Lane) : (s.modLane n f).census = s.census := rfl
@[simp] theorem State.modLane_update (s : State) (n : Nat) (f : Lane → Lane) : (s.modLane n f).update = s.update := rfl
@[simp] theorem State.modLane_banks (s : State) (n : Nat) (f : Lane → Lane) : (s.modLane n f).banks = s.banks := rfl
@[simp] theorem State.modLane_free (s : State) (n : Nat) (f : Lane → Lane) : (s.modLane n f).free = s.free := rfl
@[simp] theorem State.modLane_out (s : State) (n : Nat) (f : Lane → Lane) : (s.modLane n f).out = s.out := rfl

@[simp] theorem State.modTrigger_pending (s : State) (n : Nat) (f : Trigger → Trigger) : (s.modTrigger n f).pending = s.pending := rfl
@[simp] theorem State.modTrigger_aon (s : State) (n : Nat) (f : Trigger → Trigger) : (s.modTrigger n f).aon = s.aon := rfl
@[simp] theorem State.modTrigger_log (s : State) (n : Nat) (f : Trigger → Trigger) : (s.modTrigger n f).log = s.log := rfl
@[simp] theorem State.modTrigger_mem (s : State) (n : Nat) (f : Trigger → Trigger) : (s.modTrigger n f).mem = s.mem := rfl
@[simp] theorem State.modTrigger_host (s : State) (n : Nat) (f : Trigger → Trigger) : (s.modTrigger n f).host = s.host := rfl
@[simp] theorem State.modTrigger_sp (s : State) (n : Nat) (f : Trigger → Trigger) : (s.modTrigger n f).sp = s.sp := rfl
@[simp] theorem State.modTrigger_engine (s : State) (n : Nat) (f : Trigger → Trigger) : (s.modTrigger n f).engine = s.engine := rfl
@[simp] theorem State.modTrigger_ctxs (s : State) (n : Nat) (f : Trigger → Trigger) : (s.modTrigger n f).ctxs = s.ctxs := rfl
@[simp] theorem State.modTrigger_cqs (s : State) (n : Nat) (f : Trigger → Trigger) : (s.modTrigger n f).cqs = s.cqs := rfl
@[simp] theorem State.modTrigger_fq (s : State) (n : Nat) (f : Trigger → Trigger) : (s.modTrigger n f).fq = s.fq := rfl
@[simp] theorem State.modTrigger_time (s : State) (n : Nat) (f : Trigger → Trigger) : (s.modTrigger n f).time = s.time := rfl
@[simp] theorem State.modTrigger_schedules (s : State) (n : Nat) (f : Trigger → Trigger) : (s.modTrigger n f).schedules = s.schedules := rfl
@[simp] theorem State.modTrigger_pulses (s : State) (n : Nat) (f : Trigger → Trigger) : (s.modTrigger n f).pulses = s.pulses := rfl
@[simp] theorem State.modTrigger_chans (s : State) (n : Nat) (f : Trigger → Trigger) : (s.modTrigger n f).chans = s.chans := rfl
@[simp] theorem State.modTrigger_film (s : State) (n : Nat) (f : Trigger → Trigger) : (s.modTrigger n f).film = s.film := rfl
@[simp] theorem State.modTrigger_mos (s : State) (n : Nat) (f : Trigger → Trigger) : (s.modTrigger n f).mos = s.mos := rfl
@[simp] theorem State.modTrigger_pool (s : State) (n : Nat) (f : Trigger → Trigger) : (s.modTrigger n f).pool = s.pool := rfl
@[simp] theorem State.modTrigger_filters (s : State) (n : Nat) (f : Trigger → Trigger) : (s.modTrigger n f).filters = s.filters := rfl
@[simp] theorem State.modTrigger_records (s : State) (n : Nat) (f : Trigger → Trigger) : (s.modTrigger n f).records = s.records := rfl
@[simp] theorem State.modTrigger_routes (s : State) (n : Nat) (f : Trigger → Trigger) : (s.modTrigger n f).routes = s.routes := rfl
@[simp] theorem State.modTrigger_monitors (s : State) (n : Nat) (f : Trigger → Trigger) : (s.modTrigger n f).monitors = s.monitors := rfl
@[simp] theorem State.modTrigger_pdus (s : State) (n : Nat) (f : Trigger → Trigger) : (s.modTrigger n f).pdus = s.pdus := rfl
@[simp] theorem State.modTrigger_sigs (s : State) (n : Nat) (f : Trigger → Trigger) : (s.modTrigger n f).sigs = s.sigs := rfl
@[simp] theorem State.modTrigger_lanes (s : State) (n : Nat) (f : Trigger → Trigger) : (s.modTrigger n f).lanes = s.lanes := rfl
@[simp] theorem State.modTrigger_localIo (s : State) (n : Nat) (f : Trigger → Trigger) : (s.modTrigger n f).localIo = s.localIo := rfl
@[simp] theorem State.modTrigger_bundle (s : State) (n : Nat) (f : Trigger → Trigger) : (s.modTrigger n f).bundle = s.bundle := rfl
@[simp] theorem State.modTrigger_cvus (s : State) (n : Nat) (f : Trigger → Trigger) : (s.modTrigger n f).cvus = s.cvus := rfl
@[simp] theorem State.modTrigger_load (s : State) (n : Nat) (f : Trigger → Trigger) : (s.modTrigger n f).load = s.load := rfl
@[simp] theorem State.modTrigger_linkA (s : State) (n : Nat) (f : Trigger → Trigger) : (s.modTrigger n f).linkA = s.linkA := rfl
@[simp] theorem State.modTrigger_linkB (s : State) (n : Nat) (f : Trigger → Trigger) : (s.modTrigger n f).linkB = s.linkB := rfl
@[simp] theorem State.modTrigger_stack (s : State) (n : Nat) (f : Trigger → Trigger) : (s.modTrigger n f).stack = s.stack := rfl
@[simp] theorem State.modTrigger_census (s : State) (n : Nat) (f : Trigger → Trigger) : (s.modTrigger n f).census = s.census := rfl
@[simp] theorem State.modTrigger_update (s : State) (n : Nat) (f : Trigger → Trigger) : (s.modTrigger n f).update = s.update := rfl
@[simp] theorem State.modTrigger_banks (s : State) (n : Nat) (f : Trigger → Trigger) : (s.modTrigger n f).banks = s.banks := rfl
@[simp] theorem State.modTrigger_free (s : State) (n : Nat) (f : Trigger → Trigger) : (s.modTrigger n f).free = s.free := rfl
@[simp] theorem State.modTrigger_out (s : State) (n : Nat) (f : Trigger → Trigger) : (s.modTrigger n f).out = s.out := rfl

@[simp] theorem State.modBank_pending (s : State) (n : Nat) (f : Bank → Bank) : (s.modBank n f).pending = s.pending := rfl
@[simp] theorem State.modBank_aon (s : State) (n : Nat) (f : Bank → Bank) : (s.modBank n f).aon = s.aon := rfl
@[simp] theorem State.modBank_log (s : State) (n : Nat) (f : Bank → Bank) : (s.modBank n f).log = s.log := rfl
@[simp] theorem State.modBank_mem (s : State) (n : Nat) (f : Bank → Bank) : (s.modBank n f).mem = s.mem := rfl
@[simp] theorem State.modBank_host (s : State) (n : Nat) (f : Bank → Bank) : (s.modBank n f).host = s.host := rfl
@[simp] theorem State.modBank_sp (s : State) (n : Nat) (f : Bank → Bank) : (s.modBank n f).sp = s.sp := rfl
@[simp] theorem State.modBank_engine (s : State) (n : Nat) (f : Bank → Bank) : (s.modBank n f).engine = s.engine := rfl
@[simp] theorem State.modBank_ctxs (s : State) (n : Nat) (f : Bank → Bank) : (s.modBank n f).ctxs = s.ctxs := rfl
@[simp] theorem State.modBank_cqs (s : State) (n : Nat) (f : Bank → Bank) : (s.modBank n f).cqs = s.cqs := rfl
@[simp] theorem State.modBank_fq (s : State) (n : Nat) (f : Bank → Bank) : (s.modBank n f).fq = s.fq := rfl
@[simp] theorem State.modBank_time (s : State) (n : Nat) (f : Bank → Bank) : (s.modBank n f).time = s.time := rfl
@[simp] theorem State.modBank_schedules (s : State) (n : Nat) (f : Bank → Bank) : (s.modBank n f).schedules = s.schedules := rfl
@[simp] theorem State.modBank_triggers (s : State) (n : Nat) (f : Bank → Bank) : (s.modBank n f).triggers = s.triggers := rfl
@[simp] theorem State.modBank_pulses (s : State) (n : Nat) (f : Bank → Bank) : (s.modBank n f).pulses = s.pulses := rfl
@[simp] theorem State.modBank_chans (s : State) (n : Nat) (f : Bank → Bank) : (s.modBank n f).chans = s.chans := rfl
@[simp] theorem State.modBank_film (s : State) (n : Nat) (f : Bank → Bank) : (s.modBank n f).film = s.film := rfl
@[simp] theorem State.modBank_mos (s : State) (n : Nat) (f : Bank → Bank) : (s.modBank n f).mos = s.mos := rfl
@[simp] theorem State.modBank_pool (s : State) (n : Nat) (f : Bank → Bank) : (s.modBank n f).pool = s.pool := rfl
@[simp] theorem State.modBank_filters (s : State) (n : Nat) (f : Bank → Bank) : (s.modBank n f).filters = s.filters := rfl
@[simp] theorem State.modBank_records (s : State) (n : Nat) (f : Bank → Bank) : (s.modBank n f).records = s.records := rfl
@[simp] theorem State.modBank_routes (s : State) (n : Nat) (f : Bank → Bank) : (s.modBank n f).routes = s.routes := rfl
@[simp] theorem State.modBank_monitors (s : State) (n : Nat) (f : Bank → Bank) : (s.modBank n f).monitors = s.monitors := rfl
@[simp] theorem State.modBank_pdus (s : State) (n : Nat) (f : Bank → Bank) : (s.modBank n f).pdus = s.pdus := rfl
@[simp] theorem State.modBank_sigs (s : State) (n : Nat) (f : Bank → Bank) : (s.modBank n f).sigs = s.sigs := rfl
@[simp] theorem State.modBank_lanes (s : State) (n : Nat) (f : Bank → Bank) : (s.modBank n f).lanes = s.lanes := rfl
@[simp] theorem State.modBank_localIo (s : State) (n : Nat) (f : Bank → Bank) : (s.modBank n f).localIo = s.localIo := rfl
@[simp] theorem State.modBank_bundle (s : State) (n : Nat) (f : Bank → Bank) : (s.modBank n f).bundle = s.bundle := rfl
@[simp] theorem State.modBank_cvus (s : State) (n : Nat) (f : Bank → Bank) : (s.modBank n f).cvus = s.cvus := rfl
@[simp] theorem State.modBank_load (s : State) (n : Nat) (f : Bank → Bank) : (s.modBank n f).load = s.load := rfl
@[simp] theorem State.modBank_linkA (s : State) (n : Nat) (f : Bank → Bank) : (s.modBank n f).linkA = s.linkA := rfl
@[simp] theorem State.modBank_linkB (s : State) (n : Nat) (f : Bank → Bank) : (s.modBank n f).linkB = s.linkB := rfl
@[simp] theorem State.modBank_stack (s : State) (n : Nat) (f : Bank → Bank) : (s.modBank n f).stack = s.stack := rfl
@[simp] theorem State.modBank_census (s : State) (n : Nat) (f : Bank → Bank) : (s.modBank n f).census = s.census := rfl
@[simp] theorem State.modBank_update (s : State) (n : Nat) (f : Bank → Bank) : (s.modBank n f).update = s.update := rfl
@[simp] theorem State.modBank_free (s : State) (n : Nat) (f : Bank → Bank) : (s.modBank n f).free = s.free := rfl
@[simp] theorem State.modBank_out (s : State) (n : Nat) (f : Bank → Bank) : (s.modBank n f).out = s.out := rfl

@[simp] theorem State.emit_pending (s : State) (o : Out) : (s.emit o).pending = s.pending := rfl
@[simp] theorem State.emit_aon (s : State) (o : Out) : (s.emit o).aon = s.aon := rfl
@[simp] theorem State.emit_log (s : State) (o : Out) : (s.emit o).log = s.log := rfl
@[simp] theorem State.emit_mem (s : State) (o : Out) : (s.emit o).mem = s.mem := rfl
@[simp] theorem State.emit_host (s : State) (o : Out) : (s.emit o).host = s.host := rfl
@[simp] theorem State.emit_sp (s : State) (o : Out) : (s.emit o).sp = s.sp := rfl
@[simp] theorem State.emit_engine (s : State) (o : Out) : (s.emit o).engine = s.engine := rfl
@[simp] theorem State.emit_ctxs (s : State) (o : Out) : (s.emit o).ctxs = s.ctxs := rfl
@[simp] theorem State.emit_cqs (s : State) (o : Out) : (s.emit o).cqs = s.cqs := rfl
@[simp] theorem State.emit_fq (s : State) (o : Out) : (s.emit o).fq = s.fq := rfl
@[simp] theorem State.emit_time (s : State) (o : Out) : (s.emit o).time = s.time := rfl
@[simp] theorem State.emit_schedules (s : State) (o : Out) : (s.emit o).schedules = s.schedules := rfl
@[simp] theorem State.emit_triggers (s : State) (o : Out) : (s.emit o).triggers = s.triggers := rfl
@[simp] theorem State.emit_pulses (s : State) (o : Out) : (s.emit o).pulses = s.pulses := rfl
@[simp] theorem State.emit_chans (s : State) (o : Out) : (s.emit o).chans = s.chans := rfl
@[simp] theorem State.emit_film (s : State) (o : Out) : (s.emit o).film = s.film := rfl
@[simp] theorem State.emit_mos (s : State) (o : Out) : (s.emit o).mos = s.mos := rfl
@[simp] theorem State.emit_pool (s : State) (o : Out) : (s.emit o).pool = s.pool := rfl
@[simp] theorem State.emit_filters (s : State) (o : Out) : (s.emit o).filters = s.filters := rfl
@[simp] theorem State.emit_records (s : State) (o : Out) : (s.emit o).records = s.records := rfl
@[simp] theorem State.emit_routes (s : State) (o : Out) : (s.emit o).routes = s.routes := rfl
@[simp] theorem State.emit_monitors (s : State) (o : Out) : (s.emit o).monitors = s.monitors := rfl
@[simp] theorem State.emit_pdus (s : State) (o : Out) : (s.emit o).pdus = s.pdus := rfl
@[simp] theorem State.emit_sigs (s : State) (o : Out) : (s.emit o).sigs = s.sigs := rfl
@[simp] theorem State.emit_lanes (s : State) (o : Out) : (s.emit o).lanes = s.lanes := rfl
@[simp] theorem State.emit_localIo (s : State) (o : Out) : (s.emit o).localIo = s.localIo := rfl
@[simp] theorem State.emit_bundle (s : State) (o : Out) : (s.emit o).bundle = s.bundle := rfl
@[simp] theorem State.emit_cvus (s : State) (o : Out) : (s.emit o).cvus = s.cvus := rfl
@[simp] theorem State.emit_load (s : State) (o : Out) : (s.emit o).load = s.load := rfl
@[simp] theorem State.emit_linkA (s : State) (o : Out) : (s.emit o).linkA = s.linkA := rfl
@[simp] theorem State.emit_linkB (s : State) (o : Out) : (s.emit o).linkB = s.linkB := rfl
@[simp] theorem State.emit_stack (s : State) (o : Out) : (s.emit o).stack = s.stack := rfl
@[simp] theorem State.emit_census (s : State) (o : Out) : (s.emit o).census = s.census := rfl
@[simp] theorem State.emit_update (s : State) (o : Out) : (s.emit o).update = s.update := rfl
@[simp] theorem State.emit_banks (s : State) (o : Out) : (s.emit o).banks = s.banks := rfl
@[simp] theorem State.emit_free (s : State) (o : Out) : (s.emit o).free = s.free := rfl

@[simp] theorem drawn_pending (n : Nat) (s : State) : (drawn n s).pending = s.pending := rfl
@[simp] theorem drawn_aon (n : Nat) (s : State) : (drawn n s).aon = s.aon := rfl
@[simp] theorem drawn_log (n : Nat) (s : State) : (drawn n s).log = s.log := rfl
@[simp] theorem drawn_mem (n : Nat) (s : State) : (drawn n s).mem = s.mem := rfl
@[simp] theorem drawn_host (n : Nat) (s : State) : (drawn n s).host = s.host := rfl
@[simp] theorem drawn_sp (n : Nat) (s : State) : (drawn n s).sp = s.sp := rfl
@[simp] theorem drawn_engine (n : Nat) (s : State) : (drawn n s).engine = s.engine := rfl
@[simp] theorem drawn_ctxs (n : Nat) (s : State) : (drawn n s).ctxs = s.ctxs := rfl
@[simp] theorem drawn_cqs (n : Nat) (s : State) : (drawn n s).cqs = s.cqs := rfl
@[simp] theorem drawn_fq (n : Nat) (s : State) : (drawn n s).fq = s.fq := rfl
@[simp] theorem drawn_time (n : Nat) (s : State) : (drawn n s).time = s.time := rfl
@[simp] theorem drawn_schedules (n : Nat) (s : State) : (drawn n s).schedules = s.schedules := rfl
@[simp] theorem drawn_triggers (n : Nat) (s : State) : (drawn n s).triggers = s.triggers := rfl
@[simp] theorem drawn_pulses (n : Nat) (s : State) : (drawn n s).pulses = s.pulses := rfl
@[simp] theorem drawn_chans (n : Nat) (s : State) : (drawn n s).chans = s.chans := rfl
@[simp] theorem drawn_film (n : Nat) (s : State) : (drawn n s).film = s.film := rfl
@[simp] theorem drawn_mos (n : Nat) (s : State) : (drawn n s).mos = s.mos := rfl
@[simp] theorem drawn_pool (n : Nat) (s : State) : (drawn n s).pool = s.pool := rfl
@[simp] theorem drawn_filters (n : Nat) (s : State) : (drawn n s).filters = s.filters := rfl
@[simp] theorem drawn_records (n : Nat) (s : State) : (drawn n s).records = s.records := rfl
@[simp] theorem drawn_routes (n : Nat) (s : State) : (drawn n s).routes = s.routes := rfl
@[simp] theorem drawn_monitors (n : Nat) (s : State) : (drawn n s).monitors = s.monitors := rfl
@[simp] theorem drawn_pdus (n : Nat) (s : State) : (drawn n s).pdus = s.pdus := rfl
@[simp] theorem drawn_sigs (n : Nat) (s : State) : (drawn n s).sigs = s.sigs := rfl
@[simp] theorem drawn_lanes (n : Nat) (s : State) : (drawn n s).lanes = s.lanes := rfl
@[simp] theorem drawn_localIo (n : Nat) (s : State) : (drawn n s).localIo = s.localIo := rfl
@[simp] theorem drawn_bundle (n : Nat) (s : State) : (drawn n s).bundle = s.bundle := rfl
@[simp] theorem drawn_cvus (n : Nat) (s : State) : (drawn n s).cvus = s.cvus := rfl
@[simp] theorem drawn_load (n : Nat) (s : State) : (drawn n s).load = s.load := rfl
@[simp] theorem drawn_linkA (n : Nat) (s : State) : (drawn n s).linkA = s.linkA := rfl
@[simp] theorem drawn_linkB (n : Nat) (s : State) : (drawn n s).linkB = s.linkB := rfl
@[simp] theorem drawn_stack (n : Nat) (s : State) : (drawn n s).stack = s.stack := rfl
@[simp] theorem drawn_census (n : Nat) (s : State) : (drawn n s).census = s.census := rfl
@[simp] theorem drawn_update (n : Nat) (s : State) : (drawn n s).update = s.update := rfl
@[simp] theorem drawn_banks (n : Nat) (s : State) : (drawn n s).banks = s.banks := rfl
@[simp] theorem drawn_out (n : Nat) (s : State) : (drawn n s).out = s.out := rfl

@[simp] theorem modRec_pending (n : Nat) (f : StreamRec → StreamRec) (s : State) : (modRec n f s).pending = s.pending := rfl
@[simp] theorem modRec_aon (n : Nat) (f : StreamRec → StreamRec) (s : State) : (modRec n f s).aon = s.aon := rfl
@[simp] theorem modRec_log (n : Nat) (f : StreamRec → StreamRec) (s : State) : (modRec n f s).log = s.log := rfl
@[simp] theorem modRec_mem (n : Nat) (f : StreamRec → StreamRec) (s : State) : (modRec n f s).mem = s.mem := rfl
@[simp] theorem modRec_host (n : Nat) (f : StreamRec → StreamRec) (s : State) : (modRec n f s).host = s.host := rfl
@[simp] theorem modRec_sp (n : Nat) (f : StreamRec → StreamRec) (s : State) : (modRec n f s).sp = s.sp := rfl
@[simp] theorem modRec_engine (n : Nat) (f : StreamRec → StreamRec) (s : State) : (modRec n f s).engine = s.engine := rfl
@[simp] theorem modRec_ctxs (n : Nat) (f : StreamRec → StreamRec) (s : State) : (modRec n f s).ctxs = s.ctxs := rfl
@[simp] theorem modRec_cqs (n : Nat) (f : StreamRec → StreamRec) (s : State) : (modRec n f s).cqs = s.cqs := rfl
@[simp] theorem modRec_fq (n : Nat) (f : StreamRec → StreamRec) (s : State) : (modRec n f s).fq = s.fq := rfl
@[simp] theorem modRec_time (n : Nat) (f : StreamRec → StreamRec) (s : State) : (modRec n f s).time = s.time := rfl
@[simp] theorem modRec_schedules (n : Nat) (f : StreamRec → StreamRec) (s : State) : (modRec n f s).schedules = s.schedules := rfl
@[simp] theorem modRec_triggers (n : Nat) (f : StreamRec → StreamRec) (s : State) : (modRec n f s).triggers = s.triggers := rfl
@[simp] theorem modRec_pulses (n : Nat) (f : StreamRec → StreamRec) (s : State) : (modRec n f s).pulses = s.pulses := rfl
@[simp] theorem modRec_chans (n : Nat) (f : StreamRec → StreamRec) (s : State) : (modRec n f s).chans = s.chans := rfl
@[simp] theorem modRec_film (n : Nat) (f : StreamRec → StreamRec) (s : State) : (modRec n f s).film = s.film := rfl
@[simp] theorem modRec_mos (n : Nat) (f : StreamRec → StreamRec) (s : State) : (modRec n f s).mos = s.mos := rfl
@[simp] theorem modRec_pool (n : Nat) (f : StreamRec → StreamRec) (s : State) : (modRec n f s).pool = s.pool := rfl
@[simp] theorem modRec_filters (n : Nat) (f : StreamRec → StreamRec) (s : State) : (modRec n f s).filters = s.filters := rfl
@[simp] theorem modRec_routes (n : Nat) (f : StreamRec → StreamRec) (s : State) : (modRec n f s).routes = s.routes := rfl
@[simp] theorem modRec_monitors (n : Nat) (f : StreamRec → StreamRec) (s : State) : (modRec n f s).monitors = s.monitors := rfl
@[simp] theorem modRec_pdus (n : Nat) (f : StreamRec → StreamRec) (s : State) : (modRec n f s).pdus = s.pdus := rfl
@[simp] theorem modRec_sigs (n : Nat) (f : StreamRec → StreamRec) (s : State) : (modRec n f s).sigs = s.sigs := rfl
@[simp] theorem modRec_lanes (n : Nat) (f : StreamRec → StreamRec) (s : State) : (modRec n f s).lanes = s.lanes := rfl
@[simp] theorem modRec_localIo (n : Nat) (f : StreamRec → StreamRec) (s : State) : (modRec n f s).localIo = s.localIo := rfl
@[simp] theorem modRec_bundle (n : Nat) (f : StreamRec → StreamRec) (s : State) : (modRec n f s).bundle = s.bundle := rfl
@[simp] theorem modRec_cvus (n : Nat) (f : StreamRec → StreamRec) (s : State) : (modRec n f s).cvus = s.cvus := rfl
@[simp] theorem modRec_load (n : Nat) (f : StreamRec → StreamRec) (s : State) : (modRec n f s).load = s.load := rfl
@[simp] theorem modRec_linkA (n : Nat) (f : StreamRec → StreamRec) (s : State) : (modRec n f s).linkA = s.linkA := rfl
@[simp] theorem modRec_linkB (n : Nat) (f : StreamRec → StreamRec) (s : State) : (modRec n f s).linkB = s.linkB := rfl
@[simp] theorem modRec_stack (n : Nat) (f : StreamRec → StreamRec) (s : State) : (modRec n f s).stack = s.stack := rfl
@[simp] theorem modRec_census (n : Nat) (f : StreamRec → StreamRec) (s : State) : (modRec n f s).census = s.census := rfl
@[simp] theorem modRec_update (n : Nat) (f : StreamRec → StreamRec) (s : State) : (modRec n f s).update = s.update := rfl
@[simp] theorem modRec_banks (n : Nat) (f : StreamRec → StreamRec) (s : State) : (modRec n f s).banks = s.banks := rfl
@[simp] theorem modRec_free (n : Nat) (f : StreamRec → StreamRec) (s : State) : (modRec n f s).free = s.free := rfl
@[simp] theorem modRec_out (n : Nat) (f : StreamRec → StreamRec) (s : State) : (modRec n f s).out = s.out := rfl

@[simp] theorem modPdu_pending (n : Nat) (f : Pdu → Pdu) (s : State) : (modPdu n f s).pending = s.pending := rfl
@[simp] theorem modPdu_aon (n : Nat) (f : Pdu → Pdu) (s : State) : (modPdu n f s).aon = s.aon := rfl
@[simp] theorem modPdu_log (n : Nat) (f : Pdu → Pdu) (s : State) : (modPdu n f s).log = s.log := rfl
@[simp] theorem modPdu_mem (n : Nat) (f : Pdu → Pdu) (s : State) : (modPdu n f s).mem = s.mem := rfl
@[simp] theorem modPdu_host (n : Nat) (f : Pdu → Pdu) (s : State) : (modPdu n f s).host = s.host := rfl
@[simp] theorem modPdu_sp (n : Nat) (f : Pdu → Pdu) (s : State) : (modPdu n f s).sp = s.sp := rfl
@[simp] theorem modPdu_engine (n : Nat) (f : Pdu → Pdu) (s : State) : (modPdu n f s).engine = s.engine := rfl
@[simp] theorem modPdu_ctxs (n : Nat) (f : Pdu → Pdu) (s : State) : (modPdu n f s).ctxs = s.ctxs := rfl
@[simp] theorem modPdu_cqs (n : Nat) (f : Pdu → Pdu) (s : State) : (modPdu n f s).cqs = s.cqs := rfl
@[simp] theorem modPdu_fq (n : Nat) (f : Pdu → Pdu) (s : State) : (modPdu n f s).fq = s.fq := rfl
@[simp] theorem modPdu_time (n : Nat) (f : Pdu → Pdu) (s : State) : (modPdu n f s).time = s.time := rfl
@[simp] theorem modPdu_schedules (n : Nat) (f : Pdu → Pdu) (s : State) : (modPdu n f s).schedules = s.schedules := rfl
@[simp] theorem modPdu_triggers (n : Nat) (f : Pdu → Pdu) (s : State) : (modPdu n f s).triggers = s.triggers := rfl
@[simp] theorem modPdu_pulses (n : Nat) (f : Pdu → Pdu) (s : State) : (modPdu n f s).pulses = s.pulses := rfl
@[simp] theorem modPdu_chans (n : Nat) (f : Pdu → Pdu) (s : State) : (modPdu n f s).chans = s.chans := rfl
@[simp] theorem modPdu_film (n : Nat) (f : Pdu → Pdu) (s : State) : (modPdu n f s).film = s.film := rfl
@[simp] theorem modPdu_mos (n : Nat) (f : Pdu → Pdu) (s : State) : (modPdu n f s).mos = s.mos := rfl
@[simp] theorem modPdu_pool (n : Nat) (f : Pdu → Pdu) (s : State) : (modPdu n f s).pool = s.pool := rfl
@[simp] theorem modPdu_filters (n : Nat) (f : Pdu → Pdu) (s : State) : (modPdu n f s).filters = s.filters := rfl
@[simp] theorem modPdu_records (n : Nat) (f : Pdu → Pdu) (s : State) : (modPdu n f s).records = s.records := rfl
@[simp] theorem modPdu_routes (n : Nat) (f : Pdu → Pdu) (s : State) : (modPdu n f s).routes = s.routes := rfl
@[simp] theorem modPdu_monitors (n : Nat) (f : Pdu → Pdu) (s : State) : (modPdu n f s).monitors = s.monitors := rfl
@[simp] theorem modPdu_sigs (n : Nat) (f : Pdu → Pdu) (s : State) : (modPdu n f s).sigs = s.sigs := rfl
@[simp] theorem modPdu_lanes (n : Nat) (f : Pdu → Pdu) (s : State) : (modPdu n f s).lanes = s.lanes := rfl
@[simp] theorem modPdu_localIo (n : Nat) (f : Pdu → Pdu) (s : State) : (modPdu n f s).localIo = s.localIo := rfl
@[simp] theorem modPdu_bundle (n : Nat) (f : Pdu → Pdu) (s : State) : (modPdu n f s).bundle = s.bundle := rfl
@[simp] theorem modPdu_cvus (n : Nat) (f : Pdu → Pdu) (s : State) : (modPdu n f s).cvus = s.cvus := rfl
@[simp] theorem modPdu_load (n : Nat) (f : Pdu → Pdu) (s : State) : (modPdu n f s).load = s.load := rfl
@[simp] theorem modPdu_linkA (n : Nat) (f : Pdu → Pdu) (s : State) : (modPdu n f s).linkA = s.linkA := rfl
@[simp] theorem modPdu_linkB (n : Nat) (f : Pdu → Pdu) (s : State) : (modPdu n f s).linkB = s.linkB := rfl
@[simp] theorem modPdu_stack (n : Nat) (f : Pdu → Pdu) (s : State) : (modPdu n f s).stack = s.stack := rfl
@[simp] theorem modPdu_census (n : Nat) (f : Pdu → Pdu) (s : State) : (modPdu n f s).census = s.census := rfl
@[simp] theorem modPdu_update (n : Nat) (f : Pdu → Pdu) (s : State) : (modPdu n f s).update = s.update := rfl
@[simp] theorem modPdu_banks (n : Nat) (f : Pdu → Pdu) (s : State) : (modPdu n f s).banks = s.banks := rfl
@[simp] theorem modPdu_free (n : Nat) (f : Pdu → Pdu) (s : State) : (modPdu n f s).free = s.free := rfl
@[simp] theorem modPdu_out (n : Nat) (f : Pdu → Pdu) (s : State) : (modPdu n f s).out = s.out := rfl

@[simp] theorem modSchedule_pending (n : Nat) (f : Schedule → Schedule) (s : State) : (modSchedule n f s).pending = s.pending := rfl
@[simp] theorem modSchedule_aon (n : Nat) (f : Schedule → Schedule) (s : State) : (modSchedule n f s).aon = s.aon := rfl
@[simp] theorem modSchedule_log (n : Nat) (f : Schedule → Schedule) (s : State) : (modSchedule n f s).log = s.log := rfl
@[simp] theorem modSchedule_mem (n : Nat) (f : Schedule → Schedule) (s : State) : (modSchedule n f s).mem = s.mem := rfl
@[simp] theorem modSchedule_host (n : Nat) (f : Schedule → Schedule) (s : State) : (modSchedule n f s).host = s.host := rfl
@[simp] theorem modSchedule_sp (n : Nat) (f : Schedule → Schedule) (s : State) : (modSchedule n f s).sp = s.sp := rfl
@[simp] theorem modSchedule_engine (n : Nat) (f : Schedule → Schedule) (s : State) : (modSchedule n f s).engine = s.engine := rfl
@[simp] theorem modSchedule_ctxs (n : Nat) (f : Schedule → Schedule) (s : State) : (modSchedule n f s).ctxs = s.ctxs := rfl
@[simp] theorem modSchedule_cqs (n : Nat) (f : Schedule → Schedule) (s : State) : (modSchedule n f s).cqs = s.cqs := rfl
@[simp] theorem modSchedule_fq (n : Nat) (f : Schedule → Schedule) (s : State) : (modSchedule n f s).fq = s.fq := rfl
@[simp] theorem modSchedule_time (n : Nat) (f : Schedule → Schedule) (s : State) : (modSchedule n f s).time = s.time := rfl
@[simp] theorem modSchedule_triggers (n : Nat) (f : Schedule → Schedule) (s : State) : (modSchedule n f s).triggers = s.triggers := rfl
@[simp] theorem modSchedule_pulses (n : Nat) (f : Schedule → Schedule) (s : State) : (modSchedule n f s).pulses = s.pulses := rfl
@[simp] theorem modSchedule_chans (n : Nat) (f : Schedule → Schedule) (s : State) : (modSchedule n f s).chans = s.chans := rfl
@[simp] theorem modSchedule_film (n : Nat) (f : Schedule → Schedule) (s : State) : (modSchedule n f s).film = s.film := rfl
@[simp] theorem modSchedule_mos (n : Nat) (f : Schedule → Schedule) (s : State) : (modSchedule n f s).mos = s.mos := rfl
@[simp] theorem modSchedule_pool (n : Nat) (f : Schedule → Schedule) (s : State) : (modSchedule n f s).pool = s.pool := rfl
@[simp] theorem modSchedule_filters (n : Nat) (f : Schedule → Schedule) (s : State) : (modSchedule n f s).filters = s.filters := rfl
@[simp] theorem modSchedule_records (n : Nat) (f : Schedule → Schedule) (s : State) : (modSchedule n f s).records = s.records := rfl
@[simp] theorem modSchedule_routes (n : Nat) (f : Schedule → Schedule) (s : State) : (modSchedule n f s).routes = s.routes := rfl
@[simp] theorem modSchedule_monitors (n : Nat) (f : Schedule → Schedule) (s : State) : (modSchedule n f s).monitors = s.monitors := rfl
@[simp] theorem modSchedule_pdus (n : Nat) (f : Schedule → Schedule) (s : State) : (modSchedule n f s).pdus = s.pdus := rfl
@[simp] theorem modSchedule_sigs (n : Nat) (f : Schedule → Schedule) (s : State) : (modSchedule n f s).sigs = s.sigs := rfl
@[simp] theorem modSchedule_lanes (n : Nat) (f : Schedule → Schedule) (s : State) : (modSchedule n f s).lanes = s.lanes := rfl
@[simp] theorem modSchedule_localIo (n : Nat) (f : Schedule → Schedule) (s : State) : (modSchedule n f s).localIo = s.localIo := rfl
@[simp] theorem modSchedule_bundle (n : Nat) (f : Schedule → Schedule) (s : State) : (modSchedule n f s).bundle = s.bundle := rfl
@[simp] theorem modSchedule_cvus (n : Nat) (f : Schedule → Schedule) (s : State) : (modSchedule n f s).cvus = s.cvus := rfl
@[simp] theorem modSchedule_load (n : Nat) (f : Schedule → Schedule) (s : State) : (modSchedule n f s).load = s.load := rfl
@[simp] theorem modSchedule_linkA (n : Nat) (f : Schedule → Schedule) (s : State) : (modSchedule n f s).linkA = s.linkA := rfl
@[simp] theorem modSchedule_linkB (n : Nat) (f : Schedule → Schedule) (s : State) : (modSchedule n f s).linkB = s.linkB := rfl
@[simp] theorem modSchedule_stack (n : Nat) (f : Schedule → Schedule) (s : State) : (modSchedule n f s).stack = s.stack := rfl
@[simp] theorem modSchedule_census (n : Nat) (f : Schedule → Schedule) (s : State) : (modSchedule n f s).census = s.census := rfl
@[simp] theorem modSchedule_update (n : Nat) (f : Schedule → Schedule) (s : State) : (modSchedule n f s).update = s.update := rfl
@[simp] theorem modSchedule_banks (n : Nat) (f : Schedule → Schedule) (s : State) : (modSchedule n f s).banks = s.banks := rfl
@[simp] theorem modSchedule_free (n : Nat) (f : Schedule → Schedule) (s : State) : (modSchedule n f s).free = s.free := rfl
@[simp] theorem modSchedule_out (n : Nat) (f : Schedule → Schedule) (s : State) : (modSchedule n f s).out = s.out := rfl

@[simp] theorem State.modLink_pending (s : State) (p : Port) (f : Link → Link) : (s.modLink p f).pending = s.pending := by cases p <;> rfl
@[simp] theorem State.modLink_aon (s : State) (p : Port) (f : Link → Link) : (s.modLink p f).aon = s.aon := by cases p <;> rfl
@[simp] theorem State.modLink_log (s : State) (p : Port) (f : Link → Link) : (s.modLink p f).log = s.log := by cases p <;> rfl
@[simp] theorem State.modLink_mem (s : State) (p : Port) (f : Link → Link) : (s.modLink p f).mem = s.mem := by cases p <;> rfl
@[simp] theorem State.modLink_host (s : State) (p : Port) (f : Link → Link) : (s.modLink p f).host = s.host := by cases p <;> rfl
@[simp] theorem State.modLink_sp (s : State) (p : Port) (f : Link → Link) : (s.modLink p f).sp = s.sp := by cases p <;> rfl
@[simp] theorem State.modLink_engine (s : State) (p : Port) (f : Link → Link) : (s.modLink p f).engine = s.engine := by cases p <;> rfl
@[simp] theorem State.modLink_ctxs (s : State) (p : Port) (f : Link → Link) : (s.modLink p f).ctxs = s.ctxs := by cases p <;> rfl
@[simp] theorem State.modLink_cqs (s : State) (p : Port) (f : Link → Link) : (s.modLink p f).cqs = s.cqs := by cases p <;> rfl
@[simp] theorem State.modLink_fq (s : State) (p : Port) (f : Link → Link) : (s.modLink p f).fq = s.fq := by cases p <;> rfl
@[simp] theorem State.modLink_time (s : State) (p : Port) (f : Link → Link) : (s.modLink p f).time = s.time := by cases p <;> rfl
@[simp] theorem State.modLink_schedules (s : State) (p : Port) (f : Link → Link) : (s.modLink p f).schedules = s.schedules := by cases p <;> rfl
@[simp] theorem State.modLink_triggers (s : State) (p : Port) (f : Link → Link) : (s.modLink p f).triggers = s.triggers := by cases p <;> rfl
@[simp] theorem State.modLink_pulses (s : State) (p : Port) (f : Link → Link) : (s.modLink p f).pulses = s.pulses := by cases p <;> rfl
@[simp] theorem State.modLink_chans (s : State) (p : Port) (f : Link → Link) : (s.modLink p f).chans = s.chans := by cases p <;> rfl
@[simp] theorem State.modLink_film (s : State) (p : Port) (f : Link → Link) : (s.modLink p f).film = s.film := by cases p <;> rfl
@[simp] theorem State.modLink_mos (s : State) (p : Port) (f : Link → Link) : (s.modLink p f).mos = s.mos := by cases p <;> rfl
@[simp] theorem State.modLink_pool (s : State) (p : Port) (f : Link → Link) : (s.modLink p f).pool = s.pool := by cases p <;> rfl
@[simp] theorem State.modLink_filters (s : State) (p : Port) (f : Link → Link) : (s.modLink p f).filters = s.filters := by cases p <;> rfl
@[simp] theorem State.modLink_records (s : State) (p : Port) (f : Link → Link) : (s.modLink p f).records = s.records := by cases p <;> rfl
@[simp] theorem State.modLink_routes (s : State) (p : Port) (f : Link → Link) : (s.modLink p f).routes = s.routes := by cases p <;> rfl
@[simp] theorem State.modLink_monitors (s : State) (p : Port) (f : Link → Link) : (s.modLink p f).monitors = s.monitors := by cases p <;> rfl
@[simp] theorem State.modLink_pdus (s : State) (p : Port) (f : Link → Link) : (s.modLink p f).pdus = s.pdus := by cases p <;> rfl
@[simp] theorem State.modLink_sigs (s : State) (p : Port) (f : Link → Link) : (s.modLink p f).sigs = s.sigs := by cases p <;> rfl
@[simp] theorem State.modLink_lanes (s : State) (p : Port) (f : Link → Link) : (s.modLink p f).lanes = s.lanes := by cases p <;> rfl
@[simp] theorem State.modLink_localIo (s : State) (p : Port) (f : Link → Link) : (s.modLink p f).localIo = s.localIo := by cases p <;> rfl
@[simp] theorem State.modLink_bundle (s : State) (p : Port) (f : Link → Link) : (s.modLink p f).bundle = s.bundle := by cases p <;> rfl
@[simp] theorem State.modLink_cvus (s : State) (p : Port) (f : Link → Link) : (s.modLink p f).cvus = s.cvus := by cases p <;> rfl
@[simp] theorem State.modLink_load (s : State) (p : Port) (f : Link → Link) : (s.modLink p f).load = s.load := by cases p <;> rfl
@[simp] theorem State.modLink_stack (s : State) (p : Port) (f : Link → Link) : (s.modLink p f).stack = s.stack := by cases p <;> rfl
@[simp] theorem State.modLink_census (s : State) (p : Port) (f : Link → Link) : (s.modLink p f).census = s.census := by cases p <;> rfl
@[simp] theorem State.modLink_update (s : State) (p : Port) (f : Link → Link) : (s.modLink p f).update = s.update := by cases p <;> rfl
@[simp] theorem State.modLink_banks (s : State) (p : Port) (f : Link → Link) : (s.modLink p f).banks = s.banks := by cases p <;> rfl
@[simp] theorem State.modLink_free (s : State) (p : Port) (f : Link → Link) : (s.modLink p f).free = s.free := by cases p <;> rfl
@[simp] theorem State.modLink_out (s : State) (p : Port) (f : Link → Link) : (s.modLink p f).out = s.out := by cases p <;> rfl

/-! ### The item an update writes -/

@[simp] theorem State.modMo_mos (s : State) (m : Nat) (f : Mo → Mo) : (s.modMo m f).mos = mmod s.mos m f := rfl
@[simp] theorem State.emit_out (s : State) (x : Out) : (s.emit x).out = s.out ++ [x] := rfl
@[simp] theorem drawn_free (n : Nat) (s : State) : (drawn n s).free = s.free + n := rfl
@[simp] theorem modRec_records (n : Nat) (f : StreamRec → StreamRec) (s : State) : (modRec n f s).records = mmod s.records n f := rfl
@[simp] theorem modPdu_pdus (n : Nat) (f : Pdu → Pdu) (s : State) : (modPdu n f s).pdus = mmod s.pdus n f := rfl
@[simp] theorem modSchedule_schedules (n : Nat) (f : Schedule → Schedule) (s : State) :
    (modSchedule n f s).schedules = mmod s.schedules n f := rfl

@[simp] theorem State.chan_modChan (s : State) (c : Nat) (f : Chan → Chan) (h : c < 64) : (s.modChan c f).chan c = f (s.chan c) :=
  tget_tmod_self _ _ h
theorem State.chan_modChan_ne (s : State) (c d : Nat) (f : Chan → Chan) (h : c ≠ d) : (s.modChan c f).chan d = s.chan d :=
  tget_tmod_ne _ _ h
@[simp] theorem State.ctx_modCtx (s : State) (c : Nat) (f : Ctx → Ctx) (h : c < 64) : (s.modCtx c f).ctx c = f (s.ctx c) :=
  tget_tmod_self _ _ h
theorem State.ctx_modCtx_ne (s : State) (c d : Nat) (f : Ctx → Ctx) (h : c ≠ d) : (s.modCtx c f).ctx d = s.ctx d :=
  tget_tmod_ne _ _ h
@[simp] theorem State.cq_modCq (s : State) (c : Nat) (f : CtxQueues → CtxQueues) (h : c < 64) : (s.modCq c f).cq c = f (s.cq c) :=
  tget_tmod_self _ _ h
theorem State.cq_modCq_ne (s : State) (c d : Nat) (f : CtxQueues → CtxQueues) (h : c ≠ d) : (s.modCq c f).cq d = s.cq d :=
  tget_tmod_ne _ _ h
@[simp] theorem State.ld_modLd (s : State) (c : Nat) (f : Load → Load) (h : c < 96) : (s.modLd c f).ld c = f (s.ld c) :=
  tget_tmod_self _ _ h
theorem State.ld_modLd_ne (s : State) (c d : Nat) (f : Load → Load) (h : c ≠ d) : (s.modLd c f).ld d = s.ld d :=
  tget_tmod_ne _ _ h
theorem State.swc_modSwc_ne (s : State) (c d : Nat) (f : SwChain → SwChain) (h : c ≠ d) : (s.modSwc c f).swc d = s.swc d :=
  tget_tmod_ne _ _ h
@[simp] theorem State.cvu_modCvu (s : State) (c : Nat) (f : Cvu → Cvu) (h : c < 32) : (s.modCvu c f).cvu c = f (s.cvu c) :=
  tget_tmod_self _ _ h
theorem State.cvu_modCvu_ne (s : State) (c d : Nat) (f : Cvu → Cvu) (h : c ≠ d) : (s.modCvu c f).cvu d = s.cvu d :=
  tget_tmod_ne _ _ h
@[simp] theorem State.mon_modMon (s : State) (c : Nat) (f : Monitor → Monitor) (h : c < 64) : (s.modMon c f).mon c = f (s.mon c) :=
  tget_tmod_self _ _ h
theorem State.mon_modMon_ne (s : State) (c d : Nat) (f : Monitor → Monitor) (h : c ≠ d) : (s.modMon c f).mon d = s.mon d :=
  tget_tmod_ne _ _ h
@[simp] theorem State.lane_modLane (s : State) (c : Nat) (f : Lane → Lane) (h : c < 4) : (s.modLane c f).lane c = f (s.lane c) :=
  tget_tmod_self _ _ h
theorem State.lane_modLane_ne (s : State) (c d : Nat) (f : Lane → Lane) (h : c ≠ d) : (s.modLane c f).lane d = s.lane d :=
  tget_tmod_ne _ _ h
@[simp] theorem State.trigger_modTrigger (s : State) (c : Nat) (f : Trigger → Trigger) (h : c < 8) : (s.modTrigger c f).trigger c = f (s.trigger c) :=
  tget_tmod_self _ _ h
theorem State.trigger_modTrigger_ne (s : State) (c d : Nat) (f : Trigger → Trigger) (h : c ≠ d) : (s.modTrigger c f).trigger d = s.trigger d :=
  tget_tmod_ne _ _ h
@[simp] theorem State.bank_modBank (s : State) (c : Nat) (f : Bank → Bank) (h : c < 2) : (s.modBank c f).bank c = f (s.bank c) :=
  tget_tmod_self _ _ h
theorem State.bank_modBank_ne (s : State) (c d : Nat) (f : Bank → Bank) (h : c ≠ d) : (s.modBank c f).bank d = s.bank d :=
  tget_tmod_ne _ _ h
@[simp] theorem State.fn_modFn (s : State) (c : Nat) (f : Fn → Fn) (h : c < 64) : (s.modFn c f).fn c = f (s.fn c) :=
  tget_tmod_self _ _ h
theorem State.fn_modFn_ne (s : State) (c d : Nat) (f : Fn → Fn) (h : c ≠ d) : (s.modFn c f).fn d = s.fn d :=
  tget_tmod_ne _ _ h
@[simp] theorem State.link_modLink (s : State) (p : Port) (f : Link → Link) : (s.modLink p f).link p = f (s.link p) := by
  cases p <;> rfl
theorem State.link_modLink_ne (s : State) (p q : Port) (f : Link → Link) (h : p ≠ q) : (s.modLink p f).link q = s.link q := by
  cases p <;> cases q <;> first | rfl | exact absurd rfl h

end Sys2Proof.Machine
end

