-- ==== Sys2Proof/Laws/Tells.lean ====
section
/-!
SUPPORT. The shared operations that only tell: events, interrupts, replies, the fault log, link frames and queue counters.
-/

namespace Sys2Proof.Machine

set_option linter.all false

theorem cut_tells {p q : Prop} (h : p) (k : p → q) : q := k h

theorem Tells.refl (a : State) : Tells a a := ⟨rfl, rfl, rfl, rfl, rfl, rfl, rfl, fun _ => rfl, rfl, rfl, rfl, rfl, rfl, rfl, rfl, rfl, rfl, rfl, rfl, rfl, rfl, rfl, rfl, rfl, rfl, rfl, fun _ => rfl⟩

theorem Tells.trans {a b c : State} (h : Tells a b) (k : Tells b c) : Tells a c :=
  ⟨k.pending.trans h.pending, k.aon.trans h.aon, k.ctxs.trans h.ctxs, k.time.trans h.time, k.schedules.trans h.schedules, k.triggers.trans h.triggers, k.pulses.trans h.pulses, fun n => by
    have e1 := h.chans n
    have e2 := k.chans n
    rw [← e1, ← e2], k.film.trans h.film, k.mos.trans h.mos, k.pool.trans h.pool, k.filters.trans h.filters, k.records.trans h.records, k.routes.trans h.routes, k.monitors.trans h.monitors, k.pdus.trans h.pdus, k.sigs.trans h.sigs, k.lanes.trans h.lanes, k.localIo.trans h.localIo, k.bundle.trans h.bundle, k.cvus.trans h.cvus, k.load.trans h.load, k.mem.trans h.mem, k.stack.trans h.stack, k.census.trans h.census, k.update.trans h.update, fun n => by
    have e1 := h.banks n
    have e2 := k.banks n
    rw [← e1, ← e2]⟩

theorem tells_mk {a s : State} {zlog zhost zsp zengine zcqs zfq zlinkA zlinkB zfree zout} (h : Tells a s) : Tells a ⟨s.pending, s.aon, zlog, s.mem, zhost, zsp, zengine, s.ctxs, zcqs, zfq, s.time, s.schedules, s.triggers, s.pulses, s.chans, s.film, s.mos, s.pool, s.filters, s.records, s.routes, s.monitors, s.pdus, s.sigs, s.lanes, s.localIo, s.bundle, s.cvus, s.load, zlinkA, zlinkB, s.stack, s.census, s.update, s.banks, zfree, zout⟩ :=
  ⟨h.pending, h.aon, h.ctxs, h.time, h.schedules, h.triggers, h.pulses, h.chans, h.film, h.mos, h.pool, h.filters, h.records, h.routes, h.monitors, h.pdus, h.sigs, h.lanes, h.localIo, h.bundle, h.cvus, h.load, h.mem, h.stack, h.census, h.update, h.banks⟩


theorem forEach_tells {α : Type} {a : State} (l : List α) (f : α → State → State) {s : State}
    (hf : ∀ x s, Tells a s → Tells a (f x s)) (h : Tells a s) : Tells a (forEach l f s) := by
  unfold forEach
  induction l generalizing s with
  | nil => exact h
  | cons x l ih => exact ih (hf x s h)

theorem forRange_tells {a : State} (n : Nat) (f : Nat → State → State) {s : State}
    (hf : ∀ x s, Tells a s → Tells a (f x s)) (h : Tells a s) : Tells a (forRange n f s) :=
  forEach_tells (List.range n) f hf h

theorem foldl_tells {α : Type} {a : State} (l : List α) (f : State → α → State) {s : State}
    (hf : ∀ s x, Tells a s → Tells a (f s x)) (h : Tells a s) : Tells a (l.foldl f s) := by
  induction l generalizing s with
  | nil => exact h
  | cons x l ih => exact ih (hf s x h)

theorem foldl_tells_fst {α β : Type} {a : State} (l : List α) (f : State × β → α → State × β) {z : State × β}
    (hf : ∀ z x, Tells a z.1 → Tells a (f z x).1) (h : Tells a z.1) : Tells a (l.foldl f z).1 := by
  induction l generalizing z with
  | nil => exact h
  | cons x l ih => exact ih (hf z x h)

theorem foldl_tells_snd {α β : Type} {a : State} (l : List α) (f : β × State → α → β × State) {z : β × State}
    (hf : ∀ z x, Tells a z.2 → Tells a (f z x).2) (h : Tells a z.2) : Tells a (l.foldl f z).2 := by
  induction l generalizing z with
  | nil => exact h
  | cons x l ih => exact ih (hf z x h)

theorem ite_tells {a x y : State} {c : Prop} [Decidable c] (h : Tells a x) (k : Tells a y) : Tells a (if c then x else y) := by
  split
  · exact h
  · exact k
theorem State_modFn_tells {a : State} {s : State} (c : Nat) (f : Fn → Fn) (h : Tells a s) : Tells a (s.modFn c f) := tells_mk h
theorem State_modRing_tells {a : State} {s : State} (c k : Nat) (f : Ring → Ring) (h : Tells a s) : Tells a (s.modRing c k f) := tells_mk h
theorem State_modCq_tells {a : State} {s : State} (c : Nat) (f : CtxQueues → CtxQueues) (h : Tells a s) : Tells a (s.modCq c f) := tells_mk h
theorem State_modLink_tells {a : State} {s : State} (p : Port) (f : Link → Link) (h : Tells a s) : Tells a (s.modLink p f) := by
  cases p <;> exact tells_mk h

theorem drawn_tells {a : State} (n : Nat) {s : State} (h : Tells a s) : Tells a (drawn n s) := by
  unfold drawn
  with_reducible repeat' first
    | assumption | intro _ _ _ | intro _ _ | intro _
    | (extract_lets +onlyGivenNames x; first | refine cut_tells (p := Tells _ x) ?_ (fun _ => ?_) | clear x | skip)
    | split | refine tells_mk ?_

theorem State_emit_tells {a : State} {s : State} (o : Out) (h : Tells a s) : Tells a (State.emit s o) := by
  unfold State.emit
  with_reducible repeat' first
    | assumption | intro _ _ _ | intro _ _ | intro _
    | (extract_lets +onlyGivenNames x; first | refine cut_tells (p := Tells _ x) ?_ (fun _ => ?_) | clear x | skip)
    | split | refine tells_mk ?_

theorem putFrame_tells {a : State} (p : Port) (f : LinkFrame) {s : State} (h : Tells a s) : Tells a (putFrame p f s) := by
  unfold putFrame
  with_reducible repeat' first
    | assumption | intro _ _ _ | intro _ _ | intro _ | apply State_emit_tells | apply State_modLink_tells | apply ite_tells
    | (extract_lets +onlyGivenNames x; first | refine cut_tells (p := Tells _ x) ?_ (fun _ => ?_) | clear x | skip)
    | split | refine tells_mk ?_

theorem pumpLink_tells {a : State} (p : Port) (n : Nat) {s : State} (h : Tells a s) : Tells a (pumpLink p n s) := by
  induction n generalizing s with
  | zero => exact h
  | succ n ih =>
    unfold pumpLink
    dsimp only
    split
    · exact h
    · split
      · exact h
      · split
        · exact ih (putFrame_tells p _ h)
        · exact h

theorem sendFrame_tells {a : State} (p : Port) (f : LinkFrame) {s : State} (h : Tells a s) : Tells a (sendFrame p f s) := by
  unfold sendFrame
  with_reducible repeat' first
    | assumption | intro _ _ _ | intro _ _ | intro _ | apply pumpLink_tells | apply State_modLink_tells | apply ite_tells
    | (extract_lets +onlyGivenNames x; first | refine cut_tells (p := Tells _ x) ?_ (fun _ => ?_) | clear x | skip)
    | split | refine tells_mk ?_

theorem sendMsix_tells {a : State} (c : Nat) (v : Nat) {s : State} (h : Tells a s) : Tells a (sendMsix c v s) := by
  unfold sendMsix
  with_reducible repeat' first
    | assumption | intro _ _ _ | intro _ _ | intro _ | apply State_emit_tells
    | (extract_lets +onlyGivenNames x; first | refine cut_tells (p := Tells _ x) ?_ (fun _ => ?_) | clear x | skip)
    | split | refine tells_mk ?_

theorem settleIrq_tells {a : State} (c : Nat) {s : State} (h : Tells a s) : Tells a (settleIrq c s) := by
  unfold settleIrq
  with_reducible repeat' first
    | assumption | intro _ _ _ | intro _ _ | intro _ | apply sendMsix_tells | apply State_modFn_tells | apply ite_tells
    | (extract_lets +onlyGivenNames x; first | refine cut_tells (p := Tells _ x) ?_ (fun _ => ?_) | clear x | skip)
    | split | refine tells_mk ?_

theorem raiseIrq_tells {a : State} (c : Nat) (bit : Nat) {s : State} (h : Tells a s) : Tells a (raiseIrq c bit s) := by
  unfold raiseIrq
  with_reducible repeat' first
    | assumption | intro _ _ _ | intro _ _ | intro _ | apply settleIrq_tells | apply State_modFn_tells
    | (extract_lets +onlyGivenNames x; first | refine cut_tells (p := Tells _ x) ?_ (fun _ => ?_) | clear x | skip)
    | split | refine tells_mk ?_

theorem pushEvent_tells {a : State} (c : Nat) (e : Event) {s : State} (h : Tells a s) : Tells a (pushEvent c e s) := by
  unfold pushEvent
  with_reducible repeat' first
    | assumption | intro _ _ _ | intro _ _ | intro _ | apply raiseIrq_tells | apply State_modFn_tells | apply State_modCq_tells |
      apply ite_tells
    | (extract_lets +onlyGivenNames x; first | refine cut_tells (p := Tells _ x) ?_ (fun _ => ?_) | clear x | skip)
    | split | refine tells_mk ?_

theorem raiseEvent_tells {a : State} (c : Nat) (code : Nat) (data : List Byte) {s : State} (h : Tells a s) : Tells a (raiseEvent c code data s) := by
  unfold raiseEvent
  with_reducible repeat' first
    | assumption | intro _ _ _ | intro _ _ | intro _ | apply sendFrame_tells | apply pushEvent_tells | apply ite_tells
    | (extract_lets +onlyGivenNames x; first | refine cut_tells (p := Tells _ x) ?_ (fun _ => ?_) | clear x | skip)
    | split | refine tells_mk ?_

theorem fcEvent_tells {a : State} (pin : Nat) (up : Bool) (fill : Nat) {s : State} (h : Tells a s) : Tells a (fcEvent pin up fill s) := by
  unfold fcEvent
  with_reducible repeat' first
    | assumption | intro _ _ _ | intro _ _ | intro _ | apply raiseEvent_tells
    | (extract_lets +onlyGivenNames x; first | refine cut_tells (p := Tells _ x) ?_ (fun _ => ?_) | clear x | skip)
    | split | refine tells_mk ?_

theorem modStat_tells {a : State} (q : QKind × Nat) (f : QStat → QStat) {s : State} (h : Tells a s) : Tells a (modStat q f s) := by
  unfold modStat
  split
  · rename_i n
    refine h.trans ⟨rfl, rfl, rfl, rfl, rfl, rfl, rfl, fun m => ?_, rfl, rfl, rfl, rfl, rfl, rfl, rfl, rfl, rfl, rfl, rfl, rfl, rfl, rfl, rfl, rfl, rfl, rfl, fun _ => rfl⟩
    by_cases e : n = m
    · subst e
      by_cases k : n < 64
      · rw [State.chan_modChan _ _ _ k]
      · simp only [State.chan, State.modChan, tget, tmod, dif_neg k]
    · rw [State.chan_modChan_ne _ _ _ _ e]
  all_goals exact tells_mk h

theorem fcMeet_tells {a : State} (q : QKind × Nat) (f : Nat) (atOnce : Bool) (pin : Nat) {s : State} (h : Tells a s) : Tells a (fcMeet q f atOnce pin s) := by
  unfold fcMeet
  with_reducible repeat' first
    | assumption | intro _ _ _ | intro _ _ | intro _ | apply fcEvent_tells | apply modStat_tells | apply ite_tells
    | (extract_lets +onlyGivenNames x; first | refine cut_tells (p := Tells _ x) ?_ (fun _ => ?_) | clear x | skip)
    | split | refine tells_mk ?_

theorem fcPin_tells {a : State} (pin : Nat) {s : State} (h : Tells a s) : Tells a (fcPin pin s) := by
  unfold fcPin
  with_reducible repeat' first
    | assumption | intro _ _ _ | intro _ _ | intro _ | apply fcMeet_tells
    | (extract_lets +onlyGivenNames x; first | refine cut_tells (p := Tells _ x) ?_ (fun _ => ?_) | clear x | skip)
    | split | refine tells_mk ?_

theorem fcSettle_tells {a : State} {s : State} (h : Tells a s) : Tells a (fcSettle s) := by
  unfold fcSettle
  with_reducible repeat' first
    | assumption | intro _ _ _ | intro _ _ | intro _ | apply fcPin_tells | apply forRange_tells | apply ite_tells
    | (extract_lets +onlyGivenNames x; first | refine cut_tells (p := Tells _ x) ?_ (fun _ => ?_) | clear x | skip)
    | split | refine tells_mk ?_

theorem noteTaken_tells {a : State} (src : Source) {s : State} (h : Tells a s) : Tells a (noteTaken src s) := tells_mk h

theorem popSource_tells {a : State} (src : Source) {s : State} (h : Tells a s) : Tells a (popSource src s) := by
  unfold popSource
  with_reducible repeat' first
    | assumption | intro _ _ _ | intro _ _ | intro _ | apply State_modCq_tells
    | (extract_lets +onlyGivenNames x; first | refine cut_tells (p := Tells _ x) ?_ (fun _ => ?_) | clear x | skip)
    | split | refine tells_mk ?_

theorem noteSheetReply_tells {a : State} (r : Reply) {s : State} (h : Tells a s) : Tells a (noteSheetReply r s) := by
  unfold noteSheetReply
  refine ite_tells (h.trans ⟨rfl, rfl, rfl, rfl, rfl, rfl, rfl, fun _ => rfl, rfl, rfl, rfl, rfl, rfl, rfl, rfl, rfl, rfl, rfl, rfl, rfl, rfl, rfl, rfl, rfl, rfl, rfl, fun m => ?_⟩) h
  generalize (if r.dest = .sp then 0 else 1) = n
  by_cases e : n = m
  · subst e
    by_cases k : n < 2
    · rw [State.bank_modBank _ _ _ k]
      split <;> rfl
    · simp only [State.bank, State.modBank, tget, tmod, dif_neg k]
  · rw [State.bank_modBank_ne _ _ _ _ e]

theorem fcAt_tells {a : State} (q : QKind × Nat) (f : Nat) (atOnce : Bool) {s : State} (h : Tells a s) : Tells a (fcAt q f atOnce s) := by
  unfold fcAt
  with_reducible repeat' first
    | assumption | intro _ _ _ | intro _ _ | intro _ | apply fcMeet_tells | apply forRange_tells | apply ite_tells
    | (extract_lets +onlyGivenNames x; first | refine cut_tells (p := Tells _ x) ?_ (fun _ => ?_) | clear x | skip)
    | split | refine tells_mk ?_

theorem countPacket_tells {a : State} (q : QKind × Nat) {s : State} (h : Tells a s) : Tells a (countPacket q s) := by
  unfold countPacket
  with_reducible repeat' first
    | assumption | intro _ _ _ | intro _ _ | intro _ | apply fcAt_tells | apply modStat_tells
    | (extract_lets +onlyGivenNames x; first | refine cut_tells (p := Tells _ x) ?_ (fun _ => ?_) | clear x | skip)
    | split | refine tells_mk ?_

theorem raiseSafe_tells {a : State} (bit : Nat) {s : State} (h : Tells a s) : Tells a (raiseSafe bit s) := by
  unfold raiseSafe
  with_reducible repeat' first
    | assumption | intro _ _ _ | intro _ _ | intro _
    | (extract_lets +onlyGivenNames x; first | refine cut_tells (p := Tells _ x) ?_ (fun _ => ?_) | clear x | skip)
    | split | refine tells_mk ?_

theorem deliverReply_tells {a : State} (r : Reply) {s : State} (h : Tells a s) : Tells a (deliverReply r s) := by
  unfold deliverReply
  with_reducible repeat' first
    | assumption | intro _ _ _ | intro _ _ | intro _ | apply noteSheetReply_tells | apply countPacket_tells | apply raiseSafe_tells |
      apply modStat_tells | apply fcAt_tells | apply sendFrame_tells | apply State_modCq_tells | apply forEach_tells
    | (extract_lets +onlyGivenNames x; first | refine cut_tells (p := Tells _ x) ?_ (fun _ => ?_) | clear x | skip)
    | split | refine tells_mk ?_

theorem sendReplyFrom_tells {a : State} (pos : Nat) (p : Packet) (status : Nat) (detail : Nat) (body : List Byte) {s : State} (h : Tells a s) : Tells a (sendReplyFrom pos p status detail body s) := by
  unfold sendReplyFrom
  with_reducible repeat' first
    | assumption | intro _ _ _ | intro _ _ | intro _ | apply deliverReply_tells | apply ite_tells
    | (extract_lets +onlyGivenNames x; first | refine cut_tells (p := Tells _ x) ?_ (fun _ => ?_) | clear x | skip)
    | split | refine tells_mk ?_

theorem sendReply_tells {a : State} (p : Packet) (status : Nat) (detail : Nat) (body : List Byte) {s : State} (h : Tells a s) : Tells a (sendReply p status detail body s) := by
  unfold sendReply
  with_reducible repeat' first
    | assumption | intro _ _ _ | intro _ _ | intro _ | apply sendReplyFrom_tells
    | (extract_lets +onlyGivenNames x; first | refine cut_tells (p := Tells _ x) ?_ (fun _ => ?_) | clear x | skip)
    | split | refine tells_mk ?_

theorem settleActivate_tells {a : State} {s : State} (h : Tells a s) : Tells a (settleActivate s) := by
  unfold settleActivate
  with_reducible repeat' first
    | assumption | intro _ _ _ | intro _ _ | intro _ | apply sendReply_tells | apply ite_tells
    | (extract_lets +onlyGivenNames x; first | refine cut_tells (p := Tells _ x) ?_ (fun _ => ?_) | clear x | skip)
    | split | refine tells_mk ?_

theorem enqueue_tells {a : State} (p : Packet) {s : State} (h : Tells a s) : Tells a (enqueue p s) := by
  unfold enqueue
  with_reducible repeat' first
    | assumption | intro _ _ _ | intro _ _ | intro _ | apply countPacket_tells | apply State_modCq_tells
    | (extract_lets +onlyGivenNames x; first | refine cut_tells (p := Tells _ x) ?_ (fun _ => ?_) | clear x | skip)
    | split | refine tells_mk ?_

theorem passQueue_tells {a : State} (src : Source) {s : State} (h : Tells a s) : Tells a (passQueue src s) := by
  unfold passQueue
  with_reducible repeat' first
    | assumption | intro _ _ _ | intro _ _ | intro _ | apply fcAt_tells | apply modStat_tells
    | (extract_lets +onlyGivenNames x; first | refine cut_tells (p := Tells _ x) ?_ (fun _ => ?_) | clear x | skip)
    | split | refine tells_mk ?_

theorem replyTakenFrom_tells {a : State} (pos : Nat) (p : Packet) (status : Nat) (detail : Nat) (body : List Byte) {s : State} (h : Tells a s) : Tells a (replyTakenFrom pos p status detail body s) := by
  unfold replyTakenFrom
  with_reducible repeat' first
    | assumption | intro _ _ _ | intro _ _ | intro _ | apply settleActivate_tells | apply sendReplyFrom_tells | apply ite_tells
    | (extract_lets +onlyGivenNames x; first | refine cut_tells (p := Tells _ x) ?_ (fun _ => ?_) | clear x | skip)
    | split | refine tells_mk ?_

theorem replyTaken_tells {a : State} (p : Packet) (status : Nat) (detail : Nat) (body : List Byte) {s : State} (h : Tells a s) : Tells a (replyTaken p status detail body s) := by
  unfold replyTaken
  with_reducible repeat' first
    | assumption | intro _ _ _ | intro _ _ | intro _ | apply replyTakenFrom_tells
    | (extract_lets +onlyGivenNames x; first | refine cut_tells (p := Tells _ x) ?_ (fun _ => ?_) | clear x | skip)
    | split | refine tells_mk ?_

theorem ringLost_tells {a : State} (c : Nat) (k : Nat) {s : State} (h : Tells a s) : Tells a (ringLost c k s) := by
  unfold ringLost
  with_reducible repeat' first
    | assumption | intro _ _ _ | intro _ _ | intro _ | apply State_modRing_tells
    | (extract_lets +onlyGivenNames x; first | refine cut_tells (p := Tells _ x) ?_ (fun _ => ?_) | clear x | skip)
    | split | refine tells_mk ?_

theorem metFull_tells {a : State} (q : QKind × Nat) {s : State} (h : Tells a s) : Tells a (metFull q s) := by
  unfold metFull
  with_reducible repeat' first
    | assumption | intro _ _ _ | intro _ _ | intro _ | apply modStat_tells | apply fcAt_tells
    | (extract_lets +onlyGivenNames x; first | refine cut_tells (p := Tells _ x) ?_ (fun _ => ?_) | clear x | skip)
    | split | refine tells_mk ?_

theorem oversizeEvent_tells {a : State} (qid : Nat) (producer : Nat) (number : Nat) (claimed : Nat) (first : Nat) {s : State} (h : Tells a s) : Tells a (oversizeEvent qid producer number claimed first s) := by
  unfold oversizeEvent
  with_reducible repeat' first
    | assumption | intro _ _ _ | intro _ _ | intro _ | apply raiseEvent_tells
    | (extract_lets +onlyGivenNames x; first | refine cut_tells (p := Tells _ x) ?_ (fun _ => ?_) | clear x | skip)
    | split | refine tells_mk ?_

theorem dropPacket_tells {a : State} (q : QKind × Nat) (qid : Nat) (producer : Nat) (number : Nat) (first : Nat) {s : State} (h : Tells a s) : Tells a (dropPacket q qid producer number first s) := by
  unfold dropPacket
  with_reducible repeat' first
    | assumption | intro _ _ _ | intro _ _ | intro _ | apply metFull_tells | apply modStat_tells | apply oversizeEvent_tells | apply
      ite_tells
    | (extract_lets +onlyGivenNames x; first | refine cut_tells (p := Tells _ x) ?_ (fun _ => ?_) | clear x | skip)
    | split | refine tells_mk ?_

theorem pushRx_tells {a : State} (c : Nat) (i : RxItem) {s : State} (h : Tells a s) : Tells a (pushRx c i s) := by
  unfold pushRx
  with_reducible repeat' first
    | assumption | intro _ _ _ | intro _ _ | intro _ | apply ringLost_tells | apply modStat_tells | apply countPacket_tells | apply
      dropPacket_tells | apply State_modCq_tells | apply ite_tells
    | (extract_lets +onlyGivenNames x; first | refine cut_tells (p := Tells _ x) ?_ (fun _ => ?_) | clear x | skip)
    | split | refine tells_mk ?_

theorem raiseEvents_tells {a : State} (cs : List Nat) (code : Nat) (data : List Byte) {s : State} (h : Tells a s) : Tells a (raiseEvents cs code data s) := by
  unfold raiseEvents
  with_reducible repeat' first
    | assumption | intro _ _ _ | intro _ _ | intro _ | apply raiseEvent_tells | apply forEach_tells
    | (extract_lets +onlyGivenNames x; first | refine cut_tells (p := Tells _ x) ?_ (fun _ => ?_) | clear x | skip)
    | split | refine tells_mk ?_

theorem countHwm_tells {a : State} (q : QKind × Nat) {s : State} (h : Tells a s) : Tells a (countHwm q s) := by
  unfold countHwm
  with_reducible repeat' first
    | assumption | intro _ _ _ | intro _ _ | intro _ | apply fcAt_tells | apply modStat_tells
    | (extract_lets +onlyGivenNames x; first | refine cut_tells (p := Tells _ x) ?_ (fun _ => ?_) | clear x | skip)
    | split | refine tells_mk ?_

theorem ringMessage_tells {a : State} (c : Nat) (k : Nat) {s : State} (h : Tells a s) : Tells a (ringMessage c k s) := by
  unfold ringMessage
  with_reducible repeat' first
    | assumption | intro _ _ _ | intro _ _ | intro _ | apply sendMsix_tells | apply State_modRing_tells | apply ite_tells
    | (extract_lets +onlyGivenNames x; first | refine cut_tells (p := Tells _ x) ?_ (fun _ => ?_) | clear x | skip)
    | split | refine tells_mk ?_

theorem writeBack_tells {a : State} (c : Nat) (k : Nat) (v : BitVec 32) {s : State} (h : Tells a s) : Tells a (writeBack c k v s) := by
  unfold writeBack
  with_reducible repeat' first
    | assumption | intro _ _ _ | intro _ _ | intro _ | apply State_emit_tells | apply ite_tells
    | (extract_lets +onlyGivenNames x; first | refine cut_tells (p := Tells _ x) ?_ (fun _ => ?_) | clear x | skip)
    | split | refine tells_mk ?_

theorem ringAdvance_tells {a : State} (c : Nat) (k : Nat) (v : BitVec 32) {s : State} (h : Tells a s) : Tells a (ringAdvance c k v s) := by
  unfold ringAdvance
  with_reducible repeat' first
    | assumption | intro _ _ _ | intro _ _ | intro _ | apply ringMessage_tells | apply writeBack_tells
    | (extract_lets +onlyGivenNames x; first | refine cut_tells (p := Tells _ x) ?_ (fun _ => ?_) | clear x | skip)
    | split | refine tells_mk ?_

theorem signalFault_tells {a : State} {s : State} (h : Tells a s) : Tells a (signalFault s) := by
  unfold signalFault
  with_reducible repeat' first
    | assumption | intro _ _ _ | intro _ _ | intro _ | apply raiseSafe_tells | apply raiseIrq_tells
    | (extract_lets +onlyGivenNames x; first | refine cut_tells (p := Tells _ x) ?_ (fun _ => ?_) | clear x | skip)
    | split | refine tells_mk ?_

theorem logFault_tells {a : State} (cls : Nat) (source : Nat) (info1 : Nat) (info2 : Nat) {s : State} (h : Tells a s) : Tells a (logFault cls source info1 info2 s) := by
  unfold logFault
  with_reducible repeat' first
    | assumption | intro _ _ _ | intro _ _ | intro _ | apply signalFault_tells | apply ite_tells
    | (extract_lets +onlyGivenNames x; first | refine cut_tells (p := Tells _ x) ?_ (fun _ => ?_) | clear x | skip)
    | split | refine tells_mk ?_

theorem setLimit_tells {a : State} (c : Nat) (k : Nat) (v : BitVec 32) {s : State} (h : Tells a s) : Tells a (setLimit c k v s) := by
  unfold setLimit
  with_reducible repeat' first
    | assumption | intro _ _ _ | intro _ _ | intro _ | apply ringAdvance_tells | apply State_modRing_tells | apply ite_tells
    | (extract_lets +onlyGivenNames x; first | refine cut_tells (p := Tells _ x) ?_ (fun _ => ?_) | clear x | skip)
    | split | refine tells_mk ?_

theorem fcRelease_tells {a : State} {s : State} (h : Tells a s) : Tells a (fcRelease s) := by
  unfold fcRelease
  with_reducible repeat' first
    | assumption | intro _ _ _ | intro _ _ | intro _
    | (extract_lets +onlyGivenNames x; first | refine cut_tells (p := Tells _ x) ?_ (fun _ => ?_) | clear x | skip)
    | split | refine tells_mk ?_

end Sys2Proof.Machine
end

