-- ==== Sys2Proof/Laws/Commands.lean ====
section
/-!
SUPPORT. What a command packet does that its source may send now: the checks of R151 pass and its handler decides.
-/

namespace Sys2Proof.Machine

/-- A check that finds nothing lets the handler go on. -/
theorem refuseIf_false {b : Bool} {st d : Nat} {v : Verdict} (h : b = false) : refuseIf b st d v = v := by subst h; rfl

/-- A check that finds something refuses. -/
theorem refuseIf_true {b : Bool} {st d : Nat} {v : Verdict} (h : b = true) : refuseIf b st d v = .refuse st d := by subst h; rfl

/-- A parameter check that finds nothing lets the handler go on. -/
theorem badParam_false {b : Bool} {o : Nat} {v : Verdict} (h : b = false) : badParam b o v = v := by subst h; rfl

/-- A latent command goes on where no bundle load holds up CTX0's changes. -/
theorem bundleOpen_none {s : State} {p : Packet} {v : Verdict} (h : stageCtx p ≠ 0 ∨ s.bundle = none) : bundleOpen s p v = v := by
  unfold bundleOpen
  rcases h with h | h <;> simp [h]

/-- A channel field that names a mapped channel. -/
theorem withChan_some {p : Packet} {s : State} {off ch : Nat} {k : Nat → Verdict} (h : byteAt p.params off < 64)
    (e : srcChan s p.source (byteAt p.params off) = some ch) : withChan p s off k = k ch := by
  simp [withChan, Nat.not_le.2 h, e]

/-- What taking a packet leaves alone, the session of its source apart. -/
theorem taken_tells (p : Packet) (s : State) : Tells s { taken p s with update := s.update } := by
  have k : Tells s (passQueue p.source s) := passQueue_tells _ (Tells.refl s)
  have n := noteTaken_tells p.source k
  exact ⟨n.pending, n.aon, n.ctxs, n.time, n.schedules, n.triggers, n.pulses, n.chans, n.film, n.mos, n.pool, n.filters, n.records,
    n.routes, n.monitors, n.pdus, n.sigs, n.lanes, n.localIo, n.bundle, n.cvus, n.load, n.mem, n.stack, n.census, rfl, n.banks⟩

/-- An accepted packet is judged by its handler alone. -/
theorem judge_of_accepts {c : CmdSpec} {h : Packet → State → Verdict} {p : Packet} {s : State} (a : Accepts c p s) :
    judge c h { p with opcode := c.opcode } (taken p s) = h { p with opcode := c.opcode } (taken p s) := by
  obtain ⟨_, _, _, _, cmd, header, local_, safety, right, needs, settings⟩ := a
  have k := taken_tells p s
  have ha : (taken p s).aon = s.aon := k.aon
  have hl : isRemote { p with opcode := c.opcode } = false := local_
  have hc : (taken p s).isReady 2 = true := by rw [State.isReady, ha]; exact cmd
  have hu : settingsRefused (taken p s) = none := by
    have e : (passQueue p.source s).update = s.update := (passQueue_tells _ (Tells.refl s)).update
    have e' : (taken p s).update.unreadable = (passQueue p.source s).update.unreadable := rfl
    rw [settingsRefused, ha, e', e]; exact settings
  have hs : (p.source == Source.sp && !safetyMay c) = false := by
    cases e : p.source == Source.sp with
    | false => rfl
    | true => simp [safety (eq_of_beq e)]
  have hm : ∀ l, missing (taken p s) l = missing s l := fun l => by simp only [missing, State.isReady, ha]
  have hn : missing (taken p s) (c.needs { p with opcode := c.opcode } (taken p s)) = none := by rw [hm]; exact needs
  simp [judge, hardwareAnswers, hc, header, remoteSource, hl, hs, isForwarded, right, remoteTarget, judgedNeeds, hn, hu]

/-- An accepted packet is taken at once. -/
theorem runCommand_of_accepts {c : CmdSpec} {h : Packet → State → Verdict} {p : Packet} {s : State} (a : Accepts c p s) :
    runCommand c h p s = conclude { p with opcode := c.opcode } (taken p s) (h { p with opcode := c.opcode } (taken p s)) := by
  have j := judge_of_accepts (h := h) a
  obtain ⟨live, fresh, running, first, _⟩ := a
  have f : waitingOf s ({ p with opcode := c.opcode } : Packet).source = [] := fresh
  simp only [runCommand, live, f, running, first]
  simp
  exact congrArg (conclude _ _) j

/-- An accepted packet whose handler answers has that answer. -/
theorem answered_of_accepts {c : CmdSpec} {h : Packet → State → Verdict} {p : Packet} {s t : State} {st de : Nat} {b : List Byte}
    (a : Accepts c p s) (e : h { p with opcode := c.opcode } (taken p s) = .reply t st de b) :
    next (runCommand c h p s) = .next (answered c p st de b t) := by
  rw [runCommand_of_accepts a, e]
  rfl

/-- An accepted packet that its handler refuses has that refusal. -/
theorem refused_of_accepts {c : CmdSpec} {h : Packet → State → Verdict} {p : Packet} {s : State} {st de : Nat}
    (a : Accepts c p s) (n : c.opcode / 256 ≠ 0x0E) (b : c.opcode ≠ 0x0A04)
    (e : h { p with opcode := c.opcode } (taken p s) = .refuse st de) :
    next (runCommand c h p s) = .next (answered c p st de [] (taken p s)) := by
  have h1 : c.opcode ≠ 0x0E01 := fun k => n (by rw [k])
  have h2 : c.opcode ≠ 0x0E04 := fun k => n (by rw [k])
  rw [runCommand_of_accepts a, e]
  simp [conclude, noteRefusal, refusalBody, h1, h2, b, answered, next]

/-- An accepted packet whose handler waits stays taken until its reply is due. -/
theorem waited_of_accepts {c : CmdSpec} {h : Packet → State → Verdict} {p : Packet} {s t : State}
    (a : Accepts c p s) (e : h { p with opcode := c.opcode } (taken p s) = .wait t) :
    next (runCommand c h p s) = .next (fcSettle (conclude { p with opcode := c.opcode } (taken p s) (.wait t))) := by
  rw [runCommand_of_accepts a, e]
  rfl

/-- What an answer leaves alone. -/
theorem answered_tells (c : CmdSpec) (p : Packet) (st de : Nat) (b : List Byte) (t : State) : Tells t (answered c p st de b t) :=
  fcSettle_tells (sendReply_tells _ _ _ _ (Tells.refl t))

/-- Taking lost descriptors off the front of a TX ring leaves the functions, the contexts and the ring's activity alone. -/
theorem skipLost_frame (c k n : Nat) (s : State) : (skipLost c k n s).aon = s.aon ∧ (skipLost c k n s).ctxs = s.ctxs
    ∧ ((skipLost c k n s).ring c (4 + k)).active = (s.ring c (4 + k)).active := by
  induction n generalizing s with
  | zero => exact ⟨rfl, rfl, rfl⟩
  | succ n ih =>
    unfold skipLost
    simp only []
    split
    · obtain ⟨h1, h2, h3⟩ := ih (s.modRing c (4 + k) fun r => { r with
        fetched := r.fetched + 1, intake := r.intake + 1, txLost := r.txLost.filter (· != r.fetched) })
      refine ⟨h1, h2, h3.trans ?_⟩
      simp only [State.ring, State.modRing, State.modFn, State.fn]
      by_cases hc : c < 64
      · rw [tget_tmod_self _ _ hc]
        by_cases hk : 4 + k < 36
        · rw [tget_tmod_self _ _ hk]
        · simp [tmod, tget, hk]
      · simp [tmod, hc]
    · exact ⟨rfl, rfl, rfl⟩

end Sys2Proof.Machine
end

