-- ==== Sys2Proof/Machine/Balls.lean ====
section
/-!
DEFINITION. The balls of the package (R596 to R602, R609): where each lies, its type, supply domain, state during reset and pull,
what becomes of it when it is not used, and the level that the state gives an output ball (R53, R86, R135, R140, R223, R347, R376,
R495, R498). No command reads a ball's place.
-/

namespace Sys2Proof.Machine

/-! ### Names (R596 to R598) -/

/-- Supplies and grounds of the balls (R598). -/
inductive Rail where
  | vdd | vddaon | vddio33 | vddio18 | vdda18 | vddpcie08 | vddpcie18 | vddlnk08 | vss | vssa
  deriving DecidableEq, Repr

/-- The balls of a switch chain. -/
inductive ChainPin where
  | sck | sdo | sdi | csn
  deriving DecidableEq, Repr

/-- The balls of the test access port. -/
inductive TapPin where
  | tck | tms | tdi | tdo | trstn
  deriving DecidableEq, Repr

/-- What a ball is assigned to (R597, R600). `neg` marks the inverted leg of a differential pair, `out` its transmit side. -/
inductive Ball where
  | txd (ch : Nat) | rxd (ch : Nat) | stbn (ch : Nat)
  | pwm (n : Nat) | chain (swc : Nat) (pin : ChainPin) | din (n : Nat) | ain (n : Nat) | vbats
  | xtali | xtalo
  | pcie (out : Bool) (lane : Nat) (neg : Bool) | prefclk (neg : Bool) | perstn
  | talrax (port : Port) (out : Bool) (lane : Nat) (neg : Bool)
  | sqCsn | sqSck | sqIo (n : Nat) | sqIrqn
  | fc (n : Nat) | trigio (n : Nat) | ppsIn | ppsOut
  | rstn | waken | faultn | stackId (n : Nat) | tap (pin : TapPin)
  | supply (rail : Rail)
  deriving DecidableEq, Repr

/-- The row letters, A being row number 1 (R596). -/
def rowLetters : List String :=
  ["A", "B", "C", "D", "E", "F", "G", "H", "J", "K", "L", "M", "N", "P"] ++
  ["T", "U", "V", "W", "Y", "AA", "AB", "AC", "AD", "AE", "AF", "AG", "AH", "AJ"]

/-- The row number of a row's letters (R596). -/
def rowNumber (name : String) : Option Nat := (rowLetters.findIdx? (· == name)).map (· + 1)

/-- The zones of the ball array (R596). -/
inductive Zone where
  | outer | middle | inner
  deriving DecidableEq, Repr

/-- The zone of a row number and column (R596). -/
def zoneOf (r c : Nat) : Zone :=
  if r ≤ 3 || 26 ≤ r || c ≤ 3 || 26 ≤ c then .outer
  else if r ≤ 5 || 24 ≤ r || c ≤ 5 || 24 ≤ c then .middle
  else .inner

/-! ### Places (R597, R598) -/

/-- The three balls of channel `ch`, the outermost first (R597). -/
def channelBall (ch depth : Nat) : Ball := if depth = 0 then .txd ch else if depth = 1 then .rxd ch else .stbn ch

/-- The four balls of a corner's row: two pairs, each followed by VSS (R597). -/
def pairRow (pair : Nat → Bool → Ball) (lane : Nat) : List Ball :=
  [pair lane false, pair lane true, .supply .vss, pair (lane + 1) false, pair (lane + 1) true, .supply .vss]

/-- The north-west corner, rows A to F (R597). -/
def cornerNW : Nat → List Ball
  | 1 => [.supply .vss, .xtali, .xtalo, .supply .vss, .ppsIn, .ppsOut]
  | 2 => [.sqSck, .sqCsn, .sqIo 0, .sqIo 1, .sqIo 2, .sqIo 3]
  | 3 => [.sqIrqn, .rstn, .perstn, .waken, .faultn, .supply .vss]
  | 4 => [.tap .tck, .tap .tms, .tap .tdi]
  | 5 => [.tap .tdo, .tap .trstn, .stackId 0]
  | _ => [.stackId 1, .stackId 2, .supply .vss]

/-- The north-east corner, rows A to F (R597). -/
def cornerNE : Nat → List Ball
  | 1 => pairRow (.pcie true) 0
  | 2 => pairRow (.pcie false) 0
  | 3 => pairRow (.pcie true) 2
  | 4 => [.supply .vss, .pcie false 2 true, .pcie false 2 false]
  | 5 => [.supply .vss, .pcie false 3 true, .pcie false 3 false]
  | _ => [.supply .vss, .prefclk true, .prefclk false]

/-- The south-west corner, rows AD to AJ (R597). -/
def cornerSW : Nat → List Ball
  | 23 => [.fc 6, .fc 7, .supply .vss]
  | 24 => [.fc 3, .fc 4, .fc 5]
  | 25 => [.fc 0, .fc 1, .fc 2]
  | 26 => [.supply .vss, .supply .vddlnk08, .supply .vss, .supply .vddlnk08, .supply .vss, .supply .vddlnk08]
  | 27 => pairRow (.talrax .a false) 0
  | _ => pairRow (.talrax .a true) 0

/-- The south-east corner, rows AD to AJ (R597). -/
def cornerSE : Nat → List Ball
  | 23 => [.supply .vss, .trigio 7, .trigio 6]
  | 24 => [.trigio 5, .trigio 4, .trigio 3]
  | 25 => [.trigio 2, .trigio 1, .trigio 0]
  | 26 => [.supply .vddlnk08, .supply .vss, .supply .vddlnk08, .supply .vss, .supply .vddlnk08, .supply .vss]
  | 27 => pairRow (.talrax .b false) 0
  | _ => pairRow (.talrax .b true) 0

/-- The ball of a corner's list: its last balls end at column 28 on the east side. -/
def cornerBall (west : Bool) (l : List Ball) (c : Nat) : Ball :=
  l.getD (if west then c - 1 else c + l.length - 29) (.supply .vss)

/-- A ball of the outer band (R597). -/
def outerBall (r c : Nat) : Ball :=
  if r ≤ 6 && c ≤ 6 then cornerBall true (cornerNW r) c
  else if r ≤ 6 && 23 ≤ c then cornerBall false (cornerNE r) c
  else if 23 ≤ r && c ≤ 6 then cornerBall true (cornerSW r) c
  else if 23 ≤ r && 23 ≤ c then cornerBall false (cornerSE r) c
  else if r ≤ 3 then channelBall (c - 7) (r - 1)
  else if 26 ≤ c then channelBall (r - 7 + 16) (28 - c)
  else if 26 ≤ r then channelBall (c - 7 + 32) (28 - r)
  else channelBall (r - 7 + 48) (c - 1)

/-- The pins of a chain in ascending row number (R597). -/
def chainPin (k : Nat) : ChainPin := if k = 0 then .sck else if k = 1 then .sdo else if k = 2 then .sdi else .csn

/-- A ball of the middle band (R597). -/
def middleBall (r c : Nat) : Ball :=
  if r = 4 && 5 ≤ c && c ≤ 24 then .pwm (c - 5)
  else if r = 5 && 5 ≤ c && c ≤ 24 then .pwm (c + 15)
  else if r = 24 && 17 ≤ c && c ≤ 24 then .pwm (c + 23)
  else if r = 25 && 5 ≤ c && c ≤ 24 then .din (c - 5)
  else if r = 24 && 5 ≤ c && c ≤ 16 then .din (c + 15)
  else if c = 4 && 6 ≤ r && r ≤ 21 then .chain ((r - 6) / 4) (chainPin ((r - 6) % 4))
  else if c = 5 && 6 ≤ r && r ≤ 21 then .chain ((r - 6) / 4 + 4) (chainPin ((r - 6) % 4))
  else if c = 25 && 6 ≤ r && r ≤ 23 then .ain (r - 6)
  else if c = 24 && 6 ≤ r && r ≤ 11 then .ain (r + 12)
  else if c = 24 && r = 13 then .vbats
  else if [(4, 4), (4, 25), (25, 4), (25, 25), (22, 4), (23, 5)].contains (r, c) then .supply .vddio33
  else if [(5, 4), (5, 25), (24, 4), (24, 25), (22, 5), (23, 4)].contains (r, c) then .supply .vss
  else if r % 2 = 1 then .supply .vdda18
  else .supply .vssa

/-- The exception table of the inner square (R598). -/
def exceptionRail (r c : Nat) : Option Rail :=
  if [(6, 7), (7, 6)].contains (r, c) then some .vddaon
  else if [(6, 9), (7, 8), (8, 7), (9, 6)].contains (r, c) then some .vddio18
  else if [(6, 21), (7, 20), (7, 22), (9, 22)].contains (r, c) then some .vddpcie08
  else if [(6, 23), (8, 23)].contains (r, c) then some .vddpcie18
  else if [(10, 23), (12, 23), (14, 23), (16, 23), (18, 23), (20, 23), (22, 23)].contains (r, c) then some .vdda18
  else none

/-- The supply of a ball of the inner square (R598). -/
def innerRail (r c : Nat) : Rail :=
  let d := min (min (r - 6) (c - 6)) (min (23 - r) (23 - c))
  if (r + c) % 2 = 0 then (if c = 23 && 10 ≤ r then .vssa else .vss)
  else match exceptionRail r c with
    | some x => x
    | none => if d = 0 then .vddio33 else .vdd

/-- The assignment of the ball at a row number and column, each 1 to 28 (R597). -/
def ballAt (r c : Nat) : Ball :=
  match zoneOf r c with
  | .outer => outerBall r c
  | .middle => middleBall r c
  | .inner => .supply (innerRail r c)

/-- Every ball of the array, row by row. -/
def allBalls : List Ball := (List.range 28).flatMap fun r => (List.range 28).map fun c => ballAt (r + 1) (c + 1)

/-! ### Kinds (R600) -/

/-- Ball types (R600); `input33` is an input that is 3.3 V tolerant. -/
inductive BallType where
  | output | input | input33 | analogue | diffOut | diffIn | hcsl | bidir | openDrain
  deriving DecidableEq, Repr

/-- What a ball does during reset (R600). -/
inductive InReset where
  | high | low | input | highZ | oscillator | electricalIdle | receiverOn | training | released
  deriving DecidableEq, Repr

/-- An internal pull (R600). -/
inductive Pull where
  | nothing | up | down
  deriving DecidableEq, Repr

/-- A row of R600. -/
structure BallSpec where
  kind    : BallType
  domain  : Rail
  inReset : InReset
  pull    : Pull
  deriving DecidableEq, Repr

/-- The kind of a signal ball; none for a supply or ground ball (R600). -/
def ballSpec : Ball → Option BallSpec
  | .txd _ => some ⟨.output, .vddio33, .high, .nothing⟩
  | .rxd _ => some ⟨.input, .vddio33, .input, .up⟩
  | .stbn _ => some ⟨.output, .vddio33, .low, .nothing⟩
  | .pwm _ => some ⟨.output, .vddio33, .low, .down⟩
  | .chain _ .sck => some ⟨.output, .vddio33, .low, .nothing⟩
  | .chain _ .sdo => some ⟨.output, .vddio33, .low, .nothing⟩
  | .chain _ .csn => some ⟨.output, .vddio33, .high, .nothing⟩
  | .chain _ .sdi => some ⟨.input, .vddio33, .input, .up⟩
  | .din _ => some ⟨.input, .vddio33, .input, .down⟩
  | .ain _ => some ⟨.analogue, .vdda18, .highZ, .nothing⟩
  | .vbats => some ⟨.analogue, .vdda18, .highZ, .nothing⟩
  | .xtali => some ⟨.analogue, .vdda18, .oscillator, .nothing⟩
  | .xtalo => some ⟨.analogue, .vdda18, .oscillator, .nothing⟩
  | .pcie true _ _ => some ⟨.diffOut, .vddpcie08, .electricalIdle, .nothing⟩
  | .pcie false _ _ => some ⟨.diffIn, .vddpcie08, .receiverOn, .nothing⟩
  | .prefclk _ => some ⟨.hcsl, .vddpcie18, .input, .nothing⟩
  | .perstn => some ⟨.input33, .vddio18, .input, .down⟩
  | .talrax _ true _ _ => some ⟨.diffOut, .vddlnk08, .training, .nothing⟩
  | .talrax _ false _ _ => some ⟨.diffIn, .vddlnk08, .training, .nothing⟩
  | .sqCsn => some ⟨.input, .vddio18, .input, .up⟩
  | .sqSck => some ⟨.input, .vddio18, .input, .down⟩
  | .sqIo _ => some ⟨.bidir, .vddio18, .input, .up⟩
  | .sqIrqn => some ⟨.output, .vddio18, .high, .nothing⟩
  | .fc _ => some ⟨.output, .vddio18, .high, .nothing⟩
  | .trigio _ => some ⟨.bidir, .vddio18, .input, .down⟩
  | .ppsIn => some ⟨.input, .vddio18, .input, .down⟩
  | .ppsOut => some ⟨.output, .vddio18, .low, .nothing⟩
  | .rstn => some ⟨.input, .vddio18, .input, .up⟩
  | .waken => some ⟨.openDrain, .vddio18, .released, .nothing⟩
  | .faultn => some ⟨.openDrain, .vddio18, .low, .nothing⟩
  | .stackId _ => some ⟨.input, .vddio18, .input, .down⟩
  | .tap .tck => some ⟨.input, .vddio18, .input, .down⟩
  | .tap .trstn => some ⟨.input, .vddio18, .input, .down⟩
  | .tap .tms => some ⟨.input, .vddio18, .input, .up⟩
  | .tap .tdi => some ⟨.input, .vddio18, .input, .up⟩
  | .tap .tdo => some ⟨.output, .vddio18, .highZ, .nothing⟩
  | .supply _ => none

/-- The supply up to whose voltage a signal ball takes levels: PERSTN takes levels up to VDDIO33, whether or not its own VDDIO18 is
present (R600, R601). -/
def takesUpTo (b : Ball) : Option Rail :=
  (ballSpec b).map fun x => if x.kind = .input33 then .vddio33 else x.domain

/-- The ball drives its level outwards in some state: what high impedance ends while its supply is down (R601). -/
def drives (k : BallType) : Bool :=
  match k with
  | .output => true
  | .diffOut => true
  | .bidir => true
  | .openDrain => true
  | _ => false

/-- What becomes of a ball whose function a design does not use (R609). -/
inductive Unused where
  | leaveOpen | openOrVss | tieVssa | openOrDrive | mustUse
  deriving DecidableEq, Repr

/-- The treatment of a ball that is not used (R599, R609); none where R609 gives no treatment. -/
def unusedBall : Ball → Option Unused
  | .txd _ => some .leaveOpen
  | .rxd _ => some .leaveOpen
  | .stbn _ => some .leaveOpen
  | .pwm _ => some .leaveOpen
  | .fc _ => some .leaveOpen
  | .ppsOut => some .leaveOpen
  | .chain _ _ => some .leaveOpen
  | .din _ => some .openOrVss
  | .ain _ => some .tieVssa
  | .trigio _ => some .leaveOpen
  | .ppsIn => some .leaveOpen
  | .pcie _ _ _ => some .leaveOpen
  | .talrax _ _ _ _ => some .leaveOpen
  | .sqCsn => some .leaveOpen
  | .sqSck => some .leaveOpen
  | .sqIo _ => some .leaveOpen
  | .sqIrqn => some .leaveOpen
  | .tap _ => some .leaveOpen
  | .stackId _ => some .leaveOpen
  | .rstn => some .openOrDrive
  | .vbats => some .mustUse
  | .xtali => some .mustUse
  | .xtalo => some .mustUse
  | .prefclk _ => some .mustUse
  | .perstn => some .mustUse
  | .supply _ => some .mustUse
  | .waken => none
  | .faultn => none

/-! ### Levels of output balls -/

/-- The level of an output ball. An open-drain ball that is not driven is released. -/
inductive PinLevel where
  | low | high | highZ | released
  deriving DecidableEq, Repr

/-- High where `b` holds, else low. -/
def levelOf (b : Bool) : PinLevel := if b then .high else .low

/-- The channel drives no bit of its own now, so TXD is recessive (R200, R600): SAFELIGHT and LOOP_INT never drive, RESTRICTED drives
acknowledge bits only, and in every mode the phases between frames and bus integration rest. -/
def txdRests (c : Chan) : Bool :=
  match c.bus with
  | .idle => true
  | .intermission => true
  | .suspend => true
  | .integration => true
  | .receiving => c.mode = 1 || c.mode = 3
  | .sending _ => c.mode = 1 || c.mode = 3
  | .errorFrame => c.mode = 1 || c.mode = 2 || c.mode = 3

/-- A PWM ball is high while the channel bound to it is in the high part of its period (R495). -/
def pwmHigh (s : State) (n : Nat) : Bool :=
  s.load.loads.toList.any fun l => l.ball && match l.bind with
    | some b => match b.out with
      | .pwm k _ => k == n
      | _ => false
    | none => false

/-- SCK of a chain between transfers: the level that its SPI mode gives, low for a chain without switches (R498; log entry 47). -/
def sckRests (x : SwChain) : PinLevel := levelOf (x.profile.switches != 0 && bitOf x.profile.mode 1)

/-- The level that the state gives an output ball whose domain is powered; none for an input (a TRIGIO ball that no developed
unit drives is one, R378), and for a ball whose level in this state is a waveform of single bits or is not given (SDO after its chain's
first transfer is one: R600 gives its level until then). TDO is shown as it is while the TAP does not shift (R600): no command
shifts it. -/
def drivenLevel (s : State) : Ball → Option PinLevel
  | .txd ch => if txdRests (s.chan ch) then some .high else none
  | .stbn ch => some (levelOf (stbnHigh s ch))
  | .pwm n => some (levelOf (pwmHigh s n))
  | .chain c .csn => some (levelOf (s.swc c).busy.isNone)
  | .chain c .sck => if (s.swc c).busy.isSome then none else some (sckRests (s.swc c))
  | .chain c .sdo => if (s.swc c).busy.isNone && (s.swc c).busyAt = 0 then some .low else none
  | .tap .tdo => some .highZ
  | .trigio n => if ballOut s n then some (levelOf (tget s.pulses n none).isSome) else none
  | .sqIrqn => some (levelOf (!sqIrqLow s))
  | .fc n => some (levelOf (tget s.fq.fc n { qid := none, high := 0, low := 0, up := true }).up)
  | .ppsOut => some (levelOf s.time.ppsOut)
  | .waken => some (if wakenLow s then .low else .released)
  | .faultn => some (if faultnLow s then .low else .released)
  | _ => none

/-- The level of an output ball; `good` says which supplies are above their thresholds. Every output of a domain that is not is
high impedance, whatever its function does (R53, R601, R604). -/
def outputLevel (good : Rail → Bool) (s : State) (b : Ball) : Option PinLevel :=
  match ballSpec b with
  | some x => if good x.domain then drivenLevel s b else if drives x.kind then some .highZ else none
  | none => none

/-- The level that R600 gives an output ball during reset. -/
def resetLevel (b : Ball) : Option PinLevel :=
  match ballSpec b with
  | some x => match x.inReset with
    | .high => some .high
    | .low => some .low
    | .highZ => some .highZ
    | .released => some .released
    | _ => none
  | none => none

end Sys2Proof.Machine
end

