-- ==== Sys2Proof/Machine/Figures.lean ====
section
/-!
DEFINITION. Budgets and conditions of the spec that no command reads: the paths and their crossings (R23), the latency budgets (R25,
R26, R74, R457), supplies (R49, R51, R615), the conditions on a design's timing (R242, R546, R547, R626, R627) and on its heat
(R3, R616, R617, R635, R636). Time stands in half nanoseconds where the spec gives halves.
-/

namespace Sys2Proof.Machine

/-! ### Paths and crossings (R20, R23) -/

/-- The islands. -/
inductive Island where
  | aon | host | core | route | time | bank
  deriving DecidableEq, Repr

/-- The paths of R23. -/
inductive SignalPath where
  | frameToQueue | completionToHost | gateway | gatewayStacked | hostTransmit | latchToTxd | busToLoad | localToFrame
  | contextCommand | safetyCommand | forceSafe | stampValue | stampDelivery | shutterRelease | eventToHost | wake
  deriving DecidableEq, Repr

/-- The crossings of a path in order; `target` is the island a command goes to, `source` the one an event comes from (R23). -/
def crossings (target source : Island) : SignalPath → List (Island × Island)
  | .frameToQueue => [(.bank, .route), (.route, .core)]
  | .completionToHost => [(.core, .host)]
  | .gateway => [(.bank, .route), (.route, .core), (.core, .bank)]
  | .gatewayStacked => [(.bank, .route), (.route, .time), (.time, .route), (.route, .core), (.core, .bank)]
  | .hostTransmit => [(.host, .core), (.core, .bank)]
  | .latchToTxd => [(.core, .bank)]
  | .busToLoad => [(.bank, .route)]
  | .localToFrame => [(.route, .core), (.core, .bank)]
  | .contextCommand =>
    if target = .core then [(.host, .core), (.core, .host)]
    else [(.host, .core), (.core, target), (target, .core), (.core, .host)]
  | .safetyCommand =>
    if target = .core then [(.aon, .core), (.core, .aon)]
    else [(.aon, .core), (.core, target), (target, .core), (.core, .aon)]
  | .forceSafe => [(.aon, .route)]
  | .stampValue => []
  | .stampDelivery => [(.time, .bank)]
  | .shutterRelease => [(.time, .bank)]
  | .eventToHost => if source = .core then [(.core, .host)] else [(source, .core), (.core, .host)]
  | .wake => []

/-- One crossing, in half nanoseconds (R20). -/
def crossingHalfNs : Nat := 12

/-- Two bank cycles, in half nanoseconds (R25). -/
def twoBankCycles : Nat := 25

/-- A lane pass, in half nanoseconds (R25, R456). -/
def lanePassHalfNs : Nat := 2300

/-- The stages of a routed PDU, in half nanoseconds: hand-off, crossing, lane work, crossing, intake, crossing, heap top (R25). -/
def gatewayStages : List Nat :=
  [twoBankCycles, crossingHalfNs, lanePassHalfNs, crossingHalfNs, 600, crossingHalfNs, twoBankCycles]

/-- The stages of a host transmission, in half nanoseconds: descriptor, crossing, intake, crossing, heap top (R26). -/
def hostStages : List Nat := [32, crossingHalfNs, 1280, crossingHalfNs, twoBankCycles]

/-- The stages from receive valid to a load command (R457). -/
def loadStages : List Nat := gatewayStages.take 3

/-- The stages from a LOCAL block to a candidate (R457). -/
def localStages : List Nat := gatewayStages.drop 2

/-! ### Bounds in ACTIVE and STANDBY (R74) -/

/-- The bounds of R74. -/
inductive SpeedBound where
  | forceToPwm | forceToChain | lanePass | filterDecision | command
  deriving DecidableEq, Repr

/-- A bound in ns, none where it does not apply; `tx` is T_x in ns (R74). -/
def boundNs (standby : Bool) (tx : Nat) : SpeedBound → Option Nat
  | .forceToPwm => some (if standby then 400 else 250)
  | .forceToChain => some ((if standby then 2000 else 1000) + 2 * tx)
  | .lanePass => some (if standby then 9200 else 1150)
  | .filterDecision => if standby then none else some 3000
  | .command => if standby then none else some 100000

/-! ### Supplies (R49, R51, R615) -/

/-- A supply's figures in mV: falling and release threshold, least and greatest operating voltage (R51, R615). -/
structure RailSpec where
  falling : Nat
  release : Nat
  least   : Nat
  most    : Nat
  deriving DecidableEq, Repr

/-- The figures of a supply; a ground has none (R51, R615). -/
def railSpec : Rail → Option RailSpec
  | .vdd => some ⟨720, 740, 760, 840⟩
  | .vddpcie08 => some ⟨720, 740, 760, 840⟩
  | .vddlnk08 => some ⟨720, 740, 760, 840⟩
  | .vddaon => some ⟨700, 720, 760, 840⟩
  | .vddio18 => some ⟨1580, 1620, 1710, 1890⟩
  | .vdda18 => some ⟨1580, 1620, 1710, 1890⟩
  | .vddpcie18 => some ⟨1580, 1620, 1710, 1890⟩
  | .vddio33 => some ⟨2900, 2970, 3000, 3600⟩
  | .vss => none
  | .vssa => none

/-- A supply that stays at `mv` for `ns` browns out: below its falling threshold for 2 µs or longer (R51). -/
def brownsOut (r : Rail) (mv ns : Nat) : Bool :=
  match railSpec r with
  | some x => mv < x.falling && 2000 ≤ ns
  | none => false

/-- The kind of reset that a browned-out supply causes: true for a power-on reset, false for a brown-out reset (R51). -/
def resetsAll (r : Rail) : Bool := r == .vddaon || r == .vddio18

/-- A supply lies in its operating range (R615). -/
def supplyInRange (r : Rail) (mv : Nat) : Bool :=
  match railSpec r with
  | some x => x.least ≤ mv && mv ≤ x.most
  | none => true

/-- A supply ramp of `us` µs from 10 % to 90 % is allowed (R49). -/
def rampAllowed (us : Nat) : Bool := 100 ≤ us && us ≤ 10000

/-! ### Conditions on a design's timing (R242, R546, R547, R626, R627) -/

/-- The nominal settings fit the harness: loop delay and propagation delay in ns (R242). -/
def nominalFits (t : BitTiming) (loopNs busNs : Nat) : Bool := 8 * (loopNs + busNs) ≤ 25 * ((1 + t.tseg1 - t.sjw) * t.brp)

/-- The longest path in mm at 5 ns per metre that fits a loop delay, 0 when none does (R242). -/
def longestPathMm (t : BitTiming) (loopNs : Nat) : Nat := (25 * ((1 + t.tseg1 - t.sjw) * t.brp) - 8 * loopNs) * 25

/-- The parts of the alignment budget over `hops` hops, in ps: stamps, direction mismatch, servo residual, holdover (R547). -/
def alignmentPs (hops : Nat) : List Nat := [300 * hops, 50 * hops, 150 * hops, 500]

/-- The offset in ps that a mismatch of the two directions of a link leaves (R546). -/
def mismatchOffsetPs (mismatchPs : Nat) : Nat := mismatchPs / 2

/-- The two phases of an SCK period in half nanoseconds: DIV clocks of 12.5 ns, the larger half first (R626). -/
def sckPhases (div : Nat) : Nat × Nat := (25 * ceilDiv div 2, 25 * (div / 2))

/-- DIV fits a chain: t_PD 6 ns and t_SU 15 ns with the board delay and the switch's delay in ns (R627). -/
def divFits (div traceNs switchNs : Nat) : Bool := 2 * (6 + 2 * traceNs + switchNs + 15) ≤ (sckPhases div).2

/-! ### Power and heat (R3, R616, R617, R635, R636) -/

/-- The typical power of a configuration in ACTIVE, in µW: `ports` ports UP, `channels` channels enabled at `load` per mille of
bus load, route lanes busy for `lanes` per mille of their time, the PCIe link in L1 or at x1 (R617). -/
def typicalPowerUw (ports channels load lanes : Nat) (inL1 narrow : Bool) : Nat :=
  3150000 + 210000 * ports + channels * (2500 + 10 * load) + 260 * lanes - flag inL1 450000 - flag narrow 350000

/-- The greatest power in µW of the rows of R616, by supply. -/
def greatestPowerUw : List (Rail × Nat) :=
  [(.vdd, 3570000), (.vddaon, 25000), (.vddio33, 558000), (.vddio18, 66000), (.vdda18, 246000), (.vddpcie08, 655000),
   (.vddpcie18, 123000), (.vddlnk08, 538000)]

/-- The greatest junction temperature, in thousandths of a degree (R3). -/
def junctionLimit : Nat := 150000

/-- The heat path holds the junction: ambient in thousandths of a degree, power in mW, thermal resistances in thousandths of a
degree per watt; θJC at its maximum of 0.15 (R635, R636). -/
def heatFits (ambient powerMw interface sink : Nat) : Bool :=
  1000 * ambient + powerMw * (150 + interface + sink) ≤ 1000 * junctionLimit

end Sys2Proof.Machine
end

