-- ==== Sys2Proof/Laws/Figures.lean ====
section
/-!
SUPPORT. Totals that the spec states of its own tables: the balls (R597, R598), the budgets (R25, R26, R457, R547), the supplies
(R615), power and heat (R616, R617, R636).
-/

namespace Sys2Proof.Machine

/-- R598: the ball totals of the package. -/
theorem ball_totals :
    allBalls.length = 784 ∧ (allBalls.filter fun b => (ballSpec b).isSome).length = 402 ∧
    ([Rail.vdd, .vddaon, .vddio33, .vddio18, .vdda18, .vddpcie08, .vddpcie18, .vddlnk08, .vss, .vssa].map fun r =>
      (allBalls.filter (· == Ball.supply r)).length) = [123, 2, 26, 4, 12, 4, 2, 6, 190, 13] := by decide +kernel

/-- R597, the worked balls: CH20 and PWM7. -/
theorem balls_worked :
    [ballAt 11 28, ballAt 11 27, ballAt 11 26, ballAt 4 12] = [.txd 20, .rxd 20, .stbn 20, .pwm 7] ∧
    [ballAt 12 15, ballAt 10 23, ballAt 11 23] = [.supply .vdd, .supply .vdda18, .supply .vssa] := by decide

/-- R53, R600: right after reset every output ball whose level the state gives is at its level during reset. -/
theorem reset_levels :
    (allBalls.all fun b => match drivenLevel State.reset b with
      | some l => resetLevel b == some l
      | none => true) = true := by decide +kernel

/-- R25, R26, R457: the sums of the stages, in half nanoseconds. -/
theorem budget_totals :
    total gatewayStages = 2 * 1493 ∧ total hostStages = 1361 ∧ total loadStages ≤ 2 * 1170 ∧ total localStages = 2949 := by decide

/-- R547: the alignment budget over seven hops is 4 ns. -/
theorem alignment_total : total (alignmentPs 7) = 4000 := by decide

/-- R615: every least operating voltage lies above its supply's release threshold, and a supply in range never browns out. -/
theorem in_range_no_brown_out (r : Rail) (mv ns : Nat) (h : supplyInRange r mv = true) : brownsOut r mv ns = false := by
  cases r <;> simp_all [supplyInRange, brownsOut, railSpec] <;> omega

/-- R616, R617: the totals of the worked cases. -/
theorem power_totals : total (greatestPowerUw.map (·.2)) = 5781000 ∧ typicalPowerUw 2 64 300 300 false false = 4000000 := by decide

/-- R627, R636: the worked examples of a slow switch and of a heatsink. -/
theorem design_worked :
    [divFits 10 1 40, divFits 11 1 40, divFits 12 1 40] = [false, false, true] ∧ heatFits 115000 5800 150 5730 = true := by decide

end Sys2Proof.Machine
end

