-- ==== Sys2Proof/Laws/Keeps.lean ====
section
/-!
SUPPORT. What a state keeps of another (queue, straps, fault log), and how the ways of building a state keep it.
-/

namespace Sys2Proof.Machine

set_option linter.all false

/-! ### The relation -/

/-- `s` has the queue and the straps of `a`; its fault log is sound and its tables are canonical where those of `a` are. -/
structure Keeps (a s : State) : Prop where
  pending : s.pending = a.pending
  stackId : s.aon.stackId = a.aon.stackId
  log : LogSound a → LogSound s
  tables : TablesRising a → TablesRising s

theorem Keeps.refl (a : State) : Keeps a a := ⟨rfl, rfl, id, id⟩

theorem Keeps.trans {a b c : State} (h : Keeps a b) (k : Keeps b c) : Keeps a c :=
  ⟨k.pending.trans h.pending, k.stackId.trans h.stackId, k.log ∘ h.log, k.tables ∘ h.tables⟩

theorem Keeps.relog {a s t : State} (h : Keeps a s) (hp : t.pending = s.pending) (hs : t.aon.stackId = s.aon.stackId)
    (hl : LogSound s → LogSound t) (ht : TablesRising s → TablesRising t) : Keeps a t :=
  ⟨hp.trans h.pending, hs.trans h.stackId, hl ∘ h.log, ht ∘ h.tables⟩

theorem keeps_tab {a s : State} {p n l zmem zhost zsp zengine zctxs zcqs zfq ztime zschedules ztriggers zpulses zchans zfilm zmos zpool zfilters zrecords zroutes zmonitors zpdus zsigs zlanes zlocalIo zbundle zcvus zload zlinkA zlinkB zstack zcensus zupdate zbanks zfree zout} (h : Keeps a s) (hp : s.pending = p)
    (hs : s.aon.stackId = n.stackId) (hl : s.log = l)
    (mos : rising s.mos = true → rising zmos = true) (schedules : rising s.schedules = true → rising zschedules = true) (records : rising s.records = true → rising zrecords = true) (routes : rising s.routes = true → rising zroutes = true) (pdus : rising s.pdus = true → rising zpdus = true) (sigs : rising s.sigs = true → rising zsigs = true) :
    Keeps a ⟨p, n, l, zmem, zhost, zsp, zengine, zctxs, zcqs, zfq, ztime, zschedules, ztriggers, zpulses, zchans, zfilm, zmos, zpool, zfilters, zrecords, zroutes, zmonitors, zpdus, zsigs, zlanes, zlocalIo, zbundle, zcvus, zload, zlinkA, zlinkB, zstack, zcensus, zupdate, zbanks, zfree, zout⟩ :=
  ⟨hp.symm.trans h.pending, hs.symm.trans h.stackId, fun x => by unfold LogSound; rw [← hl]; exact h.log x,
    fun x => have t := h.tables x; ⟨mos t.mos, schedules t.schedules, records t.records, routes t.routes, pdus t.pdus, sigs t.sigs⟩⟩

theorem keeps_mk {a s : State} {p n l zmem zhost zsp zengine zctxs zcqs zfq ztime ztriggers zpulses zchans zfilm zpool zfilters zmonitors zlanes zlocalIo zbundle zcvus zload zlinkA zlinkB zstack zcensus zupdate zbanks zfree zout} (h : Keeps a s) (hp : s.pending = p)
    (hs : s.aon.stackId = n.stackId) (hl : s.log = l) :
    Keeps a ⟨p, n, l, zmem, zhost, zsp, zengine, zctxs, zcqs, zfq, ztime, s.schedules, ztriggers, zpulses, zchans, zfilm, s.mos, zpool, zfilters, s.records, s.routes, zmonitors, s.pdus, s.sigs, zlanes, zlocalIo, zbundle, zcvus, zload, zlinkA, zlinkB, zstack, zcensus, zupdate, zbanks, zfree, zout⟩ :=
  keeps_tab h hp hs hl id id id id id id

theorem cut2 {p q : Prop} (h : p) (k : p → q) : q := k h

theorem forEach_keeps {α : Type} {a : State} (l : List α) (f : α → State → State) {s : State}
    (hf : ∀ x s, Keeps a s → Keeps a (f x s)) (h : Keeps a s) : Keeps a (forEach l f s) := by
  unfold forEach
  induction l generalizing s with
  | nil => exact h
  | cons x l ih => exact ih (hf x s h)

theorem forRange_keeps {a : State} (n : Nat) (f : Nat → State → State) {s : State}
    (hf : ∀ x s, Keeps a s → Keeps a (f x s)) (h : Keeps a s) : Keeps a (forRange n f s) :=
  forEach_keeps (List.range n) f hf h

theorem foldl_keeps {α : Type} {a : State} (l : List α) (f : State → α → State) {s : State}
    (hf : ∀ s x, Keeps a s → Keeps a (f s x)) (h : Keeps a s) : Keeps a (l.foldl f s) := by
  induction l generalizing s with
  | nil => exact h
  | cons x l ih => exact ih (hf s x h)

theorem foldl_keeps_fst {α β : Type} {a : State} (l : List α) (f : State × β → α → State × β) {z : State × β}
    (hf : ∀ z x, Keeps a z.1 → Keeps a (f z x).1) (h : Keeps a z.1) : Keeps a (l.foldl f z).1 := by
  induction l generalizing z with
  | nil => exact h
  | cons x l ih => exact ih (hf z x h)

theorem foldl_keeps_snd {α β : Type} {a : State} (l : List α) (f : β × State → α → β × State) {z : β × State}
    (hf : ∀ z x, Keeps a z.2 → Keeps a (f z x).2) (h : Keeps a z.2) : Keeps a (l.foldl f z).2 := by
  induction l generalizing z with
  | nil => exact h
  | cons x l ih => exact ih (hf z x h)

/-- The state inside a verdict keeps of `a` what `Keeps` says. -/
def VKeeps (a : State) : Verdict → Prop
  | .refuse _ _ => True
  | .reply s _ _ _ => Keeps a s
  | .wait s => Keeps a s
  | .done s => Keeps a s

theorem refuse_keeps {a : State} (st d : Nat) : VKeeps a (.refuse st d) := trivial
theorem reply_keeps {a s : State} (st d : Nat) (b : List Byte) (h : Keeps a s) : VKeeps a (.reply s st d b) := h
theorem wait_keeps {a s : State} (h : Keeps a s) : VKeeps a (.wait s) := h
theorem done_keeps {a s : State} (h : Keeps a s) : VKeeps a (.done s) := h
theorem refuseIf_keeps {a : State} (b : Bool) (st d : Nat) {v : Verdict} (h : VKeeps a v) : VKeeps a (refuseIf b st d v) := by
  unfold refuseIf; split
  · trivial
  · exact h

theorem badParam_keeps {a : State} (b : Bool) (o : Nat) {v : Verdict} (h : VKeeps a v) : VKeeps a (badParam b o v) :=
  refuseIf_keeps b _ _ h

/-- An outcome is a next state, and it keeps of `a` what `Keeps` says. -/
def OKeeps (a : State) (o : Host.Outcome State Fault Refusal) : Prop := ∃ t, o = .next t ∧ Keeps a t

theorem ite_keeps {a x y : State} {c : Prop} [Decidable c] (h : Keeps a x) (k : Keeps a y) : Keeps a (if c then x else y) := by
  split
  · exact h
  · exact k
theorem ite_vkeeps {a : State} {x y : Verdict} {c : Prop} [Decidable c] (h : VKeeps a x) (k : VKeeps a y) : VKeeps a (if c then x else y) := by
  split
  · exact h
  · exact k
theorem ite_okeeps {a : State} {x y : Host.Outcome State Fault Refusal} {c : Prop} [Decidable c] (h : OKeeps a x) (k : OKeeps a y) : OKeeps a (if c then x else y) := by
  split
  · exact h
  · exact k

end Sys2Proof.Machine
end

