-- ==== Sys2Proof/Laws/KeepsOps.lean ====
section
/-!
SUPPORT. The shared operations keep the queue, the straps and the fault log sound.
-/

namespace Sys2Proof.Machine

set_option linter.all false

/-! ### Ops -/

theorem State_modMon_keeps {a : State} {s : State} (c : Nat) (f : Monitor → Monitor) (h : Keeps a s) : Keeps a (State.modMon s c f) := by
  unfold State.modMon
  with_reducible repeat' first
    | assumption | intro _ _ _ | intro _ _ | intro _
    | (extract_lets +onlyGivenNames x; first | refine cut2 (p := Keeps _ x) ?_ (fun _ => ?_) | clear x | skip)
    | split | refine keeps_mk ?_ rfl rfl rfl

theorem State_modChan_keeps {a : State} {s : State} (c : Nat) (f : Chan → Chan) (h : Keeps a s) : Keeps a (State.modChan s c f) := by
  unfold State.modChan
  with_reducible repeat' first
    | assumption | intro _ _ _ | intro _ _ | intro _
    | (extract_lets +onlyGivenNames x; first | refine cut2 (p := Keeps _ x) ?_ (fun _ => ?_) | clear x | skip)
    | split | refine keeps_mk ?_ rfl rfl rfl

theorem State_modMo_keeps {a : State} {s : State} (m : Nat) (f : Mo → Mo) (h : Keeps a s) : Keeps a (State.modMo s m f) := by
  unfold State.modMo
  with_reducible repeat' first
    | assumption | intro _ _ _ | intro _ _ | intro _
    | (extract_lets +onlyGivenNames x; first | refine cut2 (p := Keeps _ x) ?_ (fun _ => ?_) | clear x | skip)
    | split | refine keeps_mk ?_ rfl rfl rfl | refine keeps_tab ?_ rfl rfl rfl ?_ ?_ ?_ ?_ ?_ ?_ | apply rising_mset | apply rising_mdel | apply rising_mmod | refine rising_map (fun _ => ?_) ?_ | rfl

theorem State_modCq_keeps {a : State} {s : State} (c : Nat) (f : CtxQueues → CtxQueues) (h : Keeps a s) : Keeps a (State.modCq s c f) := by
  unfold State.modCq
  with_reducible repeat' first
    | assumption | intro _ _ _ | intro _ _ | intro _
    | (extract_lets +onlyGivenNames x; first | refine cut2 (p := Keeps _ x) ?_ (fun _ => ?_) | clear x | skip)
    | split | refine keeps_mk ?_ rfl rfl rfl

theorem State_modFn_keeps {a : State} {s : State} (c : Nat) (f : Fn → Fn) (h : Keeps a s) : Keeps a (State.modFn s c f) := by
  unfold State.modFn
  with_reducible repeat' first
    | assumption | intro _ _ _ | intro _ _ | intro _
    | (extract_lets +onlyGivenNames x; first | refine cut2 (p := Keeps _ x) ?_ (fun _ => ?_) | clear x | skip)
    | split | refine keeps_mk ?_ rfl rfl rfl

theorem State_modRing_keeps {a : State} {s : State} (c : Nat) (k : Nat) (f : Ring → Ring) (h : Keeps a s) : Keeps a (State.modRing s c k f) := by
  unfold State.modRing
  with_reducible repeat' first
    | assumption | intro _ _ _ | intro _ _ | intro _ | apply State_modFn_keeps
    | (extract_lets +onlyGivenNames x; first | refine cut2 (p := Keeps _ x) ?_ (fun _ => ?_) | clear x | skip)
    | split | refine keeps_mk ?_ rfl rfl rfl

theorem State_modTrigger_keeps {a : State} {s : State} (n : Nat) (f : Trigger → Trigger) (h : Keeps a s) : Keeps a (State.modTrigger s n f) := by
  unfold State.modTrigger
  with_reducible repeat' first
    | assumption | intro _ _ _ | intro _ _ | intro _
    | (extract_lets +onlyGivenNames x; first | refine cut2 (p := Keeps _ x) ?_ (fun _ => ?_) | clear x | skip)
    | split | refine keeps_mk ?_ rfl rfl rfl

theorem State_modCvu_keeps {a : State} {s : State} (n : Nat) (f : Cvu → Cvu) (h : Keeps a s) : Keeps a (State.modCvu s n f) := by
  unfold State.modCvu
  with_reducible repeat' first
    | assumption | intro _ _ _ | intro _ _ | intro _
    | (extract_lets +onlyGivenNames x; first | refine cut2 (p := Keeps _ x) ?_ (fun _ => ?_) | clear x | skip)
    | split | refine keeps_mk ?_ rfl rfl rfl

theorem State_modLd_keeps {a : State} {s : State} (n : Nat) (f : Load → Load) (h : Keeps a s) : Keeps a (State.modLd s n f) := by
  unfold State.modLd
  with_reducible repeat' first
    | assumption | intro _ _ _ | intro _ _ | intro _
    | (extract_lets +onlyGivenNames x; first | refine cut2 (p := Keeps _ x) ?_ (fun _ => ?_) | clear x | skip)
    | split | refine keeps_mk ?_ rfl rfl rfl

theorem State_modSwc_keeps {a : State} {s : State} (n : Nat) (f : SwChain → SwChain) (h : Keeps a s) : Keeps a (State.modSwc s n f) := by
  unfold State.modSwc
  with_reducible repeat' first
    | assumption | intro _ _ _ | intro _ _ | intro _
    | (extract_lets +onlyGivenNames x; first | refine cut2 (p := Keeps _ x) ?_ (fun _ => ?_) | clear x | skip)
    | split | refine keeps_mk ?_ rfl rfl rfl

theorem State_modLink_keeps {a : State} {s : State} (p : Port) (f : Link → Link) (h : Keeps a s) : Keeps a (State.modLink s p f) := by
  unfold State.modLink
  with_reducible repeat' first
    | assumption | intro _ _ _ | intro _ _ | intro _
    | (extract_lets +onlyGivenNames x; first | refine cut2 (p := Keeps _ x) ?_ (fun _ => ?_) | clear x | skip)
    | split | refine keeps_mk ?_ rfl rfl rfl

theorem State_modCtx_keeps {a : State} {s : State} (c : Nat) (f : Ctx → Ctx) (h : Keeps a s) : Keeps a (State.modCtx s c f) := by
  unfold State.modCtx
  with_reducible repeat' first
    | assumption | intro _ _ _ | intro _ _ | intro _
    | (extract_lets +onlyGivenNames x; first | refine cut2 (p := Keeps _ x) ?_ (fun _ => ?_) | clear x | skip)
    | split | refine keeps_mk ?_ rfl rfl rfl

theorem drawn_keeps {a : State} (n : Nat) {s : State} (h : Keeps a s) : Keeps a (drawn n s) := by
  unfold drawn
  with_reducible repeat' first
    | assumption | intro _ _ _ | intro _ _ | intro _
    | (extract_lets +onlyGivenNames x; first | refine cut2 (p := Keeps _ x) ?_ (fun _ => ?_) | clear x | skip)
    | split | refine keeps_mk ?_ rfl rfl rfl

theorem State_emit_keeps {a : State} {s : State} (o : Out) (h : Keeps a s) : Keeps a (State.emit s o) := by
  unfold State.emit
  with_reducible repeat' first
    | assumption | intro _ _ _ | intro _ _ | intro _
    | (extract_lets +onlyGivenNames x; first | refine cut2 (p := Keeps _ x) ?_ (fun _ => ?_) | clear x | skip)
    | split | refine keeps_mk ?_ rfl rfl rfl

theorem putFrame_keeps {a : State} (p : Port) (f : LinkFrame) {s : State} (h : Keeps a s) : Keeps a (putFrame p f s) := by
  unfold putFrame
  with_reducible repeat' first
    | assumption | intro _ _ _ | intro _ _ | intro _ | apply State_modLink_keeps | apply State_emit_keeps | apply ite_keeps
    | (extract_lets +onlyGivenNames x; first | refine cut2 (p := Keeps _ x) ?_ (fun _ => ?_) | clear x | skip)
    | split | refine keeps_mk ?_ rfl rfl rfl

theorem pumpLink_keeps {a : State} (p : Port) (n : Nat) {s : State} (h : Keeps a s) : Keeps a (pumpLink p n s) := by
  induction n generalizing s with
  | zero => exact h
  | succ n ih =>
    unfold pumpLink
    dsimp only
    split
    · exact h
    · split
      · exact h
      · split
        · exact ih (putFrame_keeps p _ h)
        · exact h

theorem sendFrame_keeps {a : State} (p : Port) (f : LinkFrame) {s : State} (h : Keeps a s) : Keeps a (sendFrame p f s) := by
  unfold sendFrame
  with_reducible repeat' first
    | assumption | intro _ _ _ | intro _ _ | intro _ | apply pumpLink_keeps | apply State_modLink_keeps | apply ite_keeps
    | (extract_lets +onlyGivenNames x; first | refine cut2 (p := Keeps _ x) ?_ (fun _ => ?_) | clear x | skip)
    | split | refine keeps_mk ?_ rfl rfl rfl

theorem sendMsix_keeps {a : State} (c : Nat) (v : Nat) {s : State} (h : Keeps a s) : Keeps a (sendMsix c v s) := by
  unfold sendMsix
  with_reducible repeat' first
    | assumption | intro _ _ _ | intro _ _ | intro _ | apply State_emit_keeps
    | (extract_lets +onlyGivenNames x; first | refine cut2 (p := Keeps _ x) ?_ (fun _ => ?_) | clear x | skip)
    | split | refine keeps_mk ?_ rfl rfl rfl

theorem settleIrq_keeps {a : State} (c : Nat) {s : State} (h : Keeps a s) : Keeps a (settleIrq c s) := by
  unfold settleIrq
  with_reducible repeat' first
    | assumption | intro _ _ _ | intro _ _ | intro _ | apply State_modFn_keeps | apply sendMsix_keeps | apply ite_keeps
    | (extract_lets +onlyGivenNames x; first | refine cut2 (p := Keeps _ x) ?_ (fun _ => ?_) | clear x | skip)
    | split | refine keeps_mk ?_ rfl rfl rfl

theorem raiseIrq_keeps {a : State} (c : Nat) (bit : Nat) {s : State} (h : Keeps a s) : Keeps a (raiseIrq c bit s) := by
  unfold raiseIrq
  with_reducible repeat' first
    | assumption | intro _ _ _ | intro _ _ | intro _ | apply settleIrq_keeps | apply State_modFn_keeps
    | (extract_lets +onlyGivenNames x; first | refine cut2 (p := Keeps _ x) ?_ (fun _ => ?_) | clear x | skip)
    | split | refine keeps_mk ?_ rfl rfl rfl

theorem pushEvent_keeps {a : State} (c : Nat) (e : Event) {s : State} (h : Keeps a s) : Keeps a (pushEvent c e s) := by
  unfold pushEvent
  with_reducible repeat' first
    | assumption | intro _ _ _ | intro _ _ | intro _ | apply State_modCq_keeps | apply State_modFn_keeps | apply raiseIrq_keeps |
      apply ite_keeps
    | (extract_lets +onlyGivenNames x; first | refine cut2 (p := Keeps _ x) ?_ (fun _ => ?_) | clear x | skip)
    | split | refine keeps_mk ?_ rfl rfl rfl

theorem raiseEvent_keeps {a : State} (c : Nat) (code : Nat) (data : List Byte) {s : State} (h : Keeps a s) : Keeps a (raiseEvent c code data s) := by
  unfold raiseEvent
  with_reducible repeat' first
    | assumption | intro _ _ _ | intro _ _ | intro _ | apply sendFrame_keeps | apply pushEvent_keeps | apply ite_keeps
    | (extract_lets +onlyGivenNames x; first | refine cut2 (p := Keeps _ x) ?_ (fun _ => ?_) | clear x | skip)
    | split | refine keeps_mk ?_ rfl rfl rfl

theorem State_modBank_keeps {a : State} {s : State} (n : Nat) (f : Bank → Bank) (h : Keeps a s) : Keeps a (State.modBank s n f) := by
  unfold State.modBank
  with_reducible repeat' first
    | assumption | intro _ _ _ | intro _ _ | intro _
    | (extract_lets +onlyGivenNames x; first | refine cut2 (p := Keeps _ x) ?_ (fun _ => ?_) | clear x | skip)
    | split | refine keeps_mk ?_ rfl rfl rfl

theorem raiseSafe_keeps {a : State} (bit : Nat) {s : State} (h : Keeps a s) : Keeps a (raiseSafe bit s) := by
  unfold raiseSafe
  with_reducible repeat' first
    | assumption | intro _ _ _ | intro _ _ | intro _
    | (extract_lets +onlyGivenNames x; first | refine cut2 (p := Keeps _ x) ?_ (fun _ => ?_) | clear x | skip)
    | split | refine keeps_mk ?_ rfl rfl rfl

theorem raiseEvents_keeps {a : State} (cs : List Nat) (code : Nat) (data : List Byte) {s : State} (h : Keeps a s) : Keeps a (raiseEvents cs code data s) := by
  unfold raiseEvents
  with_reducible repeat' first
    | assumption | intro _ _ _ | intro _ _ | intro _ | apply raiseEvent_keeps | apply forEach_keeps
    | (extract_lets +onlyGivenNames x; first | refine cut2 (p := Keeps _ x) ?_ (fun _ => ?_) | clear x | skip)
    | split | refine keeps_mk ?_ rfl rfl rfl

theorem parityDrop_keeps {a : State} (path : Nat) {s : State} (h : Keeps a s) : Keeps a (parityDrop path s) := by
  unfold parityDrop
  with_reducible repeat' first
    | assumption | intro _ _ _ | intro _ _ | intro _
    | (extract_lets +onlyGivenNames x; first | refine cut2 (p := Keeps _ x) ?_ (fun _ => ?_) | clear x | skip)
    | split | refine keeps_mk ?_ rfl rfl rfl

theorem State_modLane_keeps {a : State} {s : State} (n : Nat) (f : Lane → Lane) (h : Keeps a s) : Keeps a (State.modLane s n f) := by
  unfold State.modLane
  with_reducible repeat' first
    | assumption | intro _ _ _ | intro _ _ | intro _
    | (extract_lets +onlyGivenNames x; first | refine cut2 (p := Keeps _ x) ?_ (fun _ => ?_) | clear x | skip)
    | split | refine keeps_mk ?_ rfl rfl rfl

theorem ringMessage_keeps {a : State} (c : Nat) (k : Nat) {s : State} (h : Keeps a s) : Keeps a (ringMessage c k s) := by
  unfold ringMessage
  with_reducible repeat' first
    | assumption | intro _ _ _ | intro _ _ | intro _ | apply sendMsix_keeps | apply State_modRing_keeps | apply ite_keeps
    | (extract_lets +onlyGivenNames x; first | refine cut2 (p := Keeps _ x) ?_ (fun _ => ?_) | clear x | skip)
    | split | refine keeps_mk ?_ rfl rfl rfl

theorem writeBack_keeps {a : State} (c : Nat) (k : Nat) (v : BitVec 32) {s : State} (h : Keeps a s) : Keeps a (writeBack c k v s) := by
  unfold writeBack
  with_reducible repeat' first
    | assumption | intro _ _ _ | intro _ _ | intro _ | apply State_emit_keeps | apply ite_keeps
    | (extract_lets +onlyGivenNames x; first | refine cut2 (p := Keeps _ x) ?_ (fun _ => ?_) | clear x | skip)
    | split | refine keeps_mk ?_ rfl rfl rfl

theorem ringAdvance_keeps {a : State} (c : Nat) (k : Nat) (v : BitVec 32) {s : State} (h : Keeps a s) : Keeps a (ringAdvance c k v s) := by
  unfold ringAdvance
  with_reducible repeat' first
    | assumption | intro _ _ _ | intro _ _ | intro _ | apply ringMessage_keeps | apply writeBack_keeps
    | (extract_lets +onlyGivenNames x; first | refine cut2 (p := Keeps _ x) ?_ (fun _ => ?_) | clear x | skip)
    | split | refine keeps_mk ?_ rfl rfl rfl

theorem signalFault_keeps {a : State} {s : State} (h : Keeps a s) : Keeps a (signalFault s) := by
  unfold signalFault
  with_reducible repeat' first
    | assumption | intro _ _ _ | intro _ _ | intro _ | apply raiseSafe_keeps | apply raiseIrq_keeps
    | (extract_lets +onlyGivenNames x; first | refine cut2 (p := Keeps _ x) ?_ (fun _ => ?_) | clear x | skip)
    | split | refine keeps_mk ?_ rfl rfl rfl

theorem seqRuns_drop (k : Nat) {l : List Nat} (h : seqRuns l) : seqRuns (l.drop k) := by
  induction k generalizing l with
  | zero => exact h
  | succ k ih =>
    match l, h with
    | [], _ => trivial
    | [_], _ => simp [seqRuns]
    | _ :: _ :: _, h => exact ih h.2

theorem seqRuns_snoc {l : List Nat} {n : Nat} (h : seqRuns (l ++ [n])) : seqRuns (l ++ [n] ++ [nextSeqOf n]) := by
  induction l with
  | nil => exact ⟨rfl, trivial⟩
  | cons a l ih =>
    match l, h, ih with
    | [], h, ih => exact ⟨h.1, ih trivial⟩
    | _ :: _, h, ih => exact ⟨h.1, ih h.2⟩

theorem nextSeqOf_range (n : Nat) (h : 1 ≤ n) (k : n ≤ 0xFFFFFFFF) : 1 ≤ nextSeqOf n ∧ nextSeqOf n ≤ 0xFFFFFFFF := by
  unfold nextSeqOf
  split <;> omega

theorem Keeps.withLog {a s : State} (h : Keeps a s) (e : FaultEntry) (he : e.seq = s.log.nextSeq) :
    Keeps a { s with log := { entries := s.log.entries.drop (s.log.entries.length + 1 - faultLogSize) ++ [e], nextSeq := nextSeqOf s.log.nextSeq } } := by
  refine h.relog rfl rfl (fun x => ?_) (fun x => ⟨x.mos, x.schedules, x.records, x.routes, x.pdus, x.sigs⟩)
  obtain ⟨h1, h2, h3, h4⟩ := x
  refine ⟨?_, (nextSeqOf_range _ h2 h3).1, (nextSeqOf_range _ h2 h3).2, ?_⟩
  · have hN : 1 ≤ faultLogSize := by unfold faultLogSize; omega
    simp only [List.length_append, List.length_drop, List.length_singleton]; omega
  · have hN : 1 ≤ faultLogSize := by unfold faultLogSize; omega
    have hk : s.log.entries.length + 1 - faultLogSize ≤ s.log.entries.length := by omega
    generalize s.log.entries.length + 1 - faultLogSize = k at hk ⊢
    have hd := seqRuns_drop k h4
    rw [List.drop_append_of_le_length (by rw [List.length_map]; exact hk)] at hd
    have := seqRuns_snoc hd
    simpa [he, List.map_drop] using this

theorem logFault_keeps {a : State} (cls source info1 info2 : Nat) {s : State} (h : Keeps a s) :
    Keeps a (logFault cls source info1 info2 s) := by
  unfold logFault
  extract_lets e kept s'
  have hs : Keeps a s' := h.withLog e rfl
  exact ite_keeps (signalFault_keeps hs) hs

theorem Keeps.mapLog {a s : State} (h : Keeps a s) (f : FaultEntry → FaultEntry) (hf : ∀ e, (f e).seq = e.seq) :
    Keeps a { s with log := { s.log with entries := s.log.entries.map f } } := by
  refine h.relog rfl rfl (fun x => ?_) (fun x => ⟨x.mos, x.schedules, x.records, x.routes, x.pdus, x.sigs⟩)
  obtain ⟨h1, h2, h3, h4⟩ := x
  refine ⟨by simpa using h1, h2, h3, ?_⟩
  simpa [List.map_map, Function.comp_def, hf] using h4

theorem setReady_keeps {a : State} (v : BitVec 32) {s : State} (h : Keeps a s) : Keeps a (setReady v s) := by
  unfold setReady
  with_reducible repeat' first
    | assumption | intro _ _ _ | intro _ _ | intro _ | apply raiseEvent_keeps | apply raiseIrq_keeps | apply raiseSafe_keeps | apply
      forEach_keeps | apply ite_keeps
    | (extract_lets +onlyGivenNames x; first | refine cut2 (p := Keeps _ x) ?_ (fun _ => ?_) | clear x | skip)
    | split | refine keeps_mk ?_ rfl rfl rfl

theorem readyOff_keeps {a : State} (bits : BitVec 32) {s : State} (h : Keeps a s) : Keeps a (readyOff bits s) := by
  unfold readyOff
  with_reducible repeat' first
    | assumption | intro _ _ _ | intro _ _ | intro _ | apply setReady_keeps
    | (extract_lets +onlyGivenNames x; first | refine cut2 (p := Keeps _ x) ?_ (fun _ => ?_) | clear x | skip)
    | split | refine keeps_mk ?_ rfl rfl rfl

theorem readyOn_keeps {a : State} (bits : BitVec 32) {s : State} (h : Keeps a s) : Keeps a (readyOn bits s) := by
  unfold readyOn
  with_reducible repeat' first
    | assumption | intro _ _ _ | intro _ _ | intro _ | apply setReady_keeps
    | (extract_lets +onlyGivenNames x; first | refine cut2 (p := Keeps _ x) ?_ (fun _ => ?_) | clear x | skip)
    | split | refine keeps_mk ?_ rfl rfl rfl

theorem setLimit_keeps {a : State} (c : Nat) (k : Nat) (v : BitVec 32) {s : State} (h : Keeps a s) : Keeps a (setLimit c k v s) := by
  unfold setLimit
  with_reducible repeat' first
    | assumption | intro _ _ _ | intro _ _ | intro _ | apply ringAdvance_keeps | apply State_modRing_keeps | apply ite_keeps
    | (extract_lets +onlyGivenNames x; first | refine cut2 (p := Keeps _ x) ?_ (fun _ => ?_) | clear x | skip)
    | split | refine keeps_mk ?_ rfl rfl rfl

/-! ### QueueOps -/

theorem fcEvent_keeps {a : State} (pin : Nat) (up : Bool) (fill : Nat) {s : State} (h : Keeps a s) : Keeps a (fcEvent pin up fill s) := by
  unfold fcEvent
  with_reducible repeat' first
    | assumption | intro _ _ _ | intro _ _ | intro _ | apply raiseEvent_keeps
    | (extract_lets +onlyGivenNames x; first | refine cut2 (p := Keeps _ x) ?_ (fun _ => ?_) | clear x | skip)
    | split | refine keeps_mk ?_ rfl rfl rfl

theorem modStat_keeps {a : State} (q : QKind × Nat) (f : QStat → QStat) {s : State} (h : Keeps a s) : Keeps a (modStat q f s) := by
  unfold modStat
  with_reducible repeat' first
    | assumption | intro _ _ _ | intro _ _ | intro _ | apply State_modChan_keeps | apply State_modCq_keeps
    | (extract_lets +onlyGivenNames x; first | refine cut2 (p := Keeps _ x) ?_ (fun _ => ?_) | clear x | skip)
    | split | refine keeps_mk ?_ rfl rfl rfl

theorem fcMeet_keeps {a : State} (q : QKind × Nat) (f : Nat) (atOnce : Bool) (pin : Nat) {s : State} (h : Keeps a s) : Keeps a (fcMeet q f atOnce pin s) := by
  unfold fcMeet
  with_reducible repeat' first
    | assumption | intro _ _ _ | intro _ _ | intro _ | apply fcEvent_keeps | apply modStat_keeps | apply ite_keeps
    | (extract_lets +onlyGivenNames x; first | refine cut2 (p := Keeps _ x) ?_ (fun _ => ?_) | clear x | skip)
    | split | refine keeps_mk ?_ rfl rfl rfl

theorem fcPin_keeps {a : State} (pin : Nat) {s : State} (h : Keeps a s) : Keeps a (fcPin pin s) := by
  unfold fcPin
  with_reducible repeat' first
    | assumption | intro _ _ _ | intro _ _ | intro _ | apply fcMeet_keeps
    | (extract_lets +onlyGivenNames x; first | refine cut2 (p := Keeps _ x) ?_ (fun _ => ?_) | clear x | skip)
    | split | refine keeps_mk ?_ rfl rfl rfl

theorem fcSettle_keeps {a : State} {s : State} (h : Keeps a s) : Keeps a (fcSettle s) := by
  unfold fcSettle
  with_reducible repeat' first
    | assumption | intro _ _ _ | intro _ _ | intro _ | apply fcPin_keeps | apply forRange_keeps | apply ite_keeps
    | (extract_lets +onlyGivenNames x; first | refine cut2 (p := Keeps _ x) ?_ (fun _ => ?_) | clear x | skip)
    | split | refine keeps_mk ?_ rfl rfl rfl

theorem next_keeps {a s : State} (h : Keeps a s) : OKeeps a (Sys2Proof.Machine.next s) := ⟨_, rfl, fcSettle_keeps h⟩

theorem fcAt_keeps {a : State} (q : QKind × Nat) (f : Nat) (atOnce : Bool) {s : State} (h : Keeps a s) : Keeps a (fcAt q f atOnce s) := by
  unfold fcAt
  with_reducible repeat' first
    | assumption | intro _ _ _ | intro _ _ | intro _ | apply fcMeet_keeps | apply forRange_keeps | apply ite_keeps
    | (extract_lets +onlyGivenNames x; first | refine cut2 (p := Keeps _ x) ?_ (fun _ => ?_) | clear x | skip)
    | split | refine keeps_mk ?_ rfl rfl rfl

theorem countPacket_keeps {a : State} (q : QKind × Nat) {s : State} (h : Keeps a s) : Keeps a (countPacket q s) := by
  unfold countPacket
  with_reducible repeat' first
    | assumption | intro _ _ _ | intro _ _ | intro _ | apply fcAt_keeps | apply modStat_keeps
    | (extract_lets +onlyGivenNames x; first | refine cut2 (p := Keeps _ x) ?_ (fun _ => ?_) | clear x | skip)
    | split | refine keeps_mk ?_ rfl rfl rfl

theorem ringLost_keeps {a : State} (c : Nat) (k : Nat) {s : State} (h : Keeps a s) : Keeps a (ringLost c k s) := by
  unfold ringLost
  with_reducible repeat' first
    | assumption | intro _ _ _ | intro _ _ | intro _ | apply State_modRing_keeps
    | (extract_lets +onlyGivenNames x; first | refine cut2 (p := Keeps _ x) ?_ (fun _ => ?_) | clear x | skip)
    | split | refine keeps_mk ?_ rfl rfl rfl

theorem metFull_keeps {a : State} (q : QKind × Nat) {s : State} (h : Keeps a s) : Keeps a (metFull q s) := by
  unfold metFull
  with_reducible repeat' first
    | assumption | intro _ _ _ | intro _ _ | intro _ | apply modStat_keeps | apply fcAt_keeps
    | (extract_lets +onlyGivenNames x; first | refine cut2 (p := Keeps _ x) ?_ (fun _ => ?_) | clear x | skip)
    | split | refine keeps_mk ?_ rfl rfl rfl

theorem oversizeEvent_keeps {a : State} (qid : Nat) (producer : Nat) (number : Nat) (claimed : Nat) (first : Nat) {s : State} (h : Keeps a s) : Keeps a (oversizeEvent qid producer number claimed first s) := by
  unfold oversizeEvent
  with_reducible repeat' first
    | assumption | intro _ _ _ | intro _ _ | intro _ | apply raiseEvent_keeps
    | (extract_lets +onlyGivenNames x; first | refine cut2 (p := Keeps _ x) ?_ (fun _ => ?_) | clear x | skip)
    | split | refine keeps_mk ?_ rfl rfl rfl

theorem dropPacket_keeps {a : State} (q : QKind × Nat) (qid : Nat) (producer : Nat) (number : Nat) (first : Nat) {s : State} (h : Keeps a s) : Keeps a (dropPacket q qid producer number first s) := by
  unfold dropPacket
  with_reducible repeat' first
    | assumption | intro _ _ _ | intro _ _ | intro _ | apply metFull_keeps | apply modStat_keeps | apply oversizeEvent_keeps | apply
      ite_keeps
    | (extract_lets +onlyGivenNames x; first | refine cut2 (p := Keeps _ x) ?_ (fun _ => ?_) | clear x | skip)
    | split | refine keeps_mk ?_ rfl rfl rfl

theorem pushRx_keeps {a : State} (c : Nat) (i : RxItem) {s : State} (h : Keeps a s) : Keeps a (pushRx c i s) := by
  unfold pushRx
  with_reducible repeat' first
    | assumption | intro _ _ _ | intro _ _ | intro _ | apply ringLost_keeps | apply modStat_keeps | apply countPacket_keeps | apply
      State_modCq_keeps | apply dropPacket_keeps | apply ite_keeps
    | (extract_lets +onlyGivenNames x; first | refine cut2 (p := Keeps _ x) ?_ (fun _ => ?_) | clear x | skip)
    | split | refine keeps_mk ?_ rfl rfl rfl

theorem countHwm_keeps {a : State} (q : QKind × Nat) {s : State} (h : Keeps a s) : Keeps a (countHwm q s) := by
  unfold countHwm
  with_reducible repeat' first
    | assumption | intro _ _ _ | intro _ _ | intro _ | apply fcAt_keeps | apply modStat_keeps
    | (extract_lets +onlyGivenNames x; first | refine cut2 (p := Keeps _ x) ?_ (fun _ => ?_) | clear x | skip)
    | split | refine keeps_mk ?_ rfl rfl rfl

theorem fcRelease_keeps {a : State} {s : State} (h : Keeps a s) : Keeps a (fcRelease s) := by
  unfold fcRelease
  with_reducible repeat' first
    | assumption | intro _ _ _ | intro _ _ | intro _
    | (extract_lets +onlyGivenNames x; first | refine cut2 (p := Keeps _ x) ?_ (fun _ => ?_) | clear x | skip)
    | split | refine keeps_mk ?_ rfl rfl rfl

/-! ### CmdCore -/

theorem touchSession_keeps {a : State} (src : Source) {s : State} (h : Keeps a s) : Keeps a (touchSession src s) := by
  unfold touchSession
  with_reducible repeat' first
    | assumption | intro _ _ _ | intro _ _ | intro _ | apply ite_keeps
    | (extract_lets +onlyGivenNames x; first | refine cut2 (p := Keeps _ x) ?_ (fun _ => ?_) | clear x | skip)
    | split | refine keeps_mk ?_ rfl rfl rfl

theorem noteTaken_keeps {a : State} (src : Source) {s : State} (h : Keeps a s) : Keeps a (noteTaken src s) := by
  unfold noteTaken
  with_reducible repeat' first
    | assumption | intro _ _ _ | intro _ _ | intro _ | apply forRange_keeps | apply ite_keeps
    | (extract_lets +onlyGivenNames x; first | refine cut2 (p := Keeps _ x) ?_ (fun _ => ?_) | clear x | skip)
    | split | refine keeps_mk ?_ rfl rfl rfl

theorem takeFrom_keeps {a : State} (src : Source) {s : State} (h : Keeps a s) : Keeps a (takeFrom src s) := by
  unfold takeFrom
  with_reducible repeat' first
    | assumption | intro _ _ _ | intro _ _ | intro _ | apply touchSession_keeps | apply noteTaken_keeps
    | (extract_lets +onlyGivenNames x; first | refine cut2 (p := Keeps _ x) ?_ (fun _ => ?_) | clear x | skip)
    | split | refine keeps_mk ?_ rfl rfl rfl

theorem popSource_keeps {a : State} (src : Source) {s : State} (h : Keeps a s) : Keeps a (popSource src s) := by
  unfold popSource
  with_reducible repeat' first
    | assumption | intro _ _ _ | intro _ _ | intro _ | apply State_modCq_keeps
    | (extract_lets +onlyGivenNames x; first | refine cut2 (p := Keeps _ x) ?_ (fun _ => ?_) | clear x | skip)
    | split | refine keeps_mk ?_ rfl rfl rfl

theorem noteRefusal_keeps {a : State} (p : Packet) {s : State} (h : Keeps a s) : Keeps a (noteRefusal p s) := by
  unfold noteRefusal
  with_reducible repeat' first
    | assumption | intro _ _ _ | intro _ _ | intro _ | apply ite_keeps
    | (extract_lets +onlyGivenNames x; first | refine cut2 (p := Keeps _ x) ?_ (fun _ => ?_) | clear x | skip)
    | split | refine keeps_mk ?_ rfl rfl rfl

theorem noteSheetReply_keeps {a : State} (r : Reply) {s : State} (h : Keeps a s) : Keeps a (noteSheetReply r s) := by
  unfold noteSheetReply
  with_reducible repeat' first
    | assumption | intro _ _ _ | intro _ _ | intro _ | apply State_modBank_keeps | apply ite_keeps
    | (extract_lets +onlyGivenNames x; first | refine cut2 (p := Keeps _ x) ?_ (fun _ => ?_) | clear x | skip)
    | split | refine keeps_mk ?_ rfl rfl rfl

theorem deliverReply_keeps {a : State} (r : Reply) {s : State} (h : Keeps a s) : Keeps a (deliverReply r s) := by
  unfold deliverReply
  with_reducible repeat' first
    | assumption | intro _ _ _ | intro _ _ | intro _ | apply noteSheetReply_keeps | apply State_modCq_keeps | apply countPacket_keeps
      | apply raiseSafe_keeps | apply modStat_keeps | apply fcAt_keeps | apply sendFrame_keeps | apply forEach_keeps
    | (extract_lets +onlyGivenNames x; first | refine cut2 (p := Keeps _ x) ?_ (fun _ => ?_) | clear x | skip)
    | split | refine keeps_mk ?_ rfl rfl rfl

theorem sendReplyFrom_keeps {a : State} (pos : Nat) (p : Packet) (status : Nat) (detail : Nat) (body : List Byte) {s : State} (h : Keeps a s) : Keeps a (sendReplyFrom pos p status detail body s) := by
  unfold sendReplyFrom
  with_reducible repeat' first
    | assumption | intro _ _ _ | intro _ _ | intro _ | apply deliverReply_keeps | apply ite_keeps
    | (extract_lets +onlyGivenNames x; first | refine cut2 (p := Keeps _ x) ?_ (fun _ => ?_) | clear x | skip)
    | split | refine keeps_mk ?_ rfl rfl rfl

theorem sendReply_keeps {a : State} (p : Packet) (status : Nat) (detail : Nat) (body : List Byte) {s : State} (h : Keeps a s) : Keeps a (sendReply p status detail body s) := by
  unfold sendReply
  with_reducible repeat' first
    | assumption | intro _ _ _ | intro _ _ | intro _ | apply sendReplyFrom_keeps
    | (extract_lets +onlyGivenNames x; first | refine cut2 (p := Keeps _ x) ?_ (fun _ => ?_) | clear x | skip)
    | split | refine keeps_mk ?_ rfl rfl rfl

theorem settleActivate_keeps {a : State} {s : State} (h : Keeps a s) : Keeps a (settleActivate s) := by
  unfold settleActivate
  with_reducible repeat' first
    | assumption | intro _ _ _ | intro _ _ | intro _ | apply sendReply_keeps | apply ite_keeps
    | (extract_lets +onlyGivenNames x; first | refine cut2 (p := Keeps _ x) ?_ (fun _ => ?_) | clear x | skip)
    | split | refine keeps_mk ?_ rfl rfl rfl

theorem conclude_keeps {a : State} (p : Packet) (s : State) (v : Verdict) (hv : VKeeps a v) (h : Keeps a s) :
    Keeps a (conclude p s v) := by
  match v, hv with
  | .refuse st d, _ => exact noteRefusal_keeps p (sendReply_keeps p st d _ h)
  | .reply s' st d b, hv => exact sendReply_keeps p st d b hv
  | .wait s', hv => exact settleActivate_keeps (ite_keeps hv (keeps_mk hv rfl rfl rfl))
  | .done s', hv => exact hv

theorem forward_keeps {a : State} (p : Packet) {s : State} (h : Keeps a s) : Keeps a (forward p s) := by
  unfold forward
  with_reducible repeat' first
    | assumption | intro _ _ _ | intro _ _ | intro _ | apply sendFrame_keeps | apply forEach_keeps
    | (extract_lets +onlyGivenNames x; first | refine cut2 (p := Keeps _ x) ?_ (fun _ => ?_) | clear x | skip)
    | split | refine keeps_mk ?_ rfl rfl rfl

theorem judge_keeps {a : State} (c : CmdSpec) (h0 : Packet → State → Verdict) (p : Packet) {s : State} (hk : ∀ y0 y1, Keeps a y1 → VKeeps a (h0 y0 y1)) (h : Keeps a s) : VKeeps a (judge c h0 p s) := by
  unfold judge
  with_reducible repeat' first
    | assumption | intro _ _ _ | intro _ _ | intro _ | apply hk | apply forward_keeps | apply refuse_keeps | apply wait_keeps | apply
      ite_vkeeps | apply ite_keeps
    | (extract_lets +onlyGivenNames x; first | refine cut2 (p := Keeps _ x) ?_ (fun _ => ?_) | clear x | skip)
    | split | refine keeps_mk ?_ rfl rfl rfl

theorem enqueue_keeps {a : State} (p : Packet) {s : State} (h : Keeps a s) : Keeps a (enqueue p s) := by
  unfold enqueue
  with_reducible repeat' first
    | assumption | intro _ _ _ | intro _ _ | intro _ | apply countPacket_keeps | apply State_modCq_keeps
    | (extract_lets +onlyGivenNames x; first | refine cut2 (p := Keeps _ x) ?_ (fun _ => ?_) | clear x | skip)
    | split | refine keeps_mk ?_ rfl rfl rfl

theorem passQueue_keeps {a : State} (src : Source) {s : State} (h : Keeps a s) : Keeps a (passQueue src s) := by
  unfold passQueue
  with_reducible repeat' first
    | assumption | intro _ _ _ | intro _ _ | intro _ | apply fcAt_keeps | apply modStat_keeps
    | (extract_lets +onlyGivenNames x; first | refine cut2 (p := Keeps _ x) ?_ (fun _ => ?_) | clear x | skip)
    | split | refine keeps_mk ?_ rfl rfl rfl

theorem runCommand_keeps {a : State} (c : CmdSpec) (f : Packet → State → Verdict) (q : Packet) {s : State}
    (hk : ∀ p s, Keeps a s → VKeeps a (f p s)) (h : Keeps a s) : Keeps a (runCommand c f q s) := by
  unfold runCommand
  dsimp only
  have k : ∀ {t}, Keeps a t → Keeps a (conclude { q with opcode := c.opcode } t
      (judge c f { q with opcode := c.opcode } t)) := fun ht => conclude_keeps _ _ _ (judge_keeps c f _ hk ht) ht
  exact ite_keeps h (ite_keeps (ite_keeps h (k (takeFrom_keeps _ (popSource_keeps _ h))))
    (ite_keeps (enqueue_keeps _ h) (k (takeFrom_keeps _ (passQueue_keeps _ h)))))

theorem okDone_keeps {a : State} {s : State} (h : Keeps a s) : VKeeps a (okDone s) := by
  unfold okDone
  with_reducible repeat' first
    | assumption | intro _ _ _ | intro _ _ | intro _ | apply reply_keeps
    | (extract_lets +onlyGivenNames x; first | refine cut2 (p := Keeps _ x) ?_ (fun _ => ?_) | clear x | skip)
    | split | refine keeps_mk ?_ rfl rfl rfl

theorem okBody_keeps {a : State} {s : State} (body : List Byte) (h : Keeps a s) : VKeeps a (okBody s body) := by
  unfold okBody
  with_reducible repeat' first
    | assumption | intro _ _ _ | intro _ _ | intro _ | apply reply_keeps
    | (extract_lets +onlyGivenNames x; first | refine cut2 (p := Keeps _ x) ?_ (fun _ => ?_) | clear x | skip)
    | split | refine keeps_mk ?_ rfl rfl rfl

theorem replyTakenFrom_keeps {a : State} (pos : Nat) (p : Packet) (status : Nat) (detail : Nat) (body : List Byte) {s : State} (h : Keeps a s) : Keeps a (replyTakenFrom pos p status detail body s) := by
  unfold replyTakenFrom
  with_reducible repeat' first
    | assumption | intro _ _ _ | intro _ _ | intro _ | apply settleActivate_keeps | apply sendReplyFrom_keeps | apply ite_keeps
    | (extract_lets +onlyGivenNames x; first | refine cut2 (p := Keeps _ x) ?_ (fun _ => ?_) | clear x | skip)
    | split | refine keeps_mk ?_ rfl rfl rfl

theorem replyTaken_keeps {a : State} (p : Packet) (status : Nat) (detail : Nat) (body : List Byte) {s : State} (h : Keeps a s) : Keeps a (replyTaken p status detail body s) := by
  unfold replyTaken
  with_reducible repeat' first
    | assumption | intro _ _ _ | intro _ _ | intro _ | apply replyTakenFrom_keeps
    | (extract_lets +onlyGivenNames x; first | refine cut2 (p := Keeps _ x) ?_ (fun _ => ?_) | clear x | skip)
    | split | refine keeps_mk ?_ rfl rfl rfl

/-! ### TimeOps -/

theorem passCycles_keeps {a : State} (n : Nat) {s : State} (h : Keeps a s) : Keeps a (passCycles n s) := by
  unfold passCycles
  with_reducible repeat' first
    | assumption | intro _ _ _ | intro _ _ | intro _ | apply ite_keeps
    | (extract_lets +onlyGivenNames x; first | refine cut2 (p := Keeps _ x) ?_ (fun _ => ?_) | clear x | skip)
    | split | refine keeps_mk ?_ rfl rfl rfl

theorem reachClk_keeps {a : State} (c : Nat) {s : State} (h : Keeps a s) : Keeps a (reachClk c s) := by
  unfold reachClk
  with_reducible repeat' first
    | assumption | intro _ _ _ | intro _ _ | intro _ | apply passCycles_keeps | apply ite_keeps
    | (extract_lets +onlyGivenNames x; first | refine cut2 (p := Keeps _ x) ?_ (fun _ => ?_) | clear x | skip)
    | split | refine keeps_mk ?_ rfl rfl rfl

theorem reachTime_keeps {a : State} (v : Nat) {s : State} (h : Keeps a s) : Keeps a (reachTime v s) := by
  unfold reachTime
  with_reducible repeat' first
    | assumption | intro _ _ _ | intro _ _ | intro _ | apply passCycles_keeps | apply ite_keeps
    | (extract_lets +onlyGivenNames x; first | refine cut2 (p := Keeps _ x) ?_ (fun _ => ?_) | clear x | skip)
    | split | refine keeps_mk ?_ rfl rfl rfl

/-! ### Monitors -/

theorem modRec_keeps {a : State} (n : Nat) (f : StreamRec → StreamRec) {s : State} (h : Keeps a s) : Keeps a (modRec n f s) := by
  unfold modRec
  with_reducible repeat' first
    | assumption | intro _ _ _ | intro _ _ | intro _
    | (extract_lets +onlyGivenNames x; first | refine cut2 (p := Keeps _ x) ?_ (fun _ => ?_) | clear x | skip)
    | split | refine keeps_mk ?_ rfl rfl rfl | refine keeps_tab ?_ rfl rfl rfl ?_ ?_ ?_ ?_ ?_ ?_ | apply rising_mset | apply rising_mdel | apply rising_mmod | refine rising_map (fun _ => ?_) ?_ | rfl

theorem latchCause_keeps {a : State} (ch : Nat) (bit : Nat) (record : Nat) (stamp : Nat) {s : State} (h : Keeps a s) : Keeps a (latchCause ch bit record stamp s) := by
  unfold latchCause
  with_reducible repeat' first
    | assumption | intro _ _ _ | intro _ _ | intro _ | apply State_modMon_keeps | apply raiseEvent_keeps | apply forEach_keeps | apply
      ite_keeps
    | (extract_lets +onlyGivenNames x; first | refine cut2 (p := Keeps _ x) ?_ (fun _ => ?_) | clear x | skip)
    | split | refine keeps_mk ?_ rfl rfl rfl | refine keeps_tab ?_ rfl rfl rfl ?_ ?_ ?_ ?_ ?_ ?_ | apply rising_mset | apply rising_mdel | apply rising_mmod | refine rising_map (fun _ => ?_) ?_ | rfl

theorem judgeMode_keeps {a : State} (ch : Nat) {s : State} (h : Keeps a s) : Keeps a (judgeMode ch s) := by
  unfold judgeMode
  with_reducible repeat' first
    | assumption | intro _ _ _ | intro _ _ | intro _ | apply latchCause_keeps | apply ite_keeps
    | (extract_lets +onlyGivenNames x; first | refine cut2 (p := Keeps _ x) ?_ (fun _ => ?_) | clear x | skip)
    | split | refine keeps_mk ?_ rfl rfl rfl

theorem promoteRelease_keeps {a : State} (mo : Nat) {s : State} (h : Keeps a s) : Keeps a (promoteRelease mo s) := by
  unfold promoteRelease
  with_reducible repeat' first
    | assumption | intro _ _ _ | intro _ _ | intro _ | apply modRec_keeps
    | (extract_lets +onlyGivenNames x; first | refine cut2 (p := Keeps _ x) ?_ (fun _ => ?_) | clear x | skip)
    | split | refine keeps_mk ?_ rfl rfl rfl

theorem bathMod_keeps {a : State} (mo : Nat) (f : StreamRec → StreamRec) {s : State} (h : Keeps a s) : Keeps a (bathMod mo f s) := by
  unfold bathMod
  with_reducible repeat' first
    | assumption | intro _ _ _ | intro _ _ | intro _ | apply ite_keeps
    | (extract_lets +onlyGivenNames x; first | refine cut2 (p := Keeps _ x) ?_ (fun _ => ?_) | clear x | skip)
    | split | refine keeps_mk ?_ rfl rfl rfl | refine keeps_tab ?_ rfl rfl rfl ?_ ?_ ?_ ?_ ?_ ?_ | apply rising_mset | apply rising_mdel | apply rising_mmod | refine rising_map (fun _ => ?_) ?_ | rfl

theorem dropLive_keeps {a : State} (mo : Nat) {s : State} (h : Keeps a s) : Keeps a (dropLive mo s) := by
  unfold dropLive
  with_reducible repeat' first
    | assumption | intro _ _ _ | intro _ _ | intro _ | apply modRec_keeps
    | (extract_lets +onlyGivenNames x; first | refine cut2 (p := Keeps _ x) ?_ (fun _ => ?_) | clear x | skip)
    | split | refine keeps_mk ?_ rfl rfl rfl

theorem failRelease_keeps {a : State} (mo : Nat) {s : State} (h : Keeps a s) : Keeps a (failRelease mo s) := by
  unfold failRelease
  with_reducible repeat' first
    | assumption | intro _ _ _ | intro _ _ | intro _ | apply modRec_keeps
    | (extract_lets +onlyGivenNames x; first | refine cut2 (p := Keeps _ x) ?_ (fun _ => ?_) | clear x | skip)
    | split | refine keeps_mk ?_ rfl rfl rfl

theorem succeedOwn_keeps {a : State} (mo : Nat) {s : State} (h : Keeps a s) : Keeps a (succeedOwn mo s) := by
  unfold succeedOwn
  with_reducible repeat' first
    | assumption | intro _ _ _ | intro _ _ | intro _ | apply modRec_keeps | apply raiseEvent_keeps | apply forEach_keeps | apply
      ite_keeps
    | (extract_lets +onlyGivenNames x; first | refine cut2 (p := Keeps _ x) ?_ (fun _ => ?_) | clear x | skip)
    | split | refine keeps_mk ?_ rfl rfl rfl

theorem restartPeriods_keeps {a : State} (ch : Nat) {s : State} (h : Keeps a s) : Keeps a (restartPeriods ch s) := by
  unfold restartPeriods
  with_reducible repeat' first
    | assumption | intro _ _ _ | intro _ _ | intro _ | apply ite_keeps
    | (extract_lets +onlyGivenNames x; first | refine cut2 (p := Keeps _ x) ?_ (fun _ => ?_) | clear x | skip)
    | split | refine keeps_mk ?_ rfl rfl rfl | refine keeps_tab ?_ rfl rfl rfl ?_ ?_ ?_ ?_ ?_ ?_ | apply rising_mset | apply rising_mdel | apply rising_mmod | refine rising_map (fun _ => ?_) ?_ | rfl

theorem failStaged_keeps {a : State} (mo : Nat) {s : State} (h : Keeps a s) : Keeps a (failStaged mo s) := by
  unfold failStaged
  with_reducible repeat' first
    | assumption | intro _ _ _ | intro _ _ | intro _ | apply modRec_keeps
    | (extract_lets +onlyGivenNames x; first | refine cut2 (p := Keeps _ x) ?_ (fun _ => ?_) | clear x | skip)
    | split | refine keeps_mk ?_ rfl rfl rfl

theorem dropStaged_keeps {a : State} (mo : Nat) {s : State} (h : Keeps a s) : Keeps a (dropStaged mo s) := by
  unfold dropStaged
  with_reducible repeat' first
    | assumption | intro _ _ _ | intro _ _ | intro _ | apply modRec_keeps
    | (extract_lets +onlyGivenNames x; first | refine cut2 (p := Keeps _ x) ?_ (fun _ => ?_) | clear x | skip)
    | split | refine keeps_mk ?_ rfl rfl rfl

theorem judgeForeign_keeps {a : State} (ch : Nat) (h0 : Hdr) (len : Nat) (stamp : Nat) {s : State} (h : Keeps a s) : Keeps a (judgeForeign ch h0 len stamp s) := by
  unfold judgeForeign
  with_reducible repeat' first
    | assumption | intro _ _ _ | intro _ _ | intro _ | apply modRec_keeps | apply State_modMon_keeps | apply latchCause_keeps | apply
      ite_keeps
    | (extract_lets +onlyGivenNames x; first | refine cut2 (p := Keeps _ x) ?_ (fun _ => ?_) | clear x | skip)
    | split | refine keeps_mk ?_ rfl rfl rfl

theorem judgeUndeclaredOwn_keeps {a : State} (ch : Nat) (mo : Nat) (stamp : Nat) {s : State} (h : Keeps a s) : Keeps a (judgeUndeclaredOwn ch mo stamp s) := by
  unfold judgeUndeclaredOwn
  with_reducible repeat' first
    | assumption | intro _ _ _ | intro _ _ | intro _ | apply latchCause_keeps | apply State_modMon_keeps | apply ite_keeps
    | (extract_lets +onlyGivenNames x; first | refine cut2 (p := Keeps _ x) ?_ (fun _ => ?_) | clear x | skip)
    | split | refine keeps_mk ?_ rfl rfl rfl

theorem budgetEvent_keeps {a : State} (ch : Nat) {s : State} (h : Keeps a s) : Keeps a (budgetEvent ch s) := by
  unfold budgetEvent
  with_reducible repeat' first
    | assumption | intro _ _ _ | intro _ _ | intro _ | apply State_modMon_keeps | apply latchCause_keeps | apply ite_keeps
    | (extract_lets +onlyGivenNames x; first | refine cut2 (p := Keeps _ x) ?_ (fun _ => ?_) | clear x | skip)
    | split | refine keeps_mk ?_ rfl rfl rfl

theorem releaseOwn_keeps {a : State} (mo : Nat) (at_ : Nat) (staged : Bool) {s : State} (h : Keeps a s) : Keeps a (releaseOwn mo at_ staged s) := by
  unfold releaseOwn
  with_reducible repeat' first
    | assumption | intro _ _ _ | intro _ _ | intro _ | apply modRec_keeps | apply State_modMon_keeps | apply latchCause_keeps | apply
      ite_keeps
    | (extract_lets +onlyGivenNames x; first | refine cut2 (p := Keeps _ x) ?_ (fun _ => ?_) | clear x | skip)
    | split | refine keeps_mk ?_ rfl rfl rfl

theorem deadlineMiss_keeps {a : State} (n : Nat) {s : State} (h : Keeps a s) : Keeps a (deadlineMiss n s) := by
  unfold deadlineMiss
  with_reducible repeat' first
    | assumption | intro _ _ _ | intro _ _ | intro _ | apply reachTime_keeps | apply modRec_keeps | apply State_modMon_keeps | apply
      raiseEvent_keeps | apply forEach_keeps | apply ite_keeps
    | (extract_lets +onlyGivenNames x; first | refine cut2 (p := Keeps _ x) ?_ (fun _ => ?_) | clear x | skip)
    | split | refine keeps_mk ?_ rfl rfl rfl

theorem execDeadlineTimerExpiry_keeps {a : State} (record : Fin 32768) {s : State} (h : Keeps a s) : OKeeps a (execDeadlineTimerExpiry record s) := by
  unfold execDeadlineTimerExpiry
  with_reducible repeat' first
    | assumption | intro _ _ _ | intro _ _ | intro _ | apply next_keeps | apply deadlineMiss_keeps
    | (extract_lets +onlyGivenNames x; first | refine cut2 (p := Keeps _ x) ?_ (fun _ => ?_) | clear x | skip)
    | split | refine keeps_mk ?_ rfl rfl rfl

/-! ### ErrorConf -/

theorem filmPut_keeps {a : State} (r : FilmRecord) {s : State} (h : Keeps a s) : Keeps a (filmPut r s) := by
  unfold filmPut
  with_reducible repeat' first
    | assumption | intro _ _ _ | intro _ _ | intro _ | apply ite_keeps
    | (extract_lets +onlyGivenNames x; first | refine cut2 (p := Keeps _ x) ?_ (fun _ => ?_) | clear x | skip)
    | split | refine keeps_mk ?_ rfl rfl rfl

theorem filmRecord_keeps {a : State} (ch : Nat) (kind : Nat) (info : Nat) (data : Nat) (stamp : Nat) {s : State} (h : Keeps a s) : Keeps a (filmRecord ch kind info data stamp s) := by
  unfold filmRecord
  with_reducible repeat' first
    | assumption | intro _ _ _ | intro _ _ | intro _ | apply filmPut_keeps | apply ite_keeps
    | (extract_lets +onlyGivenNames x; first | refine cut2 (p := Keeps _ x) ?_ (fun _ => ?_) | clear x | skip)
    | split | refine keeps_mk ?_ rfl rfl rfl

theorem chanEvent_keeps {a : State} (ch : Nat) (code : Nat) (rest : List Byte) {s : State} (h : Keeps a s) : Keeps a (chanEvent ch code rest s) := by
  unfold chanEvent
  with_reducible repeat' first
    | assumption | intro _ _ _ | intro _ _ | intro _ | apply raiseEvent_keeps | apply forEach_keeps
    | (extract_lets +onlyGivenNames x; first | refine cut2 (p := Keeps _ x) ?_ (fun _ => ?_) | clear x | skip)
    | split | refine keeps_mk ?_ rfl rfl rfl

theorem filmFreeze_keeps {a : State} (cause : Nat) (chan : Nat) {s : State} (h : Keeps a s) : Keeps a (filmFreeze cause chan s) := by
  unfold filmFreeze
  with_reducible repeat' first
    | assumption | intro _ _ _ | intro _ _ | intro _ | apply raiseEvent_keeps | apply ite_keeps
    | (extract_lets +onlyGivenNames x; first | refine cut2 (p := Keeps _ x) ?_ (fun _ => ?_) | clear x | skip)
    | split | refine keeps_mk ?_ rfl rfl rfl

theorem changeCounters_keeps {a : State} (ch : Nat) (f : Chan → Chan) {s : State} (h : Keeps a s) : Keeps a (changeCounters ch f s) := by
  unfold changeCounters
  with_reducible repeat' first
    | assumption | intro _ _ _ | intro _ _ | intro _ | apply State_modChan_keeps | apply filmRecord_keeps | apply chanEvent_keeps |
      apply filmFreeze_keeps | apply ite_keeps
    | (extract_lets +onlyGivenNames x; first | refine cut2 (p := Keeps _ x) ?_ (fun _ => ?_) | clear x | skip)
    | split | refine keeps_mk ?_ rfl rfl rfl

theorem setAlone_keeps {a : State} (ch : Nat) (v : Bool) {s : State} (h : Keeps a s) : Keeps a (setAlone ch v s) := by
  unfold setAlone
  with_reducible repeat' first
    | assumption | intro _ _ _ | intro _ _ | intro _ | apply filmRecord_keeps | apply State_modChan_keeps | apply chanEvent_keeps |
      apply ite_keeps
    | (extract_lets +onlyGivenNames x; first | refine cut2 (p := Keeps _ x) ?_ (fun _ => ?_) | clear x | skip)
    | split | refine keeps_mk ?_ rfl rfl rfl

theorem enterState_keeps {a : State} (ch : Nat) (new : ChanState) {s : State} (h : Keeps a s) : Keeps a (enterState ch new s) := by
  unfold enterState
  with_reducible repeat' first
    | assumption | intro _ _ _ | intro _ _ | intro _ | apply State_modChan_keeps | apply filmPut_keeps | apply chanEvent_keeps | apply
      setAlone_keeps | apply ite_keeps
    | (extract_lets +onlyGivenNames x; first | refine cut2 (p := Keeps _ x) ?_ (fun _ => ?_) | clear x | skip)
    | split | refine keeps_mk ?_ rfl rfl rfl

theorem ackSeen_keeps {a : State} (ch : Nat) {s : State} (h : Keeps a s) : Keeps a (ackSeen ch s) := by
  unfold ackSeen
  with_reducible repeat' first
    | assumption | intro _ _ _ | intro _ _ | intro _ | apply setAlone_keeps | apply State_modChan_keeps
    | (extract_lets +onlyGivenNames x; first | refine cut2 (p := Keeps _ x) ?_ (fun _ => ?_) | clear x | skip)
    | split | refine keeps_mk ?_ rfl rfl rfl

theorem ackMissed_keeps {a : State} (ch : Nat) {s : State} (h : Keeps a s) : Keeps a (ackMissed ch s) := by
  unfold ackMissed
  with_reducible repeat' first
    | assumption | intro _ _ _ | intro _ _ | intro _ | apply State_modChan_keeps | apply setAlone_keeps | apply latchCause_keeps |
      apply filmFreeze_keeps | apply ite_keeps
    | (extract_lets +onlyGivenNames x; first | refine cut2 (p := Keeps _ x) ?_ (fun _ => ?_) | clear x | skip)
    | split | refine keeps_mk ?_ rfl rfl rfl

theorem filmDrainOne_keeps {a : State} {s : State} (h : Keeps a s) : Keeps a (filmDrainOne s) := by
  unfold filmDrainOne
  with_reducible repeat' first
    | assumption | intro _ _ _ | intro _ _ | intro _ | apply raiseEvent_keeps | apply ite_keeps
    | (extract_lets +onlyGivenNames x; first | refine cut2 (p := Keeps _ x) ?_ (fun _ => ?_) | clear x | skip)
    | split | refine keeps_mk ?_ rfl rfl rfl

theorem filmDrainAll_keeps {a : State} (n : Nat) {s : State} (h : Keeps a s) : Keeps a (filmDrainAll n s) := by
  induction n generalizing s with
  | zero => exact h
  | succ n ih => exact ih (filmDrainOne_keeps h)

theorem execFilmstripDrainEnd_keeps {a : State} {s : State} (h : Keeps a s) : OKeeps a (execFilmstripDrainEnd s) := by
  unfold execFilmstripDrainEnd
  with_reducible repeat' first
    | assumption | intro _ _ _ | intro _ _ | intro _ | apply next_keeps | apply filmDrainAll_keeps | apply raiseEvent_keeps | apply
      ite_okeeps | apply ite_keeps
    | (extract_lets +onlyGivenNames x; first | refine cut2 (p := Keeps _ x) ?_ (fun _ => ?_) | clear x | skip)
    | split | refine keeps_mk ?_ rfl rfl rfl

/-! ### MsgMem -/

theorem noteStart_keeps {a : State} (ch : Nat) {s : State} (h : Keeps a s) : Keeps a (noteStart ch s) := by
  unfold noteStart
  with_reducible repeat' first
    | assumption | intro _ _ _ | intro _ _ | intro _ | apply State_modMo_keeps | apply State_modChan_keeps | apply ite_keeps
    | (extract_lets +onlyGivenNames x; first | refine cut2 (p := Keeps _ x) ?_ (fun _ => ?_) | clear x | skip)
    | split | refine keeps_mk ?_ rfl rfl rfl

theorem countCancel_keeps {a : State} (ch : Nat) (late : Bool) {s : State} (h : Keeps a s) : Keeps a (countCancel ch late s) := by
  unfold countCancel
  with_reducible repeat' first
    | assumption | intro _ _ _ | intro _ _ | intro _ | apply State_modChan_keeps | apply ite_keeps
    | (extract_lets +onlyGivenNames x; first | refine cut2 (p := Keeps _ x) ?_ (fun _ => ?_) | clear x | skip)
    | split | refine keeps_mk ?_ rfl rfl rfl

theorem endLive_keeps {a : State} (mo : Nat) {s : State} (h : Keeps a s) : Keeps a (endLive mo s) := by
  unfold endLive
  with_reducible repeat' first
    | assumption | intro _ _ _ | intro _ _ | intro _ | apply promoteRelease_keeps | apply bathMod_keeps | apply State_modMo_keeps |
      apply ite_keeps
    | (extract_lets +onlyGivenNames x; first | refine cut2 (p := Keeps _ x) ?_ (fun _ => ?_) | clear x | skip)
    | split | refine keeps_mk ?_ rfl rfl rfl | refine keeps_tab ?_ rfl rfl rfl ?_ ?_ ?_ ?_ ?_ ?_ | apply rising_mset | apply rising_mdel | apply rising_mmod | refine rising_map (fun _ => ?_) ?_ | rfl

theorem completeTx_keeps {a : State} (owner : Nat) (ring : Option Nat) (cmpl : Bool) (always : Bool) (r : Rec) {s : State} (h : Keeps a s) : Keeps a (completeTx owner ring cmpl always r s) := by
  unfold completeTx
  with_reducible repeat' first
    | assumption | intro _ _ _ | intro _ _ | intro _ | apply pushRx_keeps | apply ite_keeps
    | (extract_lets +onlyGivenNames x; first | refine cut2 (p := Keeps _ x) ?_ (fun _ => ?_) | clear x | skip)
    | split | refine keeps_mk ?_ rfl rfl rfl

theorem completeLive_keeps {a : State} (mo : Nat) (result : Nat) {s : State} (h : Keeps a s) : Keeps a (completeLive mo result s) := by
  unfold completeLive
  with_reducible repeat' first
    | assumption | intro _ _ _ | intro _ _ | intro _ | apply dropLive_keeps | apply completeTx_keeps | apply bathMod_keeps | apply
      ite_keeps
    | (extract_lets +onlyGivenNames x; first | refine cut2 (p := Keeps _ x) ?_ (fun _ => ?_) | clear x | skip)
    | split | refine keeps_mk ?_ rfl rfl rfl | refine keeps_tab ?_ rfl rfl rfl ?_ ?_ ?_ ?_ ?_ ?_ | apply rising_mset | apply rising_mdel | apply rising_mmod | refine rising_map (fun _ => ?_) ?_ | rfl

theorem discardStagedAs_keeps {a : State} (mo : Nat) (result : Nat) {s : State} (h : Keeps a s) : Keeps a (discardStagedAs mo result s) := by
  unfold discardStagedAs
  with_reducible repeat' first
    | assumption | intro _ _ _ | intro _ _ | intro _ | apply State_modMo_keeps | apply completeTx_keeps | apply bathMod_keeps | apply
      failStaged_keeps | apply dropStaged_keeps | apply ite_keeps
    | (extract_lets +onlyGivenNames x; first | refine cut2 (p := Keeps _ x) ?_ (fun _ => ?_) | clear x | skip)
    | split | refine keeps_mk ?_ rfl rfl rfl

theorem discardStaged_keeps {a : State} (mo : Nat) {s : State} (h : Keeps a s) : Keeps a (discardStaged mo s) := by
  unfold discardStaged
  with_reducible repeat' first
    | assumption | intro _ _ _ | intro _ _ | intro _ | apply discardStagedAs_keeps
    | (extract_lets +onlyGivenNames x; first | refine cut2 (p := Keeps _ x) ?_ (fun _ => ?_) | clear x | skip)
    | split | refine keeps_mk ?_ rfl rfl rfl

theorem withdrawPending_keeps {a : State} (mo : Nat) {s : State} (h : Keeps a s) : Keeps a (withdrawPending mo s) := by
  unfold withdrawPending
  with_reducible repeat' first
    | assumption | intro _ _ _ | intro _ _ | intro _ | apply endLive_keeps | apply completeLive_keeps | apply countCancel_keeps
    | (extract_lets +onlyGivenNames x; first | refine cut2 (p := Keeps _ x) ?_ (fun _ => ?_) | clear x | skip)
    | split | refine keeps_mk ?_ rfl rfl rfl

theorem noteWritten_keeps {a : State} (o : Mo) (len : Nat) {s : State} (h : Keeps a s) : Keeps a (noteWritten o len s) := by
  unfold noteWritten
  with_reducible repeat' first
    | assumption | intro _ _ _ | intro _ _ | intro _ | apply ite_keeps
    | (extract_lets +onlyGivenNames x; first | refine cut2 (p := Keeps _ x) ?_ (fun _ => ?_) | clear x | skip)
    | split | refine keeps_mk ?_ rfl rfl rfl | refine keeps_tab ?_ rfl rfl rfl ?_ ?_ ?_ ?_ ?_ ?_ | apply rising_mset | apply rising_mdel | apply rising_mmod | refine rising_map (fun _ => ?_) ?_ | rfl

theorem overwriteEvent_keeps {a : State} (mo : Nat) (o : Mo) {s : State} (h : Keeps a s) : Keeps a (overwriteEvent mo o s) := by
  unfold overwriteEvent
  with_reducible repeat' first
    | assumption | intro _ _ _ | intro _ _ | intro _ | apply raiseEvent_keeps
    | (extract_lets +onlyGivenNames x; first | refine cut2 (p := Keeps _ x) ?_ (fun _ => ?_) | clear x | skip)
    | split | refine keeps_mk ?_ rfl rfl rfl

theorem commitReceive_keeps {a : State} (mo : Nat) (r : Rec) (data : List Byte) {s : State} (h : Keeps a s) : Keeps a (commitReceive mo r data s) := by
  unfold commitReceive
  with_reducible repeat' first
    | assumption | intro _ _ _ | intro _ _ | intro _ | apply noteWritten_keeps | apply overwriteEvent_keeps | apply ite_keeps
    | (extract_lets +onlyGivenNames x; first | refine cut2 (p := Keeps _ x) ?_ (fun _ => ?_) | clear x | skip)
    | split | refine keeps_mk ?_ rfl rfl rfl | refine keeps_tab ?_ rfl rfl rfl ?_ ?_ ?_ ?_ ?_ ?_ | apply rising_mset | apply rising_mdel | apply rising_mmod | refine rising_map (fun _ => ?_) ?_ | rfl

theorem releaseWindow_keeps {a : State} (c : Nat) (torn : Bool) {s : State} (h : Keeps a s) : Keeps a (releaseWindow c torn s) := by
  unfold releaseWindow
  with_reducible repeat' first
    | assumption | intro _ _ _ | intro _ _ | intro _ | apply State_modFn_keeps | apply State_modMo_keeps | apply ite_keeps
    | (extract_lets +onlyGivenNames x; first | refine cut2 (p := Keeps _ x) ?_ (fun _ => ?_) | clear x | skip)
    | split | refine keeps_mk ?_ rfl rfl rfl

theorem cancelObject_keeps {a : State} (mo : Nat) {s : State} (h : Keeps a s) : Keeps a (cancelObject mo s) := by
  unfold cancelObject
  with_reducible repeat' first
    | assumption | intro _ _ _ | intro _ _ | intro _ | apply discardStaged_keeps | apply State_modChan_keeps | apply
      withdrawPending_keeps | apply ite_keeps
    | (extract_lets +onlyGivenNames x; first | refine cut2 (p := Keeps _ x) ?_ (fun _ => ?_) | clear x | skip)
    | split | refine keeps_mk ?_ rfl rfl rfl

theorem endLockTorn_keeps {a : State} (mo : Nat) {s : State} (h : Keeps a s) : Keeps a (endLockTorn mo s) := by
  unfold endLockTorn
  with_reducible repeat' first
    | assumption | intro _ _ _ | intro _ _ | intro _ | apply releaseWindow_keeps | apply ite_keeps
    | (extract_lets +onlyGivenNames x; first | refine cut2 (p := Keeps _ x) ?_ (fun _ => ?_) | clear x | skip)
    | split | refine keeps_mk ?_ rfl rfl rfl

theorem txCommit_keeps {a : State} (mo : Nat) (b : Buf) (at_ : Nat) {s : State} (h : Keeps a s) : Keeps a (txCommit mo b at_ s) := by
  unfold txCommit
  with_reducible repeat' first
    | assumption | intro _ _ _ | intro _ _ | intro _ | apply noteWritten_keeps | apply State_modMo_keeps | apply releaseOwn_keeps |
      apply dropLive_keeps | apply completeTx_keeps | apply bathMod_keeps | apply discardStaged_keeps | apply ite_keeps
    | (extract_lets +onlyGivenNames x; first | refine cut2 (p := Keeps _ x) ?_ (fun _ => ?_) | clear x | skip)
    | split | refine keeps_mk ?_ rfl rfl rfl | refine keeps_tab ?_ rfl rfl rfl ?_ ?_ ?_ ?_ ?_ ?_ | apply rising_mset | apply rising_mdel | apply rising_mmod | refine rising_map (fun _ => ?_) ?_ | rfl

end Sys2Proof.Machine
end

