-- ==== Sys2Proof/Laws/KeepsChannels.lean ====
section
/-!
SUPPORT. What happens on channels keeps the queue, the straps and the fault log sound.
-/

namespace Sys2Proof.Machine

set_option linter.all false

/-! ### FilterOps -/

theorem modPair_keeps {a : State} (x0 : Nat) (ch : Nat) (f : PairCounters → PairCounters) {s : State} (h : Keeps a s) : Keeps a (modPair x0 ch f s) := by
  unfold modPair
  with_reducible repeat' first
    | assumption | intro _ _ _ | intro _ _ | intro _
    | (extract_lets +onlyGivenNames x; first | refine cut2 (p := Keeps _ x) ?_ (fun _ => ?_) | clear x | skip)
    | split | refine keeps_mk ?_ rfl rfl rfl | refine keeps_tab ?_ rfl rfl rfl ?_ ?_ ?_ ?_ ?_ ?_ | apply rising_mset | apply rising_mdel | apply rising_mmod | refine rising_map (fun _ => ?_) ?_ | rfl

theorem disabledDrop_keeps {a : State} (x0 : Nat) (ch : Nat) (f : Nat) {s : State} (h : Keeps a s) : Keeps a (disabledDrop x0 ch f s) := by
  unfold disabledDrop
  with_reducible repeat' first
    | assumption | intro _ _ _ | intro _ _ | intro _ | apply modPair_keeps
    | (extract_lets +onlyGivenNames x; first | refine cut2 (p := Keeps _ x) ?_ (fun _ => ?_) | clear x | skip)
    | split | refine keeps_mk ?_ rfl rfl rfl

/-! ### Latent -/

theorem withdrawRec_keeps {a : State} (n : Nat) (by_ : Source) {s : State} (h : Keeps a s) : Keeps a (withdrawRec n by_ s) := by
  unfold withdrawRec
  with_reducible repeat' first
    | assumption | intro _ _ _ | intro _ _ | intro _ | apply modRec_keeps | apply ite_keeps
    | (extract_lets +onlyGivenNames x; first | refine cut2 (p := Keeps _ x) ?_ (fun _ => ?_) | clear x | skip)
    | split | refine keeps_mk ?_ rfl rfl rfl | refine keeps_tab ?_ rfl rfl rfl ?_ ?_ ?_ ?_ ?_ ?_ | apply rising_mset | apply rising_mdel | apply rising_mmod | refine rising_map (fun _ => ?_) ?_ | rfl

theorem writeDown_keeps {a : State} (x0 : Nat) {s : State} (x2 : Change) (h : Keeps a s) : Keeps a (writeDown x0 s x2) := by
  unfold writeDown
  with_reducible repeat' first
    | assumption | intro _ _ _ | intro _ _ | intro _ | apply State_modChan_keeps | apply State_modMo_keeps | apply State_modCq_keeps |
      apply State_modRing_keeps | apply State_modTrigger_keeps | apply modRec_keeps | apply withdrawRec_keeps | apply
      State_modMon_keeps | apply State_modCvu_keeps | apply State_modLd_keeps | apply State_modSwc_keeps | apply State_modLink_keeps |
      apply forRange_keeps | apply ite_keeps
    | (extract_lets +onlyGivenNames x; first | refine cut2 (p := Keeps _ x) ?_ (fun _ => ?_) | clear x | skip)
    | split | refine keeps_mk ?_ rfl rfl rfl | refine keeps_tab ?_ rfl rfl rfl ?_ ?_ ?_ ?_ ?_ ?_ | apply rising_mset | apply rising_mdel | apply rising_mmod | refine rising_map (fun _ => ?_) ?_ | rfl
  all_goals assumption

theorem writeAll_keeps {a : State} (x0 : Nat) (l : List Change) {s : State} (h : Keeps a s) : Keeps a (writeAll x0 l s) := by
  unfold writeAll
  with_reducible repeat' first
    | assumption | intro _ _ _ | intro _ _ | intro _ | apply writeDown_keeps | apply foldl_keeps
    | (extract_lets +onlyGivenNames x; first | refine cut2 (p := Keeps _ x) ?_ (fun _ => ?_) | clear x | skip)
    | split | refine keeps_mk ?_ rfl rfl rfl

theorem stagedView_keeps {a : State} {s : State} (x0 : Nat) (h : Keeps a s) : Keeps a (stagedView s x0) := by
  unfold stagedView
  with_reducible repeat' first
    | assumption | intro _ _ _ | intro _ _ | intro _ | apply writeAll_keeps
    | (extract_lets +onlyGivenNames x; first | refine cut2 (p := Keeps _ x) ?_ (fun _ => ?_) | clear x | skip)
    | split | refine keeps_mk ?_ rfl rfl rfl

theorem stage_keeps {a : State} (p : Packet) (l : List Change) {s : State} (body : List Byte) (h : Keeps a s) : VKeeps a (stage p l s body) := by
  unfold stage
  with_reducible repeat' first
    | assumption | intro _ _ _ | intro _ _ | intro _ | apply State_modCtx_keeps | apply refuse_keeps | apply reply_keeps | apply
      ite_vkeeps | apply ite_keeps
    | (extract_lets +onlyGivenNames x; first | refine cut2 (p := Keeps _ x) ?_ (fun _ => ?_) | clear x | skip)
    | split | refine keeps_mk ?_ rfl rfl rfl

theorem bundleOpen_keeps {a : State} {s : State} (p : Packet) (v : Verdict) (hk : VKeeps a v) (h : Keeps a s) : VKeeps a (bundleOpen s p v) := by
  unfold bundleOpen
  with_reducible repeat' first
    | assumption | intro _ _ _ | intro _ _ | intro _ | apply hk | apply refuse_keeps | apply ite_vkeeps | apply ite_keeps
    | (extract_lets +onlyGivenNames x; first | refine cut2 (p := Keeps _ x) ?_ (fun _ => ?_) | clear x | skip)
    | split | refine keeps_mk ?_ rfl rfl rfl

theorem cvuEvent_keeps {a : State} (code : Nat) (u : Nat) (src : Source) {s : State} (h : Keeps a s) : Keeps a (cvuEvent code u src s) := by
  unfold cvuEvent
  with_reducible repeat' first
    | assumption | intro _ _ _ | intro _ _ | intro _ | apply raiseEvent_keeps
    | (extract_lets +onlyGivenNames x; first | refine cut2 (p := Keeps _ x) ?_ (fun _ => ?_) | clear x | skip)
    | split | refine keeps_mk ?_ rfl rfl rfl

theorem endCvuBath_keeps {a : State} (x0 : Nat) (u : Nat) (p : Option CvuParams) (by_ : Option Source) {s : State} (h : Keeps a s) : Keeps a (endCvuBath x0 u p by_ s) := by
  unfold endCvuBath
  with_reducible repeat' first
    | assumption | intro _ _ _ | intro _ _ | intro _ | apply State_modCvu_keeps | apply cvuEvent_keeps | apply ite_keeps
    | (extract_lets +onlyGivenNames x; first | refine cut2 (p := Keeps _ x) ?_ (fun _ => ?_) | clear x | skip)
    | split | refine keeps_mk ?_ rfl rfl rfl

theorem developCvu_keeps {a : State} (x0 : Nat) (u : Nat) (p : Option CvuParams) {s : State} (h : Keeps a s) : Keeps a (developCvu x0 u p s) := by
  unfold developCvu
  with_reducible repeat' first
    | assumption | intro _ _ _ | intro _ _ | intro _ | apply endCvuBath_keeps
    | (extract_lets +onlyGivenNames x; first | refine cut2 (p := Keeps _ x) ?_ (fun _ => ?_) | clear x | skip)
    | split | refine keeps_mk ?_ rfl rfl rfl

/-! ### Census -/

theorem censusEvent_keeps {a : State} (code : Nat) (n : Nat) (e : CensusEntry) (rest : List Byte) {s : State} (h : Keeps a s) : Keeps a (censusEvent code n e rest s) := by
  unfold censusEvent
  with_reducible repeat' first
    | assumption | intro _ _ _ | intro _ _ | intro _ | apply raiseEvent_keeps | apply forEach_keeps
    | (extract_lets +onlyGivenNames x; first | refine cut2 (p := Keeps _ x) ?_ (fun _ => ?_) | clear x | skip)
    | split | refine keeps_mk ?_ rfl rfl rfl

theorem putCensus_keeps {a : State} (n : Nat) (e : CensusEntry) {s : State} (h : Keeps a s) : Keeps a (putCensus n e s) := by
  unfold putCensus
  with_reducible repeat' first
    | assumption | intro _ _ _ | intro _ _ | intro _
    | (extract_lets +onlyGivenNames x; first | refine cut2 (p := Keeps _ x) ?_ (fun _ => ?_) | clear x | skip)
    | split | refine keeps_mk ?_ rfl rfl rfl | refine keeps_tab ?_ rfl rfl rfl ?_ ?_ ?_ ?_ ?_ ?_ | apply rising_mset | apply rising_mdel | apply rising_mmod | refine rising_map (fun _ => ?_) ?_ | rfl

theorem censusFrame_keeps {a : State} (ch : Nat) (h0 : Hdr) (len : Nat) (stamp : Nat) {s : State} (h : Keeps a s) : Keeps a (censusFrame ch h0 len stamp s) := by
  unfold censusFrame
  with_reducible repeat' first
    | assumption | intro _ _ _ | intro _ _ | intro _ | apply putCensus_keeps | apply censusEvent_keeps | apply raiseEvent_keeps |
      apply forEach_keeps | apply ite_keeps
    | (extract_lets +onlyGivenNames x; first | refine cut2 (p := Keeps _ x) ?_ (fun _ => ?_) | clear x | skip)
    | split | refine keeps_mk ?_ rfl rfl rfl

theorem judgeLost_keeps {a : State} (n : Nat) {s : State} (h : Keeps a s) : Keeps a (judgeLost n s) := by
  unfold judgeLost
  with_reducible repeat' first
    | assumption | intro _ _ _ | intro _ _ | intro _ | apply censusEvent_keeps | apply putCensus_keeps | apply ite_keeps
    | (extract_lets +onlyGivenNames x; first | refine cut2 (p := Keeps _ x) ?_ (fun _ => ?_) | clear x | skip)
    | split | refine keeps_mk ?_ rfl rfl rfl

theorem execCensusLostJudgement_keeps {a : State} {s : State} (h : Keeps a s) : OKeeps a (execCensusLostJudgement s) := by
  unfold execCensusLostJudgement
  with_reducible repeat' first
    | assumption | intro _ _ _ | intro _ _ | intro _ | apply reachClk_keeps | apply next_keeps | apply judgeLost_keeps | apply
      forEach_keeps
    | (extract_lets +onlyGivenNames x; first | refine cut2 (p := Keeps _ x) ?_ (fun _ => ?_) | clear x | skip)
    | split | refine keeps_mk ?_ rfl rfl rfl | refine keeps_tab ?_ rfl rfl rfl ?_ ?_ ?_ ?_ ?_ ?_ | apply rising_mset | apply rising_mdel | apply rising_mmod | refine rising_map (fun _ => ?_) ?_ | rfl

theorem getCensus_keeps {a : State} (p : Packet) {s : State} (h : Keeps a s) : VKeeps a (getCensus p s) := by
  unfold getCensus
  with_reducible repeat' first
    | assumption | intro _ _ _ | intro _ _ | intro _ | apply okBody_keeps | apply badParam_keeps | apply ite_vkeeps | apply ite_keeps
    | (extract_lets +onlyGivenNames x; first | refine cut2 (p := Keeps _ x) ?_ (fun _ => ?_) | clear x | skip)
    | split | refine keeps_mk ?_ rfl rfl rfl

theorem execGetCensus_keeps {a : State} (p : Packet) {s : State} (h : Keeps a s) : OKeeps a (execGetCensus p s) := by
  unfold execGetCensus
  with_reducible repeat' first
    | assumption | intro _ _ _ | intro _ _ | intro _ | apply next_keeps | apply runCommand_keeps | apply getCensus_keeps
    | (extract_lets +onlyGivenNames x; first | refine cut2 (p := Keeps _ x) ?_ (fun _ => ?_) | clear x | skip)
    | split | refine keeps_mk ?_ rfl rfl rfl

theorem clearCensus_keeps {a : State} (p : Packet) {s : State} (h : Keeps a s) : VKeeps a (clearCensus p s) := by
  unfold clearCensus
  with_reducible repeat' first
    | assumption | intro _ _ _ | intro _ _ | intro _ | apply okDone_keeps | apply badParam_keeps
    | (extract_lets +onlyGivenNames x; first | refine cut2 (p := Keeps _ x) ?_ (fun _ => ?_) | clear x | skip)
    | split | refine keeps_mk ?_ rfl rfl rfl

theorem execClearCensus_keeps {a : State} (p : Packet) {s : State} (h : Keeps a s) : OKeeps a (execClearCensus p s) := by
  unfold execClearCensus
  with_reducible repeat' first
    | assumption | intro _ _ _ | intro _ _ | intro _ | apply next_keeps | apply runCommand_keeps | apply clearCensus_keeps
    | (extract_lets +onlyGivenNames x; first | refine cut2 (p := Keeps _ x) ?_ (fun _ => ?_) | clear x | skip)
    | split | refine keeps_mk ?_ rfl rfl rfl

theorem setCensusEvents_keeps {a : State} (p : Packet) {s : State} (h : Keeps a s) : VKeeps a (setCensusEvents p s) := by
  unfold setCensusEvents
  with_reducible repeat' first
    | assumption | intro _ _ _ | intro _ _ | intro _ | apply bundleOpen_keeps | apply stage_keeps | apply badParam_keeps | apply
      ite_vkeeps | apply ite_keeps
    | (extract_lets +onlyGivenNames x; first | refine cut2 (p := Keeps _ x) ?_ (fun _ => ?_) | clear x | skip)
    | split | refine keeps_mk ?_ rfl rfl rfl

theorem execSetCensusEvents_keeps {a : State} (p : Packet) {s : State} (h : Keeps a s) : OKeeps a (execSetCensusEvents p s) := by
  unfold execSetCensusEvents
  with_reducible repeat' first
    | assumption | intro _ _ _ | intro _ _ | intro _ | apply next_keeps | apply runCommand_keeps | apply setCensusEvents_keeps
    | (extract_lets +onlyGivenNames x; first | refine cut2 (p := Keeps _ x) ?_ (fun _ => ?_) | clear x | skip)
    | split | refine keeps_mk ?_ rfl rfl rfl

/-! ### Channel -/

theorem takeSettings_keeps {a : State} (ch : Nat) {s : State} (h : Keeps a s) : Keeps a (takeSettings ch s) := by
  unfold takeSettings
  with_reducible repeat' first
    | assumption | intro _ _ _ | intro _ _ | intro _ | apply judgeMode_keeps | apply State_modChan_keeps
    | (extract_lets +onlyGivenNames x; first | refine cut2 (p := Keeps _ x) ?_ (fun _ => ?_) | clear x | skip)
    | split | refine keeps_mk ?_ rfl rfl rfl

theorem markLate_keeps {a : State} (ch : Nat) {s : State} (h : Keeps a s) : Keeps a (markLate ch s) := by
  unfold markLate
  with_reducible repeat' first
    | assumption | intro _ _ _ | intro _ _ | intro _ | apply ite_keeps
    | (extract_lets +onlyGivenNames x; first | refine cut2 (p := Keeps _ x) ?_ (fun _ => ?_) | clear x | skip)
    | split | refine keeps_mk ?_ rfl rfl rfl | refine keeps_tab ?_ rfl rfl rfl ?_ ?_ ?_ ?_ ?_ ?_ | apply rising_mset | apply rising_mdel | apply rising_mmod | refine rising_map (fun _ => ?_) ?_ | rfl

theorem enterIntermission_keeps {a : State} (ch : Nat) (phase : BusPhase) {s : State} (h : Keeps a s) : Keeps a (enterIntermission ch phase s) := by
  unfold enterIntermission
  with_reducible repeat' first
    | assumption | intro _ _ _ | intro _ _ | intro _ | apply takeSettings_keeps | apply markLate_keeps | apply State_modChan_keeps
    | (extract_lets +onlyGivenNames x; first | refine cut2 (p := Keeps _ x) ?_ (fun _ => ?_) | clear x | skip)
    | split | refine keeps_mk ?_ rfl rfl rfl

theorem endErrorFrame_keeps {a : State} (ch : Nat) {s : State} (h : Keeps a s) : Keeps a (endErrorFrame ch s) := by
  unfold endErrorFrame
  with_reducible repeat' first
    | assumption | intro _ _ _ | intro _ _ | intro _ | apply enterIntermission_keeps | apply ite_keeps
    | (extract_lets +onlyGivenNames x; first | refine cut2 (p := Keeps _ x) ?_ (fun _ => ?_) | clear x | skip)
    | split | refine keeps_mk ?_ rfl rfl rfl

theorem latch_keeps {a : State} (ch : Nat) (mo : Nat) (sof : Nat) {s : State} (h : Keeps a s) : Keeps a (latch ch mo sof s) := by
  unfold latch
  with_reducible repeat' first
    | assumption | intro _ _ _ | intro _ _ | intro _ | apply State_modMo_keeps | apply State_modChan_keeps
    | (extract_lets +onlyGivenNames x; first | refine cut2 (p := Keeps _ x) ?_ (fun _ => ?_) | clear x | skip)
    | split | refine keeps_mk ?_ rfl rfl rfl

theorem driveSof_keeps {a : State} (ch : Nat) {s : State} (h : Keeps a s) : Keeps a (driveSof ch s) := by
  unfold driveSof
  with_reducible repeat' first
    | assumption | intro _ _ _ | intro _ _ | intro _ | apply noteStart_keeps | apply reachTime_keeps | apply State_modChan_keeps |
      apply ite_keeps
    | (extract_lets +onlyGivenNames x; first | refine cut2 (p := Keeps _ x) ?_ (fun _ => ?_) | clear x | skip)
    | split | refine keeps_mk ?_ rfl rfl rfl

theorem answerCancels_keeps {a : State} (ch : Nat) (status : Nat) (outcome : Nat) (result : Nat) (stamp : Nat) {s : State} (h : Keeps a s) : Keeps a (answerCancels ch status outcome result stamp s) := by
  unfold answerCancels
  with_reducible repeat' first
    | assumption | intro _ _ _ | intro _ _ | intro _ | apply replyTaken_keeps | apply State_modChan_keeps | apply forEach_keeps
    | (extract_lets +onlyGivenNames x; first | refine cut2 (p := Keeps _ x) ?_ (fun _ => ?_) | clear x | skip)
    | split | refine keeps_mk ?_ rfl rfl rfl

theorem clearLatch_keeps {a : State} (ch : Nat) {s : State} (h : Keeps a s) : Keeps a (clearLatch ch s) := by
  unfold clearLatch
  with_reducible repeat' first
    | assumption | intro _ _ _ | intro _ _ | intro _ | apply State_modChan_keeps
    | (extract_lets +onlyGivenNames x; first | refine cut2 (p := Keeps _ x) ?_ (fun _ => ?_) | clear x | skip)
    | split | refine keeps_mk ?_ rfl rfl rfl

theorem unlatch_keeps {a : State} (mo : Nat) {s : State} (h : Keeps a s) : Keeps a (unlatch mo s) := by
  unfold unlatch
  with_reducible repeat' first
    | assumption | intro _ _ _ | intro _ _ | intro _ | apply State_modMo_keeps
    | (extract_lets +onlyGivenNames x; first | refine cut2 (p := Keeps _ x) ?_ (fun _ => ?_) | clear x | skip)
    | split | refine keeps_mk ?_ rfl rfl rfl

theorem countCancels_keeps {a : State} (ch : Nat) {s : State} (h : Keeps a s) : Keeps a (countCancels ch s) := by
  unfold countCancels
  with_reducible repeat' first
    | assumption | intro _ _ _ | intro _ _ | intro _ | apply countCancel_keeps | apply forRange_keeps
    | (extract_lets +onlyGivenNames x; first | refine cut2 (p := Keeps _ x) ?_ (fun _ => ?_) | clear x | skip)
    | split | refine keeps_mk ?_ rfl rfl rfl

theorem endUnsent_keeps {a : State} (ch : Nat) {s : State} (h : Keeps a s) : Keeps a (endUnsent ch s) := by
  unfold endUnsent
  with_reducible repeat' first
    | assumption | intro _ _ _ | intro _ _ | intro _ | apply clearLatch_keeps | apply endLive_keeps | apply completeLive_keeps | apply
      countCancels_keeps | apply answerCancels_keeps | apply failRelease_keeps | apply unlatch_keeps | apply ite_keeps
    | (extract_lets +onlyGivenNames x; first | refine cut2 (p := Keeps _ x) ?_ (fun _ => ?_) | clear x | skip)
    | split | refine keeps_mk ?_ rfl rfl rfl

theorem endFailed_keeps {a : State} (ch : Nat) {s : State} (h : Keeps a s) : Keeps a (endFailed ch s) := by
  unfold endFailed
  with_reducible repeat' first
    | assumption | intro _ _ _ | intro _ _ | intro _ | apply noteStart_keeps | apply clearLatch_keeps | apply countCancels_keeps |
      apply endLive_keeps | apply completeLive_keeps | apply answerCancels_keeps | apply failRelease_keeps | apply State_modChan_keeps
      | apply unlatch_keeps | apply State_modMo_keeps | apply ite_keeps
    | (extract_lets +onlyGivenNames x; first | refine cut2 (p := Keeps _ x) ?_ (fun _ => ?_) | clear x | skip)
    | split | refine keeps_mk ?_ rfl rfl rfl

theorem endSent_keeps {a : State} (ch : Nat) {s : State} (h : Keeps a s) : Keeps a (endSent ch s) := by
  unfold endSent
  with_reducible repeat' first
    | assumption | intro _ _ _ | intro _ _ | intro _ | apply State_modMo_keeps | apply succeedOwn_keeps | apply completeLive_keeps |
      apply clearLatch_keeps | apply endLive_keeps
    | (extract_lets +onlyGivenNames x; first | refine cut2 (p := Keeps _ x) ?_ (fun _ => ?_) | clear x | skip)
    | split | refine keeps_mk ?_ rfl rfl rfl

theorem filmOwn_keeps {a : State} (ch : Nat) (kind : Nat) {s : State} (h : Keeps a s) : Keeps a (filmOwn ch kind s) := by
  unfold filmOwn
  with_reducible repeat' first
    | assumption | intro _ _ _ | intro _ _ | intro _ | apply filmRecord_keeps
    | (extract_lets +onlyGivenNames x; first | refine cut2 (p := Keeps _ x) ?_ (fun _ => ?_) | clear x | skip)
    | split | refine keeps_mk ?_ rfl rfl rfl

theorem loseFrame_keeps {a : State} (ch : Nat) {s : State} (h : Keeps a s) : Keeps a (loseFrame ch s) := by
  unfold loseFrame
  with_reducible repeat' first
    | assumption | intro _ _ _ | intro _ _ | intro _ | apply State_modChan_keeps | apply endUnsent_keeps | apply filmOwn_keeps
    | (extract_lets +onlyGivenNames x; first | refine cut2 (p := Keeps _ x) ?_ (fun _ => ?_) | clear x | skip)
    | split | refine keeps_mk ?_ rfl rfl rfl

theorem endAtEdge_keeps {a : State} (ch : Nat) {s : State} (h : Keeps a s) : Keeps a (endAtEdge ch s) := by
  unfold endAtEdge
  with_reducible repeat' first
    | assumption | intro _ _ _ | intro _ _ | intro _ | apply driveSof_keeps | apply endFailed_keeps | apply loseFrame_keeps | apply
      endUnsent_keeps | apply ite_keeps
    | (extract_lets +onlyGivenNames x; first | refine cut2 (p := Keeps _ x) ?_ (fun _ => ?_) | clear x | skip)
    | split | refine keeps_mk ?_ rfl rfl rfl

theorem rewindRx_keeps {a : State} (ch : Nat) {s : State} (h : Keeps a s) : Keeps a (rewindRx ch s) := by
  unfold rewindRx
  with_reducible repeat' first
    | assumption | intro _ _ _ | intro _ _ | intro _ | apply State_modChan_keeps | apply fcAt_keeps | apply modStat_keeps | apply
      ite_keeps
    | (extract_lets +onlyGivenNames x; first | refine cut2 (p := Keeps _ x) ?_ (fun _ => ?_) | clear x | skip)
    | split | refine keeps_mk ?_ rfl rfl rfl

theorem leaveBus_keeps {a : State} (ch : Nat) (phase : BusPhase) {s : State} (h : Keeps a s) : Keeps a (leaveBus ch phase s) := by
  unfold leaveBus
  with_reducible repeat' first
    | assumption | intro _ _ _ | intro _ _ | intro _ | apply rewindRx_keeps | apply endAtEdge_keeps | apply takeSettings_keeps | apply
      State_modChan_keeps
    | (extract_lets +onlyGivenNames x; first | refine cut2 (p := Keeps _ x) ?_ (fun _ => ?_) | clear x | skip)
    | split | refine keeps_mk ?_ rfl rfl rfl

theorem chanBathEvent_keeps {a : State} (ch : Nat) (code : Nat) (c : Nat) {s : State} (h : Keeps a s) : Keeps a (chanBathEvent ch code c s) := by
  unfold chanBathEvent
  with_reducible repeat' first
    | assumption | intro _ _ _ | intro _ _ | intro _ | apply raiseEvent_keeps
    | (extract_lets +onlyGivenNames x; first | refine cut2 (p := Keeps _ x) ?_ (fun _ => ?_) | clear x | skip)
    | split | refine keeps_mk ?_ rfl rfl rfl

theorem startSettle_keeps {a : State} (ch : Nat) (p : Option Packet) {s : State} (h : Keeps a s) : Keeps a (startSettle ch p s) := by
  unfold startSettle
  with_reducible repeat' first
    | assumption | intro _ _ _ | intro _ _ | intro _ | apply State_modChan_keeps
    | (extract_lets +onlyGivenNames x; first | refine cut2 (p := Keeps _ x) ?_ (fun _ => ?_) | clear x | skip)
    | split | refine keeps_mk ?_ rfl rfl rfl

theorem applyEnable_keeps {a : State} (ch : Nat) (mode : Nat) (p : Option Packet) {s : State} (h : Keeps a s) : Keeps a (applyEnable ch mode p s) := by
  unfold applyEnable
  with_reducible repeat' first
    | assumption | intro _ _ _ | intro _ _ | intro _ | apply State_modChan_keeps | apply startSettle_keeps | apply
      changeCounters_keeps | apply ite_keeps
    | (extract_lets +onlyGivenNames x; first | refine cut2 (p := Keeps _ x) ?_ (fun _ => ?_) | clear x | skip)
    | split | refine keeps_mk ?_ rfl rfl rfl

theorem answerEnable_keeps {a : State} (ch : Nat) (state : Nat) (stamp : Nat) {s : State} (h : Keeps a s) : Keeps a (answerEnable ch state stamp s) := by
  unfold answerEnable
  with_reducible repeat' first
    | assumption | intro _ _ _ | intro _ _ | intro _ | apply replyTaken_keeps | apply State_modChan_keeps
    | (extract_lets +onlyGivenNames x; first | refine cut2 (p := Keeps _ x) ?_ (fun _ => ?_) | clear x | skip)
    | split | refine keeps_mk ?_ rfl rfl rfl

theorem enterIntegrating_keeps {a : State} (ch : Nat) {s : State} (h : Keeps a s) : Keeps a (enterIntegrating ch s) := by
  unfold enterIntegrating
  with_reducible repeat' first
    | assumption | intro _ _ _ | intro _ _ | intro _ | apply State_modChan_keeps | apply judgeMode_keeps | apply enterState_keeps
    | (extract_lets +onlyGivenNames x; first | refine cut2 (p := Keeps _ x) ?_ (fun _ => ?_) | clear x | skip)
    | split | refine keeps_mk ?_ rfl rfl rfl

theorem enterBusOffState_keeps {a : State} (ch : Nat) {s : State} (h : Keeps a s) : Keeps a (enterBusOffState ch s) := by
  unfold enterBusOffState
  with_reducible repeat' first
    | assumption | intro _ _ _ | intro _ _ | intro _ | apply enterState_keeps | apply State_modChan_keeps
    | (extract_lets +onlyGivenNames x; first | refine cut2 (p := Keeps _ x) ?_ (fun _ => ?_) | clear x | skip)
    | split | refine keeps_mk ?_ rfl rfl rfl

theorem holdSettling_keeps {a : State} (ch : Nat) {s : State} (h : Keeps a s) : Keeps a (holdSettling ch s) := by
  unfold holdSettling
  with_reducible repeat' first
    | assumption | intro _ _ _ | intro _ _ | intro _ | apply State_modChan_keeps | apply answerEnable_keeps | apply enterState_keeps
    | (extract_lets +onlyGivenNames x; first | refine cut2 (p := Keeps _ x) ?_ (fun _ => ?_) | clear x | skip)
    | split | refine keeps_mk ?_ rfl rfl rfl

theorem endStop_keeps {a : State} (ch : Nat) {s : State} (h : Keeps a s) : Keeps a (endStop ch s) := by
  unfold endStop
  with_reducible repeat' first
    | assumption | intro _ _ _ | intro _ _ | intro _ | apply endUnsent_keeps | apply rewindRx_keeps | apply State_modChan_keeps |
      apply enterState_keeps | apply chanBathEvent_keeps | apply applyEnable_keeps | apply holdSettling_keeps | apply ite_keeps
    | (extract_lets +onlyGivenNames x; first | refine cut2 (p := Keeps _ x) ?_ (fun _ => ?_) | clear x | skip)
    | split | refine keeps_mk ?_ rfl rfl rfl

theorem leaveAtOnce_keeps {a : State} (ch : Nat) (new : ChanState) {s : State} (h : Keeps a s) : Keeps a (leaveAtOnce ch new s) := by
  unfold leaveAtOnce
  with_reducible repeat' first
    | assumption | intro _ _ _ | intro _ _ | intro _ | apply leaveBus_keeps | apply enterState_keeps | apply State_modChan_keeps
    | (extract_lets +onlyGivenNames x; first | refine cut2 (p := Keeps _ x) ?_ (fun _ => ?_) | clear x | skip)
    | split | refine keeps_mk ?_ rfl rfl rfl

theorem startStop_keeps {a : State} (ch : Nat) (cause : StopCause) {s : State} (h : Keeps a s) : Keeps a (startStop ch cause s) := by
  unfold startStop
  with_reducible repeat' first
    | assumption | intro _ _ _ | intro _ _ | intro _ | apply enterState_keeps | apply State_modChan_keeps | apply driveSof_keeps |
      apply endUnsent_keeps | apply endStop_keeps | apply ite_keeps
    | (extract_lets +onlyGivenNames x; first | refine cut2 (p := Keeps _ x) ?_ (fun _ => ?_) | clear x | skip)
    | split | refine keeps_mk ?_ rfl rfl rfl

theorem powerEnterChan_keeps {a : State} (ch : Nat) {s : State} (h : Keeps a s) : Keeps a (powerEnterChan ch s) := by
  unfold powerEnterChan
  with_reducible repeat' first
    | assumption | intro _ _ _ | intro _ _ | intro _ | apply startStop_keeps | apply leaveAtOnce_keeps | apply holdSettling_keeps |
      apply State_modChan_keeps | apply ite_keeps
    | (extract_lets +onlyGivenNames x; first | refine cut2 (p := Keeps _ x) ?_ (fun _ => ?_) | clear x | skip)
    | split | refine keeps_mk ?_ rfl rfl rfl

theorem powerLeaveChan_keeps {a : State} (ch : Nat) {s : State} (h : Keeps a s) : Keeps a (powerLeaveChan ch s) := by
  unfold powerLeaveChan
  with_reducible repeat' first
    | assumption | intro _ _ _ | intro _ _ | intro _ | apply restartPeriods_keeps | apply enterBusOffState_keeps | apply
      enterIntegrating_keeps | apply startSettle_keeps | apply ite_keeps
    | (extract_lets +onlyGivenNames x; first | refine cut2 (p := Keeps _ x) ?_ (fun _ => ?_) | clear x | skip)
    | split | refine keeps_mk ?_ rfl rfl rfl

theorem noteTdcv_keeps {a : State} (ch : Nat) (v : Option (Fin 128)) {s : State} (h : Keeps a s) : Keeps a (noteTdcv ch v s) := by
  unfold noteTdcv
  with_reducible repeat' first
    | assumption | intro _ _ _ | intro _ _ | intro _ | apply State_modChan_keeps
    | (extract_lets +onlyGivenNames x; first | refine cut2 (p := Keeps _ x) ?_ (fun _ => ?_) | clear x | skip)
    | split | refine keeps_mk ?_ rfl rfl rfl

theorem clockHoldChan_keeps {a : State} (acked : Bool) (tdcv : Option (Fin 128)) (ch : Nat) {s : State} (h : Keeps a s) : Keeps a (clockHoldChan acked tdcv ch s) := by
  unfold clockHoldChan
  with_reducible repeat' first
    | assumption | intro _ _ _ | intro _ _ | intro _ | apply noteTdcv_keeps | apply ackSeen_keeps | apply changeCounters_keeps | apply
      leaveBus_keeps | apply enterState_keeps | apply State_modChan_keeps | apply endStop_keeps | apply ite_keeps
    | (extract_lets +onlyGivenNames x; first | refine cut2 (p := Keeps _ x) ?_ (fun _ => ?_) | clear x | skip)
    | split | refine keeps_mk ?_ rfl rfl rfl

theorem clockReleaseChan_keeps {a : State} (ch : Nat) {s : State} (h : Keeps a s) : Keeps a (clockReleaseChan ch s) := by
  unfold clockReleaseChan
  with_reducible repeat' first
    | assumption | intro _ _ _ | intro _ _ | intro _ | apply enterBusOffState_keeps | apply enterIntegrating_keeps | apply ite_keeps
    | (extract_lets +onlyGivenNames x; first | refine cut2 (p := Keeps _ x) ?_ (fun _ => ?_) | clear x | skip)
    | split | refine keeps_mk ?_ rfl rfl rfl

theorem goBusOff_keeps {a : State} (ch : Nat) {s : State} (h : Keeps a s) : Keeps a (goBusOff ch s) := by
  unfold goBusOff
  with_reducible repeat' first
    | assumption | intro _ _ _ | intro _ _ | intro _ | apply rewindRx_keeps | apply endFailed_keeps | apply takeSettings_keeps | apply
      State_modChan_keeps | apply enterBusOffState_keeps | apply latchCause_keeps | apply filmFreeze_keeps | apply endStop_keeps |
      apply ite_keeps
    | (extract_lets +onlyGivenNames x; first | refine cut2 (p := Keeps _ x) ?_ (fun _ => ?_) | clear x | skip)
    | split | refine keeps_mk ?_ rfl rfl rfl

theorem judgeBusOff_keeps {a : State} (ch : Nat) {s : State} (h : Keeps a s) : Keeps a (judgeBusOff ch s) := by
  unfold judgeBusOff
  with_reducible repeat' first
    | assumption | intro _ _ _ | intro _ _ | intro _ | apply goBusOff_keeps | apply ite_keeps
    | (extract_lets +onlyGivenNames x; first | refine cut2 (p := Keeps _ x) ?_ (fun _ => ?_) | clear x | skip)
    | split | refine keeps_mk ?_ rfl rfl rfl

/-! ### ChannelEvents -/

theorem startRecovery_keeps {a : State} (ch : Nat) {s : State} (h : Keeps a s) : Keeps a (startRecovery ch s) := by
  unfold startRecovery
  with_reducible repeat' first
    | assumption | intro _ _ _ | intro _ _ | intro _ | apply State_modChan_keeps | apply enterState_keeps | apply ite_keeps
    | (extract_lets +onlyGivenNames x; first | refine cut2 (p := Keeps _ x) ?_ (fun _ => ?_) | clear x | skip)
    | split | refine keeps_mk ?_ rfl rfl rfl

theorem latchCandidate_keeps {a : State} (ch : Nat) (stamp : Nat) (parity : Bool) {s : State} (h : Keeps a s) : Keeps a (latchCandidate ch stamp parity s) := by
  unfold latchCandidate
  with_reducible repeat' first
    | assumption | intro _ _ _ | intro _ _ | intro _ | apply endErrorFrame_keeps | apply parityDrop_keeps | apply latch_keeps | apply
      ite_keeps
    | (extract_lets +onlyGivenNames x; first | refine cut2 (p := Keeps _ x) ?_ (fun _ => ?_) | clear x | skip)
    | split | refine keeps_mk ?_ rfl rfl rfl

theorem execCandidateLatch_keeps {a : State} (ch : Fin 64) (stamp : Nat) (parity : Bool) {s : State} (h : Keeps a s) : OKeeps a (execCandidateLatch ch stamp parity s) := by
  unfold execCandidateLatch
  with_reducible repeat' first
    | assumption | intro _ _ _ | intro _ _ | intro _ | apply next_keeps | apply latchCandidate_keeps
    | (extract_lets +onlyGivenNames x; first | refine cut2 (p := Keeps _ x) ?_ (fun _ => ?_) | clear x | skip)
    | split | refine keeps_mk ?_ rfl rfl rfl

theorem loseArbitration_keeps {a : State} (ch : Nat) {s : State} (h : Keeps a s) : Keeps a (loseArbitration ch s) := by
  unfold loseArbitration
  with_reducible repeat' first
    | assumption | intro _ _ _ | intro _ _ | intro _ | apply loseFrame_keeps | apply driveSof_keeps | apply ite_keeps
    | (extract_lets +onlyGivenNames x; first | refine cut2 (p := Keeps _ x) ?_ (fun _ => ?_) | clear x | skip)
    | split | refine keeps_mk ?_ rfl rfl rfl

theorem winArbitration_keeps {a : State} (ch : Nat) {s : State} (h : Keeps a s) : Keeps a (winArbitration ch s) := by
  unfold winArbitration
  with_reducible repeat' first
    | assumption | intro _ _ _ | intro _ _ | intro _ | apply State_modChan_keeps | apply driveSof_keeps | apply countCancel_keeps |
      apply answerCancels_keeps | apply forEach_keeps | apply ite_keeps
    | (extract_lets +onlyGivenNames x; first | refine cut2 (p := Keeps _ x) ?_ (fun _ => ?_) | clear x | skip)
    | split | refine keeps_mk ?_ rfl rfl rfl

theorem claimCell_keeps {a : State} (ch : Nat) {s : State} (h : Keeps a s) : Keeps a (claimCell ch s) := by
  unfold claimCell
  with_reducible repeat' first
    | assumption | intro _ _ _ | intro _ _ | intro _ | apply countHwm_keeps | apply State_modChan_keeps
    | (extract_lets +onlyGivenNames x; first | refine cut2 (p := Keeps _ x) ?_ (fun _ => ?_) | clear x | skip)
    | split | refine keeps_mk ?_ rfl rfl rfl

theorem claimCells_keeps {a : State} (ch first n : Nat) {s : State} (h : Keeps a s) : Keeps a (claimCells ch first n s).1 := by
  induction n generalizing s with
  | zero => exact h
  | succ n ih =>
    unfold claimCells
    split
    · exact ih (claimCell_keeps ch h)
    · exact dropPacket_keeps _ _ _ _ _ (State_modChan_keeps _ _ h)

theorem claimPayload_keeps {a : State} (ch bytes : Nat) {s : State} (h : Keeps a s) : Keeps a (claimPayload ch bytes s) := by
  unfold claimPayload
  split
  · exact h
  · rename_i r _
    have k := claimCells_keeps ch r.first (ceilDiv bytes 64) h
    exact ite_keeps h (ite_keeps (State_modChan_keeps _ _ k) k)

theorem takeHeader_keeps {a : State} (ch : Nat) (x : Hdr) (stamp decision : Nat) {s : State} (h : Keeps a s) :
    Keeps a (takeHeader ch x stamp decision s) := by
  unfold takeHeader
  exact State_modChan_keeps _ _ (claimCells_keeps ch (stampNow s) 1 h)

theorem foreignStart_keeps {a : State} (ch : Nat) (edges : List (Nat × Nat)) {s : State} (h : Keeps a s) : Keeps a (foreignStart ch edges s) := by
  unfold foreignStart
  with_reducible repeat' first
    | assumption | intro _ _ _ | intro _ _ | intro _ | apply State_modChan_keeps | apply reachTime_keeps
    | (extract_lets +onlyGivenNames x; first | refine cut2 (p := Keeps _ x) ?_ (fun _ => ?_) | clear x | skip)
    | split | refine keeps_mk ?_ rfl rfl rfl

theorem headerDone_keeps {a : State} (ch : Nat) (h0 : Hdr) (edges : List (Nat × Nat)) (decision : Nat) {s : State} (h : Keeps a s) : Keeps a (headerDone ch h0 edges decision s) := by
  unfold headerDone
  with_reducible repeat' first
    | assumption | intro _ _ _ | intro _ _ | intro _ | apply takeHeader_keeps | apply endErrorFrame_keeps | apply foreignStart_keeps |
      apply ite_keeps
    | (extract_lets +onlyGivenNames x; first | refine cut2 (p := Keeps _ x) ?_ (fun _ => ?_) | clear x | skip)
    | split | refine keeps_mk ?_ rfl rfl rfl

theorem dropStamp_keeps {a : State} (ch : Nat) {s : State} (h : Keeps a s) : Keeps a (dropStamp ch s) := by
  unfold dropStamp
  with_reducible repeat' first
    | assumption | intro _ _ _ | intro _ _ | intro _ | apply parityDrop_keeps | apply State_modChan_keeps | apply drawn_keeps | apply
      ite_keeps
    | (extract_lets +onlyGivenNames x; first | refine cut2 (p := Keeps _ x) ?_ (fun _ => ?_) | clear x | skip)
    | split | refine keeps_mk ?_ rfl rfl rfl

theorem handOff_keeps {a : State} (n : Nat) (data : List Byte) (path : Nat) (origin : Nat) (rank : Nat) {s : State} (h : Keeps a s) : Keeps a (handOff n data path origin rank s) := by
  unfold handOff
  with_reducible repeat' first
    | assumption | intro _ _ _ | intro _ _ | intro _ | apply State_modLane_keeps
    | (extract_lets +onlyGivenNames x; first | refine cut2 (p := Keeps _ x) ?_ (fun _ => ?_) | clear x | skip)
    | split | refine keeps_mk ?_ rfl rfl rfl

theorem commitPacket_keeps {a : State} (ch : Nat) (f : Frame) {s : State} (h : Keeps a s) : Keeps a (commitPacket ch f s) := by
  unfold commitPacket
  with_reducible repeat' first
    | assumption | intro _ _ _ | intro _ _ | intro _ | apply claimPayload_keeps | apply State_modChan_keeps | apply handOff_keeps |
      apply countPacket_keeps | apply forEach_keeps | apply ite_keeps
    | (extract_lets +onlyGivenNames x; first | refine cut2 (p := Keeps _ x) ?_ (fun _ => ?_) | clear x | skip)
    | split | refine keeps_mk ?_ rfl rfl rfl

theorem countJudged_keeps {a : State} (ch : Nat) (r : RxHeader) {s : State} (h : Keeps a s) : Keeps a (countJudged ch r s) := by
  unfold countJudged
  with_reducible repeat' first
    | assumption | intro _ _ _ | intro _ _ | intro _ | apply State_modChan_keeps | apply modPair_keeps | apply forEach_keeps | apply
      ite_keeps
    | (extract_lets +onlyGivenNames x; first | refine cut2 (p := Keeps _ x) ?_ (fun _ => ?_) | clear x | skip)
    | split | refine keeps_mk ?_ rfl rfl rfl

theorem foreignValid_keeps {a : State} (ch : Nat) (h0 : Hdr) (len : Nat) (stamp : Nat) {s : State} (h : Keeps a s) : Keeps a (foreignValid ch h0 len stamp s) := by
  unfold foreignValid
  with_reducible repeat' first
    | assumption | intro _ _ _ | intro _ _ | intro _ | apply State_modChan_keeps | apply changeCounters_keeps | apply filmRecord_keeps
      | apply judgeForeign_keeps | apply censusFrame_keeps | apply ite_keeps
    | (extract_lets +onlyGivenNames x; first | refine cut2 (p := Keeps _ x) ?_ (fun _ => ?_) | clear x | skip)
    | split | refine keeps_mk ?_ rfl rfl rfl

theorem frameValid_keeps {a : State} (ch : Nat) (len : Nat) (data : List Byte) (parity : Bool) {s : State} (h : Keeps a s) : Keeps a (frameValid ch len data parity s) := by
  unfold frameValid
  with_reducible repeat' first
    | assumption | intro _ _ _ | intro _ _ | intro _ | apply foreignValid_keeps | apply countJudged_keeps | apply parityDrop_keeps |
      apply State_modChan_keeps | apply claimPayload_keeps | apply commitPacket_keeps | apply enterIntermission_keeps | apply
      ite_keeps
    | (extract_lets +onlyGivenNames x; first | refine cut2 (p := Keeps _ x) ?_ (fun _ => ?_) | clear x | skip)
    | split | refine keeps_mk ?_ rfl rfl rfl

theorem execFrameReceived_keeps {a : State} (ch : Fin 64) (len : Fin 2049) (data : List Byte) (parity : Bool) {s : State} (h : Keeps a s) : OKeeps a (execFrameReceived ch len data parity s) := by
  unfold execFrameReceived
  with_reducible repeat' first
    | assumption | intro _ _ _ | intro _ _ | intro _ | apply next_keeps | apply frameValid_keeps
    | (extract_lets +onlyGivenNames x; first | refine cut2 (p := Keeps _ x) ?_ (fun _ => ?_) | clear x | skip)
    | split | refine keeps_mk ?_ rfl rfl rfl

theorem objectData_keeps {a : State} {s : State} (f : Frame) (h : Keeps a s) : Keeps a (objectData s f).2 := by
  unfold objectData
  with_reducible repeat' first
    | assumption | intro _ _ _ | intro _ _ | intro _ | apply drawn_keeps | apply ite_keeps
    | (extract_lets +onlyGivenNames x; first | refine cut2 (p := Keeps _ x) ?_ (fun _ => ?_) | clear x | skip)
    | split | refine keeps_mk ?_ rfl rfl rfl

theorem copyToObject_keeps {a : State} (ch : Nat) (f : Frame) (mo : Nat) (filter : Nat) {s : State} (h : Keeps a s) : Keeps a (copyToObject ch f mo filter s) := by
  unfold copyToObject
  with_reducible repeat' first
    | assumption | intro _ _ _ | intro _ _ | intro _ | apply disabledDrop_keeps | apply objectData_keeps | apply commitReceive_keeps |
      apply ite_keeps
    | (extract_lets +onlyGivenNames x; first | refine cut2 (p := Keeps _ x) ?_ (fun _ => ?_) | clear x | skip)
    | split | refine keeps_mk ?_ rfl rfl rfl

theorem distribute_keeps {a : State} (ch : Nat) {s : State} (h : Keeps a s) : Keeps a (distribute ch s) := by
  unfold distribute
  with_reducible repeat' first
    | assumption | intro _ _ _ | intro _ _ | intro _ | apply copyToObject_keeps | apply pushRx_keeps | apply State_modChan_keeps |
      apply forEach_keeps
    | (extract_lets +onlyGivenNames x; first | refine cut2 (p := Keeps _ x) ?_ (fun _ => ?_) | clear x | skip)
    | split | refine keeps_mk ?_ rfl rfl rfl

theorem dropCopy_keeps {a : State} (ch : Nat) {s : State} (h : Keeps a s) : Keeps a (dropCopy ch s) := by
  unfold dropCopy
  with_reducible repeat' first
    | assumption | intro _ _ _ | intro _ _ | intro _ | apply parityDrop_keeps | apply State_modChan_keeps | apply ite_keeps
    | (extract_lets +onlyGivenNames x; first | refine cut2 (p := Keeps _ x) ?_ (fun _ => ?_) | clear x | skip)
    | split | refine keeps_mk ?_ rfl rfl rfl

theorem execDistributorCopy_keeps {a : State} (ch : Fin 64) (parity : Bool) {s : State} (h : Keeps a s) : OKeeps a (execDistributorCopy ch parity s) := by
  unfold execDistributorCopy
  with_reducible repeat' first
    | assumption | intro _ _ _ | intro _ _ | intro _ | apply next_keeps | apply dropCopy_keeps | apply distribute_keeps | apply
      ite_okeeps | apply ite_keeps
    | (extract_lets +onlyGivenNames x; first | refine cut2 (p := Keeps _ x) ?_ (fun _ => ?_) | clear x | skip)
    | split | refine keeps_mk ?_ rfl rfl rfl

theorem ownEnds_keeps {a : State} (ch : Nat) {s : State} (h : Keeps a s) : Keeps a (ownEnds ch s) := by
  unfold ownEnds
  with_reducible repeat' first
    | assumption | intro _ _ _ | intro _ _ | intro _ | apply State_modChan_keeps | apply enterIntermission_keeps | apply
      rewindRx_keeps
    | (extract_lets +onlyGivenNames x; first | refine cut2 (p := Keeps _ x) ?_ (fun _ => ?_) | clear x | skip)
    | split | refine keeps_mk ?_ rfl rfl rfl

theorem emitFrame_keeps {a : State} (ch : Nat) {s : State} (h : Keeps a s) : Keeps a (emitFrame ch s) := by
  unfold emitFrame
  with_reducible repeat' first
    | assumption | intro _ _ _ | intro _ _ | intro _ | apply State_emit_keeps | apply ite_keeps
    | (extract_lets +onlyGivenNames x; first | refine cut2 (p := Keeps _ x) ?_ (fun _ => ?_) | clear x | skip)
    | split | refine keeps_mk ?_ rfl rfl rfl

theorem sendSuccess_keeps {a : State} (ch : Nat) (acked : Bool) (tdcv : Option (Fin 128)) {s : State} (h : Keeps a s) : Keeps a (sendSuccess ch acked tdcv s) := by
  unfold sendSuccess
  with_reducible repeat' first
    | assumption | intro _ _ _ | intro _ _ | intro _ | apply emitFrame_keeps | apply noteStart_keeps | apply noteTdcv_keeps | apply
      State_modChan_keeps | apply changeCounters_keeps | apply ackSeen_keeps | apply filmOwn_keeps | apply judgeUndeclaredOwn_keeps |
      apply endSent_keeps | apply ownEnds_keeps | apply ite_keeps
    | (extract_lets +onlyGivenNames x; first | refine cut2 (p := Keeps _ x) ?_ (fun _ => ?_) | clear x | skip)
    | split | refine keeps_mk ?_ rfl rfl rfl

theorem execTransmitSuccess_keeps {a : State} (ch : Fin 64) (acked : Bool) (tdcv : Option (Fin 128)) {s : State} (h : Keeps a s) : OKeeps a (execTransmitSuccess ch acked tdcv s) := by
  unfold execTransmitSuccess
  with_reducible repeat' first
    | assumption | intro _ _ _ | intro _ _ | intro _ | apply next_keeps | apply sendSuccess_keeps
    | (extract_lets +onlyGivenNames x; first | refine cut2 (p := Keeps _ x) ?_ (fun _ => ?_) | clear x | skip)
    | split | refine keeps_mk ?_ rfl rfl rfl

theorem failAttempt_keeps {a : State} (ch : Nat) (tdcv : Option (Fin 128)) {s : State} (h : Keeps a s) : Keeps a (failAttempt ch tdcv s) := by
  unfold failAttempt
  with_reducible repeat' first
    | assumption | intro _ _ _ | intro _ _ | intro _ | apply ownEnds_keeps | apply endFailed_keeps | apply noteTdcv_keeps | apply
      ite_keeps
    | (extract_lets +onlyGivenNames x; first | refine cut2 (p := Keeps _ x) ?_ (fun _ => ?_) | clear x | skip)
    | split | refine keeps_mk ?_ rfl rfl rfl

theorem execAttemptFailed_keeps {a : State} (ch : Fin 64) (tdcv : Option (Fin 128)) {s : State} (h : Keeps a s) : OKeeps a (execAttemptFailed ch tdcv s) := by
  unfold execAttemptFailed
  with_reducible repeat' first
    | assumption | intro _ _ _ | intro _ _ | intro _ | apply next_keeps | apply failAttempt_keeps
    | (extract_lets +onlyGivenNames x; first | refine cut2 (p := Keeps _ x) ?_ (fun _ => ?_) | clear x | skip)
    | split | refine keeps_mk ?_ rfl rfl rfl

theorem errorEvent_keeps {a : State} (ch : Nat) {s : State} (h : Keeps a s) : Keeps a (errorEvent ch s) := by
  unfold errorEvent
  with_reducible repeat' first
    | assumption | intro _ _ _ | intro _ _ | intro _ | apply State_modChan_keeps | apply budgetEvent_keeps | apply ite_keeps
    | (extract_lets +onlyGivenNames x; first | refine cut2 (p := Keeps _ x) ?_ (fun _ => ?_) | clear x | skip)
    | split | refine keeps_mk ?_ rfl rfl rfl

theorem recordError_keeps {a : State} (ch : Nat) (code : ErrCode) (field : FieldCode) (ed : Bool) (row : ErrRow) (tx : Bool) {s : State} (h : Keeps a s) : Keeps a (recordError ch code field ed row tx s) := by
  unfold recordError
  with_reducible repeat' first
    | assumption | intro _ _ _ | intro _ _ | intro _ | apply State_modChan_keeps | apply errorEvent_keeps | apply changeCounters_keeps
      | apply filmRecord_keeps | apply ite_keeps
    | (extract_lets +onlyGivenNames x; first | refine cut2 (p := Keeps _ x) ?_ (fun _ => ?_) | clear x | skip)
    | split | refine keeps_mk ?_ rfl rfl rfl

theorem busError_keeps {a : State} (ch : Nat) (code : ErrCode) (field : FieldCode) (ed : Bool) (row : ErrRow) (acked : Bool) (bytes : Nat) (tdcv : Option (Fin 128)) {s : State} (h : Keeps a s) : Keeps a (busError ch code field ed row acked bytes tdcv s) := by
  unfold busError
  with_reducible repeat' first
    | assumption | intro _ _ _ | intro _ _ | intro _ | apply judgeBusOff_keeps | apply changeCounters_keeps | apply noteTdcv_keeps |
      apply ackSeen_keeps | apply recordError_keeps | apply ackMissed_keeps | apply rewindRx_keeps | apply claimPayload_keeps | apply
      leaveBus_keeps | apply State_modChan_keeps | apply ite_keeps
    | (extract_lets +onlyGivenNames x; first | refine cut2 (p := Keeps _ x) ?_ (fun _ => ?_) | clear x | skip)
    | split | refine keeps_mk ?_ rfl rfl rfl

theorem watchedError_keeps {a : State} (ch : Nat) {s : State} (h : Keeps a s) : Keeps a (watchedError ch s) := by
  unfold watchedError
  with_reducible repeat' first
    | assumption | intro _ _ _ | intro _ _ | intro _ | apply errorEvent_keeps | apply ite_keeps
    | (extract_lets +onlyGivenNames x; first | refine cut2 (p := Keeps _ x) ?_ (fun _ => ?_) | clear x | skip)
    | split | refine keeps_mk ?_ rfl rfl rfl

theorem driveForError_keeps {a : State} (ch : Nat) (field : FieldCode) {s : State} (h : Keeps a s) : Keeps a (driveForError ch field s) := by
  unfold driveForError
  with_reducible repeat' first
    | assumption | intro _ _ _ | intro _ _ | intro _ | apply driveSof_keeps | apply ite_keeps
    | (extract_lets +onlyGivenNames x; first | refine cut2 (p := Keeps _ x) ?_ (fun _ => ?_) | clear x | skip)
    | split | refine keeps_mk ?_ rfl rfl rfl

theorem startForError_keeps {a : State} (ch : Nat) (field : FieldCode) (edges : List (Nat × Nat)) {s : State} (h : Keeps a s) : Keeps a (startForError ch field edges s) := by
  unfold startForError
  with_reducible repeat' first
    | assumption | intro _ _ _ | intro _ _ | intro _ | apply endErrorFrame_keeps | apply foreignStart_keeps | apply ite_keeps
    | (extract_lets +onlyGivenNames x; first | refine cut2 (p := Keeps _ x) ?_ (fun _ => ?_) | clear x | skip)
    | split | refine keeps_mk ?_ rfl rfl rfl

theorem errorSeen_keeps {a : State} (ch : Nat) (code : ErrCode) (field : FieldCode) (ed : Bool) (row : ErrRow) (acked : Bool) (bytes : Nat) (tdcv : Option (Fin 128)) (edges : List (Nat × Nat)) {s : State} (h : Keeps a s) : Keeps a (errorSeen ch code field ed row acked bytes tdcv edges s) := by
  unfold errorSeen
  with_reducible repeat' first
    | assumption | intro _ _ _ | intro _ _ | intro _ | apply startForError_keeps | apply driveForError_keeps | apply busError_keeps |
      apply watchedError_keeps | apply ite_keeps
    | (extract_lets +onlyGivenNames x; first | refine cut2 (p := Keeps _ x) ?_ (fun _ => ?_) | clear x | skip)
    | split | refine keeps_mk ?_ rfl rfl rfl

theorem execOverloadFrameSeen_keeps {a : State} (ch : Fin 64) {s : State} (h : Keeps a s) : OKeeps a (execOverloadFrameSeen ch s) := by
  unfold execOverloadFrameSeen
  with_reducible repeat' first
    | assumption | intro _ _ _ | intro _ _ | intro _ | apply next_keeps | apply endErrorFrame_keeps | apply filmRecord_keeps | apply
      State_modChan_keeps | apply ite_okeeps | apply ite_keeps
    | (extract_lets +onlyGivenNames x; first | refine cut2 (p := Keeps _ x) ?_ (fun _ => ?_) | clear x | skip)
    | split | refine keeps_mk ?_ rfl rfl rfl

theorem fastLost_keeps {a : State} (ch : Nat) (edges : List (Nat × Nat)) {s : State} (h : Keeps a s) : Keeps a (fastLost ch edges s) := by
  unfold fastLost
  with_reducible repeat' first
    | assumption | intro _ _ _ | intro _ _ | intro _ | apply endErrorFrame_keeps | apply foreignStart_keeps | apply
      State_modChan_keeps | apply modStat_keeps | apply leaveBus_keeps | apply ite_keeps
    | (extract_lets +onlyGivenNames x; first | refine cut2 (p := Keeps _ x) ?_ (fun _ => ?_) | clear x | skip)
    | split | refine keeps_mk ?_ rfl rfl rfl

theorem protocolException_keeps {a : State} (ch : Nat) (edges : List (Nat × Nat)) {s : State} (h : Keeps a s) : Keeps a (protocolException ch edges s) := by
  unfold protocolException
  with_reducible repeat' first
    | assumption | intro _ _ _ | intro _ _ | intro _ | apply endErrorFrame_keeps | apply foreignStart_keeps | apply
      State_modChan_keeps | apply enterState_keeps | apply leaveBus_keeps | apply ite_keeps
    | (extract_lets +onlyGivenNames x; first | refine cut2 (p := Keeps _ x) ?_ (fun _ => ?_) | clear x | skip)
    | split | refine keeps_mk ?_ rfl rfl rfl

theorem integrate_keeps {a : State} (ch : Nat) {s : State} (h : Keeps a s) : Keeps a (integrate ch s) := by
  unfold integrate
  with_reducible repeat' first
    | assumption | intro _ _ _ | intro _ _ | intro _ | apply takeSettings_keeps | apply State_modChan_keeps | apply enterState_keeps |
      apply ite_keeps
    | (extract_lets +onlyGivenNames x; first | refine cut2 (p := Keeps _ x) ?_ (fun _ => ?_) | clear x | skip)
    | split | refine keeps_mk ?_ rfl rfl rfl

theorem execBusIntegrationComplete_keeps {a : State} (ch : Fin 64) {s : State} (h : Keeps a s) : OKeeps a (execBusIntegrationComplete ch s) := by
  unfold execBusIntegrationComplete
  with_reducible repeat' first
    | assumption | intro _ _ _ | intro _ _ | intro _ | apply next_keeps | apply integrate_keeps
    | (extract_lets +onlyGivenNames x; first | refine cut2 (p := Keeps _ x) ?_ (fun _ => ?_) | clear x | skip)
    | split | refine keeps_mk ?_ rfl rfl rfl

theorem stopEnds_keeps {a : State} (ch : Nat) {s : State} (h : Keeps a s) : Keeps a (stopEnds ch s) := by
  unfold stopEnds
  with_reducible repeat' first
    | assumption | intro _ _ _ | intro _ _ | intro _ | apply endStop_keeps | apply enterIntermission_keeps | apply ite_keeps
    | (extract_lets +onlyGivenNames x; first | refine cut2 (p := Keeps _ x) ?_ (fun _ => ?_) | clear x | skip)
    | split | refine keeps_mk ?_ rfl rfl rfl

theorem execAutoDelayExpiry_keeps {a : State} (ch : Fin 64) {s : State} (h : Keeps a s) : OKeeps a (execAutoDelayExpiry ch s) := by
  unfold execAutoDelayExpiry
  with_reducible repeat' first
    | assumption | intro _ _ _ | intro _ _ | intro _ | apply next_keeps | apply startRecovery_keeps | apply reachClk_keeps | apply
      ite_okeeps | apply ite_keeps
    | (extract_lets +onlyGivenNames x; first | refine cut2 (p := Keeps _ x) ?_ (fun _ => ?_) | clear x | skip)
    | split | refine keeps_mk ?_ rfl rfl rfl

theorem execRecessiveSequenceCounted_keeps {a : State} (ch : Fin 64) {s : State} (h : Keeps a s) : OKeeps a (execRecessiveSequenceCounted ch s) := by
  unfold execRecessiveSequenceCounted
  with_reducible repeat' first
    | assumption | intro _ _ _ | intro _ _ | intro _ | apply next_keeps | apply State_modChan_keeps | apply ite_okeeps | apply
      ite_keeps
    | (extract_lets +onlyGivenNames x; first | refine cut2 (p := Keeps _ x) ?_ (fun _ => ?_) | clear x | skip)
    | split | refine keeps_mk ?_ rfl rfl rfl

theorem recoveryDone_keeps {a : State} (ch : Nat) {s : State} (h : Keeps a s) : Keeps a (recoveryDone ch s) := by
  unfold recoveryDone
  with_reducible repeat' first
    | assumption | intro _ _ _ | intro _ _ | intro _ | apply changeCounters_keeps | apply State_modChan_keeps | apply judgeMode_keeps
      | apply enterState_keeps
    | (extract_lets +onlyGivenNames x; first | refine cut2 (p := Keeps _ x) ?_ (fun _ => ?_) | clear x | skip)
    | split | refine keeps_mk ?_ rfl rfl rfl

theorem execRecoveryComplete_keeps {a : State} (ch : Fin 64) {s : State} (h : Keeps a s) : OKeeps a (execRecoveryComplete ch s) := by
  unfold execRecoveryComplete
  with_reducible repeat' first
    | assumption | intro _ _ _ | intro _ _ | intro _ | apply next_keeps | apply recoveryDone_keeps | apply ite_okeeps | apply
      ite_keeps
    | (extract_lets +onlyGivenNames x; first | refine cut2 (p := Keeps _ x) ?_ (fun _ => ?_) | clear x | skip)
    | split | refine keeps_mk ?_ rfl rfl rfl

end Sys2Proof.Machine
end

