-- ==== Sys2Proof/Laws/KeepsPlan.lean ====
section
/-!
SUPPORT. The commands of channels, objects, filters, queues, time and admission keep the queue, the straps and the fault log sound.
-/

namespace Sys2Proof.Machine

set_option linter.all false

/-! ### Admission -/

theorem syncStreams_keeps {a : State} {s : State} (h : Keeps a s) : Keeps a (syncStreams s) := by
  unfold syncStreams
  with_reducible repeat' first
    | assumption | intro _ _ _ | intro _ _ | intro _ | apply ite_keeps
    | (extract_lets +onlyGivenNames x; first | refine cut2 (p := Keeps _ x) ?_ (fun _ => ?_) | clear x | skip)
    | split | refine keeps_mk ?_ rfl rfl rfl | refine keeps_tab ?_ rfl rfl rfl ?_ ?_ ?_ ?_ ?_ ?_ | apply rising_mset | apply rising_mdel | apply rising_mmod | refine rising_map (fun _ => ?_) ?_ | rfl

theorem refigure_keeps {a : State} (touched : List Nat) {s : State} (h : Keeps a s) : Keeps a (refigure touched s) := by
  unfold refigure
  with_reducible repeat' first
    | assumption | intro _ _ _ | intro _ _ | intro _ | apply syncStreams_keeps | apply modRec_keeps | apply State_modMon_keeps | apply
      forEach_keeps | apply ite_keeps
    | (extract_lets +onlyGivenNames x; first | refine cut2 (p := Keeps _ x) ?_ (fun _ => ?_) | clear x | skip)
    | split | refine keeps_mk ?_ rfl rfl rfl

/-! ### Develop -/

theorem streamBathEvent_keeps {a : State} (code : Nat) (n : Nat) (src : Source) {s : State} (h : Keeps a s) : Keeps a (streamBathEvent code n src s) := by
  unfold streamBathEvent
  with_reducible repeat' first
    | assumption | intro _ _ _ | intro _ _ | intro _ | apply raiseEvent_keeps
    | (extract_lets +onlyGivenNames x; first | refine cut2 (p := Keeps _ x) ?_ (fun _ => ?_) | clear x | skip)
    | split | refine keeps_mk ?_ rfl rfl rfl

theorem scheduleEvent_keeps {a : State} (mo : Nat) (reason : Nat) (missed : Nat) {s : State} (h : Keeps a s) : Keeps a (scheduleEvent mo reason missed s) := by
  unfold scheduleEvent
  with_reducible repeat' first
    | assumption | intro _ _ _ | intro _ _ | intro _ | apply raiseEvents_keeps
    | (extract_lets +onlyGivenNames x; first | refine cut2 (p := Keeps _ x) ?_ (fun _ => ?_) | clear x | skip)
    | split | refine keeps_mk ?_ rfl rfl rfl

theorem clearTimed_keeps {a : State} (mo : Nat) {s : State} (h : Keeps a s) : Keeps a (clearTimed mo s) := by
  unfold clearTimed
  with_reducible repeat' first
    | assumption | intro _ _ _ | intro _ _ | intro _ | apply State_modMo_keeps
    | (extract_lets +onlyGivenNames x; first | refine cut2 (p := Keeps _ x) ?_ (fun _ => ?_) | clear x | skip)
    | split | refine keeps_mk ?_ rfl rfl rfl

theorem finishSchedule_keeps {a : State} (mo : Nat) (reason : Nat) (missed : Nat) {s : State} (h : Keeps a s) : Keeps a (finishSchedule mo reason missed s) := by
  unfold finishSchedule
  with_reducible repeat' first
    | assumption | intro _ _ _ | intro _ _ | intro _ | apply scheduleEvent_keeps | apply clearTimed_keeps
    | (extract_lets +onlyGivenNames x; first | refine cut2 (p := Keeps _ x) ?_ (fun _ => ?_) | clear x | skip)
    | split | refine keeps_mk ?_ rfl rfl rfl | refine keeps_tab ?_ rfl rfl rfl ?_ ?_ ?_ ?_ ?_ ?_ | apply rising_mset | apply rising_mdel | apply rising_mmod | refine rising_map (fun _ => ?_) ?_ | rfl

theorem startSchedule_keeps {a : State} (mo : Nat) {s : State} (h : Keeps a s) : Keeps a (startSchedule mo s) := by
  unfold startSchedule
  with_reducible repeat' first
    | assumption | intro _ _ _ | intro _ _ | intro _ | apply finishSchedule_keeps
    | (extract_lets +onlyGivenNames x; first | refine cut2 (p := Keeps _ x) ?_ (fun _ => ?_) | clear x | skip)
    | split | refine keeps_mk ?_ rfl rfl rfl | refine keeps_tab ?_ rfl rfl rfl ?_ ?_ ?_ ?_ ?_ ?_ | apply rising_mset | apply rising_mdel | apply rising_mmod | refine rising_map (fun _ => ?_) ?_ | rfl

theorem restartSchedules_keeps {a : State} (ch : Nat) {s : State} (h : Keeps a s) : Keeps a (restartSchedules ch s) := by
  unfold restartSchedules
  with_reducible repeat' first
    | assumption | intro _ _ _ | intro _ _ | intro _ | apply startSchedule_keeps | apply forEach_keeps | apply ite_keeps
    | (extract_lets +onlyGivenNames x; first | refine cut2 (p := Keeps _ x) ?_ (fun _ => ?_) | clear x | skip)
    | split | refine keeps_mk ?_ rfl rfl rfl

theorem developWithdraw_keeps {a : State} (n : Nat) (by_ : Source) {s : State} (h : Keeps a s) : Keeps a (developWithdraw n by_ s) := by
  unfold developWithdraw
  with_reducible repeat' first
    | assumption | intro _ _ _ | intro _ _ | intro _ | apply streamBathEvent_keeps | apply modRec_keeps | apply withdrawRec_keeps |
      apply ite_keeps
    | (extract_lets +onlyGivenNames x; first | refine cut2 (p := Keeps _ x) ?_ (fun _ => ?_) | clear x | skip)
    | split | refine keeps_mk ?_ rfl rfl rfl

theorem cancelHeldDecls_keeps {a : State} (x0 : Nat) (l : List Change) {s : State} (h : Keeps a s) : Keeps a (cancelHeldDecls x0 l s) := by
  unfold cancelHeldDecls
  with_reducible repeat' first
    | assumption | intro _ _ _ | intro _ _ | intro _ | apply streamBathEvent_keeps | apply forEach_keeps | apply ite_keeps
    | (extract_lets +onlyGivenNames x; first | refine cut2 (p := Keeps _ x) ?_ (fun _ => ?_) | clear x | skip)
    | split | refine keeps_mk ?_ rfl rfl rfl

theorem dropLatent_keeps {a : State} (x0 : Nat) {s : State} (h : Keeps a s) : Keeps a (dropLatent x0 s) := by
  unfold dropLatent
  with_reducible repeat' first
    | assumption | intro _ _ _ | intro _ _ | intro _ | apply cancelHeldDecls_keeps | apply State_modCtx_keeps | apply ite_keeps
    | (extract_lets +onlyGivenNames x; first | refine cut2 (p := Keeps _ x) ?_ (fun _ => ?_) | clear x | skip)
    | split | refine keeps_mk ?_ rfl rfl rfl

theorem endSchedule_keeps {a : State} (mo : Nat) {s : State} (h : Keeps a s) : Keeps a (endSchedule mo s) := by
  unfold endSchedule
  with_reducible repeat' first
    | assumption | intro _ _ _ | intro _ _ | intro _ | apply clearTimed_keeps
    | (extract_lets +onlyGivenNames x; first | refine cut2 (p := Keeps _ x) ?_ (fun _ => ?_) | clear x | skip)
    | split | refine keeps_mk ?_ rfl rfl rfl | refine keeps_tab ?_ rfl rfl rfl ?_ ?_ ?_ ?_ ?_ ?_ | apply rising_mset | apply rising_mdel | apply rising_mmod | refine rising_map (fun _ => ?_) ?_ | rfl

theorem developSchedule_keeps {a : State} (mo : Nat) {s : State} (h : Keeps a s) : Keeps a (developSchedule mo s) := by
  unfold developSchedule
  with_reducible repeat' first
    | assumption | intro _ _ _ | intro _ _ | intro _ | apply startSchedule_keeps | apply ite_keeps
    | (extract_lets +onlyGivenNames x; first | refine cut2 (p := Keeps _ x) ?_ (fun _ => ?_) | clear x | skip)
    | split | refine keeps_mk ?_ rfl rfl rfl | refine keeps_tab ?_ rfl rfl rfl ?_ ?_ ?_ ?_ ?_ ?_ | apply rising_mset | apply rising_mdel | apply rising_mmod | refine rising_map (fun _ => ?_) ?_ | rfl

theorem developFree_keeps {a : State} (mo : Nat) {s : State} (h : Keeps a s) : Keeps a (developFree mo s) := by
  unfold developFree
  with_reducible repeat' first
    | assumption | intro _ _ _ | intro _ _ | intro _ | apply endLockTorn_keeps | apply cancelObject_keeps | apply State_modMo_keeps |
      apply ite_keeps
    | (extract_lets +onlyGivenNames x; first | refine cut2 (p := Keeps _ x) ?_ (fun _ => ?_) | clear x | skip)
    | split | refine keeps_mk ?_ rfl rfl rfl | refine keeps_tab ?_ rfl rfl rfl ?_ ?_ ?_ ?_ ?_ ?_ | apply rising_mset | apply rising_mdel | apply rising_mmod | refine rising_map (fun _ => ?_) ?_ | rfl

theorem developPin_keeps {a : State} (pin : Nat) {s : State} (h : Keeps a s) : Keeps a (developPin pin s) := by
  unfold developPin
  with_reducible repeat' first
    | assumption | intro _ _ _ | intro _ _ | intro _ | apply modStat_keeps | apply fcEvent_keeps | apply ite_keeps
    | (extract_lets +onlyGivenNames x; first | refine cut2 (p := Keeps _ x) ?_ (fun _ => ?_) | clear x | skip)
    | split | refine keeps_mk ?_ rfl rfl rfl

theorem developTrigger_keeps {a : State} (unit : Nat) {s : State} (h : Keeps a s) : Keeps a (developTrigger unit s) := by
  unfold developTrigger
  with_reducible repeat' first
    | assumption | intro _ _ _ | intro _ _ | intro _ | apply State_modTrigger_keeps | apply ite_keeps
    | (extract_lets +onlyGivenNames x; first | refine cut2 (p := Keeps _ x) ?_ (fun _ => ?_) | clear x | skip)
    | split | refine keeps_mk ?_ rfl rfl rfl

theorem releaseBarred_keeps {a : State} (ch : Nat) {s : State} (h : Keeps a s) : Keeps a (releaseBarred ch s) := by
  unfold releaseBarred
  with_reducible repeat' first
    | assumption | intro _ _ _ | intro _ _ | intro _ | apply endUnsent_keeps | apply ite_keeps
    | (extract_lets +onlyGivenNames x; first | refine cut2 (p := Keeps _ x) ?_ (fun _ => ?_) | clear x | skip)
    | split | refine keeps_mk ?_ rfl rfl rfl

theorem applyOne_keeps {a : State} (x0 : Nat) {s : State} (c : Change) (h : Keeps a s) : Keeps a (applyOne x0 s c) := by
  unfold applyOne
  with_reducible repeat' first
    | assumption | intro _ _ _ | intro _ _ | intro _ | apply judgeMode_keeps | apply releaseBarred_keeps | apply writeDown_keeps |
      apply endLockTorn_keeps | apply cancelObject_keeps | apply developFree_keeps | apply developPin_keeps | apply
      developSchedule_keeps | apply endSchedule_keeps | apply developTrigger_keeps | apply developWithdraw_keeps | apply
      developCvu_keeps | apply ite_keeps
    | (extract_lets +onlyGivenNames x; first | refine cut2 (p := Keeps _ x) ?_ (fun _ => ?_) | clear x | skip)
    | split | refine keeps_mk ?_ rfl rfl rfl

theorem settleSources_keeps {a : State} (l : List Change) {s : State} (h : Keeps a s) : Keeps a (settleSources l s) := by
  unfold settleSources
  with_reducible repeat' first
    | assumption | intro _ _ _ | intro _ _ | intro _ | apply forEach_keeps
    | (extract_lets +onlyGivenNames x; first | refine cut2 (p := Keeps _ x) ?_ (fun _ => ?_) | clear x | skip)
    | split | refine keeps_mk ?_ rfl rfl rfl | refine keeps_tab ?_ rfl rfl rfl ?_ ?_ ?_ ?_ ?_ ?_ | apply rising_mset | apply rising_mdel | apply rising_mmod | refine rising_map (fun _ => ?_) ?_ | rfl

theorem applyAll_keeps {a : State} (x0 : Nat) (l : List Change) {s : State} (h : Keeps a s) : Keeps a (applyAll x0 l s) := by
  unfold applyAll
  with_reducible repeat' first
    | assumption | intro _ _ _ | intro _ _ | intro _ | apply settleSources_keeps | apply applyOne_keeps | apply refigure_keeps | apply
      foldl_keeps | apply ite_keeps
    | (extract_lets +onlyGivenNames x; first | refine cut2 (p := Keeps _ x) ?_ (fun _ => ?_) | clear x | skip)
    | split | refine keeps_mk ?_ rfl rfl rfl

theorem developView_keeps {a : State} {s : State} (x0 : Nat) (h : Keeps a s) : Keeps a (developView s x0) := by
  unfold developView
  with_reducible repeat' first
    | assumption | intro _ _ _ | intro _ _ | intro _ | apply writeAll_keeps | apply foldl_keeps
    | (extract_lets +onlyGivenNames x; first | refine cut2 (p := Keeps _ x) ?_ (fun _ => ?_) | clear x | skip)
    | split | refine keeps_mk ?_ rfl rfl rfl

theorem developEvent_keeps {a : State} (code : Nat) (x0 : Nat) (b1 : Nat) (seq : Nat) {s : State} (h : Keeps a s) : Keeps a (developEvent code x0 b1 seq s) := by
  unfold developEvent
  with_reducible repeat' first
    | assumption | intro _ _ _ | intro _ _ | intro _ | apply raiseEvent_keeps
    | (extract_lets +onlyGivenNames x; first | refine cut2 (p := Keeps _ x) ?_ (fun _ => ?_) | clear x | skip)
    | split | refine keeps_mk ?_ rfl rfl rfl

theorem bundleGoes_keeps {a : State} (x0 : Nat) {s : State} (h : Keeps a s) : Keeps a (bundleGoes x0 s) := by
  unfold bundleGoes
  with_reducible repeat' first
    | assumption | intro _ _ _ | intro _ _ | intro _ | apply ite_keeps
    | (extract_lets +onlyGivenNames x; first | refine cut2 (p := Keeps _ x) ?_ (fun _ => ?_) | clear x | skip)
    | split | refine keeps_mk ?_ rfl rfl rfl

theorem switchArmed_keeps {a : State} (x0 : Nat) {s : State} (h : Keeps a s) : Keeps a (switchArmed x0 s) := by
  unfold switchArmed
  with_reducible repeat' first
    | assumption | intro _ _ _ | intro _ _ | intro _ | apply State_modCtx_keeps | apply developEvent_keeps | apply bundleGoes_keeps |
      apply applyAll_keeps
    | (extract_lets +onlyGivenNames x; first | refine cut2 (p := Keeps _ x) ?_ (fun _ => ?_) | clear x | skip)
    | split | refine keeps_mk ?_ rfl rfl rfl

theorem switchDue_keeps {a : State} {s : State} (h : Keeps a s) : Keeps a (switchDue s) := by
  unfold switchDue
  with_reducible repeat' first
    | assumption | intro _ _ _ | intro _ _ | intro _ | apply switchArmed_keeps | apply forEach_keeps
    | (extract_lets +onlyGivenNames x; first | refine cut2 (p := Keeps _ x) ?_ (fun _ => ?_) | clear x | skip)
    | split | refine keeps_mk ?_ rfl rfl rfl

theorem execDevelopSwitch_keeps {a : State} (instant : Nat) {s : State} (h : Keeps a s) : OKeeps a (execDevelopSwitch instant s) := by
  unfold execDevelopSwitch
  with_reducible repeat' first
    | assumption | intro _ _ _ | intro _ _ | intro _ | apply next_keeps | apply switchDue_keeps | apply reachTime_keeps | apply
      ite_okeeps | apply ite_keeps
    | (extract_lets +onlyGivenNames x; first | refine cut2 (p := Keeps _ x) ?_ (fun _ => ?_) | clear x | skip)
    | split | refine keeps_mk ?_ rfl rfl rfl

theorem finishWhen2_keeps {a : State} (x0 : Nat) {s : State} (h : Keeps a s) : Keeps a (finishWhen2 x0 s) := by
  unfold finishWhen2
  with_reducible repeat' first
    | assumption | intro _ _ _ | intro _ _ | intro _ | apply developEvent_keeps | apply bundleGoes_keeps | apply State_modCtx_keeps |
      apply ite_keeps
    | (extract_lets +onlyGivenNames x; first | refine cut2 (p := Keeps _ x) ?_ (fun _ => ?_) | clear x | skip)
    | split | refine keeps_mk ?_ rfl rfl rfl

theorem switchChan_keeps {a : State} (x0 : Nat) (ch : Nat) (forced : Bool) {s : State} (h : Keeps a s) : Keeps a (switchChan x0 ch forced s) := by
  unfold switchChan
  with_reducible repeat' first
    | assumption | intro _ _ _ | intro _ _ | intro _ | apply State_modCtx_keeps | apply applyAll_keeps | apply developEvent_keeps |
      apply finishWhen2_keeps | apply ite_keeps
    | (extract_lets +onlyGivenNames x; first | refine cut2 (p := Keeps _ x) ?_ (fun _ => ?_) | clear x | skip)
    | split | refine keeps_mk ?_ rfl rfl rfl

theorem switchIdle_keeps {a : State} (ch : Nat) {s : State} (h : Keeps a s) : Keeps a (switchIdle ch s) := by
  unfold switchIdle
  with_reducible repeat' first
    | assumption | intro _ _ _ | intro _ _ | intro _ | apply switchChan_keeps | apply forEach_keeps
    | (extract_lets +onlyGivenNames x; first | refine cut2 (p := Keeps _ x) ?_ (fun _ => ?_) | clear x | skip)
    | split | refine keeps_mk ?_ rfl rfl rfl

theorem switchLate_keeps {a : State} (ch : Nat) {s : State} (h : Keeps a s) : Keeps a (switchLate ch s) := by
  unfold switchLate
  with_reducible repeat' first
    | assumption | intro _ _ _ | intro _ _ | intro _ | apply switchChan_keeps | apply forEach_keeps
    | (extract_lets +onlyGivenNames x; first | refine cut2 (p := Keeps _ x) ?_ (fun _ => ?_) | clear x | skip)
    | split | refine keeps_mk ?_ rfl rfl rfl

theorem execBusIdle_keeps {a : State} (ch : Fin 64) {s : State} (h : Keeps a s) : OKeeps a (execBusIdle ch s) := by
  unfold execBusIdle
  with_reducible repeat' first
    | assumption | intro _ _ _ | intro _ _ | intro _ | apply next_keeps | apply State_modChan_keeps | apply enterIntermission_keeps |
      apply switchIdle_keeps | apply switchLate_keeps | apply ite_okeeps | apply ite_keeps
    | (extract_lets +onlyGivenNames x; first | refine cut2 (p := Keeps _ x) ?_ (fun _ => ?_) | clear x | skip)
    | split | refine keeps_mk ?_ rfl rfl rfl

theorem execIdleLimitExpiry_keeps {a : State} (c : Fin 64) (ch : Fin 64) {s : State} (h : Keeps a s) : OKeeps a (execIdleLimitExpiry c ch s) := by
  unfold execIdleLimitExpiry
  with_reducible repeat' first
    | assumption | intro _ _ _ | intro _ _ | intro _ | apply next_keeps | apply reachClk_keeps | apply switchChan_keeps | apply
      State_modCtx_keeps | apply ite_okeeps | apply ite_keeps
    | (extract_lets +onlyGivenNames x; first | refine cut2 (p := Keeps _ x) ?_ (fun _ => ?_) | clear x | skip)
    | split | refine keeps_mk ?_ rfl rfl rfl

theorem frameStarts_keeps {a : State} (ch : Nat) {s : State} (h : Keeps a s) : Keeps a (frameStarts ch s) := by
  unfold frameStarts
  with_reducible repeat' first
    | assumption | intro _ _ _ | intro _ _ | intro _ | apply switchLate_keeps | apply endErrorFrame_keeps | apply ite_keeps
    | (extract_lets +onlyGivenNames x; first | refine cut2 (p := Keeps _ x) ?_ (fun _ => ?_) | clear x | skip)
    | split | refine keeps_mk ?_ rfl rfl rfl

theorem execHeaderComplete_keeps {a : State} (ch : Fin 64) (hdr : Hdr) (edges : List (Nat × Nat)) (decision : Fin 3001) (parity : Bool) {s : State} (h : Keeps a s) : OKeeps a (execHeaderComplete ch hdr edges decision parity s) := by
  unfold execHeaderComplete
  with_reducible repeat' first
    | assumption | intro _ _ _ | intro _ _ | intro _ | apply headerDone_keeps | apply frameStarts_keeps | apply next_keeps | apply
      dropStamp_keeps | apply ite_okeeps | apply ite_keeps
    | (extract_lets +onlyGivenNames x; first | refine cut2 (p := Keeps _ x) ?_ (fun _ => ?_) | clear x | skip)
    | split | refine keeps_mk ?_ rfl rfl rfl

theorem execArbitrationLost_keeps {a : State} (ch : Fin 64) {s : State} (h : Keeps a s) : OKeeps a (execArbitrationLost ch s) := by
  unfold execArbitrationLost
  with_reducible repeat' first
    | assumption | intro _ _ _ | intro _ _ | intro _ | apply next_keeps | apply loseArbitration_keeps | apply frameStarts_keeps
    | (extract_lets +onlyGivenNames x; first | refine cut2 (p := Keeps _ x) ?_ (fun _ => ?_) | clear x | skip)
    | split | refine keeps_mk ?_ rfl rfl rfl

theorem execArbitrationWon_keeps {a : State} (ch : Fin 64) {s : State} (h : Keeps a s) : OKeeps a (execArbitrationWon ch s) := by
  unfold execArbitrationWon
  with_reducible repeat' first
    | assumption | intro _ _ _ | intro _ _ | intro _ | apply next_keeps | apply winArbitration_keeps | apply frameStarts_keeps
    | (extract_lets +onlyGivenNames x; first | refine cut2 (p := Keeps _ x) ?_ (fun _ => ?_) | clear x | skip)
    | split | refine keeps_mk ?_ rfl rfl rfl

theorem execBusErrorDetected_keeps {a : State} (ch : Fin 64) (code : ErrCode) (field : FieldCode) (ed : Bool) (row : ErrRow) (acked : Bool) (bytes : Fin 2049) (tdcv : Option (Fin 128)) (edges : List (Nat × Nat)) {s : State} (h : Keeps a s) : OKeeps a (execBusErrorDetected ch code field ed row acked bytes tdcv edges s) := by
  unfold execBusErrorDetected
  with_reducible repeat' first
    | assumption | intro _ _ _ | intro _ _ | intro _ | apply frameStarts_keeps | apply next_keeps | apply errorSeen_keeps | apply
      ite_okeeps | apply ite_keeps
    | (extract_lets +onlyGivenNames x; first | refine cut2 (p := Keeps _ x) ?_ (fun _ => ?_) | clear x | skip)
    | split | refine keeps_mk ?_ rfl rfl rfl

theorem execFastFrameLost_keeps {a : State} (ch : Fin 64) (edges : List (Nat × Nat)) {s : State} (h : Keeps a s) : OKeeps a (execFastFrameLost ch edges s) := by
  unfold execFastFrameLost
  with_reducible repeat' first
    | assumption | intro _ _ _ | intro _ _ | intro _ | apply next_keeps | apply fastLost_keeps | apply frameStarts_keeps
    | (extract_lets +onlyGivenNames x; first | refine cut2 (p := Keeps _ x) ?_ (fun _ => ?_) | clear x | skip)
    | split | refine keeps_mk ?_ rfl rfl rfl

theorem execProtocolException_keeps {a : State} (ch : Fin 64) (edges : List (Nat × Nat)) {s : State} (h : Keeps a s) : OKeeps a (execProtocolException ch edges s) := by
  unfold execProtocolException
  with_reducible repeat' first
    | assumption | intro _ _ _ | intro _ _ | intro _ | apply next_keeps | apply protocolException_keeps | apply frameStarts_keeps
    | (extract_lets +onlyGivenNames x; first | refine cut2 (p := Keeps _ x) ?_ (fun _ => ?_) | clear x | skip)
    | split | refine keeps_mk ?_ rfl rfl rfl

theorem execChannelStopBathEnd_keeps {a : State} (ch : Fin 64) {s : State} (h : Keeps a s) : OKeeps a (execChannelStopBathEnd ch s) := by
  unfold execChannelStopBathEnd
  with_reducible repeat' first
    | assumption | intro _ _ _ | intro _ _ | intro _ | apply next_keeps | apply switchLate_keeps | apply stopEnds_keeps
    | (extract_lets +onlyGivenNames x; first | refine cut2 (p := Keeps _ x) ?_ (fun _ => ?_) | clear x | skip)
    | split | refine keeps_mk ?_ rfl rfl rfl

theorem execStbnSettleEnd_keeps {a : State} (ch : Fin 64) {s : State} (h : Keeps a s) : OKeeps a (execStbnSettleEnd ch s) := by
  unfold execStbnSettleEnd
  with_reducible repeat' first
    | assumption | intro _ _ _ | intro _ _ | intro _ | apply next_keeps | apply reachClk_keeps | apply enterIntegrating_keeps | apply
      answerEnable_keeps | apply restartSchedules_keeps | apply ite_okeeps | apply ite_keeps
    | (extract_lets +onlyGivenNames x; first | refine cut2 (p := Keeps _ x) ?_ (fun _ => ?_) | clear x | skip)
    | split | refine keeps_mk ?_ rfl rfl rfl

theorem developNow_keeps {a : State} (x0 : Nat) (when_ : Nat) (limit : Nat) (instant : Nat) {s : State} (h : Keeps a s) : Keeps a (developNow x0 when_ limit instant s).1 := by
  unfold developNow
  with_reducible repeat' first
    | assumption | intro _ _ _ | intro _ _ | intro _ | apply State_modCtx_keeps | apply bundleGoes_keeps | apply applyAll_keeps |
      apply switchChan_keeps | apply finishWhen2_keeps | apply forEach_keeps | apply foldl_keeps | apply ite_keeps
    | (extract_lets +onlyGivenNames x; first | refine cut2 (p := Keeps _ x) ?_ (fun _ => ?_) | clear x | skip)
    | split | refine keeps_mk ?_ rfl rfl rfl

theorem develop_keeps {a : State} (p : Packet) {s : State} (h : Keeps a s) : VKeeps a (develop p s) := by
  unfold develop
  with_reducible repeat' first
    | assumption | intro _ _ _ | intro _ _ | intro _ | apply drawn_keeps | apply developNow_keeps | apply okBody_keeps | apply
      refuse_keeps | apply reply_keeps | apply refuseIf_keeps | apply badParam_keeps | apply ite_vkeeps | apply ite_keeps
    | (extract_lets +onlyGivenNames x; first | refine cut2 (p := Keeps _ x) ?_ (fun _ => ?_) | clear x | skip)
    | split | refine keeps_mk ?_ rfl rfl rfl

theorem execDevelop_keeps {a : State} (p : Packet) {s : State} (h : Keeps a s) : OKeeps a (execDevelop p s) := by
  unfold execDevelop
  with_reducible repeat' first
    | assumption | intro _ _ _ | intro _ _ | intro _ | apply next_keeps | apply runCommand_keeps | apply develop_keeps
    | (extract_lets +onlyGivenNames x; first | refine cut2 (p := Keeps _ x) ?_ (fun _ => ?_) | clear x | skip)
    | split | refine keeps_mk ?_ rfl rfl rfl

theorem discardLatent_keeps {a : State} (p : Packet) {s : State} (h : Keeps a s) : VKeeps a (discardLatent p s) := by
  unfold discardLatent
  with_reducible repeat' first
    | assumption | intro _ _ _ | intro _ _ | intro _ | apply okBody_keeps | apply dropLatent_keeps
    | (extract_lets +onlyGivenNames x; first | refine cut2 (p := Keeps _ x) ?_ (fun _ => ?_) | clear x | skip)
    | split | refine keeps_mk ?_ rfl rfl rfl

theorem execDiscardLatent_keeps {a : State} (p : Packet) {s : State} (h : Keeps a s) : OKeeps a (execDiscardLatent p s) := by
  unfold execDiscardLatent
  with_reducible repeat' first
    | assumption | intro _ _ _ | intro _ _ | intro _ | apply next_keeps | apply runCommand_keeps | apply discardLatent_keeps
    | (extract_lets +onlyGivenNames x; first | refine cut2 (p := Keeps _ x) ?_ (fun _ => ?_) | clear x | skip)
    | split | refine keeps_mk ?_ rfl rfl rfl

theorem getLatent_keeps {a : State} (p : Packet) {s : State} (h : Keeps a s) : VKeeps a (getLatent p s) := by
  unfold getLatent
  with_reducible repeat' first
    | assumption | intro _ _ _ | intro _ _ | intro _ | apply okBody_keeps | apply badParam_keeps
    | (extract_lets +onlyGivenNames x; first | refine cut2 (p := Keeps _ x) ?_ (fun _ => ?_) | clear x | skip)
    | split | refine keeps_mk ?_ rfl rfl rfl

theorem execGetLatent_keeps {a : State} (p : Packet) {s : State} (h : Keeps a s) : OKeeps a (execGetLatent p s) := by
  unfold execGetLatent
  with_reducible repeat' first
    | assumption | intro _ _ _ | intro _ _ | intro _ | apply next_keeps | apply runCommand_keeps | apply getLatent_keeps
    | (extract_lets +onlyGivenNames x; first | refine cut2 (p := Keeps _ x) ?_ (fun _ => ?_) | clear x | skip)
    | split | refine keeps_mk ?_ rfl rfl rfl

theorem cancelDevelop_keeps {a : State} (p : Packet) {s : State} (h : Keeps a s) : VKeeps a (cancelDevelop p s) := by
  unfold cancelDevelop
  with_reducible repeat' first
    | assumption | intro _ _ _ | intro _ _ | intro _ | apply okBody_keeps | apply State_modCtx_keeps | apply refuse_keeps | apply
      reply_keeps | apply refuseIf_keeps | apply ite_vkeeps | apply ite_keeps
    | (extract_lets +onlyGivenNames x; first | refine cut2 (p := Keeps _ x) ?_ (fun _ => ?_) | clear x | skip)
    | split | refine keeps_mk ?_ rfl rfl rfl

theorem execCancelDevelop_keeps {a : State} (p : Packet) {s : State} (h : Keeps a s) : OKeeps a (execCancelDevelop p s) := by
  unfold execCancelDevelop
  with_reducible repeat' first
    | assumption | intro _ _ _ | intro _ _ | intro _ | apply next_keeps | apply runCommand_keeps | apply cancelDevelop_keeps
    | (extract_lets +onlyGivenNames x; first | refine cut2 (p := Keeps _ x) ?_ (fun _ => ?_) | clear x | skip)
    | split | refine keeps_mk ?_ rfl rfl rfl

theorem execStreamStopBathEnd_keeps {a : State} (record : Fin 32768) {s : State} (h : Keeps a s) : OKeeps a (execStreamStopBathEnd record s) := by
  unfold execStreamStopBathEnd
  with_reducible repeat' first
    | assumption | intro _ _ _ | intro _ _ | intro _ | apply next_keeps | apply streamBathEvent_keeps | apply refigure_keeps | apply
      judgeMode_keeps | apply ite_okeeps | apply ite_keeps
    | (extract_lets +onlyGivenNames x; first | refine cut2 (p := Keeps _ x) ?_ (fun _ => ?_) | clear x | skip)
    | split | refine keeps_mk ?_ rfl rfl rfl | refine keeps_tab ?_ rfl rfl rfl ?_ ?_ ?_ ?_ ?_ ?_ | apply rising_mset | apply rising_mdel | apply rising_mmod | refine rising_map (fun _ => ?_) ?_ | rfl

/-! ### ChannelCmds -/

theorem stagedFor_keeps {a : State} (p : Packet) {s : State} (h : Keeps a s) : Keeps a (stagedFor p s) := by
  unfold stagedFor
  with_reducible repeat' first
    | assumption | intro _ _ _ | intro _ _ | intro _ | apply stagedView_keeps
    | (extract_lets +onlyGivenNames x; first | refine cut2 (p := Keeps _ x) ?_ (fun _ => ?_) | clear x | skip)
    | split | refine keeps_mk ?_ rfl rfl rfl

theorem withChan_keeps {a : State} (p : Packet) {s : State} (off : Nat) (k : Nat → Verdict) (hk : ∀ y0, VKeeps a (k y0)) (h : Keeps a s) : VKeeps a (withChan p s off k) := by
  unfold withChan
  with_reducible repeat' first
    | assumption | intro _ _ _ | intro _ _ | intro _ | apply hk | apply refuse_keeps | apply ite_vkeeps | apply ite_keeps
    | (extract_lets +onlyGivenNames x; first | refine cut2 (p := Keeps _ x) ?_ (fun _ => ?_) | clear x | skip)
    | split | refine keeps_mk ?_ rfl rfl rfl

theorem setChannelMode_keeps {a : State} (p : Packet) {s : State} (h : Keeps a s) : VKeeps a (setChannelMode p s) := by
  unfold setChannelMode
  with_reducible repeat' first
    | assumption | intro _ _ _ | intro _ _ | intro _ | apply withChan_keeps | apply bundleOpen_keeps | apply stagedFor_keeps | apply
      stage_keeps | apply refuseIf_keeps | apply badParam_keeps
    | (extract_lets +onlyGivenNames x; first | refine cut2 (p := Keeps _ x) ?_ (fun _ => ?_) | clear x | skip)
    | split | refine keeps_mk ?_ rfl rfl rfl

theorem execSetChannelMode_keeps {a : State} (p : Packet) {s : State} (h : Keeps a s) : OKeeps a (execSetChannelMode p s) := by
  unfold execSetChannelMode
  with_reducible repeat' first
    | assumption | intro _ _ _ | intro _ _ | intro _ | apply next_keeps | apply runCommand_keeps | apply setChannelMode_keeps
    | (extract_lets +onlyGivenNames x; first | refine cut2 (p := Keeps _ x) ?_ (fun _ => ?_) | clear x | skip)
    | split | refine keeps_mk ?_ rfl rfl rfl

theorem setBitTiming_keeps {a : State} (p : Packet) {s : State} (h : Keeps a s) : VKeeps a (setBitTiming p s) := by
  unfold setBitTiming
  with_reducible repeat' first
    | assumption | intro _ _ _ | intro _ _ | intro _ | apply withChan_keeps | apply bundleOpen_keeps | apply stagedFor_keeps | apply
      stage_keeps | apply refuse_keeps | apply badParam_keeps
    | (extract_lets +onlyGivenNames x; first | refine cut2 (p := Keeps _ x) ?_ (fun _ => ?_) | clear x | skip)
    | split | refine keeps_mk ?_ rfl rfl rfl

theorem execSetBitTiming_keeps {a : State} (p : Packet) {s : State} (h : Keeps a s) : OKeeps a (execSetBitTiming p s) := by
  unfold execSetBitTiming
  with_reducible repeat' first
    | assumption | intro _ _ _ | intro _ _ | intro _ | apply next_keeps | apply runCommand_keeps | apply setBitTiming_keeps
    | (extract_lets +onlyGivenNames x; first | refine cut2 (p := Keeps _ x) ?_ (fun _ => ?_) | clear x | skip)
    | split | refine keeps_mk ?_ rfl rfl rfl

theorem setTransceiver_keeps {a : State} (p : Packet) {s : State} (h : Keeps a s) : VKeeps a (setTransceiver p s) := by
  unfold setTransceiver
  with_reducible repeat' first
    | assumption | intro _ _ _ | intro _ _ | intro _ | apply withChan_keeps | apply bundleOpen_keeps | apply stagedFor_keeps | apply
      stage_keeps | apply refuse_keeps | apply badParam_keeps | apply ite_vkeeps | apply ite_keeps
    | (extract_lets +onlyGivenNames x; first | refine cut2 (p := Keeps _ x) ?_ (fun _ => ?_) | clear x | skip)
    | split | refine keeps_mk ?_ rfl rfl rfl

theorem execSetTransceiver_keeps {a : State} (p : Packet) {s : State} (h : Keeps a s) : OKeeps a (execSetTransceiver p s) := by
  unfold execSetTransceiver
  with_reducible repeat' first
    | assumption | intro _ _ _ | intro _ _ | intro _ | apply next_keeps | apply runCommand_keeps | apply setTransceiver_keeps
    | (extract_lets +onlyGivenNames x; first | refine cut2 (p := Keeps _ x) ?_ (fun _ => ?_) | clear x | skip)
    | split | refine keeps_mk ?_ rfl rfl rfl

theorem enableChannel_keeps {a : State} (p : Packet) {s : State} (h : Keeps a s) : VKeeps a (enableChannel p s) := by
  unfold enableChannel
  with_reducible repeat' first
    | assumption | intro _ _ _ | intro _ _ | intro _ | apply withChan_keeps | apply State_modChan_keeps | apply applyEnable_keeps |
      apply okBody_keeps | apply reply_keeps | apply wait_keeps | apply refuseIf_keeps | apply badParam_keeps | apply ite_vkeeps |
      apply ite_keeps
    | (extract_lets +onlyGivenNames x; first | refine cut2 (p := Keeps _ x) ?_ (fun _ => ?_) | clear x | skip)
    | split | refine keeps_mk ?_ rfl rfl rfl

theorem execEnableChannel_keeps {a : State} (p : Packet) {s : State} (h : Keeps a s) : OKeeps a (execEnableChannel p s) := by
  unfold execEnableChannel
  with_reducible repeat' first
    | assumption | intro _ _ _ | intro _ _ | intro _ | apply next_keeps | apply runCommand_keeps | apply enableChannel_keeps
    | (extract_lets +onlyGivenNames x; first | refine cut2 (p := Keeps _ x) ?_ (fun _ => ?_) | clear x | skip)
    | split | refine keeps_mk ?_ rfl rfl rfl

theorem disableNow_keeps {a : State} (ch : Nat) (by_ : Source) {s : State} (h : Keeps a s) : Keeps a (disableNow ch by_ s) := by
  unfold disableNow
  with_reducible repeat' first
    | assumption | intro _ _ _ | intro _ _ | intro _ | apply State_modChan_keeps | apply chanBathEvent_keeps | apply startStop_keeps |
      apply answerEnable_keeps | apply restartSchedules_keeps | apply enterState_keeps | apply leaveAtOnce_keeps | apply ite_keeps
    | (extract_lets +onlyGivenNames x; first | refine cut2 (p := Keeps _ x) ?_ (fun _ => ?_) | clear x | skip)
    | split | refine keeps_mk ?_ rfl rfl rfl

theorem disableChannel_keeps {a : State} (p : Packet) {s : State} (h : Keeps a s) : VKeeps a (disableChannel p s) := by
  unfold disableChannel
  with_reducible repeat' first
    | assumption | intro _ _ _ | intro _ _ | intro _ | apply withChan_keeps | apply okDone_keeps | apply disableNow_keeps | apply
      badParam_keeps
    | (extract_lets +onlyGivenNames x; first | refine cut2 (p := Keeps _ x) ?_ (fun _ => ?_) | clear x | skip)
    | split | refine keeps_mk ?_ rfl rfl rfl

theorem execDisableChannel_keeps {a : State} (p : Packet) {s : State} (h : Keeps a s) : OKeeps a (execDisableChannel p s) := by
  unfold execDisableChannel
  with_reducible repeat' first
    | assumption | intro _ _ _ | intro _ _ | intro _ | apply next_keeps | apply runCommand_keeps | apply disableChannel_keeps
    | (extract_lets +onlyGivenNames x; first | refine cut2 (p := Keeps _ x) ?_ (fun _ => ?_) | clear x | skip)
    | split | refine keeps_mk ?_ rfl rfl rfl

theorem cancelTx_keeps {a : State} (p : Packet) {s : State} (h : Keeps a s) : VKeeps a (cancelTx p s) := by
  unfold cancelTx
  with_reducible repeat' first
    | assumption | intro _ _ _ | intro _ _ | intro _ | apply discardStaged_keeps | apply withdrawPending_keeps | apply
      State_modChan_keeps | apply countCancel_keeps | apply refuse_keeps | apply reply_keeps | apply wait_keeps | apply refuseIf_keeps
      | apply badParam_keeps | apply ite_vkeeps | apply ite_keeps
    | (extract_lets +onlyGivenNames x; first | refine cut2 (p := Keeps _ x) ?_ (fun _ => ?_) | clear x | skip)
    | split | refine keeps_mk ?_ rfl rfl rfl

theorem execCancelTx_keeps {a : State} (p : Packet) {s : State} (h : Keeps a s) : OKeeps a (execCancelTx p s) := by
  unfold execCancelTx
  with_reducible repeat' first
    | assumption | intro _ _ _ | intro _ _ | intro _ | apply next_keeps | apply runCommand_keeps | apply cancelTx_keeps
    | (extract_lets +onlyGivenNames x; first | refine cut2 (p := Keeps _ x) ?_ (fun _ => ?_) | clear x | skip)
    | split | refine keeps_mk ?_ rfl rfl rfl

theorem recoverBusOff_keeps {a : State} (p : Packet) {s : State} (h : Keeps a s) : VKeeps a (recoverBusOff p s) := by
  unfold recoverBusOff
  with_reducible repeat' first
    | assumption | intro _ _ _ | intro _ _ | intro _ | apply withChan_keeps | apply State_modChan_keeps | apply okBody_keeps | apply
      startRecovery_keeps | apply refuseIf_keeps | apply badParam_keeps | apply ite_vkeeps | apply ite_keeps
    | (extract_lets +onlyGivenNames x; first | refine cut2 (p := Keeps _ x) ?_ (fun _ => ?_) | clear x | skip)
    | split | refine keeps_mk ?_ rfl rfl rfl

theorem execRecoverBusOff_keeps {a : State} (p : Packet) {s : State} (h : Keeps a s) : OKeeps a (execRecoverBusOff p s) := by
  unfold execRecoverBusOff
  with_reducible repeat' first
    | assumption | intro _ _ _ | intro _ _ | intro _ | apply next_keeps | apply runCommand_keeps | apply recoverBusOff_keeps
    | (extract_lets +onlyGivenNames x; first | refine cut2 (p := Keeps _ x) ?_ (fun _ => ?_) | clear x | skip)
    | split | refine keeps_mk ?_ rfl rfl rfl

theorem getChannelStatus_keeps {a : State} (p : Packet) {s : State} (h : Keeps a s) : VKeeps a (getChannelStatus p s) := by
  unfold getChannelStatus
  with_reducible repeat' first
    | assumption | intro _ _ _ | intro _ _ | intro _ | apply withChan_keeps | apply okBody_keeps | apply badParam_keeps
    | (extract_lets +onlyGivenNames x; first | refine cut2 (p := Keeps _ x) ?_ (fun _ => ?_) | clear x | skip)
    | split | refine keeps_mk ?_ rfl rfl rfl

theorem execGetChannelStatus_keeps {a : State} (p : Packet) {s : State} (h : Keeps a s) : OKeeps a (execGetChannelStatus p s) := by
  unfold execGetChannelStatus
  with_reducible repeat' first
    | assumption | intro _ _ _ | intro _ _ | intro _ | apply next_keeps | apply runCommand_keeps | apply getChannelStatus_keeps
    | (extract_lets +onlyGivenNames x; first | refine cut2 (p := Keeps _ x) ?_ (fun _ => ?_) | clear x | skip)
    | split | refine keeps_mk ?_ rfl rfl rfl

/-! ### MemErrors -/

theorem modCounter_keeps {a : State} (r : Region) (f : MemCounter → MemCounter) {s : State} (h : Keeps a s) : Keeps a (modCounter r f s) := by
  unfold modCounter
  with_reducible repeat' first
    | assumption | intro _ _ _ | intro _ _ | intro _
    | (extract_lets +onlyGivenNames x; first | refine cut2 (p := Keeps _ x) ?_ (fun _ => ?_) | clear x | skip)
    | split | refine keeps_mk ?_ rfl rfl rfl

theorem noteFinding_keeps {a : State} (r : Region) (word : Nat) (act : State → State) {s : State} (hk : ∀ y0, Keeps a y0 → Keeps a (act y0)) (h : Keeps a s) : Keeps a (noteFinding r word act s) := by
  unfold noteFinding
  with_reducible repeat' first
    | assumption | intro _ _ _ | intro _ _ | intro _ | apply hk | apply modCounter_keeps | apply logFault_keeps
    | (extract_lets +onlyGivenNames x; first | refine cut2 (p := Keeps _ x) ?_ (fun _ => ?_) | clear x | skip)
    | split | refine keeps_mk ?_ rfl rfl rfl

theorem memoryEvent_keeps {a : State} (cs : List Nat) {s : State} (h : Keeps a s) : Keeps a (memoryEvent cs s) := by
  unfold memoryEvent
  with_reducible repeat' first
    | assumption | intro _ _ _ | intro _ _ | intro _ | apply raiseEvents_keeps | apply drawn_keeps
    | (extract_lets +onlyGivenNames x; first | refine cut2 (p := Keeps _ x) ?_ (fun _ => ?_) | clear x | skip)
    | split | refine keeps_mk ?_ rfl rfl rfl

theorem objectEvent_keeps {a : State} (mo : Nat) (o : Mo) (why : Nat) (cell : Nat) {s : State} (h : Keeps a s) : Keeps a (objectEvent mo o why cell s) := by
  unfold objectEvent
  with_reducible repeat' first
    | assumption | intro _ _ _ | intro _ _ | intro _ | apply raiseEvents_keeps
    | (extract_lets +onlyGivenNames x; first | refine cut2 (p := Keeps _ x) ?_ (fun _ => ?_) | clear x | skip)
    | split | refine keeps_mk ?_ rfl rfl rfl

theorem disableObject_keeps {a : State} (mo : Nat) (retire : Bool) {s : State} (h : Keeps a s) : Keeps a (disableObject mo retire s) := by
  unfold disableObject
  with_reducible repeat' first
    | assumption | intro _ _ _ | intro _ _ | intro _ | apply cancelObject_keeps | apply State_modMo_keeps
    | (extract_lets +onlyGivenNames x; first | refine cut2 (p := Keeps _ x) ?_ (fun _ => ?_) | clear x | skip)
    | split | refine keeps_mk ?_ rfl rfl rfl

theorem retireCell_keeps {a : State} (cell : Nat) {s : State} (h : Keeps a s) : Keeps a (retireCell cell s) := by
  unfold retireCell
  with_reducible repeat' first
    | assumption | intro _ _ _ | intro _ _ | intro _ | apply objectEvent_keeps | apply disableObject_keeps | apply memoryEvent_keeps |
      apply ite_keeps
    | (extract_lets +onlyGivenNames x; first | refine cut2 (p := Keeps _ x) ?_ (fun _ => ?_) | clear x | skip)
    | split | refine keeps_mk ?_ rfl rfl rfl

theorem dropFrame_keeps {a : State} (mo : Nat) (off : Nat) (front : Bool) {s : State} (h : Keeps a s) : Keeps a (dropFrame mo off front s) := by
  unfold dropFrame
  with_reducible repeat' first
    | assumption | intro _ _ _ | intro _ _ | intro _ | apply State_modMo_keeps | apply discardStagedAs_keeps | apply
      State_modChan_keeps | apply endLive_keeps | apply completeLive_keeps | apply failRelease_keeps | apply ite_keeps
    | (extract_lets +onlyGivenNames x; first | refine cut2 (p := Keeps _ x) ?_ (fun _ => ?_) | clear x | skip)
    | split | refine keeps_mk ?_ rfl rfl rfl

theorem dropWord_keeps {a : State} (word : Nat) {s : State} (h : Keeps a s) : Keeps a (dropWord word s) := by
  unfold dropWord
  with_reducible repeat' first
    | assumption | intro _ _ _ | intro _ _ | intro _ | apply dropFrame_keeps
    | (extract_lets +onlyGivenNames x; first | refine cut2 (p := Keeps _ x) ?_ (fun _ => ?_) | clear x | skip)
    | split | refine keeps_mk ?_ rfl rfl rfl

theorem badPoolWord_keeps {a : State} (word : Nat) {s : State} (h : Keeps a s) : Keeps a (badPoolWord word s) := by
  unfold badPoolWord
  with_reducible repeat' first
    | assumption | intro _ _ _ | intro _ _ | intro _ | apply retireCell_keeps | apply dropWord_keeps | apply memoryEvent_keeps | apply
      ite_keeps
    | (extract_lets +onlyGivenNames x; first | refine cut2 (p := Keeps _ x) ?_ (fun _ => ?_) | clear x | skip)
    | split | refine keeps_mk ?_ rfl rfl rfl

theorem foundInFront_keeps {a : State} (mo : Nat) (off : Nat) {s : State} (h : Keeps a s) : Keeps a (foundInFront mo off s) := by
  unfold foundInFront
  with_reducible repeat' first
    | assumption | intro _ _ _ | intro _ _ | intro _ | apply noteFinding_keeps | apply badPoolWord_keeps
    | (extract_lets +onlyGivenNames x; first | refine cut2 (p := Keeps _ x) ?_ (fun _ => ?_) | clear x | skip)
    | split | refine keeps_mk ?_ rfl rfl rfl

/-! ### MoCmds -/

theorem allocMo_keeps {a : State} (p : Packet) {s : State} (h : Keeps a s) : VKeeps a (allocMo p s) := by
  unfold allocMo
  with_reducible repeat' first
    | assumption | intro _ _ _ | intro _ _ | intro _ | apply bundleOpen_keeps | apply stage_keeps | apply refuse_keeps | apply
      refuseIf_keeps | apply badParam_keeps | apply ite_vkeeps | apply ite_keeps
    | (extract_lets +onlyGivenNames x; first | refine cut2 (p := Keeps _ x) ?_ (fun _ => ?_) | clear x | skip)
    | split | refine keeps_mk ?_ rfl rfl rfl

theorem execAllocMo_keeps {a : State} (p : Packet) {s : State} (h : Keeps a s) : OKeeps a (execAllocMo p s) := by
  unfold execAllocMo
  with_reducible repeat' first
    | assumption | intro _ _ _ | intro _ _ | intro _ | apply next_keeps | apply runCommand_keeps | apply allocMo_keeps
    | (extract_lets +onlyGivenNames x; first | refine cut2 (p := Keeps _ x) ?_ (fun _ => ?_) | clear x | skip)
    | split | refine keeps_mk ?_ rfl rfl rfl

theorem configMoCmd_keeps {a : State} (p : Packet) {s : State} (h : Keeps a s) : VKeeps a (configMoCmd p s) := by
  unfold configMoCmd
  with_reducible repeat' first
    | assumption | intro _ _ _ | intro _ _ | intro _ | apply stagedFor_keeps | apply withChan_keeps | apply bundleOpen_keeps | apply
      stage_keeps | apply refuse_keeps | apply badParam_keeps | apply ite_vkeeps | apply ite_keeps
    | (extract_lets +onlyGivenNames x; first | refine cut2 (p := Keeps _ x) ?_ (fun _ => ?_) | clear x | skip)
    | split | refine keeps_mk ?_ rfl rfl rfl

theorem execConfigMo_keeps {a : State} (p : Packet) {s : State} (h : Keeps a s) : OKeeps a (execConfigMo p s) := by
  unfold execConfigMo
  with_reducible repeat' first
    | assumption | intro _ _ _ | intro _ _ | intro _ | apply next_keeps | apply runCommand_keeps | apply configMoCmd_keeps
    | (extract_lets +onlyGivenNames x; first | refine cut2 (p := Keeps _ x) ?_ (fun _ => ?_) | clear x | skip)
    | split | refine keeps_mk ?_ rfl rfl rfl

theorem freeMo_keeps {a : State} (p : Packet) {s : State} (h : Keeps a s) : VKeeps a (freeMo p s) := by
  unfold freeMo
  with_reducible repeat' first
    | assumption | intro _ _ _ | intro _ _ | intro _ | apply stagedFor_keeps | apply bundleOpen_keeps | apply stage_keeps | apply
      refuse_keeps | apply refuseIf_keeps | apply badParam_keeps
    | (extract_lets +onlyGivenNames x; first | refine cut2 (p := Keeps _ x) ?_ (fun _ => ?_) | clear x | skip)
    | split | refine keeps_mk ?_ rfl rfl rfl

theorem execFreeMo_keeps {a : State} (p : Packet) {s : State} (h : Keeps a s) : OKeeps a (execFreeMo p s) := by
  unfold execFreeMo
  with_reducible repeat' first
    | assumption | intro _ _ _ | intro _ _ | intro _ | apply next_keeps | apply runCommand_keeps | apply freeMo_keeps
    | (extract_lets +onlyGivenNames x; first | refine cut2 (p := Keeps _ x) ?_ (fun _ => ?_) | clear x | skip)
    | split | refine keeps_mk ?_ rfl rfl rfl

theorem endReadMo_keeps {a : State} (mo : Nat) {s : State} (h : Keeps a s) : Keeps a (endReadMo mo s) := by
  unfold endReadMo
  with_reducible repeat' first
    | assumption | intro _ _ _ | intro _ _ | intro _ | apply State_modMo_keeps | apply ite_keeps
    | (extract_lets +onlyGivenNames x; first | refine cut2 (p := Keeps _ x) ?_ (fun _ => ?_) | clear x | skip)
    | split | refine keeps_mk ?_ rfl rfl rfl

theorem readMoLeaves_keeps {a : State} (mo : Nat) (o : Mo) (bad : Option Nat) {s : State} (h : Keeps a s) : Keeps a (readMoLeaves mo o bad s) := by
  unfold readMoLeaves
  with_reducible repeat' first
    | assumption | intro _ _ _ | intro _ _ | intro _ | apply State_modMo_keeps | apply endReadMo_keeps | apply foundInFront_keeps |
      apply ite_keeps
    | (extract_lets +onlyGivenNames x; first | refine cut2 (p := Keeps _ x) ?_ (fun _ => ?_) | clear x | skip)
    | split | refine keeps_mk ?_ rfl rfl rfl

theorem readMo_keeps {a : State} (found : Option Nat) (p : Packet) {s : State} (h : Keeps a s) : VKeeps a (readMo found p s) := by
  have k := fun mo o bad => readMoLeaves_keeps mo o bad h
  unfold readMo
  dsimp only
  refine badParam_keeps _ _ (badParam_keeps _ _ (badParam_keeps _ _ ?_))
  (repeat' split) <;> first | trivial | exact okBody_keeps _ (k _ _ _) | exact k _ _ _

theorem execReadMo_keeps {a : State} (p : Packet) (found : Option Nat) {s : State} (h : Keeps a s) : OKeeps a (execReadMo p found s) := by
  unfold execReadMo
  with_reducible repeat' first
    | assumption | intro _ _ _ | intro _ _ | intro _ | apply next_keeps | apply runCommand_keeps | apply readMo_keeps
    | (extract_lets +onlyGivenNames x; first | refine cut2 (p := Keeps _ x) ?_ (fun _ => ?_) | clear x | skip)
    | split | refine keeps_mk ?_ rfl rfl rfl

/-! ### FilterCmds -/

theorem writeFilter_keeps {a : State} (p : Packet) {s : State} (h : Keeps a s) : VKeeps a (writeFilter p s) := by
  unfold writeFilter
  with_reducible repeat' first
    | assumption | intro _ _ _ | intro _ _ | intro _ | apply bundleOpen_keeps | apply stagedFor_keeps | apply stage_keeps | apply
      refuse_keeps | apply refuseIf_keeps | apply badParam_keeps | apply ite_vkeeps | apply ite_keeps
    | (extract_lets +onlyGivenNames x; first | refine cut2 (p := Keeps _ x) ?_ (fun _ => ?_) | clear x | skip)
    | split | refine keeps_mk ?_ rfl rfl rfl

theorem execWriteFilter_keeps {a : State} (p : Packet) {s : State} (h : Keeps a s) : OKeeps a (execWriteFilter p s) := by
  unfold execWriteFilter
  with_reducible repeat' first
    | assumption | intro _ _ _ | intro _ _ | intro _ | apply next_keeps | apply runCommand_keeps | apply writeFilter_keeps
    | (extract_lets +onlyGivenNames x; first | refine cut2 (p := Keeps _ x) ?_ (fun _ => ?_) | clear x | skip)
    | split | refine keeps_mk ?_ rfl rfl rfl

theorem clearFilter_keeps {a : State} (p : Packet) {s : State} (h : Keeps a s) : VKeeps a (clearFilter p s) := by
  unfold clearFilter
  with_reducible repeat' first
    | assumption | intro _ _ _ | intro _ _ | intro _ | apply bundleOpen_keeps | apply stage_keeps | apply refuseIf_keeps | apply
      badParam_keeps
    | (extract_lets +onlyGivenNames x; first | refine cut2 (p := Keeps _ x) ?_ (fun _ => ?_) | clear x | skip)
    | split | refine keeps_mk ?_ rfl rfl rfl

theorem execClearFilter_keeps {a : State} (p : Packet) {s : State} (h : Keeps a s) : OKeeps a (execClearFilter p s) := by
  unfold execClearFilter
  with_reducible repeat' first
    | assumption | intro _ _ _ | intro _ _ | intro _ | apply next_keeps | apply runCommand_keeps | apply clearFilter_keeps
    | (extract_lets +onlyGivenNames x; first | refine cut2 (p := Keeps _ x) ?_ (fun _ => ?_) | clear x | skip)
    | split | refine keeps_mk ?_ rfl rfl rfl

theorem readFilter_keeps {a : State} (p : Packet) {s : State} (h : Keeps a s) : VKeeps a (readFilter p s) := by
  unfold readFilter
  with_reducible repeat' first
    | assumption | intro _ _ _ | intro _ _ | intro _ | apply okBody_keeps | apply refuse_keeps | apply badParam_keeps
    | (extract_lets +onlyGivenNames x; first | refine cut2 (p := Keeps _ x) ?_ (fun _ => ?_) | clear x | skip)
    | split | refine keeps_mk ?_ rfl rfl rfl

theorem execReadFilter_keeps {a : State} (p : Packet) {s : State} (h : Keeps a s) : OKeeps a (execReadFilter p s) := by
  unfold execReadFilter
  with_reducible repeat' first
    | assumption | intro _ _ _ | intro _ _ | intro _ | apply next_keeps | apply runCommand_keeps | apply readFilter_keeps
    | (extract_lets +onlyGivenNames x; first | refine cut2 (p := Keeps _ x) ?_ (fun _ => ?_) | clear x | skip)
    | split | refine keeps_mk ?_ rfl rfl rfl

theorem getFilterStats_keeps {a : State} (p : Packet) {s : State} (h : Keeps a s) : VKeeps a (getFilterStats p s) := by
  unfold getFilterStats
  with_reducible repeat' first
    | assumption | intro _ _ _ | intro _ _ | intro _ | apply withChan_keeps | apply okBody_keeps | apply badParam_keeps
    | (extract_lets +onlyGivenNames x; first | refine cut2 (p := Keeps _ x) ?_ (fun _ => ?_) | clear x | skip)
    | split | refine keeps_mk ?_ rfl rfl rfl

theorem execGetFilterStats_keeps {a : State} (p : Packet) {s : State} (h : Keeps a s) : OKeeps a (execGetFilterStats p s) := by
  unfold execGetFilterStats
  with_reducible repeat' first
    | assumption | intro _ _ _ | intro _ _ | intro _ | apply next_keeps | apply runCommand_keeps | apply getFilterStats_keeps
    | (extract_lets +onlyGivenNames x; first | refine cut2 (p := Keeps _ x) ?_ (fun _ => ?_) | clear x | skip)
    | split | refine keeps_mk ?_ rfl rfl rfl

/-! ### QueueCmds -/

theorem configQueue_keeps {a : State} (p : Packet) {s : State} (h : Keeps a s) : VKeeps a (configQueue p s) := by
  unfold configQueue
  with_reducible repeat' first
    | assumption | intro _ _ _ | intro _ _ | intro _ | apply bundleOpen_keeps | apply stagedFor_keeps | apply writeDown_keeps | apply
      stage_keeps | apply refuse_keeps | apply refuseIf_keeps | apply ite_vkeeps | apply ite_keeps
    | (extract_lets +onlyGivenNames x; first | refine cut2 (p := Keeps _ x) ?_ (fun _ => ?_) | clear x | skip)
    | split | refine keeps_mk ?_ rfl rfl rfl

theorem execConfigQueue_keeps {a : State} (p : Packet) {s : State} (h : Keeps a s) : OKeeps a (execConfigQueue p s) := by
  unfold execConfigQueue
  with_reducible repeat' first
    | assumption | intro _ _ _ | intro _ _ | intro _ | apply next_keeps | apply runCommand_keeps | apply configQueue_keeps
    | (extract_lets +onlyGivenNames x; first | refine cut2 (p := Keeps _ x) ?_ (fun _ => ?_) | clear x | skip)
    | split | refine keeps_mk ?_ rfl rfl rfl

theorem setWatermark_keeps {a : State} (p : Packet) {s : State} (h : Keeps a s) : VKeeps a (setWatermark p s) := by
  unfold setWatermark
  with_reducible repeat' first
    | assumption | intro _ _ _ | intro _ _ | intro _ | apply bundleOpen_keeps | apply stage_keeps | apply refuseIf_keeps | apply
      badParam_keeps | apply ite_vkeeps | apply ite_keeps
    | (extract_lets +onlyGivenNames x; first | refine cut2 (p := Keeps _ x) ?_ (fun _ => ?_) | clear x | skip)
    | split | refine keeps_mk ?_ rfl rfl rfl

theorem execSetWatermark_keeps {a : State} (p : Packet) {s : State} (h : Keeps a s) : OKeeps a (execSetWatermark p s) := by
  unfold execSetWatermark
  with_reducible repeat' first
    | assumption | intro _ _ _ | intro _ _ | intro _ | apply next_keeps | apply runCommand_keeps | apply setWatermark_keeps
    | (extract_lets +onlyGivenNames x; first | refine cut2 (p := Keeps _ x) ?_ (fun _ => ?_) | clear x | skip)
    | split | refine keeps_mk ?_ rfl rfl rfl

theorem getQueueStatus_keeps {a : State} (p : Packet) {s : State} (h : Keeps a s) : VKeeps a (getQueueStatus p s) := by
  unfold getQueueStatus
  with_reducible repeat' first
    | assumption | intro _ _ _ | intro _ _ | intro _ | apply okBody_keeps | apply refuse_keeps | apply badParam_keeps
    | (extract_lets +onlyGivenNames x; first | refine cut2 (p := Keeps _ x) ?_ (fun _ => ?_) | clear x | skip)
    | split | refine keeps_mk ?_ rfl rfl rfl

theorem execGetQueueStatus_keeps {a : State} (p : Packet) {s : State} (h : Keeps a s) : OKeeps a (execGetQueueStatus p s) := by
  unfold execGetQueueStatus
  with_reducible repeat' first
    | assumption | intro _ _ _ | intro _ _ | intro _ | apply next_keeps | apply runCommand_keeps | apply getQueueStatus_keeps
    | (extract_lets +onlyGivenNames x; first | refine cut2 (p := Keeps _ x) ?_ (fun _ => ?_) | clear x | skip)
    | split | refine keeps_mk ?_ rfl rfl rfl

/-! ### TimeCmds -/

theorem execSlewEnd_keeps {a : State} {s : State} (h : Keeps a s) : OKeeps a (execSlewEnd s) := by
  unfold execSlewEnd
  with_reducible repeat' first
    | assumption | intro _ _ _ | intro _ _ | intro _ | apply next_keeps | apply reachClk_keeps | apply raiseEvent_keeps
    | (extract_lets +onlyGivenNames x; first | refine cut2 (p := Keeps _ x) ?_ (fun _ => ?_) | clear x | skip)
    | split | refine keeps_mk ?_ rfl rfl rfl

theorem captureEdge_keeps {a : State} (source : Nat) (edge : Nat) (stamp : Nat) {s : State} (h : Keeps a s) : Keeps a (captureEdge source edge stamp s) := by
  unfold captureEdge
  with_reducible repeat' first
    | assumption | intro _ _ _ | intro _ _ | intro _ | apply ite_keeps
    | (extract_lets +onlyGivenNames x; first | refine cut2 (p := Keeps _ x) ?_ (fun _ => ?_) | clear x | skip)
    | split | refine keeps_mk ?_ rfl rfl rfl

theorem modSchedule_keeps {a : State} (mo : Nat) (f : Schedule → Schedule) {s : State} (h : Keeps a s) : Keeps a (modSchedule mo f s) := by
  unfold modSchedule
  with_reducible repeat' first
    | assumption | intro _ _ _ | intro _ _ | intro _
    | (extract_lets +onlyGivenNames x; first | refine cut2 (p := Keeps _ x) ?_ (fun _ => ?_) | clear x | skip)
    | split | refine keeps_mk ?_ rfl rfl rfl | refine keeps_tab ?_ rfl rfl rfl ?_ ?_ ?_ ?_ ?_ ?_ | apply rising_mset | apply rising_mdel | apply rising_mmod | refine rising_map (fun _ => ?_) ?_ | rfl

theorem armPoint_keeps {a : State} (mo : Nat) {s : State} (h : Keeps a s) : Keeps a (armPoint mo s) := by
  unfold armPoint
  with_reducible repeat' first
    | assumption | intro _ _ _ | intro _ _ | intro _ | apply modSchedule_keeps | apply State_modMo_keeps | apply releaseOwn_keeps |
      apply ite_keeps
    | (extract_lets +onlyGivenNames x; first | refine cut2 (p := Keeps _ x) ?_ (fun _ => ?_) | clear x | skip)
    | split | refine keeps_mk ?_ rfl rfl rfl

theorem instantEnds_keeps {a : State} (mo : Nat) {s : State} (h : Keeps a s) : Keeps a (instantEnds mo s) := by
  unfold instantEnds
  with_reducible repeat' first
    | assumption | intro _ _ _ | intro _ _ | intro _ | apply driveSof_keeps | apply State_modMo_keeps | apply modSchedule_keeps |
      apply finishSchedule_keeps | apply ite_keeps
    | (extract_lets +onlyGivenNames x; first | refine cut2 (p := Keeps _ x) ?_ (fun _ => ?_) | clear x | skip)
    | split | refine keeps_mk ?_ rfl rfl rfl

theorem stepSchedule_keeps {a : State} (mo : Nat) {s : State} (h : Keeps a s) : Keeps a (stepSchedule mo s) := by
  unfold stepSchedule
  with_reducible repeat' first
    | assumption | intro _ _ _ | intro _ _ | intro _ | apply armPoint_keeps | apply instantEnds_keeps | apply modSchedule_keeps |
      apply scheduleEvent_keeps | apply ite_keeps
    | (extract_lets +onlyGivenNames x; first | refine cut2 (p := Keeps _ x) ?_ (fun _ => ?_) | clear x | skip)
    | split | refine keeps_mk ?_ rfl rfl rfl

theorem fireTrigger_keeps {a : State} (unit : Nat) (at_ : Nat) {s : State} (h : Keeps a s) : Keeps a (fireTrigger unit at_ s) := by
  unfold fireTrigger
  with_reducible repeat' first
    | assumption | intro _ _ _ | intro _ _ | intro _ | apply filmFreeze_keeps | apply raiseEvent_keeps | apply ite_keeps
    | (extract_lets +onlyGivenNames x; first | refine cut2 (p := Keeps _ x) ?_ (fun _ => ?_) | clear x | skip)
    | split | refine keeps_mk ?_ rfl rfl rfl

theorem stepTrigger_keeps {a : State} (unit : Nat) {s : State} (h : Keeps a s) : Keeps a (stepTrigger unit s) := by
  unfold stepTrigger
  with_reducible repeat' first
    | assumption | intro _ _ _ | intro _ _ | intro _ | apply fireTrigger_keeps | apply State_modTrigger_keeps | apply ite_keeps
    | (extract_lets +onlyGivenNames x; first | refine cut2 (p := Keeps _ x) ?_ (fun _ => ?_) | clear x | skip)
    | split | refine keeps_mk ?_ rfl rfl rfl

theorem risePps_keeps {a : State} (t : Nat) {s : State} (h : Keeps a s) : Keeps a (risePps t s) := by
  unfold risePps
  with_reducible repeat' first
    | assumption | intro _ _ _ | intro _ _ | intro _
    | (extract_lets +onlyGivenNames x; first | refine cut2 (p := Keeps _ x) ?_ (fun _ => ?_) | clear x | skip)
    | split | refine keeps_mk ?_ rfl rfl rfl

theorem servePps_keeps {a : State} {s : State} (h : Keeps a s) : Keeps a (servePps s) := by
  unfold servePps
  with_reducible repeat' first
    | assumption | intro _ _ _ | intro _ _ | intro _ | apply risePps_keeps | apply ite_keeps
    | (extract_lets +onlyGivenNames x; first | refine cut2 (p := Keeps _ x) ?_ (fun _ => ?_) | clear x | skip)
    | split | refine keeps_mk ?_ rfl rfl rfl

theorem execPpsOutRise_keeps {a : State} {s : State} (h : Keeps a s) : OKeeps a (execPpsOutRise s) := by
  unfold execPpsOutRise
  with_reducible repeat' first
    | assumption | intro _ _ _ | intro _ _ | intro _ | apply next_keeps | apply risePps_keeps | apply reachTime_keeps | apply
      ite_okeeps | apply ite_keeps
    | (extract_lets +onlyGivenNames x; first | refine cut2 (p := Keeps _ x) ?_ (fun _ => ?_) | clear x | skip)
    | split | refine keeps_mk ?_ rfl rfl rfl

theorem execPpsOutFall_keeps {a : State} {s : State} (h : Keeps a s) : OKeeps a (execPpsOutFall s) := by
  unfold execPpsOutFall
  with_reducible repeat' first
    | assumption | intro _ _ _ | intro _ _ | intro _ | apply next_keeps | apply reachTime_keeps | apply ite_okeeps | apply ite_keeps
    | (extract_lets +onlyGivenNames x; first | refine cut2 (p := Keeps _ x) ?_ (fun _ => ?_) | clear x | skip)
    | split | refine keeps_mk ?_ rfl rfl rfl

theorem execTrigioEdge_keeps {a : State} (ball : Fin 8) (rising : Bool) {s : State} (h : Keeps a s) : OKeeps a (execTrigioEdge ball rising s) := by
  unfold execTrigioEdge
  with_reducible repeat' first
    | assumption | intro _ _ _ | intro _ _ | intro _ | apply next_keeps | apply captureEdge_keeps | apply ite_okeeps | apply ite_keeps
    | (extract_lets +onlyGivenNames x; first | refine cut2 (p := Keeps _ x) ?_ (fun _ => ?_) | clear x | skip)
    | split | refine keeps_mk ?_ rfl rfl rfl

theorem execTriggerFire_keeps {a : State} (unit : Fin 8) {s : State} (h : Keeps a s) : OKeeps a (execTriggerFire unit s) := by
  unfold execTriggerFire
  with_reducible repeat' first
    | assumption | intro _ _ _ | intro _ _ | intro _ | apply next_keeps | apply fireTrigger_keeps | apply reachTime_keeps | apply
      State_modTrigger_keeps | apply ite_okeeps | apply ite_keeps
    | (extract_lets +onlyGivenNames x; first | refine cut2 (p := Keeps _ x) ?_ (fun _ => ?_) | clear x | skip)
    | split | refine keeps_mk ?_ rfl rfl rfl

theorem execTriggerPulseEnd_keeps {a : State} (unit : Fin 8) {s : State} (h : Keeps a s) : OKeeps a (execTriggerPulseEnd unit s) := by
  unfold execTriggerPulseEnd
  with_reducible repeat' first
    | assumption | intro _ _ _ | intro _ _ | intro _ | apply next_keeps | apply reachClk_keeps | apply ite_okeeps | apply ite_keeps
    | (extract_lets +onlyGivenNames x; first | refine cut2 (p := Keeps _ x) ?_ (fun _ => ?_) | clear x | skip)
    | split | refine keeps_mk ?_ rfl rfl rfl

theorem execShutterArmPoint_keeps {a : State} (mo : Fin 16384) {s : State} (h : Keeps a s) : OKeeps a (execShutterArmPoint mo s) := by
  unfold execShutterArmPoint
  with_reducible repeat' first
    | assumption | intro _ _ _ | intro _ _ | intro _ | apply next_keeps | apply armPoint_keeps | apply reachTime_keeps
    | (extract_lets +onlyGivenNames x; first | refine cut2 (p := Keeps _ x) ?_ (fun _ => ?_) | clear x | skip)
    | split | refine keeps_mk ?_ rfl rfl rfl

theorem releaseNotice_keeps {a : State} (ch : Nat) (t : Nat) {s : State} (h : Keeps a s) : Keeps a (releaseNotice ch t s) := by
  unfold releaseNotice
  with_reducible repeat' first
    | assumption | intro _ _ _ | intro _ _ | intro _ | apply latch_keeps | apply State_modMo_keeps | apply ite_keeps
    | (extract_lets +onlyGivenNames x; first | refine cut2 (p := Keeps _ x) ?_ (fun _ => ?_) | clear x | skip)
    | split | refine keeps_mk ?_ rfl rfl rfl

theorem execReleaseNotice_keeps {a : State} (mo : Fin 16384) (parity : Bool) {s : State} (h : Keeps a s) : OKeeps a (execReleaseNotice mo parity s) := by
  unfold execReleaseNotice
  with_reducible repeat' first
    | assumption | intro _ _ _ | intro _ _ | intro _ | apply next_keeps | apply armPoint_keeps | apply reachTime_keeps | apply
      parityDrop_keeps | apply releaseNotice_keeps | apply ite_okeeps | apply ite_keeps
    | (extract_lets +onlyGivenNames x; first | refine cut2 (p := Keeps _ x) ?_ (fun _ => ?_) | clear x | skip)
    | split | refine keeps_mk ?_ rfl rfl rfl

theorem execShutterInstant_keeps {a : State} (mo : Fin 16384) {s : State} (h : Keeps a s) : OKeeps a (execShutterInstant mo s) := by
  unfold execShutterInstant
  with_reducible repeat' first
    | assumption | intro _ _ _ | intro _ _ | intro _ | apply next_keeps | apply instantEnds_keeps | apply reachTime_keeps | apply
      armPoint_keeps
    | (extract_lets +onlyGivenNames x; first | refine cut2 (p := Keeps _ x) ?_ (fun _ => ?_) | clear x | skip)
    | split | refine keeps_mk ?_ rfl rfl rfl

theorem getTime_keeps {a : State} (p : Packet) {s : State} (h : Keeps a s) : VKeeps a (getTime p s) := by
  unfold getTime
  with_reducible repeat' first
    | assumption | intro _ _ _ | intro _ _ | intro _ | apply okBody_keeps | apply badParam_keeps | apply ite_vkeeps | apply ite_keeps
    | (extract_lets +onlyGivenNames x; first | refine cut2 (p := Keeps _ x) ?_ (fun _ => ?_) | clear x | skip)
    | split | refine keeps_mk ?_ rfl rfl rfl

theorem execGetTime_keeps {a : State} (p : Packet) {s : State} (h : Keeps a s) : OKeeps a (execGetTime p s) := by
  unfold execGetTime
  with_reducible repeat' first
    | assumption | intro _ _ _ | intro _ _ | intro _ | apply next_keeps | apply runCommand_keeps | apply getTime_keeps
    | (extract_lets +onlyGivenNames x; first | refine cut2 (p := Keeps _ x) ?_ (fun _ => ?_) | clear x | skip)
    | split | refine keeps_mk ?_ rfl rfl rfl

theorem adjustRate_keeps {a : State} (p : Packet) {s : State} (h : Keeps a s) : VKeeps a (adjustRate p s) := by
  unfold adjustRate
  with_reducible repeat' first
    | assumption | intro _ _ _ | intro _ _ | intro _ | apply okBody_keeps | apply refuseIf_keeps | apply badParam_keeps | apply
      ite_vkeeps | apply ite_keeps
    | (extract_lets +onlyGivenNames x; first | refine cut2 (p := Keeps _ x) ?_ (fun _ => ?_) | clear x | skip)
    | split | refine keeps_mk ?_ rfl rfl rfl

theorem execAdjustRate_keeps {a : State} (p : Packet) {s : State} (h : Keeps a s) : OKeeps a (execAdjustRate p s) := by
  unfold execAdjustRate
  with_reducible repeat' first
    | assumption | intro _ _ _ | intro _ _ | intro _ | apply next_keeps | apply runCommand_keeps | apply adjustRate_keeps
    | (extract_lets +onlyGivenNames x; first | refine cut2 (p := Keeps _ x) ?_ (fun _ => ?_) | clear x | skip)
    | split | refine keeps_mk ?_ rfl rfl rfl

theorem setShutter_keeps {a : State} (p : Packet) {s : State} (h : Keeps a s) : VKeeps a (setShutter p s) := by
  unfold setShutter
  with_reducible repeat' first
    | assumption | intro _ _ _ | intro _ _ | intro _ | apply stagedFor_keeps | apply bundleOpen_keeps | apply stage_keeps | apply
      refuse_keeps | apply refuseIf_keeps | apply badParam_keeps
    | (extract_lets +onlyGivenNames x; first | refine cut2 (p := Keeps _ x) ?_ (fun _ => ?_) | clear x | skip)
    | split | refine keeps_mk ?_ rfl rfl rfl

theorem execSetShutter_keeps {a : State} (p : Packet) {s : State} (h : Keeps a s) : OKeeps a (execSetShutter p s) := by
  unfold execSetShutter
  with_reducible repeat' first
    | assumption | intro _ _ _ | intro _ _ | intro _ | apply next_keeps | apply runCommand_keeps | apply setShutter_keeps
    | (extract_lets +onlyGivenNames x; first | refine cut2 (p := Keeps _ x) ?_ (fun _ => ?_) | clear x | skip)
    | split | refine keeps_mk ?_ rfl rfl rfl

theorem clearShutter_keeps {a : State} (p : Packet) {s : State} (h : Keeps a s) : VKeeps a (clearShutter p s) := by
  unfold clearShutter
  with_reducible repeat' first
    | assumption | intro _ _ _ | intro _ _ | intro _ | apply stagedFor_keeps | apply bundleOpen_keeps | apply okDone_keeps | apply
      stage_keeps | apply refuse_keeps | apply badParam_keeps | apply ite_vkeeps | apply ite_keeps
    | (extract_lets +onlyGivenNames x; first | refine cut2 (p := Keeps _ x) ?_ (fun _ => ?_) | clear x | skip)
    | split | refine keeps_mk ?_ rfl rfl rfl

theorem execClearShutter_keeps {a : State} (p : Packet) {s : State} (h : Keeps a s) : OKeeps a (execClearShutter p s) := by
  unfold execClearShutter
  with_reducible repeat' first
    | assumption | intro _ _ _ | intro _ _ | intro _ | apply next_keeps | apply runCommand_keeps | apply clearShutter_keeps
    | (extract_lets +onlyGivenNames x; first | refine cut2 (p := Keeps _ x) ?_ (fun _ => ?_) | clear x | skip)
    | split | refine keeps_mk ?_ rfl rfl rfl

theorem setTrigger_keeps {a : State} (p : Packet) {s : State} (h : Keeps a s) : VKeeps a (setTrigger p s) := by
  unfold setTrigger
  with_reducible repeat' first
    | assumption | intro _ _ _ | intro _ _ | intro _ | apply bundleOpen_keeps | apply stagedFor_keeps | apply stage_keeps | apply
      refuseIf_keeps | apply badParam_keeps | apply ite_vkeeps | apply ite_keeps
    | (extract_lets +onlyGivenNames x; first | refine cut2 (p := Keeps _ x) ?_ (fun _ => ?_) | clear x | skip)
    | split | refine keeps_mk ?_ rfl rfl rfl

theorem execSetTrigger_keeps {a : State} (p : Packet) {s : State} (h : Keeps a s) : OKeeps a (execSetTrigger p s) := by
  unfold execSetTrigger
  with_reducible repeat' first
    | assumption | intro _ _ _ | intro _ _ | intro _ | apply next_keeps | apply runCommand_keeps | apply setTrigger_keeps
    | (extract_lets +onlyGivenNames x; first | refine cut2 (p := Keeps _ x) ?_ (fun _ => ?_) | clear x | skip)
    | split | refine keeps_mk ?_ rfl rfl rfl

theorem setPps_keeps {a : State} (p : Packet) {s : State} (h : Keeps a s) : VKeeps a (setPps p s) := by
  unfold setPps
  with_reducible repeat' first
    | assumption | intro _ _ _ | intro _ _ | intro _ | apply bundleOpen_keeps | apply stage_keeps | apply badParam_keeps | apply
      ite_vkeeps | apply ite_keeps
    | (extract_lets +onlyGivenNames x; first | refine cut2 (p := Keeps _ x) ?_ (fun _ => ?_) | clear x | skip)
    | split | refine keeps_mk ?_ rfl rfl rfl

theorem execSetPps_keeps {a : State} (p : Packet) {s : State} (h : Keeps a s) : OKeeps a (execSetPps p s) := by
  unfold execSetPps
  with_reducible repeat' first
    | assumption | intro _ _ _ | intro _ _ | intro _ | apply next_keeps | apply runCommand_keeps | apply setPps_keeps
    | (extract_lets +onlyGivenNames x; first | refine cut2 (p := Keeps _ x) ?_ (fun _ => ?_) | clear x | skip)
    | split | refine keeps_mk ?_ rfl rfl rfl

/-! ### AdmissionCmds -/

theorem declare_keeps {a : State} (p : Packet) (pick : Option Nat) (d : Decl) {s : State} (h : Keeps a s) : VKeeps a (declare p s pick d) := by
  have hst := fun n b => stage_keeps p [.declare n d p.source] b (drawn_keeps 2 h)
  unfold declare
  dsimp only
  split
  · trivial
  · trivial
  · rename_i n _
    refine refuseIf_keeps _ _ _ ?_
    have k := hst n (le 2 n ++ advisory s (writeDown (stageCtx p) (stagedFor p s) (.declare n d p.source)) n d)
    split
    · rename_i e
      rw [e] at k
      (repeat' split) <;> exact k
    · exact k

theorem declareStream_keeps {a : State} (p : Packet) {s : State} (h : Keeps a s) : VKeeps a (declareStream p s) := by
  unfold declareStream
  with_reducible repeat' first
    | assumption | intro _ _ _ | intro _ _ | intro _ | apply stagedFor_keeps | apply bundleOpen_keeps | apply declare_keeps | apply
      refuse_keeps | apply refuseIf_keeps | apply badParam_keeps | apply ite_vkeeps | apply ite_keeps
    | (extract_lets +onlyGivenNames x; first | refine cut2 (p := Keeps _ x) ?_ (fun _ => ?_) | clear x | skip)
    | split | refine keeps_mk ?_ rfl rfl rfl

theorem execDeclareStream_keeps {a : State} (p : Packet) {s : State} (h : Keeps a s) : OKeeps a (execDeclareStream p s) := by
  unfold execDeclareStream
  with_reducible repeat' first
    | assumption | intro _ _ _ | intro _ _ | intro _ | apply next_keeps | apply runCommand_keeps | apply declareStream_keeps
    | (extract_lets +onlyGivenNames x; first | refine cut2 (p := Keeps _ x) ?_ (fun _ => ?_) | clear x | skip)
    | split | refine keeps_mk ?_ rfl rfl rfl

theorem declareForeign_keeps {a : State} (p : Packet) {s : State} (h : Keeps a s) : VKeeps a (declareForeign p s) := by
  unfold declareForeign
  with_reducible repeat' first
    | assumption | intro _ _ _ | intro _ _ | intro _ | apply withChan_keeps | apply bundleOpen_keeps | apply declare_keeps | apply
      refuseIf_keeps | apply badParam_keeps
    | (extract_lets +onlyGivenNames x; first | refine cut2 (p := Keeps _ x) ?_ (fun _ => ?_) | clear x | skip)
    | split | refine keeps_mk ?_ rfl rfl rfl

theorem execDeclareForeign_keeps {a : State} (p : Packet) {s : State} (h : Keeps a s) : OKeeps a (execDeclareForeign p s) := by
  unfold execDeclareForeign
  with_reducible repeat' first
    | assumption | intro _ _ _ | intro _ _ | intro _ | apply next_keeps | apply runCommand_keeps | apply declareForeign_keeps
    | (extract_lets +onlyGivenNames x; first | refine cut2 (p := Keeps _ x) ?_ (fun _ => ?_) | clear x | skip)
    | split | refine keeps_mk ?_ rfl rfl rfl

theorem dropDecl_keeps {a : State} (x0 : Nat) (n : Nat) {s : State} (h : Keeps a s) : Keeps a (dropDecl x0 n s) := by
  unfold dropDecl
  with_reducible repeat' first
    | assumption | intro _ _ _ | intro _ _ | intro _ | apply State_modCtx_keeps
    | (extract_lets +onlyGivenNames x; first | refine cut2 (p := Keeps _ x) ?_ (fun _ => ?_) | clear x | skip)
    | split | refine keeps_mk ?_ rfl rfl rfl

theorem withdrawStream_keeps {a : State} (p : Packet) {s : State} (h : Keeps a s) : VKeeps a (withdrawStream p s) := by
  unfold withdrawStream
  with_reducible repeat' first
    | assumption | intro _ _ _ | intro _ _ | intro _ | apply stagedFor_keeps | apply bundleOpen_keeps | apply stage_keeps | apply
      okDone_keeps | apply streamBathEvent_keeps | apply dropDecl_keeps | apply modRec_keeps | apply refuseIf_keeps | apply
      badParam_keeps | apply ite_vkeeps | apply ite_keeps
    | (extract_lets +onlyGivenNames x; first | refine cut2 (p := Keeps _ x) ?_ (fun _ => ?_) | clear x | skip)
    | split | refine keeps_mk ?_ rfl rfl rfl

theorem execWithdrawStream_keeps {a : State} (p : Packet) {s : State} (h : Keeps a s) : OKeeps a (execWithdrawStream p s) := by
  unfold execWithdrawStream
  with_reducible repeat' first
    | assumption | intro _ _ _ | intro _ _ | intro _ | apply next_keeps | apply runCommand_keeps | apply withdrawStream_keeps
    | (extract_lets +onlyGivenNames x; first | refine cut2 (p := Keeps _ x) ?_ (fun _ => ?_) | clear x | skip)
    | split | refine keeps_mk ?_ rfl rfl rfl

theorem setFaultBudget_keeps {a : State} (p : Packet) {s : State} (h : Keeps a s) : VKeeps a (setFaultBudget p s) := by
  unfold setFaultBudget
  with_reducible repeat' first
    | assumption | intro _ _ _ | intro _ _ | intro _ | apply withChan_keeps | apply bundleOpen_keeps | apply stage_keeps | apply
      badParam_keeps
    | (extract_lets +onlyGivenNames x; first | refine cut2 (p := Keeps _ x) ?_ (fun _ => ?_) | clear x | skip)
    | split | refine keeps_mk ?_ rfl rfl rfl

theorem execSetFaultBudget_keeps {a : State} (p : Packet) {s : State} (h : Keeps a s) : OKeeps a (execSetFaultBudget p s) := by
  unfold execSetFaultBudget
  with_reducible repeat' first
    | assumption | intro _ _ _ | intro _ _ | intro _ | apply next_keeps | apply runCommand_keeps | apply setFaultBudget_keeps
    | (extract_lets +onlyGivenNames x; first | refine cut2 (p := Keeps _ x) ?_ (fun _ => ?_) | clear x | skip)
    | split | refine keeps_mk ?_ rfl rfl rfl

theorem admitRoute_keeps {a : State} (p : Packet) {s : State} (h : Keeps a s) : VKeeps a (admitRoute p s) := by
  unfold admitRoute
  with_reducible repeat' first
    | assumption | intro _ _ _ | intro _ _ | intro _ | apply stagedFor_keeps | apply bundleOpen_keeps | apply writeDown_keeps | apply
      stage_keeps | apply drawn_keeps | apply refuseIf_keeps | apply badParam_keeps | apply ite_vkeeps | apply ite_keeps
    | (extract_lets +onlyGivenNames x; first | refine cut2 (p := Keeps _ x) ?_ (fun _ => ?_) | clear x | skip)
    | split | refine keeps_mk ?_ rfl rfl rfl

theorem execAdmitRoute_keeps {a : State} (p : Packet) {s : State} (h : Keeps a s) : OKeeps a (execAdmitRoute p s) := by
  unfold execAdmitRoute
  with_reducible repeat' first
    | assumption | intro _ _ _ | intro _ _ | intro _ | apply next_keeps | apply runCommand_keeps | apply admitRoute_keeps
    | (extract_lets +onlyGivenNames x; first | refine cut2 (p := Keeps _ x) ?_ (fun _ => ?_) | clear x | skip)
    | split | refine keeps_mk ?_ rfl rfl rfl

theorem declView_keeps {a : State} {s : State} (n : Nat) (h : Keeps a s) : Keeps a (declView s n) := by
  unfold declView
  with_reducible repeat' first
    | assumption | intro _ _ _ | intro _ _ | intro _ | apply writeAll_keeps
    | (extract_lets +onlyGivenNames x; first | refine cut2 (p := Keeps _ x) ?_ (fun _ => ?_) | clear x | skip)
    | split | refine keeps_mk ?_ rfl rfl rfl

theorem getExposure_keeps {a : State} (p : Packet) {s : State} (h : Keeps a s) : VKeeps a (getExposure p s) := by
  unfold getExposure
  with_reducible repeat' first
    | assumption | intro _ _ _ | intro _ _ | intro _ | apply okBody_keeps | apply declView_keeps | apply drawn_keeps | apply
      refuse_keeps | apply badParam_keeps
    | (extract_lets +onlyGivenNames x; first | refine cut2 (p := Keeps _ x) ?_ (fun _ => ?_) | clear x | skip)
    | split | refine keeps_mk ?_ rfl rfl rfl

theorem execGetExposure_keeps {a : State} (p : Packet) {s : State} (h : Keeps a s) : OKeeps a (execGetExposure p s) := by
  unfold execGetExposure
  with_reducible repeat' first
    | assumption | intro _ _ _ | intro _ _ | intro _ | apply next_keeps | apply runCommand_keeps | apply getExposure_keeps
    | (extract_lets +onlyGivenNames x; first | refine cut2 (p := Keeps _ x) ?_ (fun _ => ?_) | clear x | skip)
    | split | refine keeps_mk ?_ rfl rfl rfl

theorem ackCauses_keeps {a : State} (ch : Nat) {s : State} (h : Keeps a s) : Keeps a (ackCauses ch s) := by
  unfold ackCauses
  with_reducible repeat' first
    | assumption | intro _ _ _ | intro _ _ | intro _ | apply State_modMon_keeps | apply raiseEvent_keeps | apply forEach_keeps | apply
      ite_keeps
    | (extract_lets +onlyGivenNames x; first | refine cut2 (p := Keeps _ x) ?_ (fun _ => ?_) | clear x | skip)
    | split | refine keeps_mk ?_ rfl rfl rfl

theorem ackUnassured_keeps {a : State} (p : Packet) {s : State} (h : Keeps a s) : VKeeps a (ackUnassured p s) := by
  unfold ackUnassured
  with_reducible repeat' first
    | assumption | intro _ _ _ | intro _ _ | intro _ | apply withChan_keeps | apply ackCauses_keeps | apply okBody_keeps | apply
      badParam_keeps
    | (extract_lets +onlyGivenNames x; first | refine cut2 (p := Keeps _ x) ?_ (fun _ => ?_) | clear x | skip)
    | split | refine keeps_mk ?_ rfl rfl rfl

theorem execAckUnassured_keeps {a : State} (p : Packet) {s : State} (h : Keeps a s) : OKeeps a (execAckUnassured p s) := by
  unfold execAckUnassured
  with_reducible repeat' first
    | assumption | intro _ _ _ | intro _ _ | intro _ | apply next_keeps | apply runCommand_keeps | apply ackUnassured_keeps
    | (extract_lets +onlyGivenNames x; first | refine cut2 (p := Keeps _ x) ?_ (fun _ => ?_) | clear x | skip)
    | split | refine keeps_mk ?_ rfl rfl rfl

theorem getMonitors_keeps {a : State} (p : Packet) {s : State} (h : Keeps a s) : VKeeps a (getMonitors p s) := by
  unfold getMonitors
  with_reducible repeat' first
    | assumption | intro _ _ _ | intro _ _ | intro _ | apply withChan_keeps | apply okBody_keeps | apply badParam_keeps
    | (extract_lets +onlyGivenNames x; first | refine cut2 (p := Keeps _ x) ?_ (fun _ => ?_) | clear x | skip)
    | split | refine keeps_mk ?_ rfl rfl rfl

theorem execGetMonitors_keeps {a : State} (p : Packet) {s : State} (h : Keeps a s) : OKeeps a (execGetMonitors p s) := by
  unfold execGetMonitors
  with_reducible repeat' first
    | assumption | intro _ _ _ | intro _ _ | intro _ | apply next_keeps | apply runCommand_keeps | apply getMonitors_keeps
    | (extract_lets +onlyGivenNames x; first | refine cut2 (p := Keeps _ x) ?_ (fun _ => ?_) | clear x | skip)
    | split | refine keeps_mk ?_ rfl rfl rfl

end Sys2Proof.Machine
end

