-- ==== Sys2Proof/Laws/KeepsLoads.lean ====
section
/-!
SUPPORT. Check values, loads and routing keep the queue, the straps and the fault log sound.
-/

namespace Sys2Proof.Machine

set_option linter.all false

/-! ### CvuOps -/

theorem cvuEnable_keeps {a : State} (u : Nat) {s : State} (h : Keeps a s) : Keeps a (cvuEnable u s) := by
  unfold cvuEnable
  with_reducible repeat' first
    | assumption | intro _ _ _ | intro _ _ | intro _ | apply State_modCvu_keeps
    | (extract_lets +onlyGivenNames x; first | refine cut2 (p := Keeps _ x) ?_ (fun _ => ?_) | clear x | skip)
    | split | refine keeps_mk ?_ rfl rfl rfl

theorem cvuRun_keeps {a : State} (u : Nat) (c : CvuParams) (l : List Byte) {s : State} (h : Keeps a s) : Keeps a (cvuRun u c l s) := by
  unfold cvuRun
  with_reducible repeat' first
    | assumption | intro _ _ _ | intro _ _ | intro _ | apply State_modCvu_keeps
    | (extract_lets +onlyGivenNames x; first | refine cut2 (p := Keeps _ x) ?_ (fun _ => ?_) | clear x | skip)
    | split | refine keeps_mk ?_ rfl rfl rfl

theorem cvCheck_keeps {a : State} (p : PduSet) (data : List Byte) {s : State} (h : Keeps a s) : Keeps a (cvCheck p data s).2 := by
  unfold cvCheck
  with_reducible repeat' first
    | assumption | intro _ _ _ | intro _ _ | intro _ | apply cvuRun_keeps | apply State_modCvu_keeps | apply ite_keeps
    | (extract_lets +onlyGivenNames x; first | refine cut2 (p := Keeps _ x) ?_ (fun _ => ?_) | clear x | skip)
    | split | refine keeps_mk ?_ rfl rfl rfl

theorem cvAppend_keeps {a : State} (p : PduSet) (data : List Byte) {s : State} (h : Keeps a s) : Keeps a (cvAppend p data s).2 := by
  unfold cvAppend
  with_reducible repeat' first
    | assumption | intro _ _ _ | intro _ _ | intro _ | apply cvuRun_keeps | apply State_modCvu_keeps | apply ite_keeps
    | (extract_lets +onlyGivenNames x; first | refine cut2 (p := Keeps _ x) ?_ (fun _ => ?_) | clear x | skip)
    | split | refine keeps_mk ?_ rfl rfl rfl

theorem execCvuStopBathEnd_keeps {a : State} (unit : Fin 32) {s : State} (h : Keeps a s) : OKeeps a (execCvuStopBathEnd unit s) := by
  unfold execCvuStopBathEnd
  with_reducible repeat' first
    | assumption | intro _ _ _ | intro _ _ | intro _ | apply next_keeps | apply cvuEvent_keeps | apply State_modCvu_keeps | apply
      cvuEnable_keeps | apply ite_okeeps | apply ite_keeps
    | (extract_lets +onlyGivenNames x; first | refine cut2 (p := Keeps _ x) ?_ (fun _ => ?_) | clear x | skip)
    | split | refine keeps_mk ?_ rfl rfl rfl

/-! ### CvuCmds -/

theorem configUnit_keeps {a : State} (p : Packet) {s : State} (u : Nat) (mode : Nat) (prm : CvuParams) (h : Keeps a s) : VKeeps a (configUnit p s u mode prm) := by
  unfold configUnit
  with_reducible repeat' first
    | assumption | intro _ _ _ | intro _ _ | intro _ | apply stagedFor_keeps | apply stage_keeps | apply refuseIf_keeps | apply
      ite_vkeeps | apply ite_keeps
    | (extract_lets +onlyGivenNames x; first | refine cut2 (p := Keeps _ x) ?_ (fun _ => ?_) | clear x | skip)
    | split | refine keeps_mk ?_ rfl rfl rfl

theorem configCvuCmd_keeps {a : State} (p : Packet) {s : State} (h : Keeps a s) : VKeeps a (configCvuCmd p s) := by
  unfold configCvuCmd
  with_reducible repeat' first
    | assumption | intro _ _ _ | intro _ _ | intro _ | apply bundleOpen_keeps | apply configUnit_keeps | apply refuse_keeps | apply
      refuseIf_keeps | apply badParam_keeps | apply ite_vkeeps | apply ite_keeps
    | (extract_lets +onlyGivenNames x; first | refine cut2 (p := Keeps _ x) ?_ (fun _ => ?_) | clear x | skip)
    | split | refine keeps_mk ?_ rfl rfl rfl

theorem execConfigCvu_keeps {a : State} (p : Packet) {s : State} (h : Keeps a s) : OKeeps a (execConfigCvu p s) := by
  unfold execConfigCvu
  with_reducible repeat' first
    | assumption | intro _ _ _ | intro _ _ | intro _ | apply next_keeps | apply runCommand_keeps | apply configCvuCmd_keeps
    | (extract_lets +onlyGivenNames x; first | refine cut2 (p := Keeps _ x) ?_ (fun _ => ?_) | clear x | skip)
    | split | refine keeps_mk ?_ rfl rfl rfl

theorem withFeedUnit_keeps {a : State} {s : State} (u : Nat) (k : CvuParams → Verdict) (hk : ∀ y0, VKeeps a (k y0)) (h : Keeps a s) : VKeeps a (withFeedUnit s u k) := by
  unfold withFeedUnit
  with_reducible repeat' first
    | assumption | intro _ _ _ | intro _ _ | intro _ | apply hk | apply refuse_keeps | apply ite_vkeeps | apply ite_keeps
    | (extract_lets +onlyGivenNames x; first | refine cut2 (p := Keeps _ x) ?_ (fun _ => ?_) | clear x | skip)
    | split | refine keeps_mk ?_ rfl rfl rfl

theorem feedCvu_keeps {a : State} (p : Packet) {s : State} (h : Keeps a s) : VKeeps a (feedCvu p s) := by
  unfold feedCvu
  with_reducible repeat' first
    | assumption | intro _ _ _ | intro _ _ | intro _ | apply withFeedUnit_keeps | apply okBody_keeps | apply State_modCvu_keeps |
      apply badParam_keeps | apply ite_vkeeps | apply ite_keeps
    | (extract_lets +onlyGivenNames x; first | refine cut2 (p := Keeps _ x) ?_ (fun _ => ?_) | clear x | skip)
    | split | refine keeps_mk ?_ rfl rfl rfl

theorem execFeedCvu_keeps {a : State} (p : Packet) {s : State} (h : Keeps a s) : OKeeps a (execFeedCvu p s) := by
  unfold execFeedCvu
  with_reducible repeat' first
    | assumption | intro _ _ _ | intro _ _ | intro _ | apply next_keeps | apply runCommand_keeps | apply feedCvu_keeps
    | (extract_lets +onlyGivenNames x; first | refine cut2 (p := Keeps _ x) ?_ (fun _ => ?_) | clear x | skip)
    | split | refine keeps_mk ?_ rfl rfl rfl

theorem readCvu_keeps {a : State} (p : Packet) {s : State} (h : Keeps a s) : VKeeps a (readCvu p s) := by
  unfold readCvu
  with_reducible repeat' first
    | assumption | intro _ _ _ | intro _ _ | intro _ | apply okBody_keeps | apply badParam_keeps
    | (extract_lets +onlyGivenNames x; first | refine cut2 (p := Keeps _ x) ?_ (fun _ => ?_) | clear x | skip)
    | split | refine keeps_mk ?_ rfl rfl rfl

theorem execReadCvu_keeps {a : State} (p : Packet) {s : State} (h : Keeps a s) : OKeeps a (execReadCvu p s) := by
  unfold execReadCvu
  with_reducible repeat' first
    | assumption | intro _ _ _ | intro _ _ | intro _ | apply next_keeps | apply runCommand_keeps | apply readCvu_keeps
    | (extract_lets +onlyGivenNames x; first | refine cut2 (p := Keeps _ x) ?_ (fun _ => ?_) | clear x | skip)
    | split | refine keeps_mk ?_ rfl rfl rfl

theorem writeCvuValue_keeps {a : State} (p : Packet) {s : State} (h : Keeps a s) : VKeeps a (writeCvuValue p s) := by
  unfold writeCvuValue
  with_reducible repeat' first
    | assumption | intro _ _ _ | intro _ _ | intro _ | apply withFeedUnit_keeps | apply okDone_keeps | apply State_modCvu_keeps |
      apply badParam_keeps
    | (extract_lets +onlyGivenNames x; first | refine cut2 (p := Keeps _ x) ?_ (fun _ => ?_) | clear x | skip)
    | split | refine keeps_mk ?_ rfl rfl rfl

theorem execWriteCvuValue_keeps {a : State} (p : Packet) {s : State} (h : Keeps a s) : OKeeps a (execWriteCvuValue p s) := by
  unfold execWriteCvuValue
  with_reducible repeat' first
    | assumption | intro _ _ _ | intro _ _ | intro _ | apply next_keeps | apply runCommand_keeps | apply writeCvuValue_keeps
    | (extract_lets +onlyGivenNames x; first | refine cut2 (p := Keeps _ x) ?_ (fun _ => ?_) | clear x | skip)
    | split | refine keeps_mk ?_ rfl rfl rfl

theorem withUnit_keeps {a : State} (p : Packet) {s : State} (k : Nat → Verdict) (hk : ∀ y0, VKeeps a (k y0)) (h : Keeps a s) : VKeeps a (withUnit p s k) := by
  unfold withUnit
  with_reducible repeat' first
    | assumption | intro _ _ _ | intro _ _ | intro _ | apply hk | apply refuse_keeps | apply badParam_keeps | apply ite_vkeeps | apply
      ite_keeps
    | (extract_lets +onlyGivenNames x; first | refine cut2 (p := Keeps _ x) ?_ (fun _ => ?_) | clear x | skip)
    | split | refine keeps_mk ?_ rfl rfl rfl

theorem enableCvu_keeps {a : State} (p : Packet) {s : State} (h : Keeps a s) : VKeeps a (enableCvu p s) := by
  unfold enableCvu
  with_reducible repeat' first
    | assumption | intro _ _ _ | intro _ _ | intro _ | apply withUnit_keeps | apply State_modCvu_keeps | apply okDone_keeps | apply
      cvuEnable_keeps | apply reply_keeps | apply ite_vkeeps | apply ite_keeps
    | (extract_lets +onlyGivenNames x; first | refine cut2 (p := Keeps _ x) ?_ (fun _ => ?_) | clear x | skip)
    | split | refine keeps_mk ?_ rfl rfl rfl

theorem execEnableCvu_keeps {a : State} (p : Packet) {s : State} (h : Keeps a s) : OKeeps a (execEnableCvu p s) := by
  unfold execEnableCvu
  with_reducible repeat' first
    | assumption | intro _ _ _ | intro _ _ | intro _ | apply next_keeps | apply runCommand_keeps | apply enableCvu_keeps
    | (extract_lets +onlyGivenNames x; first | refine cut2 (p := Keeps _ x) ?_ (fun _ => ?_) | clear x | skip)
    | split | refine keeps_mk ?_ rfl rfl rfl

theorem disableCvu_keeps {a : State} (p : Packet) {s : State} (h : Keeps a s) : VKeeps a (disableCvu p s) := by
  unfold disableCvu
  with_reducible repeat' first
    | assumption | intro _ _ _ | intro _ _ | intro _ | apply withUnit_keeps | apply okDone_keeps | apply cvuEvent_keeps | apply
      State_modCvu_keeps | apply ite_vkeeps | apply ite_keeps
    | (extract_lets +onlyGivenNames x; first | refine cut2 (p := Keeps _ x) ?_ (fun _ => ?_) | clear x | skip)
    | split | refine keeps_mk ?_ rfl rfl rfl

theorem execDisableCvu_keeps {a : State} (p : Packet) {s : State} (h : Keeps a s) : OKeeps a (execDisableCvu p s) := by
  unfold execDisableCvu
  with_reducible repeat' first
    | assumption | intro _ _ _ | intro _ _ | intro _ | apply next_keeps | apply runCommand_keeps | apply disableCvu_keeps
    | (extract_lets +onlyGivenNames x; first | refine cut2 (p := Keeps _ x) ?_ (fun _ => ?_) | clear x | skip)
    | split | refine keeps_mk ?_ rfl rfl rfl

/-! ### LoadOps -/

theorem departLoads_keeps {a : State} (c : Nat) {s : State} (h : Keeps a s) : Keeps a (departLoads c s) := by
  unfold departLoads
  with_reducible repeat' first
    | assumption | intro _ _ _ | intro _ _ | intro _ | apply State_modLd_keeps | apply forRange_keeps | apply ite_keeps
    | (extract_lets +onlyGivenNames x; first | refine cut2 (p := Keeps _ x) ?_ (fun _ => ?_) | clear x | skip)
    | split | refine keeps_mk ?_ rfl rfl rfl

theorem turnOn_keeps {a : State} (n : Nat) {s : State} (h : Keeps a s) : Keeps a (turnOn n s) := by
  unfold turnOn
  with_reducible repeat' first
    | assumption | intro _ _ _ | intro _ _ | intro _ | apply State_modLd_keeps
    | (extract_lets +onlyGivenNames x; first | refine cut2 (p := Keeps _ x) ?_ (fun _ => ?_) | clear x | skip)
    | split | refine keeps_mk ?_ rfl rfl rfl

theorem turnOff_keeps {a : State} (n : Nat) {s : State} (h : Keeps a s) : Keeps a (turnOff n s) := by
  unfold turnOff
  with_reducible repeat' first
    | assumption | intro _ _ _ | intro _ _ | intro _ | apply State_modLd_keeps
    | (extract_lets +onlyGivenNames x; first | refine cut2 (p := Keeps _ x) ?_ (fun _ => ?_) | clear x | skip)
    | split | refine keeps_mk ?_ rfl rfl rfl

theorem setLoad_keeps {a : State} (n : Nat) (new : LoadState) {s : State} (h : Keeps a s) : Keeps a (setLoad n new s) := by
  unfold setLoad
  with_reducible repeat' first
    | assumption | intro _ _ _ | intro _ _ | intro _ | apply State_modLd_keeps | apply turnOn_keeps | apply turnOff_keeps | apply
      raiseEvents_keeps | apply ite_keeps
    | (extract_lets +onlyGivenNames x; first | refine cut2 (p := Keeps _ x) ?_ (fun _ => ?_) | clear x | skip)
    | split | refine keeps_mk ?_ rfl rfl rfl

theorem startLoadBath_keeps {a : State} (n : Nat) (retain : Bool) (by_ : Source) {s : State} (h : Keeps a s) : Keeps a (startLoadBath n retain by_ s) := by
  unfold startLoadBath
  with_reducible repeat' first
    | assumption | intro _ _ _ | intro _ _ | intro _ | apply setLoad_keeps | apply State_modLd_keeps | apply ite_keeps
    | (extract_lets +onlyGivenNames x; first | refine cut2 (p := Keeps _ x) ?_ (fun _ => ?_) | clear x | skip)
    | split | refine keeps_mk ?_ rfl rfl rfl

theorem retainLoads_keeps {a : State} {s : State} (h : Keeps a s) : Keeps a (retainLoads s) := by
  unfold retainLoads
  with_reducible repeat' first
    | assumption | intro _ _ _ | intro _ _ | intro _ | apply State_modLd_keeps | apply startLoadBath_keeps | apply forRange_keeps |
      apply ite_keeps
    | (extract_lets +onlyGivenNames x; first | refine cut2 (p := Keeps _ x) ?_ (fun _ => ?_) | clear x | skip)
    | split | refine keeps_mk ?_ rfl rfl rfl

theorem forceOne_keeps {a : State} (n : Nat) (sender : Source) {s : State} (h : Keeps a s) : Keeps a (forceOne n sender s) := by
  unfold forceOne
  with_reducible repeat' first
    | assumption | intro _ _ _ | intro _ _ | intro _ | apply State_modLd_keeps | apply setLoad_keeps | apply turnOff_keeps | apply
      ite_keeps
    | (extract_lets +onlyGivenNames x; first | refine cut2 (p := Keeps _ x) ?_ (fun _ => ?_) | clear x | skip)
    | split | refine keeps_mk ?_ rfl rfl rfl

theorem releaseOne_keeps {a : State} (n : Nat) (sender : Source) {s : State} (h : Keeps a s) : Keeps a (releaseOne n sender s) := by
  unfold releaseOne
  with_reducible repeat' first
    | assumption | intro _ _ _ | intro _ _ | intro _ | apply State_modLd_keeps | apply ite_keeps
    | (extract_lets +onlyGivenNames x; first | refine cut2 (p := Keeps _ x) ?_ (fun _ => ?_) | clear x | skip)
    | split | refine keeps_mk ?_ rfl rfl rfl

theorem startTransfer_keeps {a : State} (c : Nat) (atTick : Bool) {s : State} (h : Keeps a s) : Keeps a (startTransfer c atTick s) := by
  unfold startTransfer
  with_reducible repeat' first
    | assumption | intro _ _ _ | intro _ _ | intro _ | apply State_modSwc_keeps | apply State_emit_keeps | apply State_modLd_keeps |
      apply forRange_keeps | apply ite_keeps
    | (extract_lets +onlyGivenNames x; first | refine cut2 (p := Keeps _ x) ?_ (fun _ => ?_) | clear x | skip)
    | split | refine keeps_mk ?_ rfl rfl rfl

theorem extraTransfer_keeps {a : State} (c : Nat) {s : State} (h : Keeps a s) : Keeps a (extraTransfer c s) := by
  unfold extraTransfer
  with_reducible repeat' first
    | assumption | intro _ _ _ | intro _ _ | intro _ | apply State_modSwc_keeps | apply startTransfer_keeps | apply ite_keeps
    | (extract_lets +onlyGivenNames x; first | refine cut2 (p := Keeps _ x) ?_ (fun _ => ?_) | clear x | skip)
    | split | refine keeps_mk ?_ rfl rfl rfl

theorem applyForce_keeps {a : State} (action : Nat) (mask : Nat) (sender : Source) {s : State} (h : Keeps a s) : Keeps a (applyForce action mask sender s) := by
  unfold applyForce
  with_reducible repeat' first
    | assumption | intro _ _ _ | intro _ _ | intro _ | apply forceOne_keeps | apply releaseOne_keeps | apply extraTransfer_keeps |
      apply raiseEvent_keeps | apply forEach_keeps | apply ite_keeps
    | (extract_lets +onlyGivenNames x; first | refine cut2 (p := Keeps _ x) ?_ (fun _ => ?_) | clear x | skip)
    | split | refine keeps_mk ?_ rfl rfl rfl

theorem command_keeps {a : State} (n : Nat) (on : Bool) (duty : Nat) (by_ : Commander) {s : State} (h : Keeps a s) : Keeps a (command n on duty by_ s) := by
  unfold command
  with_reducible repeat' first
    | assumption | intro _ _ _ | intro _ _ | intro _ | apply State_modLd_keeps
    | (extract_lets +onlyGivenNames x; first | refine cut2 (p := Keeps _ x) ?_ (fun _ => ?_) | clear x | skip)
    | split | refine keeps_mk ?_ rfl rfl rfl

theorem localArrival_keeps {a : State} (block : Nat) (data : List Byte) {s : State} (h : Keeps a s) : Keeps a (localArrival block data s) := by
  unfold localArrival
  with_reducible repeat' first
    | assumption | intro _ _ _ | intro _ _ | intro _ | apply handOff_keeps | apply forEach_keeps | apply ite_keeps
    | (extract_lets +onlyGivenNames x; first | refine cut2 (p := Keeps _ x) ?_ (fun _ => ?_) | clear x | skip)
    | split | refine keeps_mk ?_ rfl rfl rfl

theorem loadBathEvent_keeps {a : State} (code : Nat) (n : Nat) (src : Source) {s : State} (h : Keeps a s) : Keeps a (loadBathEvent code n src s) := by
  unfold loadBathEvent
  with_reducible repeat' first
    | assumption | intro _ _ _ | intro _ _ | intro _ | apply raiseEvent_keeps
    | (extract_lets +onlyGivenNames x; first | refine cut2 (p := Keeps _ x) ?_ (fun _ => ?_) | clear x | skip)
    | split | refine keeps_mk ?_ rfl rfl rfl

theorem endLoadBath_keeps {a : State} (n : Nat) {s : State} (h : Keeps a s) : Keeps a (endLoadBath n s) := by
  unfold endLoadBath
  with_reducible repeat' first
    | assumption | intro _ _ _ | intro _ _ | intro _ | apply setLoad_keeps | apply State_modLd_keeps | apply loadBathEvent_keeps |
      apply ite_keeps
    | (extract_lets +onlyGivenNames x; first | refine cut2 (p := Keeps _ x) ?_ (fun _ => ?_) | clear x | skip)
    | split | refine keeps_mk ?_ rfl rfl rfl

theorem startWindow_keeps {a : State} (n : Nat) (granted : Bool) (uv : Bool) {s : State} (h : Keeps a s) : Keeps a (startWindow n granted uv s) := by
  unfold startWindow
  with_reducible repeat' first
    | assumption | intro _ _ _ | intro _ _ | intro _ | apply setLoad_keeps | apply State_modLd_keeps
    | (extract_lets +onlyGivenNames x; first | refine cut2 (p := Keeps _ x) ?_ (fun _ => ?_) | clear x | skip)
    | split | refine keeps_mk ?_ rfl rfl rfl

theorem goOn_keeps {a : State} (n : Nat) {s : State} (h : Keeps a s) : Keeps a (goOn n s) := by
  unfold goOn
  with_reducible repeat' first
    | assumption | intro _ _ _ | intro _ _ | intro _ | apply startWindow_keeps | apply setLoad_keeps | apply State_modLd_keeps
    | (extract_lets +onlyGivenNames x; first | refine cut2 (p := Keeps _ x) ?_ (fun _ => ?_) | clear x | skip)
    | split | refine keeps_mk ?_ rfl rfl rfl

theorem modPosition_keeps {a : State} (c : Nat) (p : Nat) (f : Nat → Load → Load) {s : State} (h : Keeps a s) : Keeps a (modPosition c p f s) := by
  unfold modPosition
  with_reducible repeat' first
    | assumption | intro _ _ _ | intro _ _ | intro _ | apply ite_keeps
    | (extract_lets +onlyGivenNames x; first | refine cut2 (p := Keeps _ x) ?_ (fun _ => ?_) | clear x | skip)
    | split | refine keeps_mk ?_ rfl rfl rfl

theorem chainEvent_keeps {a : State} (c : Nat) (p : Nat) (lost : Bool) {s : State} (h : Keeps a s) : Keeps a (chainEvent c p lost s) := by
  unfold chainEvent
  with_reducible repeat' first
    | assumption | intro _ _ _ | intro _ _ | intro _ | apply raiseEvent_keeps
    | (extract_lets +onlyGivenNames x; first | refine cut2 (p := Keeps _ x) ?_ (fun _ => ?_) | clear x | skip)
    | split | refine keeps_mk ?_ rfl rfl rfl

theorem takeResponse_keeps {a : State} (c : Nat) (f : Profile) (bits : List Bool) (p : Nat) {s : State} (h : Keeps a s) : Keeps a (takeResponse c f bits p s) := by
  unfold takeResponse
  with_reducible repeat' first
    | assumption | intro _ _ _ | intro _ _ | intro _ | apply State_modSwc_keeps | apply modPosition_keeps | apply chainEvent_keeps |
      apply ite_keeps
    | (extract_lets +onlyGivenNames x; first | refine cut2 (p := Keeps _ x) ?_ (fun _ => ?_) | clear x | skip)
    | split | refine keeps_mk ?_ rfl rfl rfl

theorem endChainBaths_keeps {a : State} (c : Nat) {s : State} (h : Keeps a s) : Keeps a (endChainBaths c s) := by
  unfold endChainBaths
  with_reducible repeat' first
    | assumption | intro _ _ _ | intro _ _ | intro _ | apply endLoadBath_keeps | apply forRange_keeps | apply ite_keeps
    | (extract_lets +onlyGivenNames x; first | refine cut2 (p := Keeps _ x) ?_ (fun _ => ?_) | clear x | skip)
    | split | refine keeps_mk ?_ rfl rfl rfl

theorem execChainTransferEnd_keeps {a : State} (swc : Fin 8) (response : List Byte) {s : State} (h : Keeps a s) : OKeeps a (execChainTransferEnd swc response s) := by
  unfold execChainTransferEnd
  with_reducible repeat' first
    | assumption | intro _ _ _ | intro _ _ | intro _ | apply next_keeps | apply reachClk_keeps | apply takeResponse_keeps | apply
      endChainBaths_keeps | apply State_modSwc_keeps | apply startTransfer_keeps | apply forRange_keeps | apply ite_okeeps | apply
      ite_keeps
    | (extract_lets +onlyGivenNames x; first | refine cut2 (p := Keeps _ x) ?_ (fun _ => ?_) | clear x | skip)
    | split | refine keeps_mk ?_ rfl rfl rfl

/-! ### LoadTick -/

theorem restartTicks_keeps {a : State} {s : State} (h : Keeps a s) : Keeps a (restartTicks s) := by
  unfold restartTicks
  with_reducible repeat' first
    | assumption | intro _ _ _ | intro _ _ | intro _
    | (extract_lets +onlyGivenNames x; first | refine cut2 (p := Keeps _ x) ?_ (fun _ => ?_) | clear x | skip)
    | split | refine keeps_mk ?_ rfl rfl rfl

theorem restartMean_keeps {a : State} {s : State} (h : Keeps a s) : Keeps a (restartMean s) := by
  unfold restartMean
  with_reducible repeat' first
    | assumption | intro _ _ _ | intro _ _ | intro _ | apply drawn_keeps
    | (extract_lets +onlyGivenNames x; first | refine cut2 (p := Keeps _ x) ?_ (fun _ => ?_) | clear x | skip)
    | split | refine keeps_mk ?_ rfl rfl rfl

theorem execVbatsFilterUpdate_keeps {a : State} (samples : List Nat) {s : State} (h : Keeps a s) : OKeeps a (execVbatsFilterUpdate samples s) := by
  unfold execVbatsFilterUpdate
  with_reducible repeat' first
    | assumption | intro _ _ _ | intro _ _ | intro _ | apply next_keeps | apply reachClk_keeps | apply localArrival_keeps | apply
      ite_okeeps | apply ite_keeps
    | (extract_lets +onlyGivenNames x; first | refine cut2 (p := Keeps _ x) ?_ (fun _ => ?_) | clear x | skip)
    | split | refine keeps_mk ?_ rfl rfl rfl | refine keeps_tab ?_ rfl rfl rfl ?_ ?_ ?_ ?_ ?_ ?_ | apply rising_mset | apply rising_mdel | apply rising_mmod | refine rising_map (fun _ => ?_) ?_ | rfl

theorem takeVbats_keeps {a : State} (samples : List Nat) {s : State} (h : Keeps a s) : Keeps a (takeVbats samples s) := by
  unfold takeVbats
  with_reducible repeat' first
    | assumption | intro _ _ _ | intro _ _ | intro _ | apply ite_keeps
    | (extract_lets +onlyGivenNames x; first | refine cut2 (p := Keeps _ x) ?_ (fun _ => ?_) | clear x | skip)
    | split | refine keeps_mk ?_ rfl rfl rfl | refine keeps_tab ?_ rfl rfl rfl ?_ ?_ ?_ ?_ ?_ ?_ | apply rising_mset | apply rising_mdel | apply rising_mmod | refine rising_map (fun _ => ?_) ?_ | rfl

theorem takeProfile_keeps {a : State} (c : Nat) {s : State} (h : Keeps a s) : Keeps a (takeProfile c s) := by
  unfold takeProfile
  with_reducible repeat' first
    | assumption | intro _ _ _ | intro _ _ | intro _ | apply State_modSwc_keeps
    | (extract_lets +onlyGivenNames x; first | refine cut2 (p := Keeps _ x) ?_ (fun _ => ?_) | clear x | skip)
    | split | refine keeps_mk ?_ rfl rfl rfl

theorem bindEndsBath_keeps {a : State} (n : Nat) {s : State} (h : Keeps a s) : Keeps a (bindEndsBath n s) := by
  unfold bindEndsBath
  with_reducible repeat' first
    | assumption | intro _ _ _ | intro _ _ | intro _ | apply loadBathEvent_keeps | apply ite_keeps
    | (extract_lets +onlyGivenNames x; first | refine cut2 (p := Keeps _ x) ?_ (fun _ => ?_) | clear x | skip)
    | split | refine keeps_mk ?_ rfl rfl rfl

theorem bindNow_keeps {a : State} (n : Nat) (b : Option Binding) {s : State} (h : Keeps a s) : Keeps a (bindNow n b s) := by
  unfold bindNow
  with_reducible repeat' first
    | assumption | intro _ _ _ | intro _ _ | intro _ | apply turnOff_keeps | apply bindEndsBath_keeps | apply State_modLd_keeps |
      apply setLoad_keeps | apply ite_keeps
    | (extract_lets +onlyGivenNames x; first | refine cut2 (p := Keeps _ x) ?_ (fun _ => ?_) | clear x | skip)
    | split | refine keeps_mk ?_ rfl rfl rfl

theorem tickBath_keeps {a : State} (n : Nat) {s : State} (h : Keeps a s) : Keeps a (tickBath n s) := by
  unfold tickBath
  with_reducible repeat' first
    | assumption | intro _ _ _ | intro _ _ | intro _ | apply endLoadBath_keeps | apply turnOff_keeps | apply ite_keeps
    | (extract_lets +onlyGivenNames x; first | refine cut2 (p := Keeps _ x) ?_ (fun _ => ?_) | clear x | skip)
    | split | refine keeps_mk ?_ rfl rfl rfl

theorem resetNow_keeps {a : State} (n : Nat) {s : State} (h : Keeps a s) : Keeps a (resetNow n s) := by
  unfold resetNow
  with_reducible repeat' first
    | assumption | intro _ _ _ | intro _ _ | intro _ | apply State_modLd_keeps | apply setLoad_keeps
    | (extract_lets +onlyGivenNames x; first | refine cut2 (p := Keeps _ x) ?_ (fun _ => ?_) | clear x | skip)
    | split | refine keeps_mk ?_ rfl rfl rfl

theorem takeLatched_keeps {a : State} (n : Nat) {s : State} (h : Keeps a s) : Keeps a (takeLatched n s) := by
  unfold takeLatched
  with_reducible repeat' first
    | assumption | intro _ _ _ | intro _ _ | intro _ | apply State_modLd_keeps | apply bindNow_keeps | apply tickBath_keeps | apply
      resetNow_keeps | apply setLoad_keeps | apply ite_keeps
    | (extract_lets +onlyGivenNames x; first | refine cut2 (p := Keeps _ x) ?_ (fun _ => ?_) | clear x | skip)
    | split | refine keeps_mk ?_ rfl rfl rfl

theorem judgeOpen_keeps {a : State} (n : Nat) {s : State} (h : Keeps a s) : Keeps a (judgeOpen n s) := by
  unfold judgeOpen
  with_reducible repeat' first
    | assumption | intro _ _ _ | intro _ _ | intro _ | apply State_modLd_keeps | apply raiseEvents_keeps | apply ite_keeps
    | (extract_lets +onlyGivenNames x; first | refine cut2 (p := Keeps _ x) ?_ (fun _ => ?_) | clear x | skip)
    | split | refine keeps_mk ?_ rfl rfl rfl

theorem judgeReports_keeps {a : State} (n : Nat) {s : State} (h : Keeps a s) : Keeps a (judgeReports n s).1 := by
  unfold judgeReports
  with_reducible repeat' first
    | assumption | intro _ _ _ | intro _ _ | intro _ | apply State_modLd_keeps | apply judgeOpen_keeps | apply ite_keeps
    | (extract_lets +onlyGivenNames x; first | refine cut2 (p := Keeps _ x) ?_ (fun _ => ?_) | clear x | skip)
    | split | refine keeps_mk ?_ rfl rfl rfl

theorem judgeAll_keeps {a : State} (l : List Nat) {s : State} (h : Keeps a s) : Keeps a (judgeAll l s).1 :=
  foldl_keeps_fst (z := (s, [])) l _ (fun z n hz => judgeReports_keeps n hz) h

theorem extendWindow_keeps {a : State} (js : List Judged) (n : Nat) {s : State} (h : Keeps a s) : Keeps a (extendWindow js n s) := by
  unfold extendWindow
  with_reducible repeat' first
    | assumption | intro _ _ _ | intro _ _ | intro _ | apply State_modLd_keeps | apply ite_keeps
    | (extract_lets +onlyGivenNames x; first | refine cut2 (p := Keeps _ x) ?_ (fun _ => ?_) | clear x | skip)
    | split | refine keeps_mk ?_ rfl rfl rfl

theorem reportEvents_keeps {a : State} (n : Nat) (j : Judged) {s : State} (h : Keeps a s) : Keeps a (reportEvents n j s) := by
  unfold reportEvents
  with_reducible repeat' first
    | assumption | intro _ _ _ | intro _ _ | intro _ | apply raiseEvents_keeps | apply ite_keeps
    | (extract_lets +onlyGivenNames x; first | refine cut2 (p := Keeps _ x) ?_ (fun _ => ?_) | clear x | skip)
    | split | refine keeps_mk ?_ rfl rfl rfl

theorem reportOutcome_keeps {a : State} (n : Nat) (j : Judged) {s : State} (h : Keeps a s) : Keeps a (reportOutcome n j s) := by
  unfold reportOutcome
  with_reducible repeat' first
    | assumption | intro _ _ _ | intro _ _ | intro _ | apply State_modLd_keeps | apply setLoad_keeps | apply reportEvents_keeps |
      apply ite_keeps
    | (extract_lets +onlyGivenNames x; first | refine cut2 (p := Keeps _ x) ?_ (fun _ => ?_) | clear x | skip)
    | split | refine keeps_mk ?_ rfl rfl rfl

theorem timersAndTarget_keeps {a : State} (n : Nat) {s : State} (h : Keeps a s) : Keeps a (timersAndTarget n s) := by
  unfold timersAndTarget
  with_reducible repeat' first
    | assumption | intro _ _ _ | intro _ _ | intro _ | apply goOn_keeps | apply setLoad_keeps | apply State_modLd_keeps | apply
      startWindow_keeps | apply ite_keeps
    | (extract_lets +onlyGivenNames x; first | refine cut2 (p := Keeps _ x) ?_ (fun _ => ?_) | clear x | skip)
    | split | refine keeps_mk ?_ rfl rfl rfl

theorem loadOutcome_keeps {a : State} (j : Judged) {s : State} (h : Keeps a s) : Keeps a (loadOutcome j s) := by
  unfold loadOutcome
  with_reducible repeat' first
    | assumption | intro _ _ _ | intro _ _ | intro _ | apply reportOutcome_keeps | apply timersAndTarget_keeps | apply ite_keeps
    | (extract_lets +onlyGivenNames x; first | refine cut2 (p := Keeps _ x) ?_ (fun _ => ?_) | clear x | skip)
    | split | refine keeps_mk ?_ rfl rfl rfl

theorem grantGroup_keeps {a : State} (g : Nat) {s : State} (h : Keeps a s) : Keeps a (grantGroup g s) := by
  unfold grantGroup
  with_reducible repeat' first
    | assumption | intro _ _ _ | intro _ _ | intro _ | apply startWindow_keeps | apply ite_keeps
    | (extract_lets +onlyGivenNames x; first | refine cut2 (p := Keeps _ x) ?_ (fun _ => ?_) | clear x | skip)
    | split | refine keeps_mk ?_ rfl rfl rfl

theorem loadArrivals_keeps {a : State} {s : State} (h : Keeps a s) : Keeps a (loadArrivals s) := by
  unfold loadArrivals
  with_reducible repeat' first
    | assumption | intro _ _ _ | intro _ _ | intro _ | apply localArrival_keeps | apply ite_keeps
    | (extract_lets +onlyGivenNames x; first | refine cut2 (p := Keeps _ x) ?_ (fun _ => ?_) | clear x | skip)
    | split | refine keeps_mk ?_ rfl rfl rfl | refine keeps_tab ?_ rfl rfl rfl ?_ ?_ ?_ ?_ ?_ ?_ | apply rising_mset | apply rising_mdel | apply rising_mmod | refine rising_map (fun _ => ?_) ?_ | rfl

theorem chainDuties_keeps {a : State} {s : State} (h : Keeps a s) : Keeps a (chainDuties s) := by
  unfold chainDuties
  with_reducible repeat' first
    | assumption | intro _ _ _ | intro _ _ | intro _ | apply State_modLd_keeps | apply forRange_keeps | apply ite_keeps
    | (extract_lets +onlyGivenNames x; first | refine cut2 (p := Keeps _ x) ?_ (fun _ => ?_) | clear x | skip)
    | split | refine keeps_mk ?_ rfl rfl rfl

theorem tickWork_keeps {a : State} {s : State} (h : Keeps a s) : Keeps a (tickWork s) := by
  unfold tickWork
  with_reducible repeat' first
    | assumption | intro _ _ _ | intro _ _ | intro _ | apply takeProfile_keeps | apply takeLatched_keeps | apply judgeAll_keeps |
      apply extendWindow_keeps | apply loadOutcome_keeps | apply grantGroup_keeps | apply loadArrivals_keeps | apply
      startTransfer_keeps | apply chainDuties_keeps | apply forEach_keeps | apply forRange_keeps
    | (extract_lets +onlyGivenNames x; first | refine cut2 (p := Keeps _ x) ?_ (fun _ => ?_) | clear x | skip)
    | split | refine keeps_mk ?_ rfl rfl rfl

theorem loadTick_keeps {a : State} {s : State} (h : Keeps a s) : Keeps a (loadTick s) := by
  unfold loadTick
  with_reducible repeat' first
    | assumption | intro _ _ _ | intro _ _ | intro _ | apply reachClk_keeps | apply tickWork_keeps
    | (extract_lets +onlyGivenNames x; first | refine cut2 (p := Keeps _ x) ?_ (fun _ => ?_) | clear x | skip)
    | split | refine keeps_mk ?_ rfl rfl rfl

theorem execLoadTick_keeps {a : State} (samples : List Nat) {s : State} (h : Keeps a s) : OKeeps a (execLoadTick samples s) := by
  unfold execLoadTick
  with_reducible repeat' first
    | assumption | intro _ _ _ | intro _ _ | intro _ | apply takeVbats_keeps | apply next_keeps | apply loadTick_keeps | apply
      ite_okeeps | apply ite_keeps
    | (extract_lets +onlyGivenNames x; first | refine cut2 (p := Keeps _ x) ?_ (fun _ => ?_) | clear x | skip)
    | split | refine keeps_mk ?_ rfl rfl rfl

theorem ticksUntil_keeps {a : State} (done : State → Bool) (k : Nat) {s : State} (h : Keeps a s) : Keeps a (ticksUntil done k s) := by
  induction k generalizing s with
  | zero => exact h
  | succ k ih => unfold ticksUntil; exact ite_keeps h (ih (loadTick_keeps h))

theorem timerTick_keeps {a : State} (n : Nat) {s : State} (h : Keeps a s) : Keeps a (timerTick n s) := ticksUntil_keeps _ _ h

theorem execInrushWindowEnd_keeps {a : State} (ld : Fin 96) {s : State} (h : Keeps a s) : OKeeps a (execInrushWindowEnd ld s) := by
  unfold execInrushWindowEnd
  with_reducible repeat' first
    | assumption | intro _ _ _ | intro _ _ | intro _ | apply next_keeps | apply timerTick_keeps | apply ite_okeeps | apply ite_keeps
    | (extract_lets +onlyGivenNames x; first | refine cut2 (p := Keeps _ x) ?_ (fun _ => ?_) | clear x | skip)
    | split | refine keeps_mk ?_ rfl rfl rfl

theorem execBackoffEnd_keeps {a : State} (ld : Fin 96) {s : State} (h : Keeps a s) : OKeeps a (execBackoffEnd ld s) := by
  unfold execBackoffEnd
  with_reducible repeat' first
    | assumption | intro _ _ _ | intro _ _ | intro _ | apply next_keeps | apply timerTick_keeps | apply ite_okeeps | apply ite_keeps
    | (extract_lets +onlyGivenNames x; first | refine cut2 (p := Keeps _ x) ?_ (fun _ => ?_) | clear x | skip)
    | split | refine keeps_mk ?_ rfl rfl rfl

theorem execHealReached_keeps {a : State} (ld : Fin 96) {s : State} (h : Keeps a s) : OKeeps a (execHealReached ld s) := by
  unfold execHealReached
  with_reducible repeat' first
    | assumption | intro _ _ _ | intro _ _ | intro _ | apply next_keeps | apply ticksUntil_keeps | apply ite_okeeps | apply ite_keeps
    | (extract_lets +onlyGivenNames x; first | refine cut2 (p := Keeps _ x) ?_ (fun _ => ?_) | clear x | skip)
    | split | refine keeps_mk ?_ rfl rfl rfl

theorem execLoadStopBathEnd_keeps {a : State} (ld : Fin 96) {s : State} (h : Keeps a s) : OKeeps a (execLoadStopBathEnd ld s) := by
  unfold execLoadStopBathEnd
  with_reducible repeat' first
    | assumption | intro _ _ _ | intro _ _ | intro _ | apply next_keeps | apply loadTick_keeps | apply endLoadBath_keeps | apply
      reachClk_keeps | apply ite_okeeps | apply ite_keeps
    | (extract_lets +onlyGivenNames x; first | refine cut2 (p := Keeps _ x) ?_ (fun _ => ?_) | clear x | skip)
    | split | refine keeps_mk ?_ rfl rfl rfl

theorem execPwmPeriodStart_keeps {a : State} (ld : Fin 96) {s : State} (h : Keeps a s) : OKeeps a (execPwmPeriodStart ld s) := by
  unfold execPwmPeriodStart
  with_reducible repeat' first
    | assumption | intro _ _ _ | intro _ _ | intro _ | apply next_keeps | apply reachClk_keeps | apply State_modLd_keeps | apply
      ite_okeeps | apply ite_keeps
    | (extract_lets +onlyGivenNames x; first | refine cut2 (p := Keeps _ x) ?_ (fun _ => ?_) | clear x | skip)
    | split | refine keeps_mk ?_ rfl rfl rfl

theorem execPwmHighEnd_keeps {a : State} (ld : Fin 96) {s : State} (h : Keeps a s) : OKeeps a (execPwmHighEnd ld s) := by
  unfold execPwmHighEnd
  with_reducible repeat' first
    | assumption | intro _ _ _ | intro _ _ | intro _ | apply next_keeps | apply State_modLd_keeps | apply reachClk_keeps | apply
      ite_okeeps | apply ite_keeps
    | (extract_lets +onlyGivenNames x; first | refine cut2 (p := Keeps _ x) ?_ (fun _ => ?_) | clear x | skip)
    | split | refine keeps_mk ?_ rfl rfl rfl

/-! ### Routing -/

theorem endPass_keeps {a : State} (l : Nat) (timed : Bool) (from_ : Nat) {s : State} (h : Keeps a s) : Keeps a (endPass l timed from_ s) := by
  unfold endPass
  with_reducible repeat' first
    | assumption | intro _ _ _ | intro _ _ | intro _ | apply State_modLane_keeps | apply ite_keeps
    | (extract_lets +onlyGivenNames x; first | refine cut2 (p := Keeps _ x) ?_ (fun _ => ?_) | clear x | skip)
    | split | refine keeps_mk ?_ rfl rfl rfl

theorem enterRouted_keeps {a : State} (lane : Nat) (r : Routed) {s : State} (h : Keeps a s) : Keeps a (enterRouted lane r s) := by
  unfold enterRouted
  with_reducible repeat' first
    | assumption | intro _ _ _ | intro _ _ | intro _ | apply countPacket_keeps
    | (extract_lets +onlyGivenNames x; first | refine cut2 (p := Keeps _ x) ?_ (fun _ => ?_) | clear x | skip)
    | split | refine keeps_mk ?_ rfl rfl rfl

theorem resumeLane_keeps {a : State} (n : Nat) (l : List Routed) {s : State} (h : Keeps a s) : Keeps a (resumeLane n l s) := by
  induction l generalizing s with
  | nil =>
    unfold resumeLane
    split
    · exact endPass_keeps _ _ _ (State_modLane_keeps _ _ h)
    · exact State_modLane_keeps _ _ h
  | cons r rest ih =>
    unfold resumeLane
    exact ite_keeps (ih (enterRouted_keeps _ _ h)) (State_modLane_keeps _ _ h)

theorem cellsFreed_keeps {a : State} (l : Nat) {s : State} (h : Keeps a s) : Keeps a (cellsFreed l s) := by
  unfold cellsFreed
  with_reducible repeat' first
    | assumption | intro _ _ _ | intro _ _ | intro _ | apply resumeLane_keeps | apply ite_keeps
    | (extract_lets +onlyGivenNames x; first | refine cut2 (p := Keeps _ x) ?_ (fun _ => ?_) | clear x | skip)
    | split | refine keeps_mk ?_ rfl rfl rfl

theorem modPdu_keeps {a : State} (n : Nat) (f : Pdu → Pdu) {s : State} (h : Keeps a s) : Keeps a (modPdu n f s) := by
  unfold modPdu
  with_reducible repeat' first
    | assumption | intro _ _ _ | intro _ _ | intro _
    | (extract_lets +onlyGivenNames x; first | refine cut2 (p := Keeps _ x) ?_ (fun _ => ?_) | clear x | skip)
    | split | refine keeps_mk ?_ rfl rfl rfl | refine keeps_tab ?_ rfl rfl rfl ?_ ?_ ?_ ?_ ?_ ?_ | apply rising_mset | apply rising_mdel | apply rising_mmod | refine rising_map (fun _ => ?_) ?_ | rfl

theorem intakeRouted_keeps {a : State} (r : Routed) {s : State} (h : Keeps a s) : Keeps a (intakeRouted r s) := by
  unfold intakeRouted
  with_reducible repeat' first
    | assumption | intro _ _ _ | intro _ _ | intro _ | apply modPdu_keeps | apply txCommit_keeps | apply ite_keeps
    | (extract_lets +onlyGivenNames x; first | refine cut2 (p := Keeps _ x) ?_ (fun _ => ?_) | clear x | skip)
    | split | refine keeps_mk ?_ rfl rfl rfl

theorem execRoutedFrameIntake_keeps {a : State} (lane : Fin 4) (parity : Bool) {s : State} (h : Keeps a s) : OKeeps a (execRoutedFrameIntake lane parity s) := by
  unfold execRoutedFrameIntake
  with_reducible repeat' first
    | assumption | intro _ _ _ | intro _ _ | intro _ | apply next_keeps | apply cellsFreed_keeps | apply parityDrop_keeps | apply
      intakeRouted_keeps | apply ite_okeeps | apply ite_keeps
    | (extract_lets +onlyGivenNames x; first | refine cut2 (p := Keeps _ x) ?_ (fun _ => ?_) | clear x | skip)
    | split | refine keeps_mk ?_ rfl rfl rfl

theorem finishPass_keeps {a : State} (l : Nat) (timed : Bool) (from_ : Nat) {s : State} (h : Keeps a s) : Keeps a (finishPass l timed from_ s) := by
  unfold finishPass
  with_reducible repeat' first
    | assumption | intro _ _ _ | intro _ _ | intro _ | apply endPass_keeps | apply State_modLane_keeps | apply ite_keeps
    | (extract_lets +onlyGivenNames x; first | refine cut2 (p := Keeps _ x) ?_ (fun _ => ?_) | clear x | skip)
    | split | refine keeps_mk ?_ rfl rfl rfl

theorem setSource_keeps {a : State} (e : Nat) (v : BitVec 64) (z : State × List Nat) (h : Keeps a z.1) : Keeps a (setSource e v z).1 := by
  unfold setSource
  split
  · exact h
  · exact keeps_tab h rfl rfl rfl id id id id id rising_mset
theorem unpack_keeps {a : State} (p : PduSet) (data : List Byte) {s : State} (h : Keeps a s) : Keeps a (unpack p data s).1 := by
  refine foldl_keeps_fst (z := (s, [])) _ _ (fun z e hz => ?_) h
  split
  · exact setSource_keeps _ _ z hz
  · exact hz

theorem packPdu_keeps {a : State} (p : PduSet) {s : State} (h : Keeps a s) : Keeps a (packPdu p s).2 := by
  unfold packPdu
  with_reducible repeat' first
    | assumption | intro _ _ _ | intro _ _ | intro _ | apply cvAppend_keeps
    | (extract_lets +onlyGivenNames x; first | refine cut2 (p := Keeps _ x) ?_ (fun _ => ?_) | clear x | skip)
    | split | refine keeps_mk ?_ rfl rfl rfl

theorem countSend_keeps {a : State} (n : Nat) {s : State} (h : Keeps a s) : Keeps a (countSend n s) := by
  unfold countSend
  with_reducible repeat' first
    | assumption | intro _ _ _ | intro _ _ | intro _ | apply modPdu_keeps
    | (extract_lets +onlyGivenNames x; first | refine cut2 (p := Keeps _ x) ?_ (fun _ => ?_) | clear x | skip)
    | split | refine keeps_mk ?_ rfl rfl rfl

theorem packGroup_keeps {a : State} (f : Nat) (g : PduSet) {s : State} (h : Keeps a s) : Keeps a (packGroup f g s).2 := by
  refine foldl_keeps_snd (z := (_, s)) _ _ (fun z n hz => ?_) h
  split
  · exact countSend_keeps n (packPdu_keeps _ hz)
  · exact hz

theorem pushRouted_keeps {a : State} (lane : Nat) (r : Routed) {s : State} (h : Keeps a s) : Keeps a (pushRouted lane r s) := by
  unfold pushRouted
  with_reducible repeat' first
    | assumption | intro _ _ _ | intro _ _ | intro _ | apply enterRouted_keeps | apply State_modLane_keeps | apply ite_keeps
    | (extract_lets +onlyGivenNames x; first | refine cut2 (p := Keeps _ x) ?_ (fun _ => ?_) | clear x | skip)
    | split | refine keeps_mk ?_ rfl rfl rfl

theorem noteSend_keeps {a : State} (f : Nat) {s : State} (h : Keeps a s) : Keeps a (noteSend f s) := by
  unfold noteSend
  with_reducible repeat' first
    | assumption | intro _ _ _ | intro _ _ | intro _ | apply modPdu_keeps
    | (extract_lets +onlyGivenNames x; first | refine cut2 (p := Keeps _ x) ?_ (fun _ => ?_) | clear x | skip)
    | split | refine keeps_mk ?_ rfl rfl rfl

theorem packLocal_keeps {a : State} (p : PduSet) {s : State} (h : Keeps a s) : Keeps a (packLocal p s) := by
  unfold packLocal
  with_reducible repeat' first
    | assumption | intro _ _ _ | intro _ _ | intro _ | apply command_keeps | apply forRange_keeps | apply ite_keeps
    | (extract_lets +onlyGivenNames x; first | refine cut2 (p := Keeps _ x) ?_ (fun _ => ?_) | clear x | skip)
    | split | refine keeps_mk ?_ rfl rfl rfl

theorem packHead_keeps {a : State} (f : Nat) (path : Nat) (origin : Nat) {s : State} (h : Keeps a s) : Keeps a (packHead f path origin s) := by
  unfold packHead
  with_reducible repeat' first
    | assumption | intro _ _ _ | intro _ _ | intro _ | apply packGroup_keeps | apply pushRouted_keeps | apply noteSend_keeps | apply
      packPdu_keeps | apply countSend_keeps | apply sendFrame_keeps | apply packLocal_keeps | apply ite_keeps
    | (extract_lets +onlyGivenNames x; first | refine cut2 (p := Keeps _ x) ?_ (fun _ => ?_) | clear x | skip)
    | split | refine keeps_mk ?_ rfl rfl rfl

theorem fireHead_keeps {a : State} (f : Nat) (path : Nat) (origin : Nat) {s : State} (h : Keeps a s) : Keeps a (fireHead f path origin s) := by
  unfold fireHead
  with_reducible repeat' first
    | assumption | intro _ _ _ | intro _ _ | intro _ | apply packHead_keeps | apply modPdu_keeps | apply ite_keeps
    | (extract_lets +onlyGivenNames x; first | refine cut2 (p := Keeps _ x) ?_ (fun _ => ?_) | clear x | skip)
    | split | refine keeps_mk ?_ rfl rfl rfl

theorem walkList_keeps {a : State} (p : PduSet) (arrival : Bool) (changed : List Nat) (path : Nat) (origin : Nat) {s : State} (h : Keeps a s) : Keeps a (walkList p arrival changed path origin s) := by
  unfold walkList
  with_reducible repeat' first
    | assumption | intro _ _ _ | intro _ _ | intro _ | apply fireHead_keeps | apply forEach_keeps
    | (extract_lets +onlyGivenNames x; first | refine cut2 (p := Keeps _ x) ?_ (fun _ => ?_) | clear x | skip)
    | split | refine keeps_mk ?_ rfl rfl rfl

theorem noteArrival_keeps {a : State} (n : Nat) {s : State} (h : Keeps a s) : Keeps a (noteArrival n s) := by
  unfold noteArrival
  with_reducible repeat' first
    | assumption | intro _ _ _ | intro _ _ | intro _ | apply modPdu_keeps | apply raiseEvent_keeps | apply ite_keeps
    | (extract_lets +onlyGivenNames x; first | refine cut2 (p := Keeps _ x) ?_ (fun _ => ?_) | clear x | skip)
    | split | refine keeps_mk ?_ rfl rfl rfl

theorem arrive_keeps {a : State} (n : Nat) (h0 : Handoff) (p : Pdu) {s : State} (h : Keeps a s) : Keeps a (arrive n h0 p s) := by
  unfold arrive
  with_reducible repeat' first
    | assumption | intro _ _ _ | intro _ _ | intro _ | apply modPdu_keeps | apply cvCheck_keeps | apply unpack_keeps | apply
      walkList_keeps | apply State_modLane_keeps | apply noteArrival_keeps | apply ite_keeps
    | (extract_lets +onlyGivenNames x; first | refine cut2 (p := Keeps _ x) ?_ (fun _ => ?_) | clear x | skip)
    | split | refine keeps_mk ?_ rfl rfl rfl

theorem execArrivalPass_keeps {a : State} (lane : Fin 4) (parity : Bool) {s : State} (h : Keeps a s) : OKeeps a (execArrivalPass lane parity s) := by
  unfold execArrivalPass
  with_reducible repeat' first
    | assumption | intro _ _ _ | intro _ _ | intro _ | apply next_keeps | apply State_modLane_keeps | apply parityDrop_keeps | apply
      finishPass_keeps | apply arrive_keeps | apply ite_okeeps | apply ite_keeps
    | (extract_lets +onlyGivenNames x; first | refine cut2 (p := Keeps _ x) ?_ (fun _ => ?_) | clear x | skip)
    | split | refine keeps_mk ?_ rfl rfl rfl

theorem execPduTimeout_keeps {a : State} (pdu : Fin 32768) {s : State} (h : Keeps a s) : OKeeps a (execPduTimeout pdu s) := by
  unfold execPduTimeout
  with_reducible repeat' first
    | assumption | intro _ _ _ | intro _ _ | intro _ | apply next_keeps | apply reachClk_keeps | apply modPdu_keeps | apply
      raiseEvent_keeps | apply ite_okeeps | apply ite_keeps
    | (extract_lets +onlyGivenNames x; first | refine cut2 (p := Keeps _ x) ?_ (fun _ => ?_) | clear x | skip)
    | split | refine keeps_mk ?_ rfl rfl rfl

theorem startTimed_keeps {a : State} (l : Nat) {s : State} (h : Keeps a s) : Keeps a (startTimed l s) := by
  unfold startTimed
  with_reducible repeat' first
    | assumption | intro _ _ _ | intro _ _ | intro _ | apply reachClk_keeps | apply State_modLane_keeps
    | (extract_lets +onlyGivenNames x; first | refine cut2 (p := Keeps _ x) ?_ (fun _ => ?_) | clear x | skip)
    | split | refine keeps_mk ?_ rfl rfl rfl

theorem timedPass_keeps {a : State} (l : Nat) (due : Nat) (act : State → State) {s : State} (hk : ∀ y0, Keeps a y0 → Keeps a (act y0)) (h : Keeps a s) : Keeps a (timedPass l due act s) := by
  unfold timedPass
  with_reducible repeat' first
    | assumption | intro _ _ _ | intro _ _ | intro _ | apply hk | apply finishPass_keeps | apply startTimed_keeps
    | (extract_lets +onlyGivenNames x; first | refine cut2 (p := Keeps _ x) ?_ (fun _ => ?_) | clear x | skip)
    | split | refine keeps_mk ?_ rfl rfl rfl

theorem substitute_keeps {a : State} (p : PduSet) {s : State} (h : Keeps a s) : Keeps a (substitute p s).1 := by
  refine foldl_keeps_fst (z := (s, [])) _ _ (fun z e hz => ?_) h
  split
  · exact setSource_keeps _ _ z hz
  · exact hz

theorem execTimeoutPass_keeps {a : State} (pdu : Fin 32768) {s : State} (h : Keeps a s) : OKeeps a (execTimeoutPass pdu s) := by
  unfold execTimeoutPass
  with_reducible repeat' first
    | assumption | intro _ _ _ | intro _ _ | intro _ | apply next_keeps | apply timedPass_keeps | apply substitute_keeps | apply
      walkList_keeps | apply modPdu_keeps | apply ite_okeeps | apply ite_keeps
    | (extract_lets +onlyGivenNames x; first | refine cut2 (p := Keeps _ x) ?_ (fun _ => ?_) | clear x | skip)
    | split | refine keeps_mk ?_ rfl rfl rfl

theorem execPeriodicPackNotice_keeps {a : State} (pdu : Fin 32768) {s : State} (h : Keeps a s) : OKeeps a (execPeriodicPackNotice pdu s) := by
  unfold execPeriodicPackNotice
  with_reducible repeat' first
    | assumption | intro _ _ _ | intro _ _ | intro _ | apply next_keeps | apply reachTime_keeps | apply modPdu_keeps | apply
      ite_okeeps | apply ite_keeps
    | (extract_lets +onlyGivenNames x; first | refine cut2 (p := Keeps _ x) ?_ (fun _ => ?_) | clear x | skip)
    | split | refine keeps_mk ?_ rfl rfl rfl

theorem execPeriodicPass_keeps {a : State} (pdu : Fin 32768) {s : State} (h : Keeps a s) : OKeeps a (execPeriodicPass pdu s) := by
  unfold execPeriodicPass
  with_reducible repeat' first
    | assumption | intro _ _ _ | intro _ _ | intro _ | apply next_keeps | apply timedPass_keeps | apply fireHead_keeps | apply
      modPdu_keeps | apply ite_okeeps | apply ite_keeps
    | (extract_lets +onlyGivenNames x; first | refine cut2 (p := Keeps _ x) ?_ (fun _ => ?_) | clear x | skip)
    | split | refine keeps_mk ?_ rfl rfl rfl

theorem execDeferredPass_keeps {a : State} (pdu : Fin 32768) {s : State} (h : Keeps a s) : OKeeps a (execDeferredPass pdu s) := by
  unfold execDeferredPass
  with_reducible repeat' first
    | assumption | intro _ _ _ | intro _ _ | intro _ | apply next_keeps | apply reachClk_keeps | apply timedPass_keeps | apply
      fireHead_keeps | apply modPdu_keeps | apply ite_okeeps | apply ite_keeps
    | (extract_lets +onlyGivenNames x; first | refine cut2 (p := Keeps _ x) ?_ (fun _ => ?_) | clear x | skip)
    | split | refine keeps_mk ?_ rfl rfl rfl

theorem takeLevels_keeps {a : State} (levels : BitVec 32) {s : State} (h : Keeps a s) : Keeps a (takeLevels levels s) := by
  unfold takeLevels
  with_reducible repeat' first
    | assumption | intro _ _ _ | intro _ _ | intro _ | apply localArrival_keeps | apply forRange_keeps | apply ite_keeps
    | (extract_lets +onlyGivenNames x; first | refine cut2 (p := Keeps _ x) ?_ (fun _ => ?_) | clear x | skip)
    | split | refine keeps_mk ?_ rfl rfl rfl

theorem execDinSample_keeps {a : State} (levels : BitVec 32) {s : State} (h : Keeps a s) : OKeeps a (execDinSample levels s) := by
  unfold execDinSample
  with_reducible repeat' first
    | assumption | intro _ _ _ | intro _ _ | intro _ | apply next_keeps | apply takeLevels_keeps | apply reachClk_keeps | apply
      ite_okeeps | apply ite_keeps
    | (extract_lets +onlyGivenNames x; first | refine cut2 (p := Keeps _ x) ?_ (fun _ => ?_) | clear x | skip)
    | split | refine keeps_mk ?_ rfl rfl rfl

theorem execAinRoundEnd_keeps {a : State} (codes : List Nat) (vbats : Bool) {s : State} (h : Keeps a s) : OKeeps a (execAinRoundEnd codes vbats s) := by
  unfold execAinRoundEnd
  with_reducible repeat' first
    | assumption | intro _ _ _ | intro _ _ | intro _ | apply next_keeps | apply reachClk_keeps | apply localArrival_keeps | apply
      ite_okeeps | apply ite_keeps
    | (extract_lets +onlyGivenNames x; first | refine cut2 (p := Keeps _ x) ?_ (fun _ => ?_) | clear x | skip)
    | split | refine keeps_mk ?_ rfl rfl rfl

/-! ### LoadCmds -/

theorem pruneDecoded_keeps {a : State} {s : State} (h : Keeps a s) : Keeps a (pruneDecoded s) := by
  unfold pruneDecoded
  with_reducible repeat' first
    | assumption | intro _ _ _ | intro _ _ | intro _
    | (extract_lets +onlyGivenNames x; first | refine cut2 (p := Keeps _ x) ?_ (fun _ => ?_) | clear x | skip)
    | split | refine keeps_mk ?_ rfl rfl rfl

theorem answerDecoded_keeps {a : State} (p : Packet) {s : State} (h : Keeps a s) : Keeps a (answerDecoded p s) := by
  unfold answerDecoded
  with_reducible repeat' first
    | assumption | intro _ _ _ | intro _ _ | intro _
    | (extract_lets +onlyGivenNames x; first | refine cut2 (p := Keeps _ x) ?_ (fun _ => ?_) | clear x | skip)
    | split | refine keeps_mk ?_ rfl rfl rfl

theorem forceSafe_keeps {a : State} (p : Packet) {s : State} (h : Keeps a s) : VKeeps a (forceSafe p s) := by
  unfold forceSafe
  with_reducible repeat' first
    | assumption | intro _ _ _ | intro _ _ | intro _ | apply okBody_keeps | apply answerDecoded_keeps | apply applyForce_keeps | apply
      badParam_keeps
    | (extract_lets +onlyGivenNames x; first | refine cut2 (p := Keeps _ x) ?_ (fun _ => ?_) | clear x | skip)
    | split | refine keeps_mk ?_ rfl rfl rfl

theorem bindLoad_keeps {a : State} (p : Packet) {s : State} (h : Keeps a s) : VKeeps a (bindLoad p s) := by
  unfold bindLoad
  with_reducible repeat' first
    | assumption | intro _ _ _ | intro _ _ | intro _ | apply bundleOpen_keeps | apply stage_keeps | apply refuseIf_keeps | apply
      badParam_keeps | apply ite_vkeeps | apply ite_keeps
    | (extract_lets +onlyGivenNames x; first | refine cut2 (p := Keeps _ x) ?_ (fun _ => ?_) | clear x | skip)
    | split | refine keeps_mk ?_ rfl rfl rfl

theorem setSwitchProfile_keeps {a : State} (p : Packet) {s : State} (h : Keeps a s) : VKeeps a (setSwitchProfile p s) := by
  unfold setSwitchProfile
  with_reducible repeat' first
    | assumption | intro _ _ _ | intro _ _ | intro _ | apply bundleOpen_keeps | apply stage_keeps | apply refuse_keeps | apply
      badParam_keeps
    | (extract_lets +onlyGivenNames x; first | refine cut2 (p := Keeps _ x) ?_ (fun _ => ?_) | clear x | skip)
    | split | refine keeps_mk ?_ rfl rfl rfl

theorem setLoadPolicy_keeps {a : State} (p : Packet) {s : State} (h : Keeps a s) : VKeeps a (setLoadPolicy p s) := by
  unfold setLoadPolicy
  with_reducible repeat' first
    | assumption | intro _ _ _ | intro _ _ | intro _ | apply bundleOpen_keeps | apply stage_keeps | apply badParam_keeps | apply
      ite_vkeeps | apply ite_keeps
    | (extract_lets +onlyGivenNames x; first | refine cut2 (p := Keeps _ x) ?_ (fun _ => ?_) | clear x | skip)
    | split | refine keeps_mk ?_ rfl rfl rfl

theorem execBindLoad_keeps {a : State} (p : Packet) {s : State} (h : Keeps a s) : OKeeps a (execBindLoad p s) := by
  unfold execBindLoad
  with_reducible repeat' first
    | assumption | intro _ _ _ | intro _ _ | intro _ | apply next_keeps | apply runCommand_keeps | apply bindLoad_keeps
    | (extract_lets +onlyGivenNames x; first | refine cut2 (p := Keeps _ x) ?_ (fun _ => ?_) | clear x | skip)
    | split | refine keeps_mk ?_ rfl rfl rfl

theorem execSetSwitchProfile_keeps {a : State} (p : Packet) {s : State} (h : Keeps a s) : OKeeps a (execSetSwitchProfile p s) := by
  unfold execSetSwitchProfile
  with_reducible repeat' first
    | assumption | intro _ _ _ | intro _ _ | intro _ | apply next_keeps | apply runCommand_keeps | apply setSwitchProfile_keeps
    | (extract_lets +onlyGivenNames x; first | refine cut2 (p := Keeps _ x) ?_ (fun _ => ?_) | clear x | skip)
    | split | refine keeps_mk ?_ rfl rfl rfl

theorem setLoadCmd_keeps {a : State} (p : Packet) {s : State} (h : Keeps a s) : VKeeps a (setLoadCmd p s) := by
  unfold setLoadCmd
  with_reducible repeat' first
    | assumption | intro _ _ _ | intro _ _ | intro _ | apply command_keeps | apply okBody_keeps | apply refuseIf_keeps | apply
      badParam_keeps
    | (extract_lets +onlyGivenNames x; first | refine cut2 (p := Keeps _ x) ?_ (fun _ => ?_) | clear x | skip)
    | split | refine keeps_mk ?_ rfl rfl rfl

theorem execSetLoad_keeps {a : State} (p : Packet) {s : State} (h : Keeps a s) : OKeeps a (execSetLoad p s) := by
  unfold execSetLoad
  with_reducible repeat' first
    | assumption | intro _ _ _ | intro _ _ | intro _ | apply next_keeps | apply runCommand_keeps | apply setLoadCmd_keeps
    | (extract_lets +onlyGivenNames x; first | refine cut2 (p := Keeps _ x) ?_ (fun _ => ?_) | clear x | skip)
    | split | refine keeps_mk ?_ rfl rfl rfl

theorem execSetLoadPolicy_keeps {a : State} (p : Packet) {s : State} (h : Keeps a s) : OKeeps a (execSetLoadPolicy p s) := by
  unfold execSetLoadPolicy
  with_reducible repeat' first
    | assumption | intro _ _ _ | intro _ _ | intro _ | apply next_keeps | apply runCommand_keeps | apply setLoadPolicy_keeps
    | (extract_lets +onlyGivenNames x; first | refine cut2 (p := Keeps _ x) ?_ (fun _ => ?_) | clear x | skip)
    | split | refine keeps_mk ?_ rfl rfl rfl

theorem execForceSafe_keeps {a : State} (p : Packet) {s : State} (h : Keeps a s) : OKeeps a (execForceSafe p s) := by
  unfold execForceSafe
  with_reducible repeat' first
    | assumption | intro _ _ _ | intro _ _ | intro _ | apply next_keeps | apply pruneDecoded_keeps | apply runCommand_keeps | apply
      forceSafe_keeps
    | (extract_lets +onlyGivenNames x; first | refine cut2 (p := Keeps _ x) ?_ (fun _ => ?_) | clear x | skip)
    | split | refine keeps_mk ?_ rfl rfl rfl

theorem withLoad_keeps {a : State} (p : Packet) (k : Nat → Verdict) (hk : ∀ y0, VKeeps a (k y0)) : VKeeps a (withLoad p k) := by
  unfold withLoad
  with_reducible repeat' first
    | assumption | intro _ _ _ | intro _ _ | intro _ | apply hk | apply badParam_keeps
    | (extract_lets +onlyGivenNames x; first | refine cut2 (p := Keeps _ x) ?_ (fun _ => ?_) | clear x | skip)
    | split | refine keeps_mk ?_ rfl rfl rfl

theorem getLoadStatus_keeps {a : State} (p : Packet) {s : State} (h : Keeps a s) : VKeeps a (getLoadStatus p s) := by
  unfold getLoadStatus
  with_reducible repeat' first
    | assumption | intro _ _ _ | intro _ _ | intro _ | apply withLoad_keeps | apply okBody_keeps
    | (extract_lets +onlyGivenNames x; first | refine cut2 (p := Keeps _ x) ?_ (fun _ => ?_) | clear x | skip)
    | split | refine keeps_mk ?_ rfl rfl rfl

theorem execGetLoadStatus_keeps {a : State} (p : Packet) {s : State} (h : Keeps a s) : OKeeps a (execGetLoadStatus p s) := by
  unfold execGetLoadStatus
  with_reducible repeat' first
    | assumption | intro _ _ _ | intro _ _ | intro _ | apply next_keeps | apply runCommand_keeps | apply getLoadStatus_keeps
    | (extract_lets +onlyGivenNames x; first | refine cut2 (p := Keeps _ x) ?_ (fun _ => ?_) | clear x | skip)
    | split | refine keeps_mk ?_ rfl rfl rfl

theorem resetLoadLatch_keeps {a : State} (p : Packet) {s : State} (h : Keeps a s) : VKeeps a (resetLoadLatch p s) := by
  unfold resetLoadLatch
  with_reducible repeat' first
    | assumption | intro _ _ _ | intro _ _ | intro _ | apply withLoad_keeps | apply okDone_keeps | apply State_modLd_keeps | apply
      refuseIf_keeps
    | (extract_lets +onlyGivenNames x; first | refine cut2 (p := Keeps _ x) ?_ (fun _ => ?_) | clear x | skip)
    | split | refine keeps_mk ?_ rfl rfl rfl

theorem execResetLoadLatch_keeps {a : State} (p : Packet) {s : State} (h : Keeps a s) : OKeeps a (execResetLoadLatch p s) := by
  unfold execResetLoadLatch
  with_reducible repeat' first
    | assumption | intro _ _ _ | intro _ _ | intro _ | apply next_keeps | apply runCommand_keeps | apply resetLoadLatch_keeps
    | (extract_lets +onlyGivenNames x; first | refine cut2 (p := Keeps _ x) ?_ (fun _ => ?_) | clear x | skip)
    | split | refine keeps_mk ?_ rfl rfl rfl

theorem enableLoad_keeps {a : State} (p : Packet) {s : State} (h : Keeps a s) : VKeeps a (enableLoad p s) := by
  unfold enableLoad
  with_reducible repeat' first
    | assumption | intro _ _ _ | intro _ _ | intro _ | apply withLoad_keeps | apply State_modLd_keeps | apply okDone_keeps | apply
      reply_keeps | apply refuseIf_keeps | apply ite_vkeeps | apply ite_keeps
    | (extract_lets +onlyGivenNames x; first | refine cut2 (p := Keeps _ x) ?_ (fun _ => ?_) | clear x | skip)
    | split | refine keeps_mk ?_ rfl rfl rfl

theorem execEnableLoad_keeps {a : State} (p : Packet) {s : State} (h : Keeps a s) : OKeeps a (execEnableLoad p s) := by
  unfold execEnableLoad
  with_reducible repeat' first
    | assumption | intro _ _ _ | intro _ _ | intro _ | apply next_keeps | apply runCommand_keeps | apply enableLoad_keeps
    | (extract_lets +onlyGivenNames x; first | refine cut2 (p := Keeps _ x) ?_ (fun _ => ?_) | clear x | skip)
    | split | refine keeps_mk ?_ rfl rfl rfl

theorem disableLoad_keeps {a : State} (p : Packet) {s : State} (h : Keeps a s) : VKeeps a (disableLoad p s) := by
  unfold disableLoad
  with_reducible repeat' first
    | assumption | intro _ _ _ | intro _ _ | intro _ | apply withLoad_keeps | apply okDone_keeps | apply State_modLd_keeps | apply
      loadBathEvent_keeps | apply startLoadBath_keeps | apply ite_vkeeps | apply ite_keeps
    | (extract_lets +onlyGivenNames x; first | refine cut2 (p := Keeps _ x) ?_ (fun _ => ?_) | clear x | skip)
    | split | refine keeps_mk ?_ rfl rfl rfl

theorem execDisableLoad_keeps {a : State} (p : Packet) {s : State} (h : Keeps a s) : OKeeps a (execDisableLoad p s) := by
  unfold execDisableLoad
  with_reducible repeat' first
    | assumption | intro _ _ _ | intro _ _ | intro _ | apply next_keeps | apply runCommand_keeps | apply disableLoad_keeps
    | (extract_lets +onlyGivenNames x; first | refine cut2 (p := Keeps _ x) ?_ (fun _ => ?_) | clear x | skip)
    | split | refine keeps_mk ?_ rfl rfl rfl

/-! ### RouteCmds -/

theorem writePdu_keeps {a : State} (p : Packet) {s : State} (h : Keeps a s) : VKeeps a (writePdu p s) := by
  unfold writePdu
  with_reducible repeat' first
    | assumption | intro _ _ _ | intro _ _ | intro _ | apply bundleOpen_keeps | apply stage_keeps | apply refuse_keeps | apply
      badParam_keeps
    | (extract_lets +onlyGivenNames x; first | refine cut2 (p := Keeps _ x) ?_ (fun _ => ?_) | clear x | skip)
    | split | refine keeps_mk ?_ rfl rfl rfl

theorem execWritePdu_keeps {a : State} (p : Packet) {s : State} (h : Keeps a s) : OKeeps a (execWritePdu p s) := by
  unfold execWritePdu
  with_reducible repeat' first
    | assumption | intro _ _ _ | intro _ _ | intro _ | apply next_keeps | apply runCommand_keeps | apply writePdu_keeps
    | (extract_lets +onlyGivenNames x; first | refine cut2 (p := Keeps _ x) ?_ (fun _ => ?_) | clear x | skip)
    | split | refine keeps_mk ?_ rfl rfl rfl

theorem writeEntries_keeps {a : State} (kinds : List Nat) (p : Packet) {s : State} (h : Keeps a s) : VKeeps a (writeEntries kinds p s) := by
  unfold writeEntries
  with_reducible repeat' first
    | assumption | intro _ _ _ | intro _ _ | intro _ | apply bundleOpen_keeps | apply stage_keeps | apply refuse_keeps | apply
      badParam_keeps
    | (extract_lets +onlyGivenNames x; first | refine cut2 (p := Keeps _ x) ?_ (fun _ => ?_) | clear x | skip)
    | split | refine keeps_mk ?_ rfl rfl rfl

theorem writeSignal_keeps {a : State} (x0 : Packet) {x1 : State} (h : Keeps a x1) : VKeeps a (writeSignal x0 x1) := by
  unfold writeSignal
  with_reducible repeat' first
    | assumption | intro _ _ _ | intro _ _ | intro _ | apply writeEntries_keeps
    | (extract_lets +onlyGivenNames x; first | refine cut2 (p := Keeps _ x) ?_ (fun _ => ?_) | clear x | skip)
    | split | refine keeps_mk ?_ rfl rfl rfl

theorem execWriteSignal_keeps {a : State} (p : Packet) {s : State} (h : Keeps a s) : OKeeps a (execWriteSignal p s) := by
  unfold execWriteSignal
  with_reducible repeat' first
    | assumption | intro _ _ _ | intro _ _ | intro _ | apply next_keeps | apply runCommand_keeps | apply writeSignal_keeps
    | (extract_lets +onlyGivenNames x; first | refine cut2 (p := Keeps _ x) ?_ (fun _ => ?_) | clear x | skip)
    | split | refine keeps_mk ?_ rfl rfl rfl

theorem writeRoute_keeps {a : State} (x0 : Packet) {x1 : State} (h : Keeps a x1) : VKeeps a (writeRoute x0 x1) := by
  unfold writeRoute
  with_reducible repeat' first
    | assumption | intro _ _ _ | intro _ _ | intro _ | apply writeEntries_keeps
    | (extract_lets +onlyGivenNames x; first | refine cut2 (p := Keeps _ x) ?_ (fun _ => ?_) | clear x | skip)
    | split | refine keeps_mk ?_ rfl rfl rfl

theorem execWriteRoute_keeps {a : State} (p : Packet) {s : State} (h : Keeps a s) : OKeeps a (execWriteRoute p s) := by
  unfold execWriteRoute
  with_reducible repeat' first
    | assumption | intro _ _ _ | intro _ _ | intro _ | apply next_keeps | apply runCommand_keeps | apply writeRoute_keeps
    | (extract_lets +onlyGivenNames x; first | refine cut2 (p := Keeps _ x) ?_ (fun _ => ?_) | clear x | skip)
    | split | refine keeps_mk ?_ rfl rfl rfl

theorem endLoad_keeps {a : State} (status : Nat) (detail : Nat) (at_ : Nat) (b : BundleLoad) {s : State} (h : Keeps a s) : VKeeps a (endLoad status detail at_ b s) := by
  unfold endLoad
  with_reducible repeat' first
    | assumption | intro _ _ _ | intro _ _ | intro _ | apply dropLatent_keeps | apply reply_keeps
    | (extract_lets +onlyGivenNames x; first | refine cut2 (p := Keeps _ x) ?_ (fun _ => ?_) | clear x | skip)
    | split | refine keeps_mk ?_ rfl rfl rfl

theorem loadReply_keeps {a : State} {s : State} {t : State} (body : List Byte) (h : Keeps a s) (h1 : Keeps a t) : VKeeps a (loadReply s t body) := by
  unfold loadReply
  with_reducible repeat' first
    | assumption | intro _ _ _ | intro _ _ | intro _ | apply reply_keeps | apply ite_vkeeps | apply ite_keeps
    | (extract_lets +onlyGivenNames x; first | refine cut2 (p := Keeps _ x) ?_ (fun _ => ?_) | clear x | skip)
    | split | refine keeps_mk ?_ rfl rfl rfl

theorem setLocalIo_keeps {a : State} (p : Packet) {s : State} (h : Keeps a s) : VKeeps a (setLocalIo p s) := by
  unfold setLocalIo
  with_reducible repeat' first
    | assumption | intro _ _ _ | intro _ _ | intro _ | apply bundleOpen_keeps | apply stage_keeps | apply badParam_keeps
    | (extract_lets +onlyGivenNames x; first | refine cut2 (p := Keeps _ x) ?_ (fun _ => ?_) | clear x | skip)
    | split | refine keeps_mk ?_ rfl rfl rfl

theorem modBundle_keeps {a : State} (f : BundleLoad → BundleLoad) {s : State} (h : Keeps a s) : Keeps a (modBundle f s) := by
  unfold modBundle
  with_reducible repeat' first
    | assumption | intro _ _ _ | intro _ _ | intro _
    | (extract_lets +onlyGivenNames x; first | refine cut2 (p := Keeps _ x) ?_ (fun _ => ?_) | clear x | skip)
    | split | refine keeps_mk ?_ rfl rfl rfl

/-- The state inside an answer of the bundle loader keeps of `a` what `Keeps` says. -/
def LKeeps (a : State) : Loaded → Prop
  | .more s => Keeps a s
  | .done s => Keeps a s
  | .fail _ _ _ _ => True

theorem endBatch_keeps {a : State} (b : BundleLoad) {s : State} (h : Keeps a s) : LKeeps a (endBatch b s) := by
  have k := modBundle_keeps (fun b => { b with batch := b.batch + 1, inBatch := false, waiting := true }) h
  unfold endBatch
  dsimp only
  repeat' first | exact k | trivial | split

theorem finishHeader_keeps {a : State} (b : BundleLoad) {s : State} (h : Keeps a s) : LKeeps a (finishHeader b s) := by
  unfold finishHeader
  repeat' first | exact h | trivial | split

theorem bundleRow_keeps {a : State} (n : Nat) (r : CmdSpec × (Packet → State → Verdict)) (e : bundleRow n = some r) (q : Packet) {s : State}
    (h : Keeps a s) : VKeeps a (r.2 q s) := by
  unfold bundleRow at e
  repeat' split at e
  all_goals cases e
  all_goals dsimp only
  all_goals first
    | with_reducible exact setChannelMode_keeps q h | with_reducible exact setBitTiming_keeps q h | with_reducible exact setTransceiver_keeps q h | with_reducible exact allocMo_keeps q h | with_reducible exact configMoCmd_keeps q h | with_reducible exact writeFilter_keeps q h | with_reducible exact setShutter_keeps q h | with_reducible exact declareStream_keeps q h | with_reducible exact declareForeign_keeps q h | with_reducible exact setFaultBudget_keeps q h | with_reducible exact admitRoute_keeps q h | with_reducible exact writePdu_keeps q h | with_reducible exact writeSignal_keeps q h | with_reducible exact writeRoute_keeps q h | with_reducible exact setLocalIo_keeps q h | with_reducible exact configCvuCmd_keeps q h | with_reducible exact bindLoad_keeps q h | with_reducible exact setSwitchProfile_keeps q h | with_reducible exact setLoadPolicy_keeps q h

theorem Keeps.bundle {a s : State} (h : Keeps a s) (b : Option BundleLoad) : Keeps a { s with bundle := b } := keeps_mk h rfl rfl rfl

theorem takeRecord_keeps {a : State} (p : Packet) (r : List Byte) {s t : State} (h : Keeps a s) (e : takeRecord p r s = .ok t) : Keeps a t := by
  unfold takeRecord at e
  split at e
  · cases e
  · rename_i c g hr
    have hk := fun q => bundleRow_keeps _ _ hr q (h.bundle none)
    dsimp only at e hk
    split at e
    · cases e
    · split at e
      · cases e
      · split at e
        · cases e
        · split at e
          · cases e
          · have := hk { source := p.source, opcode := c.opcode, flags := 0, plen := byteAt r 2, tag := p.tag, target := 0, reserved := zeros 8, params := r.drop 4 }
            split at e <;> rename_i hq <;> rw [hq] at this <;> first
              | (injection e with e; subst e; exact Keeps.bundle this _)
              | cases e

theorem takePart_keeps {a : State} (p : Packet) (b : BundleLoad) (n : Nat) {s : State} (h : Keeps a s) : LKeeps a (takePart p b n s) := by
  unfold takePart
  dsimp only
  split
  · split
    · trivial
    · exact finishHeader_keeps _ (h.bundle _)
  · split
    · split
      · trivial
      · split
        · exact endBatch_keeps _ (h.bundle _)
        · exact h.bundle _
    · split
      · trivial
      · rename_i e
        have k := takeRecord_keeps p _ h e
        split
        · exact endBatch_keeps _ (k.bundle _)
        · exact k.bundle _

theorem takeParts_keeps {a : State} (p : Packet) (n : Nat) {s : State} (h : Keeps a s) : LKeeps a (takeParts p n s) := by
  induction n generalizing s with
  | zero => exact h
  | succ n ih =>
    unfold takeParts
    split
    · exact h
    · split
      · exact h
      · trivial
      · have k := takePart_keeps p ‹_› ‹_› h
        split
        · rename_i e
          rw [e] at k
          exact ih k
        · exact k

theorem loadBlock_keeps {a : State} (p : Packet) (data : List Byte) (b : BundleLoad) {s : State} (h : Keeps a s) : VKeeps a (loadBlock p data b s) := by
  have k := takeParts_keeps p (data.length + 2) (h.bundle (some { b with buffer := b.buffer ++ data }))
  unfold loadBlock
  split
  · exact endLoad_keeps _ _ _ _ h
  · rename_i e
    rw [e] at k
    exact loadReply_keeps _ h k
  · rename_i e
    rw [e] at k
    split
    · exact loadReply_keeps _ h k
    · dsimp only
      split
      · exact loadReply_keeps _ h (Keeps.bundle k _)
      · exact loadReply_keeps _ h (Keeps.bundle k _)

theorem loadBundleBlock_keeps {a : State} (p : Packet) {s : State} (h : Keeps a s) : VKeeps a (loadBundleBlock p s) := by
  unfold loadBundleBlock
  with_reducible repeat' first
    | assumption | intro _ _ _ | intro _ _ | intro _ | apply endLoad_keeps | apply loadBlock_keeps | apply refuseIf_keeps | apply
      badParam_keeps | apply ite_vkeeps | apply ite_keeps
    | (extract_lets +onlyGivenNames x; first | refine cut2 (p := Keeps _ x) ?_ (fun _ => ?_) | clear x | skip)
    | split | refine keeps_mk ?_ rfl rfl rfl

theorem execLoadBundleBlock_keeps {a : State} (p : Packet) {s : State} (h : Keeps a s) : OKeeps a (execLoadBundleBlock p s) := by
  unfold execLoadBundleBlock
  with_reducible repeat' first
    | assumption | intro _ _ _ | intro _ _ | intro _ | apply next_keeps | apply runCommand_keeps | apply loadBundleBlock_keeps
    | (extract_lets +onlyGivenNames x; first | refine cut2 (p := Keeps _ x) ?_ (fun _ => ?_) | clear x | skip)
    | split | refine keeps_mk ?_ rfl rfl rfl

theorem readSignal_keeps {a : State} (p : Packet) {s : State} (h : Keeps a s) : VKeeps a (readSignal p s) := by
  unfold readSignal
  with_reducible repeat' first
    | assumption | intro _ _ _ | intro _ _ | intro _ | apply okBody_keeps | apply badParam_keeps
    | (extract_lets +onlyGivenNames x; first | refine cut2 (p := Keeps _ x) ?_ (fun _ => ?_) | clear x | skip)
    | split | refine keeps_mk ?_ rfl rfl rfl

theorem execReadSignal_keeps {a : State} (p : Packet) {s : State} (h : Keeps a s) : OKeeps a (execReadSignal p s) := by
  unfold execReadSignal
  with_reducible repeat' first
    | assumption | intro _ _ _ | intro _ _ | intro _ | apply next_keeps | apply runCommand_keeps | apply readSignal_keeps
    | (extract_lets +onlyGivenNames x; first | refine cut2 (p := Keeps _ x) ?_ (fun _ => ?_) | clear x | skip)
    | split | refine keeps_mk ?_ rfl rfl rfl

theorem execSetLocalIo_keeps {a : State} (p : Packet) {s : State} (h : Keeps a s) : OKeeps a (execSetLocalIo p s) := by
  unfold execSetLocalIo
  with_reducible repeat' first
    | assumption | intro _ _ _ | intro _ _ | intro _ | apply next_keeps | apply runCommand_keeps | apply setLocalIo_keeps
    | (extract_lets +onlyGivenNames x; first | refine cut2 (p := Keeps _ x) ?_ (fun _ => ?_) | clear x | skip)
    | split | refine keeps_mk ?_ rfl rfl rfl

theorem getRouteStats_keeps {a : State} (p : Packet) {s : State} (h : Keeps a s) : VKeeps a (getRouteStats p s) := by
  unfold getRouteStats
  with_reducible repeat' first
    | assumption | intro _ _ _ | intro _ _ | intro _ | apply okBody_keeps | apply badParam_keeps | apply ite_vkeeps | apply ite_keeps
    | (extract_lets +onlyGivenNames x; first | refine cut2 (p := Keeps _ x) ?_ (fun _ => ?_) | clear x | skip)
    | split | refine keeps_mk ?_ rfl rfl rfl

theorem execGetRouteStats_keeps {a : State} (p : Packet) {s : State} (h : Keeps a s) : OKeeps a (execGetRouteStats p s) := by
  unfold execGetRouteStats
  with_reducible repeat' first
    | assumption | intro _ _ _ | intro _ _ | intro _ | apply next_keeps | apply runCommand_keeps | apply getRouteStats_keeps
    | (extract_lets +onlyGivenNames x; first | refine cut2 (p := Keeps _ x) ?_ (fun _ => ?_) | clear x | skip)
    | split | refine keeps_mk ?_ rfl rfl rfl

end Sys2Proof.Machine
end

