-- ==== Sys2Proof/Laws/KeepsHost.lean ====
section
/-!
SUPPORT. The host interface keeps the queue, the straps and the fault log sound.
-/

namespace Sys2Proof.Machine

set_option linter.all false

/-! ### HostRings -/

theorem dropReplies_keeps {a : State} (c : Nat) {s : State} (h : Keeps a s) : Keeps a (dropReplies c s) := by
  unfold dropReplies
  with_reducible repeat' first
    | assumption | intro _ _ _ | intro _ _ | intro _ | apply fcAt_keeps | apply State_modCq_keeps
    | (extract_lets +onlyGivenNames x; first | refine cut2 (p := Keeps _ x) ?_ (fun _ => ?_) | clear x | skip)
    | split | refine keeps_mk ?_ rfl rfl rfl

theorem dropEvents_keeps {a : State} (c : Nat) {s : State} (h : Keeps a s) : Keeps a (dropEvents c s) := by
  unfold dropEvents
  with_reducible repeat' first
    | assumption | intro _ _ _ | intro _ _ | intro _ | apply State_modCq_keeps | apply State_modFn_keeps | apply raiseIrq_keeps |
      apply fcAt_keeps | apply ite_keeps
    | (extract_lets +onlyGivenNames x; first | refine cut2 (p := Keeps _ x) ?_ (fun _ => ?_) | clear x | skip)
    | split | refine keeps_mk ?_ rfl rfl rfl

theorem dropItems_keeps {a : State} (c : Nat) (k : Nat) {s : State} (h : Keeps a s) : Keeps a (dropItems c k s) := by
  unfold dropItems
  with_reducible repeat' first
    | assumption | intro _ _ _ | intro _ _ | intro _ | apply State_modCq_keeps | apply fcAt_keeps | apply State_modRing_keeps | apply
      ite_keeps
    | (extract_lets +onlyGivenNames x; first | refine cut2 (p := Keeps _ x) ?_ (fun _ => ?_) | clear x | skip)
    | split | refine keeps_mk ?_ rfl rfl rfl

theorem dropQueued_keeps {a : State} (c : Nat) (k : Nat) {s : State} (h : Keeps a s) : Keeps a (dropQueued c k s) := by
  unfold dropQueued
  with_reducible repeat' first
    | assumption | intro _ _ _ | intro _ _ | intro _ | apply dropReplies_keeps | apply dropEvents_keeps | apply dropItems_keeps |
      apply ite_keeps
    | (extract_lets +onlyGivenNames x; first | refine cut2 (p := Keeps _ x) ?_ (fun _ => ?_) | clear x | skip)
    | split | refine keeps_mk ?_ rfl rfl rfl

theorem discardDoorbell_keeps {a : State} (c : Nat) (k : Nat) (v : Word) (from_ : Word) (bound : Word) {s : State} (h : Keeps a s) : Keeps a (discardDoorbell c k v from_ bound s) := by
  unfold discardDoorbell
  with_reducible repeat' first
    | assumption | intro _ _ _ | intro _ _ | intro _ | apply raiseIrq_keeps | apply State_modFn_keeps | apply raiseEvent_keeps
    | (extract_lets +onlyGivenNames x; first | refine cut2 (p := Keeps _ x) ?_ (fun _ => ?_) | clear x | skip)
    | split | refine keeps_mk ?_ rfl rfl rfl

theorem doorbell_keeps {a : State} (c : Nat) (k : Nat) (v : Word) {s : State} (h : Keeps a s) : Keeps a (doorbell c k v s) := by
  unfold doorbell
  with_reducible repeat' first
    | assumption | intro _ _ _ | intro _ _ | intro _ | apply State_modRing_keeps | apply countHwm_keeps | apply discardDoorbell_keeps
      | apply setLimit_keeps | apply ite_keeps
    | (extract_lets +onlyGivenNames x; first | refine cut2 (p := Keeps _ x) ?_ (fun _ => ?_) | clear x | skip)
    | split | refine keeps_mk ?_ rfl rfl rfl

theorem execProducerDoorbellWrite_keeps {a : State} (c : Fin 64) (k : Fin 36) (value : Word) {s : State} (h : Keeps a s) : OKeeps a (execProducerDoorbellWrite c k value s) := by
  unfold execProducerDoorbellWrite
  with_reducible repeat' first
    | assumption | intro _ _ _ | intro _ _ | intro _ | apply next_keeps | apply doorbell_keeps | apply ite_okeeps | apply ite_keeps
    | (extract_lets +onlyGivenNames x; first | refine cut2 (p := Keeps _ x) ?_ (fun _ => ?_) | clear x | skip)
    | split | refine keeps_mk ?_ rfl rfl rfl

theorem execConsumerDoorbellWrite_keeps {a : State} (c : Fin 64) (k : Fin 36) (value : Word) {s : State} (h : Keeps a s) : OKeeps a (execConsumerDoorbellWrite c k value s) := by
  unfold execConsumerDoorbellWrite
  with_reducible repeat' first
    | assumption | intro _ _ _ | intro _ _ | intro _ | apply next_keeps | apply doorbell_keeps | apply ite_okeeps | apply ite_keeps
    | (extract_lets +onlyGivenNames x; first | refine cut2 (p := Keeps _ x) ?_ (fun _ => ?_) | clear x | skip)
    | split | refine keeps_mk ?_ rfl rfl rfl

theorem refuseRing_keeps {a : State} (c : Nat) (k : Nat) (err : Nat) {s : State} (h : Keeps a s) : Keeps a (refuseRing c k err s) := by
  unfold refuseRing
  with_reducible repeat' first
    | assumption | intro _ _ _ | intro _ _ | intro _ | apply State_modRing_keeps | apply raiseEvent_keeps | apply raiseIrq_keeps
    | (extract_lets +onlyGivenNames x; first | refine cut2 (p := Keeps _ x) ?_ (fun _ => ?_) | clear x | skip)
    | split | refine keeps_mk ?_ rfl rfl rfl

theorem applyShare_keeps {a : State} (c : Nat) (k : Nat) {s : State} (h : Keeps a s) : Keeps a (applyShare c k s) := by
  unfold applyShare
  with_reducible repeat' first
    | assumption | intro _ _ _ | intro _ _ | intro _ | apply State_modRing_keeps
    | (extract_lets +onlyGivenNames x; first | refine cut2 (p := Keeps _ x) ?_ (fun _ => ?_) | clear x | skip)
    | split | refine keeps_mk ?_ rfl rfl rfl

theorem applyDepths_keeps {a : State} (c : Nat) (k : Nat) {s : State} (h : Keeps a s) : Keeps a (applyDepths c k s) := by
  unfold applyDepths
  with_reducible repeat' first
    | assumption | intro _ _ _ | intro _ _ | intro _ | apply State_modCq_keeps | apply applyShare_keeps | apply forRange_keeps | apply
      ite_keeps
    | (extract_lets +onlyGivenNames x; first | refine cut2 (p := Keeps _ x) ?_ (fun _ => ?_) | clear x | skip)
    | split | refine keeps_mk ?_ rfl rfl rfl

theorem startCredit_keeps {a : State} (c : Fin 64) (k : Nat) {s : State} (h : Keeps a s) : Keeps a (startCredit c k s) := by
  unfold startCredit
  with_reducible repeat' first
    | assumption | intro _ _ _ | intro _ _ | intro _ | apply State_modRing_keeps | apply setLimit_keeps | apply ite_keeps
    | (extract_lets +onlyGivenNames x; first | refine cut2 (p := Keeps _ x) ?_ (fun _ => ?_) | clear x | skip)
    | split | refine keeps_mk ?_ rfl rfl rfl

theorem enableRing_keeps {a : State} (c : Fin 64) (k : Nat) {s : State} (h : Keeps a s) : Keeps a (enableRing c k s) := by
  unfold enableRing
  with_reducible repeat' first
    | assumption | intro _ _ _ | intro _ _ | intro _ | apply refuseRing_keeps | apply State_modRing_keeps | apply applyDepths_keeps |
      apply writeBack_keeps | apply startCredit_keeps | apply ite_keeps
    | (extract_lets +onlyGivenNames x; first | refine cut2 (p := Keeps _ x) ?_ (fun _ => ?_) | clear x | skip)
    | split | refine keeps_mk ?_ rfl rfl rfl

theorem writeEnable_keeps {a : State} (c : Fin 64) (k : Nat) {s : State} (h : Keeps a s) : Keeps a (writeEnable c k s) := by
  unfold writeEnable
  with_reducible repeat' first
    | assumption | intro _ _ _ | intro _ _ | intro _ | apply State_modRing_keeps | apply enableRing_keeps | apply ite_keeps
    | (extract_lets +onlyGivenNames x; first | refine cut2 (p := Keeps _ x) ?_ (fun _ => ?_) | clear x | skip)
    | split | refine keeps_mk ?_ rfl rfl rfl

theorem stopRing_keeps {a : State} (c : Nat) (k : Nat) (dma : Bool) {s : State} (h : Keeps a s) : Keeps a (stopRing c k dma s) := by
  unfold stopRing
  with_reducible repeat' first
    | assumption | intro _ _ _ | intro _ _ | intro _ | apply dropQueued_keeps | apply State_modRing_keeps
    | (extract_lets +onlyGivenNames x; first | refine cut2 (p := Keeps _ x) ?_ (fun _ => ?_) | clear x | skip)
    | split | refine keeps_mk ?_ rfl rfl rfl

theorem writeDisable_keeps {a : State} (c : Nat) (k : Nat) {s : State} (h : Keeps a s) : Keeps a (writeDisable c k s) := by
  unfold writeDisable
  with_reducible repeat' first
    | assumption | intro _ _ _ | intro _ _ | intro _ | apply State_modRing_keeps | apply stopRing_keeps | apply ite_keeps
    | (extract_lets +onlyGivenNames x; first | refine cut2 (p := Keeps _ x) ?_ (fun _ => ?_) | clear x | skip)
    | split | refine keeps_mk ?_ rfl rfl rfl

theorem writeCtrl_keeps {a : State} (c : Fin 64) (k : Nat) (v : Word) {s : State} (h : Keeps a s) : Keeps a (writeCtrl c k v s) := by
  unfold writeCtrl
  with_reducible repeat' first
    | assumption | intro _ _ _ | intro _ _ | intro _ | apply refuseRing_keeps | apply State_modRing_keeps | apply writeEnable_keeps |
      apply writeDisable_keeps | apply ite_keeps
    | (extract_lets +onlyGivenNames x; first | refine cut2 (p := Keeps _ x) ?_ (fun _ => ?_) | clear x | skip)
    | split | refine keeps_mk ?_ rfl rfl rfl

theorem execRingEnable_keeps {a : State} (c : Fin 64) (k : Fin 36) (ctrl : Word) {s : State} (h : Keeps a s) : OKeeps a (execRingEnable c k ctrl s) := by
  unfold execRingEnable
  with_reducible repeat' first
    | assumption | intro _ _ _ | intro _ _ | intro _ | apply next_keeps | apply writeCtrl_keeps | apply ite_okeeps | apply ite_keeps
    | (extract_lets +onlyGivenNames x; first | refine cut2 (p := Keeps _ x) ?_ (fun _ => ?_) | clear x | skip)
    | split | refine keeps_mk ?_ rfl rfl rfl

theorem execRingDisable_keeps {a : State} (c : Fin 64) (k : Fin 36) (ctrl : Word) {s : State} (h : Keeps a s) : OKeeps a (execRingDisable c k ctrl s) := by
  unfold execRingDisable
  with_reducible repeat' first
    | assumption | intro _ _ _ | intro _ _ | intro _ | apply next_keeps | apply writeCtrl_keeps | apply ite_okeeps | apply ite_keeps
    | (extract_lets +onlyGivenNames x; first | refine cut2 (p := Keeps _ x) ?_ (fun _ => ?_) | clear x | skip)
    | split | refine keeps_mk ?_ rfl rfl rfl

theorem execRingStopBathEnd_keeps {a : State} (c : Fin 64) (k : Fin 36) {s : State} (h : Keeps a s) : OKeeps a (execRingStopBathEnd c k s) := by
  unfold execRingStopBathEnd
  with_reducible repeat' first
    | assumption | intro _ _ _ | intro _ _ | intro _ | apply enableRing_keeps | apply State_modRing_keeps | apply next_keeps | apply
      raiseIrq_keeps | apply raiseEvent_keeps | apply ite_okeeps | apply ite_keeps
    | (extract_lets +onlyGivenNames x; first | refine cut2 (p := Keeps _ x) ?_ (fun _ => ?_) | clear x | skip)
    | split | refine keeps_mk ?_ rfl rfl rfl

theorem clearDmaErr_keeps {a : State} (c : Fin 64) (k : Nat) {s : State} (h : Keeps a s) : Keeps a (clearDmaErr c k s) := by
  unfold clearDmaErr
  with_reducible repeat' first
    | assumption | intro _ _ _ | intro _ _ | intro _ | apply State_modRing_keeps | apply enableRing_keeps | apply ite_keeps
    | (extract_lets +onlyGivenNames x; first | refine cut2 (p := Keeps _ x) ?_ (fun _ => ?_) | clear x | skip)
    | split | refine keeps_mk ?_ rfl rfl rfl

theorem execDmaErrClear_keeps {a : State} (c : Fin 64) (k : Fin 36) {s : State} (h : Keeps a s) : OKeeps a (execDmaErrClear c k s) := by
  unfold execDmaErrClear
  with_reducible repeat' first
    | assumption | intro _ _ _ | intro _ _ | intro _ | apply next_keeps | apply clearDmaErr_keeps | apply ite_okeeps | apply ite_keeps
    | (extract_lets +onlyGivenNames x; first | refine cut2 (p := Keeps _ x) ?_ (fun _ => ?_) | clear x | skip)
    | split | refine keeps_mk ?_ rfl rfl rfl

theorem execDmaReadError_keeps {a : State} (c : Fin 64) (k : Fin 36) (entry : Option (List Byte)) {s : State} (h : Keeps a s) : OKeeps a (execDmaReadError c k entry s) := by
  unfold execDmaReadError
  with_reducible repeat' first
    | assumption | intro _ _ _ | intro _ _ | intro _ | apply next_keeps | apply State_modFn_keeps | apply raiseIrq_keeps | apply
      State_modRing_keeps | apply stopRing_keeps | apply completeTx_keeps | apply drawn_keeps | apply ite_okeeps | apply ite_keeps
    | (extract_lets +onlyGivenNames x; first | refine cut2 (p := Keeps _ x) ?_ (fun _ => ?_) | clear x | skip)
    | split | refine keeps_mk ?_ rfl rfl rfl

theorem execMsixHoldoffEnd_keeps {a : State} (c : Fin 64) (k : Fin 36) {s : State} (h : Keeps a s) : OKeeps a (execMsixHoldoffEnd c k s) := by
  unfold execMsixHoldoffEnd
  with_reducible repeat' first
    | assumption | intro _ _ _ | intro _ _ | intro _ | apply next_keeps | apply reachClk_keeps | apply State_modRing_keeps | apply
      sendMsix_keeps | apply ite_okeeps | apply ite_keeps
    | (extract_lets +onlyGivenNames x; first | refine cut2 (p := Keeps _ x) ?_ (fun _ => ?_) | clear x | skip)
    | split | refine keeps_mk ?_ rfl rfl rfl

/-! ### HostCmds -/

theorem clearIrq_keeps {a : State} (c : Nat) (v : Word) {s : State} (h : Keeps a s) : Keeps a (clearIrq c v s) := by
  unfold clearIrq
  with_reducible repeat' first
    | assumption | intro _ _ _ | intro _ _ | intro _ | apply settleIrq_keeps | apply State_modFn_keeps
    | (extract_lets +onlyGivenNames x; first | refine cut2 (p := Keeps _ x) ?_ (fun _ => ?_) | clear x | skip)
    | split | refine keeps_mk ?_ rfl rfl rfl

theorem execIrqCauseClear_keeps {a : State} (c : Fin 64) (value : Word) {s : State} (h : Keeps a s) : OKeeps a (execIrqCauseClear c value s) := by
  unfold execIrqCauseClear
  with_reducible repeat' first
    | assumption | intro _ _ _ | intro _ _ | intro _ | apply next_keeps | apply clearIrq_keeps | apply ite_okeeps | apply ite_keeps
    | (extract_lets +onlyGivenNames x; first | refine cut2 (p := Keeps _ x) ?_ (fun _ => ?_) | clear x | skip)
    | split | refine keeps_mk ?_ rfl rfl rfl

theorem writeIrqMask_keeps {a : State} (c : Nat) (v : Word) {s : State} (h : Keeps a s) : Keeps a (writeIrqMask c v s) := by
  unfold writeIrqMask
  with_reducible repeat' first
    | assumption | intro _ _ _ | intro _ _ | intro _ | apply settleIrq_keeps | apply State_modFn_keeps
    | (extract_lets +onlyGivenNames x; first | refine cut2 (p := Keeps _ x) ?_ (fun _ => ?_) | clear x | skip)
    | split | refine keeps_mk ?_ rfl rfl rfl

theorem execIrqMaskWrite_keeps {a : State} (c : Fin 64) (value : Word) {s : State} (h : Keeps a s) : OKeeps a (execIrqMaskWrite c value s) := by
  unfold execIrqMaskWrite
  with_reducible repeat' first
    | assumption | intro _ _ _ | intro _ _ | intro _ | apply next_keeps | apply writeIrqMask_keeps | apply ite_okeeps | apply
      ite_keeps
    | (extract_lets +onlyGivenNames x; first | refine cut2 (p := Keeps _ x) ?_ (fun _ => ?_) | clear x | skip)
    | split | refine keeps_mk ?_ rfl rfl rfl

theorem clearWake_keeps {a : State} (high : Bool) (v : Word) {s : State} (h : Keeps a s) : Keeps a (clearWake high v s) := by
  unfold clearWake
  with_reducible repeat' first
    | assumption | intro _ _ _ | intro _ _ | intro _ | apply ite_keeps
    | (extract_lets +onlyGivenNames x; first | refine cut2 (p := Keeps _ x) ?_ (fun _ => ?_) | clear x | skip)
    | split | refine keeps_mk ?_ rfl rfl rfl

theorem execWakeStatusClear_keeps {a : State} (bySafety : Bool) (high : Bool) (value : Word) {s : State} (h : Keeps a s) : OKeeps a (execWakeStatusClear bySafety high value s) := by
  unfold execWakeStatusClear
  with_reducible repeat' first
    | assumption | intro _ _ _ | intro _ _ | intro _ | apply next_keeps | apply clearWake_keeps | apply ite_okeeps | apply ite_keeps
    | (extract_lets +onlyGivenNames x; first | refine cut2 (p := Keeps _ x) ?_ (fun _ => ?_) | clear x | skip)
    | split | refine keeps_mk ?_ rfl rfl rfl

theorem execGenTimeLoRead_keeps {a : State} (c : Fin 64) {s : State} (h : Keeps a s) : OKeeps a (execGenTimeLoRead c s) := by
  unfold execGenTimeLoRead
  with_reducible repeat' first
    | assumption | intro _ _ _ | intro _ _ | intro _ | apply next_keeps | apply State_emit_keeps | apply State_modFn_keeps | apply
      ite_okeeps | apply ite_keeps
    | (extract_lets +onlyGivenNames x; first | refine cut2 (p := Keeps _ x) ?_ (fun _ => ?_) | clear x | skip)
    | split | refine keeps_mk ?_ rfl rfl rfl

theorem winFinding_keeps {a : State} (c : Nat) (offset : Nat) (count : Nat) (found : Option Nat) {s : State} (h : Keeps a s) : Keeps a (winFinding c offset count found s) := by
  unfold winFinding
  with_reducible repeat' first
    | assumption | intro _ _ _ | intro _ _ | intro _ | apply foundInFront_keeps | apply ite_keeps
    | (extract_lets +onlyGivenNames x; first | refine cut2 (p := Keeps _ x) ?_ (fun _ => ?_) | clear x | skip)
    | split | refine keeps_mk ?_ rfl rfl rfl

theorem takeLock_keeps {a : State} (c : Nat) {s : State} (h : Keeps a s) : Keeps a (takeLock c s) := by
  unfold takeLock
  with_reducible repeat' first
    | assumption | intro _ _ _ | intro _ _ | intro _ | apply State_modFn_keeps | apply State_modMo_keeps | apply ite_keeps
    | (extract_lets +onlyGivenNames x; first | refine cut2 (p := Keeps _ x) ?_ (fun _ => ?_) | clear x | skip)
    | split | refine keeps_mk ?_ rfl rfl rfl

theorem windowRead_keeps {a : State} (c : Nat) (offset : Nat) (count : Nat) (found : Option Nat) {s : State} (h : Keeps a s) : Keeps a (windowRead c offset count found s) := by
  unfold windowRead
  with_reducible repeat' first
    | assumption | intro _ _ _ | intro _ _ | intro _ | apply State_modFn_keeps | apply State_emit_keeps | apply releaseWindow_keeps |
      apply winFinding_keeps | apply takeLock_keeps | apply ite_keeps
    | (extract_lets +onlyGivenNames x; first | refine cut2 (p := Keeps _ x) ?_ (fun _ => ?_) | clear x | skip)
    | split | refine keeps_mk ?_ rfl rfl rfl

theorem clearCounter_keeps {a : State} (c : Nat) (off : Nat) {s : State} (h : Keeps a s) : Keeps a (clearCounter c off s) := by
  unfold clearCounter
  with_reducible repeat' first
    | assumption | intro _ _ _ | intro _ _ | intro _ | apply State_modFn_keeps | apply ite_keeps
    | (extract_lets +onlyGivenNames x; first | refine cut2 (p := Keeps _ x) ?_ (fun _ => ?_) | clear x | skip)
    | split | refine keeps_mk ?_ rfl rfl rfl

theorem readEffect_keeps {a : State} (c : Nat) (off : Nat) {s : State} (h : Keeps a s) : Keeps a (readEffect c off s) := by
  unfold readEffect
  with_reducible repeat' first
    | assumption | intro _ _ _ | intro _ _ | intro _ | apply State_modFn_keeps | apply clearCounter_keeps | apply ite_keeps
    | (extract_lets +onlyGivenNames x; first | refine cut2 (p := Keeps _ x) ?_ (fun _ => ?_) | clear x | skip)
    | split | refine keeps_mk ?_ rfl rfl rfl

theorem barWords_keeps {a : State} (c n off : Nat) {s : State} (h : Keeps a s) : Keeps a (barWords c n off s).2 := by
  induction n generalizing off s with
  | zero => exact h
  | succ n ih => exact ih (off + 4) (readEffect_keeps c off h)

theorem hostRead_keeps {a : State} (c : Nat) (offset : Nat) (count : Nat) (found : Option Nat) {s : State} (h : Keeps a s) : Keeps a (hostRead c offset count found s) := by
  unfold hostRead
  with_reducible repeat' first
    | assumption | intro _ _ _ | intro _ _ | intro _ | apply windowRead_keeps | apply barWords_keeps | apply State_emit_keeps | apply
      ite_keeps
    | (extract_lets +onlyGivenNames x; first | refine cut2 (p := Keeps _ x) ?_ (fun _ => ?_) | clear x | skip)
    | split | refine keeps_mk ?_ rfl rfl rfl

theorem execClearOnReadCounterRead_keeps {a : State} (c : Fin 64) (offset : Nat) (count : Nat) (found : Option Nat) {s : State} (h : Keeps a s) : OKeeps a (execClearOnReadCounterRead c offset count found s) := by
  unfold execClearOnReadCounterRead
  with_reducible repeat' first
    | assumption | intro _ _ _ | intro _ _ | intro _ | apply next_keeps | apply hostRead_keeps | apply ite_okeeps | apply ite_keeps
    | (extract_lets +onlyGivenNames x; first | refine cut2 (p := Keeps _ x) ?_ (fun _ => ?_) | clear x | skip)
    | split | refine keeps_mk ?_ rfl rfl rfl

theorem writeSelect_keeps {a : State} (c : Nat) (v : Word) {s : State} (h : Keeps a s) : Keeps a (writeSelect c v s) := by
  unfold writeSelect
  with_reducible repeat' first
    | assumption | intro _ _ _ | intro _ _ | intro _ | apply State_modFn_keeps | apply releaseWindow_keeps
    | (extract_lets +onlyGivenNames x; first | refine cut2 (p := Keeps _ x) ?_ (fun _ => ?_) | clear x | skip)
    | split | refine keeps_mk ?_ rfl rfl rfl

theorem execWinSelectWrite_keeps {a : State} (c : Fin 64) (value : Word) {s : State} (h : Keeps a s) : OKeeps a (execWinSelectWrite c value s) := by
  unfold execWinSelectWrite
  with_reducible repeat' first
    | assumption | intro _ _ _ | intro _ _ | intro _ | apply next_keeps | apply writeSelect_keeps | apply ite_okeeps | apply ite_keeps
    | (extract_lets +onlyGivenNames x; first | refine cut2 (p := Keeps _ x) ?_ (fun _ => ?_) | clear x | skip)
    | split | refine keeps_mk ?_ rfl rfl rfl

theorem execWindowLockTake_keeps {a : State} (c : Fin 64) (offset : Nat) (count : Nat) (found : Option Nat) {s : State} (h : Keeps a s) : OKeeps a (execWindowLockTake c offset count found s) := by
  unfold execWindowLockTake
  with_reducible repeat' first
    | assumption | intro _ _ _ | intro _ _ | intro _ | apply next_keeps | apply windowRead_keeps | apply ite_okeeps | apply ite_keeps
    | (extract_lets +onlyGivenNames x; first | refine cut2 (p := Keeps _ x) ?_ (fun _ => ?_) | clear x | skip)
    | split | refine keeps_mk ?_ rfl rfl rfl

theorem execWindowLockRelease_keeps {a : State} (c : Fin 64) (offset : Nat) (count : Nat) (found : Option Nat) {s : State} (h : Keeps a s) : OKeeps a (execWindowLockRelease c offset count found s) := by
  unfold execWindowLockRelease
  with_reducible repeat' first
    | assumption | intro _ _ _ | intro _ _ | intro _ | apply next_keeps | apply windowRead_keeps | apply ite_okeeps | apply ite_keeps
    | (extract_lets +onlyGivenNames x; first | refine cut2 (p := Keeps _ x) ?_ (fun _ => ?_) | clear x | skip)
    | split | refine keeps_mk ?_ rfl rfl rfl

theorem execWindowLockTimeout_keeps {a : State} (c : Fin 64) {s : State} (h : Keeps a s) : OKeeps a (execWindowLockTimeout c s) := by
  unfold execWindowLockTimeout
  with_reducible repeat' first
    | assumption | intro _ _ _ | intro _ _ | intro _ | apply next_keeps | apply releaseWindow_keeps | apply reachClk_keeps | apply
      ite_okeeps | apply ite_keeps
    | (extract_lets +onlyGivenNames x; first | refine cut2 (p := Keeps _ x) ?_ (fun _ => ?_) | clear x | skip)
    | split | refine keeps_mk ?_ rfl rfl rfl

theorem writeQcfg_keeps {a : State} (c : Fin 64) (k : Nat) (off : Nat) (v : Word) {s : State} (h : Keeps a s) : Keeps a (writeQcfg c k off v s) := by
  unfold writeQcfg
  with_reducible repeat' first
    | assumption | intro _ _ _ | intro _ _ | intro _ | apply writeCtrl_keeps | apply clearDmaErr_keeps | apply refuseRing_keeps |
      apply State_modRing_keeps | apply ite_keeps
    | (extract_lets +onlyGivenNames x; first | refine cut2 (p := Keeps _ x) ?_ (fun _ => ?_) | clear x | skip)
    | split | refine keeps_mk ?_ rfl rfl rfl

theorem writeBlock_keeps {a : State} (c : Fin 64) (off : Nat) (v : Word) {s : State} (h : Keeps a s) : Keeps a (writeBlock c off v s) := by
  unfold writeBlock
  with_reducible repeat' first
    | assumption | intro _ _ _ | intro _ _ | intro _ | apply clearWake_keeps | apply State_modFn_keeps | apply clearIrq_keeps | apply
      writeIrqMask_keeps | apply writeSelect_keeps | apply ite_keeps
    | (extract_lets +onlyGivenNames x; first | refine cut2 (p := Keeps _ x) ?_ (fun _ => ?_) | clear x | skip)
    | split | refine keeps_mk ?_ rfl rfl rfl

theorem writeWord_keeps {a : State} (c : Fin 64) (off : Nat) (v : Word) {s : State} (h : Keeps a s) : Keeps a (writeWord c off v s) := by
  unfold writeWord
  with_reducible repeat' first
    | assumption | intro _ _ _ | intro _ _ | intro _ | apply writeQcfg_keeps | apply doorbell_keeps | apply State_modFn_keeps | apply
      writeBlock_keeps | apply ite_keeps
    | (extract_lets +onlyGivenNames x; first | refine cut2 (p := Keeps _ x) ?_ (fun _ => ?_) | clear x | skip)
    | split | refine keeps_mk ?_ rfl rfl rfl

theorem execRegisterWrite_keeps {a : State} (c : Fin 64) (offset : Nat) (words : List Word) (allBytes : Bool) {s : State} (h : Keeps a s) : OKeeps a (execRegisterWrite c offset words allBytes s) := by
  unfold execRegisterWrite
  with_reducible repeat' first
    | assumption | intro _ _ _ | intro _ _ | intro _ | apply next_keeps | apply writeWord_keeps | apply forRange_keeps | apply
      ite_okeeps | apply ite_keeps
    | (extract_lets +onlyGivenNames x; first | refine cut2 (p := Keeps _ x) ?_ (fun _ => ?_) | clear x | skip)
    | split | refine keeps_mk ?_ rfl rfl rfl

/-! ### HostDma -/

theorem putEntry_keeps {a : State} (c : Nat) (k : Nat) (n : Nat) (bytes : List Byte) {s : State} (h : Keeps a s) : Keeps a (putEntry c k n bytes s) := by
  unfold putEntry
  with_reducible repeat' first
    | assumption | intro _ _ _ | intro _ _ | intro _ | apply State_emit_keeps | apply State_modRing_keeps | apply ringAdvance_keeps
    | (extract_lets +onlyGivenNames x; first | refine cut2 (p := Keeps _ x) ?_ (fun _ => ?_) | clear x | skip)
    | split | refine keeps_mk ?_ rfl rfl rfl

theorem putReply_keeps {a : State} (c : Nat) {s : State} (h : Keeps a s) : Keeps a (putReply c s) := by
  unfold putReply
  with_reducible repeat' first
    | assumption | intro _ _ _ | intro _ _ | intro _ | apply putEntry_keeps | apply State_modCq_keeps | apply ite_keeps
    | (extract_lets +onlyGivenNames x; first | refine cut2 (p := Keeps _ x) ?_ (fun _ => ?_) | clear x | skip)
    | split | refine keeps_mk ?_ rfl rfl rfl

theorem putEvent_keeps {a : State} (c : Nat) {s : State} (h : Keeps a s) : Keeps a (putEvent c s) := by
  unfold putEvent
  with_reducible repeat' first
    | assumption | intro _ _ _ | intro _ _ | intro _ | apply State_modCq_keeps | apply putEntry_keeps | apply State_modFn_keeps |
      apply ite_keeps
    | (extract_lets +onlyGivenNames x; first | refine cut2 (p := Keeps _ x) ?_ (fun _ => ?_) | clear x | skip)
    | split | refine keeps_mk ?_ rfl rfl rfl

theorem hardwareReply_keeps {a : State} (p : Packet) {s : State} (h : Keeps a s) : Keeps a (hardwareReply p s) := by
  unfold hardwareReply
  with_reducible repeat' first
    | assumption | intro _ _ _ | intro _ _ | intro _ | apply deliverReply_keeps
    | (extract_lets +onlyGivenNames x; first | refine cut2 (p := Keeps _ x) ?_ (fun _ => ?_) | clear x | skip)
    | split | refine keeps_mk ?_ rfl rfl rfl

theorem arrivePacket_keeps {a : State} (p : Packet) {s : State} (h : Keeps a s) : Keeps a (arrivePacket p s) := by
  unfold arrivePacket
  with_reducible repeat' first
    | assumption | intro _ _ _ | intro _ _ | intro _ | apply enqueue_keeps | apply hardwareReply_keeps | apply ite_keeps
    | (extract_lets +onlyGivenNames x; first | refine cut2 (p := Keeps _ x) ?_ (fun _ => ?_) | clear x | skip)
    | split | refine keeps_mk ?_ rfl rfl rfl

theorem loseReply_keeps {a : State} (c : Nat) {s : State} (h : Keeps a s) : Keeps a (loseReply c s) := by
  unfold loseReply
  with_reducible repeat' first
    | assumption | intro _ _ _ | intro _ _ | intro _ | apply parityDrop_keeps | apply State_modCq_keeps | apply ite_keeps
    | (extract_lets +onlyGivenNames x; first | refine cut2 (p := Keeps _ x) ?_ (fun _ => ?_) | clear x | skip)
    | split | refine keeps_mk ?_ rfl rfl rfl

theorem execReplyRingWrite_keeps {a : State} (c : Fin 64) (parity : Bool) {s : State} (h : Keeps a s) : OKeeps a (execReplyRingWrite c parity s) := by
  unfold execReplyRingWrite
  with_reducible repeat' first
    | assumption | intro _ _ _ | intro _ _ | intro _ | apply next_keeps | apply loseReply_keeps | apply putReply_keeps | apply
      ite_okeeps | apply ite_keeps
    | (extract_lets +onlyGivenNames x; first | refine cut2 (p := Keeps _ x) ?_ (fun _ => ?_) | clear x | skip)
    | split | refine keeps_mk ?_ rfl rfl rfl

theorem loseEvent_keeps {a : State} (c : Nat) {s : State} (h : Keeps a s) : Keeps a (loseEvent c s) := by
  unfold loseEvent
  with_reducible repeat' first
    | assumption | intro _ _ _ | intro _ _ | intro _ | apply parityDrop_keeps | apply State_modCq_keeps | apply ite_keeps
    | (extract_lets +onlyGivenNames x; first | refine cut2 (p := Keeps _ x) ?_ (fun _ => ?_) | clear x | skip)
    | split | refine keeps_mk ?_ rfl rfl rfl

theorem execEventRingWrite_keeps {a : State} (c : Fin 64) (parity : Bool) {s : State} (h : Keeps a s) : OKeeps a (execEventRingWrite c parity s) := by
  unfold execEventRingWrite
  with_reducible repeat' first
    | assumption | intro _ _ _ | intro _ _ | intro _ | apply next_keeps | apply loseEvent_keeps | apply putEvent_keeps | apply
      ite_okeeps | apply ite_keeps
    | (extract_lets +onlyGivenNames x; first | refine cut2 (p := Keeps _ x) ?_ (fun _ => ?_) | clear x | skip)
    | split | refine keeps_mk ?_ rfl rfl rfl

theorem loseRx_keeps {a : State} (c : Nat) {s : State} (h : Keeps a s) : Keeps a (loseRx c s) := by
  unfold loseRx
  with_reducible repeat' first
    | assumption | intro _ _ _ | intro _ _ | intro _ | apply parityDrop_keeps | apply ringLost_keeps | apply State_modCq_keeps
    | (extract_lets +onlyGivenNames x; first | refine cut2 (p := Keeps _ x) ?_ (fun _ => ?_) | clear x | skip)
    | split | refine keeps_mk ?_ rfl rfl rfl

theorem putRx_keeps {a : State} (c : Nat) {s : State} (h : Keeps a s) : Keeps a (putRx c s) := by
  unfold putRx
  with_reducible repeat' first
    | assumption | intro _ _ _ | intro _ _ | intro _ | apply State_modCq_keeps | apply ringLost_keeps | apply modStat_keeps | apply
      State_emit_keeps | apply State_modRing_keeps | apply putEntry_keeps | apply ite_keeps
    | (extract_lets +onlyGivenNames x; first | refine cut2 (p := Keeps _ x) ?_ (fun _ => ?_) | clear x | skip)
    | split | refine keeps_mk ?_ rfl rfl rfl

theorem execRxRingWrite_keeps {a : State} (c : Fin 64) (parity : Bool) {s : State} (h : Keeps a s) : OKeeps a (execRxRingWrite c parity s) := by
  unfold execRxRingWrite
  with_reducible repeat' first
    | assumption | intro _ _ _ | intro _ _ | intro _ | apply next_keeps | apply loseRx_keeps | apply putRx_keeps | apply ite_okeeps |
      apply ite_keeps
    | (extract_lets +onlyGivenNames x; first | refine cut2 (p := Keeps _ x) ?_ (fun _ => ?_) | clear x | skip)
    | split | refine keeps_mk ?_ rfl rfl rfl

theorem skipLost_keeps {a : State} (c k n : Nat) {s : State} (h : Keeps a s) : Keeps a (skipLost c k n s) := by
  induction n generalizing s with
  | zero => exact h
  | succ n ih =>
    unfold skipLost
    exact ite_keeps (ih (State_modRing_keeps _ _ _ h)) h

theorem takeDescriptor_keeps {a : State} (c : Nat) (k : Nat) (d : Descriptor) (payload : List Byte) {s : State} (h : Keeps a s) : Keeps a (takeDescriptor c k d payload s) := by
  unfold takeDescriptor
  with_reducible repeat' first
    | assumption | intro _ _ _ | intro _ _ | intro _ | apply completeTx_keeps | apply drawn_keeps | apply txCommit_keeps | apply
      ite_keeps
    | (extract_lets +onlyGivenNames x; first | refine cut2 (p := Keeps _ x) ?_ (fun _ => ?_) | clear x | skip)
    | split | refine keeps_mk ?_ rfl rfl rfl

theorem execDescriptorLanding_keeps {a : State} (c : Fin 64) (k : Fin 16) (entry payload : List Byte) (parity : Bool) {s : State}
    (h : Keeps a s) : OKeeps a (execDescriptorLanding c k entry payload parity s) := by
  unfold execDescriptorLanding
  have h1 := skipLost_keeps c.val k.val (s.ring c (4 + k.val)).txLost.length h
  refine ite_okeeps (next_keeps h1) (next_keeps ?_)
  have h2 := State_modRing_keeps c (4 + k.val) (fun r => { r with fetched := r.fetched + 1, intake := r.intake + 1 })
    (countPacket_keeps (.txq, c.val) h1)
  have h3 := ite_keeps (c := parity = true) (parityDrop_keeps 4 h2) (takeDescriptor_keeps c.val k.val (descriptorOf entry) payload h2)
  exact ite_keeps (setLimit_keeps _ _ _ h3) h3

theorem execCommandEntryFetched_keeps {a : State} (c : Fin 64) (entry : List Byte) (parity : Bool) {s : State} (h : Keeps a s) : OKeeps a (execCommandEntryFetched c entry parity s) := by
  unfold execCommandEntryFetched
  with_reducible repeat' first
    | assumption | intro _ _ _ | intro _ _ | intro _ | apply next_keeps | apply State_modRing_keeps | apply parityDrop_keeps | apply
      arrivePacket_keeps | apply ite_okeeps | apply ite_keeps
    | (extract_lets +onlyGivenNames x; first | refine cut2 (p := Keeps _ x) ?_ (fun _ => ?_) | clear x | skip)
    | split | refine keeps_mk ?_ rfl rfl rfl

theorem badOpcode_keeps {a : State} (p : Packet) {s : State} (h : Keeps a s) : VKeeps a (badOpcode p s) := by
  unfold badOpcode
  with_reducible repeat' first
    | assumption | intro _ _ _ | intro _ _ | intro _ | apply refuse_keeps | apply ite_vkeeps | apply ite_keeps
    | (extract_lets +onlyGivenNames x; first | refine cut2 (p := Keeps _ x) ?_ (fun _ => ?_) | clear x | skip)
    | split | refine keeps_mk ?_ rfl rfl rfl

theorem execUndefinedOpcodeCommand_keeps {a : State} (p : Packet) {s : State} (h : Keeps a s) : OKeeps a (execUndefinedOpcodeCommand p s) := by
  unfold execUndefinedOpcodeCommand
  with_reducible repeat' first
    | assumption | intro _ _ _ | intro _ _ | intro _ | apply next_keeps | apply takeFrom_keeps | apply popSource_keeps | apply
      conclude_keeps | apply badOpcode_keeps | apply enqueue_keeps | apply passQueue_keeps | apply ite_okeeps | apply ite_keeps
    | (extract_lets +onlyGivenNames x; first | refine cut2 (p := Keeps _ x) ?_ (fun _ => ?_) | clear x | skip)
    | split | refine keeps_mk ?_ rfl rfl rfl

/-! ### Contexts -/

theorem discardRings_keeps {a : State} (c : Fin 64) {s : State} (h : Keeps a s) : Keeps a (discardRings c s) := by
  unfold discardRings
  with_reducible repeat' first
    | assumption | intro _ _ _ | intro _ _ | intro _ | apply dropQueued_keeps | apply State_modFn_keeps | apply State_modCq_keeps |
      apply settleActivate_keeps | apply forRange_keeps
    | (extract_lets +onlyGivenNames x; first | refine cut2 (p := Keeps _ x) ?_ (fun _ => ?_) | clear x | skip)
    | split | refine keeps_mk ?_ rfl rfl rfl

theorem resetFn_keeps {a : State} (c : Fin 64) (torn : Bool) {s : State} (h : Keeps a s) : Keeps a (resetFn c torn s) := by
  unfold resetFn
  with_reducible repeat' first
    | assumption | intro _ _ _ | intro _ _ | intro _ | apply discardRings_keeps | apply releaseWindow_keeps | apply State_modFn_keeps
    | (extract_lets +onlyGivenNames x; first | refine cut2 (p := Keeps _ x) ?_ (fun _ => ?_) | clear x | skip)
    | split | refine keeps_mk ?_ rfl rfl rfl

theorem withdrawAll_keeps {a : State} (c : Nat) {s : State} (h : Keeps a s) : Keeps a (withdrawAll c s) := by
  unfold withdrawAll
  with_reducible repeat' first
    | assumption | intro _ _ _ | intro _ _ | intro _ | apply raiseEvent_keeps | apply developWithdraw_keeps | apply forEach_keeps
    | (extract_lets +onlyGivenNames x; first | refine cut2 (p := Keeps _ x) ?_ (fun _ => ?_) | clear x | skip)
    | split | refine keeps_mk ?_ rfl rfl rfl | refine keeps_tab ?_ rfl rfl rfl ?_ ?_ ?_ ?_ ?_ ?_ | apply rising_mset | apply rising_mdel | apply rising_mmod | refine rising_map (fun _ => ?_) ?_ | rfl

theorem cancelAll_keeps {a : State} (c : Nat) {s : State} (h : Keeps a s) : Keeps a (cancelAll c s) := by
  unfold cancelAll
  with_reducible repeat' first
    | assumption | intro _ _ _ | intro _ _ | intro _ | apply cancelObject_keeps | apply forEach_keeps | apply ite_keeps
    | (extract_lets +onlyGivenNames x; first | refine cut2 (p := Keeps _ x) ?_ (fun _ => ?_) | clear x | skip)
    | split | refine keeps_mk ?_ rfl rfl rfl

theorem startDeparture_keeps {a : State} (c : Fin 64) (keep : Bool) {s : State} (h : Keeps a s) : Keeps a (startDeparture c keep s) := by
  unfold startDeparture
  with_reducible repeat' first
    | assumption | intro _ _ _ | intro _ _ | intro _ | apply State_modCtx_keeps | apply raiseEvent_keeps | apply State_modCq_keeps |
      apply discardRings_keeps | apply releaseWindow_keeps | apply cancelHeldDecls_keeps | apply dropLatent_keeps | apply
      departLoads_keeps | apply withdrawAll_keeps | apply cancelAll_keeps | apply ite_keeps
    | (extract_lets +onlyGivenNames x; first | refine cut2 (p := Keeps _ x) ?_ (fun _ => ?_) | clear x | skip)
    | split | refine keeps_mk ?_ rfl rfl rfl

theorem releaseAll_keeps {a : State} (c : Nat) {s : State} (h : Keeps a s) : Keeps a (releaseAll c s) := by
  unfold releaseAll
  with_reducible repeat' first
    | assumption | intro _ _ _ | intro _ _ | intro _ | apply releaseWindow_keeps | apply streamBathEvent_keeps | apply
      endCvuBath_keeps | apply State_modCq_keeps | apply dropItems_keeps | apply forEach_keeps | apply forRange_keeps | apply
      ite_keeps
    | (extract_lets +onlyGivenNames x; first | refine cut2 (p := Keeps _ x) ?_ (fun _ => ?_) | clear x | skip)
    | split | refine keeps_mk ?_ rfl rfl rfl | refine keeps_tab ?_ rfl rfl rfl ?_ ?_ ?_ ?_ ?_ ?_ | apply rising_mset | apply rising_mdel | apply rising_mmod | refine rising_map (fun _ => ?_) ?_ | rfl

theorem lastWrites_discardTaken_keeps {a : State} (c : Fin 64) {s : State} (h : Keeps a s) : Keeps a (lastWrites.discardTaken c s) := by
  unfold lastWrites.discardTaken
  with_reducible repeat' first
    | assumption | intro _ _ _ | intro _ _ | intro _
    | (extract_lets +onlyGivenNames x; first | refine cut2 (p := Keeps _ x) ?_ (fun _ => ?_) | clear x | skip)
    | split | refine keeps_mk ?_ rfl rfl rfl

theorem lastWrites_keeps {a : State} (c : Fin 64) {s : State} (h : Keeps a s) : Keeps a (lastWrites c s) := by
  unfold lastWrites
  with_reducible repeat' first
    | assumption | intro _ _ _ | intro _ _ | intro _ | apply raiseEvent_keeps | apply putReply_keeps | apply putEvent_keeps | apply
      lastWrites_discardTaken_keeps | apply State_modCq_keeps | apply forRange_keeps
    | (extract_lets +onlyGivenNames x; first | refine cut2 (p := Keeps _ x) ?_ (fun _ => ?_) | clear x | skip)
    | split | refine keeps_mk ?_ rfl rfl rfl

theorem arriveCtx_keeps {a : State} (c : Nat) {s : State} (h : Keeps a s) : Keeps a (arriveCtx c s) := by
  unfold arriveCtx
  with_reducible repeat' first
    | assumption | intro _ _ _ | intro _ _ | intro _ | apply State_modCtx_keeps | apply raiseEvent_keeps
    | (extract_lets +onlyGivenNames x; first | refine cut2 (p := Keeps _ x) ?_ (fun _ => ?_) | clear x | skip)
    | split | refine keeps_mk ?_ rfl rfl rfl

theorem execContextStopBathEnd_keeps {a : State} (c : Fin 64) {s : State} (h : Keeps a s) : OKeeps a (execContextStopBathEnd c s) := by
  unfold execContextStopBathEnd
  with_reducible repeat' first
    | assumption | intro _ _ _ | intro _ _ | intro _ | apply next_keeps | apply releaseAll_keeps | apply lastWrites_keeps | apply
      raiseEvent_keeps | apply State_modCtx_keeps | apply arriveCtx_keeps | apply ite_okeeps | apply ite_keeps
    | (extract_lets +onlyGivenNames x; first | refine cut2 (p := Keeps _ x) ?_ (fun _ => ?_) | clear x | skip)
    | split | refine keeps_mk ?_ rfl rfl rfl

theorem fnGone_keeps {a : State} (c : Fin 64) {s : State} (h : Keeps a s) : Keeps a (fnGone c s) := by
  unfold fnGone
  with_reducible repeat' first
    | assumption | intro _ _ _ | intro _ _ | intro _ | apply startDeparture_keeps | apply State_modCtx_keeps | apply resetFn_keeps |
      apply State_modFn_keeps
    | (extract_lets +onlyGivenNames x; first | refine cut2 (p := Keeps _ x) ?_ (fun _ => ?_) | clear x | skip)
    | split | refine keeps_mk ?_ rfl rfl rfl

theorem fnCame_keeps {a : State} (c : Nat) {s : State} (h : Keeps a s) : Keeps a (fnCame c s) := by
  unfold fnCame
  with_reducible repeat' first
    | assumption | intro _ _ _ | intro _ _ | intro _ | apply arriveCtx_keeps | apply State_modCtx_keeps
    | (extract_lets +onlyGivenNames x; first | refine cut2 (p := Keeps _ x) ?_ (fun _ => ?_) | clear x | skip)
    | split | refine keeps_mk ?_ rfl rfl rfl

theorem setVfs_keeps {a : State} (enable : Bool) (n : Nat) {s : State} (h : Keeps a s) : Keeps a (setVfs enable n s) := by
  unfold setVfs
  with_reducible repeat' first
    | assumption | intro _ _ _ | intro _ _ | intro _ | apply fnGone_keeps | apply fnCame_keeps | apply forEach_keeps | apply ite_keeps
    | (extract_lets +onlyGivenNames x; first | refine cut2 (p := Keeps _ x) ?_ (fun _ => ?_) | clear x | skip)
    | split | refine keeps_mk ?_ rfl rfl rfl

theorem execVfEnable_keeps {a : State} (numVfs : Fin 64) {s : State} (h : Keeps a s) : OKeeps a (execVfEnable numVfs s) := by
  unfold execVfEnable
  with_reducible repeat' first
    | assumption | intro _ _ _ | intro _ _ | intro _ | apply next_keeps | apply setVfs_keeps | apply ite_okeeps | apply ite_keeps
    | (extract_lets +onlyGivenNames x; first | refine cut2 (p := Keeps _ x) ?_ (fun _ => ?_) | clear x | skip)
    | split | refine keeps_mk ?_ rfl rfl rfl

theorem execVfDisable_keeps {a : State} {s : State} (h : Keeps a s) : OKeeps a (execVfDisable s) := by
  unfold execVfDisable
  with_reducible repeat' first
    | assumption | intro _ _ _ | intro _ _ | intro _ | apply next_keeps | apply setVfs_keeps | apply ite_okeeps | apply ite_keeps
    | (extract_lets +onlyGivenNames x; first | refine cut2 (p := Keeps _ x) ?_ (fun _ => ?_) | clear x | skip)
    | split | refine keeps_mk ?_ rfl rfl rfl

theorem execVfFlr_keeps {a : State} (c : Fin 64) {s : State} (h : Keeps a s) : OKeeps a (execVfFlr c s) := by
  unfold execVfFlr
  with_reducible repeat' first
    | assumption | intro _ _ _ | intro _ _ | intro _ | apply next_keeps | apply startDeparture_keeps | apply State_modCtx_keeps |
      apply resetFn_keeps | apply State_modFn_keeps | apply ite_okeeps | apply ite_keeps
    | (extract_lets +onlyGivenNames x; first | refine cut2 (p := Keeps _ x) ?_ (fun _ => ?_) | clear x | skip)
    | split | refine keeps_mk ?_ rfl rfl rfl

theorem execVfFlrEnd_keeps {a : State} (c : Fin 64) {s : State} (h : Keeps a s) : OKeeps a (execVfFlrEnd c s) := by
  unfold execVfFlrEnd
  with_reducible repeat' first
    | assumption | intro _ _ _ | intro _ _ | intro _ | apply next_keeps | apply State_modFn_keeps | apply arriveCtx_keeps | apply
      fnCame_keeps | apply ite_okeeps | apply ite_keeps
    | (extract_lets +onlyGivenNames x; first | refine cut2 (p := Keeps _ x) ?_ (fun _ => ?_) | clear x | skip)
    | split | refine keeps_mk ?_ rfl rfl rfl

theorem withCtx_keeps {a : State} (p : Packet) (k : Nat → Verdict) (hk : ∀ y0, VKeeps a (k y0)) : VKeeps a (withCtx p k) := by
  unfold withCtx
  with_reducible repeat' first
    | assumption | intro _ _ _ | intro _ _ | intro _ | apply hk | apply badParam_keeps
    | (extract_lets +onlyGivenNames x; first | refine cut2 (p := Keeps _ x) ?_ (fun _ => ?_) | clear x | skip)
    | split | refine keeps_mk ?_ rfl rfl rfl

theorem getContext_keeps {a : State} (p : Packet) {s : State} (h : Keeps a s) : VKeeps a (getContext p s) := by
  unfold getContext
  with_reducible repeat' first
    | assumption | intro _ _ _ | intro _ _ | intro _ | apply withCtx_keeps | apply okBody_keeps
    | (extract_lets +onlyGivenNames x; first | refine cut2 (p := Keeps _ x) ?_ (fun _ => ?_) | clear x | skip)
    | split | refine keeps_mk ?_ rfl rfl rfl

theorem execGetContext_keeps {a : State} (p : Packet) {s : State} (h : Keeps a s) : OKeeps a (execGetContext p s) := by
  unfold execGetContext
  with_reducible repeat' first
    | assumption | intro _ _ _ | intro _ _ | intro _ | apply next_keeps | apply runCommand_keeps | apply getContext_keeps
    | (extract_lets +onlyGivenNames x; first | refine cut2 (p := Keeps _ x) ?_ (fun _ => ?_) | clear x | skip)
    | split | refine keeps_mk ?_ rfl rfl rfl

theorem givePages_keeps {a : State} (l : List Nat) (dest : Option Nat) {s : State} (h : Keeps a s) : Keeps a (givePages l dest s) := by
  unfold givePages
  with_reducible repeat' first
    | assumption | intro _ _ _ | intro _ _ | intro _ | apply forEach_keeps
    | (extract_lets +onlyGivenNames x; first | refine cut2 (p := Keeps _ x) ?_ (fun _ => ?_) | clear x | skip)
    | split | refine keeps_mk ?_ rfl rfl rfl

theorem movePages_keeps {a : State} (c : Nat) (q : Nat) {s : State} (h : Keeps a s) : Keeps a (movePages c q s) := by
  unfold movePages
  with_reducible repeat' first
    | assumption | intro _ _ _ | intro _ _ | intro _ | apply givePages_keeps | apply ite_keeps
    | (extract_lets +onlyGivenNames x; first | refine cut2 (p := Keeps _ x) ?_ (fun _ => ?_) | clear x | skip)
    | split | refine keeps_mk ?_ rfl rfl rfl

theorem setContextQuota_keeps {a : State} (p : Packet) {s : State} (h : Keeps a s) : VKeeps a (setContextQuota p s) := by
  unfold setContextQuota
  with_reducible repeat' first
    | assumption | intro _ _ _ | intro _ _ | intro _ | apply State_modCtx_keeps | apply okDone_keeps | apply movePages_keeps | apply
      refuseIf_keeps | apply badParam_keeps | apply ite_vkeeps | apply ite_keeps
    | (extract_lets +onlyGivenNames x; first | refine cut2 (p := Keeps _ x) ?_ (fun _ => ?_) | clear x | skip)
    | split | refine keeps_mk ?_ rfl rfl rfl

theorem execSetContextQuota_keeps {a : State} (p : Packet) {s : State} (h : Keeps a s) : OKeeps a (execSetContextQuota p s) := by
  unfold execSetContextQuota
  with_reducible repeat' first
    | assumption | intro _ _ _ | intro _ _ | intro _ | apply next_keeps | apply runCommand_keeps | apply setContextQuota_keeps
    | (extract_lets +onlyGivenNames x; first | refine cut2 (p := Keeps _ x) ?_ (fun _ => ?_) | clear x | skip)
    | split | refine keeps_mk ?_ rfl rfl rfl

theorem setContextChannels_keeps {a : State} (p : Packet) {s : State} (h : Keeps a s) : VKeeps a (setContextChannels p s) := by
  unfold setContextChannels
  with_reducible repeat' first
    | assumption | intro _ _ _ | intro _ _ | intro _ | apply State_modCtx_keeps | apply okDone_keeps | apply refuse_keeps | apply
      refuseIf_keeps | apply badParam_keeps | apply ite_vkeeps | apply ite_keeps
    | (extract_lets +onlyGivenNames x; first | refine cut2 (p := Keeps _ x) ?_ (fun _ => ?_) | clear x | skip)
    | split | refine keeps_mk ?_ rfl rfl rfl

theorem execSetContextChannels_keeps {a : State} (p : Packet) {s : State} (h : Keeps a s) : OKeeps a (execSetContextChannels p s) := by
  unfold execSetContextChannels
  with_reducible repeat' first
    | assumption | intro _ _ _ | intro _ _ | intro _ | apply next_keeps | apply runCommand_keeps | apply setContextChannels_keeps
    | (extract_lets +onlyGivenNames x; first | refine cut2 (p := Keeps _ x) ?_ (fun _ => ?_) | clear x | skip)
    | split | refine keeps_mk ?_ rfl rfl rfl

theorem setContextRights_keeps {a : State} (p : Packet) {s : State} (h : Keeps a s) : VKeeps a (setContextRights p s) := by
  unfold setContextRights
  with_reducible repeat' first
    | assumption | intro _ _ _ | intro _ _ | intro _ | apply okDone_keeps | apply State_modCtx_keeps | apply refuseIf_keeps | apply
      badParam_keeps
    | (extract_lets +onlyGivenNames x; first | refine cut2 (p := Keeps _ x) ?_ (fun _ => ?_) | clear x | skip)
    | split | refine keeps_mk ?_ rfl rfl rfl

theorem execSetContextRights_keeps {a : State} (p : Packet) {s : State} (h : Keeps a s) : OKeeps a (execSetContextRights p s) := by
  unfold execSetContextRights
  with_reducible repeat' first
    | assumption | intro _ _ _ | intro _ _ | intro _ | apply next_keeps | apply runCommand_keeps | apply setContextRights_keeps
    | (extract_lets +onlyGivenNames x; first | refine cut2 (p := Keeps _ x) ?_ (fun _ => ?_) | clear x | skip)
    | split | refine keeps_mk ?_ rfl rfl rfl

theorem quiesceContext_keeps {a : State} (p : Packet) {s : State} (h : Keeps a s) : VKeeps a (quiesceContext p s) := by
  unfold quiesceContext
  with_reducible repeat' first
    | assumption | intro _ _ _ | intro _ _ | intro _ | apply withCtx_keeps | apply okDone_keeps | apply startDeparture_keeps | apply
      refuseIf_keeps
    | (extract_lets +onlyGivenNames x; first | refine cut2 (p := Keeps _ x) ?_ (fun _ => ?_) | clear x | skip)
    | split | refine keeps_mk ?_ rfl rfl rfl

theorem execQuiesceContext_keeps {a : State} (p : Packet) {s : State} (h : Keeps a s) : OKeeps a (execQuiesceContext p s) := by
  unfold execQuiesceContext
  with_reducible repeat' first
    | assumption | intro _ _ _ | intro _ _ | intro _ | apply next_keeps | apply runCommand_keeps | apply quiesceContext_keeps
    | (extract_lets +onlyGivenNames x; first | refine cut2 (p := Keeps _ x) ?_ (fun _ => ?_) | clear x | skip)
    | split | refine keeps_mk ?_ rfl rfl rfl

end Sys2Proof.Machine
end

