-- ==== Sys2Proof/Laws/KeepsStack.lean ====
section
/-!
SUPPORT. Links, updates and contact sheets keep the queue, the straps and the fault log sound.
-/

namespace Sys2Proof.Machine

set_option linter.all false

/-! ### LinkOps -/

theorem endSession_keeps {a : State} (reason : Nat) {s : State} (h : Keeps a s) : Keeps a (endSession reason s) := by
  unfold endSession
  with_reducible repeat' first
    | assumption | intro _ _ _ | intro _ _ | intro _ | apply raiseEvent_keeps
    | (extract_lets +onlyGivenNames x; first | refine cut2 (p := Keeps _ x) ?_ (fun _ => ?_) | clear x | skip)
    | split | refine keeps_mk ?_ rfl rfl rfl

theorem linkEvent_keeps {a : State} (p : Port) (old : LinkState) {s : State} (h : Keeps a s) : Keeps a (linkEvent p old s) := by
  unfold linkEvent
  with_reducible repeat' first
    | assumption | intro _ _ _ | intro _ _ | intro _ | apply raiseEvent_keeps
    | (extract_lets +onlyGivenNames x; first | refine cut2 (p := Keeps _ x) ?_ (fun _ => ?_) | clear x | skip)
    | split | refine keeps_mk ?_ rfl rfl rfl

theorem chooseUpstream_keeps {a : State} {s : State} (h : Keeps a s) : Keeps a (chooseUpstream s) := by
  unfold chooseUpstream
  with_reducible repeat' first
    | assumption | intro _ _ _ | intro _ _ | intro _
    | (extract_lets +onlyGivenNames x; first | refine cut2 (p := Keeps _ x) ?_ (fun _ => ?_) | clear x | skip)
    | split | refine keeps_mk ?_ rfl rfl rfl

theorem changeUpstream_keeps {a : State} {s : State} (h : Keeps a s) : Keeps a (changeUpstream s) := by
  unfold changeUpstream
  with_reducible repeat' first
    | assumption | intro _ _ _ | intro _ _ | intro _ | apply chooseUpstream_keeps | apply State_modLink_keeps | apply ite_keeps
    | (extract_lets +onlyGivenNames x; first | refine cut2 (p := Keeps _ x) ?_ (fun _ => ?_) | clear x | skip)
    | split | refine keeps_mk ?_ rfl rfl rfl

theorem modDev_keeps {a : State} (d : Nat) (f : Device → Device) {s : State} (h : Keeps a s) : Keeps a (modDev d f s) := by
  unfold modDev
  with_reducible repeat' first
    | assumption | intro _ _ _ | intro _ _ | intro _
    | (extract_lets +onlyGivenNames x; first | refine cut2 (p := Keeps _ x) ?_ (fun _ => ?_) | clear x | skip)
    | split | refine keeps_mk ?_ rfl rfl rfl

theorem clearPaths_keeps {a : State} (p : Port) {s : State} (h : Keeps a s) : Keeps a (clearPaths p s) := by
  unfold clearPaths
  with_reducible repeat' first
    | assumption | intro _ _ _ | intro _ _ | intro _ | apply modDev_keeps | apply forRange_keeps | apply ite_keeps
    | (extract_lets +onlyGivenNames x; first | refine cut2 (p := Keeps _ x) ?_ (fun _ => ?_) | clear x | skip)
    | split | refine keeps_mk ?_ rfl rfl rfl

theorem setLink_keeps {a : State} (p : Port) (st : LinkState) (reason : Nat) {s : State} (h : Keeps a s) : Keeps a (setLink p st reason s) := by
  unfold setLink
  with_reducible repeat' first
    | assumption | intro _ _ _ | intro _ _ | intro _ | apply State_modLink_keeps | apply linkEvent_keeps | apply changeUpstream_keeps
      | apply clearPaths_keeps | apply ite_keeps
    | (extract_lets +onlyGivenNames x; first | refine cut2 (p := Keeps _ x) ?_ (fun _ => ?_) | clear x | skip)
    | split | refine keeps_mk ?_ rfl rfl rfl

theorem refigureCross_keeps {a : State} {s : State} (h : Keeps a s) : Keeps a (refigureCross s) := by
  unfold refigureCross
  with_reducible repeat' first
    | assumption | intro _ _ _ | intro _ _ | intro _ | apply refigure_keeps | apply ite_keeps
    | (extract_lets +onlyGivenNames x; first | refine cut2 (p := Keeps _ x) ?_ (fun _ => ?_) | clear x | skip)
    | split | refine keeps_mk ?_ rfl rfl rfl

theorem setRing_keeps {a : State} (ring : Bool) {s : State} (h : Keeps a s) : Keeps a (setRing ring s) := by
  unfold setRing
  with_reducible repeat' first
    | assumption | intro _ _ _ | intro _ _ | intro _ | apply refigureCross_keeps | apply raiseEvent_keeps | apply ite_keeps
    | (extract_lets +onlyGivenNames x; first | refine cut2 (p := Keeps _ x) ?_ (fun _ => ?_) | clear x | skip)
    | split | refine keeps_mk ?_ rfl rfl rfl

theorem targetLost_keeps {a : State} (d : Nat) {s : State} (h : Keeps a s) : Keeps a (targetLost d s) := by
  unfold targetLost
  with_reducible repeat' first
    | assumption | intro _ _ _ | intro _ _ | intro _ | apply replyTaken_keeps | apply forEach_keeps
    | (extract_lets +onlyGivenNames x; first | refine cut2 (p := Keeps _ x) ?_ (fun _ => ?_) | clear x | skip)
    | split | refine keeps_mk ?_ rfl rfl rfl

theorem deviceLeft_keeps {a : State} (d : Nat) {s : State} (h : Keeps a s) : Keeps a (deviceLeft d s) := by
  unfold deviceLeft
  with_reducible repeat' first
    | assumption | intro _ _ _ | intro _ _ | intro _ | apply modDev_keeps | apply raiseEvent_keeps | apply targetLost_keeps | apply
      endSession_keeps | apply ite_keeps
    | (extract_lets +onlyGivenNames x; first | refine cut2 (p := Keeps _ x) ?_ (fun _ => ?_) | clear x | skip)
    | split | refine keeps_mk ?_ rfl rfl rfl | refine keeps_tab ?_ rfl rfl rfl ?_ ?_ ?_ ?_ ?_ ?_ | apply rising_mset | apply rising_mdel | apply rising_mmod | refine rising_map (fun _ => ?_) ?_ | rfl

theorem losePaths_keeps {a : State} {s : State} (h : Keeps a s) : Keeps a (losePaths s) := by
  unfold losePaths
  with_reducible repeat' first
    | assumption | intro _ _ _ | intro _ _ | intro _ | apply deviceLeft_keeps | apply forEach_keeps
    | (extract_lets +onlyGivenNames x; first | refine cut2 (p := Keeps _ x) ?_ (fun _ => ?_) | clear x | skip)
    | split | refine keeps_mk ?_ rfl rfl rfl

theorem leaveUp_keeps {a : State} (p : Port) {s : State} (h : Keeps a s) : Keeps a (leaveUp p s) := by
  unfold leaveUp
  with_reducible repeat' first
    | assumption | intro _ _ _ | intro _ _ | intro _ | apply refigureCross_keeps | apply setRing_keeps | apply losePaths_keeps | apply
      readyOff_keeps
    | (extract_lets +onlyGivenNames x; first | refine cut2 (p := Keeps _ x) ?_ (fun _ => ?_) | clear x | skip)
    | split | refine keeps_mk ?_ rfl rfl rfl

theorem redirect_keeps {a : State} (p : Port) {s : State} (h : Keeps a s) : Keeps a (redirect p s) := by
  unfold redirect
  with_reducible repeat' first
    | assumption | intro _ _ _ | intro _ _ | intro _ | apply State_modLink_keeps | apply sendFrame_keeps | apply forEach_keeps | apply
      ite_keeps
    | (extract_lets +onlyGivenNames x; first | refine cut2 (p := Keeps _ x) ?_ (fun _ => ?_) | clear x | skip)
    | split | refine keeps_mk ?_ rfl rfl rfl

theorem enterConflict_keeps {a : State} (p : Port) (reason : Nat) {s : State} (h : Keeps a s) : Keeps a (enterConflict p reason s) := by
  unfold enterConflict
  with_reducible repeat' first
    | assumption | intro _ _ _ | intro _ _ | intro _ | apply setLink_keeps | apply redirect_keeps | apply leaveUp_keeps | apply
      ite_keeps
    | (extract_lets +onlyGivenNames x; first | refine cut2 (p := Keeps _ x) ?_ (fun _ => ?_) | clear x | skip)
    | split | refine keeps_mk ?_ rfl rfl rfl

theorem tableEntry_keeps {a : State} (d : Nat) (new : Device) {s : State} (h : Keeps a s) : Keeps a (tableEntry d new s) := by
  unfold tableEntry
  with_reducible repeat' first
    | assumption | intro _ _ _ | intro _ _ | intro _ | apply modDev_keeps | apply ite_keeps
    | (extract_lets +onlyGivenNames x; first | refine cut2 (p := Keeps _ x) ?_ (fun _ => ?_) | clear x | skip)
    | split | refine keeps_mk ?_ rfl rfl rfl

theorem joined0D02_keeps {a : State} (d : Nat) (old : Device) (new : Device) {s : State} (h : Keeps a s) : Keeps a (joined0D02 d old new s) := by
  unfold joined0D02
  with_reducible repeat' first
    | assumption | intro _ _ _ | intro _ _ | intro _ | apply raiseEvent_keeps | apply ite_keeps
    | (extract_lets +onlyGivenNames x; first | refine cut2 (p := Keeps _ x) ?_ (fun _ => ?_) | clear x | skip)
    | split | refine keeps_mk ?_ rfl rfl rfl

theorem enterUp_keeps {a : State} (p : Port) (q : Partner) {s : State} (h : Keeps a s) : Keeps a (enterUp p q s) := by
  unfold enterUp
  with_reducible repeat' first
    | assumption | intro _ _ _ | intro _ _ | intro _ | apply State_modLink_keeps | apply linkEvent_keeps | apply chooseUpstream_keeps
      | apply tableEntry_keeps | apply refigureCross_keeps | apply readyOn_keeps | apply joined0D02_keeps | apply sendFrame_keeps |
      apply ite_keeps
    | (extract_lets +onlyGivenNames x; first | refine cut2 (p := Keeps _ x) ?_ (fun _ => ?_) | clear x | skip)
    | split | refine keeps_mk ?_ rfl rfl rfl

theorem linkDown_keeps {a : State} (p : Port) (reason : Nat) {s : State} (h : Keeps a s) : Keeps a (linkDown p reason s) := by
  unfold linkDown
  with_reducible repeat' first
    | assumption | intro _ _ _ | intro _ _ | intro _ | apply redirect_keeps | apply leaveUp_keeps | apply setLink_keeps | apply
      State_modLink_keeps
    | (extract_lets +onlyGivenNames x; first | refine cut2 (p := Keeps _ x) ?_ (fun _ => ?_) | clear x | skip)
    | split | refine keeps_mk ?_ rfl rfl rfl

theorem takeLinkHeader_keeps {a : State} (p : Port) (f : LinkRx) {s : State} (h : Keeps a s) : Keeps a (takeLinkHeader p f s) := by
  unfold takeLinkHeader
  with_reducible repeat' first
    | assumption | intro _ _ _ | intro _ _ | intro _ | apply State_modLink_keeps | apply pumpLink_keeps | apply ite_keeps
    | (extract_lets +onlyGivenNames x; first | refine cut2 (p := Keeps _ x) ?_ (fun _ => ?_) | clear x | skip)
    | split | refine keeps_mk ?_ rfl rfl rfl

theorem oversizeFrame_keeps {a : State} (p : Port) (f : LinkFrame) {s : State} (h : Keeps a s) : Keeps a (oversizeFrame p f s) := by
  unfold oversizeFrame
  with_reducible repeat' first
    | assumption | intro _ _ _ | intro _ _ | intro _ | apply State_modLink_keeps | apply dropPacket_keeps
    | (extract_lets +onlyGivenNames x; first | refine cut2 (p := Keeps _ x) ?_ (fun _ => ?_) | clear x | skip)
    | split | refine keeps_mk ?_ rfl rfl rfl

theorem takeCells_keeps {a : State} (p : Port) (f : LinkFrame) {s : State} (h : Keeps a s) : Keeps a (takeCells p f s) := by
  unfold takeCells
  with_reducible repeat' first
    | assumption | intro _ _ _ | intro _ _ | intro _ | apply State_modLink_keeps | apply fcAt_keeps | apply modStat_keeps
    | (extract_lets +onlyGivenNames x; first | refine cut2 (p := Keeps _ x) ?_ (fun _ => ?_) | clear x | skip)
    | split | refine keeps_mk ?_ rfl rfl rfl

theorem settleDebt_keeps {a : State} (p : Port) {s : State} (h : Keeps a s) : Keeps a (settleDebt p s) := by
  unfold settleDebt
  with_reducible repeat' first
    | assumption | intro _ _ _ | intro _ _ | intro _ | apply sendFrame_keeps | apply ite_keeps
    | (extract_lets +onlyGivenNames x; first | refine cut2 (p := Keeps _ x) ?_ (fun _ => ?_) | clear x | skip)
    | split | refine keeps_mk ?_ rfl rfl rfl

theorem takeFrameFrom_keeps {a : State} (p : Port) (t : FrameType) (parity : Bool) (f : LinkRx) (h0 : LinkFrame → State → State) {s : State} (hk : ∀ y0 y1, Keeps a y1 → Keeps a (h0 y0 y1)) (h : Keeps a s) : Keeps a (takeFrameFrom p t parity f h0 s) := by
  unfold takeFrameFrom
  with_reducible repeat' first
    | assumption | intro _ _ _ | intro _ _ | intro _ | apply hk | apply State_modLink_keeps | apply dropPacket_keeps | apply
      takeLinkHeader_keeps | apply oversizeFrame_keeps | apply takeCells_keeps | apply parityDrop_keeps | apply settleDebt_keeps |
      apply ite_keeps
    | (extract_lets +onlyGivenNames x; first | refine cut2 (p := Keeps _ x) ?_ (fun _ => ?_) | clear x | skip)
    | split | refine keeps_mk ?_ rfl rfl rfl

theorem takeFrame_keeps {a : State} (p : Port) (t : FrameType) (f : LinkRx) (h0 : LinkFrame → State → State) {s : State} (hk : ∀ y0 y1, Keeps a y1 → Keeps a (h0 y0 y1)) (h : Keeps a s) : Keeps a (takeFrame p t f h0 s) := by
  unfold takeFrame
  with_reducible repeat' first
    | assumption | intro _ _ _ | intro _ _ | intro _ | apply hk | apply takeFrameFrom_keeps
    | (extract_lets +onlyGivenNames x; first | refine cut2 (p := Keeps _ x) ?_ (fun _ => ?_) | clear x | skip)
    | split | refine keeps_mk ?_ rfl rfl rfl

theorem relay_keeps {a : State} (p : Port) (f : LinkFrame) {s : State} (h : Keeps a s) : Keeps a (relay p f s) := by
  unfold relay
  dsimp only
  split
  · exact sendFrame_keeps _ _ h
  · exact h

theorem joinSegment_keeps {a : State} (f : LinkFrame) (h0 : List Byte → State → State) {s : State} (hk : ∀ y0 y1, Keeps a y1 → Keeps a (h0 y0 y1)) (h : Keeps a s) : Keeps a (joinSegment f h0 s) := by
  unfold joinSegment
  with_reducible repeat' first
    | assumption | intro _ _ _ | intro _ _ | intro _ | apply hk | apply ite_keeps
    | (extract_lets +onlyGivenNames x; first | refine cut2 (p := Keeps _ x) ?_ (fun _ => ?_) | clear x | skip)
    | split | refine keeps_mk ?_ rfl rfl rfl | refine keeps_tab ?_ rfl rfl rfl ?_ ?_ ?_ ?_ ?_ ?_ | apply rising_mset | apply rising_mdel | apply rising_mmod | refine rising_map (fun _ => ?_) ?_ | rfl

theorem enterDevice_keeps {a : State} (d : Nat) (new : Device) {s : State} (h : Keeps a s) : Keeps a (enterDevice d new s) := by
  unfold enterDevice
  with_reducible repeat' first
    | assumption | intro _ _ _ | intro _ _ | intro _ | apply joined0D02_keeps | apply tableEntry_keeps
    | (extract_lets +onlyGivenNames x; first | refine cut2 (p := Keeps _ x) ?_ (fun _ => ?_) | clear x | skip)
    | split | refine keeps_mk ?_ rfl rfl rfl

theorem tableMoved_keeps {a : State} {before : State} {s : State} (h : Keeps a before) (h1 : Keeps a s) : Keeps a (tableMoved before s) := by
  unfold tableMoved
  with_reducible repeat' first
    | assumption | intro _ _ _ | intro _ _ | intro _ | apply refigureCross_keeps | apply ite_keeps
    | (extract_lets +onlyGivenNames x; first | refine cut2 (p := Keeps _ x) ?_ (fun _ => ?_) | clear x | skip)
    | split | refine keeps_mk ?_ rfl rfl rfl

/-! ### LinkEvents -/

theorem linkBathEvent_keeps {a : State} (code : Nat) (p : Port) (src : Source) {s : State} (h : Keeps a s) : Keeps a (linkBathEvent code p src s) := by
  unfold linkBathEvent
  with_reducible repeat' first
    | assumption | intro _ _ _ | intro _ _ | intro _ | apply raiseEvent_keeps
    | (extract_lets +onlyGivenNames x; first | refine cut2 (p := Keeps _ x) ?_ (fun _ => ?_) | clear x | skip)
    | split | refine keeps_mk ?_ rfl rfl rfl

theorem execLinkUp_keeps {a : State} (port : Port) (partner : Partner) {s : State} (h : Keeps a s) : OKeeps a (execLinkUp port partner s) := by
  unfold execLinkUp
  with_reducible repeat' first
    | assumption | intro _ _ _ | intro _ _ | intro _ | apply next_keeps | apply enterConflict_keeps | apply enterUp_keeps | apply
      ite_okeeps | apply ite_keeps
    | (extract_lets +onlyGivenNames x; first | refine cut2 (p := Keeps _ x) ?_ (fun _ => ?_) | clear x | skip)
    | split | refine keeps_mk ?_ rfl rfl rfl

theorem execLinkDown_keeps {a : State} (port : Port) (reason : Nat) {s : State} (h : Keeps a s) : OKeeps a (execLinkDown port reason s) := by
  unfold execLinkDown
  with_reducible repeat' first
    | assumption | intro _ _ _ | intro _ _ | intro _ | apply next_keeps | apply linkDown_keeps | apply ite_okeeps | apply ite_keeps
    | (extract_lets +onlyGivenNames x; first | refine cut2 (p := Keeps _ x) ?_ (fun _ => ?_) | clear x | skip)
    | split | refine keeps_mk ?_ rfl rfl rfl

theorem execLinkConflictRetry_keeps {a : State} (port : Port) {s : State} (h : Keeps a s) : OKeeps a (execLinkConflictRetry port s) := by
  unfold execLinkConflictRetry
  with_reducible repeat' first
    | assumption | intro _ _ _ | intro _ _ | intro _ | apply next_keeps | apply setLink_keeps | apply reachClk_keeps | apply
      ite_okeeps | apply ite_keeps
    | (extract_lets +onlyGivenNames x; first | refine cut2 (p := Keeps _ x) ?_ (fun _ => ?_) | clear x | skip)
    | split | refine keeps_mk ?_ rfl rfl rfl

theorem execLinkStopBathEnd_keeps {a : State} (port : Port) {s : State} (h : Keeps a s) : OKeeps a (execLinkStopBathEnd port s) := by
  unfold execLinkStopBathEnd
  with_reducible repeat' first
    | assumption | intro _ _ _ | intro _ _ | intro _ | apply next_keeps | apply reachClk_keeps | apply State_modLink_keeps | apply
      redirect_keeps | apply linkBathEvent_keeps | apply setLink_keeps | apply ite_okeeps | apply ite_keeps
    | (extract_lets +onlyGivenNames x; first | refine cut2 (p := Keeps _ x) ?_ (fun _ => ?_) | clear x | skip)
    | split | refine keeps_mk ?_ rfl rfl rfl

theorem execTimeFrameReceived_keeps {a : State} (port : Port) (f : LinkRx) {s : State} (h : Keeps a s) : OKeeps a (execTimeFrameReceived port f s) := by
  unfold execTimeFrameReceived
  with_reducible repeat' first
    | assumption | intro _ _ _ | intro _ _ | intro _ | apply next_keeps | apply takeFrame_keeps | apply sendFrame_keeps | apply
      drawn_keeps | apply ite_okeeps | apply ite_keeps
    | (extract_lets +onlyGivenNames x; first | refine cut2 (p := Keeps _ x) ?_ (fun _ => ?_) | clear x | skip)
    | split | refine keeps_mk ?_ rfl rfl rfl

theorem takeRoute_keeps {a : State} (valid : Nat) (f : LinkFrame) {s : State} (h : Keeps a s) : Keeps a (takeRoute valid f s) := by
  unfold takeRoute
  with_reducible repeat' first
    | assumption | intro _ _ _ | intro _ _ | intro _ | apply handOff_keeps | apply ite_keeps
    | (extract_lets +onlyGivenNames x; first | refine cut2 (p := Keeps _ x) ?_ (fun _ => ?_) | clear x | skip)
    | split | refine keeps_mk ?_ rfl rfl rfl

theorem relayRoute_keeps {a : State} (p : Port) (f : LinkFrame) {s : State} (h : Keeps a s) : Keeps a (relayRoute p f s) := by
  unfold relayRoute
  with_reducible repeat' first
    | assumption | intro _ _ _ | intro _ _ | intro _ | apply relay_keeps | apply State_modLink_keeps | apply ite_keeps
    | (extract_lets +onlyGivenNames x; first | refine cut2 (p := Keeps _ x) ?_ (fun _ => ?_) | clear x | skip)
    | split | refine keeps_mk ?_ rfl rfl rfl

theorem execRouteFrameReceived_keeps {a : State} (port : Port) (f : LinkRx) (parity : Bool) (valid : Nat) {s : State} (h : Keeps a s) : OKeeps a (execRouteFrameReceived port f parity valid s) := by
  unfold execRouteFrameReceived
  with_reducible repeat' first
    | assumption | intro _ _ _ | intro _ _ | intro _ | apply next_keeps | apply takeFrameFrom_keeps | apply State_modLink_keeps |
      apply takeRoute_keeps | apply relayRoute_keeps | apply ite_okeeps | apply ite_keeps
    | (extract_lets +onlyGivenNames x; first | refine cut2 (p := Keeps _ x) ?_ (fun _ => ?_) | clear x | skip)
    | split | refine keeps_mk ?_ rfl rfl rfl

theorem execCmdFrameReceived_keeps {a : State} (port : Port) (f : LinkRx) {s : State} (h : Keeps a s) : OKeeps a (execCmdFrameReceived port f s) := by
  unfold execCmdFrameReceived
  with_reducible repeat' first
    | assumption | intro _ _ _ | intro _ _ | intro _ | apply next_keeps | apply takeFrame_keeps | apply relay_keeps | apply
      joinSegment_keeps | apply arrivePacket_keeps | apply ite_okeeps | apply ite_keeps
    | (extract_lets +onlyGivenNames x; first | refine cut2 (p := Keeps _ x) ?_ (fun _ => ?_) | clear x | skip)
    | split | refine keeps_mk ?_ rfl rfl rfl

theorem takeReply_keeps {a : State} (src : Nat) (b : List Byte) {s : State} (h : Keeps a s) : Keeps a (takeReply src b s) := by
  unfold takeReply
  with_reducible repeat' first
    | assumption | intro _ _ _ | intro _ _ | intro _ | apply replyTakenFrom_keeps
    | (extract_lets +onlyGivenNames x; first | refine cut2 (p := Keeps _ x) ?_ (fun _ => ?_) | clear x | skip)
    | split | refine keeps_mk ?_ rfl rfl rfl

theorem execReplyFrameReceived_keeps {a : State} (port : Port) (f : LinkRx) {s : State} (h : Keeps a s) : OKeeps a (execReplyFrameReceived port f s) := by
  unfold execReplyFrameReceived
  with_reducible repeat' first
    | assumption | intro _ _ _ | intro _ _ | intro _ | apply next_keeps | apply takeFrame_keeps | apply relay_keeps | apply
      joinSegment_keeps | apply takeReply_keeps | apply ite_okeeps | apply ite_keeps
    | (extract_lets +onlyGivenNames x; first | refine cut2 (p := Keeps _ x) ?_ (fun _ => ?_) | clear x | skip)
    | split | refine keeps_mk ?_ rfl rfl rfl

theorem execEventFrameReceived_keeps {a : State} (port : Port) (f : LinkRx) {s : State} (h : Keeps a s) : OKeeps a (execEventFrameReceived port f s) := by
  unfold execEventFrameReceived
  with_reducible repeat' first
    | assumption | intro _ _ _ | intro _ _ | intro _ | apply next_keeps | apply takeFrame_keeps | apply relay_keeps | apply
      pushEvent_keeps | apply ite_okeeps | apply ite_keeps
    | (extract_lets +onlyGivenNames x; first | refine cut2 (p := Keeps _ x) ?_ (fun _ => ?_) | clear x | skip)
    | split | refine keeps_mk ?_ rfl rfl rfl

theorem takeAsk_keeps {a : State} (p : Port) (f : LinkFrame) {s : State} (h : Keeps a s) : Keeps a (takeAsk p f s) := by
  unfold takeAsk
  with_reducible repeat' first
    | assumption | intro _ _ _ | intro _ _ | intro _ | apply enterConflict_keeps | apply enterDevice_keeps | apply sendFrame_keeps |
      apply chooseUpstream_keeps | apply ite_keeps
    | (extract_lets +onlyGivenNames x; first | refine cut2 (p := Keeps _ x) ?_ (fun _ => ?_) | clear x | skip)
    | split | refine keeps_mk ?_ rfl rfl rfl

theorem sendTable_keeps {a : State} {s : State} (h : Keeps a s) : Keeps a (sendTable s) := by
  unfold sendTable
  with_reducible repeat' first
    | assumption | intro _ _ _ | intro _ _ | intro _ | apply sendFrame_keeps | apply forEach_keeps | apply forRange_keeps | apply
      ite_keeps
    | (extract_lets +onlyGivenNames x; first | refine cut2 (p := Keeps _ x) ?_ (fun _ => ?_) | clear x | skip)
    | split | refine keeps_mk ?_ rfl rfl rfl

theorem takeAnswer_keeps {a : State} (p : Port) (f : LinkFrame) {s : State} (h : Keeps a s) : Keeps a (takeAnswer p f s) := by
  unfold takeAnswer
  with_reducible repeat' first
    | assumption | intro _ _ _ | intro _ _ | intro _ | apply State_modLink_keeps | apply enterDevice_keeps | apply enterConflict_keeps
      | apply sendTable_keeps | apply tableMoved_keeps | apply ite_keeps
    | (extract_lets +onlyGivenNames x; first | refine cut2 (p := Keeps _ x) ?_ (fun _ => ?_) | clear x | skip)
    | split | refine keeps_mk ?_ rfl rfl rfl

theorem refuseNeighbour_keeps {a : State} (d : Nat) (new : Device) {s : State} (h : Keeps a s) : Keeps a (refuseNeighbour d new s) := by
  unfold refuseNeighbour
  with_reducible repeat' first
    | assumption | intro _ _ _ | intro _ _ | intro _ | apply enterConflict_keeps | apply forEach_keeps
    | (extract_lets +onlyGivenNames x; first | refine cut2 (p := Keeps _ x) ?_ (fun _ => ?_) | clear x | skip)
    | split | refine keeps_mk ?_ rfl rfl rfl

theorem takeEntry_keeps {a : State} (ring : Bool) (size : Nat) (d : Nat) (own : Device) (new : Device) {s : State} (h : Keeps a s) : Keeps a (takeEntry ring size d own new s) := by
  unfold takeEntry
  with_reducible repeat' first
    | assumption | intro _ _ _ | intro _ _ | intro _ | apply refuseNeighbour_keeps | apply deviceLeft_keeps | apply enterDevice_keeps
      | apply ite_keeps
    | (extract_lets +onlyGivenNames x; first | refine cut2 (p := Keeps _ x) ?_ (fun _ => ?_) | clear x | skip)
    | split | refine keeps_mk ?_ rfl rfl rfl

theorem takeCopy_keeps {a : State} (p : Port) (f : LinkFrame) {s : State} (h : Keeps a s) : Keeps a (takeCopy p f s) := by
  unfold takeCopy
  with_reducible repeat' first
    | assumption | intro _ _ _ | intro _ _ | intro _ | apply tableEntry_keeps | apply takeEntry_keeps | apply setRing_keeps | apply
      tableMoved_keeps | apply changeUpstream_keeps | apply ite_keeps
    | (extract_lets +onlyGivenNames x; first | refine cut2 (p := Keeps _ x) ?_ (fun _ => ?_) | clear x | skip)
    | split | refine keeps_mk ?_ rfl rfl rfl

theorem execDiscoverFrameReceived_keeps {a : State} (port : Port) (f : LinkRx) {s : State} (h : Keeps a s) : OKeeps a (execDiscoverFrameReceived port f s) := by
  unfold execDiscoverFrameReceived
  with_reducible repeat' first
    | assumption | intro _ _ _ | intro _ _ | intro _ | apply next_keeps | apply takeFrame_keeps | apply setRing_keeps | apply
      takeAsk_keeps | apply takeAnswer_keeps | apply relay_keeps | apply takeCopy_keeps | apply ite_okeeps | apply ite_keeps
    | (extract_lets +onlyGivenNames x; first | refine cut2 (p := Keeps _ x) ?_ (fun _ => ?_) | clear x | skip)
    | split | refine keeps_mk ?_ rfl rfl rfl

theorem execIdleFrameReceived_keeps {a : State} (port : Port) (f : LinkRx) {s : State} (h : Keeps a s) : OKeeps a (execIdleFrameReceived port f s) := by
  unfold execIdleFrameReceived
  with_reducible repeat' first
    | assumption | intro _ _ _ | intro _ _ | intro _ | apply next_keeps | apply takeFrame_keeps
    | (extract_lets +onlyGivenNames x; first | refine cut2 (p := Keeps _ x) ?_ (fun _ => ?_) | clear x | skip)
    | split | refine keeps_mk ?_ rfl rfl rfl

theorem execReplayTimeout_keeps {a : State} (port : Port) {s : State} (h : Keeps a s) : OKeeps a (execReplayTimeout port s) := by
  unfold execReplayTimeout
  with_reducible repeat' first
    | assumption | intro _ _ _ | intro _ _ | intro _ | apply next_keeps | apply reachClk_keeps | apply linkDown_keeps | apply
      State_modLink_keeps | apply State_emit_keeps | apply ite_okeeps | apply ite_keeps
    | (extract_lets +onlyGivenNames x; first | refine cut2 (p := Keeps _ x) ?_ (fun _ => ?_) | clear x | skip)
    | split | refine keeps_mk ?_ rfl rfl rfl

theorem judgeSilent_keeps {a : State} (d : Nat) {s : State} (h : Keeps a s) : Keeps a (judgeSilent d s) := by
  unfold judgeSilent
  with_reducible repeat' first
    | assumption | intro _ _ _ | intro _ _ | intro _ | apply tableEntry_keeps | apply deviceLeft_keeps | apply modDev_keeps | apply
      ite_keeps
    | (extract_lets +onlyGivenNames x; first | refine cut2 (p := Keeps _ x) ?_ (fun _ => ?_) | clear x | skip)
    | split | refine keeps_mk ?_ rfl rfl rfl

theorem clearWalls_keeps {a : State} {s : State} (h : Keeps a s) : Keeps a (clearWalls s) := by
  unfold clearWalls
  with_reducible repeat' first
    | assumption | intro _ _ _ | intro _ _ | intro _ | apply State_modLink_keeps | apply forEach_keeps
    | (extract_lets +onlyGivenNames x; first | refine cut2 (p := Keeps _ x) ?_ (fun _ => ?_) | clear x | skip)
    | split | refine keeps_mk ?_ rfl rfl rfl

theorem endRound_keeps {a : State} {s : State} (h : Keeps a s) : Keeps a (endRound s) :=
  setRing_keeps _ (tableMoved_keeps h (forRange_keeps 8 _ (fun d _ h => judgeSilent_keeps d h) h))

theorem startRound_keeps {a : State} {s : State} (h : Keeps a s) : Keeps a (startRound s) :=
  clearWalls_keeps (keeps_mk h rfl rfl rfl)

theorem execDiscoverRound_keeps {a : State} {s : State} (h : Keeps a s) : OKeeps a (execDiscoverRound s) := by
  unfold execDiscoverRound
  with_reducible repeat' first
    | assumption | intro _ _ _ | intro _ _ | intro _ | apply next_keeps | apply reachClk_keeps | apply startRound_keeps | apply
      endRound_keeps | apply sendTable_keeps | apply sendFrame_keeps | apply ite_okeeps | apply ite_keeps
    | (extract_lets +onlyGivenNames x; first | refine cut2 (p := Keeps _ x) ?_ (fun _ => ?_) | clear x | skip)
    | split | refine keeps_mk ?_ rfl rfl rfl

theorem execLinkTrainingFailed_keeps {a : State} (port : Port) (reason : Nat) {s : State} (h : Keeps a s) : OKeeps a (execLinkTrainingFailed port reason s) := by
  unfold execLinkTrainingFailed
  with_reducible repeat' first
    | assumption | intro _ _ _ | intro _ _ | intro _ | apply next_keeps | apply enterConflict_keeps | apply setLink_keeps | apply
      ite_okeeps | apply ite_keeps
    | (extract_lets +onlyGivenNames x; first | refine cut2 (p := Keeps _ x) ?_ (fun _ => ?_) | clear x | skip)
    | split | refine keeps_mk ?_ rfl rfl rfl

/-! ### LinkCmds -/

theorem getStack_keeps {a : State} (p : Packet) {s : State} (h : Keeps a s) : VKeeps a (getStack p s) := by
  unfold getStack
  with_reducible repeat' first
    | assumption | intro _ _ _ | intro _ _ | intro _ | apply okBody_keeps | apply drawn_keeps | apply badParam_keeps
    | (extract_lets +onlyGivenNames x; first | refine cut2 (p := Keeps _ x) ?_ (fun _ => ?_) | clear x | skip)
    | split | refine keeps_mk ?_ rfl rfl rfl

theorem execGetStack_keeps {a : State} (p : Packet) {s : State} (h : Keeps a s) : OKeeps a (execGetStack p s) := by
  unfold execGetStack
  with_reducible repeat' first
    | assumption | intro _ _ _ | intro _ _ | intro _ | apply next_keeps | apply runCommand_keeps | apply getStack_keeps
    | (extract_lets +onlyGivenNames x; first | refine cut2 (p := Keeps _ x) ?_ (fun _ => ?_) | clear x | skip)
    | split | refine keeps_mk ?_ rfl rfl rfl

theorem configLink_keeps {a : State} (p : Packet) {s : State} (h : Keeps a s) : VKeeps a (configLink p s) := by
  unfold configLink
  with_reducible repeat' first
    | assumption | intro _ _ _ | intro _ _ | intro _ | apply bundleOpen_keeps | apply stage_keeps | apply refuse_keeps | apply
      refuseIf_keeps | apply badParam_keeps | apply ite_vkeeps | apply ite_keeps
    | (extract_lets +onlyGivenNames x; first | refine cut2 (p := Keeps _ x) ?_ (fun _ => ?_) | clear x | skip)
    | split | refine keeps_mk ?_ rfl rfl rfl

theorem execConfigLink_keeps {a : State} (p : Packet) {s : State} (h : Keeps a s) : OKeeps a (execConfigLink p s) := by
  unfold execConfigLink
  with_reducible repeat' first
    | assumption | intro _ _ _ | intro _ _ | intro _ | apply next_keeps | apply runCommand_keeps | apply configLink_keeps
    | (extract_lets +onlyGivenNames x; first | refine cut2 (p := Keeps _ x) ?_ (fun _ => ?_) | clear x | skip)
    | split | refine keeps_mk ?_ rfl rfl rfl

theorem withPort_keeps {a : State} (p : Packet) (h0 : Port → Verdict) (hk : ∀ y0, VKeeps a (h0 y0)) : VKeeps a (withPort p h0) := by
  unfold withPort
  with_reducible repeat' first
    | assumption | intro _ _ _ | intro _ _ | intro _ | apply hk | apply refuse_keeps | apply badParam_keeps
    | (extract_lets +onlyGivenNames x; first | refine cut2 (p := Keeps _ x) ?_ (fun _ => ?_) | clear x | skip)
    | split | refine keeps_mk ?_ rfl rfl rfl

theorem enableLink_keeps {a : State} (p : Packet) {s : State} (h : Keeps a s) : VKeeps a (enableLink p s) := by
  unfold enableLink
  with_reducible repeat' first
    | assumption | intro _ _ _ | intro _ _ | intro _ | apply withPort_keeps | apply State_modLink_keeps | apply okDone_keeps | apply
      setLink_keeps | apply reply_keeps | apply refuseIf_keeps
    | (extract_lets +onlyGivenNames x; first | refine cut2 (p := Keeps _ x) ?_ (fun _ => ?_) | clear x | skip)
    | split | refine keeps_mk ?_ rfl rfl rfl

theorem execEnableLink_keeps {a : State} (p : Packet) {s : State} (h : Keeps a s) : OKeeps a (execEnableLink p s) := by
  unfold execEnableLink
  with_reducible repeat' first
    | assumption | intro _ _ _ | intro _ _ | intro _ | apply next_keeps | apply runCommand_keeps | apply enableLink_keeps
    | (extract_lets +onlyGivenNames x; first | refine cut2 (p := Keeps _ x) ?_ (fun _ => ?_) | clear x | skip)
    | split | refine keeps_mk ?_ rfl rfl rfl

theorem startLinkBath_keeps {a : State} (q : Port) (by_ : Source) {s : State} (h : Keeps a s) : Keeps a (startLinkBath q by_ s) := by
  unfold startLinkBath
  with_reducible repeat' first
    | assumption | intro _ _ _ | intro _ _ | intro _ | apply setLink_keeps | apply State_modLink_keeps | apply leaveUp_keeps | apply
      ite_keeps
    | (extract_lets +onlyGivenNames x; first | refine cut2 (p := Keeps _ x) ?_ (fun _ => ?_) | clear x | skip)
    | split | refine keeps_mk ?_ rfl rfl rfl

theorem disableLink_keeps {a : State} (p : Packet) {s : State} (h : Keeps a s) : VKeeps a (disableLink p s) := by
  unfold disableLink
  with_reducible repeat' first
    | assumption | intro _ _ _ | intro _ _ | intro _ | apply withPort_keeps | apply okDone_keeps | apply linkBathEvent_keeps | apply
      State_modLink_keeps | apply startLinkBath_keeps | apply drawn_keeps | apply refuseIf_keeps | apply ite_vkeeps | apply ite_keeps
    | (extract_lets +onlyGivenNames x; first | refine cut2 (p := Keeps _ x) ?_ (fun _ => ?_) | clear x | skip)
    | split | refine keeps_mk ?_ rfl rfl rfl

theorem execDisableLink_keeps {a : State} (p : Packet) {s : State} (h : Keeps a s) : OKeeps a (execDisableLink p s) := by
  unfold execDisableLink
  with_reducible repeat' first
    | assumption | intro _ _ _ | intro _ _ | intro _ | apply next_keeps | apply runCommand_keeps | apply disableLink_keeps
    | (extract_lets +onlyGivenNames x; first | refine cut2 (p := Keeps _ x) ?_ (fun _ => ?_) | clear x | skip)
    | split | refine keeps_mk ?_ rfl rfl rfl

/-! ### UpdateOps -/

theorem modMram_keeps {a : State} (f : Mram → Mram) {s : State} (h : Keeps a s) : Keeps a (modMram f s) := by
  unfold modMram
  with_reducible repeat' first
    | assumption | intro _ _ _ | intro _ _ | intro _
    | (extract_lets +onlyGivenNames x; first | refine cut2 (p := Keeps _ x) ?_ (fun _ => ?_) | clear x | skip)
    | split | refine keeps_mk ?_ rfl rfl rfl

theorem modSec_keeps {a : State} (f : Security → Security) {s : State} (h : Keeps a s) : Keeps a (modSec f s) := by
  unfold modSec
  with_reducible repeat' first
    | assumption | intro _ _ _ | intro _ _ | intro _ | apply modMram_keeps
    | (extract_lets +onlyGivenNames x; first | refine cut2 (p := Keeps _ x) ?_ (fun _ => ?_) | clear x | skip)
    | split | refine keeps_mk ?_ rfl rfl rfl

theorem recordRejected_keeps {a : State} (ver : Nat) (reason : Nat) {s : State} (h : Keeps a s) : Keeps a (recordRejected ver reason s) := by
  unfold recordRejected
  with_reducible repeat' first
    | assumption | intro _ _ _ | intro _ _ | intro _ | apply modSec_keeps
    | (extract_lets +onlyGivenNames x; first | refine cut2 (p := Keeps _ x) ?_ (fun _ => ?_) | clear x | skip)
    | split | refine keeps_mk ?_ rfl rfl rfl

theorem runMode_keeps {a : State} (ch : Nat) (m : Nat) {s : State} (h : Keeps a s) : Keeps a (runMode ch m s) := by
  unfold runMode
  with_reducible repeat' first
    | assumption | intro _ _ _ | intro _ _ | intro _ | apply judgeMode_keeps | apply State_modChan_keeps
    | (extract_lets +onlyGivenNames x; first | refine cut2 (p := Keeps _ x) ?_ (fun _ => ?_) | clear x | skip)
    | split | refine keeps_mk ?_ rfl rfl rfl

theorem enterSafelight_keeps {a : State} {s : State} (h : Keeps a s) : Keeps a (enterSafelight s) := by
  unfold enterSafelight
  with_reducible repeat' first
    | assumption | intro _ _ _ | intro _ _ | intro _ | apply runMode_keeps | apply forRange_keeps | apply ite_keeps
    | (extract_lets +onlyGivenNames x; first | refine cut2 (p := Keeps _ x) ?_ (fun _ => ?_) | clear x | skip)
    | split | refine keeps_mk ?_ rfl rfl rfl | refine keeps_tab ?_ rfl rfl rfl ?_ ?_ ?_ ?_ ?_ ?_ | apply rising_mset | apply rising_mdel | apply rising_mmod | refine rising_map (fun _ => ?_) ?_ | rfl

theorem endRecovery_keeps {a : State} {s : State} (h : Keeps a s) : Keeps a (endRecovery s) := by
  unfold endRecovery
  with_reducible repeat' first
    | assumption | intro _ _ _ | intro _ _ | intro _ | apply readyOn_keeps | apply ite_keeps
    | (extract_lets +onlyGivenNames x; first | refine cut2 (p := Keeps _ x) ?_ (fun _ => ?_) | clear x | skip)
    | split | refine keeps_mk ?_ rfl rfl rfl

theorem startProof_keeps {a : State} {s : State} (h : Keeps a s) : Keeps a (startProof s) := by
  unfold startProof
  with_reducible repeat' first
    | assumption | intro _ _ _ | intro _ _ | intro _ | apply drawn_keeps | apply modMram_keeps | apply enterSafelight_keeps | apply
      endRecovery_keeps | apply raiseEvent_keeps | apply ite_keeps
    | (extract_lets +onlyGivenNames x; first | refine cut2 (p := Keeps _ x) ?_ (fun _ => ?_) | clear x | skip)
    | split | refine keeps_mk ?_ rfl rfl rfl

theorem fallbackEvent_keeps {a : State} {s : State} (h : Keeps a s) : Keeps a (fallbackEvent s) := by
  unfold fallbackEvent
  with_reducible repeat' first
    | assumption | intro _ _ _ | intro _ _ | intro _ | apply raiseEvent_keeps
    | (extract_lets +onlyGivenNames x; first | refine cut2 (p := Keeps _ x) ?_ (fun _ => ?_) | clear x | skip)
    | split | refine keeps_mk ?_ rfl rfl rfl

theorem leaveSafelight_keeps {a : State} {s : State} (h : Keeps a s) : Keeps a (leaveSafelight s) := by
  unfold leaveSafelight
  with_reducible repeat' first
    | assumption | intro _ _ _ | intro _ _ | intro _ | apply runMode_keeps | apply forRange_keeps | apply ite_keeps
    | (extract_lets +onlyGivenNames x; first | refine cut2 (p := Keeps _ x) ?_ (fun _ => ?_) | clear x | skip)
    | split | refine keeps_mk ?_ rfl rfl rfl

theorem enterRecovery_keeps {a : State} {s : State} (h : Keeps a s) : Keeps a (enterRecovery s) := by
  unfold enterRecovery
  with_reducible repeat' first
    | assumption | intro _ _ _ | intro _ _ | intro _ | apply leaveSafelight_keeps | apply readyOff_keeps
    | (extract_lets +onlyGivenNames x; first | refine cut2 (p := Keeps _ x) ?_ (fun _ => ?_) | clear x | skip)
    | split | refine keeps_mk ?_ rfl rfl rfl

theorem startFixed_keeps {a : State} {s : State} (h : Keeps a s) : Keeps a (startFixed s) := by
  unfold startFixed
  with_reducible repeat' first
    | assumption | intro _ _ _ | intro _ _ | intro _ | apply enterRecovery_keeps | apply leaveSafelight_keeps | apply ite_keeps
    | (extract_lets +onlyGivenNames x; first | refine cut2 (p := Keeps _ x) ?_ (fun _ => ?_) | clear x | skip)
    | split | refine keeps_mk ?_ rfl rfl rfl

theorem refuseStaged_keeps {a : State} {s : State} (h : Keeps a s) : Keeps a (refuseStaged s) := by
  unfold refuseStaged
  with_reducible repeat' first
    | assumption | intro _ _ _ | intro _ _ | intro _ | apply recordRejected_keeps | apply modSec_keeps | apply fallbackEvent_keeps |
      apply startFixed_keeps
    | (extract_lets +onlyGivenNames x; first | refine cut2 (p := Keeps _ x) ?_ (fun _ => ?_) | clear x | skip)
    | split | refine keeps_mk ?_ rfl rfl rfl

theorem deliverLate_keeps {a : State} {s : State} (h : Keeps a s) : Keeps a (deliverLate s) := by
  unfold deliverLate
  with_reducible repeat' first
    | assumption | intro _ _ _ | intro _ _ | intro _ | apply deliverReply_keeps | apply forEach_keeps
    | (extract_lets +onlyGivenNames x; first | refine cut2 (p := Keeps _ x) ?_ (fun _ => ?_) | clear x | skip)
    | split | refine keeps_mk ?_ rfl rfl rfl

theorem startTimer_keeps {a : State} {s : State} (h : Keeps a s) : Keeps a (startTimer s) := by
  unfold startTimer
  with_reducible repeat' first
    | assumption | intro _ _ _ | intro _ _ | intro _
    | (extract_lets +onlyGivenNames x; first | refine cut2 (p := Keeps _ x) ?_ (fun _ => ?_) | clear x | skip)
    | split | refine keeps_mk ?_ rfl rfl rfl

theorem execCommandPauseEnd_keeps {a : State} (slotGood : Bool) {s : State} (h : Keeps a s) : OKeeps a (execCommandPauseEnd slotGood s) := by
  unfold execCommandPauseEnd
  with_reducible repeat' first
    | assumption | intro _ _ _ | intro _ _ | intro _ | apply next_keeps | apply startProof_keeps | apply refuseStaged_keeps | apply
      deliverLate_keeps | apply startTimer_keeps | apply fallbackEvent_keeps | apply startFixed_keeps | apply ite_okeeps | apply
      ite_keeps
    | (extract_lets +onlyGivenNames x; first | refine cut2 (p := Keeps _ x) ?_ (fun _ => ?_) | clear x | skip)
    | split | refine keeps_mk ?_ rfl rfl rfl

theorem execProofModeStart_keeps {a : State} {s : State} (h : Keeps a s) : OKeeps a (execProofModeStart s) := by
  unfold execProofModeStart
  with_reducible repeat' first
    | assumption | intro _ _ _ | intro _ _ | intro _ | apply next_keeps | apply startProof_keeps | apply ite_okeeps | apply ite_keeps
    | (extract_lets +onlyGivenNames x; first | refine cut2 (p := Keeps _ x) ?_ (fun _ => ?_) | clear x | skip)
    | split | refine keeps_mk ?_ rfl rfl rfl

theorem fixImage_keeps {a : State} {s : State} (h : Keeps a s) : Keeps a (fixImage s) := by
  unfold fixImage
  with_reducible repeat' first
    | assumption | intro _ _ _ | intro _ _ | intro _ | apply modMram_keeps | apply modSec_keeps | apply raiseEvent_keeps
    | (extract_lets +onlyGivenNames x; first | refine cut2 (p := Keeps _ x) ?_ (fun _ => ?_) | clear x | skip)
    | split | refine keeps_mk ?_ rfl rfl rfl

theorem execFix_keeps {a : State} (selfTests : Bool) {s : State} (h : Keeps a s) : OKeeps a (execFix selfTests s) := by
  unfold execFix
  with_reducible repeat' first
    | assumption | intro _ _ _ | intro _ _ | intro _ | apply next_keeps | apply reachClk_keeps | apply fixImage_keeps | apply
      ite_okeeps | apply ite_keeps
    | (extract_lets +onlyGivenNames x; first | refine cut2 (p := Keeps _ x) ?_ (fun _ => ?_) | clear x | skip)
    | split | refine keeps_mk ?_ rfl rfl rfl

theorem startFallback_keeps {a : State} (reason : Nat) {s : State} (h : Keeps a s) : Keeps a (startFallback reason s) := by
  unfold startFallback
  with_reducible repeat' first
    | assumption | intro _ _ _ | intro _ _ | intro _ | apply modMram_keeps | apply recordRejected_keeps | apply modSec_keeps
    | (extract_lets +onlyGivenNames x; first | refine cut2 (p := Keeps _ x) ?_ (fun _ => ?_) | clear x | skip)
    | split | refine keeps_mk ?_ rfl rfl rfl

theorem execConfirmTimerExpiry_keeps {a : State} {s : State} (h : Keeps a s) : OKeeps a (execConfirmTimerExpiry s) := by
  unfold execConfirmTimerExpiry
  with_reducible repeat' first
    | assumption | intro _ _ _ | intro _ _ | intro _ | apply next_keeps | apply startFallback_keeps | apply reachClk_keeps | apply
      ite_okeeps | apply ite_keeps
    | (extract_lets +onlyGivenNames x; first | refine cut2 (p := Keeps _ x) ?_ (fun _ => ?_) | clear x | skip)
    | split | refine keeps_mk ?_ rfl rfl rfl

/-! ### UpdateCmds -/

theorem execSessionIdleTimeout_keeps {a : State} {s : State} (h : Keeps a s) : OKeeps a (execSessionIdleTimeout s) := by
  unfold execSessionIdleTimeout
  with_reducible repeat' first
    | assumption | intro _ _ _ | intro _ _ | intro _ | apply next_keeps | apply endSession_keeps | apply reachClk_keeps
    | (extract_lets +onlyGivenNames x; first | refine cut2 (p := Keeps _ x) ?_ (fun _ => ?_) | clear x | skip)
    | split | refine keeps_mk ?_ rfl rfl rfl

theorem setHalf_keeps {a : State} (src : Source) (h0 : Option (List Byte)) {s : State} (h : Keeps a s) : Keeps a (setHalf src h0 s) := by
  unfold setHalf
  with_reducible repeat' first
    | assumption | intro _ _ _ | intro _ _ | intro _
    | (extract_lets +onlyGivenNames x; first | refine cut2 (p := Keeps _ x) ?_ (fun _ => ?_) | clear x | skip)
    | split | refine keeps_mk ?_ rfl rfl rfl

theorem refuseWith_keeps {a : State} (p : Packet) {s : State} (status : Nat) (detail : Nat) (h : Keeps a s) : VKeeps a (refuseWith p s status detail) := by
  unfold refuseWith
  with_reducible repeat' first
    | assumption | intro _ _ _ | intro _ _ | intro _ | apply noteRefusal_keeps | apply reply_keeps
    | (extract_lets +onlyGivenNames x; first | refine cut2 (p := Keeps _ x) ?_ (fun _ => ?_) | clear x | skip)
    | split | refine keeps_mk ?_ rfl rfl rfl

theorem openNow_keeps {a : State} (src : Source) (h0 : List Byte) {s : State} (h : Keeps a s) : Keeps a (openNow src h0 s) := by
  unfold openNow
  with_reducible repeat' first
    | assumption | intro _ _ _ | intro _ _ | intro _ | apply modSec_keeps | apply modMram_keeps
    | (extract_lets +onlyGivenNames x; first | refine cut2 (p := Keeps _ x) ?_ (fun _ => ?_) | clear x | skip)
    | split | refine keeps_mk ?_ rfl rfl rfl

theorem openPart1_keeps {a : State} (p : Packet) {s : State} (h : Keeps a s) : VKeeps a (openPart1 p s) := by
  unfold openPart1
  with_reducible repeat' first
    | assumption | intro _ _ _ | intro _ _ | intro _ | apply setHalf_keeps | apply refuseWith_keeps | apply openNow_keeps | apply
      okBody_keeps | apply ite_vkeeps | apply ite_keeps
    | (extract_lets +onlyGivenNames x; first | refine cut2 (p := Keeps _ x) ?_ (fun _ => ?_) | clear x | skip)
    | split | refine keeps_mk ?_ rfl rfl rfl

theorem openSession_keeps {a : State} (p : Packet) {s : State} (h : Keeps a s) : VKeeps a (openSession p s) := by
  unfold openSession
  with_reducible repeat' first
    | assumption | intro _ _ _ | intro _ _ | intro _ | apply okDone_keeps | apply setHalf_keeps | apply openPart1_keeps | apply
      badParam_keeps | apply ite_vkeeps | apply ite_keeps
    | (extract_lets +onlyGivenNames x; first | refine cut2 (p := Keeps _ x) ?_ (fun _ => ?_) | clear x | skip)
    | split | refine keeps_mk ?_ rfl rfl rfl

theorem execOpenSession_keeps {a : State} (p : Packet) {s : State} (h : Keeps a s) : OKeeps a (execOpenSession p s) := by
  unfold execOpenSession
  with_reducible repeat' first
    | assumption | intro _ _ _ | intro _ _ | intro _ | apply next_keeps | apply runCommand_keeps | apply openSession_keeps
    | (extract_lets +onlyGivenNames x; first | refine cut2 (p := Keeps _ x) ?_ (fun _ => ?_) | clear x | skip)
    | split | refine keeps_mk ?_ rfl rfl rfl

theorem withSession_keeps {a : State} (p : Packet) {s : State} (h0 : Session → Verdict) (hk : ∀ y0, VKeeps a (h0 y0)) (h : Keeps a s) : VKeeps a (withSession p s h0) := by
  unfold withSession
  with_reducible repeat' first
    | assumption | intro _ _ _ | intro _ _ | intro _ | apply hk | apply refuse_keeps | apply ite_vkeeps | apply ite_keeps
    | (extract_lets +onlyGivenNames x; first | refine cut2 (p := Keeps _ x) ?_ (fun _ => ?_) | clear x | skip)
    | split | refine keeps_mk ?_ rfl rfl rfl

theorem modSession_keeps {a : State} (f : Session → Session) {s : State} (h : Keeps a s) : Keeps a (modSession f s) := by
  unfold modSession
  with_reducible repeat' first
    | assumption | intro _ _ _ | intro _ _ | intro _
    | (extract_lets +onlyGivenNames x; first | refine cut2 (p := Keeps _ x) ?_ (fun _ => ?_) | clear x | skip)
    | split | refine keeps_mk ?_ rfl rfl rfl

theorem completeBody_keeps {a : State} (x0 : Session) {s : State} (h : Keeps a s) : VKeeps a (completeBody x0 s) := by
  unfold completeBody
  with_reducible repeat' first
    | assumption | intro _ _ _ | intro _ _ | intro _ | apply endSession_keeps | apply modMram_keeps | apply modSession_keeps | apply
      raiseEvent_keeps | apply okBody_keeps | apply reply_keeps | apply ite_vkeeps | apply ite_keeps
    | (extract_lets +onlyGivenNames x; first | refine cut2 (p := Keeps _ x) ?_ (fun _ => ?_) | clear x | skip)
    | split | refine keeps_mk ?_ rfl rfl rfl

theorem writeImageBlock_keeps {a : State} (p : Packet) {s : State} (h : Keeps a s) : VKeeps a (writeImageBlock p s) := by
  unfold writeImageBlock
  with_reducible repeat' first
    | assumption | intro _ _ _ | intro _ _ | intro _ | apply withSession_keeps | apply modSession_keeps | apply completeBody_keeps |
      apply okBody_keeps | apply refuseIf_keeps | apply badParam_keeps | apply ite_vkeeps | apply ite_keeps
    | (extract_lets +onlyGivenNames x; first | refine cut2 (p := Keeps _ x) ?_ (fun _ => ?_) | clear x | skip)
    | split | refine keeps_mk ?_ rfl rfl rfl

theorem execWriteImageBlock_keeps {a : State} (p : Packet) {s : State} (h : Keeps a s) : OKeeps a (execWriteImageBlock p s) := by
  unfold execWriteImageBlock
  with_reducible repeat' first
    | assumption | intro _ _ _ | intro _ _ | intro _ | apply next_keeps | apply runCommand_keeps | apply writeImageBlock_keeps
    | (extract_lets +onlyGivenNames x; first | refine cut2 (p := Keeps _ x) ?_ (fun _ => ?_) | clear x | skip)
    | split | refine keeps_mk ?_ rfl rfl rfl

theorem closeSession_keeps {a : State} (p : Packet) {s : State} (h : Keeps a s) : VKeeps a (closeSession p s) := by
  unfold closeSession
  with_reducible repeat' first
    | assumption | intro _ _ _ | intro _ _ | intro _ | apply withSession_keeps | apply okDone_keeps | apply endSession_keeps
    | (extract_lets +onlyGivenNames x; first | refine cut2 (p := Keeps _ x) ?_ (fun _ => ?_) | clear x | skip)
    | split | refine keeps_mk ?_ rfl rfl rfl

theorem execCloseSession_keeps {a : State} (p : Packet) {s : State} (h : Keeps a s) : OKeeps a (execCloseSession p s) := by
  unfold execCloseSession
  with_reducible repeat' first
    | assumption | intro _ _ _ | intro _ _ | intro _ | apply next_keeps | apply runCommand_keeps | apply closeSession_keeps
    | (extract_lets +onlyGivenNames x; first | refine cut2 (p := Keeps _ x) ?_ (fun _ => ?_) | clear x | skip)
    | split | refine keeps_mk ?_ rfl rfl rfl

theorem activateNow_keeps {a : State} (p : Packet) (confirm : Nat) (minProof : Nat) {s : State} (h : Keeps a s) : Keeps a (activateNow p confirm minProof s) := by
  unfold activateNow
  with_reducible repeat' first
    | assumption | intro _ _ _ | intro _ _ | intro _ | apply modSec_keeps | apply endSession_keeps
    | (extract_lets +onlyGivenNames x; first | refine cut2 (p := Keeps _ x) ?_ (fun _ => ?_) | clear x | skip)
    | split | refine keeps_mk ?_ rfl rfl rfl

theorem activate_keeps {a : State} (p : Packet) {s : State} (h : Keeps a s) : VKeeps a (activate p s) := by
  unfold activate
  with_reducible repeat' first
    | assumption | intro _ _ _ | intro _ _ | intro _ | apply activateNow_keeps | apply refuse_keeps | apply wait_keeps | apply
      refuseIf_keeps | apply badParam_keeps | apply ite_vkeeps | apply ite_keeps
    | (extract_lets +onlyGivenNames x; first | refine cut2 (p := Keeps _ x) ?_ (fun _ => ?_) | clear x | skip)
    | split | refine keeps_mk ?_ rfl rfl rfl

theorem execActivate_keeps {a : State} (p : Packet) {s : State} (h : Keeps a s) : OKeeps a (execActivate p s) := by
  unfold execActivate
  with_reducible repeat' first
    | assumption | intro _ _ _ | intro _ _ | intro _ | apply next_keeps | apply runCommand_keeps | apply activate_keeps
    | (extract_lets +onlyGivenNames x; first | refine cut2 (p := Keeps _ x) ?_ (fun _ => ?_) | clear x | skip)
    | split | refine keeps_mk ?_ rfl rfl rfl

theorem approve_keeps {a : State} (p : Packet) {s : State} (h : Keeps a s) : VKeeps a (approve p s) := by
  unfold approve
  with_reducible repeat' first
    | assumption | intro _ _ _ | intro _ _ | intro _ | apply okDone_keeps | apply modSession_keeps | apply refuse_keeps | apply
      refuseIf_keeps
    | (extract_lets +onlyGivenNames x; first | refine cut2 (p := Keeps _ x) ?_ (fun _ => ?_) | clear x | skip)
    | split | refine keeps_mk ?_ rfl rfl rfl

theorem execApprove_keeps {a : State} (p : Packet) {s : State} (h : Keeps a s) : OKeeps a (execApprove p s) := by
  unfold execApprove
  with_reducible repeat' first
    | assumption | intro _ _ _ | intro _ _ | intro _ | apply next_keeps | apply runCommand_keeps | apply approve_keeps
    | (extract_lets +onlyGivenNames x; first | refine cut2 (p := Keeps _ x) ?_ (fun _ => ?_) | clear x | skip)
    | split | refine keeps_mk ?_ rfl rfl rfl

theorem veto_keeps {a : State} (p : Packet) {s : State} (h : Keeps a s) : VKeeps a (veto p s) := by
  unfold veto
  with_reducible repeat' first
    | assumption | intro _ _ _ | intro _ _ | intro _ | apply startFallback_keeps | apply deliverReply_keeps | apply withSession_keeps
      | apply okDone_keeps | apply endSession_keeps | apply done_keeps | apply refuseIf_keeps | apply ite_vkeeps | apply ite_keeps
    | (extract_lets +onlyGivenNames x; first | refine cut2 (p := Keeps _ x) ?_ (fun _ => ?_) | clear x | skip)
    | split | refine keeps_mk ?_ rfl rfl rfl

theorem execVeto_keeps {a : State} (p : Packet) {s : State} (h : Keeps a s) : OKeeps a (execVeto p s) := by
  unfold execVeto
  with_reducible repeat' first
    | assumption | intro _ _ _ | intro _ _ | intro _ | apply next_keeps | apply runCommand_keeps | apply veto_keeps
    | (extract_lets +onlyGivenNames x; first | refine cut2 (p := Keeps _ x) ?_ (fun _ => ?_) | clear x | skip)
    | split | refine keeps_mk ?_ rfl rfl rfl

theorem rejectImage_keeps {a : State} (p : Packet) {s : State} (h : Keeps a s) : VKeeps a (rejectImage p s) := by
  unfold rejectImage
  with_reducible repeat' first
    | assumption | intro _ _ _ | intro _ _ | intro _ | apply startFallback_keeps | apply deliverReply_keeps | apply refuse_keeps |
      apply reply_keeps | apply done_keeps | apply ite_vkeeps | apply ite_keeps
    | (extract_lets +onlyGivenNames x; first | refine cut2 (p := Keeps _ x) ?_ (fun _ => ?_) | clear x | skip)
    | split | refine keeps_mk ?_ rfl rfl rfl

theorem execRejectImage_keeps {a : State} (p : Packet) {s : State} (h : Keeps a s) : OKeeps a (execRejectImage p s) := by
  unfold execRejectImage
  with_reducible repeat' first
    | assumption | intro _ _ _ | intro _ _ | intro _ | apply next_keeps | apply runCommand_keeps | apply rejectImage_keeps
    | (extract_lets +onlyGivenNames x; first | refine cut2 (p := Keeps _ x) ?_ (fun _ => ?_) | clear x | skip)
    | split | refine keeps_mk ?_ rfl rfl rfl

theorem execGetUpdateStatus_keeps {a : State} (p : Packet) {s : State} (h : Keeps a s) : OKeeps a (execGetUpdateStatus p s) := by
  unfold execGetUpdateStatus
  with_reducible repeat' first
    | assumption | intro _ _ _ | intro _ _ | intro _ | apply next_keeps | apply runCommand_keeps | apply okBody_keeps
    | (extract_lets +onlyGivenNames x; first | refine cut2 (p := Keeps _ x) ?_ (fun _ => ?_) | clear x | skip)
    | split | refine keeps_mk ?_ rfl rfl rfl

theorem guardReply_keeps {a : State} {s : State} (h : Keeps a s) : VKeeps a (guardReply s) := by
  unfold guardReply
  with_reducible repeat' first
    | assumption | intro _ _ _ | intro _ _ | intro _ | apply okBody_keeps
    | (extract_lets +onlyGivenNames x; first | refine cut2 (p := Keeps _ x) ?_ (fun _ => ?_) | clear x | skip)
    | split | refine keeps_mk ?_ rfl rfl rfl

theorem setOwnerLock_keeps {a : State} (p : Packet) {s : State} (h : Keeps a s) : VKeeps a (setOwnerLock p s) := by
  unfold setOwnerLock
  with_reducible repeat' first
    | assumption | intro _ _ _ | intro _ _ | intro _ | apply guardReply_keeps | apply modSec_keeps | apply refuseIf_keeps | apply
      badParam_keeps | apply ite_vkeeps | apply ite_keeps
    | (extract_lets +onlyGivenNames x; first | refine cut2 (p := Keeps _ x) ?_ (fun _ => ?_) | clear x | skip)
    | split | refine keeps_mk ?_ rfl rfl rfl

theorem execSetOwnerLock_keeps {a : State} (p : Packet) {s : State} (h : Keeps a s) : OKeeps a (execSetOwnerLock p s) := by
  unfold execSetOwnerLock
  with_reducible repeat' first
    | assumption | intro _ _ _ | intro _ _ | intro _ | apply next_keeps | apply runCommand_keeps | apply setOwnerLock_keeps
    | (extract_lets +onlyGivenNames x; first | refine cut2 (p := Keeps _ x) ?_ (fun _ => ?_) | clear x | skip)
    | split | refine keeps_mk ?_ rfl rfl rfl

theorem clearOwnerLock_keeps {a : State} (p : Packet) {s : State} (h : Keeps a s) : VKeeps a (clearOwnerLock p s) := by
  unfold clearOwnerLock
  with_reducible repeat' first
    | assumption | intro _ _ _ | intro _ _ | intro _ | apply guardReply_keeps | apply modSec_keeps | apply badParam_keeps
    | (extract_lets +onlyGivenNames x; first | refine cut2 (p := Keeps _ x) ?_ (fun _ => ?_) | clear x | skip)
    | split | refine keeps_mk ?_ rfl rfl rfl

theorem execClearOwnerLock_keeps {a : State} (p : Packet) {s : State} (h : Keeps a s) : OKeeps a (execClearOwnerLock p s) := by
  unfold execClearOwnerLock
  with_reducible repeat' first
    | assumption | intro _ _ _ | intro _ _ | intro _ | apply next_keeps | apply runCommand_keeps | apply clearOwnerLock_keeps
    | (extract_lets +onlyGivenNames x; first | refine cut2 (p := Keeps _ x) ?_ (fun _ => ?_) | clear x | skip)
    | split | refine keeps_mk ?_ rfl rfl rfl

theorem getSecurity_keeps {a : State} (x0 : Packet) {s : State} (h : Keeps a s) : VKeeps a (getSecurity x0 s) := by
  unfold getSecurity
  with_reducible repeat' first
    | assumption | intro _ _ _ | intro _ _ | intro _ | apply okBody_keeps
    | (extract_lets +onlyGivenNames x; first | refine cut2 (p := Keeps _ x) ?_ (fun _ => ?_) | clear x | skip)
    | split | refine keeps_mk ?_ rfl rfl rfl

theorem execGetSecurity_keeps {a : State} (p : Packet) {s : State} (h : Keeps a s) : OKeeps a (execGetSecurity p s) := by
  unfold execGetSecurity
  with_reducible repeat' first
    | assumption | intro _ _ _ | intro _ _ | intro _ | apply next_keeps | apply runCommand_keeps | apply getSecurity_keeps
    | (extract_lets +onlyGivenNames x; first | refine cut2 (p := Keeps _ x) ?_ (fun _ => ?_) | clear x | skip)
    | split | refine keeps_mk ?_ rfl rfl rfl

/-! ### ContactSheet -/

theorem acknowledge_keeps {a : State} (ack : Nat) {s : State} (h : Keeps a s) : Keeps a (acknowledge ack s) := by
  unfold acknowledge
  extract_lets newest covered l
  exact ite_keeps h (h.mapLog (fun e => if covered e then { e with acked := true } else e) (fun e => by split <;> rfl))

theorem readFaultLog_keeps {a : State} (p : Packet) {s : State} (h : Keeps a s) : VKeeps a (readFaultLog p s) := by
  unfold readFaultLog
  with_reducible repeat' first
    | assumption | intro _ _ _ | intro _ _ | intro _ | apply okBody_keeps
    | (extract_lets +onlyGivenNames x; first | refine cut2 (p := Keeps _ x) ?_ (fun _ => ?_) | clear x | skip)
    | split | refine keeps_mk ?_ rfl rfl rfl

theorem execReadFaultLog_keeps {a : State} (p : Packet) {s : State} (h : Keeps a s) : OKeeps a (execReadFaultLog p s) := by
  unfold execReadFaultLog
  with_reducible repeat' first
    | assumption | intro _ _ _ | intro _ _ | intro _ | apply next_keeps | apply runCommand_keeps | apply readFaultLog_keeps
    | (extract_lets +onlyGivenNames x; first | refine cut2 (p := Keeps _ x) ?_ (fun _ => ?_) | clear x | skip)
    | split | refine keeps_mk ?_ rfl rfl rfl

theorem captureSheet_keeps {a : State} (n : Nat) (src : Source) {s : State} (h : Keeps a s) : Keeps a (captureSheet n src s) := by
  unfold captureSheet
  with_reducible repeat' first
    | assumption | intro _ _ _ | intro _ _ | intro _ | apply State_modBank_keeps | apply drawn_keeps
    | (extract_lets +onlyGivenNames x; first | refine cut2 (p := Keeps _ x) ?_ (fun _ => ?_) | clear x | skip)
    | split | refine keeps_mk ?_ rfl rfl rfl

theorem takeContactSheet_take_keeps {a : State} (p : Packet) {s : State} (n : Nat) (instant : Nat) (h : Keeps a s) : VKeeps a (takeContactSheet.take p s n instant) := by
  unfold takeContactSheet.take
  with_reducible repeat' first
    | assumption | intro _ _ _ | intro _ _ | intro _ | apply acknowledge_keeps | apply State_modBank_keeps | apply captureSheet_keeps
      | apply okBody_keeps | apply wait_keeps | apply ite_vkeeps | apply ite_keeps
    | (extract_lets +onlyGivenNames x; first | refine cut2 (p := Keeps _ x) ?_ (fun _ => ?_) | clear x | skip)
    | split | refine keeps_mk ?_ rfl rfl rfl

theorem takeContactSheet_keeps {a : State} (p : Packet) {s : State} (h : Keeps a s) : VKeeps a (takeContactSheet p s) := by
  unfold takeContactSheet
  with_reducible repeat' first
    | assumption | intro _ _ _ | intro _ _ | intro _ | apply takeContactSheet_take_keeps | apply refuseIf_keeps | apply badParam_keeps
    | (extract_lets +onlyGivenNames x; first | refine cut2 (p := Keeps _ x) ?_ (fun _ => ?_) | clear x | skip)
    | split | refine keeps_mk ?_ rfl rfl rfl

theorem execTakeContactSheet_keeps {a : State} (p : Packet) {s : State} (h : Keeps a s) : OKeeps a (execTakeContactSheet p s) := by
  unfold execTakeContactSheet
  with_reducible repeat' first
    | assumption | intro _ _ _ | intro _ _ | intro _ | apply next_keeps | apply runCommand_keeps | apply takeContactSheet_keeps
    | (extract_lets +onlyGivenNames x; first | refine cut2 (p := Keeps _ x) ?_ (fun _ => ?_) | clear x | skip)
    | split | refine keeps_mk ?_ rfl rfl rfl

theorem captureArmed_keeps {a : State} (n : Nat) {s : State} (h : Keeps a s) : Keeps a (captureArmed n s) := by
  unfold captureArmed
  with_reducible repeat' first
    | assumption | intro _ _ _ | intro _ _ | intro _ | apply captureSheet_keeps | apply replyTaken_keeps
    | (extract_lets +onlyGivenNames x; first | refine cut2 (p := Keeps _ x) ?_ (fun _ => ?_) | clear x | skip)
    | split | refine keeps_mk ?_ rfl rfl rfl

theorem execContactSheetCapture_keeps {a : State} (bank : Fin 2) {s : State} (h : Keeps a s) : OKeeps a (execContactSheetCapture bank s) := by
  unfold execContactSheetCapture
  with_reducible repeat' first
    | assumption | intro _ _ _ | intro _ _ | intro _ | apply next_keeps | apply captureArmed_keeps | apply reachTime_keeps
    | (extract_lets +onlyGivenNames x; first | refine cut2 (p := Keeps _ x) ?_ (fun _ => ?_) | clear x | skip)
    | split | refine keeps_mk ?_ rfl rfl rfl

theorem captureDue_keeps {a : State} {s : State} (h : Keeps a s) : Keeps a (captureDue s) := by
  unfold captureDue
  with_reducible repeat' first
    | assumption | intro _ _ _ | intro _ _ | intro _ | apply captureArmed_keeps | apply forEach_keeps | apply ite_keeps
    | (extract_lets +onlyGivenNames x; first | refine cut2 (p := Keeps _ x) ?_ (fun _ => ?_) | clear x | skip)
    | split | refine keeps_mk ?_ rfl rfl rfl

theorem readContactSheet_keeps {a : State} (p : Packet) {s : State} (h : Keeps a s) : VKeeps a (readContactSheet p s) := by
  unfold readContactSheet
  with_reducible repeat' first
    | assumption | intro _ _ _ | intro _ _ | intro _ | apply State_modBank_keeps | apply okBody_keeps | apply refuseIf_keeps | apply
      badParam_keeps | apply ite_vkeeps | apply ite_keeps
    | (extract_lets +onlyGivenNames x; first | refine cut2 (p := Keeps _ x) ?_ (fun _ => ?_) | clear x | skip)
    | split | refine keeps_mk ?_ rfl rfl rfl

theorem execReadContactSheet_keeps {a : State} (p : Packet) {s : State} (h : Keeps a s) : OKeeps a (execReadContactSheet p s) := by
  unfold execReadContactSheet
  with_reducible repeat' first
    | assumption | intro _ _ _ | intro _ _ | intro _ | apply next_keeps | apply runCommand_keeps | apply readContactSheet_keeps
    | (extract_lets +onlyGivenNames x; first | refine cut2 (p := Keeps _ x) ?_ (fun _ => ?_) | clear x | skip)
    | split | refine keeps_mk ?_ rfl rfl rfl

theorem execSheetBankRelease_keeps {a : State} (bank : Fin 2) {s : State} (h : Keeps a s) : OKeeps a (execSheetBankRelease bank s) := by
  unfold execSheetBankRelease
  with_reducible repeat' first
    | assumption | intro _ _ _ | intro _ _ | intro _ | apply next_keeps | apply State_modBank_keeps | apply reachClk_keeps | apply
      ite_okeeps | apply ite_keeps
    | (extract_lets +onlyGivenNames x; first | refine cut2 (p := Keeps _ x) ?_ (fun _ => ?_) | clear x | skip)
    | split | refine keeps_mk ?_ rfl rfl rfl

/-! ### StepOps -/

theorem setAligned_keeps {a : State} (v : Bool) {s : State} (h : Keeps a s) : Keeps a (setAligned v s) := by
  unfold setAligned
  with_reducible repeat' first
    | assumption | intro _ _ _ | intro _ _ | intro _ | apply raiseEvent_keeps | apply ite_keeps
    | (extract_lets +onlyGivenNames x; first | refine cut2 (p := Keeps _ x) ?_ (fun _ => ?_) | clear x | skip)
    | split | refine keeps_mk ?_ rfl rfl rfl

theorem stepEvent_keeps {a : State} (reason : Nat) (before : Nat) {s : State} (h : Keeps a s) : Keeps a (stepEvent reason before s) := by
  unfold stepEvent
  with_reducible repeat' first
    | assumption | intro _ _ _ | intro _ _ | intro _ | apply raiseEvent_keeps
    | (extract_lets +onlyGivenNames x; first | refine cut2 (p := Keeps _ x) ?_ (fun _ => ?_) | clear x | skip)
    | split | refine keeps_mk ?_ rfl rfl rfl

theorem endArmed_keeps {a : State} (reason : Nat) {s : State} (h : Keeps a s) : Keeps a (endArmed reason s) := by
  unfold endArmed
  with_reducible repeat' first
    | assumption | intro _ _ _ | intro _ _ | intro _ | apply stepEvent_keeps
    | (extract_lets +onlyGivenNames x; first | refine cut2 (p := Keeps _ x) ?_ (fun _ => ?_) | clear x | skip)
    | split | refine keeps_mk ?_ rfl rfl rfl

theorem settleArmed_keeps {a : State} {s : State} (h : Keeps a s) : Keeps a (settleArmed s) := by
  unfold settleArmed
  with_reducible repeat' first
    | assumption | intro _ _ _ | intro _ _ | intro _ | apply ite_keeps
    | (extract_lets +onlyGivenNames x; first | refine cut2 (p := Keeps _ x) ?_ (fun _ => ?_) | clear x | skip)
    | split | refine keeps_mk ?_ rfl rfl rfl | refine keeps_tab ?_ rfl rfl rfl ?_ ?_ ?_ ?_ ?_ ?_ | apply rising_mset | apply rising_mdel | apply rising_mmod | refine rising_map (fun _ => ?_) ?_ | rfl

theorem serveForward_keeps {a : State} {s : State} (h : Keeps a s) : Keeps a (serveForward s) := by
  unfold serveForward
  with_reducible repeat' first
    | assumption | intro _ _ _ | intro _ _ | intro _ | apply captureDue_keeps | apply switchDue_keeps | apply stepSchedule_keeps |
      apply stepTrigger_keeps | apply servePps_keeps | apply forEach_keeps | apply forRange_keeps | apply ite_keeps
    | (extract_lets +onlyGivenNames x; first | refine cut2 (p := Keeps _ x) ?_ (fun _ => ?_) | clear x | skip)
    | split | refine keeps_mk ?_ rfl rfl rfl | refine keeps_tab ?_ rfl rfl rfl ?_ ?_ ?_ ?_ ?_ ?_ | apply rising_mset | apply rising_mdel | apply rising_mmod | refine rising_map (fun _ => ?_) ?_ | rfl

theorem stepTo_keeps {a : State} (v : Nat) (reason : Nat) {s : State} (h : Keeps a s) : Keeps a (stepTo v reason s) := by
  unfold stepTo
  with_reducible repeat' first
    | assumption | intro _ _ _ | intro _ _ | intro _ | apply settleArmed_keeps | apply serveForward_keeps | apply stepEvent_keeps |
      apply servePps_keeps | apply ite_keeps
    | (extract_lets +onlyGivenNames x; first | refine cut2 (p := Keeps _ x) ?_ (fun _ => ?_) | clear x | skip)
    | split | refine keeps_mk ?_ rfl rfl rfl

theorem masterStep_keeps {a : State} (v : Nat) (reason : Nat) {s : State} (h : Keeps a s) : Keeps a (masterStep v reason s) := by
  unfold masterStep
  with_reducible repeat' first
    | assumption | intro _ _ _ | intro _ _ | intro _ | apply stepTo_keeps | apply sendFrame_keeps
    | (extract_lets +onlyGivenNames x; first | refine cut2 (p := Keeps _ x) ?_ (fun _ => ?_) | clear x | skip)
    | split | refine keeps_mk ?_ rfl rfl rfl

theorem applyArmed_keeps {a : State} (e : Nat) (a0 : PpsStep) {s : State} (h : Keeps a s) : Keeps a (applyArmed e a0 s) := by
  unfold applyArmed
  with_reducible repeat' first
    | assumption | intro _ _ _ | intro _ _ | intro _ | apply passCycles_keeps | apply masterStep_keeps | apply endArmed_keeps | apply
      ite_keeps
    | (extract_lets +onlyGivenNames x; first | refine cut2 (p := Keeps _ x) ?_ (fun _ => ?_) | clear x | skip)
    | split | refine keeps_mk ?_ rfl rfl rfl

theorem execPpsInCapture_keeps {a : State} {s : State} (h : Keeps a s) : OKeeps a (execPpsInCapture s) := by
  unfold execPpsInCapture
  with_reducible repeat' first
    | assumption | intro _ _ _ | intro _ _ | intro _ | apply next_keeps | apply raiseEvent_keeps | apply captureEdge_keeps | apply
      endArmed_keeps | apply applyArmed_keeps | apply ite_okeeps | apply ite_keeps
    | (extract_lets +onlyGivenNames x; first | refine cut2 (p := Keeps _ x) ?_ (fun _ => ?_) | clear x | skip)
    | split | refine keeps_mk ?_ rfl rfl rfl

theorem execPpsStepLapse_keeps {a : State} {s : State} (h : Keeps a s) : OKeeps a (execPpsStepLapse s) := by
  unfold execPpsStepLapse
  with_reducible repeat' first
    | assumption | intro _ _ _ | intro _ _ | intro _ | apply next_keeps | apply endArmed_keeps | apply reachClk_keeps
    | (extract_lets +onlyGivenNames x; first | refine cut2 (p := Keeps _ x) ?_ (fun _ => ?_) | clear x | skip)
    | split | refine keeps_mk ?_ rfl rfl rfl

theorem steer_keeps {a : State} (off : Int) {s : State} (h : Keeps a s) : Keeps a (steer off s) := by
  unfold steer
  with_reducible repeat' first
    | assumption | intro _ _ _ | intro _ _ | intro _ | apply drawn_keeps | apply ite_keeps
    | (extract_lets +onlyGivenNames x; first | refine cut2 (p := Keeps _ x) ?_ (fun _ => ?_) | clear x | skip)
    | split | refine keeps_mk ?_ rfl rfl rfl

theorem judgeOffset_keeps {a : State} (off : Int) {s : State} (h : Keeps a s) : Keeps a (judgeOffset off s) := by
  unfold judgeOffset
  with_reducible repeat' first
    | assumption | intro _ _ _ | intro _ _ | intro _ | apply setAligned_keeps | apply ite_keeps
    | (extract_lets +onlyGivenNames x; first | refine cut2 (p := Keeps _ x) ?_ (fun _ => ?_) | clear x | skip)
    | split | refine keeps_mk ?_ rfl rfl rfl

theorem execTimeExchange_keeps {a : State} (t1 : Nat) (t2 : Nat) (t3 : Nat) (t4 : Nat) {s : State} (h : Keeps a s) : OKeeps a (execTimeExchange t1 t2 t3 t4 s) := by
  unfold execTimeExchange
  with_reducible repeat' first
    | assumption | intro _ _ _ | intro _ _ | intro _ | apply next_keeps | apply reachClk_keeps | apply State_modLink_keeps | apply
      stepTo_keeps | apply steer_keeps | apply judgeOffset_keeps | apply sendFrame_keeps | apply ite_okeeps | apply ite_keeps
    | (extract_lets +onlyGivenNames x; first | refine cut2 (p := Keeps _ x) ?_ (fun _ => ?_) | clear x | skip)
    | split | refine keeps_mk ?_ rfl rfl rfl

theorem execAlignmentTimeout_keeps {a : State} {s : State} (h : Keeps a s) : OKeeps a (execAlignmentTimeout s) := by
  unfold execAlignmentTimeout
  with_reducible repeat' first
    | assumption | intro _ _ _ | intro _ _ | intro _ | apply next_keeps | apply reachClk_keeps | apply setAligned_keeps | apply
      ite_okeeps | apply ite_keeps
    | (extract_lets +onlyGivenNames x; first | refine cut2 (p := Keeps _ x) ?_ (fun _ => ?_) | clear x | skip)
    | split | refine keeps_mk ?_ rfl rfl rfl

theorem noteStep_keeps {a : State} (p : Port) (f : LinkFrame) {s : State} (h : Keeps a s) : Keeps a (noteStep p f s) := by
  unfold noteStep
  with_reducible repeat' first
    | assumption | intro _ _ _ | intro _ _ | intro _
    | (extract_lets +onlyGivenNames x; first | refine cut2 (p := Keeps _ x) ?_ (fun _ => ?_) | clear x | skip)
    | split | refine keeps_mk ?_ rfl rfl rfl

theorem takeStep_keeps {a : State} (p : Port) (f : LinkFrame) {s : State} (h : Keeps a s) : Keeps a (takeStep p f s) := by
  unfold takeStep
  with_reducible repeat' first
    | assumption | intro _ _ _ | intro _ _ | intro _ | apply sendFrame_keeps | apply noteStep_keeps | apply stepTo_keeps | apply
      ite_keeps
    | (extract_lets +onlyGivenNames x; first | refine cut2 (p := Keeps _ x) ?_ (fun _ => ?_) | clear x | skip)
    | split | refine keeps_mk ?_ rfl rfl rfl

theorem execStepFrameReceived_keeps {a : State} (port : Port) (f : LinkRx) {s : State} (h : Keeps a s) : OKeeps a (execStepFrameReceived port f s) := by
  unfold execStepFrameReceived
  with_reducible repeat' first
    | assumption | intro _ _ _ | intro _ _ | intro _ | apply next_keeps | apply takeFrame_keeps | apply takeStep_keeps
    | (extract_lets +onlyGivenNames x; first | refine cut2 (p := Keeps _ x) ?_ (fun _ => ?_) | clear x | skip)
    | split | refine keeps_mk ?_ rfl rfl rfl

theorem stepTime_keeps {a : State} (p : Packet) {s : State} (h : Keeps a s) : VKeeps a (stepTime p s) := by
  unfold stepTime
  with_reducible repeat' first
    | assumption | intro _ _ _ | intro _ _ | intro _ | apply okBody_keeps | apply masterStep_keeps | apply refuseIf_keeps | apply
      badParam_keeps
    | (extract_lets +onlyGivenNames x; first | refine cut2 (p := Keeps _ x) ?_ (fun _ => ?_) | clear x | skip)
    | split | refine keeps_mk ?_ rfl rfl rfl

theorem execStepTime_keeps {a : State} (p : Packet) {s : State} (h : Keeps a s) : OKeeps a (execStepTime p s) := by
  unfold execStepTime
  with_reducible repeat' first
    | assumption | intro _ _ _ | intro _ _ | intro _ | apply next_keeps | apply runCommand_keeps | apply stepTime_keeps
    | (extract_lets +onlyGivenNames x; first | refine cut2 (p := Keeps _ x) ?_ (fun _ => ?_) | clear x | skip)
    | split | refine keeps_mk ?_ rfl rfl rfl

end Sys2Proof.Machine
end

