-- ==== Sys2Proof/Laws/KeepsSystem.lean ====
section
/-!
SUPPORT. Resets, power and the safety port: what they keep of the queue, the straps and the fault log.
-/

namespace Sys2Proof.Machine

set_option linter.all false

/-! ### Power -/

theorem startTransition_arm_keeps {a : State} {s : State} (h : Keeps a s) : Keeps a (startTransition.arm s) := by
  unfold startTransition.arm
  with_reducible repeat' first
    | assumption | intro _ _ _ | intro _ _ | intro _
    | (extract_lets +onlyGivenNames x; first | refine cut2 (p := Keeps _ x) ?_ (fun _ => ?_) | clear x | skip)
    | split | refine keeps_mk ?_ rfl rfl rfl

theorem startTransition_keeps {a : State} (w : PowerState) (command : Option Packet) {s : State} (h : Keeps a s) : Keeps a (startTransition w command s) := by
  unfold startTransition
  with_reducible repeat' first
    | assumption | intro _ _ _ | intro _ _ | intro _ | apply powerEnterChan_keeps | apply startTransition_arm_keeps | apply
      retainLoads_keeps | apply forRange_keeps
    | (extract_lets +onlyGivenNames x; first | refine cut2 (p := Keeps _ x) ?_ (fun _ => ?_) | clear x | skip)
    | split | refine keeps_mk ?_ rfl rfl rfl

theorem execResumeFromRetain_keeps {a : State} {s : State} (h : Keeps a s) : OKeeps a (execResumeFromRetain s) := by
  unfold execResumeFromRetain
  with_reducible repeat' first
    | assumption | intro _ _ _ | intro _ _ | intro _ | apply next_keeps | apply startTransition_keeps | apply ite_okeeps | apply
      ite_keeps
    | (extract_lets +onlyGivenNames x; first | refine cut2 (p := Keeps _ x) ?_ (fun _ => ?_) | clear x | skip)
    | split | refine keeps_mk ?_ rfl rfl rfl

theorem resumeBySp_keeps {a : State} (p : Packet) {s : State} (h : Keeps a s) : Keeps a (resumeBySp p s) := by
  unfold resumeBySp
  with_reducible repeat' first
    | assumption | intro _ _ _ | intro _ _ | intro _ | apply deliverReply_keeps | apply startTransition_keeps | apply ite_keeps
    | (extract_lets +onlyGivenNames x; first | refine cut2 (p := Keeps _ x) ?_ (fun _ => ?_) | clear x | skip)
    | split | refine keeps_mk ?_ rfl rfl rfl

theorem execWakeDetected_keeps {a : State} (ch : Fin 64) {s : State} (h : Keeps a s) : OKeeps a (execWakeDetected ch s) := by
  unfold execWakeDetected
  with_reducible repeat' first
    | assumption | intro _ _ _ | intro _ _ | intro _ | apply next_keeps | apply raiseSafe_keeps | apply raiseIrq_keeps | apply
      ite_okeeps | apply ite_keeps
    | (extract_lets +onlyGivenNames x; first | refine cut2 (p := Keeps _ x) ?_ (fun _ => ?_) | clear x | skip)
    | split | refine keeps_mk ?_ rfl rfl rfl

theorem resumeChan_keeps {a : State} (ch : Nat) {s : State} (h : Keeps a s) : Keeps a (resumeChan ch s) := by
  unfold resumeChan
  with_reducible repeat' first
    | assumption | intro _ _ _ | intro _ _ | intro _ | apply powerLeaveChan_keeps | apply clockReleaseChan_keeps | apply
      restartSchedules_keeps | apply ite_keeps
    | (extract_lets +onlyGivenNames x; first | refine cut2 (p := Keeps _ x) ?_ (fun _ => ?_) | clear x | skip)
    | split | refine keeps_mk ?_ rfl rfl rfl

theorem replyPower_keeps {a : State} (t : Transition) {s : State} (h : Keeps a s) : Keeps a (replyPower t s) := by
  unfold replyPower
  with_reducible repeat' first
    | assumption | intro _ _ _ | intro _ _ | intro _ | apply replyTaken_keeps
    | (extract_lets +onlyGivenNames x; first | refine cut2 (p := Keeps _ x) ?_ (fun _ => ?_) | clear x | skip)
    | split | refine keeps_mk ?_ rfl rfl rfl

theorem commitActive_keeps {a : State} (t : Transition) {s : State} (h : Keeps a s) : Keeps a (commitActive t s) := by
  unfold commitActive
  with_reducible repeat' first
    | assumption | intro _ _ _ | intro _ _ | intro _ | apply setAligned_keeps | apply resumeChan_keeps | apply readyOn_keeps | apply
      restartMean_keeps | apply pumpLink_keeps | apply replyPower_keeps | apply forEach_keeps | apply forRange_keeps | apply ite_keeps
    | (extract_lets +onlyGivenNames x; first | refine cut2 (p := Keeps _ x) ?_ (fun _ => ?_) | clear x | skip)
    | split | refine keeps_mk ?_ rfl rfl rfl

theorem enterPower_keeps {a : State} (w : PowerState) {s : State} (h : Keeps a s) : Keeps a (enterPower w s) := by
  unfold enterPower
  with_reducible repeat' first
    | assumption | intro _ _ _ | intro _ _ | intro _ | apply setReady_keeps | apply foldl_keeps
    | (extract_lets +onlyGivenNames x; first | refine cut2 (p := Keeps _ x) ?_ (fun _ => ?_) | clear x | skip)
    | split | refine keeps_mk ?_ rfl rfl rfl

theorem flushReplies_keeps {a : State} {s : State} (h : Keeps a s) : Keeps a (flushReplies s) := by
  unfold flushReplies
  with_reducible repeat' first
    | assumption | intro _ _ _ | intro _ _ | intro _ | apply putReply_keeps | apply forRange_keeps | apply ite_keeps
    | (extract_lets +onlyGivenNames x; first | refine cut2 (p := Keeps _ x) ?_ (fun _ => ?_) | clear x | skip)
    | split | refine keeps_mk ?_ rfl rfl rfl

theorem linkOff_keeps {a : State} (p : Port) {s : State} (h : Keeps a s) : Keeps a (linkOff p s) := by
  unfold linkOff
  with_reducible repeat' first
    | assumption | intro _ _ _ | intro _ _ | intro _ | apply leaveUp_keeps | apply setLink_keeps | apply State_modLink_keeps | apply
      linkBathEvent_keeps
    | (extract_lets +onlyGivenNames x; first | refine cut2 (p := Keeps _ x) ?_ (fun _ => ?_) | clear x | skip)
    | split | refine keeps_mk ?_ rfl rfl rfl

theorem parkLoad_keeps {a : State} (n : Nat) {s : State} (h : Keeps a s) : Keeps a (parkLoad n s) := by
  unfold parkLoad
  with_reducible repeat' first
    | assumption | intro _ _ _ | intro _ _ | intro _ | apply State_modLd_keeps | apply setLoad_keeps | apply ite_keeps
    | (extract_lets +onlyGivenNames x; first | refine cut2 (p := Keeps _ x) ?_ (fun _ => ?_) | clear x | skip)
    | split | refine keeps_mk ?_ rfl rfl rfl

theorem parkLoads_keeps {a : State} {s : State} (h : Keeps a s) : Keeps a (parkLoads s) := by
  unfold parkLoads
  with_reducible repeat' first
    | assumption | intro _ _ _ | intro _ _ | intro _ | apply parkLoad_keeps | apply startTransfer_keeps | apply State_modSwc_keeps |
      apply State_modLd_keeps | apply forRange_keeps
    | (extract_lets +onlyGivenNames x; first | refine cut2 (p := Keeps _ x) ?_ (fun _ => ?_) | clear x | skip)
    | split | refine keeps_mk ?_ rfl rfl rfl

theorem commitSleep_keeps {a : State} (t : Transition) {s : State} (h : Keeps a s) : Keeps a (commitSleep t s) := by
  unfold commitSleep
  with_reducible repeat' first
    | assumption | intro _ _ _ | intro _ _ | intro _ | apply flushReplies_keeps | apply replyPower_keeps | apply linkOff_keeps | apply
      parkLoads_keeps | apply fcRelease_keeps | apply enterPower_keeps | apply ite_keeps
    | (extract_lets +onlyGivenNames x; first | refine cut2 (p := Keeps _ x) ?_ (fun _ => ?_) | clear x | skip)
    | split | refine keeps_mk ?_ rfl rfl rfl

theorem execPowerTransitionComplete_keeps {a : State} {s : State} (h : Keeps a s) : OKeeps a (execPowerTransitionComplete s) := by
  unfold execPowerTransitionComplete
  with_reducible repeat' first
    | assumption | intro _ _ _ | intro _ _ | intro _ | apply next_keeps | apply commitActive_keeps | apply replyPower_keeps | apply
      enterPower_keeps | apply commitSleep_keeps | apply ite_okeeps | apply ite_keeps
    | (extract_lets +onlyGivenNames x; first | refine cut2 (p := Keeps _ x) ?_ (fun _ => ?_) | clear x | skip)
    | split | refine keeps_mk ?_ rfl rfl rfl

theorem setPowerState_keeps {a : State} (p : Packet) {s : State} (h : Keeps a s) : VKeeps a (setPowerState p s) := by
  unfold setPowerState
  with_reducible repeat' first
    | assumption | intro _ _ _ | intro _ _ | intro _ | apply okBody_keeps | apply startTransition_keeps | apply wait_keeps | apply
      refuseIf_keeps | apply badParam_keeps | apply ite_vkeeps | apply ite_keeps
    | (extract_lets +onlyGivenNames x; first | refine cut2 (p := Keeps _ x) ?_ (fun _ => ?_) | clear x | skip)
    | split | refine keeps_mk ?_ rfl rfl rfl

theorem execSetPowerState_keeps {a : State} (p : Packet) {s : State} (h : Keeps a s) : OKeeps a (execSetPowerState p s) := by
  unfold execSetPowerState
  with_reducible repeat' first
    | assumption | intro _ _ _ | intro _ _ | intro _ | apply next_keeps | apply resumeBySp_keeps | apply runCommand_keeps | apply
      setPowerState_keeps | apply ite_okeeps | apply ite_keeps
    | (extract_lets +onlyGivenNames x; first | refine cut2 (p := Keeps _ x) ?_ (fun _ => ?_) | clear x | skip)
    | split | refine keeps_mk ?_ rfl rfl rfl

theorem setWake_keeps {a : State} (p : Packet) {s : State} (h : Keeps a s) : VKeeps a (setWake p s) := by
  unfold setWake
  with_reducible repeat' first
    | assumption | intro _ _ _ | intro _ _ | intro _ | apply okDone_keeps | apply badParam_keeps | apply ite_vkeeps | apply ite_keeps
    | (extract_lets +onlyGivenNames x; first | refine cut2 (p := Keeps _ x) ?_ (fun _ => ?_) | clear x | skip)
    | split | refine keeps_mk ?_ rfl rfl rfl

theorem execSetWake_keeps {a : State} (p : Packet) {s : State} (h : Keeps a s) : OKeeps a (execSetWake p s) := by
  unfold execSetWake
  with_reducible repeat' first
    | assumption | intro _ _ _ | intro _ _ | intro _ | apply next_keeps | apply runCommand_keeps | apply setWake_keeps
    | (extract_lets +onlyGivenNames x; first | refine cut2 (p := Keeps _ x) ?_ (fun _ => ?_) | clear x | skip)
    | split | refine keeps_mk ?_ rfl rfl rfl

/-! ### Resets -/

theorem execBrownOutRestart_keeps {a : State} {s : State} (h : Keeps a s) : OKeeps a (execBrownOutRestart s) := by
  unfold execBrownOutRestart
  with_reducible repeat' first
    | assumption | intro _ _ _ | intro _ _ | intro _ | apply next_keeps | apply passCycles_keeps
    | (extract_lets +onlyGivenNames x; first | refine cut2 (p := Keeps _ x) ?_ (fun _ => ?_) | clear x | skip)
    | split | refine keeps_mk ?_ rfl rfl rfl

theorem logReset_keeps {a : State} {s : State} (h : Keeps a s) : Keeps a (logReset s) := by
  unfold logReset
  with_reducible repeat' first
    | assumption | intro _ _ _ | intro _ _ | intro _ | apply logFault_keeps
    | (extract_lets +onlyGivenNames x; first | refine cut2 (p := Keeps _ x) ?_ (fun _ => ?_) | clear x | skip)
    | split | refine keeps_mk ?_ rfl rfl rfl

theorem hostGone_keeps {a : State} {s : State} (h : Keeps a s) : Keeps a (hostGone s) := by
  unfold hostGone
  with_reducible repeat' first
    | assumption | intro _ _ _ | intro _ _ | intro _ | apply resetFn_keeps | apply setVfs_keeps | apply endSession_keeps | apply
      ite_keeps
    | (extract_lets +onlyGivenNames x; first | refine cut2 (p := Keeps _ x) ?_ (fun _ => ?_) | clear x | skip)
    | split | refine keeps_mk ?_ rfl rfl rfl

theorem execPcieFundamentalReset_keeps {a : State} {s : State} (h : Keeps a s) : OKeeps a (execPcieFundamentalReset s) := by
  unfold execPcieFundamentalReset
  with_reducible repeat' first
    | assumption | intro _ _ _ | intro _ _ | intro _ | apply next_keeps | apply hostGone_keeps | apply readyOff_keeps
    | (extract_lets +onlyGivenNames x; first | refine cut2 (p := Keeps _ x) ?_ (fun _ => ?_) | clear x | skip)
    | split | refine keeps_mk ?_ rfl rfl rfl | refine keeps_tab ?_ rfl rfl rfl ?_ ?_ ?_ ?_ ?_ ?_ | apply rising_mset | apply rising_mdel | apply rising_mmod | refine rising_map (fun _ => ?_) ?_ | rfl

theorem execAonStart_keeps {a : State} {s : State} (h : Keeps a s) : OKeeps a (execAonStart s) := by
  unfold execAonStart
  with_reducible repeat' first
    | assumption | intro _ _ _ | intro _ _ | intro _ | apply next_keeps | apply logReset_keeps | apply readyOn_keeps
    | (extract_lets +onlyGivenNames x; first | refine cut2 (p := Keeps _ x) ?_ (fun _ => ?_) | clear x | skip)
    | split | refine keeps_mk ?_ rfl rfl rfl

theorem supplyUp_keeps {a : State} (up : BitVec 6) {s : State} (h : Keeps a s) : Keeps a (supplyUp up s) := by
  unfold supplyUp
  with_reducible repeat' first
    | assumption | intro _ _ _ | intro _ _ | intro _
    | (extract_lets +onlyGivenNames x; first | refine cut2 (p := Keeps _ x) ?_ (fun _ => ?_) | clear x | skip)
    | split | refine keeps_mk ?_ rfl rfl rfl

theorem settleAll_keeps {a : State} {s : State} (h : Keeps a s) : Keeps a (settleAll s) := by
  unfold settleAll
  with_reducible repeat' first
    | assumption | intro _ _ _ | intro _ _ | intro _ | apply settleIrq_keeps | apply forRange_keeps
    | (extract_lets +onlyGivenNames x; first | refine cut2 (p := Keeps _ x) ?_ (fun _ => ?_) | clear x | skip)
    | split | refine keeps_mk ?_ rfl rfl rfl

theorem startFunction_keeps {a : State} (f : Func) {s : State} (h : Keeps a s) : Keeps a (startFunction f s) := by
  unfold startFunction
  with_reducible repeat' first
    | assumption | intro _ _ _ | intro _ _ | intro _ | apply settleAll_keeps | apply setLink_keeps | apply restartTicks_keeps | apply
      restartMean_keeps | apply forEach_keeps | apply ite_keeps
    | (extract_lets +onlyGivenNames x; first | refine cut2 (p := Keeps _ x) ?_ (fun _ => ?_) | clear x | skip)
    | split | refine keeps_mk ?_ rfl rfl rfl

theorem execFunctionReady_keeps {a : State} (f : Func) (up : BitVec 6) {s : State} (h : Keeps a s) : OKeeps a (execFunctionReady f up s) := by
  unfold execFunctionReady
  with_reducible repeat' first
    | assumption | intro _ _ _ | intro _ _ | intro _ | apply supplyUp_keeps | apply next_keeps | apply startFunction_keeps | apply
      readyOn_keeps | apply ite_okeeps | apply ite_keeps
    | (extract_lets +onlyGivenNames x; first | refine cut2 (p := Keeps _ x) ?_ (fun _ => ?_) | clear x | skip)
    | split | refine keeps_mk ?_ rfl rfl rfl

theorem endTrial_keeps {a : State} {s : State} (h : Keeps a s) : Keeps a (endTrial s) := by
  unfold endTrial
  with_reducible repeat' first
    | assumption | intro _ _ _ | intro _ _ | intro _ | apply drawn_keeps | apply recordRejected_keeps | apply modSec_keeps
    | (extract_lets +onlyGivenNames x; first | refine cut2 (p := Keeps _ x) ?_ (fun _ => ?_) | clear x | skip)
    | split | refine keeps_mk ?_ rfl rfl rfl

theorem execMaskRomBoot_keeps {a : State} {s : State} (h : Keeps a s) : OKeeps a (execMaskRomBoot s) := by
  unfold execMaskRomBoot
  with_reducible repeat' first
    | assumption | intro _ _ _ | intro _ _ | intro _ | apply next_keeps | apply endTrial_keeps | apply ite_okeeps | apply ite_keeps
    | (extract_lets +onlyGivenNames x; first | refine cut2 (p := Keeps _ x) ?_ (fun _ => ?_) | clear x | skip)
    | split | refine keeps_mk ?_ rfl rfl rfl

theorem execImageStart_keeps {a : State} {s : State} (h : Keeps a s) : OKeeps a (execImageStart s) := by
  unfold execImageStart
  with_reducible repeat' first
    | assumption | intro _ _ _ | intro _ _ | intro _ | apply next_keeps | apply readyOn_keeps | apply ite_okeeps | apply ite_keeps
    | (extract_lets +onlyGivenNames x; first | refine cut2 (p := Keeps _ x) ?_ (fun _ => ?_) | clear x | skip)
    | split | refine keeps_mk ?_ rfl rfl rfl

theorem loseClock_keeps {a : State} (acked : BitVec 64) (tdcvs : List (Fin 64 × Fin 128)) (ch : Nat) {s : State} (h : Keeps a s) : Keeps a (loseClock acked tdcvs ch s) := by
  unfold loseClock
  with_reducible repeat' first
    | assumption | intro _ _ _ | intro _ _ | intro _ | apply clockHoldChan_keeps | apply restartSchedules_keeps | apply ite_keeps
    | (extract_lets +onlyGivenNames x; first | refine cut2 (p := Keeps _ x) ?_ (fun _ => ?_) | clear x | skip)
    | split | refine keeps_mk ?_ rfl rfl rfl

theorem stopIsland_keeps {a : State} (acked : BitVec 64) (tdcvs : List (Fin 64 × Fin 128)) (p : Pll) {s : State} (h : Keeps a s) : Keeps a (stopIsland acked tdcvs p s) := by
  unfold stopIsland
  with_reducible repeat' first
    | assumption | intro _ _ _ | intro _ _ | intro _ | apply readyOff_keeps | apply loseClock_keeps | apply forEach_keeps | apply
      ite_keeps
    | (extract_lets +onlyGivenNames x; first | refine cut2 (p := Keeps _ x) ?_ (fun _ => ?_) | clear x | skip)
    | split | refine keeps_mk ?_ rfl rfl rfl

theorem execPllLossOfLock_keeps {a : State} (pll : Pll) (acked : BitVec 64) (tdcvs : List (Fin 64 × Fin 128)) {s : State} (h : Keeps a s) : OKeeps a (execPllLossOfLock pll acked tdcvs s) := by
  unfold execPllLossOfLock
  with_reducible repeat' first
    | assumption | intro _ _ _ | intro _ _ | intro _ | apply next_keeps | apply logFault_keeps | apply stopIsland_keeps | apply
      ite_okeeps | apply ite_keeps
    | (extract_lets +onlyGivenNames x; first | refine cut2 (p := Keeps _ x) ?_ (fun _ => ?_) | clear x | skip)
    | split | refine keeps_mk ?_ rfl rfl rfl

theorem relockChan_keeps {a : State} (ch : Nat) {s : State} (h : Keeps a s) : Keeps a (relockChan ch s) := by
  unfold relockChan
  with_reducible repeat' first
    | assumption | intro _ _ _ | intro _ _ | intro _ | apply clockReleaseChan_keeps | apply powerEnterChan_keeps | apply ite_keeps
    | (extract_lets +onlyGivenNames x; first | refine cut2 (p := Keeps _ x) ?_ (fun _ => ?_) | clear x | skip)
    | split | refine keeps_mk ?_ rfl rfl rfl

theorem restartRoute_keeps {a : State} (bits : BitVec 32) {s : State} (h : Keeps a s) : Keeps a (restartRoute bits s) := by
  unfold restartRoute
  with_reducible repeat' first
    | assumption | intro _ _ _ | intro _ _ | intro _ | apply restartTicks_keeps | apply restartMean_keeps | apply ite_keeps
    | (extract_lets +onlyGivenNames x; first | refine cut2 (p := Keeps _ x) ?_ (fun _ => ?_) | clear x | skip)
    | split | refine keeps_mk ?_ rfl rfl rfl

theorem execPllRelock_keeps {a : State} (pll : Pll) {s : State} (h : Keeps a s) : OKeeps a (execPllRelock pll s) := by
  unfold execPllRelock
  with_reducible repeat' first
    | assumption | intro _ _ _ | intro _ _ | intro _ | apply next_keeps | apply readyOn_keeps | apply relockChan_keeps | apply
      settleAll_keeps | apply restartRoute_keeps | apply forEach_keeps
    | (extract_lets +onlyGivenNames x; first | refine cut2 (p := Keeps _ x) ?_ (fun _ => ?_) | clear x | skip)
    | split | refine keeps_mk ?_ rfl rfl rfl

theorem execReferenceLoss_keeps {a : State} (acked : BitVec 64) (tdcvs : List (Fin 64 × Fin 128)) {s : State} (h : Keeps a s) : OKeeps a (execReferenceLoss acked tdcvs s) := by
  unfold execReferenceLoss
  with_reducible repeat' first
    | assumption | intro _ _ _ | intro _ _ | intro _ | apply next_keeps | apply stopIsland_keeps | apply logFault_keeps | apply
      forEach_keeps | apply ite_okeeps | apply ite_keeps
    | (extract_lets +onlyGivenNames x; first | refine cut2 (p := Keeps _ x) ?_ (fun _ => ?_) | clear x | skip)
    | split | refine keeps_mk ?_ rfl rfl rfl

theorem execPfFlr_keeps {a : State} {s : State} (h : Keeps a s) : OKeeps a (execPfFlr s) := by
  unfold execPfFlr
  with_reducible repeat' first
    | assumption | intro _ _ _ | intro _ _ | intro _ | apply next_keeps | apply hostGone_keeps | apply ite_okeeps | apply ite_keeps
    | (extract_lets +onlyGivenNames x; first | refine cut2 (p := Keeps _ x) ?_ (fun _ => ?_) | clear x | skip)
    | split | refine keeps_mk ?_ rfl rfl rfl

theorem execPerstnRelease_keeps {a : State} {s : State} (h : Keeps a s) : OKeeps a (execPerstnRelease s) := by
  unfold execPerstnRelease
  with_reducible repeat' first
    | assumption | intro _ _ _ | intro _ _ | intro _ | apply next_keeps
    | (extract_lets +onlyGivenNames x; first | refine cut2 (p := Keeps _ x) ?_ (fun _ => ?_) | clear x | skip)
    | split | refine keeps_mk ?_ rfl rfl rfl

/-! ### Scrub -/

theorem answerInterrupted_keeps {a : State} (p : Packet) {s : State} (h : Keeps a s) : Keeps a (answerInterrupted p s) := by
  unfold answerInterrupted
  with_reducible repeat' first
    | assumption | intro _ _ _ | intro _ _ | intro _ | apply pruneDecoded_keeps | apply conclude_keeps | apply judge_keeps | apply
      forceSafe_keeps | apply sendReply_keeps | apply ite_keeps
    | (extract_lets +onlyGivenNames x; first | refine cut2 (p := Keeps _ x) ?_ (fun _ => ?_) | clear x | skip)
    | split | refine keeps_mk ?_ rfl rfl rfl

theorem interruptOne_keeps {a : State} (p : Packet) {s : State} (h : Keeps a s) : Keeps a (interruptOne p s) := by
  unfold interruptOne
  with_reducible repeat' first
    | assumption | intro _ _ _ | intro _ _ | intro _ | apply answerInterrupted_keeps | apply popSource_keeps | apply noteTaken_keeps |
      apply ite_keeps
    | (extract_lets +onlyGivenNames x; first | refine cut2 (p := Keeps _ x) ?_ (fun _ => ?_) | clear x | skip)
    | split | refine keeps_mk ?_ rfl rfl rfl

theorem restartEngine_keeps {a : State} (cause : Nat) (interrupted : Option Packet) {s : State} (h : Keeps a s) : Keeps a (restartEngine cause interrupted s) := by
  unfold restartEngine
  with_reducible repeat' first
    | assumption | intro _ _ _ | intro _ _ | intro _ | apply logFault_keeps | apply interruptOne_keeps | apply ite_keeps
    | (extract_lets +onlyGivenNames x; first | refine cut2 (p := Keeps _ x) ?_ (fun _ => ?_) | clear x | skip)
    | split | refine keeps_mk ?_ rfl rfl rfl

theorem execLockstepMismatch_keeps {a : State} (pc : Word) (interrupted : Option Packet) {s : State} (h : Keeps a s) : OKeeps a (execLockstepMismatch pc interrupted s) := by
  unfold execLockstepMismatch
  with_reducible repeat' first
    | assumption | intro _ _ _ | intro _ _ | intro _ | apply next_keeps | apply restartEngine_keeps | apply logFault_keeps | apply
      ite_okeeps | apply ite_keeps
    | (extract_lets +onlyGivenNames x; first | refine cut2 (p := Keeps _ x) ?_ (fun _ => ?_) | clear x | skip)
    | split | refine keeps_mk ?_ rfl rfl rfl

theorem goodPoolWord_keeps {a : State} (word : Nat) {s : State} (h : Keeps a s) : Keeps a (goodPoolWord word s) := by
  unfold goodPoolWord
  with_reducible repeat' first
    | assumption | intro _ _ _ | intro _ _ | intro _ | apply State_modMo_keeps
    | (extract_lets +onlyGivenNames x; first | refine cut2 (p := Keeps _ x) ?_ (fun _ => ?_) | clear x | skip)
    | split | refine keeps_mk ?_ rfl rfl rfl

theorem goodWord_keeps {a : State} (r : Region) (word : Nat) {s : State} (h : Keeps a s) : Keeps a (goodWord r word s) := by
  unfold goodWord
  with_reducible repeat' first
    | assumption | intro _ _ _ | intro _ _ | intro _ | apply modCounter_keeps | apply goodPoolWord_keeps | apply modStat_keeps | apply
      drawn_keeps
    | (extract_lets +onlyGivenNames x; first | refine cut2 (p := Keeps _ x) ?_ (fun _ => ?_) | clear x | skip)
    | split | refine keeps_mk ?_ rfl rfl rfl

theorem tableEvent_keeps {a : State} (kind : Nat) (n : Nat) {s : State} (h : Keeps a s) : Keeps a (tableEvent kind n s) := by
  unfold tableEvent
  with_reducible repeat' first
    | assumption | intro _ _ _ | intro _ _ | intro _ | apply raiseEvent_keeps
    | (extract_lets +onlyGivenNames x; first | refine cut2 (p := Keeps _ x) ?_ (fun _ => ?_) | clear x | skip)
    | split | refine keeps_mk ?_ rfl rfl rfl

theorem badSignal_keeps {a : State} (n : Nat) {s : State} (h : Keeps a s) : Keeps a (badSignal n s) := by
  unfold badSignal
  with_reducible repeat' first
    | assumption | intro _ _ _ | intro _ _ | intro _ | apply memoryEvent_keeps | apply tableEvent_keeps | apply ite_keeps
    | (extract_lets +onlyGivenNames x; first | refine cut2 (p := Keeps _ x) ?_ (fun _ => ?_) | clear x | skip)
    | split | refine keeps_mk ?_ rfl rfl rfl | refine keeps_tab ?_ rfl rfl rfl ?_ ?_ ?_ ?_ ?_ ?_ | apply rising_mset | apply rising_mdel | apply rising_mmod | refine rising_map (fun _ => ?_) ?_ | rfl

theorem disableFilter_keeps {a : State} (why : Nat) (n : Nat) {s : State} (h : Keeps a s) : Keeps a (disableFilter why n s) := by
  unfold disableFilter
  with_reducible repeat' first
    | assumption | intro _ _ _ | intro _ _ | intro _ | apply raiseEvents_keeps
    | (extract_lets +onlyGivenNames x; first | refine cut2 (p := Keeps _ x) ?_ (fun _ => ?_) | clear x | skip)
    | split | refine keeps_mk ?_ rfl rfl rfl | refine keeps_tab ?_ rfl rfl rfl ?_ ?_ ?_ ?_ ?_ ?_ | apply rising_mset | apply rising_mdel | apply rising_mmod | refine rising_map (fun _ => ?_) ?_ | rfl

theorem badFilter_keeps {a : State} (n : Nat) {s : State} (h : Keeps a s) : Keeps a (badFilter n s) := by
  unfold badFilter
  with_reducible repeat' first
    | assumption | intro _ _ _ | intro _ _ | intro _ | apply memoryEvent_keeps | apply disableFilter_keeps | apply forEach_keeps |
      apply ite_keeps
    | (extract_lets +onlyGivenNames x; first | refine cut2 (p := Keeps _ x) ?_ (fun _ => ?_) | clear x | skip)
    | split | refine keeps_mk ?_ rfl rfl rfl | refine keeps_tab ?_ rfl rfl rfl ?_ ?_ ?_ ?_ ?_ ?_ | apply rising_mset | apply rising_mdel | apply rising_mmod | refine rising_map (fun _ => ?_) ?_ | rfl

theorem badPdu_keeps {a : State} (n : Nat) {s : State} (h : Keeps a s) : Keeps a (badPdu n s) := by
  unfold badPdu
  with_reducible repeat' first
    | assumption | intro _ _ _ | intro _ _ | intro _ | apply memoryEvent_keeps | apply tableEvent_keeps | apply ite_keeps
    | (extract_lets +onlyGivenNames x; first | refine cut2 (p := Keeps _ x) ?_ (fun _ => ?_) | clear x | skip)
    | split | refine keeps_mk ?_ rfl rfl rfl | refine keeps_tab ?_ rfl rfl rfl ?_ ?_ ?_ ?_ ?_ ?_ | apply rising_mset | apply rising_mdel | apply rising_mmod | refine rising_map (fun _ => ?_) ?_ | rfl

theorem badDescriptor_keeps {a : State} (mo : Nat) {s : State} (h : Keeps a s) : Keeps a (badDescriptor mo s) := by
  unfold badDescriptor
  with_reducible repeat' first
    | assumption | intro _ _ _ | intro _ _ | intro _ | apply memoryEvent_keeps | apply objectEvent_keeps | apply disableObject_keeps
    | (extract_lets +onlyGivenNames x; first | refine cut2 (p := Keeps _ x) ?_ (fun _ => ?_) | clear x | skip)
    | split | refine keeps_mk ?_ rfl rfl rfl

theorem badRecord_keeps {a : State} (n : Nat) {s : State} (h : Keeps a s) : Keeps a (badRecord n s) := by
  unfold badRecord
  with_reducible repeat' first
    | assumption | intro _ _ _ | intro _ _ | intro _ | apply memoryEvent_keeps | apply latchCause_keeps | apply modRec_keeps
    | (extract_lets +onlyGivenNames x; first | refine cut2 (p := Keeps _ x) ?_ (fun _ => ?_) | clear x | skip)
    | split | refine keeps_mk ?_ rfl rfl rfl

theorem returnCredit_keeps {a : State} {s : State} (h : Keeps a s) : Keeps a (returnCredit s) := by
  unfold returnCredit
  with_reducible repeat' first
    | assumption | intro _ _ _ | intro _ _ | intro _
    | (extract_lets +onlyGivenNames x; first | refine cut2 (p := Keeps _ x) ?_ (fun _ => ?_) | clear x | skip)
    | split | refine keeps_mk ?_ rfl rfl rfl

theorem returnPlace_keeps {a : State} (c : Nat) {s : State} (h : Keeps a s) : Keeps a (returnPlace c s) := by
  unfold returnPlace
  with_reducible repeat' first
    | assumption | intro _ _ _ | intro _ _ | intro _ | apply setLimit_keeps | apply ite_keeps
    | (extract_lets +onlyGivenNames x; first | refine cut2 (p := Keeps _ x) ?_ (fun _ => ?_) | clear x | skip)
    | split | refine keeps_mk ?_ rfl rfl rfl

theorem dropMasterReply_keeps {a : State} (i : Nat) {s : State} (h : Keeps a s) : Keeps a (dropMasterReply i s) := by
  unfold dropMasterReply
  with_reducible repeat' first
    | assumption | intro _ _ _ | intro _ _ | intro _ | apply State_modLink_keeps | apply ite_keeps
    | (extract_lets +onlyGivenNames x; first | refine cut2 (p := Keeps _ x) ?_ (fun _ => ?_) | clear x | skip)
    | split | refine keeps_mk ?_ rfl rfl rfl

theorem dropPacketAt_keeps {a : State} (q : QKind × Nat) (i : Nat) {s : State} (h : Keeps a s) : Keeps a (dropPacketAt q i s) := by
  unfold dropPacketAt
  with_reducible repeat' first
    | assumption | intro _ _ _ | intro _ _ | intro _ | apply State_modChan_keeps | apply cellsFreed_keeps | apply returnCredit_keeps |
      apply returnPlace_keeps | apply State_modCq_keeps | apply ringLost_keeps | apply dropMasterReply_keeps | apply
      State_modRing_keeps | apply ite_keeps
    | (extract_lets +onlyGivenNames x; first | refine cut2 (p := Keeps _ x) ?_ (fun _ => ?_) | clear x | skip)
    | split | refine keeps_mk ?_ rfl rfl rfl

theorem badQueueWord_keeps {a : State} {s : State} (h : Keeps a s) : Keeps a (badQueueWord s) := by
  unfold badQueueWord
  with_reducible repeat' first
    | assumption | intro _ _ _ | intro _ _ | intro _ | apply memoryEvent_keeps | apply drawn_keeps | apply modStat_keeps | apply
      dropPacketAt_keeps | apply fcAt_keeps | apply ite_keeps
    | (extract_lets +onlyGivenNames x; first | refine cut2 (p := Keeps _ x) ?_ (fun _ => ?_) | clear x | skip)
    | split | refine keeps_mk ?_ rfl rfl rfl

theorem badCensus_keeps {a : State} (n : Nat) {s : State} (h : Keeps a s) : Keeps a (badCensus n s) := by
  unfold badCensus
  with_reducible repeat' first
    | assumption | intro _ _ _ | intro _ _ | intro _ | apply memoryEvent_keeps
    | (extract_lets +onlyGivenNames x; first | refine cut2 (p := Keeps _ x) ?_ (fun _ => ?_) | clear x | skip)
    | split | refine keeps_mk ?_ rfl rfl rfl | refine keeps_tab ?_ rfl rfl rfl ?_ ?_ ?_ ?_ ?_ ?_ | apply rising_mset | apply rising_mdel | apply rising_mmod | refine rising_map (fun _ => ?_) ?_ | rfl

theorem badFilm_keeps {a : State} {s : State} (h : Keeps a s) : Keeps a (badFilm s) := by
  unfold badFilm
  with_reducible repeat' first
    | assumption | intro _ _ _ | intro _ _ | intro _ | apply memoryEvent_keeps | apply drawn_keeps
    | (extract_lets +onlyGivenNames x; first | refine cut2 (p := Keeps _ x) ?_ (fun _ => ?_) | clear x | skip)
    | split | refine keeps_mk ?_ rfl rfl rfl

theorem badStatistics_keeps {a : State} {s : State} (h : Keeps a s) : Keeps a (badStatistics s) := by
  unfold badStatistics
  with_reducible repeat' first
    | assumption | intro _ _ _ | intro _ _ | intro _ | apply drawn_keeps | apply memoryEvent_keeps | apply State_modChan_keeps | apply
      modRec_keeps | apply State_modLane_keeps | apply ite_keeps
    | (extract_lets +onlyGivenNames x; first | refine cut2 (p := Keeps _ x) ?_ (fun _ => ?_) | clear x | skip)
    | split | refine keeps_mk ?_ rfl rfl rfl | refine keeps_tab ?_ rfl rfl rfl ?_ ?_ ?_ ?_ ?_ ?_ | apply rising_mset | apply rising_mdel | apply rising_mmod | refine rising_map (fun _ => ?_) ?_ | rfl

theorem badSecurity_keeps {a : State} (off : Nat) {s : State} (h : Keeps a s) : Keeps a (badSecurity off s) := by
  unfold badSecurity
  with_reducible repeat' first
    | assumption | intro _ _ _ | intro _ _ | intro _ | apply modSec_keeps | apply ite_keeps
    | (extract_lets +onlyGivenNames x; first | refine cut2 (p := Keeps _ x) ?_ (fun _ => ?_) | clear x | skip)
    | split | refine keeps_mk ?_ rfl rfl rfl

theorem badLogEntry_keeps {a : State} (n : Nat) {s : State} (h : Keeps a s) : Keeps a (badLogEntry n s) :=
  h.mapLog (fun e => if (e.seq - 1) % faultLogSize = n then { e with readable := false } else e) (fun e => by split <;> rfl)

theorem badMram_keeps {a : State} (r : Region) (off : Nat) {s : State} (h : Keeps a s) : Keeps a (badMram r off s) := by
  unfold badMram
  with_reducible repeat' first
    | assumption | intro _ _ _ | intro _ _ | intro _ | apply memoryEvent_keeps | apply modMram_keeps | apply badSecurity_keeps | apply
      badLogEntry_keeps
    | (extract_lets +onlyGivenNames x; first | refine cut2 (p := Keeps _ x) ?_ (fun _ => ?_) | clear x | skip)
    | split | refine keeps_mk ?_ rfl rfl rfl

theorem badWord_keeps {a : State} (r : Region) (word : Nat) (interrupted : Option Packet) {s : State} (h : Keeps a s) : Keeps a (badWord r word interrupted s) := by
  unfold badWord
  with_reducible repeat' first
    | assumption | intro _ _ _ | intro _ _ | intro _ | apply badSignal_keeps | apply badPoolWord_keeps | apply badFilter_keeps | apply
      badPdu_keeps | apply badDescriptor_keeps | apply badRecord_keeps | apply memoryEvent_keeps | apply restartEngine_keeps | apply
      badQueueWord_keeps | apply badCensus_keeps | apply badFilm_keeps | apply badStatistics_keeps | apply badMram_keeps | apply
      ite_keeps
    | (extract_lets +onlyGivenNames x; first | refine cut2 (p := Keeps _ x) ?_ (fun _ => ?_) | clear x | skip)
    | split | refine keeps_mk ?_ rfl rfl rfl

theorem execScrubPass_keeps {a : State} (region : Region) (addr : Nat) (finding : Finding) (interrupted : Option Packet) {s : State} (h : Keeps a s) : OKeeps a (execScrubPass region addr finding interrupted s) := by
  unfold execScrubPass
  with_reducible repeat' first
    | assumption | intro _ _ _ | intro _ _ | intro _ | apply next_keeps | apply goodWord_keeps | apply noteFinding_keeps | apply
      badWord_keeps | apply ite_okeeps | apply ite_keeps
    | (extract_lets +onlyGivenNames x; first | refine cut2 (p := Keeps _ x) ?_ (fun _ => ?_) | clear x | skip)
    | split | refine keeps_mk ?_ rfl rfl rfl

/-! ### SystemCmds -/

theorem identify_keeps {a : State} (p : Packet) {s : State} (h : Keeps a s) : VKeeps a (identify p s) := by
  unfold identify
  with_reducible repeat' first
    | assumption | intro _ _ _ | intro _ _ | intro _ | apply okBody_keeps
    | (extract_lets +onlyGivenNames x; first | refine cut2 (p := Keeps _ x) ?_ (fun _ => ?_) | clear x | skip)
    | split | refine keeps_mk ?_ rfl rfl rfl

theorem execIdentify_keeps {a : State} (p : Packet) {s : State} (h : Keeps a s) : OKeeps a (execIdentify p s) := by
  unfold execIdentify
  with_reducible repeat' first
    | assumption | intro _ _ _ | intro _ _ | intro _ | apply next_keeps | apply runCommand_keeps | apply identify_keeps
    | (extract_lets +onlyGivenNames x; first | refine cut2 (p := Keeps _ x) ?_ (fun _ => ?_) | clear x | skip)
    | split | refine keeps_mk ?_ rfl rfl rfl

theorem getReadiness_keeps {a : State} (x0 : Packet) {s : State} (h : Keeps a s) : VKeeps a (getReadiness x0 s) := by
  unfold getReadiness
  with_reducible repeat' first
    | assumption | intro _ _ _ | intro _ _ | intro _ | apply okBody_keeps
    | (extract_lets +onlyGivenNames x; first | refine cut2 (p := Keeps _ x) ?_ (fun _ => ?_) | clear x | skip)
    | split | refine keeps_mk ?_ rfl rfl rfl

theorem execGetReadiness_keeps {a : State} (p : Packet) {s : State} (h : Keeps a s) : OKeeps a (execGetReadiness p s) := by
  unfold execGetReadiness
  with_reducible repeat' first
    | assumption | intro _ _ _ | intro _ _ | intro _ | apply next_keeps | apply runCommand_keeps | apply getReadiness_keeps
    | (extract_lets +onlyGivenNames x; first | refine cut2 (p := Keeps _ x) ?_ (fun _ => ?_) | clear x | skip)
    | split | refine keeps_mk ?_ rfl rfl rfl

theorem clearLoads_keeps {a : State} {s : State} (h : Keeps a s) : Keeps a (clearLoads s) := by
  unfold clearLoads
  with_reducible repeat' first
    | assumption | intro _ _ _ | intro _ _ | intro _
    | (extract_lets +onlyGivenNames x; first | refine cut2 (p := Keeps _ x) ?_ (fun _ => ?_) | clear x | skip)
    | split | refine keeps_mk ?_ rfl rfl rfl

theorem clearRoutes_keeps {a : State} {s : State} (h : Keeps a s) : Keeps a (clearRoutes s) := by
  unfold clearRoutes
  with_reducible repeat' first
    | assumption | intro _ _ _ | intro _ _ | intro _
    | (extract_lets +onlyGivenNames x; first | refine cut2 (p := Keeps _ x) ?_ (fun _ => ?_) | clear x | skip)
    | split | refine keeps_mk ?_ rfl rfl rfl | refine keeps_tab ?_ rfl rfl rfl ?_ ?_ ?_ ?_ ?_ ?_ | apply rising_mset | apply rising_mdel | apply rising_mmod | refine rising_map (fun _ => ?_) ?_ | rfl

theorem clearMonitors_keeps {a : State} {s : State} (h : Keeps a s) : Keeps a (clearMonitors s) := by
  unfold clearMonitors
  with_reducible repeat' first
    | assumption | intro _ _ _ | intro _ _ | intro _
    | (extract_lets +onlyGivenNames x; first | refine cut2 (p := Keeps _ x) ?_ (fun _ => ?_) | clear x | skip)
    | split | refine keeps_mk ?_ rfl rfl rfl | refine keeps_tab ?_ rfl rfl rfl ?_ ?_ ?_ ?_ ?_ ?_ | apply rising_mset | apply rising_mdel | apply rising_mmod | refine rising_map (fun _ => ?_) ?_ | rfl

theorem clearQueues_keeps {a : State} (f : Nat → QStat → QStat) {s : State} (h : Keeps a s) : Keeps a (clearQueues f s) := by
  unfold clearQueues
  with_reducible repeat' first
    | assumption | intro _ _ _ | intro _ _ | intro _ | apply modStat_keeps | apply forEach_keeps
    | (extract_lets +onlyGivenNames x; first | refine cut2 (p := Keeps _ x) ?_ (fun _ => ?_) | clear x | skip)
    | split | refine keeps_mk ?_ rfl rfl rfl

theorem clearQueueCounters_keeps {a : State} {s : State} (h : Keeps a s) : Keeps a (clearQueueCounters s) := by
  unfold clearQueueCounters
  with_reducible repeat' first
    | assumption | intro _ _ _ | intro _ _ | intro _ | apply clearQueues_keeps
    | (extract_lets +onlyGivenNames x; first | refine cut2 (p := Keeps _ x) ?_ (fun _ => ?_) | clear x | skip)
    | split | refine keeps_mk ?_ rfl rfl rfl | refine keeps_tab ?_ rfl rfl rfl ?_ ?_ ?_ ?_ ?_ ?_ | apply rising_mset | apply rising_mdel | apply rising_mmod | refine rising_map (fun _ => ?_) ?_ | rfl

theorem clearChannels_keeps {a : State} {s : State} (h : Keeps a s) : Keeps a (clearChannels s) := by
  unfold clearChannels
  with_reducible repeat' first
    | assumption | intro _ _ _ | intro _ _ | intro _
    | (extract_lets +onlyGivenNames x; first | refine cut2 (p := Keeps _ x) ?_ (fun _ => ?_) | clear x | skip)
    | split | refine keeps_mk ?_ rfl rfl rfl | refine keeps_tab ?_ rfl rfl rfl ?_ ?_ ?_ ?_ ?_ ?_ | apply rising_mset | apply rising_mdel | apply rising_mmod | refine rising_map (fun _ => ?_) ?_ | rfl

theorem clearMemory_keeps {a : State} {s : State} (h : Keeps a s) : Keeps a (clearMemory s) := by
  unfold clearMemory
  with_reducible repeat' first
    | assumption | intro _ _ _ | intro _ _ | intro _ | apply clearQueues_keeps
    | (extract_lets +onlyGivenNames x; first | refine cut2 (p := Keeps _ x) ?_ (fun _ => ?_) | clear x | skip)
    | split | refine keeps_mk ?_ rfl rfl rfl | refine keeps_tab ?_ rfl rfl rfl ?_ ?_ ?_ ?_ ?_ ?_ | apply rising_mset | apply rising_mdel | apply rising_mmod | refine rising_map (fun _ => ?_) ?_ | rfl

theorem clearClasses_keeps {a : State} (mask : Nat) {s : State} (h : Keeps a s) : Keeps a (clearClasses mask s) := by
  unfold clearClasses
  with_reducible repeat' first
    | assumption | intro _ _ _ | intro _ _ | intro _ | apply clearLoads_keeps | apply clearRoutes_keeps | apply clearMonitors_keeps |
      apply clearQueueCounters_keeps | apply clearChannels_keeps | apply clearMemory_keeps | apply ite_keeps
    | (extract_lets +onlyGivenNames x; first | refine cut2 (p := Keeps _ x) ?_ (fun _ => ?_) | clear x | skip)
    | split | refine keeps_mk ?_ rfl rfl rfl

theorem clearCounters_keeps {a : State} (p : Packet) {s : State} (h : Keeps a s) : VKeeps a (clearCounters p s) := by
  unfold clearCounters
  with_reducible repeat' first
    | assumption | intro _ _ _ | intro _ _ | intro _ | apply okBody_keeps | apply clearClasses_keeps | apply badParam_keeps
    | (extract_lets +onlyGivenNames x; first | refine cut2 (p := Keeps _ x) ?_ (fun _ => ?_) | clear x | skip)
    | split | refine keeps_mk ?_ rfl rfl rfl

theorem execClearCounters_keeps {a : State} (p : Packet) {s : State} (h : Keeps a s) : OKeeps a (execClearCounters p s) := by
  unfold execClearCounters
  with_reducible repeat' first
    | assumption | intro _ _ _ | intro _ _ | intro _ | apply next_keeps | apply runCommand_keeps | apply clearCounters_keeps
    | (extract_lets +onlyGivenNames x; first | refine cut2 (p := Keeps _ x) ?_ (fun _ => ?_) | clear x | skip)
    | split | refine keeps_mk ?_ rfl rfl rfl

/-! ### SafetyCmds -/

theorem answerSafety_keeps {a : State} (status : Nat) (data : List Byte) {s : State} (h : Keeps a s) : Keeps a (answerSafety status data s) := by
  unfold answerSafety
  with_reducible repeat' first
    | assumption | intro _ _ _ | intro _ _ | intro _ | apply State_emit_keeps
    | (extract_lets +onlyGivenNames x; first | refine cut2 (p := Keeps _ x) ?_ (fun _ => ?_) | clear x | skip)
    | split | refine keeps_mk ?_ rfl rfl rfl

theorem failCrc_keeps {a : State} {s : State} (h : Keeps a s) : Keeps a (failCrc s) := by
  unfold failCrc
  with_reducible repeat' first
    | assumption | intro _ _ _ | intro _ _ | intro _ | apply answerSafety_keeps | apply raiseSafe_keeps
    | (extract_lets +onlyGivenNames x; first | refine cut2 (p := Keeps _ x) ?_ (fun _ => ?_) | clear x | skip)
    | split | refine keeps_mk ?_ rfl rfl rfl

theorem transact_keeps {a : State} (bytes : List Byte) (crc : Option Word) (valid : Bool) (act : State → State) {s : State} (hk : ∀ y0, Keeps a y0 → Keeps a (act y0)) (h : Keeps a s) : Keeps a (transact bytes crc valid act s) := by
  unfold transact
  with_reducible repeat' first
    | assumption | intro _ _ _ | intro _ _ | intro _ | apply hk | apply failCrc_keeps | apply answerSafety_keeps | apply ite_keeps
    | (extract_lets +onlyGivenNames x; first | refine cut2 (p := Keeps _ x) ?_ (fun _ => ?_) | clear x | skip)
    | split | refine keeps_mk ?_ rfl rfl rfl

theorem viewEffect_keeps {a : State} (off : Nat) {s : State} (h : Keeps a s) : Keeps a (viewEffect off s) := by
  unfold viewEffect
  with_reducible repeat' first
    | assumption | intro _ _ _ | intro _ _ | intro _
    | (extract_lets +onlyGivenNames x; first | refine cut2 (p := Keeps _ x) ?_ (fun _ => ?_) | clear x | skip)
    | split | refine keeps_mk ?_ rfl rfl rfl

theorem viewWords_keeps {a : State} (n off : Nat) {s : State} (h : Keeps a s) : Keeps a (viewWords n off s).2 := by
  induction n generalizing off s with
  | zero => exact h
  | succ n ih => exact ih (off + 4) (viewEffect_keeps off h)

theorem execSafetyRegisterRead_keeps {a : State} (typ : Byte) (arg : Nat) (count : Nat) (crc : Option Word) {s : State} (h : Keeps a s) : OKeeps a (execSafetyRegisterRead typ arg count crc s) := by
  unfold execSafetyRegisterRead
  with_reducible repeat' first
    | assumption | intro _ _ _ | intro _ _ | intro _ | apply next_keeps | apply transact_keeps | apply viewWords_keeps | apply
      answerSafety_keeps
    | (extract_lets +onlyGivenNames x; first | refine cut2 (p := Keeps _ x) ?_ (fun _ => ?_) | clear x | skip)
    | split | refine keeps_mk ?_ rfl rfl rfl

theorem viewWrite_keeps {a : State} (off : Nat) (v : Word) {s : State} (h : Keeps a s) : Keeps a (viewWrite off v s) := by
  unfold viewWrite
  with_reducible repeat' first
    | assumption | intro _ _ _ | intro _ _ | intro _ | apply clearWake_keeps
    | (extract_lets +onlyGivenNames x; first | refine cut2 (p := Keeps _ x) ?_ (fun _ => ?_) | clear x | skip)
    | split | refine keeps_mk ?_ rfl rfl rfl

theorem viewWriteAll_keeps {a : State} (l : List Word) (off : Nat) {s : State} (h : Keeps a s) : Keeps a (viewWriteAll l off s) := by
  induction l generalizing off s with
  | nil => exact h
  | cons v l ih => exact ih (off + 4) (viewWrite_keeps off v h)

theorem execSafetyRegisterWrite_keeps {a : State} (arg : Nat) (count : Nat) (words : List Word) (crc : Option Word) {s : State} (h : Keeps a s) : OKeeps a (execSafetyRegisterWrite arg count words crc s) := by
  unfold execSafetyRegisterWrite
  with_reducible repeat' first
    | assumption | intro _ _ _ | intro _ _ | intro _ | apply next_keeps | apply transact_keeps | apply answerSafety_keeps | apply
      viewWriteAll_keeps
    | (extract_lets +onlyGivenNames x; first | refine cut2 (p := Keeps _ x) ?_ (fun _ => ?_) | clear x | skip)
    | split | refine keeps_mk ?_ rfl rfl rfl

theorem decodeForce_keeps {a : State} (p : Packet) {s : State} (h : Keeps a s) : Keeps a (decodeForce p s) := by
  unfold decodeForce
  with_reducible repeat' first
    | assumption | intro _ _ _ | intro _ _ | intro _ | apply applyForce_keeps | apply ite_keeps
    | (extract_lets +onlyGivenNames x; first | refine cut2 (p := Keeps _ x) ?_ (fun _ => ?_) | clear x | skip)
    | split | refine keeps_mk ?_ rfl rfl rfl

theorem intakeSafety_forgetForce_keeps {a : State} {s : State} {t : State} (h : Keeps a s) (h1 : Keeps a t) : Keeps a (intakeSafety.forgetForce s t) := by
  unfold intakeSafety.forgetForce
  with_reducible repeat' first
    | assumption | intro _ _ _ | intro _ _ | intro _
    | (extract_lets +onlyGivenNames x; first | refine cut2 (p := Keeps _ x) ?_ (fun _ => ?_) | clear x | skip)
    | split | refine keeps_mk ?_ rfl rfl rfl

theorem intakeSafety_keeps {a : State} (p : Packet) (parity : Bool) (forceParity : Bool) {s : State} (h : Keeps a s) : Keeps a (intakeSafety p parity forceParity s) := by
  unfold intakeSafety
  with_reducible repeat' first
    | assumption | intro _ _ _ | intro _ _ | intro _ | apply resumeBySp_keeps | apply parityDrop_keeps | apply decodeForce_keeps |
      apply intakeSafety_forgetForce_keeps | apply arrivePacket_keeps | apply ite_keeps
    | (extract_lets +onlyGivenNames x; first | refine cut2 (p := Keeps _ x) ?_ (fun _ => ?_) | clear x | skip)
    | split | refine keeps_mk ?_ rfl rfl rfl

theorem execSafetyPacketSend_keeps {a : State} (arg : Nat) (count : Nat) (data : List Byte) (crc : Option Word) (parity : Bool) (forceParity : Bool) {s : State} (h : Keeps a s) : OKeeps a (execSafetyPacketSend arg count data crc parity forceParity s) := by
  unfold execSafetyPacketSend
  with_reducible repeat' first
    | assumption | intro _ _ _ | intro _ _ | intro _ | apply next_keeps | apply transact_keeps | apply answerSafety_keeps | apply
      intakeSafety_keeps | apply ite_okeeps | apply ite_keeps
    | (extract_lets +onlyGivenNames x; first | refine cut2 (p := Keeps _ x) ?_ (fun _ => ?_) | clear x | skip)
    | split | refine keeps_mk ?_ rfl rfl rfl

theorem takeSafetyReply_keeps {a : State} {s : State} (h : Keeps a s) : Keeps a (takeSafetyReply s) := by
  unfold takeSafetyReply
  with_reducible repeat' first
    | assumption | intro _ _ _ | intro _ _ | intro _ | apply answerSafety_keeps | apply returnCredit_keeps
    | (extract_lets +onlyGivenNames x; first | refine cut2 (p := Keeps _ x) ?_ (fun _ => ?_) | clear x | skip)
    | split | refine keeps_mk ?_ rfl rfl rfl

theorem loseSafetyReply_keeps {a : State} {s : State} (h : Keeps a s) : Keeps a (loseSafetyReply s) := by
  unfold loseSafetyReply
  with_reducible repeat' first
    | assumption | intro _ _ _ | intro _ _ | intro _ | apply parityDrop_keeps | apply ite_keeps
    | (extract_lets +onlyGivenNames x; first | refine cut2 (p := Keeps _ x) ?_ (fun _ => ?_) | clear x | skip)
    | split | refine keeps_mk ?_ rfl rfl rfl

theorem execSafetyPacketReceive_keeps {a : State} (arg : Nat) (count : Nat) (crc : Option Word) (parity : Bool) {s : State} (h : Keeps a s) : OKeeps a (execSafetyPacketReceive arg count crc parity s) := by
  unfold execSafetyPacketReceive
  with_reducible repeat' first
    | assumption | intro _ _ _ | intro _ _ | intro _ | apply next_keeps | apply transact_keeps | apply takeSafetyReply_keeps | apply
      loseSafetyReply_keeps | apply ite_okeeps | apply ite_keeps
    | (extract_lets +onlyGivenNames x; first | refine cut2 (p := Keeps _ x) ?_ (fun _ => ?_) | clear x | skip)
    | split | refine keeps_mk ?_ rfl rfl rfl

/-! ### Tick -/

theorem idle_keeps {a : State} {s : State} (h : Keeps a s) : OKeeps a (idle s) := by
  unfold idle
  with_reducible repeat' first
    | assumption | intro _ _ _ | intro _ _ | intro _ | apply next_keeps | apply filmDrainOne_keeps | apply passCycles_keeps
    | (extract_lets +onlyGivenNames x; first | refine cut2 (p := Keeps _ x) ?_ (fun _ => ?_) | clear x | skip)
    | split | refine keeps_mk ?_ rfl rfl rfl

/-! ### Resets of the whole device -/

theorem seqRuns_prefix {l m : List Nat} (h : seqRuns (l ++ m)) : seqRuns l := by
  induction l with
  | nil => trivial
  | cons a l ih =>
    match l, h, ih with
    | [], _, _ => trivial
    | _ :: _, h, ih => exact ⟨h.1, ih h.2⟩

theorem nextSeqOf_le (n : Nat) : 1 ≤ nextSeqOf n ∧ nextSeqOf n ≤ 0xFFFFFFFF := by
  unfold nextSeqOf
  split <;> omega

theorem resumeLog_sound {s t : State} (h : LogSound s) (e : t.log = resumeLog s.log) : LogSound t := by
  obtain ⟨h1, h2, h3, h4⟩ := h
  have hp : ∃ d, s.log.entries = (s.log.entries.reverse.dropWhile fun e => !e.readable).reverse ++ d := by
    refine ⟨(s.log.entries.reverse.takeWhile fun e => !e.readable).reverse, ?_⟩
    rw [← List.reverse_append, List.takeWhile_append_dropWhile, List.reverse_reverse]
  unfold LogSound
  rw [e]
  unfold resumeLog
  dsimp only
  generalize (s.log.entries.reverse.dropWhile fun e => !e.readable).reverse = kept at hp ⊢
  obtain ⟨d, hd⟩ := hp
  have hlen : kept.length ≤ faultLogSize := by
    rw [hd, List.length_append] at h1; omega
  rw [hd, List.map_append, List.append_assoc] at h4
  have hk := seqRuns_prefix h4
  refine ⟨hlen, ?_⟩
  rcases List.eq_nil_or_concat kept with rfl | ⟨l, x, rfl⟩
  · exact ⟨by decide, by decide, trivial⟩
  · simp only [List.concat_eq_append, List.getLast?_append, List.getLast?_singleton, Option.some_or, List.map_append, List.map_cons, List.map_nil] at hk ⊢
    exact ⟨(nextSeqOf_le _).1, (nextSeqOf_le _).2, seqRuns_snoc hk⟩

theorem afterReset_pending (c : ResetCause) (ph : Phase) (st : BitVec 3) (s : State) : (afterReset c ph st s).pending = s.pending := rfl
theorem afterReset_stackId (c : ResetCause) (ph : Phase) (st : BitVec 3) (s : State) : (afterReset c ph st s).aon.stackId = st := rfl
theorem afterReset_log (c : ResetCause) (ph : Phase) (st : BitVec 3) (s : State) : (afterReset c ph st s).log = resumeLog s.log := rfl
theorem afterReset_sound (c : ResetCause) (ph : Phase) (st : BitVec 3) {s : State} (h : LogSound s) : LogSound (afterReset c ph st s) :=
  resumeLog_sound h rfl

/-- What a reset keeps of the queue, the log and the tables. -/
structure KeepsRun (a s : State) : Prop where
  pending : s.pending = a.pending
  log : LogSound a → LogSound s
  tables : TablesRising a → TablesRising s

theorem Keeps.keepsRun {a s : State} (h : Keeps a s) : KeepsRun a s := ⟨h.pending, h.log, h.tables⟩
theorem KeepsRun.trans {a b c : State} (h : KeepsRun a b) (k : KeepsRun b c) : KeepsRun a c :=
  ⟨k.pending.trans h.pending, k.log ∘ h.log, k.tables ∘ h.tables⟩

theorem afterReset_tables (c : ResetCause) (ph : Phase) (st : BitVec 3) (s : State) : TablesRising (afterReset c ph st s) :=
  ⟨rfl, rfl, rfl, rfl, rfl, rfl⟩

theorem afterReset_keepsRun (c : ResetCause) (ph : Phase) (st : BitVec 3) (s : State) : KeepsRun s (afterReset c ph st s) :=
  ⟨rfl, afterReset_sound _ _ _, fun _ => afterReset_tables _ _ _ _⟩

theorem keepOpened_keepsRun (s r : State) : KeepsRun r (keepOpened s r) :=
  ⟨rfl, id, fun t => ⟨t.mos, t.schedules, t.records, t.routes, t.pdus, t.sigs⟩⟩

theorem execPowerOnReset_keepsRun (x y z : BitVec 3) (s : State) : ∃ t, execPowerOnReset x y z s = .next t ∧ KeepsRun s t :=
  ⟨_, rfl, (afterReset_keepsRun _ _ _ _).trans (fcSettle_keeps (Keeps.refl _)).keepsRun⟩

theorem execBrownOut_keepsRun (u : Supply) (x y z : BitVec 3) (s : State) : ∃ t, execBrownOut u x y z s = .next t ∧ KeepsRun s t := by
  unfold execBrownOut
  split
  · have k : OKeeps s (next { s with aon := { s.aon with supplies := s.aon.supplies &&& ~~~ (1#6 <<< supplyCode u) } }) :=
      next_keeps (keeps_mk (Keeps.refl s) rfl rfl rfl)
    obtain ⟨t, e, k⟩ := k
    exact ⟨t, e, k.keepsRun⟩
  · exact ⟨_, rfl, (((logFault_keeps 6 _ 0 0 (Keeps.refl s)).keepsRun.trans (afterReset_keepsRun _ _ _ _)).trans
      (keepOpened_keepsRun _ _)).trans (fcSettle_keeps (Keeps.refl _)).keepsRun⟩

theorem execWarmReset_keepsRun (x y z : BitVec 3) (s : State) : ∃ t, execWarmReset x y z s = .next t ∧ KeepsRun s t := by
  unfold execWarmReset
  split
  · exact ⟨_, rfl, (fcSettle_keeps (Keeps.refl _)).keepsRun⟩
  · dsimp only
    generalize hr : keepOpened s _ = r
    have h : KeepsRun s r := hr ▸ (afterReset_keepsRun _ _ _ _).trans (keepOpened_keepsRun _ _)
    have k (m n) : KeepsRun s { r with mem := m, aon := n } :=
      ⟨h.pending, h.log, fun x => have t := h.tables x; ⟨t.mos, t.schedules, t.records, t.routes, t.pdus, t.sigs⟩⟩
    refine ⟨_, rfl, KeepsRun.trans ?_ (fcSettle_keeps (Keeps.refl _)).keepsRun⟩
    split
    · exact (k _ _).trans (logReset_keeps (Keeps.refl _)).keepsRun
    · exact k _ _

end Sys2Proof.Machine
end

