-- ==== Sys2Proof/Tests/Slice0.lean ====
section
/-!
SUPPORT. Tests: for every statement with hypotheses a state and operands that meet them, an ill-formed command for each check,
and single steps whose results the spec gives.
-/

open Sys2Proof Sys2Proof.Machine

section

-- One test after another: together they ask for more memory than a check has.
set_option Elab.async false

/-- A device that has started: every function ready but the links and HOST included, the image of slot A running. -/
def upState : State :=
  { State.reset with
    aon := { State.reset.aon with ready := 0xCFFF, phase := .running, bootResult := 1, bootSlot := some .a }
    update := { State.reset.update with running := some .a } }

/-- A packet of CTX0 or another source with an opcode, tag 1 and parameters. -/
def packetFrom (src : Source) (opcode : Nat) (params : List Byte) : Packet :=
  { source := src, opcode := opcode, flags := 0, plen := params.length / 4, tag := 1, target := 0, reserved := zeros 8, params := params }

theorem witness_StepRunsTheFrontCommand : ({ State.reset with pending := [.aonStart, .imageStart] } : State).pending = .aonStart :: [.imageStart]
    ∧ State.reset.pending = [] := ⟨rfl, rfl⟩

theorem witness_EveryStepKeepsTheFaultLogSound : LogSound State.reset ∧ ∃ t, step State.reset = .next t := ⟨⟨by decide, by decide, by decide, trivial⟩, _, rfl⟩

theorem witness_EveryStepKeepsTheTablesCanonical : TablesRising State.reset ∧ ∃ t, step State.reset = .next t := ⟨⟨rfl, rfl, rfl, rfl, rfl, rfl⟩, _, rfl⟩

theorem witness_StrapsAreSampledOnlyAtResets : State.reset.aon.power ≠ .off ∧ State.reset.aon.phase ≠ .brownedOut
    ∧ ∃ t, exec .aonStart State.reset = .next t := ⟨by decide, by decide, _, rfl⟩

theorem witness_ResetValuesOfTheSpec : State.reset.linkA.state = .disabled ∧ State.reset.linkB.state = .disabled := ⟨rfl, rfl⟩

theorem witness_RepliesGoToTheirSource : State.reset.engine.pause = none := rfl

theorem witness_EventsReachAnActiveRing : State.reset.isMaster = true ∧ reachable State.reset 0 = true ∧ (State.reset.ring 0 2).active = false
    ∧ (let s := State.reset.modRing 0 2 fun r => { r with active := true }
       (s.ring 0 2).active = true ∧ (s.cq 0).evtq.length < (s.cq 0).depths.evt)
    ∧ (let s := (State.reset.modRing 0 2 fun r => { r with active := true }).modCq 0 fun q => { q with depths := depthsNone }
       (s.ring 0 2).active = true ∧ (s.cq 0).depths.evt ≤ (s.cq 0).evtq.length) := by decide

theorem witness_ResetsOfTheWholeDevice : State.reset.aon.power ≠ .off ∧ State.reset.aon.phase ≠ .brownedOut
    ∧ State.reset.isReady 0 = false ∧ upState.aon.phase ≠ .brownedOut ∧ upState.isReady 0 = true := by decide

theorem witness_StartUpCommandsComplete :
    (∃ s : State, s.aon.phase = .brownedOut) ∧ State.reset.aon.phase = .starting
    ∧ (let s : State := { State.reset with aon := { State.reset.aon with ready := 1 } }
       s.isReady (funcBit .mem) = false ∧ mayBecomeReady (supplyUp 0x3F s) .mem = true)
    ∧ (let s : State := { State.reset with aon := { State.reset.aon with ready := 0x8001, supplies := 0x3F } }
       s.isReady 15 = true ∧ s.aon.power = .active ∧ pllLost s .core = false ∧ islandPowered s .core = true ∧ s.aon.bootResult = 0 ∧ s.aon.bootSlot = none)
    ∧ (let s : State := { State.reset with aon := { State.reset.aon with ready := 0x8001, bootSlot := some .a, supplies := 0x3F } }
       s.aon.bootSlot = some .a ∧ s.isReady 15 = true ∧ s.aon.power = .active ∧ pllLost s .core = false
       ∧ islandPowered s .core = true ∧ s.aon.bootResult = 0) :=
  ⟨⟨{ State.reset with aon := { State.reset.aon with phase := .brownedOut } }, rfl⟩, by decide⟩

theorem witness_HostResetsComplete : State.reset.aon.power = .active ∧ upState.isReady 1 = true
    ∧ (∃ s : State, s.aon.power = .retain ∧ s.aon.transition = none) :=
  ⟨rfl, by decide, { State.reset with aon := { State.reset.aon with power := .retain } }, rfl, rfl⟩

theorem witness_ClockLossesComplete :
    (upState.isReady 0 = true ∧ pllLost upState .core = false ∧ pllOff upState.aon.power .core = false)
    ∧ (let s : State := { upState with aon := { upState.aon with lostPlls := [{ pll := .core, bits := 12 }] } }
       s.aon.lostPlls.find? (fun x => x.pll == Pll.core) = some { pll := .core, bits := 12 })
    ∧ upState.aon.refLost = false ∧ upState.aon.power = .active := by decide

theorem witness_EngineRestartsComplete : upState.isReady 2 = true ∧ upState.engine.pause = none ∧ upState.aon.proof = false
    ∧ (∃ s : State, s.engine.pause = some .restart) :=
  ⟨by decide, rfl, rfl, { State.reset with engine := { State.reset.engine with pause := some .restart } }, rfl⟩

theorem witness_PowerCommandsComplete :
    Accepts specSetPowerState (packetFrom (.ctx 0) 0x0104 (zeros 4)) upState
    ∧ Accepts specSetPowerState (packetFrom .sp 0x0104 [1, 0, 0, 0]) upState
    ∧ Accepts specSetWake (packetFrom (.ctx 0) 0x0105 (zeros 12)) upState
    ∧ upState.aon.power ≠ .retain ∧ upState.aon.transition = none ∧ enableHeld (taken (packetFrom .sp 0x0104 [1, 0, 0, 0]) upState) = false ∧ upState.update.session = none
    ∧ upState.aon.proof = false
    ∧ (∃ s : State, wakeArmed s = true ∧ s.aon.armedMask.getLsbD 3 = true ∧ s.aon.wake.getLsbD 3 = false)
    ∧ (∃ (s : State) (t : Transition), s.aon.transition = some t ∧ t.target = .standby
        ∧ (s.chans.toList.any fun c => c.state == .stopping) = false)
    ∧ (∃ (s : State) (t : Transition), s.aon.transition = some t ∧ (t.target = .retain ∨ t.target = .off)
        ∧ (s.chans.toList.any fun c => c.state == .stopping) = false ∧ (s.load.loads.toList.any fun l => l.state == .stopping) = false)
    ∧ (∃ (s : State) (t : Transition), s.aon.transition = some t ∧ t.target = .active)
    ∧ (let p := packetFrom .sp 0x0104 (zeros 4)
       p.source = .sp ∧ zeroAt p.params 0 4 = true ∧ headerFault specSetPowerState p = none) :=
  ⟨by constructor <;> decide +kernel, by constructor <;> decide +kernel, by constructor <;> decide +kernel, by decide, rfl, by decide, rfl, rfl,
    ⟨{ upState with aon := { upState.aon with power := .standby, armedMask := 8 } }, by decide⟩,
    ⟨{ upState with aon := { upState.aon with transition := some { target := .standby, from_ := .active, command := none } } }, _, rfl,
      rfl, by decide⟩,
    ⟨{ upState with aon := { upState.aon with transition := some { target := .retain, from_ := .active, command := none } } }, _, rfl,
      .inl rfl, by decide, by decide⟩,
    ⟨{ upState with aon := { upState.aon with power := .standby, transition := some { target := .active, from_ := .standby, command := none } } },
      _, rfl, rfl⟩, by decide⟩

theorem witness_DoorbellsFollowCredit :
    (let s := upState.modRing 0 4 fun r => { r with active := true, prod := 0xFFFFFFF0, limit := 0x10 }
     ringsOpen s 0 = true ∧ hostProduced 4 = true ∧ (s.ring 0 4).active = true ∧ (8 : Word) - (s.ring 0 4).prod ≤ (s.ring 0 4).limit - (s.ring 0 4).prod
       ∧ ¬ (0x14 : Word) - (s.ring 0 4).prod ≤ (s.ring 0 4).limit - (s.ring 0 4).prod)
    ∧ (let s := upState.modRing 0 2 fun r => { r with active := true, prod := 2 }
       ringsOpen s 0 = true ∧ hostProduced 2 = false ∧ (s.ring 0 2).active = true ∧ (2 : Word) - (s.ring 0 2).cons ≤ (s.ring 0 2).prod - (s.ring 0 2).cons
         ∧ ¬ (3 : Word) - (s.ring 0 2).cons ≤ (s.ring 0 2).prod - (s.ring 0 2).cons)
    ∧ (upState.ring 0 4).active = false ∧ (upState.ring 0 2).active = false := by decide

theorem witness_RingCommandsComplete :
    (let s := upState.modRing 0 1 fun r => { r with active := true }
     let h := upState.modRing 0 1 fun r => { r with stopping := true }
     ringsOpen s 0 = true ∧ ((1 : Word) ^^^ (s.ring 0 1).ctrl) &&& ctrlMask &&& ~~~ctrlLive = 0 ∧ (s.ring 0 1).active = true
       ∧ ringsOpen h 0 = true ∧ ((1 : Word) ^^^ (h.ring 0 1).ctrl) &&& ctrlMask &&& ~~~ctrlLive = 0 ∧ (h.ring 0 1).stopping = true
       ∧ (h.ring 0 1).held = false ∧ (h.ring 0 1).active = false
       ∧ ringBusy (h.ring 0 1) = true ∧ ((0x101 : Word) ^^^ (h.ring 0 1).ctrl) &&& ctrlMask &&& ~~~ctrlLive ≠ 0)
    ∧ (ringsOpen upState 0 = true ∧ (1 : Word).getLsbD 0 = true ∧ ringBusy (upState.ring 0 1) = false ∧ (upState.ring 0 1).dmaErr = false
      ∧ enableFault upState 0 3 ≠ 0)
    ∧ (let s := upState.modRing 0 1 fun r => { r with active := true, ctrl := 1 }
       ringsOpen s 0 = true ∧ (s.ring 0 1).active = true ∧ (s.ring 0 1).held = false
         ∧ ((0 : Word) ^^^ (s.ring 0 1).ctrl) &&& ctrlMask &&& ~~~ctrlLive = 0)
    ∧ (let s := upState.modRing 0 1 fun r => { r with stopping := true }
       s.isReady 1 = true ∧ (s.ring 0 1).stopping = true ∧ bathDone s 0 1 = true ∧ (s.ring 0 1).held = false)
    ∧ (let s := upState.modRing 0 0 fun r => { r with active := true, prod := 1 }
       s.isReady 1 = true ∧ ringUp (s.ring 0 0) = true ∧ hostProduced 0 = true ∧ (s.ring 0 0).prod ≠ (s.ring 0 0).fetched)
    ∧ (let s := upState.modRing 0 1 fun r => { r with dmaErr := true }
       ringsOpen s 0 = true ∧ (s.ring 0 1).dmaErr = true) := by decide

theorem witness_RegisterAccessesComplete : barOpen upState 0 = true ∧ writeOk 0x208 [3] true = true ∧ winReadOk 0x8000 16 = true ∧ regReadOk 0x110 2 = true ∧ regReadOk 0x20 1 = true ∧ upState.isReady 0 = true
    ∧ (let s := upState.modRing 0 1 fun r => { r with gathered := true, lastMsg := some 0, ctrl := 0x800 }
       (s.ring 0 1).gathered = true ∧ (s.ring 0 1).lastMsg = some 0 ∧ s.isReady 1 = true
         ∧ ringIrqEn ((reachClk (0 + ringHoldoff (s.ring 0 1) * 1000) s).ring 0 1) = true) := by decide

/-- A device where CTX0's window shows a frame of object 1. -/
def windowState : State :=
  { (upState.modFn 0 fun n => { n with win := { n.win with mo := 1, selected := true } }) with
    mos := [(1, { moNew 0 false 1 8 1 0 with en := true, full := true })] }

theorem witness_WindowCommandsComplete : barOpen windowState 0 = true ∧ winReadOk 0x8000 1 = true ∧ covers 0x8000 1 0 = true
    ∧ winValid windowState 0 = true ∧ covers 0x8000 1 (winLast windowState 0) = false ∧ (windowState.fn 0).win.locked = false ∧ winValid upState 0 = false
    ∧ winBad windowState 0 0x8000 1 none = none
    ∧ winReadOk 0x801C 1 = true ∧ covers 0x801C 1 0 = false ∧ covers 0x801C 1 (winLast windowState 0) = true
    ∧ ((windowState.modFn 0 fun n => { n with win := { n.win with locked := true } }).fn 0).win.locked = true := by decide

theorem witness_RingTrafficCompletes :
    (let s := (upState.modRing 0 1 fun r => { r with active := true }).modCq 0 fun q => { q with rplq := [⟨.ctx 0, 0x0103, 1, 0, 0, 0, []⟩] }
     dmaOpen s 0 = true ∧ (s.cq 0).rplq = ⟨.ctx 0, 0x0103, 1, 0, 0, 0, []⟩ :: [] ∧ (s.ring 0 1).active = true ∧ ringHasRoom (s.ring 0 1) = true)
    ∧ (let s := (upState.modRing 0 2 fun r => { r with active := true }).modCq 0 fun q => { q with evtq := [⟨0x0101, 0, 1, []⟩] }
       dmaOpen s 0 = true ∧ (s.cq 0).evtq = ⟨0x0101, 0, 1, []⟩ :: [] ∧ (s.ring 0 2).active = true ∧ ringHasRoom (s.ring 0 2) = true)
    ∧ (let s := (upState.modRing 0 20 fun r => { r with active := true }).modCq 0 fun q => { q with rxq := [⟨0, recZero, []⟩] }
       dmaOpen s 0 = true ∧ (s.cq 0).rxq = ⟨0, recZero, []⟩ :: [] ∧ (s.ring 0 20).active = true ∧ ringHasRoom (s.ring 0 20) = true)
    ∧ (let s := (upState.modRing 0 20 fun r => { r with active := true, prod := 64 }).modCq 0 fun q => { q with rxq := [⟨0, recZero, []⟩] }
       dmaOpen s 0 = true ∧ (s.ring 0 20).active = true ∧ ringHasRoom (s.ring 0 20) = false)
    ∧ reachable upState 0 = true ∧ (upState.ring 0 20).active = false
    ∧ (let s := upState.modRing 0 0 fun r => { r with active := true, prod := 1 }
       s.isReady 1 = true ∧ (s.ctx 0).state = .present ∧ (s.ring 0 0).active = true ∧ (s.ring 0 0).prod ≠ (s.ring 0 0).fetched ∧ s.isReady 2 = true)
    ∧ (let s := upState.modRing 0 4 fun r => { r with active := true, prod := 1 }
       s.isReady 3 = true ∧ (s.ring 0 4).active = true ∧ (s.ring 0 4).txLost = [] ∧ (s.ring 0 4).prod ≠ (s.ring 0 4).fetched)
    ∧ sourceLive upState .sp = true ∧ (0x0110 : Nat) ∉ definedOpcodes ∧ waitingOf upState .sp = []
    ∧ upState.engine.pause = none ∧ nextSource (enqueue (packetFrom .sp 0x0110 []) upState) = some .sp := by decide

theorem witness_SafetyPortCommandsComplete : upState.isReady 0 = true ∧ viewSpan 0x10 1 = true ∧ (zeros 16).length = 16 ∧ (0 : Word).toNat ≠ crc32 (requestBytes 0x02 0 1 (List.flatMap (fun v => le 4 v.toNat) [(0 : Word)])) ∧ viewSpan 0x50 1 = false
    ∧ (0 : Word).toNat ≠ crc32 (requestBytes 0x0B 0 1 []) ∧ (0 : Word).toNat ≠ crc32 (requestBytes 0x3C 16 0 (zeros 16))
    ∧ (0 : Word).toNat ≠ crc32 (requestBytes 0x3D 0 0 []) ∧ 0 < upState.sp.credits
    ∧ upState.sp.replies = []
    ∧ ({ upState with sp := { upState.sp with replies := [⟨.sp, 0x0103, 1, 0, 0, 0, []⟩] } } : State).sp.replies = ⟨.sp, 0x0103, 1, 0, 0, 0, []⟩ :: []
    ∧ ({ upState with sp := { upState.sp with credits := 0 } } : State).sp.credits = 0 := by decide +kernel

/-- A device with guest CTX1 present. -/
def guestState : State :=
  { (upState.modCtx 1 fun x => { x with state := .present }) with host := { upState.host with vfEnable := true, numVfs := 1 } }

theorem witness_ContextEventsComplete : upState.isReady 1 = true ∧ fnPresent guestState 1 = true ∧ (guestState.ctx 1).state = .present
    ∧ (let s := upState.modFn 1 fun n => { n with flr := true }; (s.fn 1).flr = true ∧ (s.ctx 1).state = .absent)
    ∧ Accepts specQuiesceContext (packetFrom (.ctx 0) 0x0205 [1, 0, 0, 0]) guestState
    ∧ (let s := upState.modCtx 1 fun x => { x with state := .departing }
       (s.ctx 1).state = .departing ∧ departureWaits s 1 = false)
    ∧ (let s := (upState.modCtx 1 fun x => { x with state := .departing }).modFn 1 fun n => { n with flr := true }
       (s.fn 1).flr = true ∧ (s.ctx 1).state = .departing) :=
  ⟨by decide, by decide, by decide, by decide, by constructor <;> decide +kernel, by decide, by decide⟩

set_option maxRecDepth 20000 in
theorem witness_ContextSettingsComplete :
    Accepts specGetContext (packetFrom (.ctx 0) 0x0201 (zeros 4)) upState
    ∧ Accepts specSetContextQuota (packetFrom (.ctx 0) 0x0202 [1, 1, 0, 0, 0, 0, 0, 0]) upState
    ∧ useOf (taken (packetFrom (.ctx 0) 0x0202 [1, 1, 0, 0, 0, 0, 0, 0]) upState) 1 1 ≤ 0
    ∧ quotaOver (taken (packetFrom (.ctx 0) 0x0202 [1, 1, 0, 0, 0, 0, 0, 0]) upState) 1 1 0 = false
    ∧ Accepts specSetContextChannels (packetFrom (.ctx 0) 0x0203 ([1, 0, 0, 0] ++ zeros 64)) upState
    ∧ mapFault upState (upState.modCtx 1 fun x => { x with map := mapOf (zeros 64) }) 1 = none
    ∧ Accepts specSetContextRights (packetFrom (.ctx 0) 0x0204 ([1, 3, 0, 0] ++ zeros 12)) upState
    ∧ rightsUsed (taken (packetFrom (.ctx 0) 0x0204 ([1, 3, 0, 0] ++ zeros 12)) upState) 1 = []
    ∧ critUsed (taken (packetFrom (.ctx 0) 0x0204 ([1, 3, 0, 0] ++ zeros 12)) upState) 1 3 = false :=
  ⟨by constructor <;> decide +kernel, by constructor <;> decide +kernel, by decide, by decide, by constructor <;> decide +kernel, by decide,
    by constructor <;> decide +kernel, by decide, by decide⟩

set_option maxRecDepth 20000 in
theorem witness_ContextSettingsComplete_pages : Accepts specSetContextQuota (packetFrom (.ctx 0) 0x0202 [1, 2, 0, 0, 0, 0, 0, 0]) upState :=
  by constructor <;> decide +kernel

theorem witness_ContextSettingsComplete_free : pagesShort (taken (packetFrom (.ctx 0) 0x0202 [1, 2, 0, 0, 0, 0, 0, 0]) upState) 1 0 = false
    ∧ quotaOver (taken (packetFrom (.ctx 0) 0x0202 [1, 2, 0, 0, 0, 0, 0, 0]) upState) 1 2 0 = false
    ∧ heldDecls (taken (packetFrom (.ctx 0) 0x0203 ([1, 0, 0, 0] ++ zeros 64)) upState) = []
    ∧ heldNeedsRights (taken (packetFrom (.ctx 0) 0x0204 ([1, 3, 0, 0] ++ zeros 12)) upState) 1 3 0 = false := by decide +kernel

theorem witness_SystemReadsAndClearsComplete :
    Accepts specIdentify (packetFrom (.ctx 0) 0x0101 []) upState ∧ Accepts specGetReadiness (packetFrom .sp 0x0103 []) upState
    ∧ Accepts specClearCounters (packetFrom (.ctx 0) 0x0106 (zeros 4)) upState :=
  ⟨by constructor <;> decide +kernel, by constructor <;> decide +kernel, by constructor <;> decide +kernel⟩

theorem witness_LostSheetIdsAreRefused : let p := packetFrom (.ctx 0) 0x0108 (zeros 8)
    Accepts specReadContactSheet p upState ∧ zeroAt p.params 2 2 = true ∧ fieldAt p.params 4 4 % 4 = 0
    ∧ (upState.bank (fieldAt p.params 0 2 % 2)).holder ≠ some p.source := ⟨by constructor <;> decide +kernel, by decide, by decide, by decide⟩

/-- A state whose bank 0 holds a sheet of the safety port. -/
def sheetState : State := upState.modBank 0 fun b => { b with holder := some .sp, sheet := zeros 8 }

theorem witness_LostSheetIdsAreRefused_take : let p := packetFrom .sp 0x0108 ([2, 0, 0, 0] ++ zeros 4)
    Accepts specReadContactSheet p sheetState ∧ zeroAt p.params 2 2 = true ∧ fieldAt p.params 4 4 % 4 = 0
    ∧ (sheetState.bank (fieldAt p.params 0 2 % 2)).takes ≠ fieldAt p.params 0 2 / 2 :=
  ⟨by constructor <;> decide +kernel, by decide, by decide, by decide⟩

theorem witness_FaultLogAndSheetsComplete :
    Accepts specReadFaultLog (packetFrom .sp 0x0107 (zeros 4)) upState
    ∧ Accepts specTakeContactSheet (packetFrom .sp 0x0102 (zeros 12)) upState ∧ (upState.bank 0).holder = none
    ∧ (let p := packetFrom .sp 0x0102 (le 8 (upState.now + 100000) ++ zeros 4)
       Accepts specTakeContactSheet p upState ∧ fieldAt p.params 0 8 = upState.now + 100000)
    ∧ (let s := upState.modBank 1 fun b => { b with armed := some (packetFrom .sp 0x0102 [], 5) }
       (s.bank 1).armed = some (packetFrom .sp 0x0102 [], 5))
    ∧ Accepts specReadContactSheet (packetFrom .sp 0x0108 (zeros 8)) sheetState ∧ (sheetState.bank 0).holder = some .sp
    ∧ (sheetState.bank 0).armed = none ∧ (sheetState.bank 0).takes = 0 ∧ (sheetState.bank 0).sheet.length = 8
    ∧ (sheetState.bank 0).holder.isSome = true ∧ sheetState.engine.late = [] :=
  ⟨by constructor <;> decide +kernel, by constructor <;> decide +kernel, rfl, ⟨by constructor <;> decide +kernel, by decide⟩, rfl, by constructor <;> decide +kernel, rfl, rfl,
    rfl, rfl, rfl, rfl⟩

theorem witness_ScrubPassesComplete : (∀ r : Region, upState.isReady (regionOwner r) = true ∧ (regionSpan r).1 ≤ (regionSpan r).1)
    ∧ (mget ({ upState with sigs := [(0, { body := .const, errDis := false, value := 0, stamp := 0 })] } : State).sigs (0 / 16)).isSome = true :=
  ⟨fun r => by cases r <;> decide, rfl⟩

theorem witness_StagingJoinsTheLatentSet : let p := packetFrom (.ctx 0) 0x0C01 []
    let t := upState.modCtx (stageCtx p) fun c => { c with latent := joinLatent c.latent [.bind 0 none] }
    latentUse t (stageCtx p) ≤ quotaOf upState (stageCtx p) 6 ∧ total ((List.range 64).map (latentUse t)) ≤ 16384 := by decide

/-- A state in which CTX0 has a development armed. -/
def armedState (when_ instant : Nat) : State :=
  upState.modCtx 0 fun c => { c with armed := some { when_ := when_, instant := instant, changes := [], seq := 1, channels := [], limitAt := 0, late := [], order := 1 } }

theorem witness_DevelopmentsComplete_develop :
    (let p := packetFrom (.ctx 0) 0x0301 (zeros 12)
     Accepts specDevelop p upState ∧ developCheck (taken p upState) 0 = none ∧ ((taken p upState).ctx 0).armed = none)
    ∧ (let p := packetFrom (.ctx 0) 0x0301 ([1, 0, 0, 0] ++ le 8 (upState.now + 70000))
       Accepts specDevelop p upState ∧ checkedLate (taken p upState) 0 (fieldAt p.params 4 8) = false)
    ∧ Accepts specDevelop (packetFrom (.ctx 0) 0x0301 ([2, 5, 0, 0] ++ zeros 8)) upState
    ∧ (let s := upState.modCtx 0 fun c => { c with latent := [.bitTiming 0 2 { brp := 1, tseg1 := 1, tseg2 := 1, sjw := 1, tdc := 0, tdco := 0, tdcf := 0 }] }
       Accepts specDevelop (packetFrom (.ctx 0) 0x0301 (zeros 12)) s ∧ (developCheck (taken (packetFrom (.ctx 0) 0x0301 (zeros 12)) s) 0).isSome = true)
    ∧ ((taken (packetFrom (.ctx 0) 0x0301 (zeros 12)) (armedState 1 9)).ctx 0).armed.isSome = true :=
  ⟨⟨by constructor <;> decide +kernel, by decide, by decide⟩, ⟨by constructor <;> decide +kernel, by decide⟩, by constructor <;> decide +kernel,
    ⟨by constructor <;> decide +kernel, by decide⟩, by decide⟩

theorem witness_DevelopmentsComplete_others :
    Accepts specDiscardLatent (packetFrom (.ctx 0) 0x0302 []) upState ∧ Accepts specGetLatent (packetFrom (.ctx 0) 0x0303 (zeros 4)) upState
    ∧ Accepts specCancelDevelop (packetFrom (.ctx 0) 0x0304 []) (armedState 1 9)
    ∧ (∃ a, ((armedState 1 9).ctx 0).armed = some a ∧ a.when_ ≠ 2 ∧ (armedState 1 9).now < a.instant)
    ∧ (∃ a, ((armedState 1 0).ctx 0).armed = some a ∧ a.when_ ≠ 2 ∧ a.instant ≤ (armedState 1 0).now)
    ∧ (∃ a, ((armedState 2 0).ctx 0).armed = some a ∧ a.when_ = 2)
    ∧ (let s := upState.modCtx 0 fun c => { c with switched := some 7 }
       (s.ctx 0).armed = none ∧ (s.ctx 0).switched = some 7)
    ∧ ((upState.ctx 0).armed = none ∧ (upState.ctx 0).switched = none)
    ∧ ((armedOrder (armedState 1 9)).any fun a => a.2.when_ == 1 && a.2.instant == 9) = true :=
  ⟨by constructor <;> decide +kernel, by constructor <;> decide +kernel, by constructor <;> decide +kernel, ⟨_, rfl, by decide, by decide⟩, ⟨_, rfl, by decide, by decide⟩,
    ⟨_, rfl, rfl⟩, ⟨rfl, rfl⟩, ⟨rfl, rfl⟩, by decide⟩

theorem witness_ChannelSettingsAreStaged :
    (let p := packetFrom (.ctx 0) 0x0401 [3, 0, 1, 0, 0, 0, 0, 0]
     Accepts specSetChannelMode p upState ∧ srcChan upState p.source 3 = some 3 ∧ upState.bundle = none ∧ (upState.chan 3).state = .disabled
       ∧ (∃ t, Stages p [.chanMode 3 0 1 0] [] upState t))
    ∧ (let p := packetFrom (.ctx 0) 0x0402 [3, 0, 4, 0, 63, 0, 16, 16, 0, 0, 0, 0]
       let x : BitTiming := { brp := 4, tseg1 := 63, tseg2 := 16, sjw := 16, tdc := 0, tdco := 0, tdcf := 0 }
       Accepts specSetBitTiming p upState ∧ (bitClocks x).bit = 320
         ∧ timingFault (setPhase 0 x (devSettings ((stagedFor p (taken p upState)).chan 3))) = none
         ∧ (∃ t, Stages p [.bitTiming 3 0 x] [1] upState t))
    ∧ (let p := packetFrom (.ctx 0) 0x0408 (3 :: zeros 7)
       let x : Transceiver := { stbn := 0, settle := 40, fast := false, pwms := 3, pwml := 9, pwmo := 0 }
       Accepts specSetTransceiver p upState
         ∧ timingFault { devSettings ((stagedFor p (taken p upState)).chan 3) with xcvr := x } = none
         ∧ (∃ t, Stages p [.xcvr 3 x] [] upState t))
    ∧ Accepts specGetChannelStatus (packetFrom (.ctx 0) 0x0407 [63, 0, 0, 0]) upState ∧ srcChan upState (.ctx 0) 63 = some 63 :=
  ⟨⟨by constructor <;> decide +kernel, by decide, rfl, rfl, ⟨_, .inr rfl, by rfl⟩⟩, ⟨by constructor <;> decide +kernel, by decide, by decide, ⟨_, .inr rfl, by rfl⟩⟩,
    ⟨by constructor <;> decide +kernel, by decide, ⟨_, .inr rfl, by rfl⟩⟩, by constructor <;> decide +kernel, by decide⟩

/-- A running state whose channel 0 is changed by `f`. -/
def chanState (f : Chan → Chan) : State :=
  upState.modChan 0 fun c => f { c with cur := { c.cur with nominal := some { brp := 4, tseg1 := 63, tseg2 := 16, sjw := 16, tdc := 0, tdco := 0, tdcf := 0 } } }

/-- The same with a transmit object 1 of CTX0 on the channel, changed by `g`. -/
def moState (f : Chan → Chan) (g : Mo → Mo) : State :=
  { chanState f with mos := [(1, g { moNew 0 true 1 8 1 0 with en := true, bound := true })] }

theorem witness_ChannelControlCompletes_enable : let p := packetFrom (.ctx 0) 0x0403 [0, 0, 0, 0]
    Accepts specEnableChannel p (chanState id) ∧ srcChan (chanState id) p.source 0 = some 0 ∧ powerBlocks (taken p (chanState id)) = false
    ∧ timingsReady (devSettings ((taken p (chanState id)).chan 0)) = true ∧ ((taken p (chanState id)).chan 0).stop = none
    ∧ ((taken p (chanState id)).chan 0).state = .disabled ∧ ((taken p (chanState id)).chan 0).settleWait = false
    ∧ (let s := chanState fun c => { c with state := .running }
       Accepts specEnableChannel p s ∧ powerBlocks (taken p s) = false ∧ timingsReady (devSettings ((taken p s).chan 0)) = true ∧ ((taken p s).chan 0).stop = none)
    ∧ (let s := chanState fun c => { c with state := .stopping, stop := some (.disable .sp) }
       Accepts specEnableChannel p s ∧ powerBlocks (taken p s) = false ∧ timingsReady (devSettings ((taken p s).chan 0)) = true ∧ ((taken p s).chan 0).stop.isSome = true) :=
  ⟨by constructor <;> decide +kernel, by decide, by decide, by decide, by decide, by decide, by decide,
    ⟨by constructor <;> decide +kernel, by decide, by decide, by decide⟩, by constructor <;> decide +kernel, by decide, by decide, by decide⟩

theorem witness_ChannelControlCompletes_others :
    (let s := chanState fun c => { c with state := .running }
     Accepts specDisableChannel (packetFrom (.ctx 0) 0x0404 [0, 0, 0, 0]) s ∧ (s.chan 0).state = .running)
    ∧ Accepts specDisableChannel (packetFrom (.ctx 0) 0x0404 [0, 0, 0, 0]) upState
    ∧ (let s := moState id id
       Accepts specCancelTx (packetFrom (.ctx 0) 0x0405 [1, 0, 0, 0]) s ∧ (∃ o, s.mo? 1 = some o ∧ o.tx = true ∧ o.full = false))
    ∧ (let s := moState id fun o => { o with full := true }
       Accepts specCancelTx (packetFrom (.ctx 0) 0x0405 [1, 0, 0, 0]) s ∧ (∃ o, s.mo? 1 = some o ∧ o.tx = true ∧ o.full = true ∧ o.latched = false))
    ∧ Accepts specRecoverBusOff (packetFrom (.ctx 0) 0x0406 [0, 1, 0, 0, 0, 0, 0, 0]) upState
    ∧ (let s := chanState fun c => { c with state := .busOff }
       Accepts specRecoverBusOff (packetFrom (.ctx 0) 0x0406 (zeros 8)) s ∧ (s.chan 0).state = .busOff ∧ (s.chan 0).auto = true)
    ∧ (let s := chanState fun c => { c with settleWait := true }
       (s.chan 0).settleWait = true ∧ s.isReady (bankBit 0) = true ∧ powerBlocks s = false)
    ∧ (let s := chanState fun c => { c with state := .stopping }
       (s.chan 0).state = .stopping ∧ quiet (s.chan 0) = true)
    ∧ ((chanState fun c => { c with state := .integrating }).chan 0).state = .integrating
    ∧ ((chanState fun c => { c with state := .recovering, progress := 127 }).chan 0).progress = 127 :=
  ⟨⟨by constructor <;> decide +kernel, by decide⟩, by constructor <;> decide +kernel, ⟨by constructor <;> decide +kernel, _, rfl, rfl, rfl⟩,
    ⟨by constructor <;> decide +kernel, _, rfl, rfl, rfl, rfl⟩, by constructor <;> decide +kernel, ⟨by constructor <;> decide +kernel, by decide, by decide⟩, by decide, by decide, by decide, by decide⟩

theorem witness_FramesOnTheBusComplete :
    (let s := moState (fun c => { c with state := .running }) fun o => { o with full := true, inHeap := true }
     (s.chan 0).state = .running ∧ (s.chan 0).latched = none ∧ (candidate s 0).isSome = true
       ∧ sendsFrames ((endErrorFrame 0 s).chan 0).mode = true ∧ (candidate (endErrorFrame 0 s) 0).isSome = true)
    ∧ (let s := frameStarts 0 (moState (fun c => { c with state := .running, latched := some 1 }) fun o => { o with full := true, latched := true })
       onBus (s.chan 0) = true ∧ (s.chan 0).latched.isSome = true ∧ wonNow (s.chan 0) = false ∧ sendsFrames (s.chan 0).mode = true)
    ∧ (let s := chanState fun c => { c with state := .running, cur := { c.cur with formats := 1 } }
       sendingNow (s.chan 0) = false ∧ onBus (s.chan 0) = true ∧ (s.chan 0).rx = none ∧ ownReception (s.chan 0) = false
         ∧ foreignReception ((endErrorFrame 0 s).chan 0) = true ∧ fastHidden (s.chan 0) recZero.hdr = false
         ∧ (s.chan 0).cur.formats.testBit (fmtCode recZero.hdr.fmt) = true)
    ∧ (let s := chanState fun c => { c with state := .running, bus := .receiving, rx := some (RxHeader.mk recZero.hdr 5 false 5 [] [] 0) }
       (∃ r, (s.chan 0).rx = some r ∧ lenOk r.hdr.fmt (rxLen r.hdr 8) = true) ∧ (s.chan 0).bus = .receiving ∧ ownReception (s.chan 0) = false)
    ∧ (let s := moState (fun c => { c with state := .running, mode := 3, latched := some 1, bus := .sending true, rx := some (RxHeader.mk recZero.hdr 5 false 5 [] [] 0) })
         fun o => { o with full := true }
       onBus (s.chan 0) = true ∧ ownReception (s.chan 0) = true ∧ (s.chan 0).latched = some 1
         ∧ (∃ o, s.mo? 1 = some o ∧ lenOk recZero.hdr.fmt (frontOf o).record.len = true))
    ∧ (let s := moState (fun c => { c with state := .running, latched := some 1, bus := .sending true, stretch := true }) fun o => { o with full := true }
       onBus (s.chan 0) = true ∧ wonNow (s.chan 0) = true ∧ (s.chan 0).latched = some 1 ∧ sendingNow (s.chan 0) = true ∧ (s.chan 0).stretch = true
         ∧ (measuredTdcf (s.chan 0) s).isSome = false)
    ∧ (let s := chanState fun c => { c with chq := [{ frame := { hdr := recZero.hdr, len := 0, data := [], stamp := 1 }, dests := [] }] }
       (s.chan 0).chq ≠ [] ∧ s.isReady 3 = true)
    ∧ (let s := { upState with fq := { upState.fq with rtq := tmod upState.fq.rtq 0 fun _ => [{ mo := 1, first := 0, path := 2, origin := 0, data := [] }] } }
       tget s.fq.rtq 0 [] = [{ mo := 1, first := 0, path := 2, origin := 0, data := [] }] ∧ s.isReady 3 = true)
    ∧ (let s := chanState fun c => { c with state := .running, bus := .intermission }
       onBus (s.chan 0) = true ∧ (s.chan 0).bus = .intermission)
    ∧ (let a : Armed := { when_ := 2, instant := 0, changes := [.chanMode 0 0 1 0], seq := 1, channels := [0], limitAt := 0, late := [], order := 1 }
       let s := (chanState fun c => { c with state := .running, bus := .receiving }).modCtx 0 fun c => { c with armed := some a }
       let q := (chanState id).modCtx 0 fun c => { c with armed := some a }
       (s.ctx 0).armed = some a ∧ a.when_ = 2 ∧ a.channels.contains 0 = true ∧ (a.late.any fun n => n % 64 == 0) = false
         ∧ busIdleNow (reachClk a.limitAt s) 0 = false ∧ (q.ctx 0).armed = some a ∧ busIdleNow (reachClk a.limitAt q) 0 = true) := by
  refine ⟨by decide, by decide, by decide, ⟨⟨_, rfl, by decide⟩, by decide, by decide⟩, ⟨by decide, by decide, by decide, _, rfl, by decide⟩, by decide,
    by decide, by decide, by decide, by decide⟩

theorem witness_BusErrorsFollowTheTable :
    (let d := startForError 0 .data [] (driveForError 0 .data (frameStarts 0 (chanState fun c => { c with state := .running, bus := .receiving })))
     errorFits .stuff .data false .detected (d.chan 0) d = true ∧ (d.chan 0).held = none ∧ countsErrors (d.chan 0).mode = true
       ∧ receivedBefore (d.chan 0) .stuff .data false = false ∧ (d.chan 0).state = .running)
    ∧ (let d := startForError 0 .eof [] (driveForError 0 .eof (frameStarts 0 (chanState fun c =>
         { c with state := .running, bus := .receiving, recErr := 130, rx := some (RxHeader.mk recZero.hdr 5 false 5 [] [] 0) })))
       errorFits .form .eof false .detected (d.chan 0) d = true ∧ (d.chan 0).held = none ∧ receivedBefore (d.chan 0) .form .eof false = true)
    ∧ (let d := startForError 0 .crc [] (driveForError 0 .crc (frameStarts 0 (chanState fun c => { c with state := .running, bus := .receiving, mode := 2 })))
       errorFits .crc .crc false .detected (d.chan 0) d = true ∧ countsErrors (d.chan 0).mode = false)
    ∧ (let d := startForError 0 .errOvl [] (driveForError 0 .errOvl (chanState fun c => { c with state := .running, bus := .errorFrame, wasTx := true }))
       errorFits .none .errOvl false .dominantRun (d.chan 0) d = true ∧ asTransmitter (d.chan 0) = true)
    ∧ (let s := chanState fun c => { c with state := .running, mode := 4 }
       let d := startForError 0 .delimAck [] (driveForError 0 .delimAck (frameStarts 0 s))
       (d.chan 0).mode = 4 ∧ ((frameStarts 0 s).chan 0).state = .running ∧ ((frameStarts 0 s).chan 0).bus ≠ .integration
         ∧ onBus (s.chan 0) = true ∧ (s.chan 0).mode ≠ 3 ∧ sendingNow (s.chan 0) = false)
    ∧ ((frameStarts 0 (chanState fun c => { c with state := .integrating })).chan 0).state = .integrating
    ∧ (let u := endErrorFrame 0 (frameStarts 0 (chanState fun c => { c with state := .running, mode := 1, cur := { c.cur with xcvr := { c.cur.xcvr with fast := true } } }))
       onBus (u.chan 0) = true ∧ (u.chan 0).mode = 1 ∧ (u.chan 0).cur.xcvr.fast = true ∧ (u.chan 0).bus ≠ .integration)
    ∧ (let u := endErrorFrame 0 (frameStarts 0 (chanState fun c => { c with state := .running, cur := { c.cur with options := 1 } }))
       (u.chan 0).state = .running ∧ (u.chan 0).cur.options.testBit 0 = true ∧ (u.chan 0).bus ≠ .integration ∧ (u.chan 0).mode ≠ 3
         ∧ sendingNow (u.chan 0) = false)
    ∧ ({ upState with film := { upState.film with frozen := true } } : State).film.frozen = true := by
  refine ⟨by decide, by decide, by decide, by decide, by decide, by decide, by decide, by decide, rfl⟩

set_option maxRecDepth 20000 in
theorem witness_MessageObjectsComplete :
    (let p := packetFrom (.ctx 0) 0x0501 ([0, 0x80, 1, 1, 8, 0, 0, 0])
     Accepts specAllocMo p upState ∧ fmtsOk true 1 = true ∧ txMaxlenOk 1 8 = true ∧ objectUse upState 0 + 1 ≤ quotaOf upState 0 1
       ∧ cellUse upState 0 + 2 * bufCells 8 ≤ quotaOf upState 0 2 ∧ moPick upState true 0 = some 0 ∧ placeRun upState.pool 0 (2 * bufCells 8) (usedRuns upState) = some 0
       ∧ (∃ t, Stages p [.alloc 0 true 1 8 (bufCells 8) 0] [] upState t))
    ∧ (let s := moState id id
       let p := packetFrom (.ctx 0) 0x0502 ([1, 0, 0, 1] ++ zeros 8)
       Accepts specConfigMo p s ∧ (∃ o, (stagedFor p (taken p s)).mo? 1 = some o ∧ flagsReserved o 1 = false
         ∧ configMoFault (taken p s) (stagedFor p (taken p s)) 0 1 0 1 o = none) ∧ (∃ t, Stages p [.config 1 0 1 0 0] [] s t))
    ∧ (let s := moState id id
       let p := packetFrom (.ctx 0) 0x0503 [1, 0, 0, 0]
       Accepts specFreeMo p s ∧ (∃ o, (stagedFor p (taken p s)).mo? 1 = some o ∧ heldNeedsMo s o = false) ∧ moNamed (taken p s) (stagedFor p (taken p s)) 1 = false
         ∧ moStreamed (taken p s) (stagedFor p (taken p s)) 1 = false ∧ (∃ t, Stages p [.free 1] [] s t))
    ∧ (let s := moState id id
       Accepts specReadMo (packetFrom (.ctx 0) 0x0504 ([1, 0] ++ zeros 6)) s ∧ (∃ o, s.mo? 1 = some o ∧ readMoBad o 0 none = none))
    ∧ (let s := moState id fun o => { o with tx := false, full := true }
       Accepts specReadMo (packetFrom (.ctx 0) 0x0504 ([1, 0] ++ zeros 6)) s ∧ (∃ o, s.mo? 1 = some o ∧ o.tx = false ∧ readMoBad o 0 (some 8) = some 8)) :=
  ⟨⟨by constructor <;> decide +kernel, by decide, by decide, by decide, by decide, by decide, by decide, ⟨_, .inr rfl, by rfl⟩⟩,
    ⟨by constructor <;> decide +kernel, ⟨_, rfl, by decide, by decide⟩, ⟨_, .inr rfl, by rfl⟩⟩,
    ⟨by constructor <;> decide +kernel, ⟨_, rfl, by decide⟩, by decide, by decide, ⟨_, .inr rfl, by rfl⟩⟩, ⟨by constructor <;> decide +kernel, ⟨_, rfl, by decide⟩⟩, ⟨by constructor <;> decide +kernel, ⟨_, rfl, by decide, by decide⟩⟩⟩

/-- A filter of CTX0: every CC base data frame of channel 0 to its RX ring 0. -/
def someFilter : Filter := filterOf (2 * typMask + 0x40 + 0x4000) 0 0 0 0 0

/-- A state with that filter as entry 0. -/
def filterState : State := { chanState id with filters := writeEntry 0 someFilter upState.filters }

theorem witness_FiltersAndQueuesComplete :
    (let p := packetFrom (.ctx 0) 0x0601 ([0, 0, 0, 0] ++ le 4 (2 * typMask + 0x40 + 0x4000) ++ zeros 12)
     Accepts specWriteFilter p upState ∧ srcChan upState p.source 0 = some 0 ∧ badWord0 (2 * typMask + 0x40 + 0x4000) someFilter = false
       ∧ badValue someFilter = false ∧ badWord3 0 someFilter = false ∧ mget (placedEntries upState) 0 = none
       ∧ writeFilterFault (taken p upState) (stagedFor p (taken p upState)) 0 someFilter = none ∧ filterUse upState 0 + 1 ≤ quotaOf upState 0 3
       ∧ (∃ t, Stages p [.filter 0 someFilter] [] upState t))
    ∧ (let p := packetFrom (.ctx 0) 0x0602 [0, 0, 1, 0]
       Accepts specClearFilter p filterState ∧ ((placedEntries filterState).filter fun e => inRange p e.1 && e.2.owner == 0) ≠ []
         ∧ (∃ t, Stages p [.clearFilter 0] [] filterState t))
    ∧ Accepts specReadFilter (packetFrom (.ctx 0) 0x0603 (zeros 4)) filterState ∧ mget filterState.filters.entries 0 = some someFilter
    ∧ Accepts specGetFilterStats (packetFrom (.ctx 0) 0x0604 [63, 63, 0, 0]) upState ∧ srcChan upState (.ctx 0) 63 = some 63
    ∧ (let p := packetFrom (.ctx 0) 0x0702 ([0, 0, 0, 1] ++ [8, 0, 4, 0])
       Accepts specSetWatermark p upState ∧ qidOf 0x0100 = some (.chq, 0) ∧ 8 ≤ qDepth (taken p upState) (.chq, 0) ∧ (∃ t, Stages p [.watermark 0 (some 0x0100) 8 4] [] upState t))
    ∧ (let p := packetFrom (.ctx 0) 0x0702 ([0, 0, 0xFF, 0xFF] ++ zeros 4)
       Accepts specSetWatermark p upState ∧ (∃ t, Stages p [.watermark 0 none 0 0] [] upState t))
    ∧ Accepts specGetQueueStatus (packetFrom (.ctx 0) 0x0703 (zeros 4)) upState :=
  ⟨⟨by constructor <;> decide +kernel, by decide, by decide, by decide, by decide, by decide, by decide, by decide, ⟨_, .inr rfl, by rfl⟩⟩,
    ⟨by constructor <;> decide +kernel, by decide, ⟨_, .inr rfl, by rfl⟩⟩, by constructor <;> decide +kernel, by decide, by constructor <;> decide +kernel, by decide,
    ⟨by constructor <;> decide +kernel, by decide, by decide, ⟨_, .inr rfl, by rfl⟩⟩, ⟨by constructor <;> decide +kernel, ⟨_, .inr rfl, by rfl⟩⟩, by constructor <;> decide +kernel⟩

set_option maxRecDepth 20000 in
theorem witness_FiltersAndQueuesComplete_queue :
    let p := packetFrom (.ctx 0) 0x0701 ([0, 2, 0, 0] ++ le 2 8 ++ le 2 0 ++ le 2 0 ++ zeros 38)
    let d : Depths := { places := 2, evt := 8, tx := 0, rx := 0 }
    let c := Change.queue 0 (some 0) d ((List.range 16).map (shareField p))
    Accepts specConfigQueue p upState ∧ configQueueBad p = none ∧ queueFault (writeDown 0 (stagedFor p (taken p upState)) c) 0 = none
    ∧ (∃ t, Stages p [c] [] upState t) :=
  ⟨by constructor <;> decide +kernel, by decide, by decide, ⟨_, .inr rfl, by rfl⟩⟩

theorem witness_TheTimeBaseCounts : timeReset.frac < 2 ^ 32 ∧ -2147483 ≤ timeReset.rate ∧ timeReset.rate ≤ 2147483 ∧ timeReset.time < 2 ^ 64
    ∧ State.reset.isReady 5 = false := by decide

/-- A running state whose time base is changed by `f`. -/
def timeState (f : TimeBase → TimeBase) : State := { upState with time := f upState.time }

theorem witness_TimeCommandsComplete :
    Accepts specGetTime (packetFrom (.ctx 0) 0x0801 [5, 0x80, 0, 0]) upState
    ∧ Accepts specAdjustRate (packetFrom (.ctx 0) 0x0802 (le 4 0xFFDF3B65 ++ le 4 10)) upState ∧ signedOf 32 0xFFDF3B65 = -2147483
    ∧ Accepts specStepTime (packetFrom (.ctx 0) 0x0803 (zeros 8 ++ le 8 1)) upState ∧ upState.isMaster = true ∧ (1 : Int) ≤ upState.now + 1
    ∧ (let s := timeState fun t => { t with pps := { t.pps with capture := true, event := true }, armed := some { value := 9, lapses := 1 } }
       Accepts specStepTime (packetFrom (.ctx 0) 0x0803 (1 :: zeros 7 ++ le 8 7)) s ∧ s.time.pps.capture = true
         ∧ Accepts specStepTime (packetFrom (.ctx 0) 0x0803 (2 :: zeros 15)) s ∧ s.time.armed.isSome = true ∧ timeRuns s = true ∧ s.time.clk < 1)
    ∧ (timeState fun t => { t with slewEnd := some 4 }).time.slewEnd = some 4
    ∧ (let s := timeState fun t => { t with pps := { t.pps with outEn := true } }
       s.time.pps.outEn = true ∧ s.time.ppsOut = false ∧ timeRuns s = true ∧ s.time.pps.offset < s.time.pps.period)
    ∧ (timeState fun t => { t with ppsOut := true }).time.ppsOut = true :=
  ⟨by constructor <;> decide +kernel, by constructor <;> decide +kernel, by decide, by constructor <;> decide +kernel, by decide, by decide,
    ⟨by constructor <;> decide +kernel, by decide, by constructor <;> decide +kernel, by decide, by decide, by decide⟩, rfl, by decide, rfl⟩

/-- A state with a schedule of object 1, the object changed by `g`. -/
def shutterState (g : Mo → Mo) : State :=
  { moState (fun c => { c with state := .running }) (fun o => g { o with timed := true }) with schedules := [(1, scheduleNew 9000 50000)] }

/-- A state whose trigger unit 0 is set by `f`. -/
def triggerState (f : Trigger → Trigger) : State := upState.modTrigger 0 f

theorem witness_ShuttersAndTriggersComplete :
    (let s := moState id id
     let p := packetFrom (.ctx 0) 0x0804 ([1, 0, 0, 0] ++ le 8 (s.now + 50000) ++ le 8 (2 ^ 40 - 1))
     Accepts specSetShutter p s ∧ (∃ o, ownTxMo (stagedFor p (taken p s)) 0 1 = some o ∧ shutterFull (taken p s) (stagedFor p (taken p s)) 1 o.channel = false)
       ∧ (∃ t, Stages p [.shutter 1 (s.now + 50000) (2 ^ 40 - 1)] [] s t))
    ∧ (let p := packetFrom (.ctx 0) 0x0805 [1, 0, 0, 0]
       Accepts specClearShutter p (shutterState id) ∧ (∃ o, ownTxMo (stagedFor p (taken p (shutterState id))) 0 1 = some o)
         ∧ (∃ t, Stages p [.clearShutter 1] [] (shutterState id) t))
    ∧ (let p := packetFrom (.ctx 0) 0x0806 ([7, 1, 3, 1, 7] ++ zeros 27)
       Accepts specSetTrigger p upState ∧ pinTaken (stagedFor p (taken p upState)) 7 7 = false ∧ pinSource 1 = true)
    ∧ Accepts specSetTrigger (packetFrom (.ctx 0) 0x0806 ([7, 0x20, 0, 4, 0, 0, 0, 0] ++ le 8 (upState.now + 50000) ++ zeros 16)) upState
    ∧ Accepts specSetPps (packetFrom (.ctx 0) 0x0807 (zeros 24)) upState
    ∧ (liveSchedule (shutterState id) 1).isSome = true
    ∧ (∃ x o, liveSchedule (shutterState fun o => { o with full := true, inHeap := true }) 1 = some (x, o) ∧ x.pointDone = false ∧ o.inHeap = true)
    ∧ (∃ x o, liveSchedule (shutterState fun o => { o with full := true }) 1 = some (x, o) ∧ x.pointDone = false ∧ o.inHeap = false)
    ∧ streamOf (shutterState fun o => { o with full := true }) 1 = none
    ∧ Accepts specSetTrigger (packetFrom (.ctx 0) 0x0806 (7 :: zeros 31)) upState ∧ timeRuns upState = true
    ∧ (let s := triggerState fun t => { t with set := { t.set with source := 0x20 }, next := 9 }
       (s.trigger 0).set.source = 0x20 ∧ (s.trigger 0).next ≠ 0 ∧ timeRuns s = true)
    ∧ (let s := { triggerState (fun t => { t with set := { t.set with source := 1, dest := 1 }, edges := [4] }) with pulses := tmod upState.pulses 0 fun _ => some 8 }
       (s.trigger 0).set.source ≠ 0x20 ∧ (s.trigger 0).edges = [4] ∧ (s.trigger 0).set.dest.testBit 0 = true ∧ tget s.pulses (s.trigger 0).set.pin none = some 8) :=
  ⟨⟨by constructor <;> decide +kernel, ⟨_, rfl, by decide⟩, ⟨_, .inr rfl, by rfl⟩⟩, ⟨by constructor <;> decide +kernel, ⟨_, rfl⟩, ⟨_, .inr rfl, by rfl⟩⟩,
    ⟨by constructor <;> decide +kernel, by decide, by decide⟩, by constructor <;> decide +kernel, by constructor <;> decide +kernel, by decide, ⟨_, _, rfl, rfl, rfl⟩, ⟨_, _, rfl, rfl, rfl⟩,
    by decide, by constructor <;> decide +kernel, by decide, by decide, by decide⟩

/-- A state with object 1 of CTX0 on CH0 that runs 500 kbit/s, and the records of the worked example's F1 and, as `f` makes it, S1 (R420). -/
def streamState (f : StreamRec → StreamRec) : State :=
  { moState (fun c => { c with state := .running }) id with
    records := [(0x10, f (recNew
        { foreign := false, ctx := 0, channel := 0, hdr := moHdr (moNew 0 true 1 8 1 0), feed := 0, mo := 1, crit := 3, period := 10000000
          jitter := 0, deadline := 1500000, minlen := 8, maxlen := 8 })),
      (0x20, recNew
        { foreign := true, ctx := 0, channel := 0, hdr := foreignHdr 0 0x0A0, feed := 0, mo := 0, crit := 0, period := 5000000
          jitter := 200000, deadline := 0, minlen := 0, maxlen := 8 })] }

theorem witness_DeclarationsAreStaged :
    (let p := packetFrom (.ctx 0) 0x0901 ([0xFF, 0x7F, 3, 0, 1, 0, 0, 0] ++ le 4 10000000 ++ zeros 4 ++ le 4 1500000 ++ zeros 4)
     let s := moState id id
     Accepts specDeclareStream p s ∧ recordPick (taken p s) 0x7FFF = some 0x7FFF
       ∧ (∃ o, ownTxMo (stagedFor p s) 0 1 = some o ∧ feedFits (stagedFor p s) 1 0 o = true) ∧ kindClash s (some 0x7FFF) false = false ∧ 3 ≤ (s.ctx 0).crit
       ∧ recordUse s 0 + 1 ≤ quotaOf s 0 4)
    ∧ (let p := packetFrom (.ctx 0) 0x0903 ([0x20, 0, 0, 0] ++ le 4 0x650 ++ le 2 8 ++ le 2 0 ++ le 4 50000000 ++ zeros 8)
       let s := streamState id
       Accepts specDeclareForeign p s ∧ srcChan s p.source 0 = some 0 ∧ foreignFmtBad 0 = false ∧ recordPick (taken p s) 0x20 = some 0x20
         ∧ kindClash s (some 0x20) true = false)
    ∧ (let p := packetFrom (.ctx 0) 0x0902 [0x10, 0, 0, 0]
       (Accepts specWithdrawStream p (streamState id) ∧ (∃ t, Stages p [.withdraw 0x10 p.source] [] (streamState id) t))
       ∧ (let s := streamState fun r => { r with stopping := true, stopLive := true }
          Accepts specWithdrawStream p s ∧ (mget s.records 0x10).any (·.stopping) = true ∧ s.bundle = none))
    ∧ (let p := packetFrom (.ctx 0) 0x0904 ([0, 0, 255, 0] ++ le 4 1000)
       Accepts specSetFaultBudget p upState ∧ (∃ t, Stages p [.budget 0 255 1000] [] upState t))
    ∧ Accepts specAdmitRoute (packetFrom (.ctx 0) 0x0905 (zeros 12)) (streamState fun r => { r with decl := { r.decl with feed := 1 } })
    ∧ (let s := streamState fun r => { r with decl := { r.decl with feed := 1 } }; inForeign s 0x20 0 = true ∧ outOwn s 0x10 = true) :=
  ⟨⟨by constructor <;> decide +kernel, by decide, ⟨_, rfl, by decide⟩, by decide, by decide, by decide⟩,
    ⟨by constructor <;> decide +kernel, by decide, by decide, by decide, by decide⟩,
    ⟨⟨by constructor <;> decide +kernel, _, by decide, rfl⟩, by constructor <;> decide +kernel, by decide, by decide⟩,
    ⟨by constructor <;> decide +kernel, _, by decide, rfl⟩, by constructor <;> decide +kernel, by decide⟩

theorem witness_AdmissionMonitorsComplete :
    (let p := packetFrom (.ctx 0) 0x0906 [0x20, 0, 0, 0]
     (Accepts specGetExposure p (streamState id) ∧ (mget (streamState id).records 0x20).isSome = true)
     ∧ (let s := upState.modCtx 0 fun c => { c with latent := [.declare 0x20 (recNew
          { foreign := true, ctx := 0, channel := 0, hdr := foreignHdr 0 0x0A0, feed := 0, mo := 0, crit := 0, period := 5000000, jitter := 0
            deadline := 0, minlen := 0, maxlen := 8 }).decl (.ctx 0)] }
        Accepts specGetExposure p s ∧ mget s.records 0x20 = none ∧ (mget (declView s 0x20).records 0x20).isSome = true))
    ∧ Accepts specAckUnassured (packetFrom (.ctx 0) 0x0907 [0, 0, 0, 0]) (streamState id)
    ∧ Accepts specGetMonitors (packetFrom (.ctx 0) 0x0908 [63, 0, 0, 0]) upState ∧ srcChan upState (.ctx 0) 63 = some 63
    ∧ (let s := streamState fun r => { r with live := some { at_ := 5, missed := false, assured := true } }
       monitorsRun s 0 = true ∧ ((mget s.records 0x10).bind timerOf).isSome = true)
    ∧ (let s := streamState fun r => { r with stopping := true }
       (mget s.records 0x10).any (fun r => r.stopping && !r.stopLive && !r.stopStaged && r.held.isNone) = true)
    ∧ (let s := streamState fun r => { r with stopping := true, held := some r.decl }
       (mget s.records 0x10).any (fun r => r.stopping && !r.stopLive && !r.stopStaged && r.held.any (·.ctx < 64)) = true) :=
  ⟨⟨⟨by constructor <;> decide +kernel, by decide⟩, by constructor <;> decide +kernel, by decide, by decide⟩, by constructor <;> decide +kernel, by constructor <;> decide +kernel,
    by decide, by decide, by decide, by decide⟩

theorem witness_TheCalculatorSolvesR398 : (∀ a b : Nat, a ≤ b → min 7 (a + 3) ≤ min 7 (b + 3)) ∧ 0 ≤ min 7 (0 + 3) ∧ fixedPoint (fun t => min 7 (t + 3)) (busyLimit + 1) 0 = some 7
    ∧ ([true, false] : List Bool).length = [false, true].length ∧ seqBefore [false, true] [true, false] = true
    ∧ (∀ x ∈ ([] : List Item) ++ [{ num := 0, own := true, gone := false, ch := 0, seq := [], mo := 1, crit := 1, checked := true, deadline := 0, feed := 0, period := 1000000, jitter := 0, intake := 0, c := 5, cs := 5, cv := 5, cvMin := 5 }], 0 < x.period ∧ 0 < x.c)
    ∧ (upState.mon 0).e = 1 ∧ (upState.mon 0).stamps = [] :=
  ⟨fun _ _ h => by omega, by decide, by decide, rfl, by decide, (fun x hx => by cases hx with
    | head => exact ⟨by decide, by decide⟩
    | tail _ h => cases h), by decide, by decide⟩

/-- PDU 0x40 of the worked example of chapter 13, and the load PDU 0x41 of its route. -/
def lampIn : PduSet :=
  { dir := .inFrame, lane := 0, onChange := false, onArrival := false, periodic := false, cvEn := false, cvOrder := false, length := 8, offset := 0
    fill := 0, cvu := 0, first := 0x100, count := 2, route := 0x400, mo := 0, frameCount := 0, frameLen := 0, remotePdu := 0, position := 0
    substBase := 0x300, block := 0, timeout := 500000, minGap := 0, cvPos := 0 }
def lampOut : PduSet :=
  { lampIn with dir := .outLocal, onChange := true, length := 2, offset := 14, first := 0x200, route := sigNone, substBase := sigNone, block := 0x80
                timeout := 0 }

/-- The tables of that example up to LD7, the PDU IN_FRAME changed by `f`. -/
def lampState (f : Pdu → Pdu) : State :=
  let g := fun (b : SigBody) (v : BitVec 64) => ({ body := b, errDis := false, value := v, stamp := 0 } : Sig)
  { upState with
    aon := { upState.aon with ready := 0xFFFF }
    pdus := [(0x40, f (pduNew lampIn)), (0x41, pduNew lampOut)]
    sigs := [(0x100, g (.source false false 1 12 0x40) 0), (0x101, g (.source true false 10 23 0x40) 850),
      (0x200, g (.sink false false false 1 15 0x41 1 0x100 0 0) 0), (0x201, g (.sink false false false 10 0 0x41 1 0x101 0 0) 0),
      (0x300, g .const 1), (0x301, g .const 1000), (0x400, g (.route sigNone [0x41]) 0)] }

theorem witness_RoutingTablesComplete :
    (let p := packetFrom (.ctx 0) 0x0A01 ([0x40, 0, 0, 0] ++ le 4 0x80002 ++ le 4 0 ++ le 4 (0x100 + 2 * 2 ^ 18) ++ le 4 0x400 ++ le 4 0x300
        ++ le 4 500000 ++ zeros 8)
     Accepts specWritePdu p upState ∧ dirOf (bitsOf (descWord p.params 0) 1 3) = some .inFrame ∧ pduFault .inFrame (descWord p.params) = none
       ∧ pduFrom .inFrame (descWord p.params) = lampIn ∧ ∃ t, Stages p [.pdu 0x40 (some lampIn)] [] upState t)
    ∧ (let p := packetFrom (.ctx 0) 0x0A01 (0x40 :: zeros 35)
       Accepts specWritePdu p upState ∧ ∃ t, Stages p [.pdu 0x40 none] [] upState t)
    ∧ (let p := packetFrom (.ctx 0) 0x0A02 (le 4 0x101 ++ [1, 0, 0, 0] ++ le 4 0x5C912 ++ le 4 0x40 ++ zeros 8)
       Accepts specWriteSignal p upState ∧ sigFault [0, 1, 2, 3] (entryWord p.params 0) = none
         ∧ sigFrom 1 (entryWord p.params 0) = some (.source true false 10 23 0x40))
    ∧ (let p := packetFrom (.ctx 0) 0x0A03 (le 4 0x400 ++ [1, 0, 0, 0] ++ le 4 (8 + 0x20 + 0x3FFFF * 256) ++ le 4 0x500041 ++ zeros 8)
       Accepts specWriteRoute p upState ∧ sigFault [0, 4] (entryWord p.params 0) = none
         ∧ sigFrom 4 (entryWord p.params 0) = some (.route sigNone [0x41, 0x50]))
    ∧ Accepts specReadSignal (packetFrom (.ctx 0) 0x0A05 (le 4 0x201)) (lampState id) ∧ (mget (lampState id).sigs 0x201).isSome = true
    ∧ Accepts specReadSignal (packetFrom (.ctx 0) 0x0A05 (le 4 0x3FFFF)) upState ∧ mget upState.sigs 0x3FFFF = none
    ∧ (let p := packetFrom (.ctx 0) 0x0A06 (zeros 4 ++ le 4 1 ++ le 2 100 ++ zeros 34)
       Accepts specSetLocalIo p upState ∧ fieldAt p.params 8 2 = 100)
    ∧ Accepts specGetRouteStats (packetFrom .sp 0x0A07 [0, 0, 3, 0]) upState
    ∧ Accepts specGetRouteStats (packetFrom .sp 0x0A07 [1, 0, 0x40, 0]) (lampState id) :=
  ⟨⟨by constructor <;> decide +kernel, by decide, by decide, by decide, _, by decide, rfl⟩, ⟨by constructor <;> decide +kernel, _, by decide, rfl⟩,
    ⟨by constructor <;> decide +kernel, by decide, by decide⟩, ⟨by constructor <;> decide +kernel, by decide, by decide⟩, by constructor <;> decide +kernel, by decide,
    by constructor <;> decide +kernel, by decide, ⟨by constructor <;> decide +kernel, by decide⟩, by constructor <;> decide +kernel, by constructor <;> decide +kernel⟩

theorem witness_BundleBlocksComplete :
    (let p := packetFrom (.ctx 0) 0x0A04 ([0, 0, 0, 0, 4, 0, 0, 0] ++ [0x4F, 0x5A, 0x51, 0x42])
     Accepts specLoadBundleBlock p upState ∧ p.plen = 3 ∧ upState.bundle = none ∧ (upState.ctx 0).latent = [] ∧ (upState.ctx 0).armed = none)
    ∧ (let s := { upState with bundle := some { bundleNew with buffer := [0x4F, 0x5A, 0x51, 0x42] } }
       Accepts specLoadBundleBlock (packetFrom (.ctx 0) 0x0A04 ([4, 0, 0, 0, 4, 0, 0, 0] ++ [1, 0, 0x64, 0x20])) s
         ∧ Accepts specLoadBundleBlock (packetFrom (.ctx 0) 0x0A04 [4, 0, 0, 0, 0, 0, 1, 0]) s) :=
  ⟨⟨by constructor <;> decide +kernel, by decide⟩, by constructor <;> decide +kernel, by constructor <;> decide +kernel⟩

theorem witness_RoutePassesComplete :
    (let s := (lampState id).modLane 0 fun l => { l with waiting := [{ pdu := 0x40, data := [0, 0x10, 0xD4, 0x80, 0, 0, 0, 0], clk := 0, origin := 0, path := 0, rank := 0 }] }
     (s.lane 0).waiting ≠ [] ∧ (s.lane 0).held = [] ∧ (pduOf s 0x40).isSome = true ∧ pduOf s 0x42 = none
       ∧ (∀ h, (s.lane 0).waiting.head? = some h → arrivalNext s 0 h = true ∧ h.path ≠ 7))
    ∧ (pduOf (lampState fun p => { p with arrived := some 9 }) 0x40).any (fun p => p.arrived.isSome && dirIn p.set.dir && p.set.timeout != 0 && !p.expired) = true
    ∧ (let s := lampState fun p => { p with timedOut := true }
       (pduOf s 0x40).any (fun p => p.timedOut && timedNext s p.set.lane p.timeoutDue 0x40) = true)
    ∧ (let s := { lampState (fun p => { p with set := { p.set with dir := .outFrame, frameCount := 1, periodic := true } }) with
           schedules := [(0, scheduleNew 90000 50000)] }
       (pduOf s 0x40).any (fun p => p.set.dir == .outFrame && p.set.frameCount != 0 && p.set.periodic && p.noticeAt == 0) = true
         ∧ (scheduleOf s 0).isSome = true)
    ∧ (let s := lampState fun p => { p with noticed := true }
       (pduOf s 0x40).any (fun p => p.noticed && timedNext s p.set.lane p.noticeDue 0x40) = true)
    ∧ (let s := lampState fun p => { p with deferredTo := some 7 }
       (pduOf s 0x40).any (fun p => p.deferredTo == some 7 && timedNext (reachClk 7 s) p.set.lane 7 0x40) = true)
    ∧ (let s := { upState with fq := { upState.fq with rtq := tmod upState.fq.rtq 0 fun _ =>
           [{ mo := 1, first := 0, origin := 0, path := 0, data := List.replicate 2048 0 }, { mo := 1, first := 0, origin := 0, path := 0, data := List.replicate 2048 0 }] } }
       fits s (.rtq, 0) (packetCells 2048) = false ∧ fits upState (.rtq, 0) (packetCells 2048) = true)
    ∧ (lampState id).isReady 4 = true ∧ (lampState id).isReady 14 = true
    ∧ ({ lampState id with localIo := { (lampState id).localIo with round := some 5, set := { (lampState id).localIo.set with ainEn := 1 } } } : State).localIo.set.ainEn ≠ 0 := by
  decide +kernel

theorem witness_SignalsPackAndUnpack : 9 < 10 ∧ (sigBits true 10 23)[9]? = some 23 ∧ (sigBits true 10 23)[2]? = some 16 ∧ (sigBits true 10 23)[1]? = some 31
    ∧ (∀ b ∈ sigBits true 10 23, b < 8 * 8) ∧ gatherBits [0, 0x10, 0xD4, 0x80, 0, 0, 0, 0] (sigBits true 10 23) = 850 := by decide

/-- A state with unit 9 of the worked example of chapter 14, changed by `f`, owned by CTX0. -/
def unitState (f : Cvu → Cvu) : State :=
  { upState with aon := { upState.aon with ready := 0xFFFF } }.modCvu 9 fun c => f { c with
    owner := 0, enabled := true, reg := 0xFFFF
    params := some { route := false, width := 16, poly := 0x1021, init := 0xFFFF, xorout := 0, refin := true, refout := true } }

theorem witness_CheckValueUnitsComplete :
    (let p := packetFrom (.ctx 0) 0x0B01 ([0x80, 1, 64, 3] ++ zeros 4 ++ le 8 1 ++ List.replicate 16 0xFF)
     let s := unitState id
     Accepts specConfigCvu p s ∧ firstBelow 32 (fun u => !((unitClaims s).any fun c => c.1 == u)) = some 0 ∧ unitNamed s 0 = false
       ∧ cvuUse s 0 + 1 ≤ quotaOf s 0 5)
    ∧ (let p := packetFrom (.ctx 0) 0x0B01 ([9] ++ zeros 31)
       Accepts specConfigCvu p (unitState id) ∧ ∃ t, Stages p [.cvu 9 none] (le 1 9 ++ zeros 3) (unitState id) t)
    ∧ Accepts specFeedCvu (packetFrom (.ctx 0) 0x0B02 ([9, 9, 2, 0] ++ zeros 4 ++ [0xA5, 0x3C, 0, 0])) (unitState id)
    ∧ Accepts specReadCvu (packetFrom .sp 0x0B03 [31, 0, 0, 0]) (unitState id)
    ∧ Accepts specWriteCvuValue (packetFrom (.ctx 0) 0x0B04 ([9] ++ zeros 7 ++ le 8 0xFFFF)) (unitState id)
    ∧ Accepts specEnableCvu (packetFrom (.ctx 0) 0x0B05 [9, 0, 0, 0]) (unitState fun c => { c with enabled := false })
    ∧ Accepts specDisableCvu (packetFrom (.ctx 0) 0x0B06 [9, 0, 0, 0]) (unitState fun c => { c with stopping := true, held := some (.ctx 0) })
    ∧ ((unitState fun c => { c with stopping := true, held := some (.ctx 0) }).cvu 9).stopping = true :=
  ⟨⟨by constructor <;> decide +kernel, by decide, by decide, by decide⟩, ⟨by constructor <;> decide +kernel, _, by decide, rfl⟩, by constructor <;> decide +kernel,
    by constructor <;> decide +kernel, by constructor <;> decide +kernel, by constructor <;> decide +kernel, by constructor <;> decide +kernel, by decide⟩

set_option maxRecDepth 20000 in
theorem witness_CheckValuesFollowR474 :
    (let q : CvuParams := { route := true, width := 8, poly := 0x1D, init := 0xFF, xorout := 0xFF, refin := false, refout := false }
     let s := (unitState id).modCvu 4 fun c => { c with params := some q }
     let p := { lampIn with cvEn := true, cvu := 4, length := 4 }
     3 ≤ q.width ∧ q.poly.toNat < 2 ^ q.width ∧ (s.cvu p.cvu).params = some q ∧ p.cvPos + cvBytes s p ≤ [0, 0x12, 0x34, 0x56].length
       ∧ (cvAppend p [0, 0x12, 0x34, 0x56] s).1 = [0x96, 0x12, 0x34, 0x56] ∧ (cvCheck p [0x97, 0x12, 0x34, 0x56] s).1 = false) := by decide

/-- A state whose load 7 is bound to PWM7 with a period of 5,000 µs in group 2, enabled and on, changed by `f` (R525's example). -/
def loadState (f : Load → Load) : State :=
  let s := { upState with aon := { upState.aon with ready := 0xFFFF } }
  s.modLd 7 fun l => f { l with
    bind := some { out := .pwm 7 5000, group := some 2, scale := 16, isrc := 0, diagEn := false, diagLow := false, diagDin := 0 }
    enabled := true, state := .on, on := true, duty := 850, eff := 850, ball := true }

/-- The same with chain 1 in a transfer of two switches of 16 bits. -/
def chainState : State :=
  let f : Profile := { switches := 2, frameBits := 16, outputs := 1, div := 16, mode := 0, base := 0, expMask := 0, expValue := 0
                       outs := [outFields [0, 1, 10, 0xFF, 0xFF, 0xFF, 0xFF, 0xFF, 0, 0]] }
  (loadState id).modSwc 1 fun x => { x with profile := f, busy := some f, extra := true }

/-- A binding to output 0 of position 0 of chain 1. -/
def chainBind : Binding := { out := .chain 1 0 0, group := none, scale := 0, isrc := 0, diagEn := false, diagLow := false, diagDin := 0 }

theorem witness_LoadCommandsComplete :
    (let p := packetFrom (.ctx 0) 0x0C01 ([7, 1, 7, 2] ++ le 2 20000 ++ [16, 0, 0x27, 0, 0, 0])
     let s := { upState with aon := { upState.aon with ready := 0xFFFF } }
     Accepts specBindLoad p s ∧ outTaken s 7 (bindOut 1 7 20000) = false ∧ (s.ld 7).enabled = false ∧ (s.ld 7).state ≠ .stopping)
    ∧ (let p := packetFrom (.ctx 0) 0x0C02 ([1, 2, 16, 1, 16, 0, 0, 0] ++ zeros 12 ++ [0, 1, 10, 0xFF, 0xFF, 0xFF, 0xFF, 0xFF, 0, 0] ++ zeros 30)
       Accepts specSetSwitchProfile p (loadState id) ∧ outsFault 16 1 p.params = none)
    ∧ (let p := packetFrom (.ctx 0) 0x0C03 ([7, 1] ++ le 2 1000 ++ zeros 4)
       Accepts specSetLoad p (loadState id) ∧ ((loadState id).ld 7).bind ≠ none ∧ routeBound (loadState id) 7 = false)
    ∧ (let p := packetFrom (.ctx 0) 0x0C04 ([95, 2] ++ le 2 1000 ++ zeros 24)
       Accepts specSetLoadPolicy p (loadState id) ∧ bitsOf (byteAt p.params 1) 1 2 = 1)
    ∧ Accepts specForceSafe (packetFrom (.ctx 0) 0x0C05 ([1, 0, 0, 0, 0x80] ++ zeros 11)) (loadState id)
    ∧ (let p := packetFrom .sp 0x0C05 ([2, 0, 0, 0, 0x80] ++ zeros 11)
       let s := { loadState id with sp := { (loadState id).sp with decoded := [(p, 5)] } }
       Accepts specForceSafe p s ∧ decodedForce s p = some 5)
    ∧ Accepts specGetLoadStatus (packetFrom (.ctx 0) 0x0C06 [95, 0, 0, 0]) (loadState id)
    ∧ Accepts specResetLoadLatch (packetFrom (.ctx 0) 0x0C07 [7, 0, 0, 0]) (loadState id)
    ∧ Accepts specEnableLoad (packetFrom (.ctx 0) 0x0C08 [7, 0, 0, 0]) (loadState fun l => { l with state := .stopping })
    ∧ Accepts specDisableLoad (packetFrom (.ctx 0) 0x0C09 [7, 0, 0, 0]) (loadState id) :=
  ⟨⟨by constructor <;> decide +kernel, by decide, by decide, by decide⟩, ⟨by constructor <;> decide +kernel, by decide⟩,
    ⟨by constructor <;> decide +kernel, by decide, by decide⟩, ⟨by constructor <;> decide +kernel, by decide⟩, by constructor <;> decide +kernel,
    ⟨by constructor <;> decide +kernel, by decide⟩, by constructor <;> decide +kernel, by constructor <;> decide +kernel, by constructor <;> decide +kernel,
    by constructor <;> decide +kernel⟩

theorem witness_LoadEventsComplete :
    (loadState id).isReady 10 = true ∧ (loadState id).isReady 14 = true ∧ 10 ≤ ((loadState id).load.vbats ++ (List.replicate 10 5).map vbatsMv).length ∧ ((loadState fun l => { l with state := .inrush }).ld 7).state = .inrush
    ∧ ((loadState fun l => { l with state := .backoff }).ld 7).state = .backoff ∧ (loadState id).load.tick < ((loadState fun l => { l with timerEnd := 9 }).ld 7).timerEnd
    ∧ ((loadState fun l => { l with state := .stopping }).ld 7).stopDue = false
    ∧ pwmPeriod ((loadState id).ld 7) = some 5000 ∧ pwmRuns ((loadState id).ld 7) = true ∧ ((loadState id).ld 7).ball = true
    ∧ (850 * 5000 + 500) / 1000 < 5000 ∧ (chainState.swc 1).busy.isSome = true
    ∧ (let s := chainState.modLd 8 fun l => { l with state := .stopping, stopDue := true, bind := some chainBind }
       chainPlace (s.ld 8) = some (1, 0, 0) ∧ (s.ld 8).stopDue = true) := by decide

theorem witness_LatchedLoadsStayOff :
    (let s := loadState fun l => { l with latch := true, state := .latched }
     (List.range 96).all (fun n => !(s.ld n).latch || [LoadState.unbound, .disabled, .off, .latched, .stopping].contains (s.ld n).state) = true
       ∧ (s.ld 7).latch = true) ∧ ∃ t, step (loadState fun l => { l with latch := true, state := .latched }) = .next t :=
  ⟨by decide, _, rfl⟩

theorem witness_ChainFramesCarryOnAndDuty :
    (let s := chainState.modLd 8 fun l => { l with state := .on, eff := 1000, bind := some chainBind }
     let f := (s.swc 1).profile
     f.outs.length = f.outputs ∧ (f.outs[0]?).isSome = true ∧ (f.outs.flatMap fun y => (driveBits y).map (·.1)).Nodup
       ∧ (∀ y ∈ f.outs, y.onPos < f.frameBits ∧ y.dutyW ≤ 10 ∧ (y.dutyPos ≠ 0xFF → y.dutyPos + y.dutyW ≤ f.frameBits))
       ∧ (∀ n, n < 96 → (s.ld n).eff ≤ 1000) ∧ chainFrame s 1 f 0 = 0x7FF) := by decide

/-- A state whose port LINKA is changed by `f`, every function ready. -/
def portState (f : Link → Link) : State :=
  ({ upState with aon := { upState.aon with ready := 0xFFFF } } : State).modLink .a f

/-- A census entry on CH3. -/
def censusEntry : CensusEntry :=
  { channel := 3, fmt := .cc, ide := false, rtr := false, ident := 5, maxlen := 8, first := 1, last := 2, count := 4, lost := false }

theorem witness_LinkCommandsComplete :
    Accepts specGetStack (packetFrom .sp 0x0D01 [0, 0, 0, 0]) (portState id) ∧ portOf 2 = some .b
    ∧ Accepts specGetStack (packetFrom .sp 0x0D01 [2, 0, 0, 0]) (portState id)
    ∧ (let p := packetFrom (.ctx 0) 0x0D02 [1, 0, 10, 0]
       Accepts specConfigLink p (portState fun l => { l with state := .up, wire := 10000 }) ∧ (10000 ≤ 10 * 1000)
         ∧ ∃ t, Stages p [.link .a 10] [] (portState fun l => { l with state := .up, wire := 10000 }) t)
    ∧ Accepts specGetCensus (packetFrom (.ctx 0) 0x0D03 [3, 0, 0, 0]) { portState id with census := { (portState id).census with entries := [(0, censusEntry)] } }
    ∧ Accepts specGetCensus (packetFrom (.ctx 0) 0x0D03 [0xFF, 0, 0xFF, 0xFF]) (portState id)
    ∧ Accepts specClearCensus (packetFrom (.ctx 0) 0x0D04 [0xFF, 0, 0, 0]) (portState id)
    ∧ (let p := packetFrom (.ctx 0) 0x0D05 [63, 0xD, 0, 0, 0xFF, 0xFF, 0, 0]
       Accepts specSetCensusEvents p (portState id) ∧ ∃ t, Stages p [.census 63 true 2 true 3 (some 65535)] [] (portState id) t)
    ∧ (let s := portState fun l => { l with state := .stopping, held := some .sp }
       Accepts specEnableLink (packetFrom (.ctx 0) 0x0D06 [1, 0, 0, 0]) s ∧ powerBlocks s = false
         ∧ Accepts specDisableLink (packetFrom (.ctx 0) 0x0D07 [1, 0, 0, 0]) s)
    ∧ (let s := portState fun l => { l with state := .up }
       Accepts specDisableLink (packetFrom (.ctx 0) 0x0D07 [1, 0, 0, 0]) s ∧ onlyPath s .a = false) :=
  ⟨by constructor <;> decide +kernel, rfl, by constructor <;> decide +kernel, ⟨by constructor <;> decide +kernel, by decide, _, by decide, rfl⟩, by constructor <;> decide +kernel,
    by constructor <;> decide +kernel, by constructor <;> decide +kernel, ⟨by constructor <;> decide +kernel, _, by decide, rfl⟩,
    ⟨by constructor <;> decide +kernel, by decide, by constructor <;> decide +kernel⟩, by constructor <;> decide +kernel, by decide⟩

theorem witness_LinkPortsComplete :
    (let s := portState fun l => { l with state := .training }
     (s.link .a).state = .training ∧ linksRun s = true ∧ 3 ≠ s.pos ∧ (devOf s 3).present = false)
    ∧ (let s := portState fun l => { l with state := .conflict }; (s.link .a).state = .conflict ∧ linksRun s = true)
    ∧ (let s := portState fun l => { l with state := .up, unacked := [{ seq := 1, frame := askFrame 1 0, replays := 4, sentAt := 0 }] }
       s.isMaster = true ∧ (s.link .a).state = .up ∧ linksRun s = true ∧ ∃ u ∈ (s.link .a).unacked, 4 ≤ u.replays)
    ∧ ((portState fun l => { l with state := .stopping, held := some .sp }).link .a).state = .stopping
    ∧ (let s := portState fun l => { l with state := .up, fresh := true }
       let s := { s with aon := { s.aon with stackId := 1 }, stack := { s.stack with upstream := some .a }, time := { s.time with aligned := true } }
       s.stack.upstream = some .a ∧ linksRun s = true ∧ (s.link .a).fresh = true ∧ s.isMaster = false ∧ s.time.aligned = true) :=
  ⟨by decide, by decide, ⟨by decide, by decide, by decide, _, .head _, by decide⟩, by decide, by decide⟩

theorem witness_LinkFramesComplete :
    (let f : LinkRx := { frame := askFrame 1 0, seq := 1, ack := 0, ackValid := false, credit := 0, intact := true }
     let s := portState fun l => { l with state := .up }
     linkSends (s.link .a) = true ∧ linksRun s = true ∧ f.intact = true
       ∧ f.seq = nextLinkSeq ((takeCells .a { f.frame with typ := .step, last := false } (takeLinkHeader .a f s)).link .a).seqRx) := by decide

theorem witness_LinkErrorsAndReplays :
    (let s := portState fun l => { l with state := .up, credits := 9, unacked := [{ seq := 1, frame := askFrame 1 0, replays := 3, sentAt := 0 }] }
     linkSends (s.link .a) = true ∧ linksRun s = true ∧ frameCells (askFrame 1 0) ≤ (s.link .a).credits ∧ (s.link .a).unacked ≠ [] ∧ (∀ u ∈ (s.link .a).unacked, frameReplayed u.frame.typ = true)
       ∧ (s.link .a).seqTx = 0) := by decide

def bootImage (ver rollback : Nat) : Image :=
  { intact := true, fwVer := ver, settingsFmt := 3, key := 0, revoke := 0, rollback := rollback, length := 4 }

def openedState (g : Session → Session) : State :=
  { upState with update := { upState.update with opened := 1, session := some (g { id := 1, owner := .ctx 0, image := bootImage 0x040000 0, digest := sha256 [1, 2, 3, 4], body := [], verified := false, approved := false, lastAt := 0 }) } }

/-- The first 192 bytes of a header whose body is 1, 2, 3, 4, signed with key slot 1. -/
def signedHeader : List Byte :=
  [0x5A, 0x42, 0x46, 0x57] ++ le 2 0x2064 ++ le 2 1 ++ le 4 0x040000 ++ le 2 4 ++ [1, 4] ++ le 4 8 ++ le 4 4 ++ zeros 8
    ++ beBytes 32 0x9f64a747e1b97f131fabb6b447296c9b6f0201e79fb3c5356e6c77e89b6a806a ++ zeros 128

/-- The public point of a test key, and a signature of those bytes whose two factors are 1. -/
def testKey : List Byte :=
  beBytes 32 0xf04cb79f323798ddbf2b7fcf8177ecdac13be29a6ce437c4bcfbd1aa3c577bf5
    ++ beBytes 32 0x4e6b69639140f29a42ea6130df0c13fe82d10b3e895c5b743965d68fbb83f61e

def signature : List Byte :=
  beBytes 32 0xe4a052aa301ab1cfb1de824158c72f4667fd3dd5b7083fdff2cecb00632fc489
    ++ beBytes 32 0xe4a052aa301ab1cfb1de824158c72f4667fd3dd5b7083fdff2cecb00632fc489

/-- CTX0 has sent the first half; key slot 1 holds the test key, and the battery is well. -/
def halfState : State :=
  modSec (fun x => { x with keys := x.keys.set 1 testKey })
    { upState with load := { upState.load with vf := 12640 }, update := { upState.update with halfCtx0 := some (signedHeader.take 128) } }

def proofState : State := { upState with aon := { upState.aon with proof := true } }

set_option maxRecDepth 20000 in
theorem witness_UpdateCommandsComplete_open :
    (let p := packetFrom (.ctx 0) 0x0E01 (zeros 136)
     Accepts specOpenSession p upState ∧ zeroAt p.params 1 7 = true ∧ byteAt p.params 0 = 0)
    ∧ (let p := packetFrom (.ctx 0) 0x0E01 (1 :: (zeros 7 ++ signedHeader.drop 128 ++ signature))
       let u := taken p halfState
       Accepts specOpenSession p halfState ∧ zeroAt p.params 1 7 = true ∧ byteAt p.params 0 = 1 ∧ u.update.session = none
         ∧ halfOf u p.source = some (signedHeader.take 128) ∧ u.aon.proof = false ∧ guardFailure u = none
         ∧ headerFailure (secOf u) (signedHeader.take 128 ++ padTo 128 (p.params.drop 8)) = none) :=
  ⟨⟨by constructor <;> decide +kernel, by decide, by decide⟩, by constructor <;> decide +kernel, by decide, by decide, by decide, by decide +kernel,
    by decide, by decide, by decide +kernel⟩

set_option maxRecDepth 20000 in
theorem witness_UpdateCommandsComplete_block :
    (let p := packetFrom (.ctx 0) 0x0E02 (le 4 1 ++ le 4 0 ++ le 2 4 ++ zeros 2 ++ [1, 2, 3, 4])
     Accepts specWriteImageBlock p (openedState id) ∧ fieldAt p.params 0 4 = 1 ∧ fieldAt p.params 4 4 = 0 ∧ fieldAt p.params 8 2 = 4 ∧ p.plen = 3 + 4 / 4
       ∧ zeroAt p.params 10 2 = true ∧ (p.params.drop 12).take 4 = [1, 2, 3, 4] ∧ sha256 [1, 2, 3, 4] ≠ sha256 [1, 2, 3, 5])
    ∧ (let p := packetFrom (.ctx 0) 0x0E02 (le 4 1 ++ le 4 0 ++ le 2 4 ++ zeros 2 ++ [1, 2, 3, 5])
       Accepts specWriteImageBlock p (openedState fun x => { x with image := { x.image with length := 8 } })) :=
  ⟨⟨by constructor <;> decide +kernel, by decide, by decide, by decide, by decide, by decide, by decide, by decide +kernel⟩, by constructor <;> decide +kernel⟩

set_option maxRecDepth 20000 in
theorem witness_UpdateCommandsComplete_owner :
    (let s := openedState fun x => { x with verified := true, approved := true }
     Accepts specCloseSession (packetFrom (.ctx 0) 0x0E03 (le 4 1)) s ∧ Accepts specVeto (packetFrom .sp 0x0E06 (le 4 1)) s
       ∧ Accepts specApprove (packetFrom .sp 0x0E05 (le 4 1 ++ (sha256 [1, 2, 3, 4]).take 8)) s
       ∧ Accepts specActivate (packetFrom (.ctx 0) 0x0E04 (le 4 1 ++ zeros 4)) s
       ∧ guardFailure { s with load := { s.load with vf := 12640 } } = none)
    ∧ Accepts specVeto (packetFrom .sp 0x0E06 (le 4 0xFFFFFFFF)) proofState ∧ Accepts specRejectImage (packetFrom .sp 0x0E07 []) proofState
    ∧ Accepts specRejectImage (packetFrom (.ctx 0) 0x0E07 []) { upState with update := { upState.update with fixInstant := some 5 } }
    ∧ Accepts specGetUpdateStatus (packetFrom (.ctx 0) 0x0E08 []) upState ∧ Accepts specGetSecurity (packetFrom (.ctx 0) 0x0F03 []) upState :=
  ⟨⟨by constructor <;> decide +kernel, by constructor <;> decide +kernel, by constructor <;> decide +kernel, by constructor <;> decide +kernel, by decide⟩, by constructor <;> decide +kernel,
    by constructor <;> decide +kernel, by constructor <;> decide +kernel, by constructor <;> decide +kernel, by constructor <;> decide +kernel⟩

set_option maxRecDepth 20000 in
theorem witness_UpdateCommandsComplete_lock :
    Accepts specSetOwnerLock (packetFrom (.ctx 0) 0x0F01 (1 :: zeros 15)) upState ∧ Accepts specSetOwnerLock (packetFrom .sp 0x0F01 (2 :: zeros 15)) upState
    ∧ Accepts specSetOwnerLock (packetFrom (.ctx 0) 0x0F01 ([3, 3, 0, 0] ++ le 4 0x3FFFF ++ le 4 5 ++ zeros 4)) upState
    ∧ Accepts specSetOwnerLock (packetFrom (.ctx 0) 0x0F01 ([4, 0] ++ le 2 14000 ++ zeros 12)) upState ∧ (secOf upState).lowMv ≤ 14000
    ∧ Accepts specClearOwnerLock (packetFrom .sp 0x0F02 [3, 0, 0, 0]) upState :=
  ⟨by constructor <;> decide +kernel, by constructor <;> decide +kernel, by constructor <;> decide +kernel, by constructor <;> decide +kernel, by decide, by constructor <;> decide +kernel⟩

/-- The old image has sent its last reply; TRIAL names slot B and area B. -/
def activatedState : State :=
  modSec (fun x => { x with trial := true, trialSlot := .b, trialArea := .b })
    (modMram (fun m => { m with slotB := some (bootImage 0x040000 7) })
      { upState with engine := { upState.engine with pause := some .activation, activate := none } })

/-- An image in proof mode that has met every condition but the time. -/
def trialState : State :=
  let s := startProof activatedState
  { s with engine := { s.engine with pause := none }, update := { s.update with minProof := 5, confirm := 10, timerEnd := some 10000000000 } }

theorem witness_ProofModeComplete :
    activationDue activatedState = true ∧ activatedState.aon.proof = false ∧ trialValid (secOf activatedState) = true
    ∧ slotPasses activatedState (secOf activatedState).trialSlot true = true
    ∧ imageOf activatedState.update.mram (secOf activatedState).trialSlot = some (bootImage 0x040000 7)
    ∧ areaUnreadable activatedState (bootImage 0x040000 7) = none
    ∧ trialState.update.timerEnd = some 10000000000 ∧ trialState.aon.proof = true ∧ trialState.engine.pause = none
    ∧ trialState.update.unreadable = none ∧ trialState.update.fmtWritten = true ∧ trialState.update.restarted = false
    ∧ (openedState id).update.session.isSome = true := by decide +kernel

set_option maxRecDepth 20000 in
theorem witness_FixFollowsTheStepsOfR582 :
    (secOf trialState).trialArea ≠ (secOf trialState).activeArea ∧ imageOf trialState.update.mram (secOf trialState).trialSlot = some (bootImage 0x040000 7)
    ∧ (reachClk (trialState.update.timerStart + trialState.update.minProof * secNs) trialState).time.clk < 10000000000 := by decide +kernel

theorem witness_FallbackFollowsTheStepsOfR583 :
    Accepts specRejectImage (packetFrom (.ctx 0) 0x0E07 []) trialState ∧ Accepts specVeto (packetFrom .sp 0x0E06 (le 4 0xFFFFFFFF)) trialState
    ∧ trialState.aon.proof = true ∧ (secOf trialState).trialArea ≠ (secOf trialState).activeArea ∧ trialState.update.timerEnd = some 10000000000
    ∧ (let s := startFallback 1 trialState
       s.engine.pause = some .fallback ∧ slotPasses s (secOf s).activeSlot true = true ∧ fixedOnce (secOf s) (secOf s).activeSlot = true)
    ∧ (let s := modMram (fun m => { m with slotA := none }) (startFallback 1 trialState)
       s.engine.pause = some .fallback ∧ (slotPasses s (secOf s).activeSlot true && fixedOnce (secOf s) (secOf s).activeSlot) = false)
    ∧ (let s := chanState fun c => { c with state := .running }
       (s.chan 0).state ≠ .disabled) := by
  refine ⟨by constructor <;> decide +kernel, by constructor <;> decide +kernel, ?_⟩
  decide +kernel

/-! ### An ill-formed command for each check of WellFormed -/

/-- A well-formed packet of PLEN 0. -/
def plainPacket : Packet := packetFrom .sp 0x0101 []

/-- A well-formed link frame. -/
def plainFrame : LinkRx := { frame := askFrame 1 0, seq := 1, ack := 0, ackValid := false, credit := 0, intact := true }

theorem test_wf_accepts : (Instr.identify plainPacket).wf = true ∧ (Instr.idleFrameReceived .a plainFrame).wf = true
    ∧ (Instr.registerWrite 0 0xFFFC [0] true).wf = true ∧ (Instr.ainRoundEnd [4095] true).wf = true
    ∧ (Instr.headerComplete 0 { foreignHdr 2 0x7FF with ident := 0xFFFF07FF } [(1, 2)] 0 false).wf = true := by decide

theorem test_wf_refuses_packets : (Instr.identify { plainPacket with opcode := 65536 }).wf = false
    ∧ (Instr.getStack { plainPacket with plen := 256 }).wf = false ∧ (Instr.develop { plainPacket with tag := 65536 }).wf = false
    ∧ (Instr.setLoad { plainPacket with reserved := zeros 7 }).wf = false
    ∧ (Instr.undefinedOpcodeCommand { plainPacket with params := zeros 241 }).wf = false := by decide +kernel

theorem test_wf_refuses_interruptions : (Instr.lockstepMismatch 0 (some { plainPacket with plen := 256 })).wf = false
    ∧ (Instr.scrubPass .payloadPool (2 ^ 24) .clean none).wf = false
    ∧ (Instr.scrubPass .payloadPool 0 .clean (some { plainPacket with tag := 65536 })).wf = false := by decide

theorem test_wf_refuses_frames : (Instr.headerComplete 0 (foreignHdr 0 0x800) [] 0 false).wf = false
    ∧ (Instr.headerComplete 0 { foreignHdr 0 1 with af := 2 ^ 32 } [] 0 false).wf = false
    ∧ (Instr.headerComplete 0 { foreignHdr 2 1 with ident := 0x800 } [] 0 false).wf = false
    ∧ (Instr.frameReceived 0 2 [0] true).wf = false ∧ (Instr.candidateLatch 0 (2 ^ 64) false).wf = false
    ∧ (Instr.developSwitch (2 ^ 64)).wf = false ∧ (Instr.timeExchange 0 0 0 (2 ^ 64)).wf = false := by decide

theorem test_wf_refuses_edges : (Instr.headerComplete 0 (foreignHdr 0 1) [(2 ^ 64, 0)] 0 false).wf = false
    ∧ (Instr.protocolException 0 [(0, 2 ^ 64)]).wf = false ∧ (Instr.fastFrameLost 0 [(0, 2 ^ 64)]).wf = false
    ∧ (Instr.busErrorDetected 0 .bit .data false .detected false 0 none [(2 ^ 64, 0)]).wf = false := by decide

theorem test_wf_refuses_link_frames : (Instr.cmdFrameReceived .a { plainFrame with frame := { plainFrame.frame with src := 8 } }).wf = false
    ∧ (Instr.replyFrameReceived .a { plainFrame with frame := { plainFrame.frame with dst := 8 } }).wf = false
    ∧ (Instr.eventFrameReceived .a { plainFrame with frame := { plainFrame.frame with info := 2 ^ 64 } }).wf = false
    ∧ (Instr.routeFrameReceived .a plainFrame false (2 ^ 64)).wf = false
    ∧ (Instr.stepFrameReceived .a { plainFrame with seq := 256 }).wf = false ∧ (Instr.timeFrameReceived .a { plainFrame with ack := 256 }).wf = false
    ∧ (Instr.discoverFrameReceived .a { plainFrame with credit := 256 }).wf = false := by decide

theorem test_wf_refuses_partners :
    let q : Partner := { position := 1, fwVer := 0, serial := 0, maxDelay := 60, wire := 0 }
    (Instr.linkUp .a q).wf = true ∧ (Instr.linkUp .a { q with position := 8 }).wf = false ∧ (Instr.linkUp .a { q with fwVer := 2 ^ 32 }).wf = false
      ∧ (Instr.linkUp .a { q with serial := 2 ^ 64 }).wf = false ∧ (Instr.linkUp .a { q with maxDelay := 65536 }).wf = false
      ∧ (Instr.linkUp .a { q with wire := 2 ^ 32 }).wf = false ∧ (Instr.linkDown .a 8).wf = false
      ∧ (Instr.linkTrainingFailed .a 8).wf = false := by decide

theorem test_wf_refuses_registers : (Instr.clearOnReadCounterRead 0 2 1 none).wf = false ∧ (Instr.windowLockTake 0 0x10000 1 none).wf = false
    ∧ (Instr.windowLockRelease 0 0xFFFC 2 none).wf = false ∧ (Instr.registerWrite 0 0x10000 [0] true).wf = false
    ∧ (Instr.windowLockTake 0 0x8000 1 (some 2112)).wf = false ∧ (Instr.readMo plainPacket (some 2112)).wf = false
    ∧ (Instr.clearOnReadCounterRead 0 0 1 (some 2112)).wf = false ∧ (Instr.windowLockRelease 0 0x8000 1 (some 2112)).wf = false := by decide

theorem test_wf_refuses_requests : (Instr.safetyRegisterRead 0x0B 65536 1 none).wf = false ∧ (Instr.safetyRegisterRead 0x02 0 1 none).wf = false
    ∧ (Instr.safetyRegisterRead 0x3C 0 1 none).wf = false ∧ (Instr.safetyRegisterRead 0x3D 0 1 none).wf = false
    ∧ (Instr.safetyRegisterWrite 0 256 [] none).wf = false ∧ (Instr.safetyPacketSend 65536 0 [] none false false).wf = false
    ∧ (Instr.safetyPacketReceive 0 256 none false).wf = false := by decide

theorem test_wf_refuses_lengths : (Instr.commandEntryFetched 0 (zeros 255) false).wf = false ∧ (Instr.descriptorLanding 0 0 (zeros 31) [] true).wf = false
    ∧ (Instr.descriptorLanding 0 0 (zeros 32) (zeros 2049) true).wf = false ∧ (Instr.dmaReadError 0 0 (some (zeros 257))).wf = false
    ∧ (Instr.ainRoundEnd [4096] false).wf = false ∧ (Instr.vbatsFilterUpdate [65536]).wf = false
    ∧ (Instr.loadTick [65536]).wf = false := by decide +kernel

/-! ### Worked examples of the spec -/

/-- The bit clocks of the nominal and the 2 Mbit/s row of chapter 06, and a sample point of 1,600 ns. -/
theorem test_bit_clocks : (let b := bitClocks { brp := 1, tseg1 := 255, tseg2 := 64, sjw := 64, tdc := 0, tdco := 0, tdcf := 0 }
      b.bit = 320 ∧ b.sample = 256)
    ∧ (let b := bitClocks { brp := 1, tseg1 := 63, tseg2 := 16, sjw := 16, tdc := 0, tdco := 0, tdcf := 0 }
       b.bit = 80 ∧ b.sample = 64)
    ∧ clocksNs 256 = 1600 := by decide

/-- The frame times of chapter 12's example: 270,000 ns and 404,000 ns. -/
theorem test_bus_times : clocksNs (busClocks (foreignHdr 0 0x0A0) 8 320 80 true) = 270000
    ∧ clocksNs (busClocks { foreignHdr 0 0x650 with fmt := .fd, brs := true } 64 320 80 true) = 404000 := by decide

/-- A record of that example as the calculator takes it. -/
def exampleItem (num mo period jitter intake c : Nat) : Item :=
  { num := num, own := mo != 0, gone := false, ch := 22, seq := [], mo := mo, crit := 3, checked := true, deadline := 0, feed := 0, period := period
    jitter := jitter, intake := intake, c := c, cs := c - 6400, cv := c - 8400, cvMin := 0 }

/-- The channel's budget, E 1 in W 10,000 µs, with 31 bits of 2,000 ns. -/
def exampleBudget : Budget := { e := 1, w := 10000000, c31 := 62000, m := 2400 }

/-- Exposure of S1 and S2: 1,272,681 ns and 1,810,681 ns. -/
theorem test_exposures :
    let f1 := exampleItem 0x20 0 5000000 200000 0 270000
    let s1 := exampleItem 0x10 1 10000000 0 681 270000
    let s2 := exampleItem 0x11 2 20000000 0 681 404000
    let f2 := exampleItem 0x21 0 50000000 0 0 404000
    responseOf exampleBudget [f1] s1 [s2, f2] s1.cs = some (1272681, 404000)
      ∧ responseOf exampleBudget [f1, s1] s2 [f2] s2.cs = some (1810681, 404000) := by decide +kernel

/-- The refused addition: S1's exposure with S3 before it is 1,542,681 ns. -/
theorem test_refused_addition :
    let f1 := exampleItem 0x20 0 5000000 200000 0 270000
    let s3 := exampleItem 0x12 3 2000000 0 681 270000
    let s1 := exampleItem 0x10 1 10000000 0 681 270000
    let s2 := exampleItem 0x11 2 20000000 0 681 404000
    responseOf exampleBudget [f1, s3] s1 [s2, exampleItem 0x21 0 50000000 0 0 404000] s1.cs = some (1542681, 404000) := by decide +kernel

/-- The 16-bit reflected check value of chapter 14, fed by command: 0xFD20 after 0xA5, then 0xDA10. -/
theorem test_check_value_reflected :
    let q : CvuParams := { route := false, width := 16, poly := 0x1021, init := 0xFFFF, xorout := 0, refin := true, refout := true }
    cvuFeed q 0xFFFF [0xA5] = 0x04BF ∧ cvuResult q 0x04BF = 0xFD20 ∧ cvuFeed q 0x04BF [0x3C] = 0x085B ∧ cvuResult q 0x085B = 0xDA10 := by decide

/-- The compensation table of chapter 15. -/
theorem test_compensation :
    let e := fun vf => let s := loadState fun l => { l with policy := { l.policy with comp := true, vnom := 13200 } }
      effOf { s with load := { s.load with vf := vf } } (s.ld 7)
    e 11000 = 1000 ∧ e 12000 = 1000 ∧ e 13200 = 850 ∧ e 13800 = 778 ∧ e 14400 = 714 ∧ highUs 714 5000 = 3570 ∧ highUs 778 5000 = 3890 := by
  decide +kernel

/-- From a bus bit to a lamp: the frame 00 10 D4 80 … of chapter 13 turns LD7 on at 85.0 %. -/
theorem test_lamp :
    let s := ((lampState id).modLd 7 fun _ => { (loadState id).ld 7 with on := false, duty := 0 }).modLane 0 fun l => { l with waiting := [{ pdu := 0x40, data := [0, 0x10, 0xD4, 0x80, 0, 0, 0, 0], clk := 0, origin := 0, path := 0, rank := 0 }] }
    (match exec (.arrivalPass 0 false) s with
      | .next t => ((t.ld 7).on, (t.ld 7).duty)
      | _ => (false, 0)) = (true, 850) := by decide +kernel

/-- The bucket of identifier 0x316 in chapter 09's example. -/
theorem test_bucket : bucketOf 0x316 0 0 = 0x10 := by decide

/-- One acknowledge error of an error-active channel alone on its bus: TEC 8 (chapter 07's example). -/
theorem test_alone_channel :
    (let s := moState (fun c => { c with state := .running, latched := some 1, bus := .sending true }) fun o => { o with full := true, inHeap := true }
     match exec (.busErrorDetected 0 .ack .delimAck false .detected false 0 none []) s with
      | .next t => ((t.chan 0).tec, (t.chan 0).recErr)
      | _ => (0, 0)) = (8, 0) := by decide +kernel

/-- The safety port reads GEN_FUNC_READY; the answer ends in the CRC-32 of its bytes (chapter 03). -/
theorem test_safety_read :
    (match exec (.safetyRegisterRead 0x0B 0x10 1 (crcOf [0x0B, 0x10, 0, 1])) upState with
      | .next t => t.out.getLast?
      | _ => none) = some (spAnswer 0 [0xFF, 0xCF, 0, 0]) := by decide +kernel

/-- A step takes the front command and leaves the rest; with none waiting a cycle of TIME passes. -/
theorem test_step :
    (match step { upState with pending := [.aonStart, .fix true] } with
      | .next t => t.pending
      | _ => []) = [.fix true]
    ∧ (match step upState with
      | .next t => t.time.clk
      | _ => 0) = upState.time.clk + 1 := by decide +kernel

end
end

