-- ==== Sys2Proof/Proofs/RegisterAccesses.lean ====
section
/-!
PROOFS. The register accesses with effects of their own: what each command does once the ZB64 accepts the access (R86, R97,
R99, R101, R128, R129, R141).
-/

namespace Sys2Proof.Machine

/-! ### The reference passes beside the rings -/

/-- Cycles of the reference touch only the time base (R354). -/
@[simp] theorem reachClk_host (t : Nat) (s : State) : (reachClk t s).host = s.host := by
  unfold reachClk
  split <;> rfl

@[simp] theorem reachClk_ring (t c k : Nat) (s : State) : (reachClk t s).ring c k = s.ring c k := by
  simp only [State.ring, State.fn, reachClk_host]

/-! ### Words of BAR0 and the effect of reading them (R99, R101) -/

theorem barRead_timeLo (s : State) (c : Nat) : barRead s c 0x20 = s.time.time % 2 ^ 32 := rfl

theorem barRead_dblDiscards (s : State) (c : Nat) : barRead s c 0x110 = (s.fn c).dblDiscards := rfl

theorem barRead_dmaErrors (s : State) (c : Nat) : barRead s c 0x114 = (s.fn c).dmaErrors := rfl

theorem barRead_evtLost (s : State) (c : Nat) : barRead s c 0x118 = (s.fn c).evtLost := rfl

theorem readEffect_dblDiscards (c : Nat) (s : State) :
    readEffect c 0x110 s = s.modFn c fun n => { n with dblDiscards := 0 } := rfl

theorem readEffect_dmaErrors (c : Nat) (s : State) :
    readEffect c 0x114 s = s.modFn c fun n => { n with dmaErrors := 0 } := rfl

theorem readEffect_evtLost (c : Nat) (s : State) :
    readEffect c 0x118 s = s.modFn c fun n => { n with evtLost := 0 } := rfl

theorem barWords_one (c off : Nat) (s : State) : barWords c 1 off s = ([barRead s c off], readEffect c off s) := rfl

theorem barWords_two_fst (c off : Nat) (s : State) :
    (barWords c 2 off s).1 = [barRead s c off, barRead (readEffect c off s) c (off + 4)] := rfl

/-! ### A read of BAR0 (R97, R98, R131) -/

theorem hostRead_window (c : Nat) {off n : Nat} (found : Option Nat) (s : State) (lo : 0x8000 ≤ off) (hi : off < 0x8820)
    (ok : winReadOk off n = true) : hostRead c off n found s = windowRead c off n found s := by
  simp only [hostRead, lo, hi, ok, decide_true, Bool.and_self, if_true]

theorem hostRead_registers (c : Nat) {off n : Nat} (found : Option Nat) (s : State) (out : off < 0x8000 ∨ 0x8820 ≤ off)
    (ok : regReadOk off n = true) :
    hostRead c off n found s = (barWords c n off s).2.emit (.read c (barWords c n off s).1) := by
  have outside : ¬ ((decide (0x8000 ≤ off) && decide (off < 0x8820)) = true) := by
    rw [Bool.and_eq_true, decide_eq_true_eq, decide_eq_true_eq]
    omega
  simp only [hostRead, if_neg outside, ok, if_true]

/-- One register outside the window: the word as it stands, then its effect. -/
theorem hostRead_register (c : Nat) {off : Nat} (s : State) (out : off < 0x8000) (aligned : regReadOk off 1 = true) :
    hostRead c off 1 none s = (readEffect c off s).emit (.read c [barRead s c off]) := by
  rw [hostRead_registers c none s (.inl out) aligned, barWords_one]

/-! ### The commands on a function whose BAR0 is reachable -/

section
variable {c : Fin 64} {s : State} (bar : barOpen s c.val = true)
include bar

theorem exec_irqCauseClear (v : Word) : exec (.irqCauseClear c v) s = next (clearIrq c.val v s) := by
  show execIrqCauseClear c v s = _
  simp [execIrqCauseClear, bar]

theorem exec_irqMaskWrite (v : Word) : exec (.irqMaskWrite c v) s = next (writeIrqMask c.val v s) := by
  show execIrqMaskWrite c v s = _
  simp [execIrqMaskWrite, bar]

theorem exec_genTimeLoRead : exec (.genTimeLoRead c) s
    = next ((s.modFn c.val fun n => { n with timeHi := timeHiNow s }).emit (.read c.val [s.time.time % 2 ^ 32])) := by
  show execGenTimeLoRead c s = _
  simp [execGenTimeLoRead, bar, barRead_timeLo]

theorem exec_clearOnReadCounterRead (off n : Nat) (found : Option Nat) :
    exec (.clearOnReadCounterRead c off n found) s = next (hostRead c.val off n found s) := by
  show execClearOnReadCounterRead c off n found s = _
  simp [execClearOnReadCounterRead, bar]

/-- A read of one register outside the window. -/
theorem exec_registerRead {off : Nat} (out : off < 0x8000) (aligned : regReadOk off 1 = true) :
    exec (.clearOnReadCounterRead c off 1 none) s = next ((readEffect c.val off s).emit (.read c.val [barRead s c.val off])) := by
  rw [exec_clearOnReadCounterRead bar, hostRead_register c.val s out aligned]

theorem exec_registerWrite {off : Nat} {w : List Word} {b : Bool} (ok : writeOk off w b = true) :
    exec (.registerWrite c off w b) s = next (forRange w.length (fun i s => writeWord c (off + 4 * i) (w.getD i 0) s) s) := by
  show execRegisterWrite c off w b s = _
  simp [execRegisterWrite, bar, ok]

end

theorem exec_wakeStatusClear {sp high : Bool} {v : Word} {s : State} (may : (if sp then s.isReady 0 else barOpen s 0) = true) :
    exec (.wakeStatusClear sp high v) s = next (clearWake high v s) := by
  show execWakeStatusClear sp high v s = _
  simp only [execWakeStatusClear, may, if_true]

/-- The end of HOLDOFF stamps the ring anew and, where the ring interrupts, sends its message (R128). -/
theorem exec_msixHoldoffEnd {c : Fin 64} {k : Fin 36} {s : State} {t : Nat} (gathered : (s.ring c.val k.val).gathered = true)
    (last : (s.ring c.val k.val).lastMsg = some t) (ready : s.isReady 1 = true) :
    let r := s.ring c.val k.val
    let u := reachClk (t + ringHoldoff r * 1000) s
    let w := u.modRing c.val k.val fun r => { r with lastMsg := some u.time.clk, gathered := false }
    exec (.msixHoldoffEnd c k) s = next (if ringIrqEn r then sendMsix c.val (ringVector r) w else w) := by
  show execMsixHoldoffEnd c k s = _
  simp [execMsixHoldoffEnd, gathered, last, ready, usNs]

end Sys2Proof.Machine

open Sys2Proof Sys2Proof.Machine

/-- Settles O18: a command whose access is accepted makes its access, and each access has the effect stated. -/
theorem registerAccessesComplete : Obligations.RegisterAccessesComplete := by
  refine ⟨fun c v s bar => ⟨exec_irqCauseClear bar v, exec_irqMaskWrite bar v, exec_genTimeLoRead bar, ?_, ?_, ?_⟩,
    fun c off n found s bar => ⟨⟨fun lo hi ok => ?_, fun out ok => ?_⟩, barWords_one .., barWords_two_fst ..⟩,
    fun c off w b s bar ok => exec_registerWrite bar ok,
    fun sp high v s may => exec_wakeStatusClear may,
    fun c k s t gathered last ready enabled => ?_⟩
  · rw [exec_registerRead bar (by decide) (by decide), readEffect_dblDiscards, barRead_dblDiscards]; rfl
  · rw [exec_registerRead bar (by decide) (by decide), readEffect_dmaErrors, barRead_dmaErrors]; rfl
  · rw [exec_registerRead bar (by decide) (by decide), readEffect_evtLost, barRead_evtLost]; rfl
  · rw [exec_clearOnReadCounterRead bar, hostRead_window c.val found s lo hi ok]; rfl
  · rw [exec_clearOnReadCounterRead bar, hostRead_registers c.val found s out ok]; rfl
  · rw [reachClk_ring] at enabled
    rw [exec_msixHoldoffEnd gathered last ready, if_pos enabled]; rfl

end

