-- ==== Sys2Proof/Proofs/Steps.lean ====
section
/-!
PROOFS. What every step keeps of the queue and the fault log, from what each command keeps (R39, R42, R71).
-/

namespace Sys2Proof.Machine

/-! ### Every command keeps the queue, the straps, the log and the tables, but for the resets of the whole device -/

/-- A command is one of the three resets of the whole device, or it keeps what `Keeps` says (R39, R42, R56, R152). -/
theorem exec_keeps_or_reset (c : Instr) (s : State) :
    OKeeps s (exec c s) ∨ (∃ x y z, c = .powerOnReset x y z) ∨ (∃ u x y z, c = .brownOut u x y z)
      ∨ (∃ x y z, c = .warmReset x y z) := by
  have kept := Keeps.refl s
  cases c with
  | powerOnReset s1 s2 s3 => exact .inr (.inl ⟨_, _, _, rfl⟩)
  | brownOut supply s1 s2 s3 => exact .inr (.inr (.inl ⟨_, _, _, _, rfl⟩))
  | brownOutRestart => exact .inl (execBrownOutRestart_keeps kept)
  | warmReset s1 s2 s3 => exact .inr (.inr (.inr ⟨_, _, _, rfl⟩))
  | pcieFundamentalReset => exact .inl (execPcieFundamentalReset_keeps kept)
  | resumeFromRetain => exact .inl (execResumeFromRetain_keeps kept)
  | aonStart => exact .inl (execAonStart_keeps kept)
  | functionReady f up => exact .inl (execFunctionReady_keeps f up kept)
  | maskRomBoot => exact .inl (execMaskRomBoot_keeps kept)
  | imageStart => exact .inl (execImageStart_keeps kept)
  | pllLossOfLock pll acked tdcvs => exact .inl (execPllLossOfLock_keeps pll acked tdcvs kept)
  | pllRelock pll => exact .inl (execPllRelock_keeps pll kept)
  | referenceLoss acked tdcvs => exact .inl (execReferenceLoss_keeps acked tdcvs kept)
  | lockstepMismatch pc interrupted => exact .inl (execLockstepMismatch_keeps pc interrupted kept)
  | commandPauseEnd slotGood => exact .inl (execCommandPauseEnd_keeps slotGood kept)
  | scrubPass region addr finding interrupted => exact .inl (execScrubPass_keeps region addr finding interrupted kept)
  | vfEnable numVfs => exact .inl (execVfEnable_keeps numVfs kept)
  | vfDisable => exact .inl (execVfDisable_keeps kept)
  | contextStopBathEnd c => exact .inl (execContextStopBathEnd_keeps c kept)
  | vfFlr c => exact .inl (execVfFlr_keeps c kept)
  | vfFlrEnd c => exact .inl (execVfFlrEnd_keeps c kept)
  | pfFlr => exact .inl (execPfFlr_keeps kept)
  | producerDoorbellWrite c k value => exact .inl (execProducerDoorbellWrite_keeps c k value kept)
  | consumerDoorbellWrite c k value => exact .inl (execConsumerDoorbellWrite_keeps c k value kept)
  | ringEnable c k ctrl => exact .inl (execRingEnable_keeps c k ctrl kept)
  | ringDisable c k ctrl => exact .inl (execRingDisable_keeps c k ctrl kept)
  | ringStopBathEnd c k => exact .inl (execRingStopBathEnd_keeps c k kept)
  | dmaErrClear c k => exact .inl (execDmaErrClear_keeps c k kept)
  | dmaReadError c k entry => exact .inl (execDmaReadError_keeps c k entry kept)
  | irqCauseClear c value => exact .inl (execIrqCauseClear_keeps c value kept)
  | irqMaskWrite c value => exact .inl (execIrqMaskWrite_keeps c value kept)
  | msixHoldoffEnd c k => exact .inl (execMsixHoldoffEnd_keeps c k kept)
  | wakeStatusClear bySafety high value => exact .inl (execWakeStatusClear_keeps bySafety high value kept)
  | genTimeLoRead c => exact .inl (execGenTimeLoRead_keeps c kept)
  | clearOnReadCounterRead c offset count found => exact .inl (execClearOnReadCounterRead_keeps c offset count found kept)
  | winSelectWrite c value => exact .inl (execWinSelectWrite_keeps c value kept)
  | windowLockTake c offset count found => exact .inl (execWindowLockTake_keeps c offset count found kept)
  | windowLockRelease c offset count found => exact .inl (execWindowLockRelease_keeps c offset count found kept)
  | windowLockTimeout c => exact .inl (execWindowLockTimeout_keeps c kept)
  | registerWrite c offset words allBytes => exact .inl (execRegisterWrite_keeps c offset words allBytes kept)
  | safetyRegisterRead typ arg count crc => exact .inl (execSafetyRegisterRead_keeps typ arg count crc kept)
  | safetyRegisterWrite arg count words crc => exact .inl (execSafetyRegisterWrite_keeps arg count words crc kept)
  | safetyPacketSend arg count data crc parity forceParity => exact .inl (execSafetyPacketSend_keeps arg count data crc parity forceParity kept)
  | safetyPacketReceive arg count crc parity => exact .inl (execSafetyPacketReceive_keeps arg count crc parity kept)
  | replyRingWrite c parity => exact .inl (execReplyRingWrite_keeps c parity kept)
  | eventRingWrite c parity => exact .inl (execEventRingWrite_keeps c parity kept)
  | rxRingWrite c parity => exact .inl (execRxRingWrite_keeps c parity kept)
  | descriptorLanding c k entry payload parity => exact .inl (execDescriptorLanding_keeps c k entry payload parity kept)
  | routedFrameIntake lane parity => exact .inl (execRoutedFrameIntake_keeps lane parity kept)
  | candidateLatch ch stamp parity => exact .inl (execCandidateLatch_keeps ch stamp parity kept)
  | arbitrationLost ch => exact .inl (execArbitrationLost_keeps ch kept)
  | arbitrationWon ch => exact .inl (execArbitrationWon_keeps ch kept)
  | headerComplete ch hdr edges decision parity => exact .inl (execHeaderComplete_keeps ch hdr edges decision parity kept)
  | frameReceived ch len data parity => exact .inl (execFrameReceived_keeps ch len data parity kept)
  | distributorCopy ch parity => exact .inl (execDistributorCopy_keeps ch parity kept)
  | transmitSuccess ch acked tdcv => exact .inl (execTransmitSuccess_keeps ch acked tdcv kept)
  | busErrorDetected ch code field ed row acked bytes tdcv edges =>
    exact .inl (execBusErrorDetected_keeps ch code field ed row acked bytes tdcv edges kept)
  | attemptFailed ch tdcv => exact .inl (execAttemptFailed_keeps ch tdcv kept)
  | protocolException ch edges => exact .inl (execProtocolException_keeps ch edges kept)
  | busIntegrationComplete ch => exact .inl (execBusIntegrationComplete_keeps ch kept)
  | busIdle ch => exact .inl (execBusIdle_keeps ch kept)
  | idleLimitExpiry c ch => exact .inl (execIdleLimitExpiry_keeps c ch kept)
  | stbnSettleEnd ch => exact .inl (execStbnSettleEnd_keeps ch kept)
  | channelStopBathEnd ch => exact .inl (execChannelStopBathEnd_keeps ch kept)
  | autoDelayExpiry ch => exact .inl (execAutoDelayExpiry_keeps ch kept)
  | recoveryComplete ch => exact .inl (execRecoveryComplete_keeps ch kept)
  | wakeDetected ch => exact .inl (execWakeDetected_keeps ch kept)
  | powerTransitionComplete => exact .inl (execPowerTransitionComplete_keeps kept)
  | developSwitch instant => exact .inl (execDevelopSwitch_keeps instant kept)
  | contactSheetCapture bank => exact .inl (execContactSheetCapture_keeps bank kept)
  | sheetBankRelease bank => exact .inl (execSheetBankRelease_keeps bank kept)
  | slewEnd => exact .inl (execSlewEnd_keeps kept)
  | ppsInCapture => exact .inl (execPpsInCapture_keeps kept)
  | ppsStepLapse => exact .inl (execPpsStepLapse_keeps kept)
  | ppsOutRise => exact .inl (execPpsOutRise_keeps kept)
  | ppsOutFall => exact .inl (execPpsOutFall_keeps kept)
  | trigioEdge ball rising => exact .inl (execTrigioEdge_keeps ball rising kept)
  | triggerFire unit => exact .inl (execTriggerFire_keeps unit kept)
  | triggerPulseEnd unit => exact .inl (execTriggerPulseEnd_keeps unit kept)
  | shutterArmPoint mo => exact .inl (execShutterArmPoint_keeps mo kept)
  | releaseNotice mo parity => exact .inl (execReleaseNotice_keeps mo parity kept)
  | shutterInstant mo => exact .inl (execShutterInstant_keeps mo kept)
  | deadlineTimerExpiry record => exact .inl (execDeadlineTimerExpiry_keeps record kept)
  | streamStopBathEnd record => exact .inl (execStreamStopBathEnd_keeps record kept)
  | arrivalPass lane parity => exact .inl (execArrivalPass_keeps lane parity kept)
  | pduTimeout pdu => exact .inl (execPduTimeout_keeps pdu kept)
  | timeoutPass pdu => exact .inl (execTimeoutPass_keeps pdu kept)
  | periodicPackNotice pdu => exact .inl (execPeriodicPackNotice_keeps pdu kept)
  | periodicPass pdu => exact .inl (execPeriodicPass_keeps pdu kept)
  | deferredPass pdu => exact .inl (execDeferredPass_keeps pdu kept)
  | dinSample levels => exact .inl (execDinSample_keeps levels kept)
  | ainRoundEnd codes vbats => exact .inl (execAinRoundEnd_keeps codes vbats kept)
  | vbatsFilterUpdate samples => exact .inl (execVbatsFilterUpdate_keeps samples kept)
  | loadTick samples => exact .inl (execLoadTick_keeps samples kept)
  | inrushWindowEnd ld => exact .inl (execInrushWindowEnd_keeps ld kept)
  | backoffEnd ld => exact .inl (execBackoffEnd_keeps ld kept)
  | healReached ld => exact .inl (execHealReached_keeps ld kept)
  | loadStopBathEnd ld => exact .inl (execLoadStopBathEnd_keeps ld kept)
  | pwmPeriodStart ld => exact .inl (execPwmPeriodStart_keeps ld kept)
  | pwmHighEnd ld => exact .inl (execPwmHighEnd_keeps ld kept)
  | chainTransferEnd swc response => exact .inl (execChainTransferEnd_keeps swc response kept)
  | cvuStopBathEnd unit => exact .inl (execCvuStopBathEnd_keeps unit kept)
  | censusLostJudgement => exact .inl (execCensusLostJudgement_keeps kept)
  | linkUp port partner => exact .inl (execLinkUp_keeps port partner kept)
  | linkDown port reason => exact .inl (execLinkDown_keeps port reason kept)
  | linkConflictRetry port => exact .inl (execLinkConflictRetry_keeps port kept)
  | linkStopBathEnd port => exact .inl (execLinkStopBathEnd_keeps port kept)
  | timeFrameReceived port f => exact .inl (execTimeFrameReceived_keeps port f kept)
  | timeExchange t1 t2 t3 t4 => exact .inl (execTimeExchange_keeps t1 t2 t3 t4 kept)
  | alignmentTimeout => exact .inl (execAlignmentTimeout_keeps kept)
  | routeFrameReceived port f parity valid => exact .inl (execRouteFrameReceived_keeps port f parity valid kept)
  | stepFrameReceived port f => exact .inl (execStepFrameReceived_keeps port f kept)
  | cmdFrameReceived port f => exact .inl (execCmdFrameReceived_keeps port f kept)
  | replyFrameReceived port f => exact .inl (execReplyFrameReceived_keeps port f kept)
  | eventFrameReceived port f => exact .inl (execEventFrameReceived_keeps port f kept)
  | discoverFrameReceived port f => exact .inl (execDiscoverFrameReceived_keeps port f kept)
  | idleFrameReceived port f => exact .inl (execIdleFrameReceived_keeps port f kept)
  | replayTimeout port => exact .inl (execReplayTimeout_keeps port kept)
  | discoverRound => exact .inl (execDiscoverRound_keeps kept)
  | proofModeStart => exact .inl (execProofModeStart_keeps kept)
  | fix selfTests => exact .inl (execFix_keeps selfTests kept)
  | confirmTimerExpiry => exact .inl (execConfirmTimerExpiry_keeps kept)
  | sessionIdleTimeout => exact .inl (execSessionIdleTimeout_keeps kept)
  | identify p => exact .inl (execIdentify_keeps p kept)
  | takeContactSheet p => exact .inl (execTakeContactSheet_keeps p kept)
  | getReadiness p => exact .inl (execGetReadiness_keeps p kept)
  | setPowerState p => exact .inl (execSetPowerState_keeps p kept)
  | setWake p => exact .inl (execSetWake_keeps p kept)
  | clearCounters p => exact .inl (execClearCounters_keeps p kept)
  | readFaultLog p => exact .inl (execReadFaultLog_keeps p kept)
  | readContactSheet p => exact .inl (execReadContactSheet_keeps p kept)
  | getContext p => exact .inl (execGetContext_keeps p kept)
  | setContextQuota p => exact .inl (execSetContextQuota_keeps p kept)
  | setContextChannels p => exact .inl (execSetContextChannels_keeps p kept)
  | setContextRights p => exact .inl (execSetContextRights_keeps p kept)
  | quiesceContext p => exact .inl (execQuiesceContext_keeps p kept)
  | develop p => exact .inl (execDevelop_keeps p kept)
  | discardLatent p => exact .inl (execDiscardLatent_keeps p kept)
  | getLatent p => exact .inl (execGetLatent_keeps p kept)
  | cancelDevelop p => exact .inl (execCancelDevelop_keeps p kept)
  | setChannelMode p => exact .inl (execSetChannelMode_keeps p kept)
  | setBitTiming p => exact .inl (execSetBitTiming_keeps p kept)
  | enableChannel p => exact .inl (execEnableChannel_keeps p kept)
  | disableChannel p => exact .inl (execDisableChannel_keeps p kept)
  | cancelTx p => exact .inl (execCancelTx_keeps p kept)
  | recoverBusOff p => exact .inl (execRecoverBusOff_keeps p kept)
  | getChannelStatus p => exact .inl (execGetChannelStatus_keeps p kept)
  | setTransceiver p => exact .inl (execSetTransceiver_keeps p kept)
  | allocMo p => exact .inl (execAllocMo_keeps p kept)
  | configMo p => exact .inl (execConfigMo_keeps p kept)
  | freeMo p => exact .inl (execFreeMo_keeps p kept)
  | readMo p found => exact .inl (execReadMo_keeps p found kept)
  | writeFilter p => exact .inl (execWriteFilter_keeps p kept)
  | clearFilter p => exact .inl (execClearFilter_keeps p kept)
  | readFilter p => exact .inl (execReadFilter_keeps p kept)
  | getFilterStats p => exact .inl (execGetFilterStats_keeps p kept)
  | configQueue p => exact .inl (execConfigQueue_keeps p kept)
  | setWatermark p => exact .inl (execSetWatermark_keeps p kept)
  | getQueueStatus p => exact .inl (execGetQueueStatus_keeps p kept)
  | getTime p => exact .inl (execGetTime_keeps p kept)
  | adjustRate p => exact .inl (execAdjustRate_keeps p kept)
  | stepTime p => exact .inl (execStepTime_keeps p kept)
  | setShutter p => exact .inl (execSetShutter_keeps p kept)
  | clearShutter p => exact .inl (execClearShutter_keeps p kept)
  | setTrigger p => exact .inl (execSetTrigger_keeps p kept)
  | setPps p => exact .inl (execSetPps_keeps p kept)
  | declareStream p => exact .inl (execDeclareStream_keeps p kept)
  | withdrawStream p => exact .inl (execWithdrawStream_keeps p kept)
  | declareForeign p => exact .inl (execDeclareForeign_keeps p kept)
  | setFaultBudget p => exact .inl (execSetFaultBudget_keeps p kept)
  | admitRoute p => exact .inl (execAdmitRoute_keeps p kept)
  | getExposure p => exact .inl (execGetExposure_keeps p kept)
  | ackUnassured p => exact .inl (execAckUnassured_keeps p kept)
  | getMonitors p => exact .inl (execGetMonitors_keeps p kept)
  | writePdu p => exact .inl (execWritePdu_keeps p kept)
  | writeSignal p => exact .inl (execWriteSignal_keeps p kept)
  | writeRoute p => exact .inl (execWriteRoute_keeps p kept)
  | loadBundleBlock p => exact .inl (execLoadBundleBlock_keeps p kept)
  | readSignal p => exact .inl (execReadSignal_keeps p kept)
  | setLocalIo p => exact .inl (execSetLocalIo_keeps p kept)
  | getRouteStats p => exact .inl (execGetRouteStats_keeps p kept)
  | configCvu p => exact .inl (execConfigCvu_keeps p kept)
  | feedCvu p => exact .inl (execFeedCvu_keeps p kept)
  | readCvu p => exact .inl (execReadCvu_keeps p kept)
  | writeCvuValue p => exact .inl (execWriteCvuValue_keeps p kept)
  | enableCvu p => exact .inl (execEnableCvu_keeps p kept)
  | disableCvu p => exact .inl (execDisableCvu_keeps p kept)
  | bindLoad p => exact .inl (execBindLoad_keeps p kept)
  | setSwitchProfile p => exact .inl (execSetSwitchProfile_keeps p kept)
  | setLoad p => exact .inl (execSetLoad_keeps p kept)
  | setLoadPolicy p => exact .inl (execSetLoadPolicy_keeps p kept)
  | forceSafe p => exact .inl (execForceSafe_keeps p kept)
  | getLoadStatus p => exact .inl (execGetLoadStatus_keeps p kept)
  | resetLoadLatch p => exact .inl (execResetLoadLatch_keeps p kept)
  | enableLoad p => exact .inl (execEnableLoad_keeps p kept)
  | disableLoad p => exact .inl (execDisableLoad_keeps p kept)
  | getStack p => exact .inl (execGetStack_keeps p kept)
  | configLink p => exact .inl (execConfigLink_keeps p kept)
  | getCensus p => exact .inl (execGetCensus_keeps p kept)
  | clearCensus p => exact .inl (execClearCensus_keeps p kept)
  | setCensusEvents p => exact .inl (execSetCensusEvents_keeps p kept)
  | enableLink p => exact .inl (execEnableLink_keeps p kept)
  | disableLink p => exact .inl (execDisableLink_keeps p kept)
  | openSession p => exact .inl (execOpenSession_keeps p kept)
  | writeImageBlock p => exact .inl (execWriteImageBlock_keeps p kept)
  | closeSession p => exact .inl (execCloseSession_keeps p kept)
  | activate p => exact .inl (execActivate_keeps p kept)
  | approve p => exact .inl (execApprove_keeps p kept)
  | veto p => exact .inl (execVeto_keeps p kept)
  | rejectImage p => exact .inl (execRejectImage_keeps p kept)
  | getUpdateStatus p => exact .inl (execGetUpdateStatus_keeps p kept)
  | setOwnerLock p => exact .inl (execSetOwnerLock_keeps p kept)
  | clearOwnerLock p => exact .inl (execClearOwnerLock_keeps p kept)
  | getSecurity p => exact .inl (execGetSecurity_keeps p kept)
  | perstnRelease => exact .inl (execPerstnRelease_keeps kept)
  | commandEntryFetched c entry parity => exact .inl (execCommandEntryFetched_keeps c entry parity kept)
  | undefinedOpcodeCommand p => exact .inl (execUndefinedOpcodeCommand_keeps p kept)
  | overloadFrameSeen ch => exact .inl (execOverloadFrameSeen_keeps ch kept)
  | recessiveSequenceCounted ch => exact .inl (execRecessiveSequenceCounted_keeps ch kept)
  | fastFrameLost ch edges => exact .inl (execFastFrameLost_keeps ch edges kept)
  | filmstripDrainEnd => exact .inl (execFilmstripDrainEnd_keeps kept)
  | linkTrainingFailed port reason => exact .inl (execLinkTrainingFailed_keeps port reason kept)

/-- Every command ends in a next state that keeps the queue, and the log and the tables where they are in order. -/
theorem exec_keepsRun (c : Instr) (s : State) : ∃ t, exec c s = .next t ∧ KeepsRun s t := by
  rcases exec_keeps_or_reset c s with ⟨t, e, k⟩ | ⟨x, y, z, rfl⟩ | ⟨u, x, y, z, rfl⟩ | ⟨x, y, z, rfl⟩
  · exact ⟨t, e, k.keepsRun⟩
  · exact execPowerOnReset_keepsRun x y z s
  · exact execBrownOut_keepsRun u x y z s
  · exact execWarmReset_keepsRun x y z s

/-! ### A step -/

theorem step_cons {s : State} {c : Instr} {rest : List Instr} (h : s.pending = c :: rest) :
    step s = exec c { s with pending := rest } := by
  simp only [step, h]

theorem step_idle {s : State} (h : s.pending = []) : step s = next (filmDrainOne (passCycles 1 s)) := by
  simp only [step, h, idle]

/-- A step keeps the log sound: taking the front command off the queue leaves the log alone, and what runs keeps it. -/
theorem step_keeps_logSound {s t : State} (sound : LogSound s) (e : step s = .next t) : LogSound t := by
  cases h : s.pending with
  | nil =>
    rw [step_idle h] at e
    cases e
    exact (fcSettle_keeps (filmDrainOne_keeps (passCycles_keeps 1 (Keeps.refl s)))).log sound
  | cons c rest =>
    obtain ⟨u, eu, k⟩ := exec_keepsRun c { s with pending := rest }
    rw [step_cons h, eu] at e
    cases e
    exact k.log sound

/-! ### The state after reset -/

/-- The log is shipped empty, and the number of its first entry is 1 (R39). -/
theorem logSound_reset : LogSound State.reset := ⟨by decide, by decide, by decide, trivial⟩

theorem tablesRising_reset : TablesRising State.reset := ⟨rfl, rfl, rfl, rfl, rfl, rfl⟩

end Sys2Proof.Machine

open Sys2Proof Sys2Proof.Machine

/-- Settles O1: `step` runs the front command, and an idle one lets a TIME cycle pass. -/
theorem stepRunsTheFrontCommand : Obligations.StepRunsTheFrontCommand :=
  ⟨fun _ _ _ h => step_cons h, fun _ h => step_idle h⟩

/-- Settles O2, from what every command keeps. -/
theorem everyCommandLeavesTheQueue : Obligations.EveryCommandLeavesTheQueue := by
  intro c s
  obtain ⟨t, e, k⟩ := exec_keepsRun c s
  exact ⟨t, e, k.pending⟩

/-- Settles O3: a command keeps the log sound, and so does an idle cycle. -/
theorem everyStepKeepsTheFaultLogSound : Obligations.EveryStepKeepsTheFaultLogSound :=
  fun _ _ => step_keeps_logSound

/-- Settles O5: the log is empty and so is every numbered table. -/
theorem resetIsSoundAndCanonical : Obligations.ResetIsSoundAndCanonical := ⟨logSound_reset, tablesRising_reset⟩

end

