-- ==== Sys2Proof/Proofs/ClocksAndRestarts.lean ====
section
/-!
PROOFS. Lost and returned clocks (R15, R17, R18, R621), and restarts of the command engine (R39, R42 to R46).
-/

namespace Sys2Proof.Machine

/-! ### What a fault-log entry leaves alone -/

/-- Interrupts touch the functions and the outputs only. -/
@[simp] theorem raiseIrq_engine (c bit : Nat) (s : State) : (raiseIrq c bit s).engine = s.engine := by
  unfold raiseIrq settleIrq
  dsimp only
  split
  · rfl
  · split <;> rfl

@[simp] theorem signalFault_engine (s : State) : (signalFault s).engine = s.engine := raiseIrq_engine 0 5 s

@[simp] theorem logFault_engine (cls source info1 info2 : Nat) (s : State) :
    (logFault cls source info1 info2 s).engine = s.engine := by
  simp only [logFault, apply_ite State.engine, signalFault_engine, ite_self]

@[simp] theorem logFault_aon (cls source info1 info2 : Nat) (s : State) : (logFault cls source info1 info2 s).aon = s.aon :=
  (logFault_tells _ _ _ _ (Tells.refl s)).aon

/-! ### Clocks (R17, R18, R621) -/

theorem pllOff_active (p : Pll) : pllOff .active p = false := rfl

theorem exec_pllLossOfLock {s : State} {p : Pll} (acked : BitVec 64) (m : List (Fin 64 × Fin 128)) (runs : s.isReady 0 = true)
    (locked : pllLost s p = false) (on : pllOff s.aon.power p = false) :
    exec (.pllLossOfLock p acked m) s = next (logFault 4 (islandCode p) 0 0 (stopIsland acked m p s)) := by
  show execPllLossOfLock p acked m s = _
  simp [execPllLossOfLock, runs, locked, on]

/-- An island without channels stops by clearing its readiness bits, which are remembered (R17). -/
theorem stopIsland_of_not_bank {s : State} {p : Pll} (acked : BitVec 64) (m : List (Fin 64 × Fin 128)) (locked : pllLost s p = false)
    (on : pllOff s.aon.power p = false) (island : ∀ b, p ≠ .bank b) :
    stopIsland acked m p s = setReady (s.aon.ready &&& ~~~ (islandBits p)) { s with aon := { s.aon with
      lostPlls := s.aon.lostPlls ++ [{ pll := p, bits := s.aon.ready &&& islandBits p }] } } := by
  simp only [stopIsland, locked, on, Bool.or_self, Bool.false_eq_true, if_false]
  cases p with
  | bank b => exact absurd rfl (island b)
  | host | core | route | time => rfl

theorem exec_referenceLoss {s : State} (acked : BitVec 64) (m : List (Fin 64 × Fin 128)) (runs : s.isReady 0 = true)
    (fed : s.aon.refLost = false) (power : s.aon.power = .active) :
    exec (.referenceLoss acked m) s = next (logFault 5 0 0 0
      (forEach [Pll.core, .route, .time, .bank 0, .bank 1, .bank 2, .bank 3] (stopIsland acked m)
        { s with aon := { s.aon with refLost := true } })) := by
  show execReferenceLoss acked m s = _
  simp [execReferenceLoss, runs, fed, power, pllOff_active]

/-! ### Restarts of the command engine (R42, R45, R46) -/

theorem exec_lockstepMismatch {s : State} (pc : Word) (i : Option Packet) (ready : s.isReady 2 = true) :
    exec (.lockstepMismatch pc i) s = next (restartEngine 1 i (logFault 2 0 pc.toNat (slotCode s.update.running) s)) := by
  show execLockstepMismatch pc i s = _
  simp [execLockstepMismatch, ready]

/-- A restart that meets no pause and no command only logs itself and starts the pause (R42, R46). -/
theorem restartEngine_idle {s : State} (cause : Nat) (free : s.engine.pause = none) (fixed : s.aon.proof = false) :
    restartEngine cause none s = { logFault 3 cause (slotCode s.update.running) 0 s with
      engine := { (logFault 3 cause (slotCode s.update.running) 0 s).engine with pause := some .restart } } := by
  simp [restartEngine, flag, free, fixed]

theorem exec_commandPauseEnd_restart {s : State} (g : Bool) (paused : s.engine.pause = some .restart) :
    exec (.commandPauseEnd g) s = next (forEach s.engine.late deliverReply
      { s with engine := { s.engine with pause := none, late := [] } }) := by
  show execCommandPauseEnd g s = _
  simp only [execCommandPauseEnd, paused, deliverLate]

end Sys2Proof.Machine

open Sys2Proof Sys2Proof.Machine

/-- Settles O13: `exec` of each of the three clock events where its guard lets it act. -/
theorem clockLossesComplete : Obligations.ClockLossesComplete := by
  refine ⟨fun s p acked m runs locked on => ⟨exec_pllLossOfLock acked m runs locked on, stopIsland_of_not_bank acked m locked on⟩,
    fun s p l lost => ?_, fun s acked m runs fed power => exec_referenceLoss acked m runs fed power⟩
  show execPllRelock p s = _
  simp only [execPllRelock, lost]
  cases p <;> rfl

/-- Settles O14: a mismatch writes its entry and restarts, and the pause's end delivers what waited. -/
theorem engineRestartsComplete : Obligations.EngineRestartsComplete :=
  ⟨fun _ pc i ready => exec_lockstepMismatch pc i ready, fun _ free fixed => restartEngine_idle 1 free fixed,
    fun _ g paused => exec_commandPauseEnd_restart g paused⟩

end

