-- ==== Sys2Proof/Proofs/ScrubPasses.lean ====
section
/-!
PROOFS. Scrub passes: what a corrected and an uncorrectable word does (R33 to R37, R299, R349, R460).
-/

namespace Sys2Proof.Machine

/-! ### Operations that only tell leave the fault log alone -/

/-- A fold keeps what each of its steps keeps. -/
theorem forEach_kept {α β : Type} (g : State → β) {f : α → State → State} (step : ∀ x s, g (f x s) = g s) (l : List α) (s : State) :
    g (forEach l f s) = g s := by
  unfold forEach
  induction l generalizing s with
  | nil => rfl
  | cons x l ih => exact (ih (f x s)).trans (step x s)

theorem forRange_kept {β : Type} (g : State → β) {f : Nat → State → State} (step : ∀ x s, g (f x s) = g s) (n : Nat) (s : State) :
    g (forRange n f s) = g s :=
  forEach_kept g step (List.range n) s

@[simp] theorem putFrame_log (p : Port) (f : LinkFrame) (s : State) : (putFrame p f s).log = s.log := by
  simp only [putFrame, State.emit_log, State.modLink_log]

@[simp] theorem pumpLink_log (p : Port) (n : Nat) (s : State) : (pumpLink p n s).log = s.log := by
  induction n generalizing s with
  | zero => rfl
  | succ n ih =>
    unfold pumpLink
    dsimp only
    split
    · rfl
    · split
      · rfl
      · split
        · exact (ih _).trans (putFrame_log p _ s)
        · rfl

@[simp] theorem sendFrame_log (p : Port) (f : LinkFrame) (s : State) : (sendFrame p f s).log = s.log := by
  simp only [sendFrame, apply_ite State.log, pumpLink_log, State.modLink_log, ite_self]

@[simp] theorem raiseIrq_log (c bit : Nat) (s : State) : (raiseIrq c bit s).log = s.log := by
  simp only [raiseIrq, settleIrq, sendMsix, apply_ite State.log, State.emit_log, State.modFn_log, ite_self]

@[simp] theorem pushEvent_log (c : Nat) (e : Event) (s : State) : (pushEvent c e s).log = s.log := by
  simp only [pushEvent, apply_ite State.log, raiseIrq_log, State.modFn_log, State.modCq_log, ite_self]

@[simp] theorem raiseEvent_log (c code : Nat) (data : List Byte) (s : State) : (raiseEvent c code data s).log = s.log := by
  unfold raiseEvent
  cases s.stack.upstream <;> simp only [apply_ite State.log, pushEvent_log, sendFrame_log, ite_self]

@[simp] theorem modStat_log (q : QKind × Nat) (f : QStat → QStat) (s : State) : (modStat q f s).log = s.log := by
  obtain ⟨k, n⟩ := q
  cases k <;> rfl

@[simp] theorem fcMeet_log (q : QKind × Nat) (f : Nat) (atOnce : Bool) (pin : Nat) (s : State) :
    (fcMeet q f atOnce pin s).log = s.log := by
  simp only [fcMeet, fcEvent, apply_ite State.log, raiseEvent_log, modStat_log, ite_self]

@[simp] theorem fcPin_log (pin : Nat) (s : State) : (fcPin pin s).log = s.log := by
  unfold fcPin
  split
  · rfl
  · exact fcMeet_log ..

@[simp] theorem fcSettle_log (s : State) : (fcSettle s).log = s.log := by
  simp only [fcSettle, apply_ite State.log, forRange_kept State.log fcPin_log, ite_self]

@[simp] theorem modStat_mem (q : QKind × Nat) (f : QStat → QStat) (s : State) : (modStat q f s).mem = s.mem :=
  (modStat_tells q f (Tells.refl s)).mem

@[simp] theorem fcSettle_mem (s : State) : (fcSettle s).mem = s.mem := (fcSettle_tells (Tells.refl s)).mem

/-! ### A pass over a word of its region (R33 to R37) -/

/-- The owner of the region is ready and the address lies in the region, so that the pass acts (R30, R35). -/
structure ScrubActs (r : Region) (a : Nat) (s : State) : Prop where
  ready : s.isReady (regionOwner r) = true
  low : (regionSpan r).1 ≤ a
  high : a < (regionSpan r).1 + (regionSpan r).2

section

variable {r : Region} {a : Nat} {s : State} (acts : ScrubActs r a s) (q : Option Packet)
include acts

theorem ScrubActs.guard :
    (!s.isReady (regionOwner r) || decide (a < (regionSpan r).1) || decide ((regionSpan r).1 + (regionSpan r).2 ≤ a)) = false := by
  obtain ⟨ready, low, high⟩ := acts
  simp [ready, low, high]

theorem exec_scrubPass_clean : exec (.scrubPass r a .clean q) s = next s := by
  show execScrubPass r a .clean q s = _
  simp only [execScrubPass, acts.guard, Bool.false_eq_true, if_false]

theorem exec_scrubPass_corrected : exec (.scrubPass r a .corrected q) s = next (goodWord r (a / 8 * 8) s) := by
  show execScrubPass r a .corrected q s = _
  simp only [execScrubPass, acts.guard, Bool.false_eq_true, if_false]

theorem exec_scrubPass_uncorrectable :
    exec (.scrubPass r a .uncorrectable q) s = next (noteFinding r (a / 8 * 8) (badWord r (a / 8 * 8) q) s) := by
  show execScrubPass r a .uncorrectable q s = _
  simp only [execScrubPass, acts.guard, Bool.false_eq_true, if_false]

end

/-- A corrected word outside the payload pool and the queue storage counts in its region alone (R33, R37). -/
theorem goodWord_other {r : Region} (pool : r ≠ .payloadPool) (storage : r ≠ .queueStorage) (word : Nat) (s : State) :
    goodWord r word s = modCounter r (fun c => { c with corrected := inc32 c.corrected }) s := by
  cases r with
  | payloadPool => exact absurd rfl pool
  | queueStorage => exact absurd rfl storage
  | _ => rfl

/-- A corrected word of the queue storage counts in its region and at most in a queue (R33, R349). -/
theorem goodWord_queueStorage_kept (word : Nat) (s : State) :
    (goodWord .queueStorage word s).log = s.log
      ∧ (goodWord .queueStorage word s).mem = (modCounter .queueStorage (fun c => { c with corrected := inc32 c.corrected }) s).mem := by
  simp only [goodWord]
  split
  · exact ⟨modStat_log .., modStat_mem ..⟩
  · exact ⟨rfl, rfl⟩

/-! ### Uncorrectable words of the tables (R36, R299, R460) -/

/-- A loaded signal entry is disabled, with event 0x0A03 (R36, R460). -/
theorem badWord_signal {w : Nat} (q : Option Packet) {s : State} (loaded : (mget s.sigs (w / 16)).isSome = true) :
    badWord .signalTable w q s = tableEvent 2 (w / 16) { s with sigs := mmod s.sigs (w / 16) fun g => { g with errDis := true } } := by
  show badSignal (w / 16) s = _
  rw [badSignal, if_neg (by rw [Option.isNone_eq_false_iff.2 loaded]; decide)]

/-- A loaded PDU descriptor is disabled, with event 0x0A03 (R36, R460). -/
theorem badWord_pdu {n : Nat} (q : Option Packet) {s : State} (loaded : (mget s.pdus n).isSome = true) :
    badWord .pduTable (0xC00000 + 32 * n) q s = tableEvent 1 n { s with pdus := mmod s.pdus n fun d => { d with errDis := true } } := by
  have place : (0xC00000 + 32 * n - 0xC00000) / 32 = n := by omega
  show badPdu ((0xC00000 + 32 * n - 0xC00000) / 32) s = _
  rw [place, badPdu, if_neg (by rw [Option.isNone_eq_false_iff.2 loaded]; decide)]

/-- An object's descriptor is disabled without retiring the object, with event 0x0502 (R36, R299, R301). -/
theorem badWord_object {n : Nat} {o : Mo} (q : Option Packet) {s : State} (found : s.mo? n = some o) :
    badWord .moDescriptors (0xD00000 + 32 * n) q s = objectEvent n o 1 0
      (cancelObject n (s.modMo n fun o => { o with errDis := true, en := false })) := by
  have place : (0xD00000 + 32 * n - 0xD00000) / 32 = n := by omega
  show badDescriptor ((0xD00000 + 32 * n - 0xD00000) / 32) s = _
  simp only [place, badDescriptor, found, disableObject, Bool.or_false]

end Sys2Proof.Machine

open Sys2Proof Sys2Proof.Machine

/-- Settles O27: a pass over a word of the region by what it finds, then the action of three tables on an uncorrectable one. -/
theorem scrubPassesComplete : Obligations.ScrubPassesComplete := by
  refine ⟨fun r a q s ready low high => ?_, fun w q s loaded => badWord_signal q loaded, fun n q s loaded => badWord_pdu q loaded,
    fun n o q s found => badWord_object q found⟩
  have acts : ScrubActs r a s := ⟨ready, low, high⟩
  have run := exec_scrubPass_corrected acts q
  refine ⟨exec_scrubPass_clean acts q, fun pool storage => ?_, fun pool => ?_, fun storage => ?_, exec_scrubPass_uncorrectable acts q⟩
  · rw [run, ← goodWord_other pool storage]
    rfl
  · subst pool
    exact run
  · subst storage
    obtain ⟨log, mem⟩ := goodWord_queueStorage_kept (a / 8 * 8) s
    exact ⟨_, run, (fcSettle_log _).trans log, (fcSettle_mem _).trans mem⟩

end

