-- ==== Sys2Proof/Proofs/LogAndSheets.lean ====
section
/-!
PROOFS. Reading the fault log (R40), and the life of a contact sheet from its take to its bank's release (R184 to R188).
-/

namespace Sys2Proof.Machine

/-! ### The banks and the time as taking a packet leaves them -/

/-- The parts of a bank that operations that only tell leave alone: all but its release (R184). -/
theorem Tells.bank_eq {a s : State} (h : Tells a s) (n : Nat) : (s.bank n).holder = (a.bank n).holder
    ∧ (s.bank n).takes = (a.bank n).takes ∧ (s.bank n).sheet = (a.bank n).sheet ∧ (s.bank n).armed = (a.bank n).armed := by
  rw [← h.banks n]
  exact ⟨rfl, rfl, rfl, rfl⟩

theorem taken_bank (p : Packet) (s : State) (n : Nat) : ((taken p s).bank n).holder = (s.bank n).holder
    ∧ ((taken p s).bank n).takes = (s.bank n).takes ∧ ((taken p s).bank n).sheet = (s.bank n).sheet
    ∧ ((taken p s).bank n).armed = (s.bank n).armed :=
  (taken_tells p s).bank_eq n

theorem taken_time (p : Packet) (s : State) : (taken p s).time = s.time := (taken_tells p s).time

theorem taken_now (p : Packet) (s : State) : (taken p s).now = s.now := congrArg TimeBase.time (taken_time p s)

/-! ### TAKE_CONTACT_SHEET (R184 to R187) -/

/-- A take on a bank that no other party holds, at once or for an instant from 100 µs to 1 s ahead, goes on to its capture. -/
theorem takeContactSheet_free {p : Packet} {s : State}
    (instant : fieldAt p.params 0 8 = 0 ∨ (s.now + 100 * usNs ≤ fieldAt p.params 0 8 ∧ fieldAt p.params 0 8 ≤ s.now + secNs))
    (free : ∀ h, (s.bank (bankOf p.source)).holder = some h → h = p.source) :
    takeContactSheet p s = takeContactSheet.take p s (bankOf p.source) (fieldAt p.params 0 8) := by
  have inRange : (decide (fieldAt p.params 0 8 ≠ 0) && (decide (fieldAt p.params 0 8 < s.now + 100 * usNs)
      || decide (s.now + secNs < fieldAt p.params 0 8))) = false := by
    rcases instant with zero | ⟨low, high⟩
    · simp [zero]
    · simp [Nat.not_lt.2 low, Nat.not_lt.2 high]
  rw [takeContactSheet, badParam_false inRange]
  cases e : (s.bank (bankOf p.source)).holder with
  | none => rfl
  | some h => exact refuseIf_false (by simp [free h e])

/-! ### READ_CONTACT_SHEET (R188) -/

/-- The holder's read answers up to 224 bytes of its sheet from `off`; with the last byte the bank is free, else it is held for 200 ms
more (R184, R188). -/
theorem readContactSheet_held {p : Packet} {s : State} {n off : Nat} {sheet : List Byte} (reserved : zeroAt p.params 2 2 = true)
    (bank : fieldAt p.params 0 2 % 2 = n) (place : fieldAt p.params 4 4 = off) (aligned : off % 4 = 0)
    (holder : (s.bank n).holder = some p.source) (ready : (s.bank n).armed = none)
    (take : (s.bank n).takes = fieldAt p.params 0 2 / 2) (bytes : (s.bank n).sheet = sheet) (inside : off < sheet.length) :
    let d := (sheet.drop off).take 224
    readContactSheet p s = okBody (s.modBank n fun b =>
        if off + d.length = sheet.length then { b with holder := none, sheet := [] }
        else { b with release := s.time.clk + sheetHold })
      (le 4 off ++ le 2 d.length ++ zeros 2 ++ padTo 224 d) := by
  subst bank place bytes
  have full : (s.bank (fieldAt p.params 0 2 % 2)).sheet.isEmpty = false := by
    rw [List.isEmpty_eq_false_iff_exists_mem]
    exact ⟨_, List.getElem_mem inside⟩
  intro d
  rw [readContactSheet, badParam_false (by simp [reserved]), badParam_false (by simp [aligned]),
    refuseIf_false (by simp [holder, ready, take, full]), badParam_false (by simp [inside])]

/-! ### The release of a bank (R184) -/

theorem sheetReplyWaits_false {s : State} {b : Bank} (gone : ∀ r ∈ s.engine.late, r.opcode = 0x0102 → some r.dest ≠ b.holder) :
    sheetReplyWaits s b = false := by
  rw [sheetReplyWaits, List.any_eq_false]
  intro r late
  simpa using gone r late

end Sys2Proof.Machine

open Sys2Proof Sys2Proof.Machine

/-- Settles O26: each of the four commands by its handler, and the capture and the release of a bank. -/
theorem faultLogAndSheetsComplete : Obligations.FaultLogAndSheetsComplete := by
  refine ⟨fun p s a => answered_of_accepts a rfl, fun p s a zero free => ?_, fun p s a low high free => ?_, fun n q t s armed => ?_,
    fun p s a reserved aligned => ?_, fun n s held idle gone => ?_⟩
  · have e := takeContactSheet_free (p := { p with opcode := 0x0102 }) (s := taken p s) (.inl zero)
      (by rw [(taken_bank p s _).1]; exact free)
    refine answered_of_accepts a (e.trans ?_)
    simp only [takeContactSheet.take, zero, if_true]
    rfl
  · have e := takeContactSheet_free (p := { p with opcode := 0x0102 }) (s := taken p s)
      (.inr (by rw [taken_now]; exact ⟨low, high⟩)) (by rw [(taken_bank p s _).1]; exact free)
    have ahead : fieldAt p.params 0 8 ≠ 0 := by omega
    refine waited_of_accepts a (e.trans ?_)
    simp only [takeContactSheet.take, ahead, if_false]
  · show execContactSheetCapture n s = _
    simp only [execContactSheetCapture, armed, next]
  · intro n off holder ready take inside d
    obtain ⟨sameHolder, sameTakes, sameSheet, sameArmed⟩ := taken_bank p s n
    have e := readContactSheet_held (p := { p with opcode := 0x0108 }) (s := taken p s) reserved rfl rfl aligned
      (sameHolder.trans holder) (sameArmed.trans ready) (sameTakes.trans take) sameSheet inside
    rw [taken_time] at e
    exact answered_of_accepts a e
  · show execSheetBankRelease n s = _
    simp only [execSheetBankRelease, idle, Option.isNone_eq_false_iff.2 held, sheetReplyWaits_false gone, Option.isSome_none,
      Bool.or_false, Bool.false_eq_true, if_false, next]

end

