-- ==== Sys2Proof/Proofs/RoutePasses.lean ====
section
/-!
PROOFS. The lanes of the routing engine: arrival passes, timeouts, notices, deferred passes, full queues and local inputs (R21,
R341, R440 to R459).
-/

namespace Sys2Proof.Machine

/-! ### Arrival passes (R21, R341, R440, R455) -/

/-- A hand-off with good words, or one that crosses nothing, is not dropped (R21, R23). -/
theorem not_crossed {parity : Bool} {h : Handoff} (whole : parity = false ∨ h.path = 7) : (parity && handCrosses h) = false := by
  rcases whole with e | e <;> simp [handCrosses, e]

section

variable {lane : Fin 4} {h : Handoff} {l : List Handoff} {s : State} (waiting : (s.lane lane.val).waiting = h :: l)
  (free : (s.lane lane.val).held = []) (turn : arrivalNext s lane.val h = true) (ready : s.isReady 4 = true)
include waiting free turn ready

/-- A hand-off whose crossing fails parity is dropped, and counts on its path (R21). -/
theorem exec_arrivalPass_dropped (crosses : h.path ≠ 7) : let u := s.modLane lane.val fun x => { x with waiting := l }
    exec (.arrivalPass lane true) s = next (parityDrop (handPath u h) u) := by
  show execArrivalPass lane true s = _
  simp [execArrivalPass, waiting, free, turn, ready, handCrosses, crosses]

/-- A hand-off that crosses whole takes the hand-off off its lane; a PDU that is gone takes nothing (R459). -/
theorem exec_arrivalPass_gone {parity : Bool} (whole : parity = false ∨ h.path = 7) :
    let u := s.modLane lane.val fun x => { x with waiting := l }
    pduOf u h.pdu = none → exec (.arrivalPass lane parity) s = next u := by
  intro u gone
  show execArrivalPass lane parity s = _
  simp [execArrivalPass, waiting, free, turn, ready, not_crossed whole, u, gone]

/-- The arrival pass of a hand-off that crosses whole; a PDU turned outbound takes nothing, and the pass counts (R440, R459). -/
theorem exec_arrivalPass_run {parity : Bool} (whole : parity = false ∨ h.path = 7) :
    let u := s.modLane lane.val fun x => { x with waiting := l }
    ∀ p, pduOf u h.pdu = some p → exec (.arrivalPass lane parity) s = next (finishPass lane.val false h.clk
      (if dirIn p.set.dir then arrive h.pdu h p u else u)) := by
  intro u p found
  show execArrivalPass lane parity s = _
  simp [execArrivalPass, waiting, free, turn, ready, not_crossed whole, u, found]

end

/-! ### A full queue to CORE intake (R341) -/

/-- A packet whose cells are not free is held on its lane. -/
theorem pushRouted_full {n : Nat} {r : Routed} {s : State} (full : fits s (.rtq, n) (packetCells r.data.length) = false) :
    pushRouted n r s = s.modLane n fun l => { l with held := l.held ++ [r] } := by
  simp [pushRouted, full]

theorem lane_modLane_self {n : Nat} (inRange : n < 4) (f : Lane → Lane) (s : State) : (s.modLane n f).lane n = f (s.lane n) :=
  tget_tmod_self f laneReset inRange

/-- The pass of a lane that holds packets does not end yet. -/
theorem finishPass_held {n : Nat} {timed : Bool} {k : Nat} {s : State} (held : (s.lane n).held ≠ []) :
    finishPass n timed k s = s.modLane n fun x => { x with ending := some (timed, k) } := by
  rw [finishPass, if_neg (by simpa using held)]

/-! ### Local inputs (R451) -/

/-- Where some analogue input is enabled, a round has inputs to convert. -/
theorem ainEnabled_ne_nil {s : State} (anyOn : s.localIo.set.ainEn ≠ 0) : ainEnabled s ≠ [] := by
  intro noneOn
  refine anyOn (BitVec.eq_of_getLsbD_eq fun i hi => ?_)
  have off := List.filter_eq_nil_iff.1 noneOn i (List.mem_range.2 hi)
  simpa using off

end Sys2Proof.Machine

open Sys2Proof Sys2Proof.Machine

/-- Settles O45: each pass or input event where its guards let it run. -/
theorem routePassesComplete : Obligations.RoutePassesComplete := by
  refine ⟨fun lane parity h l s waiting free turn ready => ⟨?_, fun whole => ⟨exec_arrivalPass_gone waiting free turn ready whole,
      exec_arrivalPass_run waiting free turn ready whole⟩⟩,
    fun n p t s found came inbound timed fresh ready => ?_, fun n p s found due turn ready => ?_,
    fun n p x s found out group periodic scheduled fresh ready => ?_, fun n p s found due turn ready => ?_,
    fun n p t s found due turn ready => ?_, fun n r s full => ?_, fun levels s => ⟨fun ready => ?_, rfl⟩,
    fun codes vbats s t ready adc enabled round => ?_⟩
  · rintro rfl crosses
    exact exec_arrivalPass_dropped waiting free turn ready crosses
  · show execPduTimeout n s = _
    simp [execPduTimeout, found, came, inbound, timed, fresh, ready, next]
  · show execTimeoutPass n s = _
    simp [execTimeoutPass, found, due, turn, ready, next, timedPass]
  · show execPeriodicPackNotice n s = _
    have again : ¬ (p.noticeAt = x.next ∧ p.noticeAt ≠ 0) := fun ⟨same, used⟩ => fresh.elim used fun moved => moved same
    simp [execPeriodicPackNotice, found, out, group, periodic, scheduled, again, ready, next]
  · show execPeriodicPass n s = _
    simp [execPeriodicPass, found, due, turn, ready, next, timedPass]
  · show execDeferredPass n s = _
    simp [execDeferredPass, found, due, turn, ready, next, timedPass]
  · intro t
    have e : t = s.modLane n.val fun l => { l with held := l.held ++ [r] } := pushRouted_full full
    have lane : t.lane n.val = { s.lane n.val with held := (s.lane n.val).held ++ [r] } := by
      rw [e, lane_modLane_self n.isLt]
    refine ⟨by rw [e]; rfl, by rw [lane], fun timed k => ?_⟩
    rw [finishPass_held (by rw [lane]; simp), lane_modLane_self n.isLt, lane]
    exact ⟨rfl, rfl⟩
  · show execDinSample levels s = _
    rw [execDinSample, if_pos ready]
    rfl
  · show execAinRoundEnd codes vbats s = _
    have anyOn : (ainEnabled s).isEmpty = false := by simpa using ainEnabled_ne_nil enabled
    simp only [execAinRoundEnd, round, ready, adc, anyOn]
    rfl

end

