-- ==== Sys2Proof/Proofs/LinkFrames.lean ====
section
/-!
PROOFS. Link frames that arrive intact: the acknowledgement and credits, then what each type does (R538 to R545, R552 to R555).
-/

namespace Sys2Proof.Machine

/-! ### What every intact frame does (R538 to R541) -/

/-- Only a ROUTE frame can need more than one cell (R541). -/
theorem frameCells_eq_one {f : LinkFrame} (small : f.typ ≠ .route) : frameCells f = 1 := by
  obtain ⟨t, _, _, _, _, _⟩ := f
  cases t with
  | route => exact absurd rfl small
  | _ => rfl

theorem frameCells_route {f : LinkFrame} (route : f.typ = .route) : frameCells f = 1 + (f.data.length + 63) / 64 := by
  simp only [frameCells, route, ceilDiv, Nat.add_succ_sub_one]

section

variable {q : Port} {f : LinkRx} {s : State} (sends : linkSends (s.link q) = true) (runs : linksRun s = true)
  (intact : f.intact = true)
include sends runs intact

/-- A TIME or IDLE frame is handled at once and owes no answer (R538). -/
theorem takeFrame_unowed {t : FrameType} (h : LinkFrame → State → State) (unowed : t = .time ∨ t = .idle) :
    let fr : LinkFrame := { f.frame with typ := t, last := false }
    takeFrame q t f h s = h fr (takeCells q fr (takeLinkHeader q f s)) := by
  rcases unowed with rfl | rfl <;>
    simp [takeFrame, takeFrameFrom, sends, runs, intact, frameCells_eq_one, frameReplayed]

/-- A replayable frame is handled when it is the next in sequence and dropped when not; then what the port owes is returned (R538,
R540). -/
theorem takeFrame_replayed {t : FrameType} (h : LinkFrame → State → State) (replayed : frameReplayed t = true) :
    let fr : LinkFrame := { f.frame with typ := t, last := false }
    let u := takeCells q fr (takeLinkHeader q f s)
    takeFrame q t f h s = settleDebt q
      (if f.seq = nextLinkSeq (u.link q).seqRx then h fr (u.modLink q fun l => { l with seqRx := f.seq }) else u) := by
  have small : t ≠ .route := by rintro rfl; cases replayed
  have owed : (t == .idle || t == .time) = false := by
    cases t with
    | time | idle => cases replayed
    | _ => rfl
  simp [takeFrame, takeFrameFrom, sends, runs, intact, frameCells_eq_one, small, replayed, owed]

theorem takeFrame_inOrder {t : FrameType} (h : LinkFrame → State → State) (replayed : frameReplayed t = true) :
    let fr : LinkFrame := { f.frame with typ := t, last := false }
    let u := takeCells q fr (takeLinkHeader q f s)
    f.seq = nextLinkSeq (u.link q).seqRx →
      takeFrame q t f h s = settleDebt q (h fr (u.modLink q fun l => { l with seqRx := f.seq })) := by
  intro fr u inOrder
  rw [takeFrame_replayed sends runs intact h replayed, if_pos inOrder]

/-- A frame in order for another device is relayed, any other handled here (R554). -/
theorem takeFrame_addressed {t : FrameType} (g : LinkFrame → State → State) (replayed : frameReplayed t = true) :
    let fr : LinkFrame := { f.frame with typ := t, last := false }
    let u := takeCells q fr (takeLinkHeader q f s)
    let v := u.modLink q fun l => { l with seqRx := f.seq }
    f.seq = nextLinkSeq (u.link q).seqRx → takeFrame q t f (fun r s => if r.dst != s.pos then relay q r s else g r s) s
      = settleDebt q (if f.frame.dst ≠ v.pos then relay q fr v else g fr v) := by
  intro fr u v inOrder
  rw [takeFrame_inOrder sends runs intact _ replayed inOrder]
  simp only [bne_iff_ne]
  rfl

theorem takeFrame_outOfOrder {t : FrameType} (h : LinkFrame → State → State) (replayed : frameReplayed t = true) :
    let fr : LinkFrame := { f.frame with typ := t, last := false }
    let u := takeCells q fr (takeLinkHeader q f s)
    f.seq ≠ nextLinkSeq (u.link q).seqRx → takeFrame q t f h s = settleDebt q u := by
  intro fr u outOfOrder
  rw [takeFrame_replayed sends runs intact h replayed, if_neg outOfOrder]

/-- A ROUTE frame is dropped when it is larger than the LKQ or fails parity on its crossing, else handled (R21, R342). -/
theorem takeFrameFrom_route (h : LinkFrame → State → State) (parity : Bool) :
    let fr : LinkFrame := { f.frame with typ := .route, last := false }
    let w := takeLinkHeader q f s
    takeFrameFrom q .route parity f h s = settleDebt q (
      if 128 < 1 + (f.frame.data.length + 63) / 64 then oversizeFrame q fr w
      else if parity then parityDrop 3 (takeCells q fr w) else h fr (takeCells q fr w)) := by
  have replayed : frameReplayed .route = false := rfl
  simp [takeFrameFrom, sends, runs, intact, frameCells_route, replayed]

end

/-! ### Discovery frames (R542 to R544) -/

/-- What a DISCOVER frame does on its device, by the kind that INFO [7:0] gives: a question, an answer or a copy of the table (log entry
44). -/
def takeDiscover (q : Port) (r : LinkFrame) (s : State) : State :=
  if r.info % 256 = 0 then
    if s.isMaster then setRing true { s with stack := { s.stack with returned := true } } else takeAsk q r s
  else if r.info % 256 = 1 then (if s.isMaster then takeAnswer q r s else if r.dst = s.pos then s else relay q r s)
  else if r.dst ≠ s.pos then relay q r s
  else if s.stack.upstream.isSome then takeCopy q r s else s

theorem exec_discoverFrameReceived (q : Port) (f : LinkRx) (s : State) :
    exec (.discoverFrameReceived q f) s = next (takeFrame q .discover f (takeDiscover q) s) := by
  refine congrArg (fun h => next (takeFrame q .discover f h s)) (funext fun r => funext fun s => ?_)
  unfold takeDiscover
  split
  next ask => rw [if_pos ask]
  next answer => rw [answer]; rfl
  next ask answer =>
    rw [if_neg ask, if_neg answer]
    simp only [bne_iff_ne]

end Sys2Proof.Machine

open Sys2Proof Sys2Proof.Machine

/-- Settles O55: one clause a frame type, each by how its frames are taken. -/
theorem linkFramesComplete : Obligations.LinkFramesComplete := by
  intro q f s sends runs intact fr w u v here
  refine ⟨?_, ?_, fun parity valid => ?_, fun t outOfOrder i listed typ => ?_, fun inOrder => ?_, fun inOrder => ?_, fun inOrder => ?_,
    fun inOrder => ?_, fun inOrder => ?_⟩
  · exact congrArg next (takeFrame_unowed sends runs intact _ (.inl rfl))
  · exact congrArg next (takeFrame_unowed sends runs intact _ (.inr rfl))
  · exact congrArg next (takeFrameFrom_route sends runs intact _ parity)
  · subst typ
    simp only [List.mem_cons, List.not_mem_nil, or_false] at listed
    rcases listed with rfl | rfl | rfl | rfl | rfl <;>
      exact congrArg next (takeFrame_outOfOrder sends runs intact _ rfl outOfOrder)
  · exact congrArg next (takeFrame_inOrder sends runs intact _ rfl inOrder)
  · exact congrArg next (takeFrame_addressed sends runs intact _ rfl inOrder)
  · exact congrArg next (takeFrame_addressed sends runs intact _ rfl inOrder)
  · exact congrArg next (takeFrame_addressed sends runs intact _ rfl inOrder)
  · rw [exec_discoverFrameReceived]
    exact congrArg next (takeFrame_inOrder sends runs intact (takeDiscover q) rfl inOrder)

end

