-- ==== Sys2Proof/Proofs/DeviceResets.lean ====
section
/-!
PROOFS. The resets of the whole device: what they sample, what they reset and what survives (R39, R51, R52, R56, R62, R70, R71,
R608).
-/

namespace Sys2Proof.Machine

/-! ### Flow-control pins and fault-log entries -/

/-- While MEM is not ready no pin follows its queue (R62, R347). -/
theorem next_of_not_mem {s : State} {r : BitVec 32} (ready : s.aon.ready = r) (off : r.getLsbD 3 = false) : next s = .next s := by
  rw [next, fcSettle, State.isReady, ready, off, if_neg Bool.false_ne_true]

/-- Writing an entry never takes FAULTN down by what it overwrites: only the entry itself can (R38). -/
theorem faultnLow_of_quiet_entry {s : State} {e : FaultEntry} {k n : Nat} (quiet : clsAsserts e.cls = false)
    (low : faultnLow { s with log := { entries := s.log.entries.drop k ++ [e], nextSeq := n } } = true) : faultnLow s = true := by
  unfold faultnLow at low ⊢
  rw [Bool.or_eq_true] at low ⊢
  refine low.imp id fun held => ?_
  obtain ⟨x, mem, asserts⟩ := List.any_eq_true.1 held
  rcases List.mem_append.1 mem with old | new
  · exact List.any_eq_true.2 ⟨x, List.mem_of_mem_drop old, asserts⟩
  · rw [List.mem_singleton.1 new, quiet, Bool.and_false] at asserts
    cases asserts

/-- An entry of a class that does not drive FAULTN touches the log alone (R38, R39). -/
theorem logFault_quiet {cls : Nat} (quiet : clsAsserts cls = false) (source info1 info2 : Nat) (s : State) :
    ∃ l, logFault cls source info1 info2 s = { s with log := l } := by
  unfold logFault
  refine ⟨_, if_neg fun falls => ?_⟩
  obtain ⟨high, low⟩ := Bool.and_eq_true_iff.1 falls
  rw [faultnLow_of_quiet_entry quiet low] at high
  cases high

@[simp] theorem signalFault_log (s : State) : (signalFault s).log = s.log := raiseIrq_log 0 5 s

/-- The newest entry after one is written is that entry, readable and with the number that was next (R39). -/
theorem logFault_newest (cls source info1 info2 : Nat) (s : State) :
    ∃ e, (logFault cls source info1 info2 s).log.entries.getLast? = some e ∧ e.cls = cls ∧ e.source = source
      ∧ e.seq = s.log.nextSeq ∧ e.readable = true := by
  simp only [logFault, apply_ite State.log, signalFault_log, ite_self, List.getLast?_concat]
  exact ⟨_, rfl, rfl, rfl, rfl, rfl⟩

/-- A log whose newest entry is readable goes on whole (R39). -/
theorem resumeLog_entries_of_readable {l : FaultLog} {e : FaultEntry} (newest : l.entries.getLast? = some e) (ok : e.readable = true) :
    (resumeLog l).entries = l.entries := by
  obtain ⟨older, split⟩ := List.getLast?_eq_some_iff.1 newest
  simp [resumeLog, split, ok]

/-! ### The state after each reset -/

theorem AtReset.beside {s : State} (h : AtReset s) (m : MemCounters) (n : Aon) (l : FaultLog) (u : Update) :
    AtReset { s with mem := m, aon := n, log := l, update := u } := by
  cases h
  constructor <;> assumption

theorem afterReset_atReset (cause : ResetCause) (phase : Phase) (straps : BitVec 3) (s : State) :
    AtReset (afterReset cause phase straps s) := by
  constructor <;> rfl

/-- A power-on reset is over before any function is ready, so its state is the one at reset (R51). -/
theorem exec_powerOnReset (x y z : BitVec 3) (s : State) :
    exec (.powerOnReset x y z) s = .next (afterReset .powerOn .starting (majority x y z) s) :=
  next_of_not_mem (r := 0) rfl (by decide)

/-- A device that browns out, its entry written, held in reset (R51, R52). -/
def brownedOut (supply : Supply) (straps : BitVec 3) (s : State) : State :=
  keepOpened s (afterReset .brownOut .brownedOut straps (logFault 6 (supplyCode supply) 0 0 s))

theorem exec_brownOut {s : State} (supplied : s.aon.power ≠ .off) (supply : Supply) (x y z : BitVec 3) :
    exec (.brownOut supply x y z) s = .next (brownedOut supply (majority x y z) s) := by
  show execBrownOut supply x y z s = _
  rw [execBrownOut, if_neg (by simpa using supplied)]
  exact next_of_not_mem (r := 0) rfl (by decide)

theorem brownedOut_mram (supply : Supply) (straps : BitVec 3) (s : State) : (brownedOut supply straps s).update.mram = s.update.mram := by
  show (logFault 6 (supplyCode supply) 0 0 s).update.mram = _
  rw [(logFault_tells _ _ _ _ (Tells.refl s)).update]

/-- A device right after a warm reset, before the reset's entry: the counters of R37 and the supplies stay, and the supervisor
runs on where it ran (R51, R605). -/
def warmStarted (straps : BitVec 3) (s : State) : State :=
  let r := keepOpened s (afterReset .warm (if s.isReady 0 then .running else .starting) straps s)
  { r with mem := s.mem, aon := { r.aon with supplies := s.aon.supplies, ready := if s.isReady 0 then oneBit 0 else 0 } }

theorem warmStarted_atReset (straps : BitVec 3) (s : State) : AtReset (warmStarted straps s) :=
  (afterReset_atReset .warm (if s.isReady 0 then .running else .starting) straps s).beside _ _ _ _

theorem exec_warmReset {s : State} (held : s.aon.phase ≠ .brownedOut) (x y z : BitVec 3) :
    exec (.warmReset x y z) s
      = .next (if s.isReady 0 then logReset (warmStarted (majority x y z) s) else warmStarted (majority x y z) s) := by
  show execWarmReset x y z s = _
  unfold execWarmReset
  split
  next out => exact absurd out held
  next =>
    cases runs : s.isReady 0 with
    | false =>
      simp only [warmStarted, runs, Bool.false_eq_true, if_false]
      exact next_of_not_mem (r := 0) rfl (by decide)
    | true =>
      simp only [warmStarted, runs, if_true]
      exact next_of_not_mem (r := oneBit 0) (congrArg Aon.ready (logFault_aon ..)) (by decide)

end Sys2Proof.Machine

open Sys2Proof Sys2Proof.Machine

/-- Settles O6: a command that is no reset of the whole device keeps the straps, and each of the three takes their majority. -/
theorem strapsAreSampledOnlyAtResets : Obligations.StrapsAreSampledOnlyAtResets := by
  refine ⟨fun c s t ran notPowerOn notBrownOut notWarm => ?_, fun s x y z => ⟨_, exec_powerOnReset x y z s, rfl⟩,
    fun s supply x y z supplied => ⟨_, exec_brownOut supplied supply x y z, rfl⟩,
    fun s x y z held => ⟨_, exec_warmReset held x y z, ?_⟩, fun s => beq_iff_eq⟩
  · rcases exec_keeps_or_reset c s with ⟨u, e, kept⟩ | ⟨x, y, z, rfl⟩ | ⟨p, x, y, z, rfl⟩ | ⟨x, y, z, rfl⟩
    · cases e.symm.trans ran
      exact kept.stackId
    · exact absurd rfl (notPowerOn x y z)
    · exact absurd rfl (notBrownOut p x y z)
    · exact absurd rfl (notWarm x y z)
  · split
    · exact congrArg Aon.stackId (logFault_aon ..)
    · rfl

/-- Settles O10: each reset by its state, and the entry that a brown-out and a warm reset leave in the log. -/
theorem resetsOfTheWholeDevice : Obligations.ResetsOfTheWholeDevice := by
  refine ⟨fun s x y z => ⟨_, exec_powerOnReset x y z s, afterReset_atReset .., rfl, rfl, rfl, rfl, rfl⟩,
    fun s supply x y z supplied => ⟨_, exec_brownOut supplied supply x y z, ?_⟩,
    fun s x y z held => ⟨_, exec_warmReset held x y z, ?_⟩⟩
  · obtain ⟨e, newest, cls, source, seq, readable⟩ := logFault_newest 6 (supplyCode supply) 0 0 s
    exact ⟨(afterReset_atReset _ _ _ _).beside _ _ _ _, brownedOut_mram .., rfl, rfl, rfl,
      e, (congrArg List.getLast? (resumeLog_entries_of_readable newest readable)).trans newest, cls, source, seq⟩
  · have started := warmStarted_atReset (majority x y z) s
    cases runs : s.isReady 0 with
    | false =>
      refine ⟨started, rfl, rfl, rfl, rfl, fun h => (Bool.false_ne_true h).elim, fun _ => ⟨?_, rfl⟩⟩
      simp [warmStarted, runs]
    | true =>
      obtain ⟨e, newest, cls, source, -⟩ := logFault_newest 7 2 0 0 (warmStarted (majority x y z) s)
      obtain ⟨l, written⟩ := logFault_quiet (cls := 7) rfl 2 0 0 (warmStarted (majority x y z) s)
      have entry : logReset (warmStarted (majority x y z) s) = { warmStarted (majority x y z) s with log := l } := written
      rw [written] at newest
      rw [if_pos rfl, entry]
      refine ⟨started.beside _ _ _ _, rfl, rfl, rfl, rfl, fun _ => ⟨?_, e, newest, cls, source⟩, fun h => (Bool.false_ne_true h.symm).elim⟩
      simp [warmStarted, runs]

end

