-- ==== Sys2Proof/Proofs/ResetValues.lean ====
section
/-!
PROOFS. The state at power-on: tables of equal entries, and the ports that train when TIME starts (R62, R70, R71, R536).
-/

namespace Sys2Proof

/-- Every place of a table of equal entries reads that entry, and so does a place outside it. -/
theorem tget_replicate {α : Type} (n i : Nat) (a : α) : tget (Vector.replicate n a) i a = a := by
  simp only [tget, Vector.getElem?_replicate, apply_ite (Option.getD · a), Option.getD_some, Option.getD_none, ite_self]

theorem tget_set_ne {α : Type} {n i j : Nat} (v : Vector α n) (a d : α) (h : i < n) (other : i ≠ j) :
    tget (v.set i a h) j d = tget v j d := by
  rw [tget, Vector.getElem?_set_ne h other, tget]

namespace Machine

/-! ### Telling leaves the state of both ports alone -/

/-- An update of a port that keeps its state keeps the state of both ports. -/
theorem modLink_linkState (p : Port) {f : Link → Link} (kept : ∀ l, (f l).state = l.state) (q : Port) (s : State) :
    ((s.modLink p f).link q).state = (s.link q).state := by
  cases p <;> cases q <;> simp [State.modLink, State.link, kept]

theorem putFrame_linkState (p : Port) (f : LinkFrame) (q : Port) (s : State) : ((putFrame p f s).link q).state = (s.link q).state :=
  modLink_linkState p (fun _ => by rfl) q s

theorem pumpLink_linkState (p : Port) (n : Nat) (q : Port) (s : State) : ((pumpLink p n s).link q).state = (s.link q).state := by
  induction n generalizing s with
  | zero => rfl
  | succ n ih =>
    unfold pumpLink
    dsimp only
    split
    · rfl
    · split
      · rfl
      · split
        · exact (ih _).trans (putFrame_linkState ..)
        · rfl

theorem sendFrame_linkState (p : Port) (f : LinkFrame) (q : Port) (s : State) : ((sendFrame p f s).link q).state = (s.link q).state := by
  unfold sendFrame
  split
  · exact (pumpLink_linkState ..).trans (modLink_linkState p (fun _ => by rfl) q s)
  · rfl

theorem raiseIrq_link (c bit : Nat) (q : Port) (s : State) : (raiseIrq c bit s).link q = s.link q := by
  unfold raiseIrq settleIrq
  dsimp only
  split
  · rfl
  · split <;> rfl

theorem pushEvent_link (c : Nat) (e : Event) (q : Port) (s : State) : (pushEvent c e s).link q = s.link q := by
  unfold pushEvent
  split
  · rfl
  · split
    · rfl
    · split
      · exact raiseIrq_link ..
      · rfl

theorem raiseEvent_linkState (c code : Nat) (data : List Byte) (q : Port) (s : State) :
    ((raiseEvent c code data s).link q).state = (s.link q).state := by
  unfold raiseEvent
  dsimp only
  split
  · split <;> split <;> simp only [pushEvent_link, sendFrame_linkState]
  · rw [pushEvent_link]

/-- A port that is not UP takes its state, and the other keeps its own (R536). -/
theorem setLink_linkState {p : Port} {s : State} (down : (s.link p).state ≠ .up) (st : LinkState) (reason : Nat) (q : Port) :
    ((setLink p st reason s).link q).state = if q = p then st else (s.link q).state := by
  unfold setLink
  by_cases same : (s.link p).state = st
  · rw [if_pos same, modLink_linkState p (fun _ => by rfl)]
    by_cases is : q = p
    · rw [if_pos is, is, same]
    · rw [if_neg is]
  · simp only [if_neg same, if_neg down, linkEvent, raiseEvent_linkState]
    cases p <;> cases q <;> rfl

/-- TIME starts training on a disabled port (R71, R536). -/
theorem startFunction_time_linkState {s : State} (a : s.linkA.state = .disabled) (b : s.linkB.state = .disabled) (q : Port) :
    ((startFunction .time s).link q).state = .training := by
  have stateA : (s.link .a).state = .disabled := a
  have stateB : ((setLink .a .training 0 s).link .b).state = .disabled := by
    rw [setLink_linkState (by simp [stateA]), if_neg (by decide)]
    exact b
  have both : startFunction .time s = setLink .b .training 0 (setLink .a .training 0 s) := by
    simp [startFunction, forEach, stateA, stateB]
  rw [both, setLink_linkState (by simp [stateB]), setLink_linkState (by simp [stateA])]
  cases q <;> rfl

end Machine

end Sys2Proof

open Sys2Proof Sys2Proof.Machine

/-- Settles O7: each value as the state at reset gives it, and the two ports' training. -/
theorem resetValuesOfTheSpec : Obligations.ResetValuesOfTheSpec := by
  refine ⟨rfl, rfl, rfl, rfl, rfl, rfl, rfl, rfl, rfl, rfl, rfl, rfl, rfl, rfl, rfl, rfl, rfl, fun n => ?_, rfl, fun n guest => ?_, fun n => ?_,
    fun n => ?_, rfl, rfl, rfl, rfl,
    fun s a b => ⟨startFunction_time_linkState a b .a, startFunction_time_linkState a b .b⟩⟩
  · exact congrArg Chan.state (tget_replicate 64 n chanReset)
  · have absent : State.reset.ctx n = guestReset :=
      (tget_set_ne _ ctx0Reset guestReset (by decide) guest.symm).trans (tget_replicate 64 n guestReset)
    rw [absent]
    decide
  · have idle : State.reset.cvu n = cvuReset := tget_replicate 32 n cvuReset
    rw [idle]
    exact ⟨rfl, rfl⟩
  · have unbound : State.reset.ld n = loadReset := tget_replicate 96 n loadReset
    rw [unbound]
    exact ⟨rfl, rfl, rfl⟩

end

