-- ==== Sys2Proof/Proofs/StartUp.lean ====
section
/-!
PROOFS. Start-up, boot, and the resets of the HOST island and of the PF (R39, R52, R55, R58, R61 to R64, R80, R93, R94, R606).
-/

namespace Sys2Proof.Machine

/-! ### Start-up (R52, R63) -/

theorem exec_brownOutRestart {s : State} (held : s.aon.phase = .brownedOut) :
    exec .brownOutRestart s
      = next (passCycles msNs { s with aon := { s.aon with phase := .starting, supplies := BitVec.allOnes 6 } }) := by
  show execBrownOutRestart s = _
  simp only [execBrownOutRestart, held]

theorem exec_aonStart {s : State} (starting : s.aon.phase = .starting) :
    exec .aonStart s = next (logReset (readyOn (oneBit 0) { s with aon := { s.aon with phase := .running } })) := by
  show execAonStart s = _
  simp only [execAonStart, starting]

theorem exec_functionReady {f : Func} {up : BitVec 6} {s : State} (off : s.isReady (funcBit f) = false)
    (may : mayBecomeReady (supplyUp up s) f = true) :
    exec (.functionReady f up) s = next (startFunction f (readyOn (oneBit (funcBit f)) (supplyUp up s))) := by
  show execFunctionReady f up s = _
  have still : (supplyUp up s).isReady (funcBit f) = false := off
  simp [execFunctionReady, still, may]

/-! ### Boot (R57 to R61) -/

/-- What the mask ROM and the image need before either acts: MRAM ready in ACTIVE, and CORE powered and locked (R57, R63). -/
structure CoreBoots (s : State) : Prop where
  mram : s.isReady 15 = true
  power : s.aon.power = .active
  locked : pllLost s .core = false
  powered : islandPowered s .core = true
  fresh : s.aon.bootResult = 0

/-- The state in which the mask ROM looks for its slot: a trial that a reset cut short has ended (R58, R59). -/
def romState (s : State) : State := if trialValid (secOf s) then endTrial s else s

section
variable {s : State} (boots : CoreBoots s)
include boots

/-- A slot that passes is chosen (R58). -/
theorem CoreBoots.exec_maskRomBoot_slot (unchosen : s.aon.bootSlot = none) {k : Slot} (choice : bootChoice (romState s) = some k) :
    exec .maskRomBoot s = next { romState s with aon := { (romState s).aon with
      bootSlot := some k, fallback := trialValid (secOf s) || k != (secOf (romState s)).activeSlot } } := by
  obtain ⟨mram, power, locked, powered, fresh⟩ := boots
  rw [romState] at choice ⊢
  show execMaskRomBoot s = _
  simp [execMaskRomBoot, mram, power, locked, powered, fresh, unchosen, choice]

/-- No slot passes, and the device enters recovery (R60). -/
theorem CoreBoots.exec_maskRomBoot_recovery (unchosen : s.aon.bootSlot = none) (choice : bootChoice (romState s) = none) :
    exec .maskRomBoot s = next { romState s with aon := { (romState s).aon with
      bootResult := 2, fallback := trialValid (secOf s) } } := by
  obtain ⟨mram, power, locked, powered, fresh⟩ := boots
  rw [romState] at choice ⊢
  show execMaskRomBoot s = _
  simp [execMaskRomBoot, mram, power, locked, powered, fresh, unchosen, choice]

theorem CoreBoots.exec_imageStart {k : Slot} (chosen : s.aon.bootSlot = some k) :
    exec .imageStart s = next (readyOn (oneBit 2) { s with
      aon := { s.aon with bootResult := 1 }, update := { s.update with running := some k, unreadable := readSettings k s } }) := by
  obtain ⟨mram, power, locked, powered, fresh⟩ := boots
  show execImageStart s = _
  simp [execImageStart, chosen, mram, power, locked, powered, fresh]

end

/-! ### Resets of the HOST island (R55, R80, R94) -/

/-- PERSTN low where HOST has power: the island resets, and a HOST PLL that relocks brings back no bit (R51, R55, R95). -/
theorem exec_pcieFundamentalReset {s : State} (hosted : s.aon.power = .active ∨ s.aon.power = .standby) :
    exec .pcieFundamentalReset s = next (hostGone (readyOff (oneBit 1) { s with aon := { s.aon with
      perstnLow := true
      lostPlls := s.aon.lostPlls.map fun l => { l with bits := l.bits &&& ~~~ (oneBit 1) } } })) := by
  show execPcieFundamentalReset s = _
  rcases hosted with active | standby
  · simp only [execPcieFundamentalReset, active]
  · simp only [execPcieFundamentalReset, standby]

theorem exec_pcieFundamentalReset_asleep {s : State} (asleep : s.aon.power = .retain ∨ s.aon.power = .off) :
    exec .pcieFundamentalReset s = next s := by
  show execPcieFundamentalReset s = _
  rcases asleep with retain | off
  · simp only [execPcieFundamentalReset, retain]
  · simp only [execPcieFundamentalReset, off]

theorem exec_pfFlr {s : State} (host : s.isReady 1 = true) : exec .pfFlr s = next (hostGone s) := by
  show execPfFlr s = _
  rw [execPfFlr, if_pos host]

theorem exec_resumeFromRetain {s : State} (asleep : s.aon.power = .retain) (still : s.aon.transition = none) :
    exec .resumeFromRetain s = next (startTransition .active none s) := by
  show execResumeFromRetain s = _
  simp [execResumeFromRetain, asleep, still]

end Sys2Proof.Machine

open Sys2Proof Sys2Proof.Machine

/-- Settles O11: each command of the start-up where its guard lets it act, the mask ROM by whether it finds a slot. -/
theorem startUpCommandsComplete : Obligations.StartUpCommandsComplete := by
  refine ⟨fun s held => exec_brownOutRestart held, fun s starting => exec_aonStart starting,
    fun s f up off may => exec_functionReady off may,
    fun s mram power locked powered fresh unchosen => ?_,
    fun s k chosen mram power locked powered fresh => CoreBoots.exec_imageStart ⟨mram, power, locked, powered, fresh⟩ chosen,
    fun s => rfl⟩
  have boots : CoreBoots s := ⟨mram, power, locked, powered, fresh⟩
  exact ⟨fun k choice => boots.exec_maskRomBoot_slot unchosen choice, boots.exec_maskRomBoot_recovery unchosen⟩

/-- Settles O12: PERSTN by the power state, the PF's reset, and PERSTN's pulse in RETAIN. -/
theorem hostResetsComplete : Obligations.HostResetsComplete := by
  refine ⟨fun s hosted => exec_pcieFundamentalReset hosted, fun s asleep => exec_pcieFundamentalReset_asleep asleep,
    fun s host => exec_pfFlr host, fun s asleep still => ?_⟩
  rw [exec_resumeFromRetain asleep still, startTransition, asleep]
  rfl

end

