-- ==== Sys2Proof/Proofs/PowerCommands.lean ====
section
/-!
PROOFS. Power states, wake (R72, R73, R79 to R81, R85 to R88), and the commands that read the system or clear its counters (R89,
R99, R190, R191).
-/

namespace Sys2Proof.Machine

/-! ### What taking a packet leaves alone -/

theorem taken_aon (p : Packet) (s : State) : (taken p s).aon = s.aon := (taken_tells p s).aon

theorem taken_stamp (p : Packet) (s : State) : stampNow (taken p s) = stampNow s := by simp only [stampNow, taken_now]

/-- Taking a packet opens no update session (R576). -/
theorem taken_session {s : State} (p : Packet) (closed : s.update.session = none) : (taken p s).update.session = none := by
  have passed : (passQueue p.source s).update = s.update := (passQueue_tells _ (Tells.refl s)).update
  show ((passQueue p.source s).update.session.map _) = none
  rw [passed, closed]
  rfl

/-! ### SET_POWER_STATE (R79 to R81) -/

theorem powerCode_le (w : PowerState) : powerCode w ≤ 3 := by cases w <;> decide

theorem exec_setPowerState {p : Packet} {s : State} (awake : s.aon.power ≠ .retain) :
    exec (.setPowerState p) s = next (runCommand specSetPowerState setPowerState p s) := by
  show execSetPowerState p s = _
  simp [execSetPowerState, awake]

/-- The present state is answered at once (R81). -/
theorem setPowerState_present {p : Packet} {s : State} (reserved : zeroAt p.params 1 3 = true)
    (named : byteAt p.params 0 = powerCode s.aon.power) (still : s.aon.transition = none) :
    setPowerState p s = okBody s (le 1 (powerCode s.aon.power) ++ zeros 3 ++ le 8 (stampNow s)) := by
  have known := powerCode_le s.aon.power
  rw [setPowerState, named, badParam_false (by simpa using known), badParam_false (by simp [reserved]),
    refuseIf_false (by simp), refuseIf_false (by simp [still]), if_pos rfl]

/-- Another state starts its transition where nothing holds it up (R79, R81, R84). -/
theorem setPowerState_other {p : Packet} {s : State} (reserved : zeroAt p.params 1 3 = true) (known : byteAt p.params 0 ≤ 3)
    (other : byteAt p.params 0 ≠ powerCode s.aon.power) (still : s.aon.transition = none) (free : enableHeld s = false)
    (closed : s.update.session = none) (fixed : s.aon.proof = false) :
    setPowerState p s = .wait (startTransition (powerOf (byteAt p.params 0)) (some p) s) := by
  rw [setPowerState, badParam_false (by simpa using known), badParam_false (by simp [reserved]), refuseIf_false (by simp [free]),
    refuseIf_false (by simp [still]), if_neg other, refuseIf_false (by simp [closed]), refuseIf_false (by simp [fixed])]

/-- The AON hardware starts the return from RETAIN for the safety port's command (R80). -/
theorem exec_setPowerState_resume {p : Packet} {s : State} (asleep : s.aon.power = .retain) (still : s.aon.transition = none)
    (source : p.source = .sp) (zero : zeroAt p.params 0 4 = true)
    (header : headerFault specSetPowerState { p with opcode := 0x0104 } = none) :
    exec (.setPowerState p) s = next (startTransition .active (some { p with opcode := 0x0104 })
      { s with engine := { s.engine with taken := s.engine.taken ++ [{ p with opcode := 0x0104 }] } }) := by
  have resumes : isResume { p with opcode := 0x0104 } = true := by
    rw [isResume, header, zero]
    simp [source]
  show execSetPowerState p s = _
  simp [execSetPowerState, asleep, resumes, resumeBySp, still]

/-! ### SET_WAKE and a wake (R85 to R88) -/

theorem setWake_ok {p : Packet} {s : State} (filter : byteAt p.params 8 ≤ 63) (reserved : zeroAt p.params 9 3 = true) :
    setWake p s = okDone { s with aon := { s.aon with
      wakeMask := BitVec.ofNat 64 (fieldAt p.params 0 8)
      wakeFilter := if byteAt p.params 8 = 0 then 5 else byteAt p.params 8 } } := by
  rw [setWake, badParam_false (by simpa using filter), badParam_false (by simp [reserved])]

theorem exec_wakeDetected {c : Fin 64} {s : State} (armed : wakeArmed s = true) (chosen : s.aon.armedMask.getLsbD c.val = true)
    (fresh : s.aon.wake.getLsbD c.val = false) :
    exec (.wakeDetected c) s
      = next (raiseSafe 3 (raiseIrq 0 6 { s with aon := { s.aon with wake := s.aon.wake ||| (1#64 <<< c.val) } })) := by
  show execWakeDetected c s = _
  simp only [execWakeDetected, armed, chosen, fresh, Bool.not_true, Bool.or_self, Bool.false_eq_true, if_false]

/-! ### The end of a transition (R73, R75 to R80) -/

section
variable {s : State} {t : Transition} (under : s.aon.transition = some t)
include under

theorem exec_powerTransitionComplete_active (target : t.target = .active) :
    exec .powerTransitionComplete s = next (commitActive t s) := by
  show execPowerTransitionComplete s = _
  simp only [execPowerTransitionComplete, under, target]

theorem exec_powerTransitionComplete_standby (target : t.target = .standby)
    (channels : (s.chans.toList.any fun c => c.state == .stopping) = false) :
    exec .powerTransitionComplete s = next (replyPower t (enterPower .standby s)) := by
  show execPowerTransitionComplete s = _
  simp only [execPowerTransitionComplete, under, target, channels, Bool.false_eq_true, if_false]

theorem exec_powerTransitionComplete_sleep (target : t.target = .retain ∨ t.target = .off)
    (channels : (s.chans.toList.any fun c => c.state == .stopping) = false) (loads : loadBathRuns s = false) :
    exec .powerTransitionComplete s = next (commitSleep t s) := by
  show execPowerTransitionComplete s = _
  rcases target with retain | off
  · simp only [execPowerTransitionComplete, under, retain, channels, loads, Bool.or_self, Bool.false_eq_true, if_false]
  · simp only [execPowerTransitionComplete, under, off, channels, loads, Bool.or_self, Bool.false_eq_true, if_false]

end

end Sys2Proof.Machine

open Sys2Proof Sys2Proof.Machine

/-- Settles O15: SET_POWER_STATE by the state it names, SET_WAKE by its handler, a wake, and each transition's end. -/
theorem powerCommandsComplete : Obligations.PowerCommandsComplete := by
  refine ⟨fun p s accepts reserved named awake still => ?_,
    fun p s accepts reserved known other awake still free closed fixed => ?_,
    fun p s accepts filter reserved => ?_,
    fun c s armed chosen fresh => exec_wakeDetected armed chosen fresh,
    fun s t under target channels => exec_powerTransitionComplete_standby under target channels,
    fun s t under target channels loads => exec_powerTransitionComplete_sleep under target channels loads,
    fun s t under target => exec_powerTransitionComplete_active under target,
    fun p s asleep still source zero header => exec_setPowerState_resume asleep still source zero header⟩
  · rw [exec_setPowerState awake, ← taken_stamp p s, ← taken_aon p s]
    rw [← taken_aon p s] at named still
    exact answered_of_accepts accepts (setPowerState_present reserved named still)
  · rw [exec_setPowerState awake]
    rw [← taken_aon p s] at other still fixed
    exact waited_of_accepts accepts (setPowerState_other reserved known other still free (taken_session p closed) fixed)
  · rw [← taken_aon p s]
    exact answered_of_accepts accepts (setWake_ok filter reserved)

/-- Settles O24: the handlers of IDENTIFY and GET_READINESS answer at once, and so does that of CLEAR_COUNTERS for a listed mask. -/
theorem systemReadsAndClearsComplete : Obligations.SystemReadsAndClearsComplete := by
  refine ⟨fun p s accepts => answered_of_accepts accepts rfl, fun p s accepts => ?_, fun p s accepts listed => ?_⟩
  · rw [← taken_aon p s]
    exact answered_of_accepts accepts rfl
  · exact answered_of_accepts accepts (badParam_false (by simpa using listed))

end

