-- ==== Sys2Proof/Proofs/RingTraffic.lean ====
section
/-!
PROOFS. The completion of a descriptor that was never read on its way to a guest (R112, R121, R162).
-/

namespace Sys2Proof.Machine

/-- The completion that a DMA read error writes where the descriptor itself could not be read, for RX ring 0 (R112). -/
def unreadCompletion : RxItem := { ring := 0, record := dmaErrorRecord State.reset none, data := [] }

/-- Guest CTX1 sees CH0 as its virtual channel 1, and that completion waits for its RX ring 0, which runs. -/
def unreadState : State :=
  ((guestState.modCtx 1 fun x => { x with map := tmod x.map 1 fun _ => { channel := 0, right := 1 } }).modRing 1 20
    fun r => { r with active := true }).modCq 1 fun q => { q with rxq := [unreadCompletion] }

/-- What an outcome has put on the device's outputs. -/
def outputsOf : Host.Outcome State Fault Refusal → List Out
  | .next t => t.out
  | _ => []

/-- The entry written shows CHANNEL 0, as R112 has it. -/
theorem outputs_unreadState : outputsOf (exec (.rxRingWrite 1 false) unreadState)
    = [.dma 1 0 (recBytes (dmaErrorRecord State.reset none) 0 0)] := by decide +kernel

end Sys2Proof.Machine

open Sys2Proof Sys2Proof.Machine

/-- Refutes O20: the statement translates CHANNEL of every item that reaches an RX ring, but the completion of a descriptor that was
never read shows 0 there (R112), which is not what the translation gives a guest that sees CH0 as its channel 1. -/
theorem not_ringTrafficCompletes : ¬ Obligations.RingTrafficCompletes := by
  intro claim
  obtain ⟨-, -, received, -⟩ := claim
  obtain ⟨written, -⟩ := received 1 false unreadState unreadCompletion [] rfl
  have outputs := congrArg outputsOf (written (by decide) (by decide) (by decide))
  rw [outputs_unreadState] at outputs
  exact absurd outputs (by decide +kernel)

end

