-- ==== Sys2Proof/Proofs/HostFrames.lean ====
section
/-!
PROOFS. What telling leaves of a function of the host port: its registers, rings and window (R108, R125, R129, R130), and what an
update of one ring leaves of the others.
-/

namespace Sys2Proof

theorem tget_tmod_kept {α β : Type} {n : Nat} (g : α → β) {f : α → α} (kept : ∀ x, g (f x) = g x) (v : Vector α n)
    (i j : Nat) (d : α) : g (tget (tmod v i f) j d) = g (tget v j d) := by
  by_cases same : i = j
  · subst same
    by_cases inside : i < n
    · rw [tget_tmod_self f d inside, kept]
    · rw [tmod, dif_neg inside]
  · rw [tget_tmod_ne f d same]

/-- A function without what telling changes in it: its causes and the messages gone for them (R129), and its counts of lost
events (R125). -/
def Fn.untold (n : Fn) : Fn := { n with irqCause := 0, irqSent := 0, evtLost := 0, evtLostNext := 0 }

namespace Machine

/-! ### Functions and rings after an update -/

/-- An update of functions keeps what its change of each keeps. -/
theorem State.modFn_kept {β : Type} (g : Fn → β) {f : Fn → Fn} (kept : ∀ n, g (f n) = g n) (s : State) (c d : Nat) :
    g ((s.modFn c f).fn d) = g (s.fn d) :=
  tget_tmod_kept g kept s.host.fns c d fnReset

theorem State.fn_modRing (s : State) {c : Nat} (k : Nat) (f : Ring → Ring) (h : c < 64) :
    (s.modRing c k f).fn c = { s.fn c with rings := tmod (s.fn c).rings k f } :=
  State.fn_modFn s c _ h

@[simp] theorem State.ring_modRing (s : State) {c k : Nat} (f : Ring → Ring) (hc : c < 64) (hk : k < 36) :
    (s.modRing c k f).ring c k = f (s.ring c k) := by
  rw [State.ring, State.fn_modRing s k f hc]
  exact tget_tmod_self f ringReset hk

/-- An update of one ring leaves every other ring alone. -/
theorem State.ring_modRing_ne (s : State) (c d : Nat) {k j : Nat} (f : Ring → Ring) (other : k ≠ j) :
    (s.modRing c k f).ring d j = s.ring d j :=
  State.modFn_kept (fun n => tget n.rings j ringReset) (fun _ => tget_tmod_ne f ringReset other) s c d

@[simp] theorem State.dblDiscards_modRing (s : State) (c k d : Nat) (f : Ring → Ring) :
    ((s.modRing c k f).fn d).dblDiscards = (s.fn d).dblDiscards :=
  State.modFn_kept Fn.dblDiscards (fun _ => by rfl) s c d

/-! ### Telling leaves the registers, rings and window of a function alone -/

section
variable {s t : State} {d : Nat} (told : (t.fn d).untold = (s.fn d).untold)
include told

theorem ring_of_untold (j : Nat) : t.ring d j = s.ring d j := by
  show tget (t.fn d).untold.rings j ringReset = tget (s.fn d).untold.rings j ringReset
  rw [told]

theorem win_of_untold : (t.fn d).win = (s.fn d).win := by
  show (t.fn d).untold.win = (s.fn d).untold.win
  rw [told]

theorem dblDiscards_of_untold : (t.fn d).dblDiscards = (s.fn d).dblDiscards := by
  show (t.fn d).untold.dblDiscards = (s.fn d).untold.dblDiscards
  rw [told]

end

@[simp] theorem putFrame_host (p : Port) (f : LinkFrame) (s : State) : (putFrame p f s).host = s.host := by
  simp only [putFrame, State.emit_host, State.modLink_host]

@[simp] theorem pumpLink_host (p : Port) (n : Nat) (s : State) : (pumpLink p n s).host = s.host := by
  induction n generalizing s with
  | zero => rfl
  | succ n ih =>
    unfold pumpLink
    dsimp only
    split
    · rfl
    · split
      · rfl
      · split
        · exact (ih _).trans (putFrame_host p _ s)
        · rfl

@[simp] theorem sendFrame_host (p : Port) (f : LinkFrame) (s : State) : (sendFrame p f s).host = s.host := by
  simp only [sendFrame, apply_ite State.host, pumpLink_host, State.modLink_host, ite_self]

@[simp] theorem sendFrame_fn (p : Port) (f : LinkFrame) (s : State) (c : Nat) : (sendFrame p f s).fn c = s.fn c := by
  simp only [State.fn, sendFrame_host]

@[simp] theorem State.fn_modCq (s : State) (c d : Nat) (f : CtxQueues → CtxQueues) : (s.modCq c f).fn d = s.fn d := rfl
@[simp] theorem State.fn_emit (s : State) (o : Out) (d : Nat) : (s.emit o).fn d = s.fn d := rfl

/-- A cause keeps of a function what neither the cause nor its message bears on (R129). -/
theorem raiseIrq_kept {β : Type} (g : Fn → β) (kept : ∀ n cause sent, g { n with irqCause := cause, irqSent := sent } = g n)
    (c bit d : Nat) (s : State) : g ((raiseIrq c bit s).fn d) = g (s.fn d) := by
  have caused : g ((s.modFn c fun n => { n with irqCause := n.irqCause ||| (1#8 <<< bit) }).fn d) = g (s.fn d) :=
    State.modFn_kept g (fun n => kept n _ n.irqSent) s c d
  unfold raiseIrq settleIrq
  dsimp only
  split
  · exact caused
  · have sent : ∀ t : State, g ((t.modFn c fun n => { n with irqSent := irqSignals n }).fn d) = g (t.fn d) :=
      fun t => State.modFn_kept g (fun n => kept n n.irqCause _) t c d
    split
    · exact (sent _).trans caused
    · exact (sent _).trans caused

@[simp] theorem raiseIrq_cqs (c bit : Nat) (s : State) : (raiseIrq c bit s).cqs = s.cqs := by
  simp only [raiseIrq, settleIrq, sendMsix, apply_ite State.cqs, State.emit_cqs, State.modFn_cqs, ite_self]

@[simp] theorem State.cq_modFn (s : State) (c d : Nat) (f : Fn → Fn) : (s.modFn c f).cq d = s.cq d := rfl

@[simp] theorem raiseIrq_cq (c bit d : Nat) (s : State) : (raiseIrq c bit s).cq d = s.cq d := by
  simp only [State.cq, raiseIrq_cqs]

@[simp] theorem raiseIrq_untold (c bit d : Nat) (s : State) : ((raiseIrq c bit s).fn d).untold = (s.fn d).untold :=
  raiseIrq_kept Fn.untold (fun _ _ _ => by rfl) c bit d s

@[simp] theorem pushEvent_untold (c : Nat) (e : Event) (d : Nat) (s : State) :
    ((pushEvent c e s).fn d).untold = (s.fn d).untold := by
  unfold pushEvent
  split
  · rfl
  · split
    · rfl
    · split
      · exact (raiseIrq_untold ..).trans (State.modFn_kept Fn.untold (fun _ => by rfl) _ c d)
      · rfl

@[simp] theorem raiseEvent_untold (c code : Nat) (data : List Byte) (d : Nat) (s : State) :
    ((raiseEvent c code data s).fn d).untold = (s.fn d).untold := by
  unfold raiseEvent
  dsimp only
  split
  · split <;> split <;> simp only [pushEvent_untold, sendFrame_fn]
  · rw [pushEvent_untold]

@[simp] theorem modStat_fn (q : QKind × Nat) (f : QStat → QStat) (s : State) (d : Nat) : (modStat q f s).fn d = s.fn d := by
  obtain ⟨k, n⟩ := q
  cases k <;> rfl

@[simp] theorem fcMeet_untold (q : QKind × Nat) (f : Nat) (atOnce : Bool) (pin d : Nat) (s : State) :
    ((fcMeet q f atOnce pin s).fn d).untold = (s.fn d).untold := by
  unfold fcMeet
  dsimp only
  split
  · rfl
  · split
    · exact (raiseEvent_untold ..).trans (congrArg Fn.untold (modStat_fn ..))
    · split
      · exact raiseEvent_untold ..
      · rfl

@[simp] theorem fcAt_untold (q : QKind × Nat) (f : Nat) (atOnce : Bool) (d : Nat) (s : State) :
    ((fcAt q f atOnce s).fn d).untold = (s.fn d).untold := by
  unfold fcAt
  split
  · exact forRange_kept (fun s => (s.fn d).untold) (fun pin s => fcMeet_untold q f atOnce pin d s) 8 s
  · rfl

@[simp] theorem fcPin_untold (pin d : Nat) (s : State) : ((fcPin pin s).fn d).untold = (s.fn d).untold := by
  unfold fcPin
  split
  · rfl
  · exact fcMeet_untold ..

@[simp] theorem fcSettle_untold (d : Nat) (s : State) : ((fcSettle s).fn d).untold = (s.fn d).untold := by
  have pins := forRange_kept (fun s => (s.fn d).untold) (fun pin s => fcPin_untold pin d s) 8
  unfold fcSettle
  split
  · exact (pins _).trans (pins s)
  · rfl

@[simp] theorem countHwm_untold (q : QKind × Nat) (d : Nat) (s : State) : ((countHwm q s).fn d).untold = (s.fn d).untold :=
  (fcAt_untold ..).trans (congrArg Fn.untold (modStat_fn ..))

end Machine

end Sys2Proof

end

