-- ==== Sys2Proof/Proofs/EventsAndDoorbells.lean ====
section
/-!
PROOFS. Events on their way to a context (R124, R125, R335), and the doorbells of its rings (R115 to R117).
-/

namespace Sys2Proof.Machine

/-! ### An event (R124, R125, R335) -/

/-- No event of the stack master goes up the stack (R555). -/
theorem raiseEvent_master {s : State} (master : s.isMaster = true) (c code : Nat) (data : List Byte) : raiseEvent c code data s
    = pushEvent c { code := code, source := 0, stamp := stampNow s, data := padTo 16 data } s := by
  have here : s.pos = 0 := by rw [State.pos, eq_of_beq master]; rfl
  simp only [raiseEvent, goesUpstream, master, Bool.not_true, Bool.and_false, Bool.false_and, Bool.false_eq_true, ↓reduceIte,
    here]

section
variable {c : Nat} {s : State} (e : Event) (live : reachable s c = true)
include live

theorem pushEvent_noring (idle : (s.ring c 2).active = false) :
    pushEvent c e s = s.modCq c fun q => { q with evtStat := { q.evtStat with noring := inc32 q.evtStat.noring } } := by
  simp only [pushEvent, live, Bool.not_true, Bool.false_eq_true, ↓reduceIte, idle, Bool.not_false]

theorem pushEvent_room (active : (s.ring c 2).active = true) (room : (s.cq c).evtq.length < (s.cq c).depths.evt) :
    pushEvent c e s = s.modCq c fun q => { q with
      evtq := q.evtq ++ [e]
      evtStat := { q.evtStat with packets := inc32 q.evtStat.packets, hwm := max q.evtStat.hwm (q.evtq.length + 1) } } := by
  simp only [pushEvent, live, active, evtFill, ge_iff_le, Nat.not_le.2 room, Bool.not_true, Bool.false_eq_true, if_false]

theorem pushEvent_full (active : (s.ring c 2).active = true) (full : (s.cq c).depths.evt ≤ (s.cq c).evtq.length) :
    pushEvent c e s = raiseIrq c 4
      ((s.modCq c fun q => { q with evtStat := { q.evtStat with overflow := inc32 q.evtStat.overflow } }).modFn c
        fun n => { n with evtLost := inc16 n.evtLost, evtLostNext := inc16 n.evtLostNext }) := by
  simp only [pushEvent, live, Bool.not_true, Bool.false_eq_true, ↓reduceIte, active, evtFill, ge_iff_le, full]

end

/-! ### Credit and write-back of a ring beside it (R106, R107, R339) -/

/-- A ring's message changes that ring alone (R128). -/
theorem ringMessage_host (c k : Nat) (s : State) :
    (ringMessage c k s).host = s.host ∨ ∃ f, (ringMessage c k s).host = (s.modRing c k f).host := by
  unfold ringMessage
  dsimp only
  split
  · exact .inl rfl
  · split
    · rw [if_pos rfl]
      exact .inr ⟨_, rfl⟩
    · split
      · exact .inr ⟨_, rfl⟩
      · exact .inr ⟨_, rfl⟩

theorem ringMessage_ring_ne (c k d : Nat) {j : Nat} (other : k ≠ j) (s : State) : (ringMessage c k s).ring d j = s.ring d j := by
  rw [State.ring, State.fn]
  rcases ringMessage_host c k s with same | ⟨f, one⟩
  · rw [same]; rfl
  · rw [one]; exact State.ring_modRing_ne s c d f other

theorem ringMessage_dblDiscards (c k d : Nat) (s : State) : ((ringMessage c k s).fn d).dblDiscards = (s.fn d).dblDiscards := by
  rw [State.fn]
  rcases ringMessage_host c k s with same | ⟨f, one⟩
  · rw [same]; rfl
  · rw [one]; exact State.dblDiscards_modRing s c k d f

@[simp] theorem writeBack_fn (c k : Nat) (v : BitVec 32) (s : State) (d : Nat) : (writeBack c k v s).fn d = s.fn d := by
  unfold writeBack
  split <;> rfl

/-- A new limit of one ring leaves the others alone. -/
theorem setLimit_ring_ne (c k d : Nat) {j : Nat} (other : k ≠ j) (v : BitVec 32) (s : State) :
    (setLimit c k v s).ring d j = s.ring d j := by
  unfold setLimit ringAdvance
  split
  · rfl
  · rw [ringMessage_ring_ne c k d other, State.ring, writeBack_fn]
    exact State.ring_modRing_ne s c d _ other

theorem setLimit_dblDiscards (c k d : Nat) (v : BitVec 32) (s : State) :
    ((setLimit c k v s).fn d).dblDiscards = (s.fn d).dblDiscards := by
  unfold setLimit ringAdvance
  split
  · rfl
  · rw [ringMessage_dblDiscards, writeBack_fn, State.dblDiscards_modRing]

/-! ### Doorbells (R115 to R117) -/

section
variable {c k : Nat} {v : Word} {s : State}

/-- A producer doorbell within the credit sets the producer index, and the TXQ counts what is posted (R115). -/
theorem doorbell_producer (produced : hostProduced k = true) (active : (s.ring c k).active = true)
    (credit : v - (s.ring c k).prod ≤ (s.ring c k).limit - (s.ring c k).prod) :
    let t := s.modRing c k fun r => { r with prod := v }
    doorbell c k v s = if isTxRing k then countHwm (.txq, c) t else t := by
  simp only [doorbell, produced, ↓reduceIte, active, credit, decide_true, Bool.and_self]

/-- A consumer doorbell within the credit sets the consumer index, and the RPL ring's credits the CMD ring (R116, R339). -/
theorem doorbell_consumer (produced : hostProduced k = false) (active : (s.ring c k).active = true)
    (credit : v - (s.ring c k).cons ≤ (s.ring c k).prod - (s.ring c k).cons) :
    let t := s.modRing c k fun r => { r with cons := v }
    doorbell c k v s
      = if k = 1 ∧ (t.ring c 0).active = true then setLimit c 0 ((t.ring c 0).limit + (v - (s.ring c k).cons)) t else t := by
  simp only [doorbell, produced, Bool.false_eq_true, ↓reduceIte, active, credit, decide_true, Bool.and_self,
    Bool.and_eq_true, decide_eq_true_eq]

theorem doorbell_producer_discarded (produced : hostProduced k = true) (fails : (s.ring c k).active = false
      ∨ ¬ v - (s.ring c k).prod ≤ (s.ring c k).limit - (s.ring c k).prod) :
    doorbell c k v s = discardDoorbell c k v (s.ring c k).prod (s.ring c k).limit s := by
  rcases fails with idle | beyond
  · simp only [doorbell, produced, ↓reduceIte, idle, Bool.false_and, Bool.false_eq_true]
  · simp only [doorbell, produced, ↓reduceIte, beyond, decide_false, Bool.and_false, Bool.false_eq_true]

theorem doorbell_consumer_discarded (produced : hostProduced k = false) (fails : (s.ring c k).active = false
      ∨ ¬ v - (s.ring c k).cons ≤ (s.ring c k).prod - (s.ring c k).cons) :
    doorbell c k v s = discardDoorbell c k v (s.ring c k).cons (s.ring c k).prod s := by
  rcases fails with idle | beyond
  · simp only [doorbell, produced, Bool.false_eq_true, ↓reduceIte, idle, Bool.false_and]
  · simp only [doorbell, produced, Bool.false_eq_true, ↓reduceIte, beyond, decide_false, Bool.and_false]

end

/-- A discard bears on a function only by its count and by what is told (R117). -/
theorem discardDoorbell_untold (c k d : Nat) (v from_ bound : Word) (s : State) :
    ((discardDoorbell c k v from_ bound s).fn d).untold
      = ((s.modFn c fun n => { n with dblDiscards := inc16 n.dblDiscards }).fn d).untold :=
  (raiseEvent_untold ..).trans (raiseIrq_untold ..)

theorem discardDoorbell_ring (c k d j : Nat) (v from_ bound : Word) (s : State) :
    (discardDoorbell c k v from_ bound s).ring d j = s.ring d j :=
  (ring_of_untold (discardDoorbell_untold c k d v from_ bound s) j).trans
    (State.modFn_kept (fun n => tget n.rings j ringReset) (fun _ => by rfl) s c d)

theorem discardDoorbell_dblDiscards {c : Nat} (h : c < 64) (k : Nat) (v from_ bound : Word) (s : State) :
    ((discardDoorbell c k v from_ bound s).fn c).dblDiscards = inc16 (s.fn c).dblDiscards := by
  rw [dblDiscards_of_untold (discardDoorbell_untold c k c v from_ bound s), State.fn_modFn s c _ h]

section
variable {c : Fin 64} {k : Fin 36} {s : State} (opened : ringsOpen s c.val = true)
include opened

theorem exec_producerDoorbellWrite (v : Word) (produced : hostProduced k.val = true) :
    exec (.producerDoorbellWrite c k v) s = next (doorbell c.val k.val v s) := by
  show execProducerDoorbellWrite c k v s = _
  simp only [execProducerDoorbellWrite, opened, Bool.not_true, produced, Bool.or_self, Bool.false_eq_true, ↓reduceIte]

theorem exec_consumerDoorbellWrite (v : Word) (produced : hostProduced k.val = false) :
    exec (.consumerDoorbellWrite c k v) s = next (doorbell c.val k.val v s) := by
  show execConsumerDoorbellWrite c k v s = _
  simp only [execConsumerDoorbellWrite, opened, Bool.not_true, produced, Bool.or_self, Bool.false_eq_true, ↓reduceIte]

end

/-! ### What a doorbell leaves (R115 to R117) -/

/-- A producer doorbell within the credit leaves its index and discards nothing. -/
theorem producerDoorbell_settled {c : Fin 64} {k : Fin 36} {v : Word} {s : State} (produced : hostProduced k.val = true)
    (active : (s.ring c.val k.val).active = true)
    (credit : v - (s.ring c.val k.val).prod ≤ (s.ring c.val k.val).limit - (s.ring c.val k.val).prod) :
    let t := fcSettle (doorbell c.val k.val v s)
    (t.ring c.val k.val).prod = v ∧ (t.fn c.val).dblDiscards = (s.fn c.val).dblDiscards := by
  intro t
  have told : (t.fn c.val).untold = ((s.modRing c.val k.val fun r => { r with prod := v }).fn c.val).untold := by
    rw [fcSettle_untold, doorbell_producer produced active credit]
    split
    · rw [countHwm_untold]
    · rfl
  rw [ring_of_untold told, dblDiscards_of_untold told, State.ring_modRing s _ c.isLt k.isLt, State.dblDiscards_modRing]
  exact ⟨rfl, rfl⟩

/-- A consumer doorbell within the credit leaves its index and discards nothing. -/
theorem consumerDoorbell_settled {c : Fin 64} {k : Fin 36} {v : Word} {s : State} (produced : hostProduced k.val = false)
    (active : (s.ring c.val k.val).active = true)
    (credit : v - (s.ring c.val k.val).cons ≤ (s.ring c.val k.val).prod - (s.ring c.val k.val).cons) :
    let t := fcSettle (doorbell c.val k.val v s)
    (t.ring c.val k.val).cons = v ∧ (t.fn c.val).dblDiscards = (s.fn c.val).dblDiscards := by
  intro t
  have told := fcSettle_untold c.val (doorbell c.val k.val v s)
  rw [ring_of_untold told, dblDiscards_of_untold told, doorbell_consumer produced active credit]
  split
  · next reply =>
    have beside : 0 ≠ k.val := by omega
    rw [setLimit_ring_ne c.val 0 c.val beside, setLimit_dblDiscards, State.ring_modRing s _ c.isLt k.isLt,
      State.dblDiscards_modRing]
    exact ⟨rfl, rfl⟩
  · rw [State.ring_modRing s _ c.isLt k.isLt, State.dblDiscards_modRing]
    exact ⟨rfl, rfl⟩

/-- A discarded doorbell leaves every ring of the function and is counted. -/
theorem discardDoorbell_settled (c : Fin 64) (k : Nat) (v from_ bound : Word) (s : State) :
    let t := fcSettle (discardDoorbell c.val k v from_ bound s)
    (∀ j, t.ring c.val j = s.ring c.val j) ∧ (t.fn c.val).dblDiscards = inc16 (s.fn c.val).dblDiscards := by
  have told := fcSettle_untold c.val (discardDoorbell c.val k v from_ bound s)
  refine ⟨fun j => ?_, ?_⟩
  · rw [ring_of_untold told, discardDoorbell_ring]
  · rw [dblDiscards_of_untold told, discardDoorbell_dblDiscards c.isLt]

end Sys2Proof.Machine

open Sys2Proof Sys2Proof.Machine

/-- Settles O9: on the stack master an event is pushed, and the ring and the queue decide what becomes of it. -/
theorem eventsReachAnActiveRing : Obligations.EventsReachAnActiveRing := by
  intro c code data s bound master live
  have pushed := raiseEvent_master master c code data
  refine ⟨raiseEvent_tells c code data (Tells.refl s), fun active room => ?_, fun idle => ?_, fun active full => ?_⟩
  · rw [pushed, pushEvent_room _ live active room, State.cq_modCq s c _ bound]
    rfl
  · rw [pushed, pushEvent_noring _ live idle]
  · rw [pushed, pushEvent_full _ live active full]
    refine ⟨?_, ?_, ?_⟩
    · rw [raiseIrq_cq, State.cq_modFn, State.cq_modCq s c _ bound]
    · rw [raiseIrq_cq, State.cq_modFn, State.cq_modCq s c _ bound]
    · rw [raiseIrq_kept Fn.evtLostNext (fun _ _ _ => by rfl), State.fn_modFn _ c _ bound, State.fn_modCq]

/-- Settles O16: an accepted doorbell sets its index, a failing one is discarded, and what is told bears on no ring. -/
theorem doorbellsFollowCredit : Obligations.DoorbellsFollowCredit := by
  intro c k v s opened
  refine ⟨fun produced active credit =>
      ⟨_, exec_producerDoorbellWrite opened v produced, producerDoorbell_settled produced active credit⟩,
    fun produced active credit =>
      ⟨_, exec_consumerDoorbellWrite opened v produced, consumerDoorbell_settled produced active credit⟩,
    fun produced fails => ⟨_, ?_, rfl, discardDoorbell_settled c k.val v _ _ s⟩,
    fun produced fails => ⟨_, ?_, rfl, discardDoorbell_settled c k.val v _ _ s⟩⟩
  · rw [exec_producerDoorbellWrite opened v produced, doorbell_producer_discarded produced fails]
    rfl
  · rw [exec_consumerDoorbellWrite opened v produced, doorbell_consumer_discarded produced fails]
    rfl

end

