-- ==== Sys2Proof/Proofs/RingCommands.lean ====
section
/-!
PROOFS. A ring's enable and disable, its stop bath, and DMA errors (R103, R108 to R113).
-/

namespace Sys2Proof.Machine

/-! ### The control word of a ring (R103, R108, R109) -/

/-- A write of QCFG_CTRL may be taken: the ring is at rest, or none of the fields changes that a running ring holds fast (R108). -/
def CtrlTakes (r : Ring) (v : Word) : Prop := ringBusy r = false ∨ (v ^^^ r.ctrl) &&& ctrlMask &&& ~~~ctrlLive = 0

/-- Ring `k` with the fields of `v` in its control word and EN as it was (R108). -/
def withCtrl (c k : Nat) (v : Word) (s : State) : State :=
  s.modRing c k fun r => { r with ctrl := (v &&& ctrlMask &&& ~~~1#32) ||| ((s.ring c k).ctrl &&& 1) }

section
variable {c : Fin 64} {v : Word} {s : State}

theorem withCtrl_ring (c : Fin 64) (k : Fin 36) (v : Word) (s : State) : (withCtrl c.val k.val v s).ring c.val k.val
    = { s.ring c.val k.val with ctrl := (v &&& ctrlMask &&& ~~~1#32) ||| ((s.ring c.val k.val).ctrl &&& 1) } :=
  State.ring_modRing s _ c.isLt k.isLt

theorem writeCtrl_taken {k : Nat} (takes : CtrlTakes (s.ring c.val k) v) :
    writeCtrl c k v s
      = if v.getLsbD 0 then writeEnable c k (withCtrl c.val k v s) else writeDisable c.val k (withCtrl c.val k v s) := by
  unfold writeCtrl
  dsimp only
  rw [if_neg]
  · rfl
  · rcases takes with rest | same
    · simp only [rest, BitVec.ofNat_eq_ofNat, Bool.false_and, Bool.false_eq_true, not_false_eq_true]
    · simp only [same, BitVec.ofNat_eq_ofNat, bne_self_eq_false, Bool.and_false, Bool.false_eq_true, not_false_eq_true]

theorem writeCtrl_refused {k : Nat} (busy : ringBusy (s.ring c.val k) = true)
    (changes : (v ^^^ (s.ring c.val k).ctrl) &&& ctrlMask &&& ~~~ctrlLive ≠ 0) : writeCtrl c k v s = refuseRing c.val k 5 s := by
  unfold writeCtrl
  dsimp only
  rw [if_pos]
  rw [busy, Bool.true_and]
  exact bne_iff_ne.2 changes

theorem exec_ringEnable {k : Fin 36} (opened : ringsOpen s c.val = true) (en : v.getLsbD 0 = true) :
    exec (.ringEnable c k v) s = next (writeCtrl c k.val v s) := by
  show execRingEnable c k v s = _
  simp only [execRingEnable, opened, en, Bool.not_true, Bool.or_self, Bool.false_eq_true, if_false]

theorem exec_ringDisable {k : Fin 36} (opened : ringsOpen s c.val = true) (en : v.getLsbD 0 = false) :
    exec (.ringDisable c k v) s = next (writeCtrl c k.val v s) := by
  show execRingDisable c k v s = _
  simp only [execRingDisable, opened, en, Bool.not_true, Bool.or_self, Bool.false_eq_true, if_false]

end

/-! ### EN written 1 and 0 (R109 to R111, R113) -/

section
variable {c : Fin 64} {k : Nat} {s : State}

theorem writeEnable_running (on : (s.ring c.val k).active = true ∨ (s.ring c.val k).held = true) : writeEnable c k s = s := by
  rcases on with active | held
  · simp only [writeEnable, active, Bool.true_or, ↓reduceIte]
  · simp only [writeEnable, held, Bool.or_true, ↓reduceIte]

theorem writeEnable_waits (idle : (s.ring c.val k).active = false) (free : (s.ring c.val k).held = false)
    (waits : (s.ring c.val k).stopping = true ∨ (s.ring c.val k).dmaErr = true) :
    writeEnable c k s = s.modRing c.val k fun r => { r with held := true, ctrl := r.ctrl ||| 1 } := by
  rcases waits with stopping | error
  · simp only [writeEnable, idle, free, Bool.or_self, Bool.false_eq_true, ↓reduceIte, stopping, Bool.true_or,
      BitVec.ofNat_eq_ofNat]
  · simp only [writeEnable, idle, free, Bool.or_self, Bool.false_eq_true, ↓reduceIte, error, Bool.or_true,
      BitVec.ofNat_eq_ofNat]

theorem writeEnable_rest (rest : ringBusy (s.ring c.val k) = false) (clean : (s.ring c.val k).dmaErr = false) :
    writeEnable c k s = enableRing c k s := by
  simp only [ringBusy, Bool.or_eq_false_iff] at rest
  obtain ⟨⟨idle, still⟩, free⟩ := rest
  simp only [writeEnable, idle, free, Bool.or_self, Bool.false_eq_true, ↓reduceIte, still, clean]

theorem writeDisable_eq (c k : Nat) (s : State) : writeDisable c k s
    = if (s.ring c k).held = false ∧ (s.ring c k).active = true then stopRing c k false s else s.modRing c k enLow := by
  cases held : (s.ring c k).held
  · cases active : (s.ring c k).active
    · simp only [writeDisable, held, Bool.false_eq_true, ↓reduceIte, active, and_false]
    · simp only [writeDisable, held, Bool.false_eq_true, ↓reduceIte, active, and_self]
  · simp only [writeDisable, held, ↓reduceIte, Bool.true_eq_false, false_and]

theorem enableRing_refused (fault : enableFault s c.val k ≠ 0) :
    enableRing c k s = refuseRing c.val k (enableFault s c.val k) (s.modRing c.val k enLow) := if_pos fault

end

/-! ### The end of the stop bath, DMA errors (R110 to R113) -/

/-- The ring's enable that was held runs where `may` says so (R111, R113). -/
def heldEnable (c : Fin 64) (k : Nat) (may : Prop) [Decidable may] (s : State) : State :=
  if may then enableRing c k (s.modRing c.val k fun r => { r with held := false }) else s

section
variable {c : Fin 64} {k : Fin 36} {s : State}

theorem exec_ringStopBathEnd (ready : s.isReady 1 = true) (stopping : (s.ring c.val k.val).stopping = true)
    (done : bathDone s c k.val = true) :
    let t := raiseEvent c.val 0x0111 (le 1 k.val ++ le 1 (flag (s.ring c.val k.val).dmaStop 1))
      (raiseIrq c.val 7 (s.modRing c.val k.val fun r => { r with stopping := false, dmaStop := false }))
    exec (.ringStopBathEnd c k) s = next (heldEnable c k.val
      ((s.ring c.val k.val).held = true ∧ (s.ring c.val k.val).dmaErr = false ∧ (t.ctx c.val).state = .present) t) := by
  show execRingStopBathEnd c k s = _
  simp only [execRingStopBathEnd, ready, Bool.not_true, stopping, Bool.or_self, done, Bool.false_eq_true, ↓reduceIte,
    Bool.and_eq_true, Bool.not_eq_eq_eq_not, beq_iff_eq, and_assoc, heldEnable]

theorem exec_dmaErrClear (opened : ringsOpen s c.val = true) (error : (s.ring c.val k.val).dmaErr = true) :
    exec (.dmaErrClear c k) s = next (heldEnable c k.val
      ((s.ring c.val k.val).held = true ∧ (s.ring c.val k.val).stopping = false)
      (s.modRing c.val k.val fun r => { r with dmaErr := false })) := by
  show execDmaErrClear c k s = _
  simp only [execDmaErrClear, opened, Bool.not_true, Bool.false_eq_true, ↓reduceIte, clearDmaErr, error, Bool.and_eq_true,
    Bool.not_eq_eq_eq_not, heldEnable]

theorem exec_dmaReadError (e : Option (List Byte)) (ready : s.isReady 1 = true) (produced : hostProduced k.val = true)
    (up : ringUp (s.ring c.val k.val) = true) (posted : (s.ring c.val k.val).prod ≠ (s.ring c.val k.val).fetched) :
    let u := raiseIrq c.val 3 ((s.modFn c.val fun n => { n with dmaErrors := inc16 n.dmaErrors }).modRing c.val k.val fun r =>
      { r with dmaErr := true, held := false, fetched := r.fetched + 1, intake := r.intake + 1 })
    let t := if (s.ring c.val k.val).active then stopRing c.val k.val true u
      else u.modRing c.val k.val fun r => { r with dmaStop := true }
    exec (.dmaReadError c k e) s = next
      (if isTxRing k.val then completeTx c.val (some (k.val - 4)) false true (dmaErrorRecord t e) (drawn 4 t) else t) := by
  show execDmaReadError c k e s = _
  simp only [execDmaReadError, ready, Bool.not_true, produced, Bool.or_self, up, Bool.false_or, beq_iff_eq, posted,
    ↓reduceIte, BitVec.ofNat_eq_ofNat]

end

end Sys2Proof.Machine

open Sys2Proof Sys2Proof.Machine

/-- Settles O17: each command by the state of its ring, EN written 1 and 0 after the control word is taken. -/
theorem ringCommandsComplete : Obligations.RingCommandsComplete := by
  refine ⟨fun c k v s opened en takes => ?_, fun c k v s opened busy changes => ?_, fun c k s fault => enableRing_refused fault,
    fun c k v s opened en takes => ?_, fun c k s ready stopping done => exec_ringStopBathEnd ready stopping done,
    fun c k e s ready produced up posted => exec_dmaReadError e ready produced up posted,
    fun c k s opened error => exec_dmaErrClear opened error⟩
  · have written : exec (.ringEnable c k v) s = next (writeEnable c k.val (withCtrl c.val k.val v s)) := by
      rw [exec_ringEnable opened en, writeCtrl_taken takes, if_pos en]
    have ring := withCtrl_ring c k v s
    refine ⟨fun on => ?_, fun idle free waits => ?_, fun rest clean => ?_⟩
    · rw [written, writeEnable_running (by rwa [ring])]; rfl
    · rw [written, writeEnable_waits (by rwa [ring]) (by rwa [ring]) (by rwa [ring])]; rfl
    · rw [written, writeEnable_rest (by rwa [ring]) (by rwa [ring])]; rfl
  · cases en : v.getLsbD 0
    · rw [if_neg Bool.false_ne_true, exec_ringDisable opened en, writeCtrl_refused busy changes]; rfl
    · rw [if_pos rfl, exec_ringEnable opened en, writeCtrl_refused busy changes]; rfl
  · rw [exec_ringDisable opened en, writeCtrl_taken takes, en, if_neg Bool.false_ne_true, writeDisable_eq, withCtrl_ring]; rfl

end

