-- ==== Sys2Proof/Proofs/WindowAndSafetyPort.lean ====
section
/-!
PROOFS. The object window with its read lock (R98, R130 to R133, R300), and the transactions of the safety port (R136 to R141).
-/

namespace Sys2Proof.Machine

/-! ### A read of the window data (R98, R130 to R132) -/

/-- TORN of function `c` clears (R130). -/
def clearTorn (c : Nat) (s : State) : State := s.modFn c fun n => { n with win := { n.win with torn := false } }

/-- Where a read covers the last word the lock is released, and the answer goes out (R131). -/
def windowEnd (c offset count last : Nat) (answer : Out) (s : State) : State :=
  (if covers offset count last then releaseWindow c false s else s).emit answer

section
variable {c off n : Nat} {found : Option Nat} {s : State}

/-- A read of the first word where no frame is shown clears TORN and takes no lock (R130). -/
theorem windowRead_first_invalid (first : covers off n 0 = true) (hidden : winValid (clearTorn c s) c = false) :
    windowRead c off n found s = windowEnd c off n (winLast (clearTorn c s) c) (winAnswer (clearTorn c s) c off n found)
      (clearTorn c s) := by
  unfold clearTorn at *
  simp only [windowRead, first, ↓reduceIte, hidden, Bool.not_false, windowEnd]

/-- A read of the first word of a frame takes the lock, then meets what it finds (R131, R300). -/
theorem windowRead_first_valid (first : covers off n 0 = true) (shown : winValid (clearTorn c s) c = true) :
    windowRead c off n found s = windowEnd c off n (winLast (clearTorn c s) c) (winAnswer (clearTorn c s) c off n found)
      (winFinding c off n found (takeLock c (clearTorn c s))) := by
  unfold clearTorn at *
  simp only [windowRead, first, ↓reduceIte, shown, Bool.not_true, Bool.false_eq_true, windowEnd]

/-- A read of the last word and not of the first releases the lock (R131). -/
theorem windowRead_last (later : covers off n 0 = false) (last : covers off n (winLast s c) = true) :
    windowRead c off n found s = (releaseWindow c false (if winValid s c then winFinding c off n found s else s)).emit
      (winAnswer s c off n found) := by
  cases shown : winValid s c
  · simp only [windowRead, later, Bool.false_eq_true, ↓reduceIte, shown, Bool.not_false, last]
  · simp only [windowRead, later, Bool.false_eq_true, ↓reduceIte, shown, Bool.not_true, last]

end

/-! ### Taking the lock of a frame without a bad word (R131, R300) -/

/-- The object with its read lock held by the window (R131). -/
def winLocked (o : Mo) : Mo := { o with winLock := true }

theorem modFront_winLocked (f : Buf → Buf) (o : Mo) : modFront f (winLocked o) = winLocked (modFront f o) := by
  rw [modFront, modFront, apply_ite winLocked]
  rfl

section
variable {c : Nat} {s : State} (free : (s.fn c).win.locked = false)
include free

theorem takeLock_free : takeLock c s = (s.modMo (s.fn c).win.mo winLocked).modFn c fun n =>
    { n with win := { n.win with locked := true, deadline := s.time.clk + n.win.timeout * usNs } } := by
  unfold takeLock
  dsimp only
  rw [free]
  rfl

theorem takeLock_win (bound : c < 64) : ((takeLock c s).fn c).win
    = { (s.fn c).win with locked := true, deadline := s.time.clk + (s.fn c).win.timeout * usNs } := by
  rw [takeLock_free free, State.fn_modFn _ c _ bound]
  rfl

theorem takeLock_mo : (takeLock c s).mo? (s.fn c).win.mo = (s.mo? (s.fn c).win.mo).map winLocked := by
  rw [takeLock_free free]
  exact mget_mmod_self ..

theorem shownMo_takeLock (m : Nat) (o : Mo) : shownMo (takeLock c s) m (winLocked o) = winLocked (shownMo s m o) := by
  have chan (d : Nat) : (takeLock c s).chan d = s.chan d := by rw [takeLock_free free]; rfl
  have driven (d : Nat) : sofDriven (takeLock c s) d = sofDriven s d := by rw [takeLock_free free]; rfl
  unfold shownMo
  rw [apply_ite winLocked]
  simp only [chan, driven]
  exact ite_congr rfl (fun _ => by rw [modFront_winLocked]; rfl) (fun _ => rfl)

/-- The lock does not change what the window shows of the object beside the lock itself. -/
theorem winObject_takeLock (bound : c < 64) :
    winObject (takeLock c s) c = (winObject s c).map winLocked := by
  have object : ((takeLock c s).fn c).win.mo = (s.fn c).win.mo := by rw [takeLock_win free bound]
  unfold winObject
  dsimp only
  rw [object, takeLock_mo free]
  cases s.mo? (s.fn c).win.mo with
  | none => rfl
  | some o =>
    simp only [Option.map_some, shownMo_takeLock free, apply_ite (Option.map winLocked), Option.map_none]
    rfl

theorem winBad_takeLock (bound : c < 64) (off n : Nat) (found : Option Nat) :
    winBad (takeLock c s) c off n found = winBad s c off n found := by
  unfold winBad winLast winLen
  rw [winObject_takeLock free bound]
  cases winObject s c with
  | none => rfl
  | some o => rfl

end

theorem winFinding_none {c off n : Nat} {found : Option Nat} {s : State} (good : winBad s c off n found = none) :
    winFinding c off n found s = s := by
  rw [winFinding, good]

/-! ### The commands -/

section
variable {c : Fin 64} {s : State}

theorem exec_winSelectWrite (bar : barOpen s c.val = true) (v : Word) :
    exec (.winSelectWrite c v) s = next (writeSelect c.val v s) := by
  show execWinSelectWrite c v s = _
  simp only [execWinSelectWrite, bar, Bool.not_true, Bool.false_eq_true, ↓reduceIte]

theorem exec_windowLockTake {off n : Nat} (found : Option Nat) (bar : barOpen s c.val = true) (ok : winReadOk off n = true)
    (first : covers off n 0 = true) : exec (.windowLockTake c off n found) s = next (windowRead c.val off n found s) := by
  show execWindowLockTake c off n found s = _
  simp only [execWindowLockTake, bar, Bool.not_true, ok, Bool.or_self, first, Bool.false_eq_true, ↓reduceIte]

theorem exec_windowLockRelease {off n : Nat} (found : Option Nat) (bar : barOpen s c.val = true) (ok : winReadOk off n = true)
    (later : covers off n 0 = false) (last : covers off n (winLast s c.val) = true) :
    exec (.windowLockRelease c off n found) s = next (windowRead c.val off n found s) := by
  show execWindowLockRelease c off n found s = _
  simp only [execWindowLockRelease, bar, Bool.not_true, ok, Bool.or_self, later, last, Bool.false_eq_true, ↓reduceIte]

theorem exec_windowLockTimeout (held : (s.fn c.val).win.locked = true) :
    exec (.windowLockTimeout c) s = next (releaseWindow c.val true (reachClk (s.fn c.val).win.deadline s)) := by
  show execWindowLockTimeout c s = _
  simp only [execWindowLockTimeout, held, Bool.not_true, Bool.false_eq_true, ↓reduceIte]

end

/-- The state that a read of the first word of a frame without a bad word leaves: the lock is held and TORN is clear, and the object
shows the lock (R130, R131). -/
theorem firstRead_locks {c : Nat} {s : State} (bound : c < 64) (free : (s.fn c).win.locked = false) (answer : Out) :
    let t := fcSettle ((takeLock c (clearTorn c s)).emit answer)
    (t.fn c).win.locked = true ∧ (t.fn c).win.torn = false
      ∧ ∀ o, s.mo? (s.fn c).win.mo = some o → ∃ o', t.mo? (s.fn c).win.mo = some o' ∧ o'.winLock = true := by
  intro t
  have cleared : ((clearTorn c s).fn c).win = { (s.fn c).win with torn := false } := by
    rw [clearTorn, State.fn_modFn s c _ bound]
  have unlocked : ((clearTorn c s).fn c).win.locked = false := by rw [cleared]; exact free
  have object : ((clearTorn c s).fn c).win.mo = (s.fn c).win.mo := by rw [cleared]
  have win : (t.fn c).win = ((takeLock c (clearTorn c s)).fn c).win := win_of_untold (fcSettle_untold c _)
  have mos : t.mos = (takeLock c (clearTorn c s)).mos := (fcSettle_tells (Tells.refl _)).mos
  refine ⟨?_, ?_, fun o selected => ?_⟩
  · rw [win, takeLock_win unlocked bound]
  · rw [win, takeLock_win unlocked bound, cleared]
  · have locked := takeLock_mo unlocked
    rw [object] at locked
    refine ⟨winLocked o, ?_, rfl⟩
    rw [State.mo?, mos]
    exact locked.trans (congrArg (Option.map _) selected)

/-! ### How a transaction is judged (R136 to R138) -/

theorem crc32_toNat (bytes : List Byte) : (BitVec.ofNat 32 (crc32 bytes)).toNat = crc32 bytes := by
  rw [BitVec.toNat_ofNat]
  exact Nat.mod_eq_of_lt (BitVec.isLt _)

section
variable {s : State} (ready : s.isReady 0 = true) (bytes : List Byte) (act : State → State)
include ready

/-- A request under the CRC of its bytes acts where its TYPE, ARG and COUNT are good, and else executes nothing (R136). -/
theorem transact_crcOf (valid : Bool) :
    transact bytes (crcOf bytes) valid act s = if valid then act s else s.emit (spAnswer 2 []) := by
  simp only [transact, ready, crcOf, crc32_toNat, ne_eq, not_true_eq_false, if_false, Bool.not_true, Bool.false_eq_true]
  cases valid <;> rfl

theorem transact_good {valid : Bool} (good : valid = true) : transact bytes (crcOf bytes) valid act s = act s := by
  rw [transact_crcOf ready, if_pos good]

theorem transact_bad {valid : Bool} (bad : ¬ valid = true) :
    transact bytes (crcOf bytes) valid act s = s.emit (spAnswer 2 []) := by
  rw [transact_crcOf ready, if_neg bad]

/-- A failed CRC executes nothing and is counted and signalled (R138). -/
theorem transact_failed {v : Word} (valid : Bool) (fails : v.toNat ≠ crc32 bytes) : transact bytes (some v) valid act s
    = (raiseSafe 4 { s with sp := { s.sp with crcErrs := inc16 s.sp.crcErrs } }).emit (spAnswer 1 []) := by
  simp only [transact, ready, if_pos fails]
  rfl

end

/-! ### The four transactions (R136, R139, R141) -/

/-- TYPE, ARG and COUNT of a register read are good (R136, R141). -/
def readValid (typ : Byte) (a n : Nat) : Bool := typ.toNat == typeRead && viewSpan a n

/-- ARG, COUNT and the data of a packet send are good (R136). -/
def sendValid (a n : Nat) (d : List Byte) : Bool := 16 ≤ a && a ≤ 256 && a % 4 == 0 && n == 0 && d.length == a

theorem readValid_iff {typ : Byte} {a n : Nat} : readValid typ a n = true ↔ typ = 0x0B ∧ viewSpan a n = true := by
  rw [readValid, Bool.and_eq_true, beq_iff_eq]
  exact and_congr_left fun _ => BitVec.toNat_inj (y := 0x0B#8)

theorem sendValid_iff {a n : Nat} {d : List Byte} :
    sendValid a n d = true ↔ 16 ≤ a ∧ a ≤ 256 ∧ a % 4 = 0 ∧ n = 0 ∧ d.length = a := by
  simp only [sendValid, Bool.and_eq_true, decide_eq_true_eq, beq_iff_eq, and_assoc]

/-- A register read answers the words read in turn (R136, R141). -/
def answerView (a n : Nat) (s : State) : State := (viewWords n a s).2.emit (spAnswer 0 (viewWords n a s).1)

/-- A packet send needs a credit (R139). -/
def sendPacket (a : Nat) (d : List Byte) (parity force : Bool) (s : State) : State :=
  if s.sp.credits = 0 then s.emit (spAnswer 3 [])
  else (intakeSafety (safetyPacket a d) parity force s).emit (spAnswer 0 [])

theorem exec_safetyRegisterRead (typ : Byte) (a n : Nat) (crc : Option Word) (s : State) : exec (.safetyRegisterRead typ a n crc) s
    = next (transact (requestBytes typ.toNat a n []) crc (readValid typ a n) (answerView a n) s) := rfl

theorem exec_safetyRegisterWrite (a n : Nat) (w : List Word) (crc : Option Word) (s : State) :
    exec (.safetyRegisterWrite a n w crc) s
      = next (transact (requestBytes 0x02 a n (w.flatMap fun v => le 4 v.toNat)) crc (viewSpan a n && w.length == n)
          (fun s => (viewWriteAll w a s).emit (spAnswer 0 [])) s) := rfl

theorem exec_safetyPacketSend (a n : Nat) (d : List Byte) (crc : Option Word) (parity force : Bool) (s : State) :
    exec (.safetyPacketSend a n d crc parity force) s
      = next (transact (requestBytes 0x3C a n d) crc (sendValid a n d) (sendPacket a d parity force) s) := rfl

theorem exec_safetyPacketReceive (a n : Nat) (crc : Option Word) (parity : Bool) (s : State) :
    exec (.safetyPacketReceive a n crc parity) s
      = next (transact (requestBytes 0x3D a n []) crc (a == 0 && n == 0)
          (fun s => takeSafetyReply (if parity then loseSafetyReply s else s)) s) := rfl

/-- A good packet receive hands over the oldest reply that its crossing has left (R139). -/
theorem exec_safetyPacketReceive_good {s : State} (ready : s.isReady 0 = true) (parity : Bool) :
    exec (.safetyPacketReceive 0 0 (crcOf (requestBytes 0x3D 0 0 [])) parity) s
      = next (takeSafetyReply (if parity then loseSafetyReply s else s)) := by
  rw [exec_safetyPacketReceive, transact_good ready _ _ (by decide)]

/-! ### Replies handed over (R139, R148) -/

section
variable {s : State} {r : Reply} {l : List Reply}

theorem takeSafetyReply_cons (waits : s.sp.replies = r :: l) : takeSafetyReply s
    = (returnCredit { s with sp := { s.sp with replies := l } }).emit
        (spAnswer 0 (le 2 (replyBytes r).length ++ zeros 2 ++ replyBytes r)) := by
  rw [takeSafetyReply, waits]
  rfl

theorem takeSafetyReply_nil (empty : s.sp.replies = []) : takeSafetyReply s = s.emit (spAnswer 0 (zeros 4)) := by
  rw [takeSafetyReply, empty]
  rfl

theorem loseSafetyReply_cons (waits : s.sp.replies = r :: l) :
    loseSafetyReply s = parityDrop 9 { s with sp := { s.sp with replies := l } } := by
  rw [loseSafetyReply, waits]
  rfl

theorem loseSafetyReply_nil (empty : s.sp.replies = []) : loseSafetyReply s = s := by
  rw [loseSafetyReply, empty]
  rfl

end

end Sys2Proof.Machine

open Sys2Proof Sys2Proof.Machine

/-- Settles O19: a served read by the words it covers, and the lock of a frame without a bad word stays. -/
theorem windowCommandsComplete : Obligations.WindowCommandsComplete := by
  refine ⟨fun c v s bar => exec_winSelectWrite bar v,
    fun c off n found s bar ok first => ⟨fun hidden => ?_, fun shown => ?_, fun shown more free unfound good => ?_⟩,
    fun c off n found s bar ok later last => ?_, fun c s held => exec_windowLockTimeout held⟩
  · rw [exec_windowLockTake found bar ok first, windowRead_first_invalid first hidden]; rfl
  · rw [exec_windowLockTake found bar ok first, windowRead_first_valid first shown]; rfl
  · subst unfound
    have unlocked : ((clearTorn c.val s).fn c.val).win.locked = false := by
      rw [clearTorn, State.fn_modFn s c _ c.isLt]; exact free
    refine ⟨_, ?_, firstRead_locks c.isLt free (winAnswer (clearTorn c.val s) c.val off n none)⟩
    rw [exec_windowLockTake none bar ok first, windowRead_first_valid first shown,
      winFinding_none ((winBad_takeLock unlocked c.isLt off n none).trans good), windowEnd, clearTorn, more]
    rfl
  · rw [exec_windowLockRelease found bar ok later last, windowRead_last later last]; rfl

/-- Settles O21: each transaction is judged by its CRC, then by TYPE, ARG and COUNT, and then acts. -/
theorem safetyPortCommandsComplete : Obligations.SafetyPortCommandsComplete := by
  refine ⟨fun a n s ready span => ?_, fun a n w s ready span count => ?_,
    fun a d parity force s ready low high aligned whole credit => ?_, fun s r l ready waits => ?_, fun s r l ready waits => ?_,
    fun parity s ready empty => ?_,
    fun typ a n w d parity force v s ready => ⟨fun fails => ?_, fun fails => ?_, fun fails => ?_, fun fails => ?_⟩,
    fun typ a n w d parity force s ready => ⟨fun bad => ?_, fun bad => ?_, fun bad => ?_, fun bad => ?_⟩,
    fun a d parity force s ready low high aligned whole credit => ?_⟩
  · exact congrArg next (transact_good ready _ _ (readValid_iff.2 ⟨rfl, span⟩))
  · exact congrArg next (transact_good ready _ _ (by simp only [span, count, BEq.rfl, Bool.and_self]))
  · rw [exec_safetyPacketSend, transact_good ready _ _ (sendValid_iff.2 ⟨low, high, aligned, rfl, whole⟩), sendPacket,
      if_neg (by omega)]
    rfl
  · rw [exec_safetyPacketReceive_good ready, if_neg Bool.false_ne_true, takeSafetyReply_cons waits]
    rfl
  · rw [exec_safetyPacketReceive_good ready, if_pos rfl, loseSafetyReply_cons waits]
    rfl
  · rw [exec_safetyPacketReceive_good ready, loseSafetyReply_nil empty, ite_self, takeSafetyReply_nil empty]
    rfl
  · exact congrArg next (transact_failed ready _ _ _ fails)
  · exact congrArg next (transact_failed ready _ _ _ fails)
  · exact congrArg next (transact_failed ready _ _ _ fails)
  · exact congrArg next (transact_failed ready _ _ _ fails)
  · refine congrArg next (transact_bad ready _ _ fun valid => ?_)
    obtain ⟨read, span⟩ := readValid_iff.1 valid
    exact bad.elim (fun other => other read) (fun outside => by simp only [outside, Bool.false_eq_true] at span)
  · refine congrArg next (transact_bad ready _ _ fun valid => ?_)
    obtain ⟨span, count⟩ : viewSpan a n = true ∧ w.length = n := by simpa only [Bool.and_eq_true, beq_iff_eq] using valid
    exact bad.elim (fun outside => by simp only [outside, Bool.false_eq_true] at span) (fun other => other count)
  · exact congrArg next (transact_bad ready _ _ fun valid => bad (sendValid_iff.1 valid))
  · refine congrArg next (transact_bad ready _ _ fun valid => ?_)
    obtain ⟨arg, count⟩ : a = 0 ∧ n = 0 := by simpa only [Bool.and_eq_true, beq_iff_eq] using valid
    exact bad.elim (fun other => other arg) (fun other => other count)
  · rw [exec_safetyPacketSend, transact_good ready _ _ (sendValid_iff.2 ⟨low, high, aligned, rfl, whole⟩), sendPacket,
      if_pos credit]
    rfl

end

