-- ==== Sys2Proof/Proofs/ContextEvents.lean ====
section
/-!
PROOFS. Guest functions that come, go and are reset, and the stop bath of a context (R91, R93, R157 to R161).
-/

namespace Sys2Proof.Machine

/-! ### Functions that come, go and are reset (R91, R93, R157, R160) -/

theorem exec_vfEnable {s : State} (ready : s.isReady 1 = true) (n : Fin 64) :
    exec (.vfEnable n) s = next (setVfs true n.val s) := by
  show execVfEnable n s = _
  rw [execVfEnable, if_pos ready]

theorem exec_vfDisable {s : State} (ready : s.isReady 1 = true) : exec .vfDisable s = next (setVfs false s.host.numVfs s) := by
  show execVfDisable s = _
  rw [execVfDisable, if_pos ready]

/-- What a function-level reset of a guest's function does to its context: a present one departs, and a departure under way keeps
no ring (R93, R159). -/
def departForFlr (c : Fin 64) (s : State) : State :=
  match (s.ctx c.val).state with
  | .present => startDeparture c false s
  | .departing => s.modCtx c.val fun x => { x with keep := false }
  | .held => s.modCtx c.val fun x => { x with state := .departing, keep := false }
  | _ => s

theorem exec_vfFlr {c : Fin 64} {s : State} (guest : c.val ≠ 0) (ready : s.isReady 1 = true)
    (function : fnPresent s c.val = true) : exec (.vfFlr c) s
      = next (resetFn c (s.fn c.val).win.locked ((departForFlr c s).modFn c.val fun n => { n with flr := true })) := by
  show execVfFlr c s = _
  unfold execVfFlr
  rw [if_neg (by simp only [guest, decide_false, ready, Bool.not_true, Bool.or_self, function, Bool.false_eq_true,
    not_false_eq_true])]
  rfl

/-- The reset of function `c` is over (R93). -/
def flrOver (c : Nat) (s : State) : State := s.modFn c fun n => { n with flr := false }

theorem State.ctx_modFn (s : State) (c d : Nat) (f : Fn → Fn) : (s.modFn c f).ctx d = s.ctx d := rfl

section
variable {c : Fin 64} {s : State} (resetting : (s.fn c.val).flr = true)
include resetting

theorem exec_vfFlrEnd : exec (.vfFlrEnd c) s
    = next (if (s.ctx c.val).state = .quiesced then arriveCtx c.val (flrOver c.val s) else fnCame c.val (flrOver c.val s)) := by
  show execVfFlrEnd c s = _
  unfold execVfFlrEnd
  rw [if_neg (by simp only [resetting, Bool.not_true, Bool.false_eq_true, not_false_eq_true])]
  dsimp only
  rw [State.ctx_modFn]
  cases (s.ctx c.val).state <;> rfl

/-- The arrival of a departing context is held (R160). -/
theorem exec_vfFlrEnd_departing (departing : (s.ctx c.val).state = .departing) :
    exec (.vfFlrEnd c) s = next ((flrOver c.val s).modCtx c.val fun x => { x with state := .held }) := by
  have after : ((flrOver c.val s).ctx c.val).state = .departing := departing
  rw [exec_vfFlrEnd resetting, departing, if_neg (by decide), fnCame, after]

/-- An absent or quiesced context arrives (R157). -/
theorem exec_vfFlrEnd_gone (gone : (s.ctx c.val).state = .absent ∨ (s.ctx c.val).state = .quiesced) :
    exec (.vfFlrEnd c) s = next (arriveCtx c.val (flrOver c.val s)) := by
  rw [exec_vfFlrEnd resetting]
  rcases gone with absent | quiesced
  · have after : ((flrOver c.val s).ctx c.val).state = .absent := absent
    rw [absent, if_neg (by decide), fnCame, after]
  · rw [if_pos quiesced]

end

/-! ### Quiescing a context, and the end of its stop bath (R159, R161) -/

theorem taken_ctx (p : Packet) (s : State) (c : Nat) : (taken p s).ctx c = s.ctx c := by
  rw [State.ctx, State.ctx, (taken_tells p s).ctxs]

theorem quiesceContext_present {p : Packet} {s : State} (c : Fin 64) (named : byteAt p.params 0 = c.val) (guest : c.val ≠ 0)
    (reserved : zeroAt p.params 1 3 = true) (present : (s.ctx c.val).state = .present) :
    quiesceContext p s = okDone (startDeparture c true s) := by
  have index : (⟨c.val % 64, Nat.mod_lt _ (by decide)⟩ : Fin 64) = c := Fin.ext (Nat.mod_eq_of_lt c.isLt)
  rw [quiesceContext, withCtx, named, badParam_false (decide_eq_false (Nat.not_le.2 c.isLt)),
    badParam_false (by simp only [reserved, Bool.not_true]), refuseIf_false (by simp only [guest, decide_false]),
    refuseIf_false (by simp only [present, bne_self_eq_false]), index]

/-- The bath of a departing context ends once none of its objects is on the bus: what it holds is released, its last ring writes
follow where its rings survive, and an arrival held till then follows (R157, R159, R160). -/
theorem exec_contextStopBathEnd {c : Fin 64} {s : State} (bath : (s.ctx c.val).state = .departing ∨ (s.ctx c.val).state = .held)
    (free : departureWaits s c.val = false) :
    let u := if (s.ctx c.val).keep then lastWrites c (releaseAll c.val s) else releaseAll c.val s
    let t := (raiseEvent 0 0x0203 (le 1 c.val) u).modCtx c.val fun y =>
      { y with state := if (s.ctx c.val).keep then .quiesced else .absent, keep := false }
    exec (.contextStopBathEnd c) s = next (if (s.ctx c.val).state = .held then arriveCtx c.val t else t) := by
  show execContextStopBathEnd c s = _
  rcases bath with departing | held
  · simp only [execContextStopBathEnd, departing, BEq.rfl, Bool.or_true, Bool.not_true, free, Bool.or_self,
      Bool.false_eq_true, ↓reduceIte, beq_iff_eq, reduceCtorEq]
  · simp only [execContextStopBathEnd, held, BEq.rfl, Bool.true_or, Bool.not_true, free, Bool.or_self, Bool.false_eq_true,
      ↓reduceIte]

end Sys2Proof.Machine

open Sys2Proof Sys2Proof.Machine

/-- Settles O22: each event by the state of its context, QUIESCE_CONTEXT by its handler. -/
theorem contextEventsComplete : Obligations.ContextEventsComplete := by
  refine ⟨fun n s ready => exec_vfEnable ready n, fun s ready => exec_vfDisable ready,
    fun c s guest ready function => ?_, fun c s resetting departing => exec_vfFlrEnd_departing resetting departing,
    fun c s resetting gone => exec_vfFlrEnd_gone resetting gone,
    fun p s accepts bound guest reserved present => ⟨⟨byteAt p.params 0, bound⟩, rfl, ?_⟩,
    fun c s bath free => exec_contextStopBathEnd bath free⟩
  · rw [exec_vfFlr guest ready function]
    rfl
  · refine answered_of_accepts accepts (quiesceContext_present ⟨byteAt p.params 0, bound⟩ rfl guest reserved ?_)
    rw [taken_ctx]
    exact present

end

