-- ==== Sys2Proof/Proofs/Replies.lean ====
section
/-!
PROOFS. A reply on its way to the source of its command (R148 to R150, R554), and the refusal to read a contact sheet that is not held
(R188).
-/

namespace Sys2Proof.Machine

/-! ### What telling leaves of the replies that wait -/

/-- The replies that wait for a source: in a context's reply queue or at the safety port. Those to the master leave at once, in
segments on a link (R148, R554). -/
def waitingReplies (s : State) : Source → List Reply
  | .ctx c => (s.cq c.val).rplq
  | .sp => s.sp.replies
  | .master => []

theorem waitingReplies_congr {s t : State} (cqs : t.cqs = s.cqs) (sp : t.sp = s.sp) (src : Source) :
    waitingReplies t src = waitingReplies s src := by
  cases src with
  | ctx c => simp only [waitingReplies, State.cq, cqs]
  | sp => simp only [waitingReplies, sp]
  | master => rfl

/-- An update of queues that leaves each reply queue alone. -/
theorem State.modCq_waitingReplies {f : CtxQueues → CtxQueues} (kept : ∀ q, (f q).rplq = q.rplq) (s : State) (c : Nat)
    (src : Source) : waitingReplies (s.modCq c f) src = waitingReplies s src := by
  cases src with
  | ctx d => exact tget_tmod_kept CtxQueues.rplq kept s.cqs c d.val _
  | sp | master => rfl

section
variable (src : Source)

@[simp] theorem putFrame_waitingReplies (p : Port) (f : LinkFrame) (s : State) :
    waitingReplies (putFrame p f s) src = waitingReplies s src :=
  waitingReplies_congr (by simp only [putFrame, State.emit_cqs, State.modLink_cqs])
    (by simp only [putFrame, State.emit_sp, State.modLink_sp]) src

@[simp] theorem pumpLink_waitingReplies (p : Port) (n : Nat) (s : State) :
    waitingReplies (pumpLink p n s) src = waitingReplies s src := by
  induction n generalizing s with
  | zero => rfl
  | succ n ih =>
    unfold pumpLink
    dsimp only
    split
    · rfl
    · split
      · rfl
      · split
        · exact (ih _).trans (putFrame_waitingReplies src p _ s)
        · rfl

@[simp] theorem sendFrame_waitingReplies (p : Port) (f : LinkFrame) (s : State) :
    waitingReplies (sendFrame p f s) src = waitingReplies s src := by
  unfold sendFrame
  split
  · rw [pumpLink_waitingReplies]
    exact waitingReplies_congr (State.modLink_cqs ..) (State.modLink_sp ..) src
  · rfl

@[simp] theorem raiseIrq_waitingReplies (c bit : Nat) (s : State) : waitingReplies (raiseIrq c bit s) src = waitingReplies s src :=
  waitingReplies_congr (raiseIrq_cqs c bit s)
    (by simp only [raiseIrq, settleIrq, sendMsix, apply_ite State.sp, State.emit_sp, State.modFn_sp, ite_self]) src

@[simp] theorem pushEvent_waitingReplies (c : Nat) (e : Event) (s : State) :
    waitingReplies (pushEvent c e s) src = waitingReplies s src := by
  unfold pushEvent
  split
  · rfl
  · split
    · exact State.modCq_waitingReplies (fun _ => by rfl) s c src
    · split
      · rw [raiseIrq_waitingReplies]
        exact State.modCq_waitingReplies (fun _ => by rfl) s c src
      · exact State.modCq_waitingReplies (fun _ => by rfl) s c src

@[simp] theorem raiseEvent_waitingReplies (c code : Nat) (data : List Byte) (s : State) :
    waitingReplies (raiseEvent c code data s) src = waitingReplies s src := by
  unfold raiseEvent
  dsimp only
  split
  · split <;> split <;> simp only [pushEvent_waitingReplies, sendFrame_waitingReplies]
  · rw [pushEvent_waitingReplies]

@[simp] theorem modStat_waitingReplies (q : QKind × Nat) (f : QStat → QStat) (s : State) :
    waitingReplies (modStat q f s) src = waitingReplies s src := by
  obtain ⟨k, n⟩ := q
  cases k with
  | cmdq | rplq | evtq | txq | rxq => exact State.modCq_waitingReplies (fun _ => by rfl) s n src
  | _ => exact waitingReplies_congr rfl rfl src

@[simp] theorem fcMeet_waitingReplies (q : QKind × Nat) (f : Nat) (atOnce : Bool) (pin : Nat) (s : State) :
    waitingReplies (fcMeet q f atOnce pin s) src = waitingReplies s src := by
  unfold fcMeet fcEvent
  dsimp only
  split
  · rfl
  · split
    · rw [raiseEvent_waitingReplies, modStat_waitingReplies]
      exact waitingReplies_congr rfl rfl src
    · split
      · rw [raiseEvent_waitingReplies]
        exact waitingReplies_congr rfl rfl src
      · rfl

@[simp] theorem fcAt_waitingReplies (q : QKind × Nat) (f : Nat) (atOnce : Bool) (s : State) :
    waitingReplies (fcAt q f atOnce s) src = waitingReplies s src := by
  unfold fcAt
  split
  · exact forRange_kept (waitingReplies · src) (fun pin s => fcMeet_waitingReplies src q f atOnce pin s) 8 s
  · rfl

@[simp] theorem countPacket_waitingReplies (q : QKind × Nat) (s : State) :
    waitingReplies (countPacket q s) src = waitingReplies s src :=
  (fcAt_waitingReplies ..).trans (modStat_waitingReplies ..)

@[simp] theorem noteSheetReply_waitingReplies (r : Reply) (s : State) :
    waitingReplies (noteSheetReply r s) src = waitingReplies s src :=
  waitingReplies_congr (by simp only [noteSheetReply, apply_ite State.cqs, State.modBank_cqs, ite_self])
    (by simp only [noteSheetReply, apply_ite State.sp, State.modBank_sp, ite_self]) src

end

/-! ### A reply leaves the engine (R148 to R150) -/

/-- A reply to a context joins its reply queue. -/
theorem deliverReply_ctx {r : Reply} {c : Fin 64} (dest : r.dest = .ctx c) (s : State) :
    waitingReplies (deliverReply r s) (.ctx c) = waitingReplies s (.ctx c) ++ [r] := by
  rw [← noteSheetReply_waitingReplies (.ctx c) r s]
  simp only [deliverReply, dest, countPacket_waitingReplies]
  exact congrArg CtxQueues.rplq (State.cq_modCq _ _ _ c.isLt)

/-- A reply to the safety port joins those that wait there. -/
theorem deliverReply_sp {r : Reply} (dest : r.dest = .sp) (s : State) :
    waitingReplies (deliverReply r s) .sp = waitingReplies s .sp ++ [r] := by
  rw [← noteSheetReply_waitingReplies .sp r s]
  simp only [deliverReply, dest, countPacket_waitingReplies]
  rfl

/-- While the engine is not restarting a reply leaves at once (R45). -/
theorem sendReply_running {s : State} (running : s.engine.pause = none) (p : Packet) (st de : Nat) (b : List Byte) :
    sendReply p st de b s = deliverReply
      { dest := p.source, opcode := p.opcode, tag := p.tag, status := st, position := s.pos, detail := de, body := b } s := by
  simp only [sendReply, sendReplyFrom, running, Option.isSome_none, Bool.false_and, Bool.false_eq_true, ↓reduceIte]

/-! ### READ_CONTACT_SHEET of a sheet that is not held (R188) -/

/-- A bank of another holder, of none or of another take refuses to be read. -/
theorem readContactSheet_lost {p : Packet} {s : State} (reserved : zeroAt p.params 2 2 = true) (aligned : fieldAt p.params 4 4 % 4 = 0)
    (lost : (s.bank (fieldAt p.params 0 2 % 2)).holder ≠ some p.source
      ∨ (s.bank (fieldAt p.params 0 2 % 2)).takes ≠ fieldAt p.params 0 2 / 2) :
    readContactSheet p s = .refuse stState 0x000400 := by
  rw [readContactSheet, badParam_false (by simp only [reserved, Bool.not_true]),
    badParam_false (by simp only [aligned, ne_eq, not_true_eq_false, decide_false]), refuseIf_true]
  rcases lost with holder | take
  · simp only [bne_iff_ne.2 holder, Bool.true_or]
  · simp only [take, ne_eq, not_false_eq_true, decide_true, Bool.or_true]

end Sys2Proof.Machine

open Sys2Proof Sys2Proof.Machine

/-- Settles O8: the reply leaves at once and joins what waits for its source, and delivering it only tells. -/
theorem repliesGoToTheirSource : Obligations.RepliesGoToTheirSource := by
  intro p st de b s running
  refine ⟨fun c source => ?_, fun source => ?_, sendReply_tells p st de b (Tells.refl s)⟩
  · rw [sendReply_running running, source]
    exact deliverReply_ctx rfl s
  · rw [sendReply_running running, source]
    exact deliverReply_sp rfl s

/-- Settles O25: taking the packet leaves holder and takes of the bank alone, and its handler refuses. -/
theorem lostSheetIdsAreRefused : Obligations.LostSheetIdsAreRefused := by
  intro p s accepts reserved aligned lost
  obtain ⟨holder, takes, -, -⟩ := taken_bank p s (fieldAt p.params 0 2 % 2)
  rw [← holder, ← takes] at lost
  exact refused_of_accepts accepts (by decide) (by decide) (readContactSheet_lost reserved aligned lost)

end

