-- ==== Sys2Proof/Proofs/ContextsAndLatents.lean ====
section
/-!
PROOFS. The settings of a context (R162 to R170, R279), its latent set (R166, R171, R172), and the commands that develop it or take
it back (R151, R173 to R178, R403, R406).
-/

namespace Sys2Proof.Machine

/-! ### The settings of a context (R162 to R170, R279) -/

theorem getContext_named {p : Packet} {s : State} (named : byteAt p.params 0 < 64) (reserved : zeroAt p.params 1 3 = true) :
    getContext p s = okBody s (contextRecord s (byteAt p.params 0)) := by
  rw [getContext, withCtx, badParam_false (decide_eq_false (Nat.not_le.2 named)),
    badParam_false (by simp only [reserved, Bool.not_true])]

/-- A quota in range, not below the use and within the device's total is stored, and with one of payload cells its pages move
(R166, R168, R279). -/
theorem setContextQuota_stored {p : Packet} {s : State} (named : byteAt p.params 0 < 64) (low : 1 ≤ byteAt p.params 1)
    (high : byteAt p.params 1 ≤ 6) (reserved : zeroAt p.params 2 2 = true)
    (pages : byteAt p.params 1 = 2 →
      fieldAt p.params 4 4 % 128 = 0 ∧ pagesShort s (byteAt p.params 0) (fieldAt p.params 4 4 / 128) = false)
    (bound : fieldAt p.params 4 4 ≤ if byteAt p.params 1 = 6 then 4096 else deviceTotal (byteAt p.params 1))
    (use : useOf s (byteAt p.params 0) (byteAt p.params 1) ≤ fieldAt p.params 4 4)
    (room : quotaOver s (byteAt p.params 0) (byteAt p.params 1) (fieldAt p.params 4 4) = false) :
    let u := s.modCtx (byteAt p.params 0) fun x =>
      { x with quotas := tmod x.quotas (byteAt p.params 1 - 1) fun _ => fieldAt p.params 4 4 }
    setContextQuota p s
      = okDone (if byteAt p.params 1 = 2 then movePages (byteAt p.params 0) (fieldAt p.params 4 4 / 128) u else u) := by
  have listed : (decide (byteAt p.params 1 = 0) || decide (byteAt p.params 1 > 6)) = false := by
    rw [decide_eq_false (Nat.ne_of_gt low), decide_eq_false (Nat.not_lt.2 high)]
    rfl
  have whole : (decide (byteAt p.params 1 = 2) && decide (fieldAt p.params 4 4 % pageCells ≠ 0)) = false :=
    Bool.and_eq_false_imp.2 fun payload => decide_eq_false (not_not_intro (pages (of_decide_eq_true payload)).1)
  have spare : (decide (byteAt p.params 1 = 2) && pagesShort s (byteAt p.params 0) (fieldAt p.params 4 4 / pageCells)) = false :=
    Bool.and_eq_false_imp.2 fun payload => (pages (of_decide_eq_true payload)).2
  rw [setContextQuota, badParam_false (decide_eq_false (Nat.not_le.2 named)), badParam_false listed,
    badParam_false (by simp only [reserved, Bool.not_true]),
    badParam_false (by rw [decide_eq_false (Nat.not_lt.2 bound), whole]; rfl),
    refuseIf_false (decide_eq_false (Nat.not_lt.2 use)), refuseIf_false spare, refuseIf_false room]
  rfl

/-- A map that meets R164, and what held declarations need, is stored (R169, R181). -/
theorem setContextChannels_stored {p : Packet} {s : State} (guest : badGuest p = false) (reserved : zeroAt p.params 1 3 = true) :
    let v := s.modCtx (byteAt p.params 0) fun x => { x with map := mapOf (p.params.drop 4) }
    ((heldDecls s).any fun d => d.ctx == byteAt p.params 0
        && chanRight v (byteAt p.params 0) d.channel < (if d.foreign then 3 else 2)) = false →
      mapFault s v (byteAt p.params 0) = none → setContextChannels p s = okDone v := by
  intro v held fits
  rw [setContextChannels, badParam_false guest, badParam_false (by simp only [reserved, Bool.not_true]), refuseIf_false held, fits]

/-- Rights and a criticality that leave what is in use and what is held its due are stored (R165, R170, R181). -/
theorem setContextRights_stored {p : Packet} {s : State} (guest : badGuest p = false) (crit : byteAt p.params 1 ≤ 3)
    (listed : fieldAt p.params 2 2 < 64)
    (rights : ((rightsUsed s (byteAt p.params 0)).any fun n => !(fieldAt p.params 2 2).testBit n) = false)
    (admitted : critUsed s (byteAt p.params 0) (byteAt p.params 1) = false)
    (held : heldNeedsRights s (byteAt p.params 0) (byteAt p.params 1) (fieldAt p.params 2 2) = false) :
    setContextRights p s = okDone (s.modCtx (byteAt p.params 0) fun x => { x with
      crit := byteAt p.params 1, rights := BitVec.ofNat 16 (fieldAt p.params 2 2)
      loadMask := BitVec.ofNat 96 (fieldAt p.params 4 12) }) := by
  rw [setContextRights, badParam_false guest, badParam_false (decide_eq_false (Nat.not_lt.2 crit)),
    badParam_false (decide_eq_false (Nat.not_le.2 listed)), refuseIf_false held, refuseIf_false rights, refuseIf_false admitted]

/-! ### Changes join a latent set (R166, R171, R172) -/

theorem joinLatent_append (old l k : List Change) : joinLatent old (l ++ k) = joinLatent (joinLatent old l) k :=
  List.foldl_append

/-- A change goes to the end of the set, and what it supersedes leaves it. -/
theorem joinLatent_singleton (old : List Change) (c : Change) :
    joinLatent old [c] = (old.filter fun d => !supersedes c d) ++ [c] := rfl

/-- What a change leaves beside it: other items, allocations, and a write before the clear of its entry (R172, R303, R327, R487). -/
theorem supersedes_eq_false_iff {c d : Change} :
    supersedes c d = false ↔ itemOf d ≠ itemOf c ∨ isAlloc d = true ∨ clearsWrite c d = true := by
  rw [supersedes, Bool.and_eq_false_iff, Bool.and_eq_false_iff, Bool.not_eq_false', Bool.not_eq_false', beq_eq_false_iff_ne,
    ne_comm, or_assoc]

theorem mem_kept_iff {old : List Change} {c d : Change} : d ∈ old.filter (fun d => !supersedes c d)
    ↔ d ∈ old ∧ (itemOf d ≠ itemOf c ∨ isAlloc d = true ∨ clearsWrite c d = true) := by
  rw [List.mem_filter, Bool.not_eq_true', supersedes_eq_false_iff]

/-- Within the context's quota and the device's total the changes are staged (R166, R171). -/
theorem stage_within {p : Packet} {l : List Change} {s : State} (body : List Byte) :
    let t := s.modCtx (stageCtx p) fun c => { c with latent := joinLatent c.latent l }
    latentUse t (stageCtx p) ≤ quotaOf s (stageCtx p) 6 → total ((List.range 64).map (latentUse t)) ≤ deviceTotal 6 →
      stage p l s body = .reply t stOk stagedDetail body := by
  intro t quota device
  rw [stage, if_neg (Nat.not_lt.2 quota), if_neg (Nat.not_lt.2 device)]

/-! ### DEVELOP (R151, R173, R175, R177, R406) -/

/-- WHEN, IDLE_LIMIT and INSTANT of a DEVELOP are in range (R175, R177). -/
structure DevelopParams (p : Packet) (s : State) : Prop where
  reserved : zeroAt p.params 2 2 = true
  when_ : byteAt p.params 0 ≤ 2
  limit : byteAt p.params 0 = 2 ∨ byteAt p.params 1 = 0
  instant : if byteAt p.params 0 = 1 then s.now + 50000 ≤ fieldAt p.params 4 8 ∧ fieldAt p.params 4 8 ≤ s.now + 2 ^ 40
    else fieldAt p.params 4 8 = 0

/-- What DEVELOP answers by what its checks find, with its parameters in range and no development armed. A failed admission of WHEN 1
gives way to checks that end too late (R151, R406). -/
def developAnswer (p : Packet) (s : State) : Option (Nat × Nat) → Verdict
  | some (st, d) =>
    if st = stAdmission ∧ byteAt p.params 0 = 1 ∧ checkedLate s (stageCtx p) (fieldAt p.params 4 8) = true
    then .reply (drawn 1 s) stState 0x090700 [] else .refuse st d
  | none =>
    if byteAt p.params 0 = 1 ∧ checkedLate s (stageCtx p) (fieldAt p.params 4 8) = true
    then .reply (drawn 1 s) stState 0x090700 []
    else
      let r := developNow (stageCtx p) (byteAt p.params 0) (if byteAt p.params 1 = 0 then 10 else byteAt p.params 1)
        (fieldAt p.params 4 8) (drawn 1 s)
      okBody r.1 (le 4 (itemCount (s.ctx (stageCtx p)).latent) ++ le 8 r.2.1 ++ le 4 r.2.2)

section
variable {p : Packet} {s : State} (params : DevelopParams p s)
include params

theorem DevelopParams.limit_ok : (decide (byteAt p.params 0 ≠ 2) && decide (byteAt p.params 1 ≠ 0)) = false :=
  Bool.and_eq_false_imp.2 fun other =>
    decide_eq_false (not_not_intro (params.limit.resolve_left (of_decide_eq_true other)))

theorem DevelopParams.instant_ok : (if byteAt p.params 0 = 1 then
    decide (fieldAt p.params 4 8 < s.now + 50000) || decide (s.now + 2 ^ 40 < fieldAt p.params 4 8)
    else decide (fieldAt p.params 4 8 ≠ 0)) = false := by
  have range := params.instant
  split at range
  next timed =>
    obtain ⟨low, high⟩ := range
    rw [if_pos timed, decide_eq_false (Nat.not_lt.2 low), decide_eq_false (Nat.not_lt.2 high)]
    rfl
  next untimed => rw [if_neg untimed, decide_eq_false (not_not_intro range)]

theorem develop_second (armed : (s.ctx (stageCtx p)).armed.isSome = true) : develop p s = .refuse stState 0x000100 := by
  rw [develop, badParam_false (decide_eq_false (Nat.not_lt.2 params.when_)), badParam_false params.limit_ok,
    badParam_false (by simp only [params.reserved, Bool.not_true]), badParam_false params.instant_ok, refuseIf_true armed]

theorem develop_first (free : (s.ctx (stageCtx p)).armed = none) :
    develop p s = developAnswer p s (developCheck s (stageCtx p)) := by
  rw [develop, badParam_false (decide_eq_false (Nat.not_lt.2 params.when_)), badParam_false params.limit_ok,
    badParam_false (by simp only [params.reserved, Bool.not_true]), badParam_false params.instant_ok,
    refuseIf_false (by rw [free]; rfl)]
  cases developCheck s (stageCtx p) with
  | none => simp only [developAnswer, Bool.and_eq_true, decide_eq_true_eq]
  | some fault => simp only [developAnswer, Bool.and_eq_true, decide_eq_true_eq, and_assoc]

end

/-! ### GET_LATENT and CANCEL_DEVELOP (R172, R178) -/

/-- What GET_LATENT answers of a context: its changes counted, and its armed development (R172). -/
theorem getLatent_named {p : Packet} {s : State} (named : byteAt p.params 0 < 64) (reserved : zeroAt p.params 1 3 = true) :
    getLatent p s = okBody s (le 4 (itemCount (s.ctx (byteAt p.params 0)).latent) ++
      (match (s.ctx (byteAt p.params 0)).armed with
        | some a => le 1 1 ++ zeros 3 ++ le 8 a.instant ++ le 4 a.seq
        | none => zeros 16)) := by
  have checked : (!zeroAt p.params 1 3) = false := by rw [reserved]; rfl
  exact (badParam_false (decide_eq_false (Nat.not_le.2 named))).trans (badParam_false checked)

section
variable {p : Packet} {s : State}

section
variable {a : Armed} (armed : (s.ctx (stageCtx p)).armed = some a)
include armed

theorem cancelDevelop_tied (tied : a.when_ = 2) : cancelDevelop p s = .refuse stState 0x000200 := by
  simp only [cancelDevelop, armed, tied, decide_true, refuseIf_true]

theorem cancelDevelop_ahead (timed : a.when_ ≠ 2) (ahead : s.now < a.instant) : cancelDevelop p s
    = okBody (s.modCtx (stageCtx p) fun c => { c with armed := none, latent := joinLatent a.changes c.latent }) (zeros 8) := by
  simp only [cancelDevelop, armed, timed, decide_false, refuseIf_false, if_neg (Nat.not_le.2 ahead)]

theorem cancelDevelop_reached (timed : a.when_ ≠ 2) (reached : a.instant ≤ s.now) :
    cancelDevelop p s = .reply s stTooLate 0 (le 8 a.instant) := by
  simp only [cancelDevelop, armed, timed, decide_false, refuseIf_false, if_pos reached]

end

section
variable (free : (s.ctx (stageCtx p)).armed = none)
include free

theorem cancelDevelop_switched {t : Nat} (switched : (s.ctx (stageCtx p)).switched = some t) :
    cancelDevelop p s = .reply s stTooLate 0 (le 8 t) := by
  simp only [cancelDevelop, free, switched]

theorem cancelDevelop_nothing (nothing : (s.ctx (stageCtx p)).switched = none) : cancelDevelop p s = .refuse stState 0x000500 := by
  simp only [cancelDevelop, free, nothing]

end

end

end Sys2Proof.Machine

open Sys2Proof Sys2Proof.Machine

/-- Settles O23: each of the four commands by its handler. -/
theorem contextSettingsComplete : Obligations.ContextSettingsComplete :=
  ⟨fun _ _ accepts named reserved => answered_of_accepts accepts (getContext_named named reserved),
    fun _ _ accepts named low high reserved pages bound use room =>
      answered_of_accepts accepts (setContextQuota_stored named low high reserved pages bound use room),
    fun _ _ accepts guest reserved held fits => answered_of_accepts accepts (setContextChannels_stored guest reserved held fits),
    fun _ _ accepts guest crit listed rights admitted held =>
      answered_of_accepts accepts (setContextRights_stored guest crit listed rights admitted held)⟩

/-- Settles O28: staging within the limits, what one change leaves of the set, and changes joined in turn. -/
theorem stagingJoinsTheLatentSet : Obligations.StagingJoinsTheLatentSet := by
  refine ⟨fun p l s body => stage_within body,
    fun old c => ⟨_, joinLatent_singleton old c, List.filter_sublist, fun d kept same => ?_, fun d mem beside => ?_⟩,
    fun old l k => (joinLatent_append old l k).symm⟩
  · obtain ⟨-, beside⟩ := mem_kept_iff.1 kept
    exact beside.resolve_left (not_not_intro same)
  · exact mem_kept_iff.2 ⟨mem, beside⟩

/-- Settles O29: DEVELOP by what its checks find, the other commands by their handlers, and the instant of an armed development. -/
theorem developmentsComplete : Obligations.DevelopmentsComplete := by
  refine ⟨fun p s accepts reserved => ?_, fun p s accepts => ?_,
    fun p s accepts named reserved => ?_, fun p s accepts => ?_, fun i s due => ?_⟩
  · intro u x w i lim range limit instant late
    have params : DevelopParams { p with opcode := specDevelop.opcode } u := ⟨reserved, range, limit, by rwa [taken_now]⟩
    refine ⟨fun free passed => ?_, fun st de free failed => ?_, fun armed => ?_⟩
    · have run := (develop_first params free).trans (congrArg _ passed)
      split
      next tooLate => exact answered_of_accepts accepts (run.trans (if_pos tooLate))
      next inTime => exact answered_of_accepts accepts (run.trans (if_neg inTime))
    · have run := (develop_first params free).trans (congrArg _ failed)
      split
      next tooLate => exact answered_of_accepts accepts (run.trans (if_pos tooLate))
      next inTime => exact refused_of_accepts accepts (by decide) (by decide) (run.trans (if_neg inTime))
    · exact refused_of_accepts accepts (by decide) (by decide) (develop_second params armed)
  · rw [← taken_ctx p s]
    exact answered_of_accepts accepts rfl
  · rw [← taken_ctx p s]
    exact answered_of_accepts accepts (getLatent_named named reserved)
  · rw [← taken_ctx p s, ← taken_now p s]
    exact ⟨fun a armed timed ahead => answered_of_accepts accepts (cancelDevelop_ahead armed timed ahead),
      fun a armed timed reached => answered_of_accepts accepts (cancelDevelop_reached armed timed reached),
      fun a armed tied => refused_of_accepts accepts (by decide) (by decide) (cancelDevelop_tied armed tied),
      fun t free switched => answered_of_accepts accepts (cancelDevelop_switched free switched),
      fun free nothing => refused_of_accepts accepts (by decide) (by decide) (cancelDevelop_nothing free nothing)⟩
  · show execDevelopSwitch i s = _
    rw [execDevelopSwitch, if_pos due]
    rfl

end

