-- ==== Sys2Proof/Proofs/ExposureCalculator.lean ====
section
/-!
PROOFS. The exposure loops of R398 find least solutions, arbitration sequences are strictly ordered (R208), and an error event is judged
against its budget (R394, R413).
-/

namespace Sys2Proof.Machine

/-! ### The loop of R398 -/

/-- `x` is the least solution of `f x = x` from `a` on, and at most 1 s (R398). -/
def LeastSolution (f : Nat → Nat) (a x : Nat) : Prop := f x = x ∧ a ≤ x ∧ x ≤ busyLimit ∧ ∀ y, a ≤ y → f y = y → x ≤ y

theorem LeastSolution.unique {f : Nat → Nat} {a x y : Nat} (hx : LeastSolution f a x) (hy : LeastSolution f a y) : x = y := by
  obtain ⟨fixedX, aboveX, -, leastX⟩ := hx
  obtain ⟨fixedY, aboveY, -, leastY⟩ := hy
  exact Nat.le_antisymm (leastX y aboveY fixedY) (leastY x aboveX fixedX)

section
variable {f : Nat → Nat} (mono : ∀ a b, a ≤ b → f a ≤ f b)
include mono

/-- A start below its value and the value have the same least solution above them. -/
theorem leastSolution_value_iff {a x : Nat} (start : a ≤ f a) : LeastSolution f (f a) x ↔ LeastSolution f a x := by
  have above : ∀ y, f y = y → (f a ≤ y ↔ a ≤ y) := fun y fixed => ⟨Nat.le_trans start, fun h => fixed ▸ mono a y h⟩
  constructor
  · rintro ⟨fixed, from_, limit, least⟩
    exact ⟨fixed, (above x fixed).1 from_, limit, fun y h e => least y ((above y e).2 h) e⟩
  · rintro ⟨fixed, from_, limit, least⟩
    exact ⟨fixed, (above x fixed).2 from_, limit, fun y h e => least y ((above y e).1 h) e⟩

/-- With fuel up to the limit the loop answers the least solution, and nothing else: every pass that goes on raises its value. -/
theorem fixedPoint_eq_some_iff {n a x : Nat} (start : a ≤ f a) (fuel : busyLimit < n + a) :
    fixedPoint f n a = some x ↔ LeastSolution f a x := by
  induction n generalizing a with
  | zero =>
    refine iff_of_false nofun ?_
    rintro ⟨-, from_, limit, -⟩
    omega
  | succ n ih =>
    rw [fixedPoint]
    split
    next above =>
      refine iff_of_false nofun ?_
      rintro ⟨fixed, from_, limit, -⟩
      have := mono a x from_
      omega
    next =>
      split
      next fixed =>
        constructor
        · rintro ⟨⟩
          exact ⟨fixed, Nat.le_refl _, by omega, fun _ from_ _ => from_⟩
        · rintro ⟨-, from_, -, least⟩
          rw [Nat.le_antisymm from_ (least a (Nat.le_refl a) fixed)]
      next moves => rw [ih (mono a _ start) (by omega), leastSolution_value_iff mono start]

end

/-! ### The terms of R398 rise with the time -/

theorem total_cons (n : Nat) (l : List Nat) : total (n :: l) = n + total l := by
  simp only [total, ← List.sum_eq_foldl, List.sum_cons]

section
variable {α : Type} {l : List α} {f g : α → Nat}

theorem total_map_mono (le : ∀ x ∈ l, f x ≤ g x) : total (l.map f) ≤ total (l.map g) := by
  induction l with
  | nil => exact Nat.le_refl _
  | cons x l ih =>
    obtain ⟨head, rest⟩ := List.forall_mem_cons.1 le
    rw [List.map_cons, List.map_cons, total_cons, total_cons]
    exact Nat.add_le_add head (ih rest)

theorem le_total_map {x : α} (mem : x ∈ l) : f x ≤ total (l.map f) := by
  induction l with
  | nil => exact nomatch mem
  | cons y l ih =>
    rw [List.map_cons, total_cons]
    rcases List.mem_cons.1 mem with rfl | mem
    · exact Nat.le_add_right _ _
    · exact Nat.le_trans (ih mem) (Nat.le_add_left _ _)

end

theorem ceilDiv_mono {a b : Nat} (p : Nat) (h : a ≤ b) : ceilDiv a p ≤ ceilDiv b p :=
  Nat.div_le_div_right (Nat.sub_le_sub_right (Nat.add_le_add_right h p) 1)

theorem ceilDiv_pos {a p : Nat} (ha : 0 < a) (hp : 0 < p) : 0 < ceilDiv a p := Nat.div_pos (by omega) hp

theorem arrivals_mono (l : List Item) {a b : Nat} (h : a ≤ b) : arrivals l a ≤ arrivals l b := by
  rw [arrivals, arrivals]
  exact total_map_mono fun x _ => Nat.mul_le_mul_right _ (ceilDiv_mono _ (Nat.add_le_add_right h _))

/-- From any later instant on every item has arrived at least once. -/
theorem total_waitTime_le_arrivals {l : List Item} {t : Nat} (periods : ∀ x ∈ l, 0 < x.period) (later : 0 < t) :
    total (l.map waitTime) ≤ arrivals l t := by
  rw [arrivals]
  exact total_map_mono fun x mem => Nat.le_mul_of_pos_left _ (ceilDiv_pos (Nat.add_pos_left later _) (periods x mem))

theorem c_le_waitTime (x : Item) : x.c ≤ waitTime x := by
  rw [waitTime]
  split <;> omega

/-- The start of a loop lies below its value: with nothing before the item there is nothing to wait for, and with something the
start is past instant 0. -/
theorem total_waitTime_le_arrivals_from {l : List Item} {t : Nat} (items : ∀ x ∈ l, 0 < x.period ∧ 0 < x.c)
    (from_ : total (l.map waitTime) ≤ t) : total (l.map waitTime) ≤ arrivals l t := by
  cases l with
  | nil => exact Nat.zero_le _
  | cons x l =>
    refine total_waitTime_le_arrivals (fun y mem => (items y mem).1) ?_
    calc 0 < x.c := (items x List.mem_cons_self).2
      _ ≤ waitTime x := c_le_waitTime x
      _ ≤ total ((x :: l).map waitTime) := le_total_map List.mem_cons_self
      _ ≤ t := from_

/-! ### The loops of one item (R398) -/

/-- The longest frame among the items after the one calculated: its blocking. -/
def blockingOf (lp : List Item) : Nat := (lp.map (·.c)).foldl max 0

/-- What the errors of a budget cost in `x` ns, with the longest frame of the items concerned. -/
def errorTerm (g : Budget) (hep : List Item) (x : Nat) : Nat := g.e * ceilDiv x g.w * (g.c31 + (hep.map (·.c)).foldl max 0)

/-- The function of the busy period's loop. -/
def busyStep (g : Budget) (b : Nat) (hep : List Item) (t : Nat) : Nat := b + errorTerm g hep t + arrivals hep t

/-- The function of the loop of arrival `q`. -/
def waitStep (g : Budget) (b : Nat) (hp : List Item) (i : Item) (fin q w : Nat) : Nat :=
  b + q * i.c + errorTerm g (hp ++ [i]) (w + g.m + fin) + arrivals hp w

/-- The response of arrival `q` that waits `w`. -/
def responseAt (g : Budget) (i : Item) (fin q w : Nat) : Nat := candJitter i + w + g.m + fin - q * i.period

/-- The response of arrival `q` as its loop finds it. -/
def arrivalResponse (g : Budget) (b : Nat) (hp : List Item) (i : Item) (fin q : Nat) : Option Nat :=
  (fixedPoint (waitStep g b hp i fin q) (busyLimit + 1) (b + q * i.c + total (hp.map waitTime))).map (responseAt g i fin q)

/-- The larger of the result so far and the next, where there are both. -/
def larger (one : Nat → Option Nat) (r : Option Nat) (q : Nat) : Option Nat :=
  match r, one q with
  | some r, some x => some (max r x)
  | _, _ => none

theorem responseOf_eq (g : Budget) (hp lp : List Item) (i : Item) (fin : Nat) :
    responseOf g hp i lp fin
      = (fixedPoint (busyStep g (blockingOf lp) (hp ++ [i])) (busyLimit + 1) (blockingOf lp + total ((hp ++ [i]).map waitTime))).bind
          fun t => ((List.range (ceilDiv (t + candJitter i) i.period)).foldl
            (larger (arrivalResponse g (blockingOf lp) hp i fin)) (some 0)).map fun r => (r, blockingOf lp) := by
  rw [responseOf]
  split
  all_goals
    next found =>
      change fixedPoint (busyStep g (blockingOf lp) (hp ++ [i])) _ (blockingOf lp + _) = _ at found
      rw [found]
      rfl

theorem errorTerm_mono (g : Budget) (hep : List Item) {a b : Nat} (h : a ≤ b) : errorTerm g hep a ≤ errorTerm g hep b :=
  Nat.mul_le_mul_right _ (Nat.mul_le_mul_left _ (ceilDiv_mono _ h))

theorem busyStep_mono (g : Budget) (b : Nat) (hep : List Item) (x y : Nat) (h : x ≤ y) : busyStep g b hep x ≤ busyStep g b hep y :=
  Nat.add_le_add (Nat.add_le_add_left (errorTerm_mono g hep h) b) (arrivals_mono hep h)

theorem waitStep_mono (g : Budget) (b : Nat) (hp : List Item) (i : Item) (fin q x y : Nat) (h : x ≤ y) :
    waitStep g b hp i fin q x ≤ waitStep g b hp i fin q y :=
  Nat.add_le_add (Nat.add_le_add_left (errorTerm_mono g _ (by omega)) _) (arrivals_mono hp h)

/-! ### The largest of the responses -/

theorem foldl_larger_none (one : Nat → Option Nat) (l : List Nat) : l.foldl (larger one) none = none := by
  induction l with
  | nil => rfl
  | cons q l ih => exact ih

/-- The fold answers the largest of the results, provided that there is one of each. -/
theorem foldl_larger_eq_some_iff {one : Nat → Option Nat} {l : List Nat} {a r : Nat} :
    l.foldl (larger one) (some a) = some r
      ↔ (∀ q ∈ l, ∃ x, one q = some x ∧ x ≤ r) ∧ a ≤ r ∧ (r = a ∨ ∃ q ∈ l, one q = some r) := by
  induction l generalizing a with
  | nil =>
    refine ⟨?_, ?_⟩
    · rintro ⟨⟩
      exact ⟨nofun, Nat.le_refl _, .inl rfl⟩
    · rintro ⟨-, -, rfl | ⟨_, mem, -⟩⟩
      · rfl
      · exact nomatch mem
  | cons q l ih =>
    cases e : one q with
    | none =>
      have fails : larger one (some a) q = none := by simp only [larger, e]
      rw [List.foldl_cons, fails, foldl_larger_none]
      refine iff_of_false nofun ?_
      rintro ⟨all, -⟩
      obtain ⟨x, found, -⟩ := all q List.mem_cons_self
      exact nomatch e.symm.trans found
    | some x =>
      have goes : larger one (some a) q = some (max a x) := by simp only [larger, e]
      rw [List.foldl_cons, goes, ih]
      constructor
      · rintro ⟨all, above, best⟩
        refine ⟨List.forall_mem_cons.2 ⟨⟨x, e, Nat.le_trans (Nat.le_max_right a x) above⟩, all⟩, Nat.le_trans (Nat.le_max_left a x) above, ?_⟩
        rcases best with rfl | ⟨k, mem, found⟩
        · rcases Nat.le_total x a with h | h
          · exact .inl (Nat.max_eq_left h)
          · exact .inr ⟨q, List.mem_cons_self, by rw [e, Nat.max_eq_right h]⟩
        · exact .inr ⟨k, List.mem_cons_of_mem q mem, found⟩
      · rintro ⟨all, above, best⟩
        obtain ⟨⟨y, same, below⟩, rest⟩ := List.forall_mem_cons.1 all
        obtain rfl : x = y := Option.some.inj (e.symm.trans same)
        refine ⟨rest, by omega, ?_⟩
        rcases best with rfl | ⟨k, mem, found⟩
        · exact .inl (by omega)
        · rcases List.mem_cons.1 mem with rfl | mem
          · obtain rfl : x = r := Option.some.inj (e.symm.trans found)
            exact .inl (Nat.max_eq_right above).symm
          · exact .inr ⟨k, mem, found⟩

/-! ### The exposure of an item (R398) -/

section
variable {g : Budget} {hp : List Item} {i : Item} (items : ∀ x ∈ hp ++ [i], 0 < x.period ∧ 0 < x.c)
include items

theorem busyPeriod_iff (b : Nat) {t : Nat} :
    fixedPoint (busyStep g b (hp ++ [i])) (busyLimit + 1) (b + total ((hp ++ [i]).map waitTime)) = some t
      ↔ LeastSolution (busyStep g b (hp ++ [i])) (b + total ((hp ++ [i]).map waitTime)) t := by
  refine fixedPoint_eq_some_iff (busyStep_mono g b _) ?_ (by omega)
  have := total_waitTime_le_arrivals_from items (Nat.le_add_left _ b)
  rw [busyStep]
  omega

theorem arrivalResponse_iff (b fin q : Nat) {r : Nat} :
    arrivalResponse g b hp i fin q = some r
      ↔ ∃ w, LeastSolution (waitStep g b hp i fin q) (b + q * i.c + total (hp.map waitTime)) w ∧ responseAt g i fin q w = r := by
  have before : ∀ x ∈ hp, 0 < x.period ∧ 0 < x.c := fun x mem => items x (List.mem_append_left _ mem)
  have start : b + q * i.c + total (hp.map waitTime)
      ≤ waitStep g b hp i fin q (b + q * i.c + total (hp.map waitTime)) := by
    have := total_waitTime_le_arrivals_from before (Nat.le_add_left _ (b + q * i.c))
    rw [waitStep]
    omega
  have found := fun w => fixedPoint_eq_some_iff (x := w) (waitStep_mono g b hp i fin q) start
    (show busyLimit < busyLimit + 1 + _ by omega)
  simp only [arrivalResponse, Option.map_eq_some_iff, found]

/-- The exposure is the largest response of the arrivals in the busy period, each waiting the least solution of its loop. -/
theorem responseOf_eq_some_iff (lp : List Item) (fin r b : Nat) :
    responseOf g hp i lp fin = some (r, b) ↔ b = blockingOf lp
      ∧ ∃ (t : Nat) (w : Nat → Nat), LeastSolution (busyStep g b (hp ++ [i])) (b + total ((hp ++ [i]).map waitTime)) t
        ∧ (∀ q, q < ceilDiv (t + candJitter i) i.period →
            LeastSolution (waitStep g b hp i fin q) (b + q * i.c + total (hp.map waitTime)) (w q) ∧ responseAt g i fin q (w q) ≤ r)
        ∧ (r = 0 ∨ ∃ q, q < ceilDiv (t + candJitter i) i.period ∧ r = responseAt g i fin q (w q)) := by
  simp only [responseOf_eq, Option.bind_eq_some_iff, Option.map_eq_some_iff, busyPeriod_iff items, foldl_larger_eq_some_iff,
    arrivalResponse_iff items, List.mem_range, Prod.mk.injEq]
  constructor
  · rintro ⟨t, period, _, ⟨all, -, best⟩, rfl, rfl⟩
    have waits : ∀ q, ∃ w, q < ceilDiv (t + candJitter i) i.period →
        LeastSolution (waitStep g (blockingOf lp) hp i fin q) (blockingOf lp + q * i.c + total (hp.map waitTime)) w
          ∧ responseAt g i fin q w ≤ _ := fun q => by
      by_cases inside : q < ceilDiv (t + candJitter i) i.period
      · obtain ⟨_, ⟨w, least, rfl⟩, below⟩ := all q inside
        exact ⟨w, fun _ => ⟨least, below⟩⟩
      · exact ⟨0, fun h => absurd h inside⟩
    obtain ⟨w, found⟩ := Classical.skolem.1 waits
    refine ⟨rfl, t, w, period, found, best.imp_right ?_⟩
    rintro ⟨q, inside, v, least, rfl⟩
    exact ⟨q, inside, by rw [least.unique (found q inside).1]⟩
  · rintro ⟨rfl, t, w, period, found, best⟩
    refine ⟨t, period, r, ⟨fun q inside => ⟨_, ⟨w q, (found q inside).1, rfl⟩, (found q inside).2⟩, Nat.zero_le r,
      best.imp_right ?_⟩, rfl, rfl⟩
    rintro ⟨q, inside, rfl⟩
    exact ⟨q, inside, w q, (found q inside).1, rfl⟩

end

/-! ### Arbitration sequences (R208) -/

theorem seqBefore_self (a : List Bool) : seqBefore a a = false := by
  induction a with
  | nil => rfl
  | cons x a ih => rwa [seqBefore, if_pos rfl]

theorem seqBefore_cons (x y : Bool) (a b : List Bool) : seqBefore (x :: a) (y :: b) = if x = y then seqBefore a b else !x := rfl

/-- Of sequences of one length, one goes before a third where it goes before one that does. -/
theorem seqBefore_trans {a b c : List Bool} (ab : a.length = b.length) (bc : b.length = c.length)
    (first : seqBefore a b = true) (second : seqBefore b c = true) : seqBefore a c = true := by
  induction a generalizing b c with
  | nil =>
    obtain rfl := List.length_eq_zero_iff.1 ab.symm
    exact nomatch first
  | cons x a ih =>
    obtain ⟨y, b, rfl⟩ := List.exists_cons_of_length_eq_add_one ab.symm
    obtain ⟨z, c, rfl⟩ := List.exists_cons_of_length_eq_add_one bc.symm
    rw [seqBefore_cons] at first second ⊢
    by_cases xy : x = y
    · subst xy
      rw [if_pos rfl] at first
      split at second
      next xz => exact (if_pos xz).trans (ih (Nat.succ.inj ab) (Nat.succ.inj bc) first second)
      next xz => exact (if_neg xz).trans second
    · rw [if_neg xy, Bool.not_eq_true'] at first
      obtain rfl : y = true := eq_true_of_ne_false fun h => xy (first.trans h.symm)
      split at second
      next yz => rw [first, ← yz]; rfl
      next => exact nomatch second

/-- Two different sequences of one length go one before the other. -/
theorem seqBefore_eq_not {a b : List Bool} (ab : a.length = b.length) (differ : a ≠ b) : seqBefore a b = !seqBefore b a := by
  induction a generalizing b with
  | nil => exact absurd (List.length_eq_zero_iff.1 ab.symm).symm differ
  | cons x a ih =>
    obtain ⟨y, b, rfl⟩ := List.exists_cons_of_length_eq_add_one ab.symm
    rw [seqBefore_cons, seqBefore_cons]
    by_cases same : x = y
    · subst same
      rw [if_pos rfl, if_pos rfl]
      exact ih (Nat.succ.inj ab) fun e => differ (congrArg _ e)
    · rw [if_neg same, if_neg (Ne.symm same), Bool.not_not, Bool.not_eq.2 same]

/-! ### The fault budget (R413) -/

/-- An error event at the stamp `t` is over the budget (R413). -/
def overBudgetAt (m : Monitor) (t : Nat) : Bool :=
  m.e = 0 || match m.stamps[m.e - 1]? with
    | some x => t < x + m.w * 1000
    | none => false

theorem overBudgetAt_iff (m : Monitor) (t : Nat) :
    overBudgetAt m t = true ↔ m.e = 0 ∨ ∃ x, m.stamps[m.e - 1]? = some x ∧ t < x + m.w * 1000 := by
  rw [overBudgetAt, Bool.or_eq_true, decide_eq_true_eq]
  cases m.stamps[m.e - 1]? <;> simp

/-- An error event's stamp goes before those kept (R413, R429). -/
def stampEvent (ch : Nat) (s : State) : State := s.modMon ch fun m => { m with stamps := stampNow s :: m.stamps.take 65534 }

/-- An event over the budget counts where it enters (R429). -/
def countEntry (ch : Nat) (fresh : Prop) [Decidable fresh] (s : State) : State :=
  if fresh then s.modMon ch fun m => { m with overBudget := inc32 m.overBudget } else s

theorem budgetEvent_eq (ch : Nat) (s : State) :
    budgetEvent ch s = if overBudgetAt (s.mon ch) (stampNow s) then
        latchCause ch 1 noRecord (stampNow s)
          (countEntry ch (((s.mon ch).stamps.filter fun x => stampNow s < x + (s.mon ch).w * 1000).length ≤ (s.mon ch).e)
            (stampEvent ch s))
      else stampEvent ch s := rfl

theorem raiseEvents_monitors (l : List Nat) (code : Nat) (data : Nat → State → List Byte) (s : State) :
    (forEach l (fun c s => raiseEvent c code (data c s) s) s).monitors = s.monitors :=
  (forEach_tells l _ (fun c _ h => raiseEvent_tells c code _ h) (Tells.refl s)).monitors

section
variable {ch : Nat} (bound : ch < 64) (bit record stamp : Nat) (s : State)
include bound

theorem latchCause_latched (latched : (s.mon ch).causes.getLsbD bit = false) :
    ((latchCause ch bit record stamp s).mon ch) = { s.mon ch with
      causes := (s.mon ch).causes ||| (1#8 <<< bit), causeAt := tmod (s.mon ch).causeAt bit fun _ => stamp } := by
  rw [latchCause, if_neg (by rw [latched]; exact Bool.false_ne_true), State.mon, raiseEvents_monitors]
  exact State.mon_modMon s ch _ bound

/-- A latched cause stands among the causes of its channel. -/
theorem latchCause_causes (cause : bit < 8) : ((latchCause ch bit record stamp s).mon ch).causes.getLsbD bit = true := by
  cases latched : (s.mon ch).causes.getLsbD bit with
  | true => rwa [latchCause, if_pos latched]
  | false =>
    rw [latchCause_latched bound bit record stamp s latched]
    simp [cause]

theorem latchCause_stamps : ((latchCause ch bit record stamp s).mon ch).stamps = (s.mon ch).stamps := by
  cases latched : (s.mon ch).causes.getLsbD bit with
  | true => rw [latchCause, if_pos latched]
  | false => rw [latchCause_latched bound bit record stamp s latched]

end

theorem stampEvent_mon {ch : Nat} (bound : ch < 64) (s : State) :
    (stampEvent ch s).mon ch = { s.mon ch with stamps := stampNow s :: (s.mon ch).stamps.take 65534 } :=
  State.mon_modMon s ch _ bound

theorem countEntry_stamps {ch : Nat} (bound : ch < 64) (fresh : Prop) [Decidable fresh] (s : State) :
    ((countEntry ch fresh s).mon ch).stamps = (s.mon ch).stamps := by
  rw [countEntry]
  split
  · rw [State.mon_modMon s ch _ bound]
  · rfl

/-- Cause 1 stands after an error event exactly where it stood or the event is over the budget (R413). -/
theorem budgetEvent_causes {ch : Nat} (bound : ch < 64) (s : State) :
    ((budgetEvent ch s).mon ch).causes.getLsbD 1 = true
      ↔ (s.mon ch).causes.getLsbD 1 = true ∨ overBudgetAt (s.mon ch) (stampNow s) = true := by
  rw [budgetEvent_eq]
  split
  next spent => exact iff_of_true (latchCause_causes bound 1 _ _ _ (by decide)) (.inr spent)
  next within => rw [stampEvent_mon bound, or_iff_left within]

theorem budgetEvent_stamps {ch : Nat} (bound : ch < 64) (s : State) :
    ((budgetEvent ch s).mon ch).stamps.head? = some (stampNow s) := by
  have stamped : ((stampEvent ch s).mon ch).stamps.head? = some (stampNow s) := by rw [stampEvent_mon bound]; rfl
  rw [budgetEvent_eq]
  split
  · rw [latchCause_stamps bound, countEntry_stamps bound, stamped]
  · exact stamped

end Sys2Proof.Machine

open Sys2Proof Sys2Proof.Machine

/-- Settles O42: the loop by its least solution, the exposure by its loops, the order of sequences by their bits, the budget by the
stamp E events back. -/
theorem theCalculatorSolvesR398 : Obligations.TheCalculatorSolvesR398 := by
  refine ⟨fun f t mono start r => fixedPoint_eq_some_iff mono start (by omega),
    fun a b c ab bc => ⟨rfl, seqBefore_self a, seqBefore_trans ab bc, seqBefore_eq_not ab⟩,
    fun g hp lp i fin r b items => responseOf_eq_some_iff items lp fin r b, fun ch s bound => ?_⟩
  intro m
  rw [← overBudgetAt_iff]
  exact ⟨budgetEvent_causes bound s, budgetEvent_stamps bound s⟩

end

