-- ==== Sys2Proof/Proofs/ChannelSettings.lean ====
section
/-!
PROOFS. The settings of a channel join the latent set, and its record is read (R230 to R233, R237, R238, R249, R252).
-/

namespace Sys2Proof.Machine

/-! ### What taking a packet leaves of a channel -/

theorem taken_chan (p : Packet) (s : State) (ch : Nat) :
    { (taken p s).chan ch with chqStat := (s.chan ch).chqStat } = s.chan ch := (taken_tells p s).chans ch

theorem taken_chanState (p : Packet) (s : State) (ch : Nat) : ((taken p s).chan ch).state = (s.chan ch).state :=
  (congrArg Chan.state (taken_chan p s ch) :)

theorem taken_chanHeld (p : Packet) (s : State) (ch : Nat) : ((taken p s).chan ch).held = (s.chan ch).held :=
  (congrArg Chan.held (taken_chan p s ch) :)

/-! ### Checks that find nothing -/

/-- A handler that comes to stage its changes answers as staging them does (R166, R171). -/
theorem answered_of_stages {c : CmdSpec} {h : Packet → State → Verdict} {p : Packet} {s t : State} {l : List Change} {body : List Byte}
    (accepts : Accepts c p s) (stages : Stages p l body s t)
    (checked : h { p with opcode := c.opcode } (taken p s)
      = bundleOpen (taken p s) { p with opcode := c.opcode } (stage { p with opcode := c.opcode } l (taken p s) body)) :
    next (runCommand c h p s) = .next (answered c p 0 0x800000 body t) := by
  obtain ⟨free, joins⟩ := stages
  rw [← (taken_tells p s).bundle] at free
  exact answered_of_accepts accepts (checked.trans ((bundleOpen_none free).trans joins))

theorem not_zeroAt {l : List Byte} {i n : Nat} (zero : zeroAt l i n = true) : (!zeroAt l i n) = false := by rw [zero]; rfl

theorem outside_eq_false {lo hi v : Nat} (low : lo ≤ v) (high : v ≤ hi) : (decide (v < lo) || decide (v > hi)) = false := by
  rw [decide_eq_false (Nat.not_lt.2 low), decide_eq_false (Nat.not_lt.2 high)]
  rfl

/-- A field within its bound that is zero where it means nothing. -/
theorem misused_eq_false {hi v : Nat} {b : Prop} [Decidable b] (high : v ≤ hi) (unset : b → v = 0) :
    (decide (v > hi) || (decide b && decide (v ≠ 0))) = false := by
  rw [decide_eq_false (Nat.not_lt.2 high), Bool.false_or, Bool.and_eq_false_imp]
  exact fun h => decide_eq_false (not_not_intro (unset (of_decide_eq_true h)))

theorem lacks_eq_false {α : Type} {b : Bool} {o : Option α} (has : b = true → o.isSome = true) : (b && o.isNone) = false :=
  Bool.and_eq_false_imp.2 fun used => Option.isNone_eq_false_iff.2 (has used)

section
variable {p : Packet} {s : State} {ch : Nat}

/-! ### SET_CHANNEL_MODE (R230, R249) -/

theorem setChannelMode_checked (named : byteAt p.params 0 < 64) (mapped : srcChan s p.source (byteAt p.params 0) = some ch)
    (mode : byteAt p.params 1 ≤ 4) (formats : byteAt p.params 2 < 8) (cc : byteAt p.params 2 % 2 = 1)
    (options : byteAt p.params 3 < 8) (reserved : zeroAt p.params 4 4 = true)
    (used : ∀ k < 3, (devSettings ((stagedFor p s).chan ch)).formats.testBit k = true → (byteAt p.params 2).testBit k = false →
      (formatsUsed (stagedFor p s) ch).testBit k = false)
    (timed : (s.chan ch).state = .disabled ∨
      (((byteAt p.params 2).testBit 1 = true → (devSettings ((stagedFor p s).chan ch)).fdData.isSome = true)
        ∧ ((byteAt p.params 2).testBit 2 = true → (devSettings ((stagedFor p s).chan ch)).xlData.isSome = true)))
    (held : (s.chan ch).held = none ∨ timingsReady { devSettings ((stagedFor p s).chan ch) with
      mode := byteAt p.params 1, formats := byteAt p.params 2, options := byteAt p.params 3 } = true) :
    setChannelMode p s
      = bundleOpen s p (stage p [.chanMode ch (byteAt p.params 1) (byteAt p.params 2) (byteAt p.params 3)] s []) := by
  have listed : (decide (byteAt p.params 2 ≥ 8) || decide (byteAt p.params 2 % 2 = 0)) = false := by
    rw [decide_eq_false (Nat.not_le.2 formats), decide_eq_false (by omega)]
    rfl
  have kept : ((List.range 3).any fun k => (devSettings ((stagedFor p s).chan ch)).formats.testBit k && !(byteAt p.params 2).testBit k
      && (formatsUsed (stagedFor p s) ch).testBit k) = false := by
    refine List.any_eq_false.2 fun k mem lost => ?_
    simp only [Bool.and_eq_true, Bool.not_eq_true'] at lost
    obtain ⟨⟨had, gone⟩, inUse⟩ := lost
    exact Bool.noConfusion (inUse.symm.trans (used k (List.mem_range.1 mem) had gone))
  have present : ((s.chan ch).state != .disabled
      && (((byteAt p.params 2).testBit 1 && (devSettings ((stagedFor p s).chan ch)).fdData.isNone)
        || ((byteAt p.params 2).testBit 2 && (devSettings ((stagedFor p s).chan ch)).xlData.isNone))) = false := by
    rcases timed with disabled | ⟨fd, xl⟩
    · rw [disabled]; rfl
    · rw [lacks_eq_false fd, lacks_eq_false xl, Bool.or_false, Bool.and_false]
  have enables : heldFails s ch { devSettings ((stagedFor p s).chan ch) with
      mode := byteAt p.params 1, formats := byteAt p.params 2, options := byteAt p.params 3 } = false := by
    rw [heldFails]
    rcases held with free | ready
    · rw [free]; rfl
    · rw [ready, Bool.not_true, Bool.and_false]
  exact (withChan_some named mapped).trans <| (badParam_false (decide_eq_false (Nat.not_lt.2 mode))).trans <|
    (badParam_false listed).trans <| (badParam_false (decide_eq_false (Nat.not_le.2 options))).trans <|
    (badParam_false (not_zeroAt reserved)).trans <| congrArg (bundleOpen s p) <|
    (refuseIf_false kept).trans <| (refuseIf_false present).trans (refuseIf_false enables)

/-! ### SET_BIT_TIMING (R237, R238, R252) -/

/-- The bit timing that SET_BIT_TIMING carries. -/
def timingFrom (p : Packet) : BitTiming :=
  { brp := byteAt p.params 2, tseg1 := fieldAt p.params 4 2, tseg2 := byteAt p.params 6, sjw := byteAt p.params 7
    tdc := byteAt p.params 8, tdco := byteAt p.params 9, tdcf := byteAt p.params 10 }

theorem segments_eq_false {r : PhaseRange} {x : BitTiming} (t1lo : r.t1lo ≤ x.tseg1) (t1hi : x.tseg1 ≤ r.t1hi)
    (qlo : r.qlo ≤ 1 + x.tseg1 + x.tseg2) (qhi : 1 + x.tseg1 + x.tseg2 ≤ r.qhi) (clo : r.clo ≤ (bitClocks x).bit)
    (chi : (bitClocks x).bit ≤ 3200) :
    (decide (x.tseg1 < r.t1lo) || decide (x.tseg1 > r.t1hi) || decide (1 + x.tseg1 + x.tseg2 < r.qlo)
      || decide (1 + x.tseg1 + x.tseg2 > r.qhi) || decide ((bitClocks x).bit < r.clo) || decide ((bitClocks x).bit > 3200)) = false := by
  simp only [Bool.or_eq_false_iff, decide_eq_false_iff_not]
  omega

theorem jumps_eq_false {r : PhaseRange} {x : BitTiming} (low : 1 ≤ x.sjw) (high : x.sjw ≤ r.sjwhi) (first : x.sjw ≤ x.tseg1)
    (second : x.sjw ≤ x.tseg2) :
    (decide (x.sjw < 1) || decide (x.sjw > r.sjwhi) || decide (x.sjw > x.tseg1) || decide (x.sjw > x.tseg2)) = false := by
  simp only [Bool.or_eq_false_iff, decide_eq_false_iff_not]
  omega

/-- The fields of SET_BIT_TIMING are within the ranges of their phase (R237, R238, R252). -/
structure TimingInRange (p : Packet) (ph : Nat) (r : PhaseRange) (x : BitTiming) : Prop where
  phase : ph ≤ 2
  brpLo : 1 ≤ x.brp
  brpHi : x.brp ≤ 32
  reserved : zeroAt p.params 3 1 = true
  t1lo : r.t1lo ≤ x.tseg1
  t1hi : x.tseg1 ≤ r.t1hi
  qlo : r.qlo ≤ 1 + x.tseg1 + x.tseg2
  qhi : 1 + x.tseg1 + x.tseg2 ≤ r.qhi
  clo : r.clo ≤ (bitClocks x).bit
  chi : (bitClocks x).bit ≤ 3200
  t2lo : 2 ≤ x.tseg2
  t2hi : x.tseg2 ≤ r.t2hi
  sjwLo : 1 ≤ x.sjw
  sjwHi : x.sjw ≤ r.sjwhi
  jump1 : x.sjw ≤ x.tseg1
  jump2 : x.sjw ≤ x.tseg2
  tdc : x.tdc ≤ 2
  tdcSet : ph = 0 → x.tdc = 0
  tdco : x.tdco ≤ 127
  tdcoSet : x.tdc = 0 → x.tdco = 0
  tdcf : x.tdcf ≤ 127
  tdcfSet : x.tdc ≠ 1 → x.tdcf = 0
  last : zeroAt p.params 11 1 = true

theorem setBitTiming_checked (named : byteAt p.params 0 < 64) (mapped : srcChan s p.source (byteAt p.params 0) = some ch)
    (range : TimingInRange p (byteAt p.params 1) (phaseRange (byteAt p.params 1)) (timingFrom p))
    (sound : timingFault (setPhase (byteAt p.params 1) (timingFrom p) (devSettings ((stagedFor p s).chan ch))) = none) :
    let k := bitClocks (timingFrom p)
    setBitTiming p s = bundleOpen s p (stage p [.bitTiming ch (byteAt p.params 1) (timingFrom p)] s
      (le 2 k.bit ++ le 2 k.sample ++ le 4 (160000000 / k.bit))) := by
  obtain ⟨phase, brpLo, brpHi, reserved, t1lo, t1hi, qlo, qhi, clo, chi, t2lo, t2hi, sjwLo, sjwHi, jump1, jump2, tdc, tdcSet,
    tdco, tdcoSet, tdcf, tdcfSet, last⟩ := range
  refine (withChan_some named mapped).trans <| (badParam_false (decide_eq_false (Nat.not_lt.2 phase))).trans <|
    (badParam_false (outside_eq_false brpLo brpHi)).trans <| (badParam_false (not_zeroAt reserved)).trans <|
    (badParam_false (segments_eq_false t1lo t1hi qlo qhi clo chi)).trans <| (badParam_false (outside_eq_false t2lo t2hi)).trans <|
    (badParam_false (jumps_eq_false sjwLo sjwHi jump1 jump2)).trans <| (badParam_false (misused_eq_false tdc tdcSet)).trans <|
    (badParam_false (misused_eq_false tdco tdcoSet)).trans <| (badParam_false (misused_eq_false tdcf tdcfSet)).trans <|
    (badParam_false (not_zeroAt last)).trans <| congrArg (bundleOpen s p) ?_
  split
  next found => exact nomatch found.symm.trans sound
  next => rfl

/-! ### SET_TRANSCEIVER (R225, R233) -/

/-- The settings that SET_TRANSCEIVER carries, zeros taken as the defaults (R233). -/
def transceiverFrom (p : Packet) : Transceiver :=
  { stbn := byteAt p.params 1, settle := if byteAt p.params 2 = 0 then 40 else byteAt p.params 2
    fast := bitOf (byteAt p.params 3) 0, pwms := if byteAt p.params 4 = 0 then 3 else byteAt p.params 4
    pwml := if byteAt p.params 5 = 0 then 9 else byteAt p.params 5, pwmo := byteAt p.params 6 }

/-- The fields of SET_TRANSCEIVER are within their ranges (R225, R233). -/
structure TransceiverInRange (p : Packet) (x : Transceiver) : Prop where
  stbn : x.stbn ≤ 2
  fast : byteAt p.params 3 < 2
  order : x.pwms < x.pwml
  short : x.pwms ≤ 62
  both : x.pwms + x.pwml ≤ 63
  pwmlLo : 2 ≤ x.pwml
  pwmlHi : x.pwml ≤ 62
  pwmo : x.pwmo ≤ 63
  reserved : zeroAt p.params 7 1 = true

theorem setTransceiver_checked (named : byteAt p.params 0 < 64) (mapped : srcChan s p.source (byteAt p.params 0) = some ch)
    (range : TransceiverInRange p (transceiverFrom p))
    (sound : timingFault { devSettings ((stagedFor p s).chan ch) with xcvr := transceiverFrom p } = none) :
    setTransceiver p s = bundleOpen s p (stage p [.xcvr ch (transceiverFrom p)] s []) := by
  obtain ⟨stbn, fast, order, short, both, pwmlLo, pwmlHi, pwmo, reserved⟩ := range
  have pulses : (decide ((transceiverFrom p).pwms > 62) || decide ((transceiverFrom p).pwms ≥ (transceiverFrom p).pwml)
      || decide ((transceiverFrom p).pwms + (transceiverFrom p).pwml > 63)) = false := by
    simp only [Bool.or_eq_false_iff, decide_eq_false_iff_not]
    omega
  refine (withChan_some named mapped).trans <| (badParam_false (decide_eq_false (Nat.not_lt.2 stbn))).trans <|
    (badParam_false (decide_eq_false (Nat.not_le.2 fast))).trans <| (badParam_false pulses).trans <|
    (badParam_false (outside_eq_false pwmlLo pwmlHi)).trans <| (badParam_false (decide_eq_false (Nat.not_lt.2 pwmo))).trans <|
    (badParam_false (not_zeroAt reserved)).trans <| congrArg (bundleOpen s p) ?_
  split
  next found => exact nomatch found.symm.trans sound
  next => rfl

/-! ### GET_CHANNEL_STATUS (R232, R271) -/

theorem getChannelStatus_named (named : byteAt p.params 0 < 64) (mapped : srcChan s p.source (byteAt p.params 0) = some ch)
    (reserved : zeroAt p.params 1 3 = true) : getChannelStatus p s = okBody s (chanRecord s ch) :=
  (withChan_some named mapped).trans (badParam_false (not_zeroAt reserved))

end

end Sys2Proof.Machine

open Sys2Proof Sys2Proof.Machine

/-- Settles O30: each of the three settings passes its checks and stages, and the record is read. -/
theorem channelSettingsAreStaged : Obligations.ChannelSettingsAreStaged := by
  refine ⟨fun p s t ch accepts => ?_, fun p s t ch accepts => ?_, fun p s t ch accepts => ?_,
    fun p s ch accepts named mapped reserved => answered_of_accepts accepts (getChannelStatus_named named mapped reserved)⟩
  · intro u m f o d named mapped mode formats cc options reserved used timed held stages
    rw [← taken_chanState p s ch] at timed
    rw [← taken_chanHeld p s ch] at held
    exact answered_of_stages accepts stages
      (setChannelMode_checked named mapped mode formats cc options reserved used timed held)
  · intro u ph r x named mapped phase brpLo brpHi reserved t1lo t1hi qlo qhi clo chi t2lo t2hi sjwLo sjwHi jump1 jump2 tdc tdcSet
      tdco tdcoSet tdcf tdcfSet last sound b stages
    exact answered_of_stages accepts stages
      (setBitTiming_checked named mapped ⟨phase, brpLo, brpHi, reserved, t1lo, t1hi, qlo, qhi, clo, chi, t2lo, t2hi, sjwLo, sjwHi,
        jump1, jump2, tdc, tdcSet, tdco, tdcoSet, tdcf, tdcfSet, last⟩ sound)
  · intro u x named mapped stbn fast order short both pwmlLo pwmlHi pwmo reserved sound stages
    exact answered_of_stages accepts stages
      (setTransceiver_checked named mapped ⟨stbn, fast, order, short, both, pwmlLo, pwmlHi, pwmo, reserved⟩ sound)

end

