-- ==== Sys2Proof/Proofs/ChannelControl.lean ====
section
/-!
PROOFS. Channels are enabled, disabled, cancelled and recovered, and what ends a settle wait, a bus integration, a stop bath and a
recovery (R179 to R181, R197, R199, R203, R207, R219, R261, R262, R276).
-/

namespace Sys2Proof.Machine

/-! ### What taking a packet leaves alone -/

theorem taken_srcChan (p : Packet) (s : State) (src : Source) (v : Nat) : srcChan (taken p s) src v = srcChan s src v := by
  simp only [srcChan, physChan, taken_ctx]

theorem taken_mo? (p : Packet) (s : State) (mo : Nat) : (taken p s).mo? mo = s.mo? mo := by
  rw [State.mo?, State.mo?, (taken_tells p s).mos]

section
variable {p : Packet} {s : State} {ch : Nat}

/-! ### ENABLE_CHANNEL (R181, R199, R207) -/

/-- What ENABLE_CHANNEL does with a channel that passes its checks. -/
def enableAnswer (p : Packet) (ch : Nat) (s : State) : Verdict :=
  let c := s.chan ch
  if c.stop.isSome then
    .reply (s.modChan ch fun c => { c with held := some { by_ := p.source, mode := byteAt p.params 1 } }) stDeferred 1 []
  else if c.state = .disabled && !c.settleWait then .wait (applyEnable ch (byteAt p.params 1) (some p) s)
  else okBody s (enableBody (chanCode c.state) 0)

theorem enableChannel_checked (named : byteAt p.params 0 < 64) (mapped : srcChan s p.source (byteAt p.params 0) = some ch)
    (mode : byteAt p.params 1 ≤ 4 ∨ byteAt p.params 1 = 0xFF) (reserved : zeroAt p.params 2 2 = true)
    (awake : powerBlocks s = false) (timed : timingsReady (devSettings (s.chan ch)) = true) :
    enableChannel p s = enableAnswer p ch s := by
  have listed : (decide (byteAt p.params 1 > 4) && decide (byteAt p.params 1 ≠ 0xFF)) = false := by
    rw [Bool.and_eq_false_imp, decide_eq_true_eq, decide_eq_false_iff_not]
    omega
  have ready : (!timingsReady (devSettings (s.chan ch))) = false := by rw [timed]; rfl
  exact (withChan_some named mapped).trans <| (badParam_false listed).trans <| (badParam_false (not_zeroAt reserved)).trans <|
    (refuseIf_false awake).trans <| refuseIf_false ready

theorem enableAnswer_disabled (free : (s.chan ch).stop = none) (disabled : (s.chan ch).state = .disabled)
    (settled : (s.chan ch).settleWait = false) : enableAnswer p ch s = .wait (applyEnable ch (byteAt p.params 1) (some p) s) := by
  simp [enableAnswer, free, disabled, settled]

theorem enableAnswer_enabled (free : (s.chan ch).stop = none)
    (enabled : (s.chan ch).state ≠ .disabled ∨ (s.chan ch).settleWait = true) :
    enableAnswer p ch s = okBody s (enableBody (chanCode (s.chan ch).state) 0) := by
  rcases enabled with other | settling
  · simp [enableAnswer, free, other]
  · simp [enableAnswer, free, settling]

theorem enableAnswer_stopping (stopping : (s.chan ch).stop.isSome = true) : enableAnswer p ch s
    = .reply (s.modChan ch fun c => { c with held := some { by_ := p.source, mode := byteAt p.params 1 } }) stDeferred 1 [] :=
  if_pos stopping

/-! ### DISABLE_CHANNEL (R179, R197, R203) -/

theorem disableChannel_named (named : byteAt p.params 0 < 64) (mapped : srcChan s p.source (byteAt p.params 0) = some ch)
    (reserved : zeroAt p.params 1 3 = true) : disableChannel p s = okDone (disableNow ch p.source s) :=
  (withChan_some named mapped).trans (badParam_false (not_zeroAt reserved))

section
variable {by_ : Source}

theorem disableNow_stopping (stopping : (s.chan ch).stop.isSome = true) (free : (s.chan ch).held = none) :
    disableNow ch by_ s = s.modChan ch fun c =>
      { c with stop := match c.stop with | some .power => some (.disable by_) | x => x } := by
  have none_held : (s.chan ch).held.isNone = true := by rw [free]; rfl
  exact (if_pos stopping).trans ((if_pos none_held).trans rfl)

section
variable (free : (s.chan ch).stop = none)
include free

theorem disableNow_running (running : (s.chan ch).state = .running) : disableNow ch by_ s = startStop ch (.disable by_) s := by
  simp [disableNow, free, running]

theorem disableNow_disabled (disabled : (s.chan ch).state = .disabled) (settled : (s.chan ch).settleWait = false) :
    disableNow ch by_ s = s := by
  simp [disableNow, free, disabled, settled]

theorem disableNow_settling (disabled : (s.chan ch).state = .disabled) (settling : (s.chan ch).settleWait = true) :
    disableNow ch by_ s = answerEnable ch 0 0 (s.modChan ch fun c => { c with settleWait := false }) := by
  simp only [disableNow, free, disabled, settling]
  rfl

/-- A channel that waits on its bus, or in bus-off, leaves at once (R197). -/
theorem disableNow_waiting (waiting : (s.chan ch).state = .integrating ∨ (s.chan ch).state = .exception
    ∨ (s.chan ch).state = .busOff ∨ (s.chan ch).state = .recovering) : disableNow ch by_ s = leaveAtOnce ch .disabled s := by
  rcases waiting with state | state | state | state <;> simp only [disableNow, free, state] <;> rfl

theorem disableNow_powerHeld (powerHeld : (s.chan ch).state = .powerHeld) :
    disableNow ch by_ s = restartSchedules ch
      (enterState ch .disabled (s.modChan ch fun c => { c with settleWait := false, wasBusOff := false })) := by
  simp only [disableNow, free, powerHeld]
  rfl

end

end

/-! ### CANCEL_TX (R219) -/

section
variable {o : Mo} (named : fieldAt p.params 0 2 < 0x4000) (reserved : zeroAt p.params 2 2 = true)
  (held : s.mo? (fieldAt p.params 0 2) = some o) (sends : o.tx = true)
include named reserved held sends

/-- What CANCEL_TX does with a transmit object (R219). -/
theorem cancelTx_checked : cancelTx p s =
    if !o.full then .reply s stTooLate 0 (cancelBody 3 0xF o.lastSof)
    else
      let s := discardStaged (fieldAt p.params 0 2) s
      if !o.latched then .reply (withdrawPending (fieldAt p.params 0 2) s) stOk 0 (cancelBody 0 (withdrawnResult o) 0)
      else
        let s := s.modChan o.channel fun c => { c with cancelled := true }
        if wonNow (s.chan o.channel) then
          .reply (countCancel o.channel true s) stTooLate 0 (cancelBody 2 0xF (s.chan o.channel).sof)
        else .wait (s.modChan o.channel fun c => { c with cancelling := c.cancelling ++ [p] }) := by
  have field : moField p 0 = fieldAt p.params 0 2 := Nat.mod_eq_of_lt named
  have transmit : (!o.tx) = false := by rw [sends]; rfl
  rw [← field] at held ⊢
  refine (badParam_false (decide_eq_false (Nat.not_le.2 named))).trans <| (badParam_false (not_zeroAt reserved)).trans ?_
  rw [held]
  exact refuseIf_false transmit

end

/-! ### RECOVER_BUS_OFF (R262, R276) -/

theorem recoverBusOff_start (named : byteAt p.params 0 < 64) (mapped : srcChan s p.source (byteAt p.params 0) = some ch)
    (action : byteAt p.params 1 = 0) (policy : byteAt p.params 2 = 0) (count : byteAt p.params 3 = 0) (delay : fieldAt p.params 4 2 = 0)
    (reserved : zeroAt p.params 6 2 = true) (off : (s.chan ch).state = .busOff ∨ (s.chan ch).state = .recovering) :
    let t := startRecovery ch s
    recoverBusOff p s = okBody t (recoverBody (t.chan ch) (t.chan ch).recovStart) := by
  intro t
  refine (withChan_some named mapped).trans ?_
  simp only [action, policy, count, delay, not_zeroAt reserved]
  rcases off with state | state <;> simp only [state] <;> rfl

theorem recoverBusOff_policy (named : byteAt p.params 0 < 64) (mapped : srcChan s p.source (byteAt p.params 0) = some ch)
    (action : byteAt p.params 1 = 1) (policy : byteAt p.params 2 < 16) (reserved : zeroAt p.params 6 2 = true) :
    let t := s.modChan ch fun c => { c with
      auto := bitOf (byteAt p.params 2) 0, freeze := BitVec.ofNat 3 (byteAt p.params 2 / 2)
      aloneCount := if byteAt p.params 3 = 0 then 16 else byteAt p.params 3, autoDelay := fieldAt p.params 4 2
      busOffAt := if c.state = .busOff then s.time.clk else c.busOffAt }
    recoverBusOff p s = okBody t (recoverBody (t.chan ch) 0) := by
  intro t
  refine (withChan_some named mapped).trans ?_
  simp only [action, not_zeroAt reserved, decide_eq_false (Nat.not_le.2 policy)]
  rfl

end

/-! ### What ends a wait (R197, R203, R207, R261, R262) -/

section
variable {ch : Nat} {s : State}

/-- Bus integration takes a waiting channel to RUNNING (R197). -/
theorem integrate_waiting (waiting : (s.chan ch).state = .integrating ∨ (s.chan ch).state = .exception) :
    integrate ch s = enterState ch .running (takeSettings ch (s.modChan ch fun c => { c with bus := .idle, stretch := false })) := by
  rcases waiting with state | state <;> simp only [integrate, state]

/-- A stop bath ends with its bus quiet (R203). -/
theorem stopEnds_quiet (stopping : (s.chan ch).state = .stopping) (calm : quiet (s.chan ch) = true) :
    stopEnds ch s = endStop ch (enterIntermission ch .idle s) := by
  rw [quiet] at calm
  rw [stopEnds, if_neg (by rw [stopping]; decide)]
  split at calm
  case h_5 => exact nomatch calm
  all_goals next bus => simp only [bus]

theorem execStbnSettleEnd_settled {ch : Fin 64} (settling : (s.chan ch.val).settleWait = true)
    (ready : s.isReady (bankBit ch.val) = true) (awake : powerBlocks s = false) :
    let t := enterIntegrating ch.val (reachClk (s.chan ch.val).settleEnd s)
    let u := answerEnable ch.val 1 (stampNow t) t
    execStbnSettleEnd ch s = next (if (s.chan ch.val).state = .powerHeld then restartSchedules ch.val u else u) := by
  intro t u
  rw [execStbnSettleEnd, if_neg (by rw [settling, ready, awake]; decide)]
  simp only [beq_iff_eq]
  rfl

end

end Sys2Proof.Machine

open Sys2Proof Sys2Proof.Machine

/-- Settles O31: the commands by their handlers, the events by what each does in the state it meets. -/
theorem channelControlCompletes : Obligations.ChannelControlCompletes := by
  refine ⟨fun p s ch accepts named mapped mode reserved => ?_, fun p s ch accepts named mapped reserved => ?_,
    fun p s o accepts named reserved held sends => ?_,
    fun p s ch accepts named mapped action policy count delay reserved off => ?_,
    fun p s ch accepts named mapped action policy reserved => ?_, fun ch s settling ready awake => ?_, fun ch s waiting => ?_,
    fun ch s stopping calm => ?_, fun ch s off auto => ?_, fun ch s recovering more => ?_, fun ch s recovering last => ?_⟩
  · rw [← taken_srcChan p s] at mapped
    intro u c q awake timed
    have run := enableChannel_checked (p := q) named mapped mode reserved awake timed
    exact ⟨fun free disabled settled => waited_of_accepts accepts (run.trans (enableAnswer_disabled free disabled settled)),
      fun free enabled => answered_of_accepts accepts (run.trans (enableAnswer_enabled free enabled)),
      fun stopping => answered_of_accepts accepts (run.trans (enableAnswer_stopping stopping))⟩
  · rw [← taken_srcChan p s] at mapped
    exact ⟨answered_of_accepts accepts (disableChannel_named named mapped reserved),
      fun free => disableNow_running free, fun free => disableNow_disabled free, fun free => disableNow_settling free,
      fun free => disableNow_waiting free, fun free => disableNow_powerHeld free, disableNow_stopping⟩
  · rw [← taken_mo? p s] at held
    intro u
    have run := cancelTx_checked (p := { p with opcode := specCancelTx.opcode }) named reserved held sends
    refine ⟨fun empty => answered_of_accepts accepts (run.trans (if_pos (by rw [empty]; rfl))), fun full free => ?_,
      fun full latched => ?_⟩
    · exact answered_of_accepts accepts (run.trans ((if_neg (by rw [full]; decide)).trans (if_pos (by rw [free]; rfl))))
    · have run := run.trans ((if_neg (by rw [full]; decide)).trans (if_neg (by rw [latched]; decide)))
      exact ⟨fun won => answered_of_accepts accepts (run.trans (if_pos won)),
        fun open_ => waited_of_accepts accepts (run.trans (if_neg (by rw [open_]; decide)))⟩
  · rw [← taken_srcChan p s] at mapped
    exact answered_of_accepts accepts (recoverBusOff_start named mapped action policy count delay reserved off)
  · rw [← taken_srcChan p s] at mapped
    exact answered_of_accepts accepts (recoverBusOff_policy named mapped action policy reserved)
  · exact execStbnSettleEnd_settled settling ready awake
  · exact congrArg next (integrate_waiting waiting)
  · exact congrArg (fun t => next (switchLate ch.val t)) (stopEnds_quiet stopping calm)
  · exact if_neg (by rw [off, auto]; decide)
  · exact if_neg (by rw [recovering, decide_eq_false (Nat.not_le.2 more)]; decide)
  · exact if_neg (by rw [recovering, decide_eq_false (Nat.not_lt.2 last)]; decide)

end

