-- ==== Sys2Proof/Proofs/FramesOnTheBus.lean ====
section
/-!
PROOFS. Candidates are latched, frames win or lose, are received and distributed, succeed or fail, and a quiet bus goes idle (R175,
R176, R206, R209, R213, R214, R219, R320, R332, R334, R445).
-/

namespace Sys2Proof.Machine

theorem tmod_congr {α : Type} {n i : Nat} {v : Vector α n} {f g : α → α} (d : α) (same : f (tget v i d) = g (tget v i d)) :
    tmod v i f = tmod v i g := by
  by_cases inside : i < n
  · have entry : tget v i d = v[i] := by simp [tget, inside]
    rw [tmod, tmod, dif_pos inside, dif_pos inside, ← entry, same]
  · rw [tmod, tmod, dif_neg inside, dif_neg inside]

/-- Two changes of a channel that agree on the channel as it is leave one state. -/
theorem State.modChan_congr {s : State} {ch : Nat} {f g : Chan → Chan} (same : f (s.chan ch) = g (s.chan ch)) :
    s.modChan ch f = s.modChan ch g := by
  rw [State.modChan, State.modChan, tmod_congr _ same]

section
variable {ch : Nat} {s : State}

/-! ### Latch and arbitration (R209, R213, R214, R219) -/

theorem latchCandidate_running {stamp mo : Nat} {parity : Bool} {o : Mo} (running : (s.chan ch).state = .running)
    (free : (s.chan ch).latched = none) (waits : (candidate s ch).isSome = true)
    (sends : sendsFrames ((endErrorFrame ch s).chan ch).mode = true) (first : candidate (endErrorFrame ch s) ch = some (mo, o)) :
    latchCandidate ch stamp parity s = if parity then parityDrop 5 (endErrorFrame ch s)
      else latch ch mo (max 1 (max stamp (endErrorFrame ch s).now)) (endErrorFrame ch s) := by
  have goes : ¬ ((s.chan ch).state != .running || (s.chan ch).latched.isSome || (candidate s ch).isNone) = true := by
    rw [running, free, Option.isNone_eq_false_iff.2 waits]
    decide
  refine (if_neg goes).trans ((if_neg (by rw [sends]; decide)).trans ?_)
  simp only [first]

section
variable (on : onBus (s.chan ch) = true) (latched : (s.chan ch).latched.isSome = true) (open_ : wonNow (s.chan ch) = false)
  (sends : sendsFrames (s.chan ch).mode = true)
include on latched open_ sends

theorem arbitrates :
    ¬ (!onBus (s.chan ch) || (s.chan ch).latched.isNone || wonNow (s.chan ch) || !sendsFrames (s.chan ch).mode) = true := by
  rw [on, Option.isNone_eq_false_iff.2 latched, open_, sends]
  decide

theorem loseArbitration_latched : loseArbitration ch s = loseFrame ch (driveSof ch s) :=
  if_neg (arbitrates on latched open_ sends)

theorem winArbitration_latched :
    let won := (driveSof ch s).modChan ch fun c => { c with bus := .sending true }
    let told := forEach (won.chan ch).cancelling (fun _ s => countCancel ch true s) won
    winArbitration ch s = answerCancels ch stTooLate 2 0xF (told.chan ch).sof told :=
  if_neg (arbitrates on latched open_ sends)

end

/-! ### Headers (R28, R213, R320) -/

theorem frameStarts_receiving (receiving : sendingNow (s.chan ch) = false) :
    frameStarts ch s = switchLate ch (endErrorFrame ch s) := if_neg (by rw [receiving]; decide)

theorem foreignStart_eq (bound : ch < 64) (edges : List (Nat × Nat)) (s : State) :
    let stamp := claimStamp (captureEdges edges (s.chan ch))
    foreignStart ch edges s = (reachTime stamp (s.modChan ch (captureEdges edges))).modChan ch fun c =>
      { c with bus := .receiving, wasTx := false, lastSof := stamp } := by
  rw [foreignStart, State.chan_modChan s ch _ bound]

section
variable {h : Hdr} {edges : List (Nat × Nat)} {dec : Nat} (on : onBus (s.chan ch) = true) (free : (s.chan ch).rx = none)
include on free

theorem not_taking : ¬ (!onBus (s.chan ch) || (s.chan ch).rx.isSome) = true := by
  rw [on, free]
  decide

theorem headerDone_own {m : Nat} {o : Mo} (own : ownReception (s.chan ch) = true) (latched : (s.chan ch).latched = some m)
    (held : s.mo? m = some o) :
    headerDone ch h edges dec s = takeHeader ch (ownHeader (s.chan ch) o) (s.chan ch).sof dec s := by
  refine (if_neg (not_taking on free)).trans ((if_pos own).trans ?_)
  simp only [latched, Option.bind_some, held]

theorem headerDone_foreign (foreign : ownReception (s.chan ch) = false)
    (listens : foreignReception ((endErrorFrame ch s).chan ch) = true) :
    let w := foreignStart ch edges (endErrorFrame ch s)
    headerDone ch h edges dec s =
      if fastHidden (w.chan ch) h = true ∨ (w.chan ch).cur.formats.testBit (fmtCode h.fmt) = false then w
      else takeHeader ch h (claimStamp (w.chan ch)) dec w := by
  intro w
  refine (if_neg (not_taking on free)).trans ((if_neg (by rw [foreign]; decide)).trans
    ((if_neg (by rw [listens]; decide)).trans ?_))
  simp only [Bool.or_eq_true, Bool.not_eq_true', w]

end

/-! ### Receive valid (R213, R332, R334) -/

section
variable {len : Nat} {data : List Byte} {parity : Bool} {r : RxHeader} (on : onBus (s.chan ch) = true) (held : (s.chan ch).rx = some r)
include on held

theorem frameValid_foreign (foreign : ownReception (s.chan ch) = false) (receiving : (s.chan ch).bus = .receiving)
    (fits : lenOk r.hdr.fmt (rxLen r.hdr len) = true) :
    let l := rxLen r.hdr len
    let f : Frame := { hdr := r.hdr, len := l, data := padTo (payloadLen r.hdr l) data, stamp := r.stamp }
    let t := countJudged ch r (foreignValid ch r.hdr l r.stamp s)
    frameValid ch len data parity s = (enterIntermission ch .intermission
      (if parity then parityDrop 0 ((claimPayload ch l t).modChan ch fun c => { c with rx := none, chqClaim := 0 })
        else commitPacket ch f t)).modChan ch fun c => { c with wasTx := false } := by
  intro l f t
  simp only [frameValid, held, foreign]
  exact (if_neg (by rw [on, receiving]; exact ne_true_of_eq_false (congrArg Bool.not fits))).trans (if_neg Bool.false_ne_true)

theorem frameValid_own {m : Nat} {o : Mo} (own : ownReception (s.chan ch) = true) (latched : (s.chan ch).latched = some m)
    (object : s.mo? m = some o) (fits : lenOk r.hdr.fmt (frontOf o).record.len = true) :
    let l := (frontOf o).record.len
    let f : Frame := { hdr := r.hdr, len := l, data := padTo (payloadLen r.hdr l) (frontOf o).data, stamp := r.stamp }
    let t := countJudged ch r s
    frameValid ch len data parity s =
      if parity then parityDrop 0 ((claimPayload ch l t).modChan ch fun c => { c with rx := none, chqClaim := 0 })
      else commitPacket ch f t := by
  intro l f t
  simp only [frameValid, held, own, latched, Option.bind_some, object, Option.map_some, Option.getD_some]
  exact (if_neg (by rw [on]; exact ne_true_of_eq_false (congrArg Bool.not fits))).trans (if_pos trivial)

end

/-! ### Distribution (R21, R334) -/

section
variable {k : RxPacket} {rest : List RxPacket} (head : (s.chan ch).chq = k :: rest)
include head

theorem distribute_head : distribute ch s = (forEach (ringCopies k.dests)
      (fun d s => pushRx d.1 { ring := d.2.1, record := rxRecord ch k.frame d.2.2, data := k.frame.data } s)
      (forEach k.dests (fun d s => match d with | .object m f => copyToObject ch k.frame m f s | _ => s) s)).modChan ch
    fun c => { c with chq := rest } := by
  simp only [distribute, head] <;> rfl

theorem dropCopy_head : dropCopy ch s = parityDrop 0 (s.modChan ch fun c => { c with chq := rest }) := by
  rw [dropCopy, if_neg (by rw [head]; exact Bool.false_ne_true)]
  exact congrArg (parityDrop 0) (State.modChan_congr (by rw [head]; rfl))

end

/-! ### End of an own frame (R213, R214, R295) -/

theorem emitFrame_chan (s : State) : (emitFrame ch s).chan ch = s.chan ch := by
  rw [emitFrame]
  split
  next => rfl
  next =>
    dsimp only
    split
    · rfl
    · rfl

section
variable (bound : ch < 64)
include bound

theorem noteTdcv_mode (tdcv : Option (Fin 128)) (s : State) : ((noteTdcv ch tdcv s).chan ch).mode = (s.chan ch).mode := by
  rw [noteTdcv]
  split
  next => rfl
  next =>
    split
    next => rfl
    next =>
      split
      next => rfl
      all_goals next => rw [State.chan_modChan _ _ _ bound]

theorem noteStart_mode (s : State) : ((noteStart ch s).chan ch).mode = (s.chan ch).mode := by
  rw [noteStart]
  split
  next => rfl
  next =>
    split
    · rw [State.chan_modChan _ _ _ bound]
      rfl
    · rfl

/-- The frame goes out and its success is counted (R193, R213, R232). -/
def countSuccess (ch : Nat) (tdcv : Option (Fin 128)) (s : State) : State :=
  (emitFrame ch (noteStart ch (noteTdcv ch tdcv s))).modChan ch fun c =>
    { c with counters := { c.counters with txOk := inc32 c.counters.txOk } }

theorem countSuccess_mode (tdcv : Option (Fin 128)) (s : State) :
    ((countSuccess ch tdcv s).chan ch).mode = (s.chan ch).mode := by
  rw [countSuccess, State.chan_modChan _ ch _ bound, emitFrame_chan, noteStart_mode bound, noteTdcv_mode bound]

end

theorem sendSuccess_won (bound : ch < 64) {acked : Bool} {tdcv : Option (Fin 128)} {mo : Nat} (on : onBus (s.chan ch) = true)
    (won : wonNow (s.chan ch) = true) (latched : (s.chan ch).latched = some mo) (heard : acked = true ∨ (s.chan ch).mode ≠ 0)
    (measured : (measuredTdcf (s.chan ch) s).isSome = true → (tdcvOf (s.chan ch) s tdcv).isSome = true) :
    let a := countSuccess ch tdcv s
    let b := if acked = true ∨ (a.chan ch).mode ≠ 4 then changeCounters ch tecSuccess (ackSeen ch a) else a
    sendSuccess ch acked tdcv s
      = ownEnds ch (endSent ch (judgeUndeclaredOwn ch mo (s.chan ch).sof (filmOwn ch 2 b))) := by
  intro a b
  have succeeds : (!onBus (s.chan ch) || !wonNow (s.chan ch) || (!acked && decide ((s.chan ch).mode = 0))
      || ((measuredTdcf (s.chan ch) s).isSome && (tdcvOf (s.chan ch) s tdcv).isNone)) = false := by
    have counted : (!acked && decide ((s.chan ch).mode = 0)) = false := by
      rcases heard with rfl | other
      · rfl
      · rw [decide_eq_false other, Bool.and_false]
    rw [on, won, counted, lacks_eq_false measured]
    rfl
  have falls : (if acked || (s.chan ch).mode != 4 then changeCounters ch tecSuccess (ackSeen ch a) else a) = b := by
    simp only [Bool.or_eq_true, bne_iff_ne, b, a, countSuccess_mode bound]
  rw [← falls]
  refine (if_neg (by rw [succeeds]; decide)).trans ?_
  simp only [latched]
  rfl

theorem failAttempt_sending {tdcv : Option (Fin 128)} (on : onBus (s.chan ch) = true) (sending : sendingNow (s.chan ch) = true)
    (struck : (s.chan ch).stretch = true) : failAttempt ch tdcv s = ownEnds ch (endFailed ch (noteTdcv ch tdcv s)) :=
  if_neg (by rw [on, sending, struck]; decide)

end

/-! ### Routed frames (R445) -/

theorem execRoutedFrameIntake_head {n : Fin 4} {r : Routed} {rest : List Routed} {parity : Bool} {s : State}
    (head : tget s.fq.rtq n.val [] = r :: rest) (ready : s.isReady 3 = true) :
    let t := cellsFreed n.val { s with fq := { s.fq with rtq := tmod s.fq.rtq n.val fun _ => rest } }
    execRoutedFrameIntake n parity s = next (if parity then parityDrop r.path t else intakeRouted r t) := by
  simp only [execRoutedFrameIntake, head, ready]
  cases parity <;> rfl

/-! ### Bus idle (R175, R176, R206) -/

theorem execBusIdle_quiet {ch : Fin 64} {s : State} (on : onBus (s.chan ch.val) = true)
    (sends : ∀ won, (s.chan ch.val).bus ≠ .sending won) (receives : (s.chan ch.val).bus ≠ .receiving)
    (integrates : (s.chan ch.val).bus ≠ .integration) :
    execBusIdle ch s = next (switchIdle ch.val (switchLate ch.val
      ((enterIntermission ch.val .idle s).modChan ch.val fun c => { c with wasTx := false }))) := by
  rw [execBusIdle, if_neg (by rw [on]; decide)]
  split
  next won bus => exact absurd bus (sends won)
  next bus => exact absurd bus receives
  next bus => exact absurd bus integrates
  next => rfl

theorem execIdleLimitExpiry_tied {c ch : Fin 64} {a : Armed} {s : State} (armed : (s.ctx c.val).armed = some a) (tied : a.when_ = 2)
    (listed : a.channels.contains ch.val = true) : execIdleLimitExpiry c ch s =
    let u := reachClk a.limitAt s
    if busIdleNow u ch.val then next (switchChan c.val ch.val false u)
    else if a.late.any fun n => n % 64 == ch.val then next u
    else next (u.modCtx c.val fun x => { x with armed := x.armed.map fun a => { a with late := a.late ++ [ch.val] } }) := by
  have waits : ¬ (a.when_ != 2 || !a.channels.contains ch.val) = true := by
    rw [tied, listed]
    decide
  simp only [execIdleLimitExpiry, armed]
  exact if_neg waits

end Sys2Proof.Machine

open Sys2Proof Sys2Proof.Machine

/-- Settles O32: each row by what it does in the state it meets. -/
theorem framesOnTheBusComplete : Obligations.FramesOnTheBusComplete := by
  refine ⟨fun ch stamp parity s mo o running free waits => ?_, fun ch s => ?_, fun ch h edges dec parity s receiving => ?_,
    fun ch h edges dec s on free => ?_, fun ch len data parity r s on held foreign receiving fits => ?_,
    fun ch len data parity r m o s on held own latched object fits => ?_, fun ch k rest parity s head ready => ?_,
    fun ch acked tdcv mo s on won latched heard measured => ?_, fun ch tdcv s on sending struck => ?_, fun ch e => rfl,
    fun n r rest parity s head ready => ?_, fun ch s on sends receives integrates => ?_, fun c ch a s armed tied listed => ?_⟩
  · intro u sends first
    exact congrArg next (latchCandidate_running running free waits sends first)
  · intro u on latched open_ sends d lost won told
    exact ⟨congrArg next (loseArbitration_latched on latched open_ sends),
      congrArg next (winArbitration_latched on latched open_ sends)⟩
  · intro x
    exact congrArg (fun t => next (if parity then dropStamp ch.val (headerDone ch.val h edges dec.val t) else
      headerDone ch.val h edges dec.val t)) (frameStarts_receiving receiving)
  · refine ⟨fun m o own latched held => headerDone_own on free own latched held, fun foreign listens => ?_⟩
    have run := headerDone_foreign (h := h) (edges := edges) (dec := dec) on free foreign listens
    rwa [foreignStart_eq ch.isLt] at run
  · exact congrArg next (frameValid_foreign on held foreign receiving fits)
  · exact congrArg next (frameValid_own on held own latched object fits)
  · refine congrArg next ((if_neg (by rw [ready]; decide)).trans ?_)
    cases parity with
    | true => exact dropCopy_head head
    | false => exact distribute_head head
  · exact congrArg next (sendSuccess_won ch.isLt on won latched heard measured)
  · exact congrArg next (failAttempt_sending on sending struck)
  · exact execRoutedFrameIntake_head head ready
  · exact execBusIdle_quiet on sends receives integrates
  · have run := execIdleLimitExpiry_tied armed tied listed
    exact ⟨fun idle => run.trans (if_pos idle), fun busy fresh =>
      run.trans ((if_neg (by rw [busy]; decide)).trans (if_neg (by rw [fresh]; decide)))⟩

end

