-- ==== Sys2Proof/Proofs/ErrorFigures.lean ====
section
/-!
PROOFS. What of a channel its bus errors count, and that no operation a bus error reaches moves it otherwise: neither events, causes
and records, nor the end of an attempt or of a reception, nor leaving the bus (R214, R254, R259, R268, R271).
-/

namespace Sys2Proof.Machine

/-! ### What of a channel a bus error counts -/

/-- The channel with only what bus errors count and what would clear it, a held enable; the rest as after a reset. -/
def errorFigures (c : Chan) : Chan :=
  { chanReset with
    tec := c.tec, recErr := c.recErr, held := c.held, lastErr := c.lastErr, lastField := c.lastField
    counters := { chanCountersReset with
      bitErr := c.counters.bitErr, stuffErr := c.counters.stuffErr, formErr := c.counters.formErr, crcErr := c.counters.crcErr
      ackErr := c.counters.ackErr, tdcFail := c.counters.tdcFail, errEvents := c.counters.errEvents } }

/-- The channel with also what decides how an error counts: its mode and whether a stretch is open. -/
def errorStanding (c : Chan) : Chan := { errorFigures c with mode := c.mode, stretch := c.stretch }

/-- Channel `ch` of `s` stands as `x`. -/
def Stands (ch : Nat) (x : Chan) (s : State) : Prop := errorStanding (s.chan ch) = errorStanding x

/-- Channel `ch` of `s` has counted what `x` has. -/
def Counted (ch : Nat) (x : Chan) (s : State) : Prop := errorFigures (s.chan ch) = errorFigures x

/-- What a change of a channel does to how it stands depends on how it stood alone. -/
def ReadsStanding (f : Chan → Chan) : Prop := ∀ c, errorStanding (f c) = errorStanding (f (errorStanding c))

theorem modChan_chan_or (s : State) (n ch : Nat) (f : Chan → Chan) :
    (s.modChan n f).chan ch = f (s.chan ch) ∨ (s.modChan n f).chan ch = s.chan ch := by
  by_cases same : n = ch
  · subst same
    by_cases inside : n < 64
    · exact .inl (State.chan_modChan s n f inside)
    · exact .inr (by simp only [State.chan, State.modChan, tget, tmod, dif_neg inside])
  · exact .inr (State.chan_modChan_ne s n ch f same)

section
variable {ch : Nat} {x : Chan} {s u : State}

theorem Stands.refl (ch : Nat) (s : State) : Stands ch (s.chan ch) s := rfl

theorem Stands.eq (h : Stands ch x s) : errorStanding (s.chan ch) = errorStanding x := h

theorem Counted.eq (h : Counted ch x s) : errorFigures (s.chan ch) = errorFigures x := h

theorem Stands.counted (h : Stands ch x s) : Counted ch x s := (congrArg errorFigures h.eq :)

theorem Stands.tells (t : Tells s u) (h : Stands ch x s) : Stands ch x u :=
  (congrArg errorStanding (t.chans ch)).trans h

theorem Stands.sameChans (same : u.chans = s.chans) (h : Stands ch x s) : Stands ch x u := by
  rwa [Stands, State.chan, same]

theorem Stands.modChan (h : Stands ch x s) (n : Nat) {f : Chan → Chan} (same : ∀ c, errorStanding (f c) = errorStanding c) :
    Stands ch x (s.modChan n f) := by
  rcases modChan_chan_or s n ch f with run | run
  · exact (congrArg errorStanding run).trans ((same _).trans h)
  · exact (congrArg errorStanding run).trans h

theorem Stands.changed (h : Stands ch x s) (bound : ch < 64) {f : Chan → Chan} (reads : ReadsStanding f) :
    Stands ch (f x) (s.modChan ch f) := by
  rw [Stands, State.chan_modChan s ch f bound, reads, h, ← reads]

theorem Stands.mode (h : Stands ch x s) : (s.chan ch).mode = x.mode := (congrArg Chan.mode h.eq :)

theorem Stands.stretch (h : Stands ch x s) : (s.chan ch).stretch = x.stretch := (congrArg Chan.stretch h.eq :)

theorem Counted.after (h : Counted ch x s) (k : Stands ch (s.chan ch) u) : Counted ch x u := k.counted.trans h

theorem Counted.modChan (h : Counted ch x s) (n : Nat) {f : Chan → Chan}
    (same : errorFigures (f (s.chan ch)) = errorFigures (s.chan ch)) : Counted ch x (s.modChan n f) := by
  rcases modChan_chan_or s n ch f with run | run
  · exact (congrArg errorFigures run).trans (same.trans h)
  · exact (congrArg errorFigures run).trans h

theorem Counted.reads {α : Type} {g : Chan → α} (h : Counted ch x s) (same : ∀ c, g (errorFigures c) = g c) :
    g (s.chan ch) = g x := by
  rw [← same, h.eq, same]

theorem Counted.held (h : Counted ch x s) : (s.chan ch).held = x.held := h.reads (g := Chan.held) fun _ => rfl

theorem Counted.tec (h : Counted ch x s) : (s.chan ch).tec = x.tec := h.reads (g := Chan.tec) fun _ => rfl

theorem Counted.recErr (h : Counted ch x s) : (s.chan ch).recErr = x.recErr := h.reads (g := Chan.recErr) fun _ => rfl

theorem forEach_stands {α : Type} {l : List α} {f : α → State → State} (same : ∀ a t, Stands ch x t → Stands ch x (f a t))
    (h : Stands ch x s) : Stands ch x (forEach l f s) := by
  unfold forEach
  induction l generalizing s with
  | nil => exact h
  | cons a l ih => exact ih (same a s h)

theorem ite_stands {p : Prop} [Decidable p] {t : State} (h : Stands ch x s) (k : Stands ch x t) :
    Stands ch x (if p then s else t) := by
  split
  · exact h
  · exact k

/-! ### Events, records and causes (R198, R267, R273, R275, R420) -/

theorem raiseEvent_stands (c code : Nat) (data : List Byte) (h : Stands ch x s) : Stands ch x (raiseEvent c code data s) :=
  h.tells (raiseEvent_tells c code data (Tells.refl s))

theorem chanEvent_stands (n code : Nat) (rest : List Byte) (h : Stands ch x s) : Stands ch x (chanEvent n code rest s) :=
  forEach_stands (fun _ _ => raiseEvent_stands _ _ _) h

theorem filmPut_chans (r : FilmRecord) (s : State) : (filmPut r s).chans = s.chans := by
  unfold filmPut
  split
  · rfl
  · rfl

theorem filmPut_stands (r : FilmRecord) (h : Stands ch x s) : Stands ch x (filmPut r s) := h.sameChans (filmPut_chans r s)

theorem filmRecord_stands (n kind info data stamp : Nat) (h : Stands ch x s) :
    Stands ch x (filmRecord n kind info data stamp s) :=
  ite_stands (filmPut_stands _ h) h

theorem filmFreeze_stands (cause n : Nat) (h : Stands ch x s) : Stands ch x (filmFreeze cause n s) :=
  ite_stands (h.sameChans rfl) (raiseEvent_stands _ _ _ (h.sameChans rfl))

theorem setAlone_stands (n : Nat) (v : Bool) (h : Stands ch x s) : Stands ch x (setAlone n v s) :=
  ite_stands h (chanEvent_stands _ _ _ ((filmRecord_stands _ _ _ _ _ h).modChan n fun _ => rfl))

theorem enterState_stands (n : Nat) (new : ChanState) (h : Stands ch x s) : Stands ch x (enterState n new s) := by
  have moved := h.modChan n (f := fun c => { c with state := new }) fun _ => rfl
  have told : ∀ r rest, Stands ch x (chanEvent n 0x0401 rest (if (filmRecords (s.chan n).state || filmRecords new) = true
      then filmPut r (s.modChan n fun c => { c with state := new }) else s.modChan n fun c => { c with state := new })) :=
    fun r rest => chanEvent_stands n 0x0401 rest (ite_stands (filmPut_stands r moved) moved)
  exact ite_stands h (ite_stands (setAlone_stands _ _ (told _ _)) (told _ _))

theorem latchCause_stands (n bit record stamp : Nat) (h : Stands ch x s) : Stands ch x (latchCause n bit record stamp s) :=
  ite_stands h (forEach_stands (fun _ _ => raiseEvent_stands _ _ _) (h.sameChans rfl))

theorem judgeMode_stands (n : Nat) (h : Stands ch x s) : Stands ch x (judgeMode n s) :=
  ite_stands (latchCause_stands _ _ _ _ h) h

theorem budgetEvent_stands (n : Nat) (h : Stands ch x s) : Stands ch x (budgetEvent n s) :=
  ite_stands (latchCause_stands _ _ _ _ (ite_stands (h.sameChans rfl) (h.sameChans rfl))) (h.sameChans rfl)

/-! ### The latched object and its attempt (R214, R219, R294, R295) -/

theorem completeTx_stands (owner : Nat) (ring : Option Nat) (cmpl always : Bool) (r : Rec) (h : Stands ch x s) :
    Stands ch x (completeTx owner ring cmpl always r s) := by
  unfold completeTx
  split
  · exact h
  · exact ite_stands (h.tells (pushRx_tells _ _ (Tells.refl s))) h

theorem dropLive_stands (mo : Nat) (h : Stands ch x s) : Stands ch x (dropLive mo s) := by
  unfold dropLive
  split
  · exact h
  · exact h.sameChans rfl

theorem failRelease_stands (mo : Nat) (h : Stands ch x s) : Stands ch x (failRelease mo s) := by
  unfold failRelease
  split
  · exact h
  · exact h.sameChans rfl

theorem promoteRelease_stands (mo : Nat) (h : Stands ch x s) : Stands ch x (promoteRelease mo s) := by
  unfold promoteRelease
  split
  · exact h
  · exact h.sameChans rfl

theorem completeLive_stands (mo result : Nat) (h : Stands ch x s) : Stands ch x (completeLive mo result s) := by
  unfold completeLive
  split
  · exact h
  · refine completeTx_stands _ _ _ _ _ (Stands.sameChans (s := ite _ _ _) rfl (ite_stands ?_ (dropLive_stands mo ?_)))
    · exact h.sameChans rfl
    · exact h.sameChans rfl

theorem endLive_stands (mo : Nat) (h : Stands ch x s) : Stands ch x (endLive mo s) := by
  unfold endLive
  split
  · exact h
  · exact ite_stands (promoteRelease_stands _ (h.sameChans rfl)) (ite_stands (h.sameChans rfl) (h.sameChans rfl))

theorem unlatch_stands (mo : Nat) (h : Stands ch x s) : Stands ch x (unlatch mo s) := h.sameChans rfl

theorem clearLatch_stands (n : Nat) (h : Stands ch x s) : Stands ch x (clearLatch n s) := h.modChan n fun _ => rfl

theorem countCancel_stands (n : Nat) (late : Bool) (h : Stands ch x s) : Stands ch x (countCancel n late s) :=
  h.modChan n fun _ => by cases late <;> rfl

theorem countCancels_stands (n : Nat) (h : Stands ch x s) : Stands ch x (countCancels n s) :=
  forEach_stands (l := List.range _) (fun _ _ => countCancel_stands n false) h

theorem answerCancels_stands (n status outcome result stamp : Nat) (h : Stands ch x s) :
    Stands ch x (answerCancels n status outcome result stamp s) :=
  forEach_stands (fun p t k => k.tells (replyTaken_tells p _ _ _ (Tells.refl t))) (h.modChan n fun _ => rfl)

theorem noteStart_stands (n : Nat) (h : Stands ch x s) : Stands ch x (noteStart n s) := by
  unfold noteStart
  dsimp only
  split
  · exact h
  · exact ite_stands (Stands.modChan (h.sameChans rfl) n fun _ => rfl) h

theorem reachTime_stands (v : Nat) (h : Stands ch x s) : Stands ch x (reachTime v s) := ite_stands (h.sameChans rfl) h

theorem driveSof_stands (n : Nat) (h : Stands ch x s) : Stands ch x (driveSof n s) :=
  ite_stands h ((noteStart_stands n (reachTime_stands _ h)).modChan n fun _ => rfl)

theorem endUnsent_stands (n : Nat) (h : Stands ch x s) : Stands ch x (endUnsent n s) := by
  unfold endUnsent
  split
  · exact h
  · split
    · exact clearLatch_stands n h
    · refine ite_stands ?_ (ite_stands (clearLatch_stands n ?_) (clearLatch_stands n (unlatch_stands _ h)))
      · exact clearLatch_stands n (answerCancels_stands _ _ _ _ _ (endLive_stands _ (completeLive_stands _ _ (countCancels_stands n h))))
      · exact endLive_stands _ (completeLive_stands _ _ (ite_stands (failRelease_stands _ h) h))

theorem endFailed_stands (n : Nat) (h : Stands ch x s) : Stands ch x (endFailed n s) := by
  unfold endFailed
  split
  · exact h
  · have started := noteStart_stands n h
    dsimp only
    split
    · exact clearLatch_stands n started
    · refine ite_stands ?_ (ite_stands (clearLatch_stands n ?_) (clearLatch_stands n (unlatch_stands _ ?_)))
      · exact clearLatch_stands n (answerCancels_stands _ _ _ _ _ (endLive_stands _ (completeLive_stands _ _
          (ite_stands started (countCancels_stands n started)))))
      · exact endLive_stands _ (completeLive_stands _ _ (ite_stands (failRelease_stands _ started) started))
      · exact Stands.modChan (started.sameChans rfl) n fun _ => rfl

theorem filmOwn_stands (n kind : Nat) (h : Stands ch x s) : Stands ch x (filmOwn n kind s) := by
  unfold filmOwn
  split
  · exact h
  · split
    · exact h
    · exact filmRecord_stands _ _ _ _ _ h

theorem loseFrame_stands (n : Nat) (h : Stands ch x s) : Stands ch x (loseFrame n s) :=
  endUnsent_stands n (filmOwn_stands n 3 (h.modChan n fun _ => rfl))

theorem endAtEdge_stands (n : Nat) (h : Stands ch x s) : Stands ch x (endAtEdge n s) := by
  have driven := ite_stands (p := sofDriven s n = true) (driveSof_stands n h) h
  exact ite_stands (endFailed_stands n driven) (ite_stands (loseFrame_stands n driven) (endUnsent_stands n driven))

theorem noteTdcv_stands (n : Nat) (v : Option (Fin 128)) (h : Stands ch x s) : Stands ch x (noteTdcv n v s) := by
  unfold noteTdcv
  split
  next => exact h
  next =>
    split
    next => exact h
    next =>
      split
      next => exact h
      all_goals next => exact h.modChan n fun _ => rfl

/-! ### Reception (R332, R341, R342) -/

theorem rewindRx_stands (n : Nat) (h : Stands ch x s) : Stands ch x (rewindRx n s) := by
  unfold rewindRx
  split
  · exact h
  · have freed := h.modChan n (f := fun c => { c with rx := none, chqClaim := 0 }) fun _ => rfl
    exact ite_stands freed ((freed.tells (modStat_tells _ _ (Tells.refl _))).tells (fcAt_tells _ _ _ (Tells.refl _)))

theorem claimCell_stands (n : Nat) (h : Stands ch x s) : Stands ch x (claimCell n s) := by
  refine Stands.tells (countHwm_tells _ (Tells.refl _)) ?_
  exact h.modChan n fun _ => rfl

theorem claimCells_stands (n first k : Nat) (h : Stands ch x s) : Stands ch x (claimCells n first k s).1 := by
  induction k generalizing s with
  | zero => exact h
  | succ k ih =>
    unfold claimCells
    split
    · exact ih (claimCell_stands n h)
    · refine Stands.tells (dropPacket_tells _ _ _ _ _ (Tells.refl _)) ?_
      exact h.modChan n fun _ => rfl

theorem claimPayload_stands (n bytes : Nat) (h : Stands ch x s) : Stands ch x (claimPayload n bytes s) := by
  unfold claimPayload
  split
  · exact h
  · have claimed := fun first k => claimCells_stands n first k h
    exact ite_stands h (ite_stands ((claimed _ _).modChan n fun _ => rfl) (claimed _ _))

/-! ### Acknowledges (R265, R266, R267) -/

theorem ackSeen_stands (n : Nat) (h : Stands ch x s) : Stands ch x (ackSeen n s) :=
  setAlone_stands n false (h.modChan n fun _ => rfl)

theorem ackMissed_stands (n : Nat) (h : Stands ch x s) : Stands ch x (ackMissed n s) := by
  have missed := h.modChan n (f := fun c => { c with ackRun := c.ackRun + 1 }) fun _ => rfl
  refine ite_stands (ite_stands (filmFreeze_stands _ _ ?_) ?_) missed
  all_goals exact latchCause_stands _ _ _ _ (setAlone_stands n true (missed.modChan n fun _ => rfl))

/-! ### Leaving the bus (R18, R205, R259, R260) -/

theorem enterBusOffState_stands (n : Nat) (h : Stands ch x s) : Stands ch x (enterBusOffState n s) :=
  enterState_stands n .busOff (h.modChan n fun _ => rfl)

theorem takeSettings_counted (n : Nat) (h : Counted ch x s) : Counted ch x (takeSettings n s) := by
  unfold takeSettings
  dsimp only
  split
  · exact h
  · exact (h.modChan n rfl).after (judgeMode_stands n (Stands.refl _ _))

theorem leaveBus_counted (n : Nat) (phase : BusPhase) (h : Counted ch x s) : Counted ch x (leaveBus n phase s) :=
  takeSettings_counted n ((h.after (rewindRx_stands n (endAtEdge_stands n (Stands.refl _ _)))).modChan n rfl)

section
variable (free : x.held = none)
include free

theorem endStop_counted (h : Counted ch x s) : Counted ch x (endStop ch s) := by
  have left := h.after (rewindRx_stands ch (endUnsent_stands ch (Stands.refl ch s)))
  have ended := left.modChan ch (f := fun c => { c with stop := none, held := none })
    (by simp only [errorFigures, left.held, free])
  unfold endStop
  dsimp only
  split
  · exact ended.after (raiseEvent_stands _ _ _ (enterState_stands ch .powerHeld ((Stands.refl _ _).modChan ch fun _ => rfl)))
  · rw [h.held, free]
    exact ended.after (raiseEvent_stands _ _ _ (enterState_stands ch .disabled (Stands.refl _ _)))
  · exact ended

theorem goBusOff_counted (h : Counted ch x s) : Counted ch x (goBusOff ch s) := by
  have failed := h.after (rewindRx_stands ch (endFailed_stands ch (Stands.refl ch s)))
  have off := takeSettings_counted ch (failed.modChan ch (f := fun c => { c with
    bus := .idle, stretch := false, counters := { c.counters with busOffs := inc32 c.counters.busOffs } }) rfl)
  have stops : ∀ p u, Counted ch x u → Counted ch x (if p = true then endStop ch u else u) := by
    intro p u k
    split
    · exact endStop_counted free k
    · exact k
  refine stops _ _ (off.after (ite_stands (filmFreeze_stands 1 ch ?_) ?_))
  all_goals exact latchCause_stands _ _ _ _ (enterBusOffState_stands ch (Stands.refl _ _))

theorem judgeBusOff_counted (h : Counted ch x s) : Counted ch x (judgeBusOff ch s) := by
  unfold judgeBusOff
  split
  · exact goBusOff_counted free h
  · exact h

end

end

end Sys2Proof.Machine

end

