-- ==== Sys2Proof/Proofs/BusErrors.lean ====
section
/-!
PROOFS. A bus error moves TEC and REC by its row of R254, counts its class and opens one error event; overload frames, lost fast
frames, protocol exceptions and the end of a filmstrip drain (R196, R200, R201, R254, R255, R268, R269, R271, R273, R275).
-/

namespace Sys2Proof.Machine

section
variable {ch : Nat} {x : Chan} {s : State}

/-! ### The row's change, the class and the event (R254, R268, R269, R271) -/

/-- A stretch opens: the event is counted unless one was open, and in LOOP_INT never (R268, R269). -/
def eventOpened (c : Chan) : Chan :=
  { c with stretch := true, counters := { c.counters with
      errEvents := if c.stretch || c.mode == 3 then c.counters.errEvents else inc32 c.counters.errEvents } }

/-- The class, the code and the field of an error are noted (R271, R272). -/
def classNoted (code : ErrCode) (field : FieldCode) (ed : Bool) (c : Chan) : Chan :=
  { c with counters := countError code ed c.counters, lastErr := code, lastField := field }

/-- The row's change as transmitter or as receiver, where the mode counts (R200, R254). -/
def rowTaken (row : ErrRow) (tx : Bool) (c : Chan) : Chan := if countsErrors c.mode then rowChange row tx c else c

/-- REC falls for a frame that the receiver had acknowledged before the error (R254). -/
def fallTaken (code : ErrCode) (field : FieldCode) (acked : Bool) (c : Chan) : Chan :=
  if receivedBefore c code field acked then recSuccess c else c

/-- What an error leaves of how the channel stood: the row alone for one of no class, else the fall of REC, the row, the class and
the event (R254, R268, R271). -/
def errorTaken (code : ErrCode) (field : FieldCode) (ed : Bool) (row : ErrRow) (acked : Bool) (c : Chan) : Chan :=
  if code = .none then rowTaken row (asTransmitter c) c
  else eventOpened (classNoted code field ed (rowTaken row (asTransmitter c) (fallTaken code field acked c)))

/-- A row moves TEC and REC and nothing else. -/
theorem rowTaken_eq (row : ErrRow) (tx : Bool) (c : Chan) :
    rowTaken row tx c = { c with tec := (rowTaken row tx c).tec, recErr := (rowTaken row tx c).recErr } := by
  unfold rowTaken
  split
  · cases row <;> cases tx <;> rfl
  · rfl

theorem rowTaken_noted (code : ErrCode) (field : FieldCode) (ed : Bool) (row : ErrRow) (tx : Bool) (c : Chan) :
    rowTaken row tx (eventOpened (classNoted code field ed c)) = eventOpened (classNoted code field ed (rowTaken row tx c)) := by
  have mode : (eventOpened (classNoted code field ed c)).mode = c.mode := rfl
  unfold rowTaken
  rw [mode]
  split
  · cases row <;> cases tx <;> rfl
  · rfl

theorem errorTaken_held (code : ErrCode) (field : FieldCode) (ed : Bool) (row : ErrRow) (acked : Bool) (c : Chan) :
    (errorTaken code field ed row acked c).held = c.held := by
  have fallen : (fallTaken code field acked c).held = c.held := by
    unfold fallTaken
    split <;> rfl
  unfold errorTaken
  split
  · rw [rowTaken_eq]
  · rw [rowTaken_eq]
    exact fallen

theorem readsStanding_recSuccess : ReadsStanding recSuccess := fun _ => rfl

theorem readsStanding_rowChange (row : ErrRow) (tx : Bool) : ReadsStanding (rowChange row tx) := by
  intro c
  cases row <;> cases tx <;> rfl

section
variable (bound : ch < 64)
include bound

theorem changeCounters_stands {f : Chan → Chan} (reads : ReadsStanding f) (h : Stands ch x s) :
    Stands ch (f x) (changeCounters ch f s) := by
  have moved := h.changed bound reads
  refine ite_stands moved (ite_stands (filmFreeze_stands 3 ch ?_) ?_)
  all_goals exact chanEvent_stands _ _ _ (filmRecord_stands _ _ _ _ _ (ite_stands (moved.modChan ch fun _ => rfl) moved))

theorem errorEvent_stands (h : Stands ch x s) : Stands ch (eventOpened x) (errorEvent ch s) := by
  unfold errorEvent
  rw [h.stretch]
  split
  next open_ =>
    have same : eventOpened x = x := by
      simp only [eventOpened, open_, Bool.true_or, if_true]
      rw [← open_]
    rwa [same]
  next closed =>
    have opened := h.changed bound (f := fun c => { c with stretch := true }) fun _ => rfl
    dsimp only
    rw [opened.mode]
    split
    next loop =>
      have silent : eventOpened x = { x with stretch := true } := by simp only [eventOpened, loop, Bool.or_true, if_true]
      rwa [silent]
    next other =>
      have counts : eventOpened x =
          { x with stretch := true, counters := { x.counters with errEvents := inc32 x.counters.errEvents } } := by
        simp only [eventOpened, closed, other, Bool.or_self, if_false, Bool.false_eq_true]
      rw [counts]
      exact budgetEvent_stands ch (opened.changed bound
        (f := fun c => { c with counters := { c.counters with errEvents := inc32 c.counters.errEvents } }) fun _ => rfl)

theorem rowTaken_stands {row : ErrRow} {tx : Bool} (h : Stands ch x s) : Stands ch (rowTaken row tx x)
    (if countsErrors (s.chan ch).mode then changeCounters ch (rowChange row tx) s else s) := by
  unfold rowTaken
  rw [h.mode]
  split
  · exact changeCounters_stands bound (readsStanding_rowChange row tx) h
  · exact h

theorem recordError_stands (code : ErrCode) (field : FieldCode) (ed : Bool) (row : ErrRow) (tx : Bool) (h : Stands ch x s) :
    Stands ch (rowTaken row tx (eventOpened (classNoted code field ed x))) (recordError ch code field ed row tx s) := by
  have noted := h.changed bound (f := fun c => { c with
    counters := countError code ed c.counters, lastErrAt := stampNow s, lastErr := code, lastField := field
    cellBad := c.cellBad || code == .cell }) fun _ => by cases code <;> cases ed <;> rfl
  have event := errorEvent_stands bound (x := classNoted code field ed x) (s := s.modChan ch _) noted
  exact filmRecord_stands _ _ _ _ _ (rowTaken_stands bound event)

end

/-! ### A bus error (R254, R259, R268) -/

theorem fallTaken_stands (bound : ch < 64) (code : ErrCode) (field : FieldCode) (acked : Bool) (h : Stands ch x s) :
    Stands ch (fallTaken code field acked x) (if receivedBefore x code field acked then changeCounters ch recSuccess s else s) := by
  unfold fallTaken
  split
  · exact changeCounters_stands bound readsStanding_recSuccess h
  · exact h

theorem busError_counted (bound : ch < 64) (free : (s.chan ch).held = none) (code : ErrCode) (field : FieldCode) (ed : Bool)
    (row : ErrRow) (acked : Bool) (bytes : Nat) (tdcv : Option (Fin 128)) :
    Counted ch (errorTaken code field ed row acked (s.chan ch)) (busError ch code field ed row acked bytes tdcv s) := by
  have held := (errorTaken_held code field ed row acked (s.chan ch)).trans free
  by_cases classless : code = .none
  · subst classless
    exact judgeBusOff_counted held (rowTaken_stands bound (Stands.refl ch s)).counted
  · have classed : ¬ (code == .none) = true := by rwa [beq_iff_eq]
    rw [errorTaken, if_neg classless, ← rowTaken_noted] at held ⊢
    unfold busError
    rw [if_neg classed]
    refine judgeBusOff_counted held ?_
    have noted := ite_stands (p := (code == .tdc) = true) (Stands.refl ch s) (noteTdcv_stands ch tdcv (Stands.refl ch s))
    have seen := ite_stands (p := ackBefore (s.chan ch) code field acked = true) (ackSeen_stands ch noted) noted
    have struck := recordError_stands bound code field ed row (asTransmitter (s.chan ch))
      (fallTaken_stands bound code field acked seen)
    have left := rewindRx_stands ch (claimPayload_stands ch bytes
      (ite_stands (p := (code == .ack) = true) (ackMissed_stands ch struck) struck))
    split
    · exact leaveBus_counted ch .integration left.counted
    · split
      · exact left.counted
      · exact left.counted.modChan ch rfl

/-! ### What the outcome reads (R254, R269, R271) -/

section
variable {code : ErrCode} {field : FieldCode} {ed : Bool} {row : ErrRow} {acked : Bool} {c : Chan}

theorem rowTaken_counts {tx : Bool} (counts : countsErrors c.mode = true) : rowTaken row tx c = rowChange row tx c := if_pos counts

theorem rowTaken_still {tx : Bool} (still : countsErrors c.mode = false) : rowTaken row tx c = c :=
  if_neg (by rw [still]; exact Bool.false_ne_true)

theorem noted_tec : (eventOpened (classNoted code field ed c)).tec = c.tec := rfl

theorem noted_recErr : (eventOpened (classNoted code field ed c)).recErr = c.recErr := rfl

theorem not_received_of_still (still : countsErrors c.mode = false) : receivedBefore c code field acked = false := by
  rw [receivedBefore, still, Bool.and_false, Bool.false_and]

theorem receiver_of_received (received : receivedBefore c code field acked = true) : asTransmitter c = false := by
  simp only [receivedBefore, Bool.and_eq_true, Bool.not_eq_true'] at received
  obtain ⟨⟨⟨⟨⟨receiver, -⟩, -⟩, -⟩, -⟩, -⟩ := received
  exact receiver

/-- With no frame acknowledged before it, an error takes the row's change from TEC and REC as they stood (R254). -/
theorem errorTaken_unacknowledged (fresh : code = .none ∨ receivedBefore c code field acked = false) :
    (errorTaken code field ed row acked c).tec = (rowTaken row (asTransmitter c) c).tec
      ∧ (errorTaken code field ed row acked c).recErr = (rowTaken row (asTransmitter c) c).recErr := by
  by_cases classless : code = .none
  · rw [errorTaken, if_pos classless]
    exact ⟨rfl, rfl⟩
  · have stays : fallTaken code field acked c = c :=
      if_neg (by rw [fresh.resolve_left classless]; exact Bool.false_ne_true)
    rw [errorTaken, if_neg classless, stays]
    exact ⟨noted_tec, noted_recErr⟩

/-- A receiver that had acknowledged the frame takes the row's change from REC as the frame had left it (R254). -/
theorem errorTaken_acknowledged (classed : code ≠ .none) (received : receivedBefore c code field acked = true)
    (counts : countsErrors c.mode = true) :
    (errorTaken code field ed row acked c).tec = c.tec
      ∧ (errorTaken code field ed row acked c).recErr = (rowChange row false (recSuccess c)).recErr := by
  have falls : fallTaken code field acked c = recSuccess c := if_pos received
  rw [errorTaken, if_neg classed, falls, receiver_of_received received, rowTaken_counts (c := recSuccess c) counts]
  refine ⟨?_, noted_recErr⟩
  rw [noted_tec]
  cases row <;> rfl

/-- An error of a class leaves the counters with the class and the event counted, and its code and field (R269, R271, R272). -/
theorem errorTaken_class (classed : code ≠ .none) :
    let k := errorTaken code field ed row acked c
    k.lastErr = code ∧ k.lastField = field ∧ k.counters = { countError code ed c.counters with
      errEvents := if c.stretch || c.mode == 3 then c.counters.errEvents else inc32 c.counters.errEvents } := by
  have events : ∀ k, (countError code ed k).errEvents = k.errEvents := fun k => by cases code <;> cases ed <;> rfl
  have fallen : ∃ e, fallTaken code field acked c = { c with recErr := e } := by
    unfold fallTaken
    split
    · exact ⟨_, rfl⟩
    · exact ⟨c.recErr, rfl⟩
  obtain ⟨e, fallen⟩ := fallen
  rw [errorTaken, if_neg classed, fallen, rowTaken_eq]
  refine ⟨rfl, rfl, ?_⟩
  simp only [eventOpened, classNoted, events]

end

section
variable {code : ErrCode} {field : FieldCode} {ed : Bool} {row : ErrRow} {acked : Bool} {c : Chan}
  (h : Counted ch (errorTaken code field ed row acked c) s)
include h

theorem counted_row (counts : countsErrors c.mode = true) (fresh : code = .none ∨ receivedBefore c code field acked = false) :
    (s.chan ch).tec = (rowChange row (asTransmitter c) c).tec ∧ (s.chan ch).recErr = (rowChange row (asTransmitter c) c).recErr := by
  obtain ⟨tec, recErr⟩ := errorTaken_unacknowledged (ed := ed) (row := row) fresh
  rw [rowTaken_counts counts] at tec recErr
  exact ⟨h.tec.trans tec, h.recErr.trans recErr⟩

theorem counted_acknowledged (counts : countsErrors c.mode = true) (classed : code ≠ .none)
    (received : receivedBefore c code field acked = true) :
    (s.chan ch).tec = c.tec ∧ (s.chan ch).recErr = (rowChange row false (recSuccess c)).recErr := by
  obtain ⟨tec, recErr⟩ := errorTaken_acknowledged (ed := ed) (row := row) classed received counts
  exact ⟨h.tec.trans tec, h.recErr.trans recErr⟩

theorem counted_still (still : countsErrors c.mode = false) : (s.chan ch).tec = c.tec ∧ (s.chan ch).recErr = c.recErr := by
  obtain ⟨tec, recErr⟩ := errorTaken_unacknowledged (code := code) (ed := ed) (row := row)
    (.inr (not_received_of_still (field := field) (acked := acked) still))
  rw [rowTaken_still still] at tec recErr
  exact ⟨h.tec.trans tec, h.recErr.trans recErr⟩

theorem counted_event (classed : code ≠ .none) : (s.chan ch).counters.errEvents
      = (if c.stretch || c.mode == 3 then c.counters.errEvents else inc32 c.counters.errEvents)
    ∧ (s.chan ch).lastErr = code ∧ (s.chan ch).lastField = field := by
  obtain ⟨lastErr, lastField, counters⟩ := errorTaken_class (field := field) (ed := ed) (row := row) (acked := acked) (c := c) classed
  refine ⟨(h.reads (g := fun c => c.counters.errEvents) fun _ => rfl).trans ?_, (h.reads (g := Chan.lastErr) fun _ => rfl).trans lastErr,
    (h.reads (g := Chan.lastField) fun _ => rfl).trans lastField⟩
  rw [counters]

/-- A class counter that bus errors move, `g`, is as the class leaves it (R271). -/
theorem counted_class {g : ChanCounters → Nat} (reads : ∀ c : Chan, g (errorFigures c).counters = g c.counters)
    (blind : ∀ k n, g { k with errEvents := n } = g k) (classed : code ≠ .none) :
    g (s.chan ch).counters = g (countError code ed c.counters) := by
  obtain ⟨-, -, counters⟩ := errorTaken_class (field := field) (ed := ed) (row := row) (acked := acked) (c := c) classed
  refine (h.reads (g := fun c => g c.counters) reads).trans ?_
  rw [counters, blind]

theorem counted_classes :
    (code = .crc → (s.chan ch).counters.crcErr = inc32 c.counters.crcErr)
      ∧ (code = .stuff → (s.chan ch).counters.stuffErr = inc32 c.counters.stuffErr)
      ∧ (code = .bit → (s.chan ch).counters.bitErr = inc32 c.counters.bitErr)
      ∧ (code = .form → (s.chan ch).counters.formErr = inc32 c.counters.formErr)
      ∧ (code = .ack → (s.chan ch).counters.ackErr = inc32 c.counters.ackErr)
      ∧ (code = .tdc → (s.chan ch).counters.tdcFail = inc32 c.counters.tdcFail) := by
  refine ⟨?_, ?_, ?_, ?_, ?_, ?_⟩ <;> rintro rfl
  · exact (counted_class (g := (·.crcErr)) h (fun _ => rfl) (fun _ _ => rfl) nofun).trans (by cases ed <;> rfl)
  · exact (counted_class (g := (·.stuffErr)) h (fun _ => rfl) (fun _ _ => rfl) nofun).trans (by cases ed <;> rfl)
  · exact (counted_class (g := (·.bitErr)) h (fun _ => rfl) (fun _ _ => rfl) nofun).trans (by cases ed <;> rfl)
  · exact (counted_class (g := (·.formErr)) h (fun _ => rfl) (fun _ _ => rfl) nofun).trans (by cases ed <;> rfl)
  · exact (counted_class (g := (·.ackErr)) h (fun _ => rfl) (fun _ _ => rfl) nofun).trans (by cases ed <;> rfl)
  · exact (counted_class (g := (·.tdcFail)) h (fun _ => rfl) (fun _ _ => rfl) nofun).trans (by cases ed <;> rfl)

end

/-! ### The rows of the table (R254, R255) -/

theorem rowChange_figures (tx : Bool) (c : Chan) :
    (rowChange .detected tx c).tec = (if tx then c.tec + 8 else c.tec)
      ∧ (rowChange .detected tx c).recErr = (if tx then c.recErr else min 255 (c.recErr + 1))
      ∧ (∀ row, row = .flagBit ∨ row = .dominantRun → (rowChange row tx c).tec = (if tx then c.tec + 8 else c.tec)
        ∧ (rowChange row tx c).recErr = (if tx then c.recErr else min 255 (c.recErr + 8)))
      ∧ (rowChange .dominantAfterFlag tx c).tec = c.tec
      ∧ (rowChange .dominantAfterFlag tx c).recErr = (if tx then c.recErr else min 255 (c.recErr + 8)) := by
  cases tx with
  | true => exact ⟨rfl, rfl, fun row both => by rcases both with rfl | rfl <;> exact ⟨rfl, rfl⟩, rfl, rfl⟩
  | false =>
    have stops : ∀ n, (addRec n c).recErr = min 255 (c.recErr + n) := fun n => Nat.min_comm _ _
    exact ⟨rfl, stops 1, fun row both => by rcases both with rfl | rfl <;> exact ⟨rfl, stops 8⟩, rfl, stops 8⟩

/-! ### The commands (R196, R200, R201, R269, R274) -/

/-- Where the error is struck: a frame that it strikes has started. -/
def struckAt (ch : Nat) (field : FieldCode) (s : State) : State :=
  if field = .errOvl ∨ field = .interSuspend then s else frameStarts ch s

theorem execBusErrorDetected_eq (ch : Fin 64) (code : ErrCode) (field : FieldCode) (ed : Bool) (row : ErrRow) (acked : Bool)
    (bytes : Fin 2049) (tdcv : Option (Fin 128)) (edges : List (Nat × Nat)) (s : State) :
    execBusErrorDetected ch code field ed row acked bytes tdcv edges s
      = next (errorSeen ch.val code field ed row acked bytes.val tdcv edges (struckAt ch.val field s)) := by
  simp only [execBusErrorDetected, struckAt, Bool.or_eq_true, beq_iff_eq]

section
variable {code : ErrCode} {field : FieldCode} {ed : Bool} {row : ErrRow} {acked : Bool} {bytes : Nat} {tdcv : Option (Fin 128)}
  {edges : List (Nat × Nat)}

theorem errorSeen_fits :
    let d := startForError ch field edges (driveForError ch field s)
    errorFits code field ed row (d.chan ch) d = true →
      errorSeen ch code field ed row acked bytes tdcv edges s = busError ch code field ed row acked bytes tdcv d :=
  fun fits => if_pos fits

theorem errorSeen_unfit :
    let d := startForError ch field edges (driveForError ch field s)
    errorFits code field ed row (d.chan ch) d = false →
      errorSeen ch code field ed row acked bytes tdcv edges s = watchedError ch s :=
  fun unfit => if_neg (by rw [unfit]; exact Bool.false_ne_true)

/-- In LOOP_EXT an acknowledge error fits nowhere (R200). -/
theorem errorFits_ack_loop {c : Chan} (loop : c.mode = 4) : errorFits .ack field ed row c s = false := by
  simp [errorFits, loop]

/-- Off the bus no error strikes a frame: it is watched alone (R196, R269). -/
theorem errorSeen_offBus (off : onBus (s.chan ch) = false) :
    errorSeen ch code field ed row acked bytes tdcv edges s = watchedError ch s := by
  have driven : driveForError ch field s = s := if_neg (by simp [off])
  have starts : startForError ch field edges s = s := if_pos (by simp [off])
  refine errorSeen_unfit ?_
  rw [driven, starts]
  simp [errorFits, off]

theorem watchedError_running (running : (s.chan ch).state = .running) (free : (s.chan ch).bus ≠ .integration) :
    watchedError ch s = s := by
  simp [watchedError, running, free]

theorem watchedError_waiting (waiting : (s.chan ch).state = .integrating ∨ (s.chan ch).state = .exception) :
    watchedError ch s = errorEvent ch s := by
  rcases waiting with state | state <;> simp [watchedError, state]

theorem onBus_of_waiting (waiting : (s.chan ch).state = .integrating ∨ (s.chan ch).state = .exception) :
    onBus (s.chan ch) = false := by
  rcases waiting with state | state <;> rw [onBus, state] <;> rfl

end

theorem execOverloadFrameSeen_listening {ch : Fin 64} {s : State} (on : onBus (s.chan ch.val) = true)
    (bus : (s.chan ch.val).mode ≠ 3) (receives : sendingNow (s.chan ch.val) = false) :
    execOverloadFrameSeen ch s = next ((endErrorFrame ch.val (filmRecord ch.val 5 0 0 (stampNow s) s)).modChan ch.val fun c =>
      if quiet c && c.bus != .integration then { c with bus := .errorFrame } else c) :=
  if_neg (by simp [on, bus, receives])

/-- Another node's frame has started where RXD has shown its edges (R28, R213). -/
theorem foreignStart_edges (ch : Nat) (edges : List (Nat × Nat)) (s : State) :
    (if edges.isEmpty then s else foreignStart ch edges s) = if edges = [] then s else foreignStart ch edges s := by
  simp only [List.isEmpty_iff]

theorem ite_isSome {α β : Type} (o : Option α) (a b : β) : (if o.isSome then a else b) = if o = none then b else a := by
  cases o <;> rfl

theorem fastLost_hidden {edges : List (Nat × Nat)} :
    let u := endErrorFrame ch s
    onBus (u.chan ch) = true → (u.chan ch).bus ≠ .integration → (u.chan ch).mode = 1 → (u.chan ch).cur.xcvr.fast = true →
      let x := (if edges = [] then u else foreignStart ch edges u).modChan ch fun c =>
        { c with counters := { c.counters with fastLost := inc32 c.counters.fastLost } }
      fastLost ch edges s = leaveBus ch .integration
        (if (x.chan ch).rx = none then modStat (.chq, ch) (fun t => { t with rewinds := inc32 t.rewinds }) x else x) := by
  intro u on free mode fast x
  refine (if_neg (by simp [u, on, free, mode, fast])).trans ?_
  rw [foreignStart_edges]
  exact congrArg (leaveBus ch .integration) (ite_isSome _ _ _)

theorem protocolException_enabled {edges : List (Nat × Nat)} :
    let u := endErrorFrame ch s
    (u.chan ch).state = .running → (u.chan ch).bus ≠ .integration → (u.chan ch).cur.options.testBit 0 = true →
      (u.chan ch).mode ≠ 3 → sendingNow (u.chan ch) = false →
      protocolException ch edges s = enterState ch .exception (leaveBus ch .integration
        ((if edges = [] then u else foreignStart ch edges u).modChan ch fun c =>
          { c with counters := { c.counters with pexCount := inc32 c.counters.pexCount } })) := by
  intro u running free enabled mode receives
  refine (if_neg (by simp [u, running, free, enabled, mode, receives])).trans ?_
  rw [foreignStart_edges]

theorem execFilmstripDrainEnd_frozen (frozen : s.film.frozen = true) :
    let d := filmDrainAll s.film.records.length s
    execFilmstripDrainEnd s = next { raiseEvent 0 0x0406 (le 4 d.film.delivered ++ le 4 d.film.ignored) d with
      film := { records := [], frozen := false, delivered := 0, ignored := 0 } } :=
  if_neg (by rw [frozen]; decide)

end

end Sys2Proof.Machine

open Sys2Proof Sys2Proof.Machine

/-- Settles O33: what a bus error counts is followed through every operation it reaches, and each other command by its one branch. -/
theorem busErrorsFollowTheTable : Obligations.BusErrorsFollowTheTable := by
  refine ⟨fun ch code field ed row acked bytes tdcv edges s => ?_, fun tx c => ?_, fun c n => ?_, fun ch s on bus receives => ?_,
    fun ch edges s => ?_, fun ch edges s => ?_, fun s frozen => ?_⟩
  · intro u d c t
    have seen := execBusErrorDetected_eq ch code field ed row acked bytes tdcv edges s
    refine ⟨fun fits => seen.trans (congrArg next (errorSeen_fits fits)), fun _ free => ?_, fun running loop on ack => ?_,
      fun waiting => ?_⟩
    · have settled : Counted ch.val (errorTaken code field ed row acked c) t :=
        (busError_counted ch.isLt free code field ed row acked bytes.val tdcv).after
          ((Stands.refl _ _).tells (fcSettle_tells (Tells.refl _)))
      exact ⟨counted_row settled, counted_acknowledged settled, counted_still settled, counted_event settled, counted_classes settled⟩
    · subst ack
      exact seen.trans (congrArg next ((errorSeen_unfit (errorFits_ack_loop loop)).trans (watchedError_running running on)))
    · exact seen.trans (congrArg next ((errorSeen_offBus (onBus_of_waiting waiting)).trans (watchedError_waiting waiting)))
  · obtain ⟨tec, recErr, flag, after, afterRec⟩ := rowChange_figures tx c
    exact ⟨tec, recErr, flag, after, afterRec, rfl, rfl, rfl, rfl, rfl, rfl⟩
  · exact ⟨Nat.min_le_right _ _, rfl, rfl, rfl⟩
  · exact execOverloadFrameSeen_listening on bus receives
  · intro u on free mode fast x
    exact congrArg next (fastLost_hidden on free mode fast)
  · intro u running free enabled mode receives
    exact congrArg next (protocolException_enabled running free enabled mode receives)
  · exact execFilmstripDrainEnd_frozen frozen

end

