-- ==== Sys2Proof/Proofs/NumberedTables.lean ====
section
/-!
PROOFS. The numbered tables stay in their one canonical form along every step (R278, R286, R367, R390, R400, R430, R431, R433).
-/

namespace Sys2Proof.Machine

/-- The command queue bears on no table. -/
theorem TablesRising.requeue {s : State} (rises : TablesRising s) (rest : List Instr) : TablesRising { s with pending := rest } :=
  ⟨rises.mos, rises.schedules, rises.records, rises.routes, rises.pdus, rises.sigs⟩

/-- What an idle cycle does keeps what `Keeps` says. -/
theorem idleCycle_keeps (s : State) : Keeps s (fcSettle (filmDrainOne (passCycles 1 s))) :=
  fcSettle_keeps (filmDrainOne_keeps (passCycles_keeps 1 (Keeps.refl s)))

/-- A step keeps the tables rising: taking the front command off the queue leaves them alone, and what runs keeps them. -/
theorem step_keeps_tablesRising {s t : State} (rises : TablesRising s) (e : step s = .next t) : TablesRising t := by
  cases h : s.pending with
  | nil =>
    cases (step_idle h).symm.trans e
    exact (idleCycle_keeps s).tables rises
  | cons c rest =>
    obtain ⟨u, ran, keeps⟩ := exec_keepsRun c { s with pending := rest }
    cases ran.symm.trans ((step_cons h).symm.trans e)
    exact keeps.tables (rises.requeue rest)

end Sys2Proof.Machine

open Sys2Proof Sys2Proof.Machine

/-- Settles O4: a command keeps the tables rising, a reset of the whole device among them, and so does an idle cycle. -/
theorem everyStepKeepsTheTablesCanonical : Obligations.EveryStepKeepsTheTablesCanonical :=
  fun _ _ => step_keeps_tablesRising

end

