-- ==== Sys2Proof/Proofs/MessageObjects.lean ====
section
/-!
PROOFS. Message objects are allocated, configured and freed through the latent set, and read (R281, R282, R285, R297, R300, R302 to
R306).
-/

namespace Sys2Proof.Machine

section
variable {p : Packet} {s : State}

/-! ### ALLOC_MO (R281, R282, R285, R303) -/

theorem maxlenFault_eq_false {tx : Bool} {fmts len : Nat} (listed : if tx then txMaxlenOk fmts len = true else len = 0) :
    (if tx then !txMaxlenOk fmts len else len != 0) = false := by
  cases tx with
  | true => exact congrArg not listed
  | false => exact bne_eq_false_iff_eq.2 listed

/-- The fields of ALLOC_MO are in range (R285, R303). -/
structure AllocInRange (p : Packet) : Prop where
  number : (bitOf (fieldAt p.params 0 2) 14 || (bitOf (fieldAt p.params 0 2) 15 && fieldAt p.params 0 2 % 0x4000 != 0)) = false
  direction : byteAt p.params 2 ≤ 1
  formats : fmtsOk (byteAt p.params 2 == 1) (byteAt p.params 3) = true
  maxlen : if byteAt p.params 2 == 1 then txMaxlenOk (byteAt p.params 3) (fieldAt p.params 4 2) = true else fieldAt p.params 4 2 = 0
  reserved : zeroAt p.params 6 2 = true

theorem allocMo_placed {mo base max : Nat} (range : AllocInRange p)
    (width : (if byteAt p.params 2 == 1 then fieldAt p.params 4 2 else rxMaxlen (byteAt p.params 3)) = max)
    (free : bitOf (fieldAt p.params 0 2) 15 = true ∨ moTaken s (fieldAt p.params 0 2 % 0x4000) = false)
    (objects : objectUse s (stageCtx p) + 1 ≤ quotaOf s (stageCtx p) 1)
    (cells : cellUse s (stageCtx p) + 2 * bufCells max ≤ quotaOf s (stageCtx p) 2)
    (picked : moPick s (bitOf (fieldAt p.params 0 2) 15) (fieldAt p.params 0 2 % 0x4000) = some mo)
    (placed : placeRun s.pool (stageCtx p) (2 * bufCells max) (usedRuns s) = some base) :
    allocMo p s = bundleOpen s p (stage p [.alloc mo (byteAt p.params 2 == 1) (byteAt p.params 3) max (bufCells max) base] s
      (le 2 mo ++ le 1 (bufCells max) ++ zeros 1 ++ le 4 base)) := by
  obtain ⟨number, direction, formats, maxlen, reserved⟩ := range
  have untaken : (!bitOf (fieldAt p.params 0 2) 15 && moTaken s (fieldAt p.params 0 2 % 0x4000)) = false :=
    Bool.and_eq_false_iff.2 (free.imp (congrArg not) id)
  simp only [allocMo, width, badParam_false number, badParam_false (decide_eq_false (Nat.not_lt.2 direction)),
    badParam_false (congrArg not formats), badParam_false (maxlenFault_eq_false maxlen), badParam_false (not_zeroAt reserved),
    refuseIf_false untaken, refuseIf_false (decide_eq_false (Nat.not_lt.2 objects)),
    refuseIf_false (decide_eq_false (Nat.not_lt.2 cells)), picked, placed]

/-! ### CONFIG_MO (R286, R297, R302, R304) -/

theorem moField_eq {off : Nat} (named : fieldAt p.params off 2 < 0x4000) : moField p off = fieldAt p.params off 2 :=
  Nat.mod_eq_of_lt named

/-- An object that is the sender's own and is not being freed passes the check of ownership. -/
theorem owned_eq_false {o : Mo} {x : Nat} (own : o.owner = x) (kept : o.freeing = false) :
    (decide (o.owner ≠ x) || o.freeing) = false := by
  rw [kept, decide_eq_false (not_not_intro own)]
  rfl

theorem acceptance_eq_false {o : Mo} {af : Nat} (meant : af = 0 ∨ (o.tx = true ∧ moFormat o = .xl)) :
    (af != 0 && !(o.tx && moFormat o == .xl)) = false := by
  rcases meant with rfl | ⟨sends, xl⟩
  · rfl
  · rw [sends, xl]
    exact Bool.and_false _

theorem configMoCmd_own {ch : Nat} {o : Mo} (named : fieldAt p.params 0 2 < 0x4000) (channel : byteAt p.params 2 < 64)
    (mapped : srcChan s p.source (byteAt p.params 2) = some ch) (found : (stagedFor p s).mo? (fieldAt p.params 0 2) = some o)
    (flags : flagsReserved o (byteAt p.params 3) = false)
    (ident : fieldAt p.params 4 4 &&& moIdentBits o (byteAt p.params 3) = fieldAt p.params 4 4)
    (meant : fieldAt p.params 8 4 = 0 ∨ (o.tx = true ∧ moFormat o = .xl)) (own : o.owner = stageCtx p) (kept : o.freeing = false)
    (sound : configMoFault s (stagedFor p s) (stageCtx p) (fieldAt p.params 0 2) ch (byteAt p.params 3) o = none) :
    configMoCmd p s = bundleOpen s p (stage p
      [.config (fieldAt p.params 0 2) ch (byteAt p.params 3) (fieldAt p.params 4 4) (fieldAt p.params 8 4)] s []) := by
  simp only [configMoCmd, moField_eq named, found, withChan_some channel mapped, badParam_false (decide_eq_false (Nat.not_le.2 named)),
    badParam_false (decide_eq_false (Nat.not_le.2 channel)), badParam_false flags,
    badParam_false (bne_eq_false_iff_eq.2 ident), badParam_false (acceptance_eq_false meant), owned_eq_false own kept,
    Bool.false_eq_true, if_false, sound]

/-! ### FREE_MO (R302, R305) -/

theorem freeMo_own {o : Mo} (named : fieldAt p.params 0 2 < 0x4000) (reserved : zeroAt p.params 2 2 = true)
    (found : (stagedFor p s).mo? (fieldAt p.params 0 2) = some o) (own : o.owner = stageCtx p) (kept : o.freeing = false)
    (unnamed : moNamed s (stagedFor p s) (fieldAt p.params 0 2) = false)
    (unstreamed : moStreamed s (stagedFor p s) (fieldAt p.params 0 2) = false) (held : heldNeedsMo s o = false) :
    freeMo p s = bundleOpen s p (stage p [.free (fieldAt p.params 0 2)] s []) := by
  simp only [freeMo, moField_eq named, found, badParam_false (decide_eq_false (Nat.not_le.2 named)), badParam_false (not_zeroAt reserved),
    refuseIf_false (owned_eq_false own kept), refuseIf_false unnamed, refuseIf_false unstreamed, refuseIf_false held]

/-! ### READ_MO (R290, R300, R306) -/

/-- What READ_MO answers of object `o`: its bytes, or INTEGRITY with the offset of the bad word of a receive object. -/
def readMoAnswer (p : Packet) (found : Option Nat) (o : Mo) (s : State) : Verdict :=
  let mo := fieldAt p.params 0 2
  let off := fieldAt p.params 2 2
  let t := readMoLeaves mo o (readMoBad o off found) s
  let read := okBody t (readMoBody s ((guestOf p.source).getD 0) mo off o)
  match readMoBad o off found with
  | some x => if o.tx then read else .reply t stIntegrity x []
  | none => read

theorem readMo_found {found : Option Nat} {o : Mo} (named : fieldAt p.params 0 2 < 0x4000) (aligned : fieldAt p.params 2 2 % 4 = 0)
    (within : fieldAt p.params 2 2 ≤ 2044) (reserved : zeroAt p.params 4 4 = true) (allocated : s.mo? (fieldAt p.params 0 2) = some o) :
    readMo found p s = readMoAnswer p found o s := by
  have offset : (decide (fieldAt p.params 2 2 % 4 ≠ 0) || decide (fieldAt p.params 2 2 > 2044)) = false := by
    rw [decide_eq_false (not_not_intro aligned), decide_eq_false (Nat.not_lt.2 within)]
    rfl
  rw [readMo, moField_eq named, badParam_false (decide_eq_false (Nat.not_le.2 named)), badParam_false offset,
    badParam_false (not_zeroAt reserved), allocated]
  rfl

theorem readMoAnswer_read {found : Option Nat} {o : Mo} (good : readMoBad o (fieldAt p.params 2 2) found = none ∨ o.tx = true) :
    readMoAnswer p found o s
      = okBody (readMoLeaves (fieldAt p.params 0 2) o (readMoBad o (fieldAt p.params 2 2) found) s)
        (readMoBody s ((guestOf p.source).getD 0) (fieldAt p.params 0 2) (fieldAt p.params 2 2) o) := by
  cases bad : readMoBad o (fieldAt p.params 2 2) found with
  | none => simp only [readMoAnswer, bad]
  | some x =>
    have sends : o.tx = true := good.resolve_left (Option.ne_none_iff_exists'.2 ⟨x, bad⟩)
    simp only [readMoAnswer, bad, sends, if_true]

theorem readMoAnswer_bad {found : Option Nat} {o : Mo} {x : Nat} (bad : readMoBad o (fieldAt p.params 2 2) found = some x)
    (receives : o.tx = false) :
    readMoAnswer p found o s
      = .reply (readMoLeaves (fieldAt p.params 0 2) o (readMoBad o (fieldAt p.params 2 2) found) s) stIntegrity x [] := by
  simp only [readMoAnswer, bad, receives, Bool.false_eq_true, if_false]

end

end Sys2Proof.Machine

open Sys2Proof Sys2Proof.Machine

/-- Settles O34: the three latent commands pass their checks and stage, and READ_MO by the bad word it meets. -/
theorem messageObjectsComplete : Obligations.MessageObjectsComplete := by
  refine ⟨fun p s t mo base accepts => ?_, fun p s t ch o accepts => ?_, fun p s t o accepts => ?_,
    fun p found s o accepts => ?_⟩
  · intro u w tx f len max x number direction formats maxlen reserved free objects cells picked placed b stages
    exact answered_of_stages accepts stages
      (allocMo_placed ⟨number, direction, formats, maxlen, reserved⟩ rfl free objects cells picked placed)
  · intro u mo flags ident af named channel mapped found unreserved inRange meant own kept sound stages
    rw [← taken_srcChan p s] at mapped
    exact answered_of_stages accepts stages
      (configMoCmd_own named channel mapped found unreserved inRange meant own kept sound)
  · intro u mo named reserved found own kept unnamed unstreamed held stages
    exact answered_of_stages accepts stages (freeMo_own named reserved found own kept unnamed unstreamed held)
  · intro u mo off named aligned within reserved allocated bad t
    rw [← taken_mo? p s] at allocated
    have run := readMo_found (found := found) (p := { p with opcode := specReadMo.opcode }) named aligned within reserved allocated
    exact ⟨fun good => answered_of_accepts accepts (run.trans (readMoAnswer_read good)),
      fun x meets receives => answered_of_accepts accepts (run.trans (readMoAnswer_bad meets receives))⟩

end

