-- ==== Sys2Proof/Proofs/FilterVerdict.lean ====
section
/-!
PROOFS. What the filters decide of a frame (R310, R315 to R318): each context's entries are judged apart, and the delivery set names
what some context's delivering entry names.
-/

namespace Sys2Proof.Machine

/-! ### A sparse table -/

theorem mem_of_mget {α : Type} {l : List (Nat × α)} {k : Nat} {a : α} (found : mget l k = some a) : (k, a) ∈ l := by
  induction l with
  | nil => exact nomatch found
  | cons p l ih =>
    obtain ⟨j, b⟩ := p
    rw [mget] at found
    split at found
    next same =>
      cases same
      cases found
      exact List.mem_cons_self
    next => exact List.mem_cons_of_mem _ (ih found)

theorem mget_map {α β : Type} (g : α → β) (l : List (Nat × α)) (k : Nat) : mget (l.map fun e => (e.1, g e.2)) k = (mget l k).map g := by
  induction l with
  | nil => rfl
  | cons p l ih =>
    obtain ⟨j, a⟩ := p
    rw [List.map_cons, mget, mget, ih, apply_ite (Option.map g)]
    rfl

/-! ### The entries of the other contexts disabled (R316) -/

/-- A numbered entry as it stands, disabled unless context `x` owns it. -/
def disableOther (x : Nat) (e : Nat × Filter) : Nat × Filter := (e.1, if e.2.owner = x then e.2 else { e.2 with errDis := true })

/-- The store with the entries of every context but `x` disabled. -/
def disableOthers (x : Nat) (st : FilterStore) : FilterStore := { st with entries := st.entries.map (disableOther x) }

theorem disableOther_own {x : Nat} {e : Nat × Filter} (own : e.2.owner = x) : disableOther x e = e := by
  rw [disableOther, if_pos own]

/-- What a test sees that does not look at whether an entry is disabled. -/
theorem blind_disableOther {q : Nat × Filter → Bool} (blind : ∀ n f, q (n, { f with errDis := true }) = q (n, f)) (x : Nat)
    (e : Nat × Filter) : q (disableOther x e) = q e := by
  rw [disableOther]
  split
  · rfl
  · exact blind e.1 e.2

theorem filter_map_disableOther {q : Nat × Filter → Bool} (blind : ∀ n f, q (n, { f with errDis := true }) = q (n, f)) (x : Nat)
    (l : List (Nat × Filter)) : (l.map (disableOther x)).filter q = (l.filter q).map (disableOther x) := by
  rw [List.filter_map]
  exact congrArg (List.map _) (List.filter_congr fun e _ => blind_disableOther blind x e)

/-- The entries of `x` are the same with those of the others disabled. -/
theorem own_map_disableOther (x : Nat) (l : List (Nat × Filter)) :
    (l.map (disableOther x)).filter (fun e => e.2.owner == x) = l.filter fun e => e.2.owner == x := by
  rw [filter_map_disableOther (fun _ _ => rfl)]
  exact (List.map_congr_left fun e mem => disableOther_own (eq_of_beq (List.mem_filter.1 mem).2)).trans (List.map_id _)

theorem scanOn_disableOthers (x : Nat) (st : FilterStore) (ch : Nat) :
    scanOn (disableOthers x st) ch = (scanOn st ch).map (disableOther x) :=
  filter_map_disableOther (fun _ _ => rfl) x st.entries

theorem chainEntries_disableOthers (x : Nat) (st : FilterStore) (ch bucket : Nat) :
    chainEntries (disableOthers x st) ch bucket = (chainEntries st ch bucket).map (disableOther x) := by
  rw [chainEntries, chainEntries, List.map_filterMap]
  refine congrArg (fun g => List.filterMap g _) (funext fun n => ?_)
  have found : mget (st.entries.map (disableOther x)) n = (mget st.entries n).map fun f => (disableOther x (n, f)).2 :=
    mget_map (fun f => (disableOther x (n, f)).2) st.entries n
  rw [disableOthers, found, Option.map_map, Option.map_map]
  rfl

/-- The candidates of `x` do not depend on whether another context's entries are disabled (R315, R316). -/
theorem candidates_disableOthers (x : Nat) (st : FilterStore) (ch : Nat) (h : Hdr) :
    candidates (disableOthers x st) ch h x = candidates st ch h x := by
  have byAf : (if h.fmt = .xl then (chainEntries (disableOthers x st) ch (bucketOf h.af 1 0)).filter fun c => c.2.key else [])
      = (if h.fmt = .xl then (chainEntries st ch (bucketOf h.af 1 0)).filter fun c => c.2.key else []).map (disableOther x) := by
    rw [apply_ite (List.map (disableOther x)), chainEntries_disableOthers, filter_map_disableOther fun _ _ => rfl]
    rfl
  simp only [candidates]
  rw [byAf, chainEntries_disableOthers, filter_map_disableOther (fun _ _ => rfl), scanOn_disableOthers, ← List.map_append,
    ← List.map_append, own_map_disableOther]

/-! ### The delivering entries of a context (R315) -/

/-- The entries of context `x` that deliver the frame. -/
abbrev delivering (st : FilterStore) (ch : Nat) (h : Hdr) (x : Nat) : List (Nat × Filter) := takeMatches ch h (candidates st ch h x)

theorem mem_of_mem_takeMatches {ch : Nat} {h : Hdr} {l : List (Nat × Filter)} {e : Nat × Filter} (mem : e ∈ takeMatches ch h l) :
    e ∈ l ∧ entryMatches e.2 ch h = true := by
  induction l with
  | nil => exact nomatch mem
  | cons c l ih =>
    have later (mem : e ∈ takeMatches ch h l) : e ∈ c :: l ∧ entryMatches e.2 ch h = true :=
      (ih mem).imp_left (List.mem_cons_of_mem c)
    have here (matched : entryMatches c.2 ch h = true) (same : e = c) : e ∈ c :: l ∧ entryMatches e.2 ch h = true := by
      cases same
      exact ⟨List.mem_cons_self, matched⟩
    rw [takeMatches] at mem
    split at mem
    next matched =>
      split at mem
      · exact (List.mem_cons.1 mem).elim (here matched) later
      · exact here matched (List.mem_singleton.1 mem)
    next => exact later mem

theorem channel_of_entryMatches {f : Filter} {ch : Nat} {h : Hdr} (matched : entryMatches f ch h = true) : f.channel = ch := by
  simp only [entryMatches, Bool.and_eq_true, beq_iff_eq] at matched
  obtain ⟨⟨⟨⟨⟨_, channel⟩, _⟩, _⟩, _⟩, _⟩ := matched
  exact channel

theorem mem_entries_of_mem_chainEntries {st : FilterStore} {ch bucket : Nat} {e : Nat × Filter} (mem : e ∈ chainEntries st ch bucket) :
    e ∈ st.entries := by
  obtain ⟨n, _, placed⟩ := List.mem_filterMap.1 mem
  obtain ⟨f, found, rfl⟩ := Option.map_eq_some_iff.1 placed
  exact mem_of_mget found

theorem mem_of_mem_candidates {st : FilterStore} {ch x : Nat} {h : Hdr} {e : Nat × Filter} (mem : e ∈ candidates st ch h x) :
    e ∈ st.entries ∧ e.2.owner = x := by
  obtain ⟨mem, own⟩ := List.mem_filter.1 mem
  refine ⟨?_, eq_of_beq own⟩
  rcases List.mem_append.1 mem with mem | scanned
  · rcases List.mem_append.1 mem with byIdent | byAf
    · exact mem_entries_of_mem_chainEntries (List.mem_filter.1 byIdent).1
    · split at byAf
      · exact mem_entries_of_mem_chainEntries (List.mem_filter.1 byAf).1
      · exact nomatch byAf
  · exact (List.mem_filter.1 scanned).1

theorem owner_of_mem_delivering {st : FilterStore} {ch x : Nat} {h : Hdr} {e : Nat × Filter} (mem : e ∈ delivering st ch h x) :
    e.2.owner = x := (mem_of_mem_candidates (mem_of_mem_takeMatches mem).1).2

/-- A context with a delivering entry owns an entry on the channel. -/
theorem mem_contextsOn_of_delivering {st : FilterStore} {ch x : Nat} {h : Hdr} {e : Nat × Filter} (bound : x < 64)
    (mem : e ∈ delivering st ch h x) : x ∈ contextsOn st ch := by
  obtain ⟨candidate, matched⟩ := mem_of_mem_takeMatches mem
  obtain ⟨stored, own⟩ := mem_of_mem_candidates candidate
  refine List.mem_filter.2 ⟨List.mem_range.2 bound, List.any_eq_true.2 ⟨e, stored, ?_⟩⟩
  rw [channel_of_entryMatches matched, own, beq_self_eq_true, beq_self_eq_true]
  rfl

/-! ### The contexts with a match (R318) -/

/-- The contexts with a match on a frame, each with its delivering entries. -/
def frameHits (st : FilterStore) (ch : Nat) (h : Hdr) : List (Nat × List (Nat × Filter)) :=
  ((contextsOn st ch).map fun x => (x, delivering st ch h x)).filter fun p => !p.2.isEmpty

theorem filterFrame_eq (st : FilterStore) (ch : Nat) (h : Hdr) : filterFrame st ch h
    = (((frameHits st ch h).flatMap fun p => p.2.flatMap fun e => entryDests e.1 e.2).foldl addDest [], (frameHits st ch h).map (·.1)) :=
  rfl

theorem mem_frameHits {st : FilterStore} {ch : Nat} {h : Hdr} {p : Nat × List (Nat × Filter)} :
    p ∈ frameHits st ch h ↔ p.1 < 64 ∧ p.2 = delivering st ch h p.1 ∧ p.2 ≠ [] := by
  constructor
  · intro mem
    obtain ⟨mem, matched⟩ := List.mem_filter.1 mem
    obtain ⟨x, owns, rfl⟩ := List.mem_map.1 mem
    refine ⟨List.mem_range.1 (List.mem_filter.1 owns).1, rfl, fun none_ => ?_⟩
    rw [none_] at matched
    exact nomatch matched
  · rintro ⟨bound, own, matched⟩
    obtain ⟨e, mem⟩ := List.exists_mem_of_ne_nil _ matched
    refine List.mem_filter.2 ⟨List.mem_map.2 ⟨p.1, mem_contextsOn_of_delivering bound (own ▸ mem), Prod.ext rfl own.symm⟩, ?_⟩
    rw [List.isEmpty_eq_false_iff.2 matched]
    rfl

theorem mem_matched_iff (st : FilterStore) (ch : Nat) (h : Hdr) (x : Nat) :
    x ∈ (filterFrame st ch h).2 ↔ x < 64 ∧ delivering st ch h x ≠ [] := by
  rw [filterFrame_eq, List.mem_map]
  constructor
  · rintro ⟨p, hit, rfl⟩
    obtain ⟨bound, own, matched⟩ := mem_frameHits.1 hit
    exact ⟨bound, own ▸ matched⟩
  · rintro ⟨bound, matched⟩
    exact ⟨(x, delivering st ch h x), mem_frameHits.2 ⟨bound, rfl, matched⟩, rfl⟩

/-! ### The delivery set (R317) -/

/-- What a destination names, whichever entry named it. -/
def destNamed : Dest → Dest
  | .object m _ => .object m 0
  | .ring c k _ => .ring c k 0
  | .route d => .route d

theorem exists_object_iff (l : List Dest) (m : Nat) : (∃ f, Dest.object m f ∈ l) ↔ .object m 0 ∈ l.map destNamed := by
  rw [List.mem_map]
  constructor
  · rintro ⟨f, mem⟩
    exact ⟨_, mem, rfl⟩
  · rintro ⟨d, mem, same⟩
    cases d <;> cases same
    exact ⟨_, mem⟩

theorem exists_ring_iff (l : List Dest) (c k : Nat) : (∃ f, Dest.ring c k f ∈ l) ↔ .ring c k 0 ∈ l.map destNamed := by
  rw [List.mem_map]
  constructor
  · rintro ⟨f, mem⟩
    exact ⟨_, mem, rfl⟩
  · rintro ⟨d, mem, same⟩
    cases d <;> cases same
    exact ⟨_, mem⟩

theorem route_mem_iff (l : List Dest) (d : Nat) : Dest.route d ∈ l ↔ .route d ∈ l.map destNamed := by
  rw [List.mem_map]
  constructor
  · intro mem
    exact ⟨_, mem, rfl⟩
  · rintro ⟨d, mem, same⟩
    cases d <;> cases same
    exact mem

/-- A destination joins a set in which no destination meets `p`, where what meets `p` names what it names. -/
theorem mem_named_ite {l l' : List Dest} {d t : Dest} {p : Dest → Bool} (same : ∀ y, p y = true → destNamed y = destNamed d)
    (kept : l'.map destNamed = l.map destNamed) :
    t ∈ (if l.any p then l' else l ++ [d]).map destNamed ↔ t ∈ l.map destNamed ∨ t = destNamed d := by
  split
  next present =>
    obtain ⟨y, mem, meets⟩ := List.any_eq_true.1 present
    have named : destNamed d ∈ l.map destNamed := same y meets ▸ List.mem_map_of_mem mem
    rw [kept]
    exact ⟨.inl, fun either => either.elim id fun new => new ▸ named⟩
  next =>
    rw [List.map_append, List.mem_append]
    exact or_congr_right List.mem_singleton

/-- Changing which entries named the destinations leaves what is named. -/
theorem map_named_map {g : Dest → Dest} (names : ∀ y, destNamed (g y) = destNamed y) (l : List Dest) :
    (l.map g).map destNamed = l.map destNamed := by
  rw [List.map_map]
  exact List.map_congr_left fun y _ => names y

theorem mem_named_addDest {l : List Dest} {d t : Dest} :
    t ∈ (addDest l d).map destNamed ↔ t ∈ l.map destNamed ∨ t = destNamed d := by
  cases d with
  | object m f =>
    refine mem_named_ite (fun y meets => ?_) (map_named_map (fun y => ?_) l)
    · cases y with
      | object => cases eq_of_beq meets; rfl
      | ring | route => exact nomatch meets
    · cases y with
      | object => dsimp only; split <;> rfl
      | ring | route => rfl
  | ring c k f =>
    refine mem_named_ite (fun y meets => ?_) (map_named_map (fun y => ?_) l)
    · cases y with
      | ring =>
        obtain ⟨context, ring⟩ := Bool.and_eq_true_iff.1 meets
        cases eq_of_beq context
        cases eq_of_beq ring
        rfl
      | object | route => exact nomatch meets
    · cases y with
      | ring => dsimp only; split <;> rfl
      | object | route => rfl
  | route p =>
    refine mem_named_ite (fun y meets => ?_) rfl
    cases y with
    | route => cases eq_of_beq meets; rfl
    | object | ring => exact nomatch meets

theorem mem_named_foldl_addDest {ds l : List Dest} {t : Dest} :
    t ∈ (ds.foldl addDest l).map destNamed ↔ t ∈ l.map destNamed ∨ t ∈ ds.map destNamed := by
  induction ds generalizing l with
  | nil => exact (or_iff_left List.not_mem_nil).symm
  | cons d ds ih => rw [List.foldl_cons, ih, mem_named_addDest, List.map_cons, List.mem_cons, or_assoc]

/-- The delivery set names what some context's delivering entry names (R316, R317). -/
theorem mem_named_filterFrame {st : FilterStore} {ch : Nat} {h : Hdr} {t : Dest} :
    t ∈ (filterFrame st ch h).1.map destNamed
      ↔ ∃ x < 64, ∃ e ∈ delivering st ch h x, t ∈ (entryDests e.1 e.2).map destNamed := by
  rw [filterFrame_eq, mem_named_foldl_addDest, List.map_nil, or_iff_right List.not_mem_nil, List.mem_map]
  constructor
  · rintro ⟨d, named, rfl⟩
    obtain ⟨p, hit, within⟩ := List.mem_flatMap.1 named
    obtain ⟨e, delivers, mem⟩ := List.mem_flatMap.1 within
    obtain ⟨bound, own, _⟩ := mem_frameHits.1 hit
    exact ⟨p.1, bound, e, own ▸ delivers, List.mem_map_of_mem mem⟩
  · rintro ⟨x, bound, e, delivers, named⟩
    obtain ⟨d, mem, rfl⟩ := List.mem_map.1 named
    have hit : (x, delivering st ch h x) ∈ frameHits st ch h := mem_frameHits.2 ⟨bound, rfl, List.ne_nil_of_mem delivers⟩
    exact ⟨d, List.mem_flatMap.2 ⟨_, hit, List.mem_flatMap.2 ⟨e, delivers, mem⟩⟩, rfl⟩

theorem mem_named_singletonIf {b : Bool} {d t : Dest} :
    t ∈ (if b then [d] else []).map destNamed ↔ b = true ∧ t = destNamed d := by
  cases b <;> simp

theorem mem_named_entryDests {n : Nat} {f : Filter} {t : Dest} : t ∈ (entryDests n f).map destNamed ↔
    (f.toMo = true ∧ t = .object f.mo 0) ∨ (f.toRing = true ∧ t = .ring f.owner f.ring 0) ∨ (f.toRoute = true ∧ t = .route f.pdu) := by
  rw [entryDests, List.map_append, List.map_append, List.mem_append, List.mem_append, mem_named_singletonIf, mem_named_singletonIf,
    mem_named_singletonIf, or_assoc]
  rfl

theorem object_mem_named_entryDests {n : Nat} {f : Filter} {m : Nat} :
    .object m 0 ∈ (entryDests n f).map destNamed ↔ f.toMo = true ∧ f.mo = m := by
  simp [mem_named_entryDests, eq_comm (a := m)]

theorem ring_mem_named_entryDests {n : Nat} {f : Filter} {c k : Nat} :
    .ring c k 0 ∈ (entryDests n f).map destNamed ↔ f.toRing = true ∧ f.owner = c ∧ f.ring = k := by
  simp [mem_named_entryDests, eq_comm (a := c), eq_comm (a := k)]

theorem route_mem_named_entryDests {n : Nat} {f : Filter} {d : Nat} :
    .route d ∈ (entryDests n f).map destNamed ↔ f.toRoute = true ∧ f.pdu = d := by
  simp [mem_named_entryDests, eq_comm (a := d)]

end Sys2Proof.Machine

open Sys2Proof Sys2Proof.Machine

/-- Settles O36: disabling the others leaves a context's candidates alone, and the delivery set is followed through `addDest`. -/
theorem contextsJudgeFramesApart : Obligations.ContextsJudgeFramesApart := by
  refine fun st ch h => ⟨fun x => congrArg (takeMatches ch h) (candidates_disableOthers x st ch h), fun m => ?_, fun c k => ?_,
    fun d => ?_, mem_matched_iff st ch h⟩
  · simp only [exists_object_iff, mem_named_filterFrame, object_mem_named_entryDests]
  · simp only [exists_ring_iff, mem_named_filterFrame, ring_mem_named_entryDests]
    constructor
    · rintro ⟨x, bound, e, delivers, toRing, owner, ring⟩
      obtain rfl := owner.symm.trans (owner_of_mem_delivering delivers)
      exact ⟨bound, e, delivers, toRing, ring⟩
    · rintro ⟨bound, e, delivers, toRing, ring⟩
      exact ⟨c, bound, e, delivers, toRing, owner_of_mem_delivering delivers, ring⟩
  · rw [route_mem_iff, mem_named_filterFrame]
    simp only [route_mem_named_entryDests]

end

