-- ==== Sys2Proof/Proofs/FiltersAndQueues.lean ====
section
/-!
PROOFS. Filter entries, queues and watermarks join the latent set, and what is kept of them is read (R308, R313, R323, R324, R326 to
R328, R337, R351 to R353).
-/

namespace Sys2Proof.Machine

/-! ### What taking a packet leaves alone -/

theorem taken_filters (p : Packet) (s : State) : (taken p s).filters = s.filters := (taken_tells p s).filters

theorem taken_virtChan (p : Packet) (s : State) (c ch : Nat) : virtChan (taken p s) c ch = virtChan s c ch := by
  simp only [virtChan, taken_ctx]

section
variable {p : Packet} {s : State}

/-! ### WRITE_FILTER (R308 to R314, R323, R326) -/

/-- The words of WRITE_FILTER spell an entry that may be written (R308, R309, R311, R323). -/
structure FilterInRange (p : Packet) (f : Filter) : Prop where
  number : (byteAt p.params 2 == 1) = true → fieldAt p.params 0 2 = 0
  any_ : byteAt p.params 2 ≤ 1
  reserved : zeroAt p.params 3 1 = true
  word0 : badWord0 (fieldAt p.params 4 4) f = false
  value : badValue f = false
  mask : f.typ = typExact ∨ f.typ = typHashed → f.mask = 0
  word3 : badWord3 (fieldAt p.params 16 4) f = false

/-- The entry that WRITE_FILTER names: its own, or with ANY the first that holds no place (R326). -/
def filterPick (p : Packet) (s : State) : Option Nat :=
  if byteAt p.params 2 == 1 then firstBelow 65536 fun n => (mget (placedEntries s) n).isNone else some (fieldAt p.params 0 2)

theorem writeFilter_placed {ch n : Nat} {f : Filter} (range : FilterInRange p f)
    (mapped : srcChan s p.source (bitsOf (fieldAt p.params 4 4) 20 6) = some ch)
    (spelt : f = filterOf (fieldAt p.params 4 4) (fieldAt p.params 8 4) (fieldAt p.params 12 4) (fieldAt p.params 16 4) ch (stageCtx p))
    (picked : filterPick p s = some n) (own : ∀ o, mget (placedEntries s) n = some o → o.owner = stageCtx p)
    (sound : writeFilterFault s (stagedFor p s) n f = none)
    (quota : mget (placedEntries s) n = none → filterUse s (stageCtx p) + 1 ≤ quotaOf s (stageCtx p) 3) :
    writeFilter p s = bundleOpen s p (stage p [.filter n f] s (writeFilterBody s n f)) := by
  obtain ⟨number, any_, reserved, word0, value, mask, word3⟩ := range
  have named : (byteAt p.params 2 == 1 && decide (fieldAt p.params 0 2 ≠ 0)) = false :=
    Bool.and_eq_false_imp.2 fun set => decide_eq_false (not_not_intro (number set))
  have unmasked : ((decide (f.typ = typExact) || decide (f.typ = typHashed)) && decide (f.mask ≠ 0)) = false :=
    Bool.and_eq_false_imp.2 fun typed => decide_eq_false (not_not_intro (mask (by simpa using typed)))
  have owned : ((mget (placedEntries s) n).any fun o => o.owner != stageCtx p) = false :=
    (Option.any_eq_false _ _).2 fun o held => bne_eq_false_iff_eq.2 (own o held)
  have room : ((mget (placedEntries s) n).isNone && decide (filterUse s (stageCtx p) + 1 > quotaOf s (stageCtx p) 3)) = false :=
    Bool.and_eq_false_imp.2 fun free => decide_eq_false (Nat.not_lt.2 (quota (Option.isNone_iff_eq_none.1 free)))
  rw [filterPick] at picked
  subst spelt
  simp only [writeFilter, mapped, picked, Option.getD_some, Option.isNone_some, Option.bind_some, sound, word0, Bool.or_false,
    badParam_false named, badParam_false (decide_eq_false (Nat.not_lt.2 any_)), badParam_false (not_zeroAt reserved),
    badParam_false value, badParam_false unmasked, badParam_false word3, badParam_false rfl, refuseIf_false owned, refuseIf_false room]

/-! ### CLEAR_FILTER (R327) -/

theorem clearFilter_own (low : 1 ≤ fieldAt p.params 2 2) (high : fieldAt p.params 2 2 ≤ 4096)
    (within : fieldAt p.params 0 2 + fieldAt p.params 2 2 ≤ 0x10000) {mine : List Nat}
    (entries : ((placedEntries s).filter fun e => inRange p e.1 && e.2.owner == stageCtx p).map (·.1) = mine) (some_ : mine ≠ []) :
    clearFilter p s = bundleOpen s p (stage p (mine.map .clearFilter) s (le 2 mine.length ++ zeros 2)) := by
  have range : (decide (fieldAt p.params 2 2 < 1) || decide (fieldAt p.params 2 2 > 4096)
      || decide (fieldAt p.params 0 2 + fieldAt p.params 2 2 > 0x10000)) = false := by
    simp only [Bool.or_eq_false_iff, decide_eq_false_iff_not]
    omega
  subst entries
  exact (badParam_false range).trans (congrArg (bundleOpen s p) (refuseIf_false (List.isEmpty_eq_false_iff.2 some_)))

/-! ### READ_FILTER and GET_FILTER_STATS (R308, R324, R328) -/

theorem readFilter_found {f : Filter} (reserved : zeroAt p.params 2 2 = true)
    (found : mget s.filters.entries (fieldAt p.params 0 2) = some f) :
    readFilter p s = okBody s
      (filterBytes s.filters (fieldAt p.params 0 2) f (virtChan s ((guestOf p.source).getD 0) f.channel)) := by
  rw [readFilter, badParam_false (not_zeroAt reserved), found]

/-- The 48 bytes of the statistics of context `x` on channel `ch` (R324, R328). -/
def filterStats (s : State) (ch x : Nat) : List Byte :=
  let c := (s.chan ch).filters
  let k := pairOf s.filters x ch
  le 4 c.judged ++ le 4 c.noMatch ++ le 4 k.matched ++ le 4 k.disDrop ++ le 2 k.lastDrop
    ++ le 2 ((placedEntries s).filter fun e => e.2.channel == ch && e.2.typ != typHashed).length
    ++ le 2 (hashOn s.filters ch).length ++ le 2 (s.filters.entries.filter fun e => e.2.channel == ch && e.2.owner == x).length
    ++ le 4 c.decisionMax ++ le 8 (stampNow s) ++ zeros 12

theorem getFilterStats_named {ch : Nat} (named : byteAt p.params 0 < 64) (context : byteAt p.params 1 < 64)
    (mapped : srcChan s p.source (byteAt p.params 0) = some ch) (reserved : zeroAt p.params 2 2 = true) :
    getFilterStats p s = okBody s (filterStats s ch (byteAt p.params 1)) :=
  (withChan_some named mapped).trans <| (badParam_false (decide_eq_false (Nat.not_le.2 context))).trans <|
    badParam_false (not_zeroAt reserved)

/-! ### CONFIG_QUEUE (R336 to R340, R351) -/

/-- The change that CONFIG_QUEUE carries: only CTX0 gives a region (R351). -/
def queueChange (p : Packet) : Change :=
  .queue (byteAt p.params 0) (if (guestOf p.source).isSome then none else some (fieldAt p.params 2 2))
    { places := byteAt p.params 1, evt := fieldAt p.params 4 2, tx := fieldAt p.params 6 2, rx := fieldAt p.params 8 2 }
    ((List.range 16).map (shareField p))

theorem configQueue_sound {v : State} (range : configQueueBad p = none) (view : writeDown (stageCtx p) (stagedFor p s) (queueChange p) = v)
    (sound : queueFault v (byteAt p.params 0) = none) (absent : removesRegion p = true → (s.ctx (byteAt p.params 0)).state = .absent) :
    configQueue p s = bundleOpen s p (stage p [queueChange p] s
      (le 2 (regionOf v (byteAt p.params 0)) ++ le 2 (regionOf v (byteAt p.params 0) - countedCells v (byteAt p.params 0)))) := by
  have removable : (removesRegion p && (s.ctx (byteAt p.params 0)).state != .absent) = false :=
    Bool.and_eq_false_imp.2 fun removes => bne_eq_false_iff_eq.2 (absent removes)
  subst view
  simp only [queueChange] at sound ⊢
  simp only [configQueue, range, sound, refuseIf_false removable]

/-! ### SET_WATERMARK (R347, R352) -/

theorem setWatermark_queue {q : QKind × Nat} (pin : byteAt p.params 0 < 8) (reserved : zeroAt p.params 1 1 = true)
    (follows : fieldAt p.params 2 2 ≠ 0xFFFF) (queue : qidOf (fieldAt p.params 2 2) = some q)
    (order : fieldAt p.params 6 2 < fieldAt p.params 4 2) (deep : fieldAt p.params 4 2 ≤ qDepth s q) (used : qDepth s q ≠ 0) :
    setWatermark p s = bundleOpen s p (stage p
      [.watermark (byteAt p.params 0) (some (fieldAt p.params 2 2)) (fieldAt p.params 4 2) (fieldAt p.params 6 2)] s []) := by
  have enough : (qDepth s q == 0 || decide (qDepth s q < fieldAt p.params 4 2)) = false :=
    Bool.or_eq_false_iff.2 ⟨beq_eq_false_iff_ne.2 used, decide_eq_false (Nat.not_lt.2 deep)⟩
  simp only [setWatermark, beq_eq_false_iff_ne.2 follows, queue, Bool.false_eq_true, if_false, refuseIf_false enough]
  exact (badParam_false (decide_eq_false (Nat.not_le.2 pin))).trans <| (badParam_false (not_zeroAt reserved)).trans <|
    (badParam_false rfl).trans <| (badParam_false (decide_eq_false (Nat.ne_zero_of_lt order))).trans <|
    badParam_false (decide_eq_false (Nat.not_le.2 order))

theorem setWatermark_none (pin : byteAt p.params 0 < 8) (reserved : zeroAt p.params 1 1 = true)
    (free : fieldAt p.params 2 2 = 0xFFFF) (high : fieldAt p.params 4 2 = 0) (low : fieldAt p.params 6 2 = 0) :
    setWatermark p s = bundleOpen s p (stage p [.watermark (byteAt p.params 0) none 0 0] s []) := by
  have noQueue : qidOf 0xFFFF = none := by decide
  simp only [setWatermark, free, high, low, noQueue]
  exact (badParam_false (decide_eq_false (Nat.not_le.2 pin))).trans (badParam_false (not_zeroAt reserved))

/-! ### GET_QUEUE_STATUS (R353) -/

theorem getQueueStatus_named {q : QKind × Nat} (queue : qidOf (fieldAt p.params 0 2) = some q) (reserved : zeroAt p.params 2 2 = true) :
    getQueueStatus p s = okBody s (queueRecord s (fieldAt p.params 0 2) q) := by
  simp only [getQueueStatus, queue, badParam_false (not_zeroAt reserved)]

end

end Sys2Proof.Machine

open Sys2Proof Sys2Proof.Machine

/-- Settles O35: each latent command passes its checks and stages, and each record is read as taking the packet leaves it. -/
theorem filtersAndQueuesComplete : Obligations.FiltersAndQueuesComplete := by
  refine ⟨fun p s t ch n accepts => ?_, fun p s t accepts => ?_, fun p s f accepts reserved found => ?_,
    fun p s ch accepts named context mapped reserved => ?_, fun p s t accepts range => ?_, fun p s t q accepts => ?_,
    fun p s t accepts pin reserved free high low stages =>
      answered_of_stages accepts stages (setWatermark_none pin reserved free high low),
    fun p s q accepts queue reserved => answered_of_accepts accepts (getQueueStatus_named queue reserved)⟩
  · intro u e any_ w0 w3 f mapped number known reserved word0 value mask word3 picked own sound quota stages
    rw [← taken_srcChan p s] at mapped
    exact answered_of_stages accepts stages
      (writeFilter_placed ⟨number, known, reserved, word0, value, mask, word3⟩ mapped rfl picked own sound quota)
  · intro u mine low high within some_ stages
    exact answered_of_stages accepts stages (clearFilter_own low high within rfl some_)
  · rw [← taken_filters p s] at found ⊢
    rw [← taken_virtChan p s]
    exact answered_of_accepts accepts (readFilter_found reserved found)
  · intro x u c k used mine
    rw [← taken_srcChan p s] at mapped
    have run := getFilterStats_named (p := { p with opcode := specGetFilterStats.opcode }) named context mapped reserved
    simp only [filterStats, taken_filters, taken_stamp] at run
    exact answered_of_accepts accepts run
  · intro u x d region c v b sound absent stages
    rw [← taken_ctx p s] at absent
    exact answered_of_stages accepts stages (configQueue_sound range rfl sound absent)
  · intro pin reserved follows queue order deep used stages
    exact answered_of_stages accepts stages (setWatermark_queue pin reserved follows queue order deep used)

end

