-- ==== Sys2Proof/Proofs/TimeBase.lean ====
section
/-!
PROOFS. The counter of the time base (R354), rates and steps (R359, R360, R380 to R382), and edges on the PPS balls (R361, R375, R376).
-/

namespace Sys2Proof.Machine

/-! ### The counter (R354) -/

section
variable {t : TimeBase} {n : Nat}

/-- What `n` cycles gather gives the count its whole part and the fraction the rest. -/
theorem countCycles_of_acc {acc : Nat} (gathered : (acc : Int) = t.frac + n * ((2 ^ 32 : Nat) + t.rate)) :
    countCycles n t = { t with time := (t.time + acc / 2 ^ 32) % 2 ^ 64, frac := acc % 2 ^ 32 } := by
  simp only [countCycles, ← gathered]
  rfl

/-- A rate above -2^32 never takes the counter back. -/
theorem exists_gathered (forward : -2 ^ 32 ≤ t.rate) (n : Nat) : ∃ acc : Nat, (acc : Int) = t.frac + n * ((2 ^ 32 : Nat) + t.rate) := by
  have step : 0 ≤ (n : Int) * ((2 ^ 32 : Nat) + t.rate) := Int.mul_nonneg (Int.natCast_nonneg n) (by omega)
  exact ⟨(t.frac + n * ((2 ^ 32 : Nat) + t.rate)).toNat, Int.toNat_of_nonneg (by omega)⟩

theorem countCycles_add (forward : -2 ^ 32 ≤ t.rate) (m : Nat) : countCycles m (countCycles n t) = countCycles (n + m) t := by
  obtain ⟨a, first⟩ := exists_gathered forward n
  obtain ⟨b, both⟩ := exists_gathered forward (n + m)
  have more : 0 ≤ (m : Int) * ((2 ^ 32 : Nat) + t.rate) := Int.mul_nonneg (Int.natCast_nonneg m) (by omega)
  have split := both
  rw [Int.natCast_add, Int.add_mul] at split
  have later : a ≤ b := by omega
  have rest : ((b - a + a % 2 ^ 32 : Nat) : Int) = (a % 2 ^ 32 : Nat) + m * ((2 ^ 32 : Nat) + t.rate) := by omega
  rw [countCycles_of_acc both, countCycles_of_acc first, countCycles_of_acc rest]
  dsimp only
  congr 1 <;> omega

theorem countCycles_zero (wide : t.time < 2 ^ 64) (part : t.frac < 2 ^ 32) : countCycles 0 t = t := by
  rw [countCycles_of_acc (acc := t.frac) (by omega), Nat.div_eq_of_lt part, Nat.mod_eq_of_lt part, Nat.add_zero, Nat.mod_eq_of_lt wide]

theorem countCycles_eq_repeat (wide : t.time < 2 ^ 64) (part : t.frac < 2 ^ 32) (forward : -2 ^ 32 ≤ t.rate) (n : Nat) :
    countCycles n t = Nat.repeat (countCycles 1) n t := by
  induction n with
  | zero => exact countCycles_zero wide part
  | succ n ih => rw [Nat.repeat, ← ih, countCycles_add forward]

end

theorem passCycles_stopped {s : State} (unready : s.isReady 5 = false) (n : Nat) :
    (passCycles n s).time = { s.time with clk := s.time.clk + n } := by
  rw [passCycles, timeRuns, unready]
  rfl

section
variable {p : Packet} {s : State}

/-! ### GET_TIME and ADJUST_RATE (R359, R380, R381) -/

theorem taken_isMaster (p : Packet) (s : State) : (taken p s).isMaster = s.isMaster := by
  simp only [State.isMaster, taken_aon]

theorem getTime_selected (unused : bitOf (fieldAt p.params 0 2) 14 = false)
    (selects : bitOf (fieldAt p.params 0 2) 15 = true ∨ fieldAt p.params 0 2 = 0) (reserved : zeroAt p.params 2 2 = true) :
    getTime p s = okBody s (le 8 s.now ++ le 4 (unsignedOf 32 s.time.rate) ++ le 4 (unsignedOf 32 s.time.baseRate)
      ++ le 4 (slewLeft s.time) ++ le 1 (timeFlags s) ++ zeros 3 ++ le 8 s.time.lastPps ++ le 8 s.time.lastStep
      ++ (if bitOf (fieldAt p.params 0 2) 15 then scheduleBytes s (fieldAt p.params 0 2 % 0x4000) else zeros 48)) := by
  have selector : (bitOf (fieldAt p.params 0 2) 14
      || (!bitOf (fieldAt p.params 0 2) 15 && decide (fieldAt p.params 0 2 ≠ 0))) = false := by
    rw [unused, Bool.false_or, Bool.and_eq_false_iff]
    exact selects.imp (congrArg not) fun zero => decide_eq_false (not_not_intro zero)
  exact (badParam_false selector).trans (badParam_false (not_zeroAt reserved))

theorem adjustRate_master (low : -2147483 ≤ signedOf 32 (fieldAt p.params 0 4)) (high : signedOf 32 (fieldAt p.params 0 4) ≤ 2147483)
    (brief : fieldAt p.params 4 4 ≤ 3600000) (master : s.isMaster = true) :
    let r := signedOf 32 (fieldAt p.params 0 4)
    let ms := fieldAt p.params 4 4
    adjustRate p s = okBody { s with time := if ms = 0 then { s.time with rate := r, baseRate := r, slewEnd := none }
                                             else { s.time with rate := r, slewEnd := some (s.time.clk + ms * msNs) } }
      (le 8 (stampNow s) ++ le 4 (unsignedOf 32 s.time.rate)) := by
  have range : (decide (signedOf 32 (fieldAt p.params 0 4) < -2147483)
      || decide (signedOf 32 (fieldAt p.params 0 4) > 2147483)) = false := by
    rw [decide_eq_false (Int.not_lt.2 low), decide_eq_false (Int.not_lt.2 high)]
    rfl
  exact (badParam_false range).trans <| (badParam_false (decide_eq_false (Nat.not_lt.2 brief))).trans <|
    refuseIf_false (congrArg not master)

/-! ### STEP_TIME (R360, R382) -/

theorem stepFits_of_range {v : Int} (low : 1 ≤ v) (high : v < 2 ^ 63) : stepFits v = true :=
  Bool.and_eq_true_iff.2 ⟨decide_eq_true low, decide_eq_true high⟩

section
variable (reserved : zeroAt p.params 1 7 = true) (master : s.isMaster = true)
include reserved master

theorem stepTime_now (mode : byteAt p.params 0 = 0) (low : 1 ≤ (s.now : Int) + signedOf 64 (fieldAt p.params 8 8))
    (high : (s.now : Int) + signedOf 64 (fieldAt p.params 8 8) < 2 ^ 63) :
    let v := (s.now : Int) + signedOf 64 (fieldAt p.params 8 8)
    stepTime p s = okBody (masterStep v.toNat 1 s) (le 8 v.toNat ++ le 8 s.now) := by
  simp only [stepTime, mode, not_zeroAt reserved, master, stepFits_of_range low high]
  rfl

theorem stepTime_arm (mode : byteAt p.params 0 = 1) (capture : s.time.pps.capture = true) :
    stepTime p s = okBody
      { s with time := { s.time with armed := some { value := fieldAt p.params 8 8, lapses := s.time.clk + 2 * secNs } } } (zeros 16) := by
  simp only [stepTime, mode, not_zeroAt reserved, master, capture]
  rfl

theorem stepTime_disarm (mode : byteAt p.params 0 = 2) (empty : fieldAt p.params 8 8 = 0) (armed : s.time.armed.isSome = true) :
    stepTime p s = okBody { s with time := { s.time with armed := none } } (zeros 16) := by
  simp only [stepTime, mode, empty, not_zeroAt reserved, master, Option.isNone_eq_false_iff.2 armed]
  rfl

end

end

/-! ### The end of a slew, and edges on PPS_IN (R359 to R361, R375) -/

section
variable {s : State}

theorem execSlewEnd_slewing {e : Nat} (slewing : s.time.slewEnd = some e) :
    let t := reachClk e s
    execSlewEnd s = next (raiseEvent 0 0x0805 (le 4 (unsignedOf 32 t.time.baseRate))
      { t with time := { t.time with rate := t.time.baseRate, slewEnd := none } }) := by
  simp only [execSlewEnd, slewing]

/-- The captured edge is stored, told, and reaches the trigger units (R361, R375, R377). -/
def ppsCaptured (s : State) : State :=
  let a := { s with time := { s.time with lastPps := stampNow s } }
  captureEdge 0x10 1 (stampNow s) (if s.time.pps.event then raiseEvent 0 0x0803 (le 8 (stampNow s)) a else a)

theorem ppsCaptured_time (s : State) : (ppsCaptured s).time = { s.time with lastPps := stampNow s } :=
  (ite_tells (raiseEvent_tells _ _ _ (Tells.refl _)) (Tells.refl _)).time

theorem execPpsInCapture_edge (capture : s.time.pps.capture = true) (runs : timeRuns s = true) :
    execPpsInCapture s = match s.time.armed with
      | none => next (ppsCaptured s)
      | some x => next (if x.lapses ≤ s.time.clk then endArmed 3 (ppsCaptured s) else applyArmed (stampNow s) x (ppsCaptured s)) := by
  have time := ppsCaptured_time s
  have armed : (ppsCaptured s).time.armed = s.time.armed := by rw [time]
  have clk : (ppsCaptured s).time.clk = s.time.clk := by rw [time]
  rw [← armed, ← clk]
  exact if_neg (by rw [capture, runs]; decide)

theorem execPpsStepLapse_armed {x : PpsStep} (armed : s.time.armed = some x) :
    execPpsStepLapse s = next (endArmed 3 (reachClk x.lapses s)) := by
  simp only [execPpsStepLapse, armed]

end

/-! ### PPS_OUT (R376) -/

theorem ceilDiv_le_iff {a p n : Nat} (pos : 0 < p) : ceilDiv a p ≤ n ↔ a ≤ p * n := by
  rw [ceilDiv, ← Nat.lt_succ_iff, Nat.div_lt_iff_lt_mul pos, Nat.succ_mul, Nat.mul_comm n p]
  omega

section
variable {p : Pps} {v w : Nat}

theorem ppsRiseAt_mod (within : p.offset < p.period) : ppsRiseAt p v % p.period = p.offset := by
  rw [ppsRiseAt]
  split
  next => exact Nat.mod_eq_of_lt within
  next => rw [Nat.add_mul_mod_self_right, Nat.mod_eq_of_lt within]

theorem le_ppsRiseAt (within : p.offset < p.period) : v ≤ ppsRiseAt p v := by
  rw [ppsRiseAt]
  split
  next early => exact early
  next late =>
    have reaches := (ceilDiv_le_iff (Nat.zero_lt_of_lt within)).1 (Nat.le_refl (ceilDiv (v - p.offset) p.period))
    rw [Nat.mul_comm] at reaches
    omega

/-- No grid value lies between `v` and the rise after it. -/
theorem ppsRiseAt_le (within : p.offset < p.period) (after : v ≤ w) (grid : w % p.period = p.offset) : ppsRiseAt p v ≤ w := by
  have spelt : p.offset + p.period * (w / p.period) = w := grid ▸ Nat.mod_add_div w p.period
  rw [ppsRiseAt]
  split
  next => omega
  next late =>
    have fewer := (ceilDiv_le_iff (a := v - p.offset) (n := w / p.period) (Nat.zero_lt_of_lt within)).2 (by omega)
    calc p.offset + ceilDiv (v - p.offset) p.period * p.period
      _ ≤ p.offset + w / p.period * p.period := Nat.add_le_add_left (Nat.mul_le_mul_right _ fewer) _
      _ = w := by rw [Nat.mul_comm, spelt]

end

end Sys2Proof.Machine

open Sys2Proof Sys2Proof.Machine

/-- Settles O37: one cycle by what it gathers, and `n` cycles by induction, since cycles at once add up. -/
theorem theTimeBaseCounts : Obligations.TheTimeBaseCounts := by
  refine ⟨fun t part low high => ?_, rfl, rfl, rfl, fun n s unready => passCycles_stopped unready n⟩
  intro acc
  have gathered : (acc : Int) = t.frac + 2 ^ 32 + t.rate := Int.toNat_of_nonneg (by omega)
  exact ⟨countCycles_of_acc (by omega), by omega, by omega,
    fun n wide => countCycles_eq_repeat wide part (by omega) n⟩

/-- Settles O38: each command by its handler, the events where their guards let them act, and PPS_OUT by its grid. -/
theorem timeCommandsComplete : Obligations.TimeCommandsComplete := by
  refine ⟨fun p s accepts unused selects reserved => ?_, fun p s accepts => ?_, fun p s accepts reserved => ?_,
    fun e s slewing => execSlewEnd_slewing slewing, fun s capture runs => ?_, fun x s armed => execPpsStepLapse_armed armed,
    fun s enabled low runs => if_neg (by rw [enabled, low, runs]; decide), fun s high => if_neg (by rw [high]; decide),
    fun p v within => ⟨le_ppsRiseAt within, ppsRiseAt_mod within, fun w => ppsRiseAt_le within⟩,
    fun b => ⟨fun first => ?_, fun v last => ?_⟩⟩
  · rw [← taken_now p s, ← taken_time p s]
    exact answered_of_accepts accepts (getTime_selected unused selects reserved)
  · rw [← taken_time p s, ← taken_stamp p s, ← taken_isMaster p s]
    intro u r ms low high brief master
    exact answered_of_accepts accepts (adjustRate_master low high brief master)
  · rw [← taken_time p s, ← taken_now p s, ← taken_isMaster p s]
    intro master u raw v
    exact ⟨fun mode low high => answered_of_accepts accepts (stepTime_now reserved master mode low high),
      fun mode capture => answered_of_accepts accepts (stepTime_arm reserved master mode capture),
      fun mode empty armed => answered_of_accepts accepts (stepTime_disarm reserved master mode empty armed)⟩
  · intro a b
    have run := execPpsInCapture_edge capture runs
    refine ⟨fun armed => ?_, fun x armed inTime => ?_, fun x armed late => ?_⟩
    all_goals rw [armed] at run
    · exact run
    · exact run.trans (congrArg next (if_neg (Nat.not_le.2 inTime)))
    · exact run.trans (congrArg next (if_pos late))
  · rw [nextPpsRise, first, Nat.max_zero]
  · rw [nextPpsRise, last]

end

