-- ==== Sys2Proof/Proofs/ShuttersAndTriggers.lean ====
section
/-!
PROOFS. Schedules, trigger units and the PPS settings join the latent set (R367, R374, R378, R379, R383 to R385); arm points, notices,
instants, edges, firings and pulses (R364, R368 to R371, R377).
-/

namespace Sys2Proof.Machine

section
variable {p : Packet} {s : State}

/-- A field that is left zero, or is used where it means something and lies within its bounds. -/
theorem optional_eq_false {lo hi v : Nat} {barred : Bool} (within : v = 0 ∨ (barred = false ∧ lo ≤ v ∧ v ≤ hi)) :
    (decide (v ≠ 0) && (barred || decide (v < lo) || decide (v > hi))) = false := by
  rcases within with rfl | ⟨rfl, low, high⟩
  · rfl
  · rw [Bool.false_or, outside_eq_false low high, Bool.and_false]

/-! ### SET_SHUTTER and CLEAR_SHUTTER (R367, R374, R379, R383) -/

section
variable {o : Mo} (named : fieldAt p.params 0 2 < 0x4000) (reserved : zeroAt p.params 2 2 = true)
  (own : ownTxMo (stagedFor p s) (stageCtx p) (fieldAt p.params 0 2) = some o)
include named reserved own

theorem setShutter_room
    (period : fieldAt p.params 12 8 = 0 ∨ (50000 ≤ fieldAt p.params 12 8 ∧ fieldAt p.params 12 8 ≤ periodMax))
    (ahead : s.now + 50000 ≤ fieldAt p.params 4 8) (room : shutterFull s (stagedFor p s) (fieldAt p.params 0 2) o.channel = false) :
    setShutter p s
      = bundleOpen s p (stage p [.shutter (fieldAt p.params 0 2) (fieldAt p.params 4 8) (fieldAt p.params 12 8)] s []) := by
  have grid : (decide (fieldAt p.params 12 8 ≠ 0) && (decide (fieldAt p.params 12 8 < 50000)
      || decide (fieldAt p.params 12 8 > periodMax))) = false := optional_eq_false (period.imp id fun range => ⟨rfl, range⟩)
  simp only [setShutter, moField_eq named, own, badParam_false (decide_eq_false (Nat.not_le.2 named)), badParam_false (not_zeroAt reserved),
    badParam_false grid, refuseIf_false (decide_eq_false (Nat.not_lt.2 ahead)), refuseIf_false room]

theorem clearShutter_own : clearShutter p s = bundleOpen s p (if (scheduleOf (stagedFor p s) (fieldAt p.params 0 2)).isNone then okDone s
    else stage p [.clearShutter (fieldAt p.params 0 2)] s []) := by
  simp only [clearShutter, moField_eq named, own, badParam_false (decide_eq_false (Nat.not_le.2 named)),
    badParam_false (not_zeroAt reserved)]

end

/-! ### SET_TRIGGER (R378, R379, R384) -/

/-- The settings that SET_TRIGGER carries, zeros taken as the defaults (R384). -/
def triggerFrom (p : Packet) : TriggerSet :=
  { source := byteAt p.params 1, edge := byteAt p.params 2, dest := byteAt p.params 3, pin := byteAt p.params 4
    width := if fieldAt p.params 6 2 = 0 then 10 else fieldAt p.params 6 2, instant := fieldAt p.params 8 8
    period := fieldAt p.params 16 8
    delay := if pinSource (byteAt p.params 1) && fieldAt p.params 24 4 = 0 then 50 else fieldAt p.params 24 4 }

/-- The source of a trigger unit, and the fields of SET_TRIGGER that mean something with it (R384). -/
structure TriggerSource (p : Packet) (now : Nat) : Prop where
  known : byteAt p.params 1 = 0 ∨ pinSource (byteAt p.params 1) = true ∨ byteAt p.params 1 = compareSource
  edge : if pinSource (byteAt p.params 1) then 1 ≤ byteAt p.params 2 ∧ byteAt p.params 2 ≤ 3 else byteAt p.params 2 = 0
  instant : byteAt p.params 1 ≠ compareSource → fieldAt p.params 8 8 = 0
  period : fieldAt p.params 16 8 = 0
    ∨ (byteAt p.params 1 = compareSource ∧ 1000 ≤ fieldAt p.params 16 8 ∧ fieldAt p.params 16 8 ≤ periodMax)
  delay : fieldAt p.params 24 4 = 0
    ∨ (pinSource (byteAt p.params 1) = true ∧ 50 ≤ fieldAt p.params 24 4 ∧ fieldAt p.params 24 4 ≤ 1000000000)
  ahead : byteAt p.params 1 = compareSource → now + 50000 ≤ fieldAt p.params 8 8

theorem pinSource_compare : pinSource compareSource = false := by decide

theorem ne_compare_of_pinSource {n : Nat} (pin : pinSource n = true) : n ≠ compareSource := by
  rintro rfl
  exact nomatch pin.symm.trans pinSource_compare

theorem triggerSource_pin {now : Nat} (pin : pinSource (byteAt p.params 1) = true) (rises : 1 ≤ byteAt p.params 2)
    (known : byteAt p.params 2 ≤ 3) (instant : fieldAt p.params 8 8 = 0) (period : fieldAt p.params 16 8 = 0)
    (delay : fieldAt p.params 24 4 = 0 ∨ (50 ≤ fieldAt p.params 24 4 ∧ fieldAt p.params 24 4 ≤ 1000000000)) :
    TriggerSource p now where
  known := .inr (.inl pin)
  edge := by rw [if_pos pin]; exact ⟨rises, known⟩
  instant := fun _ => instant
  period := .inl period
  delay := delay.imp id fun range => ⟨pin, range⟩
  ahead := fun compare => absurd compare (ne_compare_of_pinSource pin)

theorem triggerSource_compare {now : Nat} (compare : byteAt p.params 1 = compareSource) (edge : byteAt p.params 2 = 0)
    (delay : fieldAt p.params 24 4 = 0)
    (period : fieldAt p.params 16 8 = 0 ∨ (1000 ≤ fieldAt p.params 16 8 ∧ fieldAt p.params 16 8 ≤ periodMax))
    (ahead : now + 50000 ≤ fieldAt p.params 8 8) : TriggerSource p now where
  known := .inr (.inr compare)
  edge := by rwa [compare, pinSource_compare]
  instant := fun other => absurd compare other
  period := period.imp id fun range => ⟨compare, range⟩
  delay := .inl delay
  ahead := fun _ => ahead

theorem triggerSource_none {now : Nat} (off : byteAt p.params 1 = 0) (edge : byteAt p.params 2 = 0) (instant : fieldAt p.params 8 8 = 0)
    (period : fieldAt p.params 16 8 = 0) (delay : fieldAt p.params 24 4 = 0) : TriggerSource p now where
  known := .inl off
  edge := by rwa [off, if_neg (by decide)]
  instant := fun _ => instant
  period := .inl period
  delay := .inl delay
  ahead := fun compare => nomatch off.symm.trans compare

/-- The other fields of SET_TRIGGER are in range (R384). -/
structure TriggerInRange (p : Packet) : Prop where
  unit : byteAt p.params 0 < 8
  dest : byteAt p.params 3 < 8
  used : byteAt p.params 3 = 0 ↔ byteAt p.params 1 = 0
  pin : byteAt p.params 4 < 8
  driven : (byteAt p.params 3).testBit 0 = true ∨ byteAt p.params 4 = 0
  reserved : zeroAt p.params 5 1 = true
  last : zeroAt p.params 28 4 = true

section
variable (range : TriggerInRange p)
include range

theorem TriggerInRange.dest_eq_false : (decide (byteAt p.params 3 ≥ 8)
    || if byteAt p.params 1 = 0 then decide (byteAt p.params 3 ≠ 0) else decide (byteAt p.params 3 = 0)) = false := by
  rw [decide_eq_false (Nat.not_le.2 range.dest), Bool.false_or]
  split
  next off => exact decide_eq_false (not_not_intro (range.used.2 off))
  next on => exact decide_eq_false fun none => on (range.used.1 none)

theorem TriggerInRange.pin_eq_false :
    (decide (byteAt p.params 4 ≥ 8) || (!(byteAt p.params 3).testBit 0 && decide (byteAt p.params 4 ≠ 0))) = false := by
  rw [decide_eq_false (Nat.not_le.2 range.pin), Bool.false_or, Bool.and_eq_false_iff]
  exact range.driven.imp (congrArg not) fun zero => decide_eq_false (not_not_intro zero)

end

section
variable {now : Nat} (source : TriggerSource p now)
include source

theorem TriggerSource.known_eq_false :
    (!(decide (byteAt p.params 1 = 0) || pinSource (byteAt p.params 1) || byteAt p.params 1 == compareSource)) = false := by
  rcases source.known with off | pinned | compare
  · rw [off]; rfl
  · rw [pinned, Bool.or_true]; rfl
  · rw [compare, beq_self_eq_true, Bool.or_true]; rfl

theorem TriggerSource.edge_eq_false : (if pinSource (byteAt p.params 1)
    then decide (byteAt p.params 2 = 0) || decide (byteAt p.params 2 > 3) else decide (byteAt p.params 2 ≠ 0)) = false := by
  have edge := source.edge
  split at edge
  next pinned =>
    obtain ⟨low, high⟩ := edge
    rw [if_pos pinned, decide_eq_false (Nat.ne_of_gt low), decide_eq_false (Nat.not_lt.2 high)]
    rfl
  next other => rw [if_neg other]; exact decide_eq_false (not_not_intro edge)

theorem TriggerSource.instant_eq_false : (!(byteAt p.params 1 == compareSource) && decide (fieldAt p.params 8 8 ≠ 0)) = false :=
  Bool.and_eq_false_imp.2 fun other => decide_eq_false (not_not_intro (source.instant (by simpa using other)))

theorem TriggerSource.period_eq_false : (decide (fieldAt p.params 16 8 ≠ 0) && (!(byteAt p.params 1 == compareSource)
    || decide (fieldAt p.params 16 8 < 1000) || decide (fieldAt p.params 16 8 > periodMax))) = false :=
  optional_eq_false (source.period.imp id fun ⟨compare, range⟩ => ⟨by rw [compare, beq_self_eq_true]; rfl, range⟩)

theorem TriggerSource.delay_eq_false : (decide (fieldAt p.params 24 4 ≠ 0) && (!pinSource (byteAt p.params 1)
    || decide (fieldAt p.params 24 4 < 50) || decide (fieldAt p.params 24 4 > 1000000000))) = false :=
  optional_eq_false (source.delay.imp id fun ⟨pinned, range⟩ => ⟨congrArg not pinned, range⟩)

theorem TriggerSource.ahead_eq_false : (byteAt p.params 1 == compareSource && decide (fieldAt p.params 8 8 < now + 50000)) = false :=
  Bool.and_eq_false_imp.2 fun compare => decide_eq_false (Nat.not_lt.2 (source.ahead (eq_of_beq compare)))

end

theorem setTrigger_checked (range : TriggerInRange p) (source : TriggerSource p s.now)
    (free : (byteAt p.params 3).testBit 0 = true → pinTaken (stagedFor p s) (byteAt p.params 0) (byteAt p.params 4) = false) :
    setTrigger p s = bundleOpen s p (stage p [.trigger (byteAt p.params 0) (triggerFrom p)] s []) :=
  (badParam_false (decide_eq_false (Nat.not_le.2 range.unit))).trans <| (badParam_false source.known_eq_false).trans <|
    (badParam_false source.edge_eq_false).trans <| (badParam_false range.dest_eq_false).trans <|
    (badParam_false range.pin_eq_false).trans <| (badParam_false (not_zeroAt range.reserved)).trans <|
    (badParam_false source.instant_eq_false).trans <| (badParam_false source.period_eq_false).trans <|
    (badParam_false source.delay_eq_false).trans <| (badParam_false (not_zeroAt range.last)).trans <|
    congrArg (bundleOpen s p) <| (refuseIf_false (Bool.and_eq_false_imp.2 free)).trans (refuseIf_false source.ahead_eq_false)

/-! ### SET_PPS (R379, R385) -/

/-- The settings that SET_PPS carries, zeros taken as the defaults (R385). -/
def ppsFrom (p : Packet) : Pps :=
  { capture := bitOf (byteAt p.params 0) 0, event := bitOf (byteAt p.params 0) 1, outEn := bitOf (byteAt p.params 1) 0
    width := if fieldAt p.params 2 2 = 0 then 100 else fieldAt p.params 2 2
    period := if fieldAt p.params 8 8 = 0 then 1000000000 else fieldAt p.params 8 8, offset := fieldAt p.params 16 8 }

theorem setPps_checked (input : byteAt p.params 0 < 4) (output : byteAt p.params 1 < 2) (width : (ppsFrom p).width ≤ 999)
    (low : (ppsFrom p).width * msNs < (ppsFrom p).period) (reserved : zeroAt p.params 4 4 = true) (short : 1000000 ≤ (ppsFrom p).period)
    (long : (ppsFrom p).period ≤ periodMax) (within : (ppsFrom p).offset < (ppsFrom p).period) :
    setPps p s = bundleOpen s p (stage p [.pps (ppsFrom p)] s []) := by
  have pulse : (decide ((ppsFrom p).width > 999) || decide ((ppsFrom p).width * msNs ≥ (ppsFrom p).period)) = false := by
    rw [decide_eq_false (Nat.not_lt.2 width), decide_eq_false (Nat.not_le.2 low)]
    rfl
  exact (badParam_false (decide_eq_false (Nat.not_le.2 input))).trans <| (badParam_false (decide_eq_false (Nat.not_le.2 output))).trans <|
    (badParam_false pulse).trans <| (badParam_false (not_zeroAt reserved)).trans <| (badParam_false (outside_eq_false short long)).trans <|
    badParam_false (decide_eq_false (Nat.not_le.2 within))

end

/-! ### Shutter release (R369 to R371) -/

section
variable {mo : Nat} {x : Schedule} {o : Mo} {s : State} (live : liveSchedule s mo = some (x, o)) (fresh : x.pointDone = false)
include live fresh

theorem armPoint_empty (empty : o.full = false) :
    armPoint mo s = modSchedule mo (fun x => { x with pointDone := true, framed := false, empty := inc32 x.empty }) s := by
  simp only [armPoint, live, fresh, empty, Bool.not_false, Bool.false_eq_true, if_false, if_true]

theorem armPoint_overrun (full : o.full = true) (waits : o.inHeap = true) :
    armPoint mo s = modSchedule mo (fun x => { x with pointDone := true, framed := false, overrun := inc32 x.overrun }) s := by
  simp only [armPoint, live, fresh, full, waits, Bool.not_true, Bool.false_eq_true, if_false, if_true]

/-- The frame of an object without a stream enters the heap armed for the instant. -/
theorem armPoint_armed (full : o.full = true) (outside : o.inHeap = false) (free : streamOf s mo = none) :
    armPoint mo s = (modSchedule mo (fun x => { x with pointDone := true, framed := true }) s).modMo mo fun o =>
      { o with inHeap := true, armed := some x.next, noticed := false } := by
  simp only [armPoint, live, fresh, full, outside, Bool.not_true, Bool.false_eq_true, if_false]
  split
  next found => exact nomatch free.symm.trans found
  next => rfl

end

section
variable {mo : Fin 16384} {x : Schedule} {o : Mo} {s : State} (live : liveSchedule s mo.val = some (x, o))
include live

theorem execShutterArmPoint_live : execShutterArmPoint mo s = next (armPoint mo.val (reachTime (x.next - 2000) s)) := by
  simp only [execShutterArmPoint, live]

theorem execReleaseNotice_live (parity : Bool) :
    let t := armPoint mo.val (reachTime (x.next - 100) s)
    execReleaseNotice mo parity s = next (if parity then parityDrop 13 t else releaseNotice o.channel x.next t) := by
  simp only [execReleaseNotice, live]

theorem execShutterInstant_live : execShutterInstant mo s = next (instantEnds mo.val (reachTime x.next (armPoint mo.val s))) := by
  simp only [execShutterInstant, live]

end

/-! ### Triggers (R364, R377) -/

section
variable {unit : Fin 8} {e : Nat} {s : State}

theorem execTriggerFire_compare (compare : (s.trigger unit.val).set.source = compareSource) (due : (s.trigger unit.val).next ≠ 0)
    (runs : timeRuns s = true) :
    let u := s.trigger unit.val
    execTriggerFire unit s = next ((fireTrigger unit.val u.next (reachTime u.next s)).modTrigger unit.val fun x =>
      { x with next := if u.set.period = 0 then 0 else u.next + u.set.period }) :=
  (if_pos compare).trans (if_neg (by rw [decide_eq_false due, runs]; decide))

theorem execTriggerFire_edge {rest : List Nat} (pin : (s.trigger unit.val).set.source ≠ compareSource)
    (edges : (s.trigger unit.val).edges = e :: rest) :
    execTriggerFire unit s = next (fireTrigger unit.val e ((reachTime (e + (s.trigger unit.val).set.delay) s).modTrigger unit.val
      fun x => { x with edges := rest })) := by
  simp only [execTriggerFire, if_neg pin, edges]

theorem execTriggerPulseEnd_high (drives : (s.trigger unit.val).set.dest.testBit 0 = true)
    (high : tget s.pulses (s.trigger unit.val).set.pin none = some e) :
    let t := reachClk e s
    execTriggerPulseEnd unit s = next { t with pulses := tmod t.pulses (s.trigger unit.val).set.pin fun _ => none } := by
  simp only [execTriggerPulseEnd, drives, high, Bool.not_true, Bool.false_eq_true, if_false]

end

end Sys2Proof.Machine

open Sys2Proof Sys2Proof.Machine

/-- Settles O39: the four commands pass their checks and stage, the events by the live schedule or the unit they name. -/
theorem shuttersAndTriggersComplete : Obligations.ShuttersAndTriggersComplete := by
  refine ⟨fun p s t o accepts => ?_, fun p s t o accepts => ?_, fun p s t accepts => ?_, fun p s t accepts => ?_,
    fun mo x o s live => ⟨execShutterArmPoint_live live, execReleaseNotice_live live false,
      execReleaseNotice_live live true, execShutterInstant_live live, armPoint_empty live, armPoint_overrun live,
      fun fresh full outside free => ⟨_, armPoint_armed live fresh full outside free, rfl⟩⟩,
    fun b r s runs => if_neg (by rw [runs]; decide), fun n s compare due runs => execTriggerFire_compare compare due runs,
    fun n e l s pin edges => execTriggerFire_edge pin edges, fun n e s drives high => execTriggerPulseEnd_high drives high⟩
  · rw [← taken_now p s]
    intro u mo first period named reserved range own ahead room stages
    exact answered_of_stages accepts stages (setShutter_room named reserved own range ahead room)
  · intro u mo named reserved own stages
    have run := clearShutter_own (p := { p with opcode := specClearShutter.opcode }) named reserved own
    split
    next unset =>
      obtain ⟨free, -⟩ := stages
      rw [← (taken_tells p s).bundle] at free
      exact answered_of_accepts accepts (run.trans ((bundleOpen_none free).trans (if_pos unset)))
    next set => exact answered_of_stages accepts stages (run.trans (congrArg _ (if_neg set)))
  · rw [← taken_now p s]
    intro u x d unit dest used pin driven reserved last source free stages
    refine answered_of_stages accepts stages (setTrigger_checked ⟨unit, dest, used, pin, driven, reserved, last⟩ ?_ free)
    rcases source with ⟨pinned, low, high, instant, period, delay⟩ | ⟨compare, edge, delay, period, ahead⟩
      | ⟨off, edge, instant, period, delay⟩
    · exact triggerSource_pin pinned low high instant period delay
    · exact triggerSource_compare compare edge delay period ahead
    · exact triggerSource_none off edge instant period delay
  · intro w per input output width low reserved short long within stages
    exact answered_of_stages accepts stages (setPps_checked input output width low reserved short long within)

end

