-- ==== Sys2Proof/Proofs/DeliveryGuarantee.lean ====
section
/-!
PROOFS. Exposures and monitors are read, causes acknowledged, deadlines missed and streams' stop baths end (R407, R408, R415, R417,
R419, R427 to R429); ADMIT_ROUTE refuses an OUT that another IN feeds (R421, R426).
-/

namespace Sys2Proof.Machine

section
variable {p : Packet} {s : State} {r : StreamRec}

/-! ### GET_EXPOSURE (R427) -/

section
variable (named : fieldAt p.params 0 2 < 0x8000) (reserved : zeroAt p.params 2 2 = true)
include named reserved

theorem getExposure_running (found : mget s.records (fieldAt p.params 0 2) = some r) :
    getExposure p s
      = okBody s (exposureBytes s ((guestOf p.source).getD 0) (fieldAt p.params 0 2) r r.figures true) := by
  simp only [getExposure, found, badParam_false (decide_eq_false (Nat.not_le.2 named)), badParam_false (not_zeroAt reserved)]

/-- A record that is only latent shows the advisory figures of the configuration that declares it. -/
theorem getExposure_latent (absent : mget s.records (fieldAt p.params 0 2) = none)
    (found : mget (declView s (fieldAt p.params 0 2)).records (fieldAt p.params 0 2) = some r) :
    getExposure p s = okBody (drawn 2 s) (exposureBytes s ((guestOf p.source).getD 0) (fieldAt p.params 0 2) r
      (latentFigures s (declView s (fieldAt p.params 0 2)) (fieldAt p.params 0 2) r.decl) false) := by
  simp only [getExposure, absent, found, badParam_false (decide_eq_false (Nat.not_le.2 named)), badParam_false (not_zeroAt reserved)]

end

/-! ### GET_MONITORS and ACK_UNASSURED (R415, R428, R429) -/

section
variable {ch : Nat} (named : byteAt p.params 0 < 64) (mapped : srcChan s p.source (byteAt p.params 0) = some ch)
  (reserved : zeroAt p.params 1 3 = true)
include named mapped reserved

theorem getMonitors_named :
    getMonitors p s = okBody s (monitorRecord s ch (virtChan s ((guestOf p.source).getD 0) ch)) :=
  (withChan_some named mapped).trans (badParam_false (not_zeroAt reserved))

theorem ackUnassured_named :
    let t := ackCauses ch s
    ackUnassured p s = okBody t (le 1 (t.mon ch).causes.toNat ++ zeros 3 ++ le 8 (stampNow t)) :=
  (withChan_some named mapped).trans (badParam_false (not_zeroAt reserved))

end

end

/-! ### The causes that an acknowledgement leaves (R415) -/

theorem total_concat (l : List Nat) (n : Nat) : total (l ++ [n]) = total l + n := List.foldl_append

/-- The number whose low `n` bits are the flags `f`. -/
def maskOf (f : Nat → Bool) (n : Nat) : Nat := total ((List.range n).map fun b => flag (f b) (2 ^ b))

theorem maskOf_succ (f : Nat → Bool) (n : Nat) : maskOf f (n + 1) = 2 ^ n * (f n).toNat + maskOf f n := by
  rw [maskOf, List.range_succ, List.map_append, List.map_singleton, total_concat, Nat.add_comm, ← maskOf]
  cases f n <;> simp [flag]

theorem maskOf_lt (f : Nat → Bool) (n : Nat) : maskOf f n < 2 ^ n := by
  induction n with
  | zero => exact Nat.one_pos
  | succ n ih =>
    have top : 2 ^ n * (f n).toNat ≤ 2 ^ n * 1 := Nat.mul_le_mul_left _ (Bool.toNat_le _)
    rw [maskOf_succ, Nat.pow_succ]
    omega

theorem testBit_maskOf (f : Nat → Bool) (n b : Nat) : (maskOf f n).testBit b = (decide (b < n) && f b) := by
  induction n with
  | zero => exact Nat.zero_testBit b
  | succ n ih =>
    rw [maskOf_succ, Nat.testBit_two_pow_mul_add _ (maskOf_lt f n)]
    split
    next below => rw [ih, decide_eq_true below, decide_eq_true (Nat.lt_succ_of_lt below)]
    next above =>
      rw [Nat.testBit_bool_toNat]
      rcases Nat.eq_or_lt_of_not_lt above with rfl | beyond
      · simp
      · simp [Nat.sub_ne_zero_of_lt beyond, Nat.not_lt.2 beyond]

/-- Bit `b` of the active causes says whether the condition of cause `b` continues; only causes 1 to 5 have one (R414). -/
theorem activeCauses_testBit (s : State) (ch b : Nat) : (activeCauses s ch).testBit b = causeActive s ch b := by
  refine (testBit_maskOf (causeActive s ch) 7 b).trans ?_
  by_cases listed : b < 7
  · rw [decide_eq_true listed, Bool.true_and]
  · obtain ⟨k, rfl⟩ := Nat.exists_eq_add_of_le (Nat.not_lt.1 listed)
    rw [decide_eq_false listed, Bool.false_and, Nat.add_comm]
    rfl

theorem ackCauses_causes {ch : Nat} (bound : ch < 64) (s : State) :
    ((ackCauses ch s).mon ch).causes = (s.mon ch).causes &&& BitVec.ofNat 8 (activeCauses s ch) := by
  have kept := congrArg Monitor.causes
    (State.mon_modMon s ch (fun m => { m with causes := (s.mon ch).causes &&& BitVec.ofNat 8 (activeCauses s ch) }) bound)
  simp only [ackCauses]
  split
  · rw [State.mon, raiseEvents_monitors]
    exact kept
  · exact kept

/-- A cause stays exactly while its condition continues. -/
theorem ackCauses_cause_iff {ch b : Nat} (bound : ch < 64) (cause : b < 8) (s : State) :
    ((ackCauses ch s).mon ch).causes.getLsbD b = true ↔ (s.mon ch).causes.getLsbD b = true ∧ causeActive s ch b = true := by
  rw [ackCauses_causes bound, BitVec.getLsbD_and, BitVec.getLsbD_ofNat, activeCauses_testBit, decide_eq_true cause, Bool.true_and,
    Bool.and_eq_true]

/-! ### Deadline misses (R417, R419) -/

theorem deadlineMiss_timer {n : Nat} {s : State} {r : StreamRec} {x : Release} (found : mget s.records n = some r)
    (own : r.decl.foreign = false) (active : r.stopping = false) (runs : monitorsRun s r.decl.channel = true) (timer : timerOf r = some x) :
    let due := x.at_ + r.decl.deadline
    let mark := fun (y : Option Release) => y.map fun z => if z.at_ == x.at_ then { z with missed := true } else z
    let t := modRec n (fun r => { r with misses := inc32 r.misses, lastMiss := due, live := mark r.live, staged := mark r.staged
                                         failed := r.failed.filter fun y => y.at_ != x.at_ }) (reachTime due s)
    let t := t.modMon r.decl.channel fun m => { m with misses := inc32 m.misses, lastMiss := due }
    deadlineMiss n s = forEach (streamCtxs t r.decl) (fun c t => raiseEvent c 0x0902
      (le 2 n ++ le 1 (virtChan t c r.decl.channel) ++ le 1 (flag (!assured t r.decl.channel) 1) ++ zeros 4 ++ le 8 x.at_) t) t := by
  simp only [deadlineMiss, found, own, active, runs, timer, Bool.not_true, Bool.or_false, Bool.false_eq_true, if_false]

/-! ### The end of a stream's stop bath (R407, R408) -/

section
variable {n : Fin 32768} {s : State} {r : StreamRec} (found : mget s.records n.val = some r) (stopping : r.stopping = true)
  (live : r.stopLive = false) (staged : r.stopStaged = false)
include found stopping live staged

theorem execStreamStopBathEnd_free (free : r.held = none) :
    let t := streamBathEvent 0x09F0 n.val r.stopBy s
    execStreamStopBathEnd n s = next (refigure [r.decl.channel] { t with records := mdel t.records n.val }) := by
  simp only [execStreamStopBathEnd, found, stopping, live, staged, free, Bool.not_true, Bool.or_false, Bool.false_eq_true, if_false]

/-- The held declaration takes the record's place, its monitor empty. -/
theorem execStreamStopBathEnd_held {d : Decl} (held : r.held = some d) :
    let t := streamBathEvent 0x09F0 n.val r.stopBy s
    execStreamStopBathEnd n s = next (judgeMode r.decl.channel (streamBathEvent 0x09F1 n.val (.ctx (Fin.ofNat 64 d.ctx))
      (refigure [r.decl.channel, d.channel] { t with records := mset t.records n.val (recNew d) }))) := by
  simp only [execStreamStopBathEnd, found, stopping, live, staged, held, Bool.not_true, Bool.or_false, Bool.false_eq_true, if_false]
  rfl

end

/-! ### What an answer leaves alone -/

theorem answered_ctx (c : CmdSpec) (p : Packet) (st de : Nat) (b : List Byte) (t : State) (x : Nat) :
    (answered c p st de b t).ctx x = t.ctx x := congrArg (tget · x guestReset) (answered_tells c p st de b t).ctxs

/-! ### ADMIT_ROUTE with DEADLINE 0 (R421, R426) -/

/-- A withdrawal that names another IN than the one which feeds OUT is refused: OUT is already routed. -/
theorem admitRoute_routed_otherwise {p : Packet} {s : State} {q : RouteRec} (inNamed : fieldAt p.params 0 2 < 0x8000)
    (outNamed : fieldAt p.params 2 2 < 0x8000) (position : byteAt p.params 4 < 8) (reserved : zeroAt p.params 5 3 = true)
    (free : stageCtx p ≠ 0 ∨ s.bundle = none) (withdraws : fieldAt p.params 8 4 = 0)
    (routed : mget (stagedFor p s).routes (fieldAt p.params 2 2) = some q)
    (other : (q.inRec == fieldAt p.params 0 2 && q.inPos == byteAt p.params 4) = false) :
    admitRoute p s = .refuse stState 0x090800 := by
  refine (badParam_false (decide_eq_false (Nat.not_le.2 inNamed))).trans <|
    (badParam_false (decide_eq_false (Nat.not_le.2 outNamed))).trans <|
    (badParam_false (decide_eq_false (Nat.not_le.2 position))).trans <|
    (badParam_false (not_zeroAt reserved)).trans <| (bundleOpen_none free).trans <| refuseIf_true ?_
  simp only [withdraws, routed, other, if_true, Option.isSome_some, Bool.or_true, Bool.not_false, Bool.and_true]

/-- The own stream 0x10 takes its data from record 0x20 of the device at position 1; this device has a foreign record 0x20 too. -/
def routedState : State :=
  { streamState (fun r => { r with decl := { r.decl with feed := 1 } }) with
    routes := [(0x10, { inRec := 0x20, outRec := 0x10, inPos := 1, deadline := 5000000 })] }

/-- CTX0 withdraws a route from its own record 0x20 to stream 0x10, where there is none. -/
def strayWithdrawal : Packet := packetFrom (.ctx 0) 0x0905 [0x20, 0, 0x10, 0, 0, 0, 0, 0, 0, 0, 0, 0]

theorem accepts_strayWithdrawal : Accepts specAdmitRoute strayWithdrawal routedState := by
  constructor <;> decide +kernel

theorem execAdmitRoute_stray : execAdmitRoute strayWithdrawal routedState
    = .next (answered specAdmitRoute strayWithdrawal stState 0x090800 [] (taken strayWithdrawal routedState)) :=
  refused_of_accepts accepts_strayWithdrawal (by decide) (by decide)
    (admitRoute_routed_otherwise (by decide) (by decide) (by decide) (by decide) (.inr rfl) (by decide) rfl (by decide))

end Sys2Proof.Machine

open Sys2Proof Sys2Proof.Machine

/-- Refutes O40: of a route with DEADLINE 0 the statement asks only that IN is foreign and OUT an own stream; where another IN feeds
OUT, OUT is already routed and the command is refused (R421), so that nothing is staged. -/
theorem not_declarationsAreStaged : ¬ Obligations.DeclarationsAreStaged := by
  intro claim
  obtain ⟨-, -, -, -, route⟩ := claim
  have staged := route strayWithdrawal routedState _ accepts_strayWithdrawal (by decide) (by decide) (by decide) (by decide)
    (.inr ⟨by decide, by decide⟩) (.inr rfl) rfl
  have same := Host.Outcome.next.inj (execAdmitRoute_stray.symm.trans staged)
  have latents := congrArg (fun t => (State.ctx t 0).latent.length) same
  simp only [answered_ctx] at latents
  exact absurd latents (by decide)

/-- Settles O41: the commands read or acknowledge the monitor as taking the packet leaves it, the events by the record they name. -/
theorem admissionMonitorsComplete : Obligations.AdmissionMonitorsComplete := by
  refine ⟨fun p s r accepts named reserved =>
      ⟨fun found => answered_of_accepts accepts (getExposure_running named reserved found),
        fun absent found => answered_of_accepts accepts (getExposure_latent named reserved absent found)⟩,
    fun p s ch accepts named mapped reserved => ?_, fun p s ch accepts named mapped reserved => ?_,
    fun n s r x found own active runs timer => congrArg next (deadlineMiss_timer found own active runs timer),
    fun n s r found stopping live staged => ⟨execStreamStopBathEnd_free found stopping live staged,
      fun d held _ => execStreamStopBathEnd_held found stopping live staged held⟩⟩
  · rw [← taken_srcChan p s] at mapped
    exact ⟨answered_of_accepts accepts (ackUnassured_named named mapped reserved),
      fun bound b cause => ackCauses_cause_iff bound cause (taken p s)⟩
  · rw [← taken_srcChan p s] at mapped
    exact answered_of_accepts accepts (getMonitors_named named mapped reserved)

end

