-- ==== Sys2Proof/Proofs/SignalBits.lean ====
section
/-!
PROOFS. The bits of a signal lie where its ORDER puts them; packing writes exactly those bits (R434, R435, R437).
-/

namespace Sys2Proof.Machine

/-! ### The positions of a signal (R435) -/

@[simp] theorem length_bigWalk (n p : Nat) : (bigWalk n p).length = n := by
  induction n generalizing p with
  | zero => rfl
  | succ n ih => simp only [bigWalk, List.length_cons, ih]

@[simp] theorem length_sigBits (big : Bool) (len start : Nat) : (sigBits big len start).length = len := by
  cases big <;> simp [sigBits]

theorem sigBits_little {len start i : Nat} (h : i < len) : (sigBits false len start)[i]? = some (start + i) := by
  simp [sigBits, h]

/-- The k-th step of the walk over the positions of ORDER 1, from the most significant bit. -/
def bigPos (start : Nat) : Nat → Nat
  | 0 => start
  | k + 1 => if bigPos start k % 8 = 0 then bigPos start k + 15 else bigPos start k - 1

theorem bigPos_succ' (start k : Nat) : bigPos start (k + 1) = bigPos (if start % 8 = 0 then start + 15 else start - 1) k := by
  induction k with
  | zero => rfl
  | succ k ih => rw [bigPos, ih]; rfl

theorem getElem?_bigWalk {n k : Nat} (start : Nat) (h : k < n) : (bigWalk n start)[k]? = some (bigPos start k) := by
  induction n generalizing start k with
  | zero => omega
  | succ n ih =>
    cases k with
    | zero => rfl
    | succ k => rw [bigWalk, List.getElem?_cons_succ, ih _ (by omega), bigPos_succ']

theorem sigBits_big {len start i : Nat} (h : i < len) : (sigBits true len start)[i]? = some (bigPos start (len - 1 - i)) := by
  simp only [sigBits, if_true]
  rw [List.getElem?_reverse (by rw [length_bigWalk]; exact h), length_bigWalk, getElem?_bigWalk start (by omega)]

/-- The place of a position when the bits of a byte string are counted with bit 7 of each byte first. -/
def msbRank (p : Nat) : Nat := 8 * (p / 8) + (7 - p % 8)

theorem msbRank_bigPos (start k : Nat) : msbRank (bigPos start k) = msbRank start + k := by
  induction k with
  | zero => rfl
  | succ k ih =>
    rw [← Nat.add_assoc, ← ih, bigPos]
    unfold msbRank
    split <;> omega

/-- No two bits of a signal share a position. -/
theorem nodup_sigBits (big : Bool) (len start : Nat) : (sigBits big len start).Nodup := by
  cases big with
  | false => exact List.nodup_range.map fun a b h => Nat.add_left_cancel h
  | true =>
    refine List.nodup_reverse.2 (List.nodup_iff_injective_get.2 fun a b same => Fin.ext ?_)
    have place : ∀ k : Fin (bigWalk len start).length, (bigWalk len start).get k = bigPos start k := fun k =>
      Option.some.inj ((List.getElem?_eq_getElem k.isLt).symm.trans (getElem?_bigWalk start (k.isLt.trans_eq (length_bigWalk ..))))
    rw [place, place] at same
    have ranks := congrArg msbRank same
    rw [msbRank_bigPos, msbRank_bigPos] at ranks
    exact Nat.add_left_cancel ranks

/-! ### One bit of a byte string (R434) -/

@[simp] theorem length_lmod {α : Type} (l : List α) (i : Nat) (f : α → α) : (lmod l i f).length = l.length := by
  induction l generalizing i with
  | nil => rfl
  | cons a l ih => cases i <;> simp [lmod, ih]

theorem getD_lmod_self {α : Type} {l : List α} {i : Nat} (f : α → α) (d : α) (h : i < l.length) :
    (lmod l i f).getD i d = f (l.getD i d) := by
  induction l generalizing i with
  | nil => exact absurd h (by simp)
  | cons a l ih =>
    cases i with
    | zero => rfl
    | succ i => simpa [lmod] using ih (by simpa using h)

theorem getD_lmod_ne {α : Type} {l : List α} {i j : Nat} (f : α → α) (d : α) (h : i ≠ j) : (lmod l i f).getD j d = l.getD j d := by
  induction l generalizing i j with
  | nil => rfl
  | cons a l ih =>
    cases i <;> cases j <;> simp only [lmod, List.getD_cons_zero, List.getD_cons_succ]
    · exact absurd rfl h
    · exact ih (by omega)

/-- Bit `b` of a byte string set to `x`. -/
def putBit (data : List Byte) (b : Nat) (x : Bool) : List Byte :=
  lmod data (b / 8) fun y => if x then y ||| 1#8 <<< (b % 8) else y &&& ~~~(1#8 <<< (b % 8))

theorem scatterBits_cons (data : List Byte) (v b : Nat) (l : List Nat) :
    scatterBits data v (b :: l) = scatterBits (putBit data b (decide (v % 2 = 1))) (v / 2) l := by
  simp [scatterBits, putBit]

@[simp] theorem length_putBit (data : List Byte) (b : Nat) (x : Bool) : (putBit data b x).length = data.length := length_lmod _ _ _

theorem pduBit_putBit_self {data : List Byte} {b : Nat} (x : Bool) (h : b < 8 * data.length) : pduBit (putBit data b x) b = x := by
  rw [pduBit, putBit, getD_lmod_self _ _ (by omega)]
  have low : b % 8 < 8 := Nat.mod_lt _ (by decide)
  cases x <;> simp [low]

theorem pduBit_putBit_ne {data : List Byte} {b c : Nat} (x : Bool) (h : c ≠ b) : pduBit (putBit data b x) c = pduBit data c := by
  unfold pduBit putBit
  by_cases byte : b / 8 = c / 8
  · have bit : c % 8 ≠ b % 8 := by omega
    by_cases inside : b / 8 < data.length
    · rw [← byte, getD_lmod_self _ _ inside]
      have low : c % 8 < 8 := Nat.mod_lt _ (by decide)
      cases x <;> simp [low] <;> omega
    · have past : data.length ≤ c / 8 := by omega
      rw [List.getD_eq_default _ _ (by simpa using past), List.getD_eq_default _ _ past]
  · rw [getD_lmod_ne _ _ byte]

/-! ### The bits of a signal (R435, R437) -/

@[simp] theorem length_scatterBits (data : List Byte) (v : Nat) (l : List Nat) : (scatterBits data v l).length = data.length := by
  induction l generalizing data v with
  | nil => rfl
  | cons b l ih => rw [scatterBits_cons, ih, length_putBit]

/-- Packing leaves every bit outside the positions. -/
theorem pduBit_scatterBits {l : List Nat} {c : Nat} (h : c ∉ l) (data : List Byte) (v : Nat) :
    pduBit (scatterBits data v l) c = pduBit data c := by
  induction l generalizing data v with
  | nil => rfl
  | cons b l ih =>
    obtain ⟨ne, rest⟩ := not_or.1 (mt List.mem_cons.2 h)
    rw [scatterBits_cons, ih rest, pduBit_putBit_ne _ ne]

theorem gatherBits_scatterBits {l : List Nat} (distinct : l.Nodup) {data : List Byte} (inside : ∀ b ∈ l, b < 8 * data.length) (v : Nat) :
    gatherBits (scatterBits data v l) l = v % 2 ^ l.length := by
  induction l generalizing data v with
  | nil => exact (Nat.mod_one v).symm
  | cons b l ih =>
    obtain ⟨fresh, distinct⟩ := List.nodup_cons.1 distinct
    have head := pduBit_putBit_self (decide (v % 2 = 1)) (inside b (.head _))
    have rest := ih distinct (data := putBit data b (decide (v % 2 = 1)))
      (fun c hc => by rw [length_putBit]; exact inside c (.tail _ hc)) (v / 2)
    rw [scatterBits_cons]
    show 2 * gatherBits _ l + flag (pduBit _ b) 1 = _
    rw [rest, pduBit_scatterBits fresh, head, List.length_cons, Nat.pow_succ', Nat.mod_mul, flag]
    split <;> simp_all
    omega

end Sys2Proof.Machine

open Sys2Proof Sys2Proof.Machine

/-- Settles O46: the positions of either ORDER are told one by one and are distinct, so that each bit written is read back. -/
theorem signalsPackAndUnpack : Obligations.SignalsPackAndUnpack := by
  refine ⟨fun len start i => sigBits_little, fun len start some_ => ?_, fun len start i p below here => ?_,
    fun big len start v data inside => ?_⟩
  · rw [sigBits_big (Nat.sub_lt some_ Nat.one_pos), Nat.sub_self, bigPos]
  · rw [sigBits_big below] at here
    rw [sigBits_big (by omega), show len - 1 - i = len - 1 - (i + 1) + 1 by omega, bigPos, Option.some.inj here]
  · have packed := gatherBits_scatterBits (nodup_sigBits big len start) inside v
    rw [length_sigBits] at packed
    exact ⟨length_sigBits .., packed, length_scatterBits .., fun b out => pduBit_scatterBits out data v⟩

end

