-- ==== Sys2Proof/Proofs/CheckValues.lean ====
section
/-!
PROOFS. The algorithm of the check-value units, the check of an inbound field and the append of an outbound one (R448, R474, R475, R481, R482).
-/

namespace Sys2Proof.Machine

/-! ### Numbers as bytes (R9) -/

@[simp] theorem length_le (n v : Nat) : (le n v).length = n := by
  induction n generalizing v with
  | zero => rfl
  | succ n ih => rw [le, List.length_cons, ih]

theorem leVal_le (n v : Nat) : leVal (le n v) = v % 256 ^ n := by
  induction n generalizing v with
  | zero => exact (Nat.mod_one v).symm
  | succ n ih =>
    rw [le, leVal, ih, BitVec.toNat_ofNat, pow_succ' 256 n]
    exact Nat.mod_mul.symm

/-! ### Reflection (R474) -/

theorem reflect_succ (n v : Nat) : reflect (n + 1) v = Nat.bit (bitOf v n) (reflect n v) := by
  rw [reflect, List.range_succ, List.foldl_append]
  show 2 * reflect n v + flag (bitOf v n) 1 = _
  rw [Nat.bit_val, flag]
  cases bitOf v n <;> rfl

theorem testBit_reflect {n i : Nat} (v : Nat) (h : i < n) : (reflect n v).testBit i = v.testBit (n - 1 - i) := by
  induction n generalizing i with
  | zero => exact absurd h (Nat.not_lt_zero i)
  | succ n ih =>
    rw [reflect_succ]
    cases i with
    | zero => rw [Nat.testBit_bit_zero]; rfl
    | succ i => rw [Nat.testBit_bit_succ, ih (by omega), show n + 1 - 1 - (i + 1) = n - 1 - i by omega]

theorem reflect_lt (n v : Nat) : reflect n v < 2 ^ n := by
  induction n with
  | zero => exact Nat.one_pos
  | succ n ih =>
    rw [reflect_succ, Nat.bit_val, Nat.pow_succ]
    cases bitOf v n <;> simp <;> omega

/-! ### The register (R474) -/

section
variable {q : CvuParams}

theorem cvuFeed_append (q : CvuParams) (r : BitVec 64) (l m : List Byte) : cvuFeed q r (l ++ m) = cvuFeed q (cvuFeed q r l) m :=
  List.foldl_append

section
variable (poly : q.poly.toNat < 2 ^ q.width)
include poly

/-- A bit of the inner loop leaves the register within W bits. -/
theorem cvuBit_lt (r : BitVec 64) (bit : Bool) : (cvuBit q r bit).toNat < 2 ^ q.width := by
  have masked : (r <<< 1 &&& BitVec.ofNat 64 (2 ^ q.width - 1)).toNat < 2 ^ q.width := by
    rw [BitVec.toNat_and]
    refine Nat.lt_of_le_of_lt (Nat.and_le_right.trans ((BitVec.toNat_ofNat ..).trans_le (Nat.mod_le _ _))) ?_
    exact Nat.sub_lt (Nat.two_pow_pos _) Nat.one_pos
  unfold cvuBit
  dsimp only
  split
  · rw [BitVec.toNat_xor]
    exact Nat.xor_lt_two_pow masked poly
  · exact masked

theorem cvuByte_lt (r : BitVec 64) (b : Byte) : (cvuByte q r b).toNat < 2 ^ q.width := cvuBit_lt poly _ _

theorem cvuFeed_lt {r : BitVec 64} (start : r.toNat < 2 ^ q.width) (l : List Byte) : (cvuFeed q r l).toNat < 2 ^ q.width := by
  induction l generalizing r with
  | nil => exact start
  | cons b l ih => exact ih (cvuByte_lt poly r b)

end

/-! ### Check values are linear in the data (R474) -/

theorem cvuBit_xor (r₁ r₂ : BitVec 64) (a b : Bool) : cvuBit q (r₁ ^^^ r₂) (a ^^ b) = cvuBit q r₁ a ^^^ cvuBit q r₂ b := by
  have top : ((r₁ ^^^ r₂).getLsbD (q.width - 1) != (a ^^ b))
      = ((r₁.getLsbD (q.width - 1) != a) ^^ (r₂.getLsbD (q.width - 1) != b)) := by
    rw [BitVec.getLsbD_xor]
    cases r₁.getLsbD (q.width - 1) <;> cases r₂.getLsbD (q.width - 1) <;> cases a <;> cases b <;> rfl
  have rest : (r₁ ^^^ r₂) <<< 1 &&& BitVec.ofNat 64 (2 ^ q.width - 1)
      = (r₁ <<< 1 &&& BitVec.ofNat 64 (2 ^ q.width - 1)) ^^^ (r₂ <<< 1 &&& BitVec.ofNat 64 (2 ^ q.width - 1)) := by
    rw [BitVec.shiftLeft_xor_distrib]
    ext i
    simp [Bool.and_xor_distrib_right]
  unfold cvuBit
  rw [top, rest]
  dsimp only
  generalize r₁ <<< 1 &&& BitVec.ofNat 64 (2 ^ q.width - 1) = x
  generalize r₂ <<< 1 &&& BitVec.ofNat 64 (2 ^ q.width - 1) = y
  cases (r₁.getLsbD (q.width - 1) != a) <;> cases (r₂.getLsbD (q.width - 1) != b)
  · rfl
  · exact BitVec.xor_assoc x y q.poly
  · show x ^^^ y ^^^ q.poly = x ^^^ q.poly ^^^ y
    rw [BitVec.xor_assoc, BitVec.xor_comm y, ← BitVec.xor_assoc]
  · show x ^^^ y = x ^^^ q.poly ^^^ (y ^^^ q.poly)
    rw [BitVec.xor_comm y, BitVec.xor_assoc, ← BitVec.xor_assoc q.poly, BitVec.xor_self, BitVec.zero_xor]

/-- The value fed for a byte: the byte, reflected with REFIN. -/
def fedByte (q : CvuParams) (b : Byte) : Nat := if q.refin then reflect 8 b.toNat else b.toNat

theorem bitOf_fedByte_xor (b c : Byte) {i : Nat} (h : i < 8) :
    bitOf (fedByte q (b ^^^ c)) i = (bitOf (fedByte q b) i ^^ bitOf (fedByte q c) i) := by
  unfold fedByte bitOf
  split
  · simp only [testBit_reflect _ h, BitVec.toNat_xor, Nat.testBit_xor]
  · rw [BitVec.toNat_xor, Nat.testBit_xor]

theorem cvuByte_xor (r₁ r₂ : BitVec 64) (b c : Byte) : cvuByte q (r₁ ^^^ r₂) (b ^^^ c) = cvuByte q r₁ b ^^^ cvuByte q r₂ c := by
  have fed : ∀ (l : List Nat) (x y : BitVec 64), (∀ i ∈ l, i < 8) →
      l.foldl (fun r i => cvuBit q r (bitOf (fedByte q (b ^^^ c)) i)) (x ^^^ y)
        = l.foldl (fun r i => cvuBit q r (bitOf (fedByte q b) i)) x ^^^ l.foldl (fun r i => cvuBit q r (bitOf (fedByte q c) i)) y := by
    intro l
    induction l with
    | nil => exact fun _ _ _ => rfl
    | cons i l ih =>
      intro x y low
      rw [List.foldl_cons, bitOf_fedByte_xor b c (low i (.head _)), cvuBit_xor]
      exact ih _ _ fun j mem => low j (.tail _ mem)
  exact fed [7, 6, 5, 4, 3, 2, 1, 0] r₁ r₂ (by decide)

theorem cvuFeed_xor (r₁ r₂ : BitVec 64) {l m : List Byte} (same : m.length = l.length) :
    cvuFeed q (r₁ ^^^ r₂) (List.zipWith (· ^^^ ·) l m) = cvuFeed q r₁ l ^^^ cvuFeed q r₂ m := by
  induction l generalizing r₁ r₂ m with
  | nil =>
    obtain rfl := List.length_eq_zero_iff.1 same
    rfl
  | cons b l ih =>
    cases m with
    | nil => cases same
    | cons c m =>
      show cvuFeed q (cvuByte q (r₁ ^^^ r₂) (b ^^^ c)) _ = _
      rw [cvuByte_xor]
      exact ih _ _ (Nat.succ.inj same)

/-! ### RESULT and the field of a PDU (R448, R475, R481, R482) -/

theorem cvuResult_lt {r : BitVec 64} (fits : r.toNat < 2 ^ q.width) (out : q.xorout.toNat < 2 ^ q.width) :
    (cvuResult q r).toNat < 2 ^ q.width := by
  rw [cvuResult, BitVec.toNat_xor]
  refine Nat.xor_lt_two_pow ?_ out
  split
  · exact (BitVec.toNat_ofNat ..).trans_le (Nat.mod_le _ _) |>.trans_lt (reflect_lt ..)
  · exact fits

end

section
variable {p : PduSet} {q : CvuParams} {s : State}

/-- A run of a unit leaves the parameters of every unit. -/
theorem params_cvuRun (u : Nat) (c : CvuParams) (l : List Byte) (s : State) (n : Nat) :
    ((cvuRun u c l s).cvu n).params = (s.cvu n).params := by
  by_cases same : u = n
  · subst same
    by_cases h : u < 32
    · simp only [cvuRun, State.cvu, State.modCvu, tget_tmod_self _ _ h]
    · simp [cvuRun, State.cvu, State.modCvu, tmod, h]
  · simp only [cvuRun, State.cvu, State.modCvu, tget_tmod_ne _ _ same]

theorem cvBytes_cvuRun (u : Nat) (c : CvuParams) (l : List Byte) : cvBytes (cvuRun u c l s) p = cvBytes s p := by
  rw [cvBytes, params_cvuRun]
  rfl

theorem cvField_cvuRun (u : Nat) (c : CvuParams) (l data : List Byte) : cvField (cvuRun u c l s) p data = cvField s p data := by
  rw [cvField, cvBytes_cvuRun]
  rfl

theorem reg_cvuRun {u : Nat} (unit : u < 32) (c : CvuParams) (l : List Byte) : ((cvuRun u c l s).cvu u).reg = cvuFeed c c.init l := by
  simp only [cvuRun, State.cvu, State.modCvu, tget_tmod_self _ _ unit]

section
variable (en : p.cvEn = true) (unit : p.cvu < 32) (named : (s.cvu p.cvu).params = some q)
include en unit named

theorem cvCheck_fst (data : List Byte) :
    (cvCheck p data s).1 = ((cvuResult q (cvuFeed q q.init (cvCovered s p data))).toNat == cvField s p data) := by
  simp only [cvCheck, en, named, Bool.not_true, Bool.false_eq_true, if_false, reg_cvuRun unit, cvField_cvuRun]

theorem cvAppend_fst (data : List Byte) : (cvAppend p data s).1 = data.take p.cvPos
    ++ cvFieldBytes p.cvOrder (cvBytes s p) (cvuResult q (cvuFeed q q.init (cvCovered s p data)))
    ++ data.drop (p.cvPos + cvBytes s p) := by
  simp only [cvAppend, en, named, Bool.not_true, Bool.false_eq_true, if_false, reg_cvuRun unit]

end

@[simp] theorem length_cvFieldBytes (big : Bool) (n : Nat) (r : BitVec 64) : (cvFieldBytes big n r).length = n := by
  cases big <;> simp [cvFieldBytes]

/-- A value of at most W bits is read back from its field (R448). -/
theorem fieldBytes_read {w : Nat} {r : BitVec 64} (fits : r.toNat < 2 ^ w) (big : Bool) :
    (if big then beVal (cvFieldBytes big (ceilDiv w 8) r) else leVal (cvFieldBytes big (ceilDiv w 8) r)) = r.toNat := by
  have room : 2 ^ w ≤ 256 ^ ceilDiv w 8 := by
    rw [show 256 = 2 ^ 8 from rfl, ← Nat.pow_mul]
    exact Nat.pow_le_pow_right Nat.two_pos (by unfold ceilDiv; omega)
  have read : leVal (le (ceilDiv w 8) r.toNat) = r.toNat := (leVal_le ..).trans (Nat.mod_eq_of_lt (fits.trans_le room))
  cases big
  · exact read
  · simpa [cvFieldBytes, beVal] using read

/-- Bytes put in the place of as many others: length, the bytes around, the bytes put. -/
theorem splice_parts {data f : List Byte} {pos n : Nat} (inside : pos + n ≤ data.length) (size : f.length = n) :
    let out := data.take pos ++ f ++ data.drop (pos + n)
    out.length = data.length ∧ out.take pos ++ out.drop (pos + n) = data.take pos ++ data.drop (pos + n) ∧ (out.drop pos).take n = f := by
  have first : (data.take pos).length = pos := List.length_take_of_le (by omega)
  have both : (data.take pos ++ f).length = pos + n := by rw [List.length_append, first, size]
  refine ⟨?_, ?_, ?_⟩
  · rw [List.length_append, both, List.length_drop]
    omega
  · rw [List.drop_left' both, List.append_assoc, List.take_left' first]
  · rw [List.append_assoc, List.drop_left' first, List.take_left' size]

end

end Sys2Proof.Machine

open Sys2Proof Sys2Proof.Machine

/-- Settles O48: each bit fed keeps the register within W bits and is linear; the check compares RESULT over the bytes that the append
leaves as they were. -/
theorem checkValuesFollowR474 : Obligations.CheckValuesFollowR474 := by
  refine ⟨fun q r₁ r₂ l _ _ poly first _ => ⟨cvuFeed_lt poly first l, fun m => (cvuFeed_append q r₁ l m).symm,
    fun m same => cvuFeed_xor r₁ r₂ same⟩, fun p q data s en unit named _ poly init out inside => ?_⟩
  have fits : (cvuResult q (cvuFeed q q.init (cvCovered s p data))).toNat < 2 ^ q.width := cvuResult_lt (cvuFeed_lt poly init _) out
  obtain ⟨size, around, put⟩ := splice_parts inside (length_cvFieldBytes p.cvOrder (cvBytes s p) (cvuResult q (cvuFeed q q.init (cvCovered s p data))))
  have wide : cvBytes s p = ceilDiv q.width 8 := by rw [cvBytes, named]
  refine ⟨?_, ?_⟩
  · rw [cvCheck_fst en unit named, beq_iff_eq]
    exact eq_comm
  · rw [cvAppend_fst en unit named]
    refine ⟨size, around, ?_⟩
    rw [cvField, put, wide]
    exact fieldBytes_read fits p.cvOrder

end

