-- ==== Sys2Proof/Proofs/ChainFrames.lean ====
section
/-!
PROOFS. Chain frames: each output writes its own bits of the frame, and the others stay as BASE has them.
-/

namespace Sys2Proof.Machine

/-! ### Fields of a frame (R500) -/

/-- A number by the bits below `p`, the `w` bits from `p` and those above. -/
theorem frame_parts (f p w : Nat) : f = 2 ^ p * (2 ^ w * (f / 2 ^ p / 2 ^ w) + bitsOf f p w) + f % 2 ^ p := by
  rw [bitsOf, Nat.div_add_mod, Nat.div_add_mod]

theorem putField_parts (f p w v : Nat) :
    putField f p w v = 2 ^ p * (2 ^ w * (f / 2 ^ p / 2 ^ w) + v % 2 ^ w) + f % 2 ^ p := by
  have parts := frame_parts f p w
  rw [Nat.mul_add] at parts
  rw [putField, Nat.mul_add, Nat.mul_comm (bitsOf f p w), Nat.mul_comm (v % 2 ^ w)]
  omega

/-- A field put into a frame replaces its bits and no other. -/
theorem testBit_putField (f p w v b : Nat) :
    (putField f p w v).testBit b = if p ≤ b ∧ b < p + w then v.testBit (b - p) else f.testBit b := by
  have low : f % 2 ^ p < 2 ^ p := Nat.mod_lt _ (Nat.two_pow_pos p)
  have old : bitsOf f p w < 2 ^ w := Nat.mod_lt _ (Nat.two_pow_pos w)
  have new : v % 2 ^ w < 2 ^ w := Nat.mod_lt _ (Nat.two_pow_pos w)
  rw [putField_parts]
  conv_rhs => rw [frame_parts f p w]
  simp only [Nat.testBit_two_pow_mul_add _ low, Nat.testBit_two_pow_mul_add _ old, Nat.testBit_two_pow_mul_add _ new,
    Nat.testBit_mod_two_pow]
  by_cases below : b < p
  · simp [below, Nat.not_le.2 below]
  · by_cases inside : b - p < w
    · simp [below, inside, show p ≤ b by omega, show b < p + w by omega]
    · simp [below, inside, show ¬ b < p + w by omega]

/-- A field of `w` bits is the number below 2^w that spells them. -/
theorem bitsOf_eq {f p w v : Nat} (fits : v < 2 ^ w) (same : ∀ k, k < w → f.testBit (p + k) = v.testBit k) : bitsOf f p w = v := by
  refine Nat.eq_of_testBit_eq fun k => ?_
  rw [bitsOf, Nat.testBit_mod_two_pow, Nat.testBit_div_two_pow, Nat.add_comm k p]
  by_cases inside : k < w
  · simp only [inside, decide_true, Bool.true_and, same k inside]
  · have past : v < 2 ^ k := fits.trans_le (Nat.pow_le_pow_right Nat.two_pos (Nat.not_lt.1 inside))
    simp only [inside, decide_false, Bool.false_and, Nat.testBit_lt_two_pow past]

/-! ### What an output writes (R500) -/

/-- The bits that an output's ON and DUTY fields take. -/
def drivenBits (x : OutFields) : List Nat := (driveBits x).map (·.1)

/-- The DUTY field of W bits for an effective duty (R500). -/
def dutyField (e w : Nat) : Nat := (e * (2 ^ w - 1) + 500) / 1000

/-- A frame with the fields of one output put in. -/
def driveOutput (on : Bool) (e : Nat) (x : OutFields) (v : Nat) : Nat :=
  if x.dutyW = 0 || x.dutyPos = 0xFF then putField v x.onPos 1 (flag on 1)
  else putField (putField v x.onPos 1 (flag on 1)) x.dutyPos x.dutyW (dutyField e x.dutyW)

theorem mem_drivenBits {x : OutFields} {b : Nat} :
    b ∈ drivenBits x ↔ b = x.onPos ∨ (x.dutyPos ≠ 0xFF ∧ x.dutyPos ≤ b ∧ b < x.dutyPos + x.dutyW) := by
  unfold drivenBits driveBits
  split
  next absent => simp [absent]
  next present =>
    simp only [List.map_cons, List.mem_cons, List.map_map, List.mem_map, List.mem_range, Function.comp_apply, present, ne_eq,
      not_false_eq_true, true_and]
    refine or_congr_right ⟨?_, fun h => ⟨b - x.dutyPos, by omega, by omega⟩⟩
    rintro ⟨k, low, rfl⟩
    omega

section
variable (on : Bool) (e : Nat) {x : OutFields} (v : Nat)

theorem driveOutput_other {b : Nat} (out : b ∉ drivenBits x) : (driveOutput on e x v).testBit b = v.testBit b := by
  rw [mem_drivenBits, not_or, not_and] at out
  obtain ⟨apart, outside⟩ := out
  have first : (putField v x.onPos 1 (flag on 1)).testBit b = v.testBit b := by
    rw [testBit_putField, if_neg (by omega)]
  unfold driveOutput
  split
  · exact first
  next some_ =>
    simp only [Bool.or_eq_true, decide_eq_true_eq, not_or] at some_
    rw [testBit_putField, if_neg (outside some_.2), first]

theorem driveOutput_on (apart : (drivenBits x).Nodup) : (driveOutput on e x v).testBit x.onPos = on := by
  have set : (putField v x.onPos 1 (flag on 1)).testBit x.onPos = on := by
    rw [testBit_putField, if_pos (by omega), Nat.sub_self]
    cases on <;> rfl
  unfold driveOutput
  split
  · exact set
  next some_ =>
    simp only [Bool.or_eq_true, decide_eq_true_eq, not_or] at some_
    have fresh : x.onPos ∉ (List.range x.dutyW).map (x.dutyPos + ·) := by
      simp only [drivenBits, driveBits, some_.2, if_false, List.map_cons, List.map_map, List.nodup_cons] at apart
      exact apart.1
    rw [testBit_putField, if_neg fun inside => fresh ?_, set]
    exact List.mem_map.2 ⟨x.onPos - x.dutyPos, List.mem_range.2 (by omega), by omega⟩

theorem driveOutput_duty {k : Nat} (present : x.dutyPos ≠ 0xFF) (inside : k < x.dutyW) :
    (driveOutput on e x v).testBit (x.dutyPos + k) = (dutyField e x.dutyW).testBit k := by
  have some_ : ¬ (decide (x.dutyW = 0) || decide (x.dutyPos = 0xFF)) = true := by
    simp only [Bool.or_eq_true, decide_eq_true_eq]
    omega
  rw [driveOutput, if_neg some_, testBit_putField, if_pos (by omega), Nat.add_sub_cancel_left]

end

/-- Where only `o` of a list writes a bit, the bit is as `o` wrote it. -/
theorem testBit_foldl {step : Nat → Nat → Nat} {b o : Nat} {l : List Nat} (mem : o ∈ l) (once : l.Nodup)
    (others : ∀ i ∈ l, i ≠ o → ∀ v, (step v i).testBit b = v.testBit b) (v : Nat) :
    ∃ w, (l.foldl step v).testBit b = (step w o).testBit b := by
  induction l generalizing v with
  | nil => cases mem
  | cons i l ih =>
    obtain ⟨fresh, once⟩ := List.nodup_cons.1 once
    have rest : ∀ j ∈ l, j ≠ o → ∀ v, (step v j).testBit b = v.testBit b := fun j hj => others j (.tail _ hj)
    by_cases here : i = o
    · subst here
      exact ⟨v, testBit_foldl_other fun j hj => rest j hj fun e => fresh (e ▸ hj)⟩
    · exact ih ((List.mem_cons.1 mem).resolve_left (Ne.symm here)) once rest (step v i)
where
  /-- A bit that nothing of a list writes stays. -/
  testBit_foldl_other {step : Nat → Nat → Nat} {b : Nat} {l : List Nat} {v : Nat}
      (others : ∀ i ∈ l, ∀ v, (step v i).testBit b = v.testBit b) : (l.foldl step v).testBit b = v.testBit b := by
    induction l generalizing v with
    | nil => rfl
    | cons i l ih => exact (ih fun j hj => others j (.tail _ hj)).trans (others i (.head _) v)

/-! ### The frame of a position (R500) -/

section
variable (s : State) (c q : Nat) (f : Profile)

/-- Whether the load of output `o` is on; none is off. -/
def onAt (o : Nat) : Bool := ((loadAt s c q o).map s.ld).any outputOn

/-- The effective duty of the load of output `o`, 0 without one. -/
def effAt (o : Nat) : Nat := (((loadAt s c q o).map s.ld).map (·.eff)).getD 0

/-- The fields of output `o` as the frame takes them. -/
def fieldsAt (o : Nat) : OutFields :=
  f.outs.getD o { onPos := 0, dutyPos := 0xFF, dutyW := 0, faultPos := 0xFF, tempPos := 0xFF, openPos := 0xFF, uvPos := 0xFF, curPos := 0xFF, curW := 0, pol := 0 }

theorem chainFrame_foldl : chainFrame s c f q
    = (List.range f.outputs).foldl (fun v o => driveOutput (onAt s c q o) (effAt s c q o) (fieldsAt f o) v) (f.base % 2 ^ f.frameBits) := by
  unfold chainFrame
  congr 1
  funext v o
  unfold onAt effAt
  cases loadAt s c q o <;> rfl

theorem effAt_le (bound : ∀ n, n < 96 → (s.ld n).eff ≤ 1000) (o : Nat) : effAt s c q o ≤ 1000 := by
  unfold effAt
  cases found : loadAt s c q o with
  | none => exact Nat.zero_le _
  | some n => exact bound n (List.mem_range.1 (List.mem_of_find?_eq_some found))

variable {s c q f} {k : Nat} {x : OutFields} (here : f.outs[k]? = some x)
include here

theorem fieldsAt_eq : fieldsAt f k = x := by rw [fieldsAt, List.getD_eq_getElem?_getD, here]; rfl

variable (size : f.outs.length = f.outputs) (apart : (f.outs.flatMap drivenBits).Nodup)
include size apart

/-- A bit that output `k` writes is as its fields say. -/
theorem testBit_chainFrame {b : Nat} (mem : b ∈ drivenBits x) :
    ∃ v, (chainFrame s c f q).testBit b = (driveOutput (onAt s c q k) (effAt s c q k) x v).testBit b := by
  obtain ⟨inside, at_⟩ := List.getElem?_eq_some_iff.1 here
  have pairs := (List.nodup_flatMap.1 apart).2
  rw [chainFrame_foldl]
  have found := testBit_foldl (step := fun v o => driveOutput (onAt s c q o) (effAt s c q o) (fieldsAt f o) v) (b := b)
    (List.mem_range.2 (size ▸ inside)) List.nodup_range (fun i hi ne v => driveOutput_other _ _ v fun mem' => ?_)
    (f.base % 2 ^ f.frameBits)
  · rwa [fieldsAt_eq here] at found
  · have hi : i < f.outs.length := size ▸ List.mem_range.1 hi
    rw [fieldsAt_eq (List.getElem?_eq_getElem hi)] at mem'
    subst at_
    rcases Nat.lt_or_gt_of_ne ne with lt | gt
    · exact List.pairwise_iff_getElem.1 pairs i k hi inside lt mem' mem
    · exact List.pairwise_iff_getElem.1 pairs k i inside hi gt mem mem'

end

end Sys2Proof.Machine

open Sys2Proof Sys2Proof.Machine

/-- Settles O52: outputs whose driven bits lie apart do not write over one another, so a bit of the frame is as the one
output that writes it says (R500); the response's fields are `OutFields`' own reading (R501). -/
theorem chainFramesCarryOnAndDuty : Obligations.ChainFramesCarryOnAndDuty := by
  refine ⟨fun s c q f k x size here places apart bound => ?_, fun x frame scale => ⟨rfl, rfl, rfl, rfl, rfl⟩⟩
  intro load on e
  have own : (drivenBits x).Nodup := (List.nodup_flatMap.1 apart).1 x (List.mem_of_getElem? here)
  refine ⟨?_, fun wide present => ?_, fun b low out => ?_⟩
  · obtain ⟨v, same⟩ := testBit_chainFrame (s := s) (c := c) (q := q) here size apart (mem_drivenBits.2 (.inl rfl))
    exact same.trans (driveOutput_on _ _ v own)
  · have most : dutyField e x.dutyW < 2 ^ x.dutyW := by
      have small : e ≤ 1000 := effAt_le s c q bound k
      have one := Nat.two_pow_pos x.dutyW
      have scaled : e * (2 ^ x.dutyW - 1) ≤ 1000 * (2 ^ x.dutyW - 1) := Nat.mul_le_mul_right _ small
      rw [dutyField]
      omega
    refine bitsOf_eq most fun k' inside => ?_
    obtain ⟨v, same⟩ := testBit_chainFrame (s := s) (c := c) (q := q) here size apart (b := x.dutyPos + k')
      (mem_drivenBits.2 (.inr ⟨present, by omega, by omega⟩))
    exact same.trans (driveOutput_duty _ _ v present inside)
  · have untouched : ∀ o ∈ List.range f.outputs, ∀ v,
        (driveOutput (onAt s c q o) (effAt s c q o) (fieldsAt f o) v).testBit b = v.testBit b := fun o mem v => by
      have inside : o < f.outs.length := size ▸ List.mem_range.1 mem
      refine driveOutput_other _ _ v fun hit => out (List.mem_flatMap.2 ⟨f.outs[o], List.getElem_mem inside, ?_⟩)
      rwa [fieldsAt_eq (List.getElem?_eq_getElem inside)] at hit
    show (chainFrame s c f q).testBit b = f.base.testBit b
    rw [chainFrame_foldl, testBit_foldl.testBit_foldl_other untouched, Nat.testBit_mod_two_pow]
    simp only [low, decide_true, Bool.true_and]

end

