-- ==== Sys2Proof/Proofs/LinkErrors.lean ====
section
/-!
PROOFS. Damaged link frames, replays, and the frames that wait for an acknowledgement (R342, R537, R538, R540).
-/

namespace Sys2Proof.Machine

/-! ### Frames that wait for an acknowledgement (R538, R540) -/

/-- Every frame that waits for an acknowledgement is of a type that is replayed. -/
def OnlyReplayed (l : Link) : Prop := ∀ u ∈ l.unacked, frameReplayed u.frame.typ = true

theorem ackUpTo_subset (ack : Nat) (l : List Unacked) : ackUpTo ack l ⊆ l := by
  unfold ackUpTo
  split
  · exact ((List.drop_sublist _ _).trans (List.dropWhile_sublist _)).subset
  · exact fun _ h => h

section

variable {s : State} {q : Port} (only : OnlyReplayed (s.link q))
include only

/-- A frame that leaves joins the waiting ones only when its type is replayed. -/
theorem onlyReplayed_putFrame (f : LinkFrame) : OnlyReplayed ((putFrame q f s).link q) := by
  intro u mem
  have mem' : u ∈ (State.link (s.modLink q _) q).unacked := mem
  rw [State.link_modLink] at mem'
  dsimp only at mem'
  by_cases replayed : frameReplayed f.typ = true
  · rw [if_pos replayed, List.mem_append, List.mem_singleton] at mem'
    rcases mem' with old | rfl
    · exact only u old
    · exact replayed
  · rw [if_neg replayed] at mem'
    exact only u mem'

end

theorem onlyReplayed_pumpLink (q : Port) (n : Nat) {s : State} (only : OnlyReplayed (s.link q)) :
    OnlyReplayed ((pumpLink q n s).link q) := by
  induction n generalizing s with
  | zero => exact only
  | succ n ih =>
    unfold pumpLink
    dsimp only
    split
    · exact only
    · split
      · exact only
      · split
        · exact ih (onlyReplayed_putFrame only _)
        · exact only

section

variable {s : State} {q : Port} (only : OnlyReplayed (s.link q))
include only

theorem onlyReplayed_sendFrame (f : LinkFrame) : OnlyReplayed ((sendFrame q f s).link q) := by
  unfold sendFrame
  split
  · refine onlyReplayed_pumpLink q _ ?_
    rw [State.link_modLink]
    exact only
  · exact only

theorem onlyReplayed_takeLinkHeader (r : LinkRx) : OnlyReplayed ((takeLinkHeader q r s).link q) := by
  refine onlyReplayed_pumpLink q _ ?_
  rw [State.link_modLink]
  intro u mem
  dsimp only at mem
  split at mem
  · exact only u (ackUpTo_subset _ _ mem)
  · exact only u mem

end

/-! ### Damaged frames (R342, R540, R561) -/

section

variable {q : Port} {f : LinkRx} {s : State} (sends : linkSends (s.link q) = true) (runs : linksRun s = true)
  (damaged : f.intact = false)
include sends runs damaged

/-- A damaged frame that fits in the LKQ is only counted. -/
theorem takeFrame_damaged {t : FrameType} (h : LinkFrame → State → State) (small : t ≠ .route) :
    takeFrame q t f h s = s.modLink q fun l => { l with crcErr := inc32 l.crcErr } := by
  have other : (t == .route) = false := by cases t with | route => exact absurd rfl small | _ => rfl
  have one : frameCells { f.frame with typ := t, last := false } = 1 := frameCells_eq_one small
  simp [takeFrame, takeFrameFrom, sends, runs, damaged, one, other]

theorem takeFrameFrom_damagedRoute (h : LinkFrame → State → State) (parity : Bool) :
    let lost := s.modLink q fun l => { l with crcErr := inc32 l.crcErr, routedLost := inc32 l.routedLost }
    takeFrameFrom q .route parity f h s = if 128 < 1 + (f.frame.data.length + 63) / 64
      then dropPacket (.lkq, portIdx q) (0x0300 + portIdx q) 3 (portNumber q) (stampNow lost) lost else lost := by
  simp [takeFrameFrom, sends, runs, damaged, frameCells_route]

end

/-! ### Replays (R537, R540) -/

section

variable {q : Port} {s : State} {u : Unacked} (due : firstDue (s.link q).unacked = some u) (sends : linkSends (s.link q) = true)
  (runs : linksRun s = true)
include due sends runs

/-- The oldest frame goes again 10 µs after it went last, and REPLAYS counts one. -/
theorem replayTimeout_again (few : u.replays < 4) (covered : frameCells u.frame ≤ (s.link q).credits) :
    let t := reachClk (u.sentAt + 10 * usNs) s
    exec (.replayTimeout q) s = next ((t.modLink q fun x => { x with
        replays := inc32 x.replays, credits := x.credits - frameCells u.frame, freed := x.freed - min x.freed 255
        unacked := x.unacked.map fun y => if y = u then { u with replays := u.replays + 1, sentAt := t.time.clk } else y }).emit
      (.link q (frameBytes u.frame u.seq (s.link q).seqRx (min (s.link q).freed 255)))) := by
  intro t
  show execReplayTimeout q s = _
  have fresh : ¬ u.replays ≥ 4 := by omega
  have paid : ¬ (s.link q).credits < frameCells u.frame := by omega
  simp [execReplayTimeout, due, sends, runs, fresh, paid, t]

/-- After the fourth replay a port that is UP goes down; one in its stop bath gives the frame up. -/
theorem replayTimeout_last (all : 4 ≤ u.replays) :
    let t := reachClk (u.sentAt + 10 * usNs) s
    exec (.replayTimeout q) s = next (if (s.link q).state = .up then linkDown q 6 t
      else t.modLink q fun x => { x with unacked := x.unacked.filter fun y => y != u }) := by
  intro t
  show execReplayTimeout q s = _
  have spent : ¬ u.replays < 4 := by omega
  simp [execReplayTimeout, due, sends, runs, spent, all, t]

end

end Sys2Proof.Machine

open Sys2Proof Sys2Proof.Machine

/-- Settles O56: a damaged frame reaches no handler; the frame that went first is the one whose 10 µs end first; and only `putFrame`
adds to the frames that wait for an acknowledgement, and only those of a replayed type. -/
theorem linkErrorsAndReplays : Obligations.LinkErrorsAndReplays := by
  refine ⟨fun q f s sends runs damaged => ⟨fun i mem => ?_, fun parity valid => ?_⟩, fun q s u due sends runs => ⟨fun few covered => ?_, fun all => ?_⟩,
    fun q f r s only => ⟨onlyReplayed_sendFrame only f, onlyReplayed_takeLinkHeader only r⟩⟩
  · simp only [List.mem_cons, List.not_mem_nil, or_false] at mem
    rcases mem with rfl | rfl | rfl | rfl | rfl | rfl | rfl <;>
      exact congrArg next (takeFrame_damaged sends runs damaged _ (by decide))
  · exact congrArg next (takeFrameFrom_damagedRoute sends runs damaged _ parity)
  · exact replayTimeout_again due sends runs few covered
  · exact replayTimeout_last due sends runs all

end

