-- ==== Sys2Proof/Proofs/Fixes.lean ====
section
/-!
PROOFS. A fix: what it writes to MRAM and to the records of the update (R570, R581, R582).
-/

namespace Sys2Proof.Machine

/-! ### MRAM: areas and slots (R570, R571, R584) -/

section

variable (m : Mram) (x y : Slot) (f : Area → Area) (g : Security)

@[simp] theorem areaOf_modArea : areaOf (modArea x f m) x = f (areaOf m x) := by cases x <;> rfl

theorem areaOf_modArea_ne (other : x ≠ y) : areaOf (modArea x f m) y = areaOf m y := by
  cases x with
  | a => cases y with
    | a => exact absurd rfl other
    | b => rfl
  | b => cases y with
    | a => rfl
    | b => exact absurd rfl other

@[simp] theorem areaOf_sec : areaOf { m with sec := g } x = areaOf m x := by cases x <;> rfl

@[simp] theorem modArea_sec : (modArea x f m).sec = m.sec := by cases x <;> rfl

@[simp] theorem modArea_slotA : (modArea x f m).slotA = m.slotA := by cases x <;> rfl

@[simp] theorem modArea_slotB : (modArea x f m).slotB = m.slotB := by cases x <;> rfl

@[simp] theorem imageOf_modArea : imageOf (modArea x f m) y = imageOf m y := by
  cases y with
  | a => exact modArea_slotA m x f
  | b => exact modArea_slotB m x f

end

/-! ### The reference passes beside everything but the time base (R354) -/

@[simp] theorem reachClk_update (c : Nat) (s : State) : (reachClk c s).update = s.update := by
  unfold reachClk
  split <;> rfl

@[simp] theorem reachClk_aon (c : Nat) (s : State) : (reachClk c s).aon = s.aon := by
  unfold reachClk
  split <;> rfl

/-! ### Fixes (R582) -/

/-- The security and counter area once a fix of image `i` has written it. -/
def fixedSec (i : Image) (x : Security) : Security :=
  { nextCommit (setFixedOnce x.trialSlot true { x with
      activeSlot := x.trialSlot, activeArea := x.trialArea, rollbackMin := max x.rollbackMin i.rollback,
      revoked := x.revoked ||| i.revoke }) with trial := false }

/-- MRAM after a fix. -/
def fixedMram (i : Image) (m : Mram) : Mram :=
  modArea m.sec.activeArea (fun a => { a with state := 3 })
    { modArea m.sec.trialArea (fun a => { a with state := 2 }) m with sec := fixedSec i m.sec }

/-- A fix changes MRAM, the records of the update and PROOF, and tells of it. -/
theorem fixImage_tells {s : State} {i : Image} (image : imageOf s.update.mram (secOf s).trialSlot = some i) :
    Tells { s with
      aon := { s.aon with proof := false }
      update := { s.update with
        fixInstant := some (stampNow s), fixes := inc32 s.update.fixes, timerEnd := none, mram := fixedMram i s.update.mram } } (fixImage s) := by
  simp only [fixImage, image]
  refine raiseEvent_tells _ _ _ ?_
  simp only [modMram, modSec, modArea_sec, fixedMram]
  exact Tells.refl _

theorem fixedMram_sec (i : Image) (m : Mram) : (fixedMram i m).sec = fixedSec i m.sec := by rw [fixedMram, modArea_sec]

theorem fixedSec_eq (i : Image) (x : Security) : { fixedSec i x with fixedA := x.fixedA, fixedB := x.fixedB } = { x with
    activeSlot := x.trialSlot, activeArea := x.trialArea, rollbackMin := max x.rollbackMin i.rollback, revoked := x.revoked ||| i.revoke
    commitSeq := (x.commitSeq + 1) % 65536, trial := false } := by
  unfold fixedSec
  cases x.trialSlot <;> rfl

theorem fixedOnce_fixedSec (i : Image) (x : Security) : fixedOnce (fixedSec i x) x.trialSlot = true
    ∧ fixedOnce (fixedSec i x) (otherSlot x.trialSlot) = fixedOnce x (otherSlot x.trialSlot) := by
  unfold fixedSec
  cases x.trialSlot <;> exact ⟨rfl, rfl⟩

theorem fixedMram_areas {i : Image} {m : Mram} (apart : m.sec.trialArea ≠ m.sec.activeArea) :
    areaOf (fixedMram i m) m.sec.trialArea = { areaOf m m.sec.trialArea with state := 2 }
    ∧ areaOf (fixedMram i m) m.sec.activeArea = { areaOf m m.sec.activeArea with state := 3 } := by
  unfold fixedMram
  constructor
  · rw [areaOf_modArea_ne _ _ _ _ apart.symm, areaOf_sec, areaOf_modArea]
  · rw [areaOf_modArea, areaOf_sec, areaOf_modArea_ne _ _ _ _ apart]

theorem fixedMram_slots (i : Image) (m : Mram) : (fixedMram i m).slotA = m.slotA ∧ (fixedMram i m).slotB = m.slotB := by
  simp only [fixedMram, modArea_slotA, modArea_slotB, and_self]

/-- FIX in proof mode advances to MIN_PROOF seconds of the timer and fixes, unless the timer has run out (R581, R587). -/
theorem exec_fix {s : State} {e : Nat} (timer : s.update.timerEnd = some e) (proof : s.aon.proof = true) (runs : s.engine.pause = none)
    (readable : s.update.unreadable = none) (written : s.update.fmtWritten = true) (steady : s.update.restarted = false) :
    let t := reachClk (s.update.timerStart + s.update.minProof * secNs) s
    exec (.fix true) s = next (if e ≤ t.time.clk then t else fixImage t) := by
  show execFix true s = _
  simp [execFix, timer, proof, runs, readable, written, steady]

/-- A fix of image `i` on the state `t` of its due instant, which has the update's records of the state `s` before it (R582, R595). -/
theorem fixImage_follows {i : Image} {s t : State} (update : t.update = s.update)
    (image : imageOf s.update.mram (secOf s).trialSlot = some i) (apart : (secOf s).trialArea ≠ (secOf s).activeArea) :
    let x := secOf s
    let v := fcSettle (fixImage t)
    { secOf v with fixedA := x.fixedA, fixedB := x.fixedB } = { x with
        activeSlot := x.trialSlot, activeArea := x.trialArea, rollbackMin := max x.rollbackMin i.rollback, revoked := x.revoked ||| i.revoke
        commitSeq := (x.commitSeq + 1) % 65536, trial := false }
    ∧ fixedOnce (secOf v) x.trialSlot = true ∧ fixedOnce (secOf v) (otherSlot x.trialSlot) = fixedOnce x (otherSlot x.trialSlot)
    ∧ areaOf v.update.mram x.trialArea = { areaOf s.update.mram x.trialArea with state := 2 }
    ∧ areaOf v.update.mram x.activeArea = { areaOf s.update.mram x.activeArea with state := 3 }
    ∧ v.update.mram.slotA = s.update.mram.slotA ∧ v.update.mram.slotB = s.update.mram.slotB
    ∧ v.aon = { t.aon with proof := false } ∧ (t.aon.bootResult ≠ 2 → v.update.running.isSome = true → imageState v = 1)
    ∧ v.update.fixInstant = some (stampNow t) ∧ v.update.timerEnd = none ∧ v.update.fixes = min (t.update.fixes + 1) 0xFFFFFFFF
    ∧ v.update.fallbacks = t.update.fallbacks ∧ v.update.session = t.update.session
    ∧ Tells { t with aon := v.aon, update := v.update } v := by
  intro x v
  have same : secOf t = x := congrArg (fun u => u.mram.sec) update
  have tells : Tells _ v := fcSettle_tells (fixImage_tells (by rwa [same, update]))
  have mram : v.update.mram = fixedMram i s.update.mram := by rw [tells.update, update]
  have sec : secOf v = fixedSec i x := by rw [secOf, mram, fixedMram_sec]; rfl
  have state : t.aon.bootResult ≠ 2 → v.update.running.isSome = true → imageState v = 1 := fun booted loaded => by
    have slot : v.update.running ≠ none := Option.isSome_iff_ne_none.1 loaded
    rw [imageState, tells.aon, if_neg booted, if_neg (by simpa using slot)]
    rfl
  obtain ⟨trial, active⟩ := fixedMram_areas (i := i) apart
  obtain ⟨slotA, slotB⟩ := fixedMram_slots i s.update.mram
  obtain ⟨own, other⟩ := fixedOnce_fixedSec i x
  rw [sec, mram]
  refine ⟨fixedSec_eq i x, own, other, trial, active, slotA, slotB, tells.aon, state, ?_, ?_, ?_, ?_, ?_, { tells with aon := rfl, update := rfl }⟩
  all_goals rw [tells.update]
  simp only [inc32, satAdd, Nat.reducePow, Nat.add_one_sub_one]

end Sys2Proof.Machine

open Sys2Proof Sys2Proof.Machine

/-- Settles O59: what a fix writes is `fixedMram`; the rest of it only tells. -/
theorem fixFollowsTheStepsOfR582 : Obligations.FixFollowsTheStepsOfR582 := by
  refine ⟨fun s e i timer proof runs readable written steady apart image => ?_, fun x => ?_⟩
  · refine fun early => ⟨_, (exec_fix timer proof runs readable written steady).trans (by rw [if_neg (Nat.not_le.2 early)]; rfl), ?_⟩
    exact fixImage_follows (reachClk_update _ s) image apart
  · simp [trialValid]

end

