-- ==== Sys2Proof/Proofs/Fallbacks.lean ====
section
/-!
PROOFS. A fallback and its three causes, and the fixed image that runs again (R583, R585 to R587).
-/

namespace Sys2Proof.Machine

/-! ### Operations that only tell leave the command engine alone -/

@[simp] theorem putFrame_engine (p : Port) (f : LinkFrame) (s : State) : (putFrame p f s).engine = s.engine := by
  simp only [putFrame, State.emit_engine, State.modLink_engine]

@[simp] theorem pumpLink_engine (p : Port) (n : Nat) (s : State) : (pumpLink p n s).engine = s.engine := by
  induction n generalizing s with
  | zero => rfl
  | succ n ih =>
    unfold pumpLink
    dsimp only
    split
    · rfl
    · split
      · rfl
      · split
        · exact (ih _).trans (putFrame_engine p _ s)
        · rfl

@[simp] theorem sendFrame_engine (p : Port) (f : LinkFrame) (s : State) : (sendFrame p f s).engine = s.engine := by
  simp only [sendFrame, apply_ite State.engine, pumpLink_engine, State.modLink_engine, ite_self]

@[simp] theorem pushEvent_engine (c : Nat) (e : Event) (s : State) : (pushEvent c e s).engine = s.engine := by
  simp only [pushEvent, apply_ite State.engine, raiseIrq_engine, State.modFn_engine, State.modCq_engine, ite_self]

@[simp] theorem raiseEvent_engine (c code : Nat) (data : List Byte) (s : State) : (raiseEvent c code data s).engine = s.engine := by
  unfold raiseEvent
  cases s.stack.upstream <;> simp only [apply_ite State.engine, pushEvent_engine, sendFrame_engine, ite_self]

@[simp] theorem modStat_engine (q : QKind × Nat) (f : QStat → QStat) (s : State) : (modStat q f s).engine = s.engine := by
  obtain ⟨k, n⟩ := q
  cases k <;> rfl

@[simp] theorem fcMeet_engine (q : QKind × Nat) (f : Nat) (atOnce : Bool) (pin : Nat) (s : State) :
    (fcMeet q f atOnce pin s).engine = s.engine := by
  simp only [fcMeet, fcEvent, apply_ite State.engine, raiseEvent_engine, modStat_engine, ite_self]

@[simp] theorem fcPin_engine (pin : Nat) (s : State) : (fcPin pin s).engine = s.engine := by
  unfold fcPin
  split
  · rfl
  · exact fcMeet_engine ..

@[simp] theorem fcSettle_engine (s : State) : (fcSettle s).engine = s.engine := by
  simp only [fcSettle, apply_ite State.engine, forRange_kept State.engine fcPin_engine, ite_self]

@[simp] theorem fcAt_engine (q : QKind × Nat) (f : Nat) (atOnce : Bool) (s : State) : (fcAt q f atOnce s).engine = s.engine := by
  simp only [fcAt, apply_ite State.engine, forRange_kept State.engine (fcMeet_engine q f atOnce), ite_self]

@[simp] theorem countPacket_engine (q : QKind × Nat) (s : State) : (countPacket q s).engine = s.engine :=
  (fcAt_engine ..).trans (modStat_engine ..)

@[simp] theorem noteSheetReply_engine (r : Reply) (s : State) : (noteSheetReply r s).engine = s.engine := by
  simp only [noteSheetReply, apply_ite State.engine, State.modBank_engine, ite_self]

@[simp] theorem deliverReply_engine (r : Reply) (s : State) : (deliverReply r s).engine = s.engine := by
  rw [← noteSheetReply_engine r s]
  unfold deliverReply
  dsimp only
  cases r.dest with
  | ctx c => exact countPacket_engine _ _
  | sp => exact countPacket_engine _ _
  | master =>
    dsimp only
    split
    · exact (forEach_kept State.engine (fun _ _ => sendFrame_engine _ _ _) _ _).trans ((modStat_engine _ _ _).trans (fcAt_engine _ _ _ _))
    · exact (modStat_engine _ _ _).trans (fcAt_engine _ _ _ _)

/-! ### Fallbacks begin (R583) -/

/-- What a packet taken leaves of the update's records: all but when the session's owner last sent (R576). -/
theorem taken_update (p : Packet) (s : State) : (taken p s).update = { s.update with session := s.update.session.map fun x : Session =>
    if x.owner = p.source then { x with lastAt := s.time.clk } else x } := by
  have passed : Tells s (passQueue p.source s) := passQueue_tells _ (Tells.refl s)
  show { (passQueue p.source s).update with session := (passQueue p.source s).update.session.map fun x : Session =>
    if x.owner = p.source then { x with lastAt := (passQueue p.source s).time.clk } else x } = _
  rw [passed.update, passed.time]

/-- What a fallback for `reason` makes of the state `s` (R583). -/
structure Fell (reason : Nat) (s v : State) : Prop where
  trial : areaOf v.update.mram (secOf s).trialArea = { areaOf s.update.mram (secOf s).trialArea with state := 3 }
  active : areaOf v.update.mram (secOf s).activeArea = areaOf s.update.mram (secOf s).activeArea
  slotA : v.update.mram.slotA = s.update.mram.slotA
  slotB : v.update.mram.slotB = s.update.mram.slotB
  sec : secOf v = { secOf s with trial := false, rejectedVer := imageVer s (secOf s).trialSlot, rejectedWhy := reason }
  timer : v.update.timerEnd = none
  count : v.update.fallbacks = min (s.update.fallbacks + 1) 0xFFFFFFFF
  pause : v.engine.pause = some .fallback
  aon : v.aon = s.aon
  mos : v.mos = s.mos
  routes : v.routes = s.routes
  cvus : v.cvus = s.cvus

/-- A state with the MRAM, the count of fallbacks and the settings of another. -/
structure Resembles (s u : State) : Prop where
  mram : u.update.mram = s.update.mram
  count : u.update.fallbacks = s.update.fallbacks
  aon : u.aon = s.aon
  mos : u.mos = s.mos
  routes : u.routes = s.routes
  cvus : u.cvus = s.cvus

theorem resembles_reachClk (c : Nat) (s : State) : Resembles s (reachClk c s) := by
  unfold reachClk
  split <;> exact ⟨rfl, rfl, rfl, rfl, rfl, rfl⟩

/-- A packet taken, and a reply that has gone. -/
theorem resembles_replied (p : Packet) (r : Reply) (s : State) : Resembles s (deliverReply r (taken p s)) := by
  have told : Tells (taken p s) (deliverReply r (taken p s)) := deliverReply_tells r (Tells.refl _)
  have kept := taken_tells p s
  exact ⟨by rw [told.update, taken_update], by rw [told.update, taken_update], told.aon.trans kept.aon, told.mos.trans kept.mos,
    told.routes.trans kept.routes, told.cvus.trans kept.cvus⟩

/-- A fallback that begins touches MRAM, the records of the update and the engine. -/
theorem startFallback_aside (reason : Nat) (u : State) : (startFallback reason u).aon = u.aon ∧ (startFallback reason u).mos = u.mos
    ∧ (startFallback reason u).routes = u.routes ∧ (startFallback reason u).cvus = u.cvus
    ∧ (startFallback reason u).update.timerEnd = none ∧ (startFallback reason u).update.fallbacks = inc32 u.update.fallbacks
    ∧ (startFallback reason u).engine.pause = some .fallback := by
  unfold startFallback recordRejected modSec modMram
  exact ⟨rfl, rfl, rfl, rfl, rfl, rfl, rfl⟩

theorem fell_startFallback {s u : State} (like : Resembles s u) (apart : (secOf s).trialArea ≠ (secOf s).activeArea) (reason : Nat) :
    Fell reason s (fcSettle (startFallback reason u)) := by
  have tells : Tells (startFallback reason u) (fcSettle (startFallback reason u)) := fcSettle_tells (Tells.refl _)
  have mram : (fcSettle (startFallback reason u)).update.mram = { modArea (secOf s).trialArea (fun a => { a with state := 3 }) s.update.mram with
      sec := { secOf s with trial := false, rejectedVer := imageVer s (secOf s).trialSlot, rejectedWhy := reason } } := by
    rw [tells.update]
    simp only [startFallback, recordRejected, modSec, modMram, secOf, imageVer, modArea_sec, like.mram]
    cases s.update.mram.sec.trialSlot <;> simp only [imageOf, modArea_slotA, modArea_slotB]
  obtain ⟨aon, mos, routes, cvus, timer, count, pause⟩ := startFallback_aside reason u
  refine ⟨?_, ?_, ?_, ?_, ?_, ?_, ?_, ?_, tells.aon.trans (aon.trans like.aon), tells.mos.trans (mos.trans like.mos),
    tells.routes.trans (routes.trans like.routes), tells.cvus.trans (cvus.trans like.cvus)⟩
  · rw [mram, areaOf_sec, areaOf_modArea]
  · rw [mram, areaOf_sec, areaOf_modArea_ne _ _ _ _ apart]
  · rw [mram]; exact modArea_slotA ..
  · rw [mram]; exact modArea_slotB ..
  · rw [secOf, mram]
  · rw [tells.update, timer]
  · rw [tells.update, count, like.count]
    simp only [inc32, satAdd, Nat.reducePow, Nat.add_one_sub_one]
  · rw [fcSettle_engine, pause]

theorem exec_confirmTimerExpiry {s : State} {e : Nat} (timer : s.update.timerEnd = some e) (proof : s.aon.proof = true) :
    exec .confirmTimerExpiry s = next (startFallback 1 (reachClk e s)) := by
  show execConfirmTimerExpiry s = _
  simp [execConfirmTimerExpiry, timer, proof]

/-- The reply OK to a packet of opcode `op`, that leaves before the fallback begins. -/
def okReply (op : Nat) (p : Packet) (body : List Byte) (s : State) : Reply :=
  { dest := p.source, opcode := op, tag := p.tag, status := 0, position := s.pos, detail := 0, body := body }

/-- REJECT_IMAGE in proof mode: its reply goes and the fallback begins (R583). -/
theorem exec_rejectImage {p : Packet} {s : State} (accepts : Accepts specRejectImage p s) (proof : s.aon.proof = true) :
    exec (.rejectImage p) s = next (startFallback (if p.source = .sp then 3 else 2)
      (deliverReply (okReply 0x0E07 p (le 8 (stampNow (taken p s))) (taken p s)) (taken p s))) := by
  show next (runCommand specRejectImage rejectImage p s) = _
  rw [runCommand_of_accepts accepts, rejectImage, if_pos (by rw [taken_aon, proof])]
  rfl

/-- VETO of the image in proof mode, also by the number of the session it came from (R587). -/
theorem exec_veto {p : Packet} {s : State} (accepts : Accepts specVeto p s)
    (names : fieldAt p.params 0 4 = 0xFFFFFFFF ∨ (s.update.session = none ∧ fieldAt p.params 0 4 = s.update.opened)) (proof : s.aon.proof = true) :
    exec (.veto p) s = next (startFallback 3 (deliverReply (okReply 0x0E06 p [] (taken p s)) (taken p s))) := by
  show next (runCommand specVeto veto p s) = _
  have named : (decide (fieldAt p.params 0 4 = 0xFFFFFFFF) || ((taken p s).aon.proof && (taken p s).update.session.isNone
      && decide (fieldAt p.params 0 4 = (taken p s).update.opened))) = true := by
    rw [taken_aon, proof, taken_update]
    rcases names with all | ⟨closed, last⟩
    · simp [all]
    · simp [closed, last]
  rw [runCommand_of_accepts accepts, veto, if_pos named, refuseIf_false (by rw [taken_aon, proof]; rfl)]
  rfl

/-! ### The fixed image runs again (R585, R586) -/

/-- The mode that a channel runs in, or will at its frame's end (R205). -/
def comingMode (c : Chan) : Nat := c.nextMode.getD c.mode

/-- A cause that latches touches monitors and records, and raises events. -/
theorem latchCause_kept {β : Type} (g : State → β) (events : ∀ c code data s, g (raiseEvent c code data s) = g s)
    (apart : ∀ s m r, g { s with monitors := m, records := r } = g s) (ch bit record stamp : Nat) (s : State) :
    g (latchCause ch bit record stamp s) = g s := by
  unfold latchCause
  split
  · rfl
  · exact (forEach_kept g (fun _ _ => events _ _ _ _) _ _).trans (apart s _ _)

theorem judgeMode_kept {β : Type} (g : State → β) (events : ∀ c code data s, g (raiseEvent c code data s) = g s)
    (apart : ∀ s m r, g { s with monitors := m, records := r } = g s) (ch : Nat) (s : State) : g (judgeMode ch s) = g s := by
  unfold judgeMode
  split
  · exact latchCause_kept g events apart ..
  · rfl

theorem Tells.comingMode {a s : State} (h : Tells a s) (ch : Nat) : comingMode (s.chan ch) = comingMode (a.chan ch) :=
  (congrArg Machine.comingMode (h.chans ch) :)

@[simp] theorem runMode_aon (ch m : Nat) (s : State) : (runMode ch m s).aon = s.aon :=
  judgeMode_kept State.aon (fun _ _ _ _ => (raiseEvent_tells _ _ _ (Tells.refl _)).aon) (fun _ _ _ => rfl) ..

@[simp] theorem runMode_update (ch m : Nat) (s : State) : (runMode ch m s).update = s.update :=
  judgeMode_kept State.update (fun _ _ _ _ => (raiseEvent_tells _ _ _ (Tells.refl _)).update) (fun _ _ _ => rfl) ..

theorem runMode_comingMode (ch m n : Nat) (s : State) :
    comingMode ((runMode ch m s).chan n) = comingMode ((s.modChan ch (modDeveloped s.now id (some m))).chan n) :=
  judgeMode_kept (fun s => comingMode (s.chan n)) (fun _ _ _ _ => (raiseEvent_tells _ _ _ (Tells.refl _)).comingMode n) (fun _ _ _ => rfl) ..

theorem comingMode_modDeveloped (now m : Nat) (f : ChanSettings → ChanSettings) (c : Chan) : comingMode (modDeveloped now f (some m) c) = m := by
  unfold modDeveloped
  split <;> rfl

theorem forRange_succ (n : Nat) (f : Nat → State → State) (s : State) : forRange (n + 1) f s = f n (forRange n f s) := by
  simp [forRange, List.range_succ]

/-- A loop over the channels that gives each its own value and leaves the others. -/
theorem forRange_each {β : Type} {g : Nat → State → β} {want : Nat → β} {f : Nat → State → State} {n : Nat}
    (own : ∀ k s, k < n → g k (f k s) = want k) (other : ∀ k j s, j ≠ k → g j (f k s) = g j s) (s : State) {k : Nat} (inside : k < n) :
    g k (forRange n f s) = want k := by
  induction n with
  | zero => exact absurd inside (Nat.not_lt_zero k)
  | succ n ih =>
    rw [forRange_succ]
    by_cases last : k = n
    · subst last
      exact own k _ inside
    · rw [other n k _ last]
      exact ih (fun k s lt => own k s (Nat.lt_succ_of_lt lt)) (by omega)

theorem leaveSafelight_aon (s : State) : (leaveSafelight s).aon = s.aon := by
  unfold leaveSafelight
  dsimp only
  split
  · rfl
  · refine (forRange_kept State.aon (fun ch t => ?_) 64 _).trans rfl
    split
    · rfl
    · exact runMode_aon ..

theorem leaveSafelight_update (s : State) : (leaveSafelight s).update = { s.update with unreadable := none, savedModes := [] } := by
  unfold leaveSafelight
  dsimp only
  split
  · rfl
  · refine (forRange_kept State.update (fun ch t => ?_) 64 _).trans rfl
    split
    · rfl
    · exact runMode_update ..

/-- Every channel has its recorded mode again, or will at its frame's end (R586). -/
theorem leaveSafelight_comingMode {s : State} (recorded : s.update.savedModes ≠ []) {ch : Nat} (bound : ch < 64) :
    comingMode ((leaveSafelight s).chan ch) = s.update.savedModes.getD ch 0 := by
  unfold leaveSafelight
  dsimp only
  rw [if_neg (by simpa using recorded)]
  refine forRange_each (g := fun k t => comingMode (t.chan k)) (want := fun k => s.update.savedModes.getD k 0) (fun k t inside => ?_) (fun k j t ne => ?_) _ bound
  · split
    · assumption
    · rw [runMode_comingMode, State.chan_modChan _ _ _ inside, comingMode_modDeveloped]
  · split
    · rfl
    · rw [runMode_comingMode, State.chan_modChan_ne _ _ _ _ ne.symm]

theorem readSettings_congr {s t : State} (same : t.update.mram = s.update.mram) (x : Slot) : readSettings x t = readSettings x s := by
  have found : areaUnreadable t = areaUnreadable s := funext fun i => by
    simp only [areaUnreadable, secOf, same]
    rfl
  rw [readSettings, readSettings, found, same]

/-- The fixed image has been loaded, and has not read its settings yet. -/
def fixedLoaded (s : State) : State :=
  { s with
    aon := { s.aon with proof := false, bootSlot := some (secOf s).activeSlot }
    update := { s.update with running := some (secOf s).activeSlot, fmtWritten := false, restarted := false } }

section

variable {s : State} (passes : slotPasses s (secOf s).activeSlot true = true) (fixed : fixedOnce (secOf s) (secOf s).activeSlot = true)
include passes fixed

theorem startFixed_passed : startFixed s = { leaveSafelight (fixedLoaded s) with
    update := { (leaveSafelight (fixedLoaded s)).update with unreadable := readSettings (secOf s).activeSlot (leaveSafelight (fixedLoaded s)) } } := by
  simp only [startFixed, passes, fixed, Bool.and_self, Bool.not_true, Bool.false_eq_true, ↓reduceIte, fixedLoaded]

theorem startFixed_aon : (startFixed s).aon = { s.aon with proof := false, bootSlot := some (secOf s).activeSlot } := by
  rw [startFixed_passed passes fixed]
  exact leaveSafelight_aon (fixedLoaded s)

theorem startFixed_update : (startFixed s).update = { s.update with
    running := some (secOf s).activeSlot, fmtWritten := false, restarted := false, savedModes := []
    unreadable := readSettings (secOf s).activeSlot s } := by
  have left := leaveSafelight_update (fixedLoaded s)
  have mram : (leaveSafelight (fixedLoaded s)).update.mram = s.update.mram := by rw [left]; rfl
  have found := readSettings_congr mram (secOf s).activeSlot
  rw [startFixed_passed passes fixed]
  dsimp only
  rw [found, left]
  rfl

theorem startFixed_comingMode (recorded : s.update.savedModes ≠ []) {ch : Nat} (bound : ch < 64) :
    comingMode ((startFixed s).chan ch) = s.update.savedModes.getD ch 0 := by
  rw [startFixed_passed passes fixed]
  exact leaveSafelight_comingMode (s := fixedLoaded s) recorded bound

end

theorem deliverLate_tells (s : State) : Tells s (deliverLate s) :=
  forEach_tells _ _ (fun r _ h => deliverReply_tells r h) ⟨rfl, rfl, rfl, rfl, rfl, rfl, rfl, fun _ => rfl, rfl, rfl, rfl, rfl, rfl, rfl, rfl, rfl, rfl, rfl, rfl,
    rfl, rfl, rfl, rfl, rfl, rfl, rfl, fun _ => rfl⟩

theorem deliverLate_pause (s : State) : (deliverLate s).engine.pause = none :=
  congrArg Engine.pause (forEach_kept State.engine (fun r _ => deliverReply_engine r _) _ _)

theorem exec_commandPauseEnd_fallback {s : State} (pause : s.engine.pause = some .fallback) (g : Bool) :
    exec (.commandPauseEnd g) s = next (deliverLate (fallbackEvent (startFixed s))) := by
  show execCommandPauseEnd g s = _
  simp only [execCommandPauseEnd, pause]

end Sys2Proof.Machine

open Sys2Proof Sys2Proof.Machine

/-- Settles O60: the three causes differ only in the state that `startFallback` meets; the fixed image finds MRAM as it was, and the
loop over the channels gives each its recorded mode. -/
theorem fallbackFollowsTheStepsOfR583 : Obligations.FallbackFollowsTheStepsOfR583 := by
  refine ⟨fun p s e proof apart => ?_, fun g s pause fails => ?_, fun g s pause passes fixed => ?_⟩
  · intro x fell
    have begins : ∀ i reason u, Resembles s u → exec i s = next (startFallback reason u) → fell i reason := fun i reason u like run => by
      obtain ⟨trial, active, slotA, slotB, sec, timer, count, pause, aon, mos, routes, cvus⟩ := fell_startFallback like apart reason
      exact ⟨_, run, trial, active, slotA, slotB, sec, timer, count, pause, aon, mos, routes, cvus⟩
    exact ⟨fun timer => begins _ _ _ (resembles_reachClk e s) (exec_confirmTimerExpiry timer proof),
      fun accepts => begins _ _ _ (resembles_replied p _ s) (exec_rejectImage accepts proof),
      fun accepts names => begins _ _ _ (resembles_replied p _ s) (exec_veto accepts names proof)⟩
  · rw [exec_commandPauseEnd_fallback pause, startFixed]
    simp only [fails]
    rfl
  · refine ⟨_, exec_commandPauseEnd_fallback pause g, ?_⟩
    have tells : Tells (startFixed s) (fcSettle (deliverLate (fallbackEvent (startFixed s)))) :=
      fcSettle_tells ((raiseEvent_tells _ _ _ (Tells.refl _)).trans (deliverLate_tells _))
    rw [tells.update, tells.aon, fcSettle_engine, startFixed_update passes fixed, startFixed_aon passes fixed]
    exact ⟨rfl, rfl, rfl, rfl, rfl, deliverLate_pause _,
      fun ch bound recorded _ => (tells.comingMode ch).trans (startFixed_comingMode passes fixed recorded bound)⟩

end

