-- ==== Sys2Proof/Proofs/ProofMode.lean ====
section
/-!
PROOFS. Proof mode starts; the timer and the idle time of a session (R576, R580, R585).
-/

namespace Sys2Proof.Machine

/-! ### Proof mode starts (R580, R585) -/

theorem exec_proofModeStart {s : State} (due : activationDue s = true) (fresh : s.aon.proof = false) (valid : trialValid (secOf s) = true)
    (passes : slotPasses s (secOf s).trialSlot true = true) : exec .proofModeStart s = next (startProof s) := by
  show execProofModeStart s = _
  simp [execProofModeStart, due, fresh, valid, passes]

/-- A change of readiness is told to contexts; the records of the update do not see it (R67). -/
@[simp] theorem setReady_update (v : BitVec 32) (s : State) : (setReady v s).update = s.update := by
  unfold setReady
  dsimp only
  split
  · rfl
  · refine (forEach_kept State.update (fun c t => ?_) _ _).trans rfl
    have told : (raiseIrq c 0 t).update = t.update := (raiseIrq_tells c 0 (Tells.refl t)).update
    split
    · exact (raiseEvent_tells _ _ _ (Tells.refl _)).update.trans told
    · exact told

@[simp] theorem endRecovery_update (s : State) : (endRecovery s).update = s.update := by
  unfold endRecovery
  split
  · exact setReady_update _ _
  · rfl

/-- An image that reads the active area writes the TRIAL area in its own format and tells of proof mode. -/
theorem startProof_readable {s : State} {i : Image} (image : imageOf s.update.mram (secOf s).trialSlot = some i)
    (readable : areaUnreadable s i = none) : startProof s = raiseEvent 0 0x0E04
      (le 1 0 ++ zeros 1 ++ le 2 (areaOf s.update.mram (secOf s).activeArea).fmt ++ le 4 (i.fwVer % 0x1000000) ++ le 2 s.update.confirm)
      (endRecovery (drawn 1 { s with
        aon := { s.aon with proof := true, bootSlot := some (secOf s).trialSlot }
        update := { s.update with
          running := some (secOf s).trialSlot, unreadable := none, fmtWritten := true, restarted := false, fixInstant := none
          mram := modArea (secOf s).trialArea (fun _ => ownArea i s) s.update.mram } })) := by
  simp only [startProof, image, readable, Option.isNone_none, Option.isSome_none, ↓reduceIte, endRecovery_update]
  rfl

theorem exec_fix_failedSelfTest (s : State) : exec (.fix false) s = next s := by
  show execFix false s = _
  unfold execFix
  split
  · rfl
  · rfl

theorem exec_sessionIdleTimeout {s : State} {x : Session} (session : s.update.session = some x) :
    exec .sessionIdleTimeout s = next (endSession 3 (reachClk (x.lastAt + 10 * secNs) s)) := by
  show execSessionIdleTimeout s = _
  simp only [execSessionIdleTimeout, session]

end Sys2Proof.Machine

open Sys2Proof Sys2Proof.Machine

/-- Settles O58: each row under its conditions takes the one branch that acts. -/
theorem proofModeComplete : Obligations.ProofModeComplete := by
  refine ⟨fun s i due fresh valid passes image => ⟨exec_proofModeStart due fresh valid passes, fun r => ⟨fun lost => if_pos lost, fun well => if_neg well⟩,
      startProof_readable image, rfl, rfl, rfl, rfl, rfl, rfl⟩,
    fun s e timer proof runs readable written steady => exec_fix timer proof runs readable written steady, exec_fix_failedSelfTest,
    fun s e => exec_confirmTimerExpiry, fun s x => exec_sessionIdleTimeout⟩

end

