-- ==== Sys2Proof/Proofs/LastImageBlock.lean ====
section
/-!
PROOFS. The last block of an image: the slot takes the body with the header (R575, R590).
-/

namespace Sys2Proof.Machine

/-! ### A refuting run of WRITE_IMAGE_BLOCK -/

/-- CTX0 sends the whole body of its session's image, four bytes, in one block. -/
def lastBlock : Packet := packetFrom (.ctx 0) 0x0E02 (le 4 1 ++ le 4 0 ++ le 2 4 ++ zeros 2 ++ [1, 2, 3, 4])

/-- The session of `openedState`. -/
def openSessionOfCtx0 : Session :=
  { id := 1, owner := .ctx 0, image := bootImage 0x040000 0, digest := sha256 [1, 2, 3, 4], body := [], verified := false, approved := false,
    lastAt := 0 }

/-- The body of the image in slot B. -/
def bodyInB (s : State) : Option (List Byte) := (imageOf s.update.mram .b).map (·.body)

/-- The body of the image in slot B once the instruction has run. -/
def bodyAfter : Host.Outcome State Fault Refusal → Option (List Byte)
  | .next s => bodyInB s
  | _ => none

set_option maxRecDepth 20000 in
theorem bodyAfter_lastBlock : bodyAfter (exec (.writeImageBlock lastBlock) (openedState id)) = some [1, 2, 3, 4] := by decide +kernel

theorem bodyInB_answered (c : CmdSpec) (p : Packet) (st de : Nat) (b : List Byte) (t : State) :
    bodyInB (answered c p st de b t) = bodyInB t := by
  rw [bodyInB, (answered_tells c p st de b t).update, bodyInB]

theorem bodyInB_raiseEvent (c code : Nat) (data : List Byte) (t : State) : bodyInB (raiseEvent c code data t) = bodyInB t := by
  rw [bodyInB, (raiseEvent_tells c code data (Tells.refl t)).update, bodyInB]

theorem session_lastBlock : (taken lastBlock (openedState id)).update.session = some openSessionOfCtx0 := by
  rw [taken_update]
  rfl

theorem stagingSlot_lastBlock : stagingSlot (taken lastBlock (openedState id)) = .b := by
  rw [stagingSlot, secOf, taken_update]
  rfl

theorem bodyInB_putImage (i : Image) (s : State) : bodyInB (modMram (putImage .b (some i)) s) = some i.body := rfl

end Sys2Proof.Machine

open Sys2Proof Sys2Proof.Machine

/-- Refutes O57: the statement stores the image of the session's header alone once the digest holds, but the model stores it with the
bytes of its body, as they were written: here four of them, where the statement's slot has none. -/
theorem not_updateCommandsComplete : ¬ Obligations.UpdateCommandsComplete := by
  intro claim
  obtain ⟨-, block, -⟩ := claim
  obtain ⟨⟨accepts, -, -, -, -, reserved, -⟩, -⟩ := witness_UpdateCommandsComplete_block
  obtain ⟨-, verified, -⟩ := block lastBlock (openedState id) openSessionOfCtx0 accepts session_lastBlock (by decide) (by decide) (by decide)
    (by decide) (by decide) reserved (by decide) (by decide)
  have bodies := congrArg bodyAfter (verified (by decide) (by decide +kernel))
  rw [bodyAfter_lastBlock, bodyAfter, bodyInB_answered, bodyInB_raiseEvent, stagingSlot_lastBlock, bodyInB_putImage] at bodies
  exact absurd bodies (by decide)

end

