-- ==== Sys2Proof/Proofs/RoutingTables.lean ====
section
/-!
PROOFS. The commands of the routing tables: PDUs, signals, routes and local I/O staged, signals and statistics read (R466, R467, R469 to R471).
-/

namespace Sys2Proof.Machine

section
variable {p : Packet} {s : State}

/-! ### WRITE_PDU (R431, R466) -/

section
variable (number : fieldAt p.params 0 2 < 0x8000) (reserved : zeroAt p.params 2 2 = true) (clear : bitOf (descWord p.params 0) 0 = false)
include number reserved clear

/-- The descriptor that DIR 0x0 frees. -/
theorem writePdu_free (code : bitsOf (descWord p.params 0) 1 3 = 0) (sound : freeFault (descWord p.params) = none) :
    writePdu p s = bundleOpen s p (stage p [.pdu (fieldAt p.params 0 2) none] s []) := by
  refine (badParam_false (decide_eq_false (Nat.not_le.2 number))).trans <| (badParam_false (not_zeroAt reserved)).trans <|
    (badParam_false (by rw [clear, code]; rfl)).trans ?_
  simp only [code, dirOf, sound, Option.map_none]

/-- A descriptor that is valid for its DIR. -/
theorem writePdu_set {d : Dir} (code : dirOf (bitsOf (descWord p.params 0) 1 3) = some d) (sound : pduFault d (descWord p.params) = none) :
    writePdu p s = bundleOpen s p (stage p [.pdu (fieldAt p.params 0 2) (some (pduFrom d (descWord p.params)))] s []) := by
  have listed : bitsOf (descWord p.params 0) 1 3 ≠ 7 := fun seven => by rw [seven] at code; cases code
  refine (badParam_false (decide_eq_false (Nat.not_le.2 number))).trans <| (badParam_false (not_zeroAt reserved)).trans <|
    (badParam_false (by rw [clear, decide_eq_false listed]; rfl)).trans ?_
  simp only [code, sound, Option.map_some]

end

/-! ### WRITE_SIGNAL and WRITE_ROUTE (R433, R467) -/

/-- The latent change that entry `k` of the packet makes. -/
def entryChange (b : List Byte) (k : Nat) : Change :=
  .signal (fieldAt b 0 4 + k) (sigFrom (bitsOf (entryWord b k 0) 1 3) (entryWord b k)) (constValue (bitsOf (entryWord b k 0) 1 3) (entryWord b k))

/-- Entries that are each valid for the KINDs of the command are staged, one change for each. -/
theorem writeEntries_sound {kinds : List Nat} (first : fieldAt p.params 0 4 ≤ 0x3FFFF) (last : fieldAt p.params 0 4 + byteAt p.params 4 ≤ 0x3FFFF)
    (some_ : 1 ≤ byteAt p.params 4) (few : byteAt p.params 4 ≤ 14) (size : p.plen = 2 + 4 * byteAt p.params 4)
    (reserved : zeroAt p.params 5 3 = true) (sound : ∀ k, k < byteAt p.params 4 → sigFault kinds (entryWord p.params k) = none) :
    writeEntries kinds p s = bundleOpen s p (stage p ((List.range (byteAt p.params 4)).map (entryChange p.params)) s []) := by
  have inside : (decide (fieldAt p.params 0 4 > 0x3FFFF) || decide (fieldAt p.params 0 4 + byteAt p.params 4 > sigNone)) = false := by
    rw [decide_eq_false (Nat.not_lt.2 first), Bool.false_or]
    exact decide_eq_false (Nat.not_lt.2 last)
  have counted : (decide (byteAt p.params 4 < 1) || decide (byteAt p.params 4 > 14) || decide (p.plen ≠ 2 + 4 * byteAt p.params 4)) = false := by
    rw [outside_eq_false some_ few, decide_eq_false (not_not_intro size)]
    rfl
  have faultless : ((List.range (byteAt p.params 4)).findSome? fun k =>
      (sigFault kinds (entryWord p.params k)).map fun i => 8 + 16 * k + 4 * i) = none :=
    List.findSome?_eq_none_iff.2 fun k mem => by rw [sound k (List.mem_range.1 mem), Option.map_none]
  refine (badParam_false inside).trans <| (badParam_false counted).trans <| (badParam_false (not_zeroAt reserved)).trans ?_
  rw [faultless]
  rfl

/-! ### SET_LOCAL_IO (R470) -/

theorem setLocalIo_inRange (enabled : fieldAt p.params 4 4 < 2 ^ 24) (round : fieldAt p.params 8 2 = 0 ∨ 100 ≤ fieldAt p.params 8 2)
    (reserved : zeroAt p.params 10 2 = true) :
    setLocalIo p s = bundleOpen s p (stage p [.localIo { invert := BitVec.ofNat 32 (fieldAt p.params 0 4), ainEn := BitVec.ofNat 24 (fieldAt p.params 4 4)
                                                         round := defaulted (fieldAt p.params 8 2) 1000
                                                         debounce := vgen 32 fun n => defaulted (byteAt p.params (12 + n)) 3 }] s []) := by
  have long : (decide (1 ≤ fieldAt p.params 8 2) && decide (fieldAt p.params 8 2 ≤ 99)) = false := by
    simp only [Bool.and_eq_false_iff, decide_eq_false_iff_not]
    omega
  exact (badParam_false (decide_eq_false (Nat.not_le.2 enabled))).trans <| (badParam_false long).trans (badParam_false (not_zeroAt reserved))

/-! ### READ_SIGNAL and GET_ROUTE_STATS (R469, R471) -/

theorem readSignal_free (entry : fieldAt p.params 0 4 ≤ 0x3FFFF) (free : mget s.sigs (fieldAt p.params 0 4) = none) :
    readSignal p s = okBody s (zeros 36) := by
  refine (badParam_false (decide_eq_false (Nat.not_lt.2 entry))).trans ?_
  rw [free]

/-- A running entry, with the VALUE and STAMP of what it reads and whether the PDU of that is stale. -/
theorem readSignal_running {g : Sig} (entry : fieldAt p.params 0 4 ≤ 0x3FFFF) (running : mget s.sigs (fieldAt p.params 0 4) = some g) :
    let src := readSource (fieldAt p.params 0 4) g
    let stale := match sigBody s src with
      | some (.source _ _ _ _ n) => ((pduOf s n).map (·.stale)).getD false
      | _ => false
    readSignal p s = okBody s (sigBytes (sigChanged s src) g ++ le 8 (shownValue s g).toNat ++ le 8 (((mget s.sigs src).map (·.stamp)).getD 0)
      ++ le 1 (flag stale 1 + flag g.errDis 2) ++ zeros 3) := by
  refine (badParam_false (decide_eq_false (Nat.not_lt.2 entry))).trans ?_
  simp only [running]
  have stamped : ∀ o : Option Sig, (o.map (·.stamp)).getD 0 = match o with | some x => x.stamp | none => 0 := fun o => by cases o <;> rfl
  rw [stamped]
  cases sigBody s (readSource (fieldAt p.params 0 4) g) with
  | none => rfl
  | some body => cases body with
    | source _ _ _ _ n =>
      dsimp only
      cases pduOf s n <;> rfl
    | _ => rfl

theorem getRouteStats_lane (reserved : zeroAt p.params 1 1 = true) (kind : byteAt p.params 0 = 0) (lane : fieldAt p.params 2 2 ≤ 3) :
    getRouteStats p s = okBody s (laneRecord s (fieldAt p.params 2 2)) := by
  simp only [getRouteStats, kind, ↓reduceIte]
  exact (badParam_false rfl).trans <| (badParam_false (not_zeroAt reserved)).trans (badParam_false (decide_eq_false (Nat.not_lt.2 lane)))

theorem getRouteStats_pdu (reserved : zeroAt p.params 1 1 = true) (kind : byteAt p.params 0 = 1) (number : fieldAt p.params 2 2 ≤ 0x7FFF) :
    getRouteStats p s = okBody s (pduRecord s (fieldAt p.params 2 2)) := by
  simp only [getRouteStats, kind, Nat.one_ne_zero, ↓reduceIte]
  exact (badParam_false rfl).trans <| (badParam_false (not_zeroAt reserved)).trans (badParam_false (decide_eq_false (Nat.not_lt.2 number)))

end

end Sys2Proof.Machine

open Sys2Proof Sys2Proof.Machine

/-- Settles O43: each packet passes its checks in order, and then stages its changes or reads. -/
theorem routingTablesComplete : Obligations.RoutingTablesComplete := by
  refine ⟨fun p s t accepts => ?_, fun p s t => ?_, fun p s accepts entry => ⟨fun free => ?_, fun g running => ?_⟩, fun p s t accepts => ?_,
    fun p s accepts reserved => ⟨fun kind lane => ?_, fun kind number => ?_⟩⟩
  · exact fun number reserved clear => ⟨fun code sound stages => answered_of_stages accepts stages (writePdu_free number reserved clear code sound),
      fun d code sound stages => answered_of_stages accepts stages (writePdu_set number reserved clear code sound)⟩
  · exact fun first last some_ few size reserved =>
      ⟨fun accepts sound stages => answered_of_stages accepts stages (writeEntries_sound first last some_ few size reserved sound),
        fun accepts sound stages => answered_of_stages accepts stages (writeEntries_sound first last some_ few size reserved sound)⟩
  · exact answered_of_accepts accepts (readSignal_free entry free)
  · exact answered_of_accepts accepts (readSignal_running entry running)
  · exact fun enabled round reserved stages => answered_of_stages accepts stages (setLocalIo_inRange enabled round reserved)
  · exact answered_of_accepts accepts (getRouteStats_lane reserved kind lane)
  · exact answered_of_accepts accepts (getRouteStats_pdu reserved kind number)

end

