-- ==== Sys2Proof/Proofs/BundleBlocks.lean ====
section
/-!
PROOFS. Blocks of an Ozqua bundle: how loading one ends, and what ABORT leaves (R462 to R464, R468).
-/

namespace Sys2Proof.Machine

/-! ### The result bytes (R468) -/

theorem bundleBytes_length (o : Option BundleLoad) (state failAt : Nat) : (bundleBytes o state failAt).length = 16 := by
  cases o <;> simp [bundleBytes, zeros]

/-- STATE is byte 8. -/
theorem byteAt_bundleBytes (o : Option BundleLoad) {state : Nat} (small : state < 256) (failAt : Nat) :
    byteAt (bundleBytes o state failAt) 8 = state := by
  cases o <;> simp [bundleBytes, byteAt, zeros, le, small]

/-! ### A part that fails has a status other than OK (R150, R463) -/

/-- Where the part has failed, its status is not OK. -/
def Loaded.Loud : Loaded → Prop
  | .fail _ status _ _ => status ≠ 0
  | _ => True

theorem takeRecord_loud {p : Packet} {r : List Byte} {s : State} {e : Nat × Nat} (failed : takeRecord p r s = .error e) : e.1 ≠ 0 := by
  unfold takeRecord at failed
  dsimp only at failed
  split at failed
  · cases failed; decide
  · split at failed
    · cases failed; decide
    · split at failed
      · cases failed; decide
      · split at failed
        · cases failed; exact Nat.succ_ne_zero _
        · split at failed
          · cases failed; exact Nat.succ_ne_zero _
          · split at failed <;> cases failed
            exact Nat.ne_of_gt (Nat.le_max_left 1 _)

theorem endBatch_loud (b : BundleLoad) (s : State) : (endBatch b s).Loud := by
  unfold endBatch
  split
  · exact Nat.succ_ne_zero _
  · dsimp only
    split
    · exact trivial
    · split
      · exact trivial
      · exact Nat.succ_ne_zero _

theorem finishHeader_loud (b : BundleLoad) (s : State) : (finishHeader b s).Loud := by
  unfold finishHeader
  split
  · split
    · exact trivial
    · exact Nat.succ_ne_zero _
  · exact trivial

theorem takePart_loud (p : Packet) (b : BundleLoad) (n : Nat) (s : State) : (takePart p b n s).Loud := by
  unfold takePart
  dsimp only
  split
  · split
    · exact Nat.succ_ne_zero _
    · exact finishHeader_loud _ _
  · split
    · split
      · exact Nat.succ_ne_zero _
      · split
        · exact endBatch_loud _ _
        · exact trivial
    · split
      · next failed => exact takeRecord_loud failed
      · split
        · exact endBatch_loud _ _
        · exact trivial

theorem takeParts_loud (p : Packet) (n : Nat) (s : State) : (takeParts p n s).Loud := by
  induction n generalizing s with
  | zero => exact trivial
  | succ n ih =>
    unfold takeParts
    split
    · exact trivial
    · split
      · exact trivial
      · exact Nat.succ_ne_zero _
      · next b _ _ k _ =>
        have part := takePart_loud p b k s
        split
        · exact ih _
        · exact part

/-! ### CTX0's latent set goes with the load (R464) -/

/-- Declarations cancelled are only told of. -/
theorem cancelHeldDecls_tells (x : Nat) (l : List Change) (s : State) : Tells s (cancelHeldDecls x l s) :=
  forEach_tells _ _ (fun _ _ h => raiseEvent_tells _ _ _ h) (Tells.refl s)

theorem dropLatent_zero (s : State) : (dropLatent 0 s).bundle = none ∧ ((dropLatent 0 s).ctx 0).latent = [] := by
  refine ⟨rfl, ?_⟩
  have dropped := (cancelHeldDecls_tells 0 (s.ctx 0).latent (s.modCtx 0 fun c => { c with latent := [] })).ctxs
  show ((cancelHeldDecls 0 (s.ctx 0).latent (s.modCtx 0 fun c => { c with latent := [] })).ctx 0).latent = []
  rw [State.ctx, dropped]
  exact congrArg Ctx.latent (State.ctx_modCtx s 0 _ (by decide))

/-! ### A block of an open load (R463, R468) -/

/-- How loading a block ends: with a reply of 16 result bytes, which STATE tells apart. -/
structure LoadEnds (t : State) (st : Nat) (body : List Byte) : Prop where
  size : body.length = 16
  failed : st ≠ 0 → t.bundle = none ∧ (t.ctx 0).latent = [] ∧ byteAt body 8 = 3
  loaded : st = 0 → byteAt body 8 ≤ 2

theorem loadEnds_ok (t : State) (o : Option BundleLoad) {state : Nat} (small : state ≤ 2) (failAt : Nat) :
    LoadEnds t 0 (bundleBytes o state failAt) :=
  ⟨bundleBytes_length _ _ _, fun ne => absurd rfl ne, fun _ => by rw [byteAt_bundleBytes o (by omega)]; exact small⟩

theorem loadBlock_ends (p : Packet) (data : List Byte) (l : BundleLoad) (s : State) :
    ∃ t st d body, loadBlock p data l s = .reply t st d body ∧ LoadEnds t st body := by
  have loud := takeParts_loud p (data.length + 2) { s with bundle := some { l with buffer := l.buffer ++ data } }
  unfold loadBlock
  split
  · next x status detail at_ failed =>
    rw [failed] at loud
    obtain ⟨closed, empty⟩ := dropLatent_zero s
    exact ⟨_, _, _, _, rfl, bundleBytes_length _ _ _, fun _ => ⟨closed, empty, byteAt_bundleBytes _ (by decide) _⟩, fun ok => absurd ok loud⟩
  · exact ⟨_, _, _, _, rfl, loadEnds_ok _ _ (by decide) _⟩
  · split
    · exact ⟨_, _, _, _, rfl, loadEnds_ok _ _ (by decide) _⟩
    · dsimp only
      split
      · exact ⟨_, _, _, _, rfl, loadEnds_ok _ _ (by decide) _⟩
      · exact ⟨_, _, _, _, rfl, loadEnds_ok _ _ (by decide) _⟩

/-! ### LOAD_BUNDLE_BLOCK (R468) -/

section
variable {p : Packet} {s : State} (reserved : zeroAt p.params 7 1 = true)
include reserved

section
variable (load : byteAt p.params 6 = 0) (low : 4 ≤ fieldAt p.params 4 2) (high : fieldAt p.params 4 2 ≤ 224) (whole : fieldAt p.params 4 2 % 4 = 0)
  (size : p.plen = 2 + fieldAt p.params 4 2 / 4)
include load low high whole size

/-- A block of data passes the checks of its shape. -/
theorem loadBundleBlock_shaped : loadBundleBlock p s =
    let data := (p.params.drop 8).take (fieldAt p.params 4 2)
    match s.bundle with
    | some l => refuseIf (fieldAt p.params 0 4 = 0) stState 0x0A0700 <| refuseIf l.waiting stState 0x0A0900 <|
        refuseIf (fieldAt p.params 0 4 ≠ l.done + l.buffer.length) stState 0x0A0800 <| loadBlock p data l s
    | none => refuseIf (fieldAt p.params 0 4 ≠ 0) stState 0x0A0800 <|
        refuseIf (!(s.ctx 0).latent.isEmpty || (s.ctx 0).armed.isSome) stState 0x0A0700 <| loadBlock p data bundleNew s := by
  have data : bitOf 0 0 = false := by decide
  have shaped : (decide (fieldAt p.params 4 2 < 4) || decide (fieldAt p.params 4 2 > 224) || decide (fieldAt p.params 4 2 % 4 ≠ 0)
      || decide (p.plen ≠ 2 + fieldAt p.params 4 2 / 4)) = false := by
    rw [outside_eq_false low high, decide_eq_false (not_not_intro whole), decide_eq_false (not_not_intro size)]
    rfl
  simp only [loadBundleBlock, load, data, Bool.false_eq_true, ↓reduceIte, Bool.false_or]
  exact (badParam_false shaped).trans <| (badParam_false rfl).trans <| (badParam_false (not_zeroAt reserved)).trans (by cases s.bundle <;> rfl)

/-- A block at the bytes received goes on with an open load whose batch is not waiting. -/
theorem loadBundleBlock_goesOn {l : BundleLoad} (open_ : s.bundle = some l) (later : fieldAt p.params 0 4 ≠ 0) (free : l.waiting = false)
    (next_ : fieldAt p.params 0 4 = l.done + l.buffer.length) :
    loadBundleBlock p s = loadBlock p ((p.params.drop 8).take (fieldAt p.params 4 2)) l s := by
  rw [loadBundleBlock_shaped reserved load low high whole size, open_]
  exact (refuseIf_false (decide_eq_false later)).trans <| (refuseIf_false free).trans (refuseIf_false (decide_eq_false (not_not_intro next_)))

/-- A block at offset 0 opens a load while nothing is staged or armed. -/
theorem loadBundleBlock_opens (closed : s.bundle = none) (first : fieldAt p.params 0 4 = 0) (empty : (s.ctx 0).latent = [])
    (unarmed : (s.ctx 0).armed = none) :
    loadBundleBlock p s = loadBlock p ((p.params.drop 8).take (fieldAt p.params 4 2)) bundleNew s := by
  rw [loadBundleBlock_shaped reserved load low high whole size, closed]
  exact (refuseIf_false (decide_eq_false (not_not_intro first))).trans (refuseIf_false (by rw [empty, unarmed]; rfl))

end

theorem loadBundleBlock_aborts {l : BundleLoad} (abort : byteAt p.params 6 = 1) (bare : fieldAt p.params 4 2 = 0) (size : p.plen = 2)
    (open_ : s.bundle = some l) : loadBundleBlock p s = endLoad stOk 0 0xFFFFFFFF l s := by
  have aborts : bitOf 1 0 = true := by decide
  simp only [loadBundleBlock, abort, aborts, ↓reduceIte, bare, size, open_]
  exact (badParam_false rfl).trans <| (badParam_false rfl).trans (badParam_false (not_zeroAt reserved))

end

end Sys2Proof.Machine

open Sys2Proof Sys2Proof.Machine

/-- Settles O44: what follows a part's failure or end is said once by `loadBlock_ends`; the command's checks lead there. -/
theorem bundleBlocksComplete : Obligations.BundleBlocksComplete := by
  refine ⟨fun p s accepts => ?_, fun p data l u t st d body run => ?_⟩
  · intro b u off len data reserved
    refine ⟨fun load low high whole size => ⟨fun l open_ later free next_ => ?_, fun closed first empty unarmed => ?_⟩, fun l abort bare size open_ => ?_⟩
    · obtain ⟨t, st, d, body, run, -⟩ := loadBlock_ends { p with opcode := 0x0A04 } data l u
      exact ⟨t, st, d, body, run, answered_of_accepts accepts
        ((loadBundleBlock_goesOn (p := { p with opcode := 0x0A04 }) reserved load low high whole size open_ later free next_).trans run)⟩
    · obtain ⟨t, st, d, body, run, -⟩ := loadBlock_ends { p with opcode := 0x0A04 } data bundleNew u
      exact ⟨t, st, d, body, run, answered_of_accepts accepts
        ((loadBundleBlock_opens (p := { p with opcode := 0x0A04 }) reserved load low high whole size closed first empty unarmed).trans run)⟩
    · exact answered_of_accepts accepts (loadBundleBlock_aborts (p := { p with opcode := 0x0A04 }) reserved abort bare size open_)
  · obtain ⟨t', st', d', body', run', size, failed, loaded⟩ := loadBlock_ends p data l u
    cases run.symm.trans run'
    exact ⟨size, failed, loaded⟩

end

