-- ==== Sys2Proof/Proofs/CheckValueUnits.lean ====
section
/-!
PROOFS. The commands of the check-value units and the end of a stop bath (R472 to R490).
-/

namespace Sys2Proof.Machine

/-- A change of a unit matters only where it meets the unit as it is. -/
theorem modCvu_congr {s : State} {u : Nat} {f g : Cvu → Cvu} (same : f (s.cvu u) = g (s.cvu u)) : s.modCvu u f = s.modCvu u g := by
  rw [State.modCvu, State.modCvu, tmod_congr _ same]

section
variable {p : Packet} {s : State}

/-! ### CONFIG_CVU (R472, R473, R479, R487) -/

/-- The parameters that CONFIG_CVU carries. -/
def cvuParamsFrom (p : Packet) : CvuParams :=
  { route := byteAt p.params 1 == 2, width := byteAt p.params 2, poly := BitVec.ofNat 64 (fieldAt p.params 8 8)
    init := BitVec.ofNat 64 (fieldAt p.params 16 8), xorout := BitVec.ofNat 64 (fieldAt p.params 24 8)
    refin := bitOf (byteAt p.params 3) 0, refout := bitOf (byteAt p.params 3) 1 }

/-- A unit that is free or the sender's own and that no check refuses is staged. -/
theorem configUnit_own {u mode : Nat} {prm : CvuParams} :
    let claims := unitClaims s
    let new := !(claims.any fun c => c.1 == u)
    (claims.any fun c => c.1 == u && c.2 != stageCtx p) = false → (mode = 0 → new = false) →
    (unitNamed s u = true → mode ≠ 0 ∧ (mode = 1 → ∀ c, ((stagedFor p s).cvu u).params = some c → c.route = false)) →
    ((s.cvu u).held ≠ none → mode = 1) → (new = true → cvuUse s (stageCtx p) + 1 ≤ quotaOf s (stageCtx p) 5) →
    configUnit p s u mode prm = stage p [.cvu u (if mode = 0 then none else some prm)] s (le 1 u ++ zeros 3) := by
  intro claims new own old named held room
  have spare : (unitNamed s u && (decide (mode = 0)
      || (decide (mode = 1) && (match ((stagedFor p s).cvu u).params with | some c => c.route | none => false)))) = false := by
    refine Bool.and_eq_false_imp.2 fun used => ?_
    obtain ⟨sets, feeds⟩ := named used
    rw [decide_eq_false sets, Bool.false_or]
    refine Bool.and_eq_false_imp.2 fun feed => ?_
    split
    · next c params => exact feeds (of_decide_eq_true feed) c params
    · rfl
  have free : ((s.cvu u).held.isSome && decide (mode ≠ 1)) = false :=
    Bool.and_eq_false_imp.2 fun waits => decide_eq_false (not_not_intro (held (Option.isSome_iff_ne_none.1 waits)))
  refine (refuseIf_false own).trans <| (refuseIf_false (Bool.and_eq_false_imp.2 fun zero => old (of_decide_eq_true zero))).trans <|
    (refuseIf_false spare).trans <| (refuseIf_false free).trans (refuseIf_false ?_)
  exact Bool.and_eq_false_imp.2 fun fresh => decide_eq_false (Nat.not_lt.2 (room fresh))

/-- Parameters in range lead to the unit: the one named, or the lowest free one with ANY. -/
theorem configCvuCmd_inRange {u : Nat} (mode : byteAt p.params 1 ≤ 2) (clear : bitsOf (byteAt p.params 0) 5 2 = 0)
    (any : bitOf (byteAt p.params 0) 7 = true → byteAt p.params 0 % 32 = 0)
    (range : if byteAt p.params 1 = 0 then byteAt p.params 2 = 0
      else 3 ≤ byteAt p.params 2 ∧ byteAt p.params 2 ≤ 64 ∧ fieldAt p.params 8 8 % 2 = 1 ∧ fieldAt p.params 8 8 < 2 ^ byteAt p.params 2
        ∧ fieldAt p.params 16 8 < 2 ^ byteAt p.params 2 ∧ fieldAt p.params 24 8 < 2 ^ byteAt p.params 2)
    (flags : byteAt p.params 3 < 4) (reserved : zeroAt p.params 4 4 = true)
    (unit : if bitOf (byteAt p.params 0) 7 then firstBelow 32 (fun u => !((unitClaims s).any fun c => c.1 == u)) = some u
      else u = byteAt p.params 0 % 32) :
    configCvuCmd p s = bundleOpen s p (configUnit p s u (byteAt p.params 1) (cvuParamsFrom p)) := by
  have named : (decide (bitsOf (byteAt p.params 0) 5 2 ≠ 0) || (bitOf (byteAt p.params 0) 7 && decide (byteAt p.params 0 % 32 ≠ 0))) = false := by
    rw [decide_eq_false (not_not_intro clear), Bool.false_or]
    exact Bool.and_eq_false_imp.2 fun set => decide_eq_false (not_not_intro (any set))
  have width : (if byteAt p.params 1 = 0 then decide (byteAt p.params 2 ≠ 0)
      else decide (byteAt p.params 2 < 3) || decide (byteAt p.params 2 > 64)) = false := by
    split
    · next zero => rw [if_pos zero] at range; exact decide_eq_false (not_not_intro range)
    · next sets => rw [if_neg sets] at range; exact outside_eq_false range.1 range.2.1
  have values : byteAt p.params 1 ≠ 0 → fieldAt p.params 8 8 % 2 = 1 ∧ fieldAt p.params 8 8 < 2 ^ byteAt p.params 2
      ∧ fieldAt p.params 16 8 < 2 ^ byteAt p.params 2 ∧ fieldAt p.params 24 8 < 2 ^ byteAt p.params 2 := fun sets => by
    rw [if_neg sets] at range
    obtain ⟨-, -, values⟩ := range
    exact values
  have poly : (decide (byteAt p.params 1 ≠ 0) && (decide (fieldAt p.params 8 8 % 2 = 0)
      || decide (fieldAt p.params 8 8 ≥ 2 ^ byteAt p.params 2))) = false := by
    refine Bool.and_eq_false_imp.2 fun sets => ?_
    obtain ⟨odd, below, -, -⟩ := values (of_decide_eq_true sets)
    rw [decide_eq_false (Nat.not_le.2 below), decide_eq_false (by omega)]
    rfl
  have init : (decide (byteAt p.params 1 ≠ 0) && decide (fieldAt p.params 16 8 ≥ 2 ^ byteAt p.params 2)) = false := by
    refine Bool.and_eq_false_imp.2 fun sets => ?_
    obtain ⟨-, -, below, -⟩ := values (of_decide_eq_true sets)
    exact decide_eq_false (Nat.not_le.2 below)
  have xorout : (decide (byteAt p.params 1 ≠ 0) && decide (fieldAt p.params 24 8 ≥ 2 ^ byteAt p.params 2)) = false := by
    refine Bool.and_eq_false_imp.2 fun sets => ?_
    obtain ⟨-, -, -, below⟩ := values (of_decide_eq_true sets)
    exact decide_eq_false (Nat.not_le.2 below)
  refine (badParam_false named).trans <| (badParam_false (decide_eq_false (Nat.not_lt.2 mode))).trans <| (badParam_false width).trans <|
    (badParam_false (decide_eq_false (Nat.not_le.2 flags))).trans <| (badParam_false (not_zeroAt reserved)).trans <| (badParam_false poly).trans <|
    (badParam_false init).trans <| (badParam_false xorout).trans <| congrArg (bundleOpen s p) ?_
  split
  · next set => rw [if_pos set] at unit; rw [unit]; rfl
  · next unset => rw [if_neg unset] at unit; rw [unit]; rfl

/-! ### FEED_CVU, READ_CVU and WRITE_CVU_VALUE (R476 to R478, R488 to R490) -/

/-- A unit that is enabled in FEED mode takes bytes and values. -/
theorem withFeedUnit_fed {q : CvuParams} {k : CvuParams → Verdict} {u : Nat} (params : (s.cvu u).params = some q) (feed : q.route = false)
    (enabled : (s.cvu u).enabled = true) (runs : (s.cvu u).stopping = false) : withFeedUnit s u k = k q := by
  simp only [withFeedUnit, params, feed, enabled, runs, Bool.not_true, Bool.or_self, Bool.false_eq_true, ↓reduceIte]

section
variable {q : CvuParams} (bound : byteAt p.params 0 < 32)
include bound

theorem unitOf_eq : unitOf p = byteAt p.params 0 := Nat.mod_eq_of_lt bound

theorem feedCvu_fed (ctrl : byteAt p.params 1 < 16) (sized : byteAt p.params 1 % 4 ≠ 3) (some_ : 1 ≤ fieldAt p.params 2 2)
    (few : fieldAt p.params 2 2 ≤ 224) (whole : fieldAt p.params 2 2 % 2 ^ (byteAt p.params 1 % 4) = 0)
    (size : p.plen = 2 + (fieldAt p.params 2 2 + 3) / 4) (reserved : zeroAt p.params 4 4 = true)
    (params : (s.cvu (byteAt p.params 0)).params = some q) (feed : q.route = false) (enabled : (s.cvu (byteAt p.params 0)).enabled = true)
    (runs : (s.cvu (byteAt p.params 0)).stopping = false) :
    let r := cvuFeed q (if bitOf (byteAt p.params 1) 3 then q.init else (s.cvu (byteAt p.params 0)).reg)
      (feedOrder (2 ^ (byteAt p.params 1 % 4)) (bitOf (byteAt p.params 1) 2) (fieldAt p.params 2 2) ((p.params.drop 8).take (fieldAt p.params 2 2)))
    feedCvu p s = okBody (s.modCvu (byteAt p.params 0) fun c => { c with reg := r, fed := satAdd 32 c.fed (fieldAt p.params 2 2) })
      (le 8 r.toNat ++ le 8 (cvuResult q r).toNat) := by
  have shape : (decide (byteAt p.params 1 % 4 = 3) || decide (byteAt p.params 1 ≥ 16)) = false := by
    rw [decide_eq_false sized, decide_eq_false (Nat.not_le.2 ctrl)]
    rfl
  have length : (decide (fieldAt p.params 2 2 = 0) || decide (fieldAt p.params 2 2 > 224)
      || decide (fieldAt p.params 2 2 % 2 ^ (byteAt p.params 1 % 4) ≠ 0) || decide (p.plen ≠ 2 + ceilDiv (fieldAt p.params 2 2) 4)) = false := by
    rw [decide_eq_false (Nat.ne_of_gt some_), decide_eq_false (Nat.not_lt.2 few), decide_eq_false (not_not_intro whole)]
    exact decide_eq_false (not_not_intro size)
  have run : feedCvu p s = _ := (badParam_false (decide_eq_false (Nat.not_le.2 bound))).trans <| (badParam_false shape).trans <|
    (badParam_false length).trans <| (badParam_false (not_zeroAt reserved))
  rw [run, unitOf_eq bound, withFeedUnit_fed params feed enabled runs]

theorem readCvu_named (reserved : zeroAt p.params 1 3 = true) : readCvu p s = okBody s (cvuRecord s (byteAt p.params 0)) := by
  rw [readCvu, badParam_false (decide_eq_false (Nat.not_le.2 bound)), badParam_false (not_zeroAt reserved), unitOf_eq bound]

theorem writeCvuValue_fed (reserved : zeroAt p.params 1 7 = true) (params : (s.cvu (byteAt p.params 0)).params = some q)
    (fits : fieldAt p.params 8 8 < 2 ^ q.width) (feed : q.route = false) (enabled : (s.cvu (byteAt p.params 0)).enabled = true)
    (runs : (s.cvu (byteAt p.params 0)).stopping = false) :
    writeCvuValue p s = okDone (s.modCvu (byteAt p.params 0) fun c => { c with reg := BitVec.ofNat 64 (fieldAt p.params 8 8) }) := by
  simp only [writeCvuValue, unitOf_eq bound, params, withFeedUnit_fed params feed enabled runs]
  exact (badParam_false (decide_eq_false (Nat.not_le.2 bound))).trans <| (badParam_false (not_zeroAt reserved)).trans
    (badParam_false (decide_eq_false (Nat.not_le.2 fits)))

/-! ### ENABLE_CVU and DISABLE_CVU (R478) -/

theorem withUnit_feed {k : Nat → Verdict} (reserved : zeroAt p.params 1 3 = true) (params : (s.cvu (byteAt p.params 0)).params = some q)
    (feed : q.route = false) : withUnit p s k = k (byteAt p.params 0) := by
  simp only [withUnit, unitOf_eq bound, params, feed, Bool.false_eq_true, ↓reduceIte]
  exact (badParam_false (decide_eq_false (Nat.not_le.2 bound))).trans (badParam_false (not_zeroAt reserved))

/-- ENABLE_CVU is held in a stop bath; else REG starts at INIT on a unit that is not enabled. -/
theorem enableCvu_feed (reserved : zeroAt p.params 1 3 = true) (params : (s.cvu (byteAt p.params 0)).params = some q) (feed : q.route = false) :
    enableCvu p s = if (s.cvu (byteAt p.params 0)).stopping
      then .reply (s.modCvu (byteAt p.params 0) fun c => { c with held := some p.source }) stDeferred 3 []
      else okDone (if (s.cvu (byteAt p.params 0)).enabled then s
        else s.modCvu (byteAt p.params 0) fun c => { c with enabled := true, reg := q.init }) := by
  have enabled : cvuEnable (byteAt p.params 0) s = s.modCvu (byteAt p.params 0) fun c => { c with enabled := true, reg := q.init } :=
    modCvu_congr (by simp only [params])
  rw [enableCvu, withUnit_feed bound reserved params feed, enabled]

theorem disableCvu_feed (reserved : zeroAt p.params 1 3 = true) (params : (s.cvu (byteAt p.params 0)).params = some q) (feed : q.route = false) :
    disableCvu p s = okDone (if (s.cvu (byteAt p.params 0)).stopping
      then (if (s.cvu (byteAt p.params 0)).held.isSome
        then cvuEvent 0x0BF2 (byteAt p.params 0) p.source (s.modCvu (byteAt p.params 0) fun c => { c with held := none }) else s)
      else if (s.cvu (byteAt p.params 0)).enabled
        then s.modCvu (byteAt p.params 0) fun c => { c with stopping := true, stopBy := p.source } else s) := by
  rw [disableCvu, withUnit_feed bound reserved params feed]
  exact (apply_ite okDone ..).symm

end

theorem exec_cvuStopBathEnd {u : Fin 32} (stopping : (s.cvu u.val).stopping = true) :
    let t := cvuEvent 0x0BF0 u.val (s.cvu u.val).stopBy (s.modCvu u.val fun x => { x with stopping := false, enabled := false, held := none })
    ((s.cvu u.val).held = none → exec (.cvuStopBathEnd u) s = next t)
    ∧ (∀ src, (s.cvu u.val).held = some src → exec (.cvuStopBathEnd u) s = next (cvuEvent 0x0BF1 u.val src (cvuEnable u.val t))) := by
  intro t
  constructor
  · intro free
    show execCvuStopBathEnd u s = _
    simp only [execCvuStopBathEnd, stopping, free, Bool.not_true, Bool.false_eq_true, ↓reduceIte, t]
  · intro src held
    show execCvuStopBathEnd u s = _
    simp only [execCvuStopBathEnd, stopping, held, Bool.not_true, Bool.false_eq_true, ↓reduceIte, t]

end

end Sys2Proof.Machine

open Sys2Proof Sys2Proof.Machine

/-- Settles O47: each command passes its checks in order and does its one effect on the unit it names. -/
theorem checkValueUnitsComplete : Obligations.CheckValueUnitsComplete := by
  refine ⟨fun p s t u mode accepts => ?_, fun p s q accepts => ?_, fun p s accepts bound reserved => ?_, fun p s q accepts => ?_, fun p s q => ?_,
    fun u s stopping => exec_cvuStopBathEnd stopping⟩
  · intro z b w prm any claims new is mode2 clear anyZero range flags reserved unit own old named held room stages
    subst is
    exact answered_of_stages accepts stages ((configCvuCmd_inRange (p := { p with opcode := 0x0B01 }) mode2 clear anyZero range flags reserved unit).trans
      (congrArg (bundleOpen z _) (configUnit_own own old named held room)))
  · intro z b u ctrl len size bound small sized some_ few whole plen reserved params feed enabled runs r
    exact answered_of_accepts accepts (feedCvu_fed bound small sized some_ few whole plen reserved params feed enabled runs)
  · exact answered_of_accepts accepts (readCvu_named bound reserved)
  · exact fun bound reserved params fits feed enabled runs =>
      answered_of_accepts accepts (writeCvuValue_fed bound reserved params fits feed enabled runs)
  · intro z u c bound reserved params feed
    refine ⟨fun accepts => ?_, fun accepts => answered_of_accepts accepts (disableCvu_feed bound reserved params feed)⟩
    have run := enableCvu_feed (p := { p with opcode := 0x0B05 }) bound reserved params feed
    split
    · next stopping => exact answered_of_accepts accepts (run.trans (if_pos stopping))
    · next runs => exact answered_of_accepts accepts (run.trans (if_neg runs))

end

