-- ==== Sys2Proof/Proofs/LoadEvents.lean ====
section
/-!
PROOFS. Ticks, windows, back-offs, PWM periods, chain transfers and the battery filter (R494 to R524).
-/

namespace Sys2Proof.Machine

/-! ### Ticks (R494) -/

theorem exec_loadTick {v : List Nat} {s : State} (ready : s.isReady 10 = true) :
    exec (.loadTick v) s = next (loadTick (if s.isReady 14 then takeVbats v s else s)) := by
  show execLoadTick v s = _
  have runs : (if s.isReady 14 then takeVbats v s else s).isReady 10 = true := by
    split
    · exact ready
    · exact ready
  simp only [execLoadTick, runs, ↓reduceIte]

/-! ### The battery filter (R513) -/

/-- The mean of the last ten conversions. -/
theorem meanVbats_last {l : List Nat} (enough : 10 ≤ l.length) (old : Nat) :
    meanVbats (l.drop (l.length - 10)) old = total (l.drop (l.length - 10)) / 10 := by
  have ten : (l.drop (l.length - 10)).length = 10 := by
    rw [List.length_drop]
    exact Nat.sub_sub_self enough
  have some_ : (l.drop (l.length - 10)).isEmpty = false := List.isEmpty_eq_false_iff.2 fun none => by rw [none] at ten; cases ten
  rw [meanVbats, some_, ten]
  rfl

/-- A millisecond of conversions, the last ten of which make V_f. -/
theorem exec_vbatsFilterUpdate {v : List Nat} {s : State} (ready : s.isReady 14 = true) (enough : 10 ≤ (s.load.vbats ++ v.map vbatsMv).length) :
    let l := s.load.vbats ++ v.map vbatsMv
    let vf := total (l.drop (l.length - 10)) / 10
    let t := reachClk (s.load.vbatsFrom + msNs) s
    exec (.vbatsFilterUpdate v) s = next (localArrival 2 (le 2 vf ++ zeros 2)
      { t with load := { t.load with vf := vf, vbats := [], vfSettled := true, vbatsFrom := s.load.vbatsFrom + msNs } }) := by
  have acts : (!s.isReady 14 || decide ((s.load.vbats ++ v.map vbatsMv).length < 10)) = false := by
    rw [ready, decide_eq_false (Nat.not_lt.2 enough)]
    rfl
  show execVbatsFilterUpdate v s = _
  simp only [execVbatsFilterUpdate, acts, Bool.false_eq_true, ↓reduceIte, meanVbats_last enough]

/-! ### Rows that name a tick (R516, R519, R524) -/

section
variable {n : Fin 96} {s : State} (ready : s.isReady 10 = true)
include ready

theorem exec_inrushWindowEnd (window : (s.ld n.val).state = .inrush) : exec (.inrushWindowEnd n) s = next (timerTick n.val s) := by
  show execInrushWindowEnd n s = _
  simp [execInrushWindowEnd, ready, window]

theorem exec_backoffEnd (waits : (s.ld n.val).state = .backoff) : exec (.backoffEnd n) s = next (timerTick n.val s) := by
  show execBackoffEnd n s = _
  simp [execBackoffEnd, ready, waits]

theorem exec_healReached (on : (s.ld n.val).state = .on) (runs : s.load.tick < (s.ld n.val).timerEnd) : exec (.healReached n) s
    = next (ticksUntil (fun t => (t.ld n.val).state != (s.ld n.val).state) ((s.ld n.val).timerEnd - s.load.tick) s) := by
  show execHealReached n s = _
  simp [execHealReached, ready, on, runs]

/-- The stop bath ends at the rise of CSN of the transfer that carries the off command, or at the tick's edge. -/
theorem exec_loadStopBathEnd (stops : (s.ld n.val).state = .stopping) :
    let t := if (s.ld n.val).stopDue then s else loadTick s
    exec (.loadStopBathEnd n) s = next (if (t.ld n.val).stopDue = false then t
      else endLoadBath n.val (match (chainPlace (t.ld n.val)).bind fun p => (t.swc p.1).busy.map fun f => (p.1, f) with
        | some x => reachClk ((t.swc x.1).busyAt + transferNs x.2) t
        | none => t)) := by
  show execLoadStopBathEnd n s = _
  simp only [execLoadStopBathEnd, ready, stops, Bool.not_true, bne_self_eq_false, Bool.or_self, Bool.false_eq_true, ↓reduceIte]
  generalize (if (s.ld n.val).stopDue = true then s else loadTick s) = t
  cases due : (t.ld n.val).stopDue with
  | false => simp only [Bool.not_false, ↓reduceIte]
  | true =>
    simp only [Bool.not_true, Bool.false_eq_true, ↓reduceIte]
    cases chainPlace (t.ld n.val) with
    | none => rfl
    | some place =>
      dsimp only [Option.bind_some]
      cases (t.swc place.1).busy <;> rfl

end

/-! ### PWM periods (R495, R496, R514) -/

section
variable {n : Fin 96} {period : Nat} {s : State} (pwm : pwmPeriod (s.ld n.val) = some period)
include pwm

theorem exec_pwmPeriodStart (runs : pwmRuns (s.ld n.val) = true) :
    let l := s.ld n.val
    let t := reachClk (l.periodAt + period * usNs) s
    let e := if outOn l.state then compensated t l l.taken else l.eff
    exec (.pwmPeriodStart n) s = next
      (t.modLd n.val fun x => { x with eff := e, periodAt := l.periodAt + period * usNs, ball := decide (highUs e period > 0) }) := by
  intro l t e
  show execPwmPeriodStart n s = _
  simp only [execPwmPeriodStart, pwm, runs, Bool.not_true, Bool.false_eq_true, ↓reduceIte]
  rfl

theorem exec_pwmHighEnd (high : (s.ld n.val).ball = true) (ends : highUs (s.ld n.val).eff period < period) :
    exec (.pwmHighEnd n) s = next ((reachClk ((s.ld n.val).periodAt + highUs (s.ld n.val).eff period * usNs) s).modLd n.val fun l =>
      { l with ball := false }) := by
  have falls : (!(s.ld n.val).ball || decide (highUs (s.ld n.val).eff period ≥ period)) = false := by
    rw [high, decide_eq_false (Nat.not_le.2 ends)]
    rfl
  show execPwmHighEnd n s = _
  simp only [execPwmHighEnd, pwm, falls, Bool.false_eq_true, ↓reduceIte]

end

/-! ### Chain transfers (R498, R501, R502, R510, R524) -/

theorem exec_chainTransferEnd {c : Fin 8} {f : Profile} {s : State} (busy : (s.swc c.val).busy = some f) (response : List Byte) :
    let bits := response.flatMap fun b => ((List.range 8).reverse).map fun i => bitOf b.toNat i
    let t := forRange f.switches (takeResponse c.val f bits) (reachClk ((s.swc c.val).busyAt + transferNs f) s)
    let u := endChainBaths c.val (t.modSwc c.val fun x => { x with busy := none })
    exec (.chainTransferEnd c response) s = next (if (u.swc c.val).extra then startTransfer c.val false u else u) := by
  intro bits t u
  show execChainTransferEnd c response s = _
  simp only [execChainTransferEnd, busy]
  rfl

end Sys2Proof.Machine

open Sys2Proof Sys2Proof.Machine

/-- Settles O50: each row under its conditions takes the branch that acts; those that name a tick run `ticksUntil`. -/
theorem loadEventsComplete : Obligations.LoadEventsComplete := by
  refine ⟨fun v s ready => exec_loadTick ready, fun v s => exec_vbatsFilterUpdate,
    fun n s ready => ⟨exec_inrushWindowEnd ready, exec_backoffEnd ready, exec_healReached ready⟩, fun done k s => ⟨rfl, rfl⟩,
    fun n s ready => exec_loadStopBathEnd ready, fun n period s pwm => ⟨exec_pwmPeriodStart pwm, exec_pwmHighEnd pwm⟩,
    fun c response f s busy => exec_chainTransferEnd busy response⟩

end

