-- ==== Sys2Proof/Proofs/AnsweredForces.lean ====
section
/-!
PROOFS. FORCE_SAFE of a packet that the AON decoder has applied: what is left among the decoded forces (R512, R531).
-/

namespace Sys2Proof.Machine

/-! ### A refuting run of FORCE_SAFE -/

/-- CTX0 releases load 7. -/
def releasePacket : Packet := packetFrom (.ctx 0) 0x0C05 ([2, 0, 0, 0, 0x80] ++ zeros 11)

/-- The same packet stands among the decoded forces and in the safety port's queue, behind a command of the safety port that waits for
its reply. -/
def waitingForce : State :=
  let s := loadState id
  { s with
    sp := { s.sp with decoded := [(releasePacket, 5)] }
    fq := { s.fq with spq := [releasePacket] }
    engine := { s.engine with taken := [plainPacket] } }

/-- The decoded forces that an outcome leaves to be answered. -/
def decodedAfter : Host.Outcome State Fault Refusal → List (Packet × Nat)
  | .next t => t.sp.decoded
  | _ => []

set_option maxRecDepth 20000 in
theorem accepts_releasePacket : Accepts specForceSafe releasePacket waitingForce := by constructor <;> decide +kernel

/-- The model takes the force that it answers off the list. -/
theorem decodedAfter_releasePacket : decodedAfter (exec (.forceSafe releasePacket) waitingForce) = [] := by decide +kernel

/-- Pruning alone leaves it there while its packet waits. -/
theorem decodedAfter_pruned : let u := taken releasePacket waitingForce
    decodedAfter (.next (fcSettle (pruneDecoded (sendReply { releasePacket with opcode := 0x0C05 } 0 0 (le 8 5 ++ safeMap u) u))))
      = [(releasePacket, 5)] := by decide +kernel

end Sys2Proof.Machine

open Sys2Proof Sys2Proof.Machine

/-- Refutes O49: the statement leaves an answered force among the decoded ones for pruning to take off, and pruning keeps it while its
packet stands in the safety port's queue; the model takes it off itself. -/
theorem not_loadCommandsComplete : ¬ Obligations.LoadCommandsComplete := by
  intro claim
  obtain ⟨-, -, -, -, force, -⟩ := claim
  obtain ⟨-, answered⟩ := force releasePacket waitingForce accepts_releasePacket (by decide) (by decide)
  have left := congrArg decodedAfter (answered 5 (by decide +kernel))
  rw [decodedAfter_releasePacket, decodedAfter_pruned] at left
  cases left

end

