-- ==== Sys2Proof/Proofs/LinkCommands.lean ====
section
/-!
PROOFS. The commands of the links and of the census (R561 to R565).
-/

namespace Sys2Proof.Machine

theorem portOf_le {n : Nat} {q : Port} (names : portOf n = some q) : n ≤ 2 := by
  unfold portOf at names
  split at names
  · decide
  · decide
  · cases names

section
variable {p : Packet} {s : State} {q : Port}

/-! ### GET_STACK and CONFIG_LINK (R561, R562) -/

theorem getStack_table (reserved : zeroAt p.params 1 3 = true) (table : byteAt p.params 0 = 0) : getStack p s = okBody s (stackTable s) := by
  simp only [getStack, table]
  exact (badParam_false rfl).trans (badParam_false (not_zeroAt reserved))

/-- The record of a link draws a free value for what other devices load it with (log entry 41). -/
theorem getStack_link (reserved : zeroAt p.params 1 3 = true) (names : portOf (byteAt p.params 0) = some q) :
    getStack p s = okBody (drawn 1 s) (linkRecord s q) := by
  simp only [getStack, names]
  exact (badParam_false (decide_eq_false (Nat.not_lt.2 (portOf_le names)))).trans (badParam_false (not_zeroAt reserved))

theorem configLink_inRange {d : Nat} (names : portOf (byteAt p.params 0) = some q)
    (default_ : (if fieldAt p.params 2 2 = 0 then 60 else fieldAt p.params 2 2) = d) (reserved : zeroAt p.params 1 1 = true) (low : 10 ≤ d) (high : d ≤ 500)
    (covers : (s.link q).state = .up → (s.link q).wire ≤ d * 1000) : configLink p s = bundleOpen s p (stage p [.link q d] s []) := by
  have reaches : ((s.link q).state == .up && decide (d * 1000 < (s.link q).wire)) = false :=
    Bool.and_eq_false_imp.2 fun up => decide_eq_false (Nat.not_lt.2 (covers (eq_of_beq up)))
  simp only [configLink, names, default_]
  exact (badParam_false (not_zeroAt reserved)).trans <| (badParam_false (outside_eq_false low high)).trans
    (congrArg (bundleOpen s p) (refuseIf_false reaches))

/-! ### The census (R559, R563, R564) -/

/-- The entries of `all` from number START on, up to seven of them, with the counts and the stamp. -/
def censusAnswer (p : Packet) (s : State) (all : List (Nat × CensusEntry)) : List Byte :=
  let from_ := all.filter fun e => fieldAt p.params 2 2 ≤ e.1
  le 1 (min 7 from_.length) ++ zeros 1 ++ le 2 ((from_[7]?.map (·.1)).getD 0xFFFF) ++ le 2 all.length ++ le 2 s.census.fullDrops ++ le 8 (stampNow s)
    ++ padTo 224 ((from_.take 7).flatMap fun e => censusBytes s e.2 (virtChan s ((guestOf p.source).getD 0) e.2.channel))

/-- What GET_CENSUS shows of a list of entries is `censusAnswer`. -/
theorem censusAnswer_eq (p : Packet) (s : State) (all : List (Nat × CensusEntry)) : censusAnswer p s all =
    let from_ := all.filter fun e => fieldAt p.params 2 2 ≤ e.1
    le 1 (from_.take 7).length ++ zeros 1 ++ le 2 (((from_.drop 7).head?.map (·.1)).getD 0xFFFF) ++ le 2 all.length ++ le 2 s.census.fullDrops
      ++ le 8 (stampNow s) ++ padTo 224 ((from_.take 7).flatMap fun e => censusBytes s e.2 (virtChan s ((guestOf p.source).getD 0) e.2.channel)) := by
  simp only [censusAnswer, List.length_take, List.head?_drop]

theorem getCensus_channel {ch : Nat} (reserved : zeroAt p.params 1 1 = true) (virtual : byteAt p.params 0 < 64)
    (mapped : srcChan s p.source (byteAt p.params 0) = some ch) :
    getCensus p s = okBody s (censusAnswer p s (s.census.entries.filter fun e => e.2.channel == ch)) := by
  have one : byteAt p.params 0 ≠ 0xFF := by omega
  have seen : (decide (byteAt p.params 0 ≠ 0xFF) && (decide (byteAt p.params 0 ≥ 64) || (some ch).isNone)) = false := by
    rw [decide_eq_false (Nat.not_le.2 virtual)]
    exact Bool.and_false _
  simp only [getCensus, if_neg one, mapped, censusAnswer_eq]
  refine (badParam_false seen).trans <| (badParam_false (not_zeroAt reserved)).trans ?_
  cases (((s.census.entries.filter fun e => e.2.channel == ch).filter fun e => fieldAt p.params 2 2 ≤ e.1).drop 7).head? <;> rfl

theorem getCensus_all (reserved : zeroAt p.params 1 1 = true) (every : byteAt p.params 0 = 0xFF) :
    getCensus p s = okBody s (censusAnswer p s (s.census.entries.filter fun e => censusReadable s p.source e.2.channel)) := by
  simp only [getCensus, every, ↓reduceIte, censusAnswer_eq]
  refine (badParam_false rfl).trans <| (badParam_false (not_zeroAt reserved)).trans ?_
  cases (((s.census.entries.filter fun e => censusReadable s p.source e.2.channel).filter fun e => fieldAt p.params 2 2 ≤ e.1).drop 7).head? <;> rfl

theorem clearCensus_cleared (reserved : zeroAt p.params 1 3 = true) (names : byteAt p.params 0 < 64 ∨ byteAt p.params 0 = 0xFF) :
    clearCensus p s = okDone { s with census := { s.census with
      entries := if byteAt p.params 0 = 0xFF then [] else s.census.entries.filter fun e => e.2.channel != byteAt p.params 0
      fullDrops := 0, fullSent := false } } := by
  rw [clearCensus]
  rcases names with channel | every
  · have one : byteAt p.params 0 ≠ 0xFF := by omega
    simp only [decide_eq_true one, Bool.true_and, if_neg one]
    exact (badParam_false (decide_eq_false (Nat.not_le.2 channel))).trans (badParam_false (not_zeroAt reserved))
  · simp only [every, ne_eq, not_true_eq_false, decide_false, Bool.false_and, ↓reduceIte, List.filter_false]
    exact (badParam_false rfl).trans (badParam_false (not_zeroAt reserved))

theorem setCensusEvents_inRange (channel : byteAt p.params 0 < 64) (flags : byteAt p.params 1 < 16) (listed : bitsOf (byteAt p.params 1) 1 2 ≠ 3)
    (reserved : zeroAt p.params 3 1 = true) (reserved' : zeroAt p.params 6 2 = true) :
    setCensusEvents p s = bundleOpen s p (stage p [.census (byteAt p.params 0) (bitOf (byteAt p.params 1) 0) (bitsOf (byteAt p.params 1) 1 2)
      (bitOf (byteAt p.params 1) 3) (if byteAt p.params 2 = 0 then 3 else byteAt p.params 2)
      (if p.plen = 2 then some (fieldAt p.params 4 2) else none)] s []) := by
  have known : (decide (byteAt p.params 1 ≥ 16) || decide (bitsOf (byteAt p.params 1) 1 2 = 3)) = false := by
    rw [decide_eq_false (Nat.not_le.2 flags), decide_eq_false listed]
    rfl
  exact (badParam_false (decide_eq_false (Nat.not_le.2 channel))).trans <| (badParam_false known).trans <|
    (badParam_false (not_zeroAt reserved)).trans (badParam_false (not_zeroAt reserved'))

/-! ### ENABLE_LINK and DISABLE_LINK (R84, R179, R565) -/

section
variable (names : portOf (byteAt p.params 0) = some q) (reserved : zeroAt p.params 1 3 = true)
include names reserved

theorem withPort_named {h : Port → Verdict} : withPort p h = h q := by
  rw [withPort, names]
  exact badParam_false (not_zeroAt reserved)

/-- ENABLE_LINK trains a disabled port, is held in a stop bath, and is OK on a port that runs. -/
theorem enableLink_named (powered : (s.link q).state = .disabled ∨ (s.link q).state = .stopping → powerBlocks s = false) :
    enableLink p s = if (s.link q).state = .stopping then .reply (s.modLink q fun l => { l with held := some p.source }) stDeferred 4 []
      else okDone (if (s.link q).state = .disabled then setLink q .training 0 s else s) := by
  rw [enableLink, withPort_named names reserved]
  cases state : (s.link q).state with
  | disabled => exact refuseIf_false (powered (.inl state))
  | stopping => exact refuseIf_false (powered (.inr state))
  | _ => rfl

/-- DISABLE_LINK of a port that is no route's only path starts the stop bath; in one it cancels a held enable. -/
theorem disableLink_named (spare : (s.link q).state ≠ .disabled → (s.link q).state ≠ .stopping → onlyPath s q = false) :
    disableLink p s = okDone (if (s.link q).state = .disabled then s
      else if (s.link q).state = .stopping then
        (if (s.link q).held.isSome then linkBathEvent 0x0DF2 q p.source (s.modLink q fun l => { l with held := none }) else s)
      else startLinkBath q p.source (drawn 1 s)) := by
  rw [disableLink, withPort_named names reserved]
  cases state : (s.link q).state with
  | disabled | stopping => simp only [state]; rfl
  | training | up | conflict =>
    simp only [state]
    exact refuseIf_false (spare (by simp only [state, ne_eq, reduceCtorEq, not_false_eq_true]) (by simp only [state, ne_eq, reduceCtorEq, not_false_eq_true]))

end

end

end Sys2Proof.Machine

open Sys2Proof Sys2Proof.Machine

/-- Settles O53: each command passes its checks in order and then stages, reads, or acts on the port it names. -/
theorem linkCommandsComplete : Obligations.LinkCommandsComplete := by
  refine ⟨fun p s accepts reserved => ⟨fun table => ?_, fun q names => ?_⟩, fun p s t q accepts names => ?_, fun p s accepts reserved => ?_,
    fun p s accepts reserved names => ?_, fun p s t accepts => ?_, fun p s q names reserved => ?_⟩
  · exact answered_of_accepts accepts (getStack_table reserved table)
  · exact answered_of_accepts accepts (getStack_link reserved names)
  · exact fun reserved low high covers stages => answered_of_stages accepts stages (configLink_inRange names rfl reserved low high covers)
  · exact ⟨fun ch virtual mapped => answered_of_accepts accepts (getCensus_channel reserved virtual mapped),
      fun every => answered_of_accepts accepts (getCensus_all reserved every)⟩
  · exact answered_of_accepts accepts (clearCensus_cleared reserved names)
  · exact fun channel flags listed reserved reserved' stages =>
      answered_of_stages accepts stages (setCensusEvents_inRange channel flags listed reserved reserved')
  · intro u l
    refine ⟨fun accepts powered => ?_, fun accepts spare => answered_of_accepts accepts (disableLink_named names reserved spare)⟩
    have run := enableLink_named (p := { p with opcode := 0x0D06 }) (s := u) names reserved powered
    split
    · next stopping => exact answered_of_accepts accepts (run.trans (if_pos stopping))
    · next runs => exact answered_of_accepts accepts (run.trans (if_neg runs))

end

