-- ==== Sys2Proof/Proofs/LinkPorts.lean ====
section
/-!
PROOFS. Ports train, go up and down, conflict and stop; rounds, exchanges and census judgements (R534 to R559).
-/

namespace Sys2Proof.Machine

section
variable {q : Port} {s : State} (runs : linksRun s = true)
include runs

/-! ### Training and its end (R534, R536, R537, R543) -/

section
variable (training : (s.link q).state = .training)
include training

/-- A partner out of range, of this device's position or of another serial number is refused. -/
theorem exec_linkUp_conflict {x : Partner} (strange : x.position ≥ 8 ∨ x.position = s.pos
      ∨ ((devOf s x.position).present = true ∧ (devOf s x.position).serial ≠ x.serial)) :
    exec (.linkUp q x) s = next (enterConflict q 3 s) := by
  have refused : (decide (x.position ≥ 8) || decide (x.position = s.pos)
      || ((devOf s x.position).present && (devOf s x.position).serial != x.serial)) = true := by
    simp only [Bool.or_eq_true, decide_eq_true_eq, Bool.and_eq_true, bne_iff_ne]
    rcases strange with far | own | other
    · exact .inl (.inl far)
    · exact .inl (.inr own)
    · exact .inr other
  show execLinkUp q x s = _
  simp only [execLinkUp, training, runs, bne_self_eq_false, Bool.not_true, Bool.or_self, Bool.false_eq_true, ↓reduceIte, refused]

/-- A fitting partner whose delay is covered brings the port up. -/
theorem exec_linkUp_fits {x : Partner} (near : x.position < 8) (apart : x.position ≠ s.pos)
    (known : (devOf s x.position).present = true → (devOf s x.position).serial = x.serial) :
    exec (.linkUp q x) s = next (if x.wire > 1000 * min (s.link q).maxDelay x.maxDelay then enterConflict q 5 s else enterUp q x s) := by
  have fits : (decide (x.position ≥ 8) || decide (x.position = s.pos)
      || ((devOf s x.position).present && (devOf s x.position).serial != x.serial)) = false := by
    rw [decide_eq_false (Nat.not_le.2 near), decide_eq_false apart, Bool.or_self, Bool.false_or]
    exact Bool.and_eq_false_imp.2 fun present => bne_eq_false_iff_eq.2 (known present)
  show execLinkUp q x s = _
  simp only [execLinkUp, training, runs, bne_self_eq_false, Bool.not_true, Bool.or_self, Bool.false_eq_true, ↓reduceIte, fits]
  split <;> rfl

theorem exec_linkTrainingFailed_conflict {r : Nat} (low : 2 ≤ r) (high : r ≤ 5) :
    exec (.linkTrainingFailed q r) s = next (enterConflict q r s) := by
  show execLinkTrainingFailed q r s = _
  simp [execLinkTrainingFailed, training, runs, low, high]

/-- A port without a partner goes on training with reason 1. -/
theorem exec_linkTrainingFailed_alone : exec (.linkTrainingFailed q 1) s = next (s.modLink q fun l => { l with reason := 1 }) := by
  have stays : setLink q .training 1 s = s.modLink q fun l => { l with reason := 1 } := if_pos training
  show execLinkTrainingFailed q 1 s = _
  simp [execLinkTrainingFailed, training, runs, stays]

end

theorem exec_linkConflictRetry (conflict : (s.link q).state = .conflict) :
    exec (.linkConflictRetry q) s = next (setLink q .training (s.link q).reason (reachClk ((s.link q).since + 100 * msNs) s)) := by
  show execLinkConflictRetry q s = _
  simp only [execLinkConflictRetry, conflict, runs, bne_self_eq_false, Bool.not_true, Bool.or_self, Bool.false_eq_true, ↓reduceIte]

/-- UP is left for silence, or when a frame has gone four times more. -/
theorem exec_linkDown {r : Nat} (up : (s.link q).state = .up) (cause : r = 1 ∨ (r = 6 ∧ ∃ u ∈ (s.link q).unacked, 4 ≤ u.replays)) :
    exec (.linkDown q r) s = next (linkDown q r s) := by
  have leaves : (decide (r = 1) || (decide (r = 6) && (s.link q).unacked.any fun u => decide (u.replays ≥ 4))) = true := by
    rcases cause with silent | ⟨replays, u, mem, spent⟩
    · rw [decide_eq_true silent, Bool.true_or]
    · rw [decide_eq_true replays, Bool.true_and, List.any_eq_true.2 ⟨u, mem, decide_eq_true spent⟩, Bool.or_true]
  show execLinkDown q r s = _
  simp only [execLinkDown, up, runs, bne_self_eq_false, Bool.not_true, Bool.or_self, Bool.false_eq_true, ↓reduceIte, leaves]

end

/-! ### The end of a stop bath (R556, R565) -/

/-- The port in its stop bath is disabled: what waits has gone and is acknowledged, or 1 ms has passed. -/
def bathEnded (q : Port) (s : State) : State :=
  let t := if (s.link q).queue = [] ∧ (s.link q).unacked = [] then s else reachClk ((s.link q).since + msNs) s
  linkBathEvent 0x0DF0 q (s.link q).stopBy (setLink q .disabled 7 ((redirect q t).modLink q fun l => { l with partner := none, held := none }))

theorem exec_linkStopBathEnd {q : Port} {s : State} (stopping : (s.link q).state = .stopping) :
    ((s.link q).held = none → exec (.linkStopBathEnd q) s = next (bathEnded q s))
    ∧ (∀ src, (s.link q).held = some src →
      exec (.linkStopBathEnd q) s = next (linkBathEvent 0x0DF1 q src (setLink q .training 0 (bathEnded q s)))) := by
  have drained : ((s.link q).queue.isEmpty && (s.link q).unacked.isEmpty) = true ↔ (s.link q).queue = [] ∧ (s.link q).unacked = [] := by
    rw [Bool.and_eq_true, List.isEmpty_iff, List.isEmpty_iff]
  constructor
  · intro free
    show execLinkStopBathEnd q s = _
    simp only [execLinkStopBathEnd, stopping, free, bne_self_eq_false, Bool.false_eq_true, ↓reduceIte, drained, bathEnded]
  · intro src held
    show execLinkStopBathEnd q s = _
    simp only [execLinkStopBathEnd, stopping, held, bne_self_eq_false, Bool.false_eq_true, ↓reduceIte, drained, bathEnded]

/-! ### Rounds, exchanges and census judgements (R542, R545, R548, R559) -/

theorem exec_discoverRound {s : State} (master : s.isMaster = true) (runs : linksRun s = true) (up : s.linkA.state = .up ∨ s.linkB.state = .up) :
    exec .discoverRound s = next (sendTable (sendFrame .b firstAsk (sendFrame .a firstAsk
      (startRound (endRound (reachClk (s.stack.roundAt + 100 * msNs) s)))))) := by
  have some_ : (s.linkA.state == .up || s.linkB.state == .up) = true := by
    rw [Bool.or_eq_true]
    exact up.imp beq_iff_eq.2 beq_iff_eq.2
  show execDiscoverRound s = _
  simp only [execDiscoverRound, master, runs, some_, Bool.not_true, Bool.or_self, Bool.false_eq_true, ↓reduceIte]

theorem exec_timeExchange {q : Port} {s : State} (upstream : s.stack.upstream = some q) (runs : linksRun s = true) (up : (s.link q).state = .up)
    (t1 t2 t3 t4 : Nat) :
    let fresh := (s.link q).fresh
    let off := exchangeOffset t1 t2 t3 t4
    let t := if fresh then s else reachClk (s.stack.exchanged + 250 * usNs) s
    let t := t.modLink q fun l => { l with offset := off, fresh := false }
    let t := if fresh then stepTo ((t.now : Int) + (500 - off) / 1000).toNat 1 t else t
    exec (.timeExchange t1 t2 t3 t4) s = next (sendFrame q { typ := .time, src := (steer off (judgeOffset off t)).pos, dst := 0, info := 0, data := [] }
      (steer off (judgeOffset off t))) := by
  show execTimeExchange t1 t2 t3 t4 s = _
  simp only [execTimeExchange, upstream, runs, up, bne_self_eq_false, Bool.not_true, Bool.or_self, Bool.false_eq_true, ↓reduceIte]

theorem exec_alignmentTimeout {s : State} (follower : s.isMaster = false) (aligned : s.time.aligned = true) :
    let t := reachClk (s.stack.exchanged + 2 * msNs) s
    exec .alignmentTimeout s = next (setAligned false { t with stack := { t.stack with good := 0 } }) := by
  show execAlignmentTimeout s = _
  simp only [execAlignmentTimeout, follower, aligned, Bool.not_true, Bool.or_self, Bool.false_eq_true, ↓reduceIte]

end Sys2Proof.Machine

open Sys2Proof Sys2Proof.Machine

/-- Settles O54: each row under its conditions takes the branch that acts. -/
theorem linkPortsComplete : Obligations.LinkPortsComplete := by
  refine ⟨fun q x s training runs => ?_, fun q s conflict runs => exec_linkConflictRetry runs conflict,
    fun q r s up runs cause => exec_linkDown runs up cause, fun q s stopping => exec_linkStopBathEnd stopping,
    fun s master runs up => ⟨exec_discoverRound master runs up, rfl, rfl⟩,
    fun t1 t2 t3 t4 q s upstream runs up => exec_timeExchange upstream runs up t1 t2 t3 t4,
    fun s follower aligned => exec_alignmentTimeout follower aligned, fun s => rfl⟩
  exact ⟨exec_linkUp_conflict runs training, exec_linkUp_fits runs training, fun r => exec_linkTrainingFailed_conflict runs training,
    exec_linkTrainingFailed_alone runs training⟩

end

