-- ==== Sys2Proof/Proofs/LatchedLoads.lean ====
section
/-!
PROOFS. What O51 asks of a state (R518), and what the folds, the record updates and the verdicts keep of it.
-/

namespace Sys2Proof.Machine

/-- The states a load with a set thermal latch may be in: its output is off and nothing waits to turn it on (R518, R524). -/
abbrev offStates : List LoadState := [.unbound, .disabled, .off, .latched, .stopping]

/-- R518 for one load. -/
def offLatched (l : Load) : Prop := l.latch = true → l.state ∈ offStates

/-- R518 for every load of the device. -/
def LatchedOff (s : State) : Prop := ∀ n : Nat, n < 96 → offLatched (s.ld n)

/-- `s` keeps the latched loads off where `a` does. -/
def Stays (a s : State) : Prop := LatchedOff a → LatchedOff s

theorem Stays.refl (a : State) : Stays a a := id

theorem Stays.trans {a b c : State} (h : Stays a b) (k : Stays b c) : Stays a c := k ∘ h

/-- Only the loads' own table matters. -/
theorem stays_congr {a s t : State} (e : t.load.loads = s.load.loads) : Stays a t ↔ Stays a s := by
  simp only [Stays, LatchedOff, State.ld, e]

/-- A record update that leaves the load manager alone. -/
@[simp] theorem stays_mk {a s : State} {zpending zaon zlog zmem zhost zsp zengine zctxs zcqs zfq ztime zschedules ztriggers zpulses zchans
    zfilm zmos zpool zfilters zrecords zroutes zmonitors zpdus zsigs zlanes zlocalIo zbundle zcvus zlinkA zlinkB zstack zcensus zupdate
    zbanks zfree zout} :
    Stays a ⟨zpending, zaon, zlog, zmem, zhost, zsp, zengine, zctxs, zcqs, zfq, ztime, zschedules, ztriggers, zpulses, zchans, zfilm,
    zmos, zpool, zfilters, zrecords, zroutes, zmonitors, zpdus, zsigs, zlanes, zlocalIo, zbundle, zcvus, s.load, zlinkA, zlinkB, zstack,
    zcensus, zupdate, zbanks, zfree, zout⟩ ↔ Stays a s :=
  stays_congr rfl

/-- A record update of the load manager that leaves its table of loads alone. -/
@[simp] theorem stays_mk_loads {a s : State} {zpending zaon zlog zmem zhost zsp zengine zctxs zcqs zfq ztime zschedules ztriggers zpulses
    zchans zfilm zmos zpool zfilters zrecords zroutes zmonitors zpdus zsigs zlanes zlocalIo zbundle zcvus ztick znext zchains zvf zvbats
    zsettled zfrom zlast zlinkA zlinkB zstack zcensus zupdate zbanks zfree zout} :
    Stays a ⟨zpending, zaon, zlog, zmem, zhost, zsp, zengine, zctxs, zcqs, zfq, ztime, zschedules, ztriggers, zpulses, zchans, zfilm,
    zmos, zpool, zfilters, zrecords, zroutes, zmonitors, zpdus, zsigs, zlanes, zlocalIo, zbundle, zcvus, ⟨ztick, znext, s.load.loads,
    zchains, zvf, zvbats, zsettled, zfrom, zlast⟩, zlinkA, zlinkB, zstack, zcensus, zupdate, zbanks, zfree, zout⟩ ↔ Stays a s :=
  stays_congr rfl

@[simp] theorem State_modSwc_stays {a s : State} {c : Nat} {f : SwChain → SwChain} : Stays a (s.modSwc c f) ↔ Stays a s :=
  stays_congr rfl

theorem ld_modLd_self {s : State} {n : Nat} (f : Load → Load) (hn : n < 96) : (s.modLd n f).ld n = f (s.ld n) :=
  tget_tmod_self f loadReset hn

theorem ld_modLd_ne {s : State} {n m : Nat} (f : Load → Load) (h : n ≠ m) : (s.modLd n f).ld m = s.ld m :=
  tget_tmod_ne f loadReset h

theorem modLd_stays_at {a s : State} (n : Nat) (f : Load → Load) (hf : offLatched (s.ld n) → offLatched (f (s.ld n)))
    (h : Stays a s) : Stays a (s.modLd n f) := by
  intro x m hm
  by_cases e : n = m
  · subst e
    rw [ld_modLd_self f hm]
    exact hf (h x n hm)
  · rw [ld_modLd_ne f e]
    exact h x m hm

/-- A change of a load that moves neither its state nor its latch. -/
@[simp] theorem State_modLd_stays {a s : State} {n : Nat} {f : Load → Load}
    (hf : ∀ l, (f l).state = l.state ∧ (f l).latch = l.latch) : Stays a (s.modLd n f) ↔ Stays a s := by
  have same : LatchedOff (s.modLd n f) ↔ LatchedOff s := by
    refine forall_congr' fun m => forall_congr' fun hm => ?_
    by_cases e : n = m
    · subst e
      rw [ld_modLd_self f hm, offLatched, offLatched, (hf _).1, (hf _).2]
    · rw [ld_modLd_ne f e]
  rw [Stays, Stays, same]

theorem forEach_stays {α : Type} {a s : State} {l : List α} {f : α → State → State}
    (hf : ∀ x s, Stays a s → Stays a (f x s)) (h : Stays a s) : Stays a (forEach l f s) := by
  unfold forEach
  induction l generalizing s with
  | nil => exact h
  | cons x l ih => exact ih (hf x s h)

theorem forRange_stays {a s : State} {n : Nat} {f : Nat → State → State}
    (hf : ∀ x s, Stays a s → Stays a (f x s)) (h : Stays a s) : Stays a (forRange n f s) :=
  forEach_stays hf h

@[simp] theorem forEach_stays_iff {α : Type} {a s : State} {l : List α} {f : α → State → State}
    (hf : ∀ x s, Stays a (f x s) ↔ Stays a s) : Stays a (forEach l f s) ↔ Stays a s := by
  unfold forEach
  induction l generalizing s with
  | nil => exact Iff.rfl
  | cons x l ih => exact ih.trans (hf x s)

@[simp] theorem forRange_stays_iff {a s : State} {n : Nat} {f : Nat → State → State}
    (hf : ∀ x s, Stays a (f x s) ↔ Stays a s) : Stays a (forRange n f s) ↔ Stays a s :=
  forEach_stays_iff hf

@[simp] theorem foldl_stays_iff {α : Type} {a s : State} {l : List α} {f : State → α → State}
    (hf : ∀ s x, Stays a (f s x) ↔ Stays a s) : Stays a (l.foldl f s) ↔ Stays a s := by
  induction l generalizing s with
  | nil => exact Iff.rfl
  | cons x l ih => exact ih.trans (hf s x)

theorem foldl_stays_fst_iff {α β : Type} {a : State} {l : List α} {f : State × β → α → State × β} {z : State × β}
    (hf : ∀ z x, Stays a (f z x).1 ↔ Stays a z.1) : Stays a (l.foldl f z).1 ↔ Stays a z.1 := by
  induction l generalizing z with
  | nil => exact Iff.rfl
  | cons x l ih => exact ih.trans (hf z x)

theorem foldl_stays_snd_iff {α β : Type} {a : State} {l : List α} {f : β × State → α → β × State} {z : β × State}
    (hf : ∀ z x, Stays a (f z x).2 ↔ Stays a z.2) : Stays a (l.foldl f z).2 ↔ Stays a z.2 := by
  induction l generalizing z with
  | nil => exact Iff.rfl
  | cons x l ih => exact ih.trans (hf z x)

theorem foldl_stays_fst {α β : Type} {a : State} {l : List α} {f : State × β → α → State × β} {z : State × β}
    (hf : ∀ z x, Stays a z.1 → Stays a (f z x).1) (h : Stays a z.1) : Stays a (l.foldl f z).1 := by
  induction l generalizing z with
  | nil => exact h
  | cons x l ih => exact ih (hf z x h)

theorem ite_stays {a x y : State} {c : Prop} [Decidable c] (h : Stays a x) (k : Stays a y) :
    Stays a (if c then x else y) := by
  split
  · exact h
  · exact k

@[simp] theorem ite_stays_iff {a x y : State} {c : Prop} [Decidable c] :
    Stays a (if c then x else y) ↔ if c then Stays a x else Stays a y := by
  split <;> exact Iff.rfl

/-- The same for what a command's handler decides. -/
def VStays (a : State) : Verdict → Prop
  | .refuse _ _ => True
  | .reply s _ _ _ => Stays a s
  | .wait s => Stays a s
  | .done s => Stays a s

@[simp] theorem refuse_stays {a : State} {st d : Nat} : VStays a (.refuse st d) := trivial
@[simp] theorem reply_stays {a s : State} {st d : Nat} {b : List Byte} : VStays a (.reply s st d b) ↔ Stays a s := Iff.rfl
@[simp] theorem wait_stays {a s : State} : VStays a (.wait s) ↔ Stays a s := Iff.rfl
@[simp] theorem done_stays {a s : State} : VStays a (.done s) ↔ Stays a s := Iff.rfl

@[simp] theorem ite_vstays {a : State} {x y : Verdict} {c : Prop} [Decidable c] :
    VStays a (if c then x else y) ↔ if c then VStays a x else VStays a y := by
  split <;> exact Iff.rfl

@[simp] theorem refuseIf_stays {a : State} {b : Bool} {st d : Nat} {v : Verdict} :
    VStays a (refuseIf b st d v) ↔ b = false → VStays a v := by
  cases b <;> simp [refuseIf]

@[simp] theorem badParam_stays {a : State} {b : Bool} {o : Nat} {v : Verdict} :
    VStays a (badParam b o v) ↔ b = false → VStays a v := refuseIf_stays

/-- The same for a whole step: it goes on to a state that keeps them off. -/
def OStays (a : State) (o : Host.Outcome State Fault Refusal) : Prop := ∃ t, o = .next t ∧ Stays a t

@[simp] theorem outcomeNext_stays {a s : State} : OStays a (.next s) ↔ Stays a s := by
  simp [OStays]

@[simp] theorem ite_ostays {a : State} {x y : Host.Outcome State Fault Refusal} {c : Prop} [Decidable c] :
    OStays a (if c then x else y) ↔ if c then OStays a x else OStays a y := by
  split <;> exact Iff.rfl

end Sys2Proof.Machine

end

