-- ==== Sys2Proof/Proofs/LatchedOps.lean ====
section
/-!
PROOFS. The operations on queues, the command core, monitors, error confinement and message memory keep the latched loads off.
-/

namespace Sys2Proof.Machine

variable {a s : State}

/-! ### Machine/Ops.lean -/

@[simp] theorem State_modMon_stays {c : Nat} {f : Monitor → Monitor} : Stays a (State.modMon s c f) ↔ Stays a s := by
  simp [State.modMon]

@[simp] theorem State_modChan_stays {c : Nat} {f : Chan → Chan} : Stays a (State.modChan s c f) ↔ Stays a s := by
  simp [State.modChan]

@[simp] theorem State_modMo_stays {m : Nat} {f : Mo → Mo} : Stays a (State.modMo s m f) ↔ Stays a s := by
  simp [State.modMo]

@[simp] theorem State_modCq_stays {c : Nat} {f : CtxQueues → CtxQueues} : Stays a (State.modCq s c f) ↔ Stays a s := by
  simp [State.modCq]

@[simp] theorem State_modFn_stays {c : Nat} {f : Fn → Fn} : Stays a (State.modFn s c f) ↔ Stays a s := by
  simp [State.modFn]

@[simp] theorem State_modRing_stays {c k : Nat} {f : Ring → Ring} : Stays a (State.modRing s c k f) ↔ Stays a s := by
  simp [State.modRing]

@[simp] theorem State_modTrigger_stays {n : Nat} {f : Trigger → Trigger} : Stays a (State.modTrigger s n f) ↔ Stays a s := by
  simp [State.modTrigger]

@[simp] theorem State_modCvu_stays {n : Nat} {f : Cvu → Cvu} : Stays a (State.modCvu s n f) ↔ Stays a s := by
  simp [State.modCvu]

@[simp] theorem State_modLink_stays {p : Port} {f : Link → Link} : Stays a (State.modLink s p f) ↔ Stays a s := by
  unfold State.modLink
  split <;> simp

@[simp] theorem State_modCtx_stays {c : Nat} {f : Ctx → Ctx} : Stays a (State.modCtx s c f) ↔ Stays a s := by
  simp [State.modCtx]

@[simp] theorem drawn_stays {n : Nat} : Stays a (drawn n s) ↔ Stays a s := by
  simp [drawn]

@[simp] theorem State_emit_stays {o : Out} : Stays a (State.emit s o) ↔ Stays a s := by
  simp [State.emit]

@[simp] theorem putFrame_stays {p : Port} {f : LinkFrame} : Stays a (putFrame p f s) ↔ Stays a s := by
  simp [putFrame]

@[simp] theorem pumpLink_stays {p : Port} {n : Nat} : Stays a (pumpLink p n s) ↔ Stays a s := by
  induction n generalizing s with
  | zero => exact Iff.rfl
  | succ n ih =>
    unfold pumpLink
    dsimp only
    (repeat' split) <;> simp [ih]

@[simp] theorem sendFrame_stays {p : Port} {f : LinkFrame} : Stays a (sendFrame p f s) ↔ Stays a s := by
  simp [sendFrame]

@[simp] theorem sendMsix_stays {c v : Nat} : Stays a (sendMsix c v s) ↔ Stays a s := by
  simp [sendMsix]

@[simp] theorem settleIrq_stays {c : Nat} : Stays a (settleIrq c s) ↔ Stays a s := by
  simp [settleIrq]

@[simp] theorem raiseIrq_stays {c bit : Nat} : Stays a (raiseIrq c bit s) ↔ Stays a s := by
  simp [raiseIrq]

@[simp] theorem pushEvent_stays {c : Nat} {e : Event} : Stays a (pushEvent c e s) ↔ Stays a s := by
  simp [pushEvent]

@[simp] theorem raiseEvent_stays {c code : Nat} {data : List Byte} : Stays a (raiseEvent c code data s) ↔ Stays a s := by
  unfold raiseEvent
  (repeat' split) <;> simp

@[simp] theorem State_modBank_stays {n : Nat} {f : Bank → Bank} : Stays a (State.modBank s n f) ↔ Stays a s := by
  simp [State.modBank]

@[simp] theorem raiseSafe_stays {bit : Nat} : Stays a (raiseSafe bit s) ↔ Stays a s := by
  simp [raiseSafe]

@[simp] theorem raiseEvents_stays {cs : List Nat} {code : Nat} {data : List Byte} :
    Stays a (raiseEvents cs code data s) ↔ Stays a s := by
  simp [raiseEvents]

@[simp] theorem parityDrop_stays {path : Nat} : Stays a (parityDrop path s) ↔ Stays a s := by
  simp [parityDrop]

@[simp] theorem State_modLane_stays {n : Nat} {f : Lane → Lane} : Stays a (State.modLane s n f) ↔ Stays a s := by
  simp [State.modLane]

@[simp] theorem ringMessage_stays {c k : Nat} : Stays a (ringMessage c k s) ↔ Stays a s := by
  simp [ringMessage]

@[simp] theorem writeBack_stays {c k : Nat} {v : BitVec 32} : Stays a (writeBack c k v s) ↔ Stays a s := by
  simp [writeBack]

@[simp] theorem ringAdvance_stays {c k : Nat} {v : BitVec 32} : Stays a (ringAdvance c k v s) ↔ Stays a s := by
  simp [ringAdvance]

@[simp] theorem signalFault_stays : Stays a (signalFault s) ↔ Stays a s := by
  simp [signalFault]

@[simp] theorem logFault_stays {cls source info1 info2 : Nat} : Stays a (logFault cls source info1 info2 s) ↔ Stays a s :=
  stays_congr (by rw [(logFault_tells cls source info1 info2 (Tells.refl s)).load])

@[simp] theorem setReady_stays {v : BitVec 32} : Stays a (setReady v s) ↔ Stays a s := by
  simp [setReady]

@[simp] theorem readyOff_stays {bits : BitVec 32} : Stays a (readyOff bits s) ↔ Stays a s := by
  simp [readyOff]

@[simp] theorem readyOn_stays {bits : BitVec 32} : Stays a (readyOn bits s) ↔ Stays a s := by
  simp [readyOn]

@[simp] theorem setLimit_stays {c k : Nat} {v : BitVec 32} : Stays a (setLimit c k v s) ↔ Stays a s := by
  simp [setLimit]

/-! ### Machine/QueueOps.lean -/

@[simp] theorem fcEvent_stays {pin : Nat} {up : Bool} {fill : Nat} : Stays a (fcEvent pin up fill s) ↔ Stays a s := by
  simp [fcEvent]

@[simp] theorem modStat_stays {q : QKind × Nat} {f : QStat → QStat} : Stays a (modStat q f s) ↔ Stays a s := by
  unfold modStat
  split <;> simp

@[simp] theorem fcMeet_stays {q : QKind × Nat} {f : Nat} {atOnce : Bool} {pin : Nat} :
    Stays a (fcMeet q f atOnce pin s) ↔ Stays a s := by
  simp [fcMeet]

@[simp] theorem fcPin_stays {pin : Nat} : Stays a (fcPin pin s) ↔ Stays a s := by
  unfold fcPin
  split <;> simp

@[simp] theorem fcSettle_stays : Stays a (fcSettle s) ↔ Stays a s := by
  simp [fcSettle]

@[simp] theorem next_stays : OStays a (next s) ↔ Stays a s := by
  simp [next]

@[simp] theorem fcAt_stays {q : QKind × Nat} {f : Nat} {atOnce : Bool} : Stays a (fcAt q f atOnce s) ↔ Stays a s := by
  simp [fcAt]

@[simp] theorem countPacket_stays {q : QKind × Nat} : Stays a (countPacket q s) ↔ Stays a s := by
  simp [countPacket]

@[simp] theorem ringLost_stays {c k : Nat} : Stays a (ringLost c k s) ↔ Stays a s := by
  simp [ringLost]

@[simp] theorem metFull_stays {q : QKind × Nat} : Stays a (metFull q s) ↔ Stays a s := by
  simp [metFull]

@[simp] theorem oversizeEvent_stays {qid producer number claimed first : Nat} :
    Stays a (oversizeEvent qid producer number claimed first s) ↔ Stays a s := by
  simp [oversizeEvent]

@[simp] theorem dropPacket_stays {q : QKind × Nat} {qid producer number first : Nat} :
    Stays a (dropPacket q qid producer number first s) ↔ Stays a s := by
  simp [dropPacket]

@[simp] theorem pushRx_stays {c : Nat} {i : RxItem} : Stays a (pushRx c i s) ↔ Stays a s := by
  simp [pushRx]

@[simp] theorem countHwm_stays {q : QKind × Nat} : Stays a (countHwm q s) ↔ Stays a s := by
  simp [countHwm]

@[simp] theorem fcRelease_stays : Stays a (fcRelease s) ↔ Stays a s := by
  simp [fcRelease]

/-! ### Machine/CmdCore.lean -/

@[simp] theorem touchSession_stays {src : Source} : Stays a (touchSession src s) ↔ Stays a s := by
  simp [touchSession]

@[simp] theorem noteTaken_stays {src : Source} : Stays a (noteTaken src s) ↔ Stays a s := by
  simp [noteTaken]

@[simp] theorem takeFrom_stays {src : Source} : Stays a (takeFrom src s) ↔ Stays a s := by
  simp [takeFrom]

@[simp] theorem popSource_stays {src : Source} : Stays a (popSource src s) ↔ Stays a s := by
  unfold popSource
  split <;> simp

@[simp] theorem noteRefusal_stays {p : Packet} : Stays a (noteRefusal p s) ↔ Stays a s := by
  simp [noteRefusal]

@[simp] theorem noteSheetReply_stays {r : Reply} : Stays a (noteSheetReply r s) ↔ Stays a s := by
  simp [noteSheetReply]

@[simp] theorem deliverReply_stays {r : Reply} : Stays a (deliverReply r s) ↔ Stays a s := by
  unfold deliverReply
  dsimp only
  (repeat' split) <;> simp

@[simp] theorem sendReplyFrom_stays {pos : Nat} {p : Packet} {status detail : Nat} {body : List Byte} :
    Stays a (sendReplyFrom pos p status detail body s) ↔ Stays a s := by
  simp [sendReplyFrom]

@[simp] theorem sendReply_stays {p : Packet} {status detail : Nat} {body : List Byte} :
    Stays a (sendReply p status detail body s) ↔ Stays a s := by
  simp [sendReply]

@[simp] theorem settleActivate_stays : Stays a (settleActivate s) ↔ Stays a s := by
  unfold settleActivate
  split <;> simp

@[simp] theorem conclude_stays {p : Packet} {v : Verdict} (hv : VStays a v) (h : Stays a s) : Stays a (conclude p s v) := by
  cases v <;> simp_all [conclude, VStays]

@[simp] theorem forward_stays {p : Packet} : Stays a (forward p s) ↔ Stays a s := by
  unfold forward
  dsimp only
  (repeat' split) <;> simp

@[simp] theorem judge_stays {c : CmdSpec} {k : Packet → State → Verdict} {p : Packet}
    (hk : ∀ x t, Stays a t → VStays a (k x t)) (h : Stays a s) :
    VStays a (judge c k p s) := by
  unfold judge
  (repeat' split) <;> simp [hk, h]

@[simp] theorem enqueue_stays {p : Packet} : Stays a (enqueue p s) ↔ Stays a s := by
  unfold enqueue
  split <;> simp

@[simp] theorem passQueue_stays {src : Source} : Stays a (passQueue src s) ↔ Stays a s := by
  simp [passQueue]

theorem runCommand_stays {c : CmdSpec} {f : Packet → State → Verdict} {q : Packet}
    (hk : ∀ p s, Stays a s → VStays a (f p s)) (h : Stays a s) : Stays a (runCommand c f q s) := by
  have done : ∀ {t}, Stays a t → Stays a (conclude { q with opcode := c.opcode } t
      (judge c f { q with opcode := c.opcode } t)) := fun k => conclude_stays (judge_stays hk k) k
  unfold runCommand
  dsimp only
  exact ite_stays h (ite_stays (ite_stays h (done (by simpa using h))) (ite_stays (by simpa using h) (done (by simpa using h))))

@[simp] theorem okDone_stays : VStays a (okDone s) ↔ Stays a s := Iff.rfl

@[simp] theorem okBody_stays {body : List Byte} : VStays a (okBody s body) ↔ Stays a s := Iff.rfl

@[simp] theorem replyTakenFrom_stays {pos : Nat} {p : Packet} {status detail : Nat} {body : List Byte} :
    Stays a (replyTakenFrom pos p status detail body s) ↔ Stays a s := by
  simp [replyTakenFrom]

@[simp] theorem replyTaken_stays {p : Packet} {status detail : Nat} {body : List Byte} :
    Stays a (replyTaken p status detail body s) ↔ Stays a s := by
  simp [replyTaken]

/-! ### Machine/TimeOps.lean -/

@[simp] theorem passCycles_stays {n : Nat} : Stays a (passCycles n s) ↔ Stays a s := by
  simp [passCycles]

@[simp] theorem reachClk_stays {c : Nat} : Stays a (reachClk c s) ↔ Stays a s := by
  simp [reachClk]

@[simp] theorem reachTime_stays {v : Nat} : Stays a (reachTime v s) ↔ Stays a s := by
  simp [reachTime]

/-! ### Machine/Monitors.lean -/

@[simp] theorem modRec_stays {n : Nat} {f : StreamRec → StreamRec} : Stays a (modRec n f s) ↔ Stays a s := by
  simp [modRec]

@[simp] theorem latchCause_stays {ch bit record stamp : Nat} : Stays a (latchCause ch bit record stamp s) ↔ Stays a s := by
  simp [latchCause]

@[simp] theorem judgeMode_stays {ch : Nat} : Stays a (judgeMode ch s) ↔ Stays a s := by
  simp [judgeMode]

@[simp] theorem promoteRelease_stays {mo : Nat} : Stays a (promoteRelease mo s) ↔ Stays a s := by
  unfold promoteRelease
  split <;> simp

@[simp] theorem bathMod_stays {mo : Nat} {f : StreamRec → StreamRec} : Stays a (bathMod mo f s) ↔ Stays a s := by
  simp [bathMod]

@[simp] theorem dropLive_stays {mo : Nat} : Stays a (dropLive mo s) ↔ Stays a s := by
  unfold dropLive
  split <;> simp

@[simp] theorem failRelease_stays {mo : Nat} : Stays a (failRelease mo s) ↔ Stays a s := by
  unfold failRelease
  split <;> simp

@[simp] theorem succeedOwn_stays {mo : Nat} : Stays a (succeedOwn mo s) ↔ Stays a s := by
  unfold succeedOwn
  (repeat' split) <;> simp

@[simp] theorem restartPeriods_stays {ch : Nat} : Stays a (restartPeriods ch s) ↔ Stays a s := by
  simp [restartPeriods]

@[simp] theorem failStaged_stays {mo : Nat} : Stays a (failStaged mo s) ↔ Stays a s := by
  unfold failStaged
  split <;> simp

@[simp] theorem dropStaged_stays {mo : Nat} : Stays a (dropStaged mo s) ↔ Stays a s := by
  unfold dropStaged
  split <;> simp

@[simp] theorem judgeForeign_stays {ch : Nat} {hdr : Hdr} {len stamp : Nat} :
    Stays a (judgeForeign ch hdr len stamp s) ↔ Stays a s := by
  unfold judgeForeign
  (repeat' split) <;> simp

@[simp] theorem judgeUndeclaredOwn_stays {ch mo stamp : Nat} : Stays a (judgeUndeclaredOwn ch mo stamp s) ↔ Stays a s := by
  simp [judgeUndeclaredOwn]

@[simp] theorem budgetEvent_stays {ch : Nat} : Stays a (budgetEvent ch s) ↔ Stays a s := by
  simp [budgetEvent]

@[simp] theorem releaseOwn_stays {mo at_ : Nat} {staged : Bool} : Stays a (releaseOwn mo at_ staged s) ↔ Stays a s := by
  unfold releaseOwn
  split <;> simp

@[simp] theorem deadlineMiss_stays {n : Nat} : Stays a (deadlineMiss n s) ↔ Stays a s := by
  unfold deadlineMiss
  (repeat' split) <;> simp

@[simp] theorem execDeadlineTimerExpiry_stays {record : Fin 32768} (h : Stays a s) :
    OStays a (execDeadlineTimerExpiry record s) := by
  simp [execDeadlineTimerExpiry, h]

/-! ### Machine/ErrorConf.lean -/

@[simp] theorem filmPut_stays {r : FilmRecord} : Stays a (filmPut r s) ↔ Stays a s := by
  simp [filmPut]

@[simp] theorem filmRecord_stays {ch kind info data stamp : Nat} :
    Stays a (filmRecord ch kind info data stamp s) ↔ Stays a s := by
  simp [filmRecord]

@[simp] theorem chanEvent_stays {ch code : Nat} {rest : List Byte} : Stays a (chanEvent ch code rest s) ↔ Stays a s := by
  simp [chanEvent]

@[simp] theorem filmFreeze_stays {cause chan : Nat} : Stays a (filmFreeze cause chan s) ↔ Stays a s := by
  simp [filmFreeze]

@[simp] theorem changeCounters_stays {ch : Nat} {f : Chan → Chan} : Stays a (changeCounters ch f s) ↔ Stays a s := by
  simp [changeCounters]

@[simp] theorem setAlone_stays {ch : Nat} {v : Bool} : Stays a (setAlone ch v s) ↔ Stays a s := by
  simp [setAlone]

@[simp] theorem enterState_stays {ch : Nat} {new : ChanState} : Stays a (enterState ch new s) ↔ Stays a s := by
  simp [enterState]

@[simp] theorem ackSeen_stays {ch : Nat} : Stays a (ackSeen ch s) ↔ Stays a s := by
  simp [ackSeen]

@[simp] theorem ackMissed_stays {ch : Nat} : Stays a (ackMissed ch s) ↔ Stays a s := by
  simp [ackMissed]

@[simp] theorem filmDrainOne_stays : Stays a (filmDrainOne s) ↔ Stays a s := by
  unfold filmDrainOne
  (repeat' split) <;> simp

@[simp] theorem filmDrainAll_stays {n : Nat} : Stays a (filmDrainAll n s) ↔ Stays a s := by
  induction n generalizing s with
  | zero => exact Iff.rfl
  | succ n ih => exact ih.trans filmDrainOne_stays

@[simp] theorem execFilmstripDrainEnd_stays (h : Stays a s) : OStays a (execFilmstripDrainEnd s) := by
  simp [execFilmstripDrainEnd, h]

/-! ### Machine/MsgMem.lean -/

@[simp] theorem noteStart_stays {ch : Nat} : Stays a (noteStart ch s) ↔ Stays a s := by
  unfold noteStart
  dsimp only
  (repeat' split) <;> simp

@[simp] theorem countCancel_stays {ch : Nat} {late : Bool} : Stays a (countCancel ch late s) ↔ Stays a s := by
  simp [countCancel]

@[simp] theorem endLive_stays {mo : Nat} : Stays a (endLive mo s) ↔ Stays a s := by
  unfold endLive
  split <;> simp

@[simp] theorem completeTx_stays {owner : Nat} {ring : Option Nat} {cmpl always : Bool} {r : Rec} :
    Stays a (completeTx owner ring cmpl always r s) ↔ Stays a s := by
  unfold completeTx
  split <;> simp

@[simp] theorem completeLive_stays {mo result : Nat} : Stays a (completeLive mo result s) ↔ Stays a s := by
  unfold completeLive
  split <;> simp

@[simp] theorem discardStagedAs_stays {mo result : Nat} : Stays a (discardStagedAs mo result s) ↔ Stays a s := by
  unfold discardStagedAs
  split <;> simp

@[simp] theorem discardStaged_stays {mo : Nat} : Stays a (discardStaged mo s) ↔ Stays a s := by
  simp [discardStaged]

@[simp] theorem withdrawPending_stays {mo : Nat} : Stays a (withdrawPending mo s) ↔ Stays a s := by
  unfold withdrawPending
  split <;> simp

@[simp] theorem noteWritten_stays {o : Mo} {len : Nat} : Stays a (noteWritten o len s) ↔ Stays a s := by
  simp [noteWritten]

@[simp] theorem overwriteEvent_stays {mo : Nat} {o : Mo} : Stays a (overwriteEvent mo o s) ↔ Stays a s := by
  simp [overwriteEvent]

@[simp] theorem commitReceive_stays {mo : Nat} {r : Rec} {data : List Byte} :
    Stays a (commitReceive mo r data s) ↔ Stays a s := by
  unfold commitReceive
  split <;> simp

@[simp] theorem releaseWindow_stays {c : Nat} {torn : Bool} : Stays a (releaseWindow c torn s) ↔ Stays a s := by
  simp [releaseWindow]

@[simp] theorem cancelObject_stays {mo : Nat} : Stays a (cancelObject mo s) ↔ Stays a s := by
  unfold cancelObject
  dsimp only
  (repeat' split) <;> simp

@[simp] theorem endLockTorn_stays {mo : Nat} : Stays a (endLockTorn mo s) ↔ Stays a s := by
  unfold endLockTorn
  split <;> simp

@[simp] theorem txCommit_stays {mo : Nat} {b : Buf} {at_ : Nat} : Stays a (txCommit mo b at_ s) ↔ Stays a s := by
  unfold txCommit
  split <;> simp

end Sys2Proof.Machine

end

