-- ==== Sys2Proof/Proofs/LatchedChannels.lean ====
section
/-!
PROOFS. The operations and events of the channels, the latent set and the census keep the latched loads off.
-/

namespace Sys2Proof.Machine

variable {a s : State}

/-! ### Machine/FilterOps.lean -/

@[simp] theorem modPair_stays {x ch : Nat} {f : PairCounters → PairCounters} : Stays a (modPair x ch f s) ↔ Stays a s := by
  simp [modPair]

@[simp] theorem disabledDrop_stays {x ch f : Nat} : Stays a (disabledDrop x ch f s) ↔ Stays a s := by
  simp [disabledDrop]

/-! ### Machine/Latent.lean -/

@[simp] theorem withdrawRec_stays {n : Nat} {by_ : Source} : Stays a (withdrawRec n by_ s) ↔ Stays a s := by
  unfold withdrawRec
  split <;> simp

@[simp] theorem writeDown_stays {x : Nat} {c : Change} : Stays a (writeDown x s c) ↔ Stays a s := by
  unfold writeDown
  (repeat' split) <;> simp

@[simp] theorem writeAll_stays {x : Nat} {l : List Change} : Stays a (writeAll x l s) ↔ Stays a s := by
  simp [writeAll]

@[simp] theorem stagedView_stays {x : Nat} : Stays a (stagedView s x) ↔ Stays a s := by
  simp [stagedView]

@[simp] theorem stage_stays {p : Packet} {l : List Change} {body : List Byte} (h : Stays a s) :
    VStays a (stage p l s body) := by
  simp [stage, h]

@[simp] theorem bundleOpen_stays {p : Packet} {v : Verdict} :
    VStays a (bundleOpen s p v) ↔ (stageCtx p = 0 && s.bundle.isSome) = false → VStays a v := by
  simp only [bundleOpen, ite_vstays]
  split <;> simp_all

@[simp] theorem cvuEvent_stays {code u : Nat} {src : Source} : Stays a (cvuEvent code u src s) ↔ Stays a s := by
  simp [cvuEvent]

@[simp] theorem endCvuBath_stays {x u : Nat} {p : Option CvuParams} {by_ : Option Source} :
    Stays a (endCvuBath x u p by_ s) ↔ Stays a s := by
  unfold endCvuBath
  dsimp only
  (repeat' split) <;> simp

@[simp] theorem developCvu_stays {x u : Nat} {p : Option CvuParams} : Stays a (developCvu x u p s) ↔ Stays a s := by
  simp [developCvu]

/-! ### Machine/Census.lean -/

@[simp] theorem censusEvent_stays {code n : Nat} {e : CensusEntry} {rest : List Byte} :
    Stays a (censusEvent code n e rest s) ↔ Stays a s := by
  simp [censusEvent]

@[simp] theorem putCensus_stays {n : Nat} {e : CensusEntry} : Stays a (putCensus n e s) ↔ Stays a s := by
  simp [putCensus]

@[simp] theorem censusFrame_stays {ch : Nat} {hdr : Hdr} {len stamp : Nat} :
    Stays a (censusFrame ch hdr len stamp s) ↔ Stays a s := by
  unfold censusFrame
  (repeat' split) <;> simp

@[simp] theorem judgeLost_stays {n : Nat} : Stays a (judgeLost n s) ↔ Stays a s := by
  unfold judgeLost
  (repeat' split) <;> simp

@[simp] theorem execCensusLostJudgement_stays (h : Stays a s) : OStays a (execCensusLostJudgement s) :=
  next_stays.mpr ((forEach_stays_iff fun _ _ => judgeLost_stays).mpr (stays_mk.mpr (reachClk_stays.mpr h)))

@[simp] theorem getCensus_stays {p : Packet} (h : Stays a s) : VStays a (getCensus p s) := by
  simp [getCensus, h]

@[simp] theorem clearCensus_stays {p : Packet} (h : Stays a s) : VStays a (clearCensus p s) := by
  simp [clearCensus, h]

@[simp] theorem setCensusEvents_stays {p : Packet} (h : Stays a s) : VStays a (setCensusEvents p s) := by
  simp [setCensusEvents, h]

/-! ### Machine/Channel.lean -/

@[simp] theorem takeSettings_stays {ch : Nat} : Stays a (takeSettings ch s) ↔ Stays a s := by
  unfold takeSettings
  dsimp only
  (repeat' split) <;> simp

@[simp] theorem markLate_stays {ch : Nat} : Stays a (markLate ch s) ↔ Stays a s := by
  simp [markLate]

@[simp] theorem enterIntermission_stays {ch : Nat} {phase : BusPhase} :
    Stays a (enterIntermission ch phase s) ↔ Stays a s := by
  simp [enterIntermission]

@[simp] theorem endErrorFrame_stays {ch : Nat} : Stays a (endErrorFrame ch s) ↔ Stays a s := by
  simp [endErrorFrame]

@[simp] theorem latch_stays {ch mo sof : Nat} : Stays a (latch ch mo sof s) ↔ Stays a s := by
  simp [latch]

@[simp] theorem driveSof_stays {ch : Nat} : Stays a (driveSof ch s) ↔ Stays a s := by
  simp [driveSof]

@[simp] theorem answerCancels_stays {ch status outcome result stamp : Nat} :
    Stays a (answerCancels ch status outcome result stamp s) ↔ Stays a s := by
  simp [answerCancels]

@[simp] theorem clearLatch_stays {ch : Nat} : Stays a (clearLatch ch s) ↔ Stays a s := by
  simp [clearLatch]

@[simp] theorem unlatch_stays {mo : Nat} : Stays a (unlatch mo s) ↔ Stays a s := by
  simp [unlatch]

@[simp] theorem countCancels_stays {ch : Nat} : Stays a (countCancels ch s) ↔ Stays a s := by
  simp [countCancels]

@[simp] theorem endUnsent_stays {ch : Nat} : Stays a (endUnsent ch s) ↔ Stays a s := by
  unfold endUnsent
  (repeat' split) <;> simp

@[simp] theorem endFailed_stays {ch : Nat} : Stays a (endFailed ch s) ↔ Stays a s := by
  unfold endFailed
  dsimp only
  (repeat' split) <;> simp

@[simp] theorem endSent_stays {ch : Nat} : Stays a (endSent ch s) ↔ Stays a s := by
  unfold endSent
  split <;> simp

@[simp] theorem filmOwn_stays {ch kind : Nat} : Stays a (filmOwn ch kind s) ↔ Stays a s := by
  unfold filmOwn
  (repeat' split) <;> simp

@[simp] theorem loseFrame_stays {ch : Nat} : Stays a (loseFrame ch s) ↔ Stays a s := by
  simp [loseFrame]

@[simp] theorem endAtEdge_stays {ch : Nat} : Stays a (endAtEdge ch s) ↔ Stays a s := by
  simp [endAtEdge]

@[simp] theorem rewindRx_stays {ch : Nat} : Stays a (rewindRx ch s) ↔ Stays a s := by
  unfold rewindRx
  split <;> simp

@[simp] theorem leaveBus_stays {ch : Nat} {phase : BusPhase} : Stays a (leaveBus ch phase s) ↔ Stays a s := by
  simp [leaveBus]

@[simp] theorem chanBathEvent_stays {ch code c : Nat} : Stays a (chanBathEvent ch code c s) ↔ Stays a s := by
  simp [chanBathEvent]

@[simp] theorem startSettle_stays {ch : Nat} {p : Option Packet} : Stays a (startSettle ch p s) ↔ Stays a s := by
  simp [startSettle]

@[simp] theorem applyEnable_stays {ch mode : Nat} {p : Option Packet} : Stays a (applyEnable ch mode p s) ↔ Stays a s := by
  simp [applyEnable]

@[simp] theorem answerEnable_stays {ch state stamp : Nat} : Stays a (answerEnable ch state stamp s) ↔ Stays a s := by
  unfold answerEnable
  split <;> simp

@[simp] theorem enterIntegrating_stays {ch : Nat} : Stays a (enterIntegrating ch s) ↔ Stays a s := by
  simp [enterIntegrating]

@[simp] theorem enterBusOffState_stays {ch : Nat} : Stays a (enterBusOffState ch s) ↔ Stays a s := by
  simp [enterBusOffState]

@[simp] theorem holdSettling_stays {ch : Nat} : Stays a (holdSettling ch s) ↔ Stays a s := by
  simp [holdSettling]

@[simp] theorem endStop_stays {ch : Nat} : Stays a (endStop ch s) ↔ Stays a s := by
  unfold endStop
  dsimp only
  (repeat' split) <;> simp

@[simp] theorem leaveAtOnce_stays {ch : Nat} {new : ChanState} : Stays a (leaveAtOnce ch new s) ↔ Stays a s := by
  simp [leaveAtOnce]

@[simp] theorem startStop_stays {ch : Nat} {cause : StopCause} : Stays a (startStop ch cause s) ↔ Stays a s := by
  simp [startStop]

@[simp] theorem powerEnterChan_stays {ch : Nat} : Stays a (powerEnterChan ch s) ↔ Stays a s := by
  unfold powerEnterChan
  split <;> simp

@[simp] theorem powerLeaveChan_stays {ch : Nat} : Stays a (powerLeaveChan ch s) ↔ Stays a s := by
  simp [powerLeaveChan]

@[simp] theorem noteTdcv_stays {ch : Nat} {v : Option (Fin 128)} : Stays a (noteTdcv ch v s) ↔ Stays a s := by
  unfold noteTdcv
  (repeat' split) <;> simp

@[simp] theorem clockHoldChan_stays {acked : Bool} {tdcv : Option (Fin 128)} {ch : Nat} :
    Stays a (clockHoldChan acked tdcv ch s) ↔ Stays a s := by
  simp [clockHoldChan]

@[simp] theorem clockReleaseChan_stays {ch : Nat} : Stays a (clockReleaseChan ch s) ↔ Stays a s := by
  simp [clockReleaseChan]

@[simp] theorem goBusOff_stays {ch : Nat} : Stays a (goBusOff ch s) ↔ Stays a s := by
  simp [goBusOff]

@[simp] theorem judgeBusOff_stays {ch : Nat} : Stays a (judgeBusOff ch s) ↔ Stays a s := by
  simp [judgeBusOff]

/-! ### Machine/ChannelEvents.lean -/

@[simp] theorem startRecovery_stays {ch : Nat} : Stays a (startRecovery ch s) ↔ Stays a s := by
  simp [startRecovery]

@[simp] theorem latchCandidate_stays {ch stamp : Nat} {parity : Bool} :
    Stays a (latchCandidate ch stamp parity s) ↔ Stays a s := by
  unfold latchCandidate
  dsimp only
  (repeat' split) <;> simp

@[simp] theorem execCandidateLatch_stays {ch : Fin 64} {stamp : Nat} {parity : Bool} (h : Stays a s) :
    OStays a (execCandidateLatch ch stamp parity s) := by
  simp [execCandidateLatch, h]

@[simp] theorem loseArbitration_stays {ch : Nat} : Stays a (loseArbitration ch s) ↔ Stays a s := by
  simp [loseArbitration]

@[simp] theorem winArbitration_stays {ch : Nat} : Stays a (winArbitration ch s) ↔ Stays a s := by
  simp [winArbitration]

@[simp] theorem claimCell_stays {ch : Nat} : Stays a (claimCell ch s) ↔ Stays a s := by
  simp [claimCell]

@[simp] theorem claimCells_stays {ch first n : Nat} : Stays a (claimCells ch first n s).1 ↔ Stays a s := by
  induction n generalizing s with
  | zero => exact Iff.rfl
  | succ n ih =>
    unfold claimCells
    split <;> simp [ih]

@[simp] theorem claimPayload_stays {ch bytes : Nat} : Stays a (claimPayload ch bytes s) ↔ Stays a s := by
  unfold claimPayload
  split <;> simp

@[simp] theorem takeHeader_stays {ch : Nat} {x : Hdr} {stamp decision : Nat} :
    Stays a (takeHeader ch x stamp decision s) ↔ Stays a s := by
  simp [takeHeader]

@[simp] theorem foreignStart_stays {ch : Nat} {edges : List (Nat × Nat)} :
    Stays a (foreignStart ch edges s) ↔ Stays a s := by
  simp [foreignStart]

@[simp] theorem headerDone_stays {ch : Nat} {hdr : Hdr} {edges : List (Nat × Nat)} {decision : Nat} :
    Stays a (headerDone ch hdr edges decision s) ↔ Stays a s := by
  unfold headerDone
  dsimp only
  (repeat' split) <;> simp

@[simp] theorem dropStamp_stays {ch : Nat} : Stays a (dropStamp ch s) ↔ Stays a s := by
  simp [dropStamp]

@[simp] theorem handOff_stays {n : Nat} {data : List Byte} {path origin rank : Nat} :
    Stays a (handOff n data path origin rank s) ↔ Stays a s := by
  unfold handOff
  split <;> simp

@[simp] theorem commitPacket_stays {ch : Nat} {f : Frame} : Stays a (commitPacket ch f s) ↔ Stays a s := by
  unfold commitPacket
  dsimp only
  (repeat' split) <;> simp

@[simp] theorem countJudged_stays {ch : Nat} {r : RxHeader} : Stays a (countJudged ch r s) ↔ Stays a s := by
  simp [countJudged]

@[simp] theorem foreignValid_stays {ch : Nat} {hdr : Hdr} {len stamp : Nat} :
    Stays a (foreignValid ch hdr len stamp s) ↔ Stays a s := by
  simp [foreignValid]

@[simp] theorem frameValid_stays {ch len : Nat} {data : List Byte} {parity : Bool} :
    Stays a (frameValid ch len data parity s) ↔ Stays a s := by
  unfold frameValid
  dsimp only
  (repeat' split) <;> simp

@[simp] theorem execFrameReceived_stays {ch : Fin 64} {len : Fin 2049} {data : List Byte} {parity : Bool} (h : Stays a s) :
    OStays a (execFrameReceived ch len data parity s) := by
  simp [execFrameReceived, h]

@[simp] theorem objectData_stays {f : Frame} : Stays a (objectData s f).2 ↔ Stays a s := by
  unfold objectData
  split <;> simp

@[simp] theorem copyToObject_stays {ch : Nat} {f : Frame} {mo filter : Nat} :
    Stays a (copyToObject ch f mo filter s) ↔ Stays a s := by
  unfold copyToObject
  split <;> simp

@[simp] theorem distribute_stays {ch : Nat} : Stays a (distribute ch s) ↔ Stays a s := by
  unfold distribute
  split
  · exact Iff.rfl
  · rw [State_modChan_stays, forEach_stays_iff fun _ _ => pushRx_stays, forEach_stays_iff fun d _ => by cases d <;> simp]

@[simp] theorem dropCopy_stays {ch : Nat} : Stays a (dropCopy ch s) ↔ Stays a s := by
  simp [dropCopy]

@[simp] theorem execDistributorCopy_stays {ch : Fin 64} {parity : Bool} (h : Stays a s) :
    OStays a (execDistributorCopy ch parity s) := by
  simp [execDistributorCopy, h]

@[simp] theorem ownEnds_stays {ch : Nat} : Stays a (ownEnds ch s) ↔ Stays a s := by
  simp [ownEnds]

@[simp] theorem emitFrame_stays {ch : Nat} : Stays a (emitFrame ch s) ↔ Stays a s := by
  unfold emitFrame
  split <;> simp

@[simp] theorem sendSuccess_stays {ch : Nat} {acked : Bool} {tdcv : Option (Fin 128)} :
    Stays a (sendSuccess ch acked tdcv s) ↔ Stays a s := by
  unfold sendSuccess
  dsimp only
  (repeat' split) <;> simp

@[simp] theorem execTransmitSuccess_stays {ch : Fin 64} {acked : Bool} {tdcv : Option (Fin 128)} (h : Stays a s) :
    OStays a (execTransmitSuccess ch acked tdcv s) := by
  simp [execTransmitSuccess, h]

@[simp] theorem failAttempt_stays {ch : Nat} {tdcv : Option (Fin 128)} : Stays a (failAttempt ch tdcv s) ↔ Stays a s := by
  simp [failAttempt]

@[simp] theorem execAttemptFailed_stays {ch : Fin 64} {tdcv : Option (Fin 128)} (h : Stays a s) :
    OStays a (execAttemptFailed ch tdcv s) := by
  simp [execAttemptFailed, h]

@[simp] theorem errorEvent_stays {ch : Nat} : Stays a (errorEvent ch s) ↔ Stays a s := by
  simp [errorEvent]

@[simp] theorem recordError_stays {ch : Nat} {code : ErrCode} {field : FieldCode} {ed : Bool} {row : ErrRow} {tx : Bool} :
    Stays a (recordError ch code field ed row tx s) ↔ Stays a s := by
  simp [recordError]

@[simp] theorem busError_stays {ch : Nat} {code : ErrCode} {field : FieldCode} {ed : Bool} {row : ErrRow} {acked : Bool}
    {bytes : Nat} {tdcv : Option (Fin 128)} :
    Stays a (busError ch code field ed row acked bytes tdcv s) ↔ Stays a s := by
  simp [busError]

@[simp] theorem watchedError_stays {ch : Nat} : Stays a (watchedError ch s) ↔ Stays a s := by
  unfold watchedError
  split <;> simp

@[simp] theorem driveForError_stays {ch : Nat} {field : FieldCode} : Stays a (driveForError ch field s) ↔ Stays a s := by
  simp [driveForError]

@[simp] theorem startForError_stays {ch : Nat} {field : FieldCode} {edges : List (Nat × Nat)} :
    Stays a (startForError ch field edges s) ↔ Stays a s := by
  simp [startForError]

@[simp] theorem errorSeen_stays {ch : Nat} {code : ErrCode} {field : FieldCode} {ed : Bool} {row : ErrRow}
    {acked : Bool} {bytes : Nat} {tdcv : Option (Fin 128)} {edges : List (Nat × Nat)} :
    Stays a (errorSeen ch code field ed row acked bytes tdcv edges s) ↔ Stays a s := by
  simp [errorSeen]

@[simp] theorem execOverloadFrameSeen_stays {ch : Fin 64} (h : Stays a s) : OStays a (execOverloadFrameSeen ch s) := by
  simp [execOverloadFrameSeen, h]

@[simp] theorem fastLost_stays {ch : Nat} {edges : List (Nat × Nat)} : Stays a (fastLost ch edges s) ↔ Stays a s := by
  simp [fastLost]

@[simp] theorem protocolException_stays {ch : Nat} {edges : List (Nat × Nat)} :
    Stays a (protocolException ch edges s) ↔ Stays a s := by
  simp [protocolException]

@[simp] theorem integrate_stays {ch : Nat} : Stays a (integrate ch s) ↔ Stays a s := by
  unfold integrate
  dsimp only
  (repeat' split) <;> simp

@[simp] theorem execBusIntegrationComplete_stays {ch : Fin 64} (h : Stays a s) :
    OStays a (execBusIntegrationComplete ch s) := by
  simp [execBusIntegrationComplete, h]

@[simp] theorem stopEnds_stays {ch : Nat} : Stays a (stopEnds ch s) ↔ Stays a s := by
  unfold stopEnds
  dsimp only
  (repeat' split) <;> simp

@[simp] theorem execAutoDelayExpiry_stays {ch : Fin 64} (h : Stays a s) : OStays a (execAutoDelayExpiry ch s) := by
  simp [execAutoDelayExpiry, h]

@[simp] theorem execRecessiveSequenceCounted_stays {ch : Fin 64} (h : Stays a s) :
    OStays a (execRecessiveSequenceCounted ch s) := by
  simp [execRecessiveSequenceCounted, h]

@[simp] theorem recoveryDone_stays {ch : Nat} : Stays a (recoveryDone ch s) ↔ Stays a s := by
  simp [recoveryDone]

@[simp] theorem execRecoveryComplete_stays {ch : Fin 64} (h : Stays a s) : OStays a (execRecoveryComplete ch s) := by
  simp [execRecoveryComplete, h]

end Sys2Proof.Machine

end

