-- ==== Sys2Proof/Proofs/LatchedPlans.lean ====
section
/-!
PROOFS. Development, object, filter, time and admission commands keep the latched loads off.
-/

namespace Sys2Proof.Machine

variable {a s : State}

/-! ### Machine/Admission.lean -/

@[simp] theorem syncStreams_stays : Stays a (syncStreams s) ↔ Stays a s := by
  simp [syncStreams]

@[simp] theorem refigure_stays {touched : List Nat} : Stays a (refigure touched s) ↔ Stays a s := by
  unfold refigure
  dsimp only
  (repeat' split) <;> simp

/-! ### Machine/Develop.lean -/

@[simp] theorem streamBathEvent_stays {code n : Nat} {src : Source} :
    Stays a (streamBathEvent code n src s) ↔ Stays a s := by
  simp [streamBathEvent]

@[simp] theorem scheduleEvent_stays {mo reason missed : Nat} : Stays a (scheduleEvent mo reason missed s) ↔ Stays a s := by
  simp [scheduleEvent]

@[simp] theorem clearTimed_stays {mo : Nat} : Stays a (clearTimed mo s) ↔ Stays a s := by
  simp [clearTimed]

@[simp] theorem finishSchedule_stays {mo reason missed : Nat} : Stays a (finishSchedule mo reason missed s) ↔ Stays a s := by
  simp [finishSchedule]

@[simp] theorem startSchedule_stays {mo : Nat} : Stays a (startSchedule mo s) ↔ Stays a s := by
  unfold startSchedule
  (repeat' split) <;> simp

@[simp] theorem restartSchedules_stays {ch : Nat} : Stays a (restartSchedules ch s) ↔ Stays a s :=
  forEach_stays_iff fun _ _ => by split <;> simp

@[simp] theorem developWithdraw_stays {n : Nat} {by_ : Source} : Stays a (developWithdraw n by_ s) ↔ Stays a s := by
  unfold developWithdraw
  split <;> simp

@[simp] theorem cancelHeldDecls_stays {x : Nat} {l : List Change} : Stays a (cancelHeldDecls x l s) ↔ Stays a s := by
  simp [cancelHeldDecls]

@[simp] theorem dropLatent_stays {x : Nat} : Stays a (dropLatent x s) ↔ Stays a s := by
  simp [dropLatent]

@[simp] theorem endSchedule_stays {mo : Nat} : Stays a (endSchedule mo s) ↔ Stays a s := by
  simp [endSchedule]

@[simp] theorem developSchedule_stays {mo : Nat} : Stays a (developSchedule mo s) ↔ Stays a s := by
  simp [developSchedule]

@[simp] theorem developFree_stays {mo : Nat} : Stays a (developFree mo s) ↔ Stays a s := by
  unfold developFree
  dsimp only
  (repeat' split) <;> simp

@[simp] theorem developPin_stays {pin : Nat} : Stays a (developPin pin s) ↔ Stays a s := by
  unfold developPin
  (repeat' split) <;> simp

@[simp] theorem developTrigger_stays {unit : Nat} : Stays a (developTrigger unit s) ↔ Stays a s := by
  simp [developTrigger]

@[simp] theorem releaseBarred_stays {ch : Nat} : Stays a (releaseBarred ch s) ↔ Stays a s := by
  simp [releaseBarred]

@[simp] theorem applyOne_stays {x : Nat} {c : Change} : Stays a (applyOne x s c) ↔ Stays a s := by
  unfold applyOne
  split <;> simp

@[simp] theorem settleSources_stays {l : List Change} : Stays a (settleSources l s) ↔ Stays a s :=
  forEach_stays_iff fun _ _ => by split <;> simp

@[simp] theorem applyAll_stays {x : Nat} {l : List Change} : Stays a (applyAll x l s) ↔ Stays a s := by
  simp [applyAll]

@[simp] theorem developView_stays {x : Nat} : Stays a (developView s x) ↔ Stays a s := by
  simp [developView]

@[simp] theorem developEvent_stays {code x b1 seq : Nat} : Stays a (developEvent code x b1 seq s) ↔ Stays a s := by
  simp [developEvent]

@[simp] theorem bundleGoes_stays {x : Nat} : Stays a (bundleGoes x s) ↔ Stays a s := by
  simp [bundleGoes]

@[simp] theorem switchArmed_stays {x : Nat} : Stays a (switchArmed x s) ↔ Stays a s := by
  unfold switchArmed
  split <;> simp

@[simp] theorem switchDue_stays : Stays a (switchDue s) ↔ Stays a s := by
  simp [switchDue]

@[simp] theorem execDevelopSwitch_stays {instant : Nat} (h : Stays a s) : OStays a (execDevelopSwitch instant s) := by
  simp [execDevelopSwitch, h]

@[simp] theorem finishWhen2_stays {x : Nat} : Stays a (finishWhen2 x s) ↔ Stays a s := by
  unfold finishWhen2
  split <;> simp

@[simp] theorem switchChan_stays {x ch : Nat} {forced : Bool} : Stays a (switchChan x ch forced s) ↔ Stays a s := by
  unfold switchChan
  split <;> simp

@[simp] theorem switchIdle_stays {ch : Nat} : Stays a (switchIdle ch s) ↔ Stays a s := by
  simp [switchIdle]

@[simp] theorem switchLate_stays {ch : Nat} : Stays a (switchLate ch s) ↔ Stays a s := by
  simp [switchLate]

@[simp] theorem execBusIdle_stays {ch : Fin 64} (h : Stays a s) : OStays a (execBusIdle ch s) := by
  unfold execBusIdle
  dsimp only
  (repeat' split) <;> simp [h]

@[simp] theorem execIdleLimitExpiry_stays {c ch : Fin 64} (h : Stays a s) : OStays a (execIdleLimitExpiry c ch s) := by
  unfold execIdleLimitExpiry
  split <;> simp [h]

@[simp] theorem frameStarts_stays {ch : Nat} : Stays a (frameStarts ch s) ↔ Stays a s := by
  simp [frameStarts]

@[simp] theorem execHeaderComplete_stays {ch : Fin 64} {hdr : Hdr} {edges : List (Nat × Nat)} {decision : Fin 3001}
    {parity : Bool} (h : Stays a s) :
    OStays a (execHeaderComplete ch hdr edges decision parity s) := by
  simp [execHeaderComplete, h]

@[simp] theorem execArbitrationLost_stays {ch : Fin 64} (h : Stays a s) : OStays a (execArbitrationLost ch s) := by
  simp [execArbitrationLost, h]

@[simp] theorem execArbitrationWon_stays {ch : Fin 64} (h : Stays a s) : OStays a (execArbitrationWon ch s) := by
  simp [execArbitrationWon, h]

@[simp] theorem execBusErrorDetected_stays {ch : Fin 64} {code : ErrCode} {field : FieldCode} {ed : Bool} {row : ErrRow}
    {acked : Bool} {bytes : Fin 2049} {tdcv : Option (Fin 128)} {edges : List (Nat × Nat)} (h : Stays a s) :
    OStays a (execBusErrorDetected ch code field ed row acked bytes tdcv edges s) := by
  simp [execBusErrorDetected, h]

@[simp] theorem execFastFrameLost_stays {ch : Fin 64} {edges : List (Nat × Nat)} (h : Stays a s) :
    OStays a (execFastFrameLost ch edges s) := by
  simp [execFastFrameLost, h]

@[simp] theorem execProtocolException_stays {ch : Fin 64} {edges : List (Nat × Nat)} (h : Stays a s) :
    OStays a (execProtocolException ch edges s) := by
  simp [execProtocolException, h]

@[simp] theorem execChannelStopBathEnd_stays {ch : Fin 64} (h : Stays a s) : OStays a (execChannelStopBathEnd ch s) := by
  simp [execChannelStopBathEnd, h]

@[simp] theorem execStbnSettleEnd_stays {ch : Fin 64} (h : Stays a s) : OStays a (execStbnSettleEnd ch s) := by
  simp [execStbnSettleEnd, h]

@[simp] theorem developNow_stays {x when_ limit instant : Nat} :
    Stays a (developNow x when_ limit instant s).1 ↔ Stays a s := by
  unfold developNow
  split <;> simp

@[simp] theorem develop_stays {p : Packet} (h : Stays a s) : VStays a (develop p s) := by
  unfold develop
  dsimp only
  (repeat' split) <;> simp [h]

@[simp] theorem discardLatent_stays {p : Packet} (h : Stays a s) : VStays a (discardLatent p s) := by
  simp [discardLatent, h]

@[simp] theorem getLatent_stays {p : Packet} (h : Stays a s) : VStays a (getLatent p s) := by
  simp [getLatent, h]

@[simp] theorem cancelDevelop_stays {p : Packet} (h : Stays a s) : VStays a (cancelDevelop p s) := by
  unfold cancelDevelop
  dsimp only
  (repeat' split) <;> simp [h]

@[simp] theorem execStreamStopBathEnd_stays {record : Fin 32768} (h : Stays a s) :
    OStays a (execStreamStopBathEnd record s) := by
  unfold execStreamStopBathEnd
  (repeat' split) <;> simp [h]

/-! ### Machine/ChannelCmds.lean -/

@[simp] theorem stagedFor_stays {p : Packet} : Stays a (stagedFor p s) ↔ Stays a s := by
  simp [stagedFor]

@[simp] theorem withChan_stays {p : Packet} {off : Nat} {k : Nat → Verdict} (hk : ∀ x, VStays a (k x)) :
    VStays a (withChan p s off k) := by
  unfold withChan
  dsimp only
  (repeat' split) <;> simp [hk]

@[simp] theorem setChannelMode_stays {p : Packet} (h : Stays a s) : VStays a (setChannelMode p s) := by
  simp [setChannelMode, h]

@[simp] theorem setBitTiming_stays {p : Packet} (h : Stays a s) : VStays a (setBitTiming p s) := by
  refine withChan_stays fun ch => ?_
  simp only [badParam_stays, bundleOpen_stays]
  intros
  split <;> simp [h]

@[simp] theorem setTransceiver_stays {p : Packet} (h : Stays a s) : VStays a (setTransceiver p s) := by
  refine withChan_stays fun ch => ?_
  simp only [badParam_stays, bundleOpen_stays]
  intros
  split <;> simp [h]

@[simp] theorem enableChannel_stays {p : Packet} (h : Stays a s) : VStays a (enableChannel p s) := by
  simp [enableChannel, h]

@[simp] theorem disableNow_stays {ch : Nat} {by_ : Source} : Stays a (disableNow ch by_ s) ↔ Stays a s := by
  unfold disableNow
  dsimp only
  (repeat' split) <;> simp

@[simp] theorem disableChannel_stays {p : Packet} (h : Stays a s) : VStays a (disableChannel p s) := by
  simp [disableChannel, h]

@[simp] theorem cancelTx_stays {p : Packet} (h : Stays a s) : VStays a (cancelTx p s) := by
  unfold cancelTx
  dsimp only
  (repeat' split) <;> simp [h]

@[simp] theorem recoverBusOff_stays {p : Packet} (h : Stays a s) : VStays a (recoverBusOff p s) := by
  simp [recoverBusOff, h]

@[simp] theorem getChannelStatus_stays {p : Packet} (h : Stays a s) : VStays a (getChannelStatus p s) := by
  simp [getChannelStatus, h]

/-! ### Machine/MemErrors.lean -/

@[simp] theorem modCounter_stays {r : Region} {f : MemCounter → MemCounter} : Stays a (modCounter r f s) ↔ Stays a s := by
  simp [modCounter]

@[simp] theorem noteFinding_stays {r : Region} {word : Nat} {act : State → State} (hf : ∀ s, Stays a (act s) ↔ Stays a s) :
    Stays a (noteFinding r word act s) ↔ Stays a s := by
  simp [noteFinding, hf]

@[simp] theorem memoryEvent_stays {cs : List Nat} : Stays a (memoryEvent cs s) ↔ Stays a s := by
  simp [memoryEvent]

@[simp] theorem objectEvent_stays {mo : Nat} {o : Mo} {why cell : Nat} :
    Stays a (objectEvent mo o why cell s) ↔ Stays a s := by
  simp [objectEvent]

@[simp] theorem disableObject_stays {mo : Nat} {retire : Bool} : Stays a (disableObject mo retire s) ↔ Stays a s := by
  simp [disableObject]

@[simp] theorem retireCell_stays {cell : Nat} : Stays a (retireCell cell s) ↔ Stays a s := by
  unfold retireCell
  dsimp only
  (repeat' split) <;> simp

@[simp] theorem dropFrame_stays {mo off : Nat} {front : Bool} : Stays a (dropFrame mo off front s) ↔ Stays a s := by
  unfold dropFrame
  split <;> simp

@[simp] theorem dropWord_stays {word : Nat} : Stays a (dropWord word s) ↔ Stays a s := by
  unfold dropWord
  split <;> simp

@[simp] theorem badPoolWord_stays {word : Nat} : Stays a (badPoolWord word s) ↔ Stays a s := by
  simp [badPoolWord]

@[simp] theorem foundInFront_stays {mo off : Nat} : Stays a (foundInFront mo off s) ↔ Stays a s := by
  unfold foundInFront
  split <;> simp

/-! ### Machine/MoCmds.lean -/

@[simp] theorem allocMo_stays {p : Packet} (h : Stays a s) : VStays a (allocMo p s) := by
  unfold allocMo
  dsimp only
  (repeat' split) <;> simp [h]

@[simp] theorem configMoCmd_stays {p : Packet} (h : Stays a s) : VStays a (configMoCmd p s) := by
  refine badParam_stays.mpr fun _ => withChan_stays fun ch => ?_
  simp only [badParam_stays, bundleOpen_stays]
  intros
  (repeat' split) <;> simp [h]

@[simp] theorem freeMo_stays {p : Packet} (h : Stays a s) : VStays a (freeMo p s) := by
  unfold freeMo
  dsimp only
  (repeat' split) <;> simp [h]

@[simp] theorem endReadMo_stays {mo : Nat} : Stays a (endReadMo mo s) ↔ Stays a s := by
  simp [endReadMo]

@[simp] theorem readMoLeaves_stays {mo : Nat} {o : Mo} {bad : Option Nat} :
    Stays a (readMoLeaves mo o bad s) ↔ Stays a s := by
  unfold readMoLeaves
  split <;> simp

@[simp] theorem readMo_stays {found : Option Nat} {p : Packet} (h : Stays a s) : VStays a (readMo found p s) := by
  simp only [readMo, badParam_stays]
  intros
  (repeat' split) <;> simp [h]

/-! ### Machine/FilterCmds.lean -/

@[simp] theorem writeFilter_stays {p : Packet} (h : Stays a s) : VStays a (writeFilter p s) := by
  unfold writeFilter
  dsimp only
  (repeat' split) <;> simp [h]

@[simp] theorem clearFilter_stays {p : Packet} (h : Stays a s) : VStays a (clearFilter p s) := by
  simp [clearFilter, h]

@[simp] theorem readFilter_stays {p : Packet} (h : Stays a s) : VStays a (readFilter p s) := by
  unfold readFilter
  dsimp only
  (repeat' split) <;> simp [h]

@[simp] theorem getFilterStats_stays {p : Packet} (h : Stays a s) : VStays a (getFilterStats p s) := by
  simp [getFilterStats, h]

/-! ### Machine/QueueCmds.lean -/

@[simp] theorem configQueue_stays {p : Packet} (h : Stays a s) : VStays a (configQueue p s) := by
  unfold configQueue
  dsimp only
  (repeat' split) <;> simp [h]

@[simp] theorem setWatermark_stays {p : Packet} (h : Stays a s) : VStays a (setWatermark p s) := by
  simp [setWatermark, h]

@[simp] theorem getQueueStatus_stays {p : Packet} (h : Stays a s) : VStays a (getQueueStatus p s) := by
  unfold getQueueStatus
  dsimp only
  (repeat' split) <;> simp [h]

/-! ### Machine/TimeCmds.lean -/

@[simp] theorem execSlewEnd_stays (h : Stays a s) : OStays a (execSlewEnd s) := by
  unfold execSlewEnd
  split <;> simp [h]

@[simp] theorem captureEdge_stays {source edge stamp : Nat} : Stays a (captureEdge source edge stamp s) ↔ Stays a s := by
  simp [captureEdge]

@[simp] theorem modSchedule_stays {mo : Nat} {f : Schedule → Schedule} : Stays a (modSchedule mo f s) ↔ Stays a s := by
  simp [modSchedule]

@[simp] theorem armPoint_stays {mo : Nat} : Stays a (armPoint mo s) ↔ Stays a s := by
  unfold armPoint
  dsimp only
  (repeat' split) <;> simp

@[simp] theorem instantEnds_stays {mo : Nat} : Stays a (instantEnds mo s) ↔ Stays a s := by
  unfold instantEnds
  split <;> simp

@[simp] theorem stepSchedule_stays {mo : Nat} : Stays a (stepSchedule mo s) ↔ Stays a s := by
  unfold stepSchedule
  dsimp only
  (repeat' split) <;> simp

@[simp] theorem fireTrigger_stays {unit at_ : Nat} : Stays a (fireTrigger unit at_ s) ↔ Stays a s := by
  simp [fireTrigger]

@[simp] theorem stepTrigger_stays {unit : Nat} : Stays a (stepTrigger unit s) ↔ Stays a s := by
  simp [stepTrigger]

@[simp] theorem risePps_stays {t : Nat} : Stays a (risePps t s) ↔ Stays a s := by
  simp [risePps]

@[simp] theorem servePps_stays : Stays a (servePps s) ↔ Stays a s := by
  simp [servePps]

@[simp] theorem execPpsOutRise_stays (h : Stays a s) : OStays a (execPpsOutRise s) := by
  simp [execPpsOutRise, h]

@[simp] theorem execPpsOutFall_stays (h : Stays a s) : OStays a (execPpsOutFall s) := by
  simp [execPpsOutFall, h]

@[simp] theorem execTrigioEdge_stays {ball : Fin 8} {rising : Bool} (h : Stays a s) :
    OStays a (execTrigioEdge ball rising s) := by
  simp [execTrigioEdge, h]

@[simp] theorem execTriggerFire_stays {unit : Fin 8} (h : Stays a s) : OStays a (execTriggerFire unit s) := by
  unfold execTriggerFire
  dsimp only
  (repeat' split) <;> simp [h]

@[simp] theorem execTriggerPulseEnd_stays {unit : Fin 8} (h : Stays a s) : OStays a (execTriggerPulseEnd unit s) := by
  unfold execTriggerPulseEnd
  dsimp only
  (repeat' split) <;> simp [h]

@[simp] theorem execShutterArmPoint_stays {mo : Fin 16384} (h : Stays a s) : OStays a (execShutterArmPoint mo s) := by
  unfold execShutterArmPoint
  split <;> simp [h]

@[simp] theorem releaseNotice_stays {ch t : Nat} : Stays a (releaseNotice ch t s) ↔ Stays a s := by
  unfold releaseNotice
  split <;> simp

@[simp] theorem execReleaseNotice_stays {mo : Fin 16384} {parity : Bool} (h : Stays a s) :
    OStays a (execReleaseNotice mo parity s) := by
  unfold execReleaseNotice
  split <;> simp [h]

@[simp] theorem execShutterInstant_stays {mo : Fin 16384} (h : Stays a s) : OStays a (execShutterInstant mo s) := by
  unfold execShutterInstant
  split <;> simp [h]

@[simp] theorem getTime_stays {p : Packet} (h : Stays a s) : VStays a (getTime p s) := by
  simp [getTime, h]

@[simp] theorem adjustRate_stays {p : Packet} (h : Stays a s) : VStays a (adjustRate p s) := by
  simp [adjustRate, h]

@[simp] theorem setShutter_stays {p : Packet} (h : Stays a s) : VStays a (setShutter p s) := by
  unfold setShutter
  dsimp only
  (repeat' split) <;> simp [h]

@[simp] theorem clearShutter_stays {p : Packet} (h : Stays a s) : VStays a (clearShutter p s) := by
  unfold clearShutter
  dsimp only
  (repeat' split) <;> simp [h]

@[simp] theorem setTrigger_stays {p : Packet} (h : Stays a s) : VStays a (setTrigger p s) := by
  simp [setTrigger, h]

@[simp] theorem setPps_stays {p : Packet} (h : Stays a s) : VStays a (setPps p s) := by
  simp [setPps, h]

/-! ### Machine/AdmissionCmds.lean -/

@[simp] theorem declare_stays {p : Packet} {pick : Option Nat} {d : Decl} (h : Stays a s) :
    VStays a (declare p s pick d) := by
  have staged := fun n b => stage_stays (p := p) (l := [.declare n d p.source]) (body := b) ((drawn_stays (n := 2)).mpr h)
  unfold declare
  dsimp only
  split
  · trivial
  · trivial
  · next n _ =>
    have k := staged n (le 2 n ++ advisory s (writeDown (stageCtx p) (stagedFor p s) (.declare n d p.source)) n d)
    refine refuseIf_stays.mpr fun _ => ?_
    split
    · next e =>
      rw [e] at k
      (repeat' split) <;> exact k
    · exact k

@[simp] theorem declareStream_stays {p : Packet} (h : Stays a s) : VStays a (declareStream p s) := by
  unfold declareStream
  dsimp only
  (repeat' split) <;> simp [h]

@[simp] theorem declareForeign_stays {p : Packet} (h : Stays a s) : VStays a (declareForeign p s) := by
  simp [declareForeign, h]

@[simp] theorem dropDecl_stays {x n : Nat} : Stays a (dropDecl x n s) ↔ Stays a s := by
  simp [dropDecl]

@[simp] theorem withdrawStream_stays {p : Packet} (h : Stays a s) : VStays a (withdrawStream p s) := by
  unfold withdrawStream
  dsimp only
  (repeat' split) <;> simp [h]

@[simp] theorem setFaultBudget_stays {p : Packet} (h : Stays a s) : VStays a (setFaultBudget p s) := by
  simp [setFaultBudget, h]

@[simp] theorem admitRoute_stays {p : Packet} (h : Stays a s) : VStays a (admitRoute p s) := by
  simp [admitRoute, h]

@[simp] theorem declView_stays {n : Nat} : Stays a (declView s n) ↔ Stays a s := by
  unfold declView
  split <;> simp

@[simp] theorem getExposure_stays {p : Packet} (h : Stays a s) : VStays a (getExposure p s) := by
  unfold getExposure
  dsimp only
  (repeat' split) <;> simp [h]

@[simp] theorem ackCauses_stays {ch : Nat} : Stays a (ackCauses ch s) ↔ Stays a s := by
  simp [ackCauses]

@[simp] theorem ackUnassured_stays {p : Packet} (h : Stays a s) : VStays a (ackUnassured p s) := by
  simp [ackUnassured, h]

@[simp] theorem getMonitors_stays {p : Packet} (h : Stays a s) : VStays a (getMonitors p s) := by
  simp [getMonitors, h]

end Sys2Proof.Machine

end

