-- ==== Sys2Proof/Proofs/LatchedTicks.lean ====
section
/-!
PROOFS. The load manager keeps the latched loads off: a tick turns on only a load whose latch it has found cool. With it the units and the routing, which command loads.
-/

namespace Sys2Proof.Machine

variable {a s : State}

/-! ### Machine/CvuOps.lean -/

@[simp] theorem cvuEnable_stays {u : Nat} : Stays a (cvuEnable u s) ↔ Stays a s := by
  simp [cvuEnable]

@[simp] theorem cvuRun_stays {u : Nat} {c : CvuParams} {l : List Byte} : Stays a (cvuRun u c l s) ↔ Stays a s := by
  simp [cvuRun]

@[simp] theorem cvCheck_stays {p : PduSet} {data : List Byte} : Stays a (cvCheck p data s).2 ↔ Stays a s := by
  unfold cvCheck
  (repeat' split) <;> simp

@[simp] theorem cvAppend_stays {p : PduSet} {data : List Byte} : Stays a (cvAppend p data s).2 ↔ Stays a s := by
  unfold cvAppend
  (repeat' split) <;> simp

@[simp] theorem execCvuStopBathEnd_stays {unit : Fin 32} (h : Stays a s) : OStays a (execCvuStopBathEnd unit s) := by
  unfold execCvuStopBathEnd
  dsimp only
  (repeat' split) <;> simp [h]

/-! ### Machine/CvuCmds.lean -/

@[simp] theorem configUnit_stays {p : Packet} {u mode : Nat} {prm : CvuParams} (h : Stays a s) :
    VStays a (configUnit p s u mode prm) := by
  simp [configUnit, h]

@[simp] theorem configCvuCmd_stays {p : Packet} (h : Stays a s) : VStays a (configCvuCmd p s) := by
  unfold configCvuCmd
  split <;> simp [h]

@[simp] theorem withFeedUnit_stays {u : Nat} {k : CvuParams → Verdict} (hk : ∀ x, VStays a (k x)) :
    VStays a (withFeedUnit s u k) := by
  unfold withFeedUnit
  dsimp only
  (repeat' split) <;> simp [hk]

@[simp] theorem feedCvu_stays {p : Packet} (h : Stays a s) : VStays a (feedCvu p s) := by
  simp [feedCvu, h]

@[simp] theorem readCvu_stays {p : Packet} (h : Stays a s) : VStays a (readCvu p s) := by
  simp [readCvu, h]

@[simp] theorem writeCvuValue_stays {p : Packet} (h : Stays a s) : VStays a (writeCvuValue p s) := by
  simp [writeCvuValue, h]

@[simp] theorem withUnit_stays {p : Packet} {k : Nat → Verdict} (hk : ∀ x, VStays a (k x)) : VStays a (withUnit p s k) := by
  unfold withUnit
  split <;> simp [hk]

@[simp] theorem enableCvu_stays {p : Packet} (h : Stays a s) : VStays a (enableCvu p s) := by
  simp [enableCvu, h]

@[simp] theorem disableCvu_stays {p : Packet} (h : Stays a s) : VStays a (disableCvu p s) := by
  simp [disableCvu, h]

/-! ### Machine/LoadOps.lean -/

@[simp] theorem departLoads_stays {c : Nat} : Stays a (departLoads c s) ↔ Stays a s :=
  forRange_stays_iff fun _ _ => by
    dsimp only
    (repeat' split) <;> simp

@[simp] theorem turnOn_stays {n : Nat} : Stays a (turnOn n s) ↔ Stays a s := by
  simp [turnOn]

@[simp] theorem turnOff_stays {n : Nat} : Stays a (turnOff n s) ↔ Stays a s := by
  simp [turnOff]

/-- The state of a load changes where its thermal latch is not set, or to a state in which it is off. -/
theorem setLoad_stays_of {n : Nat} {new : LoadState} (h : Stays a s) (safe : (s.ld n).latch = true → new ∈ offStates) :
    Stays a (setLoad n new s) := by
  have k : Stays a (s.modLd n fun l => { l with state := new }) := modLd_stays_at n _ (fun _ => safe) h
  simp [setLoad, h, k]

@[simp] theorem setLoad_stays {n : Nat} {new : LoadState} (off : new ∈ offStates) (h : Stays a s) :
    Stays a (setLoad n new s) :=
  setLoad_stays_of h fun _ => off

@[simp] theorem setLoad_modLd_off_stays {n m : Nat} {new : LoadState} {f : Load → Load}
    (hf : ∀ l, (f l).state = l.state ∧ (f l).latch = l.latch) (off : new ∈ offStates) (h : Stays a s) : Stays a (setLoad n new (s.modLd m f)) :=
  setLoad_stays off ((State_modLd_stays hf).mpr h)

@[simp] theorem startLoadBath_stays {n : Nat} {retain : Bool} {by_ : Source} (h : Stays a s) :
    Stays a (startLoadBath n retain by_ s) :=
  setLoad_stays (by decide) (by simpa using h)

@[simp] theorem retainLoads_stays (h : Stays a s) : Stays a (retainLoads s) :=
  forRange_stays (fun _ _ h => by dsimp only; split <;> simp [h]) h

@[simp] theorem forceOne_stays {n : Nat} {sender : Source} (h : Stays a s) : Stays a (forceOne n sender s) := by
  unfold forceOne
  dsimp only
  (repeat' split) <;> simp [h]

@[simp] theorem releaseOne_stays {n : Nat} {sender : Source} : Stays a (releaseOne n sender s) ↔ Stays a s :=
  State_modLd_stays fun l => by split <;> exact ⟨rfl, rfl⟩

@[simp] theorem startTransfer_stays {c : Nat} {atTick : Bool} : Stays a (startTransfer c atTick s) ↔ Stays a s := by
  unfold startTransfer
  dsimp only
  split
  · exact Iff.rfl
  · split
    · simp
    · exact (forRange_stays_iff fun _ _ => by split <;> simp).trans (by simp)

@[simp] theorem extraTransfer_stays {c : Nat} : Stays a (extraTransfer c s) ↔ Stays a s := by
  simp [extraTransfer]

@[simp] theorem applyForce_stays {action mask : Nat} {sender : Source} (h : Stays a s) :
    Stays a (applyForce action mask sender s) := by
  have named : ∀ l : List Nat, Stays a (forEach l (fun n s => if action = 1 then forceOne n sender s else releaseOne n sender s) s) :=
    fun l => forEach_stays (fun _ _ h => by split <;> simp [h]) h
  simp [applyForce, named]

@[simp] theorem command_stays {n : Nat} {on : Bool} {duty : Nat} {by_ : Commander} :
    Stays a (command n on duty by_ s) ↔ Stays a s := by
  simp [command]

@[simp] theorem localArrival_stays {block : Nat} {data : List Byte} : Stays a (localArrival block data s) ↔ Stays a s := by
  simp [localArrival]

@[simp] theorem loadBathEvent_stays {code n : Nat} {src : Source} : Stays a (loadBathEvent code n src s) ↔ Stays a s := by
  simp [loadBathEvent]

@[simp] theorem endLoadBath_stays {n : Nat} (h : Stays a s) : Stays a (endLoadBath n s) := by
  unfold endLoadBath
  dsimp only
  (repeat' split) <;> simp [h]

theorem latch_modLd {s : State} (n m : Nat) (f : Load → Load) (hf : ∀ l, (f l).latch = l.latch) :
    ((s.modLd n f).ld m).latch = (s.ld m).latch := by
  by_cases e : n = m
  · subst e
    by_cases hn : n < 96
    · rw [ld_modLd_self f hn, hf]
    · simp [State.modLd, State.ld, tmod, hn]
  · rw [ld_modLd_ne f e]

/-- A load with a cool latch may go to any state, changed beside its state and its latch. -/
theorem setLoad_modLd_stays {n : Nat} {new : LoadState} (f : Load → Load) (hf : ∀ l, (f l).state = l.state ∧ (f l).latch = l.latch)
    (cool : (s.ld n).latch = false) (h : Stays a s) : Stays a (setLoad n new (s.modLd n f)) :=
  setLoad_stays_of ((State_modLd_stays hf).mpr h) (by rw [latch_modLd n n f fun l => (hf l).2, cool]; exact nofun)

theorem startWindow_stays {n : Nat} {granted uv : Bool} (cool : (s.ld n).latch = false) (h : Stays a s) :
    Stays a (startWindow n granted uv s) :=
  setLoad_modLd_stays _ (fun _ => ⟨rfl, rfl⟩) cool h

theorem goOn_stays {n : Nat} (cool : (s.ld n).latch = false) (h : Stays a s) : Stays a (goOn n s) := by
  unfold goOn
  split
  · exact startWindow_stays cool h
  · exact setLoad_modLd_stays _ (fun _ => ⟨rfl, rfl⟩) cool h

@[simp] theorem modPosition_stays {c p : Nat} {f : Nat → Load → Load}
    (hf : ∀ o l, (f o l).state = l.state ∧ (f o l).latch = l.latch) : Stays a (modPosition c p f s) ↔ Stays a s := by
  have same : LatchedOff (modPosition c p f s) ↔ LatchedOff s := by
    refine forall_congr' fun n => forall_congr' fun hn => ?_
    have e : (modPosition c p f s).ld n = match chainPlace (s.ld n) with
        | some (j, q, o) => if j = c && q = p then f o (s.ld n) else s.ld n
        | none => s.ld n := by
      simp [modPosition, State.ld, tget, vmap, hn] <;> rfl
    rw [e, offLatched, offLatched]
    (repeat' split) <;> simp [hf]
  rw [Stays, Stays, same]

@[simp] theorem chainEvent_stays {c p : Nat} {lost : Bool} : Stays a (chainEvent c p lost s) ↔ Stays a s := by
  simp [chainEvent]

@[simp] theorem takeResponse_stays {c : Nat} {f : Profile} {bits : List Bool} {p : Nat} :
    Stays a (takeResponse c f bits p s) ↔ Stays a s := by
  unfold takeResponse
  dsimp only
  split
  · split
    · exact chainEvent_stays.trans ((modPosition_stays fun _ _ => by split <;> exact ⟨rfl, rfl⟩).trans State_modSwc_stays)
    · exact (modPosition_stays fun _ _ => by split <;> exact ⟨rfl, rfl⟩).trans State_modSwc_stays
  · split <;> simp

@[simp] theorem endChainBaths_stays {c : Nat} (h : Stays a s) : Stays a (endChainBaths c s) :=
  forRange_stays (fun _ _ h => by split <;> simp [h]) h

@[simp] theorem execChainTransferEnd_stays {swc : Fin 8} {response : List Byte} (h : Stays a s) :
    OStays a (execChainTransferEnd swc response s) := by
  unfold execChainTransferEnd
  dsimp only
  (repeat' split) <;> simp [h]

/-! ### Machine/LoadTick.lean -/

@[simp] theorem restartTicks_stays : Stays a (restartTicks s) ↔ Stays a s := stays_congr rfl

@[simp] theorem restartMean_stays : Stays a (restartMean s) ↔ Stays a s := stays_congr rfl

@[simp] theorem execVbatsFilterUpdate_stays {samples : List Nat} (h : Stays a s) :
    OStays a (execVbatsFilterUpdate samples s) := by
  unfold execVbatsFilterUpdate
  dsimp only
  generalize meanVbats _ _ = vf
  split
  · exact next_stays.mpr h
  · exact next_stays.mpr (localArrival_stays.mpr (stays_mk_loads.mpr (reachClk_stays.mpr h)))

@[simp] theorem takeVbats_stays {samples : List Nat} : Stays a (takeVbats samples s) ↔ Stays a s := stays_congr rfl

@[simp] theorem takeProfile_stays {c : Nat} : Stays a (takeProfile c s) ↔ Stays a s := by
  simp [takeProfile]

@[simp] theorem bindEndsBath_stays {n : Nat} : Stays a (bindEndsBath n s) ↔ Stays a s := by
  unfold bindEndsBath
  dsimp only
  (repeat' split) <;> simp

@[simp] theorem bindNow_stays {n : Nat} {b : Option Binding} (h : Stays a s) : Stays a (bindNow n b s) :=
  setLoad_stays (by split <;> decide) (modLd_stays_at _ _ (fun _ hot => nomatch hot) (by simpa using h))

@[simp] theorem tickBath_stays {n : Nat} (h : Stays a s) : Stays a (tickBath n s) := by
  unfold tickBath
  dsimp only
  (repeat' split) <;> simp [h]

@[simp] theorem resetNow_stays {n : Nat} (h : Stays a s) : Stays a (resetNow n s) := by
  have k : Stays a (s.modLd n fun l =>
      { l with pendReset := false, latch := false, thermals := [], retries := l.policy.retries, backoffs := 0 }) :=
    modLd_stays_at _ _ (fun _ hot => nomatch hot) h
  unfold resetNow
  dsimp only
  split <;> simp [k]

@[simp] theorem takeLatched_stays {n : Nat} (h : Stays a s) : Stays a (takeLatched n s) := by
  unfold takeLatched
  extract_lets policy bound ticked reset enabled
  have hp : Stays a policy := by simp only [policy]; split <;> simp [h]
  have hb : Stays a bound := by simp only [bound]; split <;> simp [hp]
  have ht : Stays a ticked := tickBath_stays hb
  have hr : Stays a reset := ite_stays (resetNow_stays ht) ht
  have he : Stays a enabled := ite_stays (setLoad_stays (by decide) hr) hr
  simpa using he

@[simp] theorem judgeOpen_stays {n : Nat} : Stays a (judgeOpen n s) ↔ Stays a s := by
  simp [judgeOpen]

@[simp] theorem judgeReports_stays {n : Nat} : Stays a (judgeReports n s).1 ↔ Stays a s := by
  simp [judgeReports]

@[simp] theorem judgeAll_stays {l : List Nat} (h : Stays a s) : Stays a (judgeAll l s).1 :=
  foldl_stays_fst (z := (s, [])) (fun _ _ hz => by simpa using hz) h

@[simp] theorem extendWindow_stays {js : List Judged} {n : Nat} : Stays a (extendWindow js n s) ↔ Stays a s := by
  simp [extendWindow]

@[simp] theorem reportEvents_stays {n : Nat} {j : Judged} : Stays a (reportEvents n j s) ↔ Stays a s := by
  simp [reportEvents]

/-- A load in a state in which its output is on or waits to be has a cool latch. -/
theorem cool_of_state {s : State} {n : Nat} (x : LatchedOff s) (on : (s.ld n).state ∉ offStates) :
    (s.ld n).latch = false := by
  by_cases hn : n < 96
  · exact Bool.eq_false_iff.2 fun hot => on (x n hn hot)
  · simp [State.ld, tget, hn, loadReset]

theorem ld_of_tells {s t : State} (k : Tells s t) (n : Nat) : t.ld n = s.ld n := by rw [State.ld, State.ld, k.load]

theorem raiseEvents_ld (cs : List Nat) (code : Nat) (data : List Byte) (s : State) (n : Nat) :
    (raiseEvents cs code data s).ld n = s.ld n :=
  ld_of_tells (raiseEvents_tells cs code data (Tells.refl s)) n

theorem reportEvents_ld (n : Nat) (j : Judged) (s : State) (m : Nat) : (reportEvents n j s).ld m = s.ld m := by
  unfold reportEvents
  dsimp only
  repeat' split
  all_goals simp only [raiseEvents_ld]

theorem turnOn_ld_ne {n m : Nat} (h : n ≠ m) (s : State) : (turnOn n s).ld m = s.ld m := ld_modLd_ne _ h
theorem turnOff_ld_ne {n m : Nat} (h : n ≠ m) (s : State) : (turnOff n s).ld m = s.ld m := ld_modLd_ne _ h

theorem setLoad_ld_ne {n m : Nat} (h : n ≠ m) (new : LoadState) (s : State) : (setLoad n new s).ld m = s.ld m := by
  unfold setLoad
  dsimp only
  repeat' split
  all_goals simp only [raiseEvents_ld, turnOn_ld_ne h, turnOff_ld_ne h, ld_modLd_ne _ h]

theorem setLoad_state {n : Nat} (hn : n < 96) (new : LoadState) (s : State) : ((setLoad n new s).ld n).state = new := by
  unfold setLoad
  dsimp only
  split
  · assumption
  · rw [raiseEvents_ld]
    repeat' split
    all_goals simp only [turnOn, turnOff, ld_modLd_self _ hn]

theorem turnOn_latch (n m : Nat) (s : State) : ((turnOn n s).ld m).latch = (s.ld m).latch := latch_modLd n m _ fun _ => rfl
theorem turnOff_latch (n m : Nat) (s : State) : ((turnOff n s).ld m).latch = (s.ld m).latch := latch_modLd n m _ fun _ => rfl

theorem setLoad_latch (n : Nat) (new : LoadState) (s : State) : ((setLoad n new s).ld n).latch = (s.ld n).latch := by
  have k : ((s.modLd n fun l => { l with state := new }).ld n).latch = (s.ld n).latch := latch_modLd n n _ fun _ => rfl
  unfold setLoad
  dsimp only
  split
  · rfl
  · rw [raiseEvents_ld]
    repeat' split
    all_goals simp only [turnOn_latch, turnOff_latch, k]

/-- A load that changes state, the others as before: it goes off, or its latch is cool. -/
theorem setLoad_latchedOff {n : Nat} {new : LoadState} {s t : State} (x : LatchedOff s) (others : ∀ m, n ≠ m → t.ld m = s.ld m)
    (safe : (t.ld n).latch = true → new ∈ offStates) : LatchedOff (setLoad n new t) := by
  intro m hm
  by_cases e : n = m
  · subst e
    intro hot
    rw [setLoad_state hm]
    exact safe (by rwa [setLoad_latch] at hot)
  · rw [setLoad_ld_ne e, others m e]
    exact x m hm

/-- A report takes a load with a cool latch to any state, and one that it heats off or to LATCHED. -/
theorem reportOutcome_stays {n : Nat} {j : Judged} (cool : (s.ld n).latch = false) (h : Stays a s) :
    Stays a (reportOutcome n j s) := by
  refine h.trans fun x => ?_
  unfold reportOutcome
  extract_lets l hot u v
  have cold : hot = false → (u.ld n).latch = false := fun e => by rw [show u = s from if_neg (by rw [e]; decide)]; exact cool
  have others : ∀ m, n ≠ m → u.ld m = s.ld m := fun m e => by
    show (if hot = true then _ else s).ld m = _
    split
    · exact ld_modLd_ne _ e
    · rfl
  have told : ∀ new t, (∀ m, n ≠ m → t.ld m = s.ld m) → ((t.ld n).latch = true → new ∈ offStates) →
      LatchedOff (setLoad n new (reportEvents n j t)) := fun new t k off =>
    setLoad_latchedOff x (fun m e => (reportEvents_ld n j t m).trans (k m e)) (by rw [reportEvents_ld]; exact off)
  have lit : ∀ new, hot = false → LatchedOff (setLoad n new (reportEvents n j u)) := fun new e =>
    told new u others (by rw [cold e]; exact nofun)
  split
  · exact told .off u others fun _ => by decide
  · split
    next uv => exact lit .uvHold (by simp [hot, uv])
    · split
      · exact told .latched u others fun _ => by decide
      next e =>
        have e : hot = false := by simpa using e
        split
        · have still : (v.ld n).latch = false := by
            refine (latch_modLd n n _ ?_).trans (cold e)
            exact fun _ => rfl
          exact told .backoff v (fun m k => (ld_modLd_ne _ k).trans (others m k)) (by rw [still]; exact nofun)
        · exact lit .lockedOut e

@[simp] theorem timersAndTarget_stays {n : Nat} (h : Stays a s) : Stays a (timersAndTarget n s) := by
  refine h.trans fun x => (?_ : Stays s (timersAndTarget n s)) x
  have k := Stays.refl s
  have cool : (s.ld n).state ∉ offStates → (s.ld n).latch = false := cool_of_state x
  have off : Stays s (setLoad n .off s) := setLoad_stays (by decide) k
  unfold timersAndTarget
  dsimp only
  split
  case h_1 =>
    split
    · exact goOn_stays (by simp_all) k
    · exact k
  case h_2 => exact ite_stays k off
  case h_3 st =>
    exact ite_stays off (ite_stays (setLoad_modLd_stays _ (fun _ => ⟨rfl, rfl⟩) (cool (by rw [st]; decide)) k) k)
  case h_4 => exact ite_stays off (ite_stays (by simp [k]) k)
  case h_5 st => exact ite_stays off (ite_stays (startWindow_stays (cool (by rw [st]; decide)) k) k)
  case h_6 st => exact ite_stays k (ite_stays (goOn_stays (cool (by rw [st]; decide)) k) off)
  case h_7 => exact k

theorem loadOutcome_stays {j : Judged} (cool : (j.overload || j.therm || j.uv) = true → (s.ld j.load).latch = false) (h : Stays a s) :
    Stays a (loadOutcome j s) := by
  unfold loadOutcome
  split
  · exact reportOutcome_stays (cool ‹_›) h
  · exact timersAndTarget_stays h

theorem startWindow_ld_ne {n m : Nat} (h : n ≠ m) (g uv : Bool) (s : State) : (startWindow n g uv s).ld m = s.ld m :=
  (setLoad_ld_ne h _ _).trans (ld_modLd_ne _ h)

theorem goOn_ld_ne {n m : Nat} (h : n ≠ m) (s : State) : (goOn n s).ld m = s.ld m := by
  unfold goOn
  split
  · exact startWindow_ld_ne h _ _ _
  · exact (setLoad_ld_ne h _ _).trans (ld_modLd_ne _ h)

theorem reportOutcome_ld_ne {n m : Nat} (h : n ≠ m) (j : Judged) (s : State) : (reportOutcome n j s).ld m = s.ld m := by
  unfold reportOutcome
  extract_lets l hot u v
  have hu : u.ld m = s.ld m := by
    show (if hot = true then _ else s).ld m = _
    split
    · exact ld_modLd_ne _ h
    · rfl
  have hv : v.ld m = s.ld m := (ld_modLd_ne _ h).trans hu
  repeat' split
  all_goals simp only [setLoad_ld_ne h, reportEvents_ld, hu, hv]

theorem timersAndTarget_ld_ne {n m : Nat} (h : n ≠ m) (s : State) : (timersAndTarget n s).ld m = s.ld m := by
  unfold timersAndTarget
  dsimp only
  repeat' split
  all_goals simp only [setLoad_ld_ne h, goOn_ld_ne h, startWindow_ld_ne h, ld_modLd_ne _ h]

theorem loadOutcome_ld_ne {m : Nat} (j : Judged) (h : j.load ≠ m) (s : State) : (loadOutcome j s).ld m = s.ld m := by
  unfold loadOutcome
  split
  · exact reportOutcome_ld_ne h j s
  · exact timersAndTarget_ld_ne h s

/-- A load of which something is judged has a cool latch. -/
def coolJudged (s : State) (j : Judged) : Prop := (j.overload || j.therm || j.uv) = true → (s.ld j.load).latch = false

theorem judgeOpen_latch (n m : Nat) (s : State) : ((judgeOpen n s).ld m).latch = (s.ld m).latch := by
  unfold judgeOpen
  dsimp only
  split
  · rfl
  · rw [raiseEvents_ld]
    refine latch_modLd n m _ ?_
    exact fun _ => rfl

theorem judgeReports_latch (n m : Nat) (s : State) : ((judgeReports n s).1.ld m).latch = (s.ld m).latch := by
  unfold judgeReports
  dsimp only
  rw [judgeOpen_latch]
  refine latch_modLd n m _ ?_
  exact fun _ => rfl

/-- Only a load in INRUSH or ON is judged (R517). -/
theorem judgeReports_cool (n : Nat) {s : State} (x : LatchedOff s) :
    coolJudged (judgeReports n s).1 (judgeReports n s).2 := by
  intro flagged
  have judged : ((s.ld n).state == .inrush || (s.ld n).state == .on) = true := by
    by_contra no
    simp [judgeReports, Bool.eq_false_iff.2 no] at flagged
  refine (judgeReports_latch n n s).trans (cool_of_state x ?_)
  rcases Bool.or_eq_true _ _ ▸ judged with k | k <;> rw [eq_of_beq k] <;> decide

/-- The same while the loads are judged one after another. -/
theorem judgeFold_cool (bound : List Nat) {s : State} {js : List Judged} (x : LatchedOff s) (cool : ∀ j ∈ js, coolJudged s j) :
    let r := bound.foldl (fun a n => let r := judgeReports n a.1; (r.1, a.2 ++ [r.2])) (s, js)
    LatchedOff r.1 ∧ (∀ j ∈ r.2, coolJudged r.1 j) ∧ r.2.map (·.load) = js.map (·.load) ++ bound := by
  induction bound generalizing s js with
  | nil => exact ⟨x, cool, (List.append_nil _).symm⟩
  | cons n bound ih =>
    have k : ∀ j ∈ js ++ [(judgeReports n s).2], coolJudged (judgeReports n s).1 j := by
      intro j hj
      rcases List.mem_append.1 hj with hj | hj
      · intro flagged
        rw [judgeReports_latch]
        exact cool j hj flagged
      · rw [List.mem_singleton.1 hj]
        exact judgeReports_cool n x
    obtain ⟨h1, h2, h3⟩ := ih (judgeReports_stays.mpr (Stays.refl s) x) k
    refine ⟨h1, h2, h3.trans ?_⟩
    simp [judgeReports]

/-- Every bound load is judged once, and each of which something is judged has a cool latch. -/
theorem judgeAll_cool (bound : List Nat) {s : State} (x : LatchedOff s) :
    LatchedOff (judgeAll bound s).1 ∧ (∀ j ∈ (judgeAll bound s).2, coolJudged (judgeAll bound s).1 j) ∧
      (judgeAll bound s).2.map (·.load) = bound :=
  judgeFold_cool bound x nofun

theorem extendWindow_latch (js : List Judged) (n : Nat) (s : State) (m : Nat) :
    ((extendWindow js n s).ld m).latch = (s.ld m).latch := by
  unfold extendWindow
  dsimp only
  split
  · rfl
  · refine latch_modLd n m _ ?_
    exact fun _ => rfl

/-- Each load has its outcome once, so that no outcome meets what another load's has left. -/
theorem outcomes_latchedOff (js : List Judged) {s : State} (x : LatchedOff s) (once : (js.map (·.load)).Nodup)
    (cool : ∀ j ∈ js, coolJudged s j) : LatchedOff (forEach js loadOutcome s) := by
  unfold forEach
  induction js generalizing s with
  | nil => exact x
  | cons j js ih =>
    rw [List.map_cons, List.nodup_cons] at once
    refine ih (loadOutcome_stays (cool j (.head _)) (Stays.refl s) x) once.2 fun i hi flagged => ?_
    have ne : j.load ≠ i.load := fun e => once.1 (e ▸ List.mem_map_of_mem hi)
    rw [loadOutcome_ld_ne j ne]
    exact cool i (.tail _ hi) flagged

theorem mem_insertBy {α : Type} {before : α → α → Bool} {x y : α} {l : List α} (h : y ∈ insertBy before x l) :
    y = x ∨ y ∈ l := by
  induction l with
  | nil => exact .inl (List.mem_singleton.1 h)
  | cons z l ih =>
    unfold insertBy at h
    split at h
    · simpa using h
    · rcases List.mem_cons.1 h with h | h
      · exact .inr (h ▸ .head _)
      · exact (ih h).imp id (.tail _)

theorem mem_sortBy {α : Type} {before : α → α → Bool} {y : α} {l : List α} (h : y ∈ sortBy before l) : y ∈ l := by
  induction l with
  | nil => exact h
  | cons x l ih => exact (mem_insertBy h).elim (fun e => e ▸ .head _) fun k => .tail _ (ih k)

theorem grantGroup_stays {g : Nat} (h : Stays a s) : Stays a (grantGroup g s) := by
  refine h.trans fun x => ?_
  unfold grantGroup
  dsimp only
  split
  · exact x
  · split
    next l rest e =>
      have waits := mem_sortBy (e ▸ List.mem_cons_self : l ∈ sortBy grantBefore _)
      simp only [List.mem_filter, List.mem_map, List.mem_range, beq_iff_eq] at waits
      obtain ⟨⟨⟨n, -, rfl⟩, -⟩, wait⟩ := waits
      exact startWindow_stays (cool_of_state x (by rw [wait]; decide)) (Stays.refl s) x
    · exact x

@[simp] theorem loadArrivals_stays : Stays a (loadArrivals s) ↔ Stays a s := by
  simp [loadArrivals]

@[simp] theorem chainDuties_stays : Stays a (chainDuties s) ↔ Stays a s :=
  forRange_stays_iff fun _ _ => by
    dsimp only
    split <;> simp

/-- Steps 2 and 3 of a tick: reports, windows and outcomes (R494). -/
theorem judged_latchedOff {bound : List Nat} (once : bound.Nodup) (x : LatchedOff s) :
    LatchedOff (forEach (judgeAll bound s).2 loadOutcome (forEach bound (extendWindow (judgeAll bound s).2) (judgeAll bound s).1)) := by
  obtain ⟨xr, cool, loads⟩ := judgeAll_cool bound x
  refine outcomes_latchedOff _ (forEach_stays (fun n _ h => extendWindow_stays.mpr h) (Stays.refl _) xr) (loads.symm ▸ once) ?_
  exact fun j hj flagged => (forEach_kept (fun s => (s.ld j.load).latch) (fun n t => extendWindow_latch _ n t j.load) bound _).trans (cool j hj flagged)

@[simp] theorem tickWork_stays (h : Stays a s) : Stays a (tickWork s) := by
  have k : Stays a (forRange 8 takeProfile (forRange loadCount takeLatched s)) :=
    forRange_stays (fun c _ h => by simpa using h) (forRange_stays (fun n _ h => takeLatched_stays h) h)
  unfold tickWork
  dsimp only
  generalize forRange 8 takeProfile (forRange loadCount takeLatched s) = u at k ⊢
  have once : ((List.range loadCount).filter fun n => (u.ld n).bind.isSome).Nodup := List.nodup_range.filter _
  generalize (List.range loadCount).filter (fun n => (u.ld n).bind.isSome) = bound at once ⊢
  have granted : Stays a (forRange 16 grantGroup (forEach (judgeAll bound u).2 loadOutcome
      (forEach bound (extendWindow (judgeAll bound u).2) (judgeAll bound u).1))) :=
    forRange_stays (fun g _ h => grantGroup_stays h) (k.trans (judged_latchedOff once))
  simpa using granted

@[simp] theorem loadTick_stays (h : Stays a s) : Stays a (loadTick s) :=
  tickWork_stays (stays_mk_loads.mpr (reachClk_stays.mpr h))

@[simp] theorem execLoadTick_stays {samples : List Nat} (h : Stays a s) : OStays a (execLoadTick samples s) := by
  simp [execLoadTick, h]

@[simp] theorem ticksUntil_stays {done : State → Bool} {k : Nat} (h : Stays a s) : Stays a (ticksUntil done k s) := by
  induction k generalizing s with
  | zero => exact h
  | succ k ih => exact ite_stays h (ih (loadTick_stays h))

@[simp] theorem timerTick_stays {n : Nat} (h : Stays a s) : Stays a (timerTick n s) := ticksUntil_stays h

@[simp] theorem execInrushWindowEnd_stays {ld : Fin 96} (h : Stays a s) : OStays a (execInrushWindowEnd ld s) := by
  simp [execInrushWindowEnd, h]

@[simp] theorem execBackoffEnd_stays {ld : Fin 96} (h : Stays a s) : OStays a (execBackoffEnd ld s) := by
  simp [execBackoffEnd, h]

@[simp] theorem execHealReached_stays {ld : Fin 96} (h : Stays a s) : OStays a (execHealReached ld s) := by
  simp [execHealReached, h]

@[simp] theorem execLoadStopBathEnd_stays {ld : Fin 96} (h : Stays a s) : OStays a (execLoadStopBathEnd ld s) := by
  unfold execLoadStopBathEnd
  dsimp only
  (repeat' split) <;> simp [h]

@[simp] theorem execPwmPeriodStart_stays {ld : Fin 96} (h : Stays a s) : OStays a (execPwmPeriodStart ld s) := by
  unfold execPwmPeriodStart
  dsimp only
  split <;> simp [h]

@[simp] theorem execPwmHighEnd_stays {ld : Fin 96} (h : Stays a s) : OStays a (execPwmHighEnd ld s) := by
  unfold execPwmHighEnd
  dsimp only
  split <;> simp [h]

/-! ### Machine/Routing.lean -/

@[simp] theorem endPass_stays {l : Nat} {timed : Bool} {from_ : Nat} : Stays a (endPass l timed from_ s) ↔ Stays a s := by
  simp [endPass]

@[simp] theorem enterRouted_stays {lane : Nat} {r : Routed} : Stays a (enterRouted lane r s) ↔ Stays a s := by
  simp [enterRouted]

@[simp] theorem resumeLane_stays {n : Nat} {l : List Routed} : Stays a (resumeLane n l s) ↔ Stays a s := by
  induction l generalizing s with
  | nil =>
    unfold resumeLane
    split <;> simp
  | cons r rest ih => simp [resumeLane, ih]

@[simp] theorem cellsFreed_stays {l : Nat} : Stays a (cellsFreed l s) ↔ Stays a s := by
  simp [cellsFreed]

@[simp] theorem modPdu_stays {n : Nat} {f : Pdu → Pdu} : Stays a (modPdu n f s) ↔ Stays a s := by
  simp [modPdu]

@[simp] theorem intakeRouted_stays {r : Routed} : Stays a (intakeRouted r s) ↔ Stays a s := by
  unfold intakeRouted
  split <;> simp

@[simp] theorem execRoutedFrameIntake_stays {lane : Fin 4} {parity : Bool} (h : Stays a s) :
    OStays a (execRoutedFrameIntake lane parity s) := by
  unfold execRoutedFrameIntake
  split <;> simp [h]

@[simp] theorem finishPass_stays {l : Nat} {timed : Bool} {from_ : Nat} :
    Stays a (finishPass l timed from_ s) ↔ Stays a s := by
  simp [finishPass]

@[simp] theorem setSource_stays {e : Nat} {v : BitVec 64} {z : State × List Nat} :
    Stays a (setSource e v z).1 ↔ Stays a z.1 := by
  unfold setSource
  split <;> simp

@[simp] theorem unpack_stays {p : PduSet} {data : List Byte} : Stays a (unpack p data s).1 ↔ Stays a s :=
  foldl_stays_fst_iff fun _ _ => by split <;> simp

@[simp] theorem packPdu_stays {p : PduSet} : Stays a (packPdu p s).2 ↔ Stays a s := by
  simp [packPdu]

@[simp] theorem countSend_stays {n : Nat} : Stays a (countSend n s) ↔ Stays a s := by
  simp [countSend]

@[simp] theorem packGroup_stays {f : Nat} {g : PduSet} : Stays a (packGroup f g s).2 ↔ Stays a s :=
  foldl_stays_snd_iff fun _ _ => by split <;> simp

@[simp] theorem pushRouted_stays {lane : Nat} {r : Routed} : Stays a (pushRouted lane r s) ↔ Stays a s := by
  simp [pushRouted]

@[simp] theorem noteSend_stays {f : Nat} : Stays a (noteSend f s) ↔ Stays a s := by
  simp [noteSend]

@[simp] theorem packLocal_stays {p : PduSet} : Stays a (packLocal p s) ↔ Stays a s :=
  forRange_stays_iff fun _ _ => by
    dsimp only
    split <;> simp

@[simp] theorem packHead_stays {f path origin : Nat} : Stays a (packHead f path origin s) ↔ Stays a s := by
  unfold packHead
  dsimp only
  (repeat' split) <;> simp

@[simp] theorem fireHead_stays {f path origin : Nat} : Stays a (fireHead f path origin s) ↔ Stays a s := by
  unfold fireHead
  (repeat' split) <;> simp

@[simp] theorem walkList_stays {p : PduSet} {arrival : Bool} {changed : List Nat} {path origin : Nat} :
    Stays a (walkList p arrival changed path origin s) ↔ Stays a s := by
  simp [walkList]

@[simp] theorem noteArrival_stays {n : Nat} : Stays a (noteArrival n s) ↔ Stays a s := by
  unfold noteArrival
  split <;> simp

@[simp] theorem arrive_stays {n : Nat} {o : Handoff} {p : Pdu} : Stays a (arrive n o p s) ↔ Stays a s := by
  simp [arrive]

@[simp] theorem execArrivalPass_stays {lane : Fin 4} {parity : Bool} (h : Stays a s) :
    OStays a (execArrivalPass lane parity s) := by
  unfold execArrivalPass
  dsimp only
  (repeat' split) <;> simp [h]

@[simp] theorem execPduTimeout_stays {pdu : Fin 32768} (h : Stays a s) : OStays a (execPduTimeout pdu s) := by
  unfold execPduTimeout
  dsimp only
  (repeat' split) <;> simp [h]

@[simp] theorem startTimed_stays {l : Nat} : Stays a (startTimed l s) ↔ Stays a s := by
  unfold startTimed
  split <;> simp

@[simp] theorem timedPass_stays {l due : Nat} {act : State → State} (hk : ∀ t, Stays a t → Stays a (act t)) (h : Stays a s) :
    Stays a (timedPass l due act s) := by
  simp [timedPass, hk, h]

@[simp] theorem substitute_stays {p : PduSet} : Stays a (substitute p s).1 ↔ Stays a s :=
  foldl_stays_fst_iff fun _ _ => by split <;> simp

@[simp] theorem execTimeoutPass_stays {pdu : Fin 32768} (h : Stays a s) : OStays a (execTimeoutPass pdu s) := by
  unfold execTimeoutPass
  dsimp only
  (repeat' split) <;> simp [h]

@[simp] theorem execPeriodicPackNotice_stays {pdu : Fin 32768} (h : Stays a s) :
    OStays a (execPeriodicPackNotice pdu s) := by
  unfold execPeriodicPackNotice
  dsimp only
  (repeat' split) <;> simp [h]

@[simp] theorem execPeriodicPass_stays {pdu : Fin 32768} (h : Stays a s) : OStays a (execPeriodicPass pdu s) := by
  unfold execPeriodicPass
  dsimp only
  (repeat' split) <;> simp [h]

@[simp] theorem execDeferredPass_stays {pdu : Fin 32768} (h : Stays a s) : OStays a (execDeferredPass pdu s) := by
  unfold execDeferredPass
  dsimp only
  (repeat' split) <;> simp [h]

@[simp] theorem takeLevels_stays {levels : BitVec 32} : Stays a (takeLevels levels s) ↔ Stays a s := by
  simp [takeLevels]

@[simp] theorem execDinSample_stays {levels : BitVec 32} (h : Stays a s) : OStays a (execDinSample levels s) := by
  simp [execDinSample, h]

@[simp] theorem execAinRoundEnd_stays {codes : List Nat} {vbats : Bool} (h : Stays a s) :
    OStays a (execAinRoundEnd codes vbats s) := by
  unfold execAinRoundEnd
  split <;> simp [h]

/-! ### Machine/LoadCmds.lean -/

@[simp] theorem pruneDecoded_stays : Stays a (pruneDecoded s) ↔ Stays a s := by
  simp [pruneDecoded]

@[simp] theorem answerDecoded_stays {p : Packet} : Stays a (answerDecoded p s) ↔ Stays a s := by
  simp [answerDecoded]

@[simp] theorem forceSafe_stays {p : Packet} (h : Stays a s) : VStays a (forceSafe p s) := by
  unfold forceSafe
  split <;> simp [h]

@[simp] theorem bindLoad_stays {p : Packet} (h : Stays a s) : VStays a (bindLoad p s) := by
  simp [bindLoad, h]

@[simp] theorem setSwitchProfile_stays {p : Packet} (h : Stays a s) : VStays a (setSwitchProfile p s) := by
  unfold setSwitchProfile
  dsimp only
  (repeat' split) <;> simp [h]

@[simp] theorem setLoadPolicy_stays {p : Packet} (h : Stays a s) : VStays a (setLoadPolicy p s) := by
  simp [setLoadPolicy, h]

@[simp] theorem setLoadCmd_stays {p : Packet} (h : Stays a s) : VStays a (setLoadCmd p s) := by
  simp [setLoadCmd, h]

@[simp] theorem withLoad_stays {p : Packet} {k : Nat → Verdict} (hk : ∀ x, VStays a (k x)) : VStays a (withLoad p k) := by
  simp [withLoad, hk]

@[simp] theorem getLoadStatus_stays {p : Packet} (h : Stays a s) : VStays a (getLoadStatus p s) := by
  simp [getLoadStatus, h]

@[simp] theorem resetLoadLatch_stays {p : Packet} (h : Stays a s) : VStays a (resetLoadLatch p s) := by
  simp [resetLoadLatch, h]

@[simp] theorem enableLoad_stays {p : Packet} (h : Stays a s) : VStays a (enableLoad p s) := by
  simp [enableLoad, h]

@[simp] theorem disableLoad_stays {p : Packet} (h : Stays a s) : VStays a (disableLoad p s) :=
  withLoad_stays fun n => by
    dsimp only
    split <;> simp [h]

/-! ### Machine/RouteCmds.lean -/

@[simp] theorem writePdu_stays {p : Packet} (h : Stays a s) : VStays a (writePdu p s) := by
  unfold writePdu
  dsimp only
  (repeat' split) <;> simp [h]

@[simp] theorem writeEntries_stays {kinds : List Nat} {p : Packet} (h : Stays a s) : VStays a (writeEntries kinds p s) := by
  unfold writeEntries
  dsimp only
  (repeat' split) <;> simp [h]

@[simp] theorem writeSignal_stays {p : Packet} (h : Stays a s) : VStays a (writeSignal p s) := by
  simp [writeSignal, h]

@[simp] theorem writeRoute_stays {p : Packet} (h : Stays a s) : VStays a (writeRoute p s) := by
  simp [writeRoute, h]

@[simp] theorem endLoad_stays {status detail at_ : Nat} {b : BundleLoad} (h : Stays a s) :
    VStays a (endLoad status detail at_ b s) := by
  simp [endLoad, h]

@[simp] theorem loadReply_stays {t : State} {body : List Byte} : VStays a (loadReply s t body) ↔ Stays a t := Iff.rfl

@[simp] theorem setLocalIo_stays {p : Packet} (h : Stays a s) : VStays a (setLocalIo p s) := by
  simp [setLocalIo, h]

@[simp] theorem modBundle_stays {f : BundleLoad → BundleLoad} : Stays a (modBundle f s) ↔ Stays a s := by
  simp [modBundle]

/-- The state inside an answer of the bundle loader keeps of `a` what `Stays` says. -/

def LStays (a : State) : Loaded → Prop
  | .more s => Stays a s
  | .done s => Stays a s
  | .fail _ _ _ _ => True

theorem endBatch_stays {b : BundleLoad} (h : Stays a s) : LStays a (endBatch b s) := by
  unfold endBatch
  dsimp only
  (repeat' split) <;> simp [LStays, h]

theorem finishHeader_stays {b : BundleLoad} (h : Stays a s) : LStays a (finishHeader b s) := by
  unfold finishHeader
  (repeat' split) <;> simp [LStays, h]

/-- Every command that a bundle may hold keeps them off. -/
theorem bundleRow_stays {n : Nat} {r : CmdSpec × (Packet → State → Verdict)} (e : bundleRow n = some r) (q : Packet) (h : Stays a s) :
    VStays a (r.2 q s) := by
  unfold bundleRow at e
  repeat' split at e
  all_goals cases e
  all_goals simp [h]

theorem Stays.bundle (h : Stays a s) (b : Option BundleLoad) : Stays a { s with bundle := b } := stays_mk.mpr h

theorem takeRecord_stays {p : Packet} {r : List Byte} {t : State} (h : Stays a s) (e : takeRecord p r s = .ok t) :
    Stays a t := by
  unfold takeRecord at e
  split at e
  · cases e
  · next c g hr =>
    have kept := fun q => bundleRow_stays hr q (h.bundle none)
    dsimp only at e kept
    repeat' split at e
    all_goals cases e
    all_goals
      next hq =>
      exact Stays.bundle ((congrArg (VStays a) hq).mp (kept _)) _

theorem takePart_stays {p : Packet} {b : BundleLoad} {n : Nat} (h : Stays a s) : LStays a (takePart p b n s) := by
  unfold takePart
  dsimp only
  split
  · split
    · trivial
    · exact finishHeader_stays (h.bundle _)
  · split
    · split
      · trivial
      · split
        · exact endBatch_stays (h.bundle _)
        · exact h.bundle _
    · split
      · trivial
      · next e =>
        have k := takeRecord_stays h e
        split
        · exact endBatch_stays (k.bundle _)
        · exact k.bundle _

theorem takeParts_stays {p : Packet} {n : Nat} (h : Stays a s) : LStays a (takeParts p n s) := by
  induction n generalizing s with
  | zero => exact h
  | succ n ih =>
    unfold takeParts
    split
    · exact h
    · split
      · exact h
      · trivial
      · have k := takePart_stays (p := p) (b := ‹_›) (n := ‹_›) h
        split
        · next e => exact ih (e ▸ k : LStays a (.more _))
        · exact k

@[simp] theorem loadBlock_stays {p : Packet} {data : List Byte} {b : BundleLoad} (h : Stays a s) :
    VStays a (loadBlock p data b s) := by
  have k := takeParts_stays (p := p) (n := data.length + 2) (h.bundle (some { b with buffer := b.buffer ++ data }))
  unfold loadBlock
  split
  · simp [h]
  · next e => exact (e ▸ k : LStays a (.more _))
  · next e =>
    rw [e] at k
    have k : Stays a _ := k
    dsimp only
    (repeat' split) <;> simp [k]

@[simp] theorem loadBundleBlock_stays {p : Packet} (h : Stays a s) : VStays a (loadBundleBlock p s) := by
  unfold loadBundleBlock
  split <;> simp [h]

@[simp] theorem readSignal_stays {p : Packet} (h : Stays a s) : VStays a (readSignal p s) := by
  unfold readSignal
  dsimp only
  (repeat' split) <;> simp [h]

@[simp] theorem getRouteStats_stays {p : Packet} (h : Stays a s) : VStays a (getRouteStats p s) := by
  simp [getRouteStats, h]

end Sys2Proof.Machine

end

