-- ==== Sys2Proof/Proofs/LatchedHost.lean ====
section
/-!
PROOFS. The host interface and the contexts keep the latched loads off.
-/

namespace Sys2Proof.Machine

variable {a s : State}

/-! ### Machine/HostRings.lean -/

@[simp] theorem dropReplies_stays {c : Nat} : Stays a (dropReplies c s) ↔ Stays a s := by
  simp [dropReplies]

@[simp] theorem dropEvents_stays {c : Nat} : Stays a (dropEvents c s) ↔ Stays a s := by
  simp [dropEvents]

@[simp] theorem dropItems_stays {c k : Nat} : Stays a (dropItems c k s) ↔ Stays a s := by
  simp [dropItems]

@[simp] theorem dropQueued_stays {c k : Nat} : Stays a (dropQueued c k s) ↔ Stays a s := by
  simp [dropQueued]

@[simp] theorem discardDoorbell_stays {c k : Nat} {v from_ bound : Word} :
    Stays a (discardDoorbell c k v from_ bound s) ↔ Stays a s := by
  simp [discardDoorbell]

@[simp] theorem doorbell_stays {c k : Nat} {v : Word} : Stays a (doorbell c k v s) ↔ Stays a s := by
  simp [doorbell]

@[simp] theorem execProducerDoorbellWrite_stays {c : Fin 64} {k : Fin 36} {value : Word} (h : Stays a s) :
    OStays a (execProducerDoorbellWrite c k value s) := by
  simp [execProducerDoorbellWrite, h]

@[simp] theorem execConsumerDoorbellWrite_stays {c : Fin 64} {k : Fin 36} {value : Word} (h : Stays a s) :
    OStays a (execConsumerDoorbellWrite c k value s) := by
  simp [execConsumerDoorbellWrite, h]

@[simp] theorem refuseRing_stays {c k err : Nat} : Stays a (refuseRing c k err s) ↔ Stays a s := by
  simp [refuseRing]

@[simp] theorem applyShare_stays {c k : Nat} : Stays a (applyShare c k s) ↔ Stays a s := by
  simp [applyShare]

@[simp] theorem applyDepths_stays {c k : Nat} : Stays a (applyDepths c k s) ↔ Stays a s := by
  simp [applyDepths]

@[simp] theorem startCredit_stays {c : Fin 64} {k : Nat} : Stays a (startCredit c k s) ↔ Stays a s := by
  simp [startCredit]

@[simp] theorem enableRing_stays {c : Fin 64} {k : Nat} : Stays a (enableRing c k s) ↔ Stays a s := by
  simp [enableRing]

@[simp] theorem writeEnable_stays {c : Fin 64} {k : Nat} : Stays a (writeEnable c k s) ↔ Stays a s := by
  simp [writeEnable]

@[simp] theorem stopRing_stays {c k : Nat} {dma : Bool} : Stays a (stopRing c k dma s) ↔ Stays a s := by
  simp [stopRing]

@[simp] theorem writeDisable_stays {c k : Nat} : Stays a (writeDisable c k s) ↔ Stays a s := by
  simp [writeDisable]

@[simp] theorem writeCtrl_stays {c : Fin 64} {k : Nat} {v : Word} : Stays a (writeCtrl c k v s) ↔ Stays a s := by
  simp [writeCtrl]

@[simp] theorem execRingEnable_stays {c : Fin 64} {k : Fin 36} {ctrl : Word} (h : Stays a s) :
    OStays a (execRingEnable c k ctrl s) := by
  simp [execRingEnable, h]

@[simp] theorem execRingDisable_stays {c : Fin 64} {k : Fin 36} {ctrl : Word} (h : Stays a s) :
    OStays a (execRingDisable c k ctrl s) := by
  simp [execRingDisable, h]

@[simp] theorem execRingStopBathEnd_stays {c : Fin 64} {k : Fin 36} (h : Stays a s) :
    OStays a (execRingStopBathEnd c k s) := by
  simp [execRingStopBathEnd, h]

@[simp] theorem clearDmaErr_stays {c : Fin 64} {k : Nat} : Stays a (clearDmaErr c k s) ↔ Stays a s := by
  simp [clearDmaErr]

@[simp] theorem execDmaErrClear_stays {c : Fin 64} {k : Fin 36} (h : Stays a s) : OStays a (execDmaErrClear c k s) := by
  simp [execDmaErrClear, h]

@[simp] theorem execDmaReadError_stays {c : Fin 64} {k : Fin 36} {entry : Option (List Byte)} (h : Stays a s) :
    OStays a (execDmaReadError c k entry s) := by
  simp [execDmaReadError, h]

@[simp] theorem execMsixHoldoffEnd_stays {c : Fin 64} {k : Fin 36} (h : Stays a s) :
    OStays a (execMsixHoldoffEnd c k s) := by
  unfold execMsixHoldoffEnd
  dsimp only
  (repeat' split) <;> simp [h]

/-! ### Machine/HostCmds.lean -/

@[simp] theorem clearIrq_stays {c : Nat} {v : Word} : Stays a (clearIrq c v s) ↔ Stays a s := by
  simp [clearIrq]

@[simp] theorem execIrqCauseClear_stays {c : Fin 64} {value : Word} (h : Stays a s) :
    OStays a (execIrqCauseClear c value s) := by
  simp [execIrqCauseClear, h]

@[simp] theorem writeIrqMask_stays {c : Nat} {v : Word} : Stays a (writeIrqMask c v s) ↔ Stays a s := by
  simp [writeIrqMask]

@[simp] theorem execIrqMaskWrite_stays {c : Fin 64} {value : Word} (h : Stays a s) :
    OStays a (execIrqMaskWrite c value s) := by
  simp [execIrqMaskWrite, h]

@[simp] theorem clearWake_stays {high : Bool} {v : Word} : Stays a (clearWake high v s) ↔ Stays a s := by
  simp [clearWake]

@[simp] theorem execWakeStatusClear_stays {bySafety high : Bool} {value : Word} (h : Stays a s) :
    OStays a (execWakeStatusClear bySafety high value s) := by
  simp [execWakeStatusClear, h]

@[simp] theorem execGenTimeLoRead_stays {c : Fin 64} (h : Stays a s) : OStays a (execGenTimeLoRead c s) := by
  simp [execGenTimeLoRead, h]

@[simp] theorem winFinding_stays {c offset count : Nat} {found : Option Nat} :
    Stays a (winFinding c offset count found s) ↔ Stays a s := by
  unfold winFinding
  split <;> simp

@[simp] theorem takeLock_stays {c : Nat} : Stays a (takeLock c s) ↔ Stays a s := by
  simp [takeLock]

@[simp] theorem windowRead_stays {c offset count : Nat} {found : Option Nat} :
    Stays a (windowRead c offset count found s) ↔ Stays a s := by
  simp [windowRead]

@[simp] theorem clearCounter_stays {c off : Nat} : Stays a (clearCounter c off s) ↔ Stays a s := by
  simp [clearCounter]

@[simp] theorem readEffect_stays {c off : Nat} : Stays a (readEffect c off s) ↔ Stays a s := by
  simp [readEffect]

@[simp] theorem barWords_stays {c n off : Nat} : Stays a (barWords c n off s).2 ↔ Stays a s := by
  induction n generalizing off s with
  | zero => exact Iff.rfl
  | succ n ih => exact ih.trans readEffect_stays

@[simp] theorem hostRead_stays {c offset count : Nat} {found : Option Nat} :
    Stays a (hostRead c offset count found s) ↔ Stays a s := by
  simp [hostRead]

@[simp] theorem execClearOnReadCounterRead_stays {c : Fin 64} {offset count : Nat} {found : Option Nat} (h : Stays a s) :
    OStays a (execClearOnReadCounterRead c offset count found s) := by
  simp [execClearOnReadCounterRead, h]

@[simp] theorem writeSelect_stays {c : Nat} {v : Word} : Stays a (writeSelect c v s) ↔ Stays a s := by
  simp [writeSelect]

@[simp] theorem execWinSelectWrite_stays {c : Fin 64} {value : Word} (h : Stays a s) :
    OStays a (execWinSelectWrite c value s) := by
  simp [execWinSelectWrite, h]

@[simp] theorem execWindowLockTake_stays {c : Fin 64} {offset count : Nat} {found : Option Nat} (h : Stays a s) :
    OStays a (execWindowLockTake c offset count found s) := by
  simp [execWindowLockTake, h]

@[simp] theorem execWindowLockRelease_stays {c : Fin 64} {offset count : Nat} {found : Option Nat} (h : Stays a s) :
    OStays a (execWindowLockRelease c offset count found s) := by
  simp [execWindowLockRelease, h]

@[simp] theorem execWindowLockTimeout_stays {c : Fin 64} (h : Stays a s) : OStays a (execWindowLockTimeout c s) := by
  simp [execWindowLockTimeout, h]

@[simp] theorem writeQcfg_stays {c : Fin 64} {k off : Nat} {v : Word} : Stays a (writeQcfg c k off v s) ↔ Stays a s := by
  simp [writeQcfg]

@[simp] theorem writeBlock_stays {c : Fin 64} {off : Nat} {v : Word} : Stays a (writeBlock c off v s) ↔ Stays a s := by
  unfold writeBlock
  split <;> simp

@[simp] theorem writeWord_stays {c : Fin 64} {off : Nat} {v : Word} : Stays a (writeWord c off v s) ↔ Stays a s := by
  simp [writeWord]

@[simp] theorem execRegisterWrite_stays {c : Fin 64} {offset : Nat} {words : List Word} {allBytes : Bool} (h : Stays a s) :
    OStays a (execRegisterWrite c offset words allBytes s) := by
  simp [execRegisterWrite, h]

/-! ### Machine/HostDma.lean -/

@[simp] theorem putEntry_stays {c k n : Nat} {bytes : List Byte} : Stays a (putEntry c k n bytes s) ↔ Stays a s := by
  simp [putEntry]

@[simp] theorem putReply_stays {c : Nat} : Stays a (putReply c s) ↔ Stays a s := by
  unfold putReply
  split <;> simp

@[simp] theorem putEvent_stays {c : Nat} : Stays a (putEvent c s) ↔ Stays a s := by
  unfold putEvent
  split <;> simp

@[simp] theorem hardwareReply_stays {p : Packet} : Stays a (hardwareReply p s) ↔ Stays a s := by
  simp [hardwareReply]

@[simp] theorem arrivePacket_stays {p : Packet} : Stays a (arrivePacket p s) ↔ Stays a s := by
  simp [arrivePacket]

@[simp] theorem loseReply_stays {c : Nat} : Stays a (loseReply c s) ↔ Stays a s := by
  simp [loseReply]

@[simp] theorem execReplyRingWrite_stays {c : Fin 64} {parity : Bool} (h : Stays a s) :
    OStays a (execReplyRingWrite c parity s) := by
  simp [execReplyRingWrite, h]

@[simp] theorem loseEvent_stays {c : Nat} : Stays a (loseEvent c s) ↔ Stays a s := by
  simp [loseEvent]

@[simp] theorem execEventRingWrite_stays {c : Fin 64} {parity : Bool} (h : Stays a s) :
    OStays a (execEventRingWrite c parity s) := by
  simp [execEventRingWrite, h]

@[simp] theorem loseRx_stays {c : Nat} : Stays a (loseRx c s) ↔ Stays a s := by
  unfold loseRx
  split <;> simp

@[simp] theorem putRx_stays {c : Nat} : Stays a (putRx c s) ↔ Stays a s := by
  unfold putRx
  split <;> simp

@[simp] theorem execRxRingWrite_stays {c : Fin 64} {parity : Bool} (h : Stays a s) :
    OStays a (execRxRingWrite c parity s) := by
  simp [execRxRingWrite, h]

@[simp] theorem skipLost_stays {c k n : Nat} : Stays a (skipLost c k n s) ↔ Stays a s := by
  induction n generalizing s with
  | zero => exact Iff.rfl
  | succ n ih => simp [skipLost, ih]

@[simp] theorem takeDescriptor_stays {c k : Nat} {d : Descriptor} {payload : List Byte} :
    Stays a (takeDescriptor c k d payload s) ↔ Stays a s := by
  unfold takeDescriptor
  (repeat' split) <;> simp

@[simp] theorem execDescriptorLanding_stays {c : Fin 64} {k : Fin 16} {entry payload : List Byte} {parity : Bool} (h : Stays a s) :
    OStays a (execDescriptorLanding c k entry payload parity s) := by
  simp [execDescriptorLanding, h]

@[simp] theorem execCommandEntryFetched_stays {c : Fin 64} {entry : List Byte} {parity : Bool} (h : Stays a s) :
    OStays a (execCommandEntryFetched c entry parity s) := by
  simp [execCommandEntryFetched, h]

@[simp] theorem badOpcode_stays {p : Packet} : VStays a (badOpcode p s) := by
  simp [badOpcode]

@[simp] theorem execUndefinedOpcodeCommand_stays {p : Packet} (h : Stays a s) :
    OStays a (execUndefinedOpcodeCommand p s) := by
  simp [execUndefinedOpcodeCommand, h]

/-! ### Machine/Contexts.lean -/

@[simp] theorem discardRings_stays {c : Fin 64} : Stays a (discardRings c s) ↔ Stays a s := by
  simp [discardRings]

@[simp] theorem resetFn_stays {c : Fin 64} {torn : Bool} : Stays a (resetFn c torn s) ↔ Stays a s := by
  simp [resetFn]

@[simp] theorem withdrawAll_stays {c : Nat} : Stays a (withdrawAll c s) ↔ Stays a s := by
  simp [withdrawAll]

@[simp] theorem cancelAll_stays {c : Nat} : Stays a (cancelAll c s) ↔ Stays a s :=
  forEach_stays_iff fun _ _ => by split <;> simp

@[simp] theorem startDeparture_stays {c : Fin 64} {keep : Bool} : Stays a (startDeparture c keep s) ↔ Stays a s := by
  simp [startDeparture]

@[simp] theorem releaseAll_stays {c : Nat} : Stays a (releaseAll c s) ↔ Stays a s := by
  simp [releaseAll]

@[simp] theorem lastWrites_discardTaken_stays {c : Fin 64} : Stays a (lastWrites.discardTaken c s) ↔ Stays a s := by
  simp [lastWrites.discardTaken]

@[simp] theorem lastWrites_stays {c : Fin 64} : Stays a (lastWrites c s) ↔ Stays a s := by
  simp [lastWrites]

@[simp] theorem arriveCtx_stays {c : Nat} : Stays a (arriveCtx c s) ↔ Stays a s := by
  simp [arriveCtx]

@[simp] theorem execContextStopBathEnd_stays {c : Fin 64} (h : Stays a s) : OStays a (execContextStopBathEnd c s) := by
  simp [execContextStopBathEnd, h]

@[simp] theorem fnGone_stays {c : Fin 64} : Stays a (fnGone c s) ↔ Stays a s := by
  unfold fnGone
  split <;> simp

@[simp] theorem fnCame_stays {c : Nat} : Stays a (fnCame c s) ↔ Stays a s := by
  unfold fnCame
  split <;> simp

@[simp] theorem setVfs_stays {enable : Bool} {n : Nat} : Stays a (setVfs enable n s) ↔ Stays a s := by
  simp [setVfs]

@[simp] theorem execVfEnable_stays {numVfs : Fin 64} (h : Stays a s) : OStays a (execVfEnable numVfs s) := by
  simp [execVfEnable, h]

@[simp] theorem execVfDisable_stays (h : Stays a s) : OStays a (execVfDisable s) := by
  simp [execVfDisable, h]

@[simp] theorem execVfFlr_stays {c : Fin 64} (h : Stays a s) : OStays a (execVfFlr c s) := by
  unfold execVfFlr
  (repeat' split) <;> simp [h]

@[simp] theorem execVfFlrEnd_stays {c : Fin 64} (h : Stays a s) : OStays a (execVfFlrEnd c s) := by
  unfold execVfFlrEnd
  dsimp only
  (repeat' split) <;> simp [h]

@[simp] theorem withCtx_stays {p : Packet} {k : Nat → Verdict} (hk : ∀ x, VStays a (k x)) : VStays a (withCtx p k) := by
  simp [withCtx, hk]

@[simp] theorem getContext_stays {p : Packet} (h : Stays a s) : VStays a (getContext p s) := by
  simp [getContext, h]

@[simp] theorem givePages_stays {l : List Nat} {dest : Option Nat} : Stays a (givePages l dest s) ↔ Stays a s := by
  simp [givePages]

@[simp] theorem movePages_stays {c q : Nat} : Stays a (movePages c q s) ↔ Stays a s := by
  simp [movePages]

@[simp] theorem setContextQuota_stays {p : Packet} (h : Stays a s) : VStays a (setContextQuota p s) := by
  simp [setContextQuota, h]

@[simp] theorem setContextChannels_stays {p : Packet} (h : Stays a s) : VStays a (setContextChannels p s) := by
  unfold setContextChannels
  dsimp only
  (repeat' split) <;> simp [h]

@[simp] theorem setContextRights_stays {p : Packet} (h : Stays a s) : VStays a (setContextRights p s) := by
  simp [setContextRights, h]

@[simp] theorem quiesceContext_stays {p : Packet} (h : Stays a s) : VStays a (quiesceContext p s) := by
  simp [quiesceContext, h]

end Sys2Proof.Machine

end

