-- ==== Sys2Proof/Proofs/LatchedStack.lean ====
section
/-!
PROOFS. Links, firmware update, contact sheets and time steps keep the latched loads off.
-/

namespace Sys2Proof.Machine

variable {a s : State}

/-! ### Machine/LinkOps.lean -/

@[simp] theorem endSession_stays {reason : Nat} : Stays a (endSession reason s) ↔ Stays a s := by
  unfold endSession
  split <;> simp

@[simp] theorem linkEvent_stays {p : Port} {old : LinkState} : Stays a (linkEvent p old s) ↔ Stays a s := by
  simp [linkEvent]

@[simp] theorem chooseUpstream_stays : Stays a (chooseUpstream s) ↔ Stays a s := by
  simp [chooseUpstream]

@[simp] theorem changeUpstream_stays : Stays a (changeUpstream s) ↔ Stays a s := by
  unfold changeUpstream
  dsimp only
  (repeat' split) <;> simp

@[simp] theorem modDev_stays {d : Nat} {f : Device → Device} : Stays a (modDev d f s) ↔ Stays a s := by
  simp [modDev]

@[simp] theorem clearPaths_stays {p : Port} : Stays a (clearPaths p s) ↔ Stays a s := by
  simp [clearPaths]

@[simp] theorem setLink_stays {p : Port} {st : LinkState} {reason : Nat} : Stays a (setLink p st reason s) ↔ Stays a s := by
  simp [setLink]

@[simp] theorem refigureCross_stays : Stays a (refigureCross s) ↔ Stays a s := by
  simp [refigureCross]

@[simp] theorem setRing_stays {ring : Bool} : Stays a (setRing ring s) ↔ Stays a s := by
  simp [setRing]

@[simp] theorem targetLost_stays {d : Nat} : Stays a (targetLost d s) ↔ Stays a s := by
  simp [targetLost]

@[simp] theorem deviceLeft_stays {d : Nat} : Stays a (deviceLeft d s) ↔ Stays a s := by
  simp [deviceLeft]

@[simp] theorem losePaths_stays : Stays a (losePaths s) ↔ Stays a s := by
  simp [losePaths]

@[simp] theorem leaveUp_stays {p : Port} : Stays a (leaveUp p s) ↔ Stays a s := by
  simp [leaveUp]

@[simp] theorem redirect_stays {p : Port} : Stays a (redirect p s) ↔ Stays a s := by
  simp [redirect]

@[simp] theorem enterConflict_stays {p : Port} {reason : Nat} : Stays a (enterConflict p reason s) ↔ Stays a s := by
  simp [enterConflict]

@[simp] theorem tableEntry_stays {d : Nat} {new : Device} : Stays a (tableEntry d new s) ↔ Stays a s := by
  simp [tableEntry]

@[simp] theorem joined0D02_stays {d : Nat} {old new : Device} : Stays a (joined0D02 d old new s) ↔ Stays a s := by
  simp [joined0D02]

@[simp] theorem enterUp_stays {p : Port} {q : Partner} : Stays a (enterUp p q s) ↔ Stays a s := by
  simp [enterUp]

@[simp] theorem linkDown_stays {p : Port} {reason : Nat} : Stays a (linkDown p reason s) ↔ Stays a s := by
  simp [linkDown]

@[simp] theorem takeLinkHeader_stays {p : Port} {f : LinkRx} : Stays a (takeLinkHeader p f s) ↔ Stays a s := by
  simp [takeLinkHeader]

@[simp] theorem oversizeFrame_stays {p : Port} {f : LinkFrame} : Stays a (oversizeFrame p f s) ↔ Stays a s := by
  simp [oversizeFrame]

@[simp] theorem takeCells_stays {p : Port} {f : LinkFrame} : Stays a (takeCells p f s) ↔ Stays a s := by
  simp [takeCells]

@[simp] theorem settleDebt_stays {p : Port} : Stays a (settleDebt p s) ↔ Stays a s := by
  simp [settleDebt]

@[simp] theorem takeFrameFrom_stays {p : Port} {t : FrameType} {parity : Bool} {f : LinkRx}
    {k : LinkFrame → State → State} (hk : ∀ x t, Stays a t → Stays a (k x t)) (h : Stays a s) :
    Stays a (takeFrameFrom p t parity f k s) := by
  simp [takeFrameFrom, hk, h]

@[simp] theorem takeFrame_stays {p : Port} {t : FrameType} {f : LinkRx} {k : LinkFrame → State → State}
    (hk : ∀ x t, Stays a t → Stays a (k x t)) (h : Stays a s) :
    Stays a (takeFrame p t f k s) := by
  simp +contextual [takeFrame, hk, h]

@[simp] theorem relay_stays {p : Port} {f : LinkFrame} : Stays a (relay p f s) ↔ Stays a s := by
  unfold relay
  extract_lets out
  cases out <;> simp

@[simp] theorem joinSegment_stays {f : LinkFrame} {k : List Byte → State → State}
    (hk : ∀ x t, Stays a t → Stays a (k x t)) (h : Stays a s) :
    Stays a (joinSegment f k s) := by
  simp [joinSegment, hk, h]

@[simp] theorem enterDevice_stays {d : Nat} {new : Device} : Stays a (enterDevice d new s) ↔ Stays a s := by
  simp [enterDevice]

@[simp] theorem tableMoved_stays {before : State} : Stays a (tableMoved before s) ↔ Stays a s := by
  simp [tableMoved]

/-! ### Machine/LinkEvents.lean -/

@[simp] theorem linkBathEvent_stays {code : Nat} {p : Port} {src : Source} :
    Stays a (linkBathEvent code p src s) ↔ Stays a s := by
  simp [linkBathEvent]

@[simp] theorem execLinkUp_stays {port : Port} {partner : Partner} (h : Stays a s) :
    OStays a (execLinkUp port partner s) := by
  simp [execLinkUp, h]

@[simp] theorem execLinkDown_stays {port : Port} {reason : Nat} (h : Stays a s) : OStays a (execLinkDown port reason s) := by
  simp [execLinkDown, h]

@[simp] theorem execLinkConflictRetry_stays {port : Port} (h : Stays a s) : OStays a (execLinkConflictRetry port s) := by
  simp [execLinkConflictRetry, h]

@[simp] theorem execLinkStopBathEnd_stays {port : Port} (h : Stays a s) : OStays a (execLinkStopBathEnd port s) := by
  unfold execLinkStopBathEnd
  dsimp only
  (repeat' split) <;> simp [h]

@[simp] theorem execTimeFrameReceived_stays {port : Port} {f : LinkRx} (h : Stays a s) :
    OStays a (execTimeFrameReceived port f s) := by
  simp [execTimeFrameReceived, h]

@[simp] theorem takeRoute_stays {valid : Nat} {f : LinkFrame} : Stays a (takeRoute valid f s) ↔ Stays a s := by
  unfold takeRoute
  dsimp only
  (repeat' split) <;> simp

@[simp] theorem relayRoute_stays {p : Port} {f : LinkFrame} : Stays a (relayRoute p f s) ↔ Stays a s := by
  simp [relayRoute]

@[simp] theorem execRouteFrameReceived_stays {port : Port} {f : LinkRx} {parity : Bool} {valid : Nat} (h : Stays a s) :
    OStays a (execRouteFrameReceived port f parity valid s) := by
  simp [execRouteFrameReceived, h]

@[simp] theorem execCmdFrameReceived_stays {port : Port} {f : LinkRx} (h : Stays a s) :
    OStays a (execCmdFrameReceived port f s) := by
  simp +contextual [execCmdFrameReceived, h]

@[simp] theorem takeReply_stays {src : Nat} {b : List Byte} : Stays a (takeReply src b s) ↔ Stays a s := by
  unfold takeReply
  split <;> simp

@[simp] theorem execReplyFrameReceived_stays {port : Port} {f : LinkRx} (h : Stays a s) :
    OStays a (execReplyFrameReceived port f s) := by
  simp +contextual [execReplyFrameReceived, h]

@[simp] theorem execEventFrameReceived_stays {port : Port} {f : LinkRx} (h : Stays a s) :
    OStays a (execEventFrameReceived port f s) := by
  simp [execEventFrameReceived, h]

@[simp] theorem takeAsk_stays {p : Port} {f : LinkFrame} : Stays a (takeAsk p f s) ↔ Stays a s := by
  simp [takeAsk]

@[simp] theorem sendTable_stays : Stays a (sendTable s) ↔ Stays a s :=
  forRange_stays_iff fun _ _ => by
    split
    · exact Iff.rfl
    · split <;> simp

@[simp] theorem takeAnswer_stays {p : Port} {f : LinkFrame} : Stays a (takeAnswer p f s) ↔ Stays a s := by
  simp [takeAnswer]

@[simp] theorem refuseNeighbour_stays {d : Nat} {new : Device} : Stays a (refuseNeighbour d new s) ↔ Stays a s :=
  forEach_stays_iff fun _ _ => by split <;> simp

@[simp] theorem takeEntry_stays {ring : Bool} {size d : Nat} {own new : Device} :
    Stays a (takeEntry ring size d own new s) ↔ Stays a s := by
  simp [takeEntry]

@[simp] theorem takeCopy_stays {p : Port} {f : LinkFrame} : Stays a (takeCopy p f s) ↔ Stays a s := by
  simp [takeCopy]

@[simp] theorem execDiscoverFrameReceived_stays {port : Port} {f : LinkRx} (h : Stays a s) :
    OStays a (execDiscoverFrameReceived port f s) :=
  next_stays.mpr (takeFrame_stays (fun _ _ h => by split <;> simp [h]) h)

@[simp] theorem execIdleFrameReceived_stays {port : Port} {f : LinkRx} (h : Stays a s) :
    OStays a (execIdleFrameReceived port f s) := by
  simp [execIdleFrameReceived, h]

@[simp] theorem execReplayTimeout_stays {port : Port} (h : Stays a s) : OStays a (execReplayTimeout port s) := by
  unfold execReplayTimeout
  dsimp only
  (repeat' split) <;> simp [h]

@[simp] theorem judgeSilent_stays {d : Nat} : Stays a (judgeSilent d s) ↔ Stays a s := by
  simp [judgeSilent]

@[simp] theorem clearWalls_stays : Stays a (clearWalls s) ↔ Stays a s := by
  simp [clearWalls]

@[simp] theorem endRound_stays : Stays a (endRound s) ↔ Stays a s := by
  simp [endRound]

@[simp] theorem startRound_stays : Stays a (startRound s) ↔ Stays a s := by
  simp [startRound]

@[simp] theorem execDiscoverRound_stays (h : Stays a s) : OStays a (execDiscoverRound s) := by
  simp [execDiscoverRound, h]

@[simp] theorem execLinkTrainingFailed_stays {port : Port} {reason : Nat} (h : Stays a s) :
    OStays a (execLinkTrainingFailed port reason s) := by
  simp [execLinkTrainingFailed, h]

/-! ### Machine/LinkCmds.lean -/

@[simp] theorem getStack_stays {p : Packet} (h : Stays a s) : VStays a (getStack p s) := by
  unfold getStack
  dsimp only
  (repeat' split) <;> simp [h]

@[simp] theorem configLink_stays {p : Packet} (h : Stays a s) : VStays a (configLink p s) := by
  unfold configLink
  split <;> simp [h]

@[simp] theorem withPort_stays {p : Packet} {k : Port → Verdict} (hk : ∀ x, VStays a (k x)) : VStays a (withPort p k) := by
  unfold withPort
  split <;> simp [hk]

@[simp] theorem enableLink_stays {p : Packet} (h : Stays a s) : VStays a (enableLink p s) :=
  withPort_stays fun q => by split <;> simp [h]

@[simp] theorem startLinkBath_stays {q : Port} {by_ : Source} : Stays a (startLinkBath q by_ s) ↔ Stays a s := by
  simp [startLinkBath]

@[simp] theorem disableLink_stays {p : Packet} (h : Stays a s) : VStays a (disableLink p s) :=
  withPort_stays fun q => by
    dsimp only
    split <;> simp [h]

/-! ### Machine/UpdateOps.lean -/

@[simp] theorem modMram_stays {f : Mram → Mram} : Stays a (modMram f s) ↔ Stays a s := by
  simp [modMram]

@[simp] theorem modSec_stays {f : Security → Security} : Stays a (modSec f s) ↔ Stays a s := by
  simp [modSec]

@[simp] theorem recordRejected_stays {ver reason : Nat} : Stays a (recordRejected ver reason s) ↔ Stays a s := by
  simp [recordRejected]

@[simp] theorem runMode_stays {ch m : Nat} : Stays a (runMode ch m s) ↔ Stays a s := by
  simp [runMode]

@[simp] theorem enterSafelight_stays : Stays a (enterSafelight s) ↔ Stays a s := by
  simp [enterSafelight]

@[simp] theorem endRecovery_stays : Stays a (endRecovery s) ↔ Stays a s := by
  simp [endRecovery]

@[simp] theorem startProof_stays : Stays a (startProof s) ↔ Stays a s := by
  unfold startProof
  dsimp only
  (repeat' split) <;> simp

@[simp] theorem fallbackEvent_stays : Stays a (fallbackEvent s) ↔ Stays a s := by
  simp [fallbackEvent]

@[simp] theorem leaveSafelight_stays : Stays a (leaveSafelight s) ↔ Stays a s := by
  simp [leaveSafelight]

@[simp] theorem enterRecovery_stays : Stays a (enterRecovery s) ↔ Stays a s := by
  simp [enterRecovery]

@[simp] theorem startFixed_stays : Stays a (startFixed s) ↔ Stays a s := by
  simp [startFixed]

@[simp] theorem refuseStaged_stays : Stays a (refuseStaged s) ↔ Stays a s := by
  simp [refuseStaged]

@[simp] theorem deliverLate_stays : Stays a (deliverLate s) ↔ Stays a s := by
  simp [deliverLate]

@[simp] theorem startTimer_stays : Stays a (startTimer s) ↔ Stays a s := by
  simp [startTimer]

@[simp] theorem execCommandPauseEnd_stays {slotGood : Bool} (h : Stays a s) : OStays a (execCommandPauseEnd slotGood s) := by
  unfold execCommandPauseEnd
  split <;> simp [h]

@[simp] theorem execProofModeStart_stays (h : Stays a s) : OStays a (execProofModeStart s) := by
  simp [execProofModeStart, h]

@[simp] theorem fixImage_stays : Stays a (fixImage s) ↔ Stays a s := by
  unfold fixImage
  dsimp only
  (repeat' split) <;> simp

@[simp] theorem execFix_stays {selfTests : Bool} (h : Stays a s) : OStays a (execFix selfTests s) := by
  unfold execFix
  split <;> simp [h]

@[simp] theorem startFallback_stays {reason : Nat} : Stays a (startFallback reason s) ↔ Stays a s := by
  simp [startFallback]

@[simp] theorem execConfirmTimerExpiry_stays (h : Stays a s) : OStays a (execConfirmTimerExpiry s) := by
  unfold execConfirmTimerExpiry
  split <;> simp [h]

/-! ### Machine/UpdateCmds.lean -/

@[simp] theorem execSessionIdleTimeout_stays (h : Stays a s) : OStays a (execSessionIdleTimeout s) := by
  unfold execSessionIdleTimeout
  split <;> simp [h]

@[simp] theorem setHalf_stays {src : Source} {hdr : Option (List Byte)} : Stays a (setHalf src hdr s) ↔ Stays a s := by
  unfold setHalf
  split <;> simp

@[simp] theorem refuseWith_stays {p : Packet} {status detail : Nat} (h : Stays a s) :
    VStays a (refuseWith p s status detail) := by
  simp [refuseWith, h]

@[simp] theorem openNow_stays {src : Source} {hdr : List Byte} : Stays a (openNow src hdr s) ↔ Stays a s := by
  simp [openNow]

@[simp] theorem openPart1_stays {p : Packet} (h : Stays a s) : VStays a (openPart1 p s) := by
  unfold openPart1
  dsimp only
  (repeat' split) <;> simp [h]

@[simp] theorem openSession_stays {p : Packet} (h : Stays a s) : VStays a (openSession p s) := by
  simp [openSession, h]

@[simp] theorem withSession_stays {p : Packet} {k : Session → Verdict} (hk : ∀ x, VStays a (k x)) :
    VStays a (withSession p s k) := by
  unfold withSession
  split <;> simp [hk]

@[simp] theorem modSession_stays {f : Session → Session} : Stays a (modSession f s) ↔ Stays a s := by
  simp [modSession]

@[simp] theorem completeBody_stays {x : Session} (h : Stays a s) : VStays a (completeBody x s) := by
  simp [completeBody, h]

@[simp] theorem writeImageBlock_stays {p : Packet} (h : Stays a s) : VStays a (writeImageBlock p s) := by
  simp [writeImageBlock, h]

@[simp] theorem closeSession_stays {p : Packet} (h : Stays a s) : VStays a (closeSession p s) := by
  simp [closeSession, h]

@[simp] theorem activateNow_stays {p : Packet} {confirm minProof : Nat} :
    Stays a (activateNow p confirm minProof s) ↔ Stays a s := by
  simp [activateNow]

@[simp] theorem activate_stays {p : Packet} (h : Stays a s) : VStays a (activate p s) := by
  unfold activate
  (repeat' split) <;> simp [h]

@[simp] theorem approve_stays {p : Packet} (h : Stays a s) : VStays a (approve p s) := by
  unfold approve
  split <;> simp [h]

@[simp] theorem veto_stays {p : Packet} (h : Stays a s) : VStays a (veto p s) := by
  simp [veto, h]

@[simp] theorem rejectImage_stays {p : Packet} (h : Stays a s) : VStays a (rejectImage p s) := by
  unfold rejectImage
  (repeat' split) <;> simp [h]

@[simp] theorem guardReply_stays (h : Stays a s) : VStays a (guardReply s) := by
  simp [guardReply, h]

@[simp] theorem setOwnerLock_stays {p : Packet} (h : Stays a s) : VStays a (setOwnerLock p s) := by
  simp [setOwnerLock, h]

@[simp] theorem clearOwnerLock_stays {p : Packet} (h : Stays a s) : VStays a (clearOwnerLock p s) := by
  simp [clearOwnerLock, h]

@[simp] theorem getSecurity_stays {p : Packet} (h : Stays a s) : VStays a (getSecurity p s) := by
  simp [getSecurity, h]

/-! ### Machine/ContactSheet.lean -/

@[simp] theorem acknowledge_stays {ack : Nat} : Stays a (acknowledge ack s) ↔ Stays a s := by
  unfold acknowledge
  dsimp only
  split <;> simp

@[simp] theorem readFaultLog_stays {p : Packet} (h : Stays a s) : VStays a (readFaultLog p s) := by
  simp [readFaultLog, h]

@[simp] theorem captureSheet_stays {n : Nat} {src : Source} : Stays a (captureSheet n src s) ↔ Stays a s := by
  simp [captureSheet]

@[simp] theorem takeContactSheet_take_stays {p : Packet} {n instant : Nat} (h : Stays a s) :
    VStays a (takeContactSheet.take p s n instant) := by
  simp [takeContactSheet.take, h]

@[simp] theorem takeContactSheet_stays {p : Packet} (h : Stays a s) : VStays a (takeContactSheet p s) := by
  unfold takeContactSheet
  dsimp only
  (repeat' split) <;> simp [h]

@[simp] theorem captureArmed_stays {n : Nat} : Stays a (captureArmed n s) ↔ Stays a s := by
  unfold captureArmed
  split <;> simp

@[simp] theorem execContactSheetCapture_stays {bank : Fin 2} (h : Stays a s) :
    OStays a (execContactSheetCapture bank s) := by
  unfold execContactSheetCapture
  split <;> simp [h]

@[simp] theorem captureDue_stays : Stays a (captureDue s) ↔ Stays a s :=
  forEach_stays_iff fun _ _ => by split <;> simp

@[simp] theorem readContactSheet_stays {p : Packet} (h : Stays a s) : VStays a (readContactSheet p s) := by
  simp [readContactSheet, h]

@[simp] theorem execSheetBankRelease_stays {bank : Fin 2} (h : Stays a s) : OStays a (execSheetBankRelease bank s) := by
  simp [execSheetBankRelease, h]

/-! ### Machine/StepOps.lean -/

@[simp] theorem setAligned_stays {v : Bool} : Stays a (setAligned v s) ↔ Stays a s := by
  simp [setAligned]

@[simp] theorem stepEvent_stays {reason before : Nat} : Stays a (stepEvent reason before s) ↔ Stays a s := by
  simp [stepEvent]

@[simp] theorem endArmed_stays {reason : Nat} : Stays a (endArmed reason s) ↔ Stays a s := by
  simp [endArmed]

@[simp] theorem settleArmed_stays : Stays a (settleArmed s) ↔ Stays a s := by
  simp [settleArmed]

@[simp] theorem serveForward_stays : Stays a (serveForward s) ↔ Stays a s := by
  simp [serveForward]

@[simp] theorem stepTo_stays {v reason : Nat} : Stays a (stepTo v reason s) ↔ Stays a s := by
  simp [stepTo]

@[simp] theorem masterStep_stays {v reason : Nat} : Stays a (masterStep v reason s) ↔ Stays a s := by
  simp [masterStep]

@[simp] theorem applyArmed_stays {e : Nat} {a0 : PpsStep} : Stays a (applyArmed e a0 s) ↔ Stays a s := by
  simp [applyArmed]

@[simp] theorem execPpsInCapture_stays (h : Stays a s) : OStays a (execPpsInCapture s) := by
  unfold execPpsInCapture
  dsimp only
  (repeat' split) <;> simp [h]

@[simp] theorem execPpsStepLapse_stays (h : Stays a s) : OStays a (execPpsStepLapse s) := by
  unfold execPpsStepLapse
  split <;> simp [h]

@[simp] theorem steer_stays {off : Int} : Stays a (steer off s) ↔ Stays a s :=
  drawn_stays.trans stays_mk

@[simp] theorem judgeOffset_stays {off : Int} : Stays a (judgeOffset off s) ↔ Stays a s := by
  simp [judgeOffset]

@[simp] theorem execTimeExchange_stays {t1 t2 t3 t4 : Nat} (h : Stays a s) : OStays a (execTimeExchange t1 t2 t3 t4 s) := by
  unfold execTimeExchange
  split <;> simp [h]

@[simp] theorem execAlignmentTimeout_stays (h : Stays a s) : OStays a (execAlignmentTimeout s) := by
  simp [execAlignmentTimeout, h]

@[simp] theorem noteStep_stays {p : Port} {f : LinkFrame} : Stays a (noteStep p f s) ↔ Stays a s := by
  simp [noteStep]

@[simp] theorem takeStep_stays {p : Port} {f : LinkFrame} : Stays a (takeStep p f s) ↔ Stays a s := by
  simp [takeStep]

@[simp] theorem execStepFrameReceived_stays {port : Port} {f : LinkRx} (h : Stays a s) :
    OStays a (execStepFrameReceived port f s) := by
  simp [execStepFrameReceived, h]

@[simp] theorem stepTime_stays {p : Packet} (h : Stays a s) : VStays a (stepTime p s) := by
  unfold stepTime
  dsimp only
  (repeat' split) <;> simp [h]

end Sys2Proof.Machine

end

