-- ==== Sys2Proof/Proofs/LatchedSystem.lean ====
section
/-!
PROOFS. Power, restarts, scrubbing, the safety port and the idle step keep the latched loads off.
-/

namespace Sys2Proof.Machine

variable {a s : State}

/-! ### Machine/Power.lean -/

@[simp] theorem startTransition_arm_stays : Stays a (startTransition.arm s) ↔ Stays a s := by
  simp [startTransition.arm]

@[simp] theorem startTransition_stays {w : PowerState} {command : Option Packet} (h : Stays a s) :
    Stays a (startTransition w command s) := by
  unfold startTransition
  split <;> simp [h]

@[simp] theorem execResumeFromRetain_stays (h : Stays a s) : OStays a (execResumeFromRetain s) := by
  simp [execResumeFromRetain, h]

@[simp] theorem resumeBySp_stays {p : Packet} (h : Stays a s) : Stays a (resumeBySp p s) := by
  simp [resumeBySp, h]

@[simp] theorem execWakeDetected_stays {ch : Fin 64} (h : Stays a s) : OStays a (execWakeDetected ch s) := by
  simp [execWakeDetected, h]

@[simp] theorem resumeChan_stays {ch : Nat} : Stays a (resumeChan ch s) ↔ Stays a s := by
  simp [resumeChan]

@[simp] theorem replyPower_stays {t : Transition} : Stays a (replyPower t s) ↔ Stays a s := by
  unfold replyPower
  split <;> simp

@[simp] theorem commitActive_stays {t : Transition} (h : Stays a s) : Stays a (commitActive t s) := by
  simp [commitActive, h]

@[simp] theorem enterPower_stays {w : PowerState} : Stays a (enterPower w s) ↔ Stays a s := by
  simp [enterPower]

@[simp] theorem flushReplies_stays : Stays a (flushReplies s) ↔ Stays a s := by
  simp [flushReplies]

@[simp] theorem linkOff_stays {p : Port} : Stays a (linkOff p s) ↔ Stays a s := by
  unfold linkOff
  split <;> simp

@[simp] theorem parkLoad_stays {n : Nat} (h : Stays a s) : Stays a (parkLoad n s) := by
  simp [parkLoad, h]

@[simp] theorem parkLoads_stays (h : Stays a s) : Stays a (parkLoads s) := by
  have parked : Stays a (forRange loadCount parkLoad s) := forRange_stays (fun _ _ h => parkLoad_stays h) h
  simp [parkLoads, parked]

@[simp] theorem commitSleep_stays {t : Transition} (h : Stays a s) : Stays a (commitSleep t s) := by
  simp [commitSleep, h]

@[simp] theorem execPowerTransitionComplete_stays (h : Stays a s) : OStays a (execPowerTransitionComplete s) := by
  unfold execPowerTransitionComplete
  (repeat' split) <;> simp [h]

@[simp] theorem setPowerState_stays {p : Packet} (h : Stays a s) : VStays a (setPowerState p s) := by
  simp [setPowerState, h]

@[simp] theorem execSetPowerState_stays {p : Packet} (h : Stays a s) : OStays a (execSetPowerState p s) := by
  have run : Stays a (runCommand specSetPowerState setPowerState p s) := runCommand_stays (fun _ _ => setPowerState_stays) h
  simp [execSetPowerState, h, run]

@[simp] theorem setWake_stays {p : Packet} (h : Stays a s) : VStays a (setWake p s) := by
  simp [setWake, h]

/-! ### Machine/Resets.lean -/

@[simp] theorem execBrownOutRestart_stays (h : Stays a s) : OStays a (execBrownOutRestart s) := by
  unfold execBrownOutRestart
  split <;> simp [h]

@[simp] theorem logReset_stays : Stays a (logReset s) ↔ Stays a s := by
  simp [logReset]

@[simp] theorem hostGone_stays : Stays a (hostGone s) ↔ Stays a s := by
  unfold hostGone
  dsimp only
  (repeat' split) <;> simp

@[simp] theorem execPcieFundamentalReset_stays (h : Stays a s) : OStays a (execPcieFundamentalReset s) := by
  unfold execPcieFundamentalReset
  split <;> simp [h]

@[simp] theorem execAonStart_stays (h : Stays a s) : OStays a (execAonStart s) := by
  unfold execAonStart
  split <;> simp [h]

@[simp] theorem supplyUp_stays {up : BitVec 6} : Stays a (supplyUp up s) ↔ Stays a s := by
  simp [supplyUp]

@[simp] theorem settleAll_stays : Stays a (settleAll s) ↔ Stays a s := by
  simp [settleAll]

@[simp] theorem startFunction_stays {f : Func} : Stays a (startFunction f s) ↔ Stays a s := by
  unfold startFunction
  split <;> simp

@[simp] theorem execFunctionReady_stays {f : Func} {up : BitVec 6} (h : Stays a s) :
    OStays a (execFunctionReady f up s) := by
  simp [execFunctionReady, h]

@[simp] theorem endTrial_stays : Stays a (endTrial s) ↔ Stays a s := by
  simp [endTrial]

@[simp] theorem execMaskRomBoot_stays (h : Stays a s) : OStays a (execMaskRomBoot s) := by
  unfold execMaskRomBoot
  dsimp only
  (repeat' split) <;> simp [h]

@[simp] theorem execImageStart_stays (h : Stays a s) : OStays a (execImageStart s) := by
  unfold execImageStart
  split <;> simp [h]

@[simp] theorem loseClock_stays {acked : BitVec 64} {tdcvs : List (Fin 64 × Fin 128)} {ch : Nat} :
    Stays a (loseClock acked tdcvs ch s) ↔ Stays a s := by
  simp [loseClock]

@[simp] theorem stopIsland_stays {acked : BitVec 64} {tdcvs : List (Fin 64 × Fin 128)} {p : Pll} :
    Stays a (stopIsland acked tdcvs p s) ↔ Stays a s := by
  unfold stopIsland
  (repeat' split) <;> simp

@[simp] theorem execPllLossOfLock_stays {pll : Pll} {acked : BitVec 64} {tdcvs : List (Fin 64 × Fin 128)} (h : Stays a s) :
    OStays a (execPllLossOfLock pll acked tdcvs s) := by
  simp [execPllLossOfLock, h]

@[simp] theorem relockChan_stays {ch : Nat} : Stays a (relockChan ch s) ↔ Stays a s := by
  simp [relockChan]

@[simp] theorem restartRoute_stays {bits : BitVec 32} : Stays a (restartRoute bits s) ↔ Stays a s := by
  simp [restartRoute]

@[simp] theorem execPllRelock_stays {pll : Pll} (h : Stays a s) : OStays a (execPllRelock pll s) := by
  unfold execPllRelock
  (repeat' split) <;> simp [h]

@[simp] theorem execReferenceLoss_stays {acked : BitVec 64} {tdcvs : List (Fin 64 × Fin 128)} (h : Stays a s) :
    OStays a (execReferenceLoss acked tdcvs s) := by
  simp [execReferenceLoss, h]

@[simp] theorem execPfFlr_stays (h : Stays a s) : OStays a (execPfFlr s) := by
  simp [execPfFlr, h]

@[simp] theorem execPerstnRelease_stays (h : Stays a s) : OStays a (execPerstnRelease s) := by
  simp [execPerstnRelease, h]

/-! ### Machine/Scrub.lean -/

@[simp] theorem answerInterrupted_stays {p : Packet} (h : Stays a s) : Stays a (answerInterrupted p s) := by
  have force : VStays a (judge specForceSafe forceSafe p s) := judge_stays (fun _ _ h => forceSafe_stays h) h
  simp [answerInterrupted, h, force]

@[simp] theorem interruptOne_stays {p : Packet} (h : Stays a s) : Stays a (interruptOne p s) := by
  simp [interruptOne, h]

@[simp] theorem restartEngine_stays {cause : Nat} {interrupted : Option Packet} (h : Stays a s) :
    Stays a (restartEngine cause interrupted s) := by
  unfold restartEngine
  split <;> simp [h]

@[simp] theorem execLockstepMismatch_stays {pc : Word} {interrupted : Option Packet} (h : Stays a s) :
    OStays a (execLockstepMismatch pc interrupted s) := by
  simp [execLockstepMismatch, h]

@[simp] theorem goodPoolWord_stays {word : Nat} : Stays a (goodPoolWord word s) ↔ Stays a s := by
  unfold goodPoolWord
  split <;> simp

@[simp] theorem goodWord_stays {r : Region} {word : Nat} : Stays a (goodWord r word s) ↔ Stays a s := by
  unfold goodWord
  dsimp only
  (repeat' split) <;> simp

@[simp] theorem tableEvent_stays {kind n : Nat} : Stays a (tableEvent kind n s) ↔ Stays a s := by
  simp [tableEvent]

@[simp] theorem badSignal_stays {n : Nat} : Stays a (badSignal n s) ↔ Stays a s := by
  simp [badSignal]

@[simp] theorem disableFilter_stays {why n : Nat} : Stays a (disableFilter why n s) ↔ Stays a s := by
  unfold disableFilter
  split <;> simp

@[simp] theorem badFilter_stays {n : Nat} : Stays a (badFilter n s) ↔ Stays a s := by
  unfold badFilter
  split
  · simp
  · exact (forEach_stays_iff fun _ _ => by split <;> simp).trans (by simp)

@[simp] theorem badPdu_stays {n : Nat} : Stays a (badPdu n s) ↔ Stays a s := by
  simp [badPdu]

@[simp] theorem badDescriptor_stays {mo : Nat} : Stays a (badDescriptor mo s) ↔ Stays a s := by
  unfold badDescriptor
  split <;> simp

@[simp] theorem badRecord_stays {n : Nat} : Stays a (badRecord n s) ↔ Stays a s := by
  unfold badRecord
  split <;> simp

@[simp] theorem returnCredit_stays : Stays a (returnCredit s) ↔ Stays a s := by
  simp [returnCredit]

@[simp] theorem returnPlace_stays {c : Nat} : Stays a (returnPlace c s) ↔ Stays a s := by
  simp [returnPlace]

@[simp] theorem dropMasterReply_stays {i : Nat} : Stays a (dropMasterReply i s) ↔ Stays a s := by
  simp [dropMasterReply]

@[simp] theorem dropPacketAt_stays {q : QKind × Nat} {i : Nat} : Stays a (dropPacketAt q i s) ↔ Stays a s := by
  unfold dropPacketAt
  (repeat' split) <;> simp

@[simp] theorem badQueueWord_stays : Stays a (badQueueWord s) ↔ Stays a s := by
  unfold badQueueWord
  split <;> simp

@[simp] theorem badCensus_stays {n : Nat} : Stays a (badCensus n s) ↔ Stays a s := by
  simp [badCensus]

@[simp] theorem badFilm_stays : Stays a (badFilm s) ↔ Stays a s := by
  simp [badFilm]

@[simp] theorem badStatistics_stays : Stays a (badStatistics s) ↔ Stays a s := by
  unfold badStatistics
  dsimp only
  (repeat' split) <;> simp

@[simp] theorem badSecurity_stays {off : Nat} : Stays a (badSecurity off s) ↔ Stays a s := by
  simp [badSecurity]

@[simp] theorem badLogEntry_stays {n : Nat} : Stays a (badLogEntry n s) ↔ Stays a s := by
  simp [badLogEntry]

@[simp] theorem badMram_stays {r : Region} {off : Nat} : Stays a (badMram r off s) ↔ Stays a s := by
  unfold badMram
  split <;> simp

@[simp] theorem badWord_stays {r : Region} {word : Nat} {interrupted : Option Packet} (h : Stays a s) :
    Stays a (badWord r word interrupted s) := by
  unfold badWord
  split <;> simp [h]

@[simp] theorem execScrubPass_stays {region : Region} {addr : Nat} {finding : Finding} {interrupted : Option Packet} (h : Stays a s) :
    OStays a (execScrubPass region addr finding interrupted s) := by
  unfold execScrubPass
  dsimp only
  split
  · simp [h]
  · split
    · simp [h]
    · simp [h]
    · exact next_stays.mpr (logFault_stays.mpr (badWord_stays (modCounter_stays.mpr h)))

/-! ### Machine/SystemCmds.lean -/

@[simp] theorem identify_stays {p : Packet} (h : Stays a s) : VStays a (identify p s) := by
  simp [identify, h]

@[simp] theorem getReadiness_stays {p : Packet} (h : Stays a s) : VStays a (getReadiness p s) := by
  simp [getReadiness, h]

@[simp] theorem clearLoads_stays : Stays a (clearLoads s) ↔ Stays a s := by
  have same : LatchedOff (clearLoads s) ↔ LatchedOff s := by
    refine forall_congr' fun n => forall_congr' fun hn => ?_
    simp [clearLoads, State.ld, tget, vmap, hn, offLatched]
  rw [Stays, Stays, same]

@[simp] theorem clearRoutes_stays : Stays a (clearRoutes s) ↔ Stays a s := by
  simp [clearRoutes]

@[simp] theorem clearMonitors_stays : Stays a (clearMonitors s) ↔ Stays a s := by
  simp [clearMonitors]

@[simp] theorem clearQueues_stays {f : Nat → QStat → QStat} : Stays a (clearQueues f s) ↔ Stays a s := by
  simp [clearQueues]

@[simp] theorem clearQueueCounters_stays : Stays a (clearQueueCounters s) ↔ Stays a s := by
  simp [clearQueueCounters]

@[simp] theorem clearChannels_stays : Stays a (clearChannels s) ↔ Stays a s := by
  simp [clearChannels]

@[simp] theorem clearMemory_stays : Stays a (clearMemory s) ↔ Stays a s := by
  simp [clearMemory]

@[simp] theorem clearClasses_stays {mask : Nat} : Stays a (clearClasses mask s) ↔ Stays a s := by
  simp [clearClasses]

@[simp] theorem clearCounters_stays {p : Packet} (h : Stays a s) : VStays a (clearCounters p s) := by
  simp [clearCounters, h]

/-! ### Machine/SafetyCmds.lean -/

@[simp] theorem answerSafety_stays {status : Nat} {data : List Byte} : Stays a (answerSafety status data s) ↔ Stays a s := by
  simp [answerSafety]

@[simp] theorem failCrc_stays : Stays a (failCrc s) ↔ Stays a s := by
  simp [failCrc]

@[simp] theorem transact_stays {bytes : List Byte} {crc : Option Word} {valid : Bool} {act : State → State}
    (hk : ∀ t, Stays a t → Stays a (act t)) (h : Stays a s) :
    Stays a (transact bytes crc valid act s) := by
  unfold transact
  (repeat' split) <;> simp [hk, h]

@[simp] theorem viewEffect_stays {off : Nat} : Stays a (viewEffect off s) ↔ Stays a s := by
  unfold viewEffect
  split <;> simp

@[simp] theorem viewWords_stays {n off : Nat} : Stays a (viewWords n off s).2 ↔ Stays a s := by
  induction n generalizing off s with
  | zero => exact Iff.rfl
  | succ n ih => exact ih.trans viewEffect_stays

@[simp] theorem execSafetyRegisterRead_stays {typ : Byte} {arg count : Nat} {crc : Option Word} (h : Stays a s) :
    OStays a (execSafetyRegisterRead typ arg count crc s) := by
  simp [execSafetyRegisterRead, h]

@[simp] theorem viewWrite_stays {off : Nat} {v : Word} : Stays a (viewWrite off v s) ↔ Stays a s := by
  unfold viewWrite
  split <;> simp

@[simp] theorem viewWriteAll_stays {l : List Word} {off : Nat} : Stays a (viewWriteAll l off s) ↔ Stays a s := by
  induction l generalizing off s with
  | nil => exact Iff.rfl
  | cons v l ih => exact ih.trans viewWrite_stays

@[simp] theorem execSafetyRegisterWrite_stays {arg count : Nat} {words : List Word} {crc : Option Word} (h : Stays a s) :
    OStays a (execSafetyRegisterWrite arg count words crc s) := by
  simp [execSafetyRegisterWrite, h]

@[simp] theorem decodeForce_stays {p : Packet} (h : Stays a s) : Stays a (decodeForce p s) := by
  simp [decodeForce, h]

@[simp] theorem intakeSafety_forgetForce_stays {t : State} : Stays a (intakeSafety.forgetForce s t) ↔ Stays a t := stays_mk

@[simp] theorem intakeSafety_stays {p : Packet} {parity forceParity : Bool} (h : Stays a s) :
    Stays a (intakeSafety p parity forceParity s) := by
  simp [intakeSafety, h]

@[simp] theorem execSafetyPacketSend_stays {arg count : Nat} {data : List Byte} {crc : Option Word}
    {parity forceParity : Bool} (h : Stays a s) :
    OStays a (execSafetyPacketSend arg count data crc parity forceParity s) := by
  simp +contextual [execSafetyPacketSend, h]

@[simp] theorem takeSafetyReply_stays : Stays a (takeSafetyReply s) ↔ Stays a s := by
  unfold takeSafetyReply
  split <;> simp

@[simp] theorem loseSafetyReply_stays : Stays a (loseSafetyReply s) ↔ Stays a s := by
  simp [loseSafetyReply]

@[simp] theorem execSafetyPacketReceive_stays {arg count : Nat} {crc : Option Word} {parity : Bool} (h : Stays a s) :
    OStays a (execSafetyPacketReceive arg count crc parity s) := by
  simp [execSafetyPacketReceive, h]

/-! ### Machine/Tick.lean -/

@[simp] theorem idle_stays (h : Stays a s) : OStays a (idle s) := by
  simp [idle, h]

end Sys2Proof.Machine

end

