-- ==== Sys2Proof/Proofs/LatchedSteps.lean ====
section
/-!
PROOFS. O51, assembled: every step keeps the latched loads off.
-/

namespace Sys2Proof.Machine

/-- No thermal latch is set after reset (R522). -/
theorem latchedOff_of_reset {s : State} (e : s.load = loadMgrReset) : LatchedOff s := by
  intro n hn hot
  have k : s.ld n = loadReset := by simp [State.ld, e, loadMgrReset, tget, hn]
  rw [k] at hot
  cases hot

/-- A command from a packet. -/
theorem packet_stays {a s : State} {c : CmdSpec} {f : Packet → State → Verdict} {q : Packet}
    (hk : ∀ p s, Stays a s → VStays a (f p s)) (h : Stays a s) : OStays a (next (runCommand c f q s)) :=
  next_stays.mpr (runCommand_stays hk h)

/-- Every instruction but the three resets of the device keeps the latched loads off (R518). -/
theorem exec_stays_or_reset (c : Instr) (s : State) :
    OStays s (exec c s) ∨ (∃ x y z, c = .powerOnReset x y z) ∨ (∃ u x y z, c = .brownOut u x y z)
      ∨ (∃ x y z, c = .warmReset x y z) := by
  have kept := Stays.refl s
  cases c with
  | powerOnReset s1 s2 s3 => exact .inr (.inl ⟨_, _, _, rfl⟩)
  | brownOut supply s1 s2 s3 => exact .inr (.inr (.inl ⟨_, _, _, _, rfl⟩))
  | brownOutRestart => exact .inl (execBrownOutRestart_stays kept)
  | warmReset s1 s2 s3 => exact .inr (.inr (.inr ⟨_, _, _, rfl⟩))
  | pcieFundamentalReset => exact .inl (execPcieFundamentalReset_stays kept)
  | resumeFromRetain => exact .inl (execResumeFromRetain_stays kept)
  | aonStart => exact .inl (execAonStart_stays kept)
  | functionReady f up => exact .inl (execFunctionReady_stays kept)
  | maskRomBoot => exact .inl (execMaskRomBoot_stays kept)
  | imageStart => exact .inl (execImageStart_stays kept)
  | pllLossOfLock pll acked tdcvs => exact .inl (execPllLossOfLock_stays kept)
  | pllRelock pll => exact .inl (execPllRelock_stays kept)
  | referenceLoss acked tdcvs => exact .inl (execReferenceLoss_stays kept)
  | lockstepMismatch pc interrupted => exact .inl (execLockstepMismatch_stays kept)
  | commandPauseEnd slotGood => exact .inl (execCommandPauseEnd_stays kept)
  | scrubPass region addr finding interrupted => exact .inl (execScrubPass_stays kept)
  | vfEnable numVfs => exact .inl (execVfEnable_stays kept)
  | vfDisable => exact .inl (execVfDisable_stays kept)
  | contextStopBathEnd c => exact .inl (execContextStopBathEnd_stays kept)
  | vfFlr c => exact .inl (execVfFlr_stays kept)
  | vfFlrEnd c => exact .inl (execVfFlrEnd_stays kept)
  | pfFlr => exact .inl (execPfFlr_stays kept)
  | producerDoorbellWrite c k value => exact .inl (execProducerDoorbellWrite_stays kept)
  | consumerDoorbellWrite c k value => exact .inl (execConsumerDoorbellWrite_stays kept)
  | ringEnable c k ctrl => exact .inl (execRingEnable_stays kept)
  | ringDisable c k ctrl => exact .inl (execRingDisable_stays kept)
  | ringStopBathEnd c k => exact .inl (execRingStopBathEnd_stays kept)
  | dmaErrClear c k => exact .inl (execDmaErrClear_stays kept)
  | dmaReadError c k entry => exact .inl (execDmaReadError_stays kept)
  | irqCauseClear c value => exact .inl (execIrqCauseClear_stays kept)
  | irqMaskWrite c value => exact .inl (execIrqMaskWrite_stays kept)
  | msixHoldoffEnd c k => exact .inl (execMsixHoldoffEnd_stays kept)
  | wakeStatusClear bySafety high value => exact .inl (execWakeStatusClear_stays kept)
  | genTimeLoRead c => exact .inl (execGenTimeLoRead_stays kept)
  | clearOnReadCounterRead c offset count found => exact .inl (execClearOnReadCounterRead_stays kept)
  | winSelectWrite c value => exact .inl (execWinSelectWrite_stays kept)
  | windowLockTake c offset count found => exact .inl (execWindowLockTake_stays kept)
  | windowLockRelease c offset count found => exact .inl (execWindowLockRelease_stays kept)
  | windowLockTimeout c => exact .inl (execWindowLockTimeout_stays kept)
  | registerWrite c offset words allBytes => exact .inl (execRegisterWrite_stays kept)
  | safetyRegisterRead typ arg count crc => exact .inl (execSafetyRegisterRead_stays kept)
  | safetyRegisterWrite arg count words crc => exact .inl (execSafetyRegisterWrite_stays kept)
  | safetyPacketSend arg count data crc parity forceParity => exact .inl (execSafetyPacketSend_stays kept)
  | safetyPacketReceive arg count crc parity => exact .inl (execSafetyPacketReceive_stays kept)
  | replyRingWrite c parity => exact .inl (execReplyRingWrite_stays kept)
  | eventRingWrite c parity => exact .inl (execEventRingWrite_stays kept)
  | rxRingWrite c parity => exact .inl (execRxRingWrite_stays kept)
  | descriptorLanding c k entry payload parity => exact .inl (execDescriptorLanding_stays kept)
  | routedFrameIntake lane parity => exact .inl (execRoutedFrameIntake_stays kept)
  | candidateLatch ch stamp parity => exact .inl (execCandidateLatch_stays kept)
  | arbitrationLost ch => exact .inl (execArbitrationLost_stays kept)
  | arbitrationWon ch => exact .inl (execArbitrationWon_stays kept)
  | headerComplete ch hdr edges decision parity => exact .inl (execHeaderComplete_stays kept)
  | frameReceived ch len data parity => exact .inl (execFrameReceived_stays kept)
  | distributorCopy ch parity => exact .inl (execDistributorCopy_stays kept)
  | transmitSuccess ch acked tdcv => exact .inl (execTransmitSuccess_stays kept)
  | busErrorDetected ch code field ed row acked bytes tdcv edges => exact .inl (execBusErrorDetected_stays kept)
  | attemptFailed ch tdcv => exact .inl (execAttemptFailed_stays kept)
  | protocolException ch edges => exact .inl (execProtocolException_stays kept)
  | busIntegrationComplete ch => exact .inl (execBusIntegrationComplete_stays kept)
  | busIdle ch => exact .inl (execBusIdle_stays kept)
  | idleLimitExpiry c ch => exact .inl (execIdleLimitExpiry_stays kept)
  | stbnSettleEnd ch => exact .inl (execStbnSettleEnd_stays kept)
  | channelStopBathEnd ch => exact .inl (execChannelStopBathEnd_stays kept)
  | autoDelayExpiry ch => exact .inl (execAutoDelayExpiry_stays kept)
  | recoveryComplete ch => exact .inl (execRecoveryComplete_stays kept)
  | wakeDetected ch => exact .inl (execWakeDetected_stays kept)
  | powerTransitionComplete => exact .inl (execPowerTransitionComplete_stays kept)
  | developSwitch instant => exact .inl (execDevelopSwitch_stays kept)
  | contactSheetCapture bank => exact .inl (execContactSheetCapture_stays kept)
  | sheetBankRelease bank => exact .inl (execSheetBankRelease_stays kept)
  | slewEnd => exact .inl (execSlewEnd_stays kept)
  | ppsInCapture => exact .inl (execPpsInCapture_stays kept)
  | ppsStepLapse => exact .inl (execPpsStepLapse_stays kept)
  | ppsOutRise => exact .inl (execPpsOutRise_stays kept)
  | ppsOutFall => exact .inl (execPpsOutFall_stays kept)
  | trigioEdge ball rising => exact .inl (execTrigioEdge_stays kept)
  | triggerFire unit => exact .inl (execTriggerFire_stays kept)
  | triggerPulseEnd unit => exact .inl (execTriggerPulseEnd_stays kept)
  | shutterArmPoint mo => exact .inl (execShutterArmPoint_stays kept)
  | releaseNotice mo parity => exact .inl (execReleaseNotice_stays kept)
  | shutterInstant mo => exact .inl (execShutterInstant_stays kept)
  | deadlineTimerExpiry record => exact .inl (execDeadlineTimerExpiry_stays kept)
  | streamStopBathEnd record => exact .inl (execStreamStopBathEnd_stays kept)
  | arrivalPass lane parity => exact .inl (execArrivalPass_stays kept)
  | pduTimeout pdu => exact .inl (execPduTimeout_stays kept)
  | timeoutPass pdu => exact .inl (execTimeoutPass_stays kept)
  | periodicPackNotice pdu => exact .inl (execPeriodicPackNotice_stays kept)
  | periodicPass pdu => exact .inl (execPeriodicPass_stays kept)
  | deferredPass pdu => exact .inl (execDeferredPass_stays kept)
  | dinSample levels => exact .inl (execDinSample_stays kept)
  | ainRoundEnd codes vbats => exact .inl (execAinRoundEnd_stays kept)
  | vbatsFilterUpdate samples => exact .inl (execVbatsFilterUpdate_stays kept)
  | loadTick samples => exact .inl (execLoadTick_stays kept)
  | inrushWindowEnd ld => exact .inl (execInrushWindowEnd_stays kept)
  | backoffEnd ld => exact .inl (execBackoffEnd_stays kept)
  | healReached ld => exact .inl (execHealReached_stays kept)
  | loadStopBathEnd ld => exact .inl (execLoadStopBathEnd_stays kept)
  | pwmPeriodStart ld => exact .inl (execPwmPeriodStart_stays kept)
  | pwmHighEnd ld => exact .inl (execPwmHighEnd_stays kept)
  | chainTransferEnd swc response => exact .inl (execChainTransferEnd_stays kept)
  | cvuStopBathEnd unit => exact .inl (execCvuStopBathEnd_stays kept)
  | censusLostJudgement => exact .inl (execCensusLostJudgement_stays kept)
  | linkUp port partner => exact .inl (execLinkUp_stays kept)
  | linkDown port reason => exact .inl (execLinkDown_stays kept)
  | linkConflictRetry port => exact .inl (execLinkConflictRetry_stays kept)
  | linkStopBathEnd port => exact .inl (execLinkStopBathEnd_stays kept)
  | timeFrameReceived port f => exact .inl (execTimeFrameReceived_stays kept)
  | timeExchange t1 t2 t3 t4 => exact .inl (execTimeExchange_stays kept)
  | alignmentTimeout => exact .inl (execAlignmentTimeout_stays kept)
  | routeFrameReceived port f parity valid => exact .inl (execRouteFrameReceived_stays kept)
  | stepFrameReceived port f => exact .inl (execStepFrameReceived_stays kept)
  | cmdFrameReceived port f => exact .inl (execCmdFrameReceived_stays kept)
  | replyFrameReceived port f => exact .inl (execReplyFrameReceived_stays kept)
  | eventFrameReceived port f => exact .inl (execEventFrameReceived_stays kept)
  | discoverFrameReceived port f => exact .inl (execDiscoverFrameReceived_stays kept)
  | idleFrameReceived port f => exact .inl (execIdleFrameReceived_stays kept)
  | replayTimeout port => exact .inl (execReplayTimeout_stays kept)
  | discoverRound => exact .inl (execDiscoverRound_stays kept)
  | proofModeStart => exact .inl (execProofModeStart_stays kept)
  | fix selfTests => exact .inl (execFix_stays kept)
  | confirmTimerExpiry => exact .inl (execConfirmTimerExpiry_stays kept)
  | sessionIdleTimeout => exact .inl (execSessionIdleTimeout_stays kept)
  | identify p => exact .inl (packet_stays (fun _ _ => identify_stays) kept)
  | takeContactSheet p => exact .inl (packet_stays (fun _ _ => takeContactSheet_stays) kept)
  | getReadiness p => exact .inl (packet_stays (fun _ _ => getReadiness_stays) kept)
  | setPowerState p => exact .inl (execSetPowerState_stays kept)
  | setWake p => exact .inl (packet_stays (fun _ _ => setWake_stays) kept)
  | clearCounters p => exact .inl (packet_stays (fun _ _ => clearCounters_stays) kept)
  | readFaultLog p => exact .inl (packet_stays (fun _ _ => readFaultLog_stays) kept)
  | readContactSheet p => exact .inl (packet_stays (fun _ _ => readContactSheet_stays) kept)
  | getContext p => exact .inl (packet_stays (fun _ _ => getContext_stays) kept)
  | setContextQuota p => exact .inl (packet_stays (fun _ _ => setContextQuota_stays) kept)
  | setContextChannels p => exact .inl (packet_stays (fun _ _ => setContextChannels_stays) kept)
  | setContextRights p => exact .inl (packet_stays (fun _ _ => setContextRights_stays) kept)
  | quiesceContext p => exact .inl (packet_stays (fun _ _ => quiesceContext_stays) kept)
  | develop p => exact .inl (packet_stays (fun _ _ => develop_stays) kept)
  | discardLatent p => exact .inl (packet_stays (fun _ _ => discardLatent_stays) kept)
  | getLatent p => exact .inl (packet_stays (fun _ _ => getLatent_stays) kept)
  | cancelDevelop p => exact .inl (packet_stays (fun _ _ => cancelDevelop_stays) kept)
  | setChannelMode p => exact .inl (packet_stays (fun _ _ => setChannelMode_stays) kept)
  | setBitTiming p => exact .inl (packet_stays (fun _ _ => setBitTiming_stays) kept)
  | enableChannel p => exact .inl (packet_stays (fun _ _ => enableChannel_stays) kept)
  | disableChannel p => exact .inl (packet_stays (fun _ _ => disableChannel_stays) kept)
  | cancelTx p => exact .inl (packet_stays (fun _ _ => cancelTx_stays) kept)
  | recoverBusOff p => exact .inl (packet_stays (fun _ _ => recoverBusOff_stays) kept)
  | getChannelStatus p => exact .inl (packet_stays (fun _ _ => getChannelStatus_stays) kept)
  | setTransceiver p => exact .inl (packet_stays (fun _ _ => setTransceiver_stays) kept)
  | allocMo p => exact .inl (packet_stays (fun _ _ => allocMo_stays) kept)
  | configMo p => exact .inl (packet_stays (fun _ _ => configMoCmd_stays) kept)
  | freeMo p => exact .inl (packet_stays (fun _ _ => freeMo_stays) kept)
  | readMo p found => exact .inl (packet_stays (fun _ _ => readMo_stays) kept)
  | writeFilter p => exact .inl (packet_stays (fun _ _ => writeFilter_stays) kept)
  | clearFilter p => exact .inl (packet_stays (fun _ _ => clearFilter_stays) kept)
  | readFilter p => exact .inl (packet_stays (fun _ _ => readFilter_stays) kept)
  | getFilterStats p => exact .inl (packet_stays (fun _ _ => getFilterStats_stays) kept)
  | configQueue p => exact .inl (packet_stays (fun _ _ => configQueue_stays) kept)
  | setWatermark p => exact .inl (packet_stays (fun _ _ => setWatermark_stays) kept)
  | getQueueStatus p => exact .inl (packet_stays (fun _ _ => getQueueStatus_stays) kept)
  | getTime p => exact .inl (packet_stays (fun _ _ => getTime_stays) kept)
  | adjustRate p => exact .inl (packet_stays (fun _ _ => adjustRate_stays) kept)
  | stepTime p => exact .inl (packet_stays (fun _ _ => stepTime_stays) kept)
  | setShutter p => exact .inl (packet_stays (fun _ _ => setShutter_stays) kept)
  | clearShutter p => exact .inl (packet_stays (fun _ _ => clearShutter_stays) kept)
  | setTrigger p => exact .inl (packet_stays (fun _ _ => setTrigger_stays) kept)
  | setPps p => exact .inl (packet_stays (fun _ _ => setPps_stays) kept)
  | declareStream p => exact .inl (packet_stays (fun _ _ => declareStream_stays) kept)
  | withdrawStream p => exact .inl (packet_stays (fun _ _ => withdrawStream_stays) kept)
  | declareForeign p => exact .inl (packet_stays (fun _ _ => declareForeign_stays) kept)
  | setFaultBudget p => exact .inl (packet_stays (fun _ _ => setFaultBudget_stays) kept)
  | admitRoute p => exact .inl (packet_stays (fun _ _ => admitRoute_stays) kept)
  | getExposure p => exact .inl (packet_stays (fun _ _ => getExposure_stays) kept)
  | ackUnassured p => exact .inl (packet_stays (fun _ _ => ackUnassured_stays) kept)
  | getMonitors p => exact .inl (packet_stays (fun _ _ => getMonitors_stays) kept)
  | writePdu p => exact .inl (packet_stays (fun _ _ => writePdu_stays) kept)
  | writeSignal p => exact .inl (packet_stays (fun _ _ => writeSignal_stays) kept)
  | writeRoute p => exact .inl (packet_stays (fun _ _ => writeRoute_stays) kept)
  | loadBundleBlock p => exact .inl (packet_stays (fun _ _ => loadBundleBlock_stays) kept)
  | readSignal p => exact .inl (packet_stays (fun _ _ => readSignal_stays) kept)
  | setLocalIo p => exact .inl (packet_stays (fun _ _ => setLocalIo_stays) kept)
  | getRouteStats p => exact .inl (packet_stays (fun _ _ => getRouteStats_stays) kept)
  | configCvu p => exact .inl (packet_stays (fun _ _ => configCvuCmd_stays) kept)
  | feedCvu p => exact .inl (packet_stays (fun _ _ => feedCvu_stays) kept)
  | readCvu p => exact .inl (packet_stays (fun _ _ => readCvu_stays) kept)
  | writeCvuValue p => exact .inl (packet_stays (fun _ _ => writeCvuValue_stays) kept)
  | enableCvu p => exact .inl (packet_stays (fun _ _ => enableCvu_stays) kept)
  | disableCvu p => exact .inl (packet_stays (fun _ _ => disableCvu_stays) kept)
  | bindLoad p => exact .inl (packet_stays (fun _ _ => bindLoad_stays) kept)
  | setSwitchProfile p => exact .inl (packet_stays (fun _ _ => setSwitchProfile_stays) kept)
  | setLoad p => exact .inl (packet_stays (fun _ _ => setLoadCmd_stays) kept)
  | setLoadPolicy p => exact .inl (packet_stays (fun _ _ => setLoadPolicy_stays) kept)
  | forceSafe p => exact .inl (next_stays.mpr (pruneDecoded_stays.mpr (runCommand_stays (fun _ _ => forceSafe_stays) kept)))
  | getLoadStatus p => exact .inl (packet_stays (fun _ _ => getLoadStatus_stays) kept)
  | resetLoadLatch p => exact .inl (packet_stays (fun _ _ => resetLoadLatch_stays) kept)
  | enableLoad p => exact .inl (packet_stays (fun _ _ => enableLoad_stays) kept)
  | disableLoad p => exact .inl (packet_stays (fun _ _ => disableLoad_stays) kept)
  | getStack p => exact .inl (packet_stays (fun _ _ => getStack_stays) kept)
  | configLink p => exact .inl (packet_stays (fun _ _ => configLink_stays) kept)
  | getCensus p => exact .inl (packet_stays (fun _ _ => getCensus_stays) kept)
  | clearCensus p => exact .inl (packet_stays (fun _ _ => clearCensus_stays) kept)
  | setCensusEvents p => exact .inl (packet_stays (fun _ _ => setCensusEvents_stays) kept)
  | enableLink p => exact .inl (packet_stays (fun _ _ => enableLink_stays) kept)
  | disableLink p => exact .inl (packet_stays (fun _ _ => disableLink_stays) kept)
  | openSession p => exact .inl (packet_stays (fun _ _ => openSession_stays) kept)
  | writeImageBlock p => exact .inl (packet_stays (fun _ _ => writeImageBlock_stays) kept)
  | closeSession p => exact .inl (packet_stays (fun _ _ => closeSession_stays) kept)
  | activate p => exact .inl (packet_stays (fun _ _ => activate_stays) kept)
  | approve p => exact .inl (packet_stays (fun _ _ => approve_stays) kept)
  | veto p => exact .inl (packet_stays (fun _ _ => veto_stays) kept)
  | rejectImage p => exact .inl (packet_stays (fun _ _ => rejectImage_stays) kept)
  | getUpdateStatus p => exact .inl (packet_stays (fun _ _ => okBody_stays.mpr) kept)
  | setOwnerLock p => exact .inl (packet_stays (fun _ _ => setOwnerLock_stays) kept)
  | clearOwnerLock p => exact .inl (packet_stays (fun _ _ => clearOwnerLock_stays) kept)
  | getSecurity p => exact .inl (packet_stays (fun _ _ => getSecurity_stays) kept)
  | perstnRelease => exact .inl (execPerstnRelease_stays kept)
  | commandEntryFetched c entry parity => exact .inl (execCommandEntryFetched_stays kept)
  | undefinedOpcodeCommand p => exact .inl (execUndefinedOpcodeCommand_stays kept)
  | overloadFrameSeen ch => exact .inl (execOverloadFrameSeen_stays kept)
  | recessiveSequenceCounted ch => exact .inl (execRecessiveSequenceCounted_stays kept)
  | fastFrameLost ch edges => exact .inl (execFastFrameLost_stays kept)
  | filmstripDrainEnd => exact .inl (execFilmstripDrainEnd_stays kept)
  | linkTrainingFailed port reason => exact .inl (execLinkTrainingFailed_stays kept)

/-- The three resets clear every latch, or leave the loads as they are where they do nothing (R522). -/
theorem exec_latchedOff {c : Instr} {s t : State} (x : LatchedOff s) (e : exec c s = .next t) : LatchedOff t := by
  have settled : ∀ u : State, u.load = loadMgrReset → LatchedOff (fcSettle u) :=
    fun u hu => fcSettle_stays.mpr (Stays.refl u) (latchedOff_of_reset hu)
  rcases exec_stays_or_reset c s with ⟨u, eu, k⟩ | ⟨s1, s2, s3, rfl⟩ | ⟨u, s1, s2, s3, rfl⟩ | ⟨s1, s2, s3, rfl⟩
  · rw [eu] at e
    cases e
    exact k x
  · cases e
    exact settled _ rfl
  · change execBrownOut u s1 s2 s3 s = .next t at e
    unfold execBrownOut at e
    split at e <;> cases e
    · exact fcSettle_stays.mpr (stays_mk.mpr (Stays.refl s)) x
    · exact settled _ rfl
  · change execWarmReset s1 s2 s3 s = .next t at e
    unfold execWarmReset at e
    dsimp only at e
    split at e
    · cases e
      exact fcSettle_stays.mpr (Stays.refl s) x
    · cases e
      split
      · exact settled _ (logFault_tells _ _ _ _ (Tells.refl _)).load
      · exact settled _ rfl

end Sys2Proof.Machine

open Sys2Proof Sys2Proof.Machine

/-- Settles O51: `LatchedOff` is kept by every instruction (`exec_latchedOff`) and by the idle step. What keeps it is that the state of a
load is written by `setLoad` alone, and that a tick turns on only a load whose latch it has found cool (`cool_of_state`). -/
theorem latchedLoadsStayOff : Obligations.LatchedLoadsStayOff := by
  intro s t x e
  cases h : s.pending with
  | nil =>
    rw [step_idle h] at e
    cases e
    exact fcSettle_stays.mpr (filmDrainOne_stays.mpr (passCycles_stays.mpr (Stays.refl s))) x
  | cons c rest =>
    rw [step_cons h] at e
    exact exec_latchedOff (s := { s with pending := rest }) x e

end
